-- ==== Sys2Proof/Word.lean ====
section
/-! DEFINITION. The word types of the XN4 and the plainest facts of their widths (R2, R9, R78). -/

namespace Sys2Proof

/-- A 32-bit register value: one lane of a V register, or an S register (R9). -/
abbrev Word := BitVec 32

/-- A register pair, a pointer or a 64-bit count (R9, R32). -/
abbrev DWord := BitVec 64

/-- One byte of memory. -/
abbrev Byte := BitVec 8

/-- A lane PC: address bits [55:3] of an instruction word (R78). -/
abbrev Pc := BitVec 53

/-- One bit for each lane of a group. -/
abbrev LaneMask := BitVec 32

/-- The lane PC that marks an exited lane: all ones (R78). -/
def exitPc : Pc := 0x1FFFFFFFFFFFFF#53

/-- Lanes of a group (R16). -/
def laneCount : Nat := 32

end Sys2Proof
end

