-- ==== Sys2Proof/Machine/Bits.lean ====
section
/-! DEFINITION. Bit fields, sign extension, byte order and lane lists (R2, R7, R8): the helpers every other file uses. -/

namespace Sys2Proof.Machine

/-- The 32 lane numbers in ascending order (R7 item 3). -/
def lanes32 : List Nat :=
  [0, 1, 2, 3, 4, 5, 6, 7, 8, 9, 10, 11, 12, 13, 14, 15, 16, 17, 18, 19, 20, 21, 22, 23, 24, 25, 26, 27, 28, 29, 30, 31]

/-- Bits `[lo+n-1:lo]` of a number (R2). -/
def bitsOf (x lo n : Nat) : Nat := (x >>> lo) % 2 ^ n

/-- The 32-bit two's-complement value with the low `n` bits of `x` (R8). -/
def sextNat (x : Nat) (n : Nat) : Int :=
  let m := x % 2 ^ n
  if n = 0 then 0 else if m < 2 ^ (n - 1) then (m : Int) else (m : Int) - (2 : Int) ^ n

/-- A word's value as a signed integer (R8). -/
def sval (w : Word) : Int := sextNat w.toNat 32

/-- A 64-bit value as a signed integer (R8). -/
def sval64 (w : DWord) : Int := sextNat w.toNat 64

/-- Narrowing to 32 bits keeps the low bits (R7 item 2). -/
def narrow (i : Int) : Word := BitVec.ofInt 32 i

/-- Narrowing to 64 bits keeps the low bits (R7 item 2). -/
def narrow64 (i : Int) : DWord := BitVec.ofInt 64 i

/-- The low half of a 64-bit value (R32). -/
def lo32 (d : DWord) : Word := d.setWidth 32

/-- The high half of a 64-bit value (R32). -/
def hi32 (d : DWord) : Word := (d >>> 32).setWidth 32

/-- A pair of words as one 64-bit value, low half first (R32). -/
def pair64 (lo hi : Word) : DWord := (hi.setWidth 64 <<< 32) ||| lo.setWidth 64

/-- The bytes of a number, least significant first (R2). -/
def toBytes : Nat → Nat → List Byte
  | 0, _ => []
  | n + 1, x => BitVec.ofNat 8 x :: toBytes n (x / 256)

/-- The number of bytes, least significant first (R2). -/
def ofBytes : List Byte → Nat
  | [] => 0
  | b :: t => b.toNat + 256 * ofBytes t

/-- The mask of the lanes that meet a test. -/
def maskOf (f : Nat → Bool) : LaneMask :=
  BitVec.ofNat 32 (lanes32.foldl (fun acc l => if f l then acc + 2 ^ l else acc) 0)

/-- The lanes of a mask in ascending order. -/
def lanesOf (m : LaneMask) : List Nat := lanes32.filter (fun l => m.getLsbD l)

/-- The lowest lane of a mask. -/
def lowestLane (m : LaneMask) : Option Nat := (lanesOf m).head?

/-- The number of lanes of a mask. -/
def laneCountOf (m : LaneMask) : Nat := (lanesOf m).length

/-- `n` rounded up to a multiple of `m`. -/
def roundUp (n m : Nat) : Nat := if m = 0 then n else ((n + m - 1) / m) * m

/-- Put `n` bits of value `v` at bit `lo` of a record under construction. -/
def field (lo n v : Nat) : Nat := (v % 2 ^ n) <<< lo

/-- The number of one bits among the low `n` bits. -/
def popNat : Nat → Nat → Nat
  | 0, _ => 0
  | n + 1, x => x % 2 + popNat n (x / 2)

end Sys2Proof.Machine
end

