-- ==== Sys2Proof/Syntax.lean ====
section
/-! DEFINITION. The instruction words of the XN4 and the machine's events, one constructor of `Instr` for each row of
spec/opcode_table.json. Operand fields and modifiers are what their encodings stand for (R28–R34 and the class chapters);
raw encodings are met in Decode only. -/

namespace Sys2Proof

/-- An operand field of 10 bits (R30): V0–V255, S0–S383, ZERO, LANE, QLANE or an immediate of 8 bits. -/
inductive Opnd where
  | v (n : Fin 256)
  | s (n : Fin 384)
  | zero
  | lane
  | qlane
  | imm (i : BitVec 8)
  deriving DecidableEq, Repr

/-- A predicate code (R34): 0–7 are P0–P7 and 8–15 are Q0–Q7. -/
inductive PCode where
  | p (n : Fin 8)
  | q (n : Fin 8)
  deriving DecidableEq, Repr

/-- What every full and wide word carries beside its opcode (R28, R36, R45): region entry, stall count, guard negate, guard
index. -/
structure Hdr where
  e : Bool
  stall : Fin 16
  gn : Bool
  gi : Fin 8
  deriving DecidableEq, Repr

/-- Saturation of IADD and ISUB (R55). -/
inductive Sat where
  | wrap | sat | satu
  deriving DecidableEq, Repr

/-- The three forms of LEA (R66): tag kept, .FULL, .32. -/
inductive LeaForm where
  | tag | full | w32
  deriving DecidableEq, Repr

/-- Conditions of ICMP and ICMP64 (R63). -/
inductive ICond where
  | eq | ne | lt | le | gt | ge | ltu | leu | gtu | geu
  deriving DecidableEq, Repr

/-- Conditions of FCMP (R110). -/
inductive FCond where
  | eq | ne | lt | le | gt | ge | num | nan | ltu | leu | gtu | geu | equ | lg
  deriving DecidableEq, Repr

/-- How a comparison combines with another predicate (R63). -/
inductive Comb where
  | none | and | or | xor
  deriving DecidableEq, Repr

/-- The combining fields of a comparison (R63): operation, negation and predicate index. -/
structure PComb where
  comb : Comb
  cn : Bool
  ci : Fin 8
  deriving DecidableEq, Repr

/-- Modes of QXCH (R68). -/
inductive QMode where
  | xh | xv | xd | b0 | b1 | b2 | b3
  deriving DecidableEq, Repr

/-- Modes of SHFL (R69). -/
inductive ShMode where
  | idx | up | down | xor
  deriving DecidableEq, Repr

/-- Modes of VOTE (R70). -/
inductive VMode where
  | all | any | uni
  deriving DecidableEq, Repr

/-- Operations of GRED and GSCAN (R74). -/
inductive RedOp where
  | add | min | max | minu | maxu | and | or | xor
  deriving DecidableEq, Repr

/-- Kinds of MASK (R75). -/
inductive MaskKind where
  | act | live | help
  deriving DecidableEq, Repr

/-- Pair-half opcodes 0–23 (R43). -/
inductive HalfOp where
  | mov | iadd | isub | and | or | xor | shl | shr | sar | imin | imax | imul
  | fadd | fsub | fmul | fmin | fmax | hadd2 | hmul2 | badd2 | bmul2 | popc | cvtFI | cvtIF
  deriving DecidableEq, Repr

/-- One half of a pair word (R28, R43): opcode, guard (7 is always), destination and first source, source. -/
structure Half where
  op : HalfOp
  g : Fin 8
  d : Opnd
  a : Opnd
  deriving DecidableEq, Repr

/-- Sizes of PUSH and POP (R81). -/
inductive StkSize where
  | b32 | b64 | b128
  deriving DecidableEq, Repr

/-- Rounding modes of a 2-bit field (R104). -/
inductive Rnd where
  | rn | rz | ru | rd
  deriving DecidableEq, Repr

/-- Rounding modes of a 3-bit field (R104): the four and .RNEF. -/
inductive RndE where
  | rn | rz | ru | rd | rnef
  deriving DecidableEq, Repr

/-- Modifiers of FADD, FSUB, FMUL, FMIN and FMAX (R107, R109). -/
structure FMods where
  nega : Bool
  negb : Bool
  absa : Bool
  absb : Bool
  deriving DecidableEq, Repr

/-- Number types (R115). -/
inductive NumTy where
  | fp32 | fp16 | bf16 | e4m3 | e5m2 | e2m1 | e8m0
  | int4 | uint4 | int8 | uint8 | int16 | uint16 | int32 | uint32 | int64 | uint64
  deriving DecidableEq, Repr

/-- Address spaces (R124). -/
inductive Space where
  | g | c | k | d | l
  deriving DecidableEq, Repr

/-- Access sizes of LD and ST (R129). -/
inductive MSize where
  | b32 | b8 | b16 | b64 | b128
  deriving DecidableEq, Repr

/-- Cache policies (R129, R140). -/
inductive Pol where
  | keep | stream | bypass
  deriving DecidableEq, Repr

/-- Modifiers of LD, ST, LDU and STU (R129). -/
structure MemMod where
  sp : Space
  sz : MSize
  sx : Bool
  pol : Pol
  deriving DecidableEq, Repr

/-- Levels of PREF (R142). -/
inductive PLvl where
  | l1 | l2 | llc
  deriving DecidableEq, Repr

/-- Operations of ATOM and RED (R182). -/
inductive AOp where
  | xchg | add | and | or | xor | min | max | minu | maxu | inc | dec
  deriving DecidableEq, Repr

/-- Operations of FATOM and FREDM (R184). -/
inductive FAOp where
  | add | min | max | addh2 | addb2
  deriving DecidableEq, Repr

/-- Order modifiers of an atomic word (R180). -/
inductive AOrd where
  | rlx | acq | rel | ar | sc
  deriving DecidableEq, Repr

/-- Scopes (R179). -/
inductive Scope where
  | pkg | grp | team | clu | die | sys
  deriving DecidableEq, Repr

/-- Modifiers of an atomic word (R180). -/
structure AtomMod where
  sp : Space
  w64 : Bool
  ord : AOrd
  scope : Scope
  deriving DecidableEq, Repr

/-- Orders of FENCE (R191). -/
inductive FOrd where
  | sc | acq | rel | ar
  deriving DecidableEq, Repr

/-- Modes of FENCEX (R192). -/
inductive FxMode where
  | io | out | inn
  deriving DecidableEq, Repr

/-- Classes of barrier (R208). -/
inductive BarCls where
  | team | cluster
  deriving DecidableEq, Repr

/-- Watch conditions (R214). -/
inductive WCond where
  | eq | ne | lt | ge
  deriving DecidableEq, Repr

/-- Modifiers of a watch word (R217). -/
structure WatchMod where
  cond : WCond
  un : Bool
  w64 : Bool
  deriving DecidableEq, Repr

/-- Element types of MMA, codes 0–13 (R248). -/
inductive MmaTy where
  | bf16 | fp16 | e4m3 | e5m2 | e4m3e5m2 | e5m2e4m3
  | int8 | uint8 | int8uint8 | uint8int8 | int4 | uint4 | int4uint4 | uint4int4
  deriving DecidableEq, Repr

/-- Fragment kinds of LDM and STM (R254). -/
inductive FragKind where
  | fop | facc | fcpx
  deriving DecidableEq, Repr

/-- Element sizes of a transposed operand fragment (R254). -/
inductive FragEs where
  | none | e4 | e8 | e16
  deriving DecidableEq, Repr

/-- Modifiers of LDM and STM (R254). -/
structure FragMod where
  sp : Space
  kind : FragKind
  t : Bool
  es : FragEs
  deriving DecidableEq, Repr

/-- Record sizes of EMIT and CONT (R323): 32, 16 or 64 bytes. -/
inductive RecSize where
  | r32 | r16 | r64
  deriving DecidableEq, Repr

/-- Operations of FRED (R123). -/
inductive FRedOp where
  | add | min | max
  deriving DecidableEq, Repr

/-- Forms of SPLITRD (R386). -/
inductive SplitForm where
  | port | core | ctx
  deriving DecidableEq, Repr

/-- A request that arrives over Yosonlink for memory homed here (R409). -/
inductive YosReq where
  | load (pa n : Nat)
  | store (pa : Nat) (bytes : List Byte)
  | atom (pa : Nat) (op : AOp) (w64 : Bool) (b : DWord)
  | fatom (pa : Nat) (op : FAOp) (b : Word)
  | cas (pa : Nat) (w64 : Bool) (b c : DWord)
  deriving DecidableEq, Repr

/-- The rows of spec/opcode_table.json: first the words, chapter by chapter, then the events, which are steps of the machine that
no word stands for. -/
inductive Instr where
  -- 03 Integer, Address, Predicate and Exchange Instructions
  | mov (h : Hdr) (d a : Opnd)
  | iadd (h : Hdr) (d a b : Opnd) (m : Sat)
  | iadd64 (h : Hdr) (d a b : Opnd)
  | isub (h : Hdr) (d a b : Opnd) (m : Sat)
  | isub64 (h : Hdr) (d a b : Opnd)
  | imul (h : Hdr) (d a b : Opnd)
  | imulh (h : Hdr) (d a b : Opnd)
  | imulhu (h : Hdr) (d a b : Opnd)
  | imad (h : Hdr) (d a b c : Opnd)
  | imadw (h : Hdr) (d a b c : Opnd) (un : Bool)
  | idiv (h : Hdr) (d a b : Opnd) (un : Bool)
  | irem (h : Hdr) (d a b : Opnd) (un : Bool)
  | imin (h : Hdr) (d a b : Opnd) (un : Bool)
  | imax (h : Hdr) (d a b : Opnd) (un : Bool)
  | iabs (h : Hdr) (d a : Opnd) (sat : Bool)
  | isad (h : Hdr) (d a b c : Opnd) (un : Bool)
  | and (h : Hdr) (d a b : Opnd)
  | or (h : Hdr) (d a b : Opnd)
  | xor (h : Hdr) (d a b : Opnd)
  | andn (h : Hdr) (d a b : Opnd)
  | shl (h : Hdr) (d a b : Opnd)
  | shr (h : Hdr) (d a b : Opnd)
  | sar (h : Hdr) (d a b : Opnd)
  | shl64 (h : Hdr) (d a b : Opnd)
  | shr64 (h : Hdr) (d a b : Opnd)
  | sar64 (h : Hdr) (d a b : Opnd)
  | fshl (h : Hdr) (d a b c : Opnd) (clamp : Bool)
  | fshr (h : Hdr) (d a b c : Opnd) (clamp : Bool)
  | popc (h : Hdr) (d a : Opnd)
  | clz (h : Hdr) (d a : Opnd)
  | ctz (h : Hdr) (d a : Opnd)
  | brev (h : Hdr) (d a : Opnd)
  | bfe (h : Hdr) (d a b c : Opnd) (sx : Bool)
  | bfi (h : Hdr) (d a b c : Opnd)
  | sext (h : Hdr) (d a b : Opnd)
  | zext (h : Hdr) (d a b : Opnd)
  | icmp (h : Hdr) (d : PCode) (a b : Opnd) (k : PComb) (cond : ICond)
  | icmp64 (h : Hdr) (d : PCode) (a b : Opnd) (k : PComb) (cond : ICond)
  | sel (h : Hdr) (d a b : Opnd) (neg : Bool) (n : Fin 8)
  | plop (h : Hdr) (d a b : PCode) (lut : BitVec 4)
  | lea (h : Hdr) (d a b : Opnd) (form : LeaForm) (sx : Bool) (sh : Fin 8)
  | moviFull (h : Hdr) (d : Opnd) (imm : BitVec 24)
  | moviWide (h : Hdr) (d : Opnd) (imm : BitVec 32)
  | movihFull (h : Hdr) (d : Opnd) (imm : BitVec 24)
  | movihWide (h : Hdr) (d : Opnd) (imm : BitVec 32)
  | iaddiFull (h : Hdr) (d a : Opnd) (imm : BitVec 24)
  | iaddiWide (h : Hdr) (d : Opnd) (imm : BitVec 32)
  | qxch (h : Hdr) (d a : Opnd) (mode : QMode)
  | shfl (h : Hdr) (d a b : Opnd) (w : Fin 6) (mode : ShMode)
  | vote (h : Hdr) (d : Fin 8) (a : PCode) (mode : VMode)
  | ballot (h : Hdr) (d : Opnd) (a : PCode)
  | matchw (h : Hdr) (d a : Opnd) (w64 : Bool)
  | elect (h : Hdr) (d : Fin 8)
  | readlane (h : Hdr) (d a b : Opnd)
  | writelane (h : Hdr) (d a b : Opnd)
  | gred (h : Hdr) (d a : Opnd) (op : RedOp)
  | gscan (h : Hdr) (d a : Opnd) (exc : Bool) (op : RedOp)
  | mask (h : Hdr) (d : Opnd) (kind : MaskKind)
  -- 02 Pairs
  | pairWord (e : Bool) (stall : Fin 8) (h0 h1 : Half)
  -- 04 Control Flow, Divergence and Regions
  | nop (h : Hdr)
  | braFull (h : Hdr) (off : BitVec 24)
  | braWide (h : Hdr) (off : BitVec 32)
  | brx (h : Hdr) (a : Opnd)
  | bruFull (h : Hdr) (off : BitVec 24)
  | bruWide (h : Hdr) (off : BitVec 32)
  | callFull (h : Hdr) (off : BitVec 24)
  | callWide (h : Hdr) (off : BitVec 32)
  | callx (h : Hdr) (a : Opnd)
  | ret (h : Hdr)
  | exit (h : Hdr)
  | yield (h : Hdr) (n : BitVec 8)
  | rdvpc (h : Hdr) (d a : Opnd)
  | wrvpc (h : Hdr) (a b : Opnd)
  | sleepc (h : Hdr) (a : Opnd)
  | trap (h : Hdr) (code : BitVec 8)
  | bkpt (h : Hdr) (code : BitVec 8)
  | hret (h : Hdr)
  | push (h : Hdr) (a : Opnd) (sz : StkSize)
  | pop (h : Hdr) (d : Opnd) (sz : StkSize)
  | salloc (h : Hdr) (d a : Opnd)
  | sfree (h : Hdr) (a : Opnd)
  -- 05 Number Formats and Floating-Point Instructions
  | fadd (h : Hdr) (d a b : Opnd) (r : Rnd) (m : FMods)
  | fsub (h : Hdr) (d a b : Opnd) (r : Rnd) (m : FMods)
  | fmul (h : Hdr) (d a b : Opnd) (r : Rnd) (m : FMods)
  | ffma (h : Hdr) (d a b c : Opnd) (r : Rnd) (nega negc : Bool)
  | ffma2 (h : Hdr) (d a b c : Opnd) (r : Rnd) (nega negc : Bool)
  | fmin (h : Hdr) (d a b : Opnd) (pr : Bool) (m : FMods)
  | fmax (h : Hdr) (d a b : Opnd) (pr : Bool) (m : FMods)
  | fcmp (h : Hdr) (d : PCode) (a b : Opnd) (k : PComb) (cond : FCond)
  | hadd2 (h : Hdr) (d a b : Opnd)
  | hmul2 (h : Hdr) (d a b : Opnd)
  | hfma2 (h : Hdr) (d a b c : Opnd)
  | badd2 (h : Hdr) (d a b : Opnd)
  | bmul2 (h : Hdr) (d a b : Opnd)
  | bfma2 (h : Hdr) (d a b c : Opnd)
  | frcp (h : Hdr) (d a : Opnd) (r : Rnd)
  | frsq (h : Hdr) (d a : Opnd) (r : Rnd)
  | fsqrt (h : Hdr) (d a : Opnd) (r : Rnd)
  | fex2 (h : Hdr) (d a : Opnd) (r : Rnd)
  | flg2 (h : Hdr) (d a : Opnd) (r : Rnd)
  | fsin (h : Hdr) (d a : Opnd) (r : Rnd)
  | fcos (h : Hdr) (d a : Opnd) (r : Rnd)
  | ftanh (h : Hdr) (d a : Opnd) (r : Rnd)
  | fdiv (h : Hdr) (d a b : Opnd) (r : Rnd)
  | cvt (h : Hdr) (d a : Opnd) (dt st : NumTy) (rm : RndE) (sat : Bool)
  | cvtp (h : Hdr) (d a b : Opnd) (dt : NumTy) (rm : RndE) (sat : Bool)
  | unpk (h : Hdr) (d a : Opnd) (st : NumTy)
  | qblk (h : Hdr) (d a b : Opnd)
  | mxq (h : Hdr) (d a b : Opnd) (rnef : Bool)
  | fred (h : Hdr) (d a : Opnd) (op : FRedOp) (r : Rnd)
  | cmulh2 (h : Hdr) (d a b : Opnd) (conj : Bool)
  | cfmah2 (h : Hdr) (d a b c : Opnd) (conj : Bool)
  -- 06 Memory Access Instructions and the Hierarchy
  | ld (h : Hdr) (d a b : Opnd) (m : MemMod)
  | st (h : Hdr) (d a b : Opnd) (m : MemMod)
  | ldu (h : Hdr) (d a b : Opnd) (m : MemMod)
  | stu (h : Hdr) (d a b : Opnd) (m : MemMod)
  | touch (h : Hdr) (a b : Opnd) (rd : Bool)
  | pref (h : Hdr) (a b : Opnd) (lvl : PLvl)
  | flush (h : Hdr) (a b : Opnd) (l2 : Bool)
  | inv (h : Hdr) (a b : Opnd) (l2 : Bool)
  | vprobe (h : Hdr) (d a b : Opnd)
  -- 08 Atomics, Fences and the Memory Model
  | atom (h : Hdr) (d a b : Opnd) (op : AOp) (m : AtomMod)
  | cas (h : Hdr) (d a b : Opnd) (m : AtomMod)
  | casar (h : Hdr) (d a b : Opnd) (m : AtomMod) (n : Fin 8)
  | red (h : Hdr) (a b : Opnd) (op : AOp) (m : AtomMod)
  | fatom (h : Hdr) (d a b : Opnd) (op : FAOp) (m : AtomMod)
  | fredm (h : Hdr) (a b : Opnd) (op : FAOp) (m : AtomMod)
  | fence (h : Hdr) (ord : FOrd) (scope : Scope)
  | fencex (h : Hdr) (mode : FxMode)
  -- 09 Barriers and the Watch Table
  | bara (h : Hdr) (d : Opnd) (n : Fin 16)
  | barw (h : Hdr) (n : Fin 16) (a : Opnd)
  | bars (h : Hdr) (n : Fin 16)
  | cbara (h : Hdr) (d : Opnd) (n : Fin 8)
  | cbarw (h : Hdr) (n : Fin 8) (a : Opnd)
  | cbars (h : Hdr) (n : Fin 8)
  | barx (h : Hdr) (cls : BarCls) (n : Fin 16)
  | watch (h : Hdr) (d a b : Opnd) (m : WatchMod)
  | watcht (h : Hdr) (d a b c : Opnd) (m : WatchMod)
  | watchh (h : Hdr) (d a b c : Opnd) (m : WatchMod)
  -- 10 Asynchronous Copy and Tiles
  | talloc (h : Hdr) (n : Fin 64) (a b : Opnd)
  | tfree (h : Hdr) (n : Fin 64)
  | tstate (h : Hdr) (d : Opnd) (n : Fin 64) (bytes : Bool)
  | twait (h : Hdr) (n : Fin 64) (a b : Opnd)
  | ttest (h : Hdr) (d : Fin 8) (n : Fin 64) (a b : Opnd)
  | texpect (h : Hdr) (n : Fin 64) (a : Opnd)
  | tdrain (h : Hdr) (n : Fin 64)
  | xload (h : Hdr) (n : Fin 64) (a b : Opnd) (rmask : BitVec 4) (win s24 mc : Bool)
  | xstore (h : Hdr) (n : Fin 64) (a b : Opnd)
  | xfence (h : Hdr) (st : Bool)
  | xstat (h : Hdr) (d : Opnd)
  | xpref (h : Hdr) (a b : Opnd)
  -- 11 Matrix Fragment Instructions
  | mma (h : Hdr) (d a b c : Opnd) (ty : MmaTy)
  | mmas (h : Hdr) (d a b c : Opnd) (ty : MmaTy)
  | mmac (h : Hdr) (d a b c : Opnd) (conj : Bool)
  | mmax (h : Hdr) (d a b c : Opnd)
  | ldm (h : Hdr) (d a b : Opnd) (m : FragMod)
  | stm (h : Hdr) (d a b : Opnd) (m : FragMod)
  -- 12 Block Matrix Jobs and the Accumulator Store
  | mxb (h : Hdr) (d a b c : Opnd)
  | mxbw (h : Hdr) (d a : Opnd)
  | mxbt (h : Hdr) (d : PCode) (a : Opnd)
  | accz (h : Hdr) (d a : Opnd)
  | accld (h : Hdr) (d a b : Opnd) (st : NumTy)
  | accst (h : Hdr) (d a b : Opnd) (dt st : NumTy) (rm : RndE) (sat : Bool)
  | accrd (h : Hdr) (d a : Opnd)
  -- 13 The Slalom Sequencer
  | slvcfg (h : Hdr) (d a b : Opnd)
  | slvinit (h : Hdr) (d a b : Opnd)
  | slvstage (h : Hdr) (d a b : Opnd)
  | slvput (h : Hdr) (d a b : Opnd)
  | slvstep (h : Hdr) (d a b : Opnd)
  | slvstat (h : Hdr) (d a b : Opnd)
  -- 14 Creating Work: Launches, Nodes and Continuations
  | launch (h : Hdr) (d a : Opnd)
  | emit (h : Hdr) (a b : Opnd) (rs : RecSize)
  | cont (h : Hdr) (a b : Opnd) (rs : RecSize)
  | notify (h : Hdr) (d a b : Opnd)
  | nodeq (h : Hdr) (d a : Opnd)
  -- 15 Traps, Contexts and Pre-emption
  | rdsys (h : Hdr) (d : Opnd) (w64 : Bool) (n : Fin 1024)
  | wrsys (h : Hdr) (a : Opnd) (w64 : Bool) (n : Fin 1024)
  | syscall (h : Hdr) (d a b : Opnd)
  | tret (h : Hdr) (d a b c : Opnd)
  | ctxload (h : Hdr) (d a b : Opnd)
  | ctxsaveEvict (h : Hdr) (d a b : Opnd)
  | ctxsaveDestroy (h : Hdr) (d a : Opnd)
  | preemptSpatial (h : Hdr) (d a : Opnd)
  | preemptHalt (h : Hdr) (d a : Opnd)
  | preemptStop (h : Hdr) (d a : Opnd)
  | preemptResume (h : Hdr) (d a : Opnd)
  | preemptRdreg (h : Hdr) (d a : Opnd)
  | preemptWrreg (h : Hdr) (d a : Opnd)
  | dump (h : Hdr) (d a : Opnd)
  -- 16 Dies, Supervisors and the Single System Image
  | msgsend (h : Hdr) (d a b : Opnd) (mc : Bool) (q : Fin 3)
  | msgrecv (h : Hdr) (d a : Opnd) (nb : Bool)
  | invapply (h : Hdr) (d a : Opnd)
  | tlbinv (h : Hdr) (d a : Opnd)
  | zeropg (h : Hdr) (d a b : Opnd)
  -- 17 Splits, Sampling and Replay
  | splitrd (h : Hdr) (d a : Opnd) (form : SplitForm)
  | splitsnap (h : Hdr) (d a : Opnd) (all : Bool)
  | mark (h : Hdr) (tag : BitVec 8) (a : Opnd)
  | sampcfg (h : Hdr) (d a : Opnd)
  | clock (h : Hdr) (d : Opnd)
  | retcnt (h : Hdr) (d : Opnd)
  -- Events of the machine's own agents, chapter by chapter
  | illegalWordKill (gid : Nat)
  | sleepEnd (gid : Nat)
  | stackSpill (gid : Nat)
  | stackFill (gid : Nat)
  | regionRestart (gid : Nat)
  | registerComplete (gid : Nat)
  | sideLogReplay (core entry : Nat)
  | chunkReissue (job : Nat)
  | atomicPerform (id : Nat)
  | barrierWake (gid : Nat)
  | watchEvaluate (sect idx : Nat)
  | watchTimeout (sect idx : Nat)
  | copyJobStart (job : Nat)
  | mcPartStart (job part : Nat)
  | chunkSettle (job : Nat)
  | copyJobComplete (job : Nat)
  | mxbJobStart (job : Nat)
  | accJobStart (job : Nat)
  | kblockEnd (job : Nat)
  | mxbJobComplete (job : Nat)
  | slvOpCommit (cluster : Nat)
  | parseGrid (q : Nat)
  | parseOpen (q : Nat)
  | parseClose (q : Nat)
  | nodeGather (ctx node : Nat)
  | gatherTimerExpiry (ctx node : Nat)
  | nodeDrained (ctx node : Nat)
  | placeTeam (ctx : Nat)
  | successorForm (team : Nat)
  | teamRetire (team : Nat)
  | gridComplete (grid : Nat)
  | queueResetComplete (port : Nat)
  | dumpRun (die : Nat)
  | dumpDone (die : Nat)
  | trapEntry (gid : Nat)
  | teamSave (team : Nat)
  | sliceEnd (core : Nat)
  | ownerChange (core : Nat)
  | groomerReport (die : Nat)
  | shootdownApply (die : Nat)
  | lazyApply (die : Nat)
  | drainDone (die : Nat)
  | traceDeliver (core : Nat)
  | headroomDeliver (port : Nat)
  | writeAcknowledged (id : Nat)
  | touchWindowClose (gid : Nat)
  | pageWalkComplete (cluster ctx : Nat) (ptr : DWord)
  | accessCountNotify (cluster : Nat)
  | sample (core port : Nat)
  | overflowFold (core port : Nat)
  -- Events that arrive from outside: hardware faults, the supervisors' and the host's register writes, links and power
  | correctedError (die : Nat)
  | uncorrectableWriteback (pa : Nat)
  | patrolScrub (die : Nat)
  | qtailWrite (port : Nat) (v : Word)
  | portEnable (port : Nat)
  | portDisable (port : Nat)
  | qreset (port : Nat)
  | dieLoss (die : Nat)
  | fmResetRequest (v : Word)
  | linkWidthChange (a b n : Nat)
  | linkClockChange (a b : Nat)
  | hostMemAccess (write : Bool) (pa : Nat) (bytes : List Byte)
  | hostSnoop (pa : Nat) (bytes : List Byte)
  | yosonTimeout (pa : Nat)
  | yosonPortFail (port : Nat)
  | frameReceive (port : Nat) (frame : List Byte) (fcsOk : Bool)
  | nvmeCompletion (ctx : Nat) (ptr : DWord) (bytes : List Byte) (toDevice : Bool)
  | powerUp
  | loadfe
  | loaddie (die : Nat)
  | quote
  | clockPlan (target : Nat)
  | powerMeasure (watts : Nat) (temps : List Nat)
  | supplyShutdown
  | packageLoss
  | ceClear (die : Nat)
  | unmatchedClear (port : Nat)
  | badfcsClear (port : Nat)
  | ringEnable (port ring : Nat) (en : Bool)
  | csetWrite (ctx word : Nat) (val : DWord)
  | registerWrite (pa : Nat) (val : DWord) (viaBar0 : Bool)
  | ethernetLinkChange (port : Nat) (up : Bool)
  | yosonlinkRequest (req : YosReq)
  deriving DecidableEq, Repr

end Sys2Proof
end

