-- ==== Sys2Proof/Machine/Float.lean ====
section
/-! DEFINITION. Number formats, rounding, NaNs, exact arithmetic and conversions (R102–R106, R111, R116, R117). Exact values are
dyadic rationals; a result that is no dyadic rational is carried as a dyadic lower bound with a sticky mark. -/

namespace Sys2Proof.Machine

/-- A floating format (R102): width, mantissa bits, bias, the code of the largest finite magnitude, the code a result that would
be infinite gets, and the canonical NaN (R105). -/
structure Fmt where
  w : Nat
  mb : Nat
  bias : Nat
  maxFin : Nat
  infCode : Nat
  canon : Nat
  deriving DecidableEq, Repr

def fp32 : Fmt := ⟨32, 23, 127, 0x7F7FFFFF, 0x7F800000, 0x7FC00000⟩
def fp16 : Fmt := ⟨16, 10, 15, 0x7BFF, 0x7C00, 0x7E00⟩
def bf16 : Fmt := ⟨16, 7, 127, 0x7F7F, 0x7F80, 0x7FC0⟩
def e4m3 : Fmt := ⟨8, 3, 7, 0x7E, 0x7F, 0x7F⟩
def e5m2 : Fmt := ⟨8, 2, 15, 0x7B, 0x7C, 0x7E⟩
def e2m1 : Fmt := ⟨4, 1, 1, 7, 7, 0⟩

/-- The value of a code: NaN, an infinity, or (−1)^neg · m · 2^e. -/
inductive FVal where
  | nan
  | inf (neg : Bool)
  | fin (neg : Bool) (m : Nat) (e : Int)
  deriving DecidableEq, Repr

/-- The sign bit of a code. -/
def Fmt.neg (f : Fmt) (c : Nat) : Bool := c.testBit (f.w - 1)
/-- The magnitude bits of a code. -/
def Fmt.mag (f : Fmt) (c : Nat) : Nat := c % 2 ^ (f.w - 1)
/-- A code from its sign and magnitude bits. -/
def Fmt.code (f : Fmt) (neg : Bool) (m : Nat) : Nat := (if neg then 2 ^ (f.w - 1) else 0) + m

/-- The value of a code (R102). -/
def Fmt.val (f : Fmt) (c : Nat) : FVal :=
  let m := f.mag c
  if m > f.maxFin then
    (if decide (m = f.infCode) && decide (f.infCode ≠ f.canon) then .inf (f.neg c) else .nan)
  else
    let e := m / 2 ^ f.mb
    let frac := m % 2 ^ f.mb
    if e = 0 then .fin (f.neg c) frac (1 - (f.bias : Int) - f.mb)
    else .fin (f.neg c) (frac + 2 ^ f.mb) ((e : Int) - f.bias - f.mb)

/-- Which way an inexact magnitude between two neighbours is rounded (R104): `odd` the lower neighbour, `cmp` below, at or
above the middle. -/
def roundsUp (r : Rnd) (neg odd : Bool) (cmp : Ordering) : Bool :=
  match r with
  | .rn => (match cmp with | .gt => true | .eq => odd | .lt => false)
  | .rz => false
  | .ru => !neg
  | .rd => neg

/-- The magnitude m · 2^e, or a value strictly between m and m + 1 times 2^e, divided by 2^q and rounded to an integer. With
`sticky` the caller gives m enough bits for q to exceed e by two or more. -/
def roundInt (r : Rnd) (neg : Bool) (m : Nat) (e : Int) (sticky : Bool) (q : Int) : Nat :=
  if q ≤ e then m <<< (e - q).toNat
  else
    let k := (q - e).toNat
    let n := m >>> k
    let rem := m % 2 ^ k
    let half := 2 ^ (k - 1)
    if decide (rem = 0) && !sticky then n
    else
      let cmp : Ordering := if rem > half then .gt else if rem < half then .lt else if sticky then .gt else .eq
      if roundsUp r neg (decide (n % 2 = 1)) cmp then n + 1 else n

/-- The result of an overflow (R104). -/
def Fmt.overflow (f : Fmt) (r : Rnd) (neg sat : Bool) : Nat :=
  f.code neg (if sat then f.maxFin else match r with
    | .rn => f.infCode
    | .rz => f.maxFin
    | .ru => if neg then f.maxFin else f.infCode
    | .rd => if neg then f.infCode else f.maxFin)

/-- A nonzero real rounded once to a format (R104). -/
def Fmt.roundMag (f : Fmt) (r : Rnd) (sat neg : Bool) (m : Nat) (e : Int) (sticky : Bool) : Nat :=
  let msb := e + (Nat.log2 m : Int)
  let emin : Int := 1 - (f.bias : Int)
  let q := (if msb < emin then emin else msb) - f.mb
  let n := roundInt r neg m e sticky q
  let code := (n : Int) + (q + f.mb + f.bias - 1) * 2 ^ f.mb
  if code > f.maxFin then f.overflow r neg sat else f.code neg code.toNat

/-- An exact value rounded to a format (R104, R105): NaN is canonical, an infinity stays one where the format has it. -/
def Fmt.round (f : Fmt) (r : Rnd) (sat : Bool) (v : FVal) : Nat :=
  match v with
  | .nan => f.canon
  | .inf neg => f.code neg (if sat then f.maxFin else f.infCode)
  | .fin neg m e => if m = 0 then f.code neg 0 else f.roundMag r sat neg m e false

def FVal.neg : FVal → FVal
  | .nan => .nan
  | .inf n => .inf (!n)
  | .fin n m e => .fin (!n) m e
def FVal.isNan : FVal → Bool
  | .nan => true
  | _ => false
def FVal.isInf : FVal → Bool
  | .inf _ => true
  | _ => false
def FVal.isZero : FVal → Bool
  | .fin _ 0 _ => true
  | _ => false
def FVal.sign : FVal → Bool
  | .nan => false
  | .inf n => n
  | .fin n _ _ => n

/-- A finite value as an integer multiple of 2^q, for q no larger than its exponent. -/
def scaled (neg : Bool) (m : Nat) (e q : Int) : Int := (if neg then -1 else 1) * ((m <<< (e - q).toNat : Nat) : Int)

/-- An exact product (R104). -/
def mulV (x y : FVal) : FVal :=
  match x, y with
  | .nan, _ => .nan
  | _, .nan => .nan
  | .inf a, .inf b => .inf (a != b)
  | .inf a, .fin b m _ => if m = 0 then .nan else .inf (a != b)
  | .fin a m _, .inf b => if m = 0 then .nan else .inf (a != b)
  | .fin a m e, .fin b n k => .fin (a != b) (m * n) (e + k)

/-- An exact sum, with the sign of a zero sum by the mode (R104). -/
def addV (r : Rnd) (x y : FVal) : FVal :=
  match x, y with
  | .nan, _ => .nan
  | _, .nan => .nan
  | .inf a, .inf b => if a = b then .inf a else .nan
  | .inf a, .fin _ _ _ => .inf a
  | .fin _ _ _, .inf b => .inf b
  | .fin a m e, .fin b n k =>
    if m = 0 ∧ n = 0 then .fin (if a = b then a else decide (r = .rd)) 0 0
    else
      let q := if e < k then e else k
      let t := scaled a m e q + scaled b n k q
      if t = 0 then .fin (decide (r = .rd)) 0 0 else .fin (decide (t < 0)) t.natAbs q

/-- The order of two values that are not NaN: −1, 0 or 1. -/
def cmpV (x y : FVal) : Int :=
  match x, y with
  | .inf a, .inf b => if a = b then 0 else if a then -1 else 1
  | .inf a, _ => if a then -1 else 1
  | _, .inf b => if b then 1 else -1
  | .fin a m e, .fin b n k =>
    let q := if e < k then e else k
    let t := scaled a m e q - scaled b n k q
    if t = 0 then 0 else if t < 0 then -1 else 1
  | _, _ => 0

/-- A sum, a product and a fused multiply-add in a format (R107). -/
def Fmt.add (f : Fmt) (r : Rnd) (a b : Nat) : Nat := f.round r false (addV r (f.val a) (f.val b))
def Fmt.mul (f : Fmt) (r : Rnd) (a b : Nat) : Nat := f.round r false (mulV (f.val a) (f.val b))
def Fmt.fma (f : Fmt) (r : Rnd) (nega negc : Bool) (a b c : Nat) : Nat :=
  let p := mulV (f.val a) (f.val b)
  f.round r false (addV r (if nega then p.neg else p) (if negc then (f.val c).neg else f.val c))

/-- Division (R112): a quotient of finite nonzero values is carried with 64 bits beyond both mantissas and a sticky mark. -/
def Fmt.div (f : Fmt) (r : Rnd) (a b : Nat) : Nat :=
  match f.val a, f.val b with
  | .nan, _ => f.canon
  | _, .nan => f.canon
  | .inf _, .inf _ => f.canon
  | .inf x, .fin y _ _ => f.code (x != y) f.infCode
  | .fin x _ _, .inf y => f.code (x != y) 0
  | .fin x m e, .fin y n k =>
    if m = 0 ∧ n = 0 then f.canon
    else if m = 0 then f.code (x != y) 0
    else if n = 0 then f.code (x != y) f.infCode
    else
      let num := m <<< 96
      f.roundMag r false (x != y) (num / n) (e - k - 96) (decide (num % n ≠ 0))

/-- An integer's code in a format (R31, R116). -/
def Fmt.ofInt (f : Fmt) (r : Rnd) (sat : Bool) (i : Int) : Nat := f.round r sat (.fin (decide (i < 0)) i.natAbs 0)

/-- minimumNumber and maximumNumber on codes (R109): one operand's bits, −0 below +0. -/
def fminMax (max prop : Bool) (a b : Nat) : Nat :=
  let x := fp32.val a
  let y := fp32.val b
  if x.isNan && y.isNan then fp32.canon
  else if x.isNan || y.isNan then (if prop then fp32.canon else if x.isNan then b else a)
  else
    let c := cmpV x y
    let less : Bool := if c = 0 then (x.sign && !y.sign) else decide (c < 0)
    let same : Bool := decide (c = 0) && decide (x.sign = y.sign)
    if same then a else if less != max then a else b

/-- FCMP's relation (R110). -/
def fcmpVal (c : FCond) (a b : Nat) : Bool :=
  let x := fp32.val a
  let y := fp32.val b
  let un := x.isNan || y.isNan
  let o := cmpV x y
  match c with
  | .eq => !un && decide (o = 0)
  | .ne => un || decide (o ≠ 0)
  | .lt => !un && decide (o < 0)
  | .le => !un && decide (o ≤ 0)
  | .gt => !un && decide (o > 0)
  | .ge => !un && decide (o ≥ 0)
  | .num => !un
  | .nan => un
  | .ltu => un || decide (o < 0)
  | .leu => un || decide (o ≤ 0)
  | .gtu => un || decide (o > 0)
  | .geu => un || decide (o ≥ 0)
  | .equ => un || decide (o = 0)
  | .lg => !un && decide (o ≠ 0)

/-- Modifiers of a source (R107): absolute value, then negation. -/
def fmod (absx negx : Bool) (c : Nat) : Nat :=
  let c := if absx then c % 2 ^ 31 else c
  if negx then (if c ≥ 2 ^ 31 then c - 2 ^ 31 else c + 2 ^ 31) else c

/-- Integer square root by bits, from bit `n` down. -/
def isqrtBits : Nat → Nat → Nat → Nat
  | 0, _, r => r
  | n + 1, x, r => let t := r + 2 ^ n; isqrtBits n x (if t * t ≤ x then t else r)
/-- The integer square root of a number below 2^(2·n). -/
def isqrt (n x : Nat) : Nat := isqrtBits n x 0

/-- π · 2^512 and ln 2 · 2^512, rounded down. -/
def piFix : Nat := 0x3243f6a8885a308d313198a2e03707344a4093822299f31d0082efa98ec4e6c89452821e638d01377be5466cf34e90c6cc0ac29b7c97c50dd3f84d5b5b5470917
def ln2Fix : Nat := 0xb17217f7d1cf79abc9e3b39803f2f6af40f343267298b62d8a0d175b8baafa2be7b876206debac98559552fb4afa1b10ed2eae35c138214427573b291169b825

/-- Fixed-point arithmetic with 320 fraction bits: far more than any correctly rounded FP32 result of R111 needs. -/
def fixBits : Nat := 320
def fixOne : Nat := 2 ^ fixBits
def ln2At : Nat := ln2Fix / 2 ^ (512 - fixBits)

/-- e^x for 0 ≤ x < 1 by its series: `n` terms from term `k`. -/
def expSeries : Nat → Nat → Nat → Nat → Nat
  | 0, _, _, _ => 0
  | n + 1, k, x, t => t + expSeries n (k + 1) x (t * x / fixOne / (k + 1))
def expFix (x : Nat) : Nat := expSeries 90 0 x fixOne

/-- 2·atanh(z) = ln((1 + z)/(1 − z)) by its series. -/
def atanhSeries : Nat → Nat → Nat → Nat → Nat
  | 0, _, _, _ => 0
  | n + 1, k, z2, p => 2 * p / k + atanhSeries n (k + 2) z2 (p * z2 / fixOne)
/-- ln m for 1 ≤ m < 2. -/
def lnFix (m : Nat) : Nat :=
  let z := (m - fixOne) * fixOne / (m + fixOne)
  atanhSeries 105 1 (z * z / fixOne) z

/-- sin and cos of 0 ≤ x ≤ π/4 by their series: terms of alternating sign from term `k`. -/
def trigSeries : Nat → Nat → Nat → Int → Int
  | 0, _, _, _ => 0
  | n + 1, k, x2, t => t + trigSeries n (k + 2) x2 (-(t * x2 / fixOne / ((k + 1) * (k + 2))))
def sinFix (x : Nat) : Nat := (trigSeries 50 1 (x * x / fixOne) x).toNat
def cosFix (x : Nat) : Nat := (trigSeries 50 0 (x * x / fixOne) fixOne).toNat

/-- A fixed-point result that is no dyadic rational, rounded to FP32. -/
def roundFix (r : Rnd) (neg : Bool) (v : Nat) : Nat := fp32.roundMag r false neg v (-(fixBits : Int)) true

/-- A value just below m · 2^e in magnitude, rounded to FP32: results too close to their leading term for fixed point. -/
def roundBelow (r : Rnd) (neg : Bool) (m : Nat) (e : Int) : Nat := fp32.roundMag r false neg (m * 2 ^ 64 - 1) (e - 64) true
/-- A value just above m · 2^e in magnitude, rounded to FP32. -/
def roundAbove (r : Rnd) (neg : Bool) (m : Nat) (e : Int) : Nat := fp32.roundMag r false neg (m * 2 ^ 64) (e - 64) true

/-- m · 2^e as fixed point. -/
def toFix (m : Nat) (e : Int) : Nat := if e + fixBits ≥ 0 then m <<< (e + fixBits).toNat else m >>> (-(e + fixBits)).toNat

/-- FRCP (R111). -/
def frcpVal (r : Rnd) (c : Nat) : Nat :=
  match fp32.val c with
  | .nan => fp32.canon
  | .inf n => fp32.code n 0
  | .fin n m e =>
    if m = 0 then fp32.code n fp32.infCode
    else fp32.roundMag r false n (2 ^ 96 / m) (-e - 96) (decide (2 ^ 96 % m ≠ 0))

/-- FRSQ (R111). -/
def frsqVal (r : Rnd) (c : Nat) : Nat :=
  match fp32.val c with
  | .nan => fp32.canon
  | .inf n => if n then fp32.canon else 0
  | .fin n m e =>
    if m = 0 then fp32.code n fp32.infCode
    else if n then fp32.canon
    else
      let odd : Bool := decide (e % 2 ≠ 0)
      let m2 := if odd then 2 * m else m
      let e2 : Int := if odd then e - 1 else e
      let q := 2 ^ 160 / m2
      let s := isqrt 80 q
      fp32.roundMag r false false s (-80 - e2 / 2) (decide (s * s * m2 ≠ 2 ^ 160))

/-- FSQRT (R111). -/
def fsqrtVal (r : Rnd) (c : Nat) : Nat :=
  match fp32.val c with
  | .nan => fp32.canon
  | .inf n => if n then fp32.canon else fp32.infCode
  | .fin n m e =>
    if m = 0 then fp32.code n 0
    else if n then fp32.canon
    else
      let odd : Bool := decide (e % 2 ≠ 0)
      let m2 := (if odd then 2 * m else m) <<< 96
      let e2 : Int := if odd then e - 1 else e
      let s := isqrt 61 m2
      fp32.roundMag r false false s (e2 / 2 - 48) (decide (s * s ≠ m2))

/-- FEX2 (R111). -/
def fex2Val (r : Rnd) (c : Nat) : Nat :=
  match fp32.val c with
  | .nan => fp32.canon
  | .inf n => if n then 0 else fp32.infCode
  | .fin n m e =>
    let i : Int := if e ≥ 0 then scaled n (m <<< (min e 16).toNat) 0 0 else scaled n m 0 0 / 2 ^ (-e).toNat
    let whole : Bool := decide (e ≥ 0) || decide (m % 2 ^ (-e).toNat = 0)
    if m = 0 then 0x3F800000
    else if i ≥ 200 then fp32.overflow r false false
    else if i < -250 then fp32.roundMag r false false 1 (-300) true
    else if whole then fp32.roundMag r false false 1 i false
    else if e + (Nat.log2 m : Int) < -64 then (if n then roundBelow r false 1 0 else roundAbove r false 1 0)
    else
      let frac := (scaled n m 0 0 - i * 2 ^ (-e).toNat).toNat
      fp32.roundMag r false false (expFix (toFix frac e * ln2At / fixOne)) (i - fixBits) true

/-- FLG2 (R111). -/
def flg2Val (r : Rnd) (c : Nat) : Nat :=
  match fp32.val c with
  | .nan => fp32.canon
  | .inf n => if n then fp32.canon else fp32.infCode
  | .fin n m e =>
    let k := Nat.log2 m
    if m = 0 then fp32.code true fp32.infCode
    else if n then fp32.canon
    else if m = 2 ^ k then fp32.ofInt r false (e + k)
    else
      let l := lnFix (toFix m (-(k : Int))) * fixOne / ln2At
      let v := (e + k) * fixOne + (l : Int)
      roundFix r (decide (v < 0)) v.natAbs

/-- An angle's quadrant and its remainder: |a| = k · π/2 + x with 0 ≤ x < π/2. -/
def reduceAngle (m : Nat) (e : Int) : Nat × Nat :=
  let a := if e + 512 ≥ 0 then m <<< (e + 512).toNat else m >>> (-(e + 512)).toNat
  let h := piFix / 2
  (a / h, a % h / 2 ^ (512 - fixBits))

/-- sin and cos of an angle in [0, π/2). -/
def quarter (x : Nat) : Nat × Nat :=
  let h := piFix / 2 / 2 ^ (512 - fixBits)
  if 2 * x ≤ h then (sinFix x, cosFix x) else (cosFix (h - x), sinFix (h - x))

/-- FSIN (R111). -/
def fsinVal (r : Rnd) (c : Nat) : Nat :=
  match fp32.val c with
  | .nan => fp32.canon
  | .inf _ => fp32.canon
  | .fin n m e =>
    if m = 0 then c
    else if e + (Nat.log2 m : Int) < -64 then roundBelow r n m e
    else
      let (k, x) := reduceAngle m e
      let (s, co) := quarter x
      let v := if k % 2 = 0 then s else co
      roundFix r (n != decide (k % 4 ≥ 2)) v

/-- FCOS (R111). -/
def fcosVal (r : Rnd) (c : Nat) : Nat :=
  match fp32.val c with
  | .nan => fp32.canon
  | .inf _ => fp32.canon
  | .fin _ m e =>
    if m = 0 then 0x3F800000
    else if e + (Nat.log2 m : Int) < -64 then roundBelow r false 1 0
    else
      let (k, x) := reduceAngle m e
      let (s, co) := quarter x
      let v := if k % 2 = 0 then co else s
      roundFix r (decide (k % 4 = 1) || decide (k % 4 = 2)) v

/-- FTANH (R111): (1 − t)/(1 + t) with t = e^(−2|a|). -/
def ftanhVal (r : Rnd) (c : Nat) : Nat :=
  match fp32.val c with
  | .nan => fp32.canon
  | .inf n => fp32.code n 0x3F800000
  | .fin n m e =>
    if m = 0 then c
    else if e + (Nat.log2 m : Int) < -64 then roundBelow r n m e
    else if e + (Nat.log2 m : Int) ≥ 6 then roundBelow r n 1 0
    else
      let y := 2 * toFix m e
      let k := y / ln2At + 1
      let t := expFix (k * ln2At - y) / 2 ^ k
      roundFix r n ((fixOne - t) * fixOne / (fixOne + t))

/-- A float code of a narrower format as FP32, NaNs as R117 says. -/
def Fmt.toFp32 (f : Fmt) (c : Nat) : Nat :=
  match f.val c with
  | .nan =>
    let s := if f.neg c then 2 ^ 31 else 0
    let m := c % 2 ^ f.mb
    if f = fp32 then c
    else if f = fp16 then s + (0x7F800000 ||| (m <<< 13))
    else if f = bf16 then (c % 2 ^ 16) <<< 16
    else if f = e5m2 then s + (0x7F800000 ||| (m <<< 21))
    else s + 0x7FC00000
  | v => fp32.round .rn false v

/-- An FP32 NaN in another format (R117). -/
def Fmt.nanOf (f : Fmt) (a : Nat) : Nat :=
  let neg := fp32.neg a
  if f = fp32 then a
  else if f = fp16 then
    let m := bitsOf a 13 10
    f.code neg (0x7C00 + (if m = 0 then 0x200 else m))
  else if f = bf16 then
    let m := bitsOf a 16 7
    f.code neg (0x7F80 + (if m = 0 then 0x40 else m))
  else if f = e4m3 then f.code neg 0x7F
  else if f = e5m2 then
    let m := bitsOf a 21 2
    f.code neg (0x7C + (if m = 0 then 2 else m))
  else 0

/-- FP32 converted to a floating format (R116, R117). -/
def Fmt.ofFp32 (f : Fmt) (r : Rnd) (sat : Bool) (a : Nat) : Nat :=
  match fp32.val a with
  | .nan => f.nanOf a
  | v => f.round r sat v

/-- FP32 to E8M0 (R117). -/
def toE8m0 (r : Rnd) (a : Nat) : Nat :=
  match fp32.val a with
  | .nan => 0xFF
  | .inf _ => 0xFF
  | .fin _ m e =>
    if m = 0 then 0
    else
      let fl := e + (Nat.log2 m : Int)
      let x := if decide (r = .ru) && decide (m ≠ 2 ^ Nat.log2 m) then fl + 1 else fl
      (min (max (x + 127) 0) 254).toNat
/-- E8M0 to FP32 (R117). -/
def ofE8m0 (c : Nat) : Nat := if c % 256 = 0xFF then 0x7FC00000 else if c % 256 = 0 then 0x00400000 else (c % 256) <<< 23

/-- One step of an error-feedback chain (R106): the code and the new carry. -/
def rnefStep (f : Fmt) (sat : Bool) (carry x : Nat) : Nat × Nat :=
  match fp32.val x with
  | .nan => (f.nanOf x, 0)
  | .inf n => (f.round .rn sat (.inf n), 0)
  | _ =>
    let s := if carry = 0 then x else fp32.add .rn x carry
    match fp32.val s with
    | .fin _ _ _ =>
      let q := f.round .rn true (fp32.val s)
      (q, fp32.round .rn false (addV .rn (fp32.val s) (f.val q).neg))
    | v => (f.code v.sign f.maxFin, 0)

/-- The floating format of a number type. -/
def fmtOf : NumTy → Option Fmt
  | .fp32 => some fp32
  | .fp16 => some fp16
  | .bf16 => some bf16
  | .e4m3 => some e4m3
  | .e5m2 => some e5m2
  | .e2m1 => some e2m1
  | _ => none

/-- Bits of a number type (R102, R103). -/
def tyBits : NumTy → Nat
  | .fp32 => 32
  | .fp16 | .bf16 | .int16 | .uint16 => 16
  | .e4m3 | .e5m2 | .e8m0 | .int8 | .uint8 => 8
  | .e2m1 | .int4 | .uint4 => 4
  | .int32 | .uint32 => 32
  | .int64 | .uint64 => 64

/-- Whether an integer type is signed (R103). -/
def tySigned : NumTy → Bool
  | .int4 | .int8 | .int16 | .int32 | .int64 => true
  | _ => false

/-- The range of an integer type (R103). -/
def tyLo (t : NumTy) : Int := if tySigned t then -(2 ^ (tyBits t - 1)) else 0
def tyHi (t : NumTy) : Int := if tySigned t then 2 ^ (tyBits t - 1) - 1 else 2 ^ tyBits t - 1

/-- The value of an integer type's bits (R103). -/
def tyInt (t : NumTy) (x : Nat) : Int := if tySigned t then sextNat x (tyBits t) else ((x % 2 ^ tyBits t : Nat) : Int)

/-- The four modes of a 3-bit field (R104). -/
def rndOf : RndE → Rnd
  | .rn => .rn
  | .rz => .rz
  | .ru => .ru
  | .rd => .rd
  | .rnef => .rn

/-- A real value rounded to an integer and clamped to a type (R116): NaN gives 0. -/
def toIntTy (t : NumTy) (r : Rnd) (v : FVal) : Int :=
  match v with
  | .nan => 0
  | .inf n => if n then tyLo t else tyHi t
  | .fin n m e =>
    let i : Int := (roundInt r n m e false 0 : Nat)
    let i := if n then -i else i
    if i < tyLo t then tyLo t else if i > tyHi t then tyHi t else i

/-- CVT of one element, as the low bits of the destination type, with no chain (R116, R117). -/
def cvtVal (dt st : NumTy) (r : Rnd) (sat : Bool) (x : Nat) : Nat :=
  match fmtOf st, fmtOf dt with
  | some f, some g => if g = fp32 then f.toFp32 x else g.ofFp32 r sat (f.toFp32 x)
  | some f, none => if dt = .e8m0 then toE8m0 r x else ((toIntTy dt r (f.val x)) % 2 ^ tyBits dt).toNat
  | none, some g => if st = .e8m0 then ofE8m0 x else g.ofInt r sat (tyInt st x)
  | none, none =>
    let v := tyInt st x
    let v := if sat then (if v < tyLo dt then tyLo dt else if v > tyHi dt then tyHi dt else v) else v
    (v % 2 ^ tyBits dt).toNat

/-- A converted element as it is written in a register of its own (R103): signed integers are sign-extended. -/
def placeTy (t : NumTy) (x : Nat) : Nat := if tySigned t then (sextNat x (tyBits t) % 2 ^ 64).toNat else x % 2 ^ tyBits t

end Sys2Proof.Machine
end

