-- ==== Sys2Proof/Config.lean ====
section
/-! DEFINITION. What one package fixes, and the free values: constants with no body, so that nothing can be proved of what
they are. Every free value is applied to the operands it depends on or to the counter `State.free`, which the step that reads
one advances. -/

namespace Sys2Proof.Config

/-- Compute dies (R13). -/
def cDies : Nat := 8
/-- Compute cores of a C-die (R13). -/
def coresPerDie : Nat := 28
/-- Compute cores of the package (R15). -/
def computeCores : Nat := 224
/-- Die number of the I-die (R13). -/
def iDie : Nat := 20
/-- Base of the numbers the model gives supervisor and service cores: 224 + 16·die + j. -/
def auxBase : Nat := 224
/-- The number the model gives the boot core of the I-die (R330). -/
def bootCore : Nat := 560
/-- Issue ports of a compute core (R14). -/
def portsPerCore : Nat := 4
/-- Group slots of a port (R76: at most 16 groups a port). -/
def slotsPerPort : Nat := 16
/-- Entries of a core's store side log (R169). -/
def sideLogSize : Nat := 256
/-- Most pending registers of a group (R40). -/
def maxPending : Nat := 64

/-- FREE (log 6): a time in clk that no rule states. -/
opaque freeTime : Nat → Nat
/-- FREE (log 12): a byte that a rule leaves undefined (R12, R178, R291, R306). -/
opaque freeByte : Nat → Byte
/-- FREE (log 13): a choice that a rule leaves to the machine (R92, R206, R316, R323). -/
opaque freeChoice : Nat → Nat
/-- FREE (log 13): which slots the power controller withholds, by clk, core and port (R418). -/
opaque throttleChoice : Nat → Nat → Nat → Nat
/-- FREE (log 13): whether a word of a reused line is read anew, by job and word number (R237). -/
opaque lineChoice : Nat → Nat → Bool
/-- FREE (log 15): the device identity key's public point, 96 bytes (R425). -/
opaque devicePublic : Nat → Byte
/-- FREE (log 15): the device identity key's ECDSA P-384 signature over a SHA-384 hash, 96 bytes (R425). -/
opaque deviceSignature : List Byte → Nat → Byte
/-- FREE (log 15): the fused hash of the image key, 64 bytes (R424). -/
opaque fusedKeyHash : Nat → Byte
/-- FREE (log 15): the smallest security version the fuses allow for an image kind (R424). -/
opaque minSecurityVersion : Nat → Nat

end Sys2Proof.Config
end

