-- ==== Sys2Proof/Machine/Maps.lean ====
section
/-! DEFINITION. Sparse maps: lists of key and value with strictly rising keys. `k…` maps hold what was put; `c…` maps
have a default value that is never listed, so that equal maps are equal lists (memory, register files, counters). -/

namespace Sys2Proof.Machine

/-- The value at a key. -/
def kget {α : Type} : List (Nat × α) → Nat → Option α
  | [], _ => none
  | (j, v) :: t, k => if j = k then some v else kget t k

/-- Put a value at a key. -/
def kset {α : Type} : List (Nat × α) → Nat → α → List (Nat × α)
  | [], k, v => [(k, v)]
  | (j, u) :: t, k, v => if k < j then (k, v) :: (j, u) :: t else if j = k then (k, v) :: t else (j, u) :: kset t k v

/-- Drop a key. -/
def kdel {α : Type} (m : List (Nat × α)) (k : Nat) : List (Nat × α) := m.filter (fun e => e.1 != k)

/-- Change the value at a key, when it has one. -/
def kmod {α : Type} (m : List (Nat × α)) (k : Nat) (f : α → α) : List (Nat × α) :=
  m.map (fun e => if e.1 = k then (e.1, f e.2) else e)

/-- Change every value. -/
def kmap {α : Type} (m : List (Nat × α)) (f : Nat → α → α) : List (Nat × α) := m.map (fun e => (e.1, f e.1 e.2))

/-- The value at a key of a map with a default. -/
def cget {α : Type} (d : α) (m : List (Nat × α)) (k : Nat) : α := (kget m k).getD d

/-- Put a value at a key of a map with a default: the default removes the entry. -/
def cset {α : Type} [DecidableEq α] (d : α) (m : List (Nat × α)) (k : Nat) (v : α) : List (Nat × α) :=
  if v = d then kdel m k else kset m k v

/-- Put several values, the first of the list first. -/
def csets {α : Type} [DecidableEq α] (d : α) (m : List (Nat × α)) (l : List (Nat × α)) : List (Nat × α) :=
  l.foldl (fun m e => cset d m e.1 e.2) m

/-- The last value a list of writes gives a key. -/
def lastAt {α : Type} (l : List (Nat × α)) (k : Nat) : Option α := kget l.reverse k

/-- Keys strictly rising, all at or above a bound. -/
def risingFrom {α : Type} : Nat → List (Nat × α) → Bool
  | _, [] => true
  | b, (k, _) :: t => decide (b ≤ k) && risingFrom (k + 1) t

/-- The canonical form of a map with a default: keys strictly rising and no default listed. -/
def cwf {α : Type} [DecidableEq α] (d : α) (m : List (Nat × α)) : Bool :=
  risingFrom 0 m && m.all (fun e => decide (e.2 ≠ d))

/-- The first key whose value meets a test. -/
def kfind {α : Type} (m : List (Nat × α)) (p : Nat → α → Bool) : Option (Nat × α) := m.find? (fun e => p e.1 e.2)

/-- Element `n` of a list replaced. -/
def setNth {α : Type} : List α → Nat → α → List α
  | [], _, _ => []
  | _ :: t, 0, v => v :: t
  | a :: t, n + 1, v => a :: setNth t n v

/-- The numbers from `b` up, `n` of them. -/
def upFrom : Nat → Nat → List Nat
  | _, 0 => []
  | b, n + 1 => b :: upFrom (b + 1) n

end Sys2Proof.Machine
end

