-- ==== Sys2Proof/Machine/State.lean ====
section
/-! DEFINITION. The state of a Greano XN4 package as plain data: what each chapter of the spec names, and the model's own
fields `agenda`, `focus`, `free` and `serial`. INVENTORY.md lists every field with its rule and its reset value. -/

namespace Sys2Proof.Machine

/-- The four privilege levels (R330). -/
inductive Level where
  | user | handler | supervisor | boot
  deriving DecidableEq, Repr

/-- The trap causes of R335; 0x0D is never raised. -/
inductive Cause where
  | none | illegal | stallShort | misalign | bounds | regionTag | page | perm | stackOver | trapi | bkpt | dieLost | mcheck
  | tileState | engine | barrierMisuse | fabric
  deriving DecidableEq, Repr

/-- The sixteen causes of slot accounting, in the order of their codes (R379). -/
inductive SlotCause where
  | issue | depFixed | depMem | depEngine | tile | barrier | watch | pipe | fetch | branch | fault | fence | switch | empty
  | throttle | yield
  deriving DecidableEq, Repr

/-- A fixed-latency result that is still open (R38, R42): the stall distance it still needs and the new values of its
register cells. -/
structure Window where
  left : Nat
  cells : List (Nat × Word)
  deriving DecidableEq, Repr

/-- The scoreboard entry of one variable-latency word (R40): its serial, producer PC and opcode, its pending registers, the
values they receive, the clk from which they may complete (none: another event completes them), and, for the replay
signature, the word's position and first destination register (R396). -/
structure Pend where
  id : Nat
  pc : Pc
  op : Nat
  regs : List Nat
  cells : List (Nat × Word)
  due : Option Nat
  sig : Option Word
  base : Nat
  deriving DecidableEq, Repr

/-- One lane's fault: what its record of R340 carries. -/
structure LaneFault where
  lane : Nat
  cause : Cause
  va : DWord
  pa : Nat
  space : Nat
  kind : Nat
  detail : Nat
  late : Bool
  deriving DecidableEq, Repr

/-- A trap raised and not yet entered (R336, R337): ROLL, the word's PC, the lanes' records with the CAUSE lane's first, and
whether a double fault or the want of a handler is to be reported instead. -/
structure TrapPend where
  roll : Bool
  pc : Pc
  recs : List LaneFault
  deriving DecidableEq, Repr

/-- What keeps a group out of readiness (R76, R212, R218, R165, R345, R302). -/
inductive Wait where
  | none
  | sleep (til : Nat)
  | barrier (cluster : Bool) (n : Nat) (parity : Bool)
  | watch (sect idx : Nat)
  | fault
  | syscall (d : Option Nat)
  | engine
  | wbClear (ptr : DWord)
  deriving DecidableEq, Repr

/-- A fence in force (R191–R194): its serial, PC, kind and scope code, whether its release and acquire actions are still to
come, what it waits for (line write-backs, side-log entries, jobs and atomics in flight), whether it ends by invalidating clean
L1 bytes (FENCEX.IN), whether a barrier arrival waits for it (R213), and which later words it holds. -/
structure FenceRec where
  id : Nat
  pc : Pc
  scope : Nat
  rel : Bool
  acq : Bool
  begun : Bool
  wbs : List Nat
  logs : List Nat
  jobs : List Nat
  inval : Bool
  barrier : Bool
  holdLoads : Bool
  holdStores : Bool
  deriving DecidableEq, Repr

/-- An open TOUCH window (R97): its order, each lane's 64 KiB block, the words it still lasts and whether the TOUCH has
completed. -/
structure TouchWin where
  id : Nat
  blocks : List (Nat × Nat)
  left : Nat
  deriving DecidableEq, Repr

/-- A byte of a lane's stack held in the stack cache, with its dirty mark (R85). -/
structure StkByte where
  b : Byte
  dirty : Bool
  deriving DecidableEq, Repr

/-- A group of lanes: the unit of issue (R16). Register cells are keyed by 32 × register number + lane, the registers being
numbered V 0–255, S 256–639, P 640–647, Q 648–655 (uniform ones use lane 0). -/
structure Group where
  ctx : Nat
  tid : Nat
  index : Nat
  core : Nat
  port : Nat
  slot : Nat
  born : Nat
  ageCount : Nat
  level : Level
  vregs : Nat
  sregs : Nat
  entry : Pc
  regs : List (Nat × Word)
  vpc : List Pc
  evpc : List Pc
  svpc : List Pc
  aside : List Nat
  lsp : List Word
  elsp : List Word
  slsp : List Word
  helper : LaneMask
  rgncnt : Word
  retcnt : Word
  rsig : Word
  hndpc : Word
  trapcause : Word
  trapva : DWord
  traprec : Word
  mxstat : Word
  mxPend : List (Nat × Word)
  schk : Bool
  stklim : Word
  stackSize : Nat
  lbase : DWord
  stk : List (Nat × StkByte)
  fillDue : Bool
  windows : List Window
  pends : List Pend
  stallUntil : Nat
  stallPc : Pc
  redirUntil : Nat
  redirPc : Pc
  pathUntil : Nat
  pathPc : Pc
  wait : Wait
  waitPc : Pc
  waitMask : LaneMask
  wakeAt : Option Nat
  retryAt : Nat
  retryCause : SlotCause
  touches : List TouchWin
  fences : List FenceRec
  trap : Option TrapPend
  restart : Bool
  asyncs : List LaneFault
  regionStart : Bool
  regionNext : Bool
  copyWait : List Nat
  recReq : List (Nat × Nat)
  handlerBytes : List Byte
  hndFirst : Bool
  deriving DecidableEq, Repr

/-- A byte of a cache line with its dirty mark (R138). -/
structure CByte where
  b : Byte
  dirty : Bool
  deriving DecidableEq, Repr

/-- A line of a core's L1, keyed by VA bits [55:7] (R138, R162): the leaf entry and page size at its fill, its physical line,
and its valid bytes. -/
structure L1Line where
  leaf : DWord
  size : Nat
  pline : Nat
  bytes : List (Nat × CByte)
  deriving DecidableEq, Repr

/-- A line of a die's L2, keyed by physical line (R139, R197): the context it was filled or written for and its valid
bytes. Only lines of C = 0 pages and of HOME 15 are kept here: a C = 1 line is coherent with its home (R196). -/
structure L2Line where
  ctx : Nat
  leaf : DWord
  bytes : List (Nat × CByte)
  deriving DecidableEq, Repr

/-- What one side-log entry holds (R169): the bytes of a store or a spill by offset in the line, or one atomic. -/
inductive LogOp where
  | store (bytes : List (Nat × Byte))
  | red (op : AOp) (w64 : Bool) (b : DWord)
  | fred (op : FAOp) (b : Word)
  deriving DecidableEq, Repr

/-- One side-log entry (R169): its serial, group, context, tagged pointer (of the line for a store, of the location for an
atomic) and operation; the ticket of its page request, and whether the page was declared unserviceable. `spilled` marks an
entry in the context's spill area (R173). -/
structure LogEntry where
  id : Nat
  gid : Nat
  tid : Nat
  ctx : Nat
  ptr : DWord
  op : LogOp
  req : Option Nat
  bad : Bool
  spilled : Bool
  deriving DecidableEq, Repr

/-- A bounds-table entry in a core's copy (R154, R155). -/
structure Bound where
  base : Nat
  limit : Nat
  deriving DecidableEq, Repr

/-- A cluster TLB entry (R160): context, VA bits above the page size, size as the log2 of the page's bytes, leaf, access
count, and the order of last use. -/
structure TlbEntry where
  ctx : Nat
  page : Nat
  size : Nat
  leaf : DWord
  count : Nat
  used : Nat
  deriving DecidableEq, Repr

/-- One slot's charge of a clk (R379), with its candidate (R392): group, RGNCNT and RETCNT. -/
structure Charge where
  cause : SlotCause
  acct : Nat
  pc : Pc
  blame : Pc
  cand : Option (Nat × Word × Word)
  deriving DecidableEq, Repr

/-- A trace record waiting in a core's trace buffer: the 256-bit value of R394. -/
structure TraceRec where
  v : Nat
  deriving DecidableEq, Repr

/-- The line buffers of a core's engine (R237): the .WIN job they belong to (its order of acceptance, team, record address and
coordinates) and the source bytes it has read: for each line's start, each source position in the line and its element. -/
structure LineBuf where
  job : Nat
  tid : Nat
  recPtr : DWord
  coords : List Word
  lines : List (List Int × List (Int × List Byte))
  deriving DecidableEq, Repr

/-- A core (R14): compute cores 0–223, supervisor and service cores 224 + 16·die + j, the boot core 560. -/
structure Core where
  owner : Nat
  changing : Option Nat
  counters : List (Nat × Nat)
  emptyFrom : Nat
  swCounters : List (Nat × Nat)
  lastIssuer : List (Nat × Nat)
  issued : List (Nat × Charge)
  withheld : List Nat
  bounds : List (Nat × Bound)
  l1 : List (Nat × L1Line)
  icache : List (Nat × List Byte)
  fills : List (Nat × Nat)
  sideLog : List LogEntry
  pathBusy : Nat
  arrayUsed : Nat
  portBusy : Nat
  accTeam : Nat
  trace : List TraceRec
  traceLoss : Nat
  turnStart : Nat
  turnFirst : Option Nat
  lines : Option LineBuf
  deriving DecidableEq, Repr

/-- A request to a supervisor (R344): its die, ticket (none while it waits for a ring entry), type, originator and the fields
of its record. -/
inductive Orig where
  | group (gid : Nat)
  | savedGroup (tid index : Nat)
  | job (id : Nat)
  | log (core entry : Nat)
  | seqOp (cluster pend : Nat)
  | signal (id : Nat)
  | fetch (gid : Nat)
  | record (gid page : Nat)
  | gone
  deriving DecidableEq, Repr

structure Request where
  die : Nat
  ticket : Option Nat
  type : Nat
  orig : Orig
  ctx : Nat
  args : List Word
  epc : Pc
  rgncnt : Word
  gh : Nat
  call : Nat
  kind : Nat
  mal : Bool
  level : Nat
  lanes : List LaneFault
  deriving DecidableEq, Repr

/-- A context (R21): its control block's images (R348) and what the package keeps for it. -/
structure Ctx where
  ccb : Nat
  ctxstat : Word
  illpc : DWord
  frbase : DWord
  frctl : Word
  frtail : Word
  frhead : Word
  hsbase : DWord
  slice : Word
  slstat : Word
  ptroot : DWord
  btbase : DWord
  tcfg : Word
  dscrsz : Nat
  wquota : Nat
  tdmask : Word
  smpctl : Word
  dmpsz : Nat
  slotsz : Nat
  slotsl : Nat
  dmpbase : DWord
  savebase : DWord
  held : List (Nat × Nat)
  deriving DecidableEq, Repr

/-- A barrier (R208): participant count, pending count, parity, and the arrived and dropped marks of its participants (team
index for a team barrier, rank × 32 + index for a cluster barrier). -/
structure Barrier where
  e : Nat
  c : Nat
  parity : Bool
  arrived : List Nat
  dropped : List Nat
  deriving DecidableEq, Repr

/-- The states of a tile (R222, R231). -/
inductive TileState where
  | unallocated | empty | filling | ready | draining
  deriving DecidableEq, Repr

/-- A tile-table entry (R221). -/
structure Tile where
  base : Nat
  size : Nat
  state : TileState
  bits : Nat
  oc : Nat
  ec : Int
  bytes : Nat
  err : Nat
  mcd : Bool
  errVa : DWord
  deriving DecidableEq, Repr

/-- A kernel descriptor as a team keeps it (R309), by the descriptor's fields that later rules read. -/
structure Kernel where
  ptr : DWord
  entry : Pc
  vregs : Nat
  sregs : Nat
  groups : Nat
  tpc : Nat
  scratch : Nat
  tiles : Nat
  barriers : Nat
  acc : Bool
  node : Bool
  cap : Nat
  timer : Nat
  deriving DecidableEq, Repr

/-- A record bound by CONT (R324): node and bytes. -/
structure BoundRec where
  node : Nat
  bytes : List Byte
  deriving DecidableEq, Repr

/-- A core cluster's sequencer state as a save keeps it (R307): its table slots and sample records. -/
structure SeqSave where
  slots : List (Nat × List Byte)
  samples : List (Nat × Nat)
  deriving DecidableEq, Repr

/-- A team (R16, R17): where it is, what its launch gave it, its tile table, barriers and accumulator state. `resident` is
false while it lies in save slot `slot` since save `saveNo`, its groups then in `saved` by team index (R351). -/
structure Team where
  ctx : Nat
  cluster : Nat
  rank : Nat
  grid : Nat
  core : Nat
  resident : Bool
  x : Nat
  y : Nat
  z : Nat
  gridx : Nat
  gridy : Nat
  gridz : Nat
  nodeid : Word
  recbase : Word
  argptr : DWord
  kernel : Kernel
  lanes : Nat
  prio : Nat
  origin : Nat
  pool : Nat
  stackSize : Nat
  stackLo : Nat
  areas : List Nat
  allocOff : Nat
  allocSize : Nat
  tiles : List (Nat × Tile)
  bars : List (Nat × Barrier)
  accstat : Word
  nextId : Word
  bound : List BoundRec
  live : List Nat
  saving : Bool
  slot : Option Nat
  saved : List (Nat × Group)
  savedLog : List LogEntry
  savedJobs : List Nat
  savedScratch : List Host.Cell
  savedAcc : List Host.Cell
  seqUsed : Bool
  savedSeq : Option SeqSave
  saveNo : Nat
  successor : Bool
  deriving DecidableEq, Repr

/-- A launch cluster: the teams placed together (R17), its barriers K0–K7 (R208) and its ranks' teams. -/
structure LCluster where
  ctx : Nat
  ccl : Nat
  teams : List (Nat × Nat)
  bars : List (Nat × Barrier)
  deriving DecidableEq, Repr

/-- The fields of a layout record (R224) as a job keeps them. -/
structure Layout where
  base : DWord
  sizes : List Nat
  strides : List Nat
  box : List Nat
  es : Nat
  ndim : Nat
  rp : Nat
  toff : Nat
  rot : Nat
  pol : Nat
  wdim : Nat
  wstep : Nat
  deriving DecidableEq, Repr

/-- The state of a copy job (R228, R234): issued and waiting for its edges, moving chunks, stopped by a save, done. -/
inductive JobPhase where
  | issued | running | stopped | done
  deriving DecidableEq, Repr

/-- A range of bytes in an address space of R206: 0 scratchpad of a core, 1 global memory, 2 accumulator rectangle. -/
structure Range where
  space : Nat
  lo : Nat
  hi : Nat
  deriving DecidableEq, Repr

/-- A copy job (R228, R233): its issuer, tile, direction, record copy, coordinates, footprint, unsettled and parked chunks,
error found at the record's read, multicast parts, status, and the lines it takes from the engine's buffers (R237). -/
structure CopyJob where
  seq : Nat
  tid : Nat
  gid : Nat
  core : Nat
  pc : Pc
  tile : Nat
  drain : Bool
  win : Bool
  s24 : Bool
  mdPtr : DWord
  recPtr : DWord
  lay : Layout
  coords : List Word
  reads : List Range
  writes : List Range
  recErr : Nat
  phase : JobPhase
  unsettled : List Nat
  parked : List (Nat × Nat)
  parts : List (Nat × Bool)
  err : Nat
  errVa : DWord
  reuse : List (List Int × List (Int × List Byte))
  deriving DecidableEq, Repr

/-- What a job of the matrix chapter does (R272, R278). -/
inductive MKind where
  | mxb | accz | accld (st : NumTy) | accst (dt st : NumTy) (rm : RndE) (sat : Bool) | accrd (pend base : Nat) (lanes : LaneMask)
  deriving DecidableEq, Repr

/-- A job of the block-matrix chapter (R262–R285): its team, window core and ID (0 for ACCRD, which takes none), parameter block
copy and offset, or rectangle word and descriptor words; V-block images, the tiles that hold A and B (base and size), its
ranges in the window, the parts accepted on other cores (core, order and rank), K-blocks done, whether it was stopped by a save and
has not resumed, and status. -/
structure MJob where
  seq : Nat
  tid : Nat
  gid : Nat
  core : Nat
  pc : Pc
  id : Word
  kind : MKind
  block : Nat
  blockOff : Nat
  descB : DWord
  descC : DWord
  imgA : List Byte
  imgB : List Byte
  tileA : Option (Nat × Nat)
  tileB : Option (Nat × Nat)
  rect : Word
  reads : List Range
  writes : List Range
  phase : JobPhase
  parts : List (Nat × Nat × Nat)
  kdone : Nat
  saved : Bool
  ovf : Bool
  fnv : Bool
  err : Nat
  deriving DecidableEq, Repr

/-- A watch entry's waiter (R214). -/
inductive Waiter where
  | group (gid : Nat)
  | record (ptr : DWord)
  deriving DecidableEq, Repr

/-- A watch entry (R214): context, pointer and flat address of the word, condition, value and mask, waiter, the clk at which its
timeout ends, its arming order, the word's value at the write that fired it (R215), until that is delivered, and the origin
port of the work that armed it (R329). -/
structure Watch where
  ctx : Nat
  ptr : DWord
  pa : Nat
  m : WatchMod
  value : DWord
  mask : DWord
  waiter : Waiter
  until_ : Option Nat
  order : Nat
  hit : Option DWord
  origin : Nat
  deriving DecidableEq, Repr

/-- What an atomic in flight does at its execution point (R182–R184). -/
inductive AtomOp where
  | atom (op : AOp) (w64 : Bool)
  | fatom (op : FAOp)
  | cas (w64 : Bool)
  deriving DecidableEq, Repr

/-- One lane of an atomic in flight: its lane, flat address, operands (the compare operand first for a CAS), tagged pointer, HOME
(16 on chip), and the M and WB bits of its leaf. -/
structure AtomLane where
  lane : Nat
  addr : Nat
  b : DWord
  c : DWord
  ptr : DWord
  home : Nat
  mir : Bool
  wb : Bool
  deriving DecidableEq, Repr

/-- An atomic word on its way to its execution points (R187, R188): its lanes in ascending order, its destination registers
(none: RED and FREDM), latency on chip, the release it waits for, and the clk from which it may reach its execution point. -/
structure AtomFlight where
  gid : Nat
  tid : Nat
  ctx : Nat
  core : Nat
  pend : Option Nat
  op : AtomOp
  lanes : List AtomLane
  dst : Option Nat
  w64 : Bool
  pred : Option Nat
  lat : Nat
  relFence : Option Nat
  due : Nat
  deriving DecidableEq, Repr

/-- A dirty L2 line on its way to its home (R193): die, physical line and the clk from which it may be acknowledged. -/
structure WriteBack where
  die : Nat
  line : Nat
  due : Nat
  deriving DecidableEq, Repr

/-- One operation in a sequencer's queue (R295): its word's group, scoreboard entry, PC and active lanes, kind (0 CFG, 1 INIT,
2 STAGE, 3 PUT, 4 STEP, 5 STAT), context, team, image pointer and operands, the request that parks it and whether its page was
declared unserviceable (R306), and the clk from which it may end. -/
structure SeqOp where
  gid : Nat
  pend : Nat
  pc : Pc
  mask : LaneMask
  kind : Nat
  ctx : Nat
  tid : Nat
  ptr : DWord
  a : Nat
  b : Nat
  req : Option Nat
  bad : Bool
  due : Nat
  deriving DecidableEq, Repr

/-- A core cluster (R15): its TLB (R160), held walk requests, and its Slalom sequencer (R287, R291, R295): owner context, table
slots (1,280 bytes each when valid), sample records (1,024 bits as a number; an unlisted record is zero) and operation
queue. -/
structure CCluster where
  tlb : List TlbEntry
  seqCtx : Nat
  slots : List (Nat × List Byte)
  samples : List (Nat × Nat)
  seqQ : List SeqOp
  deriving DecidableEq, Repr

/-- The states of a die (R375). -/
inductive DieState where
  | up | drain | down | lost
  deriving DecidableEq, Repr

/-- A message of the Gondola channel (R360): header and payload registers. -/
structure Message where
  hdr : DWord
  payload : List Word
  deriving DecidableEq, Repr

/-- A dump in a die's queue (R353, R354): context, reason, primary record, secondary records, further faults, and whether the
engine is writing it, and the clk it started. -/
structure Dump where
  ctx : Nat
  reason : Nat
  primary : Nat
  second : List Nat
  extra : Nat
  running : Bool
  start : Nat
  due : Nat
  deriving DecidableEq, Repr

/-- A lazy invalidation entry held back (R367): the entry's 256-bit value. -/
structure LazyEntry where
  v : Nat
  due : Bool
  deriving DecidableEq, Repr

/-- A POST received and not yet acknowledged (R365): the shoot-down it belongs to and the index to reach. -/
structure Post where
  shoot : Nat
  idx : Nat
  deriving DecidableEq, Repr

/-- A migration's redo list at an atomic agent (R177): the page and its lines, and whether it overflowed. -/
structure Redo where
  page : Nat
  lines : List Nat
  excess : Bool
  deriving DecidableEq, Repr

/-- A frame the Groomer is zeroing (R148, R369): address, bytes, and the group and scoreboard entry that asked. -/
structure GroomReq where
  pa : Nat
  len : Nat
  gid : Nat
  pend : Nat
  due : Nat
  deriving DecidableEq, Repr

/-- A die (R13): its registers (R333, R359, R364, R376, R378, R395, R421), queues and engines. -/
structure Die where
  st : DieState
  sptroot : DWord
  dfrbase : DWord
  dfrset : Bool
  dfrtail : Word
  dfrhead : Word
  dloss : Nat
  rloss : Nat
  nextTicket : Nat
  ilbase : DWord
  ilnext : Nat
  posts : List Post
  lazy : List LazyEntry
  queues : List (Nat × List Message)
  wwidx : Word
  trbase : DWord
  trctl : Word
  trtail : Word
  trhead : Word
  cecnt : Nat
  cethr : Nat
  nqbase : DWord
  nqen : Word
  nqtail : Word
  nqhead : Word
  nqloss : Nat
  cmpen : Word
  l2 : List (Nat × L2Line)
  dumps : List Dump
  groom : List GroomReq
  redo : List Redo
  watches : List (Nat × Watch)
  drainUntil : Nat
  applying : Bool
  deriving DecidableEq, Repr

/-- A front-end queue port (R313). -/
structure QPort where
  qring : DWord
  ctx : Nat
  prio : Nat
  sizel : Nat
  en : Bool
  qtail : Word
  qhead : Word
  state : Nat
  bad : Nat
  qerr : Word
  openLaunches : List Nat
  deriving DecidableEq, Repr

/-- A launch record in a context's device queue (R322): its bytes, origin port, and the group and scoreboard entry waiting for
its D. -/
structure DevRec where
  bytes : List Byte
  origin : Nat
  gid : Nat
  pend : Nat
  deriving DecidableEq, Repr

/-- What the front end keeps for one context: its core set (R422), device queue, its BAD count and open launches (R322), and the
die that took its previous team (R321). -/
structure FeCtx where
  cset : Nat
  devq : List DevRec
  devBad : Nat
  devOpen : List Nat
  lastDie : Nat
  deriving DecidableEq, Repr

/-- A grid (R312): its context, kernel copy and record fields, the queue that parsed it and its origin port (R329), the next team
to offer, whether its completion signal has been made, and its order. -/
structure Grid where
  ctx : Nat
  kernel : Kernel
  gx : Nat
  gy : Nat
  gz : Nat
  lanes : Nat
  args : DWord
  spool : DWord
  stksz : Nat
  stklo : Nat
  pooln : Nat
  prio : Nat
  sigptr : DWord
  sigval : DWord
  next : Nat
  source : Nat
  origin : Nat
  order : Nat
  deriving DecidableEq, Repr

/-- A node (R317): state (0 CLOSED, 1 OPEN, 2 CLOSING), kernel copy and OPEN record fields, ring index of the oldest record and
the append clk of the records in the ring, batch number, whether it is blocked (R320), the CLOSE record's signal, queue and
launch number, the origin port of the CLOSE record, its own origin port and order. -/
structure Node where
  state : Nat
  kernel : Kernel
  ring : DWord
  rs : Nat
  high : Nat
  low : Nat
  down0 : Nat
  down1 : Nat
  args : DWord
  spool : DWord
  stksz : Nat
  stklo : Nat
  pooln : Nat
  prio : Nat
  head : Nat
  times : List Nat
  batch : Nat
  blocked : Bool
  sigptr : DWord
  sigval : DWord
  closer : Option (Nat × Nat)
  closeOrigin : Nat
  lost : Bool
  origin : Nat
  order : Nat
  deriving DecidableEq, Repr

/-- A completion signal to be stored (R312): context, pointer, value, the request that holds it, whether its page was declared
unserviceable, the origin port of its work, and the queue and launch number that complete with it (R317). -/
structure Signal where
  ctx : Nat
  ptr : DWord
  val : DWord
  req : Option Nat
  bad : Bool
  origin : Nat
  launch : Option (Nat × Nat)
  deriving DecidableEq, Repr

/-- The front end (R313–R320). -/
structure FrontEnd where
  loaded : Bool
  ports : List (Nat × QPort)
  ctxs : List (Nat × FeCtx)
  grids : List (Nat × Grid)
  nodes : List (Nat × Node)
  signals : List (Nat × Signal)
  nextParse : Nat
  rotate : Nat
  deriving DecidableEq, Repr

/-- An Ethernet receive ring (R423). -/
structure EthRing where
  rbase : DWord
  rcfg : DWord
  xoff : Bool
  deriving DecidableEq, Repr

/-- A frame held in a port's headroom for a PAUSE ring (R413). -/
structure HeldFrame where
  ring : Nat
  rule : Nat
  bytes : List Byte
  time : Nat
  deriving DecidableEq, Repr

/-- An Ethernet port (R410–R413, R423). -/
structure EthPort where
  en : Bool
  media : Nat
  link : Bool
  unmatched : Nat
  badfcs : Nat
  rings : List (Nat × EthRing)
  rules : List (Nat × Nat)
  headroom : List HeldFrame
  deriving DecidableEq, Repr

/-- A shoot-down in progress (R365): the initiating group and scoreboard entry, the dies still to acknowledge, the dead. -/
structure Shoot where
  gid : Nat
  pend : Nat
  wait : List Nat
  dead : List Nat
  deriving DecidableEq, Repr

/-- A supervisor word that is still working (CTXSAVE, PREEMPT, MSGSEND, SAMPCFG, SYSCALL's release): its group, scoreboard
entry, kind and arguments. -/
structure SupOp where
  gid : Nat
  pend : Nat
  kind : Nat
  ctx : Nat
  n : Nat
  x : DWord
  mask : List Nat
  msg : List Word
  phase : Nat
  deriving DecidableEq, Repr

/-- A link of the package fabric with its active modules (R373, R377). -/
structure Link where
  a : Nat
  b : Nat
  mods : Nat
  active : Nat
  deriving DecidableEq, Repr

/-- The package (R389, R382–R384, R409, R415–R425, R362, R376). -/
structure Pkg where
  clock : Nat
  engineAt : Nat
  on : Bool
  freq : Nat
  cpst : Nat
  bands : List (Nat × Nat)
  plim : Nat
  thr : Bool
  hot : Bool
  plan : Nat
  pHist : List Nat
  pLow : Nat
  deaf : List Nat
  mbaddr : DWord
  mblen : Word
  mbstat : Word
  mbPend : Option (Nat × Nat)
  mbDue : Nat
  nonce : List Byte
  measLog : List (Nat × List Byte)
  mbOpen : Bool
  booted : List Nat
  idle : List (Nat × Nat)
  retired : List (Nat × Nat)
  links : List Link
  seqNo : Nat
  fmres : Nat
  fmcut : Nat
  fmdie : Option Nat
  deriving DecidableEq, Repr

/-- The re-execution of a precise stop (R397): the group, the count to land at and the count it halted at, the signature it
held, the group as it halted, the pass, whether a pass diverged, and the supervisor group and scoreboard entry waiting. -/
structure DryRun where
  gid : Nat
  n : Nat
  m : Nat
  want : Word
  orig : Group
  pass : Nat
  diverged : Bool
  by_ : Nat
  pend : Nat
  deriving DecidableEq, Repr

/-- The whole state. `agenda` holds events that happen next, `ctlq` control-space writes on their way to their registers
(address, value, whether through BAR0), `focus` the group a word's meaning acts for, `free` the counter
behind the free values, `serial` the next serial number. -/
structure State where
  pkg : Pkg
  agenda : List Instr
  focus : Nat
  free : Nat
  serial : Nat
  groups : List (Nat × Group)
  teams : List (Nat × Team)
  lclusters : List (Nat × LCluster)
  cores : List (Nat × Core)
  cclusters : List (Nat × CCluster)
  dies : List (Nat × Die)
  ctxs : List (Nat × Ctx)
  fe : FrontEnd
  eth : List (Nat × EthPort)
  mem : List Host.Cell
  badWords : List Nat
  jobs : List (Nat × CopyJob)
  mjobs : List (Nat × MJob)
  atoms : List (Nat × AtomFlight)
  wbs : List (Nat × WriteBack)
  reqs : List (Nat × Request)
  shoots : List (Nat × Shoot)
  supOps : List (Nat × SupOp)
  dry : Option DryRun
  ctlq : List (Nat × Nat × Bool)
  deriving DecidableEq, Repr

/-- The model's own fault: no spec behaviour ends a run in these cases. -/
inductive Fault where
  /-- Raised by `step` and every meaning: the package has shut its supplies down (R419), so no word can run; safe. -/
  | packageOff
  /-- Raised by a word's meaning when `focus` names no resident group: no run reaches it through `step`; safe. -/
  | noGroup
  deriving DecidableEq, Repr

/-- Why a step is refused. -/
inductive Refusal where
  /-- Raised by `exec` for an instruction that has no meaning in the model yet; safe. -/
  | notModelled (mnemonic : String)
  deriving DecidableEq, Repr

/-- The links of the top half of the package (R373): ends and modules. -/
def topLinks : List (Nat × Nat × Nat) :=
  [(0, 8, 6), (1, 10, 6), (2, 11, 6), (0, 9, 3), (1, 9, 3), (2, 12, 3), (3, 12, 3), (3, 13, 7), (8, 9, 1), (9, 10, 1),
   (10, 11, 1), (11, 12, 1), (12, 13, 1), (0, 1, 2), (2, 3, 2), (1, 2, 3)]

/-- The links between the halves and to the I-die (R373). -/
def crossLinks : List (Nat × Nat × Nat) :=
  [(0, 4, 2), (1, 5, 2), (2, 6, 2), (3, 7, 4), (0, 20, 3), (4, 20, 3), (8, 20, 1), (14, 20, 1)]

/-- The die of the bottom half that stands where a die of the top half stands (R373). -/
def bottomDie (d : Nat) : Nat := if d < 4 then d + 4 else d + 6

/-- Every link of the package, every module active (R373; PRESUMED, log 20: no rule gives the widths after reset). -/
def fabricLinks : List Link :=
  (topLinks ++ topLinks.map (fun l => (bottomDie l.1, bottomDie l.2.1, l.2.2)) ++ crossLinks).map
    (fun l => ⟨l.1, l.2.1, l.2.2, l.2.2⟩)

/-- A core after package reset: owned by the idle account, empty (R21, R382). -/
def Core.reset : Core :=
  { owner := 0, changing := none, counters := [], emptyFrom := 0, swCounters := [], lastIssuer := [],
    issued := [], withheld := [], bounds := [], l1 := [], icache := [], fills := [], sideLog := [], pathBusy := 0, arrayUsed := 0, portBusy := 0,
    accTeam := 0, trace := [], traceLoss := 0, turnStart := 0, turnFirst := none, lines := none }

/-- A core cluster after package reset. -/
def CCluster.reset : CCluster := { tlb := [], seqCtx := 0, slots := [], samples := [], seqQ := [] }

/-- A die after package reset: not started, every register 0 (R333, R359, R364, R376, R378, R395, R421). -/
def Die.reset : Die :=
  { st := .down, sptroot := 0, dfrbase := 0, dfrset := false, dfrtail := 0, dfrhead := 0, dloss := 0, rloss := 0,
    nextTicket := 1, ilbase := 0, ilnext := 0, posts := [], lazy := [], queues := [], wwidx := 0, trbase := 0, trctl := 0,
    trtail := 0, trhead := 0, cecnt := 0, cethr := 0, nqbase := 0, nqen := 0, nqtail := 0, nqhead := 0, nqloss := 0,
    cmpen := 0, l2 := [], dumps := [], groom := [], redo := [], watches := [], drainUntil := 0, applying := false }

/-- A context before CTXLOAD fills it from its control block (R348). -/
def Ctx.reset : Ctx :=
  { ccb := 0, ctxstat := 0, illpc := 0, frbase := 0, frctl := 0, frtail := 0, frhead := 0, hsbase := 0, slice := 0,
    slstat := 0, ptroot := 0, btbase := 0, tcfg := 0, dscrsz := 0, wquota := 0, tdmask := 0, smpctl := 0, dmpsz := 0,
    slotsz := 0, slotsl := 0, dmpbase := 0, savebase := 0, held := [] }

/-- A queue port after package reset (R313). -/
def QPort.reset : QPort :=
  { qring := 0, ctx := 0, prio := 0, sizel := 0, en := false, qtail := 0, qhead := 0, state := 0, bad := 0, qerr := 0,
    openLaunches := [] }

/-- What the front end keeps for a context after package reset (R321, R422). -/
def FeCtx.reset : FeCtx := { cset := 0, devq := [], devBad := 0, devOpen := [], lastDie := 7 }

/-- An Ethernet port after package reset (R423; MEDIA 3, DESIGN CHOICE, log 2). -/
def EthPort.reset : EthPort :=
  { en := false, media := 3, link := false, unmatched := 0, badfcs := 0, rings := [], rules := [], headroom := [] }

/-- A kernel descriptor of zeros. -/
def Kernel.blank : Kernel :=
  { ptr := 0, entry := 0, vregs := 8, sregs := 1, groups := 1, tpc := 1, scratch := 0, tiles := 0, barriers := 0, acc := false,
    node := false, cap := 6, timer := 0 }

/-- A group at the instant of its creation, before its place and launch are filled in (R94, R333, R334, R330). -/
def Group.blank : Group :=
  { ctx := 0, tid := 0, index := 0, core := 0, port := 0, slot := 0, born := 0, ageCount := 0, level := .user, vregs := 8,
    sregs := 384, entry := 0, regs := [], vpc := [], evpc := [], svpc := [], aside := [], lsp := [], elsp := [], slsp := [],
    helper := 0, rgncnt := 0, retcnt := 0, rsig := 0, hndpc := 0, trapcause := 0, trapva := 0, traprec := 0, mxstat := 0, mxPend := [],
    schk := false, stklim := 0, stackSize := 0, lbase := 0, stk := [], fillDue := false, windows := [], pends := [],
    stallUntil := 0, stallPc := 0, redirUntil := 0, redirPc := 0, pathUntil := 0, pathPc := 0, wait := .none, waitPc := 0, waitMask := 0,
    wakeAt := none, retryAt := 0, retryCause := .fault,
    touches := [], fences := [], trap := none, restart := false, asyncs := [], regionStart := false, regionNext := false, copyWait := [],
    recReq := [], handlerBytes := [], hndFirst := false }

/-- A team before its launch is filled in (R208, R221, R260, R262). -/
def Team.blank : Team :=
  { ctx := 0, cluster := 0, rank := 0, grid := 0, core := 0, resident := true, x := 0, y := 0, z := 0, gridx := 0, gridy := 0,
    gridz := 0, nodeid := 0, recbase := 0, argptr := 0, kernel := Kernel.blank, lanes := 1, prio := 0, origin := 0, pool := 0,
    stackSize := 0, stackLo := 0, areas := [], allocOff := 0, allocSize := 0, tiles := [], bars := [], accstat := 0,
    nextId := 1, bound := [], live := [], saving := false, slot := none, saved := [], savedLog := [], savedJobs := [],
    savedScratch := [], savedAcc := [], seqUsed := false, savedSeq := none, saveNo := 0, successor := false }

/-- The front end after package reset: nothing loaded, every port DISABLED (R313, R415). -/
def FrontEnd.reset : FrontEnd :=
  { loaded := false, ports := [], ctxs := [], grids := [], nodes := [], signals := [], nextParse := 0, rotate := 0 }

/-- The package after reset (R382, R389, R417–R419, R424, R425; Yosonlink ports and links as log 20 says). -/
def Pkg.reset : Pkg :=
  { clock := 0, engineAt := 0, on := true, freq := 1800, cpst := 0, bands := [], plim := 4400, thr := false, hot := false, plan := 1800, pHist := [], pLow := 0, deaf := [],
    mbaddr := 0, mblen := 0, mbstat := 0, mbPend := none, mbDue := 0, nonce := [], measLog := [], mbOpen := false, booted := [], idle := [], retired := [],
    links := fabricLinks, seqNo := 0, fmres := 0, fmcut := 0, fmdie := none }

/-- The machine right after package reset: only die 20 is UP (R359), no context, team or group exists, and memory lists
nothing. -/
def State.reset : State :=
  { pkg := Pkg.reset, agenda := [], focus := 0, free := 0, serial := 1, groups := [], teams := [], lclusters := [], cores := [],
    cclusters := [], dies := [(20, { Die.reset with st := .up })], ctxs := [], fe := FrontEnd.reset, eth := [], mem := [],
    badWords := [], jobs := [], mjobs := [], atoms := [], wbs := [], reqs := [], shoots := [], supOps := [], dry := none, ctlq := [] }

end Sys2Proof.Machine
end

