-- ==== Sys2Proof/Machine/Access.lean ====
section
/-! DEFINITION. Reading and changing the parts of the state, and the numbering of cores, ports, slots and dies. -/

namespace Sys2Proof.Machine

/-- The resident group with an index. -/
def State.grp (s : State) (g : Nat) : Option Group := kget s.groups g
/-- The resident group with an index, or a blank one. -/
def State.grpD (s : State) (g : Nat) : Group := (kget s.groups g).getD Group.blank
def State.setGrp (s : State) (g : Nat) (x : Group) : State := { s with groups := kset s.groups g x }
def State.delGrp (s : State) (g : Nat) : State := { s with groups := kdel s.groups g }
def State.modGrp (s : State) (g : Nat) (f : Group → Group) : State :=
  { s with groups := match kget s.groups g with
      | some x => kset s.groups g (f x)
      | none => s.groups }

/-- A core, which package reset leaves as `Core.reset`. -/
def State.core (s : State) (c : Nat) : Core := (kget s.cores c).getD Core.reset
def State.modCore (s : State) (c : Nat) (f : Core → Core) : State := { s with cores := kset s.cores c (f (s.core c)) }

/-- A core cluster, which package reset leaves empty. -/
def State.ccl (s : State) (k : Nat) : CCluster := (kget s.cclusters k).getD CCluster.reset
def State.modCcl (s : State) (k : Nat) (f : CCluster → CCluster) : State :=
  { s with cclusters := kset s.cclusters k (f (s.ccl k)) }

/-- A die, which package reset leaves not started. -/
def State.die (s : State) (d : Nat) : Die := (kget s.dies d).getD Die.reset
def State.modDie (s : State) (d : Nat) (f : Die → Die) : State := { s with dies := kset s.dies d (f (s.die d)) }

/-- A resident context. -/
def State.ctx (s : State) (c : Nat) : Option Ctx := kget s.ctxs c
def State.ctxD (s : State) (c : Nat) : Ctx := (kget s.ctxs c).getD Ctx.reset
def State.modCtx (s : State) (c : Nat) (f : Ctx → Ctx) : State := { s with ctxs := kmod s.ctxs c f }

/-- A team, resident or saved. -/
def State.team (s : State) (t : Nat) : Option Team := kget s.teams t
def State.teamD (s : State) (t : Nat) : Team := (kget s.teams t).getD Team.blank
def State.modTeam (s : State) (t : Nat) (f : Team → Team) : State := { s with teams := kmod s.teams t f }

def State.modPkg (s : State) (f : Pkg → Pkg) : State := { s with pkg := f s.pkg }
def State.modFe (s : State) (f : FrontEnd → FrontEnd) : State := { s with fe := f s.fe }

/-- A queue port (R313). -/
def State.port (s : State) (p : Nat) : QPort := (kget s.fe.ports p).getD QPort.reset
def State.modPort (s : State) (p : Nat) (f : QPort → QPort) : State :=
  s.modFe (fun e => { e with ports := kset e.ports p (f (s.port p)) })

/-- What the front end keeps for a context. -/
def State.feCtx (s : State) (c : Nat) : FeCtx := (kget s.fe.ctxs c).getD FeCtx.reset
def State.modFeCtx (s : State) (c : Nat) (f : FeCtx → FeCtx) : State :=
  s.modFe (fun e => { e with ctxs := kset e.ctxs c (f (s.feCtx c)) })

/-- An Ethernet port (R423). -/
def State.ethp (s : State) (p : Nat) : EthPort := (kget s.eth p).getD EthPort.reset
def State.modEth (s : State) (p : Nat) (f : EthPort → EthPort) : State := { s with eth := kset s.eth p (f (s.ethp p)) }

/-- Put events at the end of the agenda. -/
def State.then_ (s : State) (l : List Instr) : State := { s with agenda := s.agenda ++ l }

/-- The next serial number. -/
def State.fresh (s : State) : Nat × State := (s.serial, { s with serial := s.serial + 1 })

/-- A clk from which something whose time no rule states may happen: FREE (log 6), at least one clk ahead. -/
def State.freeDue (s : State) : Nat × State :=
  (s.pkg.clock + 1 + Config.freeTime s.free, { s with free := s.free + 1 })

/-- A choice a rule leaves open, below a bound: FREE (log 13). -/
def State.freePick (s : State) (n : Nat) : Nat × State := (Config.freeChoice s.free % n, { s with free := s.free + 1 })

/-- Whether a core is one of the 224 compute cores (R15). -/
def isCompute (c : Nat) : Bool := decide (c < 224)

/-- The die of a core (R13, R357). -/
def coreDie (c : Nat) : Nat := if c < 224 then c / 28 else if c = 560 then 20 else (c - 224) / 16

/-- The number of a core within its die, as group handles carry it (R340): 0–27 for a compute core; PRESUMED (log 21) 28 + j
for a supervisor core of a C-die and j elsewhere. -/
def coreInDie (c : Nat) : Nat :=
  if c < 224 then c % 28 else if c = 560 then 31 else if (c - 224) / 16 < 8 then 28 + (c - 224) % 16 else (c - 224) % 16

/-- The core cluster of a compute core (R15). -/
def coreCcl (c : Nat) : Nat := c / 4

/-- The resident index of a group: ((core · 4) + port) · 16 + slot, which is R337's i for compute cores. -/
def gidOf (core port slot : Nat) : Nat := (core * 4 + port) * 16 + slot
def gidCore (g : Nat) : Nat := g / 64
def gidPort (g : Nat) : Nat := g / 16 % 4
def gidSlot (g : Nat) : Nat := g % 16

/-- A group handle (R340). -/
def handleOf (g : Nat) : Nat :=
  field 12 4 (gidSlot g) + field 10 2 (gidPort g) + field 5 5 (coreInDie (gidCore g)) + field 0 5 (coreDie (gidCore g))

/-- The resident index a group handle names on the compute cores (R340). -/
def gidOfHandle (h : Nat) : Option Nat :=
  let die := h % 32
  let core := h / 32 % 32
  if die < 8 && core < 28 then some (gidOf (die * 28 + core) (h / 1024 % 4) (h / 4096 % 16)) else none

/-- Issue ports of a core (R14, R357). -/
def portsOf (c : Nat) : Nat := if c < 224 then 4 else 1

/-- Code of a level (R330). -/
def levelCode : Level → Nat
  | .user => 0
  | .handler => 1
  | .supervisor => 2
  | .boot => 3

/-- Code of a trap cause (R335). -/
def causeCode : Cause → Nat
  | .none => 0
  | .illegal => 1
  | .stallShort => 2
  | .misalign => 3
  | .bounds => 4
  | .regionTag => 5
  | .page => 6
  | .perm => 7
  | .stackOver => 8
  | .trapi => 9
  | .bkpt => 10
  | .dieLost => 11
  | .mcheck => 12
  | .tileState => 14
  | .engine => 15
  | .barrierMisuse => 16
  | .fabric => 17

/-- Code of a slot cause (R379). -/
def slotCode : SlotCause → Nat
  | .issue => 0
  | .depFixed => 1
  | .depMem => 2
  | .depEngine => 3
  | .tile => 4
  | .barrier => 5
  | .watch => 6
  | .pipe => 7
  | .fetch => 8
  | .branch => 9
  | .fault => 10
  | .fence => 11
  | .switch => 12
  | .empty => 13
  | .throttle => 14
  | .yield => 15

/-- Whether a group runs outside the in-group handler: the levels at which region state moves (R94). -/
def Group.inRegion (g : Group) : Bool := decide (g.level ≠ .handler)

/-- Whether a group runs on a supervisor, service or boot core (R330). -/
def Group.isSup (g : Group) : Bool := decide (g.level = .supervisor) || decide (g.level = .boot)

/-- A lane's PC (R78). -/
def Group.vpcOf (g : Group) (l : Nat) : Pc := g.vpc.getD l exitPc
def Group.lspOf (g : Group) (l : Nat) : Word := g.lsp.getD l 0

/-- Lanes that have not exited (R78). -/
def Group.live (g : Group) : LaneMask := maskOf (fun l => decide (g.vpcOf l ≠ exitPc))

/-- Whether every lane has exited (R78). -/
def Group.retired (g : Group) : Bool := decide (g.live = 0)

/-- The lowest of a list of PCs. -/
def minPc : List Pc → Option Pc
  | [] => none
  | a :: t => match minPc t with
    | none => some a
    | some b => some (if b.toNat < a.toNat then b else a)

/-- The group's issue address (R78): the minimum lane PC over lanes neither exited nor set aside. -/
def Group.issuePc (g : Group) : Option Pc :=
  minPc ((lanes32.filter (fun l => decide (g.vpcOf l ≠ exitPc) && decide (g.aside.getD l 0 = 0))).map g.vpcOf)

/-- The active mask (R78). -/
def Group.active (g : Group) : LaneMask :=
  match g.issuePc with
  | none => 0
  | some p => maskOf (fun l => decide (g.vpcOf l = p) && decide (p ≠ exitPc) && decide (g.aside.getD l 0 = 0))

/-- Participants among a set of lanes: those that are not helper lanes (R54). -/
def Group.parts (g : Group) (m : LaneMask) : LaneMask := m &&& ~~~g.helper

/-- Whether a lane is a helper lane (R93). -/
def Group.isHelper (g : Group) (l : Nat) : Bool := g.helper.getLsbD l

end Sys2Proof.Machine
end

