-- ==== Sys2Proof/Machine/Info.lean ====
section
/-! DEFINITION. What the entry of each word says of its operands (R29–R35, R44 and the class chapters): the classes each
operand position accepts, the registers it names, which are read and which written, the latency of R39 and R48, the lowest
privilege level and whether the word is legal on supervisor and service cores. One table, used by WellFormed (static
legality), by the readiness and early-read rules (R40, R41) and by the dynamic legality of R46. -/

namespace Sys2Proof.Machine

/-- The operand classes a position accepts (R30): V, S, ZERO, lane numbers and immediates, by their letters. -/
inductive Cls where
  | src | srcn | dst | v | vz | s | sz | szi | si | vs | vsz | vszi
  deriving DecidableEq, Repr

/-- One operand position of a word: the operand, how many consecutive registers it names, their alignment, how many of the
first are not touched, whether they are read and written, and the accepted classes. -/
structure OpUse where
  o : Opnd
  n : Nat
  al : Nat
  skip : Nat
  rd : Bool
  wr : Bool
  cls : Cls
  deriving DecidableEq, Repr

/-- The entry of a word. `lat` 0: no fixed latency. `prd` and `prn` are the predicates it reads beside its guard (`prn` by
index, P in a vector word and Q in a uniform word), `pwr` and `pwn` the predicate it writes. -/
structure Info where
  h : Hdr
  op : Nat
  decl : Bool := false
  uses : List OpUse := []
  prd : List PCode := []
  prn : List (Fin 8) := []
  pwr : Option PCode := none
  pwn : Option (Fin 8) := none
  lat : Nat := 0
  lvl : Nat := 0
  sup : Bool := true
  sp : Option Space := none
  ok : Bool := true
  deriving DecidableEq, Repr

/-- Whether a class accepts an operand (R30). -/
def clsOk : Cls → Opnd → Bool
  | .src, _ => true
  | .srcn, .imm _ => false
  | .srcn, _ => true
  | .dst, .v _ => true
  | .dst, .s _ => true
  | .dst, .zero => true
  | .dst, _ => false
  | .v, .v _ => true
  | .v, _ => false
  | .vz, .v _ => true
  | .vz, .zero => true
  | .vz, _ => false
  | .s, .s _ => true
  | .s, _ => false
  | .sz, .s _ => true
  | .sz, .zero => true
  | .sz, _ => false
  | .szi, .s _ => true
  | .szi, .zero => true
  | .szi, .imm _ => true
  | .szi, _ => false
  | .si, .s _ => true
  | .si, .imm _ => true
  | .si, _ => false
  | .vs, .v _ => true
  | .vs, .s _ => true
  | .vs, _ => false
  | .vsz, .v _ => true
  | .vsz, .s _ => true
  | .vsz, .zero => true
  | .vsz, _ => false
  | .vszi, .lane => false
  | .vszi, .qlane => false
  | .vszi, _ => true

/-- Static legality of one operand position: its class, the alignment of its first register and the register files' ends
(R30, R32, and the entry's own alignment). -/
def useOk (u : OpUse) : Bool :=
  clsOk u.cls u.o &&
  match u.o with
  | .v n => decide (n.val % u.al = 0) && decide (n.val + u.n ≤ 256)
  | .s n => decide (n.val % u.al = 0) && decide (n.val + u.n ≤ 384)
  | _ => true

/-- The number of V register `n` among all registers: V 0–255, S 256–639, P 640–647, Q 648–655. -/
def vReg (n : Nat) : Nat := n
/-- The number of S register `n` among all registers. -/
def sReg (n : Nat) : Nat := 256 + n
/-- The number of P predicate `n` among all registers. -/
def pReg (n : Nat) : Nat := 640 + n
/-- The number of Q predicate `n` among all registers. -/
def qReg (n : Nat) : Nat := 648 + n
/-- The number of the predicate a code names. -/
def pcReg : PCode → Nat
  | .p n => pReg n.val
  | .q n => qReg n.val

/-- The registers an operand position touches, in ascending number. -/
def useRegs (u : OpUse) : List Nat :=
  match u.o with
  | .v n => (List.range (u.n - u.skip)).map (fun j => vReg (n.val + u.skip + j))
  | .s n => (List.range (u.n - u.skip)).map (fun j => sReg (n.val + u.skip + j))
  | _ => []

def uD (o : Opnd) : OpUse := ⟨o, 1, 1, 0, false, true, .dst⟩
def uD2 (o : Opnd) : OpUse := ⟨o, 2, 2, 0, false, true, .dst⟩
def uDR (o : Opnd) : OpUse := ⟨o, 1, 1, 0, true, true, .dst⟩
def uDH (o : Opnd) : OpUse := ⟨o, 2, 2, 1, false, true, .dst⟩
def uDN (b : Bool) (o : Opnd) : OpUse := if b then uD2 o else uD o
def uS (o : Opnd) : OpUse := ⟨o, 1, 1, 0, true, false, .src⟩
def uS2 (o : Opnd) : OpUse := ⟨o, 2, 2, 0, true, false, .src⟩
def uSn (o : Opnd) : OpUse := ⟨o, 1, 1, 0, true, false, .srcn⟩
def uSx (b : Bool) (o : Opnd) : OpUse := if b then uS2 o else uS o
def uW (c : Cls) (n : Nat) (o : Opnd) : OpUse := ⟨o, n, n, 0, false, true, c⟩
def uWn (c : Cls) (n : Nat) (o : Opnd) : OpUse := ⟨o, n, n, 0, false, true, c⟩
def uWa (c : Cls) (n al : Nat) (o : Opnd) : OpUse := ⟨o, n, al, 0, false, true, c⟩
def uRW (c : Cls) (n al : Nat) (o : Opnd) : OpUse := ⟨o, n, al, 0, true, true, c⟩
def uR (c : Cls) (n : Nat) (o : Opnd) : OpUse := ⟨o, n, n, 0, true, false, c⟩
def uRn (c : Cls) (n : Nat) (o : Opnd) : OpUse := ⟨o, n, n, 0, true, false, c⟩
def uRa (c : Cls) (n al : Nat) (o : Opnd) : OpUse := ⟨o, n, al, 0, true, false, c⟩
def uSkip (c : Cls) (n k : Nat) (o : Opnd) : OpUse := ⟨o, n, n, k, true, false, c⟩

/-- Registers of one access of a size (R129). -/
def szRegs : MSize → Nat
  | .b64 => 2
  | .b128 => 4
  | _ => 1

/-- Bytes of one access of a size (R129). -/
def szBytes : MSize → Nat
  | .b8 => 1
  | .b16 => 2
  | .b32 => 4
  | .b64 => 8
  | .b128 => 16

/-- Registers of PUSH and POP (R87). -/
def stkRegs : StkSize → Nat
  | .b32 => 1
  | .b64 => 2
  | .b128 => 4

/-- Whether a number type is 64 bits wide (R103). -/
def is64 : NumTy → Bool
  | .int64 => true
  | .uint64 => true
  | _ => false

/-- Whether a number type is 8 or 4 bits wide, so that a source of it accepts no immediate (R31). -/
def isNarrow8 : NumTy → Bool
  | .e4m3 | .e5m2 | .e2m1 | .e8m0 | .int4 | .uint4 | .int8 | .uint8 => true
  | _ => false

/-- Whether a number type is a floating format other than E8M0 (R116). -/
def isFloatTy : NumTy → Bool
  | .fp32 | .fp16 | .bf16 | .e4m3 | .e5m2 | .e2m1 => true
  | _ => false

/-- Destinations that .RNEF allows (R115). -/
def rnefDst : NumTy → Bool
  | .fp16 | .bf16 | .e4m3 | .e5m2 | .e2m1 => true
  | _ => false

/-- Legal pairs and modes of CVT (R115). -/
def cvtOk (dt st : NumTy) (rm : RndE) : Bool :=
  decide (dt ≠ st) && (decide (dt ≠ .e8m0) || decide (st = .fp32)) && (decide (st ≠ .e8m0) || decide (dt = .fp32)) &&
  (decide (rm ≠ .rnef) || (decide (st = .fp32) && rnefDst dt))

/-- Elements for each lane of CVTP and UNPK (R119, R120); 0 where the type is illegal there. -/
def unpkN : NumTy → Nat
  | .fp16 | .bf16 | .int16 | .uint16 => 2
  | .e4m3 | .e5m2 | .int8 | .uint8 => 4
  | .e2m1 | .int4 | .uint4 => 8
  | _ => 0

/-- Source registers in each of A and B of CVTP (R119). -/
def packIn (dt : NumTy) : Nat := if unpkN dt = 0 then 1 else unpkN dt / 2

/-- Legal destinations and modes of CVTP (R119). -/
def cvtpOk (dt : NumTy) (rm : RndE) : Bool := decide (unpkN dt ≠ 0) && (decide (rm ≠ .rnef) || rnefDst dt)

/-- Legal source types of ACCLD (R280). -/
def accldOk : NumTy → Bool
  | .fp32 | .bf16 | .fp16 | .int32 | .int16 | .int8 => true
  | _ => false

/-- Legal type pairs and modes of ACCST (R281). -/
def accstOk (dt st : NumTy) (rm : RndE) : Bool :=
  (match st with
   | .fp32 => match dt with
     | .fp32 | .fp16 | .bf16 | .e4m3 | .e5m2 | .e2m1 | .int32 | .int16 | .int8 => true
     | _ => false
   | .int32 => match dt with
     | .int32 | .int16 | .int8 | .int4 | .fp32 | .fp16 | .bf16 => true
     | _ => false
   | _ => false) && (decide (rm ≠ .rnef) || (decide (st = .fp32) && rnefDst dt))

/-- Modifiers of LD and LDU (R129): .SX only with .8 and .16, a policy only with .G. -/
def memOkL (m : MemMod) : Bool :=
  (!m.sx || decide (m.sz = .b8) || decide (m.sz = .b16)) && (decide (m.pol = .keep) || decide (m.sp = .g))

/-- Modifiers of ST and STU (R129). -/
def memOkS (m : MemMod) : Bool := !m.sx && (decide (m.pol = .keep) || decide (m.sp = .g))

/-- Modifiers of an atomic word (R180): no .L. -/
def atomOk (m : AtomMod) : Bool := decide (m.sp ≠ .l)

/-- Orders of RED and FREDM (R185). -/
def redOrdOk (m : AtomMod) : Bool := decide (m.ord = .rlx) || decide (m.ord = .rel)

/-- Types of MMAS (R247): codes 2–5. -/
def mmasOk : MmaTy → Bool
  | .e4m3 | .e5m2 | .e4m3e5m2 | .e5m2e4m3 => true
  | _ => false

/-- Modifiers of LDM (R254). -/
def fragOkL (m : FragMod) : Bool :=
  decide (m.sp ≠ .l) && (decide (m.es = .none) || (decide (m.kind = .fop) && m.t)) &&
  !(decide (m.es = .none) && decide (m.kind = .fop) && m.t)

/-- Modifiers of STM (R254): no .T.E4. -/
def fragOkS (m : FragMod) : Bool := fragOkL m && !(m.t && decide (m.es = .e4))

/-- Registers of a fragment (R245, R254). -/
def fragRegs : FragKind → Nat
  | .fop => 4
  | .facc => 8
  | .fcpx => 16

/-- Registers of a record (R323). -/
def rsRegs : RecSize → Nat
  | .r32 => 8
  | .r16 => 4
  | .r64 => 16

/-- Bytes of a record (R323). -/
def rsBytes (r : RecSize) : Nat := 4 * rsRegs r

def uCvs (t : NumTy) (o : Opnd) : OpUse := if is64 t then uS2 o else if isNarrow8 t then uSn o else uS o
def uAs (sp : Space) (o : Opnd) : OpUse := if sp = .g then uR .vs 2 o else uR .vs 1 o
def uAu (sp : Space) (o : Opnd) : OpUse := if sp = .g then uR .szi 2 o else uR .szi 1 o
def uFa (sp : Space) (o : Opnd) : OpUse := if sp = .g then uR .s 2 o else uR .sz 1 o
def uDa (m : AtomMod) (o : Opnd) : OpUse := if m.w64 then uW .dst 2 o else uW .dst 1 o
def uBa (m : AtomMod) (o : Opnd) : OpUse := if m.w64 then uR .vszi 2 o else uR .vszi 1 o
def uBc (m : AtomMod) (o : Opnd) : OpUse := if m.w64 then uR .vs 4 o else uR .vs 2 o
def uDw (m : WatchMod) (o : Opnd) : OpUse := if m.w64 then uW .sz 4 o else uW .sz 2 o
def uBw (m : WatchMod) (o : Opnd) : OpUse := if m.w64 then uR .s 4 o else uR .s 2 o
def uXb (s24 : Bool) (o : Opnd) : OpUse := if s24 then uRa .s 5 2 o else uRa .s 5 1 o
def uXb24 (s24 : Bool) (o : Opnd) : List OpUse := if s24 then [⟨o, 8, 2, 6, true, false, .s⟩] else []
def uPush (z : StkSize) (o : Opnd) : OpUse := uR .src (stkRegs z) o
def uPop (z : StkSize) (o : Opnd) : OpUse := uW .v (stkRegs z) o
def uWf (k : FragKind) (o : Opnd) : OpUse := uWa .v (fragRegs k) (if k = .fop then 4 else 8) o
def uRf (k : FragKind) (o : Opnd) : OpUse := uRa .vz (fragRegs k) (if k = .fop then 4 else 8) o
def uWsz64 (w : Bool) (o : Opnd) : OpUse := if w then uW .sz 2 o else uW .sz 1 o
def uRszi64 (w : Bool) (o : Opnd) : OpUse := if w then uR .szi 2 o else uR .szi 1 o
def uLd (f : LeaForm) (o : Opnd) : OpUse := if f = .w32 then uD o else uD2 o
def uLa (f : LeaForm) (o : Opnd) : OpUse := if f = .w32 then uS o else uS2 o

/-- The combining predicate a comparison reads (R63). -/
def combReads (k : PComb) : List (Fin 8) := if k.comb = .none then [] else [k.ci]

/-- Without a combination the combining fields are zero (R63). -/
def combOk (k : PComb) : Bool := decide (k.comb ≠ .none) || (!k.cn && decide (k.ci = 0))

/-- A uniform PLOP reads Q codes only (R65). -/
def plopOk (d a b : PCode) : Bool :=
  match d, a, b with
  | .q _, .q _, .q _ => true
  | .q _, _, _ => false
  | .p _, _, _ => true

/-- S or ZERO as a destination (R325). -/
def isSZ : Opnd → Bool
  | .s _ => true
  | .zero => true
  | _ => false

/-- The header an event carries nowhere: unguarded, no stall. -/
def hdr0 : Hdr := ⟨false, 0, false, 7⟩

/-- An event has no word, hence no operands. -/
def infoEvent : Info := { h := hdr0, op := 0, ok := false }

/-- Halves that read their destination operand as the first source (R43): all but MOV, POPC and the conversions. -/
def halfReadsD : HalfOp → Bool
  | .mov | .popc | .cvtFI | .cvtIF => false
  | _ => true

/-- The latency of a half (R43). -/
def halfLat : HalfOp → Nat
  | .imul | .hadd2 | .hmul2 | .badd2 | .bmul2 => 5
  | .cvtFI | .cvtIF => 6
  | _ => 4

/-- The operand positions of a half (R43). -/
def halfUses (x : Half) : List OpUse := [⟨x.d, 1, 1, 0, halfReadsD x.op, true, .dst⟩, uS x.a]

/-- Whether an operand may be a source of a uniform word (R33). -/
def uniSrc : Opnd → Bool
  | .s _ => true
  | .zero => true
  | .imm _ => true
  | _ => false

/-- Whether a half writes an S register, which makes the half uniform (R33, R43). -/
def halfUni (x : Half) : Bool :=
  match x.d with
  | .s _ => true
  | _ => false

/-- The V registers of a half's operands. -/
def halfV (x : Half) : List Nat :=
  (match x.d with | .v n => [n.val] | _ => []) ++ (match x.a with | .v n => [n.val] | _ => [])

/-- Numbers pairwise in distinct banks (R44 item 3). -/
def banksDistinct : List Nat → Bool
  | [] => true
  | a :: t => t.all (fun b => decide (a % 4 ≠ b % 4)) && banksDistinct t

/-- The register an operand names, for R44 item 4. -/
def opndReg : Opnd → Option Nat
  | .v n => some (vReg n.val)
  | .s n => some (sReg n.val)
  | _ => none

/-- One half neither reads nor writes the register another half's D names (R44 item 4). -/
def halfApart (x y : Half) : Bool :=
  match opndReg y.d with
  | none => true
  | some r => decide (opndReg x.d ≠ some r) && decide (opndReg x.a ≠ some r)

/-- Items 2 and 5 of R44 for one half. -/
def halfOk (x : Half) : Bool :=
  (halfUses x).all useOk && (!halfUni x || (decide (x.g = 7) && uniSrc x.a))

/-- The rules of R44. -/
def pairOk (x y : Half) : Bool :=
  halfOk x && halfOk y && banksDistinct (halfV x ++ halfV y) && halfApart x y && halfApart y x

/-- The entry of a pair word: its halves' positions and guards (R43, R44). -/
def infoPair (e : Bool) (stall : Fin 8) (x y : Half) : Info :=
  { h := ⟨e, ⟨stall.val, by omega⟩, false, 7⟩, op := 512, uses := halfUses x ++ halfUses y, prd := [.p x.g, .p y.g],
    ok := pairOk x y }

/-- The entry of every row. -/
def info : Instr → Info
  | .mov h d a => { h := h, op := 0x000, lat := 4, uses := [uD d, uS a] }
  | .iadd h d a b _ => { h := h, op := 0x001, lat := 4, uses := [uD d, uS a, uS b] }
  | .iadd64 h d a b => { h := h, op := 0x002, lat := 4, uses := [uD2 d, uS2 a, uS2 b] }
  | .isub h d a b _ => { h := h, op := 0x003, lat := 4, uses := [uD d, uS a, uS b] }
  | .isub64 h d a b => { h := h, op := 0x004, lat := 4, uses := [uD2 d, uS2 a, uS2 b] }
  | .imul h d a b => { h := h, op := 0x005, lat := 5, uses := [uD d, uS a, uS b] }
  | .imulh h d a b => { h := h, op := 0x006, lat := 5, uses := [uD d, uS a, uS b] }
  | .imulhu h d a b => { h := h, op := 0x007, lat := 5, uses := [uD d, uS a, uS b] }
  | .imad h d a b c => { h := h, op := 0x008, lat := 5, uses := [uD d, uS a, uS b, uS c] }
  | .imadw h d a b c _ => { h := h, op := 0x009, lat := 5, uses := [uD2 d, uS a, uS b, uS2 c] }
  | .idiv h d a b _ => { h := h, op := 0x00A, uses := [uD d, uS a, uS b] }
  | .irem h d a b _ => { h := h, op := 0x00B, uses := [uD d, uS a, uS b] }
  | .imin h d a b _ => { h := h, op := 0x00C, lat := 4, uses := [uD d, uS a, uS b] }
  | .imax h d a b _ => { h := h, op := 0x00D, lat := 4, uses := [uD d, uS a, uS b] }
  | .iabs h d a _ => { h := h, op := 0x00E, lat := 4, uses := [uD d, uS a] }
  | .isad h d a b c _ => { h := h, op := 0x00F, lat := 4, uses := [uD d, uS a, uS b, uS c] }
  | .and h d a b => { h := h, op := 0x010, lat := 4, uses := [uD d, uS a, uS b] }
  | .or h d a b => { h := h, op := 0x011, lat := 4, uses := [uD d, uS a, uS b] }
  | .xor h d a b => { h := h, op := 0x012, lat := 4, uses := [uD d, uS a, uS b] }
  | .andn h d a b => { h := h, op := 0x013, lat := 4, uses := [uD d, uS a, uS b] }
  | .shl h d a b => { h := h, op := 0x014, lat := 4, uses := [uD d, uS a, uS b] }
  | .shr h d a b => { h := h, op := 0x015, lat := 4, uses := [uD d, uS a, uS b] }
  | .sar h d a b => { h := h, op := 0x016, lat := 4, uses := [uD d, uS a, uS b] }
  | .shl64 h d a b => { h := h, op := 0x017, lat := 4, uses := [uD2 d, uS2 a, uS b] }
  | .shr64 h d a b => { h := h, op := 0x018, lat := 4, uses := [uD2 d, uS2 a, uS b] }
  | .sar64 h d a b => { h := h, op := 0x019, lat := 4, uses := [uD2 d, uS2 a, uS b] }
  | .fshl h d a b c _ => { h := h, op := 0x01A, lat := 4, uses := [uD d, uS a, uS b, uS c] }
  | .fshr h d a b c _ => { h := h, op := 0x01B, lat := 4, uses := [uD d, uS a, uS b, uS c] }
  | .popc h d a => { h := h, op := 0x01C, lat := 4, uses := [uD d, uS a] }
  | .clz h d a => { h := h, op := 0x01D, lat := 4, uses := [uD d, uS a] }
  | .ctz h d a => { h := h, op := 0x01E, lat := 4, uses := [uD d, uS a] }
  | .brev h d a => { h := h, op := 0x01F, lat := 4, uses := [uD d, uS a] }
  | .bfe h d a b c _ => { h := h, op := 0x020, lat := 4, uses := [uD d, uS a, uS b, uS c] }
  | .bfi h d a b c => { h := h, op := 0x021, lat := 4, uses := [uDR d, uS a, uS b, uS c] }
  | .sext h d a b => { h := h, op := 0x022, lat := 4, uses := [uD d, uS a, uS b] }
  | .zext h d a b => { h := h, op := 0x023, lat := 4, uses := [uD d, uS a, uS b] }
  | .icmp h d a b k _ => { h := h, op := 0x024, lat := 4, pwr := some d, prn := combReads k, ok := combOk k, uses := [uS a, uS b] }
  | .icmp64 h d a b k _ => { h := h, op := 0x025, lat := 4, pwr := some d, prn := combReads k, ok := combOk k, uses := [uS2 a, uS2 b] }
  | .sel h d a b _ n => { h := h, op := 0x026, lat := 4, prn := [n], uses := [uD d, uS a, uS b] }
  | .plop h d a b _ => { h := h, op := 0x027, lat := 4, pwr := some d, prd := [a, b], ok := plopOk d a b }
  | .lea h d a b form _ _ => { h := h, op := 0x028, lat := 4, uses := [uLd form d, uLa form a, uS b] }
  | .moviFull h d _ => { h := h, op := 0x029, lat := 4, uses := [uD d] }
  | .moviWide h d _ => { h := h, op := 0x029, lat := 4, uses := [uD d] }
  | .movihFull h d _ => { h := h, op := 0x02A, lat := 4, uses := [uDH d] }
  | .movihWide h d _ => { h := h, op := 0x02A, lat := 4, uses := [uDH d] }
  | .iaddiFull h d a _ => { h := h, op := 0x02B, lat := 4, uses := [uD d, uS a] }
  | .iaddiWide h d _ => { h := h, op := 0x02B, lat := 4, uses := [uDR d] }
  | .qxch h d a _ => { h := h, op := 0x030, lat := 6, sup := false, uses := [uD d, uS a] }
  | .shfl h d a b _ _ => { h := h, op := 0x031, lat := 6, sup := false, uses := [uD d, uS a, uS b] }
  | .vote h d a _ => { h := h, op := 0x032, lat := 4, sup := false, pwr := some (.p d), prd := [a] }
  | .ballot h d a => { h := h, op := 0x033, lat := 4, sup := false, prd := [a], uses := [uW .vz 1 d] }
  | .matchw h d a w64 => { h := h, op := 0x034, lat := 6, sup := false, uses := [uW .vz 1 d, uSx w64 a] }
  | .elect h d => { h := h, op := 0x035, lat := 4, sup := false, pwr := some (.p d) }
  | .readlane h d a b => { h := h, op := 0x036, lat := 6, sup := false, uses := [uW .vz 1 d, uR .v 1 a, uR .szi 1 b] }
  | .writelane h d a b => { h := h, op := 0x037, lat := 6, sup := false, uses := [uW .vz 1 d, uR .szi 1 a, uR .szi 1 b] }
  | .gred h d a _ => { h := h, op := 0x038, lat := 10, sup := false, uses := [uW .vz 1 d, uS a] }
  | .gscan h d a _ _ => { h := h, op := 0x039, lat := 10, sup := false, uses := [uW .vz 1 d, uS a] }
  | .mask h d _ => { h := h, op := 0x03A, lat := 4, sup := false, uses := [uD d] }
  | .pairWord e stall h0 h1 => infoPair e stall h0 h1
  | .nop h => { h := h, op := 0x080 }
  | .braFull h _ => { h := h, op := 0x081 }
  | .braWide h _ => { h := h, op := 0x081 }
  | .brx h a => { h := h, op := 0x082, uses := [uR .vs 2 a] }
  | .bruFull h _ => { h := h, op := 0x083, decl := true }
  | .bruWide h _ => { h := h, op := 0x083, decl := true }
  | .callFull h _ => { h := h, op := 0x084 }
  | .callWide h _ => { h := h, op := 0x084 }
  | .callx h a => { h := h, op := 0x085, uses := [uR .vs 2 a] }
  | .ret h => { h := h, op := 0x086 }
  | .exit h => { h := h, op := 0x087 }
  | .yield h n => { h := h, op := 0x088, ok := decide (n ≠ 0) }
  | .rdvpc h d a => { h := h, op := 0x08A, lat := 4, lvl := 1, uses := [uW .v 2 d, uS a] }
  | .wrvpc h a b => { h := h, op := 0x08B, lvl := 1, uses := [uR .vs 2 a, uS b] }
  | .sleepc h a => { h := h, op := 0x08C, decl := true, uses := [uR .szi 1 a] }
  | .trap h _ => { h := h, op := 0x08D }
  | .bkpt h _ => { h := h, op := 0x08E }
  | .hret h => { h := h, op := 0x08F, decl := true, lvl := 1 }
  | .push h a sz => { h := h, op := 0x090, uses := [uPush sz a] }
  | .pop h d sz => { h := h, op := 0x091, uses := [uPop sz d] }
  | .salloc h d a => { h := h, op := 0x092, lat := 4, uses := [uW .v 1 d, uS a] }
  | .sfree h a => { h := h, op := 0x093, uses := [uS a] }
  | .fadd h d a b _ _ => { h := h, op := 0x0C0, lat := 4, uses := [uD d, uS a, uS b] }
  | .fsub h d a b _ _ => { h := h, op := 0x0C1, lat := 4, uses := [uD d, uS a, uS b] }
  | .fmul h d a b _ _ => { h := h, op := 0x0C2, lat := 4, uses := [uD d, uS a, uS b] }
  | .ffma h d a b c _ _ _ => { h := h, op := 0x0C3, lat := 4, uses := [uD d, uS a, uS b, uS c] }
  | .ffma2 h d a b c _ _ _ => { h := h, op := 0x0C7, lat := 4, uses := [uW .vs 2 d, uR .vszi 2 a, uR .vszi 2 b, uR .vszi 2 c] }
  | .fmin h d a b _ _ => { h := h, op := 0x0C4, lat := 4, uses := [uD d, uS a, uS b] }
  | .fmax h d a b _ _ => { h := h, op := 0x0C5, lat := 4, uses := [uD d, uS a, uS b] }
  | .fcmp h d a b k _ => { h := h, op := 0x0C6, lat := 4, pwr := some d, prn := combReads k, ok := combOk k, uses := [uS a, uS b] }
  | .hadd2 h d a b => { h := h, op := 0x0C8, lat := 5, uses := [uD d, uS a, uS b] }
  | .hmul2 h d a b => { h := h, op := 0x0C9, lat := 5, uses := [uD d, uS a, uS b] }
  | .hfma2 h d a b c => { h := h, op := 0x0CA, lat := 5, uses := [uD d, uS a, uS b, uS c] }
  | .badd2 h d a b => { h := h, op := 0x0CB, lat := 5, uses := [uD d, uS a, uS b] }
  | .bmul2 h d a b => { h := h, op := 0x0CC, lat := 5, uses := [uD d, uS a, uS b] }
  | .bfma2 h d a b c => { h := h, op := 0x0CD, lat := 5, uses := [uD d, uS a, uS b, uS c] }
  | .frcp h d a _ => { h := h, op := 0x0D0, lat := 12, uses := [uD d, uS a] }
  | .frsq h d a _ => { h := h, op := 0x0D1, lat := 12, uses := [uD d, uS a] }
  | .fsqrt h d a _ => { h := h, op := 0x0D2, lat := 12, uses := [uD d, uS a] }
  | .fex2 h d a _ => { h := h, op := 0x0D3, lat := 12, uses := [uD d, uS a] }
  | .flg2 h d a _ => { h := h, op := 0x0D4, lat := 12, uses := [uD d, uS a] }
  | .fsin h d a _ => { h := h, op := 0x0D5, lat := 12, uses := [uD d, uS a] }
  | .fcos h d a _ => { h := h, op := 0x0D6, lat := 12, uses := [uD d, uS a] }
  | .ftanh h d a _ => { h := h, op := 0x0D7, lat := 12, uses := [uD d, uS a] }
  | .fdiv h d a b _ => { h := h, op := 0x0D8, uses := [uD d, uS a, uS b] }
  | .cvt h d a dt st rm _ => { h := h, op := 0x0E0, lat := 6, ok := cvtOk dt st rm, uses := [uDN (is64 dt) d, uCvs st a] }
  | .cvtp h d a b dt rm _ => { h := h, op := 0x0E1, lat := 6, ok := cvtpOk dt rm, uses := [uD d, uRn .vsz (packIn dt) a, uRn .vsz (packIn dt) b] }
  | .unpk h d a st => { h := h, op := 0x0E2, lat := 6, ok := decide (unpkN st ≠ 0), uses := [uWn .vs (unpkN st) d, uCvs st a] }
  | .qblk h d a b => { h := h, op := 0x0E3, sup := false, uses := [uW .v 1 d, uR .v 4 a, uW .s 1 b] }
  | .mxq h d a b _ => { h := h, op := 0x0E4, lat := 12, sup := false, uses := [uW .v 1 d, uR .v 8 a, uW .v 1 b] }
  | .fred h d a op r => { h := h, op := 0x0E5, lat := 12, sup := false, ok := (decide (op = .add) || decide (r = .rn)), uses := [uW .vz 1 d, uS a] }
  | .cmulh2 h d a b _ => { h := h, op := 0x0E8, lat := 5, uses := [uD d, uSn a, uSn b] }
  | .cfmah2 h d a b c _ => { h := h, op := 0x0E9, lat := 5, uses := [uD d, uSn a, uSn b, uSn c] }
  | .ld h d a b m => { h := h, op := 0x100, sp := some (m.sp), ok := memOkL m, uses := [uWn .v (szRegs m.sz) d, uAs m.sp a, uR .vszi 1 b] }
  | .st h d a b m => { h := h, op := 0x101, sp := some (m.sp), ok := memOkS m, uses := [uRn .vz (szRegs m.sz) d, uAs m.sp a, uR .vszi 1 b] }
  | .ldu h d a b m => { h := h, op := 0x102, decl := true, sp := some (m.sp), ok := (memOkL m && decide (m.sp ≠ .l)), uses := [uWn .s (szRegs m.sz) d, uAu m.sp a, uR .szi 1 b] }
  | .stu h d a b m => { h := h, op := 0x103, decl := true, sp := some (m.sp), ok := (memOkS m && decide (m.sp ≠ .l)), uses := [uRn .sz (szRegs m.sz) d, uAu m.sp a, uR .szi 1 b] }
  | .touch h a b _ => { h := h, op := 0x106, sp := some .g, uses := [uR .vs 2 a, uR .vszi 1 b] }
  | .pref h a b _ => { h := h, op := 0x107, sp := some .g, uses := [uR .vs 2 a, uR .vszi 1 b] }
  | .flush h a b _ => { h := h, op := 0x108, sp := some .g, uses := [uR .vs 2 a, uR .vszi 1 b] }
  | .inv h a b _ => { h := h, op := 0x109, sp := some .g, uses := [uR .vs 2 a, uR .vszi 1 b] }
  | .vprobe h d a b => { h := h, op := 0x10C, sp := some .g, uses := [uW .vs 1 d, uR .vs 2 a, uR .vszi 1 b] }
  | .atom h d a b _ m => { h := h, op := 0x130, sp := some (m.sp), ok := atomOk m, uses := [uDa m d, uAs m.sp a, uBa m b] }
  | .cas h d a b m => { h := h, op := 0x131, sp := some (m.sp), ok := atomOk m, uses := [uDa m d, uAs m.sp a, uBc m b] }
  | .casar h d a b m n => { h := h, op := 0x132, sp := some (m.sp), pwn := some n, ok := atomOk m, uses := [uDa m d, uAs m.sp a, uBc m b] }
  | .red h a b op m => { h := h, op := 0x133, sp := some (m.sp), ok := (atomOk m && redOrdOk m && decide (op ≠ .xchg)), uses := [uAs m.sp a, uBa m b] }
  | .fatom h d a b _ m => { h := h, op := 0x134, sp := some (m.sp), ok := (atomOk m && !m.w64), uses := [uDa m d, uAs m.sp a, uBa m b] }
  | .fredm h a b _ m => { h := h, op := 0x135, sp := some (m.sp), ok := (atomOk m && redOrdOk m && !m.w64), uses := [uAs m.sp a, uBa m b] }
  | .fence h _ _ => { h := h, op := 0x138, decl := true }
  | .fencex h _ => { h := h, op := 0x139, decl := true }
  | .bara h d _ => { h := h, op := 0x150, decl := true, sup := false, uses := [uW .sz 1 d] }
  | .barw h _ a => { h := h, op := 0x151, decl := true, sup := false, uses := [uR .szi 1 a] }
  | .bars h _ => { h := h, op := 0x152, decl := true, sup := false }
  | .cbara h d _ => { h := h, op := 0x153, decl := true, sup := false, uses := [uW .sz 1 d] }
  | .cbarw h _ a => { h := h, op := 0x154, decl := true, sup := false, uses := [uR .szi 1 a] }
  | .cbars h _ => { h := h, op := 0x155, decl := true, sup := false }
  | .barx h cls n => { h := h, op := 0x156, decl := true, sup := false, ok := (decide (cls = .team) || decide (n.val < 8)) }
  | .watch h d a b m => { h := h, op := 0x157, decl := true, sp := some .g, uses := [uDw m d, uR .s 2 a, uBw m b] }
  | .watcht h d a b c m => { h := h, op := 0x158, decl := true, sp := some .g, uses := [uDw m d, uR .s 2 a, uBw m b, uR .szi 1 c] }
  | .watchh h d a b c m => { h := h, op := 0x159, decl := true, sp := some .g, uses := [uW .sz 1 d, uR .s 2 a, uBw m b, uRa .s 3 4 c] }
  | .talloc h _ a b => { h := h, op := 0x160, decl := true, sup := false, uses := [uR .szi 1 a, uR .si 1 b] }
  | .tfree h _ => { h := h, op := 0x161, decl := true, sup := false }
  | .tstate h d _ _ => { h := h, op := 0x162, decl := true, sup := false, uses := [uW .sz 1 d] }
  | .twait h _ a b => { h := h, op := 0x163, decl := true, sup := false, uses := [uR .s 2 a, uR .szi 1 b] }
  | .ttest h d _ a b => { h := h, op := 0x164, decl := true, sup := false, pwr := some (.q d), uses := [uR .s 2 a, uR .szi 1 b] }
  | .texpect h _ a => { h := h, op := 0x165, decl := true, sup := false, uses := [uR .si 1 a] }
  | .tdrain h _ => { h := h, op := 0x166, decl := true, sup := false }
  | .xload h _ a b rmask win s24 mc => { h := h, op := 0x167, sup := false, ok := ((mc || decide (rmask = 0)) && !(win && s24)), uses := [uR .vs 2 a, uXb s24 b] ++ uXb24 s24 b }
  | .xstore h _ a b => { h := h, op := 0x168, sup := false, uses := [uR .vs 2 a, uXb false b] }
  | .xfence h _ => { h := h, op := 0x16A, decl := true, sup := false }
  | .xstat h d => { h := h, op := 0x16B, decl := true, sup := false, uses := [uW .sz 1 d] }
  | .xpref h a b => { h := h, op := 0x16C, sup := false, uses := [uR .vs 2 a, uXb false b] }
  | .mma h d a b c _ => { h := h, op := 0x180, lat := 24, sup := false, uses := [uW .v 8 d, uR .vz 4 a, uR .vz 4 b, uR .vz 8 c] }
  | .mmas h d a b c ty => { h := h, op := 0x181, lat := 24, sup := false, ok := mmasOk ty, uses := [uRW .v 8 8 d, uR .vz 4 a, uR .vz 4 b, uR .v 1 c] }
  | .mmac h d a b c _ => { h := h, op := 0x182, lat := 24, sup := false, uses := [uWa .v 16 8 d, uR .vz 4 a, uR .vz 4 b, uRa .vz 16 8 c] }
  | .mmax h d a b c => { h := h, op := 0x183, lat := 24, sup := false, uses := [uRW .v 8 8 d, uR .vz 4 a, uR .vz 4 b, uR .v 1 c] }
  | .ldm h d a b m => { h := h, op := 0x184, sup := false, sp := some (m.sp), ok := fragOkL m, uses := [uWf m.kind d, uFa m.sp a, uR .szi 1 b] }
  | .stm h d a b m => { h := h, op := 0x185, sup := false, sp := some (m.sp), ok := fragOkS m, uses := [uRf m.kind d, uFa m.sp a, uR .szi 1 b] }
  | .mxb h d a b c => { h := h, op := 0x1A0, sup := false, uses := [uW .vz 1 d, uR .szi 1 a, uR .sz 2 b, uR .sz 2 c] }
  | .mxbw h d a => { h := h, op := 0x1A1, sup := false, uses := [uD d, uR .vszi 1 a] }
  | .mxbt h d a => { h := h, op := 0x1A2, sup := false, pwr := some d, uses := [uR .vszi 1 a] }
  | .accz h d a => { h := h, op := 0x1A3, sup := false, uses := [uW .vz 1 d, uR .sz 1 a] }
  | .accld h d a b st => { h := h, op := 0x1A4, sup := false, ok := accldOk st, uses := [uW .vz 1 d, uR .sz 1 a, uR .s 2 b] }
  | .accst h d a b dt st rm _ => { h := h, op := 0x1A5, sup := false, ok := accstOk dt st rm, uses := [uW .vz 1 d, uR .sz 1 a, uR .s 2 b] }
  | .accrd h d a => { h := h, op := 0x1A6, sup := false, uses := [uW .v 8 d, uR .sz 1 a] }
  | .slvcfg h d a b => { h := h, op := 0x1B0, decl := true, sup := false, uses := [uW .sz 1 d, uR .s 2 a, uR .szi 1 b] }
  | .slvinit h d a b => { h := h, op := 0x1B1, decl := true, sup := false, uses := [uW .sz 1 d, uR .s 2 a, uR .szi 1 b] }
  | .slvstage h d a b => { h := h, op := 0x1B2, decl := true, sup := false, uses := [uW .sz 1 d, uR .szi 1 a, uR .szi 1 b] }
  | .slvput h d a b => { h := h, op := 0x1B3, decl := true, sup := false, uses := [uW .sz 1 d, uR .szi 1 a, uR .szi 1 b] }
  | .slvstep h d a b => { h := h, op := 0x1B4, decl := true, sup := false, uses := [uW .sz 1 d, uR .szi 1 a, uR .szi 1 b] }
  | .slvstat h d a b => { h := h, op := 0x1B5, decl := true, sup := false, uses := [uW .sz 1 d, uR .szi 1 a, uR .szi 1 b] }
  | .launch h d a => { h := h, op := 0x1C0, decl := true, uses := [uW .sz 1 d, uR .s 2 a] }
  | .emit h a b rs => { h := h, op := 0x1C1, sup := false, uses := [uR .szi 1 a, uRn .v (rsRegs rs) b] }
  | .cont h a b rs => { h := h, op := 0x1C2, decl := true, sup := false, uses := [uR .szi 1 a, uRn .s (rsRegs rs) b] }
  | .notify h d a b => { h := h, op := 0x1C3, decl := isSZ d, uses := [uD d, uS a, uS b] }
  | .nodeq h d a => { h := h, op := 0x1C4, uses := [uD d, uS a] }
  | .rdsys h d w64 _ => { h := h, op := 0x1D0, decl := true, uses := [uWsz64 w64 d] }
  | .wrsys h a w64 _ => { h := h, op := 0x1D1, decl := true, uses := [uRszi64 w64 a] }
  | .syscall h d a b => { h := h, op := 0x1D2, decl := true, uses := [uW .sz 2 d, uR .szi 1 a, uR .sz 4 b] }
  | .tret h d a b c => { h := h, op := 0x1D3, decl := true, lvl := 2, uses := [uW .sz 1 d, uR .s 1 a, uR .sz 2 b, uR .szi 1 c] }
  | .ctxload h d a b => { h := h, op := 0x1D8, decl := true, lvl := 2, uses := [uW .sz 1 d, uR .szi 1 a, uR .s 2 b] }
  | .ctxsaveEvict h d a b => { h := h, op := 0x1D9, decl := true, lvl := 2, ok := decide (b ≠ .imm 1), uses := [uW .sz 1 d, uR .szi 1 a, uR .szi 1 b] }
  | .ctxsaveDestroy h d a => { h := h, op := 0x1D9, decl := true, lvl := 2, uses := [uW .sz 1 d, uR .szi 1 a] }
  | .preemptSpatial h d a => { h := h, op := 0x1DA, decl := true, lvl := 2, uses := [uW .sz 4 d, uRn .s 4 a] }
  | .preemptHalt h d a => { h := h, op := 0x1DA, decl := true, lvl := 2, uses := [uW .sz 4 d, uRn .s 4 a] }
  | .preemptStop h d a => { h := h, op := 0x1DA, decl := true, lvl := 2, uses := [uW .sz 4 d, uRn .s 4 a] }
  | .preemptResume h d a => { h := h, op := 0x1DA, decl := true, lvl := 2, uses := [uW .sz 4 d, uRn .s 4 a] }
  | .preemptRdreg h d a => { h := h, op := 0x1DA, decl := true, lvl := 2, uses := [uW .sz 4 d, uRn .s 4 a] }
  | .preemptWrreg h d a => { h := h, op := 0x1DA, decl := true, lvl := 2, uses := [uW .sz 4 d, uRn .s 4 a] }
  | .dump h d a => { h := h, op := 0x1DB, decl := true, lvl := 2, uses := [uW .sz 1 d, uR .szi 1 a] }
  | .msgsend h d a b _ _ => { h := h, op := 0x1D4, decl := true, lvl := 2, uses := [uW .sz 2 d, uR .szi 1 a, uSkip .s 16 2 b] }
  | .msgrecv h d a _ => { h := h, op := 0x1D5, decl := true, lvl := 2, uses := [uW .s 16 d, uR .szi 1 a] }
  | .invapply h d a => { h := h, op := 0x1D6, decl := true, lvl := 2, uses := [uW .sz 2 d, uRn .s 16 a] }
  | .tlbinv h d a => { h := h, op := 0x1D7, decl := true, lvl := 2, uses := [uW .sz 2 d, uRn .s 8 a] }
  | .zeropg h d a b => { h := h, op := 0x1DD, decl := true, lvl := 2, uses := [uW .sz 1 d, uR .s 2 a, uR .si 1 b] }
  | .splitrd h d a _ => { h := h, op := 0x1F0, decl := true, uses := [uW .sz 2 d, uR .szi 1 a] }
  | .splitsnap h d a all => { h := h, op := 0x1F1, decl := true, lvl := if all then 2 else 0, uses := [uW .sz 2 d, uR .s 2 a] }
  | .mark h _ a => { h := h, op := 0x1F2, decl := true, uses := [uR .szi 1 a] }
  | .sampcfg h d a => { h := h, op := 0x1F3, decl := true, uses := [uW .sz 1 d, uR .szi 1 a] }
  | .clock h d => { h := h, op := 0x1F4, lat := 4, uses := [uW .vs 2 d] }
  | .retcnt h d => { h := h, op := 0x1F5, decl := true, lat := 4, uses := [uW .s 2 d] }
  | .illegalWordKill _ => infoEvent
  | .sleepEnd _ => infoEvent
  | .stackSpill _ => infoEvent
  | .stackFill _ => infoEvent
  | .regionRestart _ => infoEvent
  | .registerComplete _ => infoEvent
  | .sideLogReplay _ _ => infoEvent
  | .chunkReissue _ => infoEvent
  | .atomicPerform _ => infoEvent
  | .barrierWake _ => infoEvent
  | .watchEvaluate _ _ => infoEvent
  | .watchTimeout _ _ => infoEvent
  | .copyJobStart _ => infoEvent
  | .mcPartStart _ _ => infoEvent
  | .chunkSettle _ => infoEvent
  | .copyJobComplete _ => infoEvent
  | .mxbJobStart _ => infoEvent
  | .accJobStart _ => infoEvent
  | .kblockEnd _ => infoEvent
  | .mxbJobComplete _ => infoEvent
  | .slvOpCommit _ => infoEvent
  | .parseGrid _ => infoEvent
  | .parseOpen _ => infoEvent
  | .parseClose _ => infoEvent
  | .nodeGather _ _ => infoEvent
  | .gatherTimerExpiry _ _ => infoEvent
  | .nodeDrained _ _ => infoEvent
  | .placeTeam _ => infoEvent
  | .successorForm _ => infoEvent
  | .teamRetire _ => infoEvent
  | .gridComplete _ => infoEvent
  | .queueResetComplete _ => infoEvent
  | .dumpRun _ => infoEvent
  | .dumpDone _ => infoEvent
  | .trapEntry _ => infoEvent
  | .teamSave _ => infoEvent
  | .sliceEnd _ => infoEvent
  | .ownerChange _ => infoEvent
  | .groomerReport _ => infoEvent
  | .shootdownApply _ => infoEvent
  | .lazyApply _ => infoEvent
  | .drainDone _ => infoEvent
  | .traceDeliver _ => infoEvent
  | .headroomDeliver _ => infoEvent
  | .writeAcknowledged _ => infoEvent
  | .touchWindowClose _ => infoEvent
  | .pageWalkComplete _ _ _ => infoEvent
  | .accessCountNotify _ => infoEvent
  | .sample _ _ => infoEvent
  | .overflowFold _ _ => infoEvent
  | .correctedError _ => infoEvent
  | .uncorrectableWriteback _ => infoEvent
  | .patrolScrub _ => infoEvent
  | .qtailWrite _ _ => infoEvent
  | .portEnable _ => infoEvent
  | .portDisable _ => infoEvent
  | .qreset _ => infoEvent
  | .dieLoss _ => infoEvent
  | .fmResetRequest _ => infoEvent
  | .linkWidthChange _ _ _ => infoEvent
  | .linkClockChange _ _ => infoEvent
  | .hostMemAccess _ _ _ => infoEvent
  | .hostSnoop _ _ => infoEvent
  | .yosonTimeout _ => infoEvent
  | .yosonPortFail _ => infoEvent
  | .frameReceive _ _ _ => infoEvent
  | .nvmeCompletion _ _ _ _ => infoEvent
  | .powerUp => infoEvent
  | .loadfe => infoEvent
  | .loaddie _ => infoEvent
  | .quote => infoEvent
  | .clockPlan _ => infoEvent
  | .powerMeasure _ _ => infoEvent
  | .supplyShutdown => infoEvent
  | .packageLoss => infoEvent
  | .ceClear _ => infoEvent
  | .unmatchedClear _ => infoEvent
  | .badfcsClear _ => infoEvent
  | .ringEnable _ _ _ => infoEvent
  | .csetWrite _ _ _ => infoEvent
  | .registerWrite _ _ _ => infoEvent
  | .ethernetLinkChange _ _ => infoEvent
  | .yosonlinkRequest _ => infoEvent

/-- Whether a word is uniform (R33): declared so, or its destination is an S register or a Q predicate. A pair has a class
for each half instead (R43). -/
def uniOf (i : Info) : Bool :=
  i.decl ||
  (match i.uses with
   | u :: _ => u.wr && decide (i.op ≠ 512) && (match u.o with | .s _ => true | _ => false)
   | [] => false) ||
  (match i.pwr with
   | some (.q _) => true
   | _ => false)

/-- Whether every source of a uniform word is S, ZERO or an immediate (R33). -/
def uniSrcsOk (i : Info) : Bool := !uniOf i || i.uses.all (fun u => !u.rd || uniSrc u.o)

/-- Static legality of a word (R29–R34, R44 and its entry): everything R46 asks that depends on the word alone. -/
def wordOk (i : Instr) : Bool :=
  let f := info i
  f.ok && f.uses.all useOk && uniSrcsOk f

/-- The predicate an index names in a word of a class (R36). -/
def clsPred (uni : Bool) (n : Fin 8) : PCode := if uni then .q n else .p n

/-- The predicates a word reads: the guard first (R381), then the others. -/
def infoPreds (f : Info) : List PCode :=
  (if f.h.gi = 7 then [] else [clsPred (uniOf f) f.h.gi]) ++ f.prd ++ f.prn.map (clsPred (uniOf f))

/-- The predicate a word writes. -/
def infoPWrite (f : Info) : Option PCode :=
  match f.pwr with
  | some p => some p
  | none => f.pwn.map (clsPred (uniOf f))

/-- Registers a word reads, the guard predicate first and then A, B, C and D (R381): the position of D comes last. -/
def srcRegs (f : Info) : List Nat :=
  let u := f.uses.filter (fun u => u.rd)
  let d := u.filter (fun u => u.wr)
  let r := u.filter (fun u => !u.wr)
  (infoPreds f).map pcReg ++ (r ++ d).flatMap useRegs

/-- Registers a word writes. -/
def dstRegs (f : Info) : List Nat :=
  (f.uses.filter (fun u => u.wr)).flatMap useRegs ++ (match infoPWrite f with | some p => [pcReg p] | none => [])

/-- Every register a word names, read or written. -/
def namedRegs (f : Info) : List Nat :=
  f.uses.flatMap useRegs ++ (infoPreds f).map pcReg ++ (match infoPWrite f with | some p => [pcReg p] | none => [])

/-- Whether a word names a V register, LANE, QLANE or one of P0–P6, which supervisor and service cores do not have (R46). -/
def namesLanes (f : Info) : Bool :=
  f.uses.any (fun u => match u.o with | .v _ => true | .lane => true | .qlane => true | _ => false) ||
  (infoPreds f).any (fun p => match p with | .p n => decide (n ≠ 7) | .q _ => false) ||
  (match infoPWrite f with | some (.p n) => decide (n ≠ 7) | _ => false)

end Sys2Proof.Machine
end

