-- ==== Sys2Proof/Machine/Operands.lean ====
section
/-! DEFINITION. Registers and operand forms (R30–R36): every read of an operand and every list of destination cells goes
through here. A register cell is keyed by 32 × register number + lane; uniform registers use lane 0. -/

namespace Sys2Proof.Machine

/-- The key of a register's cell in a lane. -/
def cellKey (r l : Nat) : Nat := r * 32 + l

/-- What the next word reads from a register cell (R38). -/
def Group.cell (g : Group) (r l : Nat) : Word := cget 0 g.regs (cellKey r l)

/-- V register `n` of a lane. -/
def Group.v (g : Group) (n l : Nat) : Word := g.cell (vReg n) l
/-- S register `n`. -/
def Group.sreg (g : Group) (n : Nat) : Word := g.cell (sReg n) 0

/-- A predicate's value in a lane: P7 and Q7 read true (R9). -/
def Group.pred (g : Group) (p : PCode) (l : Nat) : Bool :=
  match p with
  | .p n => decide (n = 7) || decide (g.cell (pReg n.val) l ≠ 0)
  | .q n => decide (n = 7) || decide (g.cell (qReg n.val) 0 ≠ 0)

/-- A 32-bit source in a lane, integer form (R30, R31). -/
def Group.rd (g : Group) (l : Nat) : Opnd → Word
  | .v n => g.v n.val l
  | .s n => g.sreg n.val
  | .zero => 0
  | .lane => BitVec.ofNat 32 l
  | .qlane => BitVec.ofNat 32 (l % 4)
  | .imm i => i.signExtend 32

/-- Register `j` of a multi-register source in a lane; ZERO, lane numbers and immediates supply their value widened
(R32): word 0 the low word, later words its sign or zeros. -/
def Group.rdj (g : Group) (l j : Nat) : Opnd → Word
  | .v n => g.v (n.val + j) l
  | .s n => g.sreg (n.val + j)
  | .zero => 0
  | .lane => if j = 0 then BitVec.ofNat 32 l else 0
  | .qlane => if j = 0 then BitVec.ofNat 32 (l % 4) else 0
  | .imm i => if j = 0 then i.signExtend 32 else if i.msb then 0xFFFFFFFF#32 else 0

/-- A 64-bit source in a lane (R32). -/
def Group.rd64 (g : Group) (l : Nat) (o : Opnd) : DWord := pair64 (g.rdj l 0 o) (g.rdj l 1 o)

/-- The cells of register `j` of a destination, given a value for each lane the word executes in (R30): an S register takes
the one value of a uniform word, ZERO discards. -/
def dstCells (d : Opnd) (j : Nat) (lanes : List Nat) (f : Nat → Word) : List (Nat × Word) :=
  match d with
  | .v n => lanes.map (fun l => (cellKey (vReg (n.val + j)) l, f l))
  | .s n => (lanes.take 1).map (fun l => (cellKey (sReg (n.val + j)) 0, f l))
  | _ => []

/-- The cells of a 64-bit destination (R32). -/
def dstCells64 (d : Opnd) (lanes : List Nat) (f : Nat → DWord) : List (Nat × Word) :=
  dstCells d 0 lanes (fun l => lo32 (f l)) ++ dstCells d 1 lanes (fun l => hi32 (f l))

/-- The cells of `n` consecutive destination registers. -/
def dstCellsN (d : Opnd) (n : Nat) (lanes : List Nat) (f : Nat → Nat → Word) : List (Nat × Word) :=
  (List.range n).flatMap (fun j => dstCells d j lanes (f j))

/-- A truth value as a register cell's value. -/
def bword (b : Bool) : Word := if b then 1 else 0

/-- The cells of a predicate destination (R34): a write to P7 or Q7 is discarded. -/
def predCells (p : PCode) (lanes : List Nat) (f : Nat → Bool) : List (Nat × Word) :=
  match p with
  | .p n => if n = 7 then [] else lanes.map (fun l => (cellKey (pReg n.val) l, bword (f l)))
  | .q n => if n = 7 then [] else (lanes.take 1).map (fun l => (cellKey (qReg n.val) 0, bword (f l)))

end Sys2Proof.Machine
end

