-- ==== Sys2Proof/Machine/Flags.lean ====
section
/-! DEFINITION. Predicate computations: guards (R36), comparisons and their combination (R63, R110), selection and the
logic table (R64, R65). The machine has no status flags beside its predicates (R53, R105). -/

namespace Sys2Proof.Machine

/-- Whether a guard holds in a lane (R36). -/
def Group.guard (g : Group) (uni : Bool) (h : Hdr) (l : Nat) : Bool := g.pred (clsPred uni h.gi) l != h.gn

/-- A comparison of two widened values (R63): signed values `a` `b`, unsigned values `x` `y`. -/
def icondHolds (c : ICond) (a b : Int) (x y : Nat) : Bool :=
  match c with
  | .eq => decide (x = y)
  | .ne => decide (x ≠ y)
  | .lt => decide (a < b)
  | .le => decide (a ≤ b)
  | .gt => decide (a > b)
  | .ge => decide (a ≥ b)
  | .ltu => decide (x < y)
  | .leu => decide (x ≤ y)
  | .gtu => decide (x > y)
  | .geu => decide (x ≥ y)

/-- A comparison's result combined with its predicate (R63). -/
def combine (k : PComb) (c p : Bool) : Bool :=
  let q := if k.cn then !p else p
  match k.comb with
  | .none => c
  | .and => c && q
  | .or => c || q
  | .xor => c != q

/-- The combining predicate's value in a lane (R63): P in a vector word, Q in a uniform one. -/
def Group.combPred (g : Group) (uni : Bool) (k : PComb) (l : Nat) : Bool := g.pred (clsPred uni k.ci) l

/-- PLOP's table (R65). -/
def plopVal (lut : BitVec 4) (a b : Bool) : Bool := lut.getLsbD ((if a then 2 else 0) + (if b then 1 else 0))

end Sys2Proof.Machine
end

