-- ==== Sys2Proof/Machine/Memory.lean ====
section
/-! DEFINITION. Every byte of the machine's memories in one flat space, as one canonical list of cells: HBM at its physical
address, memory outside the package (HOME 15) at 2^52 + its physical address, then the on-chip memories. A byte nothing has
written reads as 0 (DESIGN CHOICE, log 1). -/

namespace Sys2Proof.Machine

/-- What an unlisted byte reads as (DESIGN CHOICE, log 1). -/
def memDefault : Byte := 0

/-- The flat address of HBM (R26, R157: HOME 0–11) or outside memory (HOME 15). -/
def flatPa (home pa : Nat) : Nat := if home = 15 then 2 ^ 52 + pa else pa
/-- The flat address of a core scratchpad byte (R14). -/
def flatScratch (core off : Nat) : Nat := 2 ^ 53 + core * 2 ^ 20 + off
/-- The flat address of a die-scratchpad byte of a context's partition (R127). -/
def flatDie (ctx die off : Nat) : Nat := 2 ^ 54 + (ctx * 32 + die) * 2 ^ 25 + off
/-- The flat address of a supervisor stack byte (R358). -/
def flatStack (core slot off : Nat) : Nat := 2 ^ 55 + (core * 16 + slot) * 4096 + off
/-- The flat address of an accumulator-store byte (R259). -/
def flatAcc (core off : Nat) : Nat := 2 ^ 56 + core * 2 ^ 17 + off

/-- The canonical form of a memory: addresses strictly rising, no entry equal to the default. -/
def Memory.wf (m : List Host.Cell) : Bool := cwf memDefault m

/-- One byte of memory. -/
def State.byte (s : State) (a : Nat) : Byte := cget memDefault s.mem a

/-- `n` bytes from an address up. -/
def State.bytes (s : State) (a n : Nat) : List Byte := (upFrom a n).map s.byte

/-- Bytes put at an address and up, into a memory. -/
def memPut (m : List Host.Cell) : Nat → List Byte → List Host.Cell
  | _, [] => m
  | a, b :: t => memPut (cset memDefault m a b) (a + 1) t

/-- Bytes written at an address and up, with no other effect: the on-chip memories. -/
def State.put (s : State) (a : Nat) (l : List Byte) : State := { s with mem := memPut s.mem a l }

/-- Bytes put each at an address of its own. -/
def State.putCells (s : State) (l : List Host.Cell) : State := { s with mem := csets memDefault s.mem l }

/-- Every byte of a range zeroed. -/
def State.zeroRange (s : State) (a n : Nat) : State :=
  { s with mem := s.mem.filter (fun e => !(decide (a ≤ e.1) && decide (e.1 < a + n))) }

/-- The listed cells of a range. -/
def State.cellsIn (s : State) (a n : Nat) : List Host.Cell :=
  s.mem.filter (fun e => decide (a ≤ e.1) && decide (e.1 < a + n))

/-- A number read from memory, little-endian (R2). -/
def State.num (s : State) (a n : Nat) : Nat := ofBytes (s.bytes a n)

/-- Watch entries whose word overlaps a written range, in arming order (R215): section die and index. -/
def State.watchesOn (s : State) (a n : Nat) : List (Nat × Nat × Nat) :=
  s.dies.flatMap (fun d => (d.2.watches.filter (fun w =>
    decide (w.2.pa < a + n) && decide (a < w.2.pa + (if w.2.m.w64 then 8 else 4)))).map (fun w => (w.2.order, d.1, w.1)))

/-- Insert by the first component. -/
def insertByFst (x : Nat × Nat × Nat) : List (Nat × Nat × Nat) → List (Nat × Nat × Nat)
  | [] => [x]
  | y :: t => if x.1 ≤ y.1 then x :: y :: t else y :: insertByFst x t

/-- Sorted by the first component. -/
def sortByFst : List (Nat × Nat × Nat) → List (Nat × Nat × Nat)
  | [] => []
  | x :: t => insertByFst x (sortByFst t)

/-- Whether a watch condition holds for a word's value (R215). -/
def watchHolds (m : WatchMod) (x value mask : DWord) : Bool :=
  let w := if m.w64 then 64 else 32
  let a := (x &&& mask).toNat % 2 ^ w
  let b := (value &&& mask).toNat % 2 ^ w
  match m.cond with
  | .eq => decide (a = b)
  | .ne => decide (a ≠ b)
  | .lt => if m.un then decide (a < b) else decide (sextNat a w < sextNat b w)
  | .ge => if m.un then decide (b ≤ a) else decide (sextNat b w ≤ sextNat a w)

/-- The word a watch entry names, as it stands at its home. -/
def State.watchWord (s : State) (w : Watch) : DWord := BitVec.ofNat 64 (s.num w.pa (if w.m.w64 then 8 else 4))

/-- The evaluation of one entry after a write (R215): the first write after which the condition holds is captured, and its
delivery follows. -/
def State.evalWatch (s : State) (sect idx : Nat) : State :=
  match kget (s.die sect).watches idx with
  | none => s
  | some w =>
    let x := s.watchWord w
    if w.hit.isNone && watchHolds w.m x w.value w.mask then
      (s.modDie sect (fun d => { d with watches := kset d.watches idx { w with hit := some x } })).then_ [.watchEvaluate sect idx]
    else s

/-- The evaluations a write performed at its home calls for (R205, R215), in arming order. -/
def State.evalWatches (s : State) (a n : Nat) : State :=
  (sortByFst (s.watchesOn a n)).foldl (fun s w => s.evalWatch w.2.1 w.2.2) s

/-- A write performed at its home: the bytes change, check bits are made good, and watch entries on them are evaluated
(R205). -/
def State.homePut (s : State) (a : Nat) (l : List Byte) : State :=
  let s := { s with mem := memPut s.mem a l,
                    badWords := s.badWords.filter (fun w => !(decide (w < a + l.length) && decide (a < w + 8))) }
  s.evalWatches a l.length

/-- Whether any byte of a range lies in a word with an uncorrectable error (R151). -/
def State.bad (s : State) (a n : Nat) : Bool := s.badWords.any (fun w => decide (w < a + n) && decide (a < w + 8))

end Sys2Proof.Machine
end

