-- ==== Sys2Proof/Machine/Xlate.lean ====
section
/-! DEFINITION. Translation and the checks of a .G access (R152–R163, R359), the caches a .G access goes through (R138–R140,
R163, R195–R197), and the store side log as a load sees it (R171). -/

namespace Sys2Proof.Machine

/-- The agent an access is made for: its core, its context (0 for a supervisor or service group) and whether it translates
through its die's supervisor table (R359). -/
structure Who where
  core : Nat
  ctx : Nat
  sup : Bool
  deriving DecidableEq, Repr

/-- The permissions an access needs (R159 step 4). -/
structure Need where
  p : Bool
  w : Bool
  x : Bool
  deriving DecidableEq, Repr

/-- A load's permission (R159). -/
def needR : Need := ⟨true, false, false⟩
/-- A store's permission (R159). -/
def needW : Need := ⟨false, true, false⟩
/-- A value-returning atomic's permissions (R159). -/
def needRW : Need := ⟨true, true, false⟩
/-- A fetch's permission (R159). -/
def needX : Need := ⟨false, false, true⟩

/-- The outcome of R159 for one address: a leaf with its page size (log2), a trap-class failure, or no valid leaf with the
MALFORMED flag and level (R158). -/
inductive Chk where
  | ok (e : Nat) (size : Nat)
  | fail (c : Cause)
  | absent (mal : Bool) (lvl : Nat)
  deriving DecidableEq, Repr

/-- The virtual address of a pointer (R152). -/
def vaOf (p : DWord) : Nat := p.toNat % 2 ^ 56
/-- The region tag of a pointer (R152). -/
def tagOf (p : DWord) : Nat := p.toNat / 2 ^ 56

def leafV (e : Nat) : Bool := e.testBit 63
def leafL (e : Nat) : Bool := e.testBit 62
def leafHome (e : Nat) : Nat := bitsOf e 58 4
def leafMhome (e : Nat) : Nat := bitsOf e 54 4
def leafRegion (e : Nat) : Nat := bitsOf e 8 8
def leafRes (e : Nat) : Bool := e.testBit 7
def leafM (e : Nat) : Bool := e.testBit 6
def leafCnt (e : Nat) : Bool := e.testBit 5
def leafWb (e : Nat) : Bool := e.testBit 4
def leafC (e : Nat) : Bool := e.testBit 3
def leafX (e : Nat) : Bool := e.testBit 2
def leafW (e : Nat) : Bool := e.testBit 1
def leafP (e : Nat) : Bool := e.testBit 0

/-- The physical address of a virtual address under a leaf (R157). -/
def leafPa (e size va : Nat) : Nat := bitsOf e 16 36 * 2 ^ 16 + va % 2 ^ size

/-- Whether a leaf at a level is malformed (R158). -/
def leafBad (e size : Nat) : Bool :=
  decide (bitsOf e 16 (size - 16) ≠ 0) || (decide (12 ≤ leafHome e) && decide (leafHome e ≤ 14)) ||
  (leafM e && (decide (12 ≤ leafMhome e) || decide (leafMhome e = leafHome e) || decide (leafHome e = 15)))

/-- A walk of the four-level table (R156), `r` levels still to go from a table's physical address: the entries are read at
their homes. -/
def State.walkFrom (s : State) (va : Nat) : Nat → Nat → Chk
  | 0, _ => .absent false 0
  | r + 1, table =>
    let size := 16 + 10 * r
    let e := s.num (table + 8 * bitsOf va size 10) 8
    if !leafV e then .absent false 0
    else if decide (r = 0) || leafL e then
      if decide (r = 3) || leafBad e size then .absent true (4 - r) else .ok e size
    else s.walkFrom va r (bitsOf e 13 39 * 2 ^ 13)

/-- A walk from a root register's value (R153, R359). -/
def State.walk (s : State) (root : DWord) (va : Nat) : Chk := s.walkFrom va 4 (bitsOf root.toNat 13 39 * 2 ^ 13)

/-- The permission check (R159 step 4). -/
def permOk (n : Need) (e : Nat) : Bool := (!n.p || leafP e) && (!n.w || leafW e) && (!n.x || leafX e)

/-- Steps 3 and 4 of R159 on a leaf. -/
def leafCheck (tag : Nat) (n : Need) (e size : Nat) : Chk :=
  if leafRegion e ≠ tag then .fail .regionTag else if permOk n e then .ok e size else .fail .perm

/-- The bounds check against a core's copy (R154, R155). -/
def State.boundsOk (s : State) (core : Nat) (ptr : DWord) : Bool :=
  match kget (s.core core).bounds (tagOf ptr) with
  | some b => decide (b.base ≤ vaOf ptr / 2 ^ 16) && decide (vaOf ptr / 2 ^ 16 < b.limit)
  | none => false

/-- An entry of a context's bounds table in memory, when it is valid (R153, R154). -/
def State.boundOf (s : State) (btbase : DWord) (t : Nat) : Option Bound :=
  let x := s.num (bitsOf btbase.toNat 12 40 * 4096 + 16 * t) 16
  if x.testBit 0 then some ⟨bitsOf x 16 40, bitsOf x 80 40⟩ else none

/-- A core's copy of a context's whole bounds table (R155). -/
def State.loadBounds (s : State) (core ctx : Nat) : State :=
  let bt := (s.ctxD ctx).btbase
  s.modCore core (fun c => { c with bounds := (List.range 256).filterMap (fun t => (s.boundOf bt t).map (fun b => (t, b))) })

/-- The dies a leaf makes a context depend on (R370). -/
def State.touchDies (s : State) (ctx e : Nat) : State :=
  if leafHome e = 15 then s
  else s.modCtx ctx (fun c => { c with tdmask := c.tdmask ||| BitVec.ofNat 32 (2 ^ (8 + leafHome e)) |||
    (if leafM e then BitVec.ofNat 32 (2 ^ (8 + leafMhome e)) else 0) })

/-- Whether an entry of a cluster TLB maps an address of a context (R160). -/
def tlbHit (ctx va : Nat) (t : TlbEntry) : Bool := decide (t.ctx = ctx) && decide (t.page = va / 2 ^ t.size)

/-- Whether an open TOUCH window of a group of the cluster pins an entry (R160). -/
def State.pinned (s : State) (ccl : Nat) (t : TlbEntry) : Bool :=
  s.groups.any (fun g => decide (g.2.ctx = t.ctx) && decide (coreCcl g.2.core = ccl) && isCompute g.2.core &&
    g.2.touches.any (fun w => w.blocks.any (fun b => decide (b.2 * 2 ^ 16 / 2 ^ t.size = t.page))))

/-- The entry with the smallest use stamp. -/
def lruOf : List TlbEntry → Option TlbEntry
  | [] => none
  | t :: r => match lruOf r with
    | none => some t
    | some u => some (if t.used ≤ u.used then t else u)

/-- Room for one more entry of its kind: the least recently used unpinned entry goes when 4,096 small or 256 large ones are
held (R160). -/
def State.tlbRoom (s : State) (ccl : Nat) (size : Nat) : List TlbEntry :=
  let l := (s.ccl ccl).tlb
  let same := l.filter (fun t => decide ((t.size = 16) = (size = 16)))
  if same.length < (if size = 16 then 4096 else 256) then l
  else match lruOf (same.filter (fun t => !s.pinned ccl t)) with
    | none => l
    | some v => l.erase v

/-- A walk for a context completes: a valid leaf enters the cluster TLB and sets the touched dies (R156, R160, R370). -/
def State.walkDone (s : State) (ccl ctx : Nat) (ptr : DWord) : Chk × State :=
  let va := vaOf ptr
  match s.walk (s.ctxD ctx).ptroot va with
  | .ok e size =>
    let s := s.touchDies ctx e
    let t : TlbEntry := ⟨ctx, va / 2 ^ size, size, BitVec.ofNat 64 e, 0, s.serial⟩
    (.ok e size, { s.modCcl ccl (fun c => { c with tlb := s.tlbRoom ccl size ++ [t] }) with serial := s.serial + 1 })
  | r => (r, s)

/-- The leaf a compute core's access meets: the cluster TLB's, or a walk's (R160, R161). -/
def State.leafTlb (s : State) (ccl ctx : Nat) (ptr : DWord) : Chk × State :=
  match (s.ccl ccl).tlb.find? (tlbHit ctx (vaOf ptr)) with
  | some t => (.ok t.leaf.toNat t.size, { s.modCcl ccl (fun c =>
      { c with tlb := c.tlb.map (fun u => if tlbHit ctx (vaOf ptr) u then { u with used := s.serial } else u) }) with
      serial := s.serial + 1 })
  | none => s.walkDone ccl ctx ptr

/-- A check that failed on a cached leaf, made again on a fresh walk's leaf, which takes the cached one's place (R367). -/
def State.confirm (s : State) (ccl ctx : Nat) (ptr : DWord) (n : Need) : Chk × State :=
  match s.walk (s.ctxD ctx).ptroot (vaOf ptr) with
  | .ok _ _ =>
    match (s.modCcl ccl (fun c => { c with tlb := c.tlb.filter (fun t => !tlbHit ctx (vaOf ptr) t) })).walkDone ccl ctx ptr with
    | (.ok e size, s) => (leafCheck (tagOf ptr) n e size, s)
    | r => r
  | r => (r, s)

/-- Steps 1–4 of R159 for an address reached without the L1: engines, fetch, TOUCH and misses. -/
def State.xlate (s : State) (w : Who) (ptr : DWord) (n : Need) : Chk × State :=
  if w.sup then
    match s.walk (s.die (coreDie w.core)).sptroot (vaOf ptr) with
    | .ok e size => (if permOk n e then .ok e size else .fail .perm, s)
    | r => (r, s)
  else if !s.boundsOk w.core ptr then (.fail .bounds, s)
  else match s.leafTlb (coreCcl w.core) w.ctx ptr with
    | (.ok e size, s) => (match leafCheck (tagOf ptr) n e size with
      | .fail _ => s.confirm (coreCcl w.core) w.ctx ptr n
      | r => (r, s))
    | r => r

/-- Steps 1–4 of R159 for an agent that acts for a context on no core of it (the front end, memory units, the supervisor's
engines): the bounds entry is the one in memory (R172). -/
def State.xlateCtx (s : State) (ctx : Nat) (ptr : DWord) (n : Need) : Chk × State :=
  let c := s.ctxD ctx
  match s.boundOf c.btbase (tagOf ptr) with
  | none => (.fail .bounds, s)
  | some b =>
    if decide (b.base ≤ vaOf ptr / 2 ^ 16) && decide (vaOf ptr / 2 ^ 16 < b.limit) then
      match s.walk c.ptroot (vaOf ptr) with
      | .ok e size => (leafCheck (tagOf ptr) n e size, s.touchDies ctx e)
      | r => (r, s)
    else (.fail .bounds, s)

/-- The virtual line of a pointer (R138). -/
def vline (ptr : DWord) : Nat := vaOf ptr / 128

/-- Steps 1–4 of R159 for a cached access of a group: a line held in the core's L1 answers with the leaf it keeps (R162). -/
def State.xlateL1 (s : State) (w : Who) (ptr : DWord) (n : Need) : Chk × State :=
  if w.sup then s.xlate w ptr n
  else match kget (s.core w.core).l1 (vline ptr) with
    | some l =>
      if s.boundsOk w.core ptr then (match leafCheck (tagOf ptr) n l.leaf.toNat l.size with
        | .fail _ => s.xlate w ptr n
        | r => (r, s))
      else (.fail .bounds, s)
    | none => s.xlate w ptr n

/-- Where an access's data lie (R139, R151, R372, R408): a flat address, an access that completes with MCHECK at a physical
address, the control space, or a mirrored page whose home is not UP. -/
inductive Place where
  | mem (flat : Nat)
  | mcheck (pa : Nat)
  | control (pa : Nat)
  | wait
  deriving DecidableEq, Repr

/-- Whether a die serves accesses (R375). -/
def State.dieServes (s : State) (d : Nat) : Bool :=
  match (s.die d).st with
  | .up => true
  | .drain => true
  | _ => false

/-- The place of an address under a leaf (R371, R372, R408). -/
def State.place (s : State) (sup : Bool) (e size : Nat) (ptr : DWord) : Place :=
  let pa := leafPa e size (vaOf ptr)
  if leafHome e = 15 then
    match pa / 2 ^ 50 with
    | 0 => .mem (flatPa 15 pa)
    | 1 => if s.pkg.deaf.contains (bitsOf pa 42 8) then .mcheck pa else .mem (flatPa 15 pa)
    | 2 => if sup then .control pa else .mcheck pa
    | _ => .mcheck pa
  else if s.dieServes (8 + leafHome e) then .mem (flatPa 0 pa)
  else if leafM e then .wait else .mcheck pa

/-- Whether a leaf's lines are kept in the die L2 as this model keeps them: C = 0 or HOME 15 (R197). -/
def l2Kept (e : Nat) : Bool := decide (leafHome e = 15) || !leafC e

/-- The newest byte the core's side log holds at a virtual address of a context (R171). -/
def State.logByte (s : State) (core ctx va : Nat) : Option Byte :=
  (s.core core).sideLog.foldl (fun acc l =>
    match l.op with
    | .store b => if l.ctx = ctx && vaOf l.ptr / 128 = va / 128 then (match kget b (va % 128) with | some x => some x | none => acc)
                  else acc
    | _ => acc) none

/-- The byte the die's L2 holds at a flat address. -/
def State.l2Byte (s : State) (die flat : Nat) : Option Byte :=
  match kget (s.die die).l2 (flat / 128) with
  | some l => (kget l.bytes (flat % 128)).map (fun c => c.b)
  | none => none

/-- The byte an access below the L1 reads: the die L2's copy or the home's (R139). -/
def State.belowL1 (s : State) (die flat : Nat) : Byte := (s.l2Byte die flat).getD (s.byte flat)

/-- Bytes read through the die L2, as engines read them (R206). -/
def State.readL2 (s : State) (die flat n : Nat) : List Byte := (upFrom flat n).map (s.belowL1 die)

/-- Bytes written into a die L2 line with their dirty marks (R197). -/
def l2Put (l : List (Nat × CByte)) (dirty : Bool) : Nat → List Byte → List (Nat × CByte)
  | _, [] => l
  | o, b :: t => l2Put (kset l o ⟨b, dirty || ((kget l o).map (fun c => c.dirty)).getD false⟩) dirty (o + 1) t

/-- Bytes of one line written through the die L2: a C = 0 or HOME 15 line takes them dirty for the context, another line
sends them home, the directory keeping every L2 coherent (R139, R196, R197). -/
def State.writeL2 (s : State) (die ctx e flat : Nat) (b : List Byte) : State :=
  if l2Kept e && decide (die < 8) then
    s.modDie die (fun d =>
      let old := ((kget d.l2 (flat / 128)).map (fun l => l.bytes)).getD []
      { d with l2 := kset d.l2 (flat / 128) ⟨ctx, BitVec.ofNat 64 e, l2Put old true (flat % 128) b⟩ })
  else s.homePut flat b

/-- The bytes of a line, one list for each run, as writes of runs of dirty bytes. -/
def State.writeL2Bytes (s : State) (die ctx e base : Nat) (b : List (Nat × Byte)) : State :=
  b.foldl (fun s x => s.writeL2 die ctx e (base + x.1) [x.2]) s

/-- Add one line request of a cluster to a page's access count (R175). The notification is sent by `State.sendCounts`. -/
def State.countReq (s : State) (w : Who) (ptr : DWord) (n : Nat) : State :=
  if w.sup then s
  else s.modCcl (coreCcl w.core) (fun c => { c with tlb := c.tlb.map (fun t =>
    if tlbHit w.ctx (vaOf ptr) t && decide (t.size = 16) && leafCnt t.leaf.toNat then { t with count := t.count + n } else t) })

/-- The dirty bytes of an L1 line. -/
def dirtyOf (l : List (Nat × CByte)) : List (Nat × Byte) := (l.filter (fun c => c.2.dirty)).map (fun c => (c.1, c.2.b))

/-- An L1 line written back: its dirty bytes go below and it stays valid and clean (R138, R143). -/
def State.writeBackLine (s : State) (core vl : Nat) : State :=
  match kget (s.core core).l1 vl with
  | none => s
  | some l =>
    let d := dirtyOf l.bytes
    if d.isEmpty then s
    else
      let w : Who := ⟨core, (s.core core).owner, false⟩
      let s := s.modCore core (fun c => { c with l1 := kset c.l1 vl { l with bytes := kmap l.bytes (fun _ x => { x with dirty := false }) } })
      let s := s.countReq w (BitVec.ofNat 64 (vl * 128)) 1
      s.writeL2Bytes (coreDie core) (s.core core).owner l.leaf.toNat (l.pline * 128) d

/-- Every line of a core's L1 written back (R193). -/
def State.writeBackL1 (s : State) (core : Nat) : State :=
  ((s.core core).l1.map (fun l => l.1)).foldl (fun s v => s.writeBackLine core v) s

/-- Every clean byte of a core's L1 invalidated, dirty bytes kept (R193). -/
def State.invalCleanL1 (s : State) (core : Nat) : State :=
  s.modCore core (fun c =>
    let m := kmap c.l1 (fun _ l => { l with bytes := l.bytes.filter (fun b => b.2.dirty) })
    { c with l1 := m.filter (fun l => !l.2.bytes.isEmpty) })

/-- One L1 line dropped after its write-back (R143, R163, R189). -/
def State.dropLine (s : State) (core vl : Nat) : State :=
  (s.writeBackLine core vl).modCore core (fun c => { c with l1 := kdel c.l1 vl })

/-- A synonym of a physical line leaves the same core's L1 before the line is taken under another address (R163). -/
def State.dropSynonyms (s : State) (core vl pl : Nat) : State :=
  (((s.core core).l1.filter (fun l => decide (l.2.pline = pl) && decide (l.1 ≠ vl))).map (fun l => l.1)).foldl
    (fun s v => s.dropLine core v) s

/-- The L1 line of an address, allocated without a fetch when it is absent (R138, R162). -/
def State.l1Line (s : State) (core : Nat) (ptr : DWord) (e size flat : Nat) : L1Line :=
  (kget (s.core core).l1 (vline ptr)).getD ⟨BitVec.ofNat 64 e, size, flat / 128, []⟩

/-- A die L2 line of a C = 0 or HOME 15 page filled for a context: every byte valid, but for bytes whose data are bad at home
(R139, R151). -/
def State.fillL2 (s : State) (die ctx e flat : Nat) : State :=
  if l2Kept e && decide (die < 8) then
    let base := flat / 128 * 128
    s.modDie die (fun d =>
      let l := (kget d.l2 (flat / 128)).getD ⟨ctx, BitVec.ofNat 64 e, []⟩
      let bs := (List.range 128).foldl (fun acc o =>
        match kget acc o with
        | some _ => acc
        | none => if s.bad (base + o) 1 then acc else kset acc o ⟨s.byte (base + o), false⟩) l.bytes
      { d with l2 := kset d.l2 (flat / 128) { l with bytes := bs } })
  else s

/-- A line fetched into an L1 under its dirty bytes (R138). -/
def State.fillL1 (s : State) (w : Who) (ptr : DWord) (e size flat : Nat) : State :=
  let vl := vline ptr
  let s := s.dropSynonyms w.core vl (flat / 128)
  let s := s.fillL2 (coreDie w.core) w.ctx e flat
  let base := flat / 128 * 128
  let l := s.l1Line w.core ptr e size flat
  let bs := (List.range 128).foldl (fun acc o =>
    match kget acc o with
    | some _ => acc
    | none => if (s.l2Byte (coreDie w.core) (base + o)).isNone && s.bad (base + o) 1 then acc
              else kset acc o ⟨s.belowL1 (coreDie w.core) (base + o), false⟩) l.bytes
  s.modCore w.core (fun c => { c with l1 := kset c.l1 vl { l with bytes := bs } })

/-- The bytes of a cached line at an address, when all of them are valid. -/
def l1Bytes (l : L1Line) (o n : Nat) : Option (List Byte) := (upFrom o n).mapM (fun k => (kget l.bytes k).map (fun c => c.b))

/-- The bytes a load of a group reads at an address whose checks have passed (R138, R140, R171), or none where a byte has an
uncorrectable error (R151). -/
def State.loadG (s : State) (w : Who) (ptr : DWord) (n : Nat) (pol : Pol) (e size flat : Nat) : Option (List Byte) × State :=
  if w.sup then (if s.bad flat n then none else some (s.bytes flat n), s)
  else
    let o := vaOf ptr % 128
    let hit := (kget (s.core w.core).l1 (vline ptr)).bind (fun l => l1Bytes l o n)
    let r : Option (List Byte) × State :=
      match hit with
      | some b => (some b, s)
      | none =>
        if pol = .bypass then
          let s := s.countReq w ptr 1
          let l := (kget (s.core w.core).l1 (vline ptr)).map (fun l => l.bytes)
          let die := coreDie w.core
          if (upFrom flat n).any (fun a => (s.l2Byte die a).isNone && s.bad a 1 && ((l.bind (fun b => kget b (a % 128))).isNone)) then (none, s)
          else (some ((upFrom flat n).map (fun a => ((l.bind (fun b => kget b (a % 128))).map (fun c => c.b)).getD (s.belowL1 die a))), s)
        else
          let s := (s.countReq w ptr 1).fillL1 w ptr e size flat
          ((kget (s.core w.core).l1 (vline ptr)).bind (fun l => l1Bytes l o n), s)
    match r.1 with
    | none => (none, r.2)
    | some b => (some (b.zipIdx.map (fun x => (r.2.logByte w.core w.ctx (vaOf ptr + x.2)).getD x.1)), r.2)

/-- Bytes written into an L1 line. -/
def l1Put (l : List (Nat × CByte)) : Nat → List Byte → List (Nat × CByte)
  | _, [] => l
  | o, b :: t => l1Put (kset l o ⟨b, true⟩) (o + 1) t

/-- Bytes updated in place where they are valid, their dirty marks unchanged (R140 .BYPASS). -/
def patchBytes (l : List (Nat × CByte)) : Nat → List Byte → List (Nat × CByte)
  | _, [] => l
  | o, b :: t => patchBytes (kmod l o (fun c => { c with b := b })) (o + 1) t

/-- A store of a group at an address whose checks have passed (R138, R140, R195): into the L1, or through to the home. -/
def State.storeG (s : State) (w : Who) (ptr : DWord) (pol : Pol) (e size flat : Nat) (b : List Byte) : State :=
  if w.sup then s.homePut flat b
  else if pol = .bypass then
    let s := s.countReq w ptr 1
    let s := s.dropSynonyms w.core (vline ptr) (flat / 128)
    let s := s.modCore w.core (fun c => { c with l1 := kmod c.l1 (vline ptr) (fun l => { l with bytes := patchBytes l.bytes (flat % 128) b }) })
    let s := s.modDie (coreDie w.core) (fun d => { d with l2 := kmod d.l2 (flat / 128) (fun l => { l with bytes := patchBytes l.bytes (flat % 128) b }) })
    s.homePut flat b
  else
    let s := s.dropSynonyms w.core (vline ptr) (flat / 128)
    let l := s.l1Line w.core ptr e size flat
    s.modCore w.core (fun c => { c with l1 := kset c.l1 (vline ptr) { l with bytes := l1Put l.bytes (flat % 128) b } })

/-- A die L2 line's dirty bytes written to their home, the line staying clean (R143, R193). -/
def State.flushL2Line (s : State) (die line : Nat) : State :=
  match kget (s.die die).l2 line with
  | none => s
  | some l =>
    let d := dirtyOf l.bytes
    let s := s.modDie die (fun x => { x with l2 := kset x.l2 line { l with bytes := kmap l.bytes (fun _ b => { b with dirty := false }) } })
    d.foldl (fun s b => s.homePut (line * 128 + b.1) [b.2]) s

/-- A die L2 line dropped after its write-back (R143, R189). -/
def State.dropL2Line (s : State) (die line : Nat) : State :=
  (s.flushL2Line die line).modDie die (fun d => { d with l2 := kdel d.l2 line })

/-- Before an atomic reaches a line's home: this core's L1 copy and every die L2's copy of it leave their caches (R189). -/
def State.recallLine (s : State) (core : Nat) (ptr : DWord) (flat : Nat) : State :=
  let s := s.dropLine core (vline ptr)
  let s := s.dropSynonyms core (vline ptr) (flat / 128)
  s.dropL2Line (coreDie core) (flat / 128)

/-- Every clean C = 0 or HOME 15 line of a die L2 filled for a context invalidated; dirty bytes stay (R193). -/
def State.invalCleanL2 (s : State) (die ctx : Nat) : State :=
  s.modDie die (fun d =>
    let m := kmap d.l2 (fun _ l => if l.ctx = ctx then { l with bytes := l.bytes.filter (fun b => b.2.dirty) } else l)
    { d with l2 := m.filter (fun l => !l.2.bytes.isEmpty) })

/-- The context of an invalidation entry (R364). -/
def entryCtx (v : Nat) : Nat := bitsOf v 227 9

/-- A trigger of R367 for a context on a die: its held lazy entries are to be applied. -/
def State.lazyTrigger (s : State) (die ctx : Nat) : State :=
  let hit := fun (l : LazyEntry) => decide (entryCtx l.v = ctx) && !l.due
  if (s.die die).lazy.any hit then
    (s.modDie die (fun d => { d with lazy := d.lazy.map (fun l => if hit l then { l with due := true } else l) })).then_ [.lazyApply die]
  else s

/-- The acquire actions of .PKG for a core and a context (R193, R367). -/
def State.acquirePkg (s : State) (core ctx : Nat) : State :=
  ((s.invalCleanL1 core).invalCleanL2 (coreDie core) ctx).lazyTrigger (coreDie core) ctx

/-- The dirty lines of a die L2 written by a context (R193). -/
def State.dirtyLines (s : State) (die ctx : Nat) : List Nat :=
  ((s.die die).l2.filter (fun l => decide (l.2.ctx = ctx) && l.2.bytes.any (fun b => b.2.dirty))).map (fun l => l.1)

/-- Bytes a context's pointer names, read at their home by an agent on no core of the context, when every check passes. -/
def State.readCtx (s : State) (ctx : Nat) (ptr : DWord) (n : Nat) : Option (List Byte) × State :=
  match s.xlateCtx ctx ptr needR with
  | (.ok e size, s) => (match s.place false e size ptr with
    | .mem f => (if s.bad f n then none else some (s.bytes f n), s)
    | _ => (none, s))
  | (_, s) => (none, s)

/-- Where a context's pointer is written at its home by an agent on no core of the context, when every check passes. -/
def State.homeOf (s : State) (ctx : Nat) (ptr : DWord) (n : Need) : Option Nat × State :=
  match s.xlateCtx ctx ptr n with
  | (.ok e size, s) => (match s.place false e size ptr with
    | .mem f => (some f, s)
    | _ => (none, s))
  | (_, s) => (none, s)

end Sys2Proof.Machine
end

