-- ==== Sys2Proof/Machine/Rings.lean ====
section
/-! DEFINITION. The records the machine writes for software: die fault rings and requests (R344), context fault rings
(R339, R340), fatal contexts (R343) and the dump queue (R354). -/

namespace Sys2Proof.Machine

/-- A pointer moved by an offset: the tag is kept and the address wraps in 56 bits (R125). -/
def ptrOff (p : DWord) (k : Int) : DWord :=
  BitVec.ofNat 64 (tagOf p * 2 ^ 56 + (BitVec.ofInt 56 ((vaOf p : Int) + k)).toNat)

/-- CLOCKHI:CLOCKLO (R389). -/
def State.time (s : State) : Nat := s.pkg.clock % 2 ^ 64

/-- Free entries of a die's fault ring (R344). -/
def Die.frFree (d : Die) : Nat := 4096 - (d.dfrtail - d.dfrhead).toNat

/-- A counter that saturates. -/
def satInc (n lim : Nat) : Nat := if n < lim then n + 1 else lim

/-- One record written into a die's fault ring, with no test for room. -/
def State.dfrPut (s : State) (d : Nat) (v : Nat) : State :=
  let x := s.die d
  let a := flatPa 0 (x.dfrbase.toNat % 2 ^ 52 + 64 * (x.dfrtail.toNat % 4096))
  (s.homePut a (toBytes 64 v)).modDie d (fun x => { x with dfrtail := x.dfrtail + 1 })

/-- A record other than a request: written while the ring is set up and has room, otherwise dropped and counted (R344). -/
def State.dieRecord (s : State) (d : Nat) (v : Nat) : State :=
  let x := s.die d
  if x.dfrset && decide (0 < x.frFree) && decide (x.frFree ≤ 4096) then s.dfrPut d v
  else s.modDie d (fun x => { x with rloss := satInc x.rloss 0xFFFF })

/-- The lowest 64-bit words of a die-fault-ring record (R344). -/
def dieRec (time : Nat) (args : List Word) (epc : Nat) (rgn ticket gh ctx call kind : Nat) (mal : Bool) (lvl type : Nat) : Nat :=
  field 448 64 time +
  field 320 32 ((args.getD 0 0).toNat) + field 352 32 ((args.getD 1 0).toNat) + field 384 32 ((args.getD 2 0).toNat) +
  field 416 32 ((args.getD 3 0).toNat) + field 267 53 epc + field 224 32 rgn + field 192 32 ticket + field 176 16 gh +
  field 167 9 ctx + field 144 16 call + field 140 4 kind + field 139 1 (if mal then 1 else 0) + field 136 3 lvl + field 0 8 type

/-- Whether a die's ring takes one more request: more than 256 entries are free (R344). -/
def State.reqRoom (s : State) (d : Nat) : Bool := (s.die d).dfrset && decide (256 < (s.die d).frFree)

/-- A ticket value that no outstanding request of the die has, from a counter up (R344). -/
def State.freshTicket (s : State) (d : Nat) : Nat → Nat → Nat
  | 0, t => t
  | n + 1, t => if s.reqs.any (fun r => decide (r.2.die = d) && decide (r.2.ticket = some t)) then s.freshTicket d n ((t + 1) % 2 ^ 32)
                else t

/-- A request sent: it takes a ticket and its record is written (R344). -/
def State.postRequest (s : State) (id : Nat) (r : Request) : State :=
  let t := s.freshTicket r.die s.reqs.length ((s.die r.die).nextTicket % 2 ^ 32)
  let v := dieRec s.time r.args r.epc.toNat r.rgncnt.toNat t r.gh r.ctx r.call r.kind r.mal r.level r.type
  let s := { s with reqs := kset s.reqs id { r with ticket := some t } }
  (s.dfrPut r.die v).modDie r.die (fun x => { x with nextTicket := (t + 1) % 2 ^ 32 })

/-- A request made: sent at once when the ring has room and no earlier request of the die waits, otherwise waiting. Answers
its number. -/
def State.request (s : State) (r : Request) : Nat × State :=
  let (id, s) := s.fresh
  let waits := s.reqs.any (fun x => decide (x.2.die = r.die) && x.2.ticket.isNone)
  if s.reqRoom r.die && !waits then (id, s.postRequest id r) else (id, { s with reqs := kset s.reqs id { r with ticket := none } })

/-- The waiting requests of a die sent in order while the ring has room: after DFRBASE or DFRHEAD is written (R344). -/
def State.postWaiting (s : State) (d : Nat) : State :=
  (s.reqs.filter (fun r => decide (r.2.die = d) && r.2.ticket.isNone)).foldl
    (fun s r => if s.reqRoom d then s.postRequest r.1 r.2 else s) s

/-- The minimum EVPC over lanes that have not exited (R340). -/
def Group.epc (g : Group) : Pc :=
  (minPc ((lanes32.filter (fun l => decide (g.vpcOf l ≠ exitPc))).map (fun l => g.evpc.getD l exitPc))).getD exitPc

/-- The handle of a resident group for records. -/
def ghOf (gid : Nat) : Nat := handleOf gid

/-- The space code of R124. -/
def spaceCode : Space → Nat
  | .g => 0
  | .c => 1
  | .k => 2
  | .d => 3
  | .l => 4

/-- A fault record of a group (R340). -/
def State.faultRecord (s : State) (gid : Nat) (g : Group) (pc : Pc) (f : LaneFault) (snap : Bool) : Nat :=
  let t := s.teamD g.tid
  field 448 64 s.time + field 384 64 f.va.toNat + field 332 52 f.pa + field 279 53 g.epc.toNat + field 226 53 pc.toNat +
  field 192 32 g.rgncnt.toNat + field 160 32 g.retcnt.toNat + field 136 24 t.x + field 112 24 t.y + field 88 24 t.z +
  field 79 9 g.ctx + field 63 16 (ghOf gid) + field 58 5 g.index + field 53 5 f.lane + field 52 1 (if snap then 1 else 0) +
  field 51 1 (if f.late then 1 else 0) + field 48 3 f.space + field 44 4 f.kind + field 24 16 f.detail +
  field 0 5 (causeCode f.cause)

/-- A record of the context that no group owns: LATE and no-trap MCHECK records, with LANE 0 and zero group fields (R339). -/
def State.looseRecord (s : State) (ctx : Nat) (f : LaneFault) : Nat :=
  field 448 64 s.time + field 384 64 f.va.toNat + field 332 52 f.pa + field 79 9 ctx + field 51 1 (if f.late then 1 else 0) +
  field 48 3 f.space + field 44 4 f.kind + field 24 16 f.detail + field 0 5 (causeCode f.cause)

/-- log2 of the ring's record count and whether it is in range (R333). -/
def Ctx.sizel (c : Ctx) : Nat := bitsOf c.frctl.toNat 27 5
def Ctx.ringOk (c : Ctx) : Bool := decide (6 ≤ c.sizel) && decide (c.sizel ≤ 16)
/-- Handler stack bytes per lane, divided by 16 (R333). -/
def Ctx.hss (c : Ctx) : Nat := bitsOf c.frctl.toNat 19 8

/-- What became of a record. -/
inductive RingRes where
  | wrote (idx : Nat)
  | lost
  | none
  | failed
  deriving DecidableEq, Repr

/-- One record, with its snapshot if it has one, written at the context's FRTAIL through a translation that the caller
chooses; a full ring drops it and counts it (R339). -/
def State.ringPut (s : State) (ctx : Nat) (look : State → DWord → Option Nat × State) (v : Nat) (snap : Option (List Pc)) :
    RingRes × State :=
  let c := s.ctxD ctx
  if !c.ringOk then (.none, s)
  else if (c.frtail - c.frhead).toNat = 2 ^ c.sizel then
    (.lost, s.modCtx ctx (fun c => { c with frctl := if c.frctl.toNat % 2 ^ 16 = 0xFFFF then c.frctl else c.frctl + 1 }))
  else
    let i := c.frtail.toNat % 2 ^ c.sizel
    match look s (ptrOff c.frbase (64 * i)) with
    | (.none, s) => (.failed, s)
    | (.some a, s) =>
      let sn : Option (Option Nat) × State := match snap with
        | .none => (.none, s)
        | .some _ => let r := look s (ptrOff c.frbase (64 * 2 ^ c.sizel + 256 * i)); (.some r.1, r.2)
      match sn with
      | (.some .none, s) => (.failed, s)
      | (.some (.some b), s) =>
        let bytes := (snap.getD []).flatMap (fun p => toBytes 8 (p.toNat * 8))
        let s := (s.homePut a (toBytes 64 v)).homePut b bytes
        (.wrote c.frtail.toNat, s.modCtx ctx (fun c => { c with frtail := c.frtail + 1 }))
      | (.none, s) => (.wrote c.frtail.toNat, (s.homePut a (toBytes 64 v)).modCtx ctx (fun c => { c with frtail := c.frtail + 1 }))

/-- Where a context's ring is written by an agent on no core of it. -/
def State.ctxLook (s : State) (ctx : Nat) : State → DWord → Option Nat × State := fun t p =>
  if (s.ctx ctx).isSome then t.homeOf ctx p needW else (none, t)

/-- Set sticky bits of CTXSTAT (R333). -/
def State.setCtxstat (s : State) (ctx : Nat) (m : Word) : State := s.modCtx ctx (fun c => { c with ctxstat := c.ctxstat ||| m })

/-- CTXSTAT bits. -/
def bitFatal : Word := 0x80
def bitDumped : Word := 0x40
def bitHalted : Word := 0x20
def bitLate : Word := 0x10
def bitIllegal : Word := 0x08
def bitMchk : Word := 0x04

/-- Whether a context is halted (R355). -/
def State.halted (s : State) (ctx : Nat) : Bool := decide ((s.ctxD ctx).ctxstat &&& bitHalted ≠ 0)
/-- Whether a context is fatal (R343). -/
def State.fatal (s : State) (ctx : Nat) : Bool := decide ((s.ctxD ctx).ctxstat &&& bitFatal ≠ 0)

/-- A LATE record (R172). -/
def State.lateRecord (s : State) (ctx : Nat) (f : LaneFault) : State :=
  let f := { f with late := true }
  ((s.ringPut ctx (s.ctxLook ctx) (s.looseRecord ctx f) none).2).setCtxstat ctx bitLate

/-- A no-trap MCHECK record (R151, R371). -/
def State.mchkRecord (s : State) (ctx : Nat) (va : DWord) (pa : Nat) : State :=
  let f : LaneFault := ⟨0, .mcheck, va, pa, 0, 7, 0, false⟩
  ((s.ringPut ctx (s.ctxLook ctx) (s.looseRecord ctx f) none).2).setCtxstat ctx bitMchk

/-- A fatal fault's dump: appended to the context's dump on the die, queued, or dropped with a TYPE 7 record (R354). -/
def State.queueDump (s : State) (d ctx reason rec_ : Nat) : State :=
  let q := (s.die d).dumps
  if decide (reason ≠ 0) && q.any (fun x => decide (x.ctx = ctx)) then
    s.modDie d (fun x => { x with dumps := x.dumps.map (fun y =>
      if y.ctx = ctx then (if y.second.length < 15 then { y with second := y.second ++ [rec_] } else { y with extra := satInc y.extra (2 ^ 32 - 1) })
      else y) })
  else if q.length < 8 then
    s.modDie d (fun x => { x with dumps := x.dumps ++ [⟨ctx, reason, rec_, [], 0, false, 0, 0⟩] })
  else
    (s.modDie d (fun x => { x with dloss := satInc x.dloss 0xFFFF })).dieRecord d
      (dieRec s.time [BitVec.ofNat 32 ctx] 0 0 0 0 ctx 0 0 false 0 7)

/-- The context becomes fatal (R343): TYPE 4 or 5 with the fault-ring index and cause, and a dump queued on a C-die. -/
def State.makeFatal (s : State) (gid : Nat) (g : Group) (type : Nat) (idx : Word) (cause rec_ : Nat) : State :=
  let d := coreDie g.core
  let s := s.setCtxstat g.ctx (bitFatal ||| bitHalted)
  let s := s.dieRecord d (dieRec s.time [idx, BitVec.ofNat 32 cause] g.epc.toNat g.rgncnt.toNat 0 (ghOf gid) g.ctx 0 7 false 0 type)
  if d < 8 && decide (g.ctx ≠ 0) then s.queueDump d g.ctx (if type = 4 then 1 else 2) rec_ else s

end Sys2Proof.Machine
end

