-- ==== Sys2Proof/Machine/Ops.lean ====
section
/-! DEFINITION. The named operations every word's meaning is made of: what issuing a word does around its own effect (R36–R41,
R45, R78, R79, R83, R94), traps and the return from one (R335–R338, R101), requests for absent pages (R165, R166), retirement
(R88, R209) and the kill of an illegal word (R47). -/

namespace Sys2Proof.Machine

/-- The agent a group's accesses are made for. -/
def Group.who (g : Group) : Who := ⟨g.core, g.ctx, g.isSup⟩

/-- A barrier completes its phase (R209): parity, count and arrivals; its waiters wake 2 or 12 clk later (R212). -/
def Barrier.complete (b : Barrier) : Barrier := { b with parity := !b.parity, c := b.e, arrived := [] }

/-- drop of a participant that has not dropped (R209); whether the phase completes. -/
def Barrier.drop (b : Barrier) (p : Nat) : Barrier × Bool :=
  let b1 := { b with dropped := b.dropped ++ [p], e := b.e - 1, c := if b.arrived.contains p then b.c else b.c - 1 }
  if decide (b1.c = 0) && decide (0 < b1.e) then (b1.complete, true) else (b1, false)

/-- arrive of a participant (R209): the token and whether the phase completes. -/
def Barrier.arrive (b : Barrier) (p : Nat) : Barrier × Bool × Bool :=
  let b1 := { b with arrived := b.arrived ++ [p], c := b.c - 1 }
  if decide (b1.c = 0) && decide (0 < b1.e) then (b1.complete, b.parity, true) else (b1, b.parity, false)

/-- The resident groups of the teams of a cluster, or of one team. -/
def State.gidsOf (s : State) (p : Group → Bool) : List Nat := (s.groups.filter (fun g => p g.2)).map (fun g => g.1)

/-- The groups waiting on a completed barrier become ready 2 or 12 clk later (R212). -/
def State.wakeBarrier (s : State) (cluster : Bool) (n : Nat) (tids : List Nat) : State :=
  { s with groups := kmap s.groups (fun _ g =>
    match g.wait with
    | .barrier k m _ => if k = cluster && decide (m = n) && tids.contains g.tid && g.wakeAt.isNone then
        { g with wakeAt := some (s.pkg.clock + (if cluster then 12 else 2)) } else g
    | _ => g) }

/-- A team barrier changed. -/
def State.setBar (s : State) (tid n : Nat) (b : Barrier) : State := s.modTeam tid (fun t => { t with bars := kset t.bars n b })

/-- A launch cluster changed. -/
def State.modLCl (s : State) (k : Nat) (f : LCluster → LCluster) : State := { s with lclusters := kmod s.lclusters k f }

/-- A participant's number in a cluster barrier. -/
def clusterPart (rank index : Nat) : Nat := rank * 32 + index

/-- drop by a group on one team barrier, if it has not dropped (R209). -/
def State.dropTeamBar (s : State) (tid index n : Nat) : State :=
  match (s.team tid).bind (fun t => kget t.bars n) with
  | none => s
  | some b => if b.dropped.contains index then s else
    let (b1, done) := b.drop index
    let s := s.setBar tid n b1
    if done then s.wakeBarrier false n [tid] else s

/-- drop by a group on one cluster barrier, if it has not dropped (R209). -/
def State.dropClusterBar (s : State) (tid index n : Nat) : State :=
  match s.team tid with
  | none => s
  | some t => match kget s.lclusters t.cluster with
    | none => s
    | some k => match kget k.bars n with
      | none => s
      | some b =>
        let p := clusterPart t.rank index
        if b.dropped.contains p then s else
        let (b1, done) := b.drop p
        let s := s.modLCl t.cluster (fun k => { k with bars := kset k.bars n b1 })
        if done then s.wakeBarrier true n (k.teams.map (fun x => x.2)) else s

/-- A retiring group's drops on every barrier (R209). -/
def State.dropAll (s : State) (tid index : Nat) : State :=
  let s := (List.range 16).foldl (fun s n => s.dropTeamBar tid index n) s
  (List.range 8).foldl (fun s n => s.dropClusterBar tid index n) s

/-- A retired group leaves its core once no register is pending and its fences are over (R88, R89). -/
def State.reap (s : State) (gid : Nat) : State :=
  match s.grp gid with
  | some g => if g.retired && g.pends.isEmpty && g.trap.isNone && g.fences.isEmpty then s.delGrp gid else s
  | none => s

/-- A group whose lanes have all exited retires (R88): its barriers, its team and its registers. -/
def State.retireGroup (s : State) (gid : Nat) : State :=
  match s.grp gid with
  | some g =>
    if g.retired && g.trap.isNone then
      let s := if g.isSup then s else (s.dropAll g.tid g.index).modTeam g.tid (fun t => { t with live := t.live.filter (fun j => decide (j ≠ g.index)) })
      s.reap gid
    else s
  | none => s

/-- When every lane that is not a helper has exited, the helpers exit too (R88). -/
def exitHelpers (helper : LaneMask) (vpc : List Pc) : List Pc :=
  if lanes32.all (fun l => helper.getLsbD l || decide (vpc.getD l exitPc = exitPc)) then lanes32.map (fun _ => exitPc) else vpc

/-- The base pointer of a group's .L backing (R128, R337). -/
def State.stackBase (s : State) (gid : Nat) (g : Group) : DWord :=
  if g.level = .handler then ptrOff (s.ctxD g.ctx).hsbase (512 * (s.ctxD g.ctx).hss * gid : Nat) else g.lbase

/-- The pointer behind byte `o` of a lane's stack (R128). -/
def State.backPtr (s : State) (gid : Nat) (g : Group) (l o : Nat) : DWord :=
  ptrOff (s.stackBase gid g) ((128 * (o / 4) + 4 * l + o % 4 : Nat) : Int)

/-- The size of a group's .L space (R124, R337, R358). -/
def State.stackTop (s : State) (g : Group) : Nat :=
  if g.level = .handler then 16 * (s.ctxD g.ctx).hss else g.stackSize

/-- The lowest offset LSP may reach (R84, R337). -/
def Group.stackLimit (g : Group) : Nat := if g.level = .handler then 0 else g.stklim.toNat

/-- An entry put into a core's side log (R169). -/
def State.logAdd (s : State) (core : Nat) (e : LogEntry) : State :=
  s.modCore core (fun c => { c with sideLog := c.sideLog ++ [e] })

/-- Free entries of a core's side log (R169). -/
def State.logFree (s : State) (core : Nat) : Nat := 256 - (s.core core).sideLog.length

/-- Whether an earlier entry of the same group for the same 64 KiB block is still in the log (R169). -/
def State.logHas (s : State) (core gid : Nat) (ptr : DWord) : Bool :=
  (s.core core).sideLog.any (fun l => decide (l.gid = gid) && decide (vaOf l.ptr / 2 ^ 16 = vaOf ptr / 2 ^ 16))

/-- A side-log entry made for an absent page sends a fault request (R165, R169); one for a write-blocked page sends none. -/
def State.logStore (s : State) (gid : Nat) (g : Group) (ptr : DWord) (op : LogOp) (absent : Option (Bool × Nat)) : State :=
  let (id, s) := s.fresh
  match absent with
  | none => s.logAdd g.core ⟨id, gid, g.tid, g.ctx, ptr, op, none, false, false⟩
  | some (mal, lvl) =>
    let (r, s) := s.request ⟨coreDie g.core, none, 1, .log g.core id, g.ctx, [lo32 ptr, hi32 ptr], g.epc, g.rgncnt, 0, 0, 1, mal, lvl, []⟩
    s.logAdd g.core ⟨id, gid, g.tid, g.ctx, ptr, op, some r, false, false⟩

/-- One dirty stack byte written back to its backing page (R85); whether a check failed. A write-blocked page takes it into the
side log; an absent page too, when `logAbsent`. -/
def State.spillByte (s : State) (gid : Nat) (g : Group) (logAbsent : Bool) (l o : Nat) (b : Byte) : Bool × State :=
  let ptr := s.backPtr gid g l o
  match s.xlate g.who ptr needW with
  | (.ok e size, s) =>
    if leafWb e then (false, s.logStore gid g (ptrOff ptr (-((vaOf ptr % 128 : Nat) : Int))) (.store [(vaOf ptr % 128, b)]) none)
    else (match s.place g.isSup e size ptr with
      | .mem f => (false, s.homePut f [b])
      | _ => (true, s))
  | (.absent mal lvl, s) =>
    if logAbsent then (false, s.logStore gid g (ptrOff ptr (-((vaOf ptr % 128 : Nat) : Int))) (.store [(vaOf ptr % 128, b)]) (some (mal, lvl)))
    else (true, s)
  | (.fail _, s) => (true, s)

/-- Dirty stack bytes that meet a test written back; whether a check failed, and the bytes that remain in the stack cache. -/
def State.spill (s : State) (gid : Nat) (logAbsent : Bool) (p : Nat → Nat → Bool) : Bool × State :=
  let g := s.grpD gid
  let r := (g.stk.filter (fun c => c.2.dirty && p (c.1 % 32) (c.1 / 32))).foldl
    (fun (acc : Bool × State) c =>
      let x := acc.2.spillByte gid g logAbsent (c.1 % 32) (c.1 / 32) c.2.b
      (acc.1 || x.1, x.2)) (false, s)
  (r.1, r.2.modGrp gid (fun g => { g with stk := g.stk.filter (fun c => !p (c.1 % 32) (c.1 / 32)) }))

/-- A record's access kind codes (R340). -/
def kindLoad : Nat := 0
def kindStore : Nat := 1
def kindAtomic : Nat := 2
def kindFetch : Nat := 3
def kindJob : Nat := 4
def kindBarrier : Nat := 5
def kindTrap : Nat := 6
def kindOther : Nat := 7

/-- The lane records of a trap in the order they are written (R336): the CAUSE lane's first, then ascending lanes. -/
def orderRecs (roll : Bool) (recs : List LaneFault) : List LaneFault :=
  let first := if roll then (match recs.find? (fun f => decide (f.cause = .mcheck) || decide (f.cause = .page)) with
      | some f => some f
      | none => recs.head?) else recs.head?
  match first with
  | none => []
  | some f => f :: recs.filter (fun x => decide (x.lane ≠ f.lane))

/-- Insert a lane record by lane. -/
def insertLane (f : LaneFault) : List LaneFault → List LaneFault
  | [] => [f]
  | x :: t => if f.lane < x.lane then f :: x :: t else if f.lane = x.lane then f :: t else x :: insertLane f t

/-- Lane records in ascending lane order, one for each lane. -/
def sortLanes (l : List LaneFault) : List LaneFault := l.foldl (fun acc f => insertLane f acc) []

/-- Whether a handler is installed and where it starts, as a word offset (R333). -/
def Group.handlerV (g : Group) : Bool := g.hndpc.getLsbD 31
def Group.handlerPc (g : Group) : Pc := g.entry + BitVec.ofInt 53 (sextNat g.hndpc.toNat 31)

/-- Step 3 of R337: the records, the first with its snapshot; the index of the first, how many were written, whether one was
lost and whether a write failed a check. -/
def State.writeRecs (s : State) (gid : Nat) (g : Group) (pc : Pc) (svpc : List Pc) : List LaneFault → Bool →
    Option Nat × Nat × Bool × Bool × State
  | [], _ => (none, 0, false, false, s)
  | f :: t, first =>
    let look : State → DWord → Option Nat × State := fun s p =>
      match s.xlate g.who p needW with
      | (.ok e size, s) => (match s.place false e size p with
        | .mem a => (some a, s)
        | _ => (none, s))
      | (_, s) => (none, s)
    let (r, s1) := s.ringPut g.ctx look (s.faultRecord gid g pc f first) (if first then some svpc else none)
    match r with
    | .failed => (none, 0, false, true, s1)
    | .wrote i => let (_, n, lost, bad, s2) := s1.writeRecs gid g pc svpc t false; (some i, n + 1, lost, bad, s2)
    | .lost => let (j, n, _, bad, s2) := s1.writeRecs gid g pc svpc t false; (j, n, true, bad, s2)
    | .none => let (j, n, lost, bad, s2) := s1.writeRecs gid g pc svpc t false; (j, n, lost, bad, s2)

/-- The group stops with no handler: a double fault or a trap with none installed (R341, R343). -/
def State.stopFatal (s : State) (gid : Nat) (type : Nat) (idx : Word) (f : LaneFault) (pc : Pc) : State :=
  let g := s.grpD gid
  let s := s.modGrp gid (fun g => { g with trap := none, restart := false, wait := .fault, waitPc := pc })
  s.makeFatal gid g type idx (causeCode f.cause) (s.faultRecord gid g pc f false)

/-- The group at the entry of its handler (R337 steps 4, 5 and 7), `top` being the size of its handler stack. -/
def Group.toHandler (g : Group) (svpc : List Pc) (pc : Pc) (top : Nat) (clk : Nat) : Group :=
  { g with svpc := svpc, slsp := g.lsp, lsp := lanes32.map (fun _ => BitVec.ofNat 32 top), aside := [],
           fences := g.fences.filter (fun f => !f.barrier), level := .handler, stk := [], fillDue := false, trap := none, restart := false,
           wait := .none, wakeAt := none, waitPc := pc, hndFirst := true,
           vpc := lanes32.map (fun l => if g.vpcOf l = exitPc then exitPc else g.handlerPc), redirUntil := clk + 5, redirPc := pc }

/-- Entry into the in-group handler: steps 4–7 of R337. -/
def State.enterHandler (s : State) (gid : Nat) (svpc : List Pc) (pc : Pc) : State :=
  let s := s.modGrp gid (fun g => g.toHandler svpc pc (16 * (s.ctxD g.ctx).hss) s.pkg.clock)
  s.acquirePkg (s.grpD gid).core (s.grpD gid).ctx

/-- TRAPCAUSE, TRAPVA and TRAPREC (R335, R337): the record's cause and DETAIL, the number of lanes written and whether one was lost. -/
def Group.trapRegs (roll : Bool) (f : LaneFault) (n : Nat) (lost : Bool) (i : Word) (g : Group) : Group :=
  { g with trapcause := BitVec.ofNat 32 (field 24 8 f.detail + field 18 6 n + field 17 1 (if lost then 1 else 0) +
             field 16 1 (if roll then 1 else 0) + causeCode f.cause),
           trapva := f.va, traprec := i }

/-- A trap whose records are written goes to the handler (R337); with none installed a BKPT halts its context with a TYPE 8 record and any
other trap is fatal (R343), as is one with no handler stack. -/
def State.deliverTrap (s : State) (gid : Nat) (g : Group) (svpc : List Pc) (f : LaneFault) (i : Word) (pc : Pc) : State :=
  if !g.handlerV then
    (if f.cause = .bkpt then
      let s := (s.modGrp gid (fun g => { g with trap := none, wait := .none })).setCtxstat g.ctx bitHalted
      s.dieRecord (coreDie g.core) (dieRec s.time [i, BitVec.ofNat 32 (causeCode f.cause)] g.epc.toNat g.rgncnt.toNat 0 (ghOf gid) g.ctx 0 kindTrap false 0 8)
    else s.stopFatal gid 5 i f pc)
  else if (s.ctxD g.ctx).hss = 0 then s.stopFatal gid 4 i f pc
  else s.enterHandler gid svpc pc

/-- Steps 2 and 3 of R337 at USER level, then delivery: the stack window and the records are written back; a failed check is a double
fault. -/
def State.enterUserTrap (s : State) (gid : Nat) (g : Group) (t : TrapPend) (f : LaneFault) (recs : List LaneFault) : State :=
  let svpc := if t.roll then g.evpc else g.vpc
  let a := s.spill gid false (fun _ _ => true)
  if a.1 then a.2.stopFatal gid 4 g.traprec f t.pc
  else
    let (idx, n, lost, bad, s) := a.2.writeRecs gid g t.pc svpc recs true
    let i : Word := BitVec.ofNat 32 (idx.getD (s.ctxD g.ctx).frtail.toNat)
    if bad then s.stopFatal gid 4 i f t.pc
    else (s.modGrp gid (Group.trapRegs t.roll f n lost i)).deliverTrap gid g svpc f i t.pc

/-- TRAP ENTRY (R337, R341, R343): the saved stack window, the records and TRAPCAUSE, then the handler, or the fatal context
when there is none. A trap raised at HANDLER level is a double fault (R338). -/
def State.enterTrap (s : State) (gid : Nat) (t : TrapPend) : State :=
  match s.grp gid with
  | none => s
  | some g0 =>
    let recs := orderRecs t.roll (sortLanes t.recs)
    let f := recs.headD ⟨0, .page, 0, 0, 0, 7, 0, false⟩
    if g0.level = .handler then s.stopFatal gid 4 g0.traprec f t.pc
    else if g0.isSup then s.stopFatal gid (if g0.handlerV then 4 else 5) 0 f t.pc
    else
      let s := if t.roll then s.modGrp gid (fun g => { g with lsp := g.elsp }) else s
      s.enterUserTrap gid (s.grpD gid) t f recs

/-- A trap raised by a word (R336, R337): entered at once, or, to roll its region back, once no register is pending. -/
def State.raiseTrap (s : State) (gid : Nat) (t : TrapPend) : State :=
  if t.roll && !((s.grpD gid).pends.isEmpty) then s.modGrp gid (fun g => { g with trap := some t })
  else s.enterTrap gid t

/-- HRET (R101, R338): the saved PCs and stack pointers come back and the group resumes at USER level. -/
def Group.handlerReturn (g : Group) : Group :=
  { g with vpc := g.svpc, lsp := g.slsp, level := .user, stk := [], fillDue := true, aside := [] }

/-- REGION RESTART steps 2 and 3 (R95). -/
def Group.restartRegion (g : Group) (clk : Nat) (pc : Pc) : Group :=
  { g with vpc := g.evpc, lsp := g.elsp, aside := [], retcnt := 0, rsig := 0, touches := [], restart := false, wait := .none,
           wakeAt := none, regionStart := true, regionNext := false, fillDue := true, redirUntil := clk + 5, redirPc := pc, fences := g.fences.filter (fun f => !f.barrier) }

/-- A region entry (R45, R94): before the word's own effect. -/
def Group.enterRegion (g : Group) : Group :=
  { g with rgncnt := g.rgncnt + 1, evpc := g.vpc, retcnt := 0, rsig := 0, elsp := g.lsp, touches := [] }

/-- Whether a register has one cell for each lane. -/
def laneReg (r : Nat) : Bool := decide (r < 256) || (decide (640 ≤ r) && decide (r < 648))

/-- Whether an open fixed-latency window holds a cell (R41). -/
def Group.shortCell (g : Group) (k : Nat) : Bool := g.windows.any (fun w => w.cells.any (fun c => decide (c.1 = k)))

/-- The cells of a register in some lanes. -/
def regKeys (lanes : List Nat) (r : Nat) : List Nat :=
  if laneReg r then lanes.map (cellKey r) else if lanes.isEmpty then [] else [cellKey r 0]

/-- Registers of the guard, read in every active lane. -/
def guardRegs (f : Info) : List Nat := if f.h.gi = 7 then [] else [pcReg (clsPred (uniOf f) f.h.gi)]

/-- The source cells of a word that reads its own lanes only: each lane of execution's own. -/
def ownKeys (f : Info) (_ : Group) (ex : List Nat) : List Nat := (srcRegs f).flatMap (regKeys ex)

/-- Whether a word would read early (R41): the guard in the active lanes, the other source cells where the word reads them. -/
def Group.readsEarly (g : Group) (f : Info) (act keys : List Nat) : Bool :=
  ((guardRegs f).flatMap (regKeys act)).any g.shortCell || keys.any g.shortCell

/-- The lanes a word executes in (R33, R36): a vector word in the active lanes where its guard holds, a uniform word once. -/
def Group.exLanes (g : Group) (f : Info) (act : LaneMask) : List Nat :=
  if uniOf f then (if g.guard true f.h 0 then [0] else []) else (lanesOf act).filter (g.guard false f.h)

/-- A word on its way through its meaning: the state so far, the group as the word found it, its entry, PC, active mask and
lanes of execution, and what the word has decided so far. -/
structure W where
  s : State
  s0 : State
  gid : Nat
  g : Group
  f : Info
  pc : Pc
  act : LaneMask
  ex : List Nat
  dry : Bool
  fixed : List Window := []
  vpc : List (Nat × Pc) := []
  asides : List (Nat × Nat) := []
  faults : List LaneFault := []
  afterWord : Bool := false
  stuck : Bool := false
  absents : List LaneFault := []
  held : List DWord := []
  redir : Nat := 0
  branch : Option LaneMask := none
  hold : Option SlotCause := none
  holdPc : Option Pc := none
  holdFx : State → State := id

/-- The word's clk. -/
def W.clk (w : W) : Nat := w.s.pkg.clock
/-- Change the word's group. -/
def W.mod (w : W) (h : Group → Group) : W := { w with s := w.s.modGrp w.gid h }
/-- Change the machine beyond the group: not performed in a stop's re-execution (R397). -/
def W.eff (w : W) (h : State → State) : W := if w.dry then w else { w with s := h w.s }
/-- Whether a lane's fault is suppressed: a helper lane (R93), a uniform word in helper lanes only, or a stop's re-execution
(R397). -/
def W.mute (w : W) (l : Nat) : Bool :=
  w.dry || (if uniOf w.f then (lanesOf w.act).all w.g.isHelper else w.g.isHelper l)
/-- The lane a record names (R131): a uniform word's is the lowest active lane. -/
def W.recLane (w : W) (l : Nat) : Nat := if uniOf w.f then (lowestLane w.act).getD 0 else l
/-- A suppressed fault in a stop's re-execution makes it DIVERGED (R397). -/
def W.diverge (w : W) : W :=
  if w.dry then { w with s := { w.s with dry := w.s.dry.map (fun d => { d with diverged := true }) } } else w
/-- A lane's destination cells under a suppressed fault: zeros (R93). -/
def zeroCells (f : Info) (l : Nat) : List (Nat × Word) :=
  (dstRegs f).map (fun r => (cellKey r (if laneReg r then l else 0), 0))

/-- A fixed-latency result with a latency of its own. -/
def W.fixL (w : W) (lat : Nat) (cells : List (Nat × Word)) : W :=
  if cells.isEmpty then w else { w with fixed := w.fixed ++ [⟨lat, cells⟩] }
/-- A fixed-latency result of the entry's latency (R38, R39). -/
def W.fix (w : W) (cells : List (Nat × Word)) : W := w.fixL w.f.lat cells

/-- A scoreboard entry (R40) for the word's destination registers: its number, and the word with it. In a stop's
re-execution the values come at once (R397). -/
def W.pend (w : W) (cells : List (Nat × Word)) (due : Option Nat) (sig : Bool) : Nat × W :=
  let (id, s) := w.s.fresh
  if w.ex.isEmpty then (id, w)
  else
    let w := { w with s := s }
    let regs := dstRegs w.f
    (id, w.mod (fun g => { g with pends := g.pends ++ [⟨id, w.pc, w.f.op, regs, cells, if w.dry then some w.clk else due,
      if sig && g.inRegion then some 0 else none, regs.headD 0⟩] }))

/-- A scoreboard entry whose values are known and due. -/
def W.var (w : W) (cells : List (Nat × Word)) (due : Nat) (sig : Bool) : W := (w.pend cells (some due) sig).2

/-- The fault of a lane of execution: recorded, or suppressed. -/
def W.fault (w : W) (f : LaneFault) : W :=
  if w.mute f.lane then w.diverge else { w with faults := w.faults ++ [{ f with lane := w.recLane f.lane }] }

/-- A fault of the whole word with no address, recorded against the lowest active lane. -/
def W.faultWord (w : W) (c : Cause) (kind detail : Nat) : W :=
  if w.dry then w.diverge
  else { w with faults := w.faults ++ [⟨(lowestLane w.act).getD 0, c, 0, 0, 0, kind, detail, false⟩] }

/-- A lane that met no valid leaf (R165). -/
def W.absent (w : W) (f : LaneFault) : W :=
  if w.mute f.lane then w.diverge else { w with absents := w.absents ++ [{ f with lane := w.recLane f.lane }] }

/-- Set lanes' PCs. -/
def W.jump (w : W) (l : List (Nat × Pc)) : W := { w with vpc := w.vpc ++ l }

/-- Whether any lane keeps the word from completing: nothing is written, the region restarts (R165, R166). -/
def W.rolled (w : W) : Bool := !w.absents.isEmpty || !w.held.isEmpty

/-- The next word's PC (R79). -/
def W.nx (w : W) : Pc := w.pc + 1

/-- Commit the windows whose distance is reached, in program order, each taking its cells out of earlier open windows (R38). -/
def commitWindows (weight : Nat) : List Window → List Window → List (Nat × Word) → List Window × List (Nat × Word)
  | [], done, regs => (done, regs)
  | w :: t, done, regs =>
    if w.left ≤ weight then
      let gone := w.cells.map (fun c => c.1)
      commitWindows weight t (done.map (fun d => { d with cells := d.cells.filter (fun c => !gone.contains c.1) })) (csets 0 regs w.cells)
    else commitWindows weight t (done ++ [{ w with left := w.left - weight }]) regs

/-- Whether the whole word stays at its PC; a stop's re-execution goes past it (R397). -/
def W.stays (w : W) : Bool := w.rolled || (w.stuck && !w.dry)

/-- The new lane PCs of a word's active lanes (R79): an override, the word's own for a lane that faults before completing and
for every lane of a word that was suppressed whole, or the next word. -/
def W.newVpc (w : W) : List Pc :=
  let stay := if w.afterWord then [] else (w.faults ++ w.absents).map (fun f => f.lane)
  lanes32.map (fun l =>
    if w.act.getLsbD l then
      (if w.stays || stay.contains l || (uniOf w.f && !stay.isEmpty) then w.pc else match kget (w.vpc.reverse) l with
        | some p => p
        | none => w.nx)
    else (w.s.grpD w.gid).vpcOf l)

/-- The aside counts after a word (R90). -/
def W.newAside (w : W) (vpc : List Pc) : List Nat :=
  let a := lanes32.map (fun l => match kget w.asides l with
    | some n => n
    | none => (w.g.aside.getD l 0) - 1)
  if lanes32.all (fun l => decide (vpc.getD l exitPc = exitPc) || decide (0 < a.getD l 0)) then []
  else if a.all (fun n => decide (n = 0)) then [] else a

/-- CRC-32C of bytes, bit by bit (R396). -/
def crcBit : Nat → Nat → Nat
  | 0, c => c
  | n + 1, c => crcBit n (if c.testBit 0 then (c / 2) ^^^ 0x82F63B78 else c / 2)
def crc32c (l : List Byte) : Nat := (l.foldl (fun c b => crcBit 8 (c ^^^ b.toNat)) 0xFFFFFFFF) ^^^ 0xFFFFFFFF

/-- One item of the replay signature (R396). -/
def sigItem (q kind lane j value : Nat) : Word :=
  BitVec.ofNat 32 (crc32c (toBytes 4 q ++ toBytes 4 (kind + lane * 2 ^ 8 + j * 2 ^ 16) ++ toBytes 4 value))

/-- The weight of a word (R37). -/
def W.weight (w : W) : Nat := 1 + w.f.h.stall.val

/-- Whether a word's faults roll its region back (R336). -/
def rollsBack (l : List LaneFault) : Bool := l.any (fun f => decide (f.cause = .mcheck) || decide (f.cause = .page))

/-- Whether a word retires: not when its region restarts, nor when every active lane stays at it to wait; a word that causes a trap
retires unless the trap rolls back (R403). -/
def W.retires (w : W) (vpc : List Pc) : Bool :=
  !w.rolled && (if w.faults.isEmpty then !w.stays && (lanesOf w.act).any (fun l => decide (vpc.getD l exitPc ≠ w.pc) || (kget w.vpc.reverse l).isSome)
    else !rollsBack w.faults)

/-- A word counted in RETCNT, saturating (R94). -/
def Group.counted (g : Group) : Word := if g.retcnt = 0xFFFFFFFF#32 then g.retcnt else g.retcnt + 1

/-- The group after a word's own effect: windows, PCs, counts, signature, touch windows and holds (R37, R38, R79, R83, R90,
R94, R97, R396). -/
def W.closed (w : W) (g : Group) : Group :=
  let vpc := exitHelpers g.helper w.newVpc
  let (ws, regs) := commitWindows w.weight (g.windows ++ w.fixed) [] g.regs
  let retired := w.retires vpc
  let user := w.g.inRegion && retired
  let rc := if user then g.counted else g.retcnt
  let sig := match w.branch with
    | some m => if user then g.rsig ^^^ sigItem rc.toNat 1 0 0 m.toNat else g.rsig
    | none => g.rsig
  { g with windows := ws, regs := regs, vpc := vpc, aside := w.newAside vpc, retcnt := rc, rsig := sig,
           pends := g.pends.map (fun p => if p.sig = some 0 then { p with sig := some rc } else p),
           touches := g.touches.map (fun t => { t with left := t.left - 1 }),
           stallUntil := w.clk + w.weight, stallPc := w.pc, ageCount := 0,
           regionStart := g.regionStart && !w.g.inRegion, hndFirst := false }

/-- The group after a word, with the hold of a transfer whose next issue address is not the next word (R83). -/
def W.close (w : W) (g : Group) : Group :=
  let g1 := w.closed g
  if decide (0 < w.redir) && decide (g1.issuePc ≠ some w.nx) then { g1 with redirUntil := w.clk + 1 + w.redir, redirPc := w.pc } else g1

/-- The pages of the lanes that met no valid leaf, each with its lanes (R165). -/
def pagesOf : List LaneFault → List (Nat × List LaneFault)
  | [] => []
  | f :: t => let m := pagesOf t; kset m (f.va.toNat / 2 ^ 16) (f :: (kget m (f.va.toNat / 2 ^ 16)).getD [])

/-- One request for each distinct page (R165). A record's DETAIL carries the MALFORMED flag and level. -/
def State.requestPages (s : State) (gid : Nat) (g : Group) (type : Nat) (orig : Orig) (l : List LaneFault) : State :=
  (pagesOf l).foldl (fun s p =>
    let f := p.2.headD ⟨0, .page, 0, 0, 0, 0, 0, false⟩
    (s.request ⟨coreDie g.core, none, type, orig, g.ctx, [lo32 f.va, hi32 f.va], g.epc, g.rgncnt, ghOf gid, 0, f.kind,
      f.detail.testBit 15, bitsOf f.detail 12 3, p.2⟩).2) s

/-- The DETAIL of a PAGE fault (R340). -/
def pageDetail (mal : Bool) (lvl : Nat) : Nat := (if mal then 2 ^ 15 else 0) + (lvl % 8) * 2 ^ 12

/-- What a word's lane faults do to its group (R165–R167, R336, R338). -/
def W.settle (w : W) (s : State) : State :=
  let g := s.grpD w.gid
  if w.absents.isEmpty && w.held.isEmpty then
    (if w.faults.isEmpty then s
     else s.raiseTrap w.gid ⟨rollsBack w.faults, w.pc, w.faults⟩)
  else if w.faults.isEmpty then
    (if w.absents.isEmpty then s.modGrp w.gid (fun g => { g with wait := .wbClear (w.held.headD 0), waitPc := w.pc })
     else (s.requestPages w.gid g 1 (.group w.gid) w.absents).modGrp w.gid (fun g => { g with wait := .fault, waitPc := w.pc }))
  else (s.requestPages w.gid g 1 .gone w.absents).raiseTrap w.gid ⟨true, w.pc, w.faults⟩

/-- A context's first issue on a core since ownership passed (R350): the restore time enters SLSTAT. -/
def State.firstIssue (s : State) (core : Nat) : State :=
  let k := s.core core
  if k.turnFirst.isSome then s
  else
    let r := (s.pkg.clock - k.turnStart) / (max 1 s.pkg.freq)
    (s.modCore core (fun k => { k with turnFirst := some s.pkg.clock })).modCtx k.owner (fun c =>
      let v := c.slice.toNat % 2 ^ 20
      if v = 0 then c
      else { c with slstat := BitVec.ofNat 32 (field 31 1 (if decide (v < r + 20) then 1 else bitsOf c.slstat.toNat 31 1) +
               max (min r (2 ^ 20 - 1)) (bitsOf c.slstat.toNat 0 20)) })

/-- The port's record of the clk (R15, R76, R379). -/
def State.chargeIssue (s : State) (gid : Nat) (c : SlotCause) (pc : Pc) : State :=
  (s.modCore (gidCore gid) (fun k =>
    { k with lastIssuer := kset k.lastIssuer (gidPort gid) gid, issued := kset k.issued (gidPort gid) ⟨c, k.owner, pc, pc, some (gid, (s.grpD gid).rgncnt, (s.grpD gid).retcnt)⟩ })).firstIssue
      (gidCore gid)

/-- A word whose condition keeps it from being taken in this clk: nothing but the hold, and what starts while it waits, is
recorded; the port may issue another group's word in the clk. -/
def W.heldState (w : W) (c : SlotCause) : State :=
  (w.holdFx w.s0).modGrp w.gid (fun g => { g with retryAt := w.clk + 1, retryCause := c, waitPc := w.holdPc.getD w.pc })

/-- The end of a word: its group is closed, its faults are settled, a group with no lane left retires. -/
def W.finish (w : W) : State :=
  match w.hold with
  | some c => w.heldState c
  | none =>
    let s := (if w.rolled then w.s.setGrp w.gid w.g else w.s).modGrp w.gid w.close
    let s := if w.dry then s else s.chargeIssue w.gid .issue w.pc
    if w.dry then s else (w.settle s).retireGroup w.gid

/-- The group as a word's own effect finds it: after the region entry that its E field, a pending entry or SYSCALL makes (R45,
R94). -/
def Group.entered (g : Group) (f : Info) : Group :=
  let entry := (f.h.e || g.regionNext || (decide (f.op = 0x1D2) && !g.isSup)) && g.inRegion && !g.regionStart
  let g1 := if entry then g.enterRegion else g
  { g1 with regionNext := g1.regionNext && !g1.inRegion }

/-- A word about to take effect. -/
def W.begin (f : Info) (s : State) (g : Group) (pc : Pc) : W :=
  { s := s.setGrp s.focus (g.entered f), s0 := s, gid := s.focus, g := g.entered f, f := f, pc := pc, act := g.active,
    ex := (g.entered f).exLanes f g.active, dry := decide (s.dry.map (fun d => d.gid) = some s.focus) }

/-- Whether a word reads a cell early with SCHK set (R41). -/
def Group.early (g : Group) (f : Info) (keys : Group → List Nat → List Nat) : Bool :=
  g.schk && g.readsEarly f (lanesOf g.active) (keys g (g.exLanes f g.active))

/-- A word's whole step: the early-read check, the region entry, the guard, the word's own effect and the end (R36–R45). -/
def wordStep (f : Info) (keys : Group → List Nat → List Nat) (s : State) (g : Group) (pc : Pc) (body : W → W) : State :=
  let dry := decide (s.dry.map (fun d => d.gid) = some s.focus)
  if g.early f keys && !dry then
    ((s.chargeIssue s.focus .issue pc).modGrp s.focus (fun g => { g with retcnt := if g.inRegion then g.counted else g.retcnt })).raiseTrap s.focus
      ⟨false, pc, [⟨(lowestLane g.active).getD 0, .stallShort, 0, 0, 0, kindOther, 0, false⟩]⟩
  else
    let s := if g.early f keys then { s with dry := s.dry.map (fun d => { d with diverged := true }) } else s
    (body (W.begin f s g pc)).finish

/-- The meaning of a word with an effect of its own, given the cells it reads: the package must be on and the focus must name
a group with an issue address. -/
def runWordX (i : Instr) (keys : Group → List Nat → List Nat) (s : State) (body : W → W) : Host.Outcome State Fault Refusal :=
  if !s.pkg.on then .fault .packageOff
  else match s.grp s.focus with
    | none => .fault .noGroup
    | some g => match g.issuePc with
      | none => .fault .noGroup
      | some pc => .next (wordStep (info i) keys s g pc body)

/-- The meaning of a word that reads registers of its own lanes only. -/
def runWord (i : Instr) (s : State) (body : W → W) : Host.Outcome State Fault Refusal := runWordX i (ownKeys (info i)) s body

/-- The meaning of an event: the package must be on. -/
def runEvent (s : State) (f : State → State) : Host.Outcome State Fault Refusal :=
  if s.pkg.on then .next (f s) else .fault .packageOff

/-- The kill of an illegal word (R47): every lane exits, ILLEGAL is set and the first PC kept. -/
def State.illegalKill (s : State) (gid : Nat) : State :=
  match s.grp gid with
  | none => s
  | some g =>
    let pc := g.issuePc.getD exitPc
    let s := if (s.ctxD g.ctx).ctxstat &&& bitIllegal ≠ 0 then s
      else s.modCtx g.ctx (fun c => { c with illpc := BitVec.ofNat 64 (pc.toNat * 8), ctxstat := c.ctxstat ||| bitIllegal })
    let s := s.chargeIssue gid .issue pc
    (s.modGrp gid (fun g => { g with vpc := lanes32.map (fun _ => exitPc), aside := [], windows := [] })).retireGroup gid

end Sys2Proof.Machine
end

