-- ==== Sys2Proof/Machine/SysRegs.lean ====
section
/-! DEFINITION. The system registers (R331–R334): their numbers, the cores that have them, their write levels and what a read
gives. -/

namespace Sys2Proof.Machine

/-- The system registers of R334, one name for each register or pair. -/
inductive SysReg where
  | group | ngroup | teamx | teamy | teamz | gridx | gridy | gridz | clrank | ctxstat | rgncnt | retcnt | stklim
  | hndpc | trapcause | trapva | ctxid | schk | clocklo | clockhi | recbase | nodeid | dscrsz | wquota | lbase
  | argptr | traprec | ptroot | btbase | tcfg | mxstat | accstat | illpc | frbase | frctl | frtail | frhead
  | hsbase | slice | slstat | tdmask | smpctl | rsig | dfrbase | dfrtail | dfrhead | dloss | sptroot | dieinfo
  | livemask | ilbase | ilapplied | fmreq | fmstat | wwidx | wwdata (n : Fin 5) | trbase | trctl | trtail | trhead
  deriving DecidableEq, Repr

/-- The register a number names, and which half of a pair it is (R334). -/
def sysOf : Nat → Option (SysReg × Nat)
  | 0x001 => some (.group, 0) | 0x002 => some (.ngroup, 0) | 0x003 => some (.teamx, 0) | 0x004 => some (.teamy, 0)
  | 0x005 => some (.teamz, 0) | 0x006 => some (.gridx, 0) | 0x007 => some (.gridy, 0) | 0x008 => some (.gridz, 0)
  | 0x009 => some (.clrank, 0) | 0x00A => some (.ctxstat, 0) | 0x00B => some (.rgncnt, 0) | 0x00C => some (.retcnt, 0)
  | 0x00D => some (.stklim, 0) | 0x00E => some (.hndpc, 0) | 0x00F => some (.trapcause, 0) | 0x010 => some (.trapva, 0)
  | 0x011 => some (.trapva, 1) | 0x012 => some (.ctxid, 0) | 0x013 => some (.schk, 0) | 0x014 => some (.clocklo, 0)
  | 0x015 => some (.clockhi, 0) | 0x016 => some (.recbase, 0) | 0x017 => some (.nodeid, 0) | 0x018 => some (.dscrsz, 0)
  | 0x019 => some (.wquota, 0) | 0x01A => some (.lbase, 0) | 0x01B => some (.lbase, 1) | 0x01C => some (.argptr, 0)
  | 0x01D => some (.argptr, 1) | 0x01E => some (.traprec, 0) | 0x020 => some (.ptroot, 0) | 0x021 => some (.ptroot, 1)
  | 0x022 => some (.btbase, 0) | 0x023 => some (.btbase, 1) | 0x024 => some (.tcfg, 0) | 0x025 => some (.mxstat, 0)
  | 0x026 => some (.accstat, 0) | 0x028 => some (.illpc, 0) | 0x029 => some (.illpc, 1) | 0x02A => some (.frbase, 0)
  | 0x02B => some (.frbase, 1) | 0x02C => some (.frctl, 0) | 0x02D => some (.frtail, 0) | 0x02E => some (.frhead, 0)
  | 0x030 => some (.hsbase, 0) | 0x031 => some (.hsbase, 1) | 0x032 => some (.slice, 0) | 0x033 => some (.slstat, 0)
  | 0x034 => some (.tdmask, 0) | 0x035 => some (.smpctl, 0) | 0x036 => some (.rsig, 0) | 0x040 => some (.dfrbase, 0)
  | 0x041 => some (.dfrbase, 1) | 0x042 => some (.dfrtail, 0) | 0x043 => some (.dfrhead, 0) | 0x044 => some (.dloss, 0)
  | 0x046 => some (.sptroot, 0) | 0x047 => some (.sptroot, 1) | 0x048 => some (.dieinfo, 0) | 0x049 => some (.livemask, 0)
  | 0x04A => some (.ilbase, 0) | 0x04B => some (.ilbase, 1) | 0x04C => some (.ilapplied, 0) | 0x04E => some (.fmreq, 0)
  | 0x04F => some (.fmstat, 0) | 0x050 => some (.wwidx, 0) | 0x052 => some (.wwdata 0, 0) | 0x053 => some (.wwdata 0, 1)
  | 0x054 => some (.wwdata 1, 0) | 0x055 => some (.wwdata 1, 1) | 0x056 => some (.wwdata 2, 0) | 0x057 => some (.wwdata 2, 1)
  | 0x058 => some (.wwdata 3, 0) | 0x059 => some (.wwdata 3, 1) | 0x05A => some (.wwdata 4, 0) | 0x05B => some (.wwdata 4, 1)
  | 0x05C => some (.trbase, 0) | 0x05D => some (.trbase, 1) | 0x05E => some (.trctl, 0) | 0x05F => some (.trtail, 0)
  | 0x060 => some (.trhead, 0) | _ => none

/-- Whether a register is a pair (R334). -/
def sysPair : SysReg → Bool
  | .trapva | .lbase | .argptr | .ptroot | .btbase | .illpc | .frbase | .hsbase | .dfrbase | .sptroot | .ilbase
  | .wwdata _ | .trbase => true
  | _ => false

/-- Whether a register exists on a core: the die registers only outside the compute cores, some only on some dies (R333,
R359, R364, R376, R378, R395). -/
def sysHere (r : SysReg) (core : Nat) : Bool :=
  let d := coreDie core
  match r with
  | .dfrbase | .dfrtail | .dfrhead | .dloss | .sptroot | .dieinfo | .livemask => !isCompute core
  | .ilbase | .ilapplied => !isCompute core && (decide (d < 8) || decide (d = 20))
  | .fmreq | .fmstat => !isCompute core && decide (d = 20)
  | .wwidx | .wwdata _ => !isCompute core && decide (8 ≤ d)
  | .trbase | .trctl | .trtail | .trhead => !isCompute core && decide (d < 8)
  | _ => true

/-- The lowest write level of a register, by the codes of R330; none where only the XN4 writes it. -/
def sysWlvl : SysReg → Option Nat
  | .hndpc | .schk | .mxstat | .accstat => some 0
  | .stklim | .ctxstat | .frctl | .frhead | .slstat => some 1
  | .frbase | .hsbase | .slice | .ptroot | .btbase | .tcfg | .dfrbase | .dfrhead | .dloss | .sptroot | .ilbase | .fmreq
  | .wwidx | .trbase | .trctl | .trhead => some 2
  | _ => none

/-- Numbers that read zero and ignore writes on supervisor and service cores (R334). -/
def sysVoid (n : Nat) : Bool := (decide (3 ≤ n) && decide (n ≤ 9)) || (decide (0x16 ≤ n) && decide (n ≤ 0x35))

/-- Whether an RDSYS or WRSYS is legal for a level on a core (R332). -/
def sysLegal (write w64 : Bool) (n core lvl : Nat) : Bool :=
  match sysOf n with
  | none => false
  | some (r, half) =>
    sysHere r core && (!w64 || (sysPair r && decide (half = 0))) &&
    (!write || (decide (w64 = sysPair r) && (decide (half = 0)) &&
      ((!isCompute core && sysVoid n) || (match sysWlvl r with
        | some l => decide (l ≤ lvl)
        | none => false))))

/-- The dies that are UP (R359). -/
def State.liveMask (s : State) : Nat := (List.range 21).foldl (fun m d => if (s.die d).st = .up then m + 2 ^ d else m) 0

/-- A watch entry's image (R214). -/
def State.watchImage (s : State) (w : Watch) : Nat :=
  let waiter := match w.waiter with
    | .group g => handleOf g % 2 ^ 16
    | .record p => p.toNat
  let cond := match w.m.cond with
    | .eq => 0
    | .ne => 1
    | .lt => 2
    | .ge => 3
  let left := match w.until_ with
    | none => 0xFFFFFFFF
    | some t => (t - s.pkg.clock + s.pkg.freq - 1) / s.pkg.freq
  field 264 56 (vaOf w.ptr) + field 255 9 w.ctx + field 250 2 cond + field 249 1 (if w.m.un then 1 else 0) +
  field 248 1 (if w.m.w64 then 1 else 0) + field 246 2 (match w.waiter with | .group _ => 1 | .record _ => 2) +
  field 192 32 left + field 128 64 waiter + field 64 64 w.value.toNat + field 0 64 w.mask.toNat

/-- The image WWIDX selects (R378): a free entry reads as zero. -/
def State.wwImage (s : State) (d : Nat) : Nat :=
  match kget (s.die d).watches (s.die d).wwidx.toNat with
  | some w => s.watchImage w
  | none => 0

/-- ACCSTAT as a read gives it (R260): the team's sticky bits and its outstanding jobs. -/
def State.accStat (s : State) (tid : Nat) : Word :=
  (s.teamD tid).accstat ||| BitVec.ofNat 32 (s.mjobs.filter (fun j => decide (j.2.tid = tid) && decide (j.2.id ≠ 0))).length

/-- The 64-bit value of a register for a group; a single register in its low half (R331–R334). -/
def State.sysRead (s : State) (gid : Nat) (g : Group) (r : SysReg) : DWord :=
  let c := s.ctxD g.ctx
  let t := s.teamD g.tid
  let d := coreDie g.core
  let x := s.die d
  let w32 : Word → DWord := fun v => v.setWidth 64
  let n64 : Nat → DWord := BitVec.ofNat 64
  match r with
  | .group => n64 (if g.isSup then gidSlot gid else g.index)
  | .ngroup => n64 (if g.isSup then 1 else t.kernel.groups)
  | .teamx => n64 t.x
  | .teamy => n64 t.y
  | .teamz => n64 t.z
  | .gridx => n64 t.gridx
  | .gridy => n64 t.gridy
  | .gridz => n64 t.gridz
  | .clrank => n64 t.rank
  | .ctxstat => w32 c.ctxstat
  | .rgncnt => w32 g.rgncnt
  | .retcnt => w32 g.retcnt
  | .stklim => w32 g.stklim
  | .hndpc => w32 g.hndpc
  | .trapcause => w32 g.trapcause
  | .trapva => g.trapva
  | .ctxid => n64 g.ctx
  | .schk => if g.schk then 1 else 0
  | .clocklo => n64 (s.time % 2 ^ 32)
  | .clockhi => n64 (s.time / 2 ^ 32)
  | .recbase => w32 t.recbase
  | .nodeid => w32 t.nodeid
  | .dscrsz => n64 c.dscrsz
  | .wquota => n64 c.wquota
  | .lbase => g.lbase
  | .argptr => t.argptr
  | .traprec => w32 g.traprec
  | .ptroot => c.ptroot
  | .btbase => c.btbase
  | .tcfg => w32 c.tcfg
  | .mxstat => w32 g.mxstat
  | .accstat => w32 (s.accStat g.tid)
  | .illpc => c.illpc
  | .frbase => c.frbase
  | .frctl => w32 c.frctl
  | .frtail => w32 c.frtail
  | .frhead => w32 c.frhead
  | .hsbase => c.hsbase
  | .slice => w32 c.slice
  | .slstat => w32 c.slstat
  | .tdmask => w32 c.tdmask
  | .smpctl => w32 c.smpctl
  | .rsig => w32 g.rsig
  | .dfrbase => x.dfrbase
  | .dfrtail => w32 x.dfrtail
  | .dfrhead => w32 x.dfrhead
  | .dloss => n64 (field 16 16 x.dloss + field 0 16 x.rloss)
  | .sptroot => x.sptroot
  | .dieinfo => n64 (field 5 2 (if d < 8 then 0 else if d < 20 then 1 else 2) + d)
  | .livemask => n64 s.liveMask
  | .ilbase => x.ilbase
  | .ilapplied => n64 (x.ilnext % 65536)
  | .fmreq => 0
  | .fmstat => n64 (field 30 2 s.pkg.fmres + field 0 21 s.pkg.fmcut)
  | .wwidx => w32 x.wwidx
  | .wwdata n => n64 (bitsOf (s.wwImage d) (64 * n.val) 64)
  | .trbase => x.trbase
  | .trctl => w32 x.trctl
  | .trtail => w32 x.trtail
  | .trhead => w32 x.trhead

/-- What an RDSYS of a number gives: the register, the low or the high half of a pair, zero for a void number outside the
compute cores (R331, R334). -/
def State.sysValue (s : State) (gid : Nat) (g : Group) (n : Nat) : DWord :=
  if g.isSup && sysVoid n then 0
  else match sysOf n with
    | some (r, half) => let v := s.sysRead gid g r; if half = 1 then (hi32 v).setWidth 64 else v
    | none => 0

end Sys2Proof.Machine
end

