-- ==== Sys2Proof/Machine/Legal.lean ====
section
/-! DEFINITION. The legality of R46 that depends on the group: its level, its register allocation and its kind of core (R35,
R48, R332). What depends on the word alone is `Instr.wf`. -/

namespace Sys2Proof.Machine

/-- Whether every register a word names lies in the group's allocation (R35). -/
def regsInside (g : Group) (f : Info) : Bool :=
  f.uses.all (fun u => match u.o with
    | .v n => decide (n.val + u.n ≤ g.vregs)
    | .s n => g.isSup || decide (n.val + u.n ≤ g.sregs)
    | _ => true)

/-- What supervisor and service cores add (R46, R48). -/
def supOk (f : Info) : Bool :=
  f.sup && !namesLanes f && (match f.sp with
    | none => true
    | some .g => true
    | some .l => true
    | some _ => false)

/-- The system-register rules (R332). -/
def sysOk (g : Group) : Instr → Bool
  | .rdsys _ _ w64 n => sysLegal false w64 n.val g.core (levelCode g.level)
  | .wrsys _ _ w64 n => sysLegal true w64 n.val g.core (levelCode g.level)
  | _ => true

/-- Whether a well-formed word is legal for a group (R46). -/
def legalFor (g : Group) (i : Instr) : Bool :=
  let f := info i
  decide (f.lvl ≤ levelCode g.level) && regsInside g f && (!g.isSup || supOk f) && sysOk g i

end Sys2Proof.Machine
end

