-- ==== Sys2Proof/Machine/Integer.lean ====
section
/-! DEFINITION. Integer, address, predicate and exchange words, 0x000–0x03A (chapter 03). -/

namespace Sys2Proof.Machine

/-- A 32-bit result in every lane of execution. -/
def W.put1 (w : W) (d : Opnd) (f : Nat → Word) : W := w.fix (dstCells d 0 w.ex f)
/-- A 64-bit result in every lane of execution. -/
def W.put2 (w : W) (d : Opnd) (f : Nat → DWord) : W := w.fix (dstCells64 d w.ex f)
/-- A predicate result in every lane of execution. -/
def W.putP (w : W) (d : PCode) (f : Nat → Bool) : W := w.fix (predCells d w.ex f)

/-- An integer clamped to a range (R55). -/
def clampInt (lo hi i : Int) : Int := if i < lo then lo else if i > hi then hi else i

/-- A value extended as signed or unsigned (R55). -/
def extv (un : Bool) (x : Word) : Int := if un then (x.toNat : Int) else sval x

/-- IADD (R55). -/
def iaddVal (m : Sat) (a b : Word) : Word :=
  match m with
  | .wrap => a + b
  | .sat => narrow (clampInt (-2 ^ 31) (2 ^ 31 - 1) (sval a + sval b))
  | .satu => narrow (clampInt 0 (2 ^ 32 - 1) ((a.toNat : Int) + b.toNat))

/-- ISUB (R55). -/
def isubVal (m : Sat) (a b : Word) : Word :=
  match m with
  | .wrap => a - b
  | .sat => narrow (clampInt (-2 ^ 31) (2 ^ 31 - 1) (sval a - sval b))
  | .satu => narrow (clampInt 0 (2 ^ 32 - 1) ((a.toNat : Int) - b.toNat))

/-- IDIV's quotient and IREM's remainder (R56). -/
def divVals (un : Bool) (a b : Word) : Word × Word :=
  let x := extv un a
  let y := extv un b
  if y = 0 then (0xFFFFFFFF, a)
  else if !un && decide (x = -2 ^ 31) && decide (y = -1) then (0x80000000, 0)
  else (narrow (Int.tdiv x y), narrow (x - Int.tdiv x y * y))

/-- Shifts of a width by a whole count (R59). -/
def shlVal (w x n : Nat) : Nat := if n ≥ w then 0 else (x <<< n) % 2 ^ w
def shrVal (w x n : Nat) : Nat := if n ≥ w then 0 else (x % 2 ^ w) >>> n
def sarVal (w x n : Nat) : Int := sextNat x w / (2 : Int) ^ (min n w)

/-- The count of a funnel shift (R60). -/
def funCount (clamp : Bool) (c : Word) : Nat := if clamp then min c.toNat 32 else c.toNat % 32
/-- FSHL and FSHR (R60). -/
def fshlVal (clamp : Bool) (a b c : Word) : Word :=
  BitVec.ofNat 32 (((a.toNat * 2 ^ 32 + b.toNat) <<< funCount clamp c) >>> 32)
def fshrVal (clamp : Bool) (a b c : Word) : Word := BitVec.ofNat 32 ((a.toNat * 2 ^ 32 + b.toNat) >>> funCount clamp c)

/-- Zeros above the highest one bit among the low `n` (R61). -/
def clzNat : Nat → Nat → Nat
  | 0, _ => 0
  | n + 1, x => if x.testBit n then 0 else 1 + clzNat n x
/-- Zeros below the lowest one bit among `n` bits (R61). -/
def ctzNat : Nat → Nat → Nat
  | 0, _ => 0
  | n + 1, x => if x.testBit 0 then 0 else 1 + ctzNat n (x / 2)
/-- Bits in reverse order (R61). -/
def brevNat : Nat → Nat → Nat
  | 0, _ => 0
  | n + 1, x => (x % 2) * 2 ^ n + brevNat n (x / 2)

/-- BFE (R62). -/
def bfeVal (sx : Bool) (a b c : Word) : Word :=
  let pos := b.toNat % 256
  let len := min (c.toNat % 256) 32
  let x : Int := if sx then sval a else a.toNat
  let f : Nat := ((x / (2 : Int) ^ pos) % (2 : Int) ^ len).toNat
  if len = 0 then 0 else if sx then narrow (sextNat f len) else BitVec.ofNat 32 f

/-- BFI (R62). -/
def bfiVal (d a b c : Word) : Word :=
  let pos := b.toNat % 256
  let len := min (c.toNat % 256) 32
  let mask := BitVec.ofNat 32 ((2 ^ len - 1) <<< pos)
  (d &&& ~~~mask) ||| (BitVec.ofNat 32 (a.toNat <<< pos) &&& mask)

/-- SEXT and ZEXT (R62). -/
def sextVal (a b : Word) : Word :=
  let n := b.toNat % 256
  if n = 0 then 0 else if n ≥ 32 then a else narrow (sextNat a.toNat n)
def zextVal (a b : Word) : Word :=
  let n := b.toNat % 256
  if n = 0 then 0 else if n ≥ 32 then a else BitVec.ofNat 32 (a.toNat % 2 ^ n)

/-- LEA's 64-bit forms (R66). -/
def leaVal (full sx : Bool) (sh : Nat) (a : DWord) (b : Word) : DWord :=
  let x : Int := (if sx then sval b else b.toNat) * (2 : Int) ^ sh
  if full then a + BitVec.ofInt 64 x else ptrOff a x
/-- LEA.32 (R66). -/
def lea32Val (sx : Bool) (sh : Nat) (a b : Word) : Word :=
  a + BitVec.ofInt 32 ((if sx then sval b else (b.toNat : Int)) * (2 : Int) ^ sh)

/-- A comparison of 32-bit values (R63). -/
def icmpVal (c : ICond) (a b : Word) : Bool := icondHolds c (sval a) (sval b) a.toNat b.toNat
/-- A comparison of 64-bit values (R63). -/
def icmp64Val (c : ICond) (a b : DWord) : Bool := icondHolds c (sval64 a) (sval64 b) a.toNat b.toNat

/-- QXCH's source lane (R68). -/
def qxchSrc (m : QMode) (l : Nat) : Nat :=
  let q := l % 4
  let f := match m with
    | .xh => q ^^^ 1
    | .xv => q ^^^ 2
    | .xd => q ^^^ 3
    | .b0 => 0
    | .b1 => 1
    | .b2 => 2
    | .b3 => 3
  l - q + f

/-- SHFL's source lane (R69). -/
def shflSrc (m : ShMode) (c : Nat) (b : Word) (l : Nat) : Nat :=
  let w := 32 >>> c
  let j := l % w
  let base := l - j
  match m with
  | .idx => base + b.toNat % w
  | .up => if b.toNat ≤ j then l - b.toNat else l
  | .down => if j + b.toNat < w then l + b.toNat else l
  | .xor => base + (j ^^^ (b.toNat % w))

/-- A word's participants: its lanes of execution that are not helper lanes (R54). -/
def W.parts (w : W) : List Nat := w.ex.filter (fun l => !w.g.isHelper l)

/-- VOTE (R70). -/
def voteVal (m : VMode) (l : List Bool) : Bool :=
  match m with
  | .all => l.all (fun b => b)
  | .any => l.any (fun b => b)
  | .uni => l.all (fun b => b) || l.all (fun b => !b)

/-- The operations of GRED and GSCAN (R74). -/
def redVal (o : RedOp) (a b : Word) : Word :=
  match o with
  | .add => a + b
  | .min => if sval a ≤ sval b then a else b
  | .max => if sval a ≥ sval b then a else b
  | .minu => if a.toNat ≤ b.toNat then a else b
  | .maxu => if a.toNat ≥ b.toNat then a else b
  | .and => a &&& b
  | .or => a ||| b
  | .xor => a ^^^ b
/-- Their identities (R74). -/
def redId : RedOp → Word
  | .add => 0
  | .min => 0x7FFFFFFF
  | .max => 0x80000000
  | .minu => 0xFFFFFFFF
  | .maxu => 0
  | .and => 0xFFFFFFFF
  | .or => 0
  | .xor => 0
/-- The reduction of a list (R74). -/
def redList (o : RedOp) (l : List Word) : Word := l.foldl (redVal o) (redId o)

/-- A variable-latency result whose completion time is bounded (R56): FREE within the bounds (log 6). -/
def W.freeIn (w : W) (lo hi : Nat) : Nat × W :=
  (w.clk + lo + Config.freeTime w.s.free % (hi - lo + 1), { w with s := { w.s with free := w.s.free + 1 } })

def execMov (h : Hdr) (d a : Opnd) (s : State) := runWord (.mov h d a) s fun w => w.put1 d (fun l => w.g.rd l a)
def execIadd (h : Hdr) (d a b : Opnd) (m : Sat) (s : State) :=
  runWord (.iadd h d a b m) s fun w => w.put1 d (fun l => iaddVal m (w.g.rd l a) (w.g.rd l b))
def execIadd64 (h : Hdr) (d a b : Opnd) (s : State) :=
  runWord (.iadd64 h d a b) s fun w => w.put2 d (fun l => w.g.rd64 l a + w.g.rd64 l b)
def execIsub (h : Hdr) (d a b : Opnd) (m : Sat) (s : State) :=
  runWord (.isub h d a b m) s fun w => w.put1 d (fun l => isubVal m (w.g.rd l a) (w.g.rd l b))
def execIsub64 (h : Hdr) (d a b : Opnd) (s : State) :=
  runWord (.isub64 h d a b) s fun w => w.put2 d (fun l => w.g.rd64 l a - w.g.rd64 l b)
def execImul (h : Hdr) (d a b : Opnd) (s : State) :=
  runWord (.imul h d a b) s fun w => w.put1 d (fun l => w.g.rd l a * w.g.rd l b)
def execImulh (h : Hdr) (d a b : Opnd) (s : State) :=
  runWord (.imulh h d a b) s fun w => w.put1 d (fun l => narrow (sval (w.g.rd l a) * sval (w.g.rd l b) / 2 ^ 32))
def execImulhu (h : Hdr) (d a b : Opnd) (s : State) :=
  runWord (.imulhu h d a b) s fun w => w.put1 d (fun l => BitVec.ofNat 32 ((w.g.rd l a).toNat * (w.g.rd l b).toNat / 2 ^ 32))
def execImad (h : Hdr) (d a b c : Opnd) (s : State) :=
  runWord (.imad h d a b c) s fun w => w.put1 d (fun l => w.g.rd l a * w.g.rd l b + w.g.rd l c)
def execImadw (h : Hdr) (d a b c : Opnd) (un : Bool) (s : State) :=
  runWord (.imadw h d a b c un) s fun w =>
    w.put2 d (fun l => narrow64 (extv un (w.g.rd l a) * extv un (w.g.rd l b)) + w.g.rd64 l c)
/-- IDIV (R56): variable latency, 14 to 38 clk. -/
def execIdiv (h : Hdr) (d a b : Opnd) (un : Bool) (s : State) :=
  runWord (.idiv h d a b un) s fun w =>
    let (due, w) := w.freeIn 14 38
    w.var (dstCells d 0 w.ex (fun l => (divVals un (w.g.rd l a) (w.g.rd l b)).1)) due false
/-- IREM (R56): variable latency, 14 to 38 clk. -/
def execIrem (h : Hdr) (d a b : Opnd) (un : Bool) (s : State) :=
  runWord (.irem h d a b un) s fun w =>
    let (due, w) := w.freeIn 14 38
    w.var (dstCells d 0 w.ex (fun l => (divVals un (w.g.rd l a) (w.g.rd l b)).2)) due false
def execImin (h : Hdr) (d a b : Opnd) (un : Bool) (s : State) :=
  runWord (.imin h d a b un) s fun w =>
    w.put1 d (fun l => if extv un (w.g.rd l a) ≤ extv un (w.g.rd l b) then w.g.rd l a else w.g.rd l b)
def execImax (h : Hdr) (d a b : Opnd) (un : Bool) (s : State) :=
  runWord (.imax h d a b un) s fun w =>
    w.put1 d (fun l => if extv un (w.g.rd l a) ≥ extv un (w.g.rd l b) then w.g.rd l a else w.g.rd l b)
/-- IABS (R57): the most negative number gives itself, or the largest under .SAT. -/
def execIabs (h : Hdr) (d a : Opnd) (sat : Bool) (s : State) :=
  runWord (.iabs h d a sat) s fun w =>
    w.put1 d (fun l => let x := w.g.rd l a
                       if sat && decide (x = 0x80000000) then 0x7FFFFFFF else narrow ((sval x).natAbs : Int))
def execIsad (h : Hdr) (d a b c : Opnd) (un : Bool) (s : State) :=
  runWord (.isad h d a b c un) s fun w =>
    w.put1 d (fun l => narrow (((extv un (w.g.rd l a) - extv un (w.g.rd l b)).natAbs : Int)) + w.g.rd l c)
def execAnd (h : Hdr) (d a b : Opnd) (s : State) := runWord (.and h d a b) s fun w => w.put1 d (fun l => w.g.rd l a &&& w.g.rd l b)
def execOr (h : Hdr) (d a b : Opnd) (s : State) := runWord (.or h d a b) s fun w => w.put1 d (fun l => w.g.rd l a ||| w.g.rd l b)
def execXor (h : Hdr) (d a b : Opnd) (s : State) := runWord (.xor h d a b) s fun w => w.put1 d (fun l => w.g.rd l a ^^^ w.g.rd l b)
def execAndn (h : Hdr) (d a b : Opnd) (s : State) :=
  runWord (.andn h d a b) s fun w => w.put1 d (fun l => w.g.rd l a &&& ~~~(w.g.rd l b))
def execShl (h : Hdr) (d a b : Opnd) (s : State) :=
  runWord (.shl h d a b) s fun w => w.put1 d (fun l => BitVec.ofNat 32 (shlVal 32 (w.g.rd l a).toNat (w.g.rd l b).toNat))
def execShr (h : Hdr) (d a b : Opnd) (s : State) :=
  runWord (.shr h d a b) s fun w => w.put1 d (fun l => BitVec.ofNat 32 (shrVal 32 (w.g.rd l a).toNat (w.g.rd l b).toNat))
def execSar (h : Hdr) (d a b : Opnd) (s : State) :=
  runWord (.sar h d a b) s fun w => w.put1 d (fun l => narrow (sarVal 32 (w.g.rd l a).toNat (w.g.rd l b).toNat))
def execShl64 (h : Hdr) (d a b : Opnd) (s : State) :=
  runWord (.shl64 h d a b) s fun w => w.put2 d (fun l => BitVec.ofNat 64 (shlVal 64 (w.g.rd64 l a).toNat (w.g.rd l b).toNat))
def execShr64 (h : Hdr) (d a b : Opnd) (s : State) :=
  runWord (.shr64 h d a b) s fun w => w.put2 d (fun l => BitVec.ofNat 64 (shrVal 64 (w.g.rd64 l a).toNat (w.g.rd l b).toNat))
def execSar64 (h : Hdr) (d a b : Opnd) (s : State) :=
  runWord (.sar64 h d a b) s fun w => w.put2 d (fun l => narrow64 (sarVal 64 (w.g.rd64 l a).toNat (w.g.rd l b).toNat))
def execFshl (h : Hdr) (d a b c : Opnd) (clamp : Bool) (s : State) :=
  runWord (.fshl h d a b c clamp) s fun w => w.put1 d (fun l => fshlVal clamp (w.g.rd l a) (w.g.rd l b) (w.g.rd l c))
def execFshr (h : Hdr) (d a b c : Opnd) (clamp : Bool) (s : State) :=
  runWord (.fshr h d a b c clamp) s fun w => w.put1 d (fun l => fshrVal clamp (w.g.rd l a) (w.g.rd l b) (w.g.rd l c))
def execPopc (h : Hdr) (d a : Opnd) (s : State) :=
  runWord (.popc h d a) s fun w => w.put1 d (fun l => BitVec.ofNat 32 (popNat 32 (w.g.rd l a).toNat))
def execClz (h : Hdr) (d a : Opnd) (s : State) :=
  runWord (.clz h d a) s fun w => w.put1 d (fun l => BitVec.ofNat 32 (clzNat 32 (w.g.rd l a).toNat))
def execCtz (h : Hdr) (d a : Opnd) (s : State) :=
  runWord (.ctz h d a) s fun w => w.put1 d (fun l => BitVec.ofNat 32 (ctzNat 32 (w.g.rd l a).toNat))
def execBrev (h : Hdr) (d a : Opnd) (s : State) :=
  runWord (.brev h d a) s fun w => w.put1 d (fun l => BitVec.ofNat 32 (brevNat 32 (w.g.rd l a).toNat))
def execBfe (h : Hdr) (d a b c : Opnd) (sx : Bool) (s : State) :=
  runWord (.bfe h d a b c sx) s fun w => w.put1 d (fun l => bfeVal sx (w.g.rd l a) (w.g.rd l b) (w.g.rd l c))
def execBfi (h : Hdr) (d a b c : Opnd) (s : State) :=
  runWord (.bfi h d a b c) s fun w => w.put1 d (fun l => bfiVal (w.g.rd l d) (w.g.rd l a) (w.g.rd l b) (w.g.rd l c))
def execSext (h : Hdr) (d a b : Opnd) (s : State) :=
  runWord (.sext h d a b) s fun w => w.put1 d (fun l => sextVal (w.g.rd l a) (w.g.rd l b))
def execZext (h : Hdr) (d a b : Opnd) (s : State) :=
  runWord (.zext h d a b) s fun w => w.put1 d (fun l => zextVal (w.g.rd l a) (w.g.rd l b))
def execIcmp (h : Hdr) (d : PCode) (a b : Opnd) (k : PComb) (c : ICond) (s : State) :=
  runWord (.icmp h d a b k c) s fun w =>
    w.putP d (fun l => combine k (icmpVal c (w.g.rd l a) (w.g.rd l b)) (w.g.combPred (uniOf w.f) k l))
def execIcmp64 (h : Hdr) (d : PCode) (a b : Opnd) (k : PComb) (c : ICond) (s : State) :=
  runWord (.icmp64 h d a b k c) s fun w =>
    w.putP d (fun l => combine k (icmp64Val c (w.g.rd64 l a) (w.g.rd64 l b)) (w.g.combPred (uniOf w.f) k l))
def execSel (h : Hdr) (d a b : Opnd) (neg : Bool) (n : Fin 8) (s : State) :=
  runWord (.sel h d a b neg n) s fun w =>
    w.put1 d (fun l => if (w.g.pred (clsPred (uniOf w.f) n) l) != neg then w.g.rd l a else w.g.rd l b)
def execPlop (h : Hdr) (d a b : PCode) (lut : BitVec 4) (s : State) :=
  runWord (.plop h d a b lut) s fun w => w.putP d (fun l => plopVal lut (w.g.pred a l) (w.g.pred b l))
def execLea (h : Hdr) (d a b : Opnd) (form : LeaForm) (sx : Bool) (sh : Fin 8) (s : State) :=
  runWord (.lea h d a b form sx sh) s fun w =>
    match form with
    | .w32 => w.put1 d (fun l => lea32Val sx sh.val (w.g.rd l a) (w.g.rd l b))
    | .full => w.put2 d (fun l => leaVal true sx sh.val (w.g.rd64 l a) (w.g.rd l b))
    | .tag => w.put2 d (fun l => leaVal false sx sh.val (w.g.rd64 l a) (w.g.rd l b))
def execMoviFull (h : Hdr) (d : Opnd) (imm : BitVec 24) (s : State) :=
  runWord (.moviFull h d imm) s fun w => w.put1 d (fun _ => imm.signExtend 32)
def execMoviWide (h : Hdr) (d : Opnd) (imm : BitVec 32) (s : State) :=
  runWord (.moviWide h d imm) s fun w => w.put1 d (fun _ => imm)
/-- MOVIH (R67): only register D+1 of the pair is written. -/
def execMovihFull (h : Hdr) (d : Opnd) (imm : BitVec 24) (s : State) :=
  runWord (.movihFull h d imm) s fun w => w.fix (dstCells d 1 w.ex (fun _ => imm.signExtend 32))
def execMovihWide (h : Hdr) (d : Opnd) (imm : BitVec 32) (s : State) :=
  runWord (.movihWide h d imm) s fun w => w.fix (dstCells d 1 w.ex (fun _ => imm))
def execIaddiFull (h : Hdr) (d a : Opnd) (imm : BitVec 24) (s : State) :=
  runWord (.iaddiFull h d a imm) s fun w => w.put1 d (fun l => w.g.rd l a + imm.signExtend 32)
def execIaddiWide (h : Hdr) (d : Opnd) (imm : BitVec 32) (s : State) :=
  runWord (.iaddiWide h d imm) s fun w => w.put1 d (fun l => w.g.rd l d + imm)

/-- The cells of an operand in the lanes a word reads it from (R54). -/
def crossKeys (o : Opnd) (lanes : List Nat) : List Nat :=
  match opndReg o with
  | some r => regKeys lanes r
  | none => []

def execQxch (h : Hdr) (d a : Opnd) (m : QMode) (s : State) :=
  runWordX (.qxch h d a m) (fun _ ex => crossKeys a (ex.map (qxchSrc m))) s fun w => w.put1 d (fun l => w.g.rd (qxchSrc m l) a)
def execShfl (h : Hdr) (d a b : Opnd) (wd : Fin 6) (m : ShMode) (s : State) :=
  runWordX (.shfl h d a b wd m)
    (fun g ex => crossKeys a (ex.map (fun l => shflSrc m wd.val (g.rd l b) l)) ++ crossKeys b ex) s fun w => w.put1 d (fun l => w.g.rd (shflSrc m wd.val (w.g.rd l b) l) a)
def execVote (h : Hdr) (d : Fin 8) (a : PCode) (m : VMode) (s : State) :=
  runWord (.vote h d a m) s fun w => w.putP (.p d) (fun _ => voteVal m (w.parts.map (w.g.pred a)))
def execBallot (h : Hdr) (d : Opnd) (a : PCode) (s : State) :=
  runWord (.ballot h d a) s fun w => w.put1 d (fun _ => maskOf (fun l => w.parts.contains l && w.g.pred a l))
def execMatchw (h : Hdr) (d a : Opnd) (w64 : Bool) (s : State) :=
  runWord (.matchw h d a w64) s fun w =>
    let same := fun k l => if w64 then decide (w.g.rd64 k a = w.g.rd64 l a) else decide (w.g.rd k a = w.g.rd l a)
    w.put1 d (fun l => maskOf (fun k => w.parts.contains k && same k l))
def execElect (h : Hdr) (d : Fin 8) (s : State) :=
  runWord (.elect h d) s fun w => w.putP (.p d) (fun l => decide (w.parts.head? = some l))
def execReadlane (h : Hdr) (d a b : Opnd) (s : State) :=
  runWordX (.readlane h d a b)
    (fun g ex => crossKeys a (if ex.isEmpty then [] else [(g.rd 0 b).toNat % 32]) ++ crossKeys b ex) s fun w => w.put1 d (fun l => w.g.rd ((w.g.rd l b).toNat % 32) a)
/-- WRITELANE (R73): lane L is written unless it has exited or the guard fails there, wherever it waits. -/
def execWritelane (h : Hdr) (d a b : Opnd) (s : State) :=
  runWord (.writelane h d a b) s fun w =>
    let l := (w.g.rd 0 b).toNat % 32
    if decide (w.g.vpcOf l ≠ exitPc) && w.g.guard false h l then w.fix (dstCells d 0 [l] (fun _ => w.g.rd l a)) else w
def execGred (h : Hdr) (d a : Opnd) (o : RedOp) (s : State) :=
  runWord (.gred h d a o) s fun w => w.put1 d (fun _ => redList o (w.parts.map (fun k => w.g.rd k a)))
def execGscan (h : Hdr) (d a : Opnd) (exc : Bool) (o : RedOp) (s : State) :=
  runWord (.gscan h d a exc o) s fun w =>
    w.put1 d (fun l => redList o ((w.parts.filter (fun k => decide (k < l) || (decide (k = l) && !exc))).map (fun k => w.g.rd k a)))
/-- MASK (R75): a uniform .ACT names the active mask without helper lanes. -/
def execMask (h : Hdr) (d : Opnd) (k : MaskKind) (s : State) :=
  runWord (.mask h d k) s fun w =>
    let m : LaneMask := match k with
      | .act => if uniOf w.f then w.g.parts w.act else maskOf (fun l => w.parts.contains l)
      | .live => w.g.parts w.g.live
      | .help => w.g.helper
    w.put1 d (fun _ => m)

end Sys2Proof.Machine
end

