-- ==== Sys2Proof/Machine/FloatOps.lean ====
section
/-! DEFINITION. Floating-point, packed, conversion and quantisation words, 0x0C0–0x0E9 (chapter 05). -/

namespace Sys2Proof.Machine

/-- Register `j` of an FP32 source as a code: an immediate is converted exactly (R31). -/
def Group.fj (g : Group) (l j : Nat) (o : Opnd) : Nat :=
  match o with
  | .imm i => fp32.ofInt .rn false i.toInt
  | _ => (g.rdj l j o).toNat
/-- An FP32 source as a code. -/
def Group.f32 (g : Group) (l : Nat) (o : Opnd) : Nat := g.fj l 0 o
/-- A packed 16-bit source: an immediate is converted and stands in both halves (R31). -/
def Group.h2 (g : Group) (f : Fmt) (l : Nat) (o : Opnd) : Nat :=
  match o with
  | .imm i => let c := f.ofInt .rn false i.toInt; c + c * 2 ^ 16
  | _ => (g.rd l o).toNat

/-- Element `i` of a packed register, `w` bits wide (R103). -/
def elem (w i x : Nat) : Nat := bitsOf x (w * i) w

/-- A packed 16-bit word from its elements. -/
def pack2 (lo hi : Nat) : Word := BitVec.ofNat 32 (lo + hi * 2 ^ 16)

/-- FP32 results in every lane of execution. -/
def W.putF (w : W) (d : Opnd) (f : Nat → Nat) : W := w.put1 d (fun l => BitVec.ofNat 32 (f l))

def execFadd (h : Hdr) (d a b : Opnd) (r : Rnd) (m : FMods) (s : State) := runWord (.fadd h d a b r m) s fun w =>
  w.putF d (fun l => fp32.add r (fmod m.absa m.nega (w.g.f32 l a)) (fmod m.absb m.negb (w.g.f32 l b)))
def execFsub (h : Hdr) (d a b : Opnd) (r : Rnd) (m : FMods) (s : State) := runWord (.fsub h d a b r m) s fun w =>
  w.putF d (fun l => fp32.add r (fmod m.absa m.nega (w.g.f32 l a)) (fmod false true (fmod m.absb m.negb (w.g.f32 l b))))
def execFmul (h : Hdr) (d a b : Opnd) (r : Rnd) (m : FMods) (s : State) := runWord (.fmul h d a b r m) s fun w =>
  w.putF d (fun l => fp32.mul r (fmod m.absa m.nega (w.g.f32 l a)) (fmod m.absb m.negb (w.g.f32 l b)))
def execFfma (h : Hdr) (d a b c : Opnd) (r : Rnd) (nega negc : Bool) (s : State) :=
  runWord (.ffma h d a b c r nega negc) s fun w =>
    w.putF d (fun l => fp32.fma r nega negc (w.g.f32 l a) (w.g.f32 l b) (w.g.f32 l c))
/-- FFMA2 (R108): two independent elements; ZERO and immediates supply both. -/
def execFfma2 (h : Hdr) (d a b c : Opnd) (r : Rnd) (nega negc : Bool) (s : State) :=
  runWord (.ffma2 h d a b c r nega negc) s fun w =>
    w.fix (dstCellsN d 2 w.ex (fun j l => BitVec.ofNat 32 (fp32.fma r nega negc (w.g.fj l j a) (w.g.fj l j b) (w.g.fj l j c))))
def execFmin (h : Hdr) (d a b : Opnd) (pr : Bool) (m : FMods) (s : State) := runWord (.fmin h d a b pr m) s fun w =>
  w.putF d (fun l => fminMax false pr (fmod m.absa m.nega (w.g.f32 l a)) (fmod m.absb m.negb (w.g.f32 l b)))
def execFmax (h : Hdr) (d a b : Opnd) (pr : Bool) (m : FMods) (s : State) := runWord (.fmax h d a b pr m) s fun w =>
  w.putF d (fun l => fminMax true pr (fmod m.absa m.nega (w.g.f32 l a)) (fmod m.absb m.negb (w.g.f32 l b)))
def execFcmp (h : Hdr) (d : PCode) (a b : Opnd) (k : PComb) (c : FCond) (s : State) := runWord (.fcmp h d a b k c) s fun w =>
  w.putP d (fun l => combine k (fcmpVal c (w.g.f32 l a) (w.g.f32 l b)) (w.g.combPred (uniOf w.f) k l))

/-- Two elements computed independently (R113). -/
def W.packed (w : W) (f : Fmt) (d : Opnd) (op : (Nat → Nat → Nat) → Nat → Nat) (src : Nat → List Nat) : W :=
  w.put1 d (fun l => let x := src l
    pack2 (op (fun k _ => elem 16 0 (x.getD k 0)) f.w) (op (fun k _ => elem 16 1 (x.getD k 0)) f.w))

def packedAdd (f : Fmt) (x : Nat → Nat → Nat) (_ : Nat) : Nat := f.add .rn (x 0 0) (x 1 0)
def packedMul (f : Fmt) (x : Nat → Nat → Nat) (_ : Nat) : Nat := f.mul .rn (x 0 0) (x 1 0)
def packedFma (f : Fmt) (x : Nat → Nat → Nat) (_ : Nat) : Nat := f.fma .rn false false (x 0 0) (x 1 0) (x 2 0)

def execHadd2 (h : Hdr) (d a b : Opnd) (s : State) := runWord (.hadd2 h d a b) s fun w =>
  w.packed fp16 d (packedAdd fp16) (fun l => [w.g.h2 fp16 l a, w.g.h2 fp16 l b])
def execHmul2 (h : Hdr) (d a b : Opnd) (s : State) := runWord (.hmul2 h d a b) s fun w =>
  w.packed fp16 d (packedMul fp16) (fun l => [w.g.h2 fp16 l a, w.g.h2 fp16 l b])
def execHfma2 (h : Hdr) (d a b c : Opnd) (s : State) := runWord (.hfma2 h d a b c) s fun w =>
  w.packed fp16 d (packedFma fp16) (fun l => [w.g.h2 fp16 l a, w.g.h2 fp16 l b, w.g.h2 fp16 l c])
def execBadd2 (h : Hdr) (d a b : Opnd) (s : State) := runWord (.badd2 h d a b) s fun w =>
  w.packed bf16 d (packedAdd bf16) (fun l => [w.g.h2 bf16 l a, w.g.h2 bf16 l b])
def execBmul2 (h : Hdr) (d a b : Opnd) (s : State) := runWord (.bmul2 h d a b) s fun w =>
  w.packed bf16 d (packedMul bf16) (fun l => [w.g.h2 bf16 l a, w.g.h2 bf16 l b])
def execBfma2 (h : Hdr) (d a b c : Opnd) (s : State) := runWord (.bfma2 h d a b c) s fun w =>
  w.packed bf16 d (packedFma bf16) (fun l => [w.g.h2 bf16 l a, w.g.h2 bf16 l b, w.g.h2 bf16 l c])

def execFrcp (h : Hdr) (d a : Opnd) (r : Rnd) (s : State) := runWord (.frcp h d a r) s fun w => w.putF d (fun l => frcpVal r (w.g.f32 l a))
def execFrsq (h : Hdr) (d a : Opnd) (r : Rnd) (s : State) := runWord (.frsq h d a r) s fun w => w.putF d (fun l => frsqVal r (w.g.f32 l a))
def execFsqrt (h : Hdr) (d a : Opnd) (r : Rnd) (s : State) := runWord (.fsqrt h d a r) s fun w => w.putF d (fun l => fsqrtVal r (w.g.f32 l a))
def execFex2 (h : Hdr) (d a : Opnd) (r : Rnd) (s : State) := runWord (.fex2 h d a r) s fun w => w.putF d (fun l => fex2Val r (w.g.f32 l a))
def execFlg2 (h : Hdr) (d a : Opnd) (r : Rnd) (s : State) := runWord (.flg2 h d a r) s fun w => w.putF d (fun l => flg2Val r (w.g.f32 l a))
def execFsin (h : Hdr) (d a : Opnd) (r : Rnd) (s : State) := runWord (.fsin h d a r) s fun w => w.putF d (fun l => fsinVal r (w.g.f32 l a))
def execFcos (h : Hdr) (d a : Opnd) (r : Rnd) (s : State) := runWord (.fcos h d a r) s fun w => w.putF d (fun l => fcosVal r (w.g.f32 l a))
def execFtanh (h : Hdr) (d a : Opnd) (r : Rnd) (s : State) := runWord (.ftanh h d a r) s fun w => w.putF d (fun l => ftanhVal r (w.g.f32 l a))
/-- FDIV (R112): variable latency, 22 to 40 clk. -/
def execFdiv (h : Hdr) (d a b : Opnd) (r : Rnd) (s : State) := runWord (.fdiv h d a b r) s fun w =>
  let (due, w) := w.freeIn 22 40
  w.var (dstCells d 0 w.ex (fun l => BitVec.ofNat 32 (fp32.div r (w.g.f32 l a) (w.g.f32 l b)))) due false

/-- The exact parts of a complex product (R114). -/
def cmulParts (conj : Bool) (a b : Nat) : FVal × FVal :=
  let ar := fp16.val (elem 16 0 a)
  let ai := fp16.val (elem 16 1 a)
  let br := fp16.val (elem 16 0 b)
  let bi := let x := fp16.val (elem 16 1 b); if conj then x.neg else x
  (addV .rn (mulV ar br) (mulV ai bi).neg, addV .rn (mulV ar bi) (mulV ai br))

def execCmulh2 (h : Hdr) (d a b : Opnd) (conj : Bool) (s : State) := runWord (.cmulh2 h d a b conj) s fun w =>
  w.put1 d (fun l => let p := cmulParts conj (w.g.rd l a).toNat (w.g.rd l b).toNat
                     pack2 (fp16.round .rn false p.1) (fp16.round .rn false p.2))
def execCfmah2 (h : Hdr) (d a b c : Opnd) (conj : Bool) (s : State) := runWord (.cfmah2 h d a b c conj) s fun w =>
  w.put1 d (fun l => let p := cmulParts conj (w.g.rd l a).toNat (w.g.rd l b).toNat
                     let x := (w.g.rd l c).toNat
                     pack2 (fp16.round .rn false (addV .rn p.1 (fp16.val (elem 16 0 x))))
                           (fp16.round .rn false (addV .rn p.2 (fp16.val (elem 16 1 x)))))

/-- A conversion's source bits in a lane (R31, R103, R115). -/
def Group.cvtSrc (g : Group) (l : Nat) (st : NumTy) (a : Opnd) : Nat :=
  match a with
  | .imm i => (match fmtOf st with
    | some f => f.ofInt .rn false i.toInt
    | none => (i.toInt % 2 ^ 64).toNat)
  | _ => if is64 st then (g.rd64 l a).toNat else (g.rd l a).toNat

/-- An error-feedback chain over the elements of some lanes, in order (R106): each lane's codes. A step gets the carry and the
element; helper lanes take a zero carry and pass nothing on. -/
def chain (step : Nat → Nat → Nat × Nat) (helper : Nat → Bool) : List (Nat × List Nat) → Nat → List (Nat × List Nat)
  | [], _ => []
  | (l, xs) :: t, carry =>
    let one := xs.foldl (fun (acc : List Nat × Nat) x =>
      let r := step (if helper l then 0 else acc.2) x
      (acc.1 ++ [r.1], if helper l then acc.2 else r.2)) ([], carry)
    (l, one.1) :: chain step helper t one.2

/-- Codes packed in one register, element 0 lowest (R103). -/
def packCodes (w : Nat) : List Nat → Nat
  | [] => 0
  | c :: t => c + 2 ^ w * packCodes w t

/-- Whether a lane is a helper for a chain: in a uniform word none is. -/
def W.chainHelper (w : W) (l : Nat) : Bool := !uniOf w.f && w.g.isHelper l

/-- CVT (R115, R116). -/
def execCvt (h : Hdr) (d a : Opnd) (dt st : NumTy) (rm : RndE) (sat : Bool) (s : State) :=
  runWord (.cvt h d a dt st rm sat) s fun w =>
    if rm = .rnef then
      match fmtOf dt with
      | some f =>
        let r := chain (rnefStep f sat) w.chainHelper (w.ex.map (fun l => (l, [w.g.cvtSrc l st a]))) 0
        w.putF d (fun l => ((kget r l).getD []).headD 0)
      | none => w
    else
      let v := fun l => placeTy dt (cvtVal dt st (rndOf rm) sat (w.g.cvtSrc l st a))
      if is64 dt then w.put2 d (fun l => BitVec.ofNat 64 (v l)) else w.putF d v

/-- The elements CVTP converts in a lane (R119): first A's registers, then B's. -/
def cvtpElems (g : Group) (n l : Nat) (a b : Opnd) : List Nat :=
  (List.range (n / 2)).map (fun j => (g.rdj l j a).toNat) ++ (List.range (n / 2)).map (fun j => (g.rdj l j b).toNat)

/-- CVTP (R119). -/
def execCvtp (h : Hdr) (d a b : Opnd) (dt : NumTy) (rm : RndE) (sat : Bool) (s : State) :=
  runWord (.cvtp h d a b dt rm sat) s fun w =>
    let n := unpkN dt
    let el := fun l => cvtpElems w.g n l a b
    if rm = .rnef then
      match fmtOf dt with
      | some f =>
        let r := chain (rnefStep f sat) w.chainHelper (w.ex.map (fun l => (l, el l))) 0
        w.putF d (fun l => packCodes (tyBits dt) ((kget r l).getD []))
      | none => w
    else w.putF d (fun l => packCodes (tyBits dt) ((el l).map (cvtVal dt .fp32 (rndOf rm) sat)))

/-- A packed source of UNPK: an immediate of a 16-bit type stands in both halves (R31). -/
def Group.unpkSrc (g : Group) (l : Nat) (st : NumTy) (a : Opnd) : Nat :=
  match a with
  | .imm i => (match fmtOf st with
    | some f => g.h2 f l a
    | none => let c := (i.toInt % 2 ^ 16).toNat; c + c * 2 ^ 16)
  | _ => (g.rd l a).toNat

/-- UNPK (R120). -/
def execUnpk (h : Hdr) (d a : Opnd) (st : NumTy) (s : State) := runWord (.unpk h d a st) s fun w =>
  let el := fun (i l : Nat) => elem (tyBits st) i (w.g.unpkSrc l st a)
  w.fix (dstCellsN d (unpkN st) w.ex (fun i l =>
    match fmtOf st with
    | some f => BitVec.ofNat 32 (f.toFp32 (el i l))
    | none => narrow (tyInt st (el i l))))

/-- The largest magnitude code among FP32 codes, NaNs skipped; 0 if there is none. -/
def amaxOf (l : List Nat) : Nat := l.foldl (fun m c => if (fp32.val c).isNan then m else max m (c % 2 ^ 31)) 0

/-- One element of QBLK (R121): the code and the new carry. -/
def qblkStep (scale carry x : Nat) : Nat × Nat :=
  if scale = 0 then (0, carry)
  else if (fp32.val x).isNan then (e4m3.code (fp32.neg x) 0x7F, 0)
  else if scale = fp32.infCode then (e4m3.code (fp32.neg x) (if (fp32.val x).isInf then 0x7E else 0), carry)
  else rnefStep e4m3 false carry (fp32.div .rn x scale)

/-- QBLK (R121): codes and scale complete 16 clk after issue. -/
def execQblk (h : Hdr) (d a b : Opnd) (s : State) := runWord (.qblk h d a b) s fun w =>
  let el := fun l => (List.range 4).map (fun j => (w.g.rdj l j a).toNat)
  let amax := amaxOf (w.parts.flatMap el)
  let scale := fp32.div .rn amax 0x43E00000
  let r := chain (qblkStep scale) (fun _ => false) (w.parts.map (fun l => (l, el l))) 0
  let codes := fun l => BitVec.ofNat 32 (packCodes 8 ((kget r l).getD []))
  w.var (dstCells d 0 w.ex codes ++ dstCells b 0 w.ex (fun _ => BitVec.ofNat 32 scale)) (w.clk + 16) false

/-- The block scale exponent of MXQ (R122): none where the block holds a NaN or an infinity. -/
def mxScale (l : List Nat) : Option Int :=
  if l.any (fun c => (fp32.val c).isNan || (fp32.val c).isInf) then none
  else match fp32.val (amaxOf l) with
    | .fin _ m e => some (if m = 0 then -127 else max (e + (Nat.log2 m : Int) - 2) (-127))
    | _ => none

/-- A value times a power of two, exactly. -/
def FVal.scale (v : FVal) (k : Int) : FVal :=
  match v with
  | .fin n m e => .fin n m (e + k)
  | x => x

/-- One element of MXQ.RNEF (R122): the step of R106 with the scaled rounding. -/
def mxStep (se : Int) (carry x : Nat) : Nat × Nat :=
  let s := if carry = 0 then x else fp32.add .rn x carry
  match fp32.val s with
  | .fin n m e =>
    let q := e2m1.round .rn true (.fin n m (e - se))
    (q, fp32.round .rn false (addV .rn (.fin n m e) ((e2m1.val q).scale se).neg))
  | v => (e2m1.code v.sign 7, 0)

/-- MXQ's codes and scale for each lane, quad by quad (R122). -/
def mxqRun (rnef : Bool) (g : Group) (ex parts : List Nat) (a : Opnd) : List Nat → Nat → List (Nat × Nat × Nat)
  | [], _ => []
  | q :: t, carry =>
    let el := fun l => (List.range 8).map (fun j => (g.rdj l j a).toNat)
    let lanes := ex.filter (fun l => decide (l / 4 = q))
    let p := parts.filter (fun l => decide (l / 4 = q))
    match mxScale (p.flatMap el) with
    | none => lanes.map (fun l => (l, 0, 0xFF)) ++ mxqRun rnef g ex parts a t carry
    | some se =>
      let step : Nat → Nat → Nat × Nat := fun c x =>
        if rnef then mxStep se c x else (e2m1.round .rn true ((fp32.val x).scale (-se)), c)
      let r := p.foldl (fun (acc : List (Nat × Nat) × Nat) l =>
        let o := (el l).foldl (fun (y : List Nat × Nat) x => let z := step y.2 x; (y.1 ++ [z.1], z.2)) ([], acc.2)
        (acc.1 ++ [(l, packCodes 4 o.1)], o.2)) ([], carry)
      lanes.map (fun l => (l, (kget r.1 l).getD 0, (se + 127).toNat)) ++ mxqRun rnef g ex parts a t r.2

/-- MXQ (R122). -/
def execMxq (h : Hdr) (d a b : Opnd) (rnef : Bool) (s : State) := runWord (.mxq h d a b rnef) s fun w =>
  let r := mxqRun rnef w.g w.ex w.parts a [0, 1, 2, 3, 4, 5, 6, 7] 0
  w.fix (dstCells d 0 w.ex (fun l => BitVec.ofNat 32 ((kget r l).getD (0, 0)).1) ++
    dstCells b 0 w.ex (fun l => BitVec.ofNat 32 ((kget r l).getD (0, 0)).2))

/-- One level of FRED's tree (R123). -/
def fredLevel (f : Nat → Nat → Nat) : List Nat → List Nat
  | a :: b :: t => f a b :: fredLevel f t
  | l => l

/-- FRED (R123): the fixed tree over the 32 leaves. -/
def execFred (h : Hdr) (d a : Opnd) (o : FRedOp) (r : Rnd) (s : State) := runWord (.fred h d a o r) s fun w =>
  let f : Nat → Nat → Nat := match o with
    | .add => fp32.add r
    | .min => fminMax false false
    | .max => fminMax true false
  let id : Nat := match o with
    | .add => 0x80000000
    | .min => 0x7F800000
    | .max => 0xFF800000
  let leaves := lanes32.map (fun l => if w.parts.contains l then w.g.f32 l a else id)
  let top := (fredLevel f (fredLevel f (fredLevel f (fredLevel f (fredLevel f leaves))))).headD id
  w.putF d (fun _ => top)

/-- A half's value in a lane, from its destination's old value and its source (R43). -/
def halfVal (g : Group) (x : Half) (l : Nat) : Word :=
  let d := g.rd l x.d
  let a := g.rd l x.a
  let n : Nat → Word := BitVec.ofNat 32
  match x.op with
  | .mov => a
  | .iadd => d + a
  | .isub => d - a
  | .and => d &&& a
  | .or => d ||| a
  | .xor => d ^^^ a
  | .shl => n (shlVal 32 d.toNat a.toNat)
  | .shr => n (shrVal 32 d.toNat a.toNat)
  | .sar => narrow (sarVal 32 d.toNat a.toNat)
  | .imin => if sval d ≤ sval a then d else a
  | .imax => if sval d ≥ sval a then d else a
  | .imul => d * a
  | .fadd => n (fp32.add .rn d.toNat (g.f32 l x.a))
  | .fsub => n (fp32.add .rn d.toNat (fmod false true (g.f32 l x.a)))
  | .fmul => n (fp32.mul .rn d.toNat (g.f32 l x.a))
  | .fmin => n (fminMax false false d.toNat (g.f32 l x.a))
  | .fmax => n (fminMax true false d.toNat (g.f32 l x.a))
  | .hadd2 => let y := g.h2 fp16 l x.a; pack2 (fp16.add .rn (elem 16 0 d.toNat) (elem 16 0 y)) (fp16.add .rn (elem 16 1 d.toNat) (elem 16 1 y))
  | .hmul2 => let y := g.h2 fp16 l x.a; pack2 (fp16.mul .rn (elem 16 0 d.toNat) (elem 16 0 y)) (fp16.mul .rn (elem 16 1 d.toNat) (elem 16 1 y))
  | .badd2 => let y := g.h2 bf16 l x.a; pack2 (bf16.add .rn (elem 16 0 d.toNat) (elem 16 0 y)) (bf16.add .rn (elem 16 1 d.toNat) (elem 16 1 y))
  | .bmul2 => let y := g.h2 bf16 l x.a; pack2 (bf16.mul .rn (elem 16 0 d.toNat) (elem 16 0 y)) (bf16.mul .rn (elem 16 1 d.toNat) (elem 16 1 y))
  | .popc => n (popNat 32 a.toNat)
  | .cvtFI => n (cvtVal .fp32 .int32 .rn false a.toNat)
  | .cvtIF => n (cvtVal .int32 .fp32 .rz false (g.f32 l x.a))

/-- The lanes a half executes in (R43): once for an S destination, otherwise where its guard holds. -/
def halfLanes (w : W) (x : Half) : List Nat :=
  if halfUni x then [0] else (lanesOf w.act).filter (fun l => w.g.pred (.p x.g) l)

/-- The cells a half reads, for the early-read check. -/
def halfKeys (g : Group) (act : List Nat) (x : Half) : List Nat :=
  let ex := if halfUni x then [0] else act.filter (fun l => g.pred (.p x.g) l)
  (if x.g = 7 then [] else regKeys act (pReg x.g.val)) ++
  ((halfUses x).filter (fun u => u.rd)).flatMap (fun u => (useRegs u).flatMap (regKeys ex))

/-- A pair word (R43): both halves read before either writes. -/
def execPairWord (e : Bool) (stall : Fin 8) (h0 h1 : Half) (s : State) :=
  runWordX (.pairWord e stall h0 h1) (fun g ex => halfKeys g ex h0 ++ halfKeys g ex h1) s fun w =>
    let one := fun (w : W) (x : Half) => w.fixL (halfLat x.op) (dstCells x.d 0 (halfLanes w x) (halfVal w.g x))
    one (one w h0) h1

end Sys2Proof.Machine
end

