-- ==== Sys2Proof/Machine/Hash.lean ====
section
/-! DEFINITION. The functions R424 and R425 name by their standards, which the spec does not restate: SHA-512 and SHA-384 (FIPS
180-4), MGF1 and the RSA-4096 PSS verification (RFC 8017) (PRESUMED, log 15). -/

namespace Sys2Proof.Machine

/-- The round constants of SHA-512. -/
def shaK1 : List Nat :=
  [0x428A2F98D728AE22, 0x7137449123EF65CD, 0xB5C0FBCFEC4D3B2F, 0xE9B5DBA58189DBBC,
   0x3956C25BF348B538, 0x59F111F1B605D019, 0x923F82A4AF194F9B, 0xAB1C5ED5DA6D8118,
   0xD807AA98A3030242, 0x12835B0145706FBE, 0x243185BE4EE4B28C, 0x550C7DC3D5FFB4E2,
   0x72BE5D74F27B896F, 0x80DEB1FE3B1696B1, 0x9BDC06A725C71235, 0xC19BF174CF692694,
   0xE49B69C19EF14AD2, 0xEFBE4786384F25E3, 0x0FC19DC68B8CD5B5, 0x240CA1CC77AC9C65,
   0x2DE92C6F592B0275, 0x4A7484AA6EA6E483, 0x5CB0A9DCBD41FBD4, 0x76F988DA831153B5,
   0x983E5152EE66DFAB, 0xA831C66D2DB43210, 0xB00327C898FB213F, 0xBF597FC7BEEF0EE4,
   0xC6E00BF33DA88FC2, 0xD5A79147930AA725, 0x06CA6351E003826F, 0x142929670A0E6E70,
   0x27B70A8546D22FFC, 0x2E1B21385C26C926, 0x4D2C6DFC5AC42AED, 0x53380D139D95B3DF,
   0x650A73548BAF63DE, 0x766A0ABB3C77B2A8, 0x81C2C92E47EDAEE6, 0x92722C851482353B]
def shaK2 : List Nat :=
  [0xA2BFE8A14CF10364, 0xA81A664BBC423001, 0xC24B8B70D0F89791, 0xC76C51A30654BE30,
   0xD192E819D6EF5218, 0xD69906245565A910, 0xF40E35855771202A, 0x106AA07032BBD1B8,
   0x19A4C116B8D2D0C8, 0x1E376C085141AB53, 0x2748774CDF8EEB99, 0x34B0BCB5E19B48A8,
   0x391C0CB3C5C95A63, 0x4ED8AA4AE3418ACB, 0x5B9CCA4F7763E373, 0x682E6FF3D6B2B8A3,
   0x748F82EE5DEFB2FC, 0x78A5636F43172F60, 0x84C87814A1F0AB72, 0x8CC702081A6439EC,
   0x90BEFFFA23631E28, 0xA4506CEBDE82BDE9, 0xBEF9A3F7B2C67915, 0xC67178F2E372532B,
   0xCA273ECEEA26619C, 0xD186B8C721C0C207, 0xEADA7DD6CDE0EB1E, 0xF57D4F7FEE6ED178,
   0x06F067AA72176FBA, 0x0A637DC5A2C898A6, 0x113F9804BEF90DAE, 0x1B710B35131C471B,
   0x28DB77F523047D84, 0x32CAAB7B40C72493, 0x3C9EBE0A15C9BEBC, 0x431D67C49C100D4C,
   0x4CC5D4BECB3E42B6, 0x597F299CFC657E2A, 0x5FCB6FAB3AD6FAEC, 0x6C44198C4A475817]
/-- The initial hash values of SHA-512 and SHA-384. -/
def sha512Init : List DWord :=
  [0x6A09E667F3BCC908, 0xBB67AE8584CAA73B, 0x3C6EF372FE94F82B, 0xA54FF53A5F1D36F1,
   0x510E527FADE682D1, 0x9B05688C2B3E6C1F, 0x1F83D9ABFB41BD6B, 0x5BE0CD19137E2179]
def sha384Init : List DWord :=
  [0xCBBB9D5DC1059ED8, 0x629A292A367CD507, 0x9159015A3070DD17, 0x152FECD8F70E5939,
   0x67332667FFC00B31, 0x8EB44A8768581511, 0xDB0C2E0D64F98FA7, 0x47B5481DBEFA4FA4]

/-- A big-endian number of bytes, and its bytes. -/
def beNat (l : List Byte) : Nat := l.foldl (fun n b => n * 256 + b.toNat) 0
def beBytes (n x : Nat) : List Byte := (toBytes n x).reverse

def shaRotr (x : DWord) (n : Nat) : DWord := (x >>> n) ||| (x <<< (64 - n))
def shaBig0 (x : DWord) : DWord := shaRotr x 28 ^^^ shaRotr x 34 ^^^ shaRotr x 39
def shaBig1 (x : DWord) : DWord := shaRotr x 14 ^^^ shaRotr x 18 ^^^ shaRotr x 41
def shaSmall0 (x : DWord) : DWord := shaRotr x 1 ^^^ shaRotr x 8 ^^^ (x >>> 7)
def shaSmall1 (x : DWord) : DWord := shaRotr x 19 ^^^ shaRotr x 61 ^^^ (x >>> 6)

/-- The message schedule, newest word first: `n` words more. -/
def shaSchedule : Nat → List DWord → List DWord
  | 0, w => w
  | n + 1, w => shaSchedule n ((shaSmall1 (w.getD 1 0) + w.getD 6 0 + shaSmall0 (w.getD 14 0) + w.getD 15 0) :: w)

/-- One round on the eight working values. -/
def shaRound (v : List DWord) (k w : DWord) : List DWord :=
  match v with
  | [a, b, c, d, e, f, g, h] =>
    let t1 := h + shaBig1 e + ((e &&& f) ^^^ (~~~e &&& g)) + k + w
    let t2 := shaBig0 a + ((a &&& b) ^^^ (a &&& c) ^^^ (b &&& c))
    [t1 + t2, a, b, c, d + t1, e, f, g]
  | v => v

/-- One block of 128 bytes. -/
def shaBlock (h : List DWord) (b : List Byte) : List DWord :=
  let w0 := ((List.range 16).map (fun i => BitVec.ofNat 64 (beNat ((b.drop (8 * i)).take 8)))).reverse
  let w := (shaSchedule 64 w0).reverse
  let v := (w.zip (shaK1 ++ shaK2)).foldl (fun v x => shaRound v (BitVec.ofNat 64 x.2) x.1) h
  (h.zip v).map (fun x => x.1 + x.2)

/-- The blocks of a padded message. -/
def shaBlocks : Nat → List DWord → List Byte → List DWord
  | 0, h, _ => h
  | n + 1, h, m => shaBlocks n (shaBlock h (m.take 128)) (m.drop 128)

/-- A hash from its initial values. -/
def shaFrom (init : List DWord) (m : List Byte) : List Byte :=
  let z := (239 - m.length % 128) % 128
  let p := m ++ 0x80#8 :: List.replicate z 0 ++ beBytes 16 (8 * m.length)
  (shaBlocks (p.length / 128) init p).flatMap (fun x => beBytes 8 x.toNat)

/-- SHA-512: 64 bytes. -/
def sha512 (m : List Byte) : List Byte := shaFrom sha512Init m
/-- SHA-384: 48 bytes. -/
def sha384 (m : List Byte) : List Byte := (shaFrom sha384Init m).take 48

/-- A power modulo a number, by the exponent's bits from the lowest. -/
def powMod (m : Nat) : Nat → Nat → Nat → Nat → Nat
  | 0, acc, _, _ => acc
  | n + 1, acc, b, e => powMod m n (if e % 2 = 1 then acc * b % m else acc) (b * b % m) (e / 2)

/-- MGF1 with SHA-512: `n` hash outputs. -/
def mgf1 (seed : List Byte) (n : Nat) : List Byte := (List.range n).flatMap (fun i => sha512 (seed ++ beBytes 4 i))

/-- EMSA-PSS with SHA-512, MGF1 with SHA-512 and a 64-byte salt, on an encoded message of 512 bytes and 4,095 bits. -/
def pssOk (msg em : List Byte) : Bool :=
  let masked := em.take 447
  let h := (em.drop 447).take 64
  let mask := mgf1 h 7
  let db0 : List Byte := (masked.zip mask).map (fun x => x.1 ^^^ x.2)
  let db : List Byte := match db0 with
    | b :: t => (b &&& 0x7F#8) :: t
    | [] => []
  decide (em.drop 511 = [0xBC#8]) && decide ((masked.headD 0) &&& 0x80#8 = 0) && decide (db.take 382 = List.replicate 382 0) &&
    decide ((db.drop 382).take 1 = [0x01#8]) && decide (sha512 (List.replicate 8 0 ++ sha512 msg ++ db.drop 383) = h)

/-- RSA-4096 PSS: a signature over a message by a key given as modulus and exponent (R424). -/
def rsaPssOk (modulus exponent sig msg : List Byte) : Bool :=
  let n := beNat modulus
  let x := beNat sig
  decide (2 ^ 4095 ≤ n) && decide (x < n) && pssOk msg (beBytes 512 (powMod n 32 1 x (beNat exponent)))

end Sys2Proof.Machine
end

