-- ==== Sys2Proof/WellFormed.lean ====
section
/-! DEFINITION. Well-formed instructions: the words that exist as encodings (R29–R35 and R44, judged from the word alone).
What R46 asks beside this (the group's allocation, its level, the kind of core) is judged when the word is reached, in
Machine/Legal.lean. -/

namespace Sys2Proof

/-- An instruction that has an encoding: its operands, modifiers and, for a pair, its halves obey the rules that depend on
the word alone. Events have no word. -/
def Instr.wf (i : Instr) : Bool := Machine.wordOk i

/-- Why a 64-bit value is no instruction (R46). -/
inductive Reject where
  /-- F = 11. -/
  | reservedFormat
  /-- OP is unassigned, or the wide format is used with an opcode not marked W, or a field holds a code no value has. -/
  | unassigned
  /-- M2, M4 or M14 holds a value the entry does not assign (R29). -/
  | modifier
  /-- An operand breaks R30 to R35, a pair breaks R44, or the entry forbids the combination. -/
  | operand
  deriving DecidableEq, Repr

end Sys2Proof
end

