-- ==== Sys2Proof/Decode.lean ====
section
/-! DEFINITION. The encodings of R28 and the class chapters: `decodeWord` reads a 64-bit value, total on every value and
rejecting by name, and `encode` writes the word of a well-formed instruction. -/

namespace Sys2Proof

open Machine

/-- A flag as a bit. -/
def b2n (b : Bool) : Nat := if b then 1 else 0

/-- A number as an index below a bound. -/
def finOf (k : Nat) (h : 0 < k) (n : Nat) : Option (Fin k) := if n < k then some ⟨n % k, Nat.mod_lt n h⟩ else none

/-- The code of a value of Sat (R55). -/
def satC : Sat → Nat
  | .wrap => 0
  | .sat => 1
  | .satu => 2

/-- The value of Sat a code names (R55). -/
def satOf : Nat → Option Sat
  | 0 => some .wrap
  | 1 => some .sat
  | 2 => some .satu
  | _ => none

/-- The code of a value of LeaForm (R66). -/
def leaFormC : LeaForm → Nat
  | .tag => 0
  | .full => 1
  | .w32 => 2

/-- The value of LeaForm a code names (R66). -/
def leaFormOf : Nat → Option LeaForm
  | 0 => some .tag
  | 1 => some .full
  | 2 => some .w32
  | _ => none

/-- The code of a value of ICond (R63). -/
def icondC : ICond → Nat
  | .eq => 0
  | .ne => 1
  | .lt => 2
  | .le => 3
  | .gt => 4
  | .ge => 5
  | .ltu => 6
  | .leu => 7
  | .gtu => 8
  | .geu => 9

/-- The value of ICond a code names (R63). -/
def icondOf : Nat → Option ICond
  | 0 => some .eq
  | 1 => some .ne
  | 2 => some .lt
  | 3 => some .le
  | 4 => some .gt
  | 5 => some .ge
  | 6 => some .ltu
  | 7 => some .leu
  | 8 => some .gtu
  | 9 => some .geu
  | _ => none

/-- The code of a value of FCond (R110). -/
def fcondC : FCond → Nat
  | .eq => 0
  | .ne => 1
  | .lt => 2
  | .le => 3
  | .gt => 4
  | .ge => 5
  | .num => 6
  | .nan => 7
  | .ltu => 8
  | .leu => 9
  | .gtu => 10
  | .geu => 11
  | .equ => 12
  | .lg => 13

/-- The value of FCond a code names (R110). -/
def fcondOf : Nat → Option FCond
  | 0 => some .eq
  | 1 => some .ne
  | 2 => some .lt
  | 3 => some .le
  | 4 => some .gt
  | 5 => some .ge
  | 6 => some .num
  | 7 => some .nan
  | 8 => some .ltu
  | 9 => some .leu
  | 10 => some .gtu
  | 11 => some .geu
  | 12 => some .equ
  | 13 => some .lg
  | _ => none

/-- The code of a value of Comb (R63). -/
def combC : Comb → Nat
  | .none => 0
  | .and => 1
  | .or => 2
  | .xor => 3

/-- The value of Comb a code names (R63). -/
def combOf : Nat → Option Comb
  | 0 => some .none
  | 1 => some .and
  | 2 => some .or
  | 3 => some .xor
  | _ => none

/-- The code of a value of QMode (R68). -/
def qmodeC : QMode → Nat
  | .xh => 0
  | .xv => 1
  | .xd => 2
  | .b0 => 3
  | .b1 => 4
  | .b2 => 5
  | .b3 => 6

/-- The value of QMode a code names (R68). -/
def qmodeOf : Nat → Option QMode
  | 0 => some .xh
  | 1 => some .xv
  | 2 => some .xd
  | 3 => some .b0
  | 4 => some .b1
  | 5 => some .b2
  | 6 => some .b3
  | _ => none

/-- The code of a value of ShMode (R69). -/
def shmodeC : ShMode → Nat
  | .idx => 0
  | .up => 1
  | .down => 2
  | .xor => 3

/-- The value of ShMode a code names (R69). -/
def shmodeOf : Nat → Option ShMode
  | 0 => some .idx
  | 1 => some .up
  | 2 => some .down
  | 3 => some .xor
  | _ => none

/-- The code of a value of VMode (R70). -/
def vmodeC : VMode → Nat
  | .all => 0
  | .any => 1
  | .uni => 2

/-- The value of VMode a code names (R70). -/
def vmodeOf : Nat → Option VMode
  | 0 => some .all
  | 1 => some .any
  | 2 => some .uni
  | _ => none

/-- The code of a value of RedOp (R74). -/
def redopC : RedOp → Nat
  | .add => 0
  | .min => 1
  | .max => 2
  | .minu => 3
  | .maxu => 4
  | .and => 5
  | .or => 6
  | .xor => 7

/-- The value of RedOp a code names (R74). -/
def redopOf : Nat → Option RedOp
  | 0 => some .add
  | 1 => some .min
  | 2 => some .max
  | 3 => some .minu
  | 4 => some .maxu
  | 5 => some .and
  | 6 => some .or
  | 7 => some .xor
  | _ => none

/-- The code of a value of MaskKind (R75). -/
def maskKindC : MaskKind → Nat
  | .act => 0
  | .live => 1
  | .help => 2

/-- The value of MaskKind a code names (R75). -/
def maskKindOf : Nat → Option MaskKind
  | 0 => some .act
  | 1 => some .live
  | 2 => some .help
  | _ => none

/-- The code of a value of HalfOp (R43). -/
def halfopC : HalfOp → Nat
  | .mov => 0
  | .iadd => 1
  | .isub => 2
  | .and => 3
  | .or => 4
  | .xor => 5
  | .shl => 6
  | .shr => 7
  | .sar => 8
  | .imin => 9
  | .imax => 10
  | .imul => 11
  | .fadd => 12
  | .fsub => 13
  | .fmul => 14
  | .fmin => 15
  | .fmax => 16
  | .hadd2 => 17
  | .hmul2 => 18
  | .badd2 => 19
  | .bmul2 => 20
  | .popc => 21
  | .cvtFI => 22
  | .cvtIF => 23

/-- The value of HalfOp a code names (R43). -/
def halfopOf : Nat → Option HalfOp
  | 0 => some .mov
  | 1 => some .iadd
  | 2 => some .isub
  | 3 => some .and
  | 4 => some .or
  | 5 => some .xor
  | 6 => some .shl
  | 7 => some .shr
  | 8 => some .sar
  | 9 => some .imin
  | 10 => some .imax
  | 11 => some .imul
  | 12 => some .fadd
  | 13 => some .fsub
  | 14 => some .fmul
  | 15 => some .fmin
  | 16 => some .fmax
  | 17 => some .hadd2
  | 18 => some .hmul2
  | 19 => some .badd2
  | 20 => some .bmul2
  | 21 => some .popc
  | 22 => some .cvtFI
  | 23 => some .cvtIF
  | _ => none

/-- The code of a value of StkSize (R81). -/
def stkSizeC : StkSize → Nat
  | .b32 => 0
  | .b64 => 1
  | .b128 => 2

/-- The value of StkSize a code names (R81). -/
def stkSizeOf : Nat → Option StkSize
  | 0 => some .b32
  | 1 => some .b64
  | 2 => some .b128
  | _ => none

/-- The code of a value of Rnd (R104). -/
def rndC : Rnd → Nat
  | .rn => 0
  | .rz => 1
  | .ru => 2
  | .rd => 3

/-- The value of Rnd a code names (R104). -/
def rndOf : Nat → Option Rnd
  | 0 => some .rn
  | 1 => some .rz
  | 2 => some .ru
  | 3 => some .rd
  | _ => none

/-- The code of a value of RndE (R104). -/
def rndeC : RndE → Nat
  | .rn => 0
  | .rz => 1
  | .ru => 2
  | .rd => 3
  | .rnef => 4

/-- The value of RndE a code names (R104). -/
def rndeOf : Nat → Option RndE
  | 0 => some .rn
  | 1 => some .rz
  | 2 => some .ru
  | 3 => some .rd
  | 4 => some .rnef
  | _ => none

/-- The code of a value of NumTy (R115). -/
def numtyC : NumTy → Nat
  | .fp32 => 0
  | .fp16 => 1
  | .bf16 => 2
  | .e4m3 => 3
  | .e5m2 => 4
  | .e2m1 => 5
  | .e8m0 => 6
  | .int4 => 8
  | .uint4 => 9
  | .int8 => 10
  | .uint8 => 11
  | .int16 => 12
  | .uint16 => 13
  | .int32 => 14
  | .uint32 => 15
  | .int64 => 16
  | .uint64 => 17

/-- The value of NumTy a code names (R115). -/
def numtyOf : Nat → Option NumTy
  | 0 => some .fp32
  | 1 => some .fp16
  | 2 => some .bf16
  | 3 => some .e4m3
  | 4 => some .e5m2
  | 5 => some .e2m1
  | 6 => some .e8m0
  | 8 => some .int4
  | 9 => some .uint4
  | 10 => some .int8
  | 11 => some .uint8
  | 12 => some .int16
  | 13 => some .uint16
  | 14 => some .int32
  | 15 => some .uint32
  | 16 => some .int64
  | 17 => some .uint64
  | _ => none

/-- The code of a value of Space (R124). -/
def spaceC : Space → Nat
  | .g => 0
  | .c => 1
  | .k => 2
  | .d => 3
  | .l => 4

/-- The value of Space a code names (R124). -/
def spaceOf : Nat → Option Space
  | 0 => some .g
  | 1 => some .c
  | 2 => some .k
  | 3 => some .d
  | 4 => some .l
  | _ => none

/-- The code of a value of MSize (R129). -/
def msizeC : MSize → Nat
  | .b32 => 0
  | .b8 => 1
  | .b16 => 2
  | .b64 => 3
  | .b128 => 4

/-- The value of MSize a code names (R129). -/
def msizeOf : Nat → Option MSize
  | 0 => some .b32
  | 1 => some .b8
  | 2 => some .b16
  | 3 => some .b64
  | 4 => some .b128
  | _ => none

/-- The code of a value of Pol (R129). -/
def polC : Pol → Nat
  | .keep => 0
  | .stream => 1
  | .bypass => 2

/-- The value of Pol a code names (R129). -/
def polOf : Nat → Option Pol
  | 0 => some .keep
  | 1 => some .stream
  | 2 => some .bypass
  | _ => none

/-- The code of a value of PLvl (R142). -/
def plvlC : PLvl → Nat
  | .l1 => 0
  | .l2 => 1
  | .llc => 2

/-- The value of PLvl a code names (R142). -/
def plvlOf : Nat → Option PLvl
  | 0 => some .l1
  | 1 => some .l2
  | 2 => some .llc
  | _ => none

/-- The code of a value of AOp (R182). -/
def aopC : AOp → Nat
  | .xchg => 0
  | .add => 1
  | .and => 2
  | .or => 3
  | .xor => 4
  | .min => 5
  | .max => 6
  | .minu => 7
  | .maxu => 8
  | .inc => 9
  | .dec => 10

/-- The value of AOp a code names (R182). -/
def aopOf : Nat → Option AOp
  | 0 => some .xchg
  | 1 => some .add
  | 2 => some .and
  | 3 => some .or
  | 4 => some .xor
  | 5 => some .min
  | 6 => some .max
  | 7 => some .minu
  | 8 => some .maxu
  | 9 => some .inc
  | 10 => some .dec
  | _ => none

/-- The code of a value of FAOp (R184). -/
def faopC : FAOp → Nat
  | .add => 0
  | .min => 1
  | .max => 2
  | .addh2 => 3
  | .addb2 => 4

/-- The value of FAOp a code names (R184). -/
def faopOf : Nat → Option FAOp
  | 0 => some .add
  | 1 => some .min
  | 2 => some .max
  | 3 => some .addh2
  | 4 => some .addb2
  | _ => none

/-- The code of a value of AOrd (R180). -/
def aordC : AOrd → Nat
  | .rlx => 0
  | .acq => 1
  | .rel => 2
  | .ar => 3
  | .sc => 4

/-- The value of AOrd a code names (R180). -/
def aordOf : Nat → Option AOrd
  | 0 => some .rlx
  | 1 => some .acq
  | 2 => some .rel
  | 3 => some .ar
  | 4 => some .sc
  | _ => none

/-- The code of a value of Scope (R179). -/
def scopeC : Scope → Nat
  | .pkg => 0
  | .grp => 1
  | .team => 2
  | .clu => 3
  | .die => 4
  | .sys => 5

/-- The value of Scope a code names (R179). -/
def scopeOf : Nat → Option Scope
  | 0 => some .pkg
  | 1 => some .grp
  | 2 => some .team
  | 3 => some .clu
  | 4 => some .die
  | 5 => some .sys
  | _ => none

/-- The code of a value of FOrd (R191). -/
def fordC : FOrd → Nat
  | .sc => 0
  | .acq => 1
  | .rel => 2
  | .ar => 3

/-- The value of FOrd a code names (R191). -/
def fordOf : Nat → Option FOrd
  | 0 => some .sc
  | 1 => some .acq
  | 2 => some .rel
  | 3 => some .ar
  | _ => none

/-- The code of a value of FxMode (R192). -/
def fxmodeC : FxMode → Nat
  | .io => 0
  | .out => 1
  | .inn => 2

/-- The value of FxMode a code names (R192). -/
def fxmodeOf : Nat → Option FxMode
  | 0 => some .io
  | 1 => some .out
  | 2 => some .inn
  | _ => none

/-- The code of a value of BarCls (R210). -/
def barclsC : BarCls → Nat
  | .team => 0
  | .cluster => 1

/-- The value of BarCls a code names (R210). -/
def barclsOf : Nat → Option BarCls
  | 0 => some .team
  | 1 => some .cluster
  | _ => none

/-- The code of a value of WCond (R217). -/
def wcondC : WCond → Nat
  | .eq => 0
  | .ne => 1
  | .lt => 2
  | .ge => 3

/-- The value of WCond a code names (R217). -/
def wcondOf : Nat → Option WCond
  | 0 => some .eq
  | 1 => some .ne
  | 2 => some .lt
  | 3 => some .ge
  | _ => none

/-- The code of a value of MmaTy (R248). -/
def mmatyC : MmaTy → Nat
  | .bf16 => 0
  | .fp16 => 1
  | .e4m3 => 2
  | .e5m2 => 3
  | .e4m3e5m2 => 4
  | .e5m2e4m3 => 5
  | .int8 => 6
  | .uint8 => 7
  | .int8uint8 => 8
  | .uint8int8 => 9
  | .int4 => 10
  | .uint4 => 11
  | .int4uint4 => 12
  | .uint4int4 => 13

/-- The value of MmaTy a code names (R248). -/
def mmatyOf : Nat → Option MmaTy
  | 0 => some .bf16
  | 1 => some .fp16
  | 2 => some .e4m3
  | 3 => some .e5m2
  | 4 => some .e4m3e5m2
  | 5 => some .e5m2e4m3
  | 6 => some .int8
  | 7 => some .uint8
  | 8 => some .int8uint8
  | 9 => some .uint8int8
  | 10 => some .int4
  | 11 => some .uint4
  | 12 => some .int4uint4
  | 13 => some .uint4int4
  | _ => none

/-- The code of a value of FragKind (R254). -/
def fragkindC : FragKind → Nat
  | .fop => 0
  | .facc => 1
  | .fcpx => 2

/-- The value of FragKind a code names (R254). -/
def fragkindOf : Nat → Option FragKind
  | 0 => some .fop
  | 1 => some .facc
  | 2 => some .fcpx
  | _ => none

/-- The code of a value of FragEs (R254). -/
def fragesC : FragEs → Nat
  | .none => 0
  | .e4 => 1
  | .e8 => 2
  | .e16 => 3

/-- The value of FragEs a code names (R254). -/
def fragesOf : Nat → Option FragEs
  | 0 => some .none
  | 1 => some .e4
  | 2 => some .e8
  | 3 => some .e16
  | _ => none

/-- The code of a value of RecSize (R323). -/
def recsizeC : RecSize → Nat
  | .r32 => 0
  | .r16 => 1
  | .r64 => 2

/-- The value of RecSize a code names (R323). -/
def recsizeOf : Nat → Option RecSize
  | 0 => some .r32
  | 1 => some .r16
  | 2 => some .r64
  | _ => none

/-- The code of a value of FRedOp (R123). -/
def fredopC : FRedOp → Nat
  | .add => 0
  | .min => 1
  | .max => 2

/-- The value of FRedOp a code names (R123). -/
def fredopOf : Nat → Option FRedOp
  | 0 => some .add
  | 1 => some .min
  | 2 => some .max
  | _ => none

/-- The code of a value of SplitForm (R386). -/
def splitformC : SplitForm → Nat
  | .port => 0
  | .core => 1
  | .ctx => 2

/-- The value of SplitForm a code names (R386). -/
def splitformOf : Nat → Option SplitForm
  | 0 => some .port
  | 1 => some .core
  | 2 => some .ctx
  | _ => none

/-- The 10-bit value of an operand (R30). -/
def opndC : Opnd → Nat
  | .v n => n.val
  | .s n => 256 + n.val
  | .zero => 640
  | .lane => 641
  | .qlane => 642
  | .imm i => 768 + i.toNat

/-- The operand a 10-bit value names (R30). -/
def opndOf (n : Nat) : Option Opnd :=
  if n < 256 then some (.v ⟨n % 256, Nat.mod_lt n (by decide)⟩)
  else if n < 640 then some (.s ⟨(n - 256) % 384, Nat.mod_lt _ (by decide)⟩)
  else if n = 640 then some .zero
  else if n = 641 then some .lane
  else if n = 642 then some .qlane
  else if n < 768 then none
  else if n < 1024 then some (.imm (BitVec.ofNat 8 (n - 768)))
  else none

/-- The code of a predicate (R34). -/
def pcodeC : PCode → Nat
  | .p n => n.val
  | .q n => 8 + n.val

/-- The predicate a code names (R34). -/
def pcodeOf (n : Nat) : Option PCode :=
  if n < 8 then some (.p ⟨n % 8, Nat.mod_lt n (by decide)⟩)
  else if n < 16 then some (.q ⟨(n - 8) % 8, Nat.mod_lt _ (by decide)⟩)
  else none

/-- Bits [9:4] of M14 of a comparison (R63): COMB, CN, CI. -/
def pcombC (k : PComb) : Nat := combC k.comb + 4 * b2n k.cn + 8 * k.ci.val
/-- The combining fields of a comparison (R63). -/
def pcombOf (n : Nat) : Option PComb := do
  let c ← combOf (n % 4)
  let i ← finOf 8 (by decide) (n / 8)
  pure ⟨c, decide (n / 4 % 2 = 1), i⟩

/-- Bits [5:2] of M14 of the FP32 words (R107): .NEGA, .NEGB, .ABSA, .ABSB. -/
def fmodsC (m : FMods) : Nat := b2n m.nega + 2 * b2n m.negb + 4 * b2n m.absa + 8 * b2n m.absb
/-- The modifiers of the FP32 words (R107). -/
def fmodsOf (n : Nat) : Option FMods :=
  some ⟨decide (n % 2 = 1), decide (n / 2 % 2 = 1), decide (n / 4 % 2 = 1), decide (n / 8 % 2 = 1)⟩

/-- M14 of LD, ST, LDU and STU (R129). -/
def memmodC (m : MemMod) : Nat := 32 * polC m.pol + 128 * b2n m.sx + 256 * msizeC m.sz + 2048 * spaceC m.sp
/-- The modifiers of LD, ST, LDU and STU (R129). -/
def memmodOf (n : Nat) : Option MemMod := do
  let sp ← spaceOf (n / 2048)
  let sz ← msizeOf (n / 256 % 8)
  let pol ← polOf (n / 32 % 4)
  pure ⟨sp, sz, decide (n / 128 % 2 = 1), pol⟩

/-- Bits [13:4] of M14 of an atomic word (R180). -/
def atommodC (m : AtomMod) : Nat := scopeC m.scope + 8 * aordC m.ord + 64 * b2n m.w64 + 128 * spaceC m.sp
/-- The modifiers of an atomic word (R180). -/
def atommodOf (n : Nat) : Option AtomMod := do
  let sp ← spaceOf (n / 128)
  let o ← aordOf (n / 8 % 8)
  let sc ← scopeOf (n % 8)
  pure ⟨sp, decide (n / 64 % 2 = 1), o, sc⟩

/-- The modifier field of a watch word (R217). -/
def watchmodC (m : WatchMod) : Nat := b2n m.w64 + 2 * b2n m.un + 4 * wcondC m.cond
/-- The modifiers of a watch word (R217). -/
def watchmodOf (n : Nat) : Option WatchMod := do
  let c ← wcondOf (n / 4)
  pure ⟨c, decide (n / 2 % 2 = 1), decide (n % 2 = 1)⟩

/-- M14 of LDM and STM (R254). -/
def fragmodC (m : FragMod) : Nat := 64 * fragesC m.es + 256 * b2n m.t + 512 * fragkindC m.kind + 2048 * spaceC m.sp
/-- The modifiers of LDM and STM (R254). -/
def fragmodOf (n : Nat) : Option FragMod := do
  let sp ← spaceOf (n / 2048)
  let k ← fragkindOf (n / 512 % 4)
  let e ← fragesOf (n / 64 % 4)
  pure ⟨sp, k, decide (n / 256 % 2 = 1), e⟩

/-- The fields of a word by its format (R28). -/
structure Raw where
  h : Hdr
  op : Nat
  d : Nat
  a : Nat
  b : Nat
  x : Nat
  imm : Nat
  deriving DecidableEq, Repr

/-- The fields of a full or wide word (R28). -/
def rawOf (w : Nat) : Raw :=
  { h := ⟨decide (w / 2 ^ 61 % 2 = 1), ⟨w / 2 ^ 57 % 16, Nat.mod_lt _ (by decide)⟩, decide (w / 2 ^ 47 % 2 = 1),
      ⟨w / 2 ^ 44 % 8, Nat.mod_lt _ (by decide)⟩⟩,
    op := w / 2 ^ 48 % 512, d := w / 2 ^ 34 % 1024, a := w / 2 ^ 24 % 1024, b := w / 2 ^ 14 % 1024, x := w % 2 ^ 14,
    imm := w % 2 ^ 32 }

/-- Bits [63:32] but for the format and D, shared by the full and the wide format (R28). -/
def joinHdr (h : Hdr) (op d : Nat) : Nat :=
  b2n h.e * 2 ^ 61 + h.stall.val * 2 ^ 57 + op * 2 ^ 48 + b2n h.gn * 2 ^ 47 + h.gi.val * 2 ^ 44 + d * 2 ^ 34

/-- A full word (R28). -/
def joinFull (h : Hdr) (op d a b x : Nat) : Nat := joinHdr h op d + a * 2 ^ 24 + b * 2 ^ 14 + x

/-- A wide word (R28); M2 is zero in every word of R48. -/
def joinWide (h : Hdr) (op d imm : Nat) : Nat := 2 ^ 63 + joinHdr h op d + imm

/-- The 29 bits of a pair half (R28). -/
def halfC (x : Half) : Nat := halfopC x.op * 2 ^ 23 + x.g.val * 2 ^ 20 + opndC x.d * 2 ^ 10 + opndC x.a

/-- The half that 29 bits name (R28). -/
def halfOf (n : Nat) : Option Half := do
  let op ← halfopOf (n / 2 ^ 23)
  let d ← opndOf (n / 2 ^ 10 % 1024)
  let a ← opndOf (n % 1024)
  pure ⟨op, ⟨n / 2 ^ 20 % 8, Nat.mod_lt _ (by decide)⟩, d, a⟩

/-- A pair word (R28). -/
def joinPair (e : Bool) (stall : Fin 8) (h0 h1 : Half) : Nat :=
  2 ^ 62 + b2n e * 2 ^ 61 + stall.val * 2 ^ 58 + halfC h0 * 2 ^ 29 + halfC h1

/-- The instruction a pair word's fields name (R28, R43). -/
def candPair (w : Nat) : Option Instr := do
  let h0 ← halfOf (w / 2 ^ 29 % 2 ^ 29)
  let h1 ← halfOf (w % 2 ^ 29)
  pure (.pairWord (decide (w / 2 ^ 61 % 2 = 1)) ⟨w / 2 ^ 58 % 8, Nat.mod_lt _ (by decide)⟩ h0 h1)

/-- The all-ones word, which is illegal (R36): what `encode` gives an event, which has no word. -/
def noWord : Nat := 2 ^ 64 - 1

/-- Full-format words with opcodes 0x000–0x00F. -/
def full00 (raw : Raw) : Option Instr :=
  match raw.op % 16 with
  | 0 => do let d ← opndOf raw.d; let a ← opndOf raw.a; pure (.mov raw.h d a)
  | 1 => do let d ← opndOf raw.d; let a ← opndOf raw.a; let b ← opndOf raw.b; let m ← satOf (raw.x % 4); pure (.iadd raw.h d a b m)
  | 2 => do let d ← opndOf raw.d; let a ← opndOf raw.a; let b ← opndOf raw.b; pure (.iadd64 raw.h d a b)
  | 3 => do let d ← opndOf raw.d; let a ← opndOf raw.a; let b ← opndOf raw.b; let m ← satOf (raw.x % 4); pure (.isub raw.h d a b m)
  | 4 => do let d ← opndOf raw.d; let a ← opndOf raw.a; let b ← opndOf raw.b; pure (.isub64 raw.h d a b)
  | 5 => do let d ← opndOf raw.d; let a ← opndOf raw.a; let b ← opndOf raw.b; pure (.imul raw.h d a b)
  | 6 => do let d ← opndOf raw.d; let a ← opndOf raw.a; let b ← opndOf raw.b; pure (.imulh raw.h d a b)
  | 7 => do let d ← opndOf raw.d; let a ← opndOf raw.a; let b ← opndOf raw.b; pure (.imulhu raw.h d a b)
  | 8 => do let d ← opndOf raw.d; let a ← opndOf raw.a; let b ← opndOf raw.b; let c ← opndOf (raw.x / 16); pure (.imad raw.h d a b c)
  | 9 => do let d ← opndOf raw.d; let a ← opndOf raw.a; let b ← opndOf raw.b; let c ← opndOf (raw.x / 16); pure (.imadw raw.h d a b c (decide ((raw.x % 2) = 1)))
  | 10 => do let d ← opndOf raw.d; let a ← opndOf raw.a; let b ← opndOf raw.b; pure (.idiv raw.h d a b (decide ((raw.x % 2) = 1)))
  | 11 => do let d ← opndOf raw.d; let a ← opndOf raw.a; let b ← opndOf raw.b; pure (.irem raw.h d a b (decide ((raw.x % 2) = 1)))
  | 12 => do let d ← opndOf raw.d; let a ← opndOf raw.a; let b ← opndOf raw.b; pure (.imin raw.h d a b (decide ((raw.x % 2) = 1)))
  | 13 => do let d ← opndOf raw.d; let a ← opndOf raw.a; let b ← opndOf raw.b; pure (.imax raw.h d a b (decide ((raw.x % 2) = 1)))
  | 14 => do let d ← opndOf raw.d; let a ← opndOf raw.a; pure (.iabs raw.h d a (decide ((raw.x % 2) = 1)))
  | 15 => do let d ← opndOf raw.d; let a ← opndOf raw.a; let b ← opndOf raw.b; let c ← opndOf (raw.x / 16); pure (.isad raw.h d a b c (decide ((raw.x % 2) = 1)))
  | _ => none

/-- Full-format words with opcodes 0x010–0x01F. -/
def full01 (raw : Raw) : Option Instr :=
  match raw.op % 16 with
  | 0 => do let d ← opndOf raw.d; let a ← opndOf raw.a; let b ← opndOf raw.b; pure (.and raw.h d a b)
  | 1 => do let d ← opndOf raw.d; let a ← opndOf raw.a; let b ← opndOf raw.b; pure (.or raw.h d a b)
  | 2 => do let d ← opndOf raw.d; let a ← opndOf raw.a; let b ← opndOf raw.b; pure (.xor raw.h d a b)
  | 3 => do let d ← opndOf raw.d; let a ← opndOf raw.a; let b ← opndOf raw.b; pure (.andn raw.h d a b)
  | 4 => do let d ← opndOf raw.d; let a ← opndOf raw.a; let b ← opndOf raw.b; pure (.shl raw.h d a b)
  | 5 => do let d ← opndOf raw.d; let a ← opndOf raw.a; let b ← opndOf raw.b; pure (.shr raw.h d a b)
  | 6 => do let d ← opndOf raw.d; let a ← opndOf raw.a; let b ← opndOf raw.b; pure (.sar raw.h d a b)
  | 7 => do let d ← opndOf raw.d; let a ← opndOf raw.a; let b ← opndOf raw.b; pure (.shl64 raw.h d a b)
  | 8 => do let d ← opndOf raw.d; let a ← opndOf raw.a; let b ← opndOf raw.b; pure (.shr64 raw.h d a b)
  | 9 => do let d ← opndOf raw.d; let a ← opndOf raw.a; let b ← opndOf raw.b; pure (.sar64 raw.h d a b)
  | 10 => do let d ← opndOf raw.d; let a ← opndOf raw.a; let b ← opndOf raw.b; let c ← opndOf (raw.x / 16); pure (.fshl raw.h d a b c (decide ((raw.x % 2) = 1)))
  | 11 => do let d ← opndOf raw.d; let a ← opndOf raw.a; let b ← opndOf raw.b; let c ← opndOf (raw.x / 16); pure (.fshr raw.h d a b c (decide ((raw.x % 2) = 1)))
  | 12 => do let d ← opndOf raw.d; let a ← opndOf raw.a; pure (.popc raw.h d a)
  | 13 => do let d ← opndOf raw.d; let a ← opndOf raw.a; pure (.clz raw.h d a)
  | 14 => do let d ← opndOf raw.d; let a ← opndOf raw.a; pure (.ctz raw.h d a)
  | 15 => do let d ← opndOf raw.d; let a ← opndOf raw.a; pure (.brev raw.h d a)
  | _ => none

/-- Full-format words with opcodes 0x020–0x02F. -/
def full02 (raw : Raw) : Option Instr :=
  match raw.op % 16 with
  | 0 => do let d ← opndOf raw.d; let a ← opndOf raw.a; let b ← opndOf raw.b; let c ← opndOf (raw.x / 16); pure (.bfe raw.h d a b c (decide ((raw.x % 2) = 1)))
  | 1 => do let d ← opndOf raw.d; let a ← opndOf raw.a; let b ← opndOf raw.b; let c ← opndOf (raw.x / 16); pure (.bfi raw.h d a b c)
  | 2 => do let d ← opndOf raw.d; let a ← opndOf raw.a; let b ← opndOf raw.b; pure (.sext raw.h d a b)
  | 3 => do let d ← opndOf raw.d; let a ← opndOf raw.a; let b ← opndOf raw.b; pure (.zext raw.h d a b)
  | 4 => do let d ← pcodeOf raw.d; let a ← opndOf raw.a; let b ← opndOf raw.b; let cond ← icondOf (raw.x % 16); let k ← pcombOf (raw.x / 16 % 64); pure (.icmp raw.h d a b k cond)
  | 5 => do let d ← pcodeOf raw.d; let a ← opndOf raw.a; let b ← opndOf raw.b; let cond ← icondOf (raw.x % 16); let k ← pcombOf (raw.x / 16 % 64); pure (.icmp64 raw.h d a b k cond)
  | 6 => do let d ← opndOf raw.d; let a ← opndOf raw.a; let b ← opndOf raw.b; let n ← finOf 8 (by decide) (raw.x % 8); pure (.sel raw.h d a b (decide ((raw.x / 8 % 2) = 1)) n)
  | 7 => do let d ← pcodeOf raw.d; let a ← pcodeOf raw.a; let b ← pcodeOf raw.b; pure (.plop raw.h d a b (BitVec.ofNat 4 (raw.x % 16)))
  | 8 => do let d ← opndOf raw.d; let a ← opndOf raw.a; let b ← opndOf raw.b; let sh ← finOf 8 (by decide) (raw.x % 8); let form ← leaFormOf (raw.x / 16 % 4); pure (.lea raw.h d a b form (decide ((raw.x / 8 % 2) = 1)) sh)
  | 9 => do let d ← opndOf raw.d; pure (.moviFull raw.h d (BitVec.ofNat 24 (raw.b * 16384 + raw.x)))
  | 10 => do let d ← opndOf raw.d; pure (.movihFull raw.h d (BitVec.ofNat 24 (raw.b * 16384 + raw.x)))
  | 11 => do let d ← opndOf raw.d; let a ← opndOf raw.a; pure (.iaddiFull raw.h d a (BitVec.ofNat 24 (raw.b * 16384 + raw.x)))
  | _ => none

/-- Full-format words with opcodes 0x030–0x03F. -/
def full03 (raw : Raw) : Option Instr :=
  match raw.op % 16 with
  | 0 => do let d ← opndOf raw.d; let a ← opndOf raw.a; let mode ← qmodeOf (raw.x % 8); pure (.qxch raw.h d a mode)
  | 1 => do let d ← opndOf raw.d; let a ← opndOf raw.a; let b ← opndOf raw.b; let mode ← shmodeOf (raw.x % 4); let w ← finOf 6 (by decide) (raw.x / 4 % 8); pure (.shfl raw.h d a b w mode)
  | 2 => do let d ← finOf 8 (by decide) raw.d; let a ← pcodeOf raw.a; let mode ← vmodeOf (raw.x % 4); pure (.vote raw.h d a mode)
  | 3 => do let d ← opndOf raw.d; let a ← pcodeOf raw.a; pure (.ballot raw.h d a)
  | 4 => do let d ← opndOf raw.d; let a ← opndOf raw.a; pure (.matchw raw.h d a (decide ((raw.x % 2) = 1)))
  | 5 => do let d ← finOf 8 (by decide) raw.d; pure (.elect raw.h d)
  | 6 => do let d ← opndOf raw.d; let a ← opndOf raw.a; let b ← opndOf raw.b; pure (.readlane raw.h d a b)
  | 7 => do let d ← opndOf raw.d; let a ← opndOf raw.a; let b ← opndOf raw.b; pure (.writelane raw.h d a b)
  | 8 => do let d ← opndOf raw.d; let a ← opndOf raw.a; let op ← redopOf (raw.x % 8); pure (.gred raw.h d a op)
  | 9 => do let d ← opndOf raw.d; let a ← opndOf raw.a; let op ← redopOf (raw.x % 8); pure (.gscan raw.h d a (decide ((raw.x / 8 % 2) = 1)) op)
  | 10 => do let d ← opndOf raw.d; let kind ← maskKindOf (raw.x % 4); pure (.mask raw.h d kind)
  | _ => none

/-- Full-format words with opcodes 0x080–0x08F. -/
def full08 (raw : Raw) : Option Instr :=
  match raw.op % 16 with
  | 0 => some (.nop raw.h)
  | 1 => some (.braFull raw.h (BitVec.ofNat 24 (raw.b * 16384 + raw.x)))
  | 2 => do let a ← opndOf raw.a; pure (.brx raw.h a)
  | 3 => some (.bruFull raw.h (BitVec.ofNat 24 (raw.b * 16384 + raw.x)))
  | 4 => some (.callFull raw.h (BitVec.ofNat 24 (raw.b * 16384 + raw.x)))
  | 5 => do let a ← opndOf raw.a; pure (.callx raw.h a)
  | 6 => some (.ret raw.h)
  | 7 => some (.exit raw.h)
  | 8 => some (.yield raw.h (BitVec.ofNat 8 (raw.x % 256)))
  | 10 => do let d ← opndOf raw.d; let a ← opndOf raw.a; pure (.rdvpc raw.h d a)
  | 11 => do let a ← opndOf raw.a; let b ← opndOf raw.b; pure (.wrvpc raw.h a b)
  | 12 => do let a ← opndOf raw.a; pure (.sleepc raw.h a)
  | 13 => some (.trap raw.h (BitVec.ofNat 8 (raw.x % 256)))
  | 14 => some (.bkpt raw.h (BitVec.ofNat 8 (raw.x % 256)))
  | 15 => some (.hret raw.h)
  | _ => none

/-- Full-format words with opcodes 0x090–0x09F. -/
def full09 (raw : Raw) : Option Instr :=
  match raw.op % 16 with
  | 0 => do let a ← opndOf raw.a; let sz ← stkSizeOf (raw.x % 4); pure (.push raw.h a sz)
  | 1 => do let d ← opndOf raw.d; let sz ← stkSizeOf (raw.x % 4); pure (.pop raw.h d sz)
  | 2 => do let d ← opndOf raw.d; let a ← opndOf raw.a; pure (.salloc raw.h d a)
  | 3 => do let a ← opndOf raw.a; pure (.sfree raw.h a)
  | _ => none

/-- Full-format words with opcodes 0x0C0–0x0CF. -/
def full0C (raw : Raw) : Option Instr :=
  match raw.op % 16 with
  | 0 => do let d ← opndOf raw.d; let a ← opndOf raw.a; let b ← opndOf raw.b; let r ← rndOf (raw.x % 4); let m ← fmodsOf (raw.x / 4 % 16); pure (.fadd raw.h d a b r m)
  | 1 => do let d ← opndOf raw.d; let a ← opndOf raw.a; let b ← opndOf raw.b; let r ← rndOf (raw.x % 4); let m ← fmodsOf (raw.x / 4 % 16); pure (.fsub raw.h d a b r m)
  | 2 => do let d ← opndOf raw.d; let a ← opndOf raw.a; let b ← opndOf raw.b; let r ← rndOf (raw.x % 4); let m ← fmodsOf (raw.x / 4 % 16); pure (.fmul raw.h d a b r m)
  | 3 => do let d ← opndOf raw.d; let a ← opndOf raw.a; let b ← opndOf raw.b; let c ← opndOf (raw.x / 16); let r ← rndOf (raw.x % 4); pure (.ffma raw.h d a b c r (decide ((raw.x / 4 % 2) = 1)) (decide ((raw.x / 8 % 2) = 1)))
  | 4 => do let d ← opndOf raw.d; let a ← opndOf raw.a; let b ← opndOf raw.b; let m ← fmodsOf (raw.x / 4 % 16); pure (.fmin raw.h d a b (decide ((raw.x / 64 % 2) = 1)) m)
  | 5 => do let d ← opndOf raw.d; let a ← opndOf raw.a; let b ← opndOf raw.b; let m ← fmodsOf (raw.x / 4 % 16); pure (.fmax raw.h d a b (decide ((raw.x / 64 % 2) = 1)) m)
  | 6 => do let d ← pcodeOf raw.d; let a ← opndOf raw.a; let b ← opndOf raw.b; let cond ← fcondOf (raw.x % 16); let k ← pcombOf (raw.x / 16 % 64); pure (.fcmp raw.h d a b k cond)
  | 7 => do let d ← opndOf raw.d; let a ← opndOf raw.a; let b ← opndOf raw.b; let c ← opndOf (raw.x / 16); let r ← rndOf (raw.x % 4); pure (.ffma2 raw.h d a b c r (decide ((raw.x / 4 % 2) = 1)) (decide ((raw.x / 8 % 2) = 1)))
  | 8 => do let d ← opndOf raw.d; let a ← opndOf raw.a; let b ← opndOf raw.b; pure (.hadd2 raw.h d a b)
  | 9 => do let d ← opndOf raw.d; let a ← opndOf raw.a; let b ← opndOf raw.b; pure (.hmul2 raw.h d a b)
  | 10 => do let d ← opndOf raw.d; let a ← opndOf raw.a; let b ← opndOf raw.b; let c ← opndOf (raw.x / 16); pure (.hfma2 raw.h d a b c)
  | 11 => do let d ← opndOf raw.d; let a ← opndOf raw.a; let b ← opndOf raw.b; pure (.badd2 raw.h d a b)
  | 12 => do let d ← opndOf raw.d; let a ← opndOf raw.a; let b ← opndOf raw.b; pure (.bmul2 raw.h d a b)
  | 13 => do let d ← opndOf raw.d; let a ← opndOf raw.a; let b ← opndOf raw.b; let c ← opndOf (raw.x / 16); pure (.bfma2 raw.h d a b c)
  | _ => none

/-- Full-format words with opcodes 0x0D0–0x0DF. -/
def full0D (raw : Raw) : Option Instr :=
  match raw.op % 16 with
  | 0 => do let d ← opndOf raw.d; let a ← opndOf raw.a; let r ← rndOf (raw.x % 4); pure (.frcp raw.h d a r)
  | 1 => do let d ← opndOf raw.d; let a ← opndOf raw.a; let r ← rndOf (raw.x % 4); pure (.frsq raw.h d a r)
  | 2 => do let d ← opndOf raw.d; let a ← opndOf raw.a; let r ← rndOf (raw.x % 4); pure (.fsqrt raw.h d a r)
  | 3 => do let d ← opndOf raw.d; let a ← opndOf raw.a; let r ← rndOf (raw.x % 4); pure (.fex2 raw.h d a r)
  | 4 => do let d ← opndOf raw.d; let a ← opndOf raw.a; let r ← rndOf (raw.x % 4); pure (.flg2 raw.h d a r)
  | 5 => do let d ← opndOf raw.d; let a ← opndOf raw.a; let r ← rndOf (raw.x % 4); pure (.fsin raw.h d a r)
  | 6 => do let d ← opndOf raw.d; let a ← opndOf raw.a; let r ← rndOf (raw.x % 4); pure (.fcos raw.h d a r)
  | 7 => do let d ← opndOf raw.d; let a ← opndOf raw.a; let r ← rndOf (raw.x % 4); pure (.ftanh raw.h d a r)
  | 8 => do let d ← opndOf raw.d; let a ← opndOf raw.a; let b ← opndOf raw.b; let r ← rndOf (raw.x % 4); pure (.fdiv raw.h d a b r)
  | _ => none

/-- Full-format words with opcodes 0x0E0–0x0EF. -/
def full0E (raw : Raw) : Option Instr :=
  match raw.op % 16 with
  | 0 => do let d ← opndOf raw.d; let a ← opndOf raw.a; let rm ← rndeOf (raw.x / 2 % 8); let st ← numtyOf (raw.x / 16 % 32); let dt ← numtyOf (raw.x / 512 % 32); pure (.cvt raw.h d a dt st rm (decide ((raw.x % 2) = 1)))
  | 1 => do let d ← opndOf raw.d; let a ← opndOf raw.a; let b ← opndOf raw.b; let rm ← rndeOf (raw.x / 2 % 8); let dt ← numtyOf (raw.x / 512 % 32); pure (.cvtp raw.h d a b dt rm (decide ((raw.x % 2) = 1)))
  | 2 => do let d ← opndOf raw.d; let a ← opndOf raw.a; let st ← numtyOf (raw.x / 16 % 32); pure (.unpk raw.h d a st)
  | 3 => do let d ← opndOf raw.d; let a ← opndOf raw.a; let b ← opndOf raw.b; pure (.qblk raw.h d a b)
  | 4 => do let d ← opndOf raw.d; let a ← opndOf raw.a; let b ← opndOf raw.b; pure (.mxq raw.h d a b (decide ((raw.x / 4 % 2) = 1)))
  | 5 => do let d ← opndOf raw.d; let a ← opndOf raw.a; let r ← rndOf (raw.x % 4); let op ← fredopOf (raw.x / 4 % 4); pure (.fred raw.h d a op r)
  | 8 => do let d ← opndOf raw.d; let a ← opndOf raw.a; let b ← opndOf raw.b; pure (.cmulh2 raw.h d a b (decide ((raw.x % 2) = 1)))
  | 9 => do let d ← opndOf raw.d; let a ← opndOf raw.a; let b ← opndOf raw.b; let c ← opndOf (raw.x / 16); pure (.cfmah2 raw.h d a b c (decide ((raw.x % 2) = 1)))
  | _ => none

/-- Full-format words with opcodes 0x100–0x10F. -/
def full10 (raw : Raw) : Option Instr :=
  match raw.op % 16 with
  | 0 => do let d ← opndOf raw.d; let a ← opndOf raw.a; let b ← opndOf raw.b; let m ← memmodOf (raw.x % 16384); pure (.ld raw.h d a b m)
  | 1 => do let d ← opndOf raw.d; let a ← opndOf raw.a; let b ← opndOf raw.b; let m ← memmodOf (raw.x % 16384); pure (.st raw.h d a b m)
  | 2 => do let d ← opndOf raw.d; let a ← opndOf raw.a; let b ← opndOf raw.b; let m ← memmodOf (raw.x % 16384); pure (.ldu raw.h d a b m)
  | 3 => do let d ← opndOf raw.d; let a ← opndOf raw.a; let b ← opndOf raw.b; let m ← memmodOf (raw.x % 16384); pure (.stu raw.h d a b m)
  | 6 => do let a ← opndOf raw.a; let b ← opndOf raw.b; pure (.touch raw.h a b (decide ((raw.x % 2) = 1)))
  | 7 => do let a ← opndOf raw.a; let b ← opndOf raw.b; let lvl ← plvlOf (raw.x % 4); pure (.pref raw.h a b lvl)
  | 8 => do let a ← opndOf raw.a; let b ← opndOf raw.b; pure (.flush raw.h a b (decide ((raw.x % 2) = 1)))
  | 9 => do let a ← opndOf raw.a; let b ← opndOf raw.b; pure (.inv raw.h a b (decide ((raw.x % 2) = 1)))
  | 12 => do let d ← opndOf raw.d; let a ← opndOf raw.a; let b ← opndOf raw.b; pure (.vprobe raw.h d a b)
  | _ => none

/-- Full-format words with opcodes 0x130–0x13F. -/
def full13 (raw : Raw) : Option Instr :=
  match raw.op % 16 with
  | 0 => do let d ← opndOf raw.d; let a ← opndOf raw.a; let b ← opndOf raw.b; let op ← aopOf (raw.x % 16); let m ← atommodOf (raw.x / 16 % 1024); pure (.atom raw.h d a b op m)
  | 1 => do let d ← opndOf raw.d; let a ← opndOf raw.a; let b ← opndOf raw.b; let m ← atommodOf (raw.x / 16 % 1024); pure (.cas raw.h d a b m)
  | 2 => do let d ← opndOf raw.d; let a ← opndOf raw.a; let b ← opndOf raw.b; let n ← finOf 8 (by decide) (raw.x % 8); let m ← atommodOf (raw.x / 16 % 1024); pure (.casar raw.h d a b m n)
  | 3 => do let a ← opndOf raw.a; let b ← opndOf raw.b; let op ← aopOf (raw.x % 16); let m ← atommodOf (raw.x / 16 % 1024); pure (.red raw.h a b op m)
  | 4 => do let d ← opndOf raw.d; let a ← opndOf raw.a; let b ← opndOf raw.b; let op ← faopOf (raw.x % 16); let m ← atommodOf (raw.x / 16 % 1024); pure (.fatom raw.h d a b op m)
  | 5 => do let a ← opndOf raw.a; let b ← opndOf raw.b; let op ← faopOf (raw.x % 16); let m ← atommodOf (raw.x / 16 % 1024); pure (.fredm raw.h a b op m)
  | 8 => do let scope ← scopeOf (raw.x / 16 % 8); let ord ← fordOf (raw.x / 128 % 8); pure (.fence raw.h ord scope)
  | 9 => do let mode ← fxmodeOf (raw.x % 4); pure (.fencex raw.h mode)
  | _ => none

/-- Full-format words with opcodes 0x150–0x15F. -/
def full15 (raw : Raw) : Option Instr :=
  match raw.op % 16 with
  | 0 => do let d ← opndOf raw.d; let n ← finOf 16 (by decide) (raw.x % 16); pure (.bara raw.h d n)
  | 1 => do let a ← opndOf raw.a; let n ← finOf 16 (by decide) (raw.x % 16); pure (.barw raw.h n a)
  | 2 => do let n ← finOf 16 (by decide) (raw.x % 16); pure (.bars raw.h n)
  | 3 => do let d ← opndOf raw.d; let n ← finOf 8 (by decide) (raw.x % 8); pure (.cbara raw.h d n)
  | 4 => do let a ← opndOf raw.a; let n ← finOf 8 (by decide) (raw.x % 8); pure (.cbarw raw.h n a)
  | 5 => do let n ← finOf 8 (by decide) (raw.x % 8); pure (.cbars raw.h n)
  | 6 => do let n ← finOf 16 (by decide) (raw.x % 16); let cls ← barclsOf (raw.x / 16 % 2); pure (.barx raw.h cls n)
  | 7 => do let d ← opndOf raw.d; let a ← opndOf raw.a; let b ← opndOf raw.b; let m ← watchmodOf (raw.x % 16); pure (.watch raw.h d a b m)
  | 8 => do let d ← opndOf raw.d; let a ← opndOf raw.a; let b ← opndOf raw.b; let c ← opndOf (raw.x / 16); let m ← watchmodOf (raw.x % 16); pure (.watcht raw.h d a b c m)
  | 9 => do let d ← opndOf raw.d; let a ← opndOf raw.a; let b ← opndOf raw.b; let c ← opndOf (raw.x / 16); let m ← watchmodOf (raw.x % 16); pure (.watchh raw.h d a b c m)
  | _ => none

/-- Full-format words with opcodes 0x160–0x16F. -/
def full16 (raw : Raw) : Option Instr :=
  match raw.op % 16 with
  | 0 => do let a ← opndOf raw.a; let b ← opndOf raw.b; let n ← finOf 64 (by decide) (raw.x % 64); pure (.talloc raw.h n a b)
  | 1 => do let n ← finOf 64 (by decide) (raw.x % 64); pure (.tfree raw.h n)
  | 2 => do let d ← opndOf raw.d; let n ← finOf 64 (by decide) (raw.x % 64); pure (.tstate raw.h d n (decide ((raw.x / 64 % 2) = 1)))
  | 3 => do let a ← opndOf raw.a; let b ← opndOf raw.b; let n ← finOf 64 (by decide) (raw.x % 64); pure (.twait raw.h n a b)
  | 4 => do let d ← (if raw.d / 8 = 1 then finOf 8 (by decide) (raw.d % 8) else none); let a ← opndOf raw.a; let b ← opndOf raw.b; let n ← finOf 64 (by decide) (raw.x % 64); pure (.ttest raw.h d n a b)
  | 5 => do let a ← opndOf raw.a; let n ← finOf 64 (by decide) (raw.x % 64); pure (.texpect raw.h n a)
  | 6 => do let n ← finOf 64 (by decide) (raw.x % 64); pure (.tdrain raw.h n)
  | 7 => do let a ← opndOf raw.a; let b ← opndOf raw.b; let n ← finOf 64 (by decide) (raw.x % 64); pure (.xload raw.h n a b (BitVec.ofNat 4 (raw.x / 64 % 16)) (decide ((raw.x / 2048 % 2) = 1)) (decide ((raw.x / 4096 % 2) = 1)) (decide ((raw.x / 8192 % 2) = 1)))
  | 8 => do let a ← opndOf raw.a; let b ← opndOf raw.b; let n ← finOf 64 (by decide) (raw.x % 64); pure (.xstore raw.h n a b)
  | 10 => some (.xfence raw.h (decide ((raw.x % 2) = 1)))
  | 11 => do let d ← opndOf raw.d; pure (.xstat raw.h d)
  | 12 => do let a ← opndOf raw.a; let b ← opndOf raw.b; pure (.xpref raw.h a b)
  | _ => none

/-- Full-format words with opcodes 0x180–0x18F. -/
def full18 (raw : Raw) : Option Instr :=
  match raw.op % 16 with
  | 0 => do let d ← opndOf raw.d; let a ← opndOf raw.a; let b ← opndOf raw.b; let c ← opndOf (raw.x / 16); let ty ← mmatyOf (raw.x % 16); pure (.mma raw.h d a b c ty)
  | 1 => do let d ← opndOf raw.d; let a ← opndOf raw.a; let b ← opndOf raw.b; let c ← opndOf (raw.x / 16); let ty ← mmatyOf (raw.x % 16); pure (.mmas raw.h d a b c ty)
  | 2 => do let d ← opndOf raw.d; let a ← opndOf raw.a; let b ← opndOf raw.b; let c ← opndOf (raw.x / 16); pure (.mmac raw.h d a b c (decide ((raw.x % 2) = 1)))
  | 3 => do let d ← opndOf raw.d; let a ← opndOf raw.a; let b ← opndOf raw.b; let c ← opndOf (raw.x / 16); pure (.mmax raw.h d a b c)
  | 4 => do let d ← opndOf raw.d; let a ← opndOf raw.a; let b ← opndOf raw.b; let m ← fragmodOf (raw.x % 16384); pure (.ldm raw.h d a b m)
  | 5 => do let d ← opndOf raw.d; let a ← opndOf raw.a; let b ← opndOf raw.b; let m ← fragmodOf (raw.x % 16384); pure (.stm raw.h d a b m)
  | _ => none

/-- Full-format words with opcodes 0x1A0–0x1AF. -/
def full1A (raw : Raw) : Option Instr :=
  match raw.op % 16 with
  | 0 => do let d ← opndOf raw.d; let a ← opndOf raw.a; let b ← opndOf raw.b; let c ← opndOf (raw.x / 16); pure (.mxb raw.h d a b c)
  | 1 => do let d ← opndOf raw.d; let a ← opndOf raw.a; pure (.mxbw raw.h d a)
  | 2 => do let d ← pcodeOf raw.d; let a ← opndOf raw.a; pure (.mxbt raw.h d a)
  | 3 => do let d ← opndOf raw.d; let a ← opndOf raw.a; pure (.accz raw.h d a)
  | 4 => do let d ← opndOf raw.d; let a ← opndOf raw.a; let b ← opndOf raw.b; let st ← numtyOf (raw.x / 16 % 32); pure (.accld raw.h d a b st)
  | 5 => do let d ← opndOf raw.d; let a ← opndOf raw.a; let b ← opndOf raw.b; let rm ← rndeOf (raw.x / 2 % 8); let st ← numtyOf (raw.x / 16 % 32); let dt ← numtyOf (raw.x / 512 % 32); pure (.accst raw.h d a b dt st rm (decide ((raw.x % 2) = 1)))
  | 6 => do let d ← opndOf raw.d; let a ← opndOf raw.a; pure (.accrd raw.h d a)
  | _ => none

/-- Full-format words with opcodes 0x1B0–0x1BF. -/
def full1B (raw : Raw) : Option Instr :=
  match raw.op % 16 with
  | 0 => do let d ← opndOf raw.d; let a ← opndOf raw.a; let b ← opndOf raw.b; pure (.slvcfg raw.h d a b)
  | 1 => do let d ← opndOf raw.d; let a ← opndOf raw.a; let b ← opndOf raw.b; pure (.slvinit raw.h d a b)
  | 2 => do let d ← opndOf raw.d; let a ← opndOf raw.a; let b ← opndOf raw.b; pure (.slvstage raw.h d a b)
  | 3 => do let d ← opndOf raw.d; let a ← opndOf raw.a; let b ← opndOf raw.b; pure (.slvput raw.h d a b)
  | 4 => do let d ← opndOf raw.d; let a ← opndOf raw.a; let b ← opndOf raw.b; pure (.slvstep raw.h d a b)
  | 5 => do let d ← opndOf raw.d; let a ← opndOf raw.a; let b ← opndOf raw.b; pure (.slvstat raw.h d a b)
  | _ => none

/-- Full-format words with opcodes 0x1C0–0x1CF. -/
def full1C (raw : Raw) : Option Instr :=
  match raw.op % 16 with
  | 0 => do let d ← opndOf raw.d; let a ← opndOf raw.a; pure (.launch raw.h d a)
  | 1 => do let a ← opndOf raw.a; let b ← opndOf raw.b; let rs ← recsizeOf (raw.x % 4); pure (.emit raw.h a b rs)
  | 2 => do let a ← opndOf raw.a; let b ← opndOf raw.b; let rs ← recsizeOf (raw.x % 4); pure (.cont raw.h a b rs)
  | 3 => do let d ← opndOf raw.d; let a ← opndOf raw.a; let b ← opndOf raw.b; pure (.notify raw.h d a b)
  | 4 => do let d ← opndOf raw.d; let a ← opndOf raw.a; pure (.nodeq raw.h d a)
  | _ => none

/-- Full-format words with opcodes 0x1D0–0x1DF. -/
def full1D (raw : Raw) : Option Instr :=
  match raw.op % 16 with
  | 0 => do let d ← opndOf raw.d; let n ← finOf 1024 (by decide) (raw.x % 1024); pure (.rdsys raw.h d (decide ((raw.x / 1024 % 2) = 1)) n)
  | 1 => do let a ← opndOf raw.a; let n ← finOf 1024 (by decide) (raw.x % 1024); pure (.wrsys raw.h a (decide ((raw.x / 1024 % 2) = 1)) n)
  | 2 => do let d ← opndOf raw.d; let a ← opndOf raw.a; let b ← opndOf raw.b; pure (.syscall raw.h d a b)
  | 3 => do let d ← opndOf raw.d; let a ← opndOf raw.a; let b ← opndOf raw.b; let c ← opndOf (raw.x / 16); pure (.tret raw.h d a b c)
  | 4 => do let d ← opndOf raw.d; let a ← opndOf raw.a; let b ← opndOf raw.b; let q ← finOf 3 (by decide) (raw.x % 4); pure (.msgsend raw.h d a b (decide ((raw.x / 8 % 2) = 1)) q)
  | 5 => do let d ← opndOf raw.d; let a ← opndOf raw.a; pure (.msgrecv raw.h d a (decide ((raw.x % 2) = 1)))
  | 6 => do let d ← opndOf raw.d; let a ← opndOf raw.a; pure (.invapply raw.h d a)
  | 7 => do let d ← opndOf raw.d; let a ← opndOf raw.a; pure (.tlbinv raw.h d a)
  | 8 => do let d ← opndOf raw.d; let a ← opndOf raw.a; let b ← opndOf raw.b; pure (.ctxload raw.h d a b)
  | 9 => if raw.b = 0x301 then do let d ← opndOf raw.d; let a ← opndOf raw.a; pure (.ctxsaveDestroy raw.h d a) else do let d ← opndOf raw.d; let a ← opndOf raw.a; let b ← opndOf raw.b; pure (.ctxsaveEvict raw.h d a b)
  | 10 => (match raw.x with
    | 0 => do let d ← opndOf raw.d; let a ← opndOf raw.a; pure (.preemptSpatial raw.h d a)
    | 1 => do let d ← opndOf raw.d; let a ← opndOf raw.a; pure (.preemptHalt raw.h d a)
    | 2 => do let d ← opndOf raw.d; let a ← opndOf raw.a; pure (.preemptStop raw.h d a)
    | 3 => do let d ← opndOf raw.d; let a ← opndOf raw.a; pure (.preemptResume raw.h d a)
    | 4 => do let d ← opndOf raw.d; let a ← opndOf raw.a; pure (.preemptRdreg raw.h d a)
    | 5 => do let d ← opndOf raw.d; let a ← opndOf raw.a; pure (.preemptWrreg raw.h d a)
    | _ => none)
  | 11 => do let d ← opndOf raw.d; let a ← opndOf raw.a; pure (.dump raw.h d a)
  | 13 => do let d ← opndOf raw.d; let a ← opndOf raw.a; let b ← opndOf raw.b; pure (.zeropg raw.h d a b)
  | _ => none

/-- Full-format words with opcodes 0x1F0–0x1FF. -/
def full1F (raw : Raw) : Option Instr :=
  match raw.op % 16 with
  | 0 => do let d ← opndOf raw.d; let a ← opndOf raw.a; let form ← splitformOf (raw.x % 4); pure (.splitrd raw.h d a form)
  | 1 => do let d ← opndOf raw.d; let a ← opndOf raw.a; pure (.splitsnap raw.h d a (decide ((raw.x % 2) = 1)))
  | 2 => do let a ← opndOf raw.a; pure (.mark raw.h (BitVec.ofNat 8 (raw.x % 256)) a)
  | 3 => do let d ← opndOf raw.d; let a ← opndOf raw.a; pure (.sampcfg raw.h d a)
  | 4 => do let d ← opndOf raw.d; pure (.clock raw.h d)
  | 5 => do let d ← opndOf raw.d; pure (.retcnt raw.h d)
  | _ => none

/-- The instruction a full word's fields name, its X field not yet checked for unassigned values (R48). -/
def candFull (raw : Raw) : Option Instr :=
  match raw.op / 16 with
  | 0 => full00 raw
  | 1 => full01 raw
  | 2 => full02 raw
  | 3 => full03 raw
  | 8 => full08 raw
  | 9 => full09 raw
  | 12 => full0C raw
  | 13 => full0D raw
  | 14 => full0E raw
  | 16 => full10 raw
  | 19 => full13 raw
  | 21 => full15 raw
  | 22 => full16 raw
  | 24 => full18 raw
  | 26 => full1A raw
  | 27 => full1B raw
  | 28 => full1C raw
  | 29 => full1D raw
  | 31 => full1F raw
  | _ => none

/-- The instruction a wide word's fields name (R48: opcodes marked W). -/
def candWide (raw : Raw) : Option Instr :=
  match raw.op with
  | 0x029 => do let d ← opndOf raw.d; pure (.moviWide raw.h d (BitVec.ofNat 32 raw.imm))
  | 0x02A => do let d ← opndOf raw.d; pure (.movihWide raw.h d (BitVec.ofNat 32 raw.imm))
  | 0x02B => do let d ← opndOf raw.d; pure (.iaddiWide raw.h d (BitVec.ofNat 32 raw.imm))
  | 0x081 => some (.braWide raw.h (BitVec.ofNat 32 raw.imm))
  | 0x083 => some (.bruWide raw.h (BitVec.ofNat 32 raw.imm))
  | 0x084 => some (.callWide raw.h (BitVec.ofNat 32 raw.imm))
  | _ => none

/-- The word of a well-formed instruction, unused operand fields 0x280 (R28, R29); an event has no word. -/
def encode : Instr → Nat
  | .mov h d a => joinFull h 0x000 (opndC d) (opndC a) (640) (0)
  | .iadd h d a b m => joinFull h 0x001 (opndC d) (opndC a) (opndC b) (satC m)
  | .iadd64 h d a b => joinFull h 0x002 (opndC d) (opndC a) (opndC b) (0)
  | .isub h d a b m => joinFull h 0x003 (opndC d) (opndC a) (opndC b) (satC m)
  | .isub64 h d a b => joinFull h 0x004 (opndC d) (opndC a) (opndC b) (0)
  | .imul h d a b => joinFull h 0x005 (opndC d) (opndC a) (opndC b) (0)
  | .imulh h d a b => joinFull h 0x006 (opndC d) (opndC a) (opndC b) (0)
  | .imulhu h d a b => joinFull h 0x007 (opndC d) (opndC a) (opndC b) (0)
  | .imad h d a b c => joinFull h 0x008 (opndC d) (opndC a) (opndC b) (16 * opndC c)
  | .imadw h d a b c un => joinFull h 0x009 (opndC d) (opndC a) (opndC b) (16 * opndC c + b2n un)
  | .idiv h d a b un => joinFull h 0x00A (opndC d) (opndC a) (opndC b) (b2n un)
  | .irem h d a b un => joinFull h 0x00B (opndC d) (opndC a) (opndC b) (b2n un)
  | .imin h d a b un => joinFull h 0x00C (opndC d) (opndC a) (opndC b) (b2n un)
  | .imax h d a b un => joinFull h 0x00D (opndC d) (opndC a) (opndC b) (b2n un)
  | .iabs h d a sat => joinFull h 0x00E (opndC d) (opndC a) (640) (b2n sat)
  | .isad h d a b c un => joinFull h 0x00F (opndC d) (opndC a) (opndC b) (16 * opndC c + b2n un)
  | .and h d a b => joinFull h 0x010 (opndC d) (opndC a) (opndC b) (0)
  | .or h d a b => joinFull h 0x011 (opndC d) (opndC a) (opndC b) (0)
  | .xor h d a b => joinFull h 0x012 (opndC d) (opndC a) (opndC b) (0)
  | .andn h d a b => joinFull h 0x013 (opndC d) (opndC a) (opndC b) (0)
  | .shl h d a b => joinFull h 0x014 (opndC d) (opndC a) (opndC b) (0)
  | .shr h d a b => joinFull h 0x015 (opndC d) (opndC a) (opndC b) (0)
  | .sar h d a b => joinFull h 0x016 (opndC d) (opndC a) (opndC b) (0)
  | .shl64 h d a b => joinFull h 0x017 (opndC d) (opndC a) (opndC b) (0)
  | .shr64 h d a b => joinFull h 0x018 (opndC d) (opndC a) (opndC b) (0)
  | .sar64 h d a b => joinFull h 0x019 (opndC d) (opndC a) (opndC b) (0)
  | .fshl h d a b c clamp => joinFull h 0x01A (opndC d) (opndC a) (opndC b) (16 * opndC c + b2n clamp)
  | .fshr h d a b c clamp => joinFull h 0x01B (opndC d) (opndC a) (opndC b) (16 * opndC c + b2n clamp)
  | .popc h d a => joinFull h 0x01C (opndC d) (opndC a) (640) (0)
  | .clz h d a => joinFull h 0x01D (opndC d) (opndC a) (640) (0)
  | .ctz h d a => joinFull h 0x01E (opndC d) (opndC a) (640) (0)
  | .brev h d a => joinFull h 0x01F (opndC d) (opndC a) (640) (0)
  | .bfe h d a b c sx => joinFull h 0x020 (opndC d) (opndC a) (opndC b) (16 * opndC c + b2n sx)
  | .bfi h d a b c => joinFull h 0x021 (opndC d) (opndC a) (opndC b) (16 * opndC c)
  | .sext h d a b => joinFull h 0x022 (opndC d) (opndC a) (opndC b) (0)
  | .zext h d a b => joinFull h 0x023 (opndC d) (opndC a) (opndC b) (0)
  | .icmp h d a b k cond => joinFull h 0x024 (pcodeC d) (opndC a) (opndC b) (icondC cond + 16 * pcombC k)
  | .icmp64 h d a b k cond => joinFull h 0x025 (pcodeC d) (opndC a) (opndC b) (icondC cond + 16 * pcombC k)
  | .sel h d a b neg n => joinFull h 0x026 (opndC d) (opndC a) (opndC b) (n.val + 8 * b2n neg)
  | .plop h d a b lut => joinFull h 0x027 (pcodeC d) (pcodeC a) (pcodeC b) (lut.toNat)
  | .lea h d a b form sx sh => joinFull h 0x028 (opndC d) (opndC a) (opndC b) (sh.val + 8 * b2n sx + 16 * leaFormC form)
  | .moviFull h d imm => joinFull h 0x029 (opndC d) (640) ((imm.toNat / 16384)) (imm.toNat % 16384)
  | .moviWide h d imm => joinWide h 0x029 (opndC d) imm.toNat
  | .movihFull h d imm => joinFull h 0x02A (opndC d) (640) ((imm.toNat / 16384)) (imm.toNat % 16384)
  | .movihWide h d imm => joinWide h 0x02A (opndC d) imm.toNat
  | .iaddiFull h d a imm => joinFull h 0x02B (opndC d) (opndC a) ((imm.toNat / 16384)) (imm.toNat % 16384)
  | .iaddiWide h d imm => joinWide h 0x02B (opndC d) imm.toNat
  | .qxch h d a mode => joinFull h 0x030 (opndC d) (opndC a) (640) (qmodeC mode)
  | .shfl h d a b w mode => joinFull h 0x031 (opndC d) (opndC a) (opndC b) (shmodeC mode + 4 * w.val)
  | .vote h d a mode => joinFull h 0x032 (d.val) (pcodeC a) (640) (vmodeC mode)
  | .ballot h d a => joinFull h 0x033 (opndC d) (pcodeC a) (640) (0)
  | .matchw h d a w64 => joinFull h 0x034 (opndC d) (opndC a) (640) (b2n w64)
  | .elect h d => joinFull h 0x035 (d.val) (640) (640) (0)
  | .readlane h d a b => joinFull h 0x036 (opndC d) (opndC a) (opndC b) (0)
  | .writelane h d a b => joinFull h 0x037 (opndC d) (opndC a) (opndC b) (0)
  | .gred h d a op => joinFull h 0x038 (opndC d) (opndC a) (640) (redopC op)
  | .gscan h d a exc op => joinFull h 0x039 (opndC d) (opndC a) (640) (redopC op + 8 * b2n exc)
  | .mask h d kind => joinFull h 0x03A (opndC d) (640) (640) (maskKindC kind)
  | .pairWord e stall h0 h1 => joinPair e stall h0 h1
  | .nop h => joinFull h 0x080 (640) (640) (640) (0)
  | .braFull h off => joinFull h 0x081 (640) (640) ((off.toNat / 16384)) (off.toNat % 16384)
  | .braWide h off => joinWide h 0x081 (640) off.toNat
  | .brx h a => joinFull h 0x082 (640) (opndC a) (640) (0)
  | .bruFull h off => joinFull h 0x083 (640) (640) ((off.toNat / 16384)) (off.toNat % 16384)
  | .bruWide h off => joinWide h 0x083 (640) off.toNat
  | .callFull h off => joinFull h 0x084 (640) (640) ((off.toNat / 16384)) (off.toNat % 16384)
  | .callWide h off => joinWide h 0x084 (640) off.toNat
  | .callx h a => joinFull h 0x085 (640) (opndC a) (640) (0)
  | .ret h => joinFull h 0x086 (640) (640) (640) (0)
  | .exit h => joinFull h 0x087 (640) (640) (640) (0)
  | .yield h n => joinFull h 0x088 (640) (640) (640) (n.toNat)
  | .rdvpc h d a => joinFull h 0x08A (opndC d) (opndC a) (640) (0)
  | .wrvpc h a b => joinFull h 0x08B (640) (opndC a) (opndC b) (0)
  | .sleepc h a => joinFull h 0x08C (640) (opndC a) (640) (0)
  | .trap h code => joinFull h 0x08D (640) (640) (640) (code.toNat)
  | .bkpt h code => joinFull h 0x08E (640) (640) (640) (code.toNat)
  | .hret h => joinFull h 0x08F (640) (640) (640) (0)
  | .push h a sz => joinFull h 0x090 (640) (opndC a) (640) (stkSizeC sz)
  | .pop h d sz => joinFull h 0x091 (opndC d) (640) (640) (stkSizeC sz)
  | .salloc h d a => joinFull h 0x092 (opndC d) (opndC a) (640) (0)
  | .sfree h a => joinFull h 0x093 (640) (opndC a) (640) (0)
  | .fadd h d a b r m => joinFull h 0x0C0 (opndC d) (opndC a) (opndC b) (rndC r + 4 * fmodsC m)
  | .fsub h d a b r m => joinFull h 0x0C1 (opndC d) (opndC a) (opndC b) (rndC r + 4 * fmodsC m)
  | .fmul h d a b r m => joinFull h 0x0C2 (opndC d) (opndC a) (opndC b) (rndC r + 4 * fmodsC m)
  | .ffma h d a b c r nega negc => joinFull h 0x0C3 (opndC d) (opndC a) (opndC b) (16 * opndC c + rndC r + 4 * b2n nega + 8 * b2n negc)
  | .ffma2 h d a b c r nega negc => joinFull h 0x0C7 (opndC d) (opndC a) (opndC b) (16 * opndC c + rndC r + 4 * b2n nega + 8 * b2n negc)
  | .fmin h d a b pr m => joinFull h 0x0C4 (opndC d) (opndC a) (opndC b) (4 * fmodsC m + 64 * b2n pr)
  | .fmax h d a b pr m => joinFull h 0x0C5 (opndC d) (opndC a) (opndC b) (4 * fmodsC m + 64 * b2n pr)
  | .fcmp h d a b k cond => joinFull h 0x0C6 (pcodeC d) (opndC a) (opndC b) (fcondC cond + 16 * pcombC k)
  | .hadd2 h d a b => joinFull h 0x0C8 (opndC d) (opndC a) (opndC b) (0)
  | .hmul2 h d a b => joinFull h 0x0C9 (opndC d) (opndC a) (opndC b) (0)
  | .hfma2 h d a b c => joinFull h 0x0CA (opndC d) (opndC a) (opndC b) (16 * opndC c)
  | .badd2 h d a b => joinFull h 0x0CB (opndC d) (opndC a) (opndC b) (0)
  | .bmul2 h d a b => joinFull h 0x0CC (opndC d) (opndC a) (opndC b) (0)
  | .bfma2 h d a b c => joinFull h 0x0CD (opndC d) (opndC a) (opndC b) (16 * opndC c)
  | .frcp h d a r => joinFull h 0x0D0 (opndC d) (opndC a) (640) (rndC r)
  | .frsq h d a r => joinFull h 0x0D1 (opndC d) (opndC a) (640) (rndC r)
  | .fsqrt h d a r => joinFull h 0x0D2 (opndC d) (opndC a) (640) (rndC r)
  | .fex2 h d a r => joinFull h 0x0D3 (opndC d) (opndC a) (640) (rndC r)
  | .flg2 h d a r => joinFull h 0x0D4 (opndC d) (opndC a) (640) (rndC r)
  | .fsin h d a r => joinFull h 0x0D5 (opndC d) (opndC a) (640) (rndC r)
  | .fcos h d a r => joinFull h 0x0D6 (opndC d) (opndC a) (640) (rndC r)
  | .ftanh h d a r => joinFull h 0x0D7 (opndC d) (opndC a) (640) (rndC r)
  | .fdiv h d a b r => joinFull h 0x0D8 (opndC d) (opndC a) (opndC b) (rndC r)
  | .cvt h d a dt st rm sat => joinFull h 0x0E0 (opndC d) (opndC a) (640) (b2n sat + 2 * rndeC rm + 16 * numtyC st + 512 * numtyC dt)
  | .cvtp h d a b dt rm sat => joinFull h 0x0E1 (opndC d) (opndC a) (opndC b) (b2n sat + 2 * rndeC rm + 512 * numtyC dt)
  | .unpk h d a st => joinFull h 0x0E2 (opndC d) (opndC a) (640) (16 * numtyC st)
  | .qblk h d a b => joinFull h 0x0E3 (opndC d) (opndC a) (opndC b) (0)
  | .mxq h d a b rnef => joinFull h 0x0E4 (opndC d) (opndC a) (opndC b) (4 * b2n rnef)
  | .fred h d a op r => joinFull h 0x0E5 (opndC d) (opndC a) (640) (rndC r + 4 * fredopC op)
  | .cmulh2 h d a b conj => joinFull h 0x0E8 (opndC d) (opndC a) (opndC b) (b2n conj)
  | .cfmah2 h d a b c conj => joinFull h 0x0E9 (opndC d) (opndC a) (opndC b) (16 * opndC c + b2n conj)
  | .ld h d a b m => joinFull h 0x100 (opndC d) (opndC a) (opndC b) (memmodC m)
  | .st h d a b m => joinFull h 0x101 (opndC d) (opndC a) (opndC b) (memmodC m)
  | .ldu h d a b m => joinFull h 0x102 (opndC d) (opndC a) (opndC b) (memmodC m)
  | .stu h d a b m => joinFull h 0x103 (opndC d) (opndC a) (opndC b) (memmodC m)
  | .touch h a b rd => joinFull h 0x106 (640) (opndC a) (opndC b) (b2n rd)
  | .pref h a b lvl => joinFull h 0x107 (640) (opndC a) (opndC b) (plvlC lvl)
  | .flush h a b l2 => joinFull h 0x108 (640) (opndC a) (opndC b) (b2n l2)
  | .inv h a b l2 => joinFull h 0x109 (640) (opndC a) (opndC b) (b2n l2)
  | .vprobe h d a b => joinFull h 0x10C (opndC d) (opndC a) (opndC b) (0)
  | .atom h d a b op m => joinFull h 0x130 (opndC d) (opndC a) (opndC b) (aopC op + 16 * atommodC m)
  | .cas h d a b m => joinFull h 0x131 (opndC d) (opndC a) (opndC b) (16 * atommodC m)
  | .casar h d a b m n => joinFull h 0x132 (opndC d) (opndC a) (opndC b) (n.val + 16 * atommodC m)
  | .red h a b op m => joinFull h 0x133 (640) (opndC a) (opndC b) (aopC op + 16 * atommodC m)
  | .fatom h d a b op m => joinFull h 0x134 (opndC d) (opndC a) (opndC b) (faopC op + 16 * atommodC m)
  | .fredm h a b op m => joinFull h 0x135 (640) (opndC a) (opndC b) (faopC op + 16 * atommodC m)
  | .fence h ord scope => joinFull h 0x138 (640) (640) (640) (16 * scopeC scope + 128 * fordC ord)
  | .fencex h mode => joinFull h 0x139 (640) (640) (640) (fxmodeC mode)
  | .bara h d n => joinFull h 0x150 (opndC d) (640) (640) (n.val)
  | .barw h n a => joinFull h 0x151 (640) (opndC a) (640) (n.val)
  | .bars h n => joinFull h 0x152 (640) (640) (640) (n.val)
  | .cbara h d n => joinFull h 0x153 (opndC d) (640) (640) (n.val)
  | .cbarw h n a => joinFull h 0x154 (640) (opndC a) (640) (n.val)
  | .cbars h n => joinFull h 0x155 (640) (640) (640) (n.val)
  | .barx h cls n => joinFull h 0x156 (640) (640) (640) (n.val + 16 * barclsC cls)
  | .watch h d a b m => joinFull h 0x157 (opndC d) (opndC a) (opndC b) (watchmodC m)
  | .watcht h d a b c m => joinFull h 0x158 (opndC d) (opndC a) (opndC b) (16 * opndC c + watchmodC m)
  | .watchh h d a b c m => joinFull h 0x159 (opndC d) (opndC a) (opndC b) (16 * opndC c + watchmodC m)
  | .talloc h n a b => joinFull h 0x160 (640) (opndC a) (opndC b) (n.val)
  | .tfree h n => joinFull h 0x161 (640) (640) (640) (n.val)
  | .tstate h d n bytes => joinFull h 0x162 (opndC d) (640) (640) (n.val + 64 * b2n bytes)
  | .twait h n a b => joinFull h 0x163 (640) (opndC a) (opndC b) (n.val)
  | .ttest h d n a b => joinFull h 0x164 ((8 + d.val)) (opndC a) (opndC b) (n.val)
  | .texpect h n a => joinFull h 0x165 (640) (opndC a) (640) (n.val)
  | .tdrain h n => joinFull h 0x166 (640) (640) (640) (n.val)
  | .xload h n a b rmask win s24 mc => joinFull h 0x167 (640) (opndC a) (opndC b) (n.val + 64 * rmask.toNat + 2048 * b2n win + 4096 * b2n s24 + 8192 * b2n mc)
  | .xstore h n a b => joinFull h 0x168 (640) (opndC a) (opndC b) (n.val)
  | .xfence h st => joinFull h 0x16A (640) (640) (640) (b2n st)
  | .xstat h d => joinFull h 0x16B (opndC d) (640) (640) (0)
  | .xpref h a b => joinFull h 0x16C (640) (opndC a) (opndC b) (0)
  | .mma h d a b c ty => joinFull h 0x180 (opndC d) (opndC a) (opndC b) (16 * opndC c + mmatyC ty)
  | .mmas h d a b c ty => joinFull h 0x181 (opndC d) (opndC a) (opndC b) (16 * opndC c + mmatyC ty)
  | .mmac h d a b c conj => joinFull h 0x182 (opndC d) (opndC a) (opndC b) (16 * opndC c + b2n conj)
  | .mmax h d a b c => joinFull h 0x183 (opndC d) (opndC a) (opndC b) (16 * opndC c)
  | .ldm h d a b m => joinFull h 0x184 (opndC d) (opndC a) (opndC b) (fragmodC m)
  | .stm h d a b m => joinFull h 0x185 (opndC d) (opndC a) (opndC b) (fragmodC m)
  | .mxb h d a b c => joinFull h 0x1A0 (opndC d) (opndC a) (opndC b) (16 * opndC c)
  | .mxbw h d a => joinFull h 0x1A1 (opndC d) (opndC a) (640) (0)
  | .mxbt h d a => joinFull h 0x1A2 (pcodeC d) (opndC a) (640) (0)
  | .accz h d a => joinFull h 0x1A3 (opndC d) (opndC a) (640) (0)
  | .accld h d a b st => joinFull h 0x1A4 (opndC d) (opndC a) (opndC b) (16 * numtyC st)
  | .accst h d a b dt st rm sat => joinFull h 0x1A5 (opndC d) (opndC a) (opndC b) (b2n sat + 2 * rndeC rm + 16 * numtyC st + 512 * numtyC dt)
  | .accrd h d a => joinFull h 0x1A6 (opndC d) (opndC a) (640) (0)
  | .slvcfg h d a b => joinFull h 0x1B0 (opndC d) (opndC a) (opndC b) (0)
  | .slvinit h d a b => joinFull h 0x1B1 (opndC d) (opndC a) (opndC b) (0)
  | .slvstage h d a b => joinFull h 0x1B2 (opndC d) (opndC a) (opndC b) (0)
  | .slvput h d a b => joinFull h 0x1B3 (opndC d) (opndC a) (opndC b) (0)
  | .slvstep h d a b => joinFull h 0x1B4 (opndC d) (opndC a) (opndC b) (0)
  | .slvstat h d a b => joinFull h 0x1B5 (opndC d) (opndC a) (opndC b) (0)
  | .launch h d a => joinFull h 0x1C0 (opndC d) (opndC a) (640) (0)
  | .emit h a b rs => joinFull h 0x1C1 (640) (opndC a) (opndC b) (recsizeC rs)
  | .cont h a b rs => joinFull h 0x1C2 (640) (opndC a) (opndC b) (recsizeC rs)
  | .notify h d a b => joinFull h 0x1C3 (opndC d) (opndC a) (opndC b) (0)
  | .nodeq h d a => joinFull h 0x1C4 (opndC d) (opndC a) (640) (0)
  | .rdsys h d w64 n => joinFull h 0x1D0 (opndC d) (640) (640) (n.val + 1024 * b2n w64)
  | .wrsys h a w64 n => joinFull h 0x1D1 (640) (opndC a) (640) (n.val + 1024 * b2n w64)
  | .syscall h d a b => joinFull h 0x1D2 (opndC d) (opndC a) (opndC b) (0)
  | .tret h d a b c => joinFull h 0x1D3 (opndC d) (opndC a) (opndC b) (16 * opndC c)
  | .ctxload h d a b => joinFull h 0x1D8 (opndC d) (opndC a) (opndC b) (0)
  | .ctxsaveEvict h d a b => joinFull h 0x1D9 (opndC d) (opndC a) (opndC b) (0)
  | .ctxsaveDestroy h d a => joinFull h 0x1D9 (opndC d) (opndC a) (0x301) (0)
  | .preemptSpatial h d a => joinFull h 0x1DA (opndC d) (opndC a) (640) (0)
  | .preemptHalt h d a => joinFull h 0x1DA (opndC d) (opndC a) (640) (1)
  | .preemptStop h d a => joinFull h 0x1DA (opndC d) (opndC a) (640) (2)
  | .preemptResume h d a => joinFull h 0x1DA (opndC d) (opndC a) (640) (3)
  | .preemptRdreg h d a => joinFull h 0x1DA (opndC d) (opndC a) (640) (4)
  | .preemptWrreg h d a => joinFull h 0x1DA (opndC d) (opndC a) (640) (5)
  | .dump h d a => joinFull h 0x1DB (opndC d) (opndC a) (640) (0)
  | .msgsend h d a b mc q => joinFull h 0x1D4 (opndC d) (opndC a) (opndC b) (q.val + 8 * b2n mc)
  | .msgrecv h d a nb => joinFull h 0x1D5 (opndC d) (opndC a) (640) (b2n nb)
  | .invapply h d a => joinFull h 0x1D6 (opndC d) (opndC a) (640) (0)
  | .tlbinv h d a => joinFull h 0x1D7 (opndC d) (opndC a) (640) (0)
  | .zeropg h d a b => joinFull h 0x1DD (opndC d) (opndC a) (opndC b) (0)
  | .splitrd h d a form => joinFull h 0x1F0 (opndC d) (opndC a) (640) (splitformC form)
  | .splitsnap h d a all => joinFull h 0x1F1 (opndC d) (opndC a) (640) (b2n all)
  | .mark h tag a => joinFull h 0x1F2 (640) (opndC a) (640) (tag.toNat)
  | .sampcfg h d a => joinFull h 0x1F3 (opndC d) (opndC a) (640) (0)
  | .clock h d => joinFull h 0x1F4 (opndC d) (640) (640) (0)
  | .retcnt h d => joinFull h 0x1F5 (opndC d) (640) (640) (0)
  | .illegalWordKill _ => noWord
  | .sleepEnd _ => noWord
  | .stackSpill _ => noWord
  | .stackFill _ => noWord
  | .regionRestart _ => noWord
  | .registerComplete _ => noWord
  | .sideLogReplay _ _ => noWord
  | .chunkReissue _ => noWord
  | .atomicPerform _ => noWord
  | .barrierWake _ => noWord
  | .watchEvaluate _ _ => noWord
  | .watchTimeout _ _ => noWord
  | .copyJobStart _ => noWord
  | .mcPartStart _ _ => noWord
  | .chunkSettle _ => noWord
  | .copyJobComplete _ => noWord
  | .mxbJobStart _ => noWord
  | .accJobStart _ => noWord
  | .kblockEnd _ => noWord
  | .mxbJobComplete _ => noWord
  | .slvOpCommit _ => noWord
  | .parseGrid _ => noWord
  | .parseOpen _ => noWord
  | .parseClose _ => noWord
  | .nodeGather _ _ => noWord
  | .gatherTimerExpiry _ _ => noWord
  | .nodeDrained _ _ => noWord
  | .placeTeam _ => noWord
  | .successorForm _ => noWord
  | .teamRetire _ => noWord
  | .gridComplete _ => noWord
  | .queueResetComplete _ => noWord
  | .dumpRun _ => noWord
  | .dumpDone _ => noWord
  | .trapEntry _ => noWord
  | .teamSave _ => noWord
  | .sliceEnd _ => noWord
  | .ownerChange _ => noWord
  | .groomerReport _ => noWord
  | .shootdownApply _ => noWord
  | .lazyApply _ => noWord
  | .drainDone _ => noWord
  | .traceDeliver _ => noWord
  | .headroomDeliver _ => noWord
  | .writeAcknowledged _ => noWord
  | .touchWindowClose _ => noWord
  | .pageWalkComplete _ _ _ => noWord
  | .accessCountNotify _ => noWord
  | .sample _ _ => noWord
  | .overflowFold _ _ => noWord
  | .correctedError _ => noWord
  | .uncorrectableWriteback _ => noWord
  | .patrolScrub _ => noWord
  | .qtailWrite _ _ => noWord
  | .portEnable _ => noWord
  | .portDisable _ => noWord
  | .qreset _ => noWord
  | .dieLoss _ => noWord
  | .fmResetRequest _ => noWord
  | .linkWidthChange _ _ _ => noWord
  | .linkClockChange _ _ => noWord
  | .hostMemAccess _ _ _ => noWord
  | .hostSnoop _ _ => noWord
  | .yosonTimeout _ => noWord
  | .yosonPortFail _ => noWord
  | .frameReceive _ _ _ => noWord
  | .nvmeCompletion _ _ _ _ => noWord
  | .powerUp => noWord
  | .loadfe => noWord
  | .loaddie _ => noWord
  | .quote => noWord
  | .clockPlan _ => noWord
  | .powerMeasure _ _ => noWord
  | .supplyShutdown => noWord
  | .packageLoss => noWord
  | .ceClear _ => noWord
  | .unmatchedClear _ => noWord
  | .badfcsClear _ => noWord
  | .ringEnable _ _ _ => noWord
  | .csetWrite _ _ _ => noWord
  | .registerWrite _ _ _ => noWord
  | .ethernetLinkChange _ _ => noWord
  | .yosonlinkRequest _ => noWord

/-- The last checks of a candidate: the X field holds exactly what the instruction encodes there (R29), and the operands
obey their rules (R30–R35, R44). -/
def checked (w : Nat) (i : Instr) : Except Reject Instr :=
  if encode i % 2 ^ 14 ≠ w % 2 ^ 14 then .error .modifier else if i.wf then .ok i else .error .operand

/-- The instruction of a 64-bit word, or why there is none (R28, R46). -/
def decodeWord (w : Nat) : Except Reject Instr :=
  match w / 2 ^ 62 % 4 with
  | 0 => (match candFull (rawOf w) with | some i => checked w i | none => .error .unassigned)
  | 1 => (match candPair w with | some i => checked w i | none => .error .unassigned)
  | 2 => if w / 2 ^ 32 % 4 ≠ 0 then .error .modifier
         else (match candWide (rawOf w) with | some i => checked w i | none => .error .unassigned)
  | _ => .error .reservedFormat

/-- The instruction of the eight bytes at an address, lowest address first (R2). -/
def decodeBytes (l : List Byte) : Except Reject Instr := decodeWord (ofBytes l)

/-- The bytes of an instruction as memory holds them (R2). -/
def encodeBytes (i : Instr) : List Byte := toBytes 8 (encode i)

/-- The instruction the decoder reads from a table row's word: the bits above `nbits` are zero, the word is laid out as the
hardware stores it and given to the decoder. -/
def decodeTableWord (nbits w : Nat) : Option Instr := (decodeBytes (toBytes 8 (w % 2 ^ nbits))).toOption

end Sys2Proof
end

