-- ==== Sys2Proof/Machine/Accounts.lean ====
section
/-! DEFINITION. The accounts of slot-cycles (R382–R385): counters of a core, folds into a context's split table or its held account,
the idle and retired accounts, and what a reading of an account finds. -/

namespace Sys2Proof.Machine

/-- A core's counter key: sixteen causes for each port (R382). -/
def counterKey (port cause : Nat) : Nat := port * 16 + cause

/-- A count added to a list of counts. -/
def addCount (m : List (Nat × Nat)) (k n : Nat) : List (Nat × Nat) := if n = 0 then m else kset m k (((kget m k).getD 0) + n)
/-- Counts by cause added to an account, modulo 2^64 (R383). -/
def addCounts (m l : List (Nat × Nat)) : List (Nat × Nat) :=
  l.foldl (fun m c => kset m (c.1 % 16) ((((kget m (c.1 % 16)).getD 0) + c.2) % 2 ^ 64)) m

/-- Whether a core's slots are all EMPTY in the idle account and not yet entered in its counters. -/
def Core.lazy (c : Core) : Bool := decide (c.owner = 0) && c.changing.isNone

/-- A core's counters with the idle account's EMPTY slots before a clk entered (R379 row 5). -/
def Core.settled (c : Core) (clk : Nat) : List (Nat × Nat) :=
  if c.lazy then (List.range 4).foldl (fun m p => addCount m (counterKey p 13) (clk - c.emptyFrom)) c.counters else c.counters

/-- The idle account's slots of a core entered in its counters. -/
def State.settleCore (s : State) (core : Nat) : State :=
  s.modCore core (fun c => { c with counters := c.settled s.pkg.clock, emptyFrom := if c.lazy then s.pkg.clock else c.emptyFrom })

/-- A context's split table: its flat address, when the ring size is in range and every check passes (R383). -/
def State.splitTable (s : State) (ctx : Nat) (n : Need) : Option Nat × State :=
  let c := s.ctxD ctx
  if c.ringOk && (s.ctx ctx).isSome then s.homeOf ctx (ptrOff c.frbase ((320 * 2 ^ c.sizel : Nat) : Int)) n else (none, s)

/-- Counts added to a context's table, with its held account, or to the held account (R383). -/
def State.foldContext (s : State) (ctx : Nat) (l : List (Nat × Nat)) : State :=
  match s.splitTable ctx needW with
  | (none, s) => s.modCtx ctx (fun c => { c with held := addCounts c.held l })
  | (some a, s) =>
    let sum := addCounts (addCounts [] (s.ctxD ctx).held) l
    let s := sum.foldl (fun s c => s.homePut (a + 8 * c.1) (toBytes 8 ((s.num (a + 8 * c.1) 8 + c.2) % 2 ^ 64))) s
    let s := s.homePut (a + 128) (toBytes 8 (s.num (a + 128) 8 + 1))
    (s.homePut (a + 136) (toBytes 8 s.time)).modCtx ctx (fun c => { c with held := [] })

/-- One port's counters folded to an account (R382, R383). -/
def State.foldPort (s : State) (ctx : Nat) (counters : List (Nat × Nat)) (port : Nat) : State :=
  let l := (counters.filter (fun c => decide (c.1 / 16 = port))).map (fun c => (c.1 % 16, c.2))
  if ctx = 0 then s.modPkg (fun p => { p with idle := addCounts p.idle l }) else s.foldContext ctx l

/-- Every port of a core folded to an owner, its counters starting again (R22 step 1, R383). -/
def State.foldCore (s : State) (core : Nat) : State :=
  let s := s.settleCore core
  let c := s.core core
  ((List.range 4).foldl (fun s p => s.foldPort c.owner c.counters p) s).modCore core (fun c => { c with counters := [] })

/-- OVERFLOW_FOLD's condition for a port (R382). -/
def Core.overflows (c : Core) (port : Nat) : Bool :=
  c.counters.any (fun x => decide (x.1 / 16 = port) && decide (2 ^ 48 - 2 ^ 32 ≤ x.2))

/-- One port folded on overflow (R382). -/
def State.overflowFold (s : State) (core port : Nat) : State :=
  let c := s.core core
  if c.overflows port then
    (s.foldPort c.owner c.counters port).modCore core (fun c => { c with counters := c.counters.filter (fun x => decide (x.1 / 16 ≠ port)) })
  else s

/-- The sixteen counts at a context's table (R383). -/
def State.tableCounts (s : State) (ctx : Nat) : List (Nat × Nat) :=
  match (s.splitTable ctx needR).1 with
  | some a => (List.range 16).map (fun c => (c, s.num (a + 8 * c) 8))
  | none => []

/-- The counters not yet folded that belong to an account at the current clk: those of the cores it owns, and the SWITCH slots of
the cores on their way to it (R380, R387). -/
def State.unfolded (s : State) (ctx : Nat) : List (Nat × Nat) :=
  let far := if ctx = 0 then ((List.range 224).filter (fun c => (kget s.cores c).isNone)).foldl (fun m _ => addCount m 13 (4 * s.pkg.clock)) [] else []
  (s.cores.filter (fun c => isCompute c.1)).foldl (fun m c =>
    let m := if c.2.owner = ctx then addCounts m (c.2.settled s.pkg.clock) else m
    if c.2.changing = some ctx then addCounts m c.2.swCounters else m) far

/-- An account as SPLITRD.CTX takes it (R387). -/
def State.account (s : State) (ctx : Nat) : List (Nat × Nat) :=
  if ctx = 0 then addCounts (addCounts [] s.pkg.idle) (s.unfolded 0)
  else addCounts (addCounts (addCounts [] (s.tableCounts ctx)) (s.ctxD ctx).held) (s.unfolded ctx)

/-- The cores a context owns (R388). -/
def State.coresOf (s : State) (ctx : Nat) : Nat := ((List.range 224).filter (fun c => decide ((s.core c).owner = ctx))).length

/-- CTXLOAD's clearing of the split table (R384). -/
def State.clearTable (s : State) (ctx : Nat) : State :=
  match s.splitTable ctx needW with
  | (some a, s) => s.homePut a (List.replicate 256 0)
  | (none, s) => s

/-- CTXSAVE DESTROY's addition of the final counts to the retired account (R384). -/
def State.retireAccount (s : State) (ctx : Nat) : State :=
  let l := addCounts (s.tableCounts ctx) (s.ctxD ctx).held
  s.modPkg (fun p => { p with retired := addCounts p.retired l })

end Sys2Proof.Machine
end

