-- ==== Sys2Proof/Machine/CtlSpace.lean ====
section
/-! DEFINITION. The package control space as it is read (R313, R417–R425), and writes on their way to a register (R420). -/

namespace Sys2Proof.Machine

/-- Register `j` of eight bytes in a row of bytes. -/
def regBytes (l : List Byte) (j : Nat) : Nat := ofBytes ((List.range 8).map (fun k => l.getD (8 * j + k) 0))

/-- A queue port's register (R313). -/
def QPort.regRead (p : QPort) (o : Nat) : Nat :=
  match o with
  | 0x000 => p.qring.toNat
  | 0x008 => field 23 9 p.ctx + field 8 3 p.prio + field 1 5 p.sizel + field 0 1 (if p.en then 1 else 0)
  | 0x010 => p.qtail.toNat
  | 0x018 => p.qhead.toNat
  | 0x020 => field 16 2 p.state + field 0 16 p.bad
  | 0x030 => p.qerr.toNat
  | _ => 0

/-- The average of the last ten power measurements (R418, R419). -/
def Pkg.power (p : Pkg) : Nat := if p.pHist.isEmpty then 0 else (p.pHist.take 10).foldl (· + ·) 0 / (p.pHist.take 10).length

/-- A register of the management block (R417, R419, R424, R425). -/
def Pkg.regRead (p : Pkg) (o : Nat) : Nat :=
  if o < 0x100 then (kget p.bands (o / 8)).getD 0
  else if o = 0x108 then field 30 2 p.cpst + field 0 11 p.freq
  else if o = 0x200 then p.plim
  else if o = 0x208 then field 28 1 (if p.thr then 1 else 0) + field 27 1 (if p.hot then 1 else 0) + field 0 13 p.power
  else if o = 0x1000 then p.mbaddr.toNat
  else if o = 0x1008 then p.mblen.toNat
  else if o = 0x1018 then field 62 2 (p.mbstat.toNat / 2 ^ 8) + field 0 8 p.mbstat.toNat
  else if 0x1100 ≤ o ∧ o < 0x1140 then regBytes p.nonce ((o - 0x1100) / 8)
  else if 0x2000 ≤ o ∧ o < 0x2B00 then regBytes ((kget p.measLog ((o - 0x2000) / 128)).getD []) ((o - 0x2000) % 128 / 8)
  else if 0x3000 ≤ o ∧ o < 0x3060 then regBytes ((List.range 96).map Config.devicePublic) ((o - 0x3000) / 8)
  else 0

/-- An Ethernet port's register (R423). -/
def EthPort.regRead (e : EthPort) (o : Nat) : Nat :=
  if o = 0x0000 then field 1 2 e.media + field 0 1 (if e.en then 1 else 0)
  else if o = 0x0008 then (if e.link then 1 else 0)
  else if o = 0x0010 then e.unmatched
  else if o = 0x0018 then e.badfcs
  else if 0x1000 ≤ o ∧ o < 0x2000 then
    (match kget e.rings ((o - 0x1000) / 64) with
    | some r => if o % 64 = 0 then r.rbase.toNat else if o % 64 = 8 then r.rcfg.toNat else 0
    | none => 0)
  else if 0x8000 ≤ o then bitsOf ((kget e.rules ((o - 0x8000) / 128)).getD 0) (64 * (o % 128 / 8)) 64
  else 0

/-- A register that every die has, or one kind of die (R421). -/
def Die.regRead (x : Die) (d o : Nat) : Nat :=
  match o with
  | 0xF00000 => x.cecnt
  | 0xF00010 => x.cethr
  | 0xF00100 => if d < 8 then x.nqbase.toNat + (if x.nqen.getLsbD 0 then 1 else 0) else 0
  | 0xF00108 => if d < 8 then x.nqtail.toNat else 0
  | 0xF00110 => if d < 8 then x.nqhead.toNat else 0
  | 0xF00118 => if d < 8 then x.nqloss else 0
  | 0xF00200 => if 8 ≤ d ∧ d < 20 then x.cmpen.toNat else 0
  | _ => 0

/-- A register of the control space (R420): anything else reads zero, and so does the block of a die that does not run. -/
def State.ctlRead (s : State) (pa : Nat) : Nat :=
  let d := pa % 2 ^ 50 / 2 ^ 24
  let o := pa % 2 ^ 24
  if pa % 8 ≠ 0 ∨ 20 < d then 0
  else if 0xF00000 ≤ o then (match (s.die d).st with
    | .up => (s.die d).regRead d o
    | .drain => (s.die d).regRead d o
    | _ => 0)
  else if d ≠ 20 then 0
  else if o < 0x400000 then (s.port (o / 4096)).regRead (o % 4096)
  else if o < 0x410000 then s.pkg.regRead (o - 0x400000)
  else if 0x500000 ≤ o ∧ o < 0x580000 then (s.ethp (o / 0x10000 % 8)).regRead (o % 0x10000)
  else if 0x600020 ≤ o ∧ o < 0x602020 then bitsOf (s.feCtx ((o - 0x600000) / 32)).cset (64 * (o / 8 % 4)) 64
  else if 0x610008 ≤ o ∧ o < 0x610808 + 8 then
    (let c := (o - 0x610000) / 8
     if c ≤ 256 ∧ (s.ctx c).isSome then field 32 9 (s.feCtx c).devq.length + field 0 16 (s.feCtx c).devBad else 0)
  else 0

/-- A write of the control space on its way to its register: it is performed before the next word (R420). -/
def State.ctlWrite (s : State) (pa v : Nat) (bar0 : Bool) : State := { s with ctlq := s.ctlq ++ [(pa, v, bar0)] }

end Sys2Proof.Machine
end

