-- ==== Sys2Proof/Machine/Stack.lean ====
section
/-! DEFINITION. The lane stack (R84, R85, R128, R358): reading and writing the bytes of a lane's .L space. -/

namespace Sys2Proof.Machine

/-- The outcome of reaching memory for one lane: the bytes, a trap-class failure, no valid leaf, an access that completes with
MCHECK at a physical address, or an access that must wait (R132, R159, R372). -/
inductive Got where
  | bytes (l : List Byte)
  | fail (c : Cause)
  | absent (ptr : DWord) (mal : Bool) (lvl : Nat)
  | mcheck (pa : Nat)
  | wait
  deriving DecidableEq, Repr

/-- One byte of a lane's stack behind the stack cache (R85): a read of the backing byte, checked as a .G load. -/
def State.backByte (s : State) (gid : Nat) (g : Group) (l o : Nat) : Got × State :=
  let ptr := s.backPtr gid g l o
  match s.xlate g.who ptr needR with
  | (.ok e size, s) => (match s.place g.isSup e size ptr with
    | .mem f => if s.bad f 1 then (.mcheck f, s) else (.bytes [(s.logByte g.core g.ctx (vaOf ptr)).getD (s.byte f)], s)
    | .mcheck pa => (.mcheck pa, s)
    | .control pa => (.mcheck pa, s)
    | .wait => (.wait, s))
  | (.absent mal lvl, s) => (.absent ptr mal lvl, s)
  | (.fail c, s) => (.fail c, s)

/-- One byte of a lane's stack: the stack cache's, its backing page's or a supervisor core's stack memory. -/
def State.stackByte (s : State) (gid : Nat) (g : Group) (l o : Nat) : Got × State :=
  if g.isSup then (.bytes [s.byte (flatStack g.core (gidSlot gid) o)], s)
  else match kget g.stk (o * 32 + l) with
    | some c => (.bytes [c.b], s)
    | none => s.backByte gid g l o

/-- Bytes of a lane's stack, lowest offset first. -/
def State.readL (s : State) (gid : Nat) (g : Group) (l : Nat) : Nat → Nat → Got × State
  | 0, _ => (.bytes [], s)
  | n + 1, o =>
    match s.stackByte gid g l o with
    | (.bytes b, s1) => (match s1.readL gid g l n (o + 1) with
      | (.bytes t, s2) => (.bytes (b ++ t), s2)
      | r => r)
    | r => r

/-- Whether a lane's byte lies in its stack-cache window, for a stack pointer (R85). -/
def inWindow (lsp o : Nat) : Bool := decide (lsp ≤ o) && decide (o < lsp + 64)

/-- The check a byte stored behind the stack cache must pass (R128): as a .G store. -/
def State.backCheck (s : State) (gid : Nat) (g : Group) (l o : Nat) : Got × State :=
  let ptr := s.backPtr gid g l o
  match s.xlate g.who ptr needW with
  | (.ok e size, s) => (match s.place g.isSup e size ptr with
    | .mem _ => (.bytes [], s)
    | .mcheck pa => (.mcheck pa, s)
    | .control pa => (.mcheck pa, s)
    | .wait => (.wait, s))
  | (.absent _ _, s) => (.bytes [], s)
  | (.fail c, s) => (.fail c, s)

/-- The first failure among the bytes of a store behind the stack cache. -/
def State.backChecks (s : State) (gid : Nat) (g : Group) (l lsp : Nat) : Nat → Nat → Got × State
  | 0, _ => (.bytes [], s)
  | n + 1, o =>
    if g.isSup || inWindow lsp o then s.backChecks gid g l lsp n (o + 1)
    else match s.backCheck gid g l o with
      | (.bytes _, s1) => s1.backChecks gid g l lsp n (o + 1)
      | r => r

/-- Bytes stored into a lane's stack, for a stack pointer (R85): inside the window into the stack cache, otherwise to the
backing pages or the side log. -/
def State.writeL (s : State) (gid : Nat) (g : Group) (l lsp : Nat) : Nat → List Byte → State
  | _, [] => s
  | o, b :: t =>
    let s1 :=
      if g.isSup then s.put (flatStack g.core (gidSlot gid) o) [b]
      else if inWindow lsp o then s.modGrp gid (fun x => { x with stk := kset x.stk (o * 32 + l) ⟨b, true⟩ })
      else ((s.spillByte gid g true l o b).2).modGrp gid (fun x => { x with stk := kdel x.stk (o * 32 + l) })
    s1.writeL gid g l lsp (o + 1) t

/-- STACK SPILL (R85): the dirty bytes outside the lanes' windows go to the backing pages. -/
def State.spillOutside (s : State) (gid : Nat) : State :=
  let g := s.grpD gid
  (s.spill gid true (fun l o => !inWindow (g.lspOf l).toNat o)).2

/-- Whether dirty bytes lie outside their lane's window. -/
def Group.spillDue (g : Group) : Bool := g.stk.any (fun c => c.2.dirty && !inWindow (g.lspOf (c.1 % 32)).toNat (c.1 / 32))

/-- STACK FILL (R85): the bytes of the lanes' windows come in from the backing pages; a byte whose page is absent or fails a
check stays out, and the word that needs it meets the failure. -/
def State.fillStack (s : State) (gid : Nat) : State :=
  let g := s.grpD gid
  if g.isSup then s.modGrp gid (fun x => { x with fillDue := false })
  else
    let todo := (lanesOf g.live).flatMap (fun l => (upFrom (g.lspOf l).toNat (min 64 (s.stackTop g - (g.lspOf l).toNat))).map (fun o => (l, o)))
    (todo.foldl (fun s x =>
      match kget (s.grpD gid).stk (x.2 * 32 + x.1) with
      | some _ => s
      | none => match s.backByte gid g x.1 x.2 with
        | (.bytes [b], s) => s.modGrp gid (fun y => { y with stk := kset y.stk (x.2 * 32 + x.1) ⟨b, false⟩ })
        | r => r.2) s).modGrp gid (fun x => { x with fillDue := false })

/-- A lane's failure to reach its stack, as the word meets it: the record's VA is the .L offset (R85, R340). -/
def W.stackGot (w : W) (l o kind : Nat) : Got → W
  | .bytes _ => w
  | .fail c => w.fault ⟨l, c, BitVec.ofNat 64 o, 0, 4, kind, 0, false⟩
  | .absent ptr mal lvl => w.absent ⟨l, .page, ptr, 0, 4, kind, pageDetail mal lvl, false⟩
  | .mcheck pa => w.fault ⟨l, .mcheck, BitVec.ofNat 64 o, pa, 4, kind, 0, false⟩
  | .wait => { w with hold := some .fault }

/-- A lane's STACK_OVER, its record naming the LSP the word would have set (R84, R340). -/
def W.stackOver (w : W) (l : Nat) (lsp : Int) : W := w.fault ⟨l, .stackOver, BitVec.ofInt 64 lsp, 0, 4, kindOther, 0, false⟩

/-- Whether an LSP a word would set is legal (R84). -/
def W.lspOk (w : W) (lsp : Int) : Bool := decide ((w.g.stackLimit : Int) ≤ lsp) && decide (lsp ≤ (w.s.stackTop w.g : Int))

/-- Set a lane's LSP; a higher one calls for a fill (R85). -/
def W.setLsp (w : W) (l : Nat) (lsp : Nat) : W :=
  w.mod (fun g => { g with lsp := lanes32.map (fun k => if k = l then BitVec.ofNat 32 lsp else g.lspOf k), fillDue := g.fillDue || decide ((g.lspOf l).toNat < lsp) })

/-- Push bytes on a lane's stack; the lane must have room (R84, R87). -/
def W.pushBytes (w : W) (l : Nat) (b : List Byte) : W :=
  let n := (w.g.lspOf l).toNat - b.length
  (w.setLsp l n).eff (fun s => s.writeL w.gid w.g l n n b)

end Sys2Proof.Machine
end

