-- ==== Sys2Proof/Machine/Mem.lean ====
section
/-! DEFINITION. Loads, stores, TOUCH, PREF, FLUSH, INV and VPROBE, 0x100–0x10C (chapter 06), and the side log a store enters
(R169). -/

namespace Sys2Proof.Machine

/-- Where an access of one lane lands after the checks of R132: global memory under a leaf, a register of the control space, an
on-chip memory byte (with the core whose lane path serves it), the lane's stack, or what keeps it from being performed. -/
inductive Reach where
  | glob (ptr : DWord) (e size flat : Nat)
  | ctl (pa : Nat)
  | chip (flat : Nat) (core : Option Nat)
  | stack (o : Nat)
  | fault (f : LaneFault)
  | absent (f : LaneFault)
  | wait
  deriving DecidableEq, Repr

/-- A lane's record for an access. -/
def accFault (l : Nat) (c : Cause) (va : DWord) (pa : Nat) (sp : Space) (kind : Nat) : LaneFault :=
  ⟨l, c, va, pa, spaceCode sp, kind, 0, false⟩

/-- The global pointer of R125. -/
def Group.gptr (g : Group) (l : Nat) (a b : Opnd) : DWord := ptrOff (g.rd64 l a) (sval (g.rd l b))

/-- The unbounded address of R125 in the other spaces. -/
def Group.offs (g : Group) (l : Nat) (a b : Opnd) : Int := ((g.rd l a).toNat : Int) + sval (g.rd l b)

/-- The checks of R132 for a global access of `n` bytes; `cached` when an L1 hit answers for the translation (R162). -/
def State.reachG (s : State) (w : Who) (l : Nat) (ptr : DWord) (n : Nat) (aligned cached : Bool) (need : Need) (kind : Nat) :
    Reach × State :=
  if aligned && decide (vaOf ptr % n ≠ 0) then (.fault (accFault l .misalign ptr 0 .g kind), s)
  else match (if cached then s.xlateL1 w ptr need else s.xlate w ptr need) with
    | (.ok e size, s) => (match s.place w.sup e size ptr with
      | .mem f => (.glob ptr e size f, s)
      | .mcheck pa => (.fault (accFault l .mcheck ptr pa .g kind), s)
      | .control pa => (.ctl pa, s)
      | .wait => (.wait, s))
    | (.fail c, s) => (.fault (accFault l c ptr 0 .g kind), s)
    | (.absent mal lvl, s) => (.absent { accFault l .page ptr 0 .g kind with detail := pageDetail mal lvl }, s)

/-- The checks of R126 and R20 for a cluster-shared offset. -/
def State.reachK (s : State) (g : Group) (o n : Nat) : Except Cause Nat × Nat :=
  if 2 ^ 22 ≤ o then (.error .bounds, 0)
  else
    let k := o / 2 ^ 20
    let off := o % 2 ^ 20
    match (kget s.lclusters (s.teamD g.tid).cluster).bind (fun c => kget c.teams k) with
    | none => (.error .bounds, 0)
    | some tid =>
      let t := s.teamD tid
      if t.allocSize < off + n then (.error .bounds, 0)
      else if (s.core t.core).owner ≠ g.ctx then (.error .perm, 0)
      else (.ok (flatScratch t.core (t.allocOff + off)), t.core)

/-- The checks of R132 for an access of `n` bytes at an offset of an on-chip space or the stack. -/
def State.reachOff (s : State) (g : Group) (l : Nat) (sp : Space) (o : Int) (n : Nat) (aligned : Bool) (kind : Nat) : Reach :=
  let bad : Cause → Reach := fun c => .fault (accFault l c (BitVec.ofInt 64 o) 0 sp kind)
  if o < 0 then bad .bounds
  else if aligned && decide (o.toNat % n ≠ 0) then bad .misalign
  else
    let a := o.toNat
    match sp with
    | .c =>
      let t := s.teamD g.tid
      if t.allocSize < a + n then bad .bounds else .chip (flatScratch g.core (t.allocOff + a)) (some g.core)
    | .k => (match s.reachK g a n with
      | (.ok f, c) => .chip f (some c)
      | (.error e, _) => bad e)
    | .d =>
      if (s.ctxD g.ctx).dscrsz * 65536 < a + n then bad .bounds else .chip (flatDie g.ctx (coreDie g.core) a) none
    | .l => if s.stackTop g < a + n then bad .bounds else .stack a
    | .g => bad .bounds

/-- The address formation and checks of a lane of a memory word (R125, R132). -/
def State.reach (s : State) (g : Group) (l : Nat) (sp : Space) (a b : Opnd) (n : Nat) (need : Need) (kind : Nat) : Reach × State :=
  match sp with
  | .g => s.reachG g.who l (g.gptr l a b) n true true need kind
  | _ => (s.reachOff g l sp (g.offs l a b) n true kind, s)

/-- The checks of every lane of a word, in ascending lanes. -/
def State.reachAll (s : State) (f : State → Nat → Reach × State) : List Nat → List (Nat × Reach) × State
  | [] => ([], s)
  | l :: t =>
    let r := f s l
    let q := r.2.reachAll f t
    ((l, r.1) :: q.1, q.2)

/-- Whether a lane of a word must wait for a mirrored page (R372). -/
def anyWait (l : List (Nat × Reach)) : Bool := l.any (fun x => decide (x.2 = .wait))

/-- Whether an atomic of the group still on its way covers bytes a lane reaches: program order at one byte keeps the word back
(R199). -/
def State.overlapsFlight (s : State) (gid n : Nat) (rs : List (Nat × Reach)) : Bool :=
  s.atoms.any (fun x => decide (x.2.gid = gid) && x.2.lanes.any (fun k =>
    let m := if x.2.w64 then 8 else 4
    rs.any (fun r => match r.2 with
      | .glob _ _ _ f => decide (f < k.addr + m) && decide (k.addr < f + n)
      | .chip f _ => decide (f < k.addr + m) && decide (k.addr < f + n)
      | _ => false)))

/-- The bank of the core scratchpad words an access touches (R133). -/
def wordsOf (n a : Nat) : List Nat := upFrom (a / 4) (max 1 (n / 4))

/-- The passes of an access (R133): lanes with their addresses in the core's scratchpad. -/
def passCount (n : Nat) (l : List (Nat × Nat)) : Nat :=
  let per := if n ≤ 4 then 32 else if n = 8 then 16 else 8
  ((List.range (32 / per)).map (fun k =>
    let ws := (l.filter (fun x => decide (x.1 / per = k))).foldl (fun m x => (wordsOf n x.2).foldl (fun m a => kset m a (a % 32)) m) []
    (List.range 32).foldl (fun m b => max m ((ws.filter (fun x => decide (x.2 = b))).length)) 0)).foldl (· + ·) 0

/-- Passes queued on a core's lane path (R134): the clk after the last one. -/
def State.takePath (s : State) (core p : Nat) : Nat × State :=
  let at_ := max s.pkg.clock (s.core core).pathBusy + p
  (at_, if p = 0 then s else s.modCore core (fun c => { c with pathBusy := at_ }))

/-- The on-chip lanes of a word that one core's lane path serves. -/
def chipLanes (rs : List (Nat × Reach)) (core : Nat) : List (Nat × Nat) :=
  rs.filterMap (fun x => match x.2 with
    | .chip f (some c) => if c = core then some (x.1, f) else none
    | _ => none)

/-- The cores other than its own that a word's lanes aim at (R136). -/
def remoteCores (rs : List (Nat × Reach)) (own : Nat) : List Nat :=
  (rs.foldl (fun m x => match x.2 with
    | .chip _ (some c) => if c = own then m else kset m c ()
    | _ => m) ([] : List (Nat × Unit))).map (fun x => x.1)

/-- A remote core's lane path taken for its lanes of a word (R136): the clk from which their data are read. -/
def remotePath (n : Nat) (rs : List (Nat × Reach)) (acc : Nat × W) (c : Nat) : Nat × W :=
  let q := acc.2.s.takePath c (passCount n (chipLanes rs c))
  (max acc.1 (q.1 + 48), { acc.2 with s := q.2 })

/-- The lane-path time of a word (R134, R136): its group is held until its own passes are over; the clk from which a load's
on-chip data are read. -/
def W.paths (w : W) (n : Nat) (rs : List (Nat × Reach)) : Nat × W :=
  if w.dry then (w.clk, w)
  else
    let own := chipLanes rs w.g.core
    let q := w.s.takePath w.g.core (passCount n own)
    let first : Nat × W :=
      if own.isEmpty then (w.clk + 1, { w with s := q.2 })
      else (q.1 + 20, { w with s := q.2 }.mod (fun g => { g with pathUntil := q.1, pathPc := w.pc }))
    (remoteCores rs w.g.core).foldl (remotePath n rs) first

/-- Whether any lane's access lies in the die scratchpad. -/
def anyDie (rs : List (Nat × Reach)) : Bool :=
  rs.any (fun x => match x.2 with | .chip _ none => true | _ => false)

/-- The 128-byte lines the lanes of a global word touch (R141). -/
def linesOf (rs : List (Nat × Reach)) : List Nat :=
  (rs.foldl (fun m x => match x.2 with
    | .glob p _ _ _ => kset m (vline p) ()
    | _ => m) ([] : List (Nat × Unit))).map (fun x => x.1)

/-- Whether every lane of a global load hits in the L1 (R141). -/
def State.allHit (s : State) (g : Group) (n : Nat) (rs : List (Nat × Reach)) : Bool :=
  !g.isSup && rs.all (fun x => match x.2 with
    | .glob p _ _ _ => ((kget (s.core g.core).l1 (vline p)).bind (fun l => l1Bytes l (vaOf p % 128) n)).isSome
    | .ctl _ => false
    | .stack _ => false
    | _ => true)

/-- The clk from which a load's values are read (R134, R136, R137, R141); a miss and a stack access take a FREE time. -/
def W.loadDue (w : W) (n : Nat) (rs : List (Nat × Reach)) (hit : Bool) : Nat × W :=
  let glob := rs.any (fun x => match x.2 with | .glob _ _ _ _ => true | .ctl _ => true | .stack _ => true | _ => false)
  let p := w.paths n rs
  let f := p.2.s.freeDue
  if w.dry then p
  else if glob && hit then (max p.1 (w.clk + ((linesOf rs).length - 1) + 29), p.2)
  else if glob then (max p.1 f.1, { p.2 with s := f.2 })
  else if anyDie rs then (max p.1 (f.1 + 90), { p.2 with s := f.2 })
  else p

/-- Bytes extended to the words of a destination (R130): sub-word values widened. -/
def loadValue (m : MemMod) (b : List Byte) : Nat :=
  let v := ofBytes b
  let n := szBytes m.sz
  if n < 4 && m.sx then (BitVec.ofInt 32 (sextNat v (8 * n))).toNat else v

/-- One lane's data: the bytes, or what the lane meets instead. -/
def W.readLane (w : W) (n : Nat) (pol : Pol) (sp : Space) (l : Nat) (r : Reach) : Option (List Byte) × W :=
  match r with
  | .glob p e size f =>
    (match w.s.loadG w.g.who p n pol e size f with
    | (some b, s) => (some b, { w with s := s })
    | (none, s) => (none, { w with s := s }.fault (accFault l .mcheck p (f % 2 ^ 52) .g kindLoad)))
  | .ctl pa => (some (toBytes n (if n = 8 then w.s.ctlRead pa else 0)), w)
  | .chip f _ =>
    if w.s.bad f n then (none, w.fault (accFault l .mcheck (BitVec.ofNat 64 (f % 2 ^ 20)) 0 sp kindLoad)) else (some (w.s.bytes f n), w)
  | .stack o =>
    (match w.s.readL w.gid w.g l n o with
    | (.bytes b, s) => (some b, { w with s := s })
    | (x, s) => (none, { w with s := s }.stackGot l o kindLoad x))
  | .fault f => (none, w.fault f)
  | .absent f => (none, w.absent f)
  | .wait => (none, w)

/-- Every lane's data in ascending lanes: the destination cells of the lanes that got them; a lane whose fault is suppressed
receives zeros (R93). -/
def W.loadLanes (w : W) (n : Nat) (m : MemMod) (d : Opnd) : List (Nat × Reach) → List (Nat × Word) × W
  | [] => ([], w)
  | (l, r) :: t =>
    let (b, w) := w.readLane n m.pol m.sp l r
    let cells := match b with
      | some b => let v := loadValue m b; dstCellsN d (szRegs m.sz) [l] (fun j _ => BitVec.ofNat 32 (bitsOf v (32 * j) 32))
      | none => if w.mute l then zeroCells w.f l else []
    let (c, w) := w.loadLanes n m d t
    (cells ++ c, w)

/-- LD and LDU (R130, R131). -/
def W.load (w : W) (d a b : Opnd) (m : MemMod) : W :=
  let n := szBytes m.sz
  let r0 := w.s.reachAll (fun s l => s.reach w.g l m.sp a b n needR kindLoad) w.ex
  let rs := r0.1
  let w := { w with s := r0.2 }
  if anyWait rs then { w with hold := some .fault }
  else if w.s.overlapsFlight w.gid n rs then { w with hold := some .depMem }
  else
    let r := w.loadLanes n m d rs
    if r.2.rolled then r.2
    else
      let q := r.2.loadDue n rs (w.s.allHit w.g n rs)
      q.2.var r.1 q.1 true

/-- A write that the side log takes (R169): lane, tagged pointer, absent page (MALFORMED, level) and bytes. -/
structure LogWrite where
  ptr : DWord
  absent : Option (Bool × Nat)
  bytes : List Byte
  deriving DecidableEq, Repr

/-- The tagged pointer of the 128-byte line that holds a byte. -/
def linePtr (p : DWord) : DWord := ptrOff p (-((vaOf p % 128 : Nat) : Int))

/-- A log entry in the making: the bytes by offset in its line, and whether its page is absent. -/
abbrev LineLog := List (Nat × DWord × Option (Bool × Nat) × List (Nat × Byte))

/-- Merge a lane's bytes into its line's entry, a later lane's winning (R130, R169). -/
def mergeLog (m : LineLog) (x : LogWrite) : LineLog :=
  let k := x.ptr.toNat / 128
  let old := (kget m k).getD (linePtr x.ptr, none, [])
  let bytes := (x.bytes.zipIdx.foldl (fun acc b => kset acc (vaOf x.ptr % 128 + b.2) b.1) old.2.2)
  kset m k (old.1, (if x.absent.isSome then x.absent else old.2.1), bytes)

/-- The log entries of a word put into the core's log, in ascending line addresses; an absent page sends one request for each
block that has no earlier entry (R165, R169). -/
def State.logLines (s : State) (gid : Nat) (g : Group) (m : LineLog) : State :=
  m.foldl (fun s x => s.logStore gid g x.2.1 (.store x.2.2.2) (if s.logHas g.core gid x.2.1 then none else x.2.2.1)) s

/-- Whether a global store at a checked address enters the side log (R169). -/
def State.logged (s : State) (gid : Nat) (g : Group) (ptr : DWord) (e : Nat) : Bool := leafWb e || s.logHas g.core gid ptr

/-- What the side log takes of a store word. -/
def W.storeLog (w : W) (data : Nat → List Byte) (rs : List (Nat × Reach)) : LineLog :=
  rs.foldl (fun m x => match x.2 with
    | .glob p e _ _ => if w.s.logged w.gid w.g p e then mergeLog m ⟨p, none, data x.1⟩ else m
    | .absent f => mergeLog m ⟨f.va, some (f.detail.testBit 15, bitsOf f.detail 12 3), data x.1⟩
    | _ => m) []

/-- One lane's store performed (R130); what the side log takes is not performed here. -/
def W.writeLane (w : W) (n : Nat) (pol : Pol) (l : Nat) (b : List Byte) (r : Reach) : W :=
  match r with
  | .glob p e size f => if w.s0.logged w.gid w.g p e then w else w.eff (fun s => s.storeG w.g.who p pol e size f b)
  | .ctl pa => if n = 8 then w.eff (fun s => s.ctlWrite pa (ofBytes b) false) else w
  | .chip f _ => w.eff (fun s => s.put f b)
  | .stack o =>
    (match w.s.backChecks w.gid w.g l (w.g.lspOf l).toNat n o with
    | (.bytes _, s) => { w with s := s }.eff (fun s => s.writeL w.gid w.g l (w.g.lspOf l).toNat o b)
    | (x, s) => { w with s := s }.stackGot l o kindStore x)
  | .fault f => w.fault f
  | .absent f => if w.dry then w.fault f else w
  | .wait => w

/-- The lanes whose stores take place (R93, R131): not helper lanes, but for .L. -/
def W.storeLanes (w : W) (sp : Space) : List Nat :=
  if sp = .l then w.ex
  else if uniOf w.f then (if (lanesOf w.act).all w.g.isHelper then [] else w.ex)
  else w.ex.filter (fun l => !w.g.isHelper l)

/-- The bytes a lane of a store word stores (R130). -/
def Group.storeData (g : Group) (sz : MSize) (d : Opnd) (l : Nat) : List Byte :=
  toBytes (szBytes sz) (ofBytes ((List.range (szRegs sz)).flatMap (fun j => toBytes 4 (g.rdj l j d).toNat)))

/-- ST and STU (R130, R131). -/
def W.store (w : W) (d a b : Opnd) (m : MemMod) : W :=
  let n := szBytes m.sz
  let r0 := w.s.reachAll (fun s l => s.reach w.g l m.sp a b n needW kindStore) (w.storeLanes m.sp)
  let rs := r0.1
  let w := { w with s := r0.2 }
  let data := w.g.storeData m.sz d
  let log : LineLog := w.storeLog data rs
  if anyWait rs || decide (w.s.logFree w.g.core < (List.length (α := Nat × DWord × Option (Bool × Nat) × List (Nat × Byte)) log)) then { w with hold := some .fault }
  else if w.s.overlapsFlight w.gid n rs then { w with hold := some .depMem }
  else
    let v := (rs.foldl (fun w x => w.writeLane n m.pol x.1 (data x.1) x.2) w).eff (fun s => s.logLines w.gid w.g log)
    (v.paths n rs).2

/-- The lanes of a translated word in ascending order, with no alignment (R142–R144). -/
def State.reachPtrs (s : State) (g : Group) (ex : List Nat) (a b : Opnd) (need : Need) : List (Nat × Reach) × State :=
  s.reachAll (fun s l => s.reachG g.who l (g.gptr l a b) 1 false false need kindLoad) ex

/-- The blocks a TOUCH opens its window for: of the lanes that passed, a lost page's among them (R97, R144). -/
def Group.touchBlocks (g : Group) (a b : Opnd) (rs : List (Nat × Reach)) : List (Nat × Nat) :=
  rs.filterMap (fun x => match x.2 with
    | .glob p _ _ _ => some (x.1, vaOf p / 2 ^ 16)
    | .ctl _ => some (x.1, vaOf (g.gptr x.1 a b) / 2 ^ 16)
    | .fault f => if f.cause = .mcheck then some (x.1, vaOf f.va / 2 ^ 16) else none
    | _ => none)

/-- The faults of a TOUCH's lanes (R144). -/
def W.touchFaults (w : W) (rs : List (Nat × Reach)) : W :=
  rs.foldl (fun w x => match x.2 with
    | .fault f => if f.cause = .mcheck then w else w.fault f
    | .absent f => w.absent f
    | _ => w) w

/-- A TOUCH's window (R97): the fifth closes the oldest of four. -/
def Group.openTouch (g : Group) (id : Nat) (blocks : List (Nat × Nat)) : Group :=
  { g with touches := g.touches.drop (g.touches.length - 3) ++ [⟨id, blocks, 257⟩] }

/-- TOUCH (R97, R144): the word completes after a FREE time and opens a window for the lanes that passed. -/
def W.touch (w : W) (a b : Opnd) (rd : Bool) : W :=
  let q := w.s.reachPtrs w.g w.ex a b (if rd then needR else needRW)
  if anyWait q.1 then { w with s := q.2, hold := some .fault }
  else
    let w := { w with s := q.2 }.touchFaults q.1
    let blocks := w.g.touchBlocks a b q.1
    if w.rolled || blocks.isEmpty || w.dry then w
    else
      let r := { w with s := w.s.freeDue.2 }.pend [] (some w.s.freeDue.1) false
      r.2.mod (fun g => g.openTouch r.1 blocks)

/-- The fill a lane of a PREF starts (R142): a lane that fails is dropped. -/
def State.prefLane (g : Group) (lvl : PLvl) (s : State) (x : Nat × Reach) : State :=
  match x.2 with
  | .glob p e size f =>
    if g.isSup then s
    else (match lvl with
    | .l1 => s.fillL1 g.who p e size f
    | .l2 => s.fillL2 (coreDie g.core) g.ctx e f
    | .llc => s)
  | _ => s

/-- PREF (R142). -/
def W.pref (w : W) (a b : Opnd) (lvl : PLvl) : W :=
  let q := w.s.reachPtrs w.g w.ex a b needR
  { w with s := q.2 }.eff (fun s => q.1.foldl (State.prefLane w.g lvl) s)

/-- What a FLUSH or INV does to a lane's line (R143). -/
def onLine (f : State → Nat → Nat → State) (s : State) (x : Nat × Reach) : State :=
  match x.2 with
  | .glob p _ _ flat => f s (vline p) (flat / 128)
  | _ => s

/-- FLUSH and INV (R143). -/
def W.maintain (w : W) (a b : Opnd) (f : State → Nat → Nat → State) : W :=
  let q := w.s.reachPtrs w.g w.ex a b needR
  { w with s := q.2 }.eff (fun s => q.1.foldl (onLine f) s)

/-- FLUSH of one line: the L1, then with .L2 the die L2 (R143). -/
def flushLine (core : Nat) (l2 : Bool) (s : State) (vl pl : Nat) : State :=
  let s := s.writeBackLine core vl
  if l2 then s.flushL2Line (coreDie core) pl else s

/-- INV of one line (R143). -/
def invLine (core : Nat) (l2 : Bool) (s : State) (vl pl : Nat) : State :=
  let s := s.dropLine core vl
  if l2 then s.dropL2Line (coreDie core) pl else s

/-- VPROBE's result for one address (R145); a supervisor group has no tag and bounds checks (R359). -/
def State.probe (s : State) (w : Who) (ptr : DWord) : Word × State :=
  let bnd := w.sup || s.boundsOk w.core ptr
  let (c, s) := if w.sup then (s.walk (s.die (coreDie w.core)).sptroot (vaOf ptr), s) else s.leafTlb (coreCcl w.core) w.ctx ptr
  let b1 := if bnd then 2 else 0
  match c with
  | .ok e size =>
    (BitVec.ofNat 32 (field 10 2 ((size - 6) / 10) + field 9 1 (e / 2 ^ 7) + field 8 1 (e / 2 ^ 6) + field 7 1 (e / 2 ^ 5) +
      field 6 1 (e / 2 ^ 4) + field 5 1 (e / 2 ^ 3) + field 2 3 e + b1 + (if w.sup || decide (leafRegion e = tagOf ptr) then 1 else 0)), s)
  | _ => (BitVec.ofNat 32 b1, s)

/-- VPROBE in the lanes of execution, in ascending order: each lane's result, and the state. -/
def State.probes (s : State) (g : Group) (a b : Opnd) : List Nat → List (Nat × Word) × State
  | [] => ([], s)
  | l :: t =>
    let p := s.probe g.who (g.gptr l a b)
    let r := p.2.probes g a b t
    ((l, p.1) :: r.1, r.2)

/-- A variable-latency result whose time no rule states. -/
def W.varFree (w : W) (cells : List (Nat × Word)) (sig : Bool) : W := { w with s := w.s.freeDue.2 }.var cells w.s.freeDue.1 sig

def execLd (h : Hdr) (d a b : Opnd) (m : MemMod) (s : State) := runWord (.ld h d a b m) s fun w => w.load d a b m
def execSt (h : Hdr) (d a b : Opnd) (m : MemMod) (s : State) := runWord (.st h d a b m) s fun w => w.store d a b m
def execLdu (h : Hdr) (d a b : Opnd) (m : MemMod) (s : State) := runWord (.ldu h d a b m) s fun w => w.load d a b m
def execStu (h : Hdr) (d a b : Opnd) (m : MemMod) (s : State) := runWord (.stu h d a b m) s fun w => w.store d a b m
def execTouch (h : Hdr) (a b : Opnd) (rd : Bool) (s : State) := runWord (.touch h a b rd) s fun w => w.touch a b rd
def execPref (h : Hdr) (a b : Opnd) (lvl : PLvl) (s : State) := runWord (.pref h a b lvl) s fun w => w.pref a b lvl
def execFlush (h : Hdr) (a b : Opnd) (l2 : Bool) (s : State) := runWord (.flush h a b l2) s fun w =>
  w.maintain a b (flushLine w.g.core l2)
def execInv (h : Hdr) (a b : Opnd) (l2 : Bool) (s : State) := runWord (.inv h a b l2) s fun w =>
  w.maintain a b (invLine w.g.core l2)
def execVprobe (h : Hdr) (d a b : Opnd) (s : State) := runWord (.vprobe h d a b) s fun w =>
  let r := w.s.probes w.g a b w.ex
  W.varFree { w with s := r.2 } (r.1.flatMap (fun q : Nat × Word => dstCells d 0 [q.1] (fun _ => q.2))) false

end Sys2Proof.Machine
end

