-- ==== Sys2Proof/Machine/Atomics.lean ====
section
/-! DEFINITION. Atomics and fences, 0x130–0x139, with ATOMIC_PERFORM, WRITE_ACKNOWLEDGED and SIDE_LOG_REPLAY (chapter 08,
R165–R173). -/

namespace Sys2Proof.Machine

/-- The new value of ATOM and RED (R182) on `w`-bit values. -/
def atomNew (op : AOp) (w o b : Nat) : Nat :=
  let M := 2 ^ w
  match op with
  | .xchg => b % M
  | .add => (o + b) % M
  | .and => o &&& b
  | .or => o ||| b
  | .xor => o ^^^ b
  | .min => if sextNat o w ≤ sextNat b w then o else b
  | .max => if sextNat o w ≥ sextNat b w then o else b
  | .minu => min o b
  | .maxu => max o b
  | .inc => if b ≤ o then 0 else (o + 1) % M
  | .dec => if o = 0 ∨ b < o then b else o - 1

/-- Both 16-bit halves added in a format (R184). -/
def addHalves (f : Fmt) (o b : Nat) : Nat := f.add .rn (o % 2 ^ 16) (b % 2 ^ 16) + f.add .rn (o / 2 ^ 16) (b / 2 ^ 16) * 2 ^ 16

/-- The new value of FATOM and FREDM (R184). -/
def fatomNew (op : FAOp) (o b : Nat) : Nat :=
  match op with
  | .add => fp32.add .rn o b
  | .min => fminMax false false o b
  | .max => fminMax true false o b
  | .addh2 => addHalves fp16 o b
  | .addb2 => addHalves bf16 o b

/-- What an atomic does to an old value: the value written (none: a compare that missed) (R182–R184). -/
def AtomOp.apply (op : AtomOp) (o b c : Nat) : Option Nat :=
  match op with
  | .atom p w64 => some (atomNew p (if w64 then 64 else 32) o b)
  | .fatom p => some (fatomNew p o b)
  | .cas _ => if o = b then some c else none

/-- The cells of a numbered register in a lane. -/
def regCells (r l : Nat) (v : Word) : List (Nat × Word) := [(cellKey r (if laneReg r then l else 0), v)]

/-- A destination's register number. -/
def opndNum : Opnd → Option Nat
  | .v n => some (vReg n.val)
  | .s n => some (sReg n.val)
  | _ => none

/-- The cells one lane's old value and hit give (R182, R183). -/
def atomCells (dst pred : Option Nat) (w64 : Bool) (l old : Nat) (hit : Bool) : List (Nat × Word) :=
  (match dst with
    | some r => regCells r l (BitVec.ofNat 32 old) ++ (if w64 then regCells (r + 1) l (BitVec.ofNat 32 (old / 2 ^ 32)) else [])
    | none => []) ++
  (match pred with
    | some p => regCells p l (bword hit)
    | none => [])

/-- One lane performed at its execution point (R187): the old value and whether it wrote. -/
def State.atomAt (s : State) (op : AtomOp) (w64 : Bool) (x : AtomLane) : Nat × Bool × State :=
  let n := if w64 then 8 else 4
  let old := s.num x.addr n
  match op.apply old (x.b.toNat % 2 ^ (8 * n)) (x.c.toNat % 2 ^ (8 * n)) with
  | some v => (old, true, if x.home = 16 then s.put x.addr (toBytes n v) else s.homePut x.addr (toBytes n v))
  | none => (old, false, s)

/-- Lanes performed in ascending order: their cells. -/
def State.atomLanes (s : State) (op : AtomOp) (dst pred : Option Nat) (w64 : Bool) : List AtomLane → List (Nat × Word) × State
  | [] => ([], s)
  | x :: t =>
    let (old, hit, s) := s.atomAt op w64 x
    let (c, s) := s.atomLanes op dst pred w64 t
    (atomCells dst pred w64 x.lane old hit ++ c, s)

/-- Passes of an atomic word (R188): lanes are never merged. -/
def atomPasses (n : Nat) (l : List (Nat × Nat)) : Nat :=
  let per := if n ≤ 4 then 32 else 16
  ((List.range (32 / per)).map (fun k =>
    (List.range 32).foldl (fun m b => max m
      ((l.filter (fun x => decide (x.1 / per = k) && (wordsOf n x.2).any (fun a => decide (a % 32 = b)))).length)) 0)).foldl (· + ·) 0

/-- A remote core's lane path taken for its lanes of an atomic word (R188). -/
def remoteAtomPath (n : Nat) (rs : List (Nat × Reach)) (acc : Nat × W) (c : Nat) : Nat × W :=
  let q := acc.2.s.takePath c (atomPasses n (chipLanes rs c))
  (max acc.1 (q.1 + 51), { acc.2 with s := q.2 })

/-- The lane paths an on-chip atomic word takes, and the clk from which its results are read (R188). -/
def W.atomPaths (w : W) (n : Nat) (rs : List (Nat × Reach)) : Nat × W :=
  let own := chipLanes rs w.g.core
  let q := w.s.takePath w.g.core (atomPasses n own)
  let first : Nat × W :=
    if own.isEmpty then (w.clk + 1, { w with s := q.2 })
    else (q.1 + 24, { w with s := q.2 }.mod (fun g => { g with pathUntil := q.1, pathPc := w.pc }))
  let r := (remoteCores rs w.g.core).foldl (remoteAtomPath n rs) first
  if anyDie rs then (max r.1 (r.2.s.freeDue.1 + 100), { r.2 with s := r.2.s.freeDue.2 }) else r

/-- A fence begun by a group's word at `pc` (R191–R194). -/
def State.addFence (s : State) (gid : Nat) (pc : Pc) (f : FenceRec) : State :=
  { s with serial := s.serial + 1 }.modGrp gid (fun g => { g with fences := g.fences ++ [{ f with id := s.serial, pc := pc }] })

/-- A fence begun by the word, with its number. -/
def W.addFence (w : W) (f : FenceRec) : Nat × W := (w.s.serial, { w with s := w.s.addFence w.gid w.pc f })

/-- A fence with nothing set. -/
def FenceRec.blank : FenceRec :=
  { id := 0, pc := 0, scope := 0, rel := false, acq := false, begun := false, wbs := [], logs := [], jobs := [], inval := false,
    barrier := false, holdLoads := false, holdStores := false }

/-- The code of a scope (R179). -/
def scopeCode : Scope → Nat
  | .pkg => 0
  | .grp => 1
  | .team => 2
  | .clu => 3
  | .die => 4
  | .sys => 5

def hasRel : AOrd → Bool
  | .rel => true
  | .ar => true
  | .sc => true
  | _ => false

def hasAcq : AOrd → Bool
  | .acq => true
  | .ar => true
  | .sc => true
  | _ => false

/-- The release an atomic word waits for before it is sent (R194). -/
def W.relBefore (w : W) (m : AtomMod) : Option Nat × W :=
  if hasRel m.ord then
    let sc := decide (m.ord = .sc)
    let q := w.addFence { FenceRec.blank with scope := scopeCode m.scope, rel := true, acq := sc, holdLoads := sc, holdStores := sc }
    (some q.1, q.2)
  else (none, w)

/-- The acquire that follows an atomic word (R194): a fence behind the word's own scoreboard entry. -/
def W.acqAfter (w : W) (m : AtomMod) : W :=
  if hasAcq m.ord then
    let sc := decide (m.ord = .sc)
    (w.addFence { FenceRec.blank with scope := scopeCode m.scope, rel := sc, acq := true, holdLoads := sc, holdStores := sc }).2
  else w

/-- Whether a lane lies in one of its group's open TOUCH windows (R97, R167). -/
def Group.inTouch (g : Group) (l : Nat) (ptr : DWord) : Bool :=
  g.touches.any (fun t => t.blocks.any (fun b => decide (b.1 = l) && decide (b.2 = vaOf ptr / 2 ^ 16)))

/-- What an atomic word is made of: its operation, width, destination and predicate registers, and each lane's operands. -/
structure AtomWord where
  op : AtomOp
  ret : Bool
  dst : Option Nat
  pred : Option Nat
  bc : Nat → DWord × DWord
  log : Nat → LogOp
  m : AtomMod

/-- A lane of a word that has a place, as a lane on its way. -/
def AtomWord.lane (x : AtomWord) (l : Nat) : Reach → Option AtomLane
  | .glob p e _ f => some ⟨l, f, (x.bc l).1, (x.bc l).2, p, leafHome e, leafM e, leafWb e⟩
  | .chip f _ => some ⟨l, f, (x.bc l).1, (x.bc l).2, 0, 16, false, false⟩
  | _ => none

/-- The lanes of RED and FREDM that enter the side log (R169). -/
def W.redLogged (w : W) (r : Nat × Reach) : Bool :=
  match r.2 with
  | .glob p e _ _ => w.s0.logged w.gid w.g p e
  | .absent _ => !w.dry
  | _ => false

/-- The side-log entries of RED and FREDM, in ascending line addresses and then lanes (R169). -/
def W.redLog (w : W) (x : AtomWord) (rs : List (Nat × Reach)) : State → State := fun s =>
  let lines := (rs.filter w.redLogged).foldl (fun (m : List (Nat × List (Nat × DWord × Option (Bool × Nat)))) r =>
    let e : Option (DWord × Option (Bool × Nat)) := match r.2 with
      | .glob p _ _ _ => some (p, none)
      | .absent f => some (f.va, some (f.detail.testBit 15, bitsOf f.detail 12 3))
      | _ => none
    match e with
    | some e => let k := e.1.toNat / 128; kset m k (((kget m k).getD []) ++ [(r.1, e.1, e.2)])
    | none => m) []
  lines.foldl (fun s k => k.2.foldl (fun s y =>
    s.logStore w.gid w.g y.2.1 (x.log y.1) (if s.logHas w.g.core w.gid y.2.1 then none else y.2.2)) s) s

/-- The faults of an atomic word's lanes (R165–R167, R186). -/
def W.atomFaults (w : W) (x : AtomWord) (rs : List (Nat × Reach)) : W :=
  rs.foldl (fun w r => match r.2 with
    | .fault f => w.fault f
    | .absent f => if x.ret || w.dry then w.absent f else w
    | .glob p e _ _ => if x.ret && leafWb e && !w.g.inTouch r.1 p && !w.dry then { w with held := w.held ++ [p] } else w
    | _ => w) w

/-- Zeros for helper lanes and suppressed faults (R93, R182). -/
def W.atomZeros (w : W) (lanes : List Nat) (rs : List (Nat × Reach)) : List (Nat × Word) :=
  ((w.ex.filter (fun l => !lanes.contains l)) ++ (rs.filterMap (fun r => match r.2 with
    | .fault _ => if w.mute r.1 then some r.1 else none
    | .absent _ => if w.mute r.1 then some r.1 else none
    | .ctl _ => some r.1
    | _ => none))).flatMap (zeroCells w.f)

/-- A value-returning atomic in a stop's re-execution returns the location's current value (R397). -/
def W.atomDry (w : W) (x : AtomWord) (zeros : List (Nat × Word)) (rs : List (Nat × Reach)) : W :=
  let n := if x.m.w64 then 8 else 4
  if !x.ret then w
  else
    let (c, w) := rs.foldl (fun (acc : List (Nat × Word) × W) r =>
      let (b, v) := acc.2.readLane n .keep x.m.sp r.1 r.2
      match b with
      | some b => (acc.1 ++ atomCells x.dst x.pred x.m.w64 r.1 (ofBytes b) (decide (ofBytes b = (x.bc r.1).1.toNat % 2 ^ (8 * n))), v)
      | none => (acc.1 ++ (if v.mute r.1 then zeroCells w.f r.1 else []), v)) (zeros, w)
    w.var c w.clk true

/-- Whether the core's side log holds an entry for the line of a lane that is to be performed (R189). -/
def W.lineLogged (w : W) (r : Nat × Reach) : Bool :=
  match r.2 with
  | .glob p _ _ _ => !w.redLogged r && (w.s.core w.g.core).sideLog.any (fun e => decide (e.ctx = w.g.ctx) && decide (vline e.ptr = vline p))
  | _ => false

/-- How long after its performance an atomic that waited for a release is read (R188); a global one's time is in its arrival. -/
def W.atomLat (w : W) (n : Nat) (sp : Space) (rs : List (Nat × Reach)) : Nat :=
  match sp with
  | .c => atomPasses n (chipLanes rs w.g.core) + 23
  | .k => atomPasses n (chipLanes rs w.g.core) + 50
  | .d => 100
  | _ => 0

/-- Lanes performed at once, at the issue of an on-chip word that waits for no release (R187, R188). -/
def W.atomNow (w : W) (n : Nat) (x : AtomWord) (rs : List (Nat × Reach)) (zeros : List (Nat × Word)) (go : List AtomLane) : W :=
  let q := w.atomPaths n rs
  let r := q.2.s.atomLanes x.op x.dst x.pred x.m.w64 go
  if x.ret then { q.2 with s := r.2 }.var (zeros ++ r.1) q.1 true else { q.2 with s := r.2 }

/-- Lanes sent on their way to their execution points (R187, R188, R194), with the fence they wait for. -/
def W.atomSend (w : W) (n : Nat) (x : AtomWord) (rs : List (Nat × Reach)) (zeros : List (Nat × Word)) (go : List AtomLane) (rel : Option Nat) : W :=
  let f := w.s.freeDue
  let v : Option Nat × W :=
    if x.ret then (let r := { w with s := f.2 }.pend zeros none true; (some r.1, r.2)) else (none, { w with s := f.2 })
  let s := v.2.s
  { v.2 with s := { s with serial := s.serial + 1, atoms := kset s.atoms s.serial ⟨w.gid, w.g.tid, w.g.ctx, w.g.core, v.1, x.op, go, x.dst, x.m.w64,
      x.pred, w.atomLat n x.m.sp rs, rel, f.1⟩ } }

/-- The lanes of an atomic word that are to be performed, as they go on their way. -/
def W.atomGo (w : W) (x : AtomWord) (rs : List (Nat × Reach)) : List AtomLane :=
  (rs.filter (fun r => x.ret || !w.redLogged r)).filterMap (fun r => (x.lane r.1 r.2).map (fun k => { k with lane := w.recLane k.lane }))

/-- An atomic word whose checks are over: the side log's lanes, the release, the lanes performed or sent, the acquire. -/
def W.atomIssue (w : W) (n : Nat) (x : AtomWord) (rs : List (Nat × Reach)) (zeros : List (Nat × Word)) : W :=
  let go := w.atomGo x rs
  let w := { w with s := w.redLog x (if x.ret then [] else rs) w.s }
  let glob : List AtomLane := go.filter (fun k => decide (k.home ≠ 16))
  let w := { w with s := glob.foldl (fun (s : State) (k : AtomLane) => s.countReq w.g.who k.ptr 1) w.s }
  let q := w.relBefore x.m
  (if glob.isEmpty && q.1.isNone then q.2.atomNow n x rs zeros go else q.2.atomSend n x rs zeros go q.1).acqAfter x.m

/-- The atomic words (R180–R190, R194). -/
def W.atomic (w : W) (a : Opnd) (x : AtomWord) : W :=
  let n := if x.m.w64 then 8 else 4
  let lanes := w.storeLanes .g
  let r0 := w.s.reachAll (fun s l => s.reach w.g l x.m.sp a .zero n (if x.ret then needRW else needW) kindAtomic) lanes
  let rs := r0.1
  let w := { w with s := r0.2 }
  let logged := if x.ret then [] else rs.filter w.redLogged
  if anyWait rs || decide (w.s.logFree w.g.core < logged.length) || (rs.any w.lineLogged && !w.dry) then { w with hold := some .fault }
  else if w.s.overlapsFlight w.gid n rs then { w with hold := some .depMem }
  else
    let w := w.atomFaults x rs
    if w.rolled then w
    else
      let zeros := if x.ret then w.atomZeros lanes rs else []
      if w.dry then w.atomDry x zeros rs else w.atomIssue n x rs zeros

/-- The immediate of a floating-point atomic's operand, converted as R31 says. -/
def W.fatomB (w : W) (l : Nat) (b : Opnd) : DWord :=
  match b with
  | .imm i => BitVec.ofNat 64 (fp32.ofInt .rn false i.toInt)
  | _ => (w.g.rd l b).setWidth 64

/-- An operand of an ATOM or RED, of the word's width. -/
def W.atomB (w : W) (l : Nat) (m : AtomMod) (b : Opnd) : DWord := if m.w64 then w.g.rd64 l b else (w.g.rd l b).setWidth 64

/-- The compare and swap operands of CAS (R183). -/
def W.casBC (w : W) (l : Nat) (m : AtomMod) (b : Opnd) : DWord × DWord :=
  if m.w64 then (pair64 (w.g.rdj l 0 b) (w.g.rdj l 1 b), pair64 (w.g.rdj l 2 b) (w.g.rdj l 3 b))
  else ((w.g.rdj l 0 b).setWidth 64, (w.g.rdj l 1 b).setWidth 64)

/-- The success predicate's register (R180, R183): P7 and Q7 discard. -/
def succReg (f : Info) (n : Fin 8) : Option Nat := if n = 7 then none else some (pcReg (clsPred (uniOf f) n))

def execAtom (h : Hdr) (d a b : Opnd) (op : AOp) (m : AtomMod) (s : State) := runWord (.atom h d a b op m) s fun w =>
  w.atomic a ⟨.atom op m.w64, true, opndNum d, none, fun l => (w.atomB l m b, 0), fun _ => .store [], m⟩
def execCas (h : Hdr) (d a b : Opnd) (m : AtomMod) (s : State) := runWord (.cas h d a b m) s fun w =>
  w.atomic a ⟨.cas m.w64, true, opndNum d, none, fun l => w.casBC l m b, fun _ => .store [], m⟩
def execCasar (h : Hdr) (d a b : Opnd) (m : AtomMod) (n : Fin 8) (s : State) := runWord (.casar h d a b m n) s fun w =>
  w.atomic a ⟨.cas m.w64, true, opndNum d, succReg w.f n, fun l => w.casBC l m b, fun _ => .store [], m⟩
def execRed (h : Hdr) (a b : Opnd) (op : AOp) (m : AtomMod) (s : State) := runWord (.red h a b op m) s fun w =>
  w.atomic a ⟨.atom op m.w64, false, none, none, fun l => (w.atomB l m b, 0), fun l => .red op m.w64 (w.atomB l m b), m⟩
def execFatom (h : Hdr) (d a b : Opnd) (op : FAOp) (m : AtomMod) (s : State) := runWord (.fatom h d a b op m) s fun w =>
  w.atomic a ⟨.fatom op, true, opndNum d, none, fun l => (w.fatomB l b, 0), fun _ => .store [], m⟩
def execFredm (h : Hdr) (a b : Opnd) (op : FAOp) (m : AtomMod) (s : State) := runWord (.fredm h a b op m) s fun w =>
  w.atomic a ⟨.fatom op, false, none, none, fun l => (w.fatomB l b, 0), fun l => .fred op ((w.fatomB l b).setWidth 32), m⟩

/-- What a FENCE of an order holds back and does (R191). -/
def FenceRec.ofOrd (ord : FOrd) (scope : Scope) : FenceRec :=
  let b : FenceRec := { FenceRec.blank with scope := scopeCode scope }
  match ord with
  | .acq => { b with acq := true, holdLoads := true, holdStores := true }
  | .rel => { b with rel := true, holdStores := true }
  | .ar => { b with rel := true, acq := true, holdStores := true }
  | .sc => { b with rel := true, acq := true, holdLoads := true, holdStores := true }

/-- FENCE (R191). -/
def W.fence (w : W) (ord : FOrd) (scope : Scope) : W :=
  if w.ex.isEmpty || w.dry then w else (w.addFence (FenceRec.ofOrd ord scope)).2

/-- Side-log entries of a core that meet a test. -/
def State.logIds (s : State) (core : Nat) (p : LogEntry → Bool) : List Nat := ((s.core core).sideLog.filter p).map (fun e => e.id)

/-- Copy and matrix jobs of a team that have not completed. -/
def State.teamJobs (s : State) (tid : Nat) : List Nat :=
  (s.jobs.filter (fun j => decide (j.2.tid = tid) && decide (j.2.phase ≠ .done))).map (fun j => j.1) ++
  (s.mjobs.filter (fun j => decide (j.2.tid = tid) && decide (j.2.phase ≠ .done))).map (fun j => j.1)

/-- What a FENCEX of a team on a core waits for (R192): `out`, the RED and FREDM words and log entries already issued; `inn`, the jobs. -/
def State.fencexRec (s : State) (core tid : Nat) (out inn : Bool) : FenceRec :=
  { FenceRec.blank with
    rel := true, begun := true, inval := inn, holdLoads := true, holdStores := true,
    logs := if out then s.logIds core (fun e => decide (e.tid = tid)) else [],
    jobs := (if out then (s.atoms.filter (fun a => decide (a.2.core = core) && a.2.pend.isNone)).map (fun a => a.1) else []) ++
      (if inn then s.teamJobs tid else []) }

/-- FENCEX (R192). -/
def W.fencex (w : W) (mode : FxMode) : W :=
  if w.ex.isEmpty || w.dry || w.g.isSup then w
  else
    let out := decide (mode ≠ .inn)
    let s := if out then w.s.writeBackL1 w.g.core else w.s
    let inn := decide (mode ≠ .out)
    (W.addFence { w with s := s } (s.fencexRec w.g.core w.g.tid out inn)).2

def execFence (h : Hdr) (ord : FOrd) (scope : Scope) (s : State) := runWord (.fence h ord scope) s fun w => w.fence ord scope
def execFencex (h : Hdr) (mode : FxMode) (s : State) := runWord (.fencex h mode) s fun w => w.fencex mode

/-- Whether a job, atomic or write-back is still open. -/
def State.idOpen (s : State) (id : Nat) : Bool :=
  (kget s.atoms id).isSome || (kget s.wbs id).isSome ||
  (match kget s.jobs id with | some j => decide (j.phase ≠ .done) | none => false) ||
  (match kget s.mjobs id with | some j => decide (j.phase ≠ .done) | none => false)

/-- Whether a side-log entry, spilled or not, has still to replay. -/
def State.logOpen (s : State) (id : Nat) : Bool :=
  s.cores.any (fun c => c.2.sideLog.any (fun e => decide (e.id = id))) || s.teams.any (fun t => t.2.savedLog.any (fun e => decide (e.id = id)))

/-- Whether every earlier memory word of a fence's group has completed (R193): no earlier scoreboard entry and no earlier
atomic in flight. -/
def State.earlierDone (s : State) (gid : Nat) (g : Group) (id : Nat) : Bool :=
  g.pends.all (fun p => decide (id < p.id)) && s.atoms.all (fun a => decide (a.2.gid ≠ gid) || decide (id < a.1))

/-- The release actions of R193 begin: L1 dirty bytes go to the die L2; at .PKG and .SYS the context's dirty L2 lines start for
their homes. -/
def State.beginRelease (s : State) (gid : Nat) (g : Group) (f : FenceRec) : FenceRec × State :=
  if g.isSup || decide (f.scope = 1) || decide (f.scope = 2) then ({ f with begun := true }, s)
  else
    let s := s.writeBackL1 g.core
    let logs := s.logIds g.core (fun e => decide (e.ctx = g.ctx) || decide (e.gid = gid))
    if f.scope = 3 ∨ f.scope = 4 then ({ f with begun := true, logs := logs }, s)
    else
      let die := coreDie g.core
      let (ids, s) := (s.dirtyLines die g.ctx).foldl (fun (acc : List Nat × State) line =>
        let (due, s) := acc.2.freeDue
        let (id, s) := s.fresh
        (acc.1 ++ [id], { s with wbs := kset s.wbs id ⟨die, line, due⟩ })) ([], s)
      ({ f with begun := true, logs := logs, wbs := ids }, s)

/-- The acquire actions of R193. -/
def State.acquireNow (s : State) (g : Group) (scope : Nat) : State :=
  if g.isSup || decide (scope = 1) || decide (scope = 2) then s
  else
    if scope = 3 ∨ scope = 4 then s.invalCleanL1 g.core else s.acquirePkg g.core g.ctx

/-- One fence's progress. -/
def State.fenceOne (s : State) (gid : Nat) (f : FenceRec) : FenceRec × State :=
  let g := s.grpD gid
  let (f, s) :=
    if f.rel && !f.begun && s.earlierDone gid g f.id then
      let (f1, s) := s.beginRelease gid g f
      if f1.acq && !f1.holdLoads then ({ f1 with acq := false }, s.acquireNow g f.scope) else (f1, s)
    else (f, s)
  let done := f.begun && f.wbs.all (fun i => !s.idOpen i) && f.jobs.all (fun i => !s.idOpen i) && f.logs.all (fun i => !s.logOpen i)
  let (f, s) :=
    if f.rel && done then ({ f with rel := false, inval := false }, if f.inval then s.invalCleanL1 g.core else s) else (f, s)
  if f.acq && !f.rel && s.earlierDone gid g f.id then ({ f with acq := false }, s.acquireNow g f.scope) else (f, s)

/-- Every fence of a group moves on; those that are over are dropped, but for one that a barrier word has still to see. -/
def State.fenceStep (s : State) (gid : Nat) : State :=
  let (fs, s) := (s.grpD gid).fences.foldl (fun (acc : List FenceRec × State) f =>
    let (f, s) := acc.2.fenceOne gid f
    (acc.1 ++ [f], s)) ([], s)
  (s.modGrp gid (fun g => { g with fences := fs.filter (fun f => f.rel || f.acq || f.barrier) })).reap gid

/-- A lane of an atomic on its way finds its home die gone (R190, R372): whether it must wait for the page to be re-homed, or its
new place. -/
def State.atomHome (s : State) (ctx : Nat) (x : AtomLane) : Option (Option AtomLane) :=
  if x.home = 16 ∨ x.home = 15 then some (some x)
  else if s.dieServes (8 + x.home) then some (some x)
  else if x.mir then
    match s.walk (s.ctxD ctx).ptroot (vaOf x.ptr) with
    | .ok e size => if leafHome e ≠ x.home ∧ s.dieServes (8 + leafHome e) then
        some (some { x with addr := flatPa (leafHome e) (leafPa e size (vaOf x.ptr)), home := leafHome e, mir := leafM e }) else none
    | _ => none
  else some none

/-- A line entered in the redo list of a migration (R167, R177): 64 lines, then the list overflows. -/
def State.redoLine (s : State) (x : AtomLane) : State :=
  if !x.wb then s
  else s.modDie (if x.home = 15 then 20 else 8 + x.home) (fun d =>
    let page := x.addr / 2 ^ 16
    let line := x.addr / 128
    match d.redo.find? (fun r => decide (r.page = page)) with
    | none => { d with redo := d.redo ++ [⟨page, [line], false⟩] }
    | some _ => { d with redo := d.redo.map (fun r => if r.page ≠ page ∨ r.lines.contains line then r
        else if r.lines.length < 64 then { r with lines := r.lines ++ [line] } else { r with excess := true }) })

/-- Whether an atomic in flight may be performed: its release is over and its homes answer or are lost for good. -/
def State.atomReady (s : State) (a : AtomFlight) : Bool :=
  decide (a.due ≤ s.pkg.clock) &&
  (match a.relFence with
    | none => true
    | some f => !((s.grpD a.gid).fences.any (fun x => decide (x.id = f) && (x.rel || x.acq)))) &&
  a.lanes.all (fun x => (s.atomHome a.ctx x).isSome)

/-- One lane of an atomic performed at its execution point (R187, R190): its cells, the lanes that receive MCHECK, and the state. -/
def State.performLane (a : AtomFlight) (acc : List (Nat × Word) × List LaneFault × State) (x : AtomLane) : List (Nat × Word) × List LaneFault × State :=
  let n := if a.w64 then 8 else 4
  let lost : AtomLane → List LaneFault := fun y => acc.2.1 ++ [accFault y.lane .mcheck y.ptr (y.addr % 2 ^ 52) .g kindAtomic]
  match acc.2.2.atomHome a.ctx x with
  | some (some y) =>
    let s := if y.home = 16 then acc.2.2 else (acc.2.2.recallLine a.core y.ptr y.addr).redoLine y
    if s.bad y.addr n then (acc.1, lost y, s)
    else
      let r := s.atomAt a.op a.w64 y
      (acc.1 ++ atomCells a.dst a.pred a.w64 y.lane r.1 r.2.1, acc.2.1, r.2.2)
  | _ => (acc.1, lost x, acc.2.2)

/-- ATOMIC_PERFORM (R187–R190): the lanes in ascending order at their execution points; a lane whose home is lost, or whose data
are bad, receives MCHECK. -/
def State.atomPerform (s : State) (id : Nat) : State :=
  match kget s.atoms id with
  | none => s
  | some a =>
    let r := a.lanes.foldl (State.performLane a) ([], [], { s with atoms := kdel s.atoms id })
    match a.pend with
    | none => r.2.2
    | some p =>
      let pc := (((r.2.2.grpD a.gid).pends.find? (fun q => decide (q.id = p))).map (fun q => q.pc)).getD 0
      let s := r.2.2.modGrp a.gid (fun g => { g with pends := g.pends.map (fun q =>
        if q.id = p then { q with cells := q.cells ++ r.1, due := some (r.2.2.pkg.clock + 1 + a.lat) } else q) })
      if r.2.1.isEmpty then s else s.raiseTrap a.gid ⟨true, pc, r.2.1⟩

def execAtomicPerform (id : Nat) (s : State) := runEvent s fun s => s.atomPerform id

/-- A written-back line performed at its home (R193). -/
def State.writeBackDone (s : State) (id : Nat) : State :=
  match kget s.wbs id with
  | none => s
  | some w => { s with wbs := kdel s.wbs id }.flushL2Line w.die w.line

/-- WRITE_ACKNOWLEDGED (R193). -/
def execWriteAcknowledged (id : Nat) (s : State) := runEvent s fun s => s.writeBackDone id

/-- A logged store's bytes performed at their place, valid copies below taking them too. -/
def State.logPut (s : State) (e : LogEntry) (core leaf size : Nat) (flat : Nat) : State :=
  let w : Who := ⟨core, e.ctx, false⟩
  match e.op with
  | .store b => b.foldl (fun s x => s.storeG w (ptrOff e.ptr (x.1 : Int)) .bypass leaf size (flat + x.1) [x.2]) s
  | .red op w64 b =>
    (((s.recallLine core e.ptr flat).countReq w e.ptr 1).atomAt (.atom op w64) w64 ⟨0, flat, b, 0, e.ptr, leafHome leaf, leafM leaf, false⟩).2.2
  | .fred op b =>
    (((s.recallLine core e.ptr flat).countReq w e.ptr 1).atomAt (.fatom op) false ⟨0, flat, b.setWidth 64, 0, e.ptr, leafHome leaf, leafM leaf, false⟩).2.2

/-- An entry taken out of a core's log, or out of the spill area it was written to. -/
def State.logDrop (s : State) (core id : Nat) : State :=
  if (s.core core).sideLog.any (fun e => decide (e.id = id)) then
    s.modCore core (fun c => { c with sideLog := c.sideLog.filter (fun e => decide (e.id ≠ id)) })
  else { s with teams := kmap s.teams (fun _ t => { t with savedLog := t.savedLog.filter (fun e => decide (e.id ≠ id)) }) }

/-- The entries of a core's log, and of a saved team's spill area. -/
def State.logFind (s : State) (core id : Nat) : Option LogEntry :=
  match (s.core core).sideLog.find? (fun e => decide (e.id = id)) with
  | some e => some e
  | none => (s.teams.flatMap (fun t => t.2.savedLog)).find? (fun e => decide (e.id = id))

/-- An entry changed wherever it lies. -/
def State.logMod (s : State) (core id : Nat) (f : LogEntry → LogEntry) : State :=
  let g : LogEntry → LogEntry := fun x => if x.id = id then f x else x
  let s := s.modCore core (fun c => { c with sideLog := c.sideLog.map g })
  { s with teams := kmap s.teams (fun _ t => { t with savedLog := t.savedLog.map g }) }

/-- A discarded entry's LATE record (R172). -/
def State.logLate (s : State) (core : Nat) (e : LogEntry) (c : Cause) : State :=
  (s.logDrop core e.id).lateRecord e.ctx ⟨0, c, e.ptr, 0, 0, (match e.op with | .store _ => kindStore | _ => kindAtomic), 0, true⟩

/-- What an entry meets when it is translated now: with the core's bounds copy, or the table in memory once it was spilled
(R172). -/
def State.logXlate (s : State) (core : Nat) (e : LogEntry) : Chk × State :=
  if e.spilled then s.xlateCtx e.ctx e.ptr needW else s.xlate ⟨core, e.ctx, decide (e.ctx = 0)⟩ e.ptr needW

/-- SIDE_LOG_REPLAY (R170–R172): an entry that is the first of its group and block is checked and performed; one whose page is
still write-blocked stays, and one whose page is absent asks for it. -/
def State.logReplay (s : State) (core id : Nat) : State :=
  match s.logFind core id with
  | none => s
  | some e =>
    if e.bad then s.logLate core e .page
    else match s.logXlate core e with
      | (.fail c, s) => s.logLate core e c
      | (.absent mal lvl, s) =>
        if e.req.isSome then s
        else
          let (r, s) := s.request ⟨coreDie core, none, 1, .log core id, e.ctx, [lo32 e.ptr, hi32 e.ptr], 0, 0, 0, 0, 1, mal, lvl, []⟩
          s.logMod core id (fun x => { x with req := some r })
      | (.ok leaf size, s) =>
        if leafWb leaf then s
        else match s.place (decide (e.ctx = 0)) leaf size e.ptr with
          | .mem f => (s.logDrop core id).logPut e core leaf size f
          | .wait => s
          | .mcheck _ => s.logLate core e .mcheck
          | .control _ => s.logDrop core id

def execSideLogReplay (core entry : Nat) (s : State) := runEvent s fun s => s.logReplay core entry

/-- The first entry of a log that can move: the first of its group and block, declared unserviceable, or with a page that can
be seen and is not write-blocked, or absent with no request yet. -/
def State.logDue (s : State) (core : Nat) (log : List LogEntry) : Option Nat :=
  (log.find? (fun e =>
    !(log.any (fun x => decide (x.id < e.id) && decide (x.gid = e.gid) && decide (vaOf x.ptr / 2 ^ 16 = vaOf e.ptr / 2 ^ 16))) &&
    (e.bad || (match (s.logXlate core e).1 with
      | .fail _ => true
      | .absent _ _ => e.req.isNone
      | .ok leaf size => !leafWb leaf && decide (s.place (decide (e.ctx = 0)) leaf size e.ptr ≠ .wait))))).map (fun e => e.id)

end Sys2Proof.Machine
end

