-- ==== Sys2Proof/Machine/Control.lean ====
section
/-! DEFINITION. Control flow, the lane stack, YIELD, SLEEPC, trap words and HRET, 0x080–0x093 (chapter 04). -/

namespace Sys2Proof.Machine

/-- The mask of lanes. -/
def maskOfLanes (l : List Nat) : LaneMask := maskOf (fun k => l.contains k)

/-- Lanes set to PCs by a transfer word: the jumps, the redirect hold and the signature item for those that leave nx (R82,
R83, R396). -/
def W.transfer (w : W) (redir : Nat) (l : List (Nat × Pc)) : W :=
  { w.jump l with redir := redir, branch := some (maskOfLanes ((l.filter (fun x => decide (x.2 ≠ w.nx))).map (fun x => x.1))) }

/-- The target of a direct transfer (R80). -/
def W.target (w : W) (n : Nat) (off : BitVec n) : Pc := w.pc + off.signExtend 53

/-- BRA (R82): lanes whose guard holds. -/
def W.bra (w : W) (t : Pc) : W := w.transfer 2 (w.ex.map (fun l => (l, t)))

/-- BRU (R82): one decision for every active lane. -/
def W.bru (w : W) (t : Pc) : W := w.transfer 2 (if w.ex.isEmpty then [] else (lanesOf w.act).map (fun l => (l, t)))

/-- The PC a 64-bit address names (R80). -/
def pcOfAddr (a : DWord) : Pc := (a >>> 3).setWidth 53

/-- A lane's misaligned transfer target (R80). -/
def W.misTarget (w : W) (l : Nat) (a : DWord) : W := w.fault ⟨l, .misalign, a, 0, 0, kindOther, 0, false⟩

/-- The call record's bytes (R86). -/
def callRecord (nx : Pc) : List Byte := toBytes 8 (nx.toNat * 8)

/-- One lane's call (R86): the record is pushed and the lane goes to its target. -/
def W.callLane (w : W) (l : Nat) (t : Pc) : W :=
  let n : Int := ((w.g.lspOf l).toNat : Int) - 8
  if w.lspOk n then (w.pushBytes l (callRecord w.nx)).jump [(l, t)] else w.stackOver l n

/-- The redirect hold and signature item of a word whose lanes' PCs are already set. -/
def W.transferDone (w : W) (redir : Nat) : W :=
  { w with redir := redir, branch := some (maskOfLanes ((w.vpc.filter (fun x => decide (x.2 ≠ w.nx))).map (fun x => x.1))) }

/-- CALL (R86). -/
def W.call (w : W) (t : Pc) : W := (w.ex.foldl (fun w l => w.callLane l t) w).transferDone 2

/-- One lane's return (R86). -/
def W.retLane (w : W) (l : Nat) : W :=
  let lsp := (w.g.lspOf l).toNat
  if w.lspOk (lsp + 8 : Nat) then
    match w.s.readL w.gid w.g l 8 lsp with
    | (.bytes b, s) => ({ w with s := s }.setLsp l (lsp + 8)).jump [(l, BitVec.ofNat 53 (bitsOf (ofBytes b) 3 53))]
    | (r, s) => { w with s := s }.stackGot l lsp kindLoad r
  else w.stackOver l (lsp + 8 : Nat)

def execNop (h : Hdr) (s : State) := runWord (.nop h) s fun w => w
def execBraFull (h : Hdr) (off : BitVec 24) (s : State) := runWord (.braFull h off) s fun w => w.bra (w.target 24 off)
def execBraWide (h : Hdr) (off : BitVec 32) (s : State) := runWord (.braWide h off) s fun w => w.bra (w.target 32 off)
/-- BRX (R80, R82): a lane whose address is misaligned stays at the word and traps. -/
def execBrx (h : Hdr) (a : Opnd) (s : State) := runWord (.brx h a) s fun w =>
  (w.ex.foldl (fun v l => let x := w.g.rd64 l a
    if x.toNat % 8 = 0 then v.jump [(l, pcOfAddr x)] else v.misTarget l x) w).transferDone 4
def execBruFull (h : Hdr) (off : BitVec 24) (s : State) := runWord (.bruFull h off) s fun w => w.bru (w.target 24 off)
def execBruWide (h : Hdr) (off : BitVec 32) (s : State) := runWord (.bruWide h off) s fun w => w.bru (w.target 32 off)
def execCallFull (h : Hdr) (off : BitVec 24) (s : State) := runWord (.callFull h off) s fun w => w.call (w.target 24 off)
def execCallWide (h : Hdr) (off : BitVec 32) (s : State) := runWord (.callWide h off) s fun w => w.call (w.target 32 off)
def execCallx (h : Hdr) (a : Opnd) (s : State) := runWord (.callx h a) s fun w =>
  (w.ex.foldl (fun v l => let x := w.g.rd64 l a
    if x.toNat % 8 = 0 then v.callLane l (pcOfAddr x) else v.misTarget l x) w).transferDone 4
def execRet (h : Hdr) (s : State) := runWord (.ret h) s fun w => (w.ex.foldl (fun v l => v.retLane l) w).transferDone 4
/-- EXIT (R82, R88): its signature item names every lane set to the exit value. -/
def execExit (h : Hdr) (s : State) := runWord (.exit h) s fun w =>
  { w.jump (w.ex.map (fun l => (l, exitPc))) with redir := 2, branch := some (maskOfLanes w.ex) }
/-- YIELD (R90). -/
def execYield (h : Hdr) (n : BitVec 8) (s : State) := runWord (.yield h n) s fun w =>
  { w with asides := w.ex.map (fun l => (l, n.toNat)) }
/-- RDVPC (R100). -/
def execRdvpc (h : Hdr) (d a : Opnd) (s : State) := runWord (.rdvpc h d a) s fun w =>
  w.put2 d (fun l => BitVec.ofNat 64 ((w.g.svpc.getD ((w.g.rd l a).toNat % 32) exitPc).toNat * 8))
/-- WRVPC (R100): in ascending lanes, so that the highest lane's write stands; an exited lane is never revived. -/
def execWrvpc (h : Hdr) (a b : Opnd) (s : State) := runWord (.wrvpc h a b) s fun w =>
  w.mod (fun g => { g with svpc := w.ex.foldl (fun v l =>
    let k := (w.g.rd l b).toNat % 32
    if v.getD k exitPc = exitPc then v else setNth v k (pcOfAddr (w.g.rd64 l a))) g.svpc })
/-- A wait that a group begins at a word (R76, R97): its TOUCH windows close. -/
def W.wait (w : W) (x : Wait) : W :=
  if w.dry then w else w.mod (fun g => { g with wait := x, waitPc := w.pc, waitMask := w.act, wakeAt := none, touches := [] })
/-- SLEEPC (R91). -/
def execSleepc (h : Hdr) (a : Opnd) (s : State) := runWord (.sleepc h a) s fun w =>
  let n := min (w.g.rd 0 a).toNat 1048576
  if w.ex.isEmpty || decide (n = 0) then w else w.wait (.sleep (w.clk + 1 + n))
/-- TRAP and BKPT (R99): every active lane first goes to nx. In a stop's re-execution nothing is raised (R397). -/
def W.trapWord (w : W) (c : Cause) (code : BitVec 8) : W :=
  if w.dry then w
  else { w.ex.foldl (fun v l => v.fault ⟨l, c, 0, 0, 0, kindTrap, code.toNat, false⟩) w with afterWord := true }
def execTrap (h : Hdr) (code : BitVec 8) (s : State) := runWord (.trap h code) s fun w => w.trapWord .trapi code
def execBkpt (h : Hdr) (code : BitVec 8) (s : State) := runWord (.bkpt h code) s fun w => w.trapWord .bkpt code
/-- HRET (R101, R338). Outside a handler the saved PCs are all exited (DESIGN CHOICE, log 22) and the group retires. -/
def execHret (h : Hdr) (s : State) := runWord (.hret h) s fun w =>
  if w.ex.isEmpty then w
  else if w.g.level = .handler then
    let w := { w with s := (w.s.spill w.gid true (fun _ _ => true)).2 }
    { (w.mod Group.handlerReturn).jump ((lanesOf w.act).map (fun l => (l, w.g.svpc.getD l exitPc))) with redir := 4 }
  else { (w.mod (fun g => { g with vpc := g.svpc })).jump ((lanesOf w.act).map (fun l => (l, w.g.svpc.getD l exitPc))) with redir := 4 }

/-- The bytes PUSH writes in a lane (R87). -/
def pushVal (g : Group) (l : Nat) (a : Opnd) : StkSize → List Byte
  | .b32 => toBytes 8 (g.rd l a).toNat
  | .b64 => toBytes 8 (g.rd64 l a).toNat
  | .b128 => (List.range 4).flatMap (fun j => toBytes 4 (g.rdj l j a).toNat)

/-- Bytes a frame word moves (R87). -/
def frameBytes : StkSize → Nat
  | .b128 => 16
  | _ => 8

def execPush (h : Hdr) (a : Opnd) (sz : StkSize) (s : State) := runWord (.push h a sz) s fun w =>
  w.ex.foldl (fun v l =>
    let n : Int := ((w.g.lspOf l).toNat : Int) - frameBytes sz
    if w.lspOk n then v.pushBytes l (pushVal w.g l a sz) else v.stackOver l n) w

/-- Cells of consecutive registers from bytes, low word first. -/
def cellsOfBytes (d : Opnd) (l n : Nat) (b : List Byte) : List (Nat × Word) :=
  dstCellsN d n [l] (fun j _ => BitVec.ofNat 32 (ofBytes ((b.drop (4 * j)).take 4)))

/-- One lane's POP (R87): its value, then the move of LSP. A lane that faults under a suppressed fault gets zeros (R93). `w` is the word as
it began. -/
def W.popLane (w : W) (d : Opnd) (sz : StkSize) (acc : W × List (Nat × Word)) (l : Nat) : W × List (Nat × Word) :=
  let lsp := (w.g.lspOf l).toNat
  let m := frameBytes sz
  let none := if w.mute l then acc.2 ++ zeroCells w.f l else acc.2
  if w.lspOk (lsp + m : Nat) then
    match acc.1.s.readL acc.1.gid w.g l m lsp with
    | (.bytes b, s) => ({ acc.1 with s := s }.setLsp l (lsp + m), acc.2 ++ cellsOfBytes d l (stkRegs sz) b)
    | (r, s) => ({ acc.1 with s := s }.stackGot l lsp kindLoad r, none)
  else (acc.1.stackOver l (lsp + m : Nat), none)

/-- POP (R87). -/
def execPop (h : Hdr) (d : Opnd) (sz : StkSize) (s : State) := runWord (.pop h d sz) s fun w =>
  let p := w.ex.foldl (w.popLane d sz) (w, [])
  if p.1.rolled || p.1.hold.isSome then p.1
  else
    let q := p.1.s.freeDue
    { p.1 with s := q.2 }.var p.2 q.1 true

/-- One lane's SALLOC (R87). -/
def W.sallocLane (w : W) (d a : Opnd) (acc : W × List (Nat × Word)) (l : Nat) : W × List (Nat × Word) :=
  let n : Int := ((w.g.lspOf l).toNat : Int) - roundUp (w.g.rd l a).toNat 8
  if w.lspOk n then (acc.1.setLsp l n.toNat, acc.2 ++ dstCells d 0 [l] (fun _ => BitVec.ofInt 32 n))
  else (acc.1.stackOver l n, if w.mute l then acc.2 ++ zeroCells w.f l else acc.2)

/-- SALLOC (R87). -/
def execSalloc (h : Hdr) (d a : Opnd) (s : State) := runWord (.salloc h d a) s fun w =>
  let p := w.ex.foldl (w.sallocLane d a) (w, [])
  p.1.fix p.2
/-- SFREE (R87). -/
def execSfree (h : Hdr) (a : Opnd) (s : State) := runWord (.sfree h a) s fun w =>
  w.ex.foldl (fun v l =>
    let n : Int := ((w.g.lspOf l).toNat : Int) + roundUp (w.g.rd l a).toNat 8
    if w.lspOk n then v.setLsp l n.toNat else v.stackOver l n) w

end Sys2Proof.Machine
end

