-- ==== Sys2Proof/Machine/Sync.lean ====
section
/-! DEFINITION. Barriers and the watch table, 0x150–0x159, with BARRIER_WAKE, WATCH_EVALUATE and WATCH_TIMEOUT (chapter 09). -/

namespace Sys2Proof.Machine

/-- A barrier of a group and the group's participant number (R208). -/
def State.barOf (s : State) (g : Group) (cluster : Bool) (n : Nat) : Option (Barrier × Nat) :=
  let t := s.teamD g.tid
  if cluster then ((kget s.lclusters t.cluster).bind (fun k => kget k.bars n)).map (fun b => (b, clusterPart t.rank g.index))
  else (kget t.bars n).map (fun b => (b, g.index))

/-- A barrier of a group changed. -/
def State.putBar (s : State) (g : Group) (cluster : Bool) (n : Nat) (b : Barrier) : State :=
  if cluster then s.modLCl (s.teamD g.tid).cluster (fun k => { k with bars := kset k.bars n b }) else s.setBar g.tid n b

/-- The teams whose groups take part in a barrier. -/
def State.barTeams (s : State) (g : Group) (cluster : Bool) : List Nat :=
  if cluster then ((kget s.lclusters (s.teamD g.tid).cluster).map (fun k => k.teams.map (fun x => x.2))).getD [] else [g.tid]

/-- BARRIER_MISUSE (R211): one record, for the lowest active lane; the group stays at the word. -/
def W.misuse (w : W) : W := w.faultWord .barrierMisuse kindBarrier 0

/-- The release of a cluster arrival begun while its word waits (R213). -/
def arrivalFence (gid : Nat) (pc : Pc) (s : State) : State :=
  let (id, s) := s.fresh
  s.modGrp gid (fun g =>
    { g with fences := g.fences ++ [{ FenceRec.blank with id := id, pc := pc, scope := 3, rel := true, barrier := true }] })

/-- The fence a cluster arrival's word began while it waits (R213). -/
def Group.ownFence (g : Group) (pc : Pc) : Option FenceRec := g.fences.find? (fun f => f.barrier && decide (f.pc = pc))

/-- Whether the release of an arrival is over (R213): for a team arrival the group's atomics on their way, for a cluster arrival all the
release actions at .CLU. -/
def State.arrivalFree (s : State) (gid : Nat) (g : Group) (pc : Pc) (cluster : Bool) : Bool :=
  if cluster then (match g.ownFence pc with
    | some f => !f.rel
    | none => s.earlierDone gid g s.serial && (s.core g.core).sideLog.all (fun e => decide (e.ctx ≠ g.ctx)))
  else !(s.atoms.any (fun a => decide (a.2.gid = gid)))

/-- An arrival's word while its release is not over: a cluster arrival begins it. -/
def W.arrivalHeld (w : W) (cluster : Bool) : W :=
  if cluster && (w.g.ownFence w.pc).isNone then { w with hold := some .fence, holdFx := arrivalFence w.gid w.pc }
  else { w with hold := some .fence }

/-- A cluster arrival's release done: the L1's dirty bytes are in the die L2 and the word's own fence is over. -/
def State.arrivalDone (s : State) (gid core : Nat) (pc : Pc) (cluster : Bool) : State :=
  if cluster then
    (s.writeBackL1 core).modGrp gid (fun g => { g with fences := g.fences.filter (fun f => !(f.barrier && decide (f.pc = pc))) })
  else s

/-- An arrival made on a barrier (R209): its waiters wake when it completes the phase. -/
def State.arriveBar (s : State) (g : Group) (cluster : Bool) (n : Nat) (b : Barrier) (p : Nat) : State :=
  let s1 := s.putBar g cluster n (b.arrive p).1
  if (b.arrive p).2.2 then s1.wakeBarrier cluster n (s.barTeams g cluster) else s1

/-- Whether a group has arrived or dropped (R209). -/
def Barrier.marked (b : Barrier) (p : Nat) : Bool := b.arrived.contains p || b.dropped.contains p

/-- BARA and CBARA (R210). -/
def W.barArrive (w : W) (cluster : Bool) (d : Opnd) (n : Nat) : W :=
  if w.ex.isEmpty then w
  else match w.s.barOf w.g cluster n with
    | none => w.misuse
    | some (b, p) =>
      if w.dry then w.var (dstCells d 0 w.ex (fun _ => bword b.parity)) w.clk false
      else if b.marked p then w.misuse
      else if !w.s.arrivalFree w.gid w.g w.pc cluster then w.arrivalHeld cluster
      else
        { w with s := (w.s.arrivalDone w.gid w.g.core w.pc cluster).arriveBar w.g cluster n b p }.var
          (dstCells d 0 w.ex (fun _ => bword b.parity)) (w.clk + 2) false

/-- The acquire at the end of a cluster wait (R213). -/
def W.barAcquire (w : W) (cluster : Bool) : W := if cluster && !w.dry then { w with s := w.s.acquireNow w.g 3 } else w

/-- BARW and CBARW (R210, R211). -/
def W.barWait (w : W) (cluster : Bool) (n : Nat) (a : Opnd) : W :=
  if w.ex.isEmpty || w.dry then w
  else match w.s.barOf w.g cluster n with
    | none => w.misuse
    | some (b, p) =>
      if (w.g.rd 0 a).getLsbD 0 ≠ b.parity then w.barAcquire cluster
      else if b.marked p then w.wait (.barrier cluster n b.parity)
      else w.misuse

/-- BARS and CBARS (R210): the arrival, then the wait; the arrival that completes the phase is released with the others. -/
def W.barSync (w : W) (cluster : Bool) (n : Nat) : W :=
  if w.ex.isEmpty then w
  else match w.s.barOf w.g cluster n with
    | none => w.misuse
    | some (b, p) =>
      if w.dry then w
      else if b.marked p then w.misuse
      else if !w.s.arrivalFree w.gid w.g w.pc cluster then w.arrivalHeld cluster
      else
        let w := { w with s := w.s.arrivalDone w.gid w.g.core w.pc cluster }.wait (.barrier cluster n b.parity)
        { w with s := w.s.arriveBar w.g cluster n b p }

/-- BARX (R209, R210): a drop is no release. -/
def W.barDrop (w : W) (cluster : Bool) (n : Nat) : W :=
  if w.ex.isEmpty then w
  else match w.s.barOf w.g cluster n with
    | none => w.misuse
    | some (b, p) =>
      if w.dry then w
      else if b.dropped.contains p then w.misuse
      else { w with s := if cluster then w.s.dropClusterBar w.g.tid w.g.index n else w.s.dropTeamBar w.g.tid w.g.index n }

def execBara (h : Hdr) (d : Opnd) (n : Fin 16) (s : State) := runWord (.bara h d n) s fun w => w.barArrive false d n.val
def execBarw (h : Hdr) (n : Fin 16) (a : Opnd) (s : State) := runWord (.barw h n a) s fun w => w.barWait false n.val a
def execBars (h : Hdr) (n : Fin 16) (s : State) := runWord (.bars h n) s fun w => w.barSync false n.val
def execCbara (h : Hdr) (d : Opnd) (n : Fin 8) (s : State) := runWord (.cbara h d n) s fun w => w.barArrive true d n.val
def execCbarw (h : Hdr) (n : Fin 8) (a : Opnd) (s : State) := runWord (.cbarw h n a) s fun w => w.barWait true n.val a
def execCbars (h : Hdr) (n : Fin 8) (s : State) := runWord (.cbars h n) s fun w => w.barSync true n.val
def execBarx (h : Hdr) (cls : BarCls) (n : Fin 16) (s : State) := runWord (.barx h cls n) s fun w =>
  w.barDrop (decide (cls = .cluster)) n.val

/-- BARRIER_WAKE (R212, R213): a group released by a completed phase goes on, after the acquire actions of a cluster barrier. -/
def execBarrierWake (gid : Nat) (s : State) := runEvent s fun s =>
  match s.grp gid with
  | none => s
  | some g =>
    match g.wait, g.wakeAt with
    | .barrier c _ _, some _ =>
      (if c then s.acquireNow g 3 else s).modGrp gid (fun g => { g with wait := .none, wakeAt := none })
    | _, _ => s

/-- A watch word's comparison value and mask (R217). -/
def Group.watchOps (g : Group) (m : WatchMod) (b : Opnd) : DWord × DWord :=
  if m.w64 then (pair64 (g.rdj 0 0 b) (g.rdj 0 1 b), pair64 (g.rdj 0 2 b) (g.rdj 0 3 b))
  else ((g.rdj 0 0 b).setWidth 64, (g.rdj 0 1 b).setWidth 64)

/-- The registers WATCH and WATCHT write (R217): the value, then the status. -/
def watchCells (base : Option Nat) (w64 : Bool) (x : DWord) (status : Nat) : List (Nat × Word) :=
  match base with
  | none => []
  | some r =>
    if w64 then
      [(cellKey r 0, lo32 x), (cellKey (r + 1) 0, hi32 x), (cellKey (r + 2) 0, BitVec.ofNat 32 status), (cellKey (r + 3) 0, 0)]
    else [(cellKey r 0, lo32 x), (cellKey (r + 1) 0, BitVec.ofNat 32 status)]

/-- The die whose section holds the entries of a home (R214). -/
def watchDie (e : Nat) : Nat := if leafHome e = 15 then 20 else 8 + leafHome e

/-- Entries of a section (R214). -/
def sectSize (d : Nat) : Nat := if d = 20 then 1024 else 4096

/-- A free entry of a section for a context, within its quota (R216). -/
def State.watchSlot (s : State) (d ctx : Nat) : Option Nat :=
  let ws := (s.die d).watches
  let q := min (s.ctxD ctx).wquota (sectSize d)
  if (ws.filter (fun w => decide (w.2.ctx = ctx))).length < q then
    (List.range (min (ws.length + 1) (sectSize d))).find? (fun k => (kget ws k).isNone)
  else none

/-- The clk at which a timeout in µs ends (R218): within the microsecond after it. -/
def State.watchUntil (s : State) (us : Nat) : Nat × State :=
  let f := max 1 s.pkg.freq
  let (k, s) := s.freePick f
  (s.pkg.clock + us * f + 1 + k, s)

/-- What a watch word finds (R218): a status at once with the value, or the entry to be armed. -/
inductive Found where
  | at_ (status : Nat) (x : DWord)
  | arm (sect idx : Nat)
  deriving DecidableEq, Repr

/-- The evaluation of a watch word at the word's home (R218). `zero`: a WATCHT with a zero timeout. -/
def State.watchFind (s : State) (ctx : Nat) (m : WatchMod) (e flat : Nat) (vm : DWord × DWord) (zero : Bool) : Found × State :=
  if 2 ^ 52 + 2 ^ 50 ≤ flat then
    let b := (List.range 8).map (fun k => Config.freeByte (s.free + k))
    (.at_ 3 (BitVec.ofNat 64 (ofBytes (if m.w64 then b else b.take 4))), { s with free := s.free + 8 })
  else
    let x : DWord := BitVec.ofNat 64 (s.num flat (if m.w64 then 8 else 4))
    if watchHolds m x vm.1 vm.2 then (.at_ 0 x, s)
    else if zero then (.at_ 1 x, s)
    else match s.watchSlot (watchDie e) ctx with
      | some k => (.arm (watchDie e) k, s)
      | none => (.at_ 2 x, s)

/-- The origin port of the work a group belongs to (R322). -/
def State.originOf (s : State) (gid : Nat) : Nat := (s.teamD (s.grpD gid).tid).origin

/-- An entry armed. -/
def State.watchArm (s : State) (sect idx : Nat) (w : Watch) : State :=
  let (id, s) := s.fresh
  s.modDie sect (fun d => { d with watches := kset d.watches idx { w with order := id } })

/-- The acquire of a watch word's end (R218): at .PKG, at .SYS for host memory. -/
def State.watchAcquire (s : State) (g : Group) : State := s.acquireNow g 0

/-- What keeps a watch word back at its home: a logged line, or an atomic of the group on its way to the word (R189, R199, R218). -/
def State.watchHeld (s : State) (gid : Nat) (g : Group) (p : DWord) (n : Nat) (r : Reach) : Option SlotCause :=
  if (s.core g.core).sideLog.any (fun l => decide (l.ctx = g.ctx) && decide (vline l.ptr = vline p)) then some .fault
  else if s.overlapsFlight gid n [(0, r)] then some .depMem else none

/-- A fault or an absent page met by a watch word. -/
def W.watchFault (w : W) : Reach → W
  | .fault f => w.fault f
  | .absent f => w.absent f
  | .wait => { w with hold := some .fault }
  | _ => w

/-- The registers of a WATCH with zeros, where a fault was suppressed (R93). -/
def W.watchZero (w : W) : W := if w.mute 0 then w.var (zeroCells w.f 0) w.clk true else w

/-- The clk at which a timeout ends, none for a wait without one. -/
def State.watchTil (s : State) (us : Option Nat) : Option Nat × State :=
  match us with
  | none => (none, s)
  | some t => let r := s.watchUntil t; (some r.1, r.2)

/-- What a WATCH or WATCHT does with what its home answers (R218). -/
def W.watchAnswer (w : W) (d : Opnd) (m : WatchMod) (us : Option Nat) (p : DWord) (flat : Nat) (vm : DWord × DWord) (f : Found) : W :=
  match f with
  | .at_ st x =>
    let q := w.s.freeDue
    { w with s := q.2.watchAcquire w.g }.var (watchCells (opndNum d) m.w64 x st) q.1 true
  | .arm sect k =>
    let q := w.s.watchTil us
    ({ w with s := q.2.watchArm sect k ⟨w.g.ctx, p, flat, m, vm.1, vm.2, .group w.gid, q.1, 0, none, w.s.originOf w.gid⟩ }.pend [] none true).2.wait
      (.watch sect k)

/-- WATCH and WATCHT (R218): `us` none for WATCH. -/
def W.watch (w : W) (d a b : Opnd) (m : WatchMod) (us : Option Nat) : W :=
  if w.ex.isEmpty then w
  else
    let n := if m.w64 then 8 else 4
    let q := w.s.reachG w.g.who 0 (w.g.rd64 0 a) n true true needR kindLoad
    let w := { w with s := q.2 }
    match q.1 with
    | .glob p e _ flat =>
      let vm := w.g.watchOps m b
      if w.dry then
        let f := w.s.watchFind w.g.ctx m e flat vm true
        (match f.1 with
        | .at_ st x => { w with s := f.2 }.var (watchCells (opndNum d) m.w64 x st) w.clk true
        | .arm _ _ => w)
      else match w.s.watchHeld w.gid w.g p n q.1 with
        | some c => { w with hold := some c }
        | none =>
          let s := w.s.recallLine w.g.core p flat
          if s.bad flat n then { w with s := s }.fault (accFault 0 .mcheck p (flat % 2 ^ 52) .g kindLoad)
          else
            let f := s.watchFind w.g.ctx m e flat vm (decide (us = some 0))
            { w with s := f.2 }.watchAnswer d m us p flat vm f.1
    | .ctl _ => w.fault (accFault 0 .mcheck (w.g.rd64 0 a) 0 .g kindLoad)
    | r => (w.watchFault r).watchZero

/-- The wake record written as one store at its home (R220); one that fails its checks is not written. -/
def State.wakeRecord (s : State) (ctx : Nat) (ptr : DWord) (status : Nat) (x : DWord) : State :=
  match s.homeOf ctx ptr needW with
  | (some a, s) => s.homePut a (toBytes 16 (2 ^ 127 + field 64 2 status + x.toNat))
  | (none, s) => s

/-- What WATCHH does with what its home answers (R218, R220): the status in D, the record written at once or the entry armed. -/
def W.watchhAnswer (w : W) (d : Opnd) (m : WatchMod) (rec_ : DWord) (us : Nat) (p : DWord) (flat : Nat) (vm : DWord × DWord) (f : Found) : W :=
  let q := w.s.freeDue
  match f with
  | .at_ st x =>
    { w with s := if st = 0 then q.2.wakeRecord w.g.ctx rec_ 0 x else q.2 }.var (dstCells d 0 w.ex (fun _ => BitVec.ofNat 32 st)) q.1 false
  | .arm sect k =>
    let til := q.2.watchTil (if us = 0 then none else some us)
    { w with s := til.2.watchArm sect k ⟨w.g.ctx, p, flat, m, vm.1, vm.2, .record rec_, til.1, 0, none, w.s.originOf w.gid⟩ }.var
      (dstCells d 0 w.ex (fun _ => 0)) q.1 false

/-- WATCHH (R218, R220). -/
def W.watchRecord (w : W) (d a b c : Opnd) (m : WatchMod) : W :=
  if w.ex.isEmpty then w
  else
    let n := if m.w64 then 8 else 4
    let rec_ := pair64 (w.g.rdj 0 0 c) (w.g.rdj 0 1 c)
    let us := (w.g.rdj 0 2 c).toNat
    let q := w.s.reachG w.g.who 0 (w.g.rd64 0 a) n true true needR kindLoad
    let q2 := q.2.reachG w.g.who 0 rec_ 16 true true needW kindStore
    let w := { w with s := q2.2 }
    match q.1, q2.1 with
    | .glob p e _ flat, .glob _ _ _ _ =>
      let vm := w.g.watchOps m b
      if w.dry then w.var (dstCells d 0 w.ex (fun _ => 0)) w.clk false
      else match w.s.watchHeld w.gid w.g p n q.1 with
        | some c => { w with hold := some c }
        | none =>
          let s := w.s.recallLine w.g.core p flat
          if s.bad flat n then { w with s := s }.fault (accFault 0 .mcheck p (flat % 2 ^ 52) .g kindLoad)
          else
            let f := s.watchFind w.g.ctx m e flat vm false
            { w with s := f.2 }.watchhAnswer d m rec_ us p flat vm f.1
    | .glob _ _ _ _, r2 => (w.watchFault r2).watchZero
    | r, _ => (w.watchFault r).watchZero

def execWatch (h : Hdr) (d a b : Opnd) (m : WatchMod) (s : State) := runWord (.watch h d a b m) s fun w => w.watch d a b m none
def execWatcht (h : Hdr) (d a b c : Opnd) (m : WatchMod) (s : State) := runWord (.watcht h d a b c m) s fun w =>
  w.watch d a b m (some (w.g.rd 0 c).toNat)
def execWatchh (h : Hdr) (d a b c : Opnd) (m : WatchMod) (s : State) := runWord (.watchh h d a b c m) s fun w => w.watchRecord d a b c m

/-- An entry freed. -/
def State.watchFree (s : State) (sect idx : Nat) : State := s.modDie sect (fun d => { d with watches := kdel d.watches idx })

/-- The scoreboard entry a waiting watch word left open (R217). -/
def isWatchPend (p : Pend) : Bool := (decide (p.op = 0x157) || decide (p.op = 0x158)) && p.due.isNone

/-- A group's watch ends with a status and a value (R218, R219): its registers are written, its wait is over. -/
def State.watchWake (s : State) (gid : Nat) (w64 : Bool) (x : DWord) (status : Nat) : State :=
  match s.grp gid with
  | none => s
  | some g =>
    (s.watchAcquire g).modGrp gid (fun g =>
      { g with wait := .none, wakeAt := none,
               pends := g.pends.map (fun p => if isWatchPend p then
                 { p with cells := watchCells (if p.regs.isEmpty then none else some p.base) w64 x status, due := some (s.pkg.clock + 1) } else p) })

/-- An entry that ends with a status (R218, R220). -/
def State.watchEnd (s : State) (sect idx : Nat) (w : Watch) (status : Nat) (x : DWord) : State :=
  let s := s.watchFree sect idx
  match w.waiter with
  | .group gid => s.watchWake gid w.m.w64 x status
  | .record p => s.wakeRecord w.ctx p status x

/-- WATCH_EVALUATE (R215): a captured value is delivered, or the condition is tested against the word as it stands. -/
def execWatchEvaluate (sect idx : Nat) (s : State) := runEvent s fun s =>
  match kget (s.die sect).watches idx with
  | none => s
  | some w =>
    match w.hit with
    | some x => s.watchEnd sect idx w 0 x
    | none => let x := s.watchWord w; if watchHolds w.m x w.value w.mask then s.watchEnd sect idx w 0 x else s

/-- WATCH_TIMEOUT (R215, R218): one more evaluation; the status agrees with the value. -/
def execWatchTimeout (sect idx : Nat) (s : State) := runEvent s fun s =>
  match kget (s.die sect).watches idx with
  | none => s
  | some w =>
    match w.hit with
    | some x => s.watchEnd sect idx w 0 x
    | none => let x := s.watchWord w; s.watchEnd sect idx w (if watchHolds w.m x w.value w.mask then 0 else 1) x

/-- A waiting group loses its watch entry (R219): save, or an asynchronous trap. -/
def State.watchDrop (s : State) (gid : Nat) : State :=
  let s := { s with dies := kmap s.dies (fun _ d => { d with watches := d.watches.filter (fun w => decide (w.2.waiter ≠ Waiter.group gid)) }) }
  s.modGrp gid (fun g => { g with pends := g.pends.filter (fun p => !isWatchPend p) })

/-- A group waiting at a watch, tile or SLEEPC word goes back to the word (R219, R336). -/
def Group.unwait (g : Group) : Group :=
  { g with wait := .none, wakeAt := none,
           vpc := lanes32.map (fun l => if g.waitMask.getLsbD l then g.waitPc else g.vpcOf l) }

/-- The next entry that a firing or a timeout ends by a clk. -/
def Die.watchDue (d : Die) (clk : Nat) : Option Nat :=
  (d.watches.find? (fun w => match w.2.until_ with
    | some t => decide (t ≤ clk)
    | none => false)).map (fun w => w.1)

end Sys2Proof.Machine
end

