-- ==== Sys2Proof/Machine/Copy.lean ====
section
/-! DEFINITION. Tiles and the Traverse engine, 0x160–0x16C, with COPY_JOB_START, MC_PART_START, CHUNK_SETTLE, CHUNK_REISSUE and
COPY_JOB_COMPLETE (chapter 10, R174). -/

namespace Sys2Proof.Machine

/-- An allocated tile of a team (R221). -/
def State.tile (s : State) (tid n : Nat) : Option Tile := (s.team tid).bind (fun t => kget t.tiles n)
/-- A tile changed. -/
def State.modTile (s : State) (tid n : Nat) (f : Tile → Tile) : State :=
  s.modTeam tid (fun t => { t with tiles := kmod t.tiles n f })

/-- Every bit of a chunk bitmap. -/
def allBits : Nat := 2 ^ 512 - 1

/-- Bitmap bit `i` (R221): bits at or above SIZE / 512 read 1. -/
def Tile.bit (t : Tile) (i : Nat) : Bool := decide (t.size / 512 ≤ i) || t.bits.testBit i

/-- A tile whose counts may have reached zero (R222, R223). -/
def Tile.settle (t : Tile) : Tile :=
  match t.state with
  | .filling => if t.oc = 0 ∧ t.ec = 0 then { t with state := .ready, bits := if t.err = 0 then allBits else t.bits } else t
  | .draining => if t.oc = 0 then { t with state := .ready } else t
  | _ => t

/-- Chunk bits cleared (R223). -/
def Tile.clear (t : Tile) (chunks : List Nat) : Tile :=
  { t with bits := chunks.foldl (fun b i => if b.testBit i then b - 2 ^ i else b) t.bits }

/-- The error of a tile's job, kept from the first one (R242). -/
def Tile.fail (t : Tile) (code : Nat) (va : DWord) : Tile := if t.err = 0 then { t with err := code, errVa := va } else t

/-- The code of a tile state (R231). -/
def tileCode : TileState → Nat
  | .unallocated => 0
  | .empty => 1
  | .filling => 2
  | .ready => 3
  | .draining => 4

/-- A layout record's fields (R224). -/
def layoutOf (v : Nat) : Layout :=
  { base := BitVec.ofNat 64 (bitsOf v 0 64), sizes := (List.range 5).map (fun k => bitsOf v (64 + 32 * k) 32),
    strides := (List.range 4).map (fun k => bitsOf v (224 + 40 * k) 40), box := (List.range 5).map (fun k => bitsOf v (384 + 10 * k) 10),
    es := bitsOf v 434 3, ndim := bitsOf v 437 3, rp := bitsOf v 440 12, toff := bitsOf v 452 11, rot := bitsOf v 463 3,
    pol := bitsOf v 466 2, wdim := bitsOf v 468 3, wstep := bitsOf v 471 8 }

/-- Box extent in a dimension (R224). -/
def Layout.b (y : Layout) (k : Nat) : Nat := if k < y.ndim then y.box.getD k 0 + 1 else 1
/-- Array extent in a dimension. -/
def Layout.size (y : Layout) (k : Nat) : Nat := y.sizes.getD k 0
/-- Byte stride of a dimension 1–4. -/
def Layout.stride (y : Layout) (k : Nat) : Nat := y.strides.getD (k - 1) 0
/-- Element bytes and row pitch (R225). -/
def Layout.e (y : Layout) : Nat := 2 ^ y.es
def Layout.p (y : Layout) : Nat := 16 * y.rp
/-- Rows of the box. -/
def Layout.rows (y : Layout) : Nat := y.b 1 * y.b 2 * y.b 3 * y.b 4

/-- The position in dimension `k` of a box row (R225). -/
def Layout.rowPos (y : Layout) (row k : Nat) : Nat :=
  match k with
  | 1 => row % y.b 1
  | 2 => row / y.b 1 % y.b 2
  | 3 => row / (y.b 1 * y.b 2) % y.b 3
  | _ => row / (y.b 1 * y.b 2 * y.b 3)

/-- A coordinate (R224): 0 at and above NDIM. -/
def Layout.coord (y : Layout) (c : List Word) (k : Nat) : Int := if k < y.ndim then sval (c.getD k 0) else 0

/-- The global position of an element in dimension `k`. -/
def Layout.x (y : Layout) (c : List Word) (row b0 k : Nat) : Int :=
  y.coord c k + (if k = 0 then b0 else y.rowPos row k : Nat)

/-- Whether an element is in bounds (R225). -/
def Layout.inb (y : Layout) (c : List Word) (row b0 : Nat) : Bool :=
  (List.range 5).all (fun k => decide (y.ndim ≤ k) || (decide (0 ≤ y.x c row b0 k) && decide (y.x c row b0 k < (y.size k : Int))))

/-- The sum of the strided parts of an element's address. -/
def Layout.strided (y : Layout) (c : List Word) (row : Nat) : Int :=
  ([1, 2, 3, 4].filter (fun k => decide (k < y.ndim))).foldl (fun s k => s + y.x c row 0 k * (y.stride k : Int)) 0

/-- The address of an element at position `x0` of its row (R225). -/
def Layout.ga (y : Layout) (c : List Word) (row : Nat) (x0 : Int) : DWord := ptrOff y.base (x0 * (y.e : Int) + y.strided c row)

/-- The tile offset of an element (R225). -/
def Layout.off (y : Layout) (row b0 : Nat) : Nat :=
  let o := row * y.p + b0 * y.e
  128 * y.toff +
    (if y.rot = 0 then o
     else row * y.p + 16 * ((o % y.p / 16) ^^^ ((row >>> (y.rot - 1)) % 8)) + o % 16)

/-- The checks of R226: 0, or the ERR code of the first that fails. -/
def Layout.check (y : Layout) (c : List Word) (win s24 : Bool) (tileSize : Nat) : Nat :=
  if decide (5 ≤ y.es) || decide (y.ndim = 0) || decide (6 ≤ y.ndim) || decide (y.pol = 3) then 7
  else if decide (y.p < y.b 0 * y.e) || decide (tileSize < 128 * y.toff + y.rows * y.p) then 7
  else if decide (y.rot ≠ 0) && decide (y.p % 128 ≠ 0) then 7
  else if win && decide (y.ndim ≤ y.wdim) then 7
  else if s24 && (decide (4 < y.e) || decide (y.b 0 % 4 ≠ 0) || decide (y.size 0 % 4 ≠ 0) || decide (y.coord c 0 % 4 ≠ 0)) then 7
  else if decide (vaOf y.base % y.e ≠ 0) || [1, 2, 3, 4].any (fun k => decide (k < y.ndim) && decide (y.stride k % y.e ≠ 0)) then 6
  else 0

/-- The chunks of a tile that a job's tile range covers (R223, R227). -/
def Layout.chunks (y : Layout) : List Nat :=
  let lo := 128 * y.toff / 512
  let hi := (128 * y.toff + y.rows * y.p + 511) / 512
  (upFrom lo (min hi 512 - lo))

/-- The lowest and highest in-bounds positions in a dimension, when there are any. -/
def Layout.span (y : Layout) (c : List Word) (k : Nat) : Option (Int × Int) :=
  if k < y.ndim then
    let lo := max 0 (y.coord c k)
    let hi := min ((y.size k : Int) - 1) (y.coord c k + ((y.b k : Nat) : Int) - 1)
    if lo ≤ hi then some (lo, hi) else none
  else some (0, 0)

/-- The global range of a job (R227). -/
def Layout.globalRange (y : Layout) (c : List Word) (s24 : Bool) : List Range :=
  match (List.range 5).mapM (y.span c) with
  | none => []
  | some sp =>
    let base : Int := (vaOf y.base : Int)
    let part : (Int × Int → Int) → Int := fun f => ([1, 2, 3, 4].filter (fun k => decide (k < y.ndim))).foldl
      (fun a k => a + f (sp.getD k (0, 0)) * (y.stride k : Int)) 0
    let s0 := sp.getD 0 (0, 0)
    let lo0 := if s24 then 2 * (s0.1 / 4) else s0.1
    let hi0 := if s24 then 2 * (s0.2 / 4) + 1 else s0.2
    let e : Int := (y.e : Int)
    [⟨1, (base + lo0 * e + part (fun q => q.1)).toNat, (base + hi0 * e + part (fun q => q.2) + e).toNat⟩]

/-- The number of the dense row an element lies in (R236). -/
def Layout.denseRow (y : Layout) (x : Nat → Int) : Int := x 1 + (y.size 1 : Int) * (x 2 + (y.size 2 : Int) * (x 3 + (y.size 3 : Int) * x 4))

/-- The metadata range of a .S24 job (R227). -/
def Layout.metaRange (y : Layout) (c : List Word) (md : DWord) : List Range :=
  match (List.range 5).mapM (y.span c) with
  | none => []
  | some sp =>
    let n : (Int × Int → Int) → Int := fun f => y.denseRow (fun k => f (sp.getD k (0, 0))) * ((y.size 0 / 4 : Nat) : Int) + f (sp.getD 0 (0, 0)) / 4
    [⟨1, (((vaOf md : Nat) : Int) + n (fun q => q.1) / 2).toNat, (((vaOf md : Nat) : Int) + n (fun q => q.2) / 2 + 1).toNat⟩]

/-- A range widened to its granularity (R206): 512 bytes in scratchpad, 4 KiB in global memory. -/
def Range.grain (r : Range) : Range :=
  let g := if r.space = 1 then 4096 else 512
  ⟨r.space, r.lo / g * g, roundUp r.hi g⟩

/-- Whether two ranges share a byte at their granularity (R206). -/
def Range.meets (a b : Range) : Bool :=
  let a := a.grain
  let b := b.grain
  decide (a.space = b.space) && decide (a.lo < b.hi) && decide (b.lo < a.hi)

/-- Whether any of one list of ranges meets any of another. -/
def rangesMeet (a b : List Range) : Bool := a.any (fun x => b.any x.meets)

/-- Whether an edge runs from an earlier job to a later one (R206). -/
def edge (r1 w1 r2 w2 : List Range) : Bool := rangesMeet w1 r2 || rangesMeet r1 w2 || rangesMeet w1 w2

/-- Where a core's accumulator columns `c0` up to `c0 + nc` of rows `r0` up to `r0 + nr`, in units of 16, stand as ranges
(R283): one range for each row of 16 × 16 blocks. -/
def accRanges (core r0 nr c0 nc : Nat) : List Range :=
  (upFrom r0 (min nr (8 - r0))).map (fun r => ⟨2, 512 * (core * 128 + r * 16 + c0), 512 * (core * 128 + r * 16 + min 16 (c0 + nc))⟩)

/-- The rectangle, in units of 16, that an MXB job's part on the `j`-th cooperating core writes (R269): rows and columns. -/
def blkRect (block j : Nat) : Nat × Nat × Nat × Nat :=
  let cplx := decide (bitsOf block 0 5 = 16) || decide (bitsOf block 0 5 = 17)
  let wc := if cplx then 8 else 16
  let n := min wc (bitsOf block 16 6 + 1 - wc * j)
  (bitsOf block 24 3, bitsOf block 12 3 + 1, bitsOf block 27 4, if cplx then 2 * n else n)

/-- The number of cooperating cores below a rank (R269). -/
def slicesBelow (block rank : Nat) : Nat := popNat rank (bitsOf block 8 4)

/-- A job's rectangle on a core as ranges of its window. -/
def blkRanges (block core rank : Nat) : List Range :=
  let r := blkRect block (slicesBelow block rank)
  accRanges core r.1 r.2.1 r.2.2.1 r.2.2.2

/-- The ranges that an entry of a core's window accepted before a sequence number declares: a job of its own, or a part of
another core's job (R274, R283). -/
def MJob.rangesOn (core seq : Nat) (j : MJob) : List (List Range × List Range) :=
  if j.phase = .stopped then []
  else
    (if j.core = core ∧ j.seq < seq then [(j.reads, j.writes)] else []) ++
    (match kget j.parts core with
      | some (q, rank) => let r := blkRanges j.block core rank; if q < seq then [(r, r)] else []
      | none => [])

/-- The footprints of every unfinished entry of a core's window that was accepted before a sequence number. -/
def State.earlierJobs (s : State) (core seq : Nat) : List (List Range × List Range) :=
  (s.jobs.filter (fun j => decide (j.2.core = core) && decide (j.2.seq < seq) && decide (j.2.phase ≠ .stopped))).map (fun j => (j.2.reads, j.2.writes)) ++
  s.mjobs.flatMap (fun j => j.2.rangesOn core seq)

/-- Whether no edge keeps a job back (R228). -/
def State.edgesClear (s : State) (core seq : Nat) (reads writes : List Range) : Bool :=
  (s.earlierJobs core seq).all (fun x => !edge x.1 x.2 reads writes)

/-- Entries of a core's job window in use (R228, R274). -/
def State.windowUsed (s : State) (core : Nat) : Nat :=
  (s.jobs.filter (fun j => decide (j.2.core = core) && decide (j.2.phase ≠ .stopped))).length +
  (s.mjobs.filter (fun j => (decide (j.2.core = core) || (kget j.2.parts core).isSome) && decide (j.2.phase ≠ .stopped))).length

/-- Chunks in a core engine's replay buffer (R174). -/
def State.parkedOn (s : State) (core : Nat) : Nat :=
  (s.jobs.filter (fun j => decide (j.2.core = core))).foldl (fun n j => n + j.2.parked.length) 0

/-- TILE_STATE (R222, R229): one record, for the lowest active lane. -/
def W.tileState (w : W) : W := w.faultWord .tileState kindJob 0

/-- The DETAIL of an ENGINE trap from a tile (R340). -/
def tileDetail (t : Tile) : Nat := 2 ^ 12 + t.err

/-- ENGINE for a tile's error (R242): one record, with the failing chunk's address. -/
def W.tileEngine (w : W) (t : Tile) : W :=
  if w.dry then w.diverge
  else { w with faults := w.faults ++ [⟨(lowestLane w.act).getD 0, .engine, t.errVa, 0, 0, kindJob, tileDetail t, false⟩] }

/-- The tile a word names (R229). -/
def W.tile (w : W) (n : Nat) : Option Tile :=
  let t := w.s.teamD w.g.tid
  if n < t.kernel.tiles then kget t.tiles n else none

/-- A wait on a tile (R97, R222): the word is not taken and the group's TOUCH windows close. -/
def W.tileWait (w : W) : W := { w with hold := some .tile, holdFx := fun s => s.modGrp w.gid (fun g => { g with touches := [] }) }

/-- TALLOC (R230). -/
def W.talloc (w : W) (n : Nat) (a b : Opnd) : W :=
  if w.ex.isEmpty || w.dry then w
  else
    let t := w.s.teamD w.g.tid
    let x := (w.g.rd 0 a).toNat
    let y := (w.g.rd 0 b).toNat
    if decide (t.kernel.tiles ≤ n) || decide (x % 512 ≠ 0) || decide (y % 512 ≠ 0) || decide (y = 0) || decide (262144 < y) ||
        decide (t.allocSize < x + y) || (kget t.tiles n).isSome then w.tileState
    else { w with s := w.s.modTeam w.g.tid (fun t =>
      { t with tiles := kset t.tiles n ⟨x, y, .empty, 0, 0, 0, 0, 0, false, 0⟩ }) }

/-- TFREE (R222, R230). -/
def W.tfree (w : W) (n : Nat) : W :=
  if w.ex.isEmpty || w.dry then w
  else match w.tile n with
    | none => w.tileState
    | some t => match t.state with
      | .filling => w.tileWait
      | .draining => w.tileWait
      | _ => { w with s := w.s.modTeam w.g.tid (fun t => { t with tiles := kdel t.tiles n }) }

/-- TDRAIN (R222). -/
def W.tdrain (w : W) (n : Nat) : W :=
  if w.ex.isEmpty || w.dry then w
  else match w.tile n with
    | none => w.tileState
    | some t => match t.state with
      | .filling => w.tileWait
      | .draining => w.tileWait
      | .ready => { w with s := w.s.modTile w.g.tid n (fun t => { t with state := .empty, bits := 0, bytes := 0, err := 0, mcd := false, errVa := 0 }) }
      | _ => w

/-- TEXPECT (R222, R230). -/
def W.texpect (w : W) (n : Nat) (a : Opnd) : W :=
  if w.ex.isEmpty || w.dry then w
  else match w.tile n with
    | none => w.tileState
    | some t =>
      let x := (w.g.rd 0 a).toNat
      if decide (x = 0) || decide (1023 < x) || decide (1023 < t.ec + (x : Int)) then w.tileState
      else match t.state with
        | .draining => w.tileWait
        | _ => { w with s := w.s.modTile w.g.tid n (fun t => ({ t with state := .filling, ec := t.ec + (x : Int) }).settle) }

/-- TSTATE's tile word (R231). -/
def tileWord (t : Tile) : Nat :=
  field 28 4 t.err + field 27 1 (if t.mcd then 1 else 0) + field 24 3 (tileCode t.state) + field 13 11 (t.ec % 2048).toNat + field 0 13 t.oc

/-- TSTATE (R231). -/
def W.tstate (w : W) (d : Opnd) (n : Nat) (bytes : Bool) : W :=
  if decide ((w.s.teamD w.g.tid).kernel.tiles ≤ n) && !w.ex.isEmpty then (if w.mute 0 then w.diverge.var (zeroCells w.f 0) w.clk false else w.tileState)
  else
    let v := match w.tile n with
      | none => 0
      | some t => if bytes then t.bytes else tileWord t
    w.var (dstCells d 0 w.ex (fun _ => BitVec.ofNat 32 v)) (w.clk + 8) false

/-- Whether TWAIT's test holds (R232). -/
def Tile.test (t : Tile) (m : DWord) (g : Nat) : Bool := (List.range 64).all (fun i => !m.getLsbD i || t.bit (64 * g + i))

/-- TWAIT (R232). -/
def W.twait (w : W) (n : Nat) (a b : Opnd) : W :=
  if w.ex.isEmpty || w.dry then w
  else match w.tile n with
    | none => w.tileState
    | some t =>
      let m := w.g.rd64 0 a
      let g := (w.g.rd 0 b).toNat % 8
      if t.err ≠ 0 then w.tileEngine t
      else if t.test m g then w
      else if decide (t.state = .empty) && (List.range 64).any (fun i => m.getLsbD i && decide (64 * g + i < t.size / 512)) then w.tileState
      else w.tileWait

/-- TTEST (R232). -/
def W.ttest (w : W) (d : Fin 8) (n : Nat) (a b : Opnd) : W :=
  if w.ex.isEmpty then w
  else
    let out : W → Bool → W := fun w x => w.var (predCells (.q d) w.ex (fun _ => x)) (if w.dry then w.clk else w.clk + 8) false
    match w.tile n with
    | none => if w.dry then out w.diverge false else w.tileState
    | some t =>
      if t.err ≠ 0 then (if w.dry then out w.diverge false else w.tileEngine t)
      else out w (t.test (w.g.rd64 0 a) ((w.g.rd 0 b).toNat % 8))

def execTalloc (h : Hdr) (n : Fin 64) (a b : Opnd) (s : State) := runWord (.talloc h n a b) s fun w => w.talloc n.val a b
def execTfree (h : Hdr) (n : Fin 64) (s : State) := runWord (.tfree h n) s fun w => w.tfree n.val
def execTstate (h : Hdr) (d : Opnd) (n : Fin 64) (bytes : Bool) (s : State) := runWord (.tstate h d n bytes) s fun w => w.tstate d n.val bytes
def execTwait (h : Hdr) (n : Fin 64) (a b : Opnd) (s : State) := runWord (.twait h n a b) s fun w => w.twait n.val a b
def execTtest (h : Hdr) (d : Fin 8) (n : Fin 64) (a b : Opnd) (s : State) := runWord (.ttest h d n a b) s fun w => w.ttest d n.val a b
def execTexpect (h : Hdr) (n : Fin 64) (a : Opnd) (s : State) := runWord (.texpect h n a) s fun w => w.texpect n.val a
def execTdrain (h : Hdr) (n : Fin 64) (s : State) := runWord (.tdrain h n) s fun w => w.tdrain n.val

/-- What a job meets at one place in memory (R174). -/
inductive Step1 where
  | ok (b : List Byte)
  | at_ (e flat : Nat)
  | park (ptr : DWord) (absent : Option (Bool × Nat))
  | fail (code : Nat) (va : DWord)
  | wait
  deriving DecidableEq, Repr

/-- The ERR code of a trap-class failure (R242). -/
def errOf : Cause → Nat
  | .bounds => 1
  | .regionTag => 2
  | .perm => 3
  | .page => 4
  | _ => 5

/-- A job's translation of one place (R159, R174, R242). -/
def State.jobAt (s : State) (w : Who) (ptr : DWord) (n : Need) : Step1 × State :=
  match s.xlate w ptr n with
  | (.fail c, s) => (.fail (errOf c) ptr, s)
  | (.absent mal lvl, s) => (.park ptr (some (mal, lvl)), s)
  | (.ok e size, s) =>
    if n.w && leafWb e then (.park ptr none, s)
    else match s.place false e size ptr with
      | .mem f => (.at_ e f, s)
      | .wait => (.wait, s)
      | _ => (.fail 5 ptr, s)

/-- A job's read of a few bytes through the die L2 (R206, R228). -/
def State.jobRead (s : State) (w : Who) (ptr : DWord) (n : Nat) (alloc : Bool) : Step1 × State :=
  match s.jobAt w ptr needR with
  | (.at_ e f, s) =>
    if (upFrom f n).any (fun a => (s.l2Byte (coreDie w.core) a).isNone && s.bad a 1) then (.fail 5 ptr, s)
    else
      let s := if alloc then s.fillL2 (coreDie w.core) w.ctx e f else s
      (.ok (s.readL2 (coreDie w.core) f n), s)
  | r => r

/-- A .G read of the context for a job's own record or descriptor, through the die L2. -/
def State.recordRead (s : State) (w : Who) (ptr : DWord) (n : Nat) : Step1 × State := s.jobRead w ptr n true

/-- The new jobs of a lane, before they are issued. -/
structure CopyLane where
  lane : Nat
  ptr : DWord
  coords : List Word
  md : DWord
  lay : Layout
  err : Nat
  errVa : DWord

/-- The record read of one lane (R233 check 6): the record or an error code; none while its page is awaited. -/
def State.copyRecord (s : State) (g : Group) (a b : Opnd) (s24 : Bool) (l : Nat) :
    Option CopyLane × Option (Nat × DWord × Bool × Nat) × State :=
  let ptr := g.rd64 l a
  let page := ptr.toNat / 2 ^ 16
  let coords := (List.range 5).map (fun k => g.rdj l k b)
  let md := if s24 then pair64 (g.rdj l 6 b) (g.rdj l 7 b) else 0
  let mk : Layout → Nat → CopyLane := fun y e => ⟨l, ptr, coords, md, y, e, ptr⟩
  let r := s.recordRead g.who ptr 64
  match r.1 with
  | .ok bs => (some (mk (layoutOf (ofBytes bs)) 0), none, r.2)
  | .fail c _ => (some (mk (layoutOf 0) c), none, r.2)
  | .park _ (some (mal, lvl)) =>
    if kget g.recReq page = some 0 then (some (mk (layoutOf 0) 4), none, r.2)
    else (none, some (page, ptr, mal, lvl), r.2)
  | _ => (none, none, r.2)

/-- The records of every lane that issues. -/
def State.copyRecords (g : Group) (a b : Opnd) (s24 : Bool) (s : State) : List Nat → List (Option CopyLane × Option (Nat × DWord × Bool × Nat)) × State
  | [] => ([], s)
  | l :: t =>
    let x := s.copyRecord g a b s24 l
    let r := State.copyRecords g a b s24 x.2.2 t
    ((x.1, x.2.1) :: r.1, r.2)

/-- Requests for the pages of records that are not there, one for each page (R233). -/
def askRecords (gid : Nat) (l : List (Nat × DWord × Bool × Nat)) (s : State) : State :=
  l.foldl (fun s x =>
    let g := s.grpD gid
    if (kget g.recReq x.1).isSome then s
    else
      let (r, s) := s.request ⟨coreDie g.core, none, 1, .record gid x.1, g.ctx, [lo32 x.2.1, hi32 x.2.1], g.epc, g.rgncnt, ghOf gid, 0,
        kindJob, x.2.2.1, x.2.2.2, []⟩
      s.modGrp gid (fun g => { g with recReq := kset g.recReq x.1 r })) s

/-- The other ranks an XLOAD.MC names (R238): the cluster's teams whose bits are set, but for the issuer's own. -/
def State.mcTargets (s : State) (g : Group) (rmask : BitVec 4) : List Nat × Bool :=
  let t := s.teamD g.tid
  let k := (kget s.lclusters t.cluster).map (fun k => k.teams)
  ((List.range 4).filter (fun r => rmask.getLsbD r && decide (r ≠ t.rank))).foldl (fun acc r =>
    match (k.getD []).find? (fun x => decide (x.1 = r)) with
    | some x => (acc.1 ++ [x.2], acc.2)
    | none => (acc.1, true)) ([], false)

/-- The tile range of a job as a footprint (R227). -/
def tileRange (t : Team) (x : Tile) (y : Layout) : List Range :=
  let b := flatScratch t.core (t.allocOff + x.base + 128 * y.toff)
  [⟨0, b, b + y.rows * y.p⟩]

/-- One lane's job issued (R223, R228, R233). -/
def State.copyIssue (gid : Nat) (g : Group) (pc : Pc) (n : Nat) (drain win s24 : Bool) (parts : List Nat) (s : State) (c : CopyLane) : State :=
  let t := s.teamD g.tid
  match kget t.tiles n with
  | none => s
  | some x =>
    let none_ := decide (c.err ≠ 0)
    let tr := if none_ then [] else tileRange t x c.lay
    let gr := if none_ then [] else c.lay.globalRange c.coords s24
    let mr := if s24 && !none_ then c.lay.metaRange c.coords c.md else []
    let chunks := if none_ then [] else c.lay.chunks
    let j : CopyJob := ⟨s.serial, g.tid, gid, g.core, pc, n, drain, win, s24, c.md, c.ptr, c.lay, c.coords,
      if drain then tr else gr ++ mr, if drain then gr else tr, c.err, .issued, chunks, [], parts.map (fun p => (p, false)), 0, c.errVa, []⟩
    State.modTile { s with serial := s.serial + 1, jobs := kset s.jobs s.serial j } g.tid n
      (fun t => { (if drain then t else t.clear chunks) with oc := t.oc + 1 })

/-- The targets of a word's parts (R238); a word without .MC has none. -/
def State.copyParts (s : State) (g : Group) (mc : Option (BitVec 4)) : List Nat × Bool :=
  match mc with
  | some m => s.mcTargets g m
  | none => ([], false)

/-- A copy word's one transition of its tile, and its lanes' jobs (R222, R233). -/
def State.copyGo (s : State) (gid : Nat) (g : Group) (pc : Pc) (n : Nat) (drain win s24 : Bool) (mc : Option (BitVec 4)) (recs : List CopyLane) : State :=
  recs.foldl (State.copyIssue gid g pc n drain win s24 (s.copyParts g mc).1)
    ((s.modTile g.tid n (fun t => { t with state := if drain then .draining else .filling, mcd := t.mcd || (s.copyParts g mc).2 })).modGrp gid
      (fun g => { g with recReq := [] }))

/-- The trap of one lane before the word issues (R233 checks 1–3). -/
def W.copyCheck (w : W) (n : Nat) (a : Opnd) (l : Nat) : Option LaneFault :=
  match w.tile n with
  | none => some ⟨l, .tileState, 0, 0, 0, kindJob, 0, false⟩
  | some t =>
    if t.err ≠ 0 then some ⟨l, .engine, t.errVa, 0, 0, kindJob, tileDetail t, false⟩
    else if (w.g.rd64 l a).toNat % 64 ≠ 0 then some ⟨l, .misalign, w.g.rd64 l a, 0, 0, kindJob, 0, false⟩
    else none

/-- XLOAD and XSTORE (R222, R233). -/
def W.copy (w : W) (n : Nat) (a b : Opnd) (drain win s24 : Bool) (mc : Option (BitVec 4)) : W :=
  if w.dry then w
  else
    let lanes := w.ex.filter (fun l => !w.g.isHelper l)
    let pass := lanes.filter (fun l => (w.copyCheck n a l).isNone)
    let w := (lanes.filterMap (w.copyCheck n a)).foldl W.fault w
    match (if pass.isEmpty then none else w.tile n) with
    | none => w
    | some t =>
      let waits := decide (t.state = .draining) || (drain && decide (t.state = .filling))
      if drain && decide (t.state = .empty) then pass.foldl (fun w l => w.fault ⟨l, .tileState, 0, 0, 0, kindJob, 0, false⟩) w
      else if waits then w.tileWait
      else if 1024 < w.s.windowUsed w.g.core + pass.length then { w with hold := some .depEngine }
      else
        let r := w.s.copyRecords w.g a b s24 pass
        let recs := r.1.filterMap (fun r => r.1)
        if recs.length < pass.length then { w with s := r.2, hold := some .fault, holdFx := askRecords w.gid (r.1.filterMap (fun r => r.2)) }
        else { w with s := r.2.copyGo w.gid w.g w.pc n drain win s24 mc recs }

def execXload (h : Hdr) (n : Fin 64) (a b : Opnd) (rmask : BitVec 4) (win s24 mc : Bool) (s : State) :=
  runWord (.xload h n a b rmask win s24 mc) s fun w => w.copy n.val a b false win s24 (if mc then some rmask else none)
def execXstore (h : Hdr) (n : Fin 64) (a b : Opnd) (s : State) := runWord (.xstore h n a b) s fun w =>
  w.copy n.val a b true false false none

/-- A job's error in every tile it names (R238, R242). -/
def State.jobErr (s : State) (j : CopyJob) (code : Nat) (va : DWord) : State :=
  let s := s.modTile j.tid j.tile (fun t => t.fail code va)
  (j.parts.filter (fun p => p.2)).foldl (fun s p => s.modTile p.1 j.tile (fun t => t.fail code va)) s

/-- A job ends in failure (R242): its remaining chunks are abandoned. -/
def State.jobFail (s : State) (id code : Nat) (va : DWord) : State :=
  match kget s.jobs id with
  | none => s
  | some j =>
    let j1 := { j with unsettled := [], parked := [], err := code, errVa := va, phase := .running }
    { s with jobs := kset s.jobs id j1 }.jobErr j code va

/-- The ERR code with which a job ends at its start, and its address; 0 for a job that runs (R226, R233). -/
def State.startErr (s : State) (j : CopyJob) : Nat × DWord :=
  if j.recErr ≠ 0 then (j.recErr, j.errVa)
  else (j.lay.check j.coords j.win j.s24 (((s.tile j.tid j.tile).map (fun t => t.size)).getD 0), j.recPtr)

/-- Whether the coordinates of a .WIN job follow those of the job before it (R237): equal, but for the window dimension's, which has
moved by WSTEP. -/
def CopyJob.follows (j : CopyJob) (c : List Word) : Bool :=
  decide (1 ≤ j.lay.wdim) && decide (1 ≤ j.lay.wstep) &&
    (List.range j.lay.ndim).all (fun k =>
      decide (j.coords.getD k 0 = (if k = j.lay.wdim then c.getD k 0 + BitVec.ofNat 32 j.lay.wstep else c.getD k 0)))

/-- The lines a job may take from its core's line buffers (R237). -/
def State.heldLines (s : State) (j : CopyJob) : List (List Int × List (Int × List Byte)) :=
  match (s.core j.core).lines with
  | some b => if j.win && decide (b.recPtr = j.recPtr) && j.follows b.coords then b.lines else []
  | none => []

/-- A .WIN job replaces the line buffers (R237); a box of more than 32 KiB of lines keeps none. -/
def State.newLines (s : State) (j : CopyJob) : State :=
  if j.win then s.modCore j.core (fun c => { c with lines :=
    if 32768 < j.lay.rows * (j.lay.b 0 * j.lay.e) then none else some ⟨j.seq, j.tid, j.recPtr, j.coords, []⟩ })
  else s

/-- COPY_JOB_START (R226, R228, R234): every edge is clear, and the record is checked. -/
def State.jobStart (s : State) (id : Nat) : State :=
  match kget s.jobs id with
  | none => s
  | some j =>
    if (s.startErr j).1 = 0 then { s.newLines j with jobs := kset s.jobs id { j with phase := .running, reuse := s.heldLines j } }
    else State.jobFail { s with jobs := kset s.jobs id { j with phase := .running } } id (s.startErr j).1 (s.startErr j).2

def execCopyJobStart (job : Nat) (s : State) := runEvent s fun s => s.jobStart job

/-- Whether a multicast part may start (R238). -/
def State.partReady (s : State) (j : CopyJob) (tid : Nat) : Bool :=
  match s.tile tid j.tile with
  | none => true
  | some t => decide (t.state ≠ .draining) && decide (-1024 < t.ec)

/-- MC_PART_START (R238): the part joins its tile, or is dropped. -/
def State.partStart (s : State) (id part : Nat) : State :=
  match kget s.jobs id with
  | none => s
  | some j =>
    match j.parts.getD part (0, true) with
    | (_, true) => s
    | (tid, false) =>
      let fits := match s.tile tid j.tile with
        | some t => decide (128 * j.lay.toff + j.lay.rows * j.lay.p ≤ t.size)
        | none => false
      if !s.partReady j tid then s
      else if fits then
        { s with jobs := kset s.jobs id { j with parts := setNth j.parts part (tid, true) } }.modTile tid j.tile (fun t =>
          { (t.clear j.lay.chunks) with state := .filling, ec := t.ec - 1, oc := t.oc + 1 })
      else
        { s with jobs := kset s.jobs id { j with parts := (j.parts.take part) ++ (j.parts.drop (part + 1)) } }.modTile j.tid j.tile (fun t => { t with mcd := true })

def execMcPartStart (job part : Nat) (s : State) := runEvent s fun s => s.partStart job part

/-- The box positions that a chunk of the tile holds, in the order of R225, with their in-bounds elements only. -/
def Layout.inChunk (y : Layout) (c : List Word) (chunk : Nat) : List (Nat × Nat) :=
  let lo := 512 * chunk - 128 * y.toff
  let hi := 512 * chunk + 512 - 128 * y.toff
  (upFrom (lo / y.p) ((hi + y.p - 1) / y.p - lo / y.p)).flatMap (fun row =>
    if row < y.rows then
      ((List.range (y.b 0)).filter (fun b0 =>
        let o := row * y.p + b0 * y.e
        decide (lo ≤ o) && decide (o < hi) && y.inb c row b0)).map (fun b0 => (row, b0))
    else [])

/-- The start of a line in the global array (R237). -/
def CopyJob.start (j : CopyJob) (row : Nat) : List Int := (List.range 5).map (j.lay.x j.coords row 0)

/-- A source element that a job takes from the line buffers (R237). -/
def CopyJob.held (j : CopyJob) (row : Nat) (p : Int) : Option (List Byte) :=
  (((j.reuse.find? (fun l => decide (l.1 = j.start row))).bind (fun l => l.2.find? (fun e => decide (e.1 = p)))).map (fun e => e.2)).filter
    (fun b => decide (b.length = j.lay.e))

/-- A reused element (R237): each aligned 4-byte word of its line as it was read before, or as it would be read now (FREE, log 13). -/
def CopyJob.mixed (j : CopyJob) (ptr : DWord) (held now : List Byte) : List Byte :=
  (held.zip now).zipIdx.map (fun x => if Config.lineChoice j.seq ((ptr.toNat + x.2) / 4) then x.1.2 else x.1.1)

/-- A source element kept in the line buffers, when they are the job's own (R237). -/
def State.keepElem (s : State) (j : CopyJob) (row : Nat) (p : Int) (b : List Byte) : State :=
  if j.win then
    s.modCore j.core (fun c => { c with lines := c.lines.map (fun k =>
      if k.job = j.seq then
        { k with lines := ((j.start row, (p, b) :: (((k.lines.find? (fun l => decide (l.1 = j.start row))).map (fun l => l.2)).getD [])) ::
          k.lines.filter (fun l => decide (l.1 ≠ j.start row))) }
      else k) })
  else s

/-- One source element of a fill, at a position of its row in global memory (R225, R237): from the line buffers, or read. -/
def State.fillRead (s : State) (w : Who) (j : CopyJob) (row : Nat) (p : Int) : Step1 × State :=
  let ptr := j.lay.ga j.coords row p
  let r := s.jobRead w ptr j.lay.e (decide (j.lay.pol ≠ 2))
  match j.held row p with
  | some b =>
    let v := match r.1 with
      | .ok now => j.mixed ptr b now
      | _ => b
    (.ok v, s.keepElem j row p v)
  | none => match r with
    | (.ok b, s) => (.ok b, s.keepElem j row p b)
    | r => r

/-- The number of a .S24 element's nibble (R236). -/
def CopyJob.nibble (j : CopyJob) (row b0 : Nat) : Int :=
  j.lay.denseRow (fun k => j.lay.x j.coords row b0 k) * ((j.lay.size 0 / 4 : Nat) : Int) + j.lay.x j.coords row b0 0 / 4

/-- The source of one element of a fill (R225, R236): with .S24, the compressed value its nibble selects, or zero. -/
def State.fillSource (s : State) (w : Who) (j : CopyJob) (row b0 : Nat) : Step1 × State :=
  let x0 := j.lay.x j.coords row b0 0
  if !j.s24 then s.fillRead w j row x0
  else
    let q := x0 / 4
    let i := (x0 % 4).toNat
    let n := j.nibble row b0
    match s.jobRead w (ptrOff j.mdPtr (n / 2)) 1 (decide (j.lay.pol ≠ 2)) with
    | (.ok [b], s) =>
      let nib := b.toNat / (if n % 2 = 0 then 1 else 16) % 16
      if nib / 4 ≤ nib % 4 then (.fail 8 (ptrOff j.mdPtr (n / 2)), s)
      else if i = nib % 4 then s.fillRead w j row (2 * q)
      else if i = nib / 4 then s.fillRead w j row (2 * q + 1)
      else (.ok (toBytes j.lay.e 0), s)
    | r => r

/-- The places a fill's chunk requests lines of (R175, R225, R236, R237): the elements that are not in the line buffers, and with .S24 the
groups' two stored values and nibbles. -/
def CopyJob.requests (j : CopyJob) (els : List (Nat × Nat)) : List DWord :=
  els.filterMap (fun x =>
    let x0 := j.lay.x j.coords x.1 x.2 0
    let p := if j.s24 then 2 * (x0 / 4) + x0 % 4 / 2 else x0
    if (j.held x.1 p).isSome then none else some (j.lay.ga j.coords x.1 p)) ++
  (if j.s24 then els.map (fun x => ptrOff j.mdPtr (j.nibble x.1 x.2 / 2)) else [])

/-- The sources of a chunk's elements, or the first that cannot be read. -/
def State.fillChunk (s : State) (w : Who) (j : CopyJob) : List (Nat × Nat) → Except Step1 (List (Nat × List Byte)) × State
  | [] => (.ok [], s)
  | (row, b0) :: t =>
    match s.fillSource w j row b0 with
    | (.ok b, s) =>
      (match s.fillChunk w j t with
      | (.ok l, s) => (.ok ((j.lay.off row b0, b) :: l), s)
      | r => r)
    | (x, s) => (.error x, s)

/-- The destinations of a chunk's elements, or the first that cannot be written. -/
def State.drainChunk (s : State) (w : Who) (j : CopyJob) : List (Nat × Nat) → Except Step1 (List (Nat × Nat × Nat)) × State
  | [] => (.ok [], s)
  | (row, b0) :: t =>
    match s.jobAt w (j.lay.ga j.coords row (j.lay.x j.coords row b0 0)) needW with
    | (.at_ e f, s) =>
      (match s.drainChunk w j t with
      | (.ok l, s) => (.ok ((j.lay.off row b0, e, f) :: l), s)
      | r => r)
    | (x, s) => (.error x, s)

/-- Whether another unfinished job still has a chunk of a tile to settle (R223). -/
def State.coversOther (s : State) (id tid tile chunk : Nat) : Bool :=
  s.jobs.any (fun k => decide (k.1 ≠ id) && decide (k.2.tile = tile) && !k.2.drain && k.2.unsettled.contains chunk &&
    (decide (k.2.tid = tid) || k.2.parts.contains (tid, true)))

/-- Line requests of a chunk counted on access-counted pages (R175). -/
def State.countLines (s : State) (w : Who) (l : List DWord) : State :=
  (l.foldl (fun (m : List (Nat × DWord)) p => kset m (vline p) p) []).foldl (fun s x => s.countReq w x.2 1) s

/-- A chunk's bit set in one tile (R223). -/
def State.setChunk (s : State) (id tid tile chunk bytes : Nat) : State :=
  let more := s.coversOther id tid tile chunk
  s.modTile tid tile (fun t =>
    { t with bits := if more || t.bits.testBit chunk then t.bits else t.bits + 2 ^ chunk, bytes := satAdd t.bytes bytes })
where
  satAdd (a b : Nat) : Nat := min (a + b) (2 ^ 32 - 1)

/-- A chunk of a fill written into one tile. -/
def State.fillTile (s : State) (id tid tile chunk : Nat) (l : List (Nat × List Byte)) : State :=
  match s.team tid, s.tile tid tile with
  | some t, some x =>
    (l.foldl (fun s p => s.put (flatScratch t.core (t.allocOff + x.base + p.1)) p.2) s).setChunk id tid tile chunk
      (l.foldl (fun n p => n + p.2.length) 0)
  | _, _ => s

/-- A job's parked or failed chunk (R174). -/
def State.chunkStop (s : State) (id : Nat) (j : CopyJob) (chunk : Nat) (x : Step1) : State :=
  match x with
  | .park ptr (some (mal, lvl)) =>
    let (r, s) := s.request ⟨coreDie j.core, none, 1, .job id, (s.teamD j.tid).ctx, [lo32 ptr, hi32 ptr], 0, 0, 0, 0, kindJob, mal, lvl, []⟩
    { s with jobs := kset s.jobs id { j with parked := kset j.parked chunk r } }
  | .park _ none => { s with jobs := kset s.jobs id { j with parked := kset j.parked chunk 0 } }
  | .fail c va => s.jobFail id c va
  | _ => s

/-- One chunk of a running job (R223, R234, R235): moved and settled, parked, or the end of the job. -/
def State.chunkRun (s : State) (id chunk : Nat) : State :=
  match kget s.jobs id with
  | none => s
  | some j =>
    let w : Who := ⟨j.core, (s.teamD j.tid).ctx, false⟩
    let els := j.lay.inChunk j.coords chunk
    let done : CopyJob := { j with unsettled := j.unsettled.filter (fun c => decide (c ≠ chunk)), parked := kdel j.parked chunk }
    if j.drain then
      match s.drainChunk w j els with
      | (.error x, s) => s.chunkStop id j chunk x
      | (.ok l, s) =>
        let t := s.teamD j.tid
        let b := ((s.tile j.tid j.tile).map (fun x => x.base)).getD 0
        let s := l.foldl (fun s p => s.writeL2 (coreDie j.core) w.ctx p.2.1 p.2.2 (s.bytes (flatScratch t.core (t.allocOff + b + p.1)) j.lay.e)) s
        let s := s.countLines w (els.map (fun x => j.lay.ga j.coords x.1 (j.lay.x j.coords x.1 x.2 0)))
        { s with jobs := kset s.jobs id done }
    else
      match s.fillChunk w j els with
      | (.error x, s) => s.chunkStop id j chunk x
      | (.ok l, s) =>
        let s := s.countLines w (j.requests els)
        let s := { s with jobs := kset s.jobs id done }
        let s := s.fillTile id j.tid j.tile chunk l
        (j.parts.filter (fun p => p.2)).foldl (fun s p => s.fillTile id p.1 j.tile chunk l) s

/-- CHUNK_SETTLE: the job's next chunk that is not parked. -/
def State.chunkSettle (s : State) (job : Nat) : State :=
  match kget s.jobs job with
  | none => s
  | some j => match j.unsettled.find? (fun c => (kget j.parked c).isNone) with
    | none => s
    | some c => s.chunkRun job c

def execChunkSettle (job : Nat) (s : State) := runEvent s fun s => s.chunkSettle job

/-- Whether a parked chunk can be tried again (R174): its request is answered, or its write block is gone. -/
def State.parkedReady (s : State) (j : CopyJob) (p : Nat × Nat) : Bool :=
  if p.2 ≠ 0 then (kget s.reqs p.2).isNone
  else
    let w : Who := ⟨j.core, (s.teamD j.tid).ctx, false⟩
    match (s.drainChunk w j (j.lay.inChunk j.coords p.1)).1 with
    | .error (.park _ none) => false
    | .error .wait => false
    | _ => true

/-- CHUNK_REISSUE (R174): one parked chunk is issued again. -/
def State.chunkReissue (s : State) (job : Nat) : State :=
  match kget s.jobs job with
  | none => s
  | some j => match j.parked.find? (s.parkedReady j) with
    | none => s
    | some p => State.chunkRun { s with jobs := kset s.jobs job { j with parked := kdel j.parked p.1 } } job p.1

def execChunkReissue (job : Nat) (s : State) := runEvent s fun s => s.chunkReissue job

/-- One tile's share of a job's completion (R223). -/
def State.tileDone (s : State) (tid tile : Nat) : State := s.modTile tid tile (fun t => ({ t with oc := t.oc - 1 }).settle)

/-- COPY_JOB_COMPLETE (R223): its window entry is free, its tiles count it no more. -/
def State.jobComplete (s : State) (job : Nat) : State :=
  match kget s.jobs job with
  | none => s
  | some j =>
    if j.phase = .running ∧ j.unsettled = [] then
      (j.parts.filter (fun p => p.2)).foldl (fun s p => s.tileDone p.1 j.tile) (State.tileDone { s with jobs := kdel s.jobs job } j.tid j.tile)
    else s

def execCopyJobComplete (job : Nat) (s : State) := runEvent s fun s => s.jobComplete job

/-- The next event of a job. -/
def State.jobDue (s : State) (id : Nat) (j : CopyJob) : Option Instr :=
  if (s.teamD j.tid).saving || j.parts.any (fun p => (s.teamD p.1).saving) then none
  else match j.phase with
  | .issued => if s.edgesClear j.core j.seq j.reads j.writes then some (.copyJobStart id) else none
  | .running =>
    if j.err ≠ 0 then some (.copyJobComplete id)
    else
      match (j.parts.zipIdx.find? (fun p => !p.1.2 && s.partReady j p.1.1)) with
      | some p => some (.mcPartStart id p.2)
      | none =>
        if j.parts.any (fun p => !p.2) then none
        else if j.unsettled.isEmpty then some (.copyJobComplete id)
        else if (j.parked.find? (s.parkedReady j)).isSome then some (.chunkReissue id)
        else if decide (s.parkedOn j.core < 64) && j.unsettled.any (fun c => (kget j.parked c).isNone) then some (.chunkSettle id)
        else none
  | _ => none

/-- The in-bounds rows and positions of a whole box (R239). -/
def Layout.boxLines (y : Layout) (c : List Word) : List DWord :=
  (List.range y.rows).flatMap (fun row => ((List.range (y.b 0)).filter (fun b0 => y.inb c row b0)).map (fun b0 => y.ga c row (y.x c row b0 0)))

/-- One lane's XPREF (R239): a record that fails, or a line that would fault, is dropped. -/
def State.xprefLane (g : Group) (a b : Opnd) (s : State) (l : Nat) : State :=
  let ptr := g.rd64 l a
  let c := (List.range 5).map (fun k => g.rdj l k b)
  if ptr.toNat % 64 ≠ 0 then s
  else
    let r := s.recordRead g.who ptr 64
    match r.1 with
    | .ok bs =>
      let y := layoutOf (ofBytes bs)
      if y.check c false false (2 ^ 64) ≠ 0 then r.2
      else (y.boxLines c).foldl (fun s p =>
        let q := s.jobAt g.who p needR
        match q.1 with
        | .at_ e f => q.2.fillL2 (coreDie g.core) g.ctx e f
        | _ => q.2) r.2
    | _ => r.2

/-- XPREF (R239): a lane whose record fails, or a line that would fault, is dropped. -/
def W.xpref (w : W) (a b : Opnd) : W :=
  w.eff (fun s => (w.ex.filter (fun l => !w.g.isHelper l)).foldl (State.xprefLane w.g a b) s)

/-- The copy jobs of a group, or its drain jobs alone (R240). -/
def State.copiesOf (s : State) (gid : Nat) (st : Bool) : List Nat :=
  (s.jobs.filter (fun j => decide (j.2.gid = gid) && (!st || j.2.drain))).map (fun j => j.1)

/-- XFENCE (R240): the group's next word waits for its copy jobs. -/
def W.xfence (w : W) (st : Bool) : W :=
  if w.ex.isEmpty || w.dry then w
  else w.mod (fun g => { g with copyWait := g.copyWait ++ w.s.copiesOf w.gid st })

/-- XSTAT's word (R241). -/
def State.xstatWord (s : State) (g : Group) : Nat :=
  let mine := s.jobs.filter (fun j => decide (j.2.tid = g.tid))
  field 31 1 (if s.windowUsed g.core < 1024 then 0 else 1) + field 24 7 (mine.foldl (fun n j => n + j.2.parked.length) 0) +
    field 0 11 (mine.length + (s.mjobs.filter (fun j => decide (j.2.tid = g.tid))).length)

/-- XSTAT (R241). -/
def W.xstat (w : W) (d : Opnd) : W := w.var (dstCells d 0 w.ex (fun _ => BitVec.ofNat 32 (w.s.xstatWord w.g))) (w.clk + 8) false

def execXfence (h : Hdr) (st : Bool) (s : State) := runWord (.xfence h st) s fun w => w.xfence st
def execXstat (h : Hdr) (d : Opnd) (s : State) := runWord (.xstat h d) s fun w => w.xstat d
def execXpref (h : Hdr) (a b : Opnd) (s : State) := runWord (.xpref h a b) s fun w => w.xpref a b

end Sys2Proof.Machine
end

