-- ==== Sys2Proof/Machine/Fragment.lean ====
section
/-! DEFINITION. Matrix fragment words, 0x180–0x185 (chapter 11). -/

namespace Sys2Proof.Machine

/-- Vector `v` of an operand fragment (R245) as one 256-bit number: lanes `v` and `v` + 16. -/
def Group.fragVec (g : Group) (o : Opnd) (v : Nat) : Nat :=
  match o with
  | .zero => 0
  | _ => (List.range 8).foldl (fun x j => x + (g.rdj (if j < 4 then v else v + 16) (j % 4) o).toNat * 2 ^ (32 * j)) 0

/-- Element `k` of a vector of `w`-bit elements (R245). -/
def fragElem (x w k : Nat) : Nat := bitsOf x (w * k) w

/-- The element types of A and B (R248). -/
def mmaTypes : MmaTy → NumTy × NumTy
  | .bf16 => (.bf16, .bf16)
  | .fp16 => (.fp16, .fp16)
  | .e4m3 => (.e4m3, .e4m3)
  | .e5m2 => (.e5m2, .e5m2)
  | .e4m3e5m2 => (.e4m3, .e5m2)
  | .e5m2e4m3 => (.e5m2, .e4m3)
  | .int8 => (.int8, .int8)
  | .uint8 => (.uint8, .uint8)
  | .int8uint8 => (.int8, .uint8)
  | .uint8int8 => (.uint8, .int8)
  | .int4 => (.int4, .int4)
  | .uint4 => (.uint4, .uint4)
  | .int4uint4 => (.int4, .uint4)
  | .uint4int4 => (.uint4, .int4)

/-- The value of a floating-point element. -/
def elemVal (t : NumTy) (c : Nat) : FVal := ((fmtOf t).map (fun f => f.val c)).getD .nan

/-- The exact sum of products of elements `lo` up to `lo + n` of two vectors (R249). -/
def dotV (ta tb : NumTy) (w : Nat) (x y lo n : Nat) : FVal :=
  match n with
  | 0 => .fin true 0 0
  | n + 1 => addV .rn (dotV ta tb w x y lo n) (mulV (elemVal ta (fragElem x w (lo + n))) (elemVal tb (fragElem y w (lo + n))))

/-- The exact sum of integer products. -/
def dotI (ta tb : NumTy) (w : Nat) (x y : Nat) : Nat → Int
  | 0 => 0
  | n + 1 => dotI ta tb w x y n + tyInt ta (fragElem x w n) * tyInt tb (fragElem y w n)

/-- A rounded FP32 sum of an accumulator code and an exact value (R249). -/
def accAdd (a : Nat) (v : FVal) : Nat := fp32.round .rn false (addV .rn (fp32.val a) v)

/-- BF16 and FP16 (R249): eight rounded sums of exact pairs. -/
def mmaHalf (t : NumTy) (x y a : Nat) : Nat := (List.range 8).foldl (fun a m => accAdd a (dotV t t 16 x y (2 * m) 2)) a

/-- FP8 (R249): the exact sum rounded, scaled, and added with one rounding. -/
def mmaEight (ta tb : NumTy) (scale : Nat) (x y a : Nat) : Nat :=
  accAdd a (mulV (fp32.val (fp32.round .rn false (dotV ta tb 8 x y 0 32))) (fp32.val scale))

/-- E2M1 with E8M0 scales (R249, R250). -/
def mmaMx (sa sb : Nat) (x y a : Nat) : Nat :=
  (List.range 2).foldl (fun a b =>
    let ea := bitsOf sa (8 * b) 8
    let eb := bitsOf sb (8 * b) 8
    accAdd a (if ea = 255 ∨ eb = 255 then .nan else (dotV .e2m1 .e2m1 4 x y (32 * b) 32).scale ((ea : Int) + (eb : Int) - 254))) a

/-- An integer result and whether its exact value left the range (R249, R251). -/
def intAcc (a : Nat) (v : Int) : Nat × Bool :=
  let t := sextNat a 32 + v
  ((t % 2 ^ 32).toNat, decide (t < -(2 ^ 31)) || decide (2 ^ 31 - 1 < t))

/-- The parts of a complex product sum (R249). -/
def dotC (conj : Bool) (x y : Nat) : Nat → Int × Int
  | 0 => (0, 0)
  | n + 1 =>
    let s := dotC conj x y n
    let xr := sextNat (fragElem x 8 (2 * n)) 8
    let xi := sextNat (fragElem x 8 (2 * n + 1)) 8
    let yr := sextNat (fragElem y 8 (2 * n)) 8
    let yi := if conj then -(sextNat (fragElem y 8 (2 * n + 1)) 8) else sextNat (fragElem y 8 (2 * n + 1)) 8
    (s.1 + xr * yr - xi * yi, s.2 + xr * yi + xi * yr)

/-- One element of an MMA or MMAS (R249): its code and whether it sets IOVF. -/
def mmaElem (ty : MmaTy) (scale x y a : Nat) : Nat × Bool :=
  let (ta, tb) := mmaTypes ty
  match ty with
  | .bf16 => (mmaHalf ta x y a, false)
  | .fp16 => (mmaHalf ta x y a, false)
  | .e4m3 => (mmaEight ta tb scale x y a, false)
  | .e5m2 => (mmaEight ta tb scale x y a, false)
  | .e4m3e5m2 => (mmaEight ta tb scale x y a, false)
  | .e5m2e4m3 => (mmaEight ta tb scale x y a, false)
  | .int8 => intAcc a (dotI ta tb 8 x y 32)
  | .uint8 => intAcc a (dotI ta tb 8 x y 32)
  | .int8uint8 => intAcc a (dotI ta tb 8 x y 32)
  | .uint8int8 => intAcc a (dotI ta tb 8 x y 32)
  | .int4 => intAcc a (dotI ta tb 4 x y 64)
  | .uint4 => intAcc a (dotI ta tb 4 x y 64)
  | .int4uint4 => intAcc a (dotI ta tb 4 x y 64)
  | .uint4int4 => intAcc a (dotI ta tb 4 x y 64)

/-- Whether a type's results are floating-point. -/
def mmaFloat : MmaTy → Bool
  | .bf16 => true
  | .fp16 => true
  | .e4m3 => true
  | .e5m2 => true
  | .e4m3e5m2 => true
  | .e5m2e4m3 => true
  | _ => false

/-- The cells that a fragment word reads: its source registers in every lane (R252). -/
def fragKeys (f : Info) (_ : Group) (ex : List Nat) : List Nat := if ex.isEmpty then [] else (srcRegs f).flatMap (regKeys lanes32)

/-- The array taken by a fragment word, and the MXSTAT bits that come with its results (R251, R253). -/
def State.fragTakes (s : State) (gid core units : Nat) (bits : Word) : State :=
  let t := s.modCore core (fun c => { c with arrayUsed := c.arrayUsed + units })
  if bits = 0 then t else t.modGrp gid (fun g => { g with mxPend := g.mxPend ++ [(s.pkg.clock + 24, bits)] })

/-- A fragment word's results (R246, R251, R252): in each lane of execution `n` registers with their MXSTAT bits; the array must
have room (R253). -/
def W.fragment (w : W) (units : Nat) (d : Opnd) (n : Nat) (f : Nat → Nat → Nat × Word) : W :=
  if w.ex.isEmpty then w
  else if 2 < (w.s.core w.g.core).arrayUsed + units then { w with hold := some .pipe }
  else
    let r := (List.range n).flatMap (fun j => w.ex.map (fun l => (l, j, f l j)))
    let v := w.fix (r.flatMap (fun x => dstCells d x.2.1 [x.1] (fun _ => BitVec.ofNat 32 x.2.2.1)))
    { v with s := w.s.fragTakes w.gid w.g.core (if w.dry then 0 else units) (r.foldl (fun b x => b ||| x.2.2.2) 0) }

/-- MXSTAT bits (R251). -/
def iovfBit (b : Bool) : Word := if b then 1 else 0
def fnvBit (c : Nat) : Word := if (fp32.val c).isNan then 2 else 0

/-- The bits that a fragment's element brings (R251). -/
def mmaBits (ty : MmaTy) (r : Nat × Bool) : Word := if mmaFloat ty then fnvBit r.1 else iovfBit r.2

/-- An accumulator element (R246): register `j` of a lane; ZERO is 0. -/
def Group.accElem (g : Group) (c : Opnd) (l j : Nat) : Nat := match c with | .zero => 0 | _ => (g.rdj l j c).toNat

/-- The element of MMA, MMAS and MMAX in lane `l`, register `j` (R246): row `l` mod 16, column 8·(`l` div 16) + `j`. -/
def Group.mmaAt (g : Group) (ty : MmaTy) (a b acc : Opnd) (scale : Nat → Nat → Nat) (l j : Nat) : Nat × Bool :=
  mmaElem ty (scale (l % 16) (8 * (l / 16) + j)) (g.fragVec a (l % 16)) (g.fragVec b (8 * (l / 16) + j)) (g.accElem acc l j)

/-- MMAS's scale of a row and a column (R249). -/
def Group.mmaScale (g : Group) (c : Opnd) (i n : Nat) : Nat := fp32.mul .rn (g.rd i c).toNat (g.rd (16 + n) c).toNat

/-- MMAX's element (R249). -/
def Group.mmaxAt (g : Group) (d a b c : Opnd) (l j : Nat) : Nat :=
  mmaMx (g.rd (l % 16) c).toNat (g.rd (16 + (8 * (l / 16) + j)) c).toNat (g.fragVec a (l % 16)) (g.fragVec b (8 * (l / 16) + j)) (g.rdj l j d).toNat

/-- MMAC's register `j` in lane `l` (R246, R249): the real parts in the even registers, the imaginary parts in the odd ones. -/
def Group.mmacAt (g : Group) (conj : Bool) (a b c : Opnd) (l j : Nat) : Nat × Bool :=
  let v := dotC conj (g.fragVec a (l % 16)) (g.fragVec b (8 * (l / 16) + j / 2)) 16
  intAcc (g.accElem c l j) (if j % 2 = 0 then v.1 else v.2)

/-- MMA and MMAS (R249). -/
def W.mma (w : W) (ty : MmaTy) (d a b acc : Opnd) (scale : Nat → Nat → Nat) : W :=
  w.fragment 1 d 8 (fun l j => let r := w.g.mmaAt ty a b acc scale l j; (r.1, mmaBits ty r))

def execMma (h : Hdr) (d a b c : Opnd) (ty : MmaTy) (s : State) := runWordX (.mma h d a b c ty) (fragKeys (info (.mma h d a b c ty))) s fun w =>
  w.mma ty d a b c (fun _ _ => 0x3F800000)
def execMmas (h : Hdr) (d a b c : Opnd) (ty : MmaTy) (s : State) := runWordX (.mmas h d a b c ty) (fragKeys (info (.mmas h d a b c ty))) s fun w =>
  w.mma ty d a b d (w.g.mmaScale c)
def execMmax (h : Hdr) (d a b c : Opnd) (s : State) := runWordX (.mmax h d a b c) (fragKeys (info (.mmax h d a b c))) s fun w =>
  w.fragment 1 d 8 (fun l j => (w.g.mmaxAt d a b c l j, fnvBit (w.g.mmaxAt d a b c l j)))
def execMmac (h : Hdr) (d a b c : Opnd) (conj : Bool) (s : State) := runWordX (.mmac h d a b c conj) (fragKeys (info (.mmac h d a b c conj))) s fun w =>
  w.fragment 2 d 16 (fun l j => let r := w.g.mmacAt conj a b c l j; (r.1, iovfBit r.2))

/-- One piece of a lane's part of a fragment in memory (R255): its offset from the base, its bytes, its place in the lane's
registers in nibbles, and for .E4 the nibble of the byte it is. -/
structure Piece where
  off : Nat
  n : Nat
  pos : Nat
  nib : Option Nat
  deriving DecidableEq, Repr

/-- A lane's part of a fragment (R255). -/
def pieces (m : FragMod) (p l : Nat) : List Piece :=
  let r := l % 16
  let h := l / 16
  match m.kind, m.t with
  | .fop, false => [⟨r * p + 16 * h, 16, 0, none⟩]
  | .fop, true =>
    (match m.es with
    | .e16 => (List.range 8).map (fun k => ⟨(8 * h + k) * p + 2 * r, 2, 4 * k, none⟩)
    | .e8 => (List.range 16).map (fun k => ⟨(16 * h + k) * p + r, 1, 2 * k, none⟩)
    | _ => (List.range 32).map (fun k => ⟨(32 * h + k) * p + r / 2, 1, k, some (r % 2)⟩))
  | .facc, false => (List.range 8).map (fun j => ⟨r * p + 4 * (8 * h + j), 4, 8 * j, none⟩)
  | .facc, true => (List.range 8).map (fun j => ⟨(8 * h + j) * p + 4 * r, 4, 8 * j, none⟩)
  | .fcpx, false => (List.range 8).map (fun j => ⟨r * p + 8 * (8 * h + j), 8, 16 * j, none⟩)
  | .fcpx, true => (List.range 8).map (fun j => ⟨(8 * h + j) * p + 8 * r, 8, 16 * j, none⟩)

/-- The registers of a fragment kind. -/
def fragN (m : FragMod) : Nat := fragRegs m.kind

/-- The pieces of lanes, in ascending lanes. -/
def fragPieces (m : FragMod) (p : Nat) (ls : List Nat) : List (Nat × Piece) := ls.flatMap (fun l => (pieces m p l).map (fun x => (l, x)))

/-- Where one piece of a lane lands (R255, R256). -/
def State.pieceAt (s : State) (g : Group) (m : FragMod) (a : Opnd) (need : Need) (kind l : Nat) (x : Piece) : Reach × State :=
  match m.sp with
  | .g => s.reachG g.who l (ptrOff (g.rd64 0 a) (x.off : Int)) x.n false true need kind
  | sp => (s.reachOff g l sp (((g.rd 0 a).toNat + x.off : Nat) : Int) x.n false kind, s)

/-- A piece of a lane and where it lands. -/
abbrev FragAt := Nat × Piece × Reach

/-- Where the pieces land, in order. -/
def State.fragReach (g : Group) (m : FragMod) (a : Opnd) (need : Need) (kind : Nat) : State → List (Nat × Piece) → List FragAt × State
  | s, [] => ([], s)
  | s, x :: t =>
    let r := s.pieceAt g m a need kind x.1 x.2
    let q := State.fragReach g m a need kind r.2 t
    ((x.1, x.2, r.1) :: q.1, q.2)

/-- The reaches of a word, lane by lane. -/
def flatReach (rs : List FragAt) : List (Nat × Reach) := rs.map (fun x => (x.1, x.2.2))

/-- The failing piece of the lowest failing lane with the lowest address (R256). -/
def fragTrap (mute : Nat → Bool) (rs : List FragAt) : Option LaneFault :=
  (rs.foldl (fun (acc : Option (Nat × LaneFault)) x => match x.2.2 with
    | .fault f => if mute x.1 then acc else (match acc with
      | none => some (x.1, f)
      | some g => if decide (g.1 = x.1) && decide (f.va.toNat < g.2.va.toNat) then some (x.1, f) else acc)
    | _ => acc) none).map (fun q => q.2)

/-- The pieces on absent pages of the lanes that report them. -/
def fragAbsents (mute : Nat → Bool) (rs : List FragAt) : List LaneFault :=
  rs.filterMap (fun x => match x.2.2 with
    | .absent f => if mute x.1 then none else some f
    | _ => none)

/-- Whether a fragment's base or pitch is misaligned (R256). -/
def Group.fragMis (g : Group) (m : FragMod) (a b : Opnd) : Bool :=
  decide ((if m.sp = .g then g.rd64 0 a else (g.rd 0 a).setWidth 64).toNat % 16 ≠ 0) || decide ((g.rd 0 b).toNat % 16 ≠ 0)

/-- A misaligned fragment word (R256): one record for the lowest lane that reports. -/
def W.fragMisalign (w : W) (m : FragMod) (a : Opnd) (kind : Nat) : W :=
  match (lanesOf w.act).filter (fun l => w.ex.contains l && !w.mute l) with
  | [] => w
  | l :: _ => W.fault { w with stuck := true } (accFault l .misalign (if m.sp = .g then w.g.rd64 0 a else (w.g.rd 0 a).setWidth 64) 0 m.sp kind)

/-- The checks before an LDM or STM does anything (R256): a wait, one trap for the lowest failing lane, or the word may go on. -/
def W.fragCheck (w : W) (rs : List FragAt) : Option W :=
  if rs.any (fun x => decide (x.2.2 = .wait)) then some { w with hold := some .fault }
  else match fragTrap w.mute rs with
    | none => none
    | some f => some (((fragAbsents w.mute rs).foldl (fun (v : W) x => v.absent x) { w with stuck := true }).fault f)

/-- The lines on each core's scratchpad. -/
def chipLines (rs : List FragAt) : List (Nat × List (Nat × Unit)) :=
  rs.foldl (fun (m : List (Nat × List (Nat × Unit))) x => match x.2.2 with
    | .chip f (some c) => kset m c (kset ((kget m c).getD []) (f / 128) ())
    | _ => m) []

/-- On-chip lines and their tile-port time (R257): the clk after a core's last one. -/
def State.tilePort (s : State) (core : Nat) (rs : List FragAt) : Nat × State :=
  (chipLines rs).foldl (fun (acc : Nat × State) c =>
    let e := max s.pkg.clock (acc.2.core c.1).portBusy + (c.2.length + 7) / 8
    (max acc.1 (if c.1 = core then e + 16 else e + 39), acc.2.modCore c.1 (fun k => { k with portBusy := e }))) (s.pkg.clock + 1, s)

/-- The value of a lane's registers, in bits, from its pieces' bytes. -/
def pieceVal (x : Piece) (b : List Byte) : Nat :=
  (match x.nib with
    | some k => ofBytes b / 16 ^ k % 16
    | none => ofBytes b) * 16 ^ x.pos

/-- LDM's reads, piece by piece: each piece's part of its lane's registers, or a fault. -/
def W.ldmReads (w : W) (m : FragMod) : List FragAt → List (Nat × Option Nat) × W
  | [] => ([], w)
  | x :: t =>
    let b := w.readLane x.2.1.n .keep m.sp x.1 x.2.2
    let q := b.2.ldmReads m t
    ((x.1, b.1.map (pieceVal x.2.1)) :: q.1, q.2)

/-- A lane's registers from its pieces: none when one of them failed. -/
def laneVal (l : Nat) (vs : List (Nat × Option Nat)) : Option Nat :=
  vs.foldr (fun q acc => if q.1 = l then q.2.bind (fun v => acc.map (fun a => v + a)) else acc) (some 0)

/-- A helper lane some piece of which fails a check receives zeros (R93, R256). -/
def W.ldmBad (w : W) (rs : List FragAt) (l : Nat) : Bool :=
  w.mute l && rs.any (fun x => decide (x.1 = l) && (match x.2.2 with | .fault _ => true | .absent _ => true | _ => false))

/-- The destination cells of the lanes (R255). -/
def ldmCells (f : Info) (m : FragMod) (d : Opnd) (bad : Nat → Bool) (vs : List (Nat × Option Nat)) (lanes : List Nat) : List (Nat × Word) :=
  lanes.flatMap (fun l => if bad l then zeroCells f l else match laneVal l vs with
    | some v => dstCellsN d (fragN m) [l] (fun j _ => BitVec.ofNat 32 (bitsOf v (32 * j) 32))
    | none => [])

/-- Whether an atomic of the group on its way covers a byte a fragment word reaches (R199). -/
def W.fragFlight (w : W) (rs : List FragAt) : Bool := w.s.overlapsFlight w.gid 16 (flatReach rs)

/-- The clk from which LDM's values are read (R257). -/
def W.ldmDue (w : W) (sp : Space) (hit : Bool) (lines port : Nat) : Nat × State :=
  if w.dry then (w.clk, w.s)
  else match sp with
    | .g => if hit then (w.clk + (lines - 1) + 29, w.s) else w.s.freeDue
    | .d => (w.s.freeDue.1 + 90, w.s.freeDue.2)
    | _ => (port, w.s)

/-- LDM (R254–R258). -/
def W.ldm (w : W) (d a b : Opnd) (m : FragMod) : W :=
  let p := (w.g.rd 0 b).toNat
  let R := w.s.fragReach w.g m a needR kindLoad (fragPieces m p w.ex)
  let w := { w with s := R.2 }
  if w.g.fragMis m a b then
    (if w.ex.all w.mute then w.diverge.var (w.ex.flatMap (zeroCells w.f)) w.clk true else w.fragMisalign m a kindLoad)
  else match w.fragCheck R.1 with
  | some v => v
  | none =>
    let w := (fragAbsents w.mute R.1).foldl (fun w f => w.absent f) w
    if w.rolled then w
    else if w.fragFlight R.1 then { w with hold := some .depMem }
    else
      let q := w.s.tilePort w.g.core R.1
      let u : W := if w.ex.any (w.ldmBad R.1) then W.diverge { w with s := q.2 } else { w with s := q.2 }
      let r := u.ldmReads m (R.1.filter (fun x => !w.ldmBad R.1 x.1))
      let due := r.2.ldmDue m.sp (w.s.allHit w.g 1 (flatReach R.1)) (linesOf (flatReach R.1)).length q.1
      W.var { r.2 with s := due.2 } (ldmCells w.f m d (w.ldmBad R.1) r.1 w.ex) due.1 true

/-- STM's bytes of a piece. -/
def Group.stmBytes (g : Group) (d : Opnd) (m : FragMod) (l : Nat) (x : Piece) : List Byte :=
  toBytes x.n (ofBytes ((List.range (fragN m)).flatMap (fun j => toBytes 4 (match d with | .zero => 0 | _ => (g.rdj l j d).toNat))) / 16 ^ x.pos)

/-- What the side log takes of an STM (R169, R256). -/
def State.stmLog (s : State) (gid : Nat) (g : Group) (m : FragMod) (d : Opnd) (rs : List FragAt) : LineLog :=
  rs.foldl (fun (k : LineLog) x => match x.2.2 with
    | .glob q e _ _ => if s.logged gid g q e then mergeLog k ⟨q, none, g.stmBytes d m x.1 x.2.1⟩ else k
    | .absent f => mergeLog k ⟨f.va, some (f.detail.testBit 15, bitsOf f.detail 12 3), g.stmBytes d m x.1 x.2.1⟩
    | _ => k) []

/-- Whether a piece is on no absent page. -/
def notAbsent (x : FragAt) : Bool := match x.2.2 with | .absent _ => false | _ => true

/-- STM (R254–R258). -/
def W.stm (w : W) (d a b : Opnd) (m : FragMod) : W :=
  let p := (w.g.rd 0 b).toNat
  let R := w.s.fragReach w.g m a needW kindStore (fragPieces m p (w.ex.filter (fun l => !w.g.isHelper l)))
  let w := { w with s := R.2 }
  if w.g.fragMis m a b then w.fragMisalign m a kindStore
  else match w.fragCheck (R.1.filter notAbsent) with
  | some v => v
  | none =>
    let log := w.s.stmLog w.gid w.g m d R.1
    if w.s.logFree w.g.core < (List.length (α := Nat × DWord × Option (Bool × Nat) × List (Nat × Byte)) log) then { w with hold := some .fault }
    else if w.fragFlight R.1 then { w with hold := some .depMem }
    else
      let v : W := { w with s := (w.s.tilePort w.g.core R.1).2 }
      (R.1.foldl (fun w x => w.writeLane x.2.1.n .keep x.1 (w.g.stmBytes d m x.1 x.2.1) x.2.2) v).eff (fun s => s.logLines w.gid w.g log)

def execLdm (h : Hdr) (d a b : Opnd) (m : FragMod) (s : State) := runWord (.ldm h d a b m) s fun w => if w.ex.isEmpty then w else w.ldm d a b m
def execStm (h : Hdr) (d a b : Opnd) (m : FragMod) (s : State) := runWord (.stm h d a b m) s fun w => if w.ex.isEmpty then w else w.stm d a b m

end Sys2Proof.Machine
end

