-- ==== Sys2Proof/Machine/Matrix.lean ====
section
/-! DEFINITION. Block matrix jobs and the accumulator store, 0x1A0–0x1A6, with MXB_JOB_START, ACC_JOB_START, KBLOCK_END and
MXB_JOB_COMPLETE (chapter 12). -/

namespace Sys2Proof.Machine

/-- The resident team of a rank of a team's cluster. -/
def State.rankTeam (s : State) (tid rank : Nat) : Option Nat :=
  (kget s.lclusters (s.teamD tid).cluster).bind (fun k => kget k.teams rank)

/-- The core of a rank's accumulator team, when the cluster has one there (R259, R264). -/
def State.accCore (s : State) (tid rank : Nat) : Option Nat :=
  (s.rankTeam tid rank).bind (fun u => let c := (s.teamD u).core; if (s.core c).accTeam = u then some c else none)

/-- The core whose rectangle a rectangle word names (R261), when it holds an accumulator team of the issuer's cluster. -/
def State.accTarget (s : State) (tid : Nat) (rect : Word) : Option Nat :=
  if rect.getLsbD 31 then
    (let c := (s.teamD tid).core; if (s.core c).accTeam = tid then some c else none)
  else s.accCore tid (bitsOf rect.toNat 29 2)

/-- The fields of a rectangle word in units of 16 (R261): first row, rows, first column, columns. -/
def rectOf (rect : Word) : Nat × Nat × Nat × Nat :=
  (bitsOf rect.toNat 8 3, bitsOf rect.toNat 20 3 + 1, bitsOf rect.toNat 4 4, bitsOf rect.toNat 16 4 + 1)

/-- Whether a rectangle lies within the store (R261). -/
def rectOk (rect : Word) : Bool :=
  let r := rectOf rect
  decide (r.1 + r.2.1 ≤ 8) && decide (r.2.2.1 + r.2.2.2 ≤ 16)

/-- Where a job's scratchpad descriptor points (R265, R267): the V-block image instead, .K or .C, the offset with its tile's
bounds, rotation, K-block distance and row pitch. -/
structure MOp where
  img : Option (List Byte)
  k : Bool
  base : Nat
  tile : Option (Nat × Nat)
  rot : Nat
  tp : Nat
  rp : Nat
  deriving DecidableEq, Repr

/-- A descriptor's fields (R265). -/
def descOf (d : Nat) (tile : Option (Nat × Nat)) : MOp :=
  { img := none, k := d.testBit 27, base := bitsOf d 0 24 + (tile.map (fun t => t.1)).getD 0, tile := tile, rot := bitsOf d 24 3,
    tp := bitsOf d 48 16, rp := bitsOf d 32 16 }

/-- The descriptor of A (false) or B (true) that a block's kind selects (R263). -/
def MJob.desc (j : MJob) (b : Bool) : Nat :=
  if bitsOf j.block (if b then 66 else 64) 2 = 1 then (if b then j.descC else j.descB).toNat else bitsOf j.block (if b then 160 else 96) 64

/-- The operand A (false) or B (true) of a job (R263, R265, R266). -/
def MJob.operand (j : MJob) (b : Bool) : MOp :=
  if bitsOf j.block (if b then 66 else 64) 2 = 2 then { descOf (j.desc b) none with img := some (if b then j.imgB else j.imgA), k := false, base := 0 }
  else descOf (j.desc b) (if b then j.tileB else j.tileA)

/-- The place of byte `o` of row `i` of a K-block tile (R267). -/
def MOp.addr (x : MOp) (kb i o : Nat) : Nat :=
  let a := x.base + kb * 128 * x.tp + i * x.rp + o
  if x.rot = 0 then a
  else
    let j := o % x.rp / 16
    a - 16 * j + 16 * (j ^^^ ((i >>> (x.rot - 1)) % 8))

/-- The flat place of `n` bytes at a .C offset or a .K address of a team, or an error code (R124, R126, R20, R264). -/
def State.mPlace (s : State) (tid : Nat) (k : Bool) (a n : Nat) : Except Nat Nat :=
  let t := s.teamD tid
  if k then
    match s.reachK { Group.blank with tid := tid, ctx := t.ctx } a n with
    | (.ok f, _) => .ok f
    | (.error e, _) => .error (errOf e)
  else if t.allocSize < a + n then .error 1 else .ok (flatScratch t.core (t.allocOff + a))

/-- The element types of a block's TYPE code (R263, R265): floating-point halves, 8-bit floats, MXFP4, integers, or complex
integers with the bits of a part. -/
inductive BlkTy where
  | half (t : NumTy)
  | eight (a b : NumTy)
  | mx
  | int (a b : NumTy)
  | cplx (w : Nat)
  deriving DecidableEq, Repr

/-- The TYPE codes (R248, R263). -/
def blkTy (c : Nat) : Option BlkTy :=
  if c = 16 then some (.cplx 8) else if c = 17 then some (.cplx 4) else if c = 18 then some .mx
  else (mmatyOf c).map (fun m => match m with
    | .bf16 => .half .bf16
    | .fp16 => .half .fp16
    | .e4m3 => .eight .e4m3 .e4m3
    | .e5m2 => .eight .e5m2 .e5m2
    | .e4m3e5m2 => .eight .e4m3 .e5m2
    | .e5m2e4m3 => .eight .e5m2 .e4m3
    | _ => .int (mmaTypes m).1 (mmaTypes m).2)

/-- The element width of a type (R265). -/
def BlkTy.w : BlkTy → Nat
  | .half _ => 16
  | .eight _ _ => 8
  | .mx => 4
  | .int a _ => tyBits a
  | .cplx w => 2 * w

/-- Bytes of a row of a K-block tile (R265). -/
def BlkTy.row (t : BlkTy) : Nat := 128 * t.w / 8

/-- Whether a type's elements are complex. -/
def BlkTy.isCplx : BlkTy → Bool
  | .cplx _ => true
  | _ => false

/-- Fields of a parameter block (R263). -/
def blkM (b : Nat) : Nat := 16 * (bitsOf b 12 3 + 1)
def blkN (b : Nat) : Nat := 16 * (bitsOf b 16 6 + 1)
def blkKb (b : Nat) : Nat := bitsOf b 32 16
def blkScaled (b : Nat) : Bool := b.testBit 5

/-- Whether a job reads scales (R268). -/
def readsScales (b : Nat) (t : BlkTy) : Bool := decide (t = .mx) || blkScaled b

/-- A scale's place (R268). -/
def scaleAt (d kb i : Nat) : Nat := bitsOf d 0 24 + kb * bitsOf d 32 20 + 4 * i

/-- The scale descriptors of A and B. -/
def blkSa (b : Nat) : Nat := bitsOf b 224 64
def blkSb (b : Nat) : Nat := bitsOf b 288 64

/-- B's scales in a K-block: one a row for MXFP4, one for each 128 columns for FP8 (R268). -/
def sbCount (b : Nat) (t : BlkTy) : Nat := if t = .mx then blkN b else (blkN b + 127) / 128

/-- A V block's registers (R266). -/
def vFirst (d : Nat) : Nat := bitsOf d 0 8
def vCount (d : Nat) : Nat := bitsOf d 8 7

/-- Whether a V block's count and place are legal for a group (R264). -/
def vBlockOk (vregs d : Nat) : Bool := decide (vCount d % 4 = 0) && decide (4 ≤ vCount d) && decide (vCount d ≤ 64) && decide (vFirst d + vCount d ≤ vregs)

/-- The V registers a job's block reads (R266). -/
def vBlockRegs (vregs block kindAt descAt : Nat) : List Nat :=
  let d := bitsOf block descAt 64
  if decide (bitsOf block kindAt 2 = 2) && vBlockOk vregs d then (upFrom (vFirst d) (vCount d)).map vReg else []

/-- A V block's image, empty when the block is not legal (R266). -/
def Group.vImage (g : Group) (block kindAt descAt : Nat) : List Byte :=
  (vBlockRegs g.vregs block kindAt descAt).flatMap (fun r => lanes32.flatMap (fun l => toBytes 4 (g.cell r l).toNat))

/-- The parameter block a word names, as it stands (R263). -/
def State.blockAt (s : State) (g : Group) (off : Nat) : Nat :=
  let t := s.teamD g.tid
  if t.allocSize < off + 128 then 0 else s.num (flatScratch t.core (t.allocOff + off)) 128

/-- The V-block registers that an MXB reads besides its operands (R266). -/
def State.mxbRegs (s : State) (g : Group) (a : Opnd) : List Nat :=
  let b := s.blockAt g (g.rd 0 a).toNat
  vBlockRegs g.vregs b 64 96 ++ vBlockRegs g.vregs b 66 160

/-- The reads of one operand in one K-block, as 16-byte units (R264). -/
def MOp.units (x : MOp) (row n kb : Nat) : List Nat :=
  (List.range n).flatMap (fun i => (List.range (row / 16)).map (fun u => x.addr kb i (16 * u)))

/-- Every scratchpad byte range a job reads: whether .K, the tile's bounds, the place and the bytes; V blocks apart (R264). -/
def MJob.reads4 (j : MJob) (t : BlkTy) : List (Bool × Option (Nat × Nat) × Nat × Nat) :=
  let kbs := List.range (blkKb j.block)
  let op : Bool → Nat → List (Bool × Option (Nat × Nat) × Nat × Nat) := fun b n =>
    let x := j.operand b
    if x.img.isSome then [] else kbs.flatMap (fun kb => (x.units t.row n kb).map (fun a => (x.k, x.tile, a, 16)))
  let sc : Nat → Nat → List (Bool × Option (Nat × Nat) × Nat × Nat) := fun d n =>
    if readsScales j.block t then kbs.flatMap (fun kb => (List.range n).map (fun i => (d.testBit 27, none, scaleAt d kb i, 4))) else []
  op false (blkM j.block) ++ op true (blkN j.block) ++ sc (blkSa j.block) (blkM j.block) ++ sc (blkSb j.block) (sbCount j.block t)

/-- Whether a job's reads of its V-block images stay within them (R264). -/
def MJob.imagesOk (j : MJob) (t : BlkTy) : Bool :=
  [(false, blkM j.block), (true, blkN j.block)].all (fun q =>
    let x := j.operand q.1
    match x.img with
    | none => true
    | some l => (List.range (blkKb j.block)).all (fun kb => (x.units t.row q.2 kb).all (fun a => decide (a + 16 ≤ l.length))))

/-- One footprint word as an interval of .K addresses, the .C offsets of the issuer's own rank among them (R263, R264). -/
def footOf (rank w : Nat) : Nat × Nat :=
  let lo := 512 * bitsOf w 0 13
  let n := 512 * bitsOf w 13 13
  if w.testBit 26 then (lo, lo + n) else (rank * 2 ^ 20 + min lo (2 ^ 20), rank * 2 ^ 20 + min (lo + n) (2 ^ 20))

/-- The footprint words of a block. -/
def blkFoot (rank b : Nat) : List (Nat × Nat) := [footOf rank (bitsOf b 352 32), footOf rank (bitsOf b 384 32)]

/-- The FORMAT check of R264 (item 1). -/
def MJob.formatBad (rank : Nat) (j : MJob) : Bool :=
  let b := j.block
  match blkTy (bitsOf b 0 5) with
  | none => true
  | some t =>
    let p := popNat 4 (bitsOf b 8 4)
    let wc := if t.isCplx then 128 else 256
    let vbad : Nat → Nat → List Byte → Bool := fun kindAt descAt l =>
      decide (bitsOf b kindAt 2 = 2) && !(vBlockOk 256 (bitsOf b descAt 64) && decide (l.length = 128 * vCount (bitsOf b descAt 64)))
    let tbad : Bool → Nat → Bool := fun o tileAt => b.testBit (tileAt + 6) && (j.operand o).k
    (blkScaled b && !(decide (2 ≤ bitsOf b 0 5) && decide (bitsOf b 0 5 ≤ 5))) || (b.testBit 6 && !t.isCplx) || decide (blkKb b = 0) ||
    decide (bitsOf b 64 2 = 3) || decide (bitsOf b 66 2 = 3) || !(bitsOf b 8 4).testBit rank ||
    !(decide (wc * (p - 1) < blkN b) && decide (blkN b ≤ wc * p)) || decide (128 < 16 * bitsOf b 24 3 + blkM b) ||
    (List.range p).any (fun k => let r := blkRect b k; decide (16 < r.2.2.1 + r.2.2.2)) ||
    vbad 64 96 j.imgA || vbad 66 160 j.imgB || tbad false 68 || tbad true 75

/-- The MISALIGN check of R264 (item 3). -/
def MJob.misaligned (j : MJob) (t : BlkTy) : Bool :=
  [false, true].any (fun b =>
    let x := j.operand b
    (x.img.isNone && decide (bitsOf (j.desc b) 0 24 % 128 ≠ 0)) || decide (x.rp < t.row) || decide (x.rp % 128 ≠ 0)) ||
  (readsScales j.block t && (decide (bitsOf (blkSa j.block) 0 24 % 4 ≠ 0) || decide (bitsOf (blkSb j.block) 0 24 % 4 ≠ 0)))

/-- The first failing read of R264 (item 4), or 0. -/
def State.mBounds (s : State) (tid : Nat) (l : List (Bool × Option (Nat × Nat) × Nat × Nat)) : Nat :=
  match l with
  | [] => 0
  | (k, tile, a, n) :: t =>
    let out := match tile with
      | some (b, z) => decide (a < b) || decide (b + z < a + n)
      | none => false
    if out then 1
    else match s.mPlace tid k a n with
      | .error c => c
      | .ok _ => s.mBounds tid t

/-- The checks of R264: 0, or the code of the first that fails. -/
def State.mxbCheck (s : State) (j : MJob) : Nat :=
  let rank := (s.teamD j.tid).rank
  if j.formatBad rank then 7
  else if (List.range 4).any (fun r => (bitsOf j.block 8 4).testBit r && (s.accCore j.tid r).isNone) then 11
  else match blkTy (bitsOf j.block 0 5) with
    | none => 7
    | some t =>
      if j.misaligned t then 6
      else if !j.imagesOk t then 1
      else
        let l := j.reads4 t
        let c := s.mBounds j.tid l
        if c ≠ 0 then c
        else if l.all (fun r =>
          let a := if r.1 then r.2.2.1 else rank * 2 ^ 20 + r.2.2.1
          (List.range r.2.2.2).all (fun k => (blkFoot rank j.block).any (fun f => decide (f.1 ≤ a + k) && decide (a + k < f.2)))) then 0
        else 10

/-- A footprint word as ranges of scratchpad (R283). -/
def State.footRanges (s : State) (tid w : Nat) : List Range :=
  let f := footOf (s.teamD tid).rank w
  (List.range 4).filterMap (fun r =>
    let lo := max f.1 (r * 2 ^ 20)
    let hi := min f.2 ((r + 1) * 2 ^ 20)
    match s.rankTeam tid r with
    | some u => let t := s.teamD u
                if lo < hi then some ⟨0, flatScratch t.core (t.allocOff + lo % 2 ^ 20), flatScratch t.core (t.allocOff + lo % 2 ^ 20) + (hi - lo)⟩
                else none
    | none => none)

/-- The extent of an accumulator word's descriptor (R278): `rows` rows of `n` bytes. -/
def State.descRange (s : State) (tid : Nat) (d : DWord) (rows n : Nat) : List Range :=
  let x := descOf d.toNat none
  match s.mPlace tid x.k x.base 0 with
  | .ok f => [⟨0, f, f + (rows - 1) * x.rp + roundUp n 128⟩]
  | .error _ => []

/-- The type an accumulator word moves through its descriptor. -/
def MKind.memTy : MKind → NumTy
  | .accld st => st
  | .accst dt _ _ _ => dt
  | _ => .fp32

/-- A job with the core and ranges of the window it is in (R278, R283), as its team now stands. -/
def State.mjobPlaced (s : State) (j : MJob) : MJob :=
  let t := s.teamD j.tid
  match j.kind with
  | .mxb =>
    let r := blkRanges j.block t.core t.rank
    { j with core := t.core, reads := s.footRanges j.tid (bitsOf j.block 352 32) ++ s.footRanges j.tid (bitsOf j.block 384 32) ++ r, writes := r }
  | k =>
    let c := (s.accTarget j.tid j.rect).getD t.core
    let q := rectOf j.rect
    let r := accRanges c q.1 q.2.1 q.2.2.1 q.2.2.2
    let m := s.descRange j.tid j.descB (16 * q.2.1) (2 * q.2.2.2 * tyBits k.memTy)
    match k with
    | .accz => { j with core := c, writes := r }
    | .accld _ => { j with core := c, reads := m, writes := r }
    | .accst _ _ _ _ => { j with core := c, reads := r, writes := m }
    | _ => { j with core := c, reads := accRanges c q.1 1 q.2.2.1 1, writes := [] }

/-- A job with nothing filled in. -/
def MJob.blank : MJob :=
  { seq := 0, tid := 0, gid := 0, core := 0, pc := 0, id := 0, kind := .mxb, block := 0, blockOff := 0, descB := 0, descC := 0,
    imgA := [], imgB := [], tileA := none, tileB := none, rect := 0, reads := [], writes := [], phase := .issued, parts := [],
    kdone := 0, saved := false, ovf := false, fnv := false, err := 0 }

/-- One job issued into its window (R262, R273, R278), with the team's next ID when it takes one. -/
def State.mIssue (s : State) (j : MJob) (takesId : Bool) : State :=
  let k := s.mjobPlaced { j with seq := s.serial, id := if takesId then (s.teamD j.tid).nextId else 0 }
  let t : State := { s with serial := s.serial + 1, mjobs := kset s.mjobs s.serial k }
  if takesId then t.modTeam j.tid (fun t => { t with nextId := if t.nextId = 0xFFFFFFFF#32 then 1 else t.nextId + 1 }) else t

/-- The ID `n` jobs ahead (R262): 0 is skipped. -/
def idAhead : Nat → Word → Word
  | 0, x => x
  | n + 1, x => idAhead n (if x = 0xFFFFFFFF#32 then 1 else x + 1)

/-- What a check at issue says (R273). -/
inductive MChk where
  | ok
  | trap (c : Cause) (va : DWord) (space detail : Nat)
  | wait
  deriving DecidableEq, Repr

/-- The accumulator checks of every word of the chapter (R259, R260, R273). -/
def W.accChk (w : W) : MChk :=
  let e := bitsOf (w.s.teamD w.g.tid).accstat.toNat 28 4
  if e ≠ 0 then .trap .engine 0 0 (2 ^ 13 + e)
  else if (w.s.core w.g.core).accTeam ≠ w.g.tid then .trap .engine 0 0 (2 ^ 13 + 11)
  else .ok

/-- The check of a valid tile of a block (R222, R242, R273). -/
def W.blkTile (w : W) (block at_ : Nat) : MChk :=
  if !block.testBit (at_ + 6) then .ok
  else match w.tile (bitsOf block at_ 6) with
    | none => .trap .tileState 0 0 0
    | some t =>
      if t.err ≠ 0 then .trap .engine t.errVa 0 (tileDetail t)
      else match t.state with
        | .filling => .wait
        | .draining => .wait
        | .ready => .ok
        | _ => .trap .tileState 0 0 0

/-- The checks of R273 in order. -/
def W.mxbChk (w : W) (off : Nat) : MChk :=
  match w.accChk with
  | .ok =>
    if off % 128 ≠ 0 then .trap .misalign (BitVec.ofNat 64 off) 1 0
    else if (w.s.teamD w.g.tid).allocSize < off + 128 then .trap .bounds (BitVec.ofNat 64 off) 1 0
    else
      let b := w.s.blockAt w.g off
      match w.blkTile b 68 with
      | .ok => w.blkTile b 75
      | r => r
  | r => r

/-- Non-helper lanes of execution. -/
def W.awake (w : W) : List Nat := w.ex.filter (fun l => !w.g.isHelper l)

/-- The IDs that the lanes of a job-issuing word receive (R262, R273): 0 in helper lanes. -/
def W.jobIds (w : W) (d : Opnd) : List (Nat × Word) :=
  dstCells d 0 (w.ex.filter w.g.isHelper) (fun _ => 0) ++
    w.awake.zipIdx.flatMap (fun p => dstCells d 0 [p.1] (fun _ => idAhead p.2 (w.s.teamD w.g.tid).nextId))

/-- The end of a job-issuing word (R273, R278): its trap, its wait, or its jobs, what else issue writes (`fx`), and their IDs. -/
def W.issueJobs (w : W) (d : Opnd) (chk : MChk) (target : Nat) (j : MJob) (fx : State → State) : W :=
  if w.ex.isEmpty then w
  else if w.dry then (match chk with
    | .trap _ _ _ _ => w.diverge.var (w.ex.flatMap (zeroCells w.f)) w.clk false
    | _ => w.var (w.jobIds d) w.clk false)
  else if w.awake.isEmpty then w.var (dstCells d 0 (w.ex.filter w.g.isHelper) (fun _ => 0)) (w.clk + 4) false
  else match chk with
    | .trap c va sp dt =>
      (w.awake.foldl (fun w l => w.fault ⟨l, c, va, 0, sp, kindJob, dt, false⟩) w).var (dstCells d 0 (w.ex.filter w.g.isHelper) (fun _ => 0)) (w.clk + 4) false
    | .wait => w.tileWait
    | .ok =>
      if 1024 < w.s.windowUsed target + w.awake.length then { w with hold := some .depEngine }
      else ({ w with s := fx (w.awake.foldl (fun s _ => s.mIssue j true) w.s) } : W).var (w.jobIds d) (w.clk + 4) false

/-- A tile's place when a block names one. -/
def W.tilePlace (w : W) (block at_ : Nat) : Option (Nat × Nat) :=
  if block.testBit (at_ + 6) then (w.tile (bitsOf block at_ 6)).map (fun t => (t.base, t.size)) else none

/-- The cells an MXB reads (R54, R266). -/
def mxbKeys (s : State) (a : Opnd) (f : Info) (g : Group) (ex : List Nat) : List Nat :=
  ownKeys f g ex ++ (if ex.isEmpty then [] else (s.mxbRegs g a).flatMap (regKeys lanes32))

/-- STATUS and PROG of a job's block (R263, R276). -/
def State.putStatus (s : State) (j : MJob) (done : Bool) : State :=
  let t := s.teamD j.tid
  let prog := field 31 1 (if j.saved then 1 else 0) + field 0 16 j.kdone
  let stat := if done then field 31 1 1 + field 5 1 (if j.ovf then 1 else 0) + field 4 1 (if j.fnv then 1 else 0) + field 0 4 j.err else 0
  s.put (flatScratch t.core (t.allocOff + j.blockOff + 56)) (toBytes 8 (prog + stat * 2 ^ 32))

/-- The job of an MXB (R263, R266, R273). -/
def W.mxbJob (w : W) (a b c : Opnd) : MJob :=
  let off := (w.g.rd 0 a).toNat
  let blk := w.s.blockAt w.g off
  { MJob.blank with
    tid := w.g.tid, gid := w.gid, core := w.g.core, pc := w.pc, kind := .mxb, block := blk, blockOff := off, descB := w.g.rd64 0 b,
    descC := w.g.rd64 0 c, imgA := w.g.vImage blk 64 96, imgB := w.g.vImage blk 66 160, tileA := w.tilePlace blk 68,
    tileB := w.tilePlace blk 75 }

/-- MXB (R272, R273). -/
def W.mxb (w : W) (d a b c : Opnd) : W :=
  w.issueJobs d (w.mxbChk (w.g.rd 0 a).toNat) w.g.core (w.mxbJob a b c) (fun s => s.putStatus (w.mxbJob a b c) false)

def execMxb (h : Hdr) (d a b c : Opnd) (s : State) := runWordX (.mxb h d a b c) (mxbKeys s a (info (.mxb h d a b c))) s fun w => w.mxb d a b c

/-- A job of an accumulator word (R278). -/
def W.accJob (w : W) (k : MKind) (a b : Opnd) : MJob :=
  let j := { MJob.blank with tid := w.g.tid, gid := w.gid, core := w.g.core, pc := w.pc, kind := k }
  { j with rect := w.g.rd 0 a, descB := w.g.rd64 0 b }

/-- ACCZ, ACCLD and ACCST (R278). -/
def W.accWord (w : W) (k : MKind) (d a b : Opnd) : W :=
  w.issueJobs d w.accChk ((w.s.accTarget w.g.tid (w.g.rd 0 a)).getD w.g.core) (w.accJob k a b) id

/-- ACCZ (R278, R279). -/
def execAccz (h : Hdr) (d a : Opnd) (s : State) := runWord (.accz h d a) s fun w => w.accWord .accz d a .zero

/-- ACCLD (R278, R280). -/
def execAccld (h : Hdr) (d a b : Opnd) (st : NumTy) (s : State) := runWord (.accld h d a b st) s fun w => w.accWord (.accld st) d a b

/-- ACCST (R278, R281). -/
def execAccst (h : Hdr) (d a b : Opnd) (dt st : NumTy) (rm : RndE) (sat : Bool) (s : State) := runWord (.accst h d a b dt st rm sat) s fun w =>
  w.accWord (.accst dt st rm sat) d a b

/-- The number of a V destination's first register. -/
def vNum : Opnd → Nat
  | .v n => n.val
  | _ => 0

/-- ACCRD's registers (R246, R282): the cells of a core's store, or zeros. -/
def State.accCells (s : State) (rect : Word) (core : Option Nat) (base : Nat) (lanes : List Nat) : List (Nat × Word) :=
  let q := rectOf rect
  (List.range 8).flatMap (fun k => lanes.map (fun l =>
    (cellKey (vReg (base + k)) l, match core with
      | some c => BitVec.ofNat 32 (s.num (flatAcc c (1024 * (16 * q.1 + l % 16) + 4 * (16 * q.2.2.1 + 8 * (l / 16) + k))) 4)
      | none => (0 : Word))))

/-- ACCRD (R278, R282): one job with no ID, and its registers pending until it reads. -/
def W.accrd (w : W) (d a : Opnd) : W :=
  let target := w.s.accTarget w.g.tid (w.g.rd 0 a)
  if w.ex.isEmpty then w
  else if w.dry then
    (match w.accChk with
    | .ok => w.var (w.s.accCells (w.g.rd 0 a) target (vNum d) w.ex) w.clk false
    | _ => w.diverge.var (w.ex.flatMap (zeroCells w.f)) w.clk false)
  else match w.accChk with
    | .trap c _ _ dt => w.faultWord c kindJob dt
    | .wait => w
    | .ok =>
      if 1024 < w.s.windowUsed (target.getD w.g.core) + 1 then { w with hold := some .depEngine }
      else
        let q := w.pend [] none false
        { q.2 with s := q.2.s.mIssue (w.accJob (.accrd q.1 (vNum d) (maskOf (fun l => w.ex.contains l))) a .zero) false }

def execAccrd (h : Hdr) (d a : Opnd) (s : State) := runWord (.accrd h d a) s fun w => w.accrd d a

/-- The outstanding job of a team with an ID (R262). -/
def State.jobOfId (s : State) (tid : Nat) (id : Word) : Option MJob :=
  ((s.mjobs.find? (fun j => decide (j.2.tid = tid) && decide (j.2.id = id) && decide (id ≠ 0))).map (fun j => j.2))

/-- The oldest job of a list. -/
def oldestJob : List MJob → Option MJob
  | [] => none
  | j :: t => match oldestJob t with
    | none => some j
    | some k => some (if j.seq ≤ k.seq then j else k)

/-- MXBW (R277). -/
def W.mxbw (w : W) (d a : Opnd) : W :=
  if w.ex.isEmpty then w
  else if w.dry then w.var (dstCells d 0 w.ex (fun _ => w.s.accStat w.g.tid)) w.clk false
  else match oldestJob (w.ex.filterMap (fun l => w.s.jobOfId w.g.tid (w.g.rd l a))) with
    | some j => { w with hold := some .depEngine, holdPc := some j.pc }
    | none => w.varFree (dstCells d 0 w.ex (fun _ => w.s.accStat w.g.tid)) false

def execMxbw (h : Hdr) (d a : Opnd) (s : State) := runWord (.mxbw h d a) s fun w => w.mxbw d a

/-- MXBT (R277). -/
def W.mxbt (w : W) (d : PCode) (a : Opnd) : W :=
  w.var (predCells d w.ex (fun l => (w.s.jobOfId w.g.tid (w.g.rd l a)).isNone)) (if w.dry then w.clk else w.clk + 8) false

def execMxbt (h : Hdr) (d : PCode) (a : Opnd) (s : State) := runWord (.mxbt h d a) s fun w => w.mxbt d a

/-- The other cooperating cores of a job with their ranks (R269). -/
def State.mxbOthers (s : State) (j : MJob) : List (Nat × Nat) :=
  (List.range 4).filterMap (fun r =>
    if (bitsOf j.block 8 4).testBit r && decide (r ≠ (s.teamD j.tid).rank) then (s.accCore j.tid r).map (fun c => (c, r)) else none)

/-- A job's parts accepted into the other cooperating windows (R274). -/
def State.mxbParts (s : State) (j : MJob) : List (Nat × Nat × Nat) × State :=
  (s.mxbOthers j).foldl (fun acc c => (kset acc.1 c.1 (acc.2.serial, c.2), { acc.2 with serial := acc.2.serial + 1 })) ([], s)

/-- MXB_JOB_START (R274): the checks, or for a restored job (R285) its place in the other windows again. -/
def State.mxbStart (s : State) (id : Nat) : State :=
  match kget s.mjobs id with
  | none => s
  | some j =>
    let e := if j.saved then 0 else s.mxbCheck j
    if e ≠ 0 then { s with mjobs := kset s.mjobs id { j with phase := .running, err := e } }
    else
      let q := s.mxbParts j
      let k := { j with phase := .running, parts := q.1, saved := false }
      let t : State := { q.2 with mjobs := kset q.2.mjobs id k }
      if j.saved then t.putStatus k false else t

def execMxbJobStart (job : Nat) (s : State) := runEvent s fun s => s.mxbStart job

/-- An element of the accumulator store. -/
def accElem (core r c : Nat) : Nat := flatAcc core (1024 * r + 4 * c)

/-- Every element of a rectangle zeroed (R274, R279). -/
def State.accZero (s : State) (core : Nat) (q : Nat × Nat × Nat × Nat) : State :=
  (List.range (16 * q.2.1)).foldl (fun s i => s.zeroRange (accElem core (16 * q.1 + i) (16 * q.2.2.1)) (64 * q.2.2.2)) s

/-- The bytes of a row of an operand, or none where one is uncorrectable (R151). -/
def State.mRow (s : State) (tid : Nat) (x : MOp) (row kb i : Nat) : Option Nat :=
  ((List.range row).mapM (fun o =>
    let a := x.addr kb i o
    match x.img with
    | some l => some (l.getD a 0)
    | none => match s.mPlace tid x.k a 1 with
      | .ok f => if s.bad f 1 then none else some (s.byte f)
      | .error _ => none)).map ofBytes

/-- A scale word, or none where a byte is uncorrectable (R268). -/
def State.mScale (s : State) (tid d kb i : Nat) : Option Nat :=
  match s.mPlace tid (d.testBit 27) (scaleAt d kb i) 4 with
  | .ok f => if s.bad f 4 then none else some (s.num f 4)
  | .error _ => none

/-- One K-block added to one element (R270): its new bits (the imaginary part second for complex types) and OVF. -/
def kElem (t : BlkTy) (conj scl : Bool) (sa sb x y a im : Nat) : Nat × Nat × Bool :=
  match t with
  | .half u => ((List.range 64).foldl (fun a m => accAdd a (dotV u u 16 x y (2 * m) 2)) a, im, false)
  | .eight ta tb =>
    let g := if scl then fp32.mul .rn sa sb else 0x3F800000
    (accAdd a (mulV (fp32.val (fp32.round .rn false (dotV ta tb 8 x y 0 128))) (fp32.val g)), im, false)
  | .mx =>
    ((List.range 4).foldl (fun a q =>
      let ea := bitsOf sa (8 * q) 8
      let eb := bitsOf sb (8 * q) 8
      accAdd a (if ea = 255 ∨ eb = 255 then .nan else (dotV .e2m1 .e2m1 4 x y (32 * q) 32).scale ((ea : Int) + (eb : Int) - 254))) a, im, false)
  | .int ta tb => let r := intAcc a (dotI ta tb (tyBits ta) x y 128); (r.1, im, r.2)
  | .cplx w =>
    let v := cplxDot w conj x y 128
    let r := intAcc a v.1
    let i := intAcc im v.2
    (r.1, i.1, r.2 || i.2)
where
  /-- The parts of a complex product sum of parts of `w` bits (R270). -/
  cplxDot (w : Nat) (conj : Bool) (x y : Nat) : Nat → Int × Int
    | 0 => (0, 0)
    | n + 1 =>
      let s := cplxDot w conj x y n
      let xr := sextNat (fragElem x w (2 * n)) w
      let xi := sextNat (fragElem x w (2 * n + 1)) w
      let yr := sextNat (fragElem y w (2 * n)) w
      let yi := if conj then -(sextNat (fragElem y w (2 * n + 1)) w) else sextNat (fragElem y w (2 * n + 1)) w
      (s.1 + xr * yr - xi * yi, s.2 + xr * yi + xi * yr)

/-- Whether a type's results are floating-point. -/
def BlkTy.isFloat : BlkTy → Bool
  | .half _ => true
  | .eight _ _ => true
  | .mx => true
  | _ => false

/-- A job's cooperating cores, each with its slice number (R269). -/
def MJob.slices (own rank : Nat) (j : MJob) : List (Nat × Nat) :=
  (own, slicesBelow j.block rank) :: j.parts.map (fun p => (p.1, slicesBelow j.block p.2.2))

/-- One K-block of a part (R269, R270): elements in rows and columns ascending; whether one overflowed and one was NaN. -/
def State.kPart (s : State) (j : MJob) (t : BlkTy) (core slice : Nat) (ra rb sas sbs : List Nat) : Bool × Bool × State :=
  let r := blkRect j.block slice
  let wc := if t.isCplx then 128 else 256
  let cols := min wc (blkN j.block - wc * slice)
  (List.range (blkM j.block)).foldl (fun acc i => (List.range cols).foldl (fun (acc : Bool × Bool × State) c =>
    let n := wc * slice + c
    let f := accElem core (16 * r.1 + i) (16 * r.2.2.1 + (if t.isCplx then 2 * c else c))
    let a := acc.2.2.num f 4
    let im := if t.isCplx then acc.2.2.num (f + 4) 4 else 0
    let sb := if t = .mx then sbs.getD n 0 else sbs.getD (n / 128) 0
    let v := kElem t (j.block.testBit 6) (blkScaled j.block) (sas.getD i 0) sb (ra.getD i 0) (rb.getD n 0) a im
    let s := acc.2.2.put f (toBytes 4 v.1)
    let s := if t.isCplx then s.put (f + 4) (toBytes 4 v.2.1) else s
    (acc.1 || v.2.2, acc.2.1 || (t.isFloat && (fp32.val v.1).isNan), s)) acc) (false, false, s)

/-- ACCSTAT's flags set (R271). -/
def State.accFlags (s : State) (tid : Nat) (ovf fnv : Bool) : State :=
  s.modTeam tid (fun t => { t with accstat := t.accstat ||| BitVec.ofNat 32 (field 27 1 (if ovf then 1 else 0) + field 26 1 (if fnv then 1 else 0)) })

/-- ACCSTAT.ERR set, if it is 0 (R260, R276). -/
def State.accErr (s : State) (tid code : Nat) : State :=
  s.modTeam tid (fun t => if bitsOf t.accstat.toNat 28 4 = 0 then { t with accstat := t.accstat ||| BitVec.ofNat 32 (field 28 4 code) } else t)

/-- The reads of a K-block: A's rows, B's rows and the scales, when every byte is good. -/
def State.kReads (s : State) (j : MJob) (t : BlkTy) : Option (List Nat × List Nat × List Nat × List Nat) :=
  let kb := j.kdone
  match (List.range (blkM j.block)).mapM (s.mRow j.tid (j.operand false) t.row kb),
        (List.range (blkN j.block)).mapM (s.mRow j.tid (j.operand true) t.row kb),
        (if readsScales j.block t then (List.range (blkM j.block)).mapM (s.mScale j.tid (blkSa j.block) kb) else some []),
        (if readsScales j.block t then (List.range (sbCount j.block t)).mapM (s.mScale j.tid (blkSb j.block) kb) else some []) with
  | some a, some b, some c, some d => some (a, b, c, d)
  | _, _, _, _ => none

/-- The rectangles of every cooperating core zeroed before the first K-block when ZA asks (R274). -/
def State.kZero (s : State) (j : MJob) : State :=
  if j.block.testBit 7 && decide (j.kdone = 0) then
    (j.slices (s.teamD j.tid).core (s.teamD j.tid).rank).foldl (fun s c => s.accZero c.1 (blkRect j.block c.2)) s
  else s

/-- One K-block on every cooperating core (R269, R270). -/
def State.kAll (s : State) (j : MJob) (t : BlkTy) (ra rb sas sbs : List Nat) : Bool × Bool × State :=
  (j.slices (s.teamD j.tid).core (s.teamD j.tid).rank).foldl (fun (acc : Bool × Bool × State) c =>
    let q := acc.2.2.kPart j t c.1 c.2 ra rb sas sbs
    (acc.1 || q.1, acc.2.1 || q.2.1, q.2.2)) (false, false, s)

/-- KBLOCK_END (R270, R275, R276): the first zeroes the rectangles when ZA asks. -/
def State.kblock (s : State) (id : Nat) : State :=
  match kget s.mjobs id with
  | none => s
  | some j => match blkTy (bitsOf j.block 0 5) with
    | none => s
    | some t =>
      let z := s.kZero j
      match z.kReads j t with
      | none => { z with mjobs := kset z.mjobs id { j with err := 5 } }
      | some x =>
        let r := z.kAll j t x.1 x.2.1 x.2.2.1 x.2.2.2
        State.accFlags { r.2.2 with mjobs := kset r.2.2.mjobs id { j with kdone := j.kdone + 1, ovf := j.ovf || r.1, fnv := j.fnv || r.2.1 } } j.tid r.1 r.2.1

def execKblockEnd (job : Nat) (s : State) := runEvent s fun s => s.kblock job

/-- MXB_JOB_COMPLETE (R276). -/
def State.mxbDone (s : State) (job : Nat) : State :=
  match kget s.mjobs job with
  | none => s
  | some j =>
    let t := State.putStatus { s with mjobs := kdel s.mjobs job } j true
    if j.err = 0 then t else t.accErr j.tid j.err

def execMxbJobComplete (job : Nat) (s : State) := runEvent s fun s => s.mxbDone job

/-- The checks of an accumulator word's job (R278, R281): 0 or a code. -/
def State.accCheck (s : State) (j : MJob) : Nat :=
  let q := rectOf j.rect
  let x := descOf j.descB.toNat none
  let row := 2 * q.2.2.2 * tyBits j.kind.memTy
  let mem := match j.kind with
    | .accz => false
    | _ => true
  if (s.accTarget j.tid j.rect).isNone then 11
  else if !rectOk j.rect then 7
  else if mem && decide (tyBits j.kind.memTy = 4) && decide (q.2.2.2 % 2 = 1) then 7
  else if mem && (decide (x.base % 128 ≠ 0) || decide (x.rp < row) || decide (x.rp % 128 ≠ 0)) then 6
  else if mem then s.mBounds j.tid ((x.units row (16 * q.2.1) 0).map (fun a => (x.k, none, a, 16)))
  else 0

/-- ACCLD's elements (R280): row by row, or none where a byte is uncorrectable. -/
def State.accLoad (s : State) (j : MJob) (core : Nat) (st : NumTy) : Option State :=
  let q := rectOf j.rect
  let x := descOf j.descB.toNat none
  (List.range (16 * q.2.1)).foldlM (fun s i =>
    (s.mRow j.tid x (2 * q.2.2.2 * tyBits st) 0 i).map (fun v =>
      s.put (accElem core (16 * q.1 + i) (16 * q.2.2.1)) ((List.range (16 * q.2.2.2)).flatMap (fun c =>
        let e := bitsOf v (tyBits st * c) (tyBits st)
        toBytes 4 (match fmtOf st with
          | some f => if st = .fp32 then e else f.toFp32 e
          | none => (sextNat e (tyBits st) % 2 ^ 32).toNat))))) s

/-- ACCST's codes of a row (R281), with the carry of the chain. -/
def accConv (dt st : NumTy) (rm : RndE) (sat : Bool) (l : List Nat) (carry : Nat) : List Nat × Nat :=
  l.foldl (fun (acc : List Nat × Nat) x =>
    if dt = st then (acc.1 ++ [x], acc.2)
    else if rm = .rnef then
      (match fmtOf dt with
      | some f => let r := rnefStep f sat acc.2 x; (acc.1 ++ [r.1], r.2)
      | none => acc)
    else (acc.1 ++ [cvtVal dt st (rndOf rm) sat x], acc.2)) ([], carry)

/-- Bytes put at an operand's row (R267). -/
def State.mPutRow (s : State) (tid : Nat) (x : MOp) (i : Nat) (b : List Byte) : State :=
  b.zipIdx.foldl (fun s p => match s.mPlace tid x.k (x.addr 0 i p.2) 1 with
    | .ok f => s.put f [p.1]
    | .error _ => s) s

/-- ACCST (R281). -/
def State.accStore (s : State) (j : MJob) (core : Nat) (dt st : NumTy) (rm : RndE) (sat : Bool) : State :=
  let q := rectOf j.rect
  let x := descOf j.descB.toNat none
  ((List.range (16 * q.2.1)).foldl (fun (acc : Nat × State) i =>
    let l := (List.range (16 * q.2.2.2)).map (fun c => acc.2.num (accElem core (16 * q.1 + i) (16 * q.2.2.1 + c)) 4)
    let r := accConv dt st rm sat l acc.1
    (r.2, acc.2.mPutRow j.tid x i (toBytes (2 * q.2.2.2 * tyBits dt) (packCodes (tyBits dt) (r.1.map (fun e => e % 2 ^ tyBits dt)))))) (0, s)).2

/-- ACCRD's read (R282): its registers complete 12 or 40 clk later. -/
def State.accRead (s : State) (j : MJob) (core : Option Nat) (pend base : Nat) (lanes : LaneMask) : State :=
  let due := s.pkg.clock + (if core = some (s.teamD j.tid).core ∨ core = none then 12 else 40)
  s.modGrp j.gid (fun g => { g with pends := g.pends.map (fun p =>
    if p.id = pend then { p with cells := s.accCells j.rect core base (lanesOf lanes), due := some due } else p) })

/-- ACC_JOB_START (R279–R282): the whole effect of an accumulator word, or its error. -/
def State.accStart (s : State) (id : Nat) : State :=
  match kget s.mjobs id with
  | none => s
  | some j =>
    let t : State := { s with mjobs := kdel s.mjobs id }
    let target := s.accTarget j.tid j.rect
    let c := target.getD j.core
    let e := s.accCheck j
    match j.kind with
    | .mxb => s
    | .accrd pend base lanes => t.accRead j target pend base lanes
    | .accz => if e ≠ 0 then t.accErr j.tid e else t.accZero c (rectOf j.rect)
    | .accld st => if e ≠ 0 then t.accErr j.tid e else (t.accLoad j c st).getD (t.accErr j.tid 5)
    | .accst dt st rm sat => if e ≠ 0 then t.accErr j.tid e else t.accStore j c dt st rm sat

def execAccJobStart (job : Nat) (s : State) := runEvent s fun s => s.accStart job

/-- Whether a job is an accumulator word's. -/
def MJob.isAcc (j : MJob) : Bool := decide (j.kind ≠ .mxb)

/-- The next event of a job (R274, R275, R278, R283, R285). -/
def State.mjobDue (s : State) (id : Nat) (j : MJob) : Option Instr :=
  let held := (s.teamD j.tid).saving && !(s.mjobs.any (fun k => decide (k.2.tid = j.tid) && k.2.isAcc))
  match j.phase with
  | .issued =>
    if !s.edgesClear j.core j.seq j.reads j.writes then none
    else if j.isAcc then some (.accJobStart id)
    else if held then none
    else if !j.saved && decide (s.mxbCheck j ≠ 0) then some (.mxbJobStart id)
    else if (s.mxbOthers j).all (fun c => decide (s.windowUsed c.1 < 1024)) then some (.mxbJobStart id) else none
  | .running =>
    if decide (j.err ≠ 0) || decide (blkKb j.block ≤ j.kdone) then some (.mxbJobComplete id)
    else if held then none
    else if j.parts.all (fun p => let r := blkRanges j.block p.1 p.2.2; s.edgesClear p.1 p.2.1 r r) then some (.kblockEnd id) else none
  | _ => none

end Sys2Proof.Machine
end

