-- ==== Sys2Proof/Machine/Teams.lean ====
section
/-! DEFINITION. Teams on cores: room and placement (R15–R18, R312, R319), retirement (R89), saving and restoring (R351, R307),
a change of owner (R22) and the end of work that is discarded (R329). -/

namespace Sys2Proof.Machine

/-- The key of a context's node. -/
def nodeKey (ctx n : Nat) : Nat := ctx * 4096 + n
/-- The stack pool of a grid or of a node, as teams name it. -/
def gridPool (id : Nat) : Nat := 2 * id
def nodePool (ctx n : Nat) : Nat := 2 * nodeKey ctx n + 1

/-- The groups resident on a core. -/
def State.onCore (s : State) (core : Nat) : List (Nat × Group) := s.groups.filter (fun g => decide (g.2.core = core))

/-- The port a new group takes (R15): the one with the fewest resident groups, the lowest of those. -/
def State.pickPort (s : State) (core : Nat) : Nat :=
  let n := fun p => ((s.onCore core).filter (fun g => decide (g.2.port = p))).length
  [1, 2, 3].foldl (fun b p => if n p < n b then p else b) 0

/-- The lowest free slot of a port. -/
def State.pickSlot (s : State) (core port : Nat) : Nat :=
  ((List.range 16).find? (fun k => (s.grp (gidOf core port k)).isNone)).getD 0

/-- A group put on a core: its port and slot as R15 states, the youngest of its port (R76). -/
def State.addGroup (s : State) (core : Nat) (g : Group) : Nat × State :=
  let p := s.pickPort core
  let k := s.pickSlot core p
  let (id, s) := s.fresh
  let gid := gidOf core p k
  (gid, s.setGrp gid { g with core := core, port := p, slot := k, born := id, ageCount := 0 })

/-- A group of a team at its creation (R78, R84, R94, R128, R312). -/
def Team.group (t : Team) (tid j : Nat) (spool : DWord) (helpers : Bool) : Group :=
  let lane := fun l => 32 * j + l
  let top := if helpers then roundUp t.lanes 4 else t.lanes
  let v := lanes32.map (fun l => if lane l < top then t.kernel.entry else exitPc)
  let sp := lanes32.map (fun _ => BitVec.ofNat 32 t.stackSize)
  { Group.blank with
    ctx := t.ctx, tid := tid, index := j, vregs := t.kernel.vregs, sregs := t.kernel.sregs, entry := t.kernel.entry, vpc := v, evpc := v,
    svpc := lanes32.map (fun _ => exitPc), lsp := sp, elsp := sp, slsp := lanes32.map (fun _ => 0),
    helper := maskOf (fun l => decide (t.lanes ≤ lane l) && decide (lane l < top)),
    stklim := BitVec.ofNat 32 t.stackLo, stackSize := t.stackSize, lbase := ptrOff spool ((32 * t.stackSize * t.areas.getD j 0 : Nat) : Int) }

/-- Groups of a team that have a lane. -/
def Team.indices (t : Team) : List Nat := (List.range t.kernel.groups).filter (fun j => decide (32 * j < t.lanes))

/-- Stack areas of a pool in use: those of every live group (R312). -/
def State.areasUsed (s : State) (pool : Nat) : List Nat :=
  s.teams.flatMap (fun t => if t.2.pool = pool then t.2.live.map (fun j => t.2.areas.getD j 0) else [])

/-- Free areas for `n` groups (R312), or none; with a stack size of 0 no area is taken. -/
def State.takeAreas (s : State) (pool pooln ss n : Nat) : Option (List Nat) :=
  if ss = 0 then some (List.replicate n 0)
  else
    let used := s.areasUsed pool
    let free := ((List.range (min pooln (used.length + n))).filter (fun k => !used.contains k)).take n
    if free.length < n then none else some free

/-- The teams that hold part of a core (R17, R324): resident ones and those kept for a successor. -/
def State.teamsOn (s : State) (core : Nat) : List (Nat × Team) :=
  s.teams.filter (fun t => decide (t.2.core = core) && (t.2.resident || t.2.successor))

/-- Whether a range of a core's scratchpad is free. -/
def State.scratchFree (s : State) (core off size : Nat) : Bool :=
  decide (off + size ≤ 2 ^ 20) && (s.teamsOn core).all (fun t => decide (off + size ≤ t.2.allocOff) || decide (t.2.allocOff + t.2.allocSize ≤ off))

/-- The lowest place for an allocation on a core (R17). -/
def State.scratchPlace (s : State) (core size : Nat) : Option Nat :=
  (0 :: (s.teamsOn core).map (fun t => t.2.allocOff + t.2.allocSize)).foldl (fun b o =>
    if s.scratchFree core o size && (match b with | some p => decide (o < p) | none => true) then some o else b) none

/-- Room on a core for `n` groups of a kernel with an allocation (R17, R18, R259). -/
def State.room (s : State) (core n : Nat) (k : Kernel) (size : Nat) : Bool :=
  let gs := s.onCore core
  decide (gs.length + n ≤ 64) && decide (gs.foldl (fun a g => a + g.2.vregs) 0 + n * k.vregs ≤ 8192) &&
  decide ((s.teamsOn core).length < 16) && (s.scratchPlace core size).isSome && (!k.acc || decide ((s.core core).accTeam = 0))

/-- Whether a context may put teams on a core now. -/
def State.coreOpen (s : State) (ctx core : Nat) : Bool :=
  let c := s.core core
  decide (c.owner = ctx) && c.changing.isNone && !c.withheld.contains ctx && ((s.feCtx ctx).cset.testBit core) && decide ((s.die (coreDie core)).st = .up)

/-- A barrier at its creation (R208). -/
def Barrier.new (n : Nat) : Barrier := { e := n, c := n, parity := false, arrived := [], dropped := [] }

/-- A context comes to depend on a die (R370). -/
def State.dependsOn (s : State) (ctx die : Nat) : State := s.modCtx ctx (fun c => { c with tdmask := c.tdmask ||| BitVec.ofNat 32 (2 ^ die) })

/-- A team put on a core with its groups (R17, R89, R147, R208, R312, R319): `keep` for a successor, which inherits the
accumulator store. -/
def State.startTeam (s : State) (tid core : Nat) (t : Team) (spool : DWord) (rs : Nat) (recs : List (List Byte)) (keep : Bool) : State :=
  let ix := t.indices
  let off := if keep then t.allocOff else (s.scratchPlace core t.allocSize).getD 0
  let t := { t with core := core, allocOff := off, resident := true, live := ix,
                    bars := (List.range t.kernel.barriers).map (fun n => (n, Barrier.new t.kernel.groups)) }
  let s := { s with teams := kset s.teams tid t }
  let s := if t.kernel.acc then
      (if keep then s else s.zeroRange (flatAcc core 0) (2 ^ 17)).modCore core (fun c => { c with accTeam := tid }) else s
  let s := recs.zipIdx.foldl (fun s r => s.put (flatScratch core (off + t.recbase.toNat + rs * r.2)) r.1) s
  let s := ix.foldl (fun s j => (s.addGroup core (t.group tid j spool (decide (rs = 0)))).2) s
  (s.acquirePkg core t.ctx).dependsOn t.ctx (coreDie core)

/-- A cluster of teams at its creation: K0–K7 count every group of every team (R208). -/
def State.newCluster (s : State) (ctx ccl id : Nat) (teams : List (Nat × Nat)) (groups : Nat) : State :=
  { s with lclusters := kset s.lclusters id { ctx := ctx, ccl := ccl, teams := teams, bars := (List.range 8).map (fun n => (n, Barrier.new groups)) } }

/-- Groups that have no lane retire at once (R318). -/
def State.dropEmpty (s : State) (tid : Nat) : State :=
  let t := s.teamD tid
  ((List.range t.kernel.groups).filter (fun j => !t.indices.contains j)).foldl (fun s j => s.dropAll tid j) s

/-- Whether a team's work is over (R89): its groups, jobs, atomics and side-log entries. -/
def State.teamOver (s : State) (tid : Nat) : Bool :=
  match s.team tid with
  | none => false
  | some t =>
    t.resident && !t.saving && t.live.isEmpty && s.groups.all (fun g => decide (g.2.tid ≠ tid)) && (s.teamJobs tid).isEmpty &&
    s.atoms.all (fun a => decide (a.2.tid ≠ tid)) && (s.core t.core).sideLog.all (fun e => decide (e.tid ≠ tid)) && t.savedLog.isEmpty &&
    s.jobs.all (fun j => !j.2.parts.contains (tid, true))

/-- A team leaves its cluster: the cluster is gone with its last team. -/
def State.leaveCluster (s : State) (tid : Nat) : State :=
  let k := (s.teamD tid).cluster
  match kget s.lclusters k with
  | none => s
  | some c =>
    let ts := c.teams.filter (fun x => decide (x.2 ≠ tid))
    { s with lclusters := if ts.isEmpty then kdel s.lclusters k else kset s.lclusters k { c with teams := ts } }

/-- What a core holds of a team is freed. -/
def State.freeTeam (s : State) (tid : Nat) : State :=
  let t := s.teamD tid
  let s := (s.leaveCluster tid).modCore t.core (fun c => if c.accTeam = tid then { c with accTeam := 0 } else c)
  { s with teams := kdel s.teams tid }

/-- TEAM_RETIRE (R89, R324): the L1's dirty bytes go to the die L2; a team with bound records is kept for its successor. -/
def State.teamRetire (s : State) (tid : Nat) : State :=
  if s.teamOver tid then
    let t := s.teamD tid
    let s := s.writeBackL1 t.core
    if t.bound.isEmpty then s.freeTeam tid
    else (s.leaveCluster tid).modTeam tid (fun t =>
      { t with resident := false, successor := true, grid := 0, nodeid := 0xFFFFFFFF#32 })
  else s

def execTeamRetire (team : Nat) (s : State) := runEvent s fun s => s.teamRetire team

/-- The teams that must be saved with a team (R208, R307): those of its cluster and, once one of them has used the sequencer,
every team of the context on the core cluster. -/
def State.savedWith (s : State) (tid : Nat) : List Nat :=
  let t := s.teamD tid
  let mates := ((kget s.lclusters t.cluster).map (fun k => k.teams.map (fun x => x.2))).getD [tid]
  let near := s.teams.filter (fun x => decide (x.2.ctx = t.ctx) && x.2.resident && decide (coreCcl x.2.core = coreCcl t.core))
  if near.any (fun x => x.2.seqUsed) then near.map (fun x => x.1) ++ mates.filter (fun m => near.all (fun x => decide (x.1 ≠ m))) else mates

/-- The sequencer operations in flight of teams that are to be saved are abandoned (R307): each word's lanes stand at it again,
and what it would have written is no longer pending. -/
def State.abandonOps (s : State) (tids : List Nat) : State :=
  let ops := s.cclusters.flatMap (fun k => k.2.seqQ.filter (fun o => tids.contains o.tid))
  let s := ops.reverse.foldl (fun s o => s.modGrp o.gid (fun g =>
    { g with pends := g.pends.filter (fun p => decide (p.id ≠ o.pend)), wait := if g.wait = .engine then .none else g.wait,
             vpc := lanes32.map (fun l => if o.mask.getLsbD l && decide (g.vpcOf l ≠ exitPc) then o.pc else g.vpcOf l) })) s
  { s with cclusters := kmap s.cclusters (fun _ k => { k with seqQ := k.seqQ.filter (fun o => !tids.contains o.tid) }),
           reqs := kmap s.reqs (fun _ r => match r.orig with
             | .seqOp _ p => if ops.any (fun o => decide (o.pend = p)) then { r with orig := .gone } else r
             | _ => r) }

/-- A team's save begins (R351): its groups issue no more, their TOUCH windows close and their watch entries go (R219). A team kept
for its successor is saved as it stands, with its bound records (R328). -/
def State.beginSave (s : State) (tid : Nat) : State :=
  (s.savedWith tid).foldl (fun s t =>
    let s := (s.abandonOps [t]).modTeam t (fun t => { t with saving := t.resident || t.successor, resident := t.resident || t.successor, successor := false })
    (s.groups.filter (fun g => decide (g.2.tid = t))).foldl (fun s g =>
      let s := match g.2.wait with
        | .watch _ _ => (s.watchDrop g.1).modGrp g.1 Group.unwait
        | _ => s
      s.modGrp g.1 (fun g => { g with touches := [] })) s) s

/-- Whether a group has stopped (R351): no register pending, no atomic on its way, no fence, no trap or restart to come. -/
def State.groupStopped (s : State) (gid : Nat) (g : Group) : Bool :=
  g.pends.isEmpty && s.atoms.all (fun a => decide (a.2.gid ≠ gid)) && g.fences.isEmpty && g.trap.isNone && !g.restart

/-- Whether a job has stopped (R243, R285). -/
def State.jobsStopped (s : State) (tid : Nat) : Bool :=
  s.mjobs.all (fun j => decide (j.2.tid ≠ tid) || !j.2.isAcc)

/-- Whether a team is ready for its image to be taken (R351). -/
def State.saveReady (s : State) (tid : Nat) : Bool :=
  s.groups.all (fun g => decide (g.2.tid ≠ tid) || s.groupStopped g.1 g.2) && s.jobsStopped tid

/-- The bytes of a team's image (R351). -/
def State.imageSize (s : State) (tid : Nat) : Nat :=
  let t := s.teamD tid
  let gs := s.groups.filter (fun g => decide (g.2.tid = tid))
  let up := fun n => roundUp n 4096
  let logs := ((s.core t.core).sideLog.filter (fun e => decide (e.tid = tid))).length
  4096 + up t.allocSize + up (gs.length * (128 * t.kernel.vregs + 4 * t.kernel.sregs + 2560)) +
  up ((gs.filter (fun (g : Nat × Group) => decide (g.2.level = Level.handler))).length * (512 * (s.ctxD t.ctx).hss)) + up (128 * (s.teamJobs tid).length) + up (64 * logs) +
  (if t.kernel.acc then 131072 else 0) +
  (if t.rank = 0 ∧ (1 < (((kget s.lclusters t.cluster).map (fun k => k.teams.length)).getD 1) ∨ t.seqUsed) then 540672 else 0)

/-- Bytes no rule gives a value: FREE (log 12). -/
def State.freeBytes (s : State) (n : Nat) : List Byte × State :=
  ((List.range n).map (fun k => Config.freeByte (s.free + k)), { s with free := s.free + n })

/-- A team's image as its sections lie (R351): the allocation's bytes, and sections whose inner layout no rule gives (FREE, log 12). -/
def State.teamImage (s : State) (tid : Nat) : List Byte × State :=
  let t := s.teamD tid
  let a := s.freeBytes 4096
  let b := a.2.freeBytes (s.imageSize tid - 4096 - t.allocSize)
  (a.1 ++ s.bytes (flatScratch t.core t.allocOff) t.allocSize ++ b.1, b.2)

/-- The lowest free save slot of a context (R351). -/
def State.saveSlot (s : State) (ctx : Nat) : Option Nat :=
  let used := s.teams.filterMap (fun t => if t.2.ctx = ctx then t.2.slot else none)
  ((List.range (min (2 ^ (s.ctxD ctx).slotsl) (used.length + 1))).find? (fun k => !used.contains k))

/-- The bytes of a group's handler stack (R337, R338), as far as they can be read. -/
def State.handlerStack (s : State) (gid : Nat) (g : Group) : List Byte :=
  let n := 512 * (s.ctxD g.ctx).hss
  (List.range n).map (fun o => (((s.readCtx g.ctx (ptrOff (s.ctxD g.ctx).hsbase ((n * gid + o : Nat) : Int)) 1).1).bind (fun b => b.head?)).getD 0)

/-- One group taken into its team's image: its stack window spilled, its request kept by team and index. -/
def State.saveGroup (s : State) (gid : Nat) : State :=
  let s := (s.spill gid true (fun _ _ => true)).2
  let g := s.grpD gid
  let g := { g with stk := [], fillDue := true, recReq := [], touches := [],
                    handlerBytes := if g.level = Level.handler then s.handlerStack gid g else [] }
  let fetching := s.reqs.any (fun r => decide (r.2.orig = .fetch gid))
  let g := if fetching then { g with wait := .none } else g
  let s := { s with reqs := kmap s.reqs (fun _ r => match r.orig with
    | .group x => if x = gid then { r with orig := .savedGroup g.tid g.index } else r
    | .fetch x => if x = gid then { r with orig := .gone } else r
    | .record x _ => if x = gid then { r with orig := .gone } else r
    | _ => r) }
  (s.delGrp gid).modTeam g.tid (fun t => { t with saved := kset t.saved g.index g })

/-- Cells with addresses made relative, and back. -/
def shiftCells (l : List Host.Cell) (src dst : Nat) : List Host.Cell := l.map (fun c => (c.1 - src + dst, c.2))

/-- What a core and its die hold of a context's stores written to their homes (R193), as a save leaves it: a team may be restored on
another die, and its groups still observe their own stores (R27, R199; DEDUCED, log 65). -/
def State.writeOut (s : State) (core ctx : Nat) : State :=
  ((s.writeBackL1 core).dirtyLines (coreDie core) ctx).foldl (fun s l => s.flushL2Line (coreDie core) l) (s.writeBackL1 core)

/-- A team's image taken into a slot (R351): its groups, jobs, side log, scratchpad and accumulator store leave the core. -/
def State.takeTeam (s : State) (tid slot : Nat) : State :=
  let c := s.ctxD (s.teamD tid).ctx
  let (img, s) := s.teamImage tid
  let s := s.homePut (flatPa 0 (c.savebase.toNat % 2 ^ 52 + 65536 * c.slotsz * slot)) img
  let s := (s.groups.filter (fun g => decide (g.2.tid = tid))).foldl (fun s g => s.saveGroup g.1) s
  let t := s.teamD tid
  let lo := flatScratch t.core t.allocOff
  let jobs := s.teamJobs tid
  let s := { s with jobs := kmap s.jobs (fun _ j => if j.tid = tid then { j with phase := .stopped } else j) }
  let s := s.mjobs.foldl (fun s j =>
    if j.2.tid ≠ tid then s
    else
      let j1 := { j.2 with saved := j.2.saved || decide (j.2.phase = .running), phase := .stopped, parts := [] }
      let s := { s with mjobs := kset s.mjobs j.1 j1 }
      if j1.saved then s.putStatus j1 false else s) s
  let acc := if (s.core t.core).accTeam = tid then s.cellsIn (flatAcc t.core 0) (2 ^ 17) else []
  let log := ((s.core t.core).sideLog.filter (fun e => decide (e.tid = tid))).map (fun e => { e with spilled := true })
  let cells := s.cellsIn lo t.allocSize
  let s := s.modCore t.core (fun c => { c with sideLog := c.sideLog.filter (fun e => decide (e.tid ≠ tid)), accTeam := if c.accTeam = tid then 0 else c.accTeam, lines := c.lines.filter (fun b => decide (b.tid ≠ tid)) })
  (s.writeOut t.core t.ctx).modTeam tid (fun t =>
    { t with resident := false, saving := false, slot := some slot, savedLog := t.savedLog ++ log, savedJobs := jobs,
             savedScratch := shiftCells cells lo 0, savedAcc := shiftCells acc (flatAcc t.core 0) 0 })

/-- The sequencer's state kept with a team (R307): by the first of the teams saved with it. -/
def State.keepSeq (s : State) (tid : Nat) : State :=
  let t := s.teamD tid
  let k := s.ccl (coreCcl t.core)
  if t.seqUsed ∧ k.seqCtx = t.ctx then
    s.modTeam tid (fun t => { t with savedSeq := some ⟨k.slots, k.samples⟩ })
  else s

/-- A save that cannot be made (R351): the teams go on where they are and the requester learns of it. -/
def State.saveFails (s : State) (tids : List Nat) : State :=
  tids.foldl (fun s tid =>
    let t := s.teamD tid
    let s := s.modTeam tid (fun t => { t with saving := false })
    let s := s.modCore t.core (fun c => { c with changing := none, withheld := c.withheld.filter (fun k => decide (k ≠ t.ctx)) })
    { s with supOps := kmap s.supOps (fun _ o => if o.ctx = t.ctx ∧ o.mask.contains t.core then
        { o with mask := o.mask.filter (fun c => decide (c ≠ t.core)), phase := o.phase + 1 } else o) }) s

/-- TEAM_SAVE (R351): every team that must be saved with this one is saved, each into a slot of its own, or none is. -/
def State.teamSave (s : State) (tid : Nat) : State :=
  let ts := (s.savedWith tid).filter (fun t => (s.teamD t).resident)
  if ts.all (fun t => (s.teamD t).saving && s.saveReady t) then
    let fits := ts.all (fun t => decide (s.imageSize t ≤ (s.ctxD (s.teamD t).ctx).slotsz * 65536))
    let ctx := (s.teamD tid).ctx
    let used := (s.teams.filter (fun t => decide (t.2.ctx = ctx) && t.2.slot.isSome)).length
    if fits && decide (used + ts.length ≤ 2 ^ (s.ctxD ctx).slotsl) then
      ts.foldl (fun u t => ((u.keepSeq t).takeTeam t ((u.saveSlot ctx).getD 0)).modTeam t (fun x => { x with saveNo := s.serial })) s.fresh.2
    else s.saveFails ts
  else s

def execTeamSave (team : Nat) (s : State) := runEvent s fun s => s.teamSave team

/-- Whether a saved team may be restored (R173). -/
def Team.restorable (t : Team) : Bool := !t.resident && t.slot.isSome && t.savedLog.isEmpty

/-- A copy job back in its window (R243): its tile range stands where the team now is. -/
def State.jobBack (s : State) (id : Nat) : State :=
  let (seq, s) := s.fresh
  match kget s.jobs id with
  | none => s
  | some j =>
    let t := s.teamD j.tid
    let tr := match kget t.tiles j.tile with
      | some x => if j.recErr = 0 then tileRange t x j.lay else []
      | none => []
    let far := fun l : List Range => l.filter (fun r => decide (r.space ≠ 0))
    let j1 := { j with seq := seq, core := t.core, phase := if j.err = 0 then .issued else .running, reuse := [],
                       reads := if j.drain then tr else far j.reads, writes := if j.drain then far j.writes else tr }
    { s with jobs := kset s.jobs id j1 }

/-- A matrix job back in its window (R285). -/
def State.mjobBack (s : State) (id : Nat) : State :=
  let (seq, s) := s.fresh
  match kget s.mjobs id with
  | none => s
  | some j => { s with mjobs := kset s.mjobs id (s.mjobPlaced { j with seq := seq, phase := .issued }) }

/-- A saved group back on a core (R338, R351): its handler stack bytes are written at its new index. -/
def State.groupBack (s : State) (core tid j : Nat) (g : Group) : State :=
  let (gid, s) := s.addGroup core { g with handlerBytes := [] }
  let n := 512 * (s.ctxD g.ctx).hss
  let s := g.handlerBytes.zipIdx.foldl (fun s b => match s.homeOf g.ctx (ptrOff (s.ctxD g.ctx).hsbase ((n * gid + b.2 : Nat) : Int)) needW with
    | (some f, s) => s.homePut f [b.1]
    | (none, s) => s) s
  { s with reqs := kmap s.reqs (fun _ r => if r.orig = .savedGroup tid j then { r with orig := .group gid } else r) }

/-- A saved team restored on a core (R351). -/
def State.teamBack (s : State) (tid core : Nat) : State :=
  let t := s.teamD tid
  let off := (s.scratchPlace core t.allocSize).getD 0
  let s := (s.zeroRange (flatScratch core off) t.allocSize).putCells (shiftCells t.savedScratch 0 (flatScratch core off))
  let s := if t.kernel.acc then
      ((s.zeroRange (flatAcc core 0) (2 ^ 17)).putCells (shiftCells t.savedAcc 0 (flatAcc core 0))).modCore core (fun c => { c with accTeam := tid }) else s
  let s := match t.savedSeq with
    | some q => s.modCcl (coreCcl core) (fun k => { k with seqCtx := t.ctx, slots := q.slots, samples := q.samples })
    | none => s
  let s := s.modTeam tid (fun t =>
    { t with core := core, allocOff := off, resident := true, slot := none, saved := [], savedJobs := [], savedScratch := [], savedAcc := [],
             savedSeq := none })
  let s := (s.modLCl t.cluster (fun k => { k with ccl := coreCcl core }))
  let s := t.saved.foldl (fun s g => s.groupBack core tid g.1 g.2) s
  let s := t.savedJobs.foldl (fun s id => if (kget s.jobs id).isSome then s.jobBack id else s.mjobBack id) s
  (s.acquirePkg core t.ctx).dependsOn t.ctx (coreDie core)

/-- Whether another core of a core cluster stays with a context (R22 step 3). -/
def State.ownsNear (s : State) (core ctx : Nat) : Bool :=
  (upFrom (4 * coreCcl core) 4).any (fun c => decide (c ≠ core) && decide ((s.core c).owner = ctx))

/-- A change of owner (R22, R155, R287, R380): counters folded, buffers zeroed, caches emptied, ownership passes. -/
def State.passCore (s : State) (core next : Nat) : State :=
  let old := (s.core core).owner
  let s := s.foldCore core
  let s := (s.zeroRange (flatScratch core 0) (2 ^ 20)).zeroRange (flatAcc core 0) (2 ^ 17)
  let k := coreCcl core
  let s := if (s.ccl k).seqCtx = next then s else s.modCcl k (fun c => { c with seqCtx := next, slots := [], samples := [] })
  let s := s.writeBackL1 core
  let s := if old ≠ 0 ∧ !s.ownsNear core old then s.modCcl k (fun c => { c with tlb := c.tlb.filter (fun t => decide (t.ctx ≠ old)) }) else s
  let s := s.modCore core (fun c =>
    { c with owner := next, changing := none, l1 := [], icache := [], fills := [], counters := c.swCounters, emptyFrom := s.pkg.clock, swCounters := [],
             turnStart := s.pkg.clock, turnFirst := none, accTeam := 0, lines := none })
  ((s.loadBounds core next).lazyTrigger (coreDie core) old).lazyTrigger (coreDie core) next

/-- A group of discarded work killed (R329 step 3): every lane exits, nothing of it waits any more. -/
def State.killGroup (s : State) (gid : Nat) : State :=
  let s := s.watchDrop gid
  let g := s.grpD gid
  let s := s.modCore g.core (fun c => { c with sideLog := c.sideLog.filter (fun e => decide (e.gid ≠ gid)) })
  let s := { s with atoms := s.atoms.filter (fun a => decide (a.2.gid ≠ gid)),
                    reqs := kmap s.reqs (fun _ r => match r.orig with
                      | .group x => if x = gid then { r with orig := .gone } else r
                      | .fetch x => if x = gid then { r with orig := .gone } else r
                      | .record x _ => if x = gid then { r with orig := .gone } else r
                      | _ => r) }
  s.delGrp gid

/-- A team of discarded work and everything it has (R329, R349): groups, jobs, parked chunks, side-log entries, save slot. -/
def State.discardTeam (s : State) (tid : Nat) : State :=
  let t := s.teamD tid
  let s := (s.groups.filter (fun g => decide (g.2.tid = tid))).foldl (fun s g => s.killGroup g.1) s
  let s := s.modCcl (coreCcl t.core) (fun k => { k with seqQ := k.seqQ.filter (fun o => decide (o.tid ≠ tid)) })
  let s := s.modCore t.core (fun c => { c with sideLog := c.sideLog.filter (fun e => decide (e.tid ≠ tid)) })
  let gone : Request → Bool := fun r => match r.orig with
    | .savedGroup x _ => decide (x = tid)
    | .job id => (match kget s.jobs id with | some j => decide (j.tid = tid) | none => false)
    | .log _ e => !s.logOpen e
    | _ => false
  let s := { s with reqs := kmap s.reqs (fun _ r => if gone r then { r with orig := .gone } else r) }
  let s := { s with jobs := kmap (s.jobs.filter (fun j => decide (j.2.tid ≠ tid))) (fun _ j => { j with parts := j.parts.filter (fun p => decide (p.1 ≠ tid)) }),
                    mjobs := s.mjobs.filter (fun j => decide (j.2.tid ≠ tid)) }
  s.freeTeam tid

end Sys2Proof.Machine
end

