-- ==== Sys2Proof/Machine/Work.lean ====
section
/-! DEFINITION. The front end and the placement agents (chapter 14): kernel descriptors and launch records (R309–R312), queue ports
(R313–R316), nodes and gathering (R317–R320), placement and turns (R321, R350), completion and its signals (R312), and the reset
of a queue (R329). -/

namespace Sys2Proof.Machine

/-- The number that names a context's device queue among the sources of records (R316, R322). -/
def devQueue (ctx : Nat) : Nat := 1024 + ctx

/-- A kernel descriptor read by its fields; none when it breaks a range (R309). -/
def kernelOf (ptr : DWord) (b : Nat) : Option Kernel :=
  let k : Kernel :=
    { ptr := ptr, entry := pcOfAddr (BitVec.ofNat 64 (bitsOf b 0 64)), vregs := bitsOf b 85 9, sregs := bitsOf b 94 9,
      groups := bitsOf b 103 6, tpc := bitsOf b 109 3, scratch := bitsOf b 64 21, tiles := bitsOf b 112 7, barriers := bitsOf b 119 5,
      acc := b.testBit 124, node := b.testBit 125, cap := bitsOf b 128 4, timer := bitsOf b 160 32 }
  if decide (b % 8 = 0) && decide (k.scratch % 512 = 0) && decide (k.scratch ≤ 2 ^ 20) &&
     decide (k.vregs % 8 = 0) && decide (8 ≤ k.vregs) && decide (k.vregs ≤ 256) && decide (1 ≤ k.sregs) && decide (k.sregs ≤ 384) &&
     decide (1 ≤ k.groups) && decide (k.groups ≤ 32) && decide (1 ≤ k.tpc) && decide (k.tpc ≤ 4) && decide (k.tiles ≤ 64) &&
     decide (k.barriers ≤ 16) && (!k.node || decide (6 ≤ k.cap))
  then some k else none

/-- A kernel descriptor read for a context (R309, R311). -/
def State.kernelAt (s : State) (ctx : Nat) (ptr : DWord) : Option Kernel × State :=
  if ptr.toNat % 64 ≠ 0 then (none, s)
  else match s.readCtx ctx ptr 64 with
    | (some b, s) => (kernelOf ptr (ofBytes b), s)
    | (none, s) => (none, s)

/-- The fields of a launch record, as a 512-bit number (R310). -/
def lrKind (r : Nat) : Nat := bitsOf r 0 2
def lrSer (r : Nat) : Bool := r.testBit 2
def lrPrio (r : Nat) : Nat := bitsOf r 5 3
def lrPooln (r : Nat) : Nat := bitsOf r 32 16
def lrNode (r : Nat) : Nat := bitsOf r 48 16
def lrPtr (r lo : Nat) : DWord := BitVec.ofNat 64 (bitsOf r lo 64)
def lrLanes (r : Nat) : Nat := bitsOf r 133 11 + 1
def lrStklo (r : Nat) : Nat := bitsOf r 216 20
def lrStksz (r : Nat) : Nat := bitsOf r 236 20
def lrHigh (r : Nat) : Nat := bitsOf r 431 17
def lrLow (r : Nat) : Nat := bitsOf r 414 17
def lrDown0 (r : Nat) : Nat := bitsOf r 200 16
def lrDown1 (r : Nat) : Nat := bitsOf r 184 16
/-- The record size an RSC code gives (R310). -/
def lrRs (r : Nat) : Nat := match bitsOf r 182 2 with | 0 => 32 | 1 => 16 | 2 => 64 | _ => 0

/-- A context's node: none while it is CLOSED. -/
def State.node (s : State) (ctx n : Nat) : Option Node := if 4094 < n then none else kget s.fe.nodes (nodeKey ctx n)
def State.modNode (s : State) (ctx n : Nat) (f : Node → Node) : State := s.modFe (fun e => { e with nodes := kmod e.nodes (nodeKey ctx n) f })

/-- A node's occupancy; 0 when it is CLOSED (R318, R320). -/
def State.occ (s : State) (ctx n : Nat) : Nat := ((s.node ctx n).map (fun x => x.times.length)).getD 0

/-- Whether a downstream number is out of range (R311). -/
def downBad (d : Nat) : Bool := decide (4094 < d) && decide (d ≠ 0xFFFF)

/-- Whether a record that could be read is bad (R311). -/
def State.recBad (s : State) (ctx r : Nat) (k : Option Kernel) : Bool :=
  decide (lrStksz r < lrStklo r) || (decide (lrStksz r ≠ 0) && decide (lrPooln r = 0)) ||
  (match lrKind r, k with
    | 0, some k => k.node || decide (lrLanes r ≤ 32 * (k.groups - 1)) || decide (32 * k.groups < lrLanes r)
    | 1, some k =>
      !k.node || decide (lrRs r = 0) || decide (lrHigh r = 0) || decide (2 ^ k.cap < lrHigh r) || decide (lrHigh r ≤ lrLow r) ||
      decide (bitsOf r 448 12 ≠ 0) || decide (4094 < lrNode r) || downBad (lrDown0 r) || downBad (lrDown1 r) || (s.node ctx (lrNode r)).isSome
    | 2, _ => (match s.node ctx (lrNode r) with
      | some n => decide (n.state ≠ 1)
      | none => true)
    | _, _ => true)

/-- The context, the origin port and the oldest record of a source; no record when its read fails (R310, R313, R322). -/
def State.queueCtx (s : State) (q : Nat) : Nat := if q < 1024 then (s.port q).ctx else q - 1024
def State.queueOrigin (s : State) (q : Nat) : Nat :=
  if q < 1024 then q else (((s.feCtx (q - 1024)).devq.head?).map (fun d => d.origin)).getD 0
def State.queueHead (s : State) (q : Nat) : Option Nat × State :=
  if q < 1024 then
    let p := s.port q
    if (s.ctx p.ctx).isNone then (none, s)
    else match s.readCtx p.ctx (ptrOff p.qring ((64 * (p.qhead.toNat % 2 ^ p.sizel) : Nat) : Int)) 64 with
      | (some b, s) => (some (ofBytes b), s)
      | (none, s) => (none, s)
  else (((s.feCtx (q - 1024)).devq.head?).map (fun d => ofBytes d.bytes), s)

/-- The launches of a source that have not completed (R310). -/
def State.openLaunches (s : State) (q : Nat) : List Nat := if q < 1024 then (s.port q).openLaunches else (s.feCtx (q - 1024)).devOpen

/-- A launch completes (R310, R317). -/
def State.launchDone (s : State) (q n : Nat) : State :=
  if q < 1024 then s.modPort q (fun p => { p with openLaunches := p.openLaunches.filter (fun x => decide (x ≠ n)) })
  else s.modFeCtx (q - 1024) (fun c => { c with devOpen := c.devOpen.filter (fun x => decide (x ≠ n)) })

/-- A launch begins. -/
def State.launchOpen (s : State) (q n : Nat) : State :=
  if q < 1024 then s.modPort q (fun p => { p with openLaunches := p.openLaunches ++ [n] })
  else s.modFeCtx (q - 1024) (fun c => { c with devOpen := c.devOpen ++ [n] })

/-- Whether a source has a record to parse (R315, R316): a record with SER waits for every earlier launch. -/
def State.queueReady (s : State) (q : Nat) : Bool :=
  s.fe.loaded &&
  (if q < 1024 then decide ((s.port q).state = 1) && decide ((s.port q).qhead ≠ (s.port q).qtail) else !((s.feCtx (q - 1024)).devq.isEmpty)) &&
  (match (s.queueHead q).1 with
    | some r => !lrSer r || (s.openLaunches q).isEmpty
    | none => true)

/-- A source's priority for parsing (R316). -/
def State.queuePrio (s : State) (q : Nat) : Nat :=
  if q < 1024 then (s.port q).prio else min (lrPrio ((s.queueHead q).1.getD 0)) (s.port (s.queueOrigin q)).prio

/-- The source of the next parse slot (R316): the highest priority, the next after the last parsed among equals. -/
def State.parsePick (s : State) : Option Nat :=
  let qs := (s.fe.ports.map (fun p => p.1) ++ s.fe.ctxs.map (fun c => devQueue c.1)).filter s.queueReady
  let best := qs.foldl (fun b q => max b (s.queuePrio q)) 0
  let top := qs.filter (fun q => decide (s.queuePrio q = best))
  match top.find? (fun q => decide (s.fe.rotate < q)) with
  | some q => some q
  | none => top.head?

/-- A word's destination registers take values: its scoreboard entry completes in the next clk (R40). -/
def State.answers (s : State) (gid pend : Nat) (vs : List Word) : State :=
  s.modGrp gid (fun g => { g with pends := g.pends.map (fun p =>
    if p.id = pend then { p with cells := p.cells ++ (p.regs.zip vs).map (fun r => (cellKey r.1 0, r.2)), due := some (s.pkg.clock + 1) } else p) })

/-- A word's one destination register takes a value. -/
def State.answer (s : State) (gid pend : Nat) (v : Word) : State := s.answers gid pend [v]

/-- A source's oldest record leaves it; the word that entered it learns whether it was good (R316, R322). -/
def State.queueTake (s : State) (q : Nat) (bad : Bool) : State :=
  let s := s.modFe (fun e => { e with nextParse := s.pkg.clock + 4, rotate := q })
  if q < 1024 then
    s.modPort q (fun p =>
      if bad then { p with qhead := p.qhead + 1, bad := satInc p.bad 0xFFFF, qerr := p.qhead } else { p with qhead := p.qhead + 1 })
  else match (s.feCtx (q - 1024)).devq.head? with
    | none => s
    | some d => (s.modFeCtx (q - 1024) (fun c =>
        { c with devq := c.devq.drop 1, devBad := if bad then satInc c.devBad 0xFFFF else c.devBad })).answer d.gid d.pend (bword bad)

/-- Whether a node is blocked now, given whether it was (R320). -/
def State.blockedNow (s : State) (ctx : Nat) (x : Node) : Bool :=
  [x.down0, x.down1].any (fun d => match s.node ctx d with
    | some y => decide ((if x.blocked then y.low else y.high) < y.times.length)
    | none => false)

/-- Every node of a context after an occupancy changed (R320). -/
def State.reblock (s : State) (ctx : Nat) : State :=
  s.modFe (fun e => { e with nodes := kmap e.nodes (fun k x => if k / 4096 = ctx then { x with blocked := s.blockedNow ctx x } else x) })

/-- A good record takes effect (R312, R317). -/
def State.launch (s : State) (q ctx origin r : Nat) (k : Kernel) : State :=
  let id := s.serial
  let s := s.fresh.2
  match lrKind r with
  | 0 =>
    let g : Grid :=
      { ctx := ctx, kernel := k, gx := bitsOf r 144 24 + 1, gy := bitsOf r 168 24 + 1, gz := bitsOf r 192 24 + 1, lanes := lrLanes r,
        args := lrPtr r 320, spool := lrPtr r 256, stksz := lrStksz r, stklo := lrStklo r, pooln := lrPooln r, prio := lrPrio r,
        sigptr := lrPtr r 448, sigval := lrPtr r 384, next := 0, source := q, origin := origin, order := id }
    (s.modFe (fun e => { e with grids := kset e.grids id g })).launchOpen q id
  | 1 =>
    let n : Node :=
      { state := 1, kernel := k, ring := lrPtr r 448, rs := lrRs r, high := lrHigh r, low := lrLow r, down0 := lrDown0 r, down1 := lrDown1 r,
        args := lrPtr r 320, spool := lrPtr r 256, stksz := lrStksz r, stklo := lrStklo r, pooln := lrPooln r, prio := lrPrio r, head := 0,
        times := [], batch := 0, blocked := false, sigptr := 0, sigval := 0, closer := none, closeOrigin := 0, lost := false, origin := origin, order := id }
    (s.modFe (fun e => { e with nodes := kset e.nodes (nodeKey ctx (lrNode r)) n })).reblock ctx
  | _ => (s.modNode ctx (lrNode r) (fun n =>
      { n with state := 2, sigptr := lrPtr r 448, sigval := lrPtr r 384, closer := some (q, id), closeOrigin := origin })).launchOpen q id

/-- The kernel descriptor that a record names, read for its context (R309, R311). -/
def State.recKernel (s : State) (ctx r : Nat) : Option Kernel × State :=
  if (s.ctx ctx).isSome && decide (lrKind r < 2) then s.kernelAt ctx (lrPtr r 64) else (none, s)

/-- A record that could be read parsed (R311, R316): a bad one is skipped. -/
def State.parseRec (s : State) (q ctx origin r : Nat) : State :=
  let k := s.recKernel ctx r
  if (s.ctx ctx).isNone || k.2.recBad ctx r k.1 then k.2.queueTake q true
  else (k.2.queueTake q false).launch q ctx origin r (k.1.getD Kernel.blank)

/-- A source's oldest record parsed, when its kind is one of some (R311, R316). -/
def State.parse (s : State) (q : Nat) (kinds : Nat → Bool) : State :=
  if !s.queueReady q || !kinds (lrKind ((s.queueHead q).1.getD 3)) then s
  else match (s.queueHead q).1 with
    | none => (s.queueHead q).2.queueTake q true
    | some r => (s.queueHead q).2.parseRec q (s.queueCtx q) (s.queueOrigin q) r

/-- PARSE_GRID (R312); a record of KIND 3, or one that cannot be read, is skipped here. -/
def execParseGrid (q : Nat) (s : State) := runEvent s fun s => s.parse q (fun k => decide (k = 0) || decide (k = 3))
/-- PARSE_OPEN (R317). -/
def execParseOpen (q : Nat) (s : State) := runEvent s fun s => s.parse q (fun k => decide (k = 1))
/-- PARSE_CLOSE (R317). -/
def execParseClose (q : Nat) (s : State) := runEvent s fun s => s.parse q (fun k => decide (k = 2))

/-- The parse event a source's oldest record calls for. -/
def State.parseEvent (s : State) (q : Nat) : Instr :=
  match lrKind ((s.queueHead q).1.getD 3) with
  | 1 => .parseOpen q
  | 2 => .parseClose q
  | _ => .parseGrid q

/-- Records appended to an open node's ring (R323). -/
def State.nodeAppend (s : State) (ctx n count : Nat) : State :=
  (s.modNode ctx n (fun x => { x with times := x.times ++ List.replicate count s.pkg.clock })).reblock ctx

/-- The dies in the order in which a context's next team is offered (R321). -/
def State.dieOrder (s : State) (ctx : Nat) : List Nat := (List.range 8).map (fun k => ((s.feCtx ctx).lastDie + 1 + k) % 8)

/-- The core a team of one takes (R321). -/
def State.findCore (s : State) (ctx n : Nat) (k : Kernel) (size : Nat) : Option Nat :=
  (s.dieOrder ctx).findSome? (fun d => (upFrom (28 * d) 28).find? (fun c => s.coreOpen ctx c && s.room c n k size))

/-- The four cores of a core cluster. -/
def cclCores (ccl : Nat) : List Nat := upFrom (4 * ccl) 4

/-- Whether a context owns a whole core cluster (R20). -/
def State.ownsCcl (s : State) (ctx ccl : Nat) : Bool :=
  (cclCores ccl).all (fun c => decide ((s.core c).owner = ctx) && (s.core c).changing.isNone)

/-- The cores a cluster of teams takes (R17, R20, R321, R402): ranks on ascending cores of one core cluster. -/
def State.findCluster (s : State) (ctx teams n : Nat) (k : Kernel) (size : Nat) : Option (List Nat) :=
  (s.dieOrder ctx).findSome? (fun d => (upFrom (7 * d) 7).findSome? (fun x =>
    let cs := (cclCores x).filter (fun c => s.coreOpen ctx c && s.room c n k size)
    if s.ownsCcl ctx x && decide (teams ≤ cs.length) then some (cs.take teams) else none))

/-- The cores that `teams` teams of a kernel take. -/
def State.findCores (s : State) (ctx teams n : Nat) (k : Kernel) (size : Nat) : Option (List Nat) :=
  if 1 < k.tpc then s.findCluster ctx teams n k size else (s.findCore ctx n k size).map (fun c => [c])

/-- Teams formed together put on cores: a cluster of their own, its teams by rank (R17, R208, R402). -/
def State.startTeams (s : State) (ctx : Nat) (cores : List Nat) (spool : DWord) (rs : Nat) (ts : List (Team × List (List Byte))) : State :=
  let (cid, s) := s.fresh
  let base := s.serial
  let s := { s with serial := s.serial + ts.length }
  let ids := ts.zipIdx.map (fun x => (x.2, base + x.2))
  let groups := ts.foldl (fun n t => n + t.1.kernel.groups) 0
  let s := s.newCluster ctx (coreCcl (cores.headD 0)) cid ids groups
  let s := (ts.zipIdx.zip cores).foldl (fun s x =>
    let tid := base + x.1.2
    (s.startTeam tid x.2 { x.1.1.1 with cluster := cid, rank := x.1.2 } spool rs x.1.1.2 false).dropEmpty tid) s
  s.modFeCtx ctx (fun c => { c with lastDie := coreDie (cores.headD 0) })

/-- The teams of a grid, and its next cluster's team count (R312, R402). -/
def Grid.total (g : Grid) : Nat := g.gx * g.gy * g.gz
def Grid.offer (g : Grid) : Nat := min g.kernel.tpc (g.total - g.next)

/-- A grid's team number `i`, with its stack areas (R312, R319). -/
def Grid.team (g : Grid) (id i : Nat) (areas : List Nat) : Team :=
  { Team.blank with
    ctx := g.ctx, grid := id, x := i % g.gx, y := i / g.gx % g.gy, z := i / (g.gx * g.gy), gridx := g.gx, gridy := g.gy, gridz := g.gz,
    nodeid := 0xFFFFFFFF#32, recbase := 0, argptr := g.args, kernel := g.kernel, lanes := g.lanes, prio := g.prio, origin := g.origin,
    pool := gridPool id, stackSize := 16 * g.stksz, stackLo := 16 * g.stklo, areas := areas, allocSize := g.kernel.scratch }

/-- The next teams of a grid placed, when there is room (R312, R321). -/
def State.gridPlace (s : State) (id : Nat) : Option State :=
  match kget s.fe.grids id with
  | none => none
  | some g =>
    let k := g.offer
    let n := g.kernel.groups
    if k = 0 then none
    else match s.takeAreas (gridPool id) g.pooln (16 * g.stksz) (k * n), s.findCores g.ctx k n g.kernel g.kernel.scratch with
      | some areas, some cores =>
        let ts := (List.range k).map (fun j => (g.team id (g.next + j) ((areas.drop (n * j)).take n), ([] : List (List Byte))))
        some ((s.startTeams g.ctx cores g.spool 0 ts).modFe (fun e => { e with grids := kset e.grids id { g with next := g.next + k } }))
      | _, _ => none

/-- A node team's allocation (R319). -/
def Node.alloc (x : Node) : Nat := roundUp (x.kernel.scratch + 32 * x.kernel.groups * x.rs) 512

/-- A node team (R318, R319). -/
def Node.team (x : Node) (ctx n batch count : Nat) (areas : List Nat) : Team :=
  { Team.blank with
    ctx := ctx, x := batch % 2 ^ 24, nodeid := BitVec.ofNat 32 n, recbase := BitVec.ofNat 32 x.kernel.scratch, argptr := x.args,
    kernel := x.kernel, lanes := count, prio := x.prio, origin := x.origin, pool := nodePool ctx n, stackSize := 16 * x.stksz,
    stackLo := 16 * x.stklo, areas := areas, allocSize := x.alloc }

/-- Records of a full formation (R318). -/
def Node.full (x : Node) : Nat := 32 * x.kernel.groups * x.kernel.tpc

/-- Whether a node may form teams from its ring, and whether only its timer lets it (R318, R320). -/
def State.nodeForms (s : State) (x : Node) : Option Bool :=
  let n := x.times.length
  if x.blocked || decide (n = 0) then none
  else if x.full ≤ n ∨ x.state = 2 then some false
  else if x.kernel.timer ≠ 0 ∧ x.times.headD 0 + x.kernel.timer ≤ s.pkg.clock then some true
  else none

/-- Ring records of a node read for its context, oldest first, when every one can be read (R318). -/
def State.ringRead (s : State) (ctx : Nat) (x : Node) : Nat → Nat → Option (List (List Byte)) × State
  | _, 0 => (some [], s)
  | i, n + 1 =>
    match s.readCtx ctx (ptrOff x.ring ((x.rs * (i % 2 ^ x.kernel.cap) : Nat) : Int)) x.rs with
    | (none, s) => (none, s)
    | (some b, s) => let (r, s) := s.ringRead ctx x (i + 1) n; (r.map (fun l => b :: l), s)

/-- A node's team, or cluster of teams, formed from ring records and placed, when there is room (R318–R321). -/
def State.nodePlace (s : State) (ctx n : Nat) : Option State :=
  match s.node ctx n with
  | none => none
  | some x =>
    if (s.nodeForms x).isNone then none
    else
      let per := 32 * x.kernel.groups
      let take := min x.times.length x.full
      let teams := (take + per - 1) / per
      let g := x.kernel.groups
      match s.takeAreas (nodePool ctx n) x.pooln (16 * x.stksz) (teams * g), s.findCores ctx teams g x.kernel x.alloc, s.ringRead ctx x x.head take with
      | some areas, some cores, (some recs, s) =>
        let ts := (List.range teams).map (fun j =>
          let r := (recs.drop (per * j)).take per
          (x.team ctx n (x.batch + j) r.length ((areas.drop (g * j)).take g), r))
        let x1 := { x with head := (x.head + take) % 2 ^ x.kernel.cap, times := x.times.drop take, batch := x.batch + teams }
        some (((s.startTeams ctx cores x.spool x.rs ts).modFe (fun e => { e with nodes := kset e.nodes (nodeKey ctx n) x1 })).reblock ctx)
      | _, _, _ => none

/-- A saved team's place on a core (R17). -/
def State.backFits (s : State) (ctx tid core : Nat) : Bool :=
  let t := s.teamD tid
  s.coreOpen ctx core && s.room core t.saved.length t.kernel t.allocSize

/-- Every team of a save batch back on a core cluster, each at its old place in the cluster, or none (R208, R307). -/
def State.batchBack (s : State) (ctx ccl : Nat) (tids : List Nat) : Option State :=
  tids.foldlM (fun s t => let c := 4 * ccl + (s.teamD t).core % 4; if s.backFits ctx t c then some (s.teamBack t c) else none) s

/-- Whether another team's sequencer state of the context stands on a core cluster (R307). -/
def State.seqHeld (s : State) (ctx ccl : Nat) : Bool :=
  s.teams.any (fun t => decide (t.2.ctx = ctx) && t.2.resident && t.2.seqUsed && decide (coreCcl t.2.core = ccl))

/-- The teams of a context saved together (R208, R307). -/
def State.batchOf (s : State) (ctx no : Nat) : List Nat :=
  (s.teams.filter (fun t => decide (t.2.ctx = ctx) && t.2.slot.isSome && decide (t.2.saveNo = no))).map (fun t => t.1)

/-- Whether the teams of a save batch need a whole core cluster (R20). -/
def State.batchWhole (s : State) (ts : List Nat) : Bool :=
  decide (1 < ts.length) || ts.any (fun t => (s.teamD t).seqUsed || decide (1 < (s.teamD t).kernel.tpc))

/-- A save batch restored, when there is room (R321, R351). -/
def State.savedPlace (s : State) (ctx no : Nat) : Option State :=
  let ts := s.batchOf ctx no
  let whole := s.batchWhole ts
  if ts.isEmpty || !(ts.all (fun t => (s.teamD t).restorable)) then none
  else if whole then
    (s.dieOrder ctx).findSome? (fun d => (upFrom (7 * d) 7).findSome? (fun x =>
      if s.ownsCcl ctx x && !(ts.any (fun t => (s.teamD t).savedSeq.isSome) && s.seqHeld ctx x) then s.batchBack ctx x ts else none))
  else
    let t := ts.headD 0
    match (s.dieOrder ctx).findSome? (fun d => (upFrom (28 * d) 28).find? (fun c => s.backFits ctx t c)) with
    | some c => some ((s.teamBack t c).modFeCtx ctx (fun f => { f with lastDie := coreDie c }))
    | none => none

/-- The save batches of a context, oldest first. -/
def State.batches (s : State) (ctx : Nat) : List Nat :=
  (s.teams.foldl (fun m t => if t.2.ctx = ctx ∧ t.2.slot.isSome then kset m t.2.saveNo () else m) []).map (fun x => x.1)

/-- A candidate of R321's third kind: a grid's next teams or a node's. -/
structure Cand where
  node : Bool
  id : Nat
  key : Nat
  order : Nat
  deriving DecidableEq, Repr

/-- A record's priority capped at its origin port's (R310, R321). -/
def State.effPrio (s : State) (prio origin : Nat) : Nat := min prio (s.port origin).prio

/-- The sorting key of R321 steps 3–5: lower goes first. -/
def candKey (prio fill : Nat) (node : Bool) : Nat := ((7 - prio) * 65537 + (65536 - fill)) * 2 + (if node then 1 else 0)

/-- Insert a candidate in R321's order. -/
def insertCand (c : Cand) : List Cand → List Cand
  | [] => [c]
  | x :: t => if c.key < x.key ∨ (c.key = x.key ∧ c.order ≤ x.order) then c :: x :: t else x :: insertCand c t

/-- A context's grid and node candidates in R321's order. -/
def State.cands (s : State) (ctx : Nat) : List Cand :=
  let gs := (s.fe.grids.filter (fun g => decide (g.2.ctx = ctx) && decide (g.2.next < g.2.total))).map (fun g =>
    ({ node := false, id := g.1, key := candKey (s.effPrio g.2.prio g.2.origin) 65536 false, order := g.1 } : Cand))
  let ns := (s.fe.nodes.filter (fun n => decide (n.1 / 4096 = ctx) && (s.nodeForms n.2).isSome)).map (fun n =>
    ({ node := true, id := n.1 % 4096, key := candKey (s.effPrio n.2.prio n.2.origin) (n.2.times.length * 65536 / 2 ^ n.2.kernel.cap) true,
       order := n.1 % 4096 } : Cand))
  (gs ++ ns).foldl (fun l c => insertCand c l) []

/-- A candidate placed, when there is room. -/
def State.candPlace (s : State) (ctx : Nat) (c : Cand) : Option State := if c.node then s.nodePlace ctx c.id else s.gridPlace c.id

/-- The first candidate of a context for which a core has room (R321). -/
def State.candNext (s : State) (ctx : Nat) : Option Cand := (s.cands ctx).find? (fun c => (s.candPlace ctx c).isSome)

/-- PLACE_TEAM (R321, R351): the oldest saved teams that have room, or the next teams of the grid that comes first. -/
def State.placeTeam (s : State) (ctx : Nat) : State :=
  match (s.batches ctx).findSome? (fun b => s.savedPlace ctx b) with
  | some t => t
  | none => match s.candNext ctx with
    | some c => if c.node then s else (s.candPlace ctx c).getD s
    | none => s

def execPlaceTeam (ctx : Nat) (s : State) := runEvent s fun s => s.placeTeam ctx

/-- A node's formation, for its own reason (R318). -/
def State.nodeFormed (s : State) (ctx n : Nat) (timer : Bool) : State :=
  match s.node ctx n with
  | some x => if s.nodeForms x = some timer then (s.nodePlace ctx n).getD s else s
  | none => s

/-- NODE_GATHER (R318). -/
def execNodeGather (ctx node : Nat) (s : State) := runEvent s fun s => s.nodeFormed ctx node false
/-- GATHER_TIMER_EXPIRY (R318). -/
def execGatherTimerExpiry (ctx node : Nat) (s : State) := runEvent s fun s => s.nodeFormed ctx node true

/-- A waiting successor formed, when its areas and its place are free (R324). -/
def State.successorPlace (s : State) (tid : Nat) : Option State :=
  match s.team tid with
  | none => none
  | some t =>
    let n := ((t.bound.head?).map (fun b => b.node)).getD 0
    match s.node t.ctx n with
    | none => none
    | some x =>
      let g := x.kernel.groups
      let on := s.onCore t.core
      if !t.successor || t.saving || decide ((s.core t.core).owner ≠ t.ctx) || (s.core t.core).changing.isSome || decide (64 < on.length + g) ||
         decide (8192 < on.foldl (fun a y => a + y.2.vregs) 0 + g * x.kernel.vregs) then none
      else match s.takeAreas (nodePool t.ctx n) x.pooln (16 * x.stksz) g with
        | none => none
        | some areas =>
          let (cid, s) := s.fresh
          let y := x.team t.ctx n x.batch t.bound.length areas
          let u := { y with cluster := cid, allocOff := t.allocOff, allocSize := t.allocSize, tiles := t.tiles, accstat := t.accstat, nextId := t.nextId }
          let s := s.newCluster t.ctx (coreCcl t.core) cid [(0, tid)] g
          let s := (s.startTeam tid t.core u x.spool x.rs (t.bound.map (fun b => b.bytes)) true).dropEmpty tid
          some (s.modNode t.ctx n (fun z => { z with batch := z.batch + 1 }))

/-- SUCCESSOR_FORM (R324). -/
def execSuccessorForm (team : Nat) (s : State) := runEvent s fun s => (s.successorPlace team).getD s

/-- The release of .PKG that a completion performs for a context (R89): the L1s of its cores and the die L2s' dirty lines. -/
def State.flushContext (s : State) (ctx : Nat) : State :=
  let s := (s.cores.filter (fun c => decide (c.2.owner = ctx) && isCompute c.1)).foldl (fun s c => s.writeBackL1 c.1) s
  (List.range 8).foldl (fun s d => (s.dirtyLines d ctx).foldl (fun s l => s.flushL2Line d l) s) s

/-- A completion's signal is to be stored, or with no SIGPTR its launch is over (R312, R317). -/
def State.signalMake (s : State) (x : Signal) : State :=
  if x.ptr = 0 then (match x.launch with
    | some (q, n) => s.launchDone q n
    | none => s)
  else let (id, s) := s.fresh; s.modFe (fun e => { e with signals := kset e.signals id x })

/-- Whether a grid's last team has retired (R89). -/
def State.gridOver (s : State) (id : Nat) : Bool :=
  match kget s.fe.grids id with
  | some g => decide (g.total ≤ g.next) && s.teams.all (fun t => decide (t.2.grid ≠ id))
  | none => false

/-- GRID_COMPLETE (R89, R312). -/
def State.gridComplete (s : State) (id : Nat) : State :=
  match kget s.fe.grids id with
  | none => s
  | some g =>
    if s.gridOver id then
      let s := (s.flushContext g.ctx).modFe (fun e => { e with grids := kdel e.grids id })
      (s.launchDone g.source id).signalMake ⟨g.ctx, g.sigptr, g.sigval, none, false, g.origin, none⟩
    else s

def execGridComplete (grid : Nat) (s : State) := runEvent s fun s => s.gridComplete grid

/-- Whether a CLOSING node is drained (R317). -/
def State.nodeOver (s : State) (ctx n : Nat) : Bool :=
  match s.node ctx n with
  | some x => decide (x.state = 2) && x.times.isEmpty && s.teams.all (fun t =>
      decide (t.2.ctx ≠ ctx) || (decide (t.2.nodeid.toNat ≠ n) && t.2.bound.all (fun b => decide (b.node ≠ n))))
  | none => false

/-- NODE_DRAINED (R317). -/
def State.nodeDrained (s : State) (ctx n : Nat) : State :=
  match s.node ctx n with
  | none => s
  | some x =>
    if s.nodeOver ctx n then
      let s := (s.flushContext ctx).modFe (fun e => { e with nodes := kdel e.nodes (nodeKey ctx n) })
      (s.reblock ctx).signalMake ⟨ctx, x.sigptr, x.sigval, none, false, x.closeOrigin, x.closer⟩
    else s

def execNodeDrained (ctx node : Nat) (s : State) := runEvent s fun s => s.nodeDrained ctx node

/-- A signal gone, stored or discarded (R312, R317). -/
def State.signalDone (s : State) (id : Nat) (x : Signal) : State :=
  let s := s.modFe (fun e => { e with signals := kdel e.signals id })
  match x.launch with
  | some (q, n) => s.launchDone q n
  | none => s

/-- A signal's store tried (R312): made, held for an absent or write-blocked page, or discarded with a LATE record. -/
def State.signalTry (s : State) (id : Nat) : State :=
  match kget s.fe.signals id with
  | none => s
  | some x =>
    let late : State → Cause → State := fun s c => (s.signalDone id x).lateRecord x.ctx ⟨0, c, x.ptr, 0, 0, kindStore, 0, true⟩
    if x.bad then late s .page
    else if x.ptr.toNat % 8 ≠ 0 then late s .misalign
    else match s.xlateCtx x.ctx x.ptr needW with
      | (.fail c, s) => late s c
      | (.absent mal lvl, s) =>
        if x.req.isSome then s
        else
          let (r, s) := s.request ⟨20, none, 1, .signal id, x.ctx, [lo32 x.ptr, hi32 x.ptr], 0, 0, 0, 0, kindStore, mal, lvl, []⟩
          s.modFe (fun e => { e with signals := kmod e.signals id (fun y => { y with req := some r }) })
      | (.ok e size, s) =>
        if leafWb e then s
        else match s.place false e size x.ptr with
          | .mem f => (s.signalDone id x).homePut f (toBytes 8 x.val.toNat)
          | .wait => s
          | .mcheck _ => late s .mcheck
          | .control _ => late s .mcheck

/-- Every signal's store tried once a clk. -/
def State.signalsTry (s : State) : State := (s.fe.signals.map (fun x => x.1)).foldl (fun s id => s.signalTry id) s

/-- Whether a core lies in a context's set and the context's claim on it stands (R321, R422). -/
def State.inSet (s : State) (ctx core : Nat) : Bool :=
  (s.feCtx ctx).cset.testBit core && !(s.core core).withheld.contains ctx && decide ((s.die (coreDie core)).st = .up)

/-- Whether a kernel's team fits an empty core (R17, R18). -/
def Kernel.fits (k : Kernel) (size : Nat) : Bool := decide (k.groups * k.vregs ≤ 8192) && decide (size ≤ 2 ^ 20)

/-- Whether a core can serve a kernel of a context: for clusters the whole core cluster lies in its set (R20). -/
def State.cclIn (s : State) (ctx core : Nat) (k : Kernel) : Bool :=
  decide (k.tpc ≤ 1) || (cclCores (coreCcl core)).all (fun c => s.inSet ctx c)

/-- Whether a context has a candidate for a core that it does not own, or has work on one that it owns (R350). -/
def State.wants (s : State) (ctx core : Nat) : Bool :=
  s.inSet ctx core &&
  ((s.batches ctx).any (fun b =>
      (s.batchOf ctx b).all (fun t => (s.teamD t).restorable) && (!s.batchWhole (s.batchOf ctx b) || (cclCores (coreCcl core)).all (fun c => s.inSet ctx c))) ||
   s.fe.grids.any (fun g => decide (g.2.ctx = ctx) && decide (g.2.next < g.2.total) && g.2.kernel.fits g.2.kernel.scratch && s.cclIn ctx core g.2.kernel &&
      (s.takeAreas (gridPool g.1) g.2.pooln (16 * g.2.stksz) (g.2.offer * g.2.kernel.groups)).isSome) ||
   s.fe.nodes.any (fun n => decide (n.1 / 4096 = ctx) && (s.nodeForms n.2).isSome && n.2.kernel.fits n.2.alloc && s.cclIn ctx core n.2.kernel &&
      (s.takeAreas (nodePool ctx (n.1 % 4096)) n.2.pooln (16 * n.2.stksz) n.2.kernel.groups).isSome))

/-- The next context in turn that wants a core: ascending numbers after the owner's, wrapping round (R350); 0 with none. -/
def State.nextOwner (s : State) (core : Nat) : Nat :=
  let o := (s.core core).owner
  let cs := s.ctxs.map (fun c => c.1)
  (((cs.filter (fun c => decide (o < c))) ++ cs.filter (fun c => decide (c < o))).find? (fun c => s.wants c core)).getD 0

/-- Whether a team that uses clusters or the sequencer ties a core's cluster to its owner (R20). -/
def State.tied (s : State) (core : Nat) : Bool :=
  s.teams.any (fun t => (t.2.resident || t.2.successor) && decide (coreCcl t.2.core = coreCcl core) && (t.2.seqUsed || decide (1 < t.2.kernel.tpc)))

/-- Every team of a core, and of its whole cluster when it is tied, begins its save (R20, R351). -/
def State.vacate (s : State) (core : Nat) : State :=
  let cs := if s.tied core then cclCores (coreCcl core) else [core]
  (cs.flatMap (fun c => (s.teamsOn c).map (fun t => t.1))).foldl (fun s t => if (s.teamD t).saving then s else s.beginSave t) s

/-- A change of owner begins (R22, R380): the counters are latched and the teams are saved. -/
def State.beginChange (s : State) (core : Nat) : State :=
  if (s.core core).changing.isSome then s
  else
    let next := s.nextOwner core
    ((s.settleCore core).modCore core (fun c => { c with changing := some next })).vacate core

/-- Whether a core's change of owner can end now: it is empty, and no tied team stays on its cluster (R20, R22). -/
def State.coreEmpty (s : State) (core : Nat) : Bool := (s.teamsOn core).isEmpty && (s.onCore core).isEmpty && !s.tied core

/-- OWNER_CHANGE (R22, R350): an interval that has begun ends, or a core whose owner has no work on it passes at once. -/
def State.ownerChange (s : State) (core : Nat) : State :=
  if !s.coreEmpty core then s
  else match (s.core core).changing with
    | some next => s.passCore core (if (s.ctx next).isSome then next else 0)
    | none =>
      let next := s.nextOwner core
      if next = 0 ∨ s.wants (s.core core).owner core then s
      else ((s.settleCore core).modCore core (fun c => { c with changing := some next })).passCore core next

def execOwnerChange (core : Nat) (s : State) := runEvent s fun s => s.ownerChange core

/-- Whether a core's next owner change is due. -/
def State.ownerDue (s : State) (core : Nat) : Bool :=
  s.coreEmpty core && ((s.core core).changing.isSome || (decide (s.nextOwner core ≠ 0) && !s.wants (s.core core).owner core))

/-- The clk at which a turn's slice ends (R350), once its owner has issued. -/
def State.sliceEnds (s : State) (core : Nat) : Option Nat :=
  let c := s.core core
  let v := (s.ctxD c.owner).slice.toNat % 2 ^ 20
  match c.turnFirst with
  | some f => if v = 0 ∨ c.changing.isSome then none else some (f + max (v * s.pkg.freq - (f - c.turnStart)) (20 * s.pkg.freq))
  | none => none

/-- Whether a turn is over: its time is up and another context wants the core (R350). -/
def State.sliceDue (s : State) (core : Nat) : Bool :=
  (match s.sliceEnds core with
    | some t => decide (t ≤ s.pkg.clock)
    | none => false) && decide (s.nextOwner core ≠ 0)

/-- SLICE_END (R350): the owner's teams are saved and the core changes owner, with its whole cluster when it is tied. -/
def execSliceEnd (core : Nat) (s : State) := runEvent s fun s =>
  if s.sliceDue core then (if s.tied core then cclCores (coreCcl core) else [core]).foldl (fun s c => s.beginChange c) s else s

/-- A node's work discarded: its ring and bound records are gone and it is CLOSED (R317, R329). -/
def State.discardNode (s : State) (ctx n : Nat) : State :=
  let x := s.node ctx n
  let s := s.modFe (fun e => { e with nodes := kdel e.nodes (nodeKey ctx n) })
  let s := match x.bind (fun y => y.closer) with
    | some (q, l) => s.launchDone q l
    | none => s
  (s.teams.filter (fun t => decide (t.2.ctx = ctx) && t.2.bound.any (fun b => decide (b.node = n)))).foldl (fun s t =>
    if t.2.successor then s.freeTeam t.1 else s.modTeam t.1 (fun u => { u with bound := [] })) s

/-- The work of a context that some origin ports own is discarded (R329 steps 2 and 3, R349). -/
def State.discardWork (s : State) (ctx : Nat) (own : Nat → Bool) : State :=
  let s := (s.teams.filter (fun t => decide (t.2.ctx = ctx) && own t.2.origin)).foldl (fun s t => s.discardTeam t.1) s
  let s := (s.fe.nodes.filter (fun n => decide (n.1 / 4096 = ctx) && own n.2.origin)).foldl (fun s n => s.discardNode ctx (n.1 % 4096)) s
  let s := (s.fe.grids.filter (fun g => decide (g.2.ctx = ctx) && own g.2.origin)).foldl (fun s g =>
    (s.launchDone g.2.source g.1).modFe (fun e => { e with grids := kdel e.grids g.1 })) s
  let s := s.modFeCtx ctx (fun c => { c with devq := c.devq.filter (fun d => !own d.origin) })
  let s := (s.fe.signals.filter (fun x => decide (x.2.ctx = ctx) && own x.2.origin)).foldl (fun s x => s.signalDone x.1 x.2) s
  let s := s.modFe (fun e => { e with nodes := kmap e.nodes (fun k n =>
    if k / 4096 = ctx ∧ own n.closeOrigin ∧ n.closer.isSome then { n with sigptr := 0 } else n) })
  { s with dies := kmap s.dies (fun _ d => { d with watches := d.watches.filter (fun w => !(decide (w.2.ctx = ctx) && own w.2.origin)) }) }.reblock ctx

/-- QRESET := 1 (R315, R329). -/
def State.queueReset (s : State) (p : Nat) : State :=
  if (s.port p).state = 3 then s
  else (s.modPort p (fun x => { x with state := 3 })).discardWork (s.port p).ctx (fun o => decide (o = p))

/-- QUEUE_RESET_COMPLETE (R315, R329): what the work wrote is at its home. -/
def execQueueResetComplete (port : Nat) (s : State) := runEvent s fun s =>
  if (s.port port).state = 3 then
    (s.flushContext (s.port port).ctx).modPort port (fun x =>
      { x with state := 0, qhead := 0, qtail := 0, en := false, bad := 0, openLaunches := [] })
  else s

/-- The check of R314 after a tail write or an enable. -/
def QPort.full (p : QPort) : QPort := if p.state = 1 ∧ 2 ^ p.sizel < (p.qtail - p.qhead).toNat then { p with state := 2 } else p

/-- A tail write (R314, R315). -/
def QPort.tail (p : QPort) (v : Word) : QPort :=
  let n := (v - p.qtail).toNat
  if p.state = 3 then p
  else { p with qtail := if decide (1 ≤ n) && decide (n ≤ 2 ^ 31 - 1) then v else p.qtail }.full

/-- EN written (R315). -/
def QPort.enable (p : QPort) (en : Bool) : QPort :=
  if p.state = 3 then p
  else if en then (if p.state = 0 then { p with en := true, state := 1 }.full else p)
  else { p with en := false, state := 0 }

/-- The next event of a context's placement (R321): saved teams, then bound successors, then the others in order. -/
def State.placeDue (s : State) (ctx : Nat) : Option Instr :=
  if (s.batches ctx).any (fun b => (s.savedPlace ctx b).isSome) then some (.placeTeam ctx)
  else match s.teams.find? (fun t => decide (t.2.ctx = ctx) && t.2.successor && (s.successorPlace t.1).isSome) with
    | some t => some (.successorForm t.1)
    | none => match s.candNext ctx with
      | none => none
      | some c =>
        if !c.node then some (.placeTeam ctx)
        else match (s.node ctx c.id).bind (fun x => s.nodeForms x) with
          | some true => some (.gatherTimerExpiry ctx c.id)
          | some false => some (.nodeGather ctx c.id)
          | none => none

/-- The front end's next event (R316, R317, R321, R350, R89, R329). -/
def State.workDue (s : State) : Option Instr :=
  match s.fe.ports.find? (fun p => decide (p.2.state = 3)) with
  | some p => some (.queueResetComplete p.1)
  | none => match s.fe.grids.find? (fun g => s.gridOver g.1) with
    | some g => some (.gridComplete g.1)
    | none => match s.fe.nodes.find? (fun n => s.nodeOver (n.1 / 4096) (n.1 % 4096)) with
      | some n => some (.nodeDrained (n.1 / 4096) (n.1 % 4096))
      | none => match (if s.fe.nextParse ≤ s.pkg.clock then s.parsePick else none) with
        | some q => some (s.parseEvent q)
        | none => match s.ctxs.findSome? (fun c => s.placeDue c.1) with
          | some e => some e
          | none =>
            let cs := if s.ctxs.isEmpty && s.cores.all (fun c => c.2.changing.isNone) then [] else List.range 224
            match cs.find? s.sliceDue with
            | some c => some (.sliceEnd c)
            | none => (cs.find? s.ownerDue).map Instr.ownerChange

end Sys2Proof.Machine
end

