-- ==== Sys2Proof/Machine/WorkWords.lean ====
section
/-! DEFINITION. The work words, 0x1C0–0x1C4: LAUNCH, EMIT, CONT, NOTIFY and NODEQ (R322–R327). -/

namespace Sys2Proof.Machine

/-- The release actions of a scope begun for a word that waits for them. -/
def relFence (gid : Nat) (pc : Pc) (scope : Nat) (s : State) : State :=
  let (id, s) := s.fresh
  s.modGrp gid (fun g =>
    { g with fences := g.fences ++ [{ FenceRec.blank with id := id, pc := pc, scope := scope, rel := true, barrier := true }] })

/-- A word that performs the release actions of a scope before it acts (R322–R325, R345): the word as it waits, or none when they
are over. -/
def W.relWait (w : W) (scope : Nat) : Option W :=
  match w.g.fences.find? (fun f => f.barrier && decide (f.pc = w.pc)) with
  | some f => if f.rel then some { w with hold := some .fence } else none
  | none => some { w with hold := some .fence, holdFx := relFence w.gid w.pc scope }

/-- The word's own release is over and forgotten. -/
def W.relDone (w : W) : W := w.mod (fun g => { g with fences := g.fences.filter (fun f => !(f.barrier && decide (f.pc = w.pc))) })

/-- A word no rule gives a value: FREE (log 12). -/
def W.freeWord (w : W) : Word × W :=
  let b := (List.range 4).map (fun k => Config.freeByte (w.s.free + k))
  (BitVec.ofNat 32 (ofBytes b), { w with s := { w.s with free := w.s.free + 4 } })

/-- The result a suppressed word would have had in a stop's re-execution: FREE (R397, log 12). -/
def W.dryResult (w : W) (d : Opnd) : W := let (v, w) := w.freeWord; w.var (dstCells d 0 w.ex (fun _ => v)) w.clk false

/-- A record enters a context's device queue (R322). -/
def State.devEnter (s : State) (ctx : Nat) (r : DevRec) : State := s.modFeCtx ctx (fun c => { c with devq := c.devq ++ [r] })

/-- LAUNCH (R322): the record is checked as a load, read at its home after the release, and entered in the device queue. -/
def W.launch (w : W) (d a : Opnd) : W :=
  if w.ex.isEmpty then w
  else if w.dry then w.dryResult d
  else
    let q := w.s.reachG w.g.who 0 (w.g.rd64 0 a) 64 true true needR kindLoad
    let w := { w with s := q.2 }
    match q.1 with
    | .glob p _ _ flat =>
      match w.relWait 0 with
      | some w => w
      | none =>
        if 256 ≤ (w.s.feCtx w.g.ctx).devq.length then { w with hold := some .depEngine }
        else
          let w := w.relDone
          if w.s.bad flat 64 then w.fault (accFault 0 .mcheck p (flat % 2 ^ 52) .g kindLoad)
          else
            let n := w.pend [] none false
            { n.2 with s := n.2.s.devEnter w.g.ctx ⟨w.s.bytes flat 64, w.s.originOf w.gid, w.gid, n.1⟩ }
    | .ctl _ => w.fault (accFault 0 .mcheck (w.g.rd64 0 a) 0 .g kindLoad)
    | r => w.watchFault r

def execLaunch (h : Hdr) (d a : Opnd) (s : State) := runWord (.launch h d a) s fun w => w.launch d a

/-- The ENGINE trap of EMIT and CONT (R327, R335): one record for each failing lane, and no lane passes the word. -/
def W.workTrap (w : W) (lanes : List Nat) (code : Nat) : W :=
  { lanes.foldl (fun w l => w.fault ⟨l, .engine, 0, 0, 0, kindOther, 0x3000 + code, false⟩) w with stuck := true }

/-- What stands at a ring entry when the front end checks it (R323). -/
inductive RingAt where
  | ok (flat : Nat)
  | fail (c : Cause) (va : DWord)
  | ask (va : DWord) (mal : Bool) (lvl : Nat)
  | wait
  deriving DecidableEq, Repr

/-- One ring entry checked as a store of the context (R159, R323). -/
def State.ringAt (s : State) (g : Group) (ptr : DWord) : RingAt :=
  match (s.xlateCtx g.ctx ptr needW).1 with
  | .fail c => .fail c ptr
  | .absent mal lvl => if kget g.recReq (ptr.toNat / 2 ^ 16) = some 0 then .fail .page ptr else .ask ptr mal lvl
  | .ok e size =>
    if leafWb e then .wait
    else match s.place false e size ptr with
      | .mem f => .ok f
      | .wait => .wait
      | _ => .fail .mcheck ptr

/-- The requests for ring pages that are not there (R323). -/
def askRing (gid : Nat) (l : List RingAt) (s : State) : State :=
  l.foldl (fun s x =>
    match x with
    | .ask va mal lvl =>
      let g := s.grpD gid
      let page := va.toNat / 2 ^ 16
      if (kget g.recReq page).isSome then s
      else
        let (r, s) := s.request ⟨coreDie g.core, none, 1, .record gid page, g.ctx, [lo32 va, hi32 va], g.epc, g.rgncnt, ghOf gid, 0,
          kindStore, mal, lvl, []⟩
        s.modGrp gid (fun g => { g with recReq := kset g.recReq page r })
    | _ => s) s

/-- The bytes of a lane's record (R323, R324). -/
def Group.record (g : Group) (l : Nat) (b : Opnd) (rs : Nat) : List Byte :=
  (List.range (rs / 4)).flatMap (fun j => toBytes 4 (g.rdj l j b).toNat)

/-- The records of an EMIT written at their ring entries (R323). -/
def State.emitPut (s : State) (g : Group) (b : Opnd) (rs : Nat) (l : List (RingAt × Nat)) : State :=
  l.foldl (fun s z => match z.1 with
    | .ok f => s.homePut f (g.record z.2 b rs)
    | _ => s) s

/-- The ring address of the entry `k` places behind a node's head (R318, R323). -/
def Node.entry (x : Node) (k : Nat) : DWord := ptrOff x.ring ((x.rs * ((x.head + k) % 2 ^ x.kernel.cap) : Nat) : Int)

/-- EMIT (R323). -/
def W.emit (w : W) (a b : Opnd) (rs : Nat) : W :=
  let lanes := w.ex.filter (fun l => !w.g.isHelper l)
  match (if w.dry then none else lanes.head?) with
  | none => w
  | some first =>
    let n := (w.g.rd first a).toNat
    match w.s.node w.g.ctx n with
    | none => w.workTrap lanes 1
    | some x =>
      if x.state ≠ 1 then w.workTrap lanes 1
      else if x.rs ≠ rs then w.workTrap lanes 2
      else match w.relWait 0 with
        | some w => w
        | none =>
          let occ := x.times.length
          if 2 ^ x.kernel.cap < occ + lanes.length then { w with hold := some .depEngine }
          else
            let ats := (List.range lanes.length).map (fun k =>
              w.s.ringAt w.g (x.entry (occ + k)))
            match ats.find? (fun t => match t with | .fail _ _ => true | _ => false) with
            | some (.fail c va) =>
              { (w.relDone.mod (fun g => { g with recReq := [] })).fault ⟨first, c, va, 0, 0, kindStore, 0, false⟩ with stuck := true }
            | _ =>
              if ats.any (fun t => match t with | .ok _ => false | _ => true) then { w with hold := some .fault, holdFx := askRing w.gid ats }
              else
                let w := w.relDone.mod (fun g => { g with recReq := [] })
                { w with s := (w.s.emitPut w.g b rs (ats.zip lanes)).nodeAppend w.g.ctx n lanes.length }

def execEmit (h : Hdr) (a b : Opnd) (rs : RecSize) (s : State) := runWord (.emit h a b rs) s fun w => w.emit a b (rsBytes rs)

/-- The first check of CONT that fails, by its code of R327. -/
def State.contCheck (s : State) (tid n rs : Nat) : Option Nat :=
  let t := s.teamD tid
  match s.node t.ctx n with
  | none => some 1
  | some x =>
    if x.rs ≠ rs then some 2
    else if 1 < (((kget s.lclusters t.cluster).map (fun k => k.teams.length)).getD 1) then some 5
    else if t.bound.any (fun b => decide (b.node ≠ n)) then some 3
    else if x.kernel.tpc ≠ 1 ∨ x.kernel.acc ≠ t.kernel.acc ∨ t.tiles.any (fun y => decide (x.kernel.tiles ≤ y.1) && decide (y.2.state ≠ .unallocated)) ∨
        t.allocSize < x.kernel.scratch + 32 * x.kernel.groups * rs then some 4
    else none

/-- A record bound to a team (R324). -/
def State.bind (s : State) (tid n : Nat) (b : List Byte) : State := s.modTeam tid (fun t => { t with bound := t.bound ++ [⟨n, b⟩] })

/-- Every lane exits (R324). -/
def W.exitAll (w : W) : W :=
  (w.mod (fun g => { g with vpc := lanes32.map (fun _ => exitPc), aside := [] })).jump (lanes32.map (fun l => (l, exitPc)))

/-- CONT (R324): the record is bound when the release is over. -/
def W.cont (w : W) (a b : Opnd) (rs : Nat) : W :=
  if w.ex.isEmpty || w.dry then w
  else
    let n := (w.g.rd 0 a).toNat
    match w.s.contCheck w.g.tid n rs with
    | some c => w.workTrap [(lowestLane w.act).getD 0] c
    | none =>
      match w.relWait 0 with
      | some w => w
      | none => ({ w with s := w.s.bind w.g.tid n (w.g.record 0 b rs) }.relDone).exitAll

def execCont (h : Hdr) (a b : Opnd) (rs : RecSize) (s : State) := runWord (.cont h a b rs) s fun w => w.cont a b (rsBytes rs)

/-- A NOTIFY's status for a port (R325). -/
def State.notifyStatus (s : State) (ctx p : Nat) : Nat := if 1023 < p then 1 else if (s.port p).ctx ≠ ctx then 2 else 0

/-- The tail writes of some lanes, in order (R325). -/
def State.tails (s : State) (lanes : List Nat) (port : Nat → Nat) (v : Nat → Word) : State :=
  lanes.foldl (fun s l => s.modPort (port l) (fun p => p.tail (v l))) s

/-- NOTIFY (R325). -/
def W.notify (w : W) (d a b : Opnd) : W :=
  if w.ex.isEmpty then w
  else if w.dry then w.dryResult d
  else match w.relWait 5 with
    | some w => w
    | none =>
      let w := w.relDone
      let helps := fun l => !uniOf w.f && w.g.isHelper l
      let st := fun l => if helps l then 0 else w.s.notifyStatus w.g.ctx (w.g.rd l a).toNat
      let q := (w.s.tails (w.ex.filter (fun l => decide (st l = 0) && !helps l)) (fun l => (w.g.rd l a).toNat) (fun l => w.g.rd l b)).freeDue
      { w with s := q.2 }.var (dstCells d 0 w.ex (fun l => BitVec.ofNat 32 (st l))) q.1 false

def execNotify (h : Hdr) (d a b : Opnd) (s : State) := runWord (.notify h d a b) s fun w => w.notify d a b

/-- The word NODEQ reads (R326). -/
def State.nodeWord (s : State) (ctx n : Nat) : Word :=
  match s.node ctx n with
  | none => 0
  | some x => BitVec.ofNat 32 (field 30 2 x.state + field 29 1 (if x.blocked then 1 else 0) + field 0 17 x.times.length)

/-- NODEQ (R326): no earlier than 100 clk after issue. -/
def execNodeq (h : Hdr) (d a : Opnd) (s : State) := runWord (.nodeq h d a) s fun w =>
  { w with s := w.s.freeDue.2 }.var (dstCells d 0 w.ex (fun l => w.s.nodeWord w.g.ctx (w.g.rd l a).toNat)) (w.s.freeDue.1 + 99) false

end Sys2Proof.Machine
end

