-- ==== Sys2Proof/Machine/Slalom.lean ====
section
/-! DEFINITION. The Slalom sequencer, 0x1B0–0x1B5, and SLV_OP_COMMIT (chapter 13). -/

namespace Sys2Proof.Machine

/-- A 32-bit word of a table image (R288). -/
def tabW (tb : List Byte) (off : Nat) : Nat := ofBytes ((tb.drop off).take 4)
def tabS (tb : List Byte) : Nat := tabW tb 0 % 32
def tabFsal (tb : List Byte) : Bool := (tabW tb 0).testBit 8
def tabEmit (tb : List Byte) : Bool := (tabW tb 0).testBit 9
def tabP (tb : List Byte) : Nat := bitsOf (tabW tb 0) 12 4
def tabMaxrej (tb : List Byte) : Nat := bitsOf (tabW tb 0) 24 8
def tabSlot (tb : List Byte) (j : Nat) : Nat := bitsOf (ofBytes (tb.take 64)) (208 + 3 * j) 3
def tabEnode (tb : List Byte) : Nat := bitsOf (tabW tb 32) 0 16
def tabDnode (tb : List Byte) : Nat := bitsOf (tabW tb 32) 16 16
def tabK1 (tb : List Byte) : Nat := tabW tb 36
def tabK2 (tb : List Byte) : Nat := tabW tb 40
def tabSafety (tb : List Byte) : Nat := tabW tb 44
def tabFmin (tb : List Byte) : Nat := tabW tb 48
def tabFmax (tb : List Byte) : Nat := tabW tb 52
def tabEfloor (tb : List Byte) : Nat := tabW tb 56
def tabHmin (tb : List Byte) : Nat := tabW tb 60
def tabA (tb : List Byte) (i j : Nat) : Nat := tabW tb (64 + 64 * i + 4 * j)
def tabB (tb : List Byte) (j : Nat) : Nat := tabW tb (1088 + 4 * j)
def tabBh (tb : List Byte) (j : Nat) : Nat := tabW tb (1152 + 4 * j)
def tabC (tb : List Byte) (i : Nat) : Nat := tabW tb (1216 + 4 * i)

/-- FP32 tests on codes. -/
def fZero (c : Nat) : Bool := decide (c % 2 ^ 31 = 0)
def fFinite (c : Nat) : Bool := decide (bitsOf c 23 8 ≠ 255)
def fNeg (c : Nat) : Bool := c.testBit 31
def fNan (c : Nat) : Bool := (fp32.val c).isNan
/-- a < b and a ≤ b, false with a NaN. -/
def fLt (a b : Nat) : Bool := !fNan a && !fNan b && decide (cmpV (fp32.val a) (fp32.val b) = -1)
def fLe (a b : Nat) : Bool := !fNan a && !fNan b && decide (cmpV (fp32.val a) (fp32.val b) ≤ 0)
def fEq (a b : Nat) : Bool := !fNan a && !fNan b && decide (cmpV (fp32.val a) (fp32.val b) = 0)
def fAbs (a : Nat) : Nat := a % 2 ^ 31

/-- L(j) of R289: the last reader of stage j's evaluation. -/
def tabLive (tb : List Byte) (j : Nat) : Nat :=
  if !fZero (tabB tb j) || !fZero (tabBh tb j) then tabS tb
  else (List.range (tabS tb)).foldl (fun m i => if decide (j < i) && !fZero (tabA tb i j) then i else m) (j + 1)

/-- A well-formed table (R289). -/
def tableOk (tb : List Byte) : Bool :=
  let s := tabS tb
  let st := List.range s
  let pos := fun c => fFinite c && !fNeg c && !fZero c
  let nonneg := fun c => fFinite c && (fZero c || !fNeg c)
  decide (2 ≤ s) && decide (s ≤ 16) && decide (1 ≤ tabP tb) &&
  st.all (fun i => (List.range i).all (fun j => fFinite (tabA tb i j)) && fFinite (tabB tb i) && fFinite (tabBh tb i) && fFinite (tabC tb i)) &&
  fZero (tabC tb 0) && pos (tabSafety tb) && pos (tabFmin tb) && pos (tabEfloor tb) && fFinite (tabFmax tb) && fLe (tabFmin tb) (tabFmax tb) &&
  nonneg (tabK1 tb) && nonneg (tabK2 tb) && nonneg (tabHmin tb) &&
  (!tabFsal tb || (decide (tabC tb (s - 1) = 0x3F800000) && (List.range (s - 1)).all (fun j => decide (tabA tb (s - 1) j = tabB tb j)) &&
    fZero (tabB tb (s - 1)) && decide (tabSlot tb (s - 1) = tabSlot tb 0))) &&
  st.all (fun j => st.all (fun m => !(decide (j < m) && decide (m < tabLive tb j)) || decide (tabSlot tb m ≠ tabSlot tb j)))

/-- A field of a sample record, and the record with a field changed (R291). -/
def smp (r lo n : Nat) : Nat := bitsOf r lo n
def smpSet (r lo n v : Nat) : Nat := r - (bitsOf r lo n) <<< lo + field lo n v
def smpPhase (r : Nat) : Nat := smp r 581 3
def smpStage (r : Nat) : Nat := smp r 584 5
def smpSeq (r : Nat) : Nat := smp r 597 12
def smpSp (r : Nat) : Bool := r.testBit 612
def smpTable (r : Nat) : Nat := smp r 609 3
def smpLen (r : Nat) : Nat := smp r 512 25
def smpH (r : Nat) : Nat := smp r 352 32
def smpT (r : Nat) : Nat := smp r 288 32
def smpTend (r : Nat) : Nat := smp r 320 32
def smpPtr (r lo : Nat) : DWord := BitVec.ofNat 64 (smp r lo 64)
def smpYa (r : Nat) : DWord := smpPtr r 0
def smpYna (r : Nat) : DWord := smpPtr r 64
def smpZa (r : Nat) : DWord := smpPtr r 128
/-- The base of evaluation slot `k` (R291). -/
def smpSlot (r k : Nat) : DWord := ptrOff (smpPtr r 192) ((k * smp r 256 32 : Nat) : Int)

/-- A sequencer's table slot and sample record: an unlisted record is zero (R287). -/
def CCluster.table (k : CCluster) (n : Nat) : Option (List Byte) := kget k.slots n
def CCluster.sample (k : CCluster) (n : Nat) : Nat := (kget k.samples n).getD 0

/-- A status word (R294). -/
def slvStatus (r err code : Nat) : Word :=
  BitVec.ofNat 32 (field 20 12 (smpSeq r) + field 16 4 err + field 11 5 (smpStage r) + field 8 3 (smpPhase r) + field 5 3 (smp r 578 3) + field 0 3 code)

/-- What ends an operation early: a parked chunk, a failure with its code of R242, or the code STATE. -/
inductive SeqStop where
  | park (ptr : DWord) (absent : Option (Bool × Nat))
  | fail (code : Nat)
  | code (n : Nat)
  deriving DecidableEq, Repr

/-- Where an element of a buffer lies (R126, R159, R306): the leaf (0 on chip) and the flat address. -/
def State.seqAt (s : State) (o : SeqOp) (sp : Bool) (a : DWord) (n : Need) : Except SeqStop (Nat × Nat) × State :=
  let g := s.grpD o.gid
  if sp then
    (match s.reachK g (a.toNat % 2 ^ 56) 4 with
      | (.ok f, _) => (.ok (0, f), s)
      | (.error c, _) => (.error (.fail (errOf c)), s))
  else if o.bad then (.error (.fail 4), s)
  else match s.jobAt ⟨g.core, o.ctx, false⟩ a n with
    | (.at_ e f, s) => (.ok (e, f), s)
    | (.park p x, s) => (.error (.park p x), s)
    | (.fail c _, s) => (.error (.fail c), s)
    | (_, s) => (.error (.park a none), s)

/-- One FP32 element read through the die L2, or from a scratchpad (R305). -/
def State.seqRead (s : State) (o : SeqOp) (sp : Bool) (a : DWord) : Except SeqStop Nat × State :=
  match s.seqAt o sp a needR with
  | (.error e, s) => (.error e, s)
  | (.ok (_, f), s) =>
    if sp then (.ok (s.num f 4), s)
    else
      let d := coreDie (s.grpD o.gid).core
      if (upFrom f 4).any (fun x => (s.l2Byte d x).isNone && s.bad x 1) then (.error (.fail 5), s)
      else (.ok (ofBytes (s.readL2 d f 4)), s)

/-- The elements of a buffer, in order. -/
def State.seqBuf (s : State) (o : SeqOp) (sp : Bool) (base : DWord) : Nat → Nat → Except SeqStop (List Nat) × State
  | _, 0 => (.ok [], s)
  | e, n + 1 =>
    match s.seqRead o sp (ptrOff base ((4 * e : Nat) : Int)) with
    | (.error x, s) => (.error x, s)
    | (.ok v, s) => match s.seqBuf o sp base (e + 1) n with
      | (.error x, s) => (.error x, s)
      | (.ok l, s) => (.ok (v :: l), s)

/-- Several buffers. -/
def State.seqBufs (s : State) (o : SeqOp) (sp : Bool) (len : Nat) : List DWord → Except SeqStop (List (List Nat)) × State
  | [] => (.ok [], s)
  | b :: t =>
    match s.seqBuf o sp b 0 len with
    | (.error x, s) => (.error x, s)
    | (.ok l, s) => match s.seqBufs o sp len t with
      | (.error x, s) => (.error x, s)
      | (.ok r, s) => (.ok (l :: r), s)

/-- The places of a buffer that is to be written (R306). -/
def State.seqPlaces (s : State) (o : SeqOp) (sp : Bool) (base : DWord) : Nat → Nat → Except SeqStop (List (Nat × Nat)) × State
  | _, 0 => (.ok [], s)
  | e, n + 1 =>
    match s.seqAt o sp (ptrOff base ((4 * e : Nat) : Int)) needW with
    | (.error x, s) => (.error x, s)
    | (.ok p, s) => match s.seqPlaces o sp base (e + 1) n with
      | (.error x, s) => (.error x, s)
      | (.ok l, s) => (.ok (p :: l), s)

/-- Elements written at their places: through the die L2, or in a scratchpad (R305). -/
def State.seqWrite (s : State) (o : SeqOp) (sp : Bool) (ps : List (Nat × Nat)) (vs : List Nat) : State :=
  (ps.zip vs).foldl (fun s x =>
    if sp then s.put x.1.2 (toBytes 4 x.2) else s.writeL2 (coreDie (s.grpD o.gid).core) o.ctx x.1.1 x.1.2 (toBytes 4 x.2)) s

/-- A buffer that a failed operation was writing (R306): every element it could reach is FREE (log 12). -/
def State.seqSpoil (s : State) (o : SeqOp) (sp : Bool) (base : DWord) (len : Nat) : State :=
  (List.range len).foldl (fun s e =>
    match (s.seqAt o sp (ptrOff base ((4 * e : Nat) : Int)) needW).1 with
    | .ok p =>
      let v := ofBytes ((List.range 4).map (fun k => Config.freeByte (s.free + k)))
      { s.seqWrite o sp [p] [v] with free := s.free + 4 }
    | .error _ => s) s

/-- The J of R297. -/
def stageJ (tb : List Byte) (i : Nat) : List Nat := (List.range i).filter (fun j => !fZero (tabA tb i j))

/-- SLVSTAGE's work (R297): the prepared record, the stage input and the stage time. -/
def State.seqStage (s : State) (o : SeqOp) (r : Nat) (tb : List Byte) : Except SeqStop (Nat × DWord × Nat) × State :=
  let i := smpStage r
  let js := stageJ tb i
  let sp := smpSp r
  let h := smpH r
  let ts := fp32.fma .rn false false (tabC tb i) h (smpT r)
  let r1 := smpSet r 581 3 2
  if !(js.all (fun j => (smp r 624 16).testBit j)) then (.error (.code 3), s)
  else if js.isEmpty then (.ok (r1, smpYa r, ts), s)
  else
    let len := smpLen r
    match s.seqBufs o sp len (smpYa r :: js.map (fun j => smpSlot r (tabSlot tb j))) with
    | (.error x, s) => (.error x, s)
    | (.ok bs, s) =>
      match s.seqPlaces o sp (smpZa r) 0 len with
      | (.error x, s) => (.error x, s)
      | (.ok ps, s) =>
        let y := bs.headD []
        let ks := bs.drop 1
        let z := (List.range len).map (fun e =>
          let w := (js.zip ks).foldl (fun w x => fp32.fma .rn false false (tabA tb i x.1) (x.2.getD e 0) w) 0
          fp32.fma .rn false false h w (y.getD e 0))
        (.ok (r1, smpZa r, ts), s.seqWrite o sp ps z)

/-- The tree of R123 over 64 leaves, six levels (R299). -/
def tree64 (l : List Nat) : Nat :=
  let f := fun a b => fp32.add .rn a b
  ((fredLevel f (fredLevel f (fredLevel f (fredLevel f (fredLevel f (fredLevel f l)))))).headD 0)

/-- The sum of R299: chunks of 64 leaves, padded with +0, added in order. -/
def seqSum : Nat → List Nat → Nat → Nat
  | 0, _, tot => tot
  | n + 1, l, tot => let c := l.take 64; seqSum n (l.drop 64) (fp32.add .rn tot (tree64 (c ++ List.replicate (64 - c.length) 0)))

/-- One element of R299: the candidate and its squared scaled error. -/
def stepElem (tb : List Byte) (r : Nat) (ks : List (Nat × Nat)) (y : Nat) : Nat × Nat :=
  let h := smpH r
  let comb := fun (c : Nat → Nat) => ks.foldl (fun w x => if fZero (c x.1) then w else fp32.fma .rn false false (c x.1) x.2 w) 0
  let yn := fp32.fma .rn false false h (comb (tabB tb)) y
  let yh := fp32.fma .rn false false h (comb (tabBh tb)) y
  let d := fp32.add .rn yn (fmod false true yh)
  let sc := fp32.add .rn (smp r 384 32) (fp32.mul .rn (smp r 416 32) (fminMax true false (fAbs y) (fAbs yn)))
  let q := fp32.div .rn d sc
  (yn, fp32.mul .rn q q)

/-- The step factor and NF (R300). -/
def stepFactor (tb : List Byte) (r err : Nat) : Nat × Bool :=
  if fNan err then (tabFmin tb, true)
  else
    let one := 0x3F800000
    let f1 := if fZero (tabK1 tb) then one else fex2Val .rn (fp32.mul .rn (fmod false true (tabK1 tb)) (flg2Val .rn err))
    let f2 := if fZero (tabK2 tb) then one else fex2Val .rn (fp32.mul .rn (tabK2 tb) (flg2Val .rn (smp r 448 32)))
    let fac := fp32.mul .rn (fp32.mul .rn (tabSafety tb) f1) f2
    (fminMax false false (tabFmax tb) (fminMax true false (tabFmin tb) fac), false)

/-- The end clamp of R301: H and LAST. -/
def endClamp (r hn : Nat) : Nat :=
  let rem := fp32.add .rn (smpTend r) (fmod false true (smpT r))
  if fLe (fAbs rem) (fAbs hn) then smpSet (smpSet r 352 32 rem) 577 1 1 else smpSet (smpSet r 352 32 hn) 577 1 0

/-- The decision of R301 on a record, given the error. -/
def stepDecide (tb : List Byte) (r err : Nat) : Nat :=
  let (fac, nf) := stepFactor tb r err
  let h := smpH r
  let hn := fp32.mul .rn h fac
  let r := if nf then smpSet r 576 1 1 else r
  let next := fun r hn keep =>
    let r := endClamp r hn
    let r := if keep then smpSet (smpSet r 584 5 1) 624 16 1 else smpSet (smpSet r 584 5 0) 624 16 0
    smpSet r 581 3 1
  let r :=
    if fLe err 0x3F800000 then
      let ya := smp r 0 64
      let r := smpSet (smpSet r 0 64 (smp r 64 64)) 64 64 ya
      let r := smpSet r 448 32 (fminMax true false err (tabEfloor tb))
      let r := smpSet (smpSet r 544 16 (satInc (smp r 544 16) 0xFFFF)) 589 8 0
      let tn := fp32.add .rn (smpT r) h
      let beyond := if fNeg h then fLt tn (smpTend r) else fLt (smpTend r) tn
      if r.testBit 577 || fEq tn (smpTend r) || beyond then
        smpSet (smpSet (smpSet r 288 32 (smpTend r)) 578 3 3) 581 3 4
      else next (smpSet (smpSet r 288 32 tn) 578 3 1) hn (tabFsal tb)
    else
      let r := smpSet r 560 16 (satInc (smp r 560 16) 0xFFFF)
      let c := satInc (smp r 589 8) 255
      let r := smpSet r 589 8 c
      if fLt (fAbs hn) (tabHmin tb) || (decide (tabMaxrej tb ≠ 0) && decide (tabMaxrej tb ≤ c)) then smpSet (smpSet r 578 3 4) 581 3 5
      else next (smpSet r 578 3 2) hn ((List.range (tabS tb)).all (fun j => decide (j = 0) || decide (tabSlot tb j ≠ tabSlot tb 0)))
  smpSet r 480 32 err

/-- SLVSTEP's work (R299–R301): the decided record. -/
def State.seqStep (s : State) (o : SeqOp) (r : Nat) (tb : List Byte) : Except SeqStop Nat × State :=
  let sp := smpSp r
  let len := smpLen r
  let used := (List.range (tabS tb)).filter (fun j => !fZero (tabB tb j) || !fZero (tabBh tb j))
  match s.seqBufs o sp len (smpYa r :: used.map (fun j => smpSlot r (tabSlot tb j))) with
  | (.error x, s) => (.error x, s)
  | (.ok bs, s) =>
    match s.seqPlaces o sp (smpYna r) 0 len with
    | (.error x, s) => (.error x, s)
    | (.ok ps, s) =>
      let y := bs.headD []
      let ks := used.zip (bs.drop 1)
      let es := (List.range len).map (fun e => stepElem tb r (ks.map (fun k => (k.1, k.2.getD e 0))) (y.getD e 0))
      let tot := seqSum ((len + 63) / 64) (es.map (fun x => x.2)) 0
      let err := fsqrtVal .rn (fp32.div .rn tot (fp32.ofInt .rn false len))
      (.ok (stepDecide tb r err), s.seqWrite o sp ps (es.map (fun x => x.1)))

/-- The evaluation record of R302. -/
def evalRecord (r sample : Nat) (tb : List Byte) (zp : DWord) (ts : Nat) : List Byte :=
  let done := decide (smpPhase r ≠ 2)
  toBytes 32 (field 192 64 (if done then 0 else (smpSlot r (tabSlot tb (smpStage r))).toNat) +
    field 128 64 (if done then (smpYa r).toNat else zp.toNat) + field 96 32 (if done then smpT r else ts) + field 64 32 (smpH r) +
    field 52 12 (smpSeq r) + field 47 5 (if done then tabS tb else smpStage r) + field 44 3 (smp r 578 3) +
    field 43 1 (if smpSp r then 1 else 0) + field 12 3 (smpTable r) + field 0 12 sample)

/-- The outcome of an operation that ends: its code and ERR, the sample record it leaves, and what it emits. -/
structure SeqOut where
  code : Nat
  err : Nat
  rec_ : Nat
  emit : Option (Nat × List Byte)

/-- An operation that returns OK: SEQ, LASTOP and LSTAT (R293), and the record it emits (R302). -/
def seqOk (r sample lastop : Nat) (tb : List Byte) (emits : Bool) (zp : DWord) (ts : Nat) : SeqOut :=
  let r := smpSet (smpSet r 597 12 (smpSeq r + 1)) 622 2 lastop
  let r := smpSet r 640 32 (slvStatus r 0 0).toNat
  { code := 0, err := 0, rec_ := r,
    emit := if emits && tabEmit tb then some (if smpPhase r = 2 then tabEnode tb else tabDnode tb, evalRecord r sample tb zp ts) else none }

/-- The kind LASTOP names for an operation (R291): 1 SLVSTAGE, 2 SLVPUT, 3 SLVSTEP. -/
def lastOf (kind : Nat) : Nat := kind - 1

/-- An operation stopped early: parked, or ended with FAULT, its destination buffer spoiled (R306), or with STATE. -/
def State.seqStopped (s : State) (o : SeqOp) (r : Nat) (spoil : List DWord) (x : SeqStop) : Except (DWord × Option (Bool × Nat)) SeqOut × State :=
  match x with
  | .park p a => (.error (p, a), s)
  | .fail c => (.ok ⟨5, c, r, none⟩, spoil.foldl (fun s b => s.seqSpoil o (smpSp r) b (smpLen r)) s)
  | .code n => (.ok ⟨n, 0, r, none⟩, s)

/-- SLVSTAGE, SLVPUT or SLVSTEP on a sample (R292, R293, R297–R301). -/
def State.seqSample (s : State) (o : SeqOp) (k : CCluster) : Except (DWord × Option (Bool × Nat)) SeqOut × State :=
  let r := k.sample o.a
  let tb := (k.table (smpTable r)).getD []
  let n := o.b % 4096
  let out : Nat → SeqOut := fun c => ⟨c, 0, r, none⟩
  if n ≠ smpSeq r then
    (if n = (smpSeq r + 4095) % 4096 ∧ smp r 622 2 = lastOf o.kind then (.ok (out 1), s) else (.ok (out 2), s))
  else match o.kind, smpPhase r with
    | 2, 1 =>
      (match s.seqStage o r tb with
        | (.error x, s) => s.seqStopped o r [smpZa r] x
        | (.ok (r1, zp, ts), s) => (.ok (seqOk r1 o.a 1 tb true zp ts), s))
    | 3, 2 =>
      let st := smpStage r
      let r1 := smpSet (smpSet r 624 16 (smp r 624 16 ||| 2 ^ st)) 584 5 (st + 1)
      let r1 := smpSet r1 581 3 (if st + 1 = tabS tb then 3 else 1)
      (.ok (seqOk r1 o.a 2 tb false 0 0), s)
    | 4, 3 =>
      (match s.seqStep o r tb with
        | (.error x, s) => s.seqStopped o r [smpYna r] x
        | (.ok r1, s) =>
          if tabEmit tb && decide (smpPhase r1 = 1) then
            (match s.seqStage o r1 tb with
              | (.error x, s) => s.seqStopped o r [smpYna r, smpZa r] x
              | (.ok (r2, zp, ts), s) => (.ok (seqOk r2 o.a 3 tb true zp ts), s))
          else (.ok (seqOk r1 o.a 3 tb true 0 0), s))
    | _, _ => (.ok (out 3), s)

/-- The bytes of an image, one by one through the die L2 (R296). -/
def State.seqImage (s : State) (o : SeqOp) (a : DWord) : Nat → Except SeqStop (List Byte) × State
  | 0 => (.ok [], s)
  | n + 1 =>
    match (if o.bad then (.error (.fail 4), s) else match s.jobRead ⟨(s.grpD o.gid).core, o.ctx, false⟩ a 1 true with
      | (.ok b, s) => (.ok b, s)
      | (.park p x, s) => (.error (.park p x), s)
      | (.fail c _, s) => (.error (.fail c), s)
      | (_, s) => (.error (.park a none), s) : Except SeqStop (List Byte) × State) with
    | (.error x, s) => (.error x, s)
    | (.ok b, s) => match s.seqImage o (ptrOff a 1) n with
      | (.error x, s) => (.error x, s)
      | (.ok l, s) => (.ok (b ++ l), s)

/-- Whether a sample image may be taken (R296). -/
def initOk (k : CCluster) (r : Nat) : Bool :=
  let sp := smpSp r
  let addr := fun lo => decide (smp r lo 8 = 0) && (!sp || decide (smp r (lo + 22) 42 = 0))
  (k.table (smpTable r)).isSome && decide (1 ≤ smpLen r) && decide (smpLen r ≤ 2 ^ 24) && addr 0 && addr 64 && addr 128 && addr 192 &&
  decide (smp r 256 8 = 0) && decide (4 * smpLen r ≤ smp r 256 32) && fFinite (smpT r) && fFinite (smpTend r) && fFinite (smpH r) &&
  fFinite (smp r 384 32) && fFinite (smp r 416 32) && fLt 0 (smp r 384 32) && !fLt (smp r 416 32) 0 && !fZero (smpH r) &&
  !fEq (smpTend r) (smpT r) && decide (fNeg (smpH r) = fNeg (fp32.add .rn (smpTend r) (fmod false true (smpT r))))

/-- The record SLVINIT makes of an image (R296). -/
def initRecord (img : Nat) : Nat :=
  let r := smp img 0 480 + field 512 25 (smp img 512 25) + field 609 4 (smp img 609 4)
  let r := smpSet (smpSet r 448 32 0x3F800000) 581 3 1
  endClamp r (smpH r)

/-- A sequencer with a slot or a sample changed: a zero record is not listed. -/
def CCluster.setSample (k : CCluster) (n r : Nat) : CCluster := { k with samples := if r = 0 then kdel k.samples n else kset k.samples n r }

/-- An operation performed (R295–R303): its result for D and the sequencer it leaves, with what it emits; or the chunk that parks
it. -/
def State.seqPerform (s : State) (o : SeqOp) (cl : Nat) : Except (DWord × Option (Bool × Nat)) (Word × Option (Nat × List Byte) × CCluster) × State :=
  let k := s.ccl cl
  let status : Nat → Nat → Nat → Word := slvStatus
  match o.kind with
  | 0 =>
    if 7 < o.b then (.ok (status 0 0 7, none, k), s)
    else if o.ptr.toNat % 128 ≠ 0 then (.ok (status 0 0 4, none, k), s)
    else match s.seqImage o o.ptr 1280 with
      | (.error (.park p a), s) => (.error (p, a), s)
      | (.error (.fail c), s) => (.ok (status 0 c 5, none, k), s)
      | (.error (.code n), s) => (.ok (status 0 0 n, none, k), s)
      | (.ok b, s) => if tableOk b then (.ok (status 0 0 0, none, { k with slots := kset k.slots o.b b }), s) else (.ok (status 0 0 4, none, k), s)
  | 1 =>
    let r := k.sample o.b
    if 4095 < o.b then (.ok (status 0 0 7, none, k), s)
    else match s.seqImage o o.ptr 128 with
      | (.error (.park p a), s) => (.error (p, a), s)
      | (.error (.fail c), s) => (.ok (status r c 5, none, k), s)
      | (.error (.code n), s) => (.ok (status r 0 n, none, k), s)
      | (.ok b, s) =>
        let img := ofBytes b
        if initOk k img then let r1 := initRecord img; (.ok (status r1 0 0, none, k.setSample o.b r1), s)
        else (.ok (status r 0 4, none, k), s)
  | 5 =>
    if o.b.testBit 5 then
      let i := bitsOf o.b 6 9
      let v := if 7 < o.a ∨ 319 < i then 0 else ((k.table o.a).map (fun t => tabW t (4 * i))).getD 0
      (.ok (BitVec.ofNat 32 v, none, k), s)
    else (.ok (BitVec.ofNat 32 (if 4095 < o.a then 0 else smp (k.sample o.a) (32 * (o.b % 32)) 32), none, k), s)
  | _ =>
    if 4095 < o.a then (.ok (status 0 0 7, none, k), s)
    else match s.seqSample o k with
      | (.error p, s) => (.error p, s)
      | (.ok x, s) =>
        let r := k.sample o.a
        match x.emit with
        | some (n, b) =>
          if (s.contCheck o.tid n 32).isSome then (.ok (status r 0 6, none, k), s)
          else (.ok (status x.rec_ 0 0, some (n, b), k.setSample o.a x.rec_), s)
        | none =>
          let d := if x.code = 1 then BitVec.ofNat 32 (smp r 640 32 / 8 * 8 + 1) else status x.rec_ x.err x.code
          (.ok (d, none, k.setSample o.a x.rec_), s)

/-- Whether two operations act on one table slot or on one sample (R304). -/
def SeqOp.same (a b : SeqOp) : Bool :=
  let key : SeqOp → Nat := fun o => if o.kind = 0 then 8192 + o.b else if o.kind = 1 then o.b else if o.kind = 5 ∧ o.b.testBit 5 then 8192 + o.a else o.a
  decide (key a = key b)

/-- The operation that may end next (R304): due, not parked, first of its sample or slot, its group's earlier words done when it
would end the group (R302). -/
def State.seqNext (s : State) (cl : Nat) : Option SeqOp :=
  let rec go : List SeqOp → List SeqOp → Option SeqOp
    | [], _ => none
    | o :: t, before =>
      let g := s.grpD o.gid
      let ready := decide (o.due ≤ s.pkg.clock) && o.req.isNone && before.all (fun x => !x.same o) &&
        (decide (g.wait ≠ .engine) || (s.atoms.all (fun a => decide (a.2.gid ≠ o.gid)) && g.pends.all (fun p => decide (o.pend ≤ p.id)) &&
          (s.core g.core).sideLog.all (fun e => decide (e.ctx ≠ o.ctx))))
      if ready then some o else go t (before ++ [o])
  go (s.ccl cl).seqQ []

/-- The release and the end of a group whose operation emitted (R302, R324). -/
def State.seqEnd (s : State) (o : SeqOp) (n : Nat) (b : List Byte) : State :=
  let g := s.grpD o.gid
  let s := s.bind o.tid n b
  let s := s.writeBackL1 g.core
  let s := (s.dirtyLines (coreDie g.core) o.ctx).foldl (fun s l => s.flushL2Line (coreDie g.core) l) s
  (s.modGrp o.gid (fun g => { g with vpc := lanes32.map (fun _ => exitPc), aside := [] })).retireGroup o.gid

/-- An operation parked on a page that is absent or write-blocked (R174, R306). -/
def State.seqPark (s : State) (cl : Nat) (o : SeqOp) (p : DWord) (x : Bool × Nat) : State :=
  let q := s.request ⟨coreDie (s.grpD o.gid).core, none, 1, .seqOp cl o.pend, o.ctx, [lo32 p, hi32 p], 0, 0, 0, 0, kindOther, x.1, x.2, []⟩
  q.2.modCcl cl (fun k => { k with seqQ := k.seqQ.map (fun x => if x.pend = o.pend then { x with req := some q.1 } else x) })

/-- An operation that ends: its record and queue entry, its result, and the end of a group whose record is bound (R293, R302). -/
def State.seqDone (s : State) (cl : Nat) (o : SeqOp) (d : Word) (emit : Option (Nat × List Byte)) (k : CCluster) : State :=
  let s := s.modCcl cl (fun _ => { k with seqQ := k.seqQ.filter (fun x => decide (x.pend ≠ o.pend)) })
  let s := (s.answer o.gid o.pend d).modGrp o.gid (fun g => { g with wait := if g.wait = .engine then .none else g.wait })
  match emit with
  | some (n, b) => s.seqEnd o n b
  | none => s

/-- SLV_OP_COMMIT (R293, R302, R304, R306): an operation ends, or is parked on a page that is absent or write-blocked. -/
def State.seqCommit (s : State) (cl : Nat) : State :=
  match s.seqNext cl with
  | none => s
  | some o =>
    match s.seqPerform o cl with
    | (.error (p, some x), s1) => s1.seqPark cl o p x
    | (.error (_, none), _) => s.modCcl cl (fun k => { k with seqQ := k.seqQ.map (fun x => if x.pend = o.pend then { x with due := s.pkg.clock + 1 } else x) })
    | (.ok (d, emit, k), s1) => s1.seqDone cl o d emit k

def execSlvOpCommit (cluster : Nat) (s : State) := runEvent s fun s => s.seqCommit cluster

/-- Whether an operation on a sample may end its group (R302): its table asks for records. -/
def CCluster.emits (k : CCluster) (kind a : Nat) : Bool :=
  (decide (kind = 2) || decide (kind = 4)) && (match k.table (smpTable (k.sample a)) with
    | some t => tabEmit t
    | none => false)

/-- An operation enters its cluster's queue (R295), and its team has used the sequencer (R307). -/
def State.seqEnter (s : State) (cl : Nat) (o : SeqOp) : State :=
  (s.modTeam o.tid (fun t => { t with seqUsed := true })).modCcl cl (fun k => { k with seqCtx := o.ctx, seqQ := k.seqQ ++ [o] })

/-- A sequencer word (R295): the operation enters the queue of 64; a word that may end its group waits for its operation. -/
def W.slv (w : W) (kind : Nat) (d : Opnd) (ptr : DWord) (a b : Nat) : W :=
  let cl := coreCcl w.g.core
  if w.ex.isEmpty then w
  else if w.dry then
    (if kind = 5 then
      match w.s.seqPerform ⟨w.gid, 0, w.pc, 0, 5, w.g.ctx, w.g.tid, 0, a, b, none, false, 0⟩ cl with
      | (.ok (v, _, _), _) => w.var (dstCells d 0 w.ex (fun _ => v)) w.clk false
      | _ => w
    else w.dryResult d)
  else if 64 ≤ (w.s.ccl cl).seqQ.length then { w with hold := some .depEngine }
  else
    let q := w.pend [] none false
    let o : SeqOp := ⟨w.gid, q.1, w.pc, w.act, kind, w.g.ctx, w.g.tid, ptr, a, b, none, false, q.2.s.freeDue.1⟩
    let w : W := { q.2 with s := q.2.s.freeDue.2.seqEnter cl o }
    if (w.s.ccl cl).emits kind a then w.wait .engine else w

def execSlvcfg (h : Hdr) (d a b : Opnd) (s : State) := runWord (.slvcfg h d a b) s fun w => w.slv 0 d (w.g.rd64 0 a) 0 (w.g.rd 0 b).toNat
def execSlvinit (h : Hdr) (d a b : Opnd) (s : State) := runWord (.slvinit h d a b) s fun w => w.slv 1 d (w.g.rd64 0 a) 0 (w.g.rd 0 b).toNat
def execSlvstage (h : Hdr) (d a b : Opnd) (s : State) := runWord (.slvstage h d a b) s fun w => w.slv 2 d 0 (w.g.rd 0 a).toNat (w.g.rd 0 b).toNat
def execSlvput (h : Hdr) (d a b : Opnd) (s : State) := runWord (.slvput h d a b) s fun w => w.slv 3 d 0 (w.g.rd 0 a).toNat (w.g.rd 0 b).toNat
def execSlvstep (h : Hdr) (d a b : Opnd) (s : State) := runWord (.slvstep h d a b) s fun w => w.slv 4 d 0 (w.g.rd 0 a).toNat (w.g.rd 0 b).toNat
def execSlvstat (h : Hdr) (d a b : Opnd) (s : State) := runWord (.slvstat h d a b) s fun w => w.slv 5 d 0 (w.g.rd 0 a).toNat (w.g.rd 0 b).toNat

end Sys2Proof.Machine
end

