-- ==== Sys2Proof/Machine/Traps.lean ====
section
/-! DEFINITION. What the machine does to a group between its words (chapter 15 and R40, R47, R85, R91, R95, R165): REGISTER_COMPLETE,
REGION_RESTART, TRAP_ENTRY, SLEEP_END, STACK_SPILL, STACK_FILL, ILLEGAL_WORD_KILL; RDSYS and SYSCALL; and TRET with the verdicts on
requests (R345, R346). -/

namespace Sys2Proof.Machine

/-- The cause of a wait on a register that a word with an opcode writes (R381). -/
def depCause (op : Nat) : SlotCause :=
  if (0x160 ≤ op ∧ op ≤ 0x16C) ∨ (0x1A0 ≤ op ∧ op ≤ 0x1A6) ∨ (0x1B0 ≤ op ∧ op ≤ 0x1B5) ∨ (0x1C0 ≤ op ∧ op ≤ 0x1C4) ∨ (0x1D4 ≤ op ∧ op ≤ 0x1DD)
  then .depEngine else .depMem

/-- A word that waits until no register of its group is pending (R345, R396): charged to the oldest (R381). -/
def W.quiet (w : W) : Option W :=
  match w.g.pends.head? with
  | some p => some { w with hold := some (depCause p.op), holdPc := some p.pc }
  | none => none

/-- Register cells set at once, closing the windows open on them (R38, R40). -/
def Group.putCells (g : Group) (l : List (Nat × Word)) : Group :=
  let ks := l.map (fun c => c.1)
  { g with regs := csets 0 g.regs l, windows := g.windows.map (fun w => { w with cells := w.cells.filter (fun c => !ks.contains c.1) }) }

/-- The signature items of a completed register block (R396): registers below the predicates. -/
def sigItems (p : Pend) : Word :=
  match p.sig with
  | none => 0
  | some q => (p.cells.filter (fun c => decide (c.1 / 32 < 640))).foldl (fun x c =>
      x ^^^ sigItem q.toNat 0 (c.1 % 32) (c.1 / 32 - p.base) c.2.toNat) 0

/-- The first scoreboard entry that may complete now. -/
def Group.dueP (g : Group) (clk : Nat) : Option Pend :=
  g.pends.find? (fun p => match p.due with
    | some t => decide (t ≤ clk)
    | none => false)

/-- REGISTER_COMPLETE (R40, R396): a variable-latency word's registers take their values. -/
def execRegisterComplete (gid : Nat) (s : State) := runEvent s fun s =>
  match s.grp gid with
  | none => s
  | some g =>
    match g.dueP s.pkg.clock with
    | none => s
    | some p => (s.modGrp gid (fun g =>
        { g.putCells p.cells with pends := g.pends.filter (fun q => decide (q.id ≠ p.id)), rsig := g.rsig ^^^ sigItems p })).reap gid

/-- REGION_RESTART (R95): once no register is pending. -/
def execRegionRestart (gid : Nat) (s : State) := runEvent s fun s =>
  match s.grp gid with
  | none => s
  | some g => if g.restart && g.pends.isEmpty then s.modGrp gid (fun g => g.restartRegion s.pkg.clock g.waitPc) else s

/-- Whether a group stands where an asynchronous trap can be delivered (R336). -/
def Group.asyncOk (g : Group) : Bool :=
  !g.asyncs.isEmpty && decide (g.level = .user) && !g.restart && g.trap.isNone && g.issuePc.isSome &&
  (match g.wait with
    | .none => true
    | .sleep _ => true
    | .barrier _ _ _ => true
    | .watch _ _ => true
    | _ => false)

/-- A group's wait abandoned for an asynchronous trap (R336): a barrier's arrival stands, other words are issued again. -/
def State.abandonWait (s : State) (gid : Nat) : State :=
  match (s.grpD gid).wait with
  | .barrier _ _ _ => s.modGrp gid (fun g => { g with wait := .none, wakeAt := none })
  | .watch _ _ => (s.watchDrop gid).modGrp gid Group.unwait
  | .sleep _ => s.modGrp gid Group.unwait
  | _ => s

/-- Whether a trap entry of a group is due (R336, R337). -/
def State.trapDue (s : State) (g : Group) : Bool :=
  (match g.trap with
    | some t => !t.roll || g.pends.isEmpty
    | none => false) || (g.asyncOk && !s.halted g.ctx)

/-- TRAP_ENTRY (R336, R337): a trap that has waited for pending registers or for a verdict, or an asynchronous one. -/
def State.trapEntry (s : State) (gid : Nat) : State :=
  match s.grp gid with
  | none => s
  | some g =>
    match g.trap with
    | some t => if !t.roll || g.pends.isEmpty then s.enterTrap gid t else s
    | none =>
      if g.asyncOk && !s.halted g.ctx then
        match g.asyncs with
        | [] => s
        | f :: t =>
          let s := (s.modGrp gid (fun g => { g with asyncs := t })).abandonWait gid
          let g := s.grpD gid
          s.enterTrap gid ⟨false, g.issuePc.getD exitPc, [{ f with lane := (lowestLane g.live).getD 0 }]⟩
      else s

def execTrapEntry (gid : Nat) (s : State) := runEvent s fun s => s.trapEntry gid

/-- SLEEP_END (R91). -/
def execSleepEnd (gid : Nat) (s : State) := runEvent s fun s =>
  s.modGrp gid (fun g => match g.wait with
    | .sleep t => if t ≤ s.pkg.clock then { g with wait := .none } else g
    | _ => g)

/-- STACK_SPILL (R85). -/
def execStackSpill (gid : Nat) (s : State) := runEvent s fun s => s.spillOutside gid
/-- STACK_FILL (R85). -/
def execStackFill (gid : Nat) (s : State) := runEvent s fun s => s.fillStack gid
/-- ILLEGAL_WORD_KILL (R47). -/
def execIllegalWordKill (gid : Nat) (s : State) := runEvent s fun s => s.illegalKill gid

/-- RDSYS (R331): 6 clk after issue; the signature is read once no register is pending (R396). -/
def W.rdsys (w : W) (d : Opnd) (w64 : Bool) (n : Nat) : W :=
  let v := w.s.sysValue w.gid w.g n
  w.var (if w64 then dstCells64 d w.ex (fun _ => v) else dstCells d 0 w.ex (fun _ => lo32 v)) (if w.dry then w.clk else w.clk + 6) false
def execRdsys (h : Hdr) (d : Opnd) (w64 : Bool) (n : Fin 1024) (s : State) := runWord (.rdsys h d w64 n) s fun w =>
  if n.val = 0x036 ∧ !w.ex.isEmpty ∧ !w.dry then (match w.quiet with
    | some w => w
    | none => w.rdsys d w64 n.val)
  else w.rdsys d w64 n.val

/-- The request of a SYSCALL (R344, R345). -/
def Group.callRequest (g : Group) (gid : Nat) (call : Word) (args : List Word) : Request :=
  ⟨coreDie g.core, none, 3, .group gid, g.ctx, args, g.epc, g.rgncnt, ghOf gid, call.toNat % 65536, kindTrap, false, 0, []⟩

/-- SYSCALL (R345). -/
def W.syscall (w : W) (d a b : Opnd) : W :=
  if w.ex.isEmpty || w.dry then w
  else if w.g.isSup then w.var (dstCells64 d w.ex (fun _ => 0xFFFFFFFFFFFFFFFF#64)) (w.clk + 1) false
  else match w.quiet with
    | some w => w
    | none => match w.relWait 0 with
      | some w => w
      | none =>
        let w := w.relDone
        ({ w with s := (w.s.request (w.g.callRequest w.gid (w.g.rd 0 a) ((List.range 4).map (fun j => w.g.rdj 0 j b)))).2 }.wait (.syscall (opndNum d))).mod (fun g => { g with regionNext := g.inRegion })

def execSyscall (h : Hdr) (d a b : Opnd) (s : State) := runWord (.syscall h d a b) s fun w => w.syscall d a b

/-- A group whose last page request has been acknowledged (R165, R338). -/
def Group.served (g : Group) : Group := if g.level = .handler then { g with wait := .none } else { g with restart := true }

/-- A group whose page was declared unserviceable (R165 step 6). -/
def Group.unserved (g : Group) (l : List LaneFault) : Group := { g with trap := some ⟨true, g.waitPc, l⟩, restart := false }

/-- A SYSCALL answered with a value (R346). -/
def Group.sysDone (g : Group) (v : DWord) : Group :=
  match g.wait with
  | .syscall (some r) => { g.putCells [(cellKey r 0, lo32 v), (cellKey (r + 1) 0, hi32 v)] with wait := .none }
  | .syscall none => { g with wait := .none }
  | _ => g

/-- A SYSCALL answered with a trap (R346). -/
def Group.sysTrap (g : Group) : Group :=
  { g with wait := .none, trap := some ⟨false, g.waitPc, [⟨(lowestLane g.waitMask).getD 0, .trapi, 0, 0, 0, kindTrap, 0xFF, false⟩]⟩ }

/-- A fetch declared unserviceable (R168): VPC unchanged. -/
def Group.fetchTrap (g : Group) (l : List LaneFault) : Group := { g with wait := .none, trap := some ⟨false, g.issuePc.getD exitPc, l⟩ }

/-- A saved group changed: its verdict takes effect at restore (R345). -/
def State.modSaved (s : State) (tid i : Nat) (f : Group → Group) : State :=
  s.modTeam tid (fun t => { t with saved := kmod t.saved i f })

/-- A request's originator told the verdict (R346): `ok` when it was serviced. -/
def State.verdict (s : State) (r : Request) (ok : Bool) (v : DWord) : State :=
  let last : State → Bool := fun s => s.reqs.all (fun x => decide (x.2.orig ≠ r.orig))
  let hush : State → State := fun s => { s with reqs := kmap s.reqs (fun _ x => if x.orig = r.orig then { x with orig := .gone } else x) }
  let paged : Group → Group := fun g =>
    if r.type = 3 then (if ok then g.sysDone v else g.sysTrap) else if ok then g.served else g.unserved r.lanes
  match r.orig with
  | .group gid =>
    if r.type = 3 then
      let s := if ok then s.acquireNow (s.grpD gid) 0 else s
      s.modGrp gid paged
    else if ok then (if last s then s.modGrp gid paged else s)
    else (hush s).modGrp gid paged
  | .savedGroup tid i =>
    if r.type ≠ 3 ∧ ok then (if last s then s.modSaved tid i paged else s) else (if r.type = 3 then s else hush s).modSaved tid i paged
  | .fetch gid => s.modGrp gid (fun g => if ok then { g with wait := .none } else g.fetchTrap r.lanes)
  | .job id => if ok then s else s.jobFail id 4 (pair64 (r.args.getD 0 0) (r.args.getD 1 0))
  | .log core e => s.logMod core e (fun x => { x with req := none, bad := !ok })
  | .seqOp cl p => s.modCcl cl (fun k => { k with seqQ := k.seqQ.map (fun o => if o.pend = p then { o with req := none, bad := !ok } else o) })
  | .signal id => s.modFe (fun e => { e with signals := kmod e.signals id (fun x => { x with req := none, bad := !ok }) })
  | .record gid page => s.modGrp gid (fun g => { g with recReq := if ok then kdel g.recReq page else kset g.recReq page 0 })
  | .gone => s

/-- Verdict 2 (R346): the context becomes fatal and its groups halt (R343). No rule gives it a record of TYPE 4 or 5 or a dump REASON
of its own: a dump with REASON 0 is queued, and no record (DEDUCED, log 60). -/
def State.verdictFatal (s : State) (r : Request) : State :=
  let s := s.setCtxstat r.ctx (bitFatal ||| bitHalted)
  if decide (r.die < 8) && decide (r.ctx ≠ 0) && (s.die r.die).dumps.all (fun d => decide (d.ctx ≠ r.ctx)) then s.queueDump r.die r.ctx 0 0 else s

/-- TRET's answer (R346, R347): its status, and the state. -/
def State.tret (s : State) (die : Nat) (ticket : Word) (v : DWord) (verdict : Nat) : Nat × State :=
  match s.reqs.find? (fun r => decide (r.2.die = die) && decide (r.2.ticket = some ticket.toNat)) with
  | none => (9, s)
  | some (id, r) =>
    if verdict > 2 then (4, s)
    else
      let s := { s with reqs := kdel s.reqs id }
      (0, if verdict = 2 then (if r.orig = .gone then s else s.verdictFatal r) else s.verdict r (decide (verdict = 0)) v)

/-- TRET (R346). -/
def execTret (h : Hdr) (d a b c : Opnd) (s : State) := runWord (.tret h d a b c) s fun w =>
  if w.ex.isEmpty then w
  else
    let q := w.s.tret (coreDie w.g.core) (w.g.rd 0 a) (w.g.rd64 0 b) (w.g.rd 0 c).toNat
    { w with s := q.2.freeDue.2 }.var (dstCells d 0 w.ex (fun _ => BitVec.ofNat 32 q.1)) q.2.freeDue.1 false

end Sys2Proof.Machine
end

