-- ==== Sys2Proof/Machine/Contexts.lean ====
section
/-! DEFINITION. Contexts: CTXLOAD and CTXSAVE (R348, R349), PREEMPT (R328, R352, R355, R356), the re-execution of a precise stop
(R397), and dumps (R353, R354). -/

namespace Sys2Proof.Machine

/-- A context as its control block gives it (R348): bits that a register does not have are dropped. -/
def ctxOfCcb (flat b : Nat) : Ctx :=
  let w := fun lo => BitVec.ofNat 32 (bitsOf b lo 32)
  let d := fun lo => BitVec.ofNat 64 (bitsOf b lo 64)
  { ccb := flat, ctxstat := w 864 &&& 0xFC#32, illpc := d 448 &&& 0x00FFFFFFFFFFFFF8#64, frbase := d 320, frctl := w 704 &&& 0xFFF8FFFF#32,
    frtail := w 192, frhead := w 224, hsbase := d 384, slice := w 832 &&& 0xFFFFF#32, slstat := w 896 &&& 0x800FFFFF#32,
    ptroot := d 64 &&& 0x000FFFFFFFFFE000#64, btbase := d 128 &&& 0x000FFFFFFFFFF000#64, tcfg := w 672 &&& 0xFF00FFFF#32,
    dscrsz := bitsOf b 822 10, wquota := bitsOf b 809 13, tdmask := 0x100000#32, smpctl := 0, dmpsz := bitsOf b 784 16,
    slotsz := bitsOf b 768 16, slotsl := bitsOf b 763 5, dmpbase := d 576, savebase := d 512, held := [] }

/-- A field of a number replaced. -/
def setBits (x lo n v : Nat) : Nat := x - field lo n (bitsOf x lo n) + field lo n v

/-- A control block with a context's values (R348): its reserved bits stay as they are. -/
def Ctx.toCcb (c : Ctx) (b : Nat) : Nat :=
  [(896, 32, c.slstat.toNat), (864, 32, c.ctxstat.toNat), (832, 32, c.slice.toNat), (822, 10, c.dscrsz), (809, 13, c.wquota),
   (784, 16, c.dmpsz), (768, 16, c.slotsz), (763, 5, c.slotsl), (704, 32, c.frctl.toNat), (672, 32, c.tcfg.toNat),
   (576, 64, c.dmpbase.toNat), (512, 64, c.savebase.toNat), (448, 64, c.illpc.toNat), (384, 64, c.hsbase.toNat),
   (320, 64, c.frbase.toNat), (224, 32, c.frhead.toNat), (192, 32, c.frtail.toNat), (128, 64, c.btbase.toNat),
   (64, 64, c.ptroot.toNat)].foldl (fun (x : Nat) (f : Nat × Nat × Nat) => setBits x f.1 f.2.1 f.2.2) b

/-- A context's control block written back (R349). -/
def State.ccbBack (s : State) (ctx : Nat) : State :=
  match s.ctx ctx with
  | some c => s.homePut c.ccb (toBytes 128 (c.toCcb (s.num c.ccb 128)))
  | none => s

/-- Whether a context is resident (R347 NOCTX). -/
def State.resident (s : State) (ctx : Nat) : Bool := decide (1 ≤ ctx) && decide (ctx ≤ 256) && (s.ctx ctx).isSome

/-- Whether a control block's SLOTSL and SIZEL are in range (R349). -/
def ccbOk (b : Nat) : Bool := decide (bitsOf b 763 5 ≤ 16) && decide (6 ≤ bitsOf b 731 5) && decide (bitsOf b 731 5 ≤ 16)

/-- A context made resident, owning no core (R349, R127, R147, R370, R384, R422). -/
def State.ctxLoad (s : State) (ctx flat b : Nat) : State :=
  let s := { s with ctxs := kset s.ctxs ctx (ctxOfCcb flat b), cores := kmap s.cores (fun _ c => { c with withheld := c.withheld.filter (fun k => decide (k ≠ ctx)) }) }
  let s := s.modFeCtx ctx (fun _ => FeCtx.reset)
  (s.zeroRange (flatDie ctx 0 0) (32 * 2 ^ 25)).clearTable ctx

/-- A supervisor word's one-register result at a time no rule states. -/
def W.status (w : W) (d : Opnd) (v : Nat) : W :=
  { w with s := w.s.freeDue.2 }.var (dstCells d 0 w.ex (fun _ => BitVec.ofNat 32 v)) w.s.freeDue.1 false

/-- CTXLOAD (R349): the control block is read as a load of the supervisor group when the number admits it. -/
def W.ctxload (w : W) (d a b : Opnd) : W :=
  if w.ex.isEmpty then w
  else
    let ctx := (w.g.rd 0 a).toNat
    if ctx = 0 ∨ 256 < ctx then w.status d 2
    else if (w.s.ctx ctx).isSome then w.status d 3
    else
      match w.s.reachG w.g.who 0 (w.g.rd64 0 b) 128 false false needR kindLoad with
      | (.glob p _ _ flat, t) =>
        if t.bad flat 128 then { w with s := t }.fault (accFault 0 .mcheck p (flat % 2 ^ 52) .g kindLoad)
        else if ccbOk (t.num flat 128) then { w with s := t.ctxLoad ctx flat (t.num flat 128) }.status d 0
        else { w with s := t }.status d 4
      | (.ctl _, t) => { w with s := t }.status d 4
      | (r, t) => { w with s := t }.watchFault r

def execCtxload (h : Hdr) (d a b : Opnd) (s : State) := runWord (.ctxload h d a b) s fun w => w.ctxload d a b

/-- A context's claim on a core withheld until its core set is written again (R328 step 3, R349). -/
def State.withhold (s : State) (ctx core : Nat) : State :=
  s.modCore core (fun c => if c.withheld.contains ctx then c else { c with withheld := c.withheld ++ [ctx] })

/-- The cores a context owns. -/
def State.owned (s : State) (ctx : Nat) : List Nat := (List.range 224).filter (fun c => decide ((s.core c).owner = ctx))

/-- Cores on their way to a context go to the idle account instead. -/
def State.turnAway (s : State) (ctx : Nat) : State :=
  { s with cores := kmap s.cores (fun _ c => if c.changing = some ctx then { c with changing := some 0 } else c) }

/-- A supervisor operation that goes on working takes its place. -/
def State.supEnter (s : State) (o : SupOp) : State := { s with supOps := kset s.supOps s.serial o, serial := s.serial + 1 }

/-- A supervisor word that goes on working (R349, R352, R362): it answers its destination registers when it ends. -/
def W.supOp (w : W) (kind ctx n : Nat) (x : DWord) (mask : List Nat) (msg : List Word) : W :=
  { (w.pend [] none false).2 with s := (w.pend [] none false).2.s.supEnter ⟨w.gid, w.s.serial, kind, ctx, n, x, mask, msg, 0⟩ }

/-- CTXSAVE EVICT begins (R349): the context keeps no claim on a core until its core set is written again, and every core it
owns changes owner. -/
def State.evict (s : State) (ctx : Nat) : State :=
  let mine := s.owned ctx
  let s := ((List.range 224).filter (fun c => (s.feCtx ctx).cset.testBit c || mine.contains c)).foldl (fun s c => s.withhold ctx c) (s.turnAway ctx)
  mine.foldl (fun s c => s.beginChange c) s

/-- CTXSAVE with B ≠ 1 (R349): EVICT, or a value with no meaning. -/
def W.ctxsave (w : W) (d a b : Opnd) : W :=
  if w.ex.isEmpty then w
  else
    let ctx := (w.g.rd 0 a).toNat
    if (w.g.rd 0 b) ≠ 0 then w.status d 4
    else if !w.s.resident ctx then w.status d 2
    else
      let mine := w.s.owned ctx
      { w with s := w.s.evict ctx }.supOp 0 ctx 0 0 mine []

/-- What remains in flight of a context is dropped (R349): nothing of it appears anywhere afterwards. -/
def State.dropContext (s : State) (ctx : Nat) : State :=
  let s := { s with
    reqs := s.reqs.filter (fun r => decide (r.2.ctx ≠ ctx)),
    atoms := s.atoms.filter (fun a => decide (a.2.ctx ≠ ctx)),
    cclusters := kmap s.cclusters (fun _ k =>
      { k with tlb := k.tlb.filter (fun t => decide (t.ctx ≠ ctx)), seqQ := k.seqQ.filter (fun o => decide (o.ctx ≠ ctx)) }),
    dies := kmap s.dies (fun _ d =>
      { d with dumps := d.dumps.filter (fun x => decide (x.ctx ≠ ctx)), l2 := d.l2.filter (fun l => decide (l.2.ctx ≠ ctx)),
               lazy := d.lazy.filter (fun l => decide (entryCtx l.v ≠ ctx)),
               watches := d.watches.filter (fun w => decide (w.2.ctx ≠ ctx)) }),
    cores := kmap s.cores (fun _ c =>
      { c with sideLog := c.sideLog.filter (fun e => decide (e.ctx ≠ ctx)), withheld := c.withheld.filter (fun k => decide (k ≠ ctx)) }) }
  s

/-- Supervisor words still working on a context that is gone answer NOCTX (R347). -/
def State.orphanOps (s : State) (ctx : Nat) : State :=
  let ops := s.supOps.filter (fun o => decide (o.2.ctx = ctx) && decide (o.2.kind < 4))
  let s := ops.foldl (fun s o => s.answers o.2.gid o.2.pend [2, 0, 0, 0]) s
  let s := { s with supOps := s.supOps.filter (fun o => !(decide (o.2.ctx = ctx) && decide (o.2.kind < 4))) }
  match s.dry with
  | some d => if (s.grp d.gid).isNone then ({ s with dry := none }).answers d.by_ d.pend [2, 0, 0, 0] else s
  | none => s

/-- CTXSAVE DESTROY (R349, R384, R422). -/
def State.destroy (s : State) (ctx : Nat) : State :=
  let mine := s.owned ctx
  let s := (s.flushContext ctx).discardWork ctx (fun _ => true)
  let s := (s.turnAway ctx).dropContext ctx
  let s := mine.foldl (fun s c => s.passCore c (match (s.core c).changing with
    | some n => if (s.ctx n).isSome ∧ n ≠ ctx then n else 0
    | none => 0)) s
  let s := (s.retireAccount ctx).ccbBack ctx
  (({ s with ctxs := kdel s.ctxs ctx }).modFe (fun e => { e with ctxs := kdel e.ctxs ctx })).orphanOps ctx

def execCtxsaveEvict (h : Hdr) (d a b : Opnd) (s : State) := runWord (.ctxsaveEvict h d a b) s fun w => w.ctxsave d a b

def execCtxsaveDestroy (h : Hdr) (d a : Opnd) (s : State) := runWord (.ctxsaveDestroy h d a) s fun w =>
  if w.ex.isEmpty then w
  else
    let ctx := (w.g.rd 0 a).toNat
    if w.s.resident ctx then { w with s := w.s.destroy ctx }.status d 0 else w.status d 2

/-- A PREEMPT's result (R352): status, count or flags, and a value; a value no rule gives is FREE (log 12). -/
def W.preResult (w : W) (d : Opnd) (st n : Nat) (v : Option DWord) : W :=
  let f : Word × W := w.freeWord
  let q : DWord × State := match v with
    | some v => (v, w.s)
    | none => (pair64 f.1 f.2.freeWord.1, f.2.freeWord.2.s)
  { w with s := q.2.freeDue.2 }.var (dstCellsN d 4 w.ex (fun j _ => [BitVec.ofNat 32 st, BitVec.ofNat 32 n, lo32 q.1, hi32 q.1].getD j 0)) q.2.freeDue.1 false

/-- The request words of a PREEMPT (R352). -/
def W.reqWord (w : W) (a : Opnd) (j : Nat) : Word := w.g.rdj 0 j a

/-- Whether a victim's cores go in whole core clusters (R328 step 1). -/
def State.wholeClusters (s : State) (ctx : Nat) : Bool :=
  s.teams.any (fun t => decide (t.2.ctx = ctx) && t.2.resident && decide (1 < t.2.kernel.tpc)) ||
  s.mjobs.any (fun j => decide ((s.teamD j.2.tid).ctx = ctx) && decide (1 < popNat 4 (bitsOf j.2.block 8 4))) ||
  (List.range 56).any (fun k => (cclCores k).any (fun c => decide ((s.core c).owner = ctx)) && decide ((s.ccl k).seqCtx = ctx) &&
    (!(s.ccl k).slots.isEmpty || !(s.ccl k).samples.isEmpty))

/-- The cores a request takes, in order (R328 step 2). -/
def State.takenCores (s : State) (ctx n : Nat) : List Nat :=
  let mine := ((s.owned ctx).filter (fun c => (s.core c).changing.isNone)).reverse
  if s.wholeClusters ctx then
    let whole := mine.filter (fun c => (cclCores (coreCcl c)).all (fun x => mine.contains x))
    (whole ++ mine.filter (fun c => !whole.contains c)).take (roundUp n 4)
  else mine.take n

/-- Cores taken from a context (R328 step 3): its claim on them is withheld and each changes owner. -/
def State.take (s : State) (ctx : Nat) (cs : List Nat) : State :=
  cs.foldl (fun s c => s.beginChange c) (cs.foldl (fun s c => s.withhold ctx c) s)

/-- PREEMPT.SPATIAL (R328). -/
def W.spatial (w : W) (d a : Opnd) : W :=
  if w.ex.isEmpty then w
  else
    let ctx := (w.reqWord a 0).toNat
    let n := (w.reqWord a 1).toNat
    if !w.s.resident ctx then w.preResult d 2 0 none
    else
      let cs := w.s.takenCores ctx n
      { w with s := w.s.take ctx cs }.supOp 2 ctx cs.length 0 cs []

def execPreemptSpatial (h : Hdr) (d a : Opnd) (s : State) := runWord (.preemptSpatial h d a) s fun w => w.spatial d a

/-- PREEMPT.HALT (R355). -/
def execPreemptHalt (h : Hdr) (d a : Opnd) (s : State) := runWord (.preemptHalt h d a) s fun w =>
  if w.ex.isEmpty then w
  else
    let ctx := (w.reqWord a 0).toNat
    if w.s.resident ctx then { w with s := w.s.setCtxstat ctx bitHalted }.preResult d 0 0 none else w.preResult d 2 0 none

/-- PREEMPT.RESUME (R355). -/
def execPreemptResume (h : Hdr) (d a : Opnd) (s : State) := runWord (.preemptResume h d a) s fun w =>
  if w.ex.isEmpty then w
  else
    let ctx := (w.reqWord a 0).toNat
    if !w.s.resident ctx then w.preResult d 2 0 none
    else if w.s.fatal ctx then w.preResult d 4 0 none
    else { w with s := w.s.modCtx ctx (fun c => { c with ctxstat := c.ctxstat &&& ~~~bitHalted }) }.preResult d 0 0 none

/-- PREEMPT.STOP (R355): the context halts now; the rest follows once no register is pending. -/
def execPreemptStop (h : Hdr) (d a : Opnd) (s : State) := runWord (.preemptStop h d a) s fun w =>
  if w.ex.isEmpty then w
  else
    let ctx := (w.reqWord a 0).toNat
    if !w.s.resident ctx then w.preResult d 2 0 none
    else { w with s := w.s.setCtxstat ctx bitHalted }.supOp 3 ctx ((w.reqWord a 1).toNat % 65536) (pair64 (w.reqWord a 2) (w.reqWord a 3)) [] []

/-- What a selector of .RDREG and .WRREG names (R356): a register cell with its register number, a lane's VPC, or nothing. -/
inductive RegSel where
  | cell (r lane : Nat)
  | vpc (lane : Nat)
  | bad
  deriving DecidableEq, Repr

/-- A selector read for a group (R356). -/
def Group.select (g : Group) (sel : Nat) : RegSel :=
  let l := bitsOf sel 9 5
  let n := bitsOf sel 0 9
  match bitsOf sel 14 2 with
  | 0 => if n < g.vregs then .cell (vReg n) l else .bad
  | 1 => if n < g.sregs then .cell (sReg n) 0 else .bad
  | 2 => if n < 8 then .cell (640 + n) l else if n < 16 then .cell (640 + n) 0 else .bad
  | _ => .vpc l

/-- P7 and Q7 (R356): they read true and discard writes. -/
def fixedPred (r : Nat) : Bool := decide (r = 647) || decide (r = 655)

/-- The group a .RDREG or .WRREG names, or its status (R347, R356). -/
def State.regGroup (s : State) (ctx h : Nat) : Except Nat (Nat × Group) :=
  if !s.resident ctx then .error 2
  else if !s.halted ctx then .error 6
  else match gidOfHandle h with
    | none => .error 7
    | some gid => match s.grp gid with
      | some g => if g.ctx = ctx then .ok (gid, g) else .error 7
      | none => .error 7

/-- PREEMPT.RDREG (R356): its status and the value. -/
def State.regRead (s : State) (ctx h x : Nat) : Nat × Option DWord :=
  match s.regGroup ctx h with
  | .error e => (e, none)
  | .ok (_, g) => match g.select x with
    | .bad => (4, none)
    | .vpc l => (0, some (BitVec.ofNat 64 ((g.vpcOf l).toNat * 8)))
    | .cell r l =>
      if g.pends.any (fun p => p.regs.contains r) then (1, none)
      else (0, some (if fixedPred r then 1 else (g.cell r l).setWidth 64))

def execPreemptRdreg (h : Hdr) (d a : Opnd) (s : State) := runWord (.preemptRdreg h d a) s fun w =>
  if w.ex.isEmpty then w
  else
    let q := w.s.regRead (w.reqWord a 0).toNat (w.reqWord a 1 >>> 16).toNat (w.reqWord a 1).toNat
    w.preResult d q.1 0 q.2

/-- PREEMPT.WRREG (R356): its status and the state. -/
def State.regWrite (s : State) (ctx h x : Nat) (v : DWord) : Nat × State :=
  match s.regGroup ctx h with
  | .error e => (e, s)
  | .ok (gid, g) => match g.select x with
    | .bad => (4, s)
    | .vpc l =>
      if g.vpcOf l = exitPc then (4, s)
      else (0, s.modGrp gid (fun g => { g with vpc := setNth g.vpc l (pcOfAddr (v &&& 0x00FFFFFFFFFFFFFF#64)) }))
    | .cell r l =>
      if g.pends.any (fun p => p.regs.contains r) then (1, s)
      else if fixedPred r then (0, s)
      else (0, s.modGrp gid (fun g => g.putCells [(cellKey r l, if r < 640 then lo32 v else lo32 v &&& 1)]))

def execPreemptWrreg (h : Hdr) (d a : Opnd) (s : State) := runWord (.preemptWrreg h d a) s fun w =>
  if w.ex.isEmpty then w
  else
    let q := w.s.regWrite (w.reqWord a 0).toNat (w.reqWord a 1 >>> 16).toNat (w.reqWord a 1).toNat (pair64 (w.reqWord a 2) (w.reqWord a 3))
    { w with s := q.2 }.preResult d q.1 0 none

/-- A PREEMPT or CTXSAVE that has been working answers (R347, R352). -/
def State.preAnswer (s : State) (gid pend st n : Nat) : State :=
  let (b, s) := s.freeBytes 8
  s.answers gid pend [BitVec.ofNat 32 st, BitVec.ofNat 32 n, BitVec.ofNat 32 (ofBytes (b.take 4)), BitVec.ofNat 32 (ofBytes (b.drop 4))]

/-- A group at the start of its region, for a pass of a stop's re-execution (R397). -/
def Group.dryStart (g : Group) : Group :=
  { g with vpc := g.evpc, lsp := g.elsp, aside := [], retcnt := 0, rsig := 0, regionStart := true, regionNext := false, wait := .none,
           wakeAt := none, pends := [], fences := [], touches := [], trap := none, restart := false, asyncs := [], copyWait := [], recReq := [],
           fillDue := true, retryAt := 0 }

/-- A group landed at the count it halted at (R397): what it waited for before the stop still holds it. -/
def Group.dryBack (g o : Group) : Group :=
  { g with wait := o.wait, waitPc := o.waitPc, waitMask := o.waitMask, wakeAt := o.wakeAt, pends := o.pends, fences := o.fences,
           touches := o.touches, trap := o.trap, restart := o.restart, asyncs := o.asyncs, copyWait := o.copyWait, recReq := o.recReq,
           regionNext := o.regionNext, regionStart := o.regionStart }

/-- A group landed at an earlier count (R397, R398): what it waited for belongs to words it will issue again. -/
def State.dryEarly (s : State) (gid : Nat) (o : Group) : State :=
  let s := (s.watchDrop gid).modGrp gid (fun g => { g with pends := [], wait := .none, asyncs := o.asyncs })
  { s with reqs := kmap s.reqs (fun _ r => if r.orig = .group gid ∨ r.orig = .fetch gid then { r with orig := .gone } else r) }

/-- The re-execution ends (R397): the group lands and the stop is answered. -/
def State.dryLand (s : State) (d : DryRun) (diverged : Bool) : State :=
  let s := if d.n = d.m then s.modGrp d.gid (fun g => g.dryBack d.orig) else s.dryEarly d.gid d.orig
  ({ s with dry := none }).preAnswer d.by_ d.pend 0 (if diverged then 1 else 0)

/-- Between two words of a re-execution (R397): nothing more to do, a further pass, or the landing. -/
def State.dryNext (s : State) : State :=
  match s.dry with
  | none => s
  | some d => match s.grp d.gid with
    | none => ({ s with dry := none }).preAnswer d.by_ d.pend 7 0
    | some g =>
      if d.pass = 1 then
        (if g.retcnt.toNat < d.m then s
         else
          let bad := d.diverged || decide (g.rsig ≠ d.want)
          if d.n = d.m then s.dryLand d bad
          else { s.setGrp d.gid d.orig.dryStart with dry := some { d with pass := 2, diverged := bad } })
      else if g.retcnt.toNat < d.n then s else s.dryLand d d.diverged

/-- A re-execution that can go no further ends where it stands, DIVERGED. -/
def State.dryStuck (s : State) : State :=
  match s.dry with
  | none => s
  | some d => s.dryLand d true

/-- The status of a STOP's group (R355): none when it is to be re-executed. -/
def State.stopCheck (s : State) (o : SupOp) : Option Nat :=
  match gidOfHandle o.n with
  | none => some 7
  | some gid => match s.grp gid with
    | none => some 7
    | some g =>
      if g.ctx ≠ o.ctx ∨ g.level = Level.handler ∨ g.rgncnt ≠ lo32 o.x ∨ g.retcnt.toNat < (hi32 o.x).toNat then some 7
      else match g.wait with
        | .syscall _ => some 0
        | _ => none

/-- A STOP goes on (R355): once no register of the context's groups is pending, its group is re-executed. -/
def State.stopStep (s : State) (id : Nat) (o : SupOp) : State :=
  if s.dry.isSome || s.groups.any (fun g => decide (g.2.ctx = o.ctx) && (g.2.restart || g.2.pends.any (fun p => !p.regs.isEmpty))) then s
  else
    let s := { s with supOps := kdel s.supOps id }
    match s.stopCheck o with
    | some st => s.preAnswer o.gid o.pend st 0
    | none =>
      let gid := (gidOfHandle o.n).getD 0
      let g := s.grpD gid
      { s.setGrp gid g.dryStart with dry := some ⟨gid, (hi32 o.x).toNat, g.retcnt.toNat, g.rsig, g, 1, false, o.gid, o.pend⟩ }

/-- A CTXSAVE EVICT or PREEMPT.SPATIAL goes on: it ends when every core it took has changed owner or kept its context
(R328, R349, R351). -/
def State.takeStep (s : State) (id : Nat) (o : SupOp) : State :=
  if o.mask.any (fun c => decide ((s.core c).owner = o.ctx)) then s
  else
    let s := { s with supOps := kdel s.supOps id }
    if o.kind = 2 then s.preAnswer o.gid o.pend 0 (o.n - o.phase)
    else if o.phase = 0 then (s.ccbBack o.ctx).answer o.gid o.pend 0
    else s.answer o.gid o.pend 5

/-- The context words that are still working, once a clk. -/
def State.ctxOps (s : State) : State :=
  s.supOps.foldl (fun s o => if o.2.kind = 0 ∨ o.2.kind = 2 then s.takeStep o.1 o.2 else if o.2.kind = 3 then s.stopStep o.1 o.2 else s) s

/-- DUMP (R353). -/
def execDump (h : Hdr) (d a : Opnd) (s : State) := runWord (.dump h d a) s fun w =>
  if w.ex.isEmpty then w
  else
    let ctx := (w.g.rd 0 a).toNat
    let die := coreDie w.g.core
    if 8 ≤ die then w.status d 4
    else if !w.s.resident ctx then w.status d 2
    else if 8 ≤ (w.s.die die).dumps.length then w.status d 8
    else { w with s := w.s.queueDump die ctx 0 0 }.status d 0

/-- The oldest dump of a die. -/
def State.dumpHead (s : State) (die : Nat) : Option Dump := (s.die die).dumps.head?

/-- DUMP_RUN (R354): the engine starts its oldest dump. -/
def execDumpRun (die : Nat) (s : State) := runEvent s fun s =>
  match s.dumpHead die with
  | some x => if x.running then s else
    s.freeDue.2.modDie die (fun d => { d with dumps := { x with running := true, start := s.time, due := s.freeDue.1 } :: d.dumps.drop 1 })
  | none => s

/-- The images of a dump (R353), as many bytes as still fit: how many were written whole, whether one did not fit. -/
def State.dumpImages (s : State) (room : Nat) : Nat → List Nat → Nat × Bool × State
  | _, [] => (0, false, s)
  | at_, t :: ts =>
    let q := s.teamImage t
    let fit := room - at_
    let s := q.2.homePut (flatPa 0 at_) (q.1.take fit)
    if fit < q.1.length then (0, true, s)
    else
      let r := s.dumpImages room (at_ + q.1.length) ts
      (r.1 + 1, r.2.1, r.2.2)

/-- A dump written into its part of the dump area (R353). -/
def State.dumpWrite (s : State) (die : Nat) (x : Dump) : State :=
  let c := s.ctxD x.ctx
  let part := c.dmpbase.toNat % 2 ^ 52 + 65536 * c.dmpsz * die
  let stop := part + 65536 * c.dmpsz
  if c.dmpsz = 0 then s
  else
    let ts := (s.teams.filter (fun t => decide (t.2.ctx = x.ctx) && t.2.resident && decide (coreDie t.2.core = die))).map (fun t => t.1)
    let q := s.dumpImages stop (part + 4096) ts
    let head := field 448 64 x.start + field 416 32 x.second.length + field 384 32 x.extra + field 352 32 q.1 + field 312 8 x.reason +
      field 9 1 (if q.2.1 then 1 else 0) + field 0 9 x.ctx
    let s := (q.2.2.homePut (flatPa 0 part) (toBytes 64 head)).homePut (flatPa 0 (part + 64)) (toBytes 64 x.primary)
    x.second.zipIdx.foldl (fun s r => s.homePut (flatPa 0 (part + 128 + 64 * r.2)) (toBytes 64 r.1)) s

/-- DUMP_DONE (R353). -/
def execDumpDone (die : Nat) (s : State) := runEvent s fun s =>
  match s.dumpHead die with
  | some x =>
    if x.running && decide (x.due ≤ s.pkg.clock) then
      let s := (s.dumpWrite die x).modDie die (fun d => { d with dumps := d.dumps.drop 1 })
      (s.setCtxstat x.ctx bitDumped).dieRecord die (dieRec s.time [BitVec.ofNat 32 x.ctx] 0 0 0 0 x.ctx 0 0 false 0 6)
    else s
  | none => s

/-- The dump engine's next event on a die (R354). -/
def State.dumpDue (s : State) (die : Nat) : Option Instr :=
  match s.dumpHead die with
  | some x => if x.running then (if x.due ≤ s.pkg.clock then some (.dumpDone die) else none) else some (.dumpRun die)
  | none => none

end Sys2Proof.Machine
end

