-- ==== Sys2Proof/Machine/Dies.lean ====
section
/-! DEFINITION. Dies and the single system image (chapter 16): the Gondola channel (R360–R363), shoot-downs and invalidation logs
(R364–R368), the Groomer (R148, R369), and the loss and reset of dies (R370–R377). -/

namespace Sys2Proof.Machine

/-- The fields of an invalidation entry (R364). -/
def entryKind (v : Nat) : Nat := bitsOf v 238 2
def entryTag (v : Nat) : Nat := bitsOf v 219 8
/-- The 64 KiB blocks an entry covers: every block for CONTEXT (R366 step 3), none for BOUNDS. -/
def entryLo (v : Nat) : Nat := if entryKind v = 0 then bitsOf v 152 40 else 0
def entryHi (v : Nat) : Nat := match entryKind v with | 0 => bitsOf v 112 40 | 2 => 2 ^ 40 | _ => 0

/-- Whether a page of 2^size bytes meets a range of blocks. -/
def pageMeets (page size lo hi : Nat) : Bool := decide (page * 2 ^ (size - 16) < hi) && decide (lo < (page + 1) * 2 ^ (size - 16))

/-- The compute cores of a die. -/
def dieCores (d : Nat) : List Nat := if d < 8 then upFrom (28 * d) 28 else []
/-- The core clusters of a die. -/
def dieCcls (d : Nat) : List Nat := if d < 8 then upFrom (7 * d) 7 else []

/-- The cluster TLB entries of a range dropped; pinned ones stay unless `all` (R366 steps 1 and 4). -/
def State.dropTlb (s : State) (d ctx lo hi : Nat) (all : Bool) : State :=
  (dieCcls d).foldl (fun s k => s.modCcl k (fun c =>
    { c with tlb := c.tlb.filter (fun t => !(decide (t.ctx = ctx) && pageMeets t.page t.size lo hi && (all || !s.pinned k t))) })) s

/-- A range's L1 lines written back and invalidated on the die's cores of a context, and the die L2's dirty lines of the context
written back (R366 steps 1 and 4). -/
def State.dropRange (s : State) (d ctx lo hi : Nat) : State :=
  let s := ((dieCores d).filter (fun c => decide ((s.core c).owner = ctx))).foldl (fun s c =>
    (((s.core c).l1.filter (fun l => decide (lo ≤ l.1 / 512) && decide (l.1 / 512 < hi))).map (fun l => l.1)).foldl (fun s v => s.dropLine c v) s) s
  (s.dirtyLines d ctx).foldl (fun s l => s.flushL2Line d l) s

/-- Bounds entries reloaded from memory on the die's cores of a context (R366 step 2). -/
def State.reloadBounds (s : State) (d ctx : Nat) (tags : List Nat) : State :=
  ((dieCores d).filter (fun c => decide ((s.core c).owner = ctx))).foldl (fun s c =>
    tags.foldl (fun s t => match s.boundOf (s.ctxD ctx).btbase t with
      | some b => s.modCore c (fun k => { k with bounds := kset k.bounds t b })
      | none => s.modCore c (fun k => { k with bounds := kdel k.bounds t })) s) s

/-- Steps 1–3 of R366 for an entry's image. -/
def State.applyEntry (s : State) (d v : Nat) (all : Bool) : State :=
  let ctx := entryCtx v
  let s := if entryKind v = 0 ∨ entryKind v = 2 then
      (s.dropTlb d ctx (entryLo v) (entryHi v) all).dropRange d ctx (entryLo v) (entryHi v) else s
  if entryKind v = 1 then s.reloadBounds d ctx [entryTag v] else if entryKind v = 2 then s.reloadBounds d ctx (List.range 256) else s

/-- Whether step 4 of R366 can be completed: no TOUCH window meets the range and no atomic translated or checked through what was
dropped is on its way. -/
def State.applyClear (s : State) (d v : Nat) : Bool :=
  let ctx := entryCtx v
  let hit := fun (va : Nat) => (decide (entryLo v ≤ va / 2 ^ 16) && decide (va / 2 ^ 16 < entryHi v)) 
  s.groups.all (fun g => decide (g.2.ctx ≠ ctx) || decide (coreDie g.2.core ≠ d) ||
    g.2.touches.all (fun w => w.blocks.all (fun b => !hit (b.2 * 2 ^ 16)))) &&
  s.atoms.all (fun a => decide (a.2.ctx ≠ ctx) || decide (coreDie a.2.core ≠ d) || a.2.lanes.all (fun x => decide (x.home = 16) ||
    !(hit (vaOf x.ptr) || (decide (entryKind v = 1) && decide (tagOf x.ptr = entryTag v)))))

/-- The flat address and the image of a die's next log entry (R364). -/
def State.ilEntry (s : State) (d : Nat) : Nat :=
  let x := s.die d
  s.num (flatPa 0 (x.ilbase.toNat % 2 ^ 52 + 32 * (x.ilnext % 4096))) 32

/-- Whether NEXT has reached an index in serial order (R365). -/
def Die.reached (d : Die) (p : Nat) : Bool := decide ((d.ilnext + 65536 - p % 65536) % 65536 < 32768)

/-- A shoot-down's answer once no target is left (R365). -/
def State.shootDone (s : State) (id : Nat) : State :=
  match kget s.shoots id with
  | none => s
  | some h =>
    if h.wait.isEmpty then
      let dead := h.dead.foldl (fun m d => m + 2 ^ d) 0
      ({ s with shoots := kdel s.shoots id }).answers h.gid h.pend [if dead = 0 then 0 else 10, BitVec.ofNat 32 dead]
    else s

/-- A target of a shoot-down is done with, acknowledged or dead. -/
def State.shootTake (s : State) (id d : Nat) (dead : Bool) : State :=
  ({ s with shoots := kmod s.shoots id (fun h =>
    { h with wait := h.wait.filter (fun x => decide (x ≠ d)), dead := if dead && h.wait.contains d then h.dead ++ [d] else h.dead }) }).shootDone id

/-- The ACKs a die owes (R365). -/
def State.ackPosts (s : State) (d : Nat) : State :=
  let x := s.die d
  let done := x.posts.filter (fun p => x.reached p.idx)
  done.foldl (fun s p => s.shootTake p.shoot d false) (s.modDie d (fun x => { x with posts := x.posts.filter (fun p => !x.reached p.idx) }))

/-- Whether a die has a log entry to apply: some POST waits for it and it is ready (R364–R366). -/
def State.ilReady (s : State) (d : Nat) : Bool :=
  let x := s.die d
  x.posts.any (fun p => !x.reached p.idx) && decide (bitsOf (s.ilEntry d) 240 16 = x.ilnext % 65536)

/-- Whether SHOOTDOWN_APPLY can go on at a die: to begin its next entry, or to complete it (R366). -/
def State.shootDue (s : State) (d : Nat) : Bool :=
  s.ilReady d && (!(s.die d).applying || s.applyClear d (s.ilEntry d))

/-- NEXT advances past an entry (R366 step 5). -/
def State.ilPass (s : State) (d : Nat) : State :=
  (s.modDie d (fun x => { x with ilnext := (x.ilnext + 1) % 65536, applying := false })).ackPosts d

/-- SHOOTDOWN_APPLY (R366, R367): a lazy entry is passed and held; another is applied, and passed once it is complete. -/
def State.shootApply (s : State) (d : Nat) : State :=
  if !s.ilReady d then s
  else
    let v := s.ilEntry d
    if v.testBit 237 then (s.modDie d (fun x => { x with lazy := x.lazy ++ [⟨v, false⟩] })).ilPass d
    else if !(s.die d).applying then
      let s := (s.modDie d (fun x => { x with applying := true, lazy := x.lazy.map (fun l => { l with due := true }) }))
      let s := if (s.die d).lazy.isEmpty then s else s.then_ [.lazyApply d]
      s.applyEntry d v false
    else if s.applyClear d v then (s.applyEntry d v true).ilPass d
    else s

def execShootdownApply (die : Nat) (s : State) := runEvent s fun s => s.shootApply die

/-- LAZY_APPLY (R367): the held entries whose trigger has come. Their change only adds permissions or clears WB, so a pinned
translation is replaced too. -/
def execLazyApply (die : Nat) (s : State) := runEvent s fun s =>
  let l := (s.die die).lazy.filter (fun l => l.due)
  l.foldl (fun s e => s.applyEntry die e.v true) (s.modDie die (fun d => { d with lazy := d.lazy.filter (fun l => !l.due) }))

/-- Whether a die is UP (R375). -/
def State.dieUp (s : State) (d : Nat) : Bool := decide ((s.die d).st = .up)

/-- A queue of a die (R360). -/
def Die.queue (d : Die) (q : Nat) : List Message := (kget d.queues q).getD []

/-- The dies of a mask. -/
def maskDies (m : Nat) : List Nat := (List.range 21).filter (fun d => m.testBit d)

/-- A supervisor word's two-register result at a time no rule states. -/
def W.status2 (w : W) (d : Opnd) (v : Nat) : W :=
  { w with s := w.s.freeDue.2 }.var (dstCellsN d 2 w.ex (fun j _ => if j = 0 then BitVec.ofNat 32 v else 0)) w.s.freeDue.1 false

/-- The sequencer's next number taken (R362, R363). -/
def State.nextSeq (s : State) : State := s.modPkg (fun p => { p with seqNo := p.seqNo + 1 })

/-- MSGSEND (R361, R362): one at a time for each group. -/
def W.msgsend (w : W) (d a b : Opnd) (mc : Bool) (q : Nat) : W :=
  if w.ex.isEmpty then w
  else if w.s.supOps.any (fun o => decide (o.2.gid = w.gid) && decide (o.2.kind = 4)) then { w with hold := some .depEngine }
  else
    let t := (w.g.rd 0 a).toNat
    let ds := if mc then maskDies t else [t]
    if (if mc then t = 0 ∨ 2 ^ 21 ≤ t else 20 < t) then w.status2 d 4
    else
      let n := if mc then w.s.pkg.seqNo % 2 ^ 32 else 0
      let hdr := field 63 1 1 + field 62 1 (if mc then 1 else 0) + field 60 2 q + field 55 5 (coreDie w.g.core) + field 0 32 n
      { w with s := if mc then w.s.nextSeq else w.s }.supOp 4 q (if mc then w.s.pkg.seqNo + 1 else 0) (BitVec.ofNat 64 hdr) ds ((List.range 14).map (fun j => w.g.rdj 0 (j + 2) b))

def execMsgsend (h : Hdr) (d a b : Opnd) (mc : Bool) (q : Fin 3) (s : State) := runWord (.msgsend h d a b mc q) s fun w => w.msgsend d a b mc q.val

/-- Whether a send to a die must wait for an earlier multicast (R363 item 2). -/
def State.mcBlocked (s : State) (o : SupOp) (d : Nat) : Bool :=
  decide (0 < o.n) && s.supOps.any (fun p => (decide (p.2.kind = 4) || decide (p.2.kind = 6)) && decide (0 < p.2.n) && decide (p.2.n < o.n) && p.2.mask.contains d)

/-- One target of a send: dead, appended, or still waiting for room (R362, R365). -/
def State.sendTo (s : State) (id : Nat) (o : SupOp) (d : Nat) : State :=
  let off := fun (s : State) (x : Nat) => { s with supOps := kmod s.supOps id (fun p => { p with mask := p.mask.filter (fun y => decide (y ≠ d)), phase := p.phase + x }) }
  if !s.dieUp d then (if o.kind = 6 then (off s 0).shootTake id d true else off s (2 ^ d))
  else if s.mcBlocked o d then s
  else if o.kind = 6 then
    (if 64 ≤ (s.die d).posts.length then s
     else
      let p := (o.msg.getD (d / 2) 0).toNat / 2 ^ (16 * (d % 2)) % 65536
      ((off s 0).modDie d (fun x => { x with posts := x.posts ++ [⟨id, p⟩] })).ackPosts d)
  else
    let q := (s.die d).queue o.ctx
    if 64 ≤ q.length then s
    else (off s 0).modDie d (fun x => { x with queues := kset x.queues o.ctx (q ++ [⟨o.x, o.msg⟩]) })

/-- A MSGSEND or a shoot-down's POSTs go on, once a clk. -/
def State.sendStep (s : State) (id : Nat) (o : SupOp) : State :=
  let s := o.mask.foldl (fun s d => match kget s.supOps id with
    | some o => s.sendTo id o d
    | none => s) s
  match kget s.supOps id with
  | some o =>
    if o.mask.isEmpty then
      let s := { s with supOps := kdel s.supOps id }
      if o.kind = 4 then s.answers o.gid o.pend [if o.phase = 0 then 0 else 10, BitVec.ofNat 32 o.phase] else s
    else s
  | none => s

/-- MSGRECV (R361, R362). The registers after a FORMAT status are FREE (log 12). -/
def W.msgrecv (w : W) (d a : Opnd) (nb : Bool) : W :=
  if w.ex.isEmpty then w
  else
    let q := (w.g.rd 0 a).toNat % 4
    let die := coreDie w.g.core
    let give := fun (w : W) (v : Nat → Word) =>
      { w with s := w.s.freeDue.2 }.var (dstCellsN d 16 w.ex (fun j _ => v j)) w.s.freeDue.1 false
    if q = 3 then
      give { w with s := (w.s.freeBytes 64).2 } (fun j => if j = 0 then 4 else BitVec.ofNat 32 (ofBytes (((w.s.freeBytes 64).1.drop (4 * j)).take 4)))
    else match (w.s.die die).queue q with
      | m :: t =>
        give { w with s := w.s.modDie die (fun x => { x with queues := kset x.queues q t }) } (fun j =>
          if j = 0 then lo32 m.hdr else if j = 1 then hi32 m.hdr else m.payload.getD (j - 2) 0)
      | [] => if nb then give w (fun _ => 0) else { w with hold := some .depEngine }

def execMsgrecv (h : Hdr) (d a : Opnd) (nb : Bool) (s : State) := runWord (.msgrecv h d a nb) s fun w => w.msgrecv d a nb

/-- The POSTs of a shoot-down enter as a multicast (R365). -/
def State.shootPost (s : State) (gid pend : Nat) (ds : List Nat) (p : List Word) : State :=
  { s.nextSeq with serial := s.serial + 1, supOps := kset s.supOps s.serial ⟨gid, pend, 6, 3, s.pkg.seqNo + 1, 0, ds, p, 0⟩, shoots := kset s.shoots s.serial ⟨gid, pend, ds, []⟩ }

/-- INVAPPLY (R365): the release, then the POSTs as a multicast. -/
def W.invapply (w : W) (d a : Opnd) : W :=
  if w.ex.isEmpty then w
  else
    let m := (w.g.rdj 0 0 a).toNat
    if m = 0 ∨ 2 ^ 21 ≤ m ∨ bitsOf m 8 12 ≠ 0 then w.status2 d 4
    else match w.relWait 0 with
      | some w => w
      | none =>
        let v := w.relDone
        { (v.pend [] none false).2 with s := (v.pend [] none false).2.s.shootPost w.gid v.s.serial (maskDies m) ((List.range 11).map (fun j => w.g.rdj 0 (j + 1) a)) }

def execInvapply (h : Hdr) (d a : Opnd) (s : State) := runWord (.invapply h d a) s fun w => w.invapply d a

/-- TLBINV (R368): the entry's first steps now, the rest once they can be completed. -/
def W.tlbinv (w : W) (d a : Opnd) : W :=
  if w.ex.isEmpty then w
  else
    let v := (List.range 8).foldl (fun x j => x + (w.g.rdj 0 j a).toNat * 2 ^ (32 * j)) 0
    let die := coreDie w.g.core
    if (8 ≤ die ∧ die < 20) ∨ entryKind v = 3 then w.status2 d 4
    else
      { w with s := w.s.applyEntry die v false }.supOp 5 die 0 0 [] ((List.range 8).map (fun j => w.g.rdj 0 j a))

def execTlbinv (h : Hdr) (d a : Opnd) (s : State) := runWord (.tlbinv h d a) s fun w => w.tlbinv d a

/-- A TLBINV ends when its entry is complete. -/
def State.tlbStep (s : State) (id : Nat) (o : SupOp) : State :=
  let v := o.msg.zipIdx.foldl (fun x m => x + m.1.toNat * 2 ^ (32 * m.2)) 0
  if s.applyClear o.ctx v then (({ s with supOps := kdel s.supOps id }).applyEntry o.ctx v true).answers o.gid o.pend [0, 0] else s

/-- The messages, POSTs and TLBINVs that are still working, once a clk. -/
def State.dieOps (s : State) : State :=
  s.supOps.foldl (fun s o => if o.2.kind = 4 ∨ o.2.kind = 6 then s.sendStep o.1 o.2 else if o.2.kind = 5 then s.tlbStep o.1 o.2 else s) s

/-- The bytes of a frame by ZEROPG's size code (R369). -/
def groomBytes (c : Nat) : Nat := match c with | 0 => 2 ^ 16 | 1 => 2 ^ 26 | _ => 2 ^ 36

/-- A frame enters a die's Groomer (R369), to be zero at a time no rule states. -/
def State.groomEnter (s : State) (die pa n gid pend : Nat) : State :=
  s.freeDue.2.modDie die (fun m => { m with groom := m.groom ++ [⟨pa, n, gid, pend, s.freeDue.1⟩] })

/-- ZEROPG (R369). -/
def W.zeropg (w : W) (d a b : Opnd) : W :=
  if w.ex.isEmpty then w
  else
    let x := (w.g.rd 0 b).toNat
    let pa := (w.g.rd64 0 a).toNat
    let sz := x / 16 % 4
    let die := 8 + x % 16
    if 11 < x % 16 ∨ sz = 3 ∨ pa % groomBytes sz ≠ 0 ∨ 2 ^ 52 ≤ pa then w.status d 4
    else if !w.s.dieUp die then w.status d 10
    else
      { (w.pend [] none false).2 with s := (w.pend [] none false).2.s.groomEnter die pa (groomBytes sz) w.gid w.s.serial }

def execZeropg (h : Hdr) (d a b : Opnd) (s : State) := runWord (.zeropg h d a b) s fun w => w.zeropg d a b

/-- The first frame of a die whose zeroing may be over. -/
def State.groomDue (s : State) (d : Nat) : Option GroomReq := (s.die d).groom.find? (fun g => decide (g.due ≤ s.pkg.clock))

/-- GROOMER_REPORT (R148, R369). -/
def execGroomerReport (die : Nat) (s : State) := runEvent s fun s =>
  match s.groomDue die with
  | none => s
  | some g =>
    let s := s.modDie die (fun d => { d with groom := d.groom.erase g })
    let s := { s.zeroRange (flatPa 0 g.pa) g.len with badWords := s.badWords.filter (fun w => !(decide (flatPa 0 g.pa < w + 8) && decide (w < flatPa 0 g.pa + g.len))) }
    (s.evalWatches (flatPa 0 g.pa) g.len).answer g.gid g.pend 0

/-- Whether two dies are joined by a link (R373). -/
def State.linked (s : State) (a b : Nat) : Bool :=
  s.pkg.links.any (fun l => decide (0 < l.active) && ((decide (l.a = a) && decide (l.b = b)) || (decide (l.a = b) && decide (l.b = a))))

/-- The dies reached from a set over UP dies but one (R374, R376), in a number of hops. -/
def State.reachDies (s : State) (but : Nat) : Nat → List Nat → List Nat
  | 0, l => l
  | n + 1, l => s.reachDies but n (l ++ (List.range 21).filter (fun d =>
      !l.contains d && decide (d ≠ but) && s.dieUp d && l.any (fun x => s.linked x d)))

/-- The UP dies that would lose their last route to die 20 without a die (R376). -/
def State.cutBy (s : State) (but : Nat) : List Nat :=
  let r := s.reachDies but 21 [20]
  (List.range 21).filter (fun d => decide (d ≠ but) && s.dieUp d && !r.contains d)

/-- The hops from every die to a target over UP dies (R374): the distance, 21 when there is no route. -/
def State.hops (s : State) (t : Nat) : Nat → List (Nat × Nat)
  | 0 => [(t, 0)]
  | n + 1 =>
    let m := s.hops t n
    (List.range 21).foldl (fun m d =>
      if (kget m d).isSome ∨ !s.dieUp d then m
      else if m.any (fun x => decide (x.2 = n) && s.linked x.1 d) then kset m d (n + 1) else m) m

/-- The first hop of the route from a die to another (R374): on a shortest path, the lowest die number. -/
def State.routeHop (s : State) (a t : Nat) : Option Nat :=
  let m := s.hops t 21
  match kget m a with
  | none => none
  | some k => (List.range 21).find? (fun d => s.linked a d && s.dieUp d && (match kget m d with
    | some j => decide (j + 1 = k)
    | none => false))

/-- A die's loss told to every group of every context that depends on it (R371 item 3, R376). -/
def State.tellLoss (s : State) (d : Nat) (c : Cause) : State :=
  let hit : Nat → Bool := fun ctx => ((s.ctxD ctx).tdmask).getLsbD d && (s.ctx ctx).isSome
  let f : LaneFault := ⟨0, c, 0, 0, 0, kindOther, d, false⟩
  { s with groups := kmap s.groups (fun _ g => if hit g.ctx && !g.isSup then { g with asyncs := g.asyncs ++ [f] } else g),
           teams := kmap s.teams (fun _ t => if hit t.ctx then { t with saved := kmap t.saved (fun _ g => { g with asyncs := g.asyncs ++ [f] }) } else t) }

/-- Whether a leaf's page is homed on a die with no replica (R371 item 4). -/
def homedOn (d : Nat) (leaf : DWord) : Bool := decide (leafHome leaf.toNat + 8 = d) && decide (leafHome leaf.toNat < 12) && !leafM leaf.toNat

/-- Dirty lines of pages that are lost with a die discarded, one no-trap record each (R151, R371 item 4). -/
def State.loseLines (s : State) (d : Nat) : State :=
  let l2 := s.dies.flatMap (fun x => (x.2.l2.filter (fun l => homedOn d l.2.leaf && l.2.bytes.any (fun b => b.2.dirty))).map (fun l => (l.2.ctx, l.1 * 128)))
  let l1 := s.cores.flatMap (fun c => (c.2.l1.filter (fun l => homedOn d l.2.leaf && l.2.bytes.any (fun b => b.2.dirty))).map (fun l => (c.2.owner, l.2.pline * 128)))
  let s := { s with dies := kmap s.dies (fun _ x => { x with l2 := x.l2.filter (fun l => !homedOn d l.2.leaf) }),
                    cores := kmap s.cores (fun _ c => { c with l1 := c.l1.filter (fun l => !homedOn d l.2.leaf) }) }
  (l2 ++ l1).foldl (fun s x => s.mchkRecord x.1 0 x.2) s

/-- The watch entries of a lost die (R219): on a mirrored page they go to the replica's section, otherwise they end. -/
def State.loseWatches (s : State) (d : Nat) : State :=
  let ws := (s.die d).watches
  let s := s.modDie d (fun x => { x with watches := [] })
  ws.foldl (fun s w =>
    match (s.xlateCtx w.2.ctx w.2.ptr needR).1 with
    | .ok e _ =>
      let target := 8 + leafMhome e
      if leafM e then (match s.watchSlot target w.2.ctx with
        | some i => s.modDie target (fun x => { x with watches := kset x.watches i w.2 })
        | none => s)
      else (match w.2.waiter with
        | .group g => s.watchWake g w.2.m.w64 0 4
        | .record _ => s)
    | _ => (match w.2.waiter with
        | .group g => s.watchWake g w.2.m.w64 0 4
        | .record _ => s)) s

/-- The teams on a lost die discarded (R371 item 3): the grids and nodes that held them store no signal. -/
def State.loseTeams (s : State) (d : Nat) : State :=
  let ts := s.teams.filter (fun t => (t.2.resident || t.2.successor) && decide (coreDie t.2.core = d))
  let s := s.modFe (fun e => { e with
    grids := kmap e.grids (fun id g => if ts.any (fun t => decide (t.2.grid = id)) then { g with sigptr := 0 } else g),
    nodes := kmap e.nodes (fun k n => if ts.any (fun t => decide (t.2.ctx = k / 4096) && (decide (t.2.nodeid.toNat = k % 4096) || t.2.bound.any (fun b => decide (b.node = k % 4096))))
      then { n with lost := true } else n) })
  ts.foldl (fun s t => s.discardTeam t.1) s

/-- The cores of a lost die: what they held is gone, and they belong to the idle account (R371, R385). -/
def State.loseCores (s : State) (d : Nat) : State :=
  let s := (dieCores d).foldl (fun s c =>
    if (kget s.cores c).isNone then s
    else ((s.modCore c (fun k => { k with l1 := [], sideLog := [], changing := none, trace := [], traceLoss := 0 })).passCore c 0)) s
  let sup := s.groups.filter (fun g => g.2.isSup && decide (coreDie g.2.core = d))
  let s := { s with groups := s.groups.filter (fun g => !(g.2.isSup && decide (coreDie g.2.core = d))),
                    supOps := s.supOps.filter (fun o => sup.all (fun g => decide (g.1 ≠ o.2.gid))),
                    dry := match s.dry with
                      | some x => if sup.any (fun g => decide (g.1 = x.by_)) then none else some x
                      | none => none }
  { s with wbs := s.wbs.filter (fun w => decide (w.2.die ≠ d)),
           mem := s.mem.filter (fun e => !((List.range 560).any (fun c => decide (coreDie c = d) && decide (flatStack c 0 0 ≤ e.1) && decide (e.1 < flatStack (c + 1) 0 0)))) }

/-- Requests made to a lost die's supervisors: their originators elsewhere ask again, but a saved SYSCALL stays unanswered. -/
def State.loseRequests (s : State) (d : Nat) : State :=
  let rs := s.reqs.filter (fun r => decide (r.2.die = d) && decide (r.2.type ≠ 3))
  let s := { s with reqs := s.reqs.filter (fun r => !(decide (r.2.die = d) && decide (r.2.type ≠ 3))) }
  rs.foldl (fun s r => s.verdict r.2 true 0) s

/-- A die leaves UP (R362, R365): the shoot-downs that waited for it count it dead. -/
def State.leaveUp (s : State) (d : Nat) : State :=
  let s := s.modDie d (fun x => { x with posts := [], applying := false })
  (s.shoots.filter (fun h => h.2.wait.contains d)).foldl (fun s h => s.shootTake h.1 d true) s

/-- A die enters DOWN or LOST (R371). -/
def State.dieFalls (s : State) (d : Nat) (st : DieState) (c : Cause) : State :=
  let s := (s.leaveUp d).modDie d (fun x => { x with st := st })
  let s := (s.tellLoss d c).loseTeams d
  let s := ((s.loseLines d).loseWatches d).loseCores d
  let s := (s.die d).groom.foldl (fun s g => s.answer g.gid g.pend 10) s
  (s.loseRequests d).modDie d (fun x => { Die.reset with st := st, nextTicket := x.nextTicket })

/-- Dies cut off from die 20 enter LOST, lowest first (R375, R376). -/
def State.cutOff (s : State) : State := (s.cutBy 21).foldl (fun s d => s.dieFalls d .lost .fabric) s

/-- Loss of the package (R375, R419): nothing runs any more. -/
def State.packageOff (s : State) : State := s.modPkg (fun p => { p with on := false })

/-- DIE_LOSS (R371, R375): a hardware fault of a die that is UP or draining. -/
def State.dieLoss (s : State) (d : Nat) : State :=
  if d = 20 then s.packageOff
  else match (s.die d).st with
    | .up => (s.dieFalls d .lost .dieLost).cutOff
    | .drain =>
      let s := s.dieFalls d .lost .dieLost
      (s.modPkg (fun p => if p.fmdie = some d then { p with fmdie := none, fmres := 0 } else p)).cutOff
    | _ => s

/-- A reset request (R376). -/
def State.fmRequest (s : State) (v : Word) : State :=
  let d := v.toNat % 32
  if s.pkg.fmdie.isSome ∨ 20 ≤ d then s.modPkg (fun p => { p with fmres := 3 })
  else match (s.die d).st with
    | .up =>
      let cut := s.cutBy d
      let m := cut.foldl (fun m x => m + 2 ^ x) 0
      if !cut.isEmpty && !v.getLsbD 31 then s.modPkg (fun p => { p with fmres := 2, fmcut := m })
      else
        let t := Config.freeTime s.free % (100 * s.pkg.freq)
        let s := { s with free := s.free + 1 }.leaveUp d
        (s.modDie d (fun x => { x with st := .drain, drainUntil := s.pkg.clock + 1 + t })).modPkg (fun p =>
          { p with fmres := 1, fmcut := m, fmdie := some d })
    | .lost => (s.modDie d (fun x => { x with st := .down })).modPkg (fun p => { p with fmres := 0, fmcut := 0, booted := p.booted.filter (fun x => decide (x ≠ d)) })
    | _ => s.modPkg (fun p => { p with fmres := 0, fmcut := 0 })

/-- Whether a die's drain may end now. -/
def State.drainOver (s : State) (d : Nat) : Bool := decide ((s.die d).st = .drain) && decide ((s.die d).drainUntil ≤ s.pkg.clock)

/-- DRAIN_DONE (R375, R376). -/
def execDrainDone (die : Nat) (s : State) := runEvent s fun s =>
  if s.drainOver die then
    let s := (s.dieFalls die .down .dieLost).cutOff
    s.modPkg (fun p => { p with fmres := if p.fmdie = some die then 0 else p.fmres, fmdie := if p.fmdie = some die then none else p.fmdie,
                                booted := p.booted.filter (fun x => decide (x ≠ die)) })
  else s

def execDieLoss (die : Nat) (s : State) := runEvent s fun s => s.dieLoss die
def execFmResetRequest (v : Word) (s : State) := runEvent s fun s => s.fmRequest v

/-- A link's width changed (R377): 1 to its module count. -/
def State.linkWidth (s : State) (a b n : Nat) : State :=
  s.modPkg (fun p => { p with links := p.links.map (fun l =>
    if ((l.a = a ∧ l.b = b) ∨ (l.a = b ∧ l.b = a)) ∧ 1 ≤ n ∧ n ≤ l.mods then { l with active := n } else l) })

def execLinkWidthChange (a b n : Nat) (s : State) := runEvent s fun s => s.linkWidth a b n
/-- LINK_CLOCK_CHANGE (R377): the link retrains; its traffic waits, and none of it is lost or reordered. -/
def execLinkClockChange (_a _b : Nat) (s : State) := runEvent s fun s => s

/-- Whether what kept a word from its page is over (R165, R167, R372): WB is clear and the home answers, as the group's cluster
sees the leaf, or the page is gone. -/
def State.pageFree (s : State) (g : Group) (ptr : DWord) : Bool :=
  match (if g.isSup then s.walk (s.die (coreDie g.core)).sptroot (vaOf ptr) else (s.leafTlb (coreCcl g.core) g.ctx ptr).1) with
  | .ok e size => !leafWb e && (match s.place g.isSup e size ptr with
    | .wait => false
    | _ => true)
  | _ => true

/-- Groups whose page is free again go on, once a clk. -/
def State.pagesTry (s : State) : State :=
  { s with groups := kmap s.groups (fun _ g => match g.wait with
    | .wbClear p => if s.pageFree g p then g.served else g
    | _ => g) }

end Sys2Proof.Machine
end

