-- ==== Sys2Proof/Machine/Ready.lean ====
section
/-! DEFINITION. Fetching (R79, R168, R401), readiness and the choice of a port (R76, R77), and what keeps a group from issuing, by
the rows of R379 and R381. -/

namespace Sys2Proof.Machine

/-- The pointer of an instruction fetch: the context's CODETAG over the address (R153, R159). -/
def State.codePtr (s : State) (g : Group) (pc : Pc) : DWord :=
  BitVec.ofNat 64 (bitsOf (s.ctxD g.ctx).tcfg.toNat 24 8 * 2 ^ 56 + pc.toNat * 8)

/-- The flat address of a physical address that carries no HOME (R424): M-die d's HBM lies at d × 2^46 as the example of the migration
procedure has it (R177), any other address in host memory (DEDUCED, log 61). -/
def flatPhys (pa : Nat) : Nat :=
  let d := pa / 2 ^ 46
  if 8 ≤ d ∧ d < 20 then flatPa 0 pa else flatPa 15 pa

/-- The eight bytes at a group's issue address, when they have been fetched: from the core's instruction cache, or on a supervisor,
service or boot core from physical memory (R401; DEDUCED, log 61). -/
def State.fetched (s : State) (g : Group) (pc : Pc) : Option (List Byte) :=
  if g.isSup then some (s.bytes (flatPhys (pc.toNat * 8)) 8)
  else (kget (s.core g.core).icache (pc.toNat / 16)).map (fun l => (l.drop (pc.toNat % 16 * 8)).take 8)

/-- What stands at a group's issue address. -/
inductive AtPc where
  | absent
  | illegal
  | word (i : Instr)
  deriving DecidableEq, Repr

/-- The word at an address as it stands for a group (R46, R47). -/
def State.atPc (s : State) (g : Group) (pc : Pc) : AtPc :=
  match s.fetched g pc with
  | none => .absent
  | some b => match decodeBytes b with
    | .ok i => if legalFor g i then .word i else .illegal
    | .error _ => .illegal

/-- Words whose only memory effect is a read (R191): LD, LDU, LDM, POP, RET, TOUCH, PREF, VPROBE, WATCH and WATCHT. -/
def isLoadOp (op : Nat) : Bool := [0x100, 0x102, 0x184, 0x091, 0x086, 0x106, 0x107, 0x10C, 0x157, 0x158].contains op

/-- Every other word that accesses memory or starts an engine, sequencer or work operation (R191). -/
def isStoreOp (op : Nat) : Bool :=
  [0x101, 0x103, 0x185, 0x090, 0x084, 0x085, 0x159, 0x108, 0x109, 0x1F1].contains op || (decide (0x130 ≤ op) && decide (op ≤ 0x135)) ||
  (decide (0x160 ≤ op) && decide (op ≤ 0x168)) || decide (op = 0x16C) || (decide (0x1A0 ≤ op) && decide (op ≤ 0x1A6)) ||
  (decide (0x1B0 ≤ op) && decide (op ≤ 0x1B5)) || (decide (0x1C0 ≤ op) && decide (op ≤ 0x1C3))

/-- The fence that holds a word (R191, R192, R194). -/
def Group.fenceHold (g : Group) (op : Nat) : Option FenceRec :=
  g.fences.find? (fun f => !f.barrier &&
    ((isLoadOp op && (f.acq || (f.rel && f.holdLoads))) || (isStoreOp op && (f.acq || (f.rel && f.holdStores)))))

/-- The registers a word reads or writes, in the order of R381. -/
def State.wordRegs (s : State) (g : Group) (i : Instr) : List Nat :=
  let f := info i
  srcRegs f ++ dstRegs f ++ (match i with
    | .mxb _ _ a _ _ => s.mxbRegs g a
    | _ => [])

/-- The scoreboard entry that a word waits for (R40, R381). -/
def State.depOf (s : State) (g : Group) (i : Instr) : Option Pend :=
  match (s.wordRegs g i).findSome? (fun r => g.pends.find? (fun p => p.regs.contains r)) with
  | some p => some p
  | none =>
    let f := info i
    let n := g.pends.foldl (fun n p => n + p.regs.length) 0
    if f.lat = 0 ∧ !(dstRegs f).isEmpty ∧ 64 < n + (dstRegs f).length then g.pends.find? (fun p => !p.regs.isEmpty)
    else if f.sp = some .g then g.pends.find? (fun p => decide (p.op = 0x106))
    else none

/-- Whether a scoreboard entry is an atomic's whose release is not over (R194): its wait is a wait for a release (R379). -/
def State.releaseHeld (s : State) (g : Group) (p : Pend) : Bool :=
  s.atoms.any (fun a => decide (a.2.pend = some p.id) &&
    (match a.2.relFence with
    | none => false
    | some f => g.fences.any (fun x => decide (x.id = f) && (x.rel || x.acq))))

/-- The copy job that an XFENCE waits for (R240). -/
def State.xfenceJob (s : State) (g : Group) : Option CopyJob := g.copyWait.findSome? (fun id => kget s.jobs id)

/-- Why a group does not issue in this clk, by the rows of R379 from the sixth on, and the blame PC; none when it is ready (R76). -/
def State.holdOf (s : State) (g : Group) : Option (SlotCause × Pc) :=
  let clk := s.pkg.clock
  let pc := g.issuePc.getD exitPc
  let early : Option (SlotCause × Pc) :=
    if !g.isSup && s.halted g.ctx then some (.fault, 0)
    else if g.trap.isSome || g.restart then some (.fault, g.waitPc)
    else match g.wait with
      | .fault => some (.fault, g.waitPc)
      | .syscall _ => some (.fault, g.waitPc)
      | .wbClear _ => some (.fault, g.waitPc)
      | _ => if clk < g.retryAt ∧ g.retryCause = .fault then some (.fault, g.waitPc) else none
  match early with
  | some x => some x
  | none =>
    match s.atPc g pc with
    | .absent => some (.fetch, pc)
    | at_ =>
      if clk < g.redirUntil then some (.branch, g.redirPc)
      else match g.wait with
        | .sleep _ => some (.yield, g.waitPc)
        | .barrier _ _ _ => some (.barrier, g.waitPc)
        | .watch _ _ => some (.watch, g.waitPc)
        | .engine => some (.depEngine, g.waitPc)
        | _ =>
          if clk < g.retryAt then some (g.retryCause, g.waitPc)
          else
            let held : Option (SlotCause × Pc) := match at_ with
              | .word i =>
                (match g.fenceHold (info i).op with
                | some f => some (.fence, f.pc)
                | none => match s.depOf g i with
                  | some p => some (if s.releaseHeld g p then .fence else depCause p.op, p.pc)
                  | none => (s.xfenceJob g).map (fun j => (.depEngine, j.pc)))
              | _ => none
            match held with
            | some x => some x
            | none =>
              if clk < g.pathUntil then some (.pipe, g.pathPc)
              else if clk < g.stallUntil then some (.depFixed, g.stallPc)
              else none

/-- The groups of a port that have not retired, oldest first (R76). -/
def insertBorn (x : Nat × Group) : List (Nat × Group) → List (Nat × Group)
  | [] => [x]
  | y :: t => if x.2.born < y.2.born then x :: y :: t else y :: insertBorn x t
def State.onPort (s : State) (core port : Nat) : List (Nat × Group) :=
  (s.groups.filter (fun g => decide (g.2.core = core) && decide (g.2.port = port) && !g.2.retired)).foldl (fun l g => insertBorn g l) []

/-- The choice among groups, oldest first, by R76: aged, greedy, oldest. -/
def pickOf (last : Option Nat) (l : List (Nat × Group)) : Option (Nat × Group) :=
  let top := l.foldl (fun m g => max m g.2.ageCount) 0
  if 1008 ≤ top then l.find? (fun g => decide (g.2.ageCount = top))
  else match l.find? (fun g => decide (last = some g.1)) with
    | some g => some g
    | none => l.head?

/-- Whether a core issues in this clk: its owner stays, its die runs, and the slot is not withheld (R22, R379, R418). -/
def State.coreRuns (s : State) (core : Nat) : Bool := (s.core core).changing.isNone && s.dieServes (coreDie core)

/-- Whether a group may issue at all: its team is not being saved and the stop's re-execution does not have it. -/
def State.mayIssue (s : State) (gid : Nat) (g : Group) : Bool :=
  (g.isSup || !(s.teamD g.tid).saving) && decide (s.dry.map (fun d => d.gid) ≠ some gid)

/-- Whether the power controller withholds a slot in this clk (R418): which slots is FREE (log 13). -/
def State.withheldSlot (s : State) (core port : Nat) : Bool :=
  isCompute core && s.pkg.thr && decide (Config.throttleChoice s.pkg.clock core port % 2 = 1)

/-- The group that a port issues now (R76): a port issues once in a clk. -/
def State.pick (s : State) (core port : Nat) : Option (Nat × Group) :=
  if !s.coreRuns core || (kget (s.core core).issued port).isSome || s.withheldSlot core port then none
  else pickOf (kget (s.core core).lastIssuer port)
    ((s.onPort core port).filter (fun g => s.mayIssue g.1 g.2 && (s.holdOf g.2).isNone))

/-- The candidate of a port that has not issued (R77). -/
def State.candidate (s : State) (core port : Nat) : Option (Nat × Group) :=
  pickOf (kget (s.core core).lastIssuer port) (s.onPort core port)

end Sys2Proof.Machine
end

