-- ==== Sys2Proof/Machine/SysWrite.lean ====
section
/-! DEFINITION. WRSYS (R331): the fields of each system register that a level writes (R5, R332), and what the write of one does
beside changing it. -/

namespace Sys2Proof.Machine

/-- A W1C field of a word from bit `lo`, `n` bits wide: each 1 of the value clears its bit (R5). -/
def w1c (old v : Word) (lo n : Nat) : Word := old &&& ~~~(v &&& BitVec.ofNat 32 (field lo n (2 ^ n - 1)))

/-- An RW field of a word from bit `lo`, `n` bits wide (R5). -/
def rwField (old v : Word) (lo n : Nat) : Word :=
  let m := BitVec.ofNat 32 (field lo n (2 ^ n - 1))
  (old &&& ~~~m) ||| (v &&& m)

/-- FRCTL written by a level (R332, R333): below SUPERVISOR only LOSS is acted on. -/
def frctlWrite (sup : Bool) (old v : Word) : Word :=
  let x := w1c old v 0 16
  if sup then rwField (rwField x v 27 5) v 19 8 else x

/-- SLSTAT written (R333): clearing FLOOR clears RMAX. -/
def slstatWrite (old v : Word) : Word := if v.getLsbD 31 && old.getLsbD 31 then 0 else old

/-- ACCSTAT's stored bits written (R260). -/
def accstatWrite (old v : Word) : Word := rwField (w1c (w1c old v 27 1) v 26 1) v 28 4

/-- A system register written by a group (R331–R333, R359, R364, R376, R378, R395). -/
def State.sysWrite (s : State) (gid : Nat) (g : Group) (r : SysReg) (v : DWord) : State :=
  let sup := decide (2 ≤ levelCode g.level)
  let x := lo32 v
  let d := coreDie g.core
  let ctx : (Ctx → Ctx) → State := fun f => s.modCtx g.ctx f
  let die : (Die → Die) → State := fun f => s.modDie d f
  let grp : (Group → Group) → State := fun f => s.modGrp gid f
  match r with
  | .hndpc => grp (fun g => { g with hndpc := x })
  | .schk => grp (fun g => { g with schk := x.getLsbD 0 })
  | .mxstat => grp (fun g => { g with mxstat := w1c g.mxstat x 0 2 })
  | .accstat => s.modTeam g.tid (fun t => { t with accstat := accstatWrite t.accstat x })
  | .stklim => grp (fun g => { g with stklim := x &&& 0xFFFFFFF8#32 })
  | .ctxstat => ctx (fun c => { c with ctxstat := w1c c.ctxstat x 2 3 })
  | .frctl => ctx (fun c => { c with frctl := frctlWrite sup c.frctl x })
  | .frhead => ctx (fun c => { c with frhead := x })
  | .slstat => ctx (fun c => { c with slstat := slstatWrite c.slstat x })
  | .frbase => ctx (fun c => { c with frbase := v })
  | .hsbase => ctx (fun c => { c with hsbase := v })
  | .slice => ctx (fun c => { c with slice := x &&& 0x000FFFFF#32 })
  | .ptroot => ctx (fun c => { c with ptroot := v &&& 0x000FFFFFFFFFE000#64 })
  | .btbase => ctx (fun c => { c with btbase := v &&& 0x000FFFFFFFFFF000#64 })
  | .tcfg => ctx (fun c => { c with tcfg := x &&& 0xFF00FFFF#32 })
  | .dfrbase => (die (fun x => { x with dfrbase := v, dfrset := true })).postWaiting d
  | .dfrhead => (die (fun y => { y with dfrhead := x })).postWaiting d
  | .dloss => die (fun y => { y with dloss := (w1c (BitVec.ofNat 32 y.dloss) (x >>> 16) 0 16).toNat, rloss := (w1c (BitVec.ofNat 32 y.rloss) x 0 16).toNat })
  | .sptroot => die (fun y => { y with sptroot := v &&& 0x000FFFFFFFFFE000#64 })
  | .ilbase => die (fun y => { y with ilbase := v &&& 0x000FFFFFFFFE0000#64 })
  | .fmreq => s.fmRequest x
  | .wwidx => die (fun y => { y with wwidx := x &&& 0xFFF#32 })
  | .trbase => die (fun y => { y with trbase := v &&& 0x000FFFFFFFFF0000#64 })
  | .trctl => die (fun y => { y with trctl := x &&& 0x8000001F#32 })
  | .trhead => die (fun y => { y with trhead := x })
  | _ => s

/-- WRSYS (R331): the write takes effect for the group's next word; on supervisor and service cores the void numbers are
discarded (R334). In a stop's re-execution nothing is written (R397). -/
def W.wrsys (w : W) (a : Opnd) (n : Nat) : W :=
  if w.ex.isEmpty || w.dry || (w.g.isSup && sysVoid n) then w
  else match sysOf n with
    | some (r, _) =>
      { w with s := w.s.sysWrite w.gid w.g r (w.g.rd64 0 a) }
    | none => w

def execWrsys (h : Hdr) (a : Opnd) (w64 : Bool) (n : Fin 1024) (s : State) := runWord (.wrsys h a w64 n) s fun w => w.wrsys a n.val

end Sys2Proof.Machine
end

