-- ==== Sys2Proof/Machine/Measure.lean ====
section
/-! DEFINITION. Charging the slots of a clk (R379–R382), the measurement words 0x1F0–0x1F5 (R386–R393), samples, trace buffers and
rings (R392–R395). -/

namespace Sys2Proof.Machine

/-- The charge of a port's slot in the clk that ends (R379, R380). The time from a change of owner's end to the new owner's first
issue still belongs to the interval. -/
def State.slotCharge (s : State) (core port : Nat) : Charge :=
  let k := s.core core
  match k.changing with
  | some next => ⟨.switch, next, 0, 0, none⟩
  | none =>
    if k.owner ≠ 0 ∧ k.turnFirst.isNone then ⟨.switch, k.owner, 0, 0, none⟩
    else match kget k.issued port with
      | some c => c
      | none => match s.candidate core port with
        | none => ⟨.empty, k.owner, 0, 0, none⟩
        | some (gid, g) =>
          let pc := g.issuePc.getD exitPc
          let who := some (gid, g.rgncnt, g.retcnt)
          match s.holdOf g with
          | none => if s.withheldSlot core port then ⟨.throttle, k.owner, pc, pc, who⟩ else ⟨.fault, k.owner, pc, g.waitPc, who⟩
          | some (c, b) => ⟨c, k.owner, pc, b, who⟩

/-- A slot counted (R380, R382): in the new owner's counters while the core changes owner. -/
def Core.count (k : Core) (port : Nat) (c : Charge) : Core :=
  if k.changing.isSome then { k with swCounters := addCount k.swCounters (counterKey port (slotCode c.cause)) 1 }
  else { k with counters := addCount k.counters (counterKey port (slotCode c.cause)) 1 }

/-- TRCTL's fields (R395). -/
def Die.traceOn (d : Die) : Bool := d.trctl.getLsbD 31 && decide (10 ≤ d.trctl.toNat % 32) && decide (d.trctl.toNat % 32 ≤ 24)
def Die.traceFull (d : Die) : Bool := decide (2 ^ (d.trctl.toNat % 32) ≤ (d.trtail - d.trhead).toNat)

/-- A trace record (R394). -/
def traceRec (time pc blame rgn ret ctx gh cause : Nat) (ng : Bool) (type : Nat) : TraceRec :=
  ⟨field 208 48 time + field 155 53 pc + field 102 53 blame + field 70 32 rgn + field 38 32 ret + field 29 9 ctx + field 13 16 gh +
   field 9 4 cause + field 3 1 (if ng then 1 else 0) + field 0 3 type⟩

/-- A LOSS record once the buffer has room for two records (R395). -/
def State.lossRecord (s : State) (core : Nat) : State :=
  s.modCore core (fun k =>
    if decide (0 < k.traceLoss) && decide (k.trace.length ≤ 126) then
      { k with trace := k.trace ++ [traceRec s.time 0 0 k.traceLoss 0 0 (handleOf (gidOf core 0 0)) 0 false 3], traceLoss := 0 }
    else k)

/-- A record entering a core's trace buffer (R395): dropped and counted when it is full, discarded when the die's ring is off or
the die has none. -/
def State.traceAdd (s : State) (core : Nat) (r : TraceRec) : State :=
  let d := coreDie core
  if decide (8 ≤ d) || !(s.die d).traceOn then s
  else if 128 ≤ (s.core core).trace.length then s.modCore core (fun k => { k with traceLoss := satInc k.traceLoss (2 ^ 32 - 1) })
  else (s.lossRecord core).modCore core (fun k => { k with trace := k.trace ++ [r] })

/-- The effective period of a context's samples (R391). -/
def samplePeriod (smp : Word) : Nat := 2 ^ (min 24 (max 10 (smp.toNat % 32)))

/-- Whether a slot is sampled in the clk (R392). -/
def State.sampled (s : State) (core port : Nat) (c : Charge) : Bool :=
  let x := s.ctxD c.acct
  isCompute core && decide (port < 4) && decide (c.acct ≠ 0) && decide (c.cause ≠ .switch) && !s.halted c.acct && x.smpctl.getLsbD 31 &&
    decide ((s.pkg.clock + 37 * (4 * core + port)) % samplePeriod x.smpctl = 0)

/-- A slot's sample, if it takes one (R392). -/
def State.sampleSlot (s : State) (core port : Nat) (c : Charge) : State :=
  if s.sampled core port c then
    let gh := match c.cand with
      | some (g, _, _) => handleOf g
      | none => handleOf (gidOf core port 0)
    let rgn := (c.cand.map (fun x => x.2.1.toNat)).getD 0
    let ret := (c.cand.map (fun x => x.2.2.toNat)).getD 0
    s.traceAdd core (traceRec s.time c.pc.toNat c.blame.toNat rgn ret c.acct gh (slotCode c.cause) c.cand.isNone 1)
  else s

/-- SAMPLE (R392). -/
def execSample (core port : Nat) (s : State) := runEvent s fun s => s.sampleSlot core port (s.slotCharge core port)
/-- OVERFLOW_FOLD (R382). -/
def execOverflowFold (core port : Nat) (s : State) := runEvent s fun s => s.overflowFold core port

/-- The charges of a core's four ports (R379). -/
def State.chargesOf (s : State) (core : Nat) : List (Nat × Charge) := (List.range 4).map (fun p => (p, s.slotCharge core p))

/-- The end of a clk for one core's slots: counted, sampled, folded on overflow (R379, R382, R392). -/
def State.chargeCore (s : State) (core : Nat) (l : List (Nat × Charge)) : State :=
  l.foldl (fun s x =>
    let s := s.sampleSlot core x.1 x.2
    (s.modCore core (fun k => k.count x.1 x.2)).overflowFold core x.1) s

/-- Every slot of the clk charged: cores that lie idle are entered later. -/
def State.chargeAll (s : State) : State :=
  let l := (s.cores.filter (fun k => isCompute k.1 && !k.2.lazy)).map (fun k => (k.1, s.chargesOf k.1))
  l.foldl (fun s x => s.chargeCore x.1 x.2) s

/-- Whether a core's buffer can give up a record (R395). -/
def State.traceDue (s : State) (core : Nat) : Bool :=
  let d := s.die (coreDie core)
  !(s.core core).trace.isEmpty && (!d.traceOn || !d.traceFull)

/-- The oldest record of a core's buffer carried to its die's ring (R395). -/
def State.traceTake (s : State) (core : Nat) : State :=
  if !s.traceDue core then s
  else
    let n := coreDie core
    let d := s.die n
    match (s.core core).trace with
    | [] => s
    | r :: t =>
      let s := (s.modCore core (fun k => { k with trace := t })).lossRecord core
      if !d.traceOn then s
      else (s.homePut (flatPa 0 (d.trbase.toNat + 32 * (d.trtail.toNat % 2 ^ (d.trctl.toNat % 32)))) (toBytes 32 r.v)).modDie n
        (fun d => { d with trtail := d.trtail + 1 })

/-- TRACE_DELIVER (R395). -/
def execTraceDeliver (core : Nat) (s : State) := runEvent s fun s => s.traceTake core

/-- The count of a cause, or of all of them (R387). -/
def countAt (m : List (Nat × Nat)) (k : Nat) : Nat :=
  if k < 16 then ((kget m k).getD 0) % 2 ^ 64 else (m.foldl (fun n c => n + c.2) 0) % 2 ^ 64

/-- A core's counters by cause: of one port, or of all four (R387). -/
def Core.counts (k : Core) (port : Option Nat) : List (Nat × Nat) :=
  addCounts [] ((k.counters.filter (fun c => match port with
    | some p => decide (c.1 / 16 = p)
    | none => true)).map (fun c => (c.1 % 16, c.2)))

/-- What SPLITRD reads (R387). -/
def State.splitRead (s : State) (gid : Nat) (g : Group) (form : SplitForm) (k : Nat) : Nat :=
  if g.isSup then 0
  else if 16 < k then 2 ^ 64 - 1
  else countAt (match form with
    | .port => (s.core g.core).counts (some (gidPort gid))
    | .core => (s.core g.core).counts none
    | .ctx => s.account g.ctx) k

/-- SPLITRD (R386, R387). -/
def execSplitrd (h : Hdr) (d a : Opnd) (form : SplitForm) (s : State) := runWord (.splitrd h d a form) s fun w =>
  let v := w.s.splitRead w.gid w.g form (w.g.rd 0 a).toNat
  let cells := dstCells64 d w.ex (fun _ => BitVec.ofNat 64 v)
  match form with
  | .ctx =>
    { w with s := (w.s.freePick (4 * w.s.pkg.freq)).2 }.var cells (if w.dry then w.clk else w.clk + 1 + (w.s.freePick (4 * w.s.pkg.freq)).1) false
  | _ => w.var cells (if w.dry then w.clk else w.clk + 6) false

/-- A snapshot's account: sixteen counts (R388). -/
def acctBytes (m : List (Nat × Nat)) : List Byte := (List.range 16).flatMap (fun c => toBytes 8 (((kget m c).getD 0) % 2 ^ 64))

/-- A snapshot's header (R388). -/
def snapHead (time nacc ctx cores : Nat) : List Byte :=
  toBytes 64 (field 448 64 time + field 432 16 nacc + field 423 9 ctx + field 400 8 cores)

/-- A snapshot record (R388). -/
def State.snapshot (s : State) (g : Group) (all : Bool) : List Byte :=
  if all then
    snapHead s.time 258 0 224 ++ (List.range 257).flatMap (fun c => acctBytes (if c = 0 ∨ (s.ctx c).isSome then s.account c else [])) ++
      acctBytes s.pkg.retired
  else if g.isSup then snapHead s.time 1 0 0 ++ acctBytes []
  else snapHead s.time 1 g.ctx (s.coresOf g.ctx) ++ acctBytes (s.account g.ctx)

/-- 64 bytes of a snapshot written at their home: copies of their line leave the caches. -/
def State.putLine (s : State) (g : Group) (ptr : DWord) (flat : Nat) (b : List Byte) : State :=
  if g.isSup then s.homePut flat b else (s.recallLine g.core ptr flat).homePut flat b

/-- The 64-byte pieces of a record checked as a store, in ascending addresses (R388). -/
def State.reachPieces (s : State) (g : Group) (p : DWord) : List Nat → List (Nat × Reach) × State
  | [] => ([], s)
  | n :: t =>
    let q := s.reachG g.who 0 (ptrOff p ((64 * n : Nat) : Int)) 64 true false needW kindStore
    let r := q.2.reachPieces g p t
    ((n, q.1) :: r.1, r.2)

/-- What keeps a snapshot from being written: the first piece that fails a check or must wait. -/
def snapStop (l : List (Nat × Reach)) : Option Reach :=
  (l.find? (fun x => match x.2 with
    | .glob _ _ _ _ => false
    | .ctl _ => false
    | _ => true)).map (fun x => x.2)

/-- Whether a record's pages are held for writing, or a piece of it still lies in the core's side log. -/
def State.snapHeld (s : State) (g : Group) (l : List (Nat × Reach)) : Bool :=
  l.any (fun x => match x.2 with
    | .glob p e _ _ => leafWb e || (!g.isSup && (s.core g.core).sideLog.any (fun y => decide (y.ctx = g.ctx) && decide (vline y.ptr = vline p)))
    | _ => false)

/-- A record's pieces written (R388). -/
def State.putPieces (s : State) (g : Group) (b : List Byte) (l : List (Nat × Reach)) : State :=
  l.foldl (fun s x => match x.2 with
    | .glob q _ _ flat => s.putLine g q flat ((b.drop (64 * x.1)).take 64)
    | _ => s) s

/-- SPLITSNAP (R388). -/
def W.splitsnap (w : W) (d a : Opnd) (all : Bool) : W :=
  if w.ex.isEmpty then w
  else
    let p := w.g.rd64 0 a
    let r := w.s.reachPieces w.g p (List.range ((if all then 33088 else 192) / 64))
    let v := { w with s := r.2 }
    match snapStop r.1 with
    | some f => if v.mute 0 then (v.watchFault f).var (zeroCells v.f 0) v.clk false else v.watchFault f
    | none =>
      if r.2.snapHeld w.g r.1 && !w.dry then { v with hold := some .fault }
      else (v.eff (fun s => s.putPieces w.g (r.2.snapshot w.g all) r.1)).varFree (dstCells64 d w.ex (fun _ => BitVec.ofNat 64 r.2.time)) false

def execSplitsnap (h : Hdr) (d a : Opnd) (all : Bool) (s : State) := runWord (.splitsnap h d a all) s fun w => w.splitsnap d a all

/-- MARK (R393). -/
def W.mark (w : W) (tag : BitVec 8) (a : Opnd) : W :=
  if w.ex.isEmpty || !(w.g.isSup || (w.s.ctxD w.g.ctx).smpctl.getLsbD 30) then w
  else
    let v := w.g.rd 0 a
    w.eff (fun s => s.traceAdd w.g.core
      (traceRec s.time w.pc.toNat (tag.toNat * 2 ^ 32 + v.toNat) w.g.rgncnt.toNat w.g.retcnt.toNat w.g.ctx (handleOf w.gid) 0 false 2))

def execMark (h : Hdr) (tag : BitVec 8) (a : Opnd) (s : State) := runWord (.mark h tag a) s fun w => w.mark tag a

/-- SAMPCFG (R391): in effect at once, the completion follows within 2 µs. -/
def W.sampcfg (w : W) (d a : Opnd) : W :=
  if w.ex.isEmpty then w
  else
    let old := if w.g.isSup then 0 else (w.s.ctxD w.g.ctx).smpctl
    let v := w.g.rd 0 a &&& 0xC000001F#32
    let s := if w.g.isSup then w.s else w.s.modCtx w.g.ctx (fun c => { c with smpctl := v })
    { w with s := (s.freePick (2 * s.pkg.freq)).2 }.var (dstCells d 0 w.ex (fun _ => old)) (if w.dry then w.clk else w.clk + 1 + (s.freePick (2 * s.pkg.freq)).1) false

def execSampcfg (h : Hdr) (d a : Opnd) (s : State) := runWord (.sampcfg h d a) s fun w => w.sampcfg d a

/-- CLOCK (R389). -/
def execClock (h : Hdr) (d : Opnd) (s : State) := runWord (.clock h d) s fun w =>
  w.fix (dstCells64 d w.ex (fun _ => BitVec.ofNat 64 w.s.time))

/-- RETCNT (R390): D takes RETCNT and D+1 RGNCNT. -/
def execRetcnt (h : Hdr) (d : Opnd) (s : State) := runWord (.retcnt h d) s fun w =>
  w.fix (dstCellsN d 2 w.ex (fun j _ => if j = 0 then w.g.retcnt else w.g.rgncnt))

end Sys2Proof.Machine
end

