-- ==== Sys2Proof/Machine/Ethernet.lean ====
section
/-! DEFINITION. Ethernet ingest (R410–R413, R423): frames and rules, rings in a context's memory, the headroom, and the port's
registers. -/

namespace Sys2Proof.Machine

/-- A big-endian field of a frame. -/
def frameNum (f : List Byte) (o n : Nat) : Nat := beNat ((f.drop o).take n)

/-- Whether a type field opens a tag: 802.1Q, or the 802.1ad service tag (PRESUMED, log 62). -/
def isTag (t : Nat) : Bool := decide (t = 0x8100) || decide (t = 0x88A8)

/-- Where the EtherType that follows any tags stands (R423). -/
def etherOff (f : List Byte) : Nat → Nat → Nat
  | 0, o => o
  | n + 1, o => if isTag (frameNum f o 2) then etherOff f n (o + 4) else o

/-- The upper-layer protocol of an IPv6 packet behind its extension headers, its place, and whether the packet is a fragment other
than the first (PRESUMED, log 62). -/
def ipv6Walk (f : List Byte) : Nat → Nat → Nat → Bool → Nat × Nat × Bool
  | 0, nh, o, fr => (nh, o, fr)
  | n + 1, nh, o, fr =>
    if nh = 0 ∨ nh = 43 ∨ nh = 60 then ipv6Walk f n (frameNum f o 1) (o + 8 * (frameNum f (o + 1) 1 + 1)) fr
    else if nh = 44 then ipv6Walk f n (frameNum f o 1) (o + 8) (decide (frameNum f (o + 2) 2 / 8 ≠ 0))
    else (nh, o, fr)

/-- What the rules compare of a frame (R410, R423): the outer tag, the EtherType, the IP version (0 when it is not IP), addresses,
protocol and L4 ports. -/
structure FrameKey where
  dmac : Nat
  tag : Option Nat
  etype : Nat
  ipv : Nat
  src : Nat
  dst : Nat
  proto : Nat
  ports : Option (Nat × Nat)
  deriving DecidableEq, Repr

/-- A frame read for matching. -/
def frameKey (f : List Byte) : FrameKey :=
  let eo := etherOff f 8 12
  let et := frameNum f eo 2
  let ip := eo + 2
  let v := frameNum f ip 1 / 16
  let ipv := if et = 0x0800 ∧ v = 4 then 4 else if et = 0x86DD ∧ v = 6 then 6 else 0
  let six := ipv6Walk f 16 (frameNum f (ip + 6) 1) (ip + 40) false
  let proto := if ipv = 4 then frameNum f (ip + 9) 1 else six.1
  let l4 := if ipv = 4 then ip + 4 * (frameNum f ip 1 % 16) else six.2.1
  let frag := if ipv = 4 then decide (frameNum f (ip + 6) 2 % 8192 ≠ 0) else six.2.2
  { dmac := frameNum f 0 6, tag := if eo = 12 then none else some (frameNum f 14 2), etype := et, ipv := ipv,
    src := if ipv = 4 then frameNum f (ip + 12) 4 else frameNum f (ip + 8) 16,
    dst := if ipv = 4 then frameNum f (ip + 16) 4 else frameNum f (ip + 24) 16,
    proto := proto,
    ports := if ipv ≠ 0 ∧ (proto = 6 ∨ proto = 17) ∧ !frag then some (frameNum f l4 2, frameNum f (l4 + 2) 2) else none }

/-- The top `p` of `n` bits equal. -/
def topEq (n p a b : Nat) : Bool := let k := n - min p n; decide (a / 2 ^ k = b / 2 ^ k)

/-- A rule's word (R423). -/
def ruleW (r j : Nat) : Nat := bitsOf r (64 * j) 64

/-- Whether a frame matches a rule (R423). -/
def ruleHits (r : Nat) (k : FrameKey) : Bool :=
  let m := ruleW r 0
  let six := m.testBit 32
  let want := if six then 6 else 4
  let addr := fun (j : Nat) => if six then ruleW r j * 2 ^ 64 + ruleW r (j + 1) else ruleW r j % 2 ^ 32
  let width := if six then 128 else 32
  let on := fun (b : Nat) (c : Bool) => !m.testBit b || c
  let tagIs := fun (lo n v : Nat) => match k.tag with
    | some t => decide (bitsOf t lo n = v)
    | none => false
  on 0 (decide (k.dmac = bitsOf (ruleW r 1) 0 48)) && on 1 (tagIs 0 12 (bitsOf (ruleW r 1) 48 12)) &&
    on 2 (tagIs 13 3 (bitsOf (ruleW r 1) 60 3)) && on 3 (decide (k.etype = bitsOf (ruleW r 2) 0 16)) &&
    on 4 (decide (k.ipv = want) && topEq width (bitsOf m 16 8) k.src (addr 4)) &&
    on 5 (decide (k.ipv = want) && topEq width (bitsOf m 24 8) k.dst (addr 6)) &&
    on 6 (decide (k.ipv ≠ 0) && decide (k.proto = bitsOf (ruleW r 2) 16 8)) &&
    on 7 (match k.ports with
      | some p => decide (p.1 = bitsOf (ruleW r 2) 32 16)
      | none => false) &&
    on 8 (match k.ports with
      | some p => decide (p.2 = bitsOf (ruleW r 2) 48 16)
      | none => false) &&
    on 9 (decide (k.ipv = want))

/-- The lowest enabled rule that a frame matches (R410). -/
def EthPort.ruleFor (e : EthPort) (f : List Byte) : Option (Nat × Nat) :=
  let k := frameKey f
  e.rules.find? (fun r => (ruleW r.2 0).testBit 63 && ruleHits r.2 k)

def EthRing.en (r : EthRing) : Bool := r.rcfg.getLsbD 63
def EthRing.pauses (r : EthRing) : Bool := r.rcfg.getLsbD 62
def EthRing.slots (r : EthRing) : Nat := 2 ^ (bitsOf r.rcfg.toNat 48 4)
def EthRing.slotBytes (r : EthRing) : Nat := 2 ^ (bitsOf r.rcfg.toNat 44 4)
def EthRing.ctx (r : EthRing) : Nat := bitsOf r.rcfg.toNat 32 9
def EthRing.xoffAt (r : EthRing) : Nat := bitsOf r.rcfg.toNat 16 12
def EthRing.xonAt (r : EthRing) : Nat := bitsOf r.rcfg.toNat 0 12

/-- A ring before anything is written to it. -/
def EthRing.blank : EthRing := ⟨0, 0, false⟩

/-- Where a context's port writes, or the cause that keeps it from writing (R423). -/
def State.ethHome (s : State) (ctx : Nat) (p : DWord) : Except Cause Nat × State :=
  match s.xlateCtx ctx p needW with
  | (.ok e size, s) => (match s.place false e size p with
    | .mem f => (.ok f, s)
    | _ => (.error .mcheck, s))
  | (.fail c, s) => (.error c, s)
  | (.absent _ _, s) => (.error .page, s)

/-- PIDX and CIDX of a ring as its memory has them (R411). -/
def State.ringIdx (s : State) (r : EthRing) : Option (Nat × Nat) :=
  match (s.readCtx r.ctx r.rbase 4).1, (s.readCtx r.ctx (ptrOff r.rbase 0x40) 4).1 with
  | some p, some c => some (ofBytes p, ofBytes c)
  | _, _ => none

/-- A ring's occupancy (R413). -/
def State.ringOcc (s : State) (r : EthRing) : Option Nat := (s.ringIdx r).map (fun x => (x.1 + 2 ^ 32 - x.2) % 2 ^ 32)

/-- DROPS counted up (R411, R413). -/
def State.ringDrops (s : State) (r : EthRing) (n : Nat) : State :=
  match s.ethHome r.ctx (ptrOff r.rbase 0x80) with
  | (.ok f, s) => s.homePut f (toBytes 8 ((s.num f 8 + n) % 2 ^ 64))
  | (_, s) => s

/-- XOFF and XON (R413): what the port has told the sender. -/
def State.ringPause (s : State) (port ring : Nat) (r : EthRing) : State :=
  match s.ringOcc r with
  | some n =>
    let x := if !r.pauses then r.xoff else if r.xoffAt ≤ n then true else if n ≤ r.xonAt then false else r.xoff
    if x = r.xoff then s else s.modEth port (fun e => { e with rings := kmod e.rings ring (fun r => { r with xoff := x }) })
  | none => s

/-- A packet whose write fails a check: counted, with a LATE record (R423). -/
def State.ringFail (s : State) (r : EthRing) (c : Cause) (p : DWord) : State :=
  (s.ringDrops r 1).lateRecord r.ctx ⟨0, c, p, 0, 0, kindStore, 0, true⟩

/-- A packet delivered to its ring (R411, R412): payload and descriptor, then PIDX. -/
def State.ringDeliver (s : State) (port : Nat) (r : EthRing) (h : HeldFrame) (strip : Nat) : State :=
  let slot := fun (i : Nat) => ptrOff r.rbase ((0x10000 + r.slotBytes * (i % r.slots) : Nat) : Int)
  let i := ((s.ringIdx r).map (fun x => x.1)).getD 0
  match s.ethHome r.ctx r.rbase with
  | (.error c, s) => s.ringFail r c r.rbase
  | (.ok base, s) => match s.ethHome r.ctx (slot i) with
    | (.error c, s) => s.ringFail r c (slot i)
    | (.ok pay, s) =>
      let body := h.bytes.drop strip
      let put := body.take r.slotBytes
      let d := field 0 32 put.length + field 32 16 h.rule + field 48 8 port + field 56 8 (if r.slotBytes < body.length then 1 else 0) + field 64 64 h.time
      let s := (s.homePut pay put).homePut (base + 0x1000 + 16 * (i % r.slots)) (toBytes 16 d)
      (s.homePut base (toBytes 4 ((i + 1) % 2 ^ 32))).ringPause port h.ring r

/-- Bytes held in a port's headroom. -/
def EthPort.held (e : EthPort) : Nat := (e.headroom.map (fun h => h.bytes.length)).foldl (· + ·) 0

/-- A saturating 64-bit count. -/
def satInc64 (n : Nat) : Nat := satInc n (2 ^ 64 - 1)

/-- A frame for an enabled ring (R413): delivered, held or dropped. -/
def State.ringTake (s : State) (port : Nat) (e : EthPort) (r : EthRing) (h : HeldFrame) (strip : Nat) : State :=
  match s.ringOcc r with
  | none => s.ringFail r (match (s.ethHome r.ctx r.rbase).1 with | .error c => c | .ok _ => .mcheck) r.rbase
  | some n =>
    if n < r.slots ∧ !(r.pauses && e.headroom.any (fun x => decide (x.ring = h.ring))) then s.ringDeliver port r h strip
    else if r.pauses ∧ e.held + h.bytes.length ≤ 2 ^ 21 then s.modEth port (fun e => { e with headroom := e.headroom ++ [h] })
    else s.ringDrops r 1

/-- FRAME_RECEIVE (R410–R413). A frame longer than 9,216 bytes is not accepted; which count it enters is FREE (log 13). -/
def State.frameIn (s : State) (port : Nat) (f : List Byte) (fcs : Bool) : State :=
  let e := s.ethp port
  let unmatched := fun (s : State) => s.modEth port (fun e => { e with unmatched := satInc64 e.unmatched })
  let badfcs := fun (s : State) => s.modEth port (fun e => { e with badfcs := satInc64 e.badfcs })
  if 8 ≤ port ∨ !e.en then s
  else if !fcs then badfcs s
  else if 9216 < f.length then (let (k, s) := s.freePick 2; if k = 0 then unmatched s else badfcs s)
  else match e.ruleFor f with
    | none => unmatched s
    | some (n, r) =>
      let ring := bitsOf (ruleW r 0) 56 6
      match kget e.rings ring with
      | none => unmatched s
      | some g => if !g.en then unmatched s else s.ringTake port e g ⟨ring, n, f, s.time⟩ (bitsOf (ruleW r 0) 42 14)

def execFrameReceive (port : Nat) (frame : List Byte) (fcsOk : Bool) (s : State) := runEvent s fun s => s.frameIn port frame fcsOk

/-- The first held frame whose ring has a slot free (R413). -/
def State.headroomNext (s : State) (port : Nat) : Option (HeldFrame × EthRing) :=
  let e := s.ethp port
  e.headroom.findSome? (fun h => (kget e.rings h.ring).bind (fun r => match s.ringOcc r with
    | some n => if n < r.slots then some (h, r) else none
    | none => some (h, r)))

/-- HEADROOM_DELIVER (R413): the payload begins at the byte the frame's rule names. -/
def execHeadroomDeliver (port : Nat) (s : State) := runEvent s fun s =>
  match s.headroomNext port with
  | none => s
  | some (h, r) =>
    let strip := bitsOf (ruleW ((kget (s.ethp port).rules h.rule).getD 0) 0) 42 14
    (s.modEth port (fun e => { e with headroom := e.headroom.erase h })).ringDeliver port r h strip

/-- XOFF and XON of every pausing ring, once a clk (R413). -/
def State.pauseTick (s : State) : State :=
  s.eth.foldl (fun s p => p.2.rings.foldl (fun s r => if r.2.en && r.2.pauses then s.ringPause p.1 r.1 r.2 else s) s) s

/-- Whether a ring's fields let it be enabled (R423). -/
def State.ringOk (s : State) (r : EthRing) : Bool :=
  let l := bitsOf r.rcfg.toNat 48 4
  let k := bitsOf r.rcfg.toNat 44 4
  decide (4 ≤ l) && decide (l ≤ 11) && decide (12 ≤ k) && decide (k ≤ 14) && (decide (1 ≤ r.ctx) && decide (r.ctx ≤ 256) && (s.ctx r.ctx).isSome) &&
    decide (vaOf r.rbase % 65536 = 0) && (!r.pauses || (decide (1 ≤ r.xoffAt) && decide (r.xoffAt ≤ r.slots) && decide (r.xonAt < r.xoffAt)))

/-- The ring's EN set or cleared (R423): a ring that may not be enabled stays off; clearing drops the frames held for it. -/
def State.ringSwitch (s : State) (port ring : Nat) (en : Bool) : State :=
  let e := s.ethp port
  let r := (kget e.rings ring).getD EthRing.blank
  if en then
    (if r.en ∨ !s.ringOk r then s
     else s.modEth port (fun e => { e with rings := kset e.rings ring { r with rcfg := r.rcfg ||| 0x8000000000000000#64 } }))
  else
    let n := (e.headroom.filter (fun h => decide (h.ring = ring))).length
    let s := if n = 0 then s else s.ringDrops r n
    s.modEth port (fun e => { e with headroom := e.headroom.filter (fun h => decide (h.ring ≠ ring)),
                                     rings := kset e.rings ring { r with rcfg := r.rcfg &&& 0x7FFFFFFFFFFFFFFF#64, xoff := false } })

/-- RCFG written (R423): fields other than EN only while EN is 0. -/
def State.rcfgWrite (s : State) (port ring : Nat) (v : DWord) : State :=
  let r := (kget (s.ethp port).rings ring).getD EthRing.blank
  let s := if r.en then s else s.modEth port (fun e => { e with rings := kset e.rings ring { r with rcfg := v &&& 0x780FF1FF0FFF0FFF#64 } })
  if r.en && v.getLsbD 63 then s else s.ringSwitch port ring (v.getLsbD 63)

/-- RING_ENABLE (R423). -/
def execRingEnable (port ring : Nat) (en : Bool) (s : State) := runEvent s fun s =>
  if port < 8 ∧ ring < 64 then s.ringSwitch port ring en else s

/-- The bits of a rule's word that a write sets (R423). -/
def ruleMask (j : Nat) : Nat :=
  match j with
  | 0 => 0xBFFFFC01FFFF03FF
  | 1 => 0x7FFFFFFFFFFFFFFF
  | 2 => 0xFFFFFFFF00FFFFFF
  | 4 => 0xFFFFFFFFFFFFFFFF
  | 5 => 0xFFFFFFFFFFFFFFFF
  | 6 => 0xFFFFFFFFFFFFFFFF
  | 7 => 0xFFFFFFFFFFFFFFFF
  | _ => 0

/-- UNMATCHED_CLEAR and BADFCS_CLEAR (R423). -/
def State.clearUnmatched (s : State) (port : Nat) : State := if port < 8 then s.modEth port (fun e => { e with unmatched := 0 }) else s
def State.clearBadfcs (s : State) (port : Nat) : State := if port < 8 then s.modEth port (fun e => { e with badfcs := 0 }) else s
def execUnmatchedClear (port : Nat) (s : State) := runEvent s fun s => s.clearUnmatched port
def execBadfcsClear (port : Nat) (s : State) := runEvent s fun s => s.clearBadfcs port

/-- An Ethernet port's register written (R423). -/
def State.ethWrite (s : State) (port o : Nat) (v : DWord) : State :=
  if o = 0 then s.modEth port (fun e => { e with en := v.getLsbD 0 })
  else if o = 0x20 then
    let s := if v.getLsbD 0 then s.clearUnmatched port else s
    if v.getLsbD 1 then s.clearBadfcs port else s
  else if 0x1000 ≤ o ∧ o < 0x2000 then
    let ring := (o - 0x1000) / 64
    let r := (kget (s.ethp port).rings ring).getD EthRing.blank
    if o % 64 = 0 then (if r.en then s else s.modEth port (fun e => { e with rings := kset e.rings ring { r with rbase := v } }))
    else if o % 64 = 8 then s.rcfgWrite port ring v
    else s
  else if 0x8000 ≤ o then
    let n := (o - 0x8000) / 128
    let j := o % 128 / 8
    s.modEth port (fun e => { e with rules := kset e.rules n (setBits ((kget e.rules n).getD 0) (64 * j) 64 (v.toNat &&& ruleMask j)) })
  else s

/-- ETHERNET_LINK_CHANGE (R423). -/
def execEthernetLinkChange (port : Nat) (up : Bool) (s : State) := runEvent s fun s =>
  if port < 8 then s.modEth port (fun e => { e with link := up }) else s

end Sys2Proof.Machine
end

