-- ==== Sys2Proof/Machine/Boot.lean ====
section
/-! DEFINITION. Power-up, the boot mailbox, images, quotes and the start of a die (R357, R358, R415, R424, R425). -/

namespace Sys2Proof.Machine

/-- Host memory at a host physical address. -/
def flatHost (pa : Nat) : Nat := flatPa 15 pa

/-- MBSTAT: ST and REASON. -/
def State.mbSet (s : State) (st reason : Nat) : State := s.modPkg (fun p => { p with mbstat := BitVec.ofNat 32 (256 * st + reason) })

/-- A little-endian field of an image. -/
def imgNum (img : List Byte) (o n : Nat) : Nat := ofBytes ((img.drop o).take n)

/-- The measurement of an image: header bytes 0–511 and the body (R424, R425). -/
def imgSigned (img : List Byte) : List Byte := img.take 512 ++ img.drop 4096

/-- Check 4 of R424: format. -/
def imgFormatOk (cmd die : Nat) (img : List Byte) : Bool :=
  let kind := imgNum img 0 4
  let zero := fun (o n : Nat) => ((img.drop o).take n).all (fun b => decide (b = 0))
  decide (kind = cmd) && decide (imgNum img 4 4 = if cmd = 1 then 0xFFFFFFFF else die) && decide (imgNum img 16 8 + 4096 = img.length) &&
    (decide (cmd = 1) || (decide (die ≤ 20) && decide (imgNum img 24 8 % 65536 = 0))) && zero 48 464 && zero 1540 2556

/-- Check 1 of R424: the fused key and the signature. -/
def imgSignatureOk (img : List Byte) : Bool :=
  decide (sha512 ((img.drop 1024).take 516) = (List.range 64).map Config.fusedKeyHash) &&
    rsaPssOk ((img.drop 1024).take 512) ((img.drop 1536).take 4) ((img.drop 512).take 512) (imgSigned img)

/-- Whether a command comes in order (R424): the front end once and first, then each die once; an image for HBM after its die. -/
def State.bootOrder (s : State) (cmd die : Nat) (img : List Byte) : Bool :=
  if cmd = 1 then !s.fe.loaded
  else
    let load := imgNum img 24 8
    s.fe.loaded && !s.pkg.booted.contains die && (decide (die = 20) || decide ((s.die die).st = .down)) &&
      (if 2 ^ 52 ≤ flatPhys load then true else s.dieUp (load / 2 ^ 46))

/-- Why an image is rejected, in the order 5, 4, 1, 2, 3 (DESIGN CHOICE, log 63); none when it is accepted. -/
def State.imgReason (s : State) (cmd die : Nat) (img : List Byte) : Option Nat :=
  let a := s.pkg.mbaddr.toNat
  if 2 ^ 50 < a + s.pkg.mblen.toNat ∨ s.bad (flatHost a) s.pkg.mblen.toNat then some 5
  else if a % 4096 ≠ 0 ∨ 2 ^ 28 < s.pkg.mblen.toNat ∨ s.pkg.mblen.toNat < 4096 ∨ !imgFormatOk cmd die img then some 4
  else if !imgSignatureOk img then some 1
  else if imgNum img 8 8 < Config.minSecurityVersion cmd then some 2
  else if !s.bootOrder cmd die img then some 3
  else none

/-- A group of a supervisor or service core at its creation (R330, R357, R358). -/
def supGroup (entry : Pc) : Group :=
  let pcs := lanes32.map (fun l => if l = 0 then entry else exitPc)
  let sp := lanes32.map (fun l => if l = 0 then (4096 : Word) else 0)
  { Group.blank with level := .supervisor, entry := entry, vpc := pcs, evpc := pcs, svpc := lanes32.map (fun _ => exitPc),
                     lsp := sp, elsp := sp, slsp := lanes32.map (fun _ => 0), stackSize := 4096 }

/-- Supervisor and service cores of a die (R357). -/
def supCores (d : Nat) : List Nat := upFrom (224 + 16 * d) (if d < 8 then 4 else if d < 20 then 2 else 16)

/-- A die starts (R375, R424): it is UP, and each of its supervisor or service cores has one group, in slot 0. -/
def State.startDie (s : State) (d : Nat) (entry : Pc) (sptr : DWord) : State :=
  let s := s.modDie d (fun x => { x with st := .up, sptroot := sptr &&& 0x000FFFFFFFFFE000#64 })
  (supCores d).foldl (fun s c =>
    let s := s.zeroRange (flatStack c 0 0) 4096
    let (id, s) := s.fresh
    s.setGrp (gidOf c 0 0) { supGroup entry with core := c, born := id }) s

/-- An accepted image's measurement (R425). -/
def State.measure (s : State) (n : Nat) (img : List Byte) : State :=
  s.modPkg (fun p => { p with measLog := kset p.measLog n (sha512 (imgSigned img) ++ toBytes 8 (imgNum img 8 8) ++ toBytes 8 1 ++ List.replicate 48 0) })

/-- LOADFE and LOADDIE (R424). -/
def State.loadImage (s : State) (cmd die : Nat) : State :=
  let img := s.bytes (flatHost s.pkg.mbaddr.toNat) s.pkg.mblen.toNat
  match s.imgReason cmd die img with
  | some r => s.mbSet 3 r
  | none =>
    let s := s.mbSet 2 0
    if cmd = 1 then (s.measure 0 img).modFe (fun e => { e with loaded := true })
    else
      let s := (s.measure (1 + die) img).homePut (flatPhys (imgNum img 24 8)) (img.drop 4096)
      (s.modPkg (fun p => { p with booted := p.booted ++ [die] })).startDie die (pcOfAddr (BitVec.ofNat 64 (imgNum img 32 8)))
        (BitVec.ofNat 64 (imgNum img 40 8))

/-- The first 2,888 bytes of a quote (R425). -/
def State.quoteBody (s : State) : List Byte :=
  let pad := fun (n : Nat) (l : List Byte) => (List.range n).map (fun i => l.getD i 0)
  pad 64 s.pkg.nonce ++ (List.range 22).flatMap (fun e => pad 128 ((kget s.pkg.measLog e).getD [])) ++ toBytes 8 s.time

/-- QUOTE (R425). -/
def State.quoteOut (s : State) : State :=
  let a := s.pkg.mbaddr.toNat
  if a % 64 ≠ 0 then s.mbSet 3 4
  else
    let b := s.quoteBody
    (s.homePut (flatHost (a % 2 ^ 50)) (b ++ (List.range 96).map (Config.deviceSignature (sha384 b)))).mbSet 2 0

/-- A mailbox command performed by the boot core. -/
def State.mbRun (s : State) (cmd die : Nat) : State :=
  let s := s.modPkg (fun p => { p with mbPend := none })
  if cmd = 3 then s.quoteOut else s.loadImage cmd die

/-- MBCMD written (R424): ignored while the boot core is busy, before the mailbox is open, and for other values. -/
def State.mbCmd (s : State) (v : DWord) : State :=
  let cmd := v.toNat % 16
  if !s.pkg.mbOpen ∨ s.pkg.mbPend.isSome ∨ cmd = 0 ∨ 3 < cmd then s
  else
    let (due, s) := s.freeDue
    (s.modPkg (fun p => { p with mbPend := some (cmd, v.toNat / 256 % 32), mbDue := due })).mbSet 1 0

/-- A command the boot core serves, unless another is in progress. -/
def State.mbServe (s : State) (cmd die : Nat) : State :=
  if !s.pkg.mbOpen then s
  else match s.pkg.mbPend with
    | none => s.mbRun cmd die
    | some x => if x = (cmd, die) then s.mbRun cmd die else s

def execLoadfe (s : State) := runEvent s fun s => s.mbServe 1 ((s.pkg.mbPend.map (fun x => x.2)).getD 0)
def execLoaddie (die : Nat) (s : State) := runEvent s fun s => s.mbServe 2 die
def execQuote (s : State) := runEvent s fun s => s.mbServe 3 ((s.pkg.mbPend.map (fun x => x.2)).getD 0)

/-- The package after a power cycle: what lies outside it stays (R375, R408). -/
def State.powerCycle (s : State) : State :=
  { State.reset with mem := s.mem.filter (fun c => decide (2 ^ 52 ≤ c.1) && decide (c.1 < 2 ^ 53)),
                     badWords := s.badWords.filter (fun a => decide (2 ^ 52 ≤ a) && decide (a < 2 ^ 53)), free := s.free }

/-- POWER_UP (R415): the boot core opens the mailbox; a package that was shut down starts again. -/
def execPowerUp (s : State) : Host.Outcome State Fault Refusal :=
  .next ((if s.pkg.on then s else s.powerCycle).modPkg (fun p => { p with mbOpen := true }))

end Sys2Proof.Machine
end

