-- ==== Sys2Proof/Machine/Outside.lean ====
section
/-! DEFINITION. What reaches the package from outside or through its control space (chapter 20, R146, R150, R151, R175, R176, R314,
R315, R329): register writes, errors, power and clocks, the host, storage and scale-up links. -/

namespace Sys2Proof.Machine

/-- A register of a queue port written (R313–R315). -/
def State.portWrite (s : State) (p o : Nat) (v : DWord) (bar0 : Bool) : State :=
  match o with
  | 0x000 => if (s.port p).state = 0 then s.modPort p (fun x => { x with qring := v }) else s
  | 0x008 =>
    let n := v.toNat
    s.modPort p (fun x =>
      let k := bitsOf n 1 5
      let x : QPort := { x with prio := bitsOf n 8 3, ctx := if bar0 then x.ctx else bitsOf n 23 9,
                                sizel := if x.state = 0 ∧ 4 ≤ k ∧ k ≤ 20 then k else x.sizel }
      x.enable (n % 2 = 1))
  | 0x010 => s.modPort p (fun x => x.tail (lo32 v))
  | 0x020 => s.modPort p (fun x => { x with bad := (w1c (BitVec.ofNat 32 x.bad) (lo32 v) 0 16).toNat })
  | 0x028 => if v.getLsbD 0 then s.queueReset p else s
  | _ => s

/-- QTAIL_WRITE, PORT_ENABLE, PORT_DISABLE and QRESET (R314, R315, R329). -/
def execQtailWrite (port : Nat) (v : Word) (s : State) := runEvent s fun s => s.modPort port (fun x => x.tail v)
def execPortEnable (port : Nat) (s : State) := runEvent s fun s => s.modPort port (fun x => x.enable true)
def execPortDisable (port : Nat) (s : State) := runEvent s fun s => s.modPort port (fun x => x.enable false)
def execQreset (port : Nat) (s : State) := runEvent s fun s => s.queueReset port

/-- The candidates of R417: 1,700 + 5k MHz, from the highest. -/
def clockCandidates : List Nat := ((List.range 31).map (fun k => 1700 + 5 * k)).reverse

/-- An enabled band's edges in units of 50 kHz (R417). -/
def Pkg.bandsOn (p : Pkg) : List (Nat × Nat) :=
  (p.bands.filter (fun b => b.2.testBit 0)).map (fun b => (2 * bitsOf b.2 1 31, 2 * bitsOf b.2 32 32))

/-- Whether a harmonic of a frequency, in units of 50 kHz, lies within an enabled band (R417). -/
def Pkg.meets (p : Pkg) (f : Nat) : Bool :=
  (List.range 15).any (fun h => p.bandsOn.any (fun b => decide (b.1 ≤ (h + 1) * f) && decide ((h + 1) * f ≤ b.2)))

/-- The admitted candidates, from the highest (R417). -/
def Pkg.admitted (p : Pkg) : List Nat := clockCandidates.filter (fun f => !p.meets (20 * f))

/-- A clock plan (R417). -/
def State.planClock (s : State) (target : Nat) : State :=
  s.modPkg (fun p =>
    if [2000, 3125, 25000].any p.meets then { p with cpst := 2 }
    else match p.admitted.find? (fun f => decide (f ≤ target)) with
      | some f => { p with freq := f, plan := f, cpst := 0 }
      | none => { p with cpst := 3 })

def execClockPlan (target : Nat) (s : State) := runEvent s fun s => s.planClock target

/-- PLIM clamped and rounded down to a step (R419). -/
def plimOf (v : Nat) : Nat := min 4400 (max 2000 v) / 50 * 50

/-- A step of the power controller among admitted candidates (R417, R418). -/
def Pkg.stepDown (p : Pkg) : Pkg := match p.admitted.find? (fun f => decide (f < p.freq)) with
  | some f => { p with freq := f }
  | none => p
def Pkg.stepUp (p : Pkg) : Pkg := match p.admitted.reverse.find? (fun f => decide (p.freq < f) && decide (f ≤ p.plan)) with
  | some f => { p with freq := f }
  | none => p

/-- POWER_MEASURE (R418, R419): the power of the last 100 µs and the dies' temperatures. Which slots the throttle takes is FREE. -/
def State.measurePower (s : State) (watts : Nat) (temps : List Nat) : State :=
  if temps.any (fun t => decide (115 ≤ t)) then s.packageOff
  else s.modPkg (fun p =>
    let hot := temps.any (fun t => decide (105 ≤ t))
    let hist := (watts :: p.pHist).take 10
    let low := if watts * 100 < p.plim * 95 then p.pLow + 1 else 0
    let p : Pkg := { p with hot := hot, thr := hot || decide (p.plim < watts), pHist := hist, pLow := if 100 ≤ low then 0 else low }
    if hist.length = 10 ∧ p.plim < p.power then p.stepDown else if 100 ≤ low then p.stepUp else p)

def execPowerMeasure (watts : Nat) (temps : List Nat) (s : State) := runEvent s fun s => s.measurePower watts temps
/-- SUPPLY_SHUTDOWN and PACKAGE_LOSS (R375, R419): nothing runs until a power cycle. -/
def execSupplyShutdown (s : State) := runEvent s fun s => s.packageOff
def execPackageLoss (s : State) := runEvent s fun s => s.packageOff

/-- A register of the management block written (R417, R419, R424, R425). -/
def State.mgmtWrite (s : State) (o : Nat) (v : DWord) : State :=
  if o < 0x100 then s.modPkg (fun p => { p with bands := kset p.bands (o / 8) v.toNat })
  else if o = 0x100 then s.planClock (v.toNat % 2048)
  else if o = 0x200 then s.modPkg (fun p => { p with plim := plimOf (v.toNat % 8192) })
  else if o = 0x1000 then s.modPkg (fun p => { p with mbaddr := v })
  else if o = 0x1008 then s.modPkg (fun p => { p with mblen := lo32 v })
  else if o = 0x1010 then s.mbCmd v
  else if 0x1100 ≤ o ∧ o < 0x1140 then
    s.modPkg (fun p => { p with nonce := ((List.range 64).map (fun i => p.nonce.getD i 0)).take (o - 0x1100) ++ toBytes 8 v.toNat ++
      ((List.range 64).map (fun i => p.nonce.getD i 0)).drop (o - 0x1100 + 8) })
  else s

/-- A context's core set written (R422): claims on the word's cores stand again; cores that leave it and are the context's own
change owner. -/
def State.csetWrite (s : State) (ctx w : Nat) (v : DWord) : State :=
  if ctx = 0 ∨ 256 < ctx ∨ 3 < w ∨ (s.ctx ctx).isNone then s
  else
    let old := (s.feCtx ctx).cset
    let new := setBits old (64 * w) 64 (if w = 3 then v.toNat % 2 ^ 32 else v.toNat)
    let ks := (upFrom (64 * w) 64).filter (fun k => decide (k < 224))
    let s := s.modFeCtx ctx (fun f => { f with cset := new })
    let s := ks.foldl (fun s k => if (s.core k).withheld.contains ctx then s.modCore k (fun c => { c with withheld := c.withheld.filter (fun x => decide (x ≠ ctx)) }) else s) s
    (ks.filter (fun k => old.testBit k && !new.testBit k)).foldl (fun s k =>
      if (s.core k).owner = ctx then s.beginChange k
      else if (s.core k).changing = some ctx then s.modCore k (fun c => { c with changing := some (s.nextOwner k) })
      else s) s

def execCsetWrite (ctx word : Nat) (val : DWord) (s : State) := runEvent s fun s => s.csetWrite ctx word val

/-- CECLR (R421). -/
def State.ceClear (s : State) (d : Nat) : State := s.modDie d (fun x => { x with cecnt := 0 })
def execCeClear (die : Nat) (s : State) := runEvent s fun s => if die ≤ 20 then s.ceClear die else s

/-- A die's own register written (R421). -/
def State.dieWrite (s : State) (d o : Nat) (v : DWord) : State :=
  let c := decide (d < 8)
  match o with
  | 0xF00008 => if v.getLsbD 0 then s.ceClear d else s
  | 0xF00010 => s.modDie d (fun x => { x with cethr := (lo32 v).toNat })
  | 0xF00100 => if c then s.modDie d (fun x => { x with nqbase := v &&& 0x000FFFFFFFFE0000#64, nqen := lo32 v &&& 1 }) else s
  | 0xF00110 => if c then s.modDie d (fun x => { x with nqhead := lo32 v }) else s
  | 0xF00118 => if c then s.modDie d (fun x => { x with nqloss := (w1c (BitVec.ofNat 32 x.nqloss) (lo32 v) 0 32).toNat }) else s
  | 0xF00200 => if decide (8 ≤ d) && decide (d < 20) then s.modDie d (fun x => { x with cmpen := lo32 v &&& 1 }) else s
  | _ => s

/-- A write of the control space performed at its register (R407, R420). -/
def State.ctlPerform (s : State) (pa : Nat) (v : DWord) (bar0 : Bool) : State :=
  let d := pa % 2 ^ 50 / 2 ^ 24
  let o := pa % 2 ^ 24
  if pa % 8 ≠ 0 ∨ 20 < d ∨ !s.dieServes d ∨ (bar0 ∧ (d ≠ 20 ∨ 0x410000 ≤ o)) then s
  else if 0xF00000 ≤ o then s.dieWrite d o v
  else if d ≠ 20 then s
  else if o < 0x400000 then s.portWrite (o / 4096) (o % 4096) v bar0
  else if o < 0x410000 then s.mgmtWrite (o - 0x400000) v
  else if 0x500000 ≤ o ∧ o < 0x580000 then s.ethWrite (o / 0x10000 % 8) (o % 0x10000) v
  else if 0x600020 ≤ o ∧ o < 0x602020 then s.csetWrite ((o - 0x600000) / 32) (o / 8 % 4) v
  else if 0x610008 ≤ o ∧ o < 0x610808 then
    (let c := (o - 0x610000) / 8
     if (s.ctx c).isSome then s.modFeCtx c (fun f => { f with devBad := (w1c (BitVec.ofNat 32 f.devBad) (lo32 v) 0 16).toNat }) else s)
  else s

/-- The oldest control-space write on its way is performed (R420). -/
def State.ctlStep (s : State) : State :=
  match s.ctlq with
  | [] => s
  | (pa, v, b) :: t => { s with ctlq := t }.ctlPerform pa (BitVec.ofNat 64 v) b

/-- REGISTER_WRITE (R5, R407, R420). -/
def execRegisterWrite (pa : Nat) (val : DWord) (viaBar0 : Bool) (s : State) := runEvent s fun s => s.ctlPerform pa val viaBar0

/-- A record for a C-die's notification queue (R176). -/
def State.notify (s : State) (d : Nat) (v : Nat) : State :=
  let x := s.die d
  if x.nqen = 0 then s
  else if (x.nqtail - x.nqhead).toNat = 4096 then s.modDie d (fun x => { x with nqloss := satInc x.nqloss (2 ^ 32 - 1) })
  else (s.homePut (flatPa 0 (x.nqbase.toNat + 32 * (x.nqtail.toNat % 4096))) (toBytes 32 v)).modDie d (fun x => { x with nqtail := x.nqtail + 1 })

/-- A notification record (R176). -/
def notifyRec (time ptr count cluster ctx type : Nat) : Nat :=
  field 192 64 time + field 128 64 ptr + field 112 16 count + field 106 6 cluster + field 80 9 ctx + field 0 8 type

/-- The queue that a die's corrected errors go to (R150). -/
def State.notifyDie (s : State) (d : Nat) : Option Nat := if d < 8 then some d else (List.range 8).find? (fun c => s.dieUp c)

/-- CORRECTED_ERROR (R150). -/
def State.corrected (s : State) (d : Nat) : State :=
  let x := s.die d
  if x.cecnt = 2 ^ 32 - 1 then s
  else
    let n := x.cecnt + 1
    let s := s.modDie d (fun x => { x with cecnt := n })
    if x.cethr ≠ 0 ∧ n % x.cethr = 0 then
      (match s.notifyDie d with
      | some q => s.notify q (notifyRec s.time 0 n d 0 2)
      | none => s)
    else s

def execCorrectedError (die : Nat) (s : State) := runEvent s fun s => if die ≤ 20 then s.corrected die else s

/-- The address under which a table maps a frame, by a search of its valid entries: `r` levels still to go (R156). -/
def State.mapsIn (s : State) (pa : Nat) (hbm : Bool) : Nat → Nat → Nat → Option (Nat × Nat)
  | 0, _, _ => none
  | r + 1, table, va =>
    let size := 16 + 10 * r
    (List.range 1024).findSome? (fun i =>
      let e := s.num (table + 8 * i) 8
      let v := va + i * 2 ^ size
      if !leafV e then none
      else if decide (r = 0) || leafL e then
        (if r = 3 ∨ leafBad e size ∨ hbm = decide (leafHome e = 15) ∨ leafPa e size 0 ≠ pa / 2 ^ size * 2 ^ size then none
         else some (v + pa % 2 ^ size, leafRegion e))
      else s.mapsIn pa hbm r (bitsOf e 13 39 * 2 ^ 13) v)

/-- MCHECK records for a word that no reader met: one to each context that maps its frame (R151). -/
def State.reportBad (s : State) (flat : Nat) : State :=
  let pa := flat % 2 ^ 52
  s.ctxs.foldl (fun s c =>
    match s.mapsIn pa (decide (flat < 2 ^ 52)) 4 (bitsOf c.2.ptroot.toNat 13 39 * 2 ^ 13) 0 with
    | some (va, tag) => s.mchkRecord c.1 (BitVec.ofNat 64 (tag * 2 ^ 56 + va)) pa
    | none => s) s

/-- UNCORRECTABLE_WRITEBACK (R151): the word at a flat address keeps bad check bits. -/
def execUncorrectableWriteback (pa : Nat) (s : State) := runEvent s fun s =>
  let a := pa / 8 * 8
  ({ s with badWords := if s.badWords.contains a then s.badWords else s.badWords ++ [a] }).reportBad a

/-- PATROL_SCRUB (R150, R151): the bad words of an M-die's HBM are found and reported. -/
def execPatrolScrub (die : Nat) (s : State) := runEvent s fun s =>
  (s.badWords.filter (fun a => decide (a / 2 ^ 46 = die) && decide (8 ≤ die) && decide (die < 20))).foldl (fun s a => s.reportBad a) s

/-- HOST_MEM_ACCESS (R406): a host access of HBM over CXL.mem, performed at its home; a read changes nothing. -/
def execHostMemAccess (write : Bool) (pa : Nat) (bytes : List Byte) (s : State) := runEvent s fun s =>
  if write ∧ pa < 2 ^ 52 ∧ s.dieServes (pa / 2 ^ 46) then s.homePut (flatPa 0 pa) bytes else s

/-- HOST_SNOOP (R220): a host write of host memory; entries on it are evaluated. -/
def execHostSnoop (pa : Nat) (bytes : List Byte) (s : State) := runEvent s fun s =>
  if pa < 2 ^ 50 then s.homePut (flatPa 15 pa) bytes else s

/-- YOSON_TIMEOUT (R408, R409): a target gives no response; accesses to it complete with MCHECK. -/
def execYosonTimeout (pa : Nat) (s : State) := runEvent s fun s =>
  let t := bitsOf pa 42 8
  if pa / 2 ^ 50 = 1 ∧ !s.pkg.deaf.contains t then s.modPkg (fun p => { p with deaf := p.deaf ++ [t] }) else s

/-- YOSON_PORT_FAIL (R409): the port is retrained, and its requests go out on the others; none is lost or duplicated. -/
def execYosonPortFail (_port : Nat) (s : State) := runEvent s fun s => s

/-- An atomic of another package performed at a word homed here (R187, R409). -/
def State.remoteAtom (s : State) (pa : Nat) (op : AtomOp) (n b c : Nat) : State :=
  let o := s.num (flatPa 0 pa) n
  match op.apply o b c with
  | some v => s.homePut (flatPa 0 pa) (toBytes n v)
  | none => s

/-- YOSONLINK_REQUEST (R409): a request from another package performed at its home here. -/
def execYosonlinkRequest (req : YosReq) (s : State) := runEvent s fun s =>
  let here := fun (pa : Nat) => decide (pa < 2 ^ 52) && s.dieServes (pa / 2 ^ 46)
  match req with
  | .load _ _ => s
  | .store pa b => if here pa then s.homePut (flatPa 0 pa) b else s
  | .atom pa op w64 b => if here pa then s.remoteAtom pa (.atom op w64) (if w64 then 8 else 4) b.toNat 0 else s
  | .fatom pa op b => if here pa then s.remoteAtom pa (.fatom op) 4 b.toNat 0 else s
  | .cas pa w64 b c => if here pa then s.remoteAtom pa (.cas w64) (if w64 then 8 else 4) b.toNat c.toNat else s

/-- A storage command's data written as the context's, 64 KiB block by block; bytes whose page fails a check are not written. -/
def State.nvmeWrite (s : State) (ctx : Nat) : Nat → DWord → List Byte → State
  | 0, _, _ => s
  | n + 1, p, b =>
    if b.isEmpty then s
    else
      let k := 65536 - vaOf p % 65536
      let s := match s.homeOf ctx p needW with
        | (some f, s) => s.homePut f (b.take k)
        | (none, s) => s
      s.nvmeWrite ctx n (ptrOff p (k : Nat)) (b.drop k)

/-- NVME_COMPLETION (R414): the data is performed at its homes; a read by the drive changes nothing. -/
def execNvmeCompletion (ctx : Nat) (ptr : DWord) (bytes : List Byte) (toDevice : Bool) (s : State) := runEvent s fun s =>
  if toDevice ∧ (s.ctx ctx).isSome then s.nvmeWrite ctx (bytes.length / 65536 + 2) ptr bytes else s

/-- CNTTHR of a context (R153). -/
def Ctx.cntthr (c : Ctx) : Nat := bitsOf c.tcfg.toNat 0 16

/-- A TLB entry whose count has reached its context's threshold (R175). -/
def State.countHit (s : State) (t : TlbEntry) : Bool :=
  decide (0 < (s.ctxD t.ctx).cntthr) && decide ((s.ctxD t.ctx).cntthr ≤ t.count)

/-- The access counts of a cluster that reached their threshold are reported and cleared (R175, R176). -/
def State.countSend (s : State) (k : Nat) : State :=
  let l := (s.ccl k).tlb.filter s.countHit
  if l.isEmpty then s
  else
    let s1 := s.modCcl k (fun c => { c with tlb := c.tlb.map (fun t => if s.countHit t then { t with count := 0 } else t) })
    l.foldl (fun s t => s.notify (k / 7) (notifyRec s.time (leafRegion t.leaf.toNat * 2 ^ 56 + t.page * 2 ^ 16) (s.ctxD t.ctx).cntthr k t.ctx 1)) s1

/-- ACCESS_COUNT_NOTIFY (R175). -/
def execAccessCountNotify (cluster : Nat) (s : State) := runEvent s fun s => s.countSend cluster

/-- PAGE_WALK_COMPLETE (R156, R160, R370): a walk for a cluster ends; the leaf takes the place of one held for the address. -/
def execPageWalkComplete (cluster ctx : Nat) (ptr : DWord) (s : State) := runEvent s fun s =>
  if cluster < 56 ∧ (s.ctx ctx).isSome then
    ((s.modCcl cluster (fun c => { c with tlb := c.tlb.filter (fun t => !tlbHit ctx (vaOf ptr) t) })).walkDone cluster ctx ptr).2
  else s

/-- Whether a group has a TOUCH window to close (R97). -/
def Group.touchDue (g : Group) : Bool := g.touches.any (fun t => decide (t.left = 0))

/-- TOUCH_WINDOW_CLOSE (R97, R160): windows at their last word close, and no longer pin a TLB entry. -/
def execTouchWindowClose (gid : Nat) (s : State) := runEvent s fun s =>
  s.modGrp gid (fun g => { g with touches := g.touches.filter (fun t => decide (t.left ≠ 0)) })

end Sys2Proof.Machine
end

