-- ==== Sys2Proof/Machine/Dispatch.lean ====
section
/-! DEFINITION. One arm for each instruction: a direct call of its meaning. -/

namespace Sys2Proof.Machine

def exec (i : Instr) (s : State) : Host.Outcome State Fault Refusal :=
  match i with
  | .mov h d a => Sys2Proof.Machine.execMov h d a s
  | .iadd h d a b m => Sys2Proof.Machine.execIadd h d a b m s
  | .iadd64 h d a b => Sys2Proof.Machine.execIadd64 h d a b s
  | .isub h d a b m => Sys2Proof.Machine.execIsub h d a b m s
  | .isub64 h d a b => Sys2Proof.Machine.execIsub64 h d a b s
  | .imul h d a b => Sys2Proof.Machine.execImul h d a b s
  | .imulh h d a b => Sys2Proof.Machine.execImulh h d a b s
  | .imulhu h d a b => Sys2Proof.Machine.execImulhu h d a b s
  | .imad h d a b c => Sys2Proof.Machine.execImad h d a b c s
  | .imadw h d a b c un => Sys2Proof.Machine.execImadw h d a b c un s
  | .idiv h d a b un => Sys2Proof.Machine.execIdiv h d a b un s
  | .irem h d a b un => Sys2Proof.Machine.execIrem h d a b un s
  | .imin h d a b un => Sys2Proof.Machine.execImin h d a b un s
  | .imax h d a b un => Sys2Proof.Machine.execImax h d a b un s
  | .iabs h d a sat => Sys2Proof.Machine.execIabs h d a sat s
  | .isad h d a b c un => Sys2Proof.Machine.execIsad h d a b c un s
  | .and h d a b => Sys2Proof.Machine.execAnd h d a b s
  | .or h d a b => Sys2Proof.Machine.execOr h d a b s
  | .xor h d a b => Sys2Proof.Machine.execXor h d a b s
  | .andn h d a b => Sys2Proof.Machine.execAndn h d a b s
  | .shl h d a b => Sys2Proof.Machine.execShl h d a b s
  | .shr h d a b => Sys2Proof.Machine.execShr h d a b s
  | .sar h d a b => Sys2Proof.Machine.execSar h d a b s
  | .shl64 h d a b => Sys2Proof.Machine.execShl64 h d a b s
  | .shr64 h d a b => Sys2Proof.Machine.execShr64 h d a b s
  | .sar64 h d a b => Sys2Proof.Machine.execSar64 h d a b s
  | .fshl h d a b c clamp => Sys2Proof.Machine.execFshl h d a b c clamp s
  | .fshr h d a b c clamp => Sys2Proof.Machine.execFshr h d a b c clamp s
  | .popc h d a => Sys2Proof.Machine.execPopc h d a s
  | .clz h d a => Sys2Proof.Machine.execClz h d a s
  | .ctz h d a => Sys2Proof.Machine.execCtz h d a s
  | .brev h d a => Sys2Proof.Machine.execBrev h d a s
  | .bfe h d a b c sx => Sys2Proof.Machine.execBfe h d a b c sx s
  | .bfi h d a b c => Sys2Proof.Machine.execBfi h d a b c s
  | .sext h d a b => Sys2Proof.Machine.execSext h d a b s
  | .zext h d a b => Sys2Proof.Machine.execZext h d a b s
  | .icmp h d a b k cond => Sys2Proof.Machine.execIcmp h d a b k cond s
  | .icmp64 h d a b k cond => Sys2Proof.Machine.execIcmp64 h d a b k cond s
  | .sel h d a b neg n => Sys2Proof.Machine.execSel h d a b neg n s
  | .plop h d a b lut => Sys2Proof.Machine.execPlop h d a b lut s
  | .lea h d a b form sx sh => Sys2Proof.Machine.execLea h d a b form sx sh s
  | .moviFull h d imm => Sys2Proof.Machine.execMoviFull h d imm s
  | .moviWide h d imm => Sys2Proof.Machine.execMoviWide h d imm s
  | .movihFull h d imm => Sys2Proof.Machine.execMovihFull h d imm s
  | .movihWide h d imm => Sys2Proof.Machine.execMovihWide h d imm s
  | .iaddiFull h d a imm => Sys2Proof.Machine.execIaddiFull h d a imm s
  | .iaddiWide h d imm => Sys2Proof.Machine.execIaddiWide h d imm s
  | .qxch h d a mode => Sys2Proof.Machine.execQxch h d a mode s
  | .shfl h d a b w mode => Sys2Proof.Machine.execShfl h d a b w mode s
  | .vote h d a mode => Sys2Proof.Machine.execVote h d a mode s
  | .ballot h d a => Sys2Proof.Machine.execBallot h d a s
  | .matchw h d a w64 => Sys2Proof.Machine.execMatchw h d a w64 s
  | .elect h d => Sys2Proof.Machine.execElect h d s
  | .readlane h d a b => Sys2Proof.Machine.execReadlane h d a b s
  | .writelane h d a b => Sys2Proof.Machine.execWritelane h d a b s
  | .gred h d a op => Sys2Proof.Machine.execGred h d a op s
  | .gscan h d a exc op => Sys2Proof.Machine.execGscan h d a exc op s
  | .mask h d kind => Sys2Proof.Machine.execMask h d kind s
  | .pairWord e stall h0 h1 => Sys2Proof.Machine.execPairWord e stall h0 h1 s
  | .nop h => Sys2Proof.Machine.execNop h s
  | .braFull h off => Sys2Proof.Machine.execBraFull h off s
  | .braWide h off => Sys2Proof.Machine.execBraWide h off s
  | .brx h a => Sys2Proof.Machine.execBrx h a s
  | .bruFull h off => Sys2Proof.Machine.execBruFull h off s
  | .bruWide h off => Sys2Proof.Machine.execBruWide h off s
  | .callFull h off => Sys2Proof.Machine.execCallFull h off s
  | .callWide h off => Sys2Proof.Machine.execCallWide h off s
  | .callx h a => Sys2Proof.Machine.execCallx h a s
  | .ret h => Sys2Proof.Machine.execRet h s
  | .exit h => Sys2Proof.Machine.execExit h s
  | .yield h n => Sys2Proof.Machine.execYield h n s
  | .rdvpc h d a => Sys2Proof.Machine.execRdvpc h d a s
  | .wrvpc h a b => Sys2Proof.Machine.execWrvpc h a b s
  | .sleepc h a => Sys2Proof.Machine.execSleepc h a s
  | .trap h code => Sys2Proof.Machine.execTrap h code s
  | .bkpt h code => Sys2Proof.Machine.execBkpt h code s
  | .hret h => Sys2Proof.Machine.execHret h s
  | .push h a sz => Sys2Proof.Machine.execPush h a sz s
  | .pop h d sz => Sys2Proof.Machine.execPop h d sz s
  | .salloc h d a => Sys2Proof.Machine.execSalloc h d a s
  | .sfree h a => Sys2Proof.Machine.execSfree h a s
  | .fadd h d a b r m => Sys2Proof.Machine.execFadd h d a b r m s
  | .fsub h d a b r m => Sys2Proof.Machine.execFsub h d a b r m s
  | .fmul h d a b r m => Sys2Proof.Machine.execFmul h d a b r m s
  | .ffma h d a b c r nega negc => Sys2Proof.Machine.execFfma h d a b c r nega negc s
  | .ffma2 h d a b c r nega negc => Sys2Proof.Machine.execFfma2 h d a b c r nega negc s
  | .fmin h d a b pr m => Sys2Proof.Machine.execFmin h d a b pr m s
  | .fmax h d a b pr m => Sys2Proof.Machine.execFmax h d a b pr m s
  | .fcmp h d a b k cond => Sys2Proof.Machine.execFcmp h d a b k cond s
  | .hadd2 h d a b => Sys2Proof.Machine.execHadd2 h d a b s
  | .hmul2 h d a b => Sys2Proof.Machine.execHmul2 h d a b s
  | .hfma2 h d a b c => Sys2Proof.Machine.execHfma2 h d a b c s
  | .badd2 h d a b => Sys2Proof.Machine.execBadd2 h d a b s
  | .bmul2 h d a b => Sys2Proof.Machine.execBmul2 h d a b s
  | .bfma2 h d a b c => Sys2Proof.Machine.execBfma2 h d a b c s
  | .frcp h d a r => Sys2Proof.Machine.execFrcp h d a r s
  | .frsq h d a r => Sys2Proof.Machine.execFrsq h d a r s
  | .fsqrt h d a r => Sys2Proof.Machine.execFsqrt h d a r s
  | .fex2 h d a r => Sys2Proof.Machine.execFex2 h d a r s
  | .flg2 h d a r => Sys2Proof.Machine.execFlg2 h d a r s
  | .fsin h d a r => Sys2Proof.Machine.execFsin h d a r s
  | .fcos h d a r => Sys2Proof.Machine.execFcos h d a r s
  | .ftanh h d a r => Sys2Proof.Machine.execFtanh h d a r s
  | .fdiv h d a b r => Sys2Proof.Machine.execFdiv h d a b r s
  | .cvt h d a dt st rm sat => Sys2Proof.Machine.execCvt h d a dt st rm sat s
  | .cvtp h d a b dt rm sat => Sys2Proof.Machine.execCvtp h d a b dt rm sat s
  | .unpk h d a st => Sys2Proof.Machine.execUnpk h d a st s
  | .qblk h d a b => Sys2Proof.Machine.execQblk h d a b s
  | .mxq h d a b rnef => Sys2Proof.Machine.execMxq h d a b rnef s
  | .fred h d a op r => Sys2Proof.Machine.execFred h d a op r s
  | .cmulh2 h d a b conj => Sys2Proof.Machine.execCmulh2 h d a b conj s
  | .cfmah2 h d a b c conj => Sys2Proof.Machine.execCfmah2 h d a b c conj s
  | .ld h d a b m => Sys2Proof.Machine.execLd h d a b m s
  | .st h d a b m => Sys2Proof.Machine.execSt h d a b m s
  | .ldu h d a b m => Sys2Proof.Machine.execLdu h d a b m s
  | .stu h d a b m => Sys2Proof.Machine.execStu h d a b m s
  | .touch h a b rd => Sys2Proof.Machine.execTouch h a b rd s
  | .pref h a b lvl => Sys2Proof.Machine.execPref h a b lvl s
  | .flush h a b l2 => Sys2Proof.Machine.execFlush h a b l2 s
  | .inv h a b l2 => Sys2Proof.Machine.execInv h a b l2 s
  | .vprobe h d a b => Sys2Proof.Machine.execVprobe h d a b s
  | .atom h d a b op m => Sys2Proof.Machine.execAtom h d a b op m s
  | .cas h d a b m => Sys2Proof.Machine.execCas h d a b m s
  | .casar h d a b m n => Sys2Proof.Machine.execCasar h d a b m n s
  | .red h a b op m => Sys2Proof.Machine.execRed h a b op m s
  | .fatom h d a b op m => Sys2Proof.Machine.execFatom h d a b op m s
  | .fredm h a b op m => Sys2Proof.Machine.execFredm h a b op m s
  | .fence h ord scope => Sys2Proof.Machine.execFence h ord scope s
  | .fencex h mode => Sys2Proof.Machine.execFencex h mode s
  | .bara h d n => Sys2Proof.Machine.execBara h d n s
  | .barw h n a => Sys2Proof.Machine.execBarw h n a s
  | .bars h n => Sys2Proof.Machine.execBars h n s
  | .cbara h d n => Sys2Proof.Machine.execCbara h d n s
  | .cbarw h n a => Sys2Proof.Machine.execCbarw h n a s
  | .cbars h n => Sys2Proof.Machine.execCbars h n s
  | .barx h cls n => Sys2Proof.Machine.execBarx h cls n s
  | .watch h d a b m => Sys2Proof.Machine.execWatch h d a b m s
  | .watcht h d a b c m => Sys2Proof.Machine.execWatcht h d a b c m s
  | .watchh h d a b c m => Sys2Proof.Machine.execWatchh h d a b c m s
  | .talloc h n a b => Sys2Proof.Machine.execTalloc h n a b s
  | .tfree h n => Sys2Proof.Machine.execTfree h n s
  | .tstate h d n bytes => Sys2Proof.Machine.execTstate h d n bytes s
  | .twait h n a b => Sys2Proof.Machine.execTwait h n a b s
  | .ttest h d n a b => Sys2Proof.Machine.execTtest h d n a b s
  | .texpect h n a => Sys2Proof.Machine.execTexpect h n a s
  | .tdrain h n => Sys2Proof.Machine.execTdrain h n s
  | .xload h n a b rmask win s24 mc => Sys2Proof.Machine.execXload h n a b rmask win s24 mc s
  | .xstore h n a b => Sys2Proof.Machine.execXstore h n a b s
  | .xfence h st => Sys2Proof.Machine.execXfence h st s
  | .xstat h d => Sys2Proof.Machine.execXstat h d s
  | .xpref h a b => Sys2Proof.Machine.execXpref h a b s
  | .mma h d a b c ty => Sys2Proof.Machine.execMma h d a b c ty s
  | .mmas h d a b c ty => Sys2Proof.Machine.execMmas h d a b c ty s
  | .mmac h d a b c conj => Sys2Proof.Machine.execMmac h d a b c conj s
  | .mmax h d a b c => Sys2Proof.Machine.execMmax h d a b c s
  | .ldm h d a b m => Sys2Proof.Machine.execLdm h d a b m s
  | .stm h d a b m => Sys2Proof.Machine.execStm h d a b m s
  | .mxb h d a b c => Sys2Proof.Machine.execMxb h d a b c s
  | .mxbw h d a => Sys2Proof.Machine.execMxbw h d a s
  | .mxbt h d a => Sys2Proof.Machine.execMxbt h d a s
  | .accz h d a => Sys2Proof.Machine.execAccz h d a s
  | .accld h d a b st => Sys2Proof.Machine.execAccld h d a b st s
  | .accst h d a b dt st rm sat => Sys2Proof.Machine.execAccst h d a b dt st rm sat s
  | .accrd h d a => Sys2Proof.Machine.execAccrd h d a s
  | .slvcfg h d a b => Sys2Proof.Machine.execSlvcfg h d a b s
  | .slvinit h d a b => Sys2Proof.Machine.execSlvinit h d a b s
  | .slvstage h d a b => Sys2Proof.Machine.execSlvstage h d a b s
  | .slvput h d a b => Sys2Proof.Machine.execSlvput h d a b s
  | .slvstep h d a b => Sys2Proof.Machine.execSlvstep h d a b s
  | .slvstat h d a b => Sys2Proof.Machine.execSlvstat h d a b s
  | .launch h d a => Sys2Proof.Machine.execLaunch h d a s
  | .emit h a b rs => Sys2Proof.Machine.execEmit h a b rs s
  | .cont h a b rs => Sys2Proof.Machine.execCont h a b rs s
  | .notify h d a b => Sys2Proof.Machine.execNotify h d a b s
  | .nodeq h d a => Sys2Proof.Machine.execNodeq h d a s
  | .rdsys h d w64 n => Sys2Proof.Machine.execRdsys h d w64 n s
  | .wrsys h a w64 n => Sys2Proof.Machine.execWrsys h a w64 n s
  | .syscall h d a b => Sys2Proof.Machine.execSyscall h d a b s
  | .tret h d a b c => Sys2Proof.Machine.execTret h d a b c s
  | .ctxload h d a b => Sys2Proof.Machine.execCtxload h d a b s
  | .ctxsaveEvict h d a b => Sys2Proof.Machine.execCtxsaveEvict h d a b s
  | .ctxsaveDestroy h d a => Sys2Proof.Machine.execCtxsaveDestroy h d a s
  | .preemptSpatial h d a => Sys2Proof.Machine.execPreemptSpatial h d a s
  | .preemptHalt h d a => Sys2Proof.Machine.execPreemptHalt h d a s
  | .preemptStop h d a => Sys2Proof.Machine.execPreemptStop h d a s
  | .preemptResume h d a => Sys2Proof.Machine.execPreemptResume h d a s
  | .preemptRdreg h d a => Sys2Proof.Machine.execPreemptRdreg h d a s
  | .preemptWrreg h d a => Sys2Proof.Machine.execPreemptWrreg h d a s
  | .dump h d a => Sys2Proof.Machine.execDump h d a s
  | .msgsend h d a b mc q => Sys2Proof.Machine.execMsgsend h d a b mc q s
  | .msgrecv h d a nb => Sys2Proof.Machine.execMsgrecv h d a nb s
  | .invapply h d a => Sys2Proof.Machine.execInvapply h d a s
  | .tlbinv h d a => Sys2Proof.Machine.execTlbinv h d a s
  | .zeropg h d a b => Sys2Proof.Machine.execZeropg h d a b s
  | .splitrd h d a form => Sys2Proof.Machine.execSplitrd h d a form s
  | .splitsnap h d a all => Sys2Proof.Machine.execSplitsnap h d a all s
  | .mark h tag a => Sys2Proof.Machine.execMark h tag a s
  | .sampcfg h d a => Sys2Proof.Machine.execSampcfg h d a s
  | .clock h d => Sys2Proof.Machine.execClock h d s
  | .retcnt h d => Sys2Proof.Machine.execRetcnt h d s
  | .illegalWordKill gid => Sys2Proof.Machine.execIllegalWordKill gid s
  | .sleepEnd gid => Sys2Proof.Machine.execSleepEnd gid s
  | .stackSpill gid => Sys2Proof.Machine.execStackSpill gid s
  | .stackFill gid => Sys2Proof.Machine.execStackFill gid s
  | .regionRestart gid => Sys2Proof.Machine.execRegionRestart gid s
  | .registerComplete gid => Sys2Proof.Machine.execRegisterComplete gid s
  | .sideLogReplay core entry => Sys2Proof.Machine.execSideLogReplay core entry s
  | .chunkReissue job => Sys2Proof.Machine.execChunkReissue job s
  | .atomicPerform id => Sys2Proof.Machine.execAtomicPerform id s
  | .barrierWake gid => Sys2Proof.Machine.execBarrierWake gid s
  | .watchEvaluate sect idx => Sys2Proof.Machine.execWatchEvaluate sect idx s
  | .watchTimeout sect idx => Sys2Proof.Machine.execWatchTimeout sect idx s
  | .copyJobStart job => Sys2Proof.Machine.execCopyJobStart job s
  | .mcPartStart job part => Sys2Proof.Machine.execMcPartStart job part s
  | .chunkSettle job => Sys2Proof.Machine.execChunkSettle job s
  | .copyJobComplete job => Sys2Proof.Machine.execCopyJobComplete job s
  | .mxbJobStart job => Sys2Proof.Machine.execMxbJobStart job s
  | .accJobStart job => Sys2Proof.Machine.execAccJobStart job s
  | .kblockEnd job => Sys2Proof.Machine.execKblockEnd job s
  | .mxbJobComplete job => Sys2Proof.Machine.execMxbJobComplete job s
  | .slvOpCommit cluster => Sys2Proof.Machine.execSlvOpCommit cluster s
  | .parseGrid q => Sys2Proof.Machine.execParseGrid q s
  | .parseOpen q => Sys2Proof.Machine.execParseOpen q s
  | .parseClose q => Sys2Proof.Machine.execParseClose q s
  | .nodeGather ctx node => Sys2Proof.Machine.execNodeGather ctx node s
  | .gatherTimerExpiry ctx node => Sys2Proof.Machine.execGatherTimerExpiry ctx node s
  | .nodeDrained ctx node => Sys2Proof.Machine.execNodeDrained ctx node s
  | .placeTeam ctx => Sys2Proof.Machine.execPlaceTeam ctx s
  | .successorForm team => Sys2Proof.Machine.execSuccessorForm team s
  | .teamRetire team => Sys2Proof.Machine.execTeamRetire team s
  | .gridComplete grid => Sys2Proof.Machine.execGridComplete grid s
  | .queueResetComplete port => Sys2Proof.Machine.execQueueResetComplete port s
  | .dumpRun die => Sys2Proof.Machine.execDumpRun die s
  | .dumpDone die => Sys2Proof.Machine.execDumpDone die s
  | .trapEntry gid => Sys2Proof.Machine.execTrapEntry gid s
  | .teamSave team => Sys2Proof.Machine.execTeamSave team s
  | .sliceEnd core => Sys2Proof.Machine.execSliceEnd core s
  | .ownerChange core => Sys2Proof.Machine.execOwnerChange core s
  | .groomerReport die => Sys2Proof.Machine.execGroomerReport die s
  | .shootdownApply die => Sys2Proof.Machine.execShootdownApply die s
  | .lazyApply die => Sys2Proof.Machine.execLazyApply die s
  | .drainDone die => Sys2Proof.Machine.execDrainDone die s
  | .traceDeliver core => Sys2Proof.Machine.execTraceDeliver core s
  | .headroomDeliver port => Sys2Proof.Machine.execHeadroomDeliver port s
  | .writeAcknowledged id => Sys2Proof.Machine.execWriteAcknowledged id s
  | .touchWindowClose gid => Sys2Proof.Machine.execTouchWindowClose gid s
  | .pageWalkComplete cluster ctx ptr => Sys2Proof.Machine.execPageWalkComplete cluster ctx ptr s
  | .accessCountNotify cluster => Sys2Proof.Machine.execAccessCountNotify cluster s
  | .sample core port => Sys2Proof.Machine.execSample core port s
  | .overflowFold core port => Sys2Proof.Machine.execOverflowFold core port s
  | .correctedError die => Sys2Proof.Machine.execCorrectedError die s
  | .uncorrectableWriteback pa => Sys2Proof.Machine.execUncorrectableWriteback pa s
  | .patrolScrub die => Sys2Proof.Machine.execPatrolScrub die s
  | .qtailWrite port v => Sys2Proof.Machine.execQtailWrite port v s
  | .portEnable port => Sys2Proof.Machine.execPortEnable port s
  | .portDisable port => Sys2Proof.Machine.execPortDisable port s
  | .qreset port => Sys2Proof.Machine.execQreset port s
  | .dieLoss die => Sys2Proof.Machine.execDieLoss die s
  | .fmResetRequest v => Sys2Proof.Machine.execFmResetRequest v s
  | .linkWidthChange a b n => Sys2Proof.Machine.execLinkWidthChange a b n s
  | .linkClockChange a b => Sys2Proof.Machine.execLinkClockChange a b s
  | .hostMemAccess write pa bytes => Sys2Proof.Machine.execHostMemAccess write pa bytes s
  | .hostSnoop pa bytes => Sys2Proof.Machine.execHostSnoop pa bytes s
  | .yosonTimeout pa => Sys2Proof.Machine.execYosonTimeout pa s
  | .yosonPortFail port => Sys2Proof.Machine.execYosonPortFail port s
  | .frameReceive port frame fcsOk => Sys2Proof.Machine.execFrameReceive port frame fcsOk s
  | .nvmeCompletion ctx ptr bytes toDevice => Sys2Proof.Machine.execNvmeCompletion ctx ptr bytes toDevice s
  | .powerUp => Sys2Proof.Machine.execPowerUp s
  | .loadfe => Sys2Proof.Machine.execLoadfe s
  | .loaddie die => Sys2Proof.Machine.execLoaddie die s
  | .quote => Sys2Proof.Machine.execQuote s
  | .clockPlan target => Sys2Proof.Machine.execClockPlan target s
  | .powerMeasure watts temps => Sys2Proof.Machine.execPowerMeasure watts temps s
  | .supplyShutdown => Sys2Proof.Machine.execSupplyShutdown s
  | .packageLoss => Sys2Proof.Machine.execPackageLoss s
  | .ceClear die => Sys2Proof.Machine.execCeClear die s
  | .unmatchedClear port => Sys2Proof.Machine.execUnmatchedClear port s
  | .badfcsClear port => Sys2Proof.Machine.execBadfcsClear port s
  | .ringEnable port ring en => Sys2Proof.Machine.execRingEnable port ring en s
  | .csetWrite ctx word val => Sys2Proof.Machine.execCsetWrite ctx word val s
  | .registerWrite pa val viaBar0 => Sys2Proof.Machine.execRegisterWrite pa val viaBar0 s
  | .ethernetLinkChange port up => Sys2Proof.Machine.execEthernetLinkChange port up s
  | .yosonlinkRequest req => Sys2Proof.Machine.execYosonlinkRequest req s

end Sys2Proof.Machine
end

