-- ==== Sys2Proof/Machine/Sched.lean ====
section
/-! DEFINITION. What happens next: writes and events already decided, events that are due, the words of a stop's re-execution, the
words the ports issue, and the end of the clk (R76, R79, R168, R379, R397, R401). -/

namespace Sys2Proof.Machine

/-- What the step does: an instruction or event run in a state, or a change that no constructor is built for. -/
inductive Act where
  | run (s : State) (i : Instr)
  | quiet (s : State)

/-- Where a fetch of a line is made from, with its failure (R79, R168). -/
def State.fetchAt (s : State) (g : Group) (pc : Pc) : Reach × State :=
  s.reachG ⟨g.core, g.ctx, false⟩ ((lowestLane g.active).getD 0) (s.codePtr g pc) 8 false false needX kindFetch

/-- A line read into a core's instruction cache. -/
def State.fillLine (s : State) (g : Group) (line : Nat) : State :=
  match s.fetchAt g (BitVec.ofNat 53 (16 * line)) with
  | (.glob _ _ _ flat, s) =>
    let b := s.readL2 (coreDie g.core) flat 128
    s.modCore g.core (fun k => { k with icache := kset k.icache line b })
  | (_, s) => s

/-- The line fills of a core that are over. -/
def State.fillsDone (s : State) (core : Nat) : State :=
  let k := s.core core
  match s.groups.find? (fun g => decide (g.2.core = core)) with
  | none => s.modCore core (fun k => { k with fills := [] })
  | some (_, g) =>
    let ended := (k.fills.filter (fun f => decide (f.2 ≤ s.pkg.clock))).map (fun f => f.1)
    ended.foldl (fun s l => s.fillLine g l) (s.modCore core (fun k => { k with fills := k.fills.filter (fun f => !ended.contains f.1) }))

/-- Whether a group looks for the word at its issue address: nothing of R379's sixth and seventh rows holds it. -/
def State.fetches (s : State) (g : Group) : Bool :=
  !g.isSup && !g.retired && !s.halted g.ctx && g.trap.isNone && !g.restart &&
  (match g.wait with
    | .fault => false
    | .syscall _ => false
    | .wbClear _ => false
    | _ => true)

/-- A group's fetch (R168, R401): a missing line begins to fill; an absent page is asked for, but for the first word of a handler,
whose fetch fails (R341; DEDUCED, log 64); a failed check traps. -/
def State.fetchGroup (s : State) (gid : Nat) (g : Group) : State :=
  let pc := g.issuePc.getD exitPc
  let k := s.core g.core
  let line := pc.toNat / 16
  if !s.fetches g || (kget k.icache line).isSome || (kget k.fills line).isSome then s
  else match s.fetchAt g pc with
    | (.glob _ _ _ flat, s) =>
      if s.bad (flat / 8 * 8) 8 then
        s.modGrp gid (fun x => { x with trap := some ⟨true, pc, [accFault ((lowestLane g.active).getD 0) .mcheck (s.codePtr g pc) (flat % 2 ^ 52) .g kindFetch]⟩ })
      else
        let (due, s) := s.freeDue
        s.modCore g.core (fun k => { k with fills := kset k.fills line due })
    | (.absent f, s) => if g.hndFirst then s.modGrp gid (fun x => { x with trap := some ⟨false, pc, [f]⟩ }) else (s.requestPages gid g 2 (.fetch gid) [f]).modGrp gid (fun x => { x with wait := .fault, waitPc := pc })
    | (.fault f, s) =>
      s.modGrp gid (fun x => if f.cause = .mcheck then { x with trap := some ⟨true, pc, [f]⟩ } else x.fetchTrap [f])
    | (_, s) => s.modGrp gid (fun x => { x with retryAt := s.pkg.clock + 2, retryCause := .fault, waitPc := pc })

/-- Every fetch of the clk. -/
def State.fetchAll (s : State) : State :=
  let s := (s.cores.filter (fun k => !k.2.fills.isEmpty)).foldl (fun s k => s.fillsDone k.1) s
  s.groups.foldl (fun s g => s.fetchGroup g.1 (s.grpD g.1)) s

/-- A group's clk ends: its age when it was ready and not picked (R76), and the fragment conditions of words whose results are
written (R251). -/
def State.ageGroup (s : State) (gid : Nat) (g : Group) : Group :=
  let idle := s.mayIssue gid g && !g.retired && (s.holdOf g).isNone
  let ended := g.mxPend.filter (fun m => decide (m.1 ≤ s.pkg.clock))
  { g with ageCount := if idle then g.ageCount + 1 else g.ageCount,
           mxstat := ended.foldl (fun x m => x ||| m.2) g.mxstat, mxPend := g.mxPend.filter (fun m => decide (s.pkg.clock < m.1)) }

/-- The end of a clk: slots charged, ages, fences, fetches, what is retried each clk, and the clock. -/
def State.endClk (s : State) : State :=
  let s := s.chargeAll
  let s := { s with groups := kmap s.groups (fun gid g => s.ageGroup gid g) }
  let s := (s.groups.filter (fun g => !g.2.fences.isEmpty)).foldl (fun s g => s.fenceStep g.1) s
  let s := { s with cores := kmap s.cores (fun _ k => { k with arrayUsed := 0, issued := [] }) }
  let s := s.fetchAll
  let s := ((((s.signalsTry).pagesTry).ctxOps).dieOps).pauseTick
  s.modPkg (fun p => { p with clock := p.clock + 1 })

/-- A group's next event. -/
def State.groupDue (s : State) (gid : Nat) (g : Group) : Option Instr :=
  let clk := s.pkg.clock
  let dry := decide (s.dry.map (fun d => d.gid) = some gid)
  if (g.dueP clk).isSome then some (.registerComplete gid)
  else if dry then (if g.fillDue then some (.stackFill gid) else none)
  else if g.restart && g.pends.isEmpty then some (.regionRestart gid)
  else if s.trapDue g then some (.trapEntry gid)
  else if g.spillDue && !g.isSup then some (.stackSpill gid)
  else if g.fillDue then some (.stackFill gid)
  else match g.wait, g.wakeAt with
    | .barrier _ _ _, some t => if t ≤ clk then some (.barrierWake gid) else none
    | .sleep t, _ => if t ≤ clk then some (.sleepEnd gid) else none
    | _, _ => none

/-- The events of the engines that may come next: copy and matrix jobs, sequencers, dumps and trace buffers. -/
def State.engineEvents (s : State) : List Instr :=
  s.jobs.filterMap (fun j => s.jobDue j.1 j.2) ++ s.mjobs.filterMap (fun j => s.mjobDue j.1 j.2) ++
  s.cclusters.filterMap (fun c => if c.2.seqQ.isEmpty then none else (s.seqNext c.1).map (fun _ => Instr.slvOpCommit c.1)) ++
  s.dies.filterMap (fun d => s.dumpDue d.1) ++
  s.cores.filterMap (fun k => if s.traceDue k.1 then some (Instr.traceDeliver k.1) else none)

/-- One engine's event, at a FREE pace and in a FREE order (log 6, log 13). -/
def State.engineAct (s : State) : Option Act :=
  if s.pkg.clock < s.pkg.engineAt then none
  else match s.engineEvents with
    | [] => none
    | l =>
      let (k, s) := s.freePick l.length
      let t := s.pkg.clock + Config.freeTime s.free
      (l[k]?).map (fun e => Act.run ({ s with free := s.free + 1 }.modPkg (fun p => { p with engineAt := t })) e)

/-- The events of atomics, side logs and watches. -/
def State.memoryDue (s : State) : Option Instr :=
  match s.atoms.find? (fun a => s.atomReady a.2) with
  | some a => some (.atomicPerform a.1)
  | none => match s.cores.findSome? (fun k => (s.logDue k.1 k.2.sideLog).map (fun e => Instr.sideLogReplay k.1 e)) with
    | some e => some e
    | none => match s.teams.findSome? (fun t => (s.logDue t.2.core t.2.savedLog).map (fun e => Instr.sideLogReplay t.2.core e)) with
      | some e => some e
      | none => s.dies.findSome? (fun d => (d.2.watchDue s.pkg.clock).map (fun i => Instr.watchTimeout d.1 i))

/-- The events of teams, dies and the Ethernet ports. -/
def State.placeDieDue (s : State) : Option Instr :=
  match s.teams.find? (fun t => t.2.saving && s.saveReady t.1) with
  | some t => some (.teamSave t.1)
  | none => match s.teams.find? (fun t => s.teamOver t.1) with
    | some t => some (.teamRetire t.1)
    | none => match s.dies.find? (fun d => s.shootDue d.1) with
      | some d => some (.shootdownApply d.1)
      | none => match s.dies.find? (fun d => (s.groomDue d.1).isSome) with
        | some d => some (.groomerReport d.1)
        | none => match s.dies.find? (fun d => s.drainOver d.1) with
          | some d => some (.drainDone d.1)
          | none => match s.eth.find? (fun e => (s.headroomNext e.1).isSome) with
            | some e => some (.headroomDeliver e.1)
            | none => s.workDue

/-- Changes that are due and have no constructor built for them: the mailbox at power-up and its commands, TOUCH windows, write-backs
and access counts. -/
def State.quietDue (s : State) : Option State :=
  if !s.pkg.mbOpen then some (s.modPkg (fun p => { p with mbOpen := true }))
  else match s.pkg.mbPend with
    | some (cmd, die) => if s.pkg.mbDue ≤ s.pkg.clock then some (s.mbRun cmd die) else none
    | none => match s.groups.find? (fun g => g.2.touchDue) with
      | some g => some (s.modGrp g.1 (fun g => { g with touches := g.touches.filter (fun t => decide (t.left ≠ 0)) }))
      | none => match s.wbs.find? (fun w => decide (w.2.due ≤ s.pkg.clock)) with
        | some w => some (s.writeBackDone w.1)
        | none => (s.cclusters.find? (fun c => c.2.tlb.any s.countHit)).map (fun c => s.countSend c.1)

/-- The next act of a stop's re-execution (R397): a word, or its next stage. -/
def State.dryAct (s : State) (d : DryRun) : Act :=
  match s.grp d.gid with
  | none => .quiet s.dryNext
  | some g =>
    if (if d.pass = 1 then d.m else d.n) ≤ g.retcnt.toNat then .quiet s.dryNext
    else match g.issuePc with
      | none => .quiet s.dryStuck
      | some pc =>
        if s.pkg.clock < g.retryAt then .quiet s.dryStuck
        else match s.atPc g pc with
          | .word i => .run { s with focus := d.gid } i
          | .illegal => .quiet s.dryStuck
          | .absent =>
            let t := s.fillLine g (pc.toNat / 16)
            if (kget (t.core g.core).icache (pc.toNat / 16)).isSome then .quiet t else .quiet s.dryStuck

/-- The word that issues next in the clk: ports in ascending order (R76), an illegal word's kill (R47). -/
def State.wordAct (s : State) : Option Act :=
  (s.groups.findSome? (fun g => s.pick g.2.core g.2.port)).map (fun x =>
    match s.atPc x.2 (x.2.issuePc.getD exitPc) with
    | .word i => Act.run { s with focus := x.1 } i
    | _ => Act.run s (.illegalWordKill x.1))

/-- What is due before any word issues. -/
def State.dueAct (s : State) : Option Act :=
  match s.ctlq with
  | _ :: _ => some (.quiet s.ctlStep)
  | [] => match s.agenda with
    | e :: t => some (.run { s with agenda := t } e)
    | [] => match s.quietDue with
      | some t => some (.quiet t)
      | none => match s.groups.findSome? (fun g => s.groupDue g.1 g.2) with
        | some e => some (.run s e)
        | none => match s.memoryDue with
          | some e => some (.run s e)
          | none => match s.placeDieDue with
            | some e => some (.run s e)
            | none => s.engineAct

/-- The next act of the machine. -/
def State.nextAct (s : State) : Act :=
  match s.dueAct with
  | some a => a
  | none => match s.dry with
    | some d => s.dryAct d
    | none => match s.wordAct with
      | some a => a
      | none => .quiet s.endClk

/-- A group at USER or HANDLER level that stands at byte address 0 in every lane with every register allocated. -/
def wordGroup (l : Level) : Group :=
  let z := lanes32.map (fun _ => (0 : Pc))
  let sp := lanes32.map (fun _ => (0 : Word))
  { Group.blank with level := l, ctx := 1, vregs := 256, sregs := 384, vpc := z, evpc := z, svpc := z, lsp := sp, elsp := sp, slsp := sp }

/-- Where a word is legal (R46), for a word placed by `State.placeWord`: a group and its core; a word legal nowhere, and one that does
not decode, goes to a USER group, which it kills (R47). -/
def wordPlace (b : List Byte) : Nat × Group :=
  match decodeBytes b with
  | .ok i =>
    if legalFor (wordGroup .user) i then (0, wordGroup .user)
    else if legalFor (wordGroup .handler) i then (0, wordGroup .handler)
    else if legalFor { supGroup 0 with core := 224 } i then (224, { supGroup 0 with core := 224 })
    else if legalFor { supGroup 0 with core := 544 } i then (544, { supGroup 0 with core := 544 })
    else (0, wordGroup .user)
  | .error _ => (0, wordGroup .user)

/-- The state with one group that stands at a word in its core's instruction cache, or in the physical memory that its core fetches
from, and with nothing due before it. -/
def State.placeWord (s : State) (b : List Byte) : State :=
  let (core, g) := wordPlace b
  let s := { s with groups := [(gidOf core 0 0, g)], agenda := [], ctlq := [], dry := none }
  let s := (s.modPkg (fun p => { p with mbOpen := true })).modDie (coreDie core) (fun d => { d with st := .up })
  if isCompute core then s.modCore core (fun k => { k with owner := 1, changing := none, turnFirst := some 0, icache := kset k.icache 0 (b ++ List.replicate 120 0) })
  else s.put (flatPhys 0) b

end Sys2Proof.Machine
end

