-- ==== Sys2Proof/Machine/Step.lean ====
section
/-! DEFINITION. One step: what is due next, as `State.nextAct` says, or a fault once the package has shut down. -/

namespace Sys2Proof.Machine

/-- One step of the machine. -/
def step (s : State) : Host.Outcome State Fault Refusal :=
  if s.pkg.on then
    (match s.nextAct with
    | .run t i => exec i t
    | .quiet t => .next t)
  else .fault .packageOff

/-- The state with an instruction's eight bytes, least significant first (R26), where the next step fetches its next instruction (log
7). -/
def State.withFetchWord (s : State) (nbits w : Nat) : State := s.placeWord (toBytes 8 (w % 2 ^ nbits))

end Sys2Proof.Machine
end

