-- ==== Sys2Proof/Safety.lean ====
section
/-! DEFINITION. The terms the claims are stated in: well-kept states, when a word runs undisturbed, what a register will hold, and
what a word or event leaves as it was. -/

namespace Sys2Proof.Machine

/-- The memory is in its one canonical form (Memory.wf). -/
def State.memOk (s : State) : Bool := Memory.wf s.mem

/-- Every register file is in its canonical form: zero cells are not listed. -/
def State.regsOk (s : State) : Bool := s.groups.all (fun g => cwf 0 g.2.regs)

/-- The canonical forms a claim may rely on. -/
def State.ok (s : State) : Bool := s.memOk && s.regsOk && risingFrom 0 s.groups

/-- The clock and the power limit stand where the rules of power management keep them (R417–R419): the core clock and its plan are
candidate frequencies, the clock is at most its plan, and the limit is a step between 2,000 W and 4,400 W. -/
def ClockOk (freq plan plim : Nat) : Prop :=
  freq ∈ clockCandidates ∧ plan ∈ clockCandidates ∧ freq ≤ plan ∧ 2000 ≤ plim ∧ plim ≤ 4400 ∧ 50 ∣ plim
def PkgOk (p : Pkg) : Prop := ClockOk p.freq p.plan p.plim

/-- What every step keeps, of a memory and the package's record: the memory is in its one canonical form, and the clock and the power
limit stand where the rules keep them. -/
def InvOf (m : List Host.Cell) (p : Pkg) : Prop := Memory.wf m = true ∧ PkgOk p
def Inv (s : State) : Prop := InvOf s.mem s.pkg

/-- The value a register cell holds once every open fixed-latency window is closed (R38). -/
def Group.coming (g : Group) (k : Nat) : Word := (lastAt (g.windows.flatMap (fun w => w.cells)) k).getD (cget 0 g.regs k)

/-- A word of entry `f` that reads the cells `keys` runs undisturbed at PC `pc` of the group in focus, and its group does not end with
it by running off the end of the address space: the package is on, no stop re-executes, the word is at the group's issue address, some
lane that is no helper has not exited, and the word does not read early (R41). -/
structure Ready (f : Info) (keys : Group → List Nat → List Nat) (s : State) (g : Group) (pc : Pc) : Prop where
  on : s.pkg.on = true
  noStop : s.dry = none
  here : s.grp s.focus = some g
  at_ : g.issuePc = some pc
  inside : pc + 1 ≠ exitPc
  someLane : ∃ l, l < 32 ∧ g.isHelper l = false ∧ g.vpcOf l ≠ exitPc
  notEarly : g.early f keys = false

/-- Every active lane at the next word, every other lane where it was (R79). -/
def Group.nextPcs (g : Group) (pc : Pc) : List Pc := lanes32.map (fun l => if g.active.getLsbD l then pc + 1 else g.vpcOf l)

/-- A scoreboard entry without its signature mark. -/
def Pend.plain (p : Pend) : Pend := { p with sig := none }

/-- What a word leaves of its group when it writes registers only: its place, level, stack, regions' saved state, special registers,
exception registers, and what it waits for. -/
structure GroupKept (g g' : Group) : Prop where
  place : g'.ctx = g.ctx ∧ g'.tid = g.tid ∧ g'.index = g.index ∧ g'.core = g.core ∧ g'.port = g.port ∧ g'.slot = g.slot
  level : g'.level = g.level
  alloc : g'.vregs = g.vregs ∧ g'.sregs = g.sregs ∧ g'.entry = g.entry ∧ g'.helper = g.helper
  saved : g'.evpc = g.evpc ∧ g'.svpc = g.svpc ∧ g'.elsp = g.elsp ∧ g'.slsp = g.slsp
  stack : g'.lsp = g.lsp ∧ g'.stk = g.stk ∧ g'.stklim = g.stklim ∧ g'.stackSize = g.stackSize ∧ g'.lbase = g.lbase
  region : g'.rgncnt = g.rgncnt ∧ g'.rsig = g.rsig
  special : g'.hndpc = g.hndpc ∧ g'.mxstat = g.mxstat ∧ g'.mxPend = g.mxPend ∧ g'.schk = g.schk
  exception : g'.trapcause = g.trapcause ∧ g'.trapva = g.trapva ∧ g'.traprec = g.traprec
  waits : g'.wait = g.wait ∧ g'.fences = g.fences ∧ g'.trap = g.trap ∧ g'.restart = g.restart

/-- What is the same in two states but for one group: every byte of memory, every other group, the teams, tiles, barriers and accumulators,
the dies and their registers, the front end, every engine, and of the cores and contexts all but the accounts of an issue. -/
structure StateKept (gid : Nat) (s t : State) : Prop where
  memory : ∀ a, t.byte a = s.byte a
  groups : ∀ k, k ≠ gid → t.grp k = s.grp k
  teams : t.teams = s.teams ∧ t.lclusters = s.lclusters
  cores : ∀ c, (t.core c).owner = (s.core c).owner ∧ (t.core c).l1 = (s.core c).l1 ∧ (t.core c).sideLog = (s.core c).sideLog ∧
    (t.core c).bounds = (s.core c).bounds ∧ (t.core c).accTeam = (s.core c).accTeam
  ctxs : ∀ c, t.ctx c = (s.ctx c).map (fun x => { x with slstat := ((t.ctx c).getD Ctx.reset).slstat })
  dies : t.dies = s.dies ∧ t.cclusters = s.cclusters
  units : t.fe = s.fe ∧ t.eth = s.eth ∧ t.jobs = s.jobs ∧ t.mjobs = s.mjobs ∧ t.atoms = s.atoms ∧ t.reqs = s.reqs ∧
    t.shoots = s.shoots ∧ t.supOps = s.supOps
  queued : t.agenda = s.agenda ∧ t.ctlq = s.ctlq
  pkg : t.pkg = s.pkg

/-- The state in which a word's own effect begins: the region entry is made (R45). -/
def State.entered (s : State) (f : Info) (g : Group) : State := s.setGrp s.focus (g.entered f)

/-- A word performs its own effect, which leads to `x`, and moves its group on (R38, R79, R94): in the next state the machine is as in
`x` but for the accounts of the issue; its group is as in `x`, with `cells` written by fixed-latency windows, the active lanes at
`to_`, and the word counted in RETCNT when it stands above the handler. -/
def PerformsTo (i : Instr) (s : State) (g : Group) (x : State) (cells : List (Nat × Word)) (to_ : Nat → Pc) : Prop :=
  ∃ t gx g', exec i s = .next t ∧ x.grp s.focus = some gx ∧ t.grp s.focus = some g' ∧
    g'.vpc = lanes32.map (fun l => if g.active.getLsbD l then to_ l else g.vpcOf l) ∧
    g'.retcnt = (if g.inRegion then gx.counted else gx.retcnt) ∧
    (∀ k, g'.coming k = (lastAt cells k).getD (gx.coming k)) ∧
    g'.pends.map Pend.plain = gx.pends.map Pend.plain ∧
    GroupKept { gx with rsig := g'.rsig } g' ∧ StateKept s.focus x t

/-- A word performs its own effect and its active lanes go to the next word. -/
def Performs (i : Instr) (s : State) (g : Group) (pc : Pc) (x : State) (cells : List (Nat × Word)) : Prop :=
  PerformsTo i s g x cells (fun _ => pc + 1)

/-- A word completes with the writes `cells` to its registers and no other effect than moving its group on. -/
def Completes (i : Instr) (s : State) (g : Group) (pc : Pc) (cells : List (Nat × Word)) : Prop :=
  Performs i s g pc (s.entered (info i) g) cells

/-- A word of variable latency takes its place (R40): its destination registers become pending with the values `cells`, in a scoreboard
entry that carries its PC and completes at a clk `ok` allows; the machine is otherwise as in `x`, a state in which the group has not
got the entry yet. -/
def AwaitsIn (i : Instr) (s : State) (g : Group) (pc : Pc) (x : State) (cells : List (Nat × Word)) (ok : Nat → Prop) : Prop :=
  ∃ p due, p.pc = pc ∧ p.regs = dstRegs (info i) ∧ p.cells = cells ∧ p.due = some due ∧ ok due ∧
    Performs i s g pc (x.modGrp s.focus (fun y => { y with pends := y.pends ++ [p] })) []

/-- A word of variable latency takes its place with a scoreboard entry that nothing completes yet (R40), the machine being otherwise as in
`x`, and then does `fx`: the entry has the next serial number. -/
def LeavesIn (i : Instr) (s : State) (g : Group) (pc : Pc) (x : State) (cells : List (Nat × Word)) (fx : Pend → State → State) : Prop :=
  ∃ e : Pend, e.id = x.serial ∧ e.pc = pc ∧ e.regs = dstRegs (info i) ∧ e.cells = cells ∧ e.due = none ∧
    Performs i s g pc (fx e (State.modGrp { x with serial := x.serial + 1 } s.focus (fun y => { y with pends := y.pends ++ [e] }))) []

/-- The same with no other effect before it. -/
def Leaves (i : Instr) (s : State) (g : Group) (pc : Pc) (cells : List (Nat × Word)) (fx : Pend → State → State) : Prop :=
  LeavesIn i s g pc (s.entered (info i) g) cells fx

/-- A word of variable latency takes its place and nothing else changes. -/
def Awaits (i : Instr) (s : State) (g : Group) (pc : Pc) (cells : List (Nat × Word)) (ok : Nat → Prop) : Prop :=
  AwaitsIn i s g pc (s.entered (info i) g) cells ok

/-- A word that changes nothing beyond its own group performs its effect: the group is then as `P` says, with `cells` written by
fixed-latency windows, and its active lanes go to `to_`. -/
def ChangesTo (i : Instr) (s : State) (g : Group) (cells : List (Nat × Word)) (to_ : Nat → Pc) (P : Group → Prop) : Prop :=
  ∃ x y, PerformsTo i s g x cells to_ ∧ StateKept s.focus (s.entered (info i) g) x ∧ x.grp s.focus = some y ∧ P y

/-- The same for a word whose active lanes go to the next word. -/
def Changes (i : Instr) (s : State) (g : Group) (pc : Pc) (cells : List (Nat × Word)) (P : Group → Prop) : Prop :=
  ChangesTo i s g cells (fun _ => pc + 1) P

/-- What the lanes of a load read, in ascending lanes, and the state after their reads: `none` when the check or the data of some lane
fails. -/
def State.readsOk (gid : Nat) (g : Group) (n : Nat) (pol : Pol) (s : State) : List (Nat × Reach) → Option (List (Nat × List Byte) × State)
  | [] => some ([], s)
  | (l, r) :: t =>
    let one : Option (List Byte) × State := match r with
      | .glob p e size f => s.loadG g.who p n pol e size f
      | .ctl pa => (some (toBytes n (if n = 8 then s.ctlRead pa else 0)), s)
      | .chip f _ => (if s.bad f n then none else some (s.bytes f n), s)
      | .stack o => (match s.readL gid g l n o with
        | (.bytes b, x) => (some b, x)
        | (_, x) => (none, x))
      | _ => (none, s)
    match one.1 with
    | some b => (one.2.readsOk gid g n pol t).map (fun q => ((l, b) :: q.1, q.2))
    | none => none

/-- The state after the lanes of a store have stored, in ascending lanes, what no side log takes: `none` when the check of some lane
fails. `s0` is the state in which the word began. -/
def State.storesOk (gid : Nat) (g : Group) (n : Nat) (pol : Pol) (s0 : State) (data : Nat → List Byte) (s : State) : List (Nat × Reach) → Option State
  | [] => some s
  | (l, r) :: t =>
    let one : Option State := match r with
      | .glob p e size f => some (if s0.logged gid g p e then s else s.storeG g.who p pol e size f (data l))
      | .ctl pa => some (if n = 8 then s.ctlWrite pa (ofBytes (data l)) false else s)
      | .chip f _ => some (s.put f (data l))
      | .stack o => (match s.backChecks gid g l (g.lspOf l).toNat n o with
        | (.bytes _, x) => some (x.writeL gid g l (g.lspOf l).toNat o (data l))
        | _ => none)
      | .absent _ => some s
      | _ => none
    match one with
    | some x => State.storesOk gid g n pol s0 data x t
    | none => none

/-- The fence of an atomic word's release or acquire, with no number (R194). -/
def orderFence (m : AtomMod) (rel acq : Bool) (pc : Pc) : FenceRec :=
  { FenceRec.blank with
    scope := scopeCode m.scope, rel := rel, acq := acq, holdLoads := decide (m.ord = .sc), holdStores := decide (m.ord = .sc), pc := pc }
/-- The release before an atomic word and the acquire after it (R194). -/
def relFences (m : AtomMod) (pc : Pc) : List FenceRec := if hasRel m.ord then [orderFence m true (decide (m.ord = .sc)) pc] else []
def acqFences (m : AtomMod) (pc : Pc) : List FenceRec := if hasAcq m.ord then [orderFence m (decide (m.ord = .sc)) true pc] else []
/-- A fence without its number. -/
def FenceRec.anon (f : FenceRec) : FenceRec := { f with id := 0 }

/-- Whether a lane's place needs nothing of the side log: it lies on chip, or in a page no write is blocked in, with no logged line (R165, R189). -/
def State.atomClear (s0 s : State) (gid : Nat) (g : Group) (ret : Bool) (q : Nat × Reach) : Prop :=
  (∃ f c, q.2 = .chip f c) ∨ ∃ p e z f, q.2 = .glob p e z f ∧ (if ret then leafWb e = false else s0.logged gid g p e = false) ∧
    ∀ k ∈ (s.core g.core).sideLog, ¬ (k.ctx = g.ctx ∧ vline k.ptr = vline p)

/-- An atomic word's lanes as they are performed or go on their way. -/
def AtomWord.lanes (x : AtomWord) (rec : Nat → Nat) (rs : List (Nat × Reach)) : List AtomLane :=
  rs.filterMap (fun q => (x.lane q.1 q.2).map (fun k => { k with lane := rec k.lane }))

/-- What an atomic word with the operands `x` does at issue where its lanes are clear and no atomic of its group is on its way to their bytes
(R182–R188, R194, R199): relaxed or acquiring lanes that all lie on chip are performed at once, in ascending order, and leave their old
values (zeros in helper lanes, R93) in a scoreboard entry; other words are sent on their way, with their group's release before them. -/
def AtomicDoes (i : Instr) (a : Opnd) (x : Group → AtomWord) : Prop := ∀ s g pc,
  let E := g.entered (info i)
  let y := x E
  let n := if y.m.w64 then 8 else 4
  let X := E.exLanes (info i) g.active
  let L := if uniOf (info i) then (if (lanesOf g.active).all E.isHelper then [] else X) else X.filter (fun l => !E.isHelper l)
  let R := (s.entered (info i) g).reachAll (fun s l => s.reach E l y.m.sp a .zero n (if y.ret then needRW else needW) kindAtomic) L
  let go := y.lanes (fun l => if uniOf (info i) then (lowestLane g.active).getD 0 else l) R.1
  let now := R.2.atomLanes y.op y.dst y.pred y.m.w64 go
  let zeros := (X.filter (fun l => !L.contains l)).flatMap (zeroCells (info i))
  let one : List Pend → List (Nat × Word) → (Option Nat → Prop) → Prop := fun ps cells due =>
    if y.ret then ∃ p, ps = [p] ∧ p.pc = pc ∧ p.regs = dstRegs (info i) ∧ p.cells = cells ∧ due p.due else ps = []
  Ready (info i) (ownKeys (info i)) s g pc → X ≠ [] → (∀ q ∈ R.1, s.atomClear R.2 s.focus E y.ret q) →
  R.2.overlapsFlight s.focus n R.1 = false →
  ∃ z k ps fs fs', Performs i s g pc z [] ∧ z.grp s.focus = some k ∧
    k = { E with pathUntil := k.pathUntil, pathPc := k.pathPc, pends := E.pends ++ ps, fences := E.fences ++ (fs ++ fs') } ∧
    fs.map FenceRec.anon = relFences y.m pc ∧ fs'.map FenceRec.anon = acqFences y.m pc ∧ (∀ j, j ≠ s.focus → z.grp j = s.grp j) ∧
    (if !hasRel y.m.ord && go.all (fun k => decide (k.home = 16)) then
      one ps (zeros ++ now.1) (fun d => ∃ due, d = some due ∧ s.pkg.clock < due) ∧ (∀ a, z.byte a = now.2.byte a) ∧ z.atoms = R.2.atoms
    else one ps zeros (fun d => d = none) ∧ (∀ a, z.byte a = R.2.byte a) ∧
      ∃ id lat due, s.pkg.clock < due ∧ (∀ k, k ≠ id → kget z.atoms k = kget R.2.atoms k) ∧
        kget z.atoms id = some ⟨s.focus, E.tid, E.ctx, E.core, ps.head?.map (fun p => p.id), y.op, go, y.dst, y.m.w64, y.pred, lat,
          fs.head?.map (fun f => f.id), due⟩)

/-- A word whose whole effect is to write register cells (R38): given the group after its region entry, its active mask and the lanes it
executes in, the cells and their new values. -/
def Writes (i : Instr) (keys : Group → List Nat → List Nat) (cells : Group → LaneMask → List Nat → List (Nat × Word)) : Prop :=
  ∀ s g pc, Ready (info i) keys s g pc →
    Completes i s g pc (cells (g.entered (info i)) g.active ((g.entered (info i)).exLanes (info i) g.active))

/-- A word that writes a 32-bit result in every lane it executes in, reading its own lanes only. -/
def Result1 (i : Instr) (d : Opnd) (v : Group → Nat → Word) : Prop :=
  Writes i (ownKeys (info i)) (fun g _ ex => dstCells d 0 ex (v g))

/-- A word that writes a 64-bit result in every lane it executes in, reading its own lanes only. -/
def Result2 (i : Instr) (d : Opnd) (v : Group → Nat → DWord) : Prop :=
  Writes i (ownKeys (info i)) (fun g _ ex => dstCells64 d ex (v g))

/-- A word that writes a predicate in every lane it executes in, reading its own lanes only. -/
def ResultP (i : Instr) (d : PCode) (v : Group → Nat → Bool) : Prop :=
  Writes i (ownKeys (info i)) (fun g _ ex => predCells d ex (v g))

/-- An element of MMA and MMAS (R249) from its row, its column, its accumulator and, for the FP8 types, the scale. -/
def mmaSum (ty : MmaTy) (sc x y z : Nat) : Nat :=
  let half : NumTy → Nat := fun t => (List.range 8).foldl (fun a m => fp32.round .rn false (addV .rn (fp32.val a) (dotV t t 16 x y (2 * m) 2))) z
  let eight : NumTy → NumTy → Nat := fun t u =>
    fp32.round .rn false (addV .rn (fp32.val z) (mulV (fp32.val (fp32.round .rn false (dotV t u 8 x y 0 32))) (fp32.val sc)))
  let int : NumTy → NumTy → Nat → Nat → Nat := fun t u w k => ((sextNat z 32 + dotI t u w x y k) % 2 ^ 32).toNat
  match ty with
  | .bf16 => half .bf16
  | .fp16 => half .fp16
  | .e4m3 => eight .e4m3 .e4m3
  | .e5m2 => eight .e5m2 .e5m2
  | .e4m3e5m2 => eight .e4m3 .e5m2
  | .e5m2e4m3 => eight .e5m2 .e4m3
  | .int8 => int .int8 .int8 8 32
  | .uint8 => int .uint8 .uint8 8 32
  | .int8uint8 => int .int8 .uint8 8 32
  | .uint8int8 => int .uint8 .int8 8 32
  | .int4 => int .int4 .int4 4 64
  | .uint4 => int .uint4 .uint4 4 64
  | .int4uint4 => int .int4 .uint4 4 64
  | .uint4int4 => int .uint4 .int4 4 64

/-- The exact value of an integer element (R251), and 0 for a type that has none. -/
def mmaExact (ty : MmaTy) (x y z : Nat) : Int :=
  let int : NumTy → NumTy → Nat → Nat → Int := fun t u w k => sextNat z 32 + dotI t u w x y k
  match ty with
  | .int8 => int .int8 .int8 8 32
  | .uint8 => int .uint8 .uint8 8 32
  | .int8uint8 => int .int8 .uint8 8 32
  | .uint8int8 => int .uint8 .int8 8 32
  | .int4 => int .int4 .int4 4 64
  | .uint4 => int .uint4 .uint4 4 64
  | .int4uint4 => int .int4 .uint4 4 64
  | .uint4int4 => int .uint4 .int4 4 64
  | _ => 0

/-- A word's own release is over (R193, R322–R325, R345): its fence stands in the group with nothing left to wait for. -/
def Group.released (g : Group) (pc : Pc) : Prop :=
  ∃ f, g.fences.find? (fun f => f.barrier && decide (f.pc = pc)) = some f ∧ f.rel = false

/-- The group with the fence of a word's own release gone. -/
def Group.afterRelease (g : Group) (pc : Pc) : Group := { g with fences := g.fences.filter (fun f => !(f.barrier && decide (f.pc = pc))) }

/-- Nothing of a team's stands in a supervisor group's place: the group belongs to no team (team 0), no team has that number, and no
operation of a sequencer is the group's. -/
structure Apart (gid : Nat) (s : State) : Prop where
  groups : ∀ q ∈ s.groups, q.1 = gid → q.2.tid = 0
  teams : ∀ t ∈ s.teams, t.1 ≠ 0
  mates : ∀ k ∈ s.lclusters, ∀ x ∈ k.2.teams, x.2 ≠ 0
  ops : ∀ k ∈ s.cclusters, ∀ o ∈ k.2.seqQ, o.gid ≠ gid

end Sys2Proof.Machine
end

