-- ==== Sys2Proof/Certificates/Slice0/Obligations.lean ====
section
/-! DEFINITION. The statements for the provers: what each instruction and each event of the machine does, what it leaves as it was, and what
holds of the machine as a whole. Each names the rules of the specification it formalises. A number after 'log' is an entry of the assumption log. -/

open Sys2Proof Sys2Proof.Machine

/-- MOV, IADD, IADD64, ISUB, ISUB64, IMUL, IMULH, IMULHU, IMAD, IMADW, IMIN, IMAX, IABS, ISAD, AND, OR, XOR and ANDN
complete with the results of R55, R57 and R58, in every operand form and modifier; nothing else of the machine changes. -/
def Obligations.IntegerResults : Prop := ∀ (h : Hdr) (d a b c : Opnd) (un : Bool),
  let ext : Word → Int := fun x => if un then x.toNat else x.toInt
  let clamp : Int → Int → Int → Int := fun lo hi x => max lo (min hi x)
  Result1 (.mov h d a) d (fun g l => g.rd l a) ∧
  Result1 (.iadd h d a b .wrap) d (fun g l => g.rd l a + g.rd l b) ∧
  Result1 (.iadd h d a b .sat) d (fun g l => BitVec.ofInt 32 (clamp (-2147483648) 2147483647 ((g.rd l a).toInt + (g.rd l b).toInt))) ∧
  Result1 (.iadd h d a b .satu) d (fun g l => BitVec.ofNat 32 (min 4294967295 ((g.rd l a).toNat + (g.rd l b).toNat))) ∧
  Result2 (.iadd64 h d a b) d (fun g l => g.rd64 l a + g.rd64 l b) ∧
  Result1 (.isub h d a b .wrap) d (fun g l => g.rd l a - g.rd l b) ∧
  Result1 (.isub h d a b .sat) d (fun g l => BitVec.ofInt 32 (clamp (-2147483648) 2147483647 ((g.rd l a).toInt - (g.rd l b).toInt))) ∧
  Result1 (.isub h d a b .satu) d (fun g l => BitVec.ofNat 32 ((g.rd l a).toNat - (g.rd l b).toNat)) ∧
  Result2 (.isub64 h d a b) d (fun g l => g.rd64 l a - g.rd64 l b) ∧
  Result1 (.imul h d a b) d (fun g l => g.rd l a * g.rd l b) ∧
  Result1 (.imulh h d a b) d (fun g l => BitVec.ofInt 32 ((g.rd l a).toInt * (g.rd l b).toInt / 4294967296)) ∧
  Result1 (.imulhu h d a b) d (fun g l => BitVec.ofNat 32 ((g.rd l a).toNat * (g.rd l b).toNat / 4294967296)) ∧
  Result1 (.imad h d a b c) d (fun g l => g.rd l a * g.rd l b + g.rd l c) ∧
  Result2 (.imadw h d a b c un) d (fun g l => BitVec.ofInt 64 (ext (g.rd l a) * ext (g.rd l b)) + g.rd64 l c) ∧
  Result1 (.imin h d a b un) d (fun g l => BitVec.ofInt 32 (min (ext (g.rd l a)) (ext (g.rd l b)))) ∧
  Result1 (.imax h d a b un) d (fun g l => BitVec.ofInt 32 (max (ext (g.rd l a)) (ext (g.rd l b)))) ∧
  Result1 (.iabs h d a false) d (fun g l => BitVec.ofInt 32 |(g.rd l a).toInt|) ∧
  Result1 (.iabs h d a true) d (fun g l => BitVec.ofInt 32 (min 2147483647 |(g.rd l a).toInt|)) ∧
  Result1 (.isad h d a b c un) d (fun g l => BitVec.ofInt 32 |ext (g.rd l a) - ext (g.rd l b)| + g.rd l c) ∧
  Result1 (.and h d a b) d (fun g l => g.rd l a &&& g.rd l b) ∧
  Result1 (.or h d a b) d (fun g l => g.rd l a ||| g.rd l b) ∧
  Result1 (.xor h d a b) d (fun g l => g.rd l a ^^^ g.rd l b) ∧
  Result1 (.andn h d a b) d (fun g l => g.rd l a &&& ~~~g.rd l b)

/-- SHL, SHR, SAR, SHL64, SHR64, SAR64, FSHL, FSHR, POPC, CLZ, CTZ, BREV, BFE, BFI, SEXT and ZEXT complete with the
results of R59 to R62 for every count, position and length (counts past the width included); nothing else changes. -/
def Obligations.ShiftAndFieldResults : Prop := ∀ (h : Hdr) (d a b c : Opnd) (x : Bool),
  let n : Group → Nat → Nat := fun g l => (g.rd l b).toNat
  let pos : Group → Nat → Nat := fun g l => (g.rd l b).toNat % 256
  let len : Group → Nat → Nat := fun g l => min ((g.rd l c).toNat % 256) 32
  Result1 (.shl h d a b) d (fun g l => g.rd l a <<< n g l) ∧
  Result1 (.shr h d a b) d (fun g l => g.rd l a >>> n g l) ∧
  Result1 (.sar h d a b) d (fun g l => (g.rd l a).sshiftRight (n g l)) ∧
  Result2 (.shl64 h d a b) d (fun g l => g.rd64 l a <<< n g l) ∧
  Result2 (.shr64 h d a b) d (fun g l => g.rd64 l a >>> n g l) ∧
  Result2 (.sar64 h d a b) d (fun g l => (g.rd64 l a).sshiftRight (n g l)) ∧
  Result1 (.fshl h d a b c false) d (fun g l =>
    BitVec.ofNat 32 (((g.rd l a).toNat * 2 ^ 32 + (g.rd l b).toNat) * 2 ^ ((g.rd l c).toNat % 32) / 2 ^ 32)) ∧
  Result1 (.fshl h d a b c true) d (fun g l =>
    BitVec.ofNat 32 (((g.rd l a).toNat * 2 ^ 32 + (g.rd l b).toNat) * 2 ^ (min (g.rd l c).toNat 32) / 2 ^ 32)) ∧
  Result1 (.fshr h d a b c false) d (fun g l =>
    BitVec.ofNat 32 (((g.rd l a).toNat * 2 ^ 32 + (g.rd l b).toNat) / 2 ^ ((g.rd l c).toNat % 32))) ∧
  Result1 (.fshr h d a b c true) d (fun g l =>
    BitVec.ofNat 32 (((g.rd l a).toNat * 2 ^ 32 + (g.rd l b).toNat) / 2 ^ (min (g.rd l c).toNat 32))) ∧
  Result1 (.popc h d a) d (fun g l => BitVec.ofNat 32 ((List.range 32).countP (fun i => (g.rd l a).getLsbD i))) ∧
  Result1 (.clz h d a) d (fun g l =>
    BitVec.ofNat 32 (((List.range 32).reverse.findIdx (fun i => (g.rd l a).getLsbD i)))) ∧
  Result1 (.ctz h d a) d (fun g l => BitVec.ofNat 32 (((List.range 32).findIdx (fun i => (g.rd l a).getLsbD i)))) ∧
  Result1 (.brev h d a) d (fun g l => (g.rd l a).reverse) ∧
  Result1 (.bfe h d a b c x) d (fun g l =>
    if len g l = 0 then 0
    else if x then ((g.rd l a).sshiftRight (pos g l)).setWidth (len g l) |>.signExtend 32
    else ((g.rd l a) >>> (pos g l)).setWidth (len g l) |>.setWidth 32) ∧
  Result1 (.bfi h d a b c) d (fun g l =>
    let mask : Word := BitVec.ofNat 32 ((2 ^ len g l - 1) * 2 ^ pos g l)
    (g.rd l d &&& ~~~mask) ||| ((g.rd l a <<< pos g l) &&& mask)) ∧
  Result1 (.sext h d a b) d (fun g l => ((g.rd l a).setWidth (min (pos g l) 32)).signExtend 32) ∧
  Result1 (.zext h d a b) d (fun g l => ((g.rd l a).setWidth (min (pos g l) 32)).setWidth 32)

/-- ICMP, ICMP64, SEL, PLOP, LEA, MOVI, MOVIH and IADDI complete with the results of R63 to R67, in every
form, condition and combination; a write to P7 or Q7 is discarded (R34) and MOVIH leaves its even register; nothing else changes. -/
def Obligations.ComparisonAndAddressResults : Prop :=
  ∀ (h : Hdr) (d a b : Opnd) (p q r : PCode) (k : PComb) (cond : ICond) (neg sx : Bool) (n sh : Fin 8) (lut : BitVec 4)
    (i24 : BitVec 24) (i32 : BitVec 32),
  let holds : ICond → Int → Int → Nat → Nat → Bool := fun c x y u v => match c with
    | .eq => decide (u = v) | .ne => decide (u ≠ v) | .lt => decide (x < y) | .le => decide (x ≤ y) | .gt => decide (y < x)
    | .ge => decide (y ≤ x) | .ltu => decide (u < v) | .leu => decide (u ≤ v) | .gtu => decide (v < u) | .geu => decide (v ≤ u)
  let comb : Bool → Bool → Bool := fun c x => match k.comb with
    | .none => c | .and => c && (x != k.cn) | .or => c || (x != k.cn) | .xor => c != (x != k.cn)
  let pc : Bool → Fin 8 → PCode := fun u j => if u then .q j else .p j
  ResultP (.icmp h p a b k cond) p (fun g l =>
    comb (holds cond (g.rd l a).toInt (g.rd l b).toInt (g.rd l a).toNat (g.rd l b).toNat)
      (g.pred (pc (uniOf (info (.icmp h p a b k cond))) k.ci) l)) ∧
  ResultP (.icmp64 h p a b k cond) p (fun g l =>
    comb (holds cond (g.rd64 l a).toInt (g.rd64 l b).toInt (g.rd64 l a).toNat (g.rd64 l b).toNat)
      (g.pred (pc (uniOf (info (.icmp64 h p a b k cond))) k.ci) l)) ∧
  Result1 (.sel h d a b neg n) d (fun g l =>
    if g.pred (pc (uniOf (info (.sel h d a b neg n))) n) l ≠ neg then g.rd l a else g.rd l b) ∧
  ResultP (.plop h p q r lut) p (fun g l => lut.getLsbD (2 * (g.pred q l).toNat + (g.pred r l).toNat)) ∧
  Result2 (.lea h d a b .full sx sh) d (fun g l =>
    g.rd64 l a + (if sx then (g.rd l b).signExtend 64 else (g.rd l b).setWidth 64) * BitVec.ofNat 64 (2 ^ sh.val)) ∧
  Result2 (.lea h d a b .tag sx sh) d (fun g l =>
    let x := g.rd64 l a + (if sx then (g.rd l b).signExtend 64 else (g.rd l b).setWidth 64) * BitVec.ofNat 64 (2 ^ sh.val)
    (g.rd64 l a).extractLsb' 56 8 ++ x.extractLsb' 0 56) ∧
  Result1 (.lea h d a b .w32 sx sh) d (fun g l => g.rd l a + g.rd l b * BitVec.ofNat 32 (2 ^ sh.val)) ∧
  Result1 (.moviFull h d i24) d (fun _ _ => i24.signExtend 32) ∧
  Result1 (.moviWide h d i32) d (fun _ _ => i32) ∧
  Writes (.movihFull h d i24) (ownKeys (info (.movihFull h d i24))) (fun _ _ ex => dstCells d 1 ex (fun _ => i24.signExtend 32)) ∧
  Writes (.movihWide h d i32) (ownKeys (info (.movihWide h d i32))) (fun _ _ ex => dstCells d 1 ex (fun _ => i32)) ∧
  Result1 (.iaddiFull h d a i24) d (fun g l => g.rd l a + i24.signExtend 32) ∧
  Result1 (.iaddiWide h d i32) d (fun g l => g.rd l d + i32)

/-- QXCH, SHFL, VOTE, BALLOT, MATCH, ELECT, READLANE, WRITELANE, GRED, GSCAN and MASK complete with the results of R68 to
R75, with helper lanes as sources and destinations but never as participants; nothing else changes. -/
def Obligations.CrossLaneResults : Prop :=
  ∀ (h : Hdr) (d a b : Opnd) (p : Fin 8) (c : PCode) (m : QMode) (sm : ShMode) (k : Fin 6) (un exc : Bool) (op : RedOp),
  let part : Group → List Nat → List Nat := fun g ex => ex.filter (fun l => !g.isHelper l)
  let bit : List Nat → (Nat → Bool) → Word := fun l f => maskOf (fun j => l.contains j && f j)
  let f : Nat → Nat := fun q => match m with
    | .xh => q ^^^ 1 | .xv => q ^^^ 2 | .xd => q ^^^ 3 | .b0 => 0 | .b1 => 1 | .b2 => 2 | .b3 => 3
  let src : Group → Nat → Nat := fun g l =>
    let w := 32 >>> k.val
    let n := (g.rd l b).toNat
    match sm with
    | .idx => (l - l % w) + n % w
    | .up => if n ≤ l % w then l - n else l
    | .down => if l % w + n < w then l + n else l
    | .xor => (l - l % w) + (l % w ^^^ n % w)
  let comb : List Word → Word := fun l => match op with
    | .add => l.foldl (· + ·) 0
    | .min => l.foldl (fun x y => if x.toInt ≤ y.toInt then x else y) 0x7FFFFFFF
    | .max => l.foldl (fun x y => if y.toInt ≤ x.toInt then x else y) 0x80000000
    | .minu => l.foldl (fun x y => if x ≤ y then x else y) 0xFFFFFFFF
    | .maxu => l.foldl (fun x y => if y ≤ x then x else y) 0
    | .and => l.foldl (· &&& ·) 0xFFFFFFFF
    | .or => l.foldl (· ||| ·) 0
    | .xor => l.foldl (· ^^^ ·) 0
  Writes (.qxch h d a m) (fun _ ex => crossKeys a (ex.map (fun l => l - l % 4 + f (l % 4))))
    (fun g _ ex => dstCells d 0 ex (fun l => g.rd (l - l % 4 + f (l % 4)) a)) ∧
  Writes (.shfl h d a b k sm) (fun g ex => crossKeys a (ex.map (src g)) ++ crossKeys b ex)
    (fun g _ ex => dstCells d 0 ex (fun l => g.rd (src g l) a)) ∧
  Writes (.vote h p c .all) (ownKeys (info (.vote h p c .all)))
    (fun g _ ex => predCells (.p p) ex (fun _ => (part g ex).all (g.pred c))) ∧
  Writes (.vote h p c .any) (ownKeys (info (.vote h p c .any)))
    (fun g _ ex => predCells (.p p) ex (fun _ => (part g ex).any (g.pred c))) ∧
  Writes (.vote h p c .uni) (ownKeys (info (.vote h p c .uni)))
    (fun g _ ex => predCells (.p p) ex (fun _ => (part g ex).all (g.pred c) || !(part g ex).any (g.pred c))) ∧
  Writes (.ballot h d c) (ownKeys (info (.ballot h d c)))
    (fun g _ ex => dstCells d 0 ex (fun _ => bit (part g ex) (g.pred c))) ∧
  Writes (.matchw h d a un) (ownKeys (info (.matchw h d a un)))
    (fun g _ ex => dstCells d 0 ex (fun l =>
      bit (part g ex) (fun j => if un then decide (g.rd64 j a = g.rd64 l a) else decide (g.rd j a = g.rd l a)))) ∧
  Writes (.elect h p) (ownKeys (info (.elect h p)))
    (fun g _ ex => predCells (.p p) ex (fun l => decide ((part g ex).head? = some l))) ∧
  Writes (.readlane h d a b) (fun g ex => crossKeys a (if ex.isEmpty then [] else [(g.rd 0 b).toNat % 32]) ++ crossKeys b ex)
    (fun g _ ex => dstCells d 0 ex (fun l => g.rd ((g.rd l b).toNat % 32) a)) ∧
  Writes (.writelane h d a b) (ownKeys (info (.writelane h d a b)))
    (fun g _ _ => let l := (g.rd 0 b).toNat % 32
      if g.vpcOf l ≠ exitPc ∧ g.guard false h l then dstCells d 0 [l] (fun _ => g.rd l a) else []) ∧
  Writes (.gred h d a op) (ownKeys (info (.gred h d a op)))
    (fun g _ ex => dstCells d 0 ex (fun _ => comb ((part g ex).map (fun j => g.rd j a)))) ∧
  Writes (.gscan h d a exc op) (ownKeys (info (.gscan h d a exc op)))
    (fun g _ ex => dstCells d 0 ex (fun l =>
      comb (((part g ex).filter (fun j => decide (j < l) || (decide (j = l) && !exc))).map (fun j => g.rd j a)))) ∧
  Writes (.mask h d .act) (ownKeys (info (.mask h d .act)))
    (fun g act ex => dstCells d 0 ex (fun _ =>
      if uniOf (info (.mask h d .act)) then act &&& ~~~g.helper else bit (part g ex) (fun _ => true))) ∧
  Writes (.mask h d .live) (ownKeys (info (.mask h d .live))) (fun g _ ex => dstCells d 0 ex (fun _ => g.live &&& ~~~g.helper)) ∧
  Writes (.mask h d .help) (ownKeys (info (.mask h d .help))) (fun g _ ex => dstCells d 0 ex (fun _ => g.helper))

/-- FADD, FSUB, FMUL, FFMA, FFMA2, FMIN, FMAX, FCMP, the packed words, FRCP, FRSQ, FSQRT, FEX2, FLG2, FSIN, FCOS, FTANH,
CMULH2 and CFMAH2 complete with one rounding of the exact result of their sources after their modifiers (R107 to R114), in every
rounding mode; nothing else changes. -/
def Obligations.FloatResults : Prop :=
  ∀ (h : Hdr) (d a b c : Opnd) (p : PCode) (k : PComb) (r : Rnd) (m : FMods) (na nc pr conj : Bool) (cond : FCond),
  let n : Nat → Word := BitVec.ofNat 32
  let A : Group → Nat → Nat := fun g l => fmod m.absa m.nega (g.f32 l a)
  let B : Group → Nat → Nat := fun g l => fmod m.absb m.negb (g.f32 l b)
  let V : Nat → FVal := fp32.val
  let lo : Nat → Nat := fun x => x % 65536
  let hi : Nat → Nat := fun x => x / 65536 % 65536
  let both : (Nat → Nat) → Word := fun e => n (e 0 + e 1 * 65536)
  let half : Nat → Nat → Nat := fun j x => if j = 0 then lo x else hi x
  Result1 (.fadd h d a b r m) d (fun g l => n (fp32.round r false (addV r (V (A g l)) (V (B g l))))) ∧
  Result1 (.fsub h d a b r m) d (fun g l => n (fp32.round r false (addV r (V (A g l)) (V (fmod false true (B g l)))))) ∧
  Result1 (.fmul h d a b r m) d (fun g l => n (fp32.round r false (mulV (V (A g l)) (V (B g l))))) ∧
  Result1 (.ffma h d a b c r na nc) d (fun g l => n (fp32.fma r na nc (g.f32 l a) (g.f32 l b) (g.f32 l c))) ∧
  Writes (.ffma2 h d a b c r na nc) (ownKeys (info (.ffma2 h d a b c r na nc))) (fun g _ ex =>
    dstCells d 0 ex (fun l => n (fp32.fma r na nc (g.fj l 0 a) (g.fj l 0 b) (g.fj l 0 c))) ++
    dstCells d 1 ex (fun l => n (fp32.fma r na nc (g.fj l 1 a) (g.fj l 1 b) (g.fj l 1 c)))) ∧
  Result1 (.fmin h d a b pr m) d (fun g l => n (fminMax false pr (A g l) (B g l))) ∧
  Result1 (.fmax h d a b pr m) d (fun g l => n (fminMax true pr (A g l) (B g l))) ∧
  ResultP (.fcmp h p a b k cond) p (fun g l =>
    combine k (fcmpVal cond (g.f32 l a) (g.f32 l b)) (g.combPred (uniOf (info (.fcmp h p a b k cond))) k l)) ∧
  Result1 (.hadd2 h d a b) d (fun g l => both (fun j => fp16.add .rn (half j (g.h2 fp16 l a)) (half j (g.h2 fp16 l b)))) ∧
  Result1 (.hmul2 h d a b) d (fun g l => both (fun j => fp16.mul .rn (half j (g.h2 fp16 l a)) (half j (g.h2 fp16 l b)))) ∧
  Result1 (.hfma2 h d a b c) d (fun g l => both (fun j =>
    fp16.fma .rn false false (half j (g.h2 fp16 l a)) (half j (g.h2 fp16 l b)) (half j (g.h2 fp16 l c)))) ∧
  Result1 (.badd2 h d a b) d (fun g l => both (fun j => bf16.add .rn (half j (g.h2 bf16 l a)) (half j (g.h2 bf16 l b)))) ∧
  Result1 (.bmul2 h d a b) d (fun g l => both (fun j => bf16.mul .rn (half j (g.h2 bf16 l a)) (half j (g.h2 bf16 l b)))) ∧
  Result1 (.bfma2 h d a b c) d (fun g l => both (fun j =>
    bf16.fma .rn false false (half j (g.h2 bf16 l a)) (half j (g.h2 bf16 l b)) (half j (g.h2 bf16 l c)))) ∧
  Result1 (.frcp h d a r) d (fun g l => n (frcpVal r (g.f32 l a))) ∧
  Result1 (.frsq h d a r) d (fun g l => n (frsqVal r (g.f32 l a))) ∧
  Result1 (.fsqrt h d a r) d (fun g l => n (fsqrtVal r (g.f32 l a))) ∧
  Result1 (.fex2 h d a r) d (fun g l => n (fex2Val r (g.f32 l a))) ∧
  Result1 (.flg2 h d a r) d (fun g l => n (flg2Val r (g.f32 l a))) ∧
  Result1 (.fsin h d a r) d (fun g l => n (fsinVal r (g.f32 l a))) ∧
  Result1 (.fcos h d a r) d (fun g l => n (fcosVal r (g.f32 l a))) ∧
  Result1 (.ftanh h d a r) d (fun g l => n (ftanhVal r (g.f32 l a))) ∧
  Result1 (.cmulh2 h d a b conj) d (fun g l =>
    let q := cmulParts conj (g.rd l a).toNat (g.rd l b).toNat
    both (fun j => fp16.round .rn false (if j = 0 then q.1 else q.2))) ∧
  Result1 (.cfmah2 h d a b c conj) d (fun g l =>
    let q := cmulParts conj (g.rd l a).toNat (g.rd l b).toNat
    both (fun j => fp16.round .rn false (addV .rn (if j = 0 then q.1 else q.2) (fp16.val (half j (g.rd l c).toNat)))))

/-- CVT, CVTP, UNPK, MXQ and FRED complete with the results of R115, R116, R119, R120, R122 and R123 in every type,
rounding mode and saturation, .RNEF chaining its error through the lanes in ascending order without the helper lanes (R106); nothing
else changes. -/
def Obligations.ConversionResults : Prop :=
  ∀ (h : Hdr) (d a b : Opnd) (dt st : NumTy) (r : Rnd) (sat : Bool) (f : Fmt) (rn : Bool) (op : FRedOp),
  let n : Nat → Word := BitVec.ofNat 32
  let rm : RndE := match r with | .rn => .rn | .rz => .rz | .ru => .ru | .rd => .rd
  let help : Instr → Group → Nat → Bool := fun i g l => !uniOf (info i) && g.isHelper l
  let code : List (Nat × List Nat) → Nat → List Nat := fun x l => (kget x l).getD []
  let items : Group → Nat → List Nat := fun g l =>
    (List.range (unpkN dt / 2)).map (fun j => (g.rdj l j a).toNat) ++ (List.range (unpkN dt / 2)).map (fun j => (g.rdj l j b).toNat)
  (is64 dt = false → Result1 (.cvt h d a dt st rm sat) d (fun g l => n (placeTy dt (cvtVal dt st r sat (g.cvtSrc l st a))))) ∧
  (is64 dt = true → Result2 (.cvt h d a dt st rm sat) d (fun g l => BitVec.ofNat 64 (placeTy dt (cvtVal dt st r sat (g.cvtSrc l st a))))) ∧
  (fmtOf dt = some f → Writes (.cvt h d a dt st .rnef sat) (ownKeys (info (.cvt h d a dt st .rnef sat))) (fun g _ ex =>
    dstCells d 0 ex (fun l => n ((code (chain (rnefStep f sat) (help (.cvt h d a dt st .rnef sat) g)
      (ex.map (fun j => (j, [g.cvtSrc j st a]))) 0) l).headD 0)))) ∧
  Result1 (.cvtp h d a b dt rm sat) d (fun g l => n (packCodes (tyBits dt) ((items g l).map (cvtVal dt .fp32 r sat)))) ∧
  (fmtOf dt = some f → Writes (.cvtp h d a b dt .rnef sat) (ownKeys (info (.cvtp h d a b dt .rnef sat))) (fun g _ ex =>
    dstCells d 0 ex (fun l => n (packCodes (tyBits dt) (code (chain (rnefStep f sat) (help (.cvtp h d a b dt .rnef sat) g)
      (ex.map (fun j => (j, items g j))) 0) l))))) ∧
  Writes (.unpk h d a st) (ownKeys (info (.unpk h d a st))) (fun g _ ex =>
    (List.range (unpkN st)).flatMap (fun j => dstCells d j ex (fun l => match fmtOf st with
      | some f => n (f.toFp32 (elem (tyBits st) j (g.unpkSrc l st a)))
      | none => BitVec.ofInt 32 (tyInt st (elem (tyBits st) j (g.unpkSrc l st a)))))) ∧
  Writes (.mxq h d a b rn) (ownKeys (info (.mxq h d a b rn))) (fun g _ ex =>
    let q := mxqRun rn g ex (ex.filter (fun l => !g.isHelper l)) a [0, 1, 2, 3, 4, 5, 6, 7] 0
    dstCells d 0 ex (fun l => n ((kget q l).getD (0, 0)).1) ++ dstCells b 0 ex (fun l => n ((kget q l).getD (0, 0)).2)) ∧
  Writes (.fred h d a op r) (ownKeys (info (.fred h d a op r))) (fun g _ ex =>
    let unit : Nat := match op with | .add => 0x80000000 | .min => 0x7F800000 | .max => 0xFF800000
    let two : Nat → Nat → Nat := fun x y => match op with
      | .add => fp32.add r x y | .min => fminMax false false x y | .max => fminMax true false x y
    let leaf : Nat → Nat := fun l => if (ex.filter (fun j => !g.isHelper j)).contains l then g.f32 l a else unit
    let t2 : Nat → Nat := fun j => two (leaf (2 * j)) (leaf (2 * j + 1))
    let t4 : Nat → Nat := fun j => two (t2 (2 * j)) (t2 (2 * j + 1))
    let t8 : Nat → Nat := fun j => two (t4 (2 * j)) (t4 (2 * j + 1))
    let t16 : Nat → Nat := fun j => two (t8 (2 * j)) (t8 (2 * j + 1))
    dstCells d 0 ex (fun _ => n (two (t16 0) (t16 1))))

/-- IDIV, IREM, FDIV and QBLK take their place with the results of R56, R112 and R121 (division by 0 and the one overflow
included) and complete 14 to 38 clk, 22 to 40 clk and 16 clk after issue; nothing else changes. -/
def Obligations.VariableResults : Prop := ∀ (h : Hdr) (d a b : Opnd) (un : Bool) (r : Rnd) (s : State) (g : Group) (pc : Pc),
  let ext : Word → Int := fun x => if un then x.toNat else x.toInt
  let quot : Word → Word → Word := fun x y =>
    if y = 0 then 0xFFFFFFFF else if un then x / y else BitVec.ofInt 32 (x.toInt.tdiv y.toInt)
  let rem : Word → Word → Word := fun x y =>
    if y = 0 then x else if un then x % y else BitVec.ofInt 32 (x.toInt.tmod y.toInt)
  let E : Instr → Group := fun i => g.entered (info i)
  let X : Instr → List Nat := fun i => (E i).exLanes (info i) g.active
  let run : Instr → Prop := fun i => Ready (info i) (ownKeys (info i)) s g pc ∧ X i ≠ []
  let between : Nat → Nat → Nat → Prop := fun lo hi t => s.pkg.clock + lo ≤ t ∧ t ≤ s.pkg.clock + hi
  (run (.idiv h d a b un) → Awaits (.idiv h d a b un) s g pc
    (dstCells d 0 (X (.idiv h d a b un)) (fun l => quot ((E (.idiv h d a b un)).rd l a) ((E (.idiv h d a b un)).rd l b))) (between 14 38)) ∧
  (run (.irem h d a b un) → Awaits (.irem h d a b un) s g pc
    (dstCells d 0 (X (.irem h d a b un)) (fun l => rem ((E (.irem h d a b un)).rd l a) ((E (.irem h d a b un)).rd l b))) (between 14 38)) ∧
  (run (.fdiv h d a b r) → Awaits (.fdiv h d a b r) s g pc
    (dstCells d 0 (X (.fdiv h d a b r)) (fun l => BitVec.ofNat 32 (fp32.div r ((E (.fdiv h d a b r)).f32 l a) ((E (.fdiv h d a b r)).f32 l b))))
    (between 22 40)) ∧
  (run (.qblk h d a b) → Awaits (.qblk h d a b) s g pc
    (let parts := (X (.qblk h d a b)).filter (fun l => !(E (.qblk h d a b)).isHelper l)
     let el : Nat → List Nat := fun l => (List.range 4).map (fun j => ((E (.qblk h d a b)).rdj l j a).toNat)
     let scale := fp32.div .rn (amaxOf (parts.flatMap el)) 0x43E00000
     dstCells d 0 (X (.qblk h d a b)) (fun l => BitVec.ofNat 32 (packCodes 8
        ((kget (chain (qblkStep scale) (fun _ => false) (parts.map (fun j => (j, el j))) 0) l).getD []))) ++
      dstCells b 0 (X (.qblk h d a b)) (fun _ => BitVec.ofNat 32 scale)) (between 16 16))

/-- A pair word performs both halves at once, each with the result of its full-format word in default modifiers and the lanes
where its own guard holds (R43), both reading before either writes; NOP writes nothing. Every half is named; nothing else changes. -/
def Obligations.PairAndNop : Prop := ∀ (e : Bool) (stall : Fin 8) (x y : Half) (h : Hdr),
  let n : Nat → Word := BitVec.ofNat 32
  let lo : Nat → Nat := fun v => v % 65536
  let hi : Nat → Nat := fun v => v / 65536 % 65536
  let both : Nat → Nat → Word := fun u v => n (u + v * 65536)
  let value : Half → Group → Nat → Word := fun q g l =>
    let d := g.rd l q.d
    let a := g.rd l q.a
    let D := d.toNat
    let F := g.f32 l q.a
    let H := g.h2 fp16 l q.a
    let B := g.h2 bf16 l q.a
    match q.op with
    | .mov => a
    | .iadd => d + a
    | .isub => d - a
    | .and => d &&& a
    | .or => d ||| a
    | .xor => d ^^^ a
    | .shl => d <<< a.toNat
    | .shr => d >>> a.toNat
    | .sar => d.sshiftRight a.toNat
    | .imin => if d.toInt ≤ a.toInt then d else a
    | .imax => if a.toInt ≤ d.toInt then d else a
    | .imul => d * a
    | .fadd => n (fp32.add .rn D F)
    | .fsub => n (fp32.add .rn D (fmod false true F))
    | .fmul => n (fp32.mul .rn D F)
    | .fmin => n (fminMax false false D F)
    | .fmax => n (fminMax true false D F)
    | .hadd2 => both (fp16.add .rn (lo D) (lo H)) (fp16.add .rn (hi D) (hi H))
    | .hmul2 => both (fp16.mul .rn (lo D) (lo H)) (fp16.mul .rn (hi D) (hi H))
    | .badd2 => both (bf16.add .rn (lo D) (lo B)) (bf16.add .rn (hi D) (hi B))
    | .bmul2 => both (bf16.mul .rn (lo D) (lo B)) (bf16.mul .rn (hi D) (hi B))
    | .popc => n ((List.range 32).countP (fun i => a.getLsbD i))
    | .cvtFI => n (cvtVal .fp32 .int32 .rn false a.toNat)
    | .cvtIF => n (cvtVal .int32 .fp32 .rz false F)
  let lanes : Half → Group → LaneMask → List Nat := fun q g act =>
    if halfUni q then [0] else (lanesOf act).filter (fun l => decide (q.g = 7) || decide (g.cell (pReg q.g.val) l ≠ 0))
  Writes (.pairWord e stall x y) (fun g ex => halfKeys g ex x ++ halfKeys g ex y) (fun g act _ =>
    dstCells x.d 0 (lanes x g act) (value x g) ++ dstCells y.d 0 (lanes y g act) (value y g)) ∧
  Writes (.nop h) (ownKeys (info (.nop h))) (fun _ _ _ => [])

/-- BRA, BRU, BRX and EXIT set the PCs of the lanes where their guard holds (for BRU, of every active lane on the uniform
guard) to their target (R80, R82, R88) and leave the others at the next word; registers, stack, special registers and memory stay. A group
that keeps a lane which is no helper goes on; BRX is stated where every target is aligned. -/
def Obligations.BranchWords : Prop := ∀ (h : Hdr) (o24 : BitVec 24) (o32 : BitVec 32) (a : Opnd) (s : State) (g : Group) (pc : Pc),
  let E : Instr → Group := fun i => g.entered (info i)
  let goes : Instr → (Nat → Pc) → Prop := fun i to_ =>
    Ready (info i) (ownKeys (info i)) s g pc →
    (∃ l, l < 32 ∧ g.isHelper l = false ∧ (if g.active.getLsbD l then to_ l else g.vpcOf l) ≠ exitPc) →
    PerformsTo i s g (s.entered (info i) g) [] to_
  let taken : Instr → Pc → Nat → Pc := fun i t l => if (E i).guard false h l then t else pc + 1
  goes (.braFull h o24) (taken (.braFull h o24) (pc + o24.signExtend 53)) ∧
  goes (.braWide h o32) (taken (.braWide h o32) (pc + o32.signExtend 53)) ∧
  goes (.bruFull h o24) (fun _ => if (E (.bruFull h o24)).guard true h 0 then pc + o24.signExtend 53 else pc + 1) ∧
  goes (.bruWide h o32) (fun _ => if (E (.bruWide h o32)).guard true h 0 then pc + o32.signExtend 53 else pc + 1) ∧
  goes (.exit h) (taken (.exit h) exitPc) ∧
  ((∀ l, (E (.brx h a)).guard false h l = true → ((E (.brx h a)).rd64 l a).toNat % 8 = 0) →
    goes (.brx h a) (fun l => if (E (.brx h a)).guard false h l then (((E (.brx h a)).rd64 l a).toNat / 8 : Nat) else pc + 1))

/-- CALL, CALLX and PUSH, where every executing lane has room (R84), lower LSP by the size of the record or frame and put its
bytes at the new LSP of the lane's stack (R86, R87); the lanes of a call go to their targets. Registers, other stack bytes, memory and the
rest of the machine stay. Stated at the levels whose stack is cached (R85) and for aligned targets. -/
def Obligations.PushWords : Prop := ∀ (h : Hdr) (o24 : BitVec 24) (o32 : BitVec 32) (a : Opnd) (s : State) (g : Group) (pc : Pc),
  let E : Instr → Group := fun i => g.entered (info i)
  let X : Instr → List Nat := fun i => (E i).exLanes (info i) g.active
  let pushes : Instr → Nat → (Nat → List Byte) → (Nat → Pc) → Prop := fun i n bytes to_ =>
    Ready (info i) (ownKeys (info i)) s g pc → (E i).isSup = false →
    (∀ l ∈ X i, (E i).stackLimit + n ≤ ((E i).lspOf l).toNat ∧ ((E i).lspOf l).toNat ≤ s.stackTop (E i) + n) →
    (∃ l, l < 32 ∧ g.isHelper l = false ∧ (if g.active.getLsbD l then to_ l else g.vpcOf l) ≠ exitPc) →
    ChangesTo i s g [] to_ (fun y => y = { E i with lsp := y.lsp, fillDue := y.fillDue, stk := y.stk } ∧
      (∀ l, l < 32 → (y.lspOf l).toNat = if l ∈ X i then ((E i).lspOf l).toNat - n else ((E i).lspOf l).toNat) ∧
      (∀ l o, l < 32 → kget y.stk (o * 32 + l) =
        if l ∈ X i ∧ ((E i).lspOf l).toNat - n ≤ o ∧ o < ((E i).lspOf l).toNat
        then some ⟨(bytes l).getD (o - (((E i).lspOf l).toNat - n)) 0, true⟩ else kget (E i).stk (o * 32 + l)))
  let record : List Byte := toBytes 8 ((pc + 1).toNat * 8)
  let taken : Instr → Pc → Nat → Pc := fun i t l => if (E i).guard false h l then t else pc + 1
  let word : Group → Nat → List Byte := fun y l => toBytes 4 (y.rd l a).toNat
  let reg : Group → Nat → Nat → List Byte := fun y l j => toBytes 4 (y.rdj l j a).toNat
  pushes (.callFull h o24) 8 (fun _ => record) (taken (.callFull h o24) (pc + o24.signExtend 53)) ∧
  pushes (.callWide h o32) 8 (fun _ => record) (taken (.callWide h o32) (pc + o32.signExtend 53)) ∧
  ((∀ l ∈ X (.callx h a), ((E (.callx h a)).rd64 l a).toNat % 8 = 0) →
    pushes (.callx h a) 8 (fun _ => record) (fun l => if (E (.callx h a)).guard false h l
      then (((E (.callx h a)).rd64 l a).toNat / 8 : Nat) else pc + 1)) ∧
  pushes (.push h a .b32) 8 (fun l => word (E (.push h a .b32)) l ++ [0, 0, 0, 0]) (fun _ => pc + 1) ∧
  pushes (.push h a .b64) 8 (fun l => reg (E (.push h a .b64)) l 0 ++ reg (E (.push h a .b64)) l 1) (fun _ => pc + 1) ∧
  pushes (.push h a .b128) 16 (fun l => let e := E (.push h a .b128)
    reg e l 0 ++ reg e l 1 ++ reg e l 2 ++ reg e l 3) (fun _ => pc + 1)

/-- RET and POP take the bytes at LSP of each executing lane's stack and raise LSP past them (R86, R87); SALLOC and SFREE move
LSP by the size rounded up to 8, SALLOC giving the new LSP (R87). Stated where every LSP stays in its bounds (R84) and, for the reads, where
the bytes are in the stack cache (R85). RET's lanes go to the record's PC, the others to the next word; nothing else of the machine
changes. -/
def Obligations.StackReads : Prop := ∀ (h : Hdr) (d a : Opnd) (sz : StkSize) (s : State) (g : Group) (pc : Pc),
  let E : Instr → Group := fun i => g.entered (info i)
  let X : Instr → List Nat := fun i => (E i).exLanes (info i) g.active
  let lsp : Instr → Nat → Nat := fun i l => ((E i).lspOf l).toNat
  let bytes : Instr → Nat → Nat → List Byte := fun i l n => (upFrom (lsp i l) n).map (fun o => ((kget (E i).stk (o * 32 + l)).getD ⟨0, false⟩).b)
  let cached : Instr → Nat → Prop := fun i n => (E i).isSup = false ∧ ∀ l ∈ X i,
    (∀ o, lsp i l ≤ o → o < lsp i l + n → (kget (E i).stk (o * 32 + l)).isSome = true) ∧
    (E i).stackLimit ≤ lsp i l + n ∧ lsp i l + n ≤ s.stackTop (E i) ∧ lsp i l + n < 2 ^ 32
  let moved : Instr → (Nat → Nat) → Group → Prop := fun i to_ y => y = { E i with lsp := y.lsp, fillDue := y.fillDue } ∧
    ∀ l, l < 32 → (y.lspOf l).toNat = if l ∈ X i then to_ l else lsp i l
  let size : Instr → Nat → Nat := fun i l => (((E i).rd l a).toNat + 7) / 8 * 8
  let back : Nat → Pc := fun l => if (E (.ret h)).guard false h l
    then BitVec.ofNat 53 (ofBytes (bytes (.ret h) l 8) / 8) else pc + 1
  let m : Nat := if sz = .b128 then 16 else 8
  let regs : Nat := match sz with | .b32 => 1 | .b64 => 2 | .b128 => 4
  (Ready (info (.ret h)) (ownKeys (info (.ret h))) s g pc → cached (.ret h) 8 →
    (∃ l, l < 32 ∧ g.isHelper l = false ∧ (if g.active.getLsbD l then back l else g.vpcOf l) ≠ exitPc) →
    ChangesTo (.ret h) s g [] back (moved (.ret h) (fun l => lsp (.ret h) l + 8))) ∧
  (Ready (info (.pop h d sz)) (ownKeys (info (.pop h d sz))) s g pc → cached (.pop h d sz) m → X (.pop h d sz) ≠ [] →
    ∃ x y, AwaitsIn (.pop h d sz) s g pc x ((X (.pop h d sz)).flatMap (fun l => dstCellsN d regs [l] (fun j _ =>
        BitVec.ofNat 32 (ofBytes (((bytes (.pop h d sz) l m).drop (4 * j)).take 4))))) (fun t => s.pkg.clock < t) ∧
      StateKept s.focus (s.entered (info (.pop h d sz)) g) x ∧ x.grp s.focus = some y ∧
      moved (.pop h d sz) (fun l => lsp (.pop h d sz) l + m) y) ∧
  (Ready (info (.salloc h d a)) (ownKeys (info (.salloc h d a))) s g pc →
    (∀ l ∈ X (.salloc h d a), (E (.salloc h d a)).stackLimit + size (.salloc h d a) l ≤ lsp (.salloc h d a) l ∧
      lsp (.salloc h d a) l ≤ s.stackTop (E (.salloc h d a)) + size (.salloc h d a) l) →
    Changes (.salloc h d a) s g pc ((X (.salloc h d a)).flatMap (fun l => dstCells d 0 [l] (fun _ =>
        BitVec.ofNat 32 (lsp (.salloc h d a) l - size (.salloc h d a) l))))
      (moved (.salloc h d a) (fun l => lsp (.salloc h d a) l - size (.salloc h d a) l))) ∧
  (Ready (info (.sfree h a)) (ownKeys (info (.sfree h a))) s g pc →
    (∀ l ∈ X (.sfree h a), (E (.sfree h a)).stackLimit ≤ lsp (.sfree h a) l + size (.sfree h a) l ∧
      lsp (.sfree h a) l + size (.sfree h a) l ≤ s.stackTop (E (.sfree h a)) ∧ lsp (.sfree h a) l + size (.sfree h a) l < 2 ^ 32) →
    Changes (.sfree h a) s g pc [] (moved (.sfree h a) (fun l => lsp (.sfree h a) l + size (.sfree h a) l)))

/-- YIELD sets the executing lanes' aside counts to n, other active counts fall by one, and all are cleared when every
live lane would stand aside (R90); SLEEPC puts the group to sleep until min(A, 2^20) clk after its issue clk (R91); RDVPC and WRVPC read
and write the saved PCs, an exited lane staying exited (R100); HRET at HANDLER level gives every lane its saved PC and stack pointer and
the group its USER level (R101, R338). What the saved PCs hold outside a handler is the model's
choice (log 22). -/
def Obligations.HandlerAndWaitWords : Prop := ∀ (h : Hdr) (n : BitVec 8) (d a b : Opnd) (s : State) (g : Group) (pc : Pc),
  let E : Instr → Group := fun i => g.entered (info i)
  let X : Instr → List Nat := fun i => (E i).exLanes (info i) g.active
  let ready : Instr → Prop := fun i => Ready (info i) (ownKeys (info i)) s g pc
  (ready (.yield h n) → ∃ t g', exec (.yield h n) s = .next t ∧ t.grp s.focus = some g' ∧ g'.vpc = g.nextPcs pc ∧
    let count : Nat → Nat := fun l => if l ∈ X (.yield h n) then n.toNat else g.aside.getD l 0 - 1
    ∀ l, l < 32 → g'.aside.getD l 0 = if lanes32.all (fun k => decide (g'.vpcOf k = exitPc) || decide (0 < count k)) then 0 else count l) ∧
  (ready (.sleepc h a) → X (.sleepc h a) ≠ [] → (E (.sleepc h a)).rd 0 a ≠ 0 → Changes (.sleepc h a) s g pc [] (fun y =>
    y = { E (.sleepc h a) with wait := .sleep (s.pkg.clock + 1 + min ((E (.sleepc h a)).rd 0 a).toNat 1048576),
                               waitPc := pc, waitMask := g.active, wakeAt := none, touches := [] })) ∧
  (ready (.sleepc h a) → X (.sleepc h a) = [] ∨ (E (.sleepc h a)).rd 0 a = 0 → Completes (.sleepc h a) s g pc []) ∧
  Result2 (.rdvpc h d a) d (fun e l => BitVec.ofNat 64 ((e.svpc.getD ((e.rd l a).toNat % 32) exitPc).toNat * 8)) ∧
  (ready (.wrvpc h a b) → Changes (.wrvpc h a b) s g pc [] (fun y => y = { E (.wrvpc h a b) with svpc := y.svpc } ∧
    ∀ k, k < 32 → y.svpc.getD k exitPc = (X (.wrvpc h a b)).foldl (fun p l =>
      if ((E (.wrvpc h a b)).rd l b).toNat % 32 = k ∧ p ≠ exitPc then BitVec.ofNat 53 (((E (.wrvpc h a b)).rd64 l a).toNat / 8) else p)
        ((E (.wrvpc h a b)).svpc.getD k exitPc))) ∧
  (ready (.hret h) → X (.hret h) ≠ [] → g.level = .handler → (∀ c ∈ g.stk, c.2.dirty = false) →
    (∃ l, l < 32 ∧ g.isHelper l = false ∧ g.svpc.getD l exitPc ≠ exitPc) →
    ∃ t g', exec (.hret h) s = .next t ∧ t.grp s.focus = some g' ∧ g'.vpc = lanes32.map (fun l => g.svpc.getD l exitPc) ∧
      g'.lsp = g.slsp ∧ g'.level = .user ∧ g'.stk = [] ∧ g'.rgncnt = g.rgncnt ∧ g'.retcnt = g.retcnt ∧ g'.evpc = g.evpc ∧ g'.elsp = g.elsp ∧
      (∀ k, g'.coming k = g.coming k) ∧ StateKept s.focus s t)

/-- TRAP and BKPT send every active lane to the next word and, for the executing lanes that are no helpers, enter the trap with
one record a lane, its DETAIL the code (R99, R336); the entry starts from a state u in which the word has been counted and nothing else
has changed. Where no such lane executes they have no effect. -/
def Obligations.TrapWords : Prop := ∀ (h : Hdr) (code : BitVec 8) (s : State) (g : Group) (pc : Pc),
  let E : Instr → Group := fun i => g.entered (info i)
  let hit : Instr → List Nat := fun i => ((E i).exLanes (info i) g.active).filter (fun l => !(E i).isHelper l)
  let traps : Instr → Cause → Prop := fun i c =>
    Ready (info i) (ownKeys (info i)) s g pc →
    (hit i = [] → Completes i s g pc []) ∧
    (hit i ≠ [] → ∃ u y, exec i s = .next ((u.enterTrap s.focus
        ⟨false, pc, (hit i).map (fun l => ⟨l, c, 0, 0, 0, kindTrap, code.toNat, false⟩)⟩).retireGroup s.focus) ∧
      u.grp s.focus = some y ∧ y.vpc = g.nextPcs pc ∧ y.retcnt = (if g.inRegion then (E i).counted else (E i).retcnt) ∧
      (∀ k, y.coming k = (E i).coming k) ∧ y.pends.map Pend.plain = (E i).pends.map Pend.plain ∧
      GroupKept { E i with rsig := y.rsig } y ∧ StateKept s.focus (s.entered (info i) g) u)
  traps (.trap h code) .trapi ∧ traps (.bkpt h code) .bkpt

/-- TRAP_ENTRY at USER level with a handler installed and no fault ring (R337): SVPC takes the lanes' PCs, or EVPC when the region
rolls back; SLSP and LSP, TRAPCAUSE, TRAPVA and TRAPREC, the level and every live lane's PC are as the rule's steps say; registers, their
windows, memory and other groups stay. Stated where no stack byte is dirty; the record is the first in the order of R336. -/
def Obligations.TrapEntry : Prop := ∀ (s : State) (gid : Nat) (g : Group) (t : TrapPend) (f : LaneFault) (rest : List LaneFault),
  s.pkg.on = true → s.grp gid = some g → g.trap = some t → (t.roll = true → g.pends = []) → g.level = .user → g.handlerV = true →
  (s.ctxD g.ctx).hss ≠ 0 → (s.ctxD g.ctx).ringOk = false → (∀ c ∈ g.stk, c.2.dirty = false) → orderRecs t.roll (sortLanes t.recs) = f :: rest →
  ∃ u y, exec (.trapEntry gid) s = .next u ∧ u.grp gid = some y ∧
    y.level = .handler ∧ y.svpc = (if t.roll then g.evpc else g.vpc) ∧
    y.slsp = (if t.roll then g.elsp else g.lsp) ∧ y.lsp = lanes32.map (fun _ => BitVec.ofNat 32 (16 * (s.ctxD g.ctx).hss)) ∧
    y.vpc = lanes32.map (fun l => if g.vpcOf l = exitPc then exitPc else g.entry + BitVec.ofInt 53 (sextNat g.hndpc.toNat 31)) ∧
    y.trapcause = BitVec.ofNat 32 (f.detail % 256 * 2 ^ 24 + (if t.roll then 2 ^ 16 else 0) + causeCode f.cause) ∧
    y.trapva = f.va ∧ y.traprec = BitVec.ofNat 32 (s.ctxD g.ctx).frtail.toNat ∧ y.aside = [] ∧ y.trap = none ∧ y.stk = [] ∧
    y.regs = g.regs ∧ y.windows = g.windows ∧ y.pends = g.pends ∧ y.rgncnt = g.rgncnt ∧ y.retcnt = g.retcnt ∧ y.rsig = g.rsig ∧
    y.evpc = g.evpc ∧ y.elsp = g.elsp ∧ y.stklim = g.stklim ∧ y.lbase = g.lbase ∧
    (∀ a, u.byte a = s.byte a) ∧ ∀ k, k ≠ gid → u.grp k = s.grp k

/-- LD and LDU, in every space, size and policy, where the checks of R132 pass in every executing lane, no atomic of the group is
on its way to the bytes (R199) and every lane's data can be read: the destination registers become pending with the bytes at the lanes'
addresses, sub-word values widened (R130), and the word takes its place (R131). Other groups and what the reads did not touch stay. -/
def Obligations.LoadWords : Prop := ∀ (h : Hdr) (d a b : Opnd) (m : MemMod) (s : State) (g : Group) (pc : Pc),
  let n := szBytes m.sz
  let loads : Instr → Prop := fun i =>
    let E := g.entered (info i)
    let X := E.exLanes (info i) g.active
    let R := (s.entered (info i) g).reachAll (fun s l => s.reach E l m.sp a b n needR kindLoad) X
    let value : List Byte → Nat := fun bs => if n < 4 && m.sx then (BitVec.ofInt 32 (sextNat (ofBytes bs) (8 * n))).toNat else ofBytes bs
    Ready (info i) (ownKeys (info i)) s g pc → X ≠ [] → anyWait R.1 = false → R.2.overlapsFlight s.focus n R.1 = false →
    ∀ data u, R.2.readsOk s.focus E n m.pol R.1 = some (data, u) →
    ∃ x y, AwaitsIn i s g pc x (data.flatMap (fun q => dstCellsN d (szRegs m.sz) [q.1] (fun j _ =>
        BitVec.ofNat 32 (value q.2 / 2 ^ (32 * j) % 2 ^ 32)))) (fun t => s.pkg.clock < t) ∧
      x.grp s.focus = some y ∧ y = { E with pathUntil := y.pathUntil, pathPc := y.pathPc } ∧
      (∀ a, x.byte a = u.byte a) ∧ (∀ k, k ≠ s.focus → x.grp k = s.grp k) ∧ x.dies = u.dies ∧
      ∀ c, (x.core c).l1 = (u.core c).l1 ∧ (x.core c).sideLog = (u.core c).sideLog
  loads (.ld h d a b m) ∧ loads (.ldu h d a b m)

/-- ST and STU, in every space, size and policy, where the checks of R132 pass in every storing lane or its page is absent, the
side log has room (R169), no atomic of the group is on its way to the bytes and every lane's stack check passes: the lanes that are no
helpers (R93) store their bytes in ascending order, the side log takes what is write-blocked or absent, no register changes, and of other
groups and of memory only what these stores write. -/
def Obligations.StoreWords : Prop := ∀ (h : Hdr) (d a b : Opnd) (m : MemMod) (s : State) (g : Group) (pc : Pc),
  let n := szBytes m.sz
  let stores : Instr → Prop := fun i =>
    let E := g.entered (info i)
    let X := E.exLanes (info i) g.active
    let L := if m.sp = .l then X else if uniOf (info i) then (if (lanesOf g.active).all E.isHelper then [] else X) else X.filter (fun l => !E.isHelper l)
    let R := (s.entered (info i) g).reachAll (fun s l => s.reach E l m.sp a b n needW kindStore) L
    let log := { W.begin (info i) s g pc with s := R.2 }.storeLog (E.storeData m.sz d) R.1
    Ready (info i) (ownKeys (info i)) s g pc → anyWait R.1 = false → log.length ≤ R.2.logFree E.core →
    R.2.overlapsFlight s.focus n R.1 = false →
    ∀ u, State.storesOk s.focus E n m.pol s (E.storeData m.sz d) R.2 R.1 = some u →
    ∃ x y z, Performs i s g pc x [] ∧ (u.logLines s.focus E log).grp s.focus = some z ∧ x.grp s.focus = some y ∧
      y = { z with pathUntil := y.pathUntil, pathPc := y.pathPc } ∧ z = { E with stk := z.stk } ∧
      (∀ a, x.byte a = (u.logLines s.focus E log).byte a) ∧ (∀ k, k ≠ s.focus → x.grp k = s.grp k) ∧
      x.dies = (u.logLines s.focus E log).dies ∧ x.reqs = (u.logLines s.focus E log).reqs ∧
      ∀ c, (x.core c).l1 = ((u.logLines s.focus E log).core c).l1 ∧ (x.core c).sideLog = ((u.logLines s.focus E log).core c).sideLog
  stores (.st h d a b m) ∧ stores (.stu h d a b m)

/-- ATOM, CAS, CASAR, RED, FATOM and FREDM, in every space, width, order and scope, as AtomicDoes says, with the operands that
R180 to R184 give them. -/
def Obligations.AtomicWords : Prop := ∀ (h : Hdr) (d a b : Opnd) (op : AOp) (fop : FAOp) (m : AtomMod) (n : Fin 8),
  let whole : Group → Nat → DWord × DWord := fun g l => (if m.w64 then g.rd64 l b else (g.rd l b).setWidth 64, 0)
  let pair : Group → Nat → DWord × DWord := fun g l =>
    if m.w64 then (pair64 (g.rdj l 0 b) (g.rdj l 1 b), pair64 (g.rdj l 2 b) (g.rdj l 3 b))
    else ((g.rdj l 0 b).setWidth 64, (g.rdj l 1 b).setWidth 64)
  let float : Group → Nat → DWord := fun g l => match b with
    | .imm v => BitVec.ofNat 64 (fp32.ofInt .rn false v.toInt)
    | _ => (g.rd l b).setWidth 64
  let value : AtomOp → Option Nat → (Group → Nat → DWord × DWord) → Group → AtomWord := fun op pred bc g =>
    ⟨op, true, opndNum d, pred, bc g, fun _ => .store [], m⟩
  AtomicDoes (.atom h d a b op m) a (value (.atom op m.w64) none whole) ∧
  AtomicDoes (.cas h d a b m) a (value (.cas m.w64) none pair) ∧
  AtomicDoes (.casar h d a b m n) a (value (.cas m.w64) (succReg (info (.casar h d a b m n)) n) pair) ∧
  AtomicDoes (.fatom h d a b fop m) a (value (.fatom fop) none (fun g l => (float g l, 0))) ∧
  AtomicDoes (.red h a b op m) a (fun g => ⟨.atom op m.w64, false, none, none, whole g, fun l => .red op m.w64 (whole g l).1, m⟩) ∧
  AtomicDoes (.fredm h a b fop m) a (fun g => ⟨.fatom fop, false, none, none, fun l => (float g l, 0), fun l => .fred fop ((float g l).setWidth 32), m⟩)

/-- FENCE (R191) and FENCEX (R192) begin a fence behind the group's earlier ones, with the actions and holds their orders and
modes name; FENCEX.OUT and .IO first write the core's dirty L1 bytes to the die L2. A false guard, or FENCEX on a supervisor or service core,
has no effect. -/
def Obligations.FenceWords : Prop := ∀ (h : Hdr) (ord : FOrd) (scope : Scope) (mode : FxMode) (s : State) (g : Group) (pc : Pc),
  let E : Instr → Group := fun i => g.entered (info i)
  let X : Instr → List Nat := fun i => (E i).exLanes (info i) g.active
  let ready : Instr → Prop := fun i => Ready (info i) (ownKeys (info i)) s g pc
  let S := if mode = .inn then s.entered (info (.fencex h mode)) g else (s.entered (info (.fencex h mode)) g).writeBackL1 (E (.fencex h mode)).core
  let begins : Instr → State → FenceRec → Prop := fun i t f =>
    Performs i s g pc ({ t with serial := t.serial + 1 }.modGrp s.focus (fun y => { y with fences := y.fences ++ [{ f with id := t.serial, pc := pc }] })) []
  (ready (.fence h ord scope) → X (.fence h ord scope) ≠ [] → begins (.fence h ord scope) (s.entered (info (.fence h ord scope)) g)
    { id := 0, pc := 0, scope := scopeCode scope, rel := decide (ord ≠ .acq), acq := decide (ord ≠ .rel), begun := false, wbs := [], logs := [],
      jobs := [], inval := false, barrier := false, holdLoads := decide (ord = .acq) || decide (ord = .sc), holdStores := true }) ∧
  (ready (.fence h ord scope) → X (.fence h ord scope) = [] → Completes (.fence h ord scope) s g pc []) ∧
  (ready (.fencex h mode) → X (.fencex h mode) ≠ [] → (E (.fencex h mode)).isSup = false → begins (.fencex h mode) S
    { id := 0, pc := 0, scope := 0, rel := true, acq := false, begun := true, wbs := [],
      logs := if mode ≠ .inn then ((S.core (E (.fencex h mode)).core).sideLog.filter (fun e => decide (e.tid = (E (.fencex h mode)).tid))).map (fun e => e.id) else [],
      jobs := (if mode ≠ .inn then (S.atoms.filter (fun a => decide (a.2.core = (E (.fencex h mode)).core) && a.2.pend.isNone)).map (fun a => a.1) else []) ++
        (if mode ≠ .out then (S.jobs.filter (fun j => decide (j.2.tid = (E (.fencex h mode)).tid) && decide (j.2.phase ≠ .done))).map (fun j => j.1) ++
          (S.mjobs.filter (fun j => decide (j.2.tid = (E (.fencex h mode)).tid) && decide (j.2.phase ≠ .done))).map (fun j => j.1) else []),
      inval := decide (mode ≠ .out), barrier := false, holdLoads := true, holdStores := true }) ∧
  (ready (.fencex h mode) → X (.fencex h mode) = [] ∨ (E (.fencex h mode)).isSup = true → Completes (.fencex h mode) s g pc [])

/-- The barrier words (R210) by a group that takes part in their barrier: an arrival that R209 allows, once its release is
over (R213), arrives and returns the parity, BARS and CBARS then wait; BARW and CBARW wait while the parity is A's bit 0, and end with a
cluster barrier's acquire; BARX drops. A false guard has no effect. -/
def Obligations.BarrierWords : Prop := ∀ (h : Hdr) (d a : Opnd) (n : Fin 16) (k : Fin 8) (cls : BarCls) (s : State) (g : Group) (pc : Pc) (b : Barrier) (p : Nat),
  let E : Instr → Group := fun i => g.entered (info i)
  let S : Instr → State := fun i => s.entered (info i) g
  let X : Instr → List Nat := fun i => (E i).exLanes (info i) g.active
  let joins : Instr → Bool → Nat → Prop := fun i c m =>
    Ready (info i) (ownKeys (info i)) s g pc ∧ X i ≠ [] ∧ (S i).barOf (E i) c m = some (b, p)
  let free : Instr → Bool → Prop := fun i c => b.marked p = false ∧ (S i).arrivalFree s.focus (E i) pc c = true
  let done : Instr → Bool → State := fun i c => (S i).arrivalDone s.focus (E i).core pc c
  let waiting : Bool → Nat → State → State := fun c m t => t.modGrp s.focus (fun y =>
    { y with wait := .barrier c m b.parity, waitPc := pc, waitMask := g.active, wakeAt := none, touches := [] })
  let arrives : Instr → Bool → Nat → Prop := fun i c m => joins i c m → free i c →
    AwaitsIn i s g pc ((done i c).arriveBar (E i) c m b p) (dstCells d 0 (X i) (fun _ => bword b.parity)) (fun t => t = s.pkg.clock + 2)
  let passes : Instr → Bool → Nat → Prop := fun i c m => joins i c m →
    (((E i).rd 0 a).getLsbD 0 ≠ b.parity → Performs i s g pc (if c then (S i).acquireNow (E i) 3 else S i) []) ∧
    (((E i).rd 0 a).getLsbD 0 = b.parity → b.marked p = true → Performs i s g pc (waiting c m (S i)) [])
  let syncs : Instr → Bool → Nat → Prop := fun i c m => joins i c m → free i c →
    Performs i s g pc ((waiting c m (done i c)).arriveBar (E i) c m b p) []
  let idle : Instr → Prop := fun i => Ready (info i) (ownKeys (info i)) s g pc → X i = [] → Completes i s g pc []
  arrives (.bara h d n) false n.val ∧ arrives (.cbara h d k) true k.val ∧ passes (.barw h n a) false n.val ∧ passes (.cbarw h k a) true k.val ∧
  syncs (.bars h n) false n.val ∧ syncs (.cbars h k) true k.val ∧
  (joins (.barx h cls n) (decide (cls = .cluster)) n.val → b.dropped.contains p = false →
    Performs (.barx h cls n) s g pc (if cls = .cluster then (S (.barx h cls n)).dropClusterBar (E (.barx h cls n)).tid (E (.barx h cls n)).index n.val
      else (S (.barx h cls n)).dropTeamBar (E (.barx h cls n)).tid (E (.barx h cls n)).index n.val) []) ∧
  idle (.bara h d n) ∧ idle (.barw h n a) ∧ idle (.bars h n) ∧ idle (.cbara h d k) ∧ idle (.cbarw h k a) ∧ idle (.cbars h k) ∧ idle (.barx h cls n)

/-- Arrive and drop (R209) move a barrier as the rule writes them, and completing flips the parity, restores the pending count
and clears the arrivals; a group's arrival gives its barrier that value, leaves memory alone, and, when it completes the phase, makes every
group of the barrier's teams that waits on it, and no other, ready 2 clk later, or 12 for a cluster barrier (R212); BARRIER_WAKE then ends its wait. -/
def Obligations.BarrierPhases : Prop :=
  (∀ (b : Barrier) (p : Nat), b.arrive p = if b.c - 1 = 0 ∧ 0 < b.e then ({ b with parity := !b.parity, c := b.e, arrived := [] }, b.parity, true)
    else ({ b with arrived := b.arrived ++ [p], c := b.c - 1 }, b.parity, false)) ∧
  (∀ (b : Barrier) (p : Nat), let c := if p ∈ b.arrived then b.c else b.c - 1
    b.drop p = if c = 0 ∧ 0 < b.e - 1 then ({ b with dropped := b.dropped ++ [p], e := b.e - 1, parity := !b.parity, c := b.e - 1, arrived := [] }, true)
      else ({ b with dropped := b.dropped ++ [p], e := b.e - 1, c := c }, false)) ∧
  (∀ (s : State) (g : Group) (cl : Bool) (n p : Nat) (b : Barrier), s.barOf g cl n = some (b, p) →
    (s.arriveBar g cl n b p).barOf g cl n = some ((b.arrive p).1, p) ∧ (∀ a, (s.arriveBar g cl n b p).byte a = s.byte a) ∧
    ∀ k y, s.grp k = some y → ∃ z, (s.arriveBar g cl n b p).grp k = some z ∧ z = { y with wakeAt := z.wakeAt } ∧
      z.wakeAt = if (b.arrive p).2.2 ∧ (∃ par, y.wait = .barrier cl n par) ∧ y.tid ∈ s.barTeams g cl ∧ y.wakeAt = none
        then some (s.pkg.clock + (if cl then 12 else 2)) else y.wakeAt) ∧
  ∀ (s : State) (gid n t : Nat) (cl par : Bool) (g : Group), s.pkg.on = true → s.grp gid = some g → g.wait = .barrier cl n par → g.wakeAt = some t →
    exec (.barrierWake gid) s = .next ((if cl then s.acquireNow g 3 else s).modGrp gid (fun y => { y with wait := .none, wakeAt := none }))

/-- WATCH, WATCHT and WATCHH (R217, R218) where the check on A (and on WATCHH's record) passes, no logged line and no atomic of
the group keeps them back, and the word's data are good: a status found at once is returned, after the acquire, with the value; otherwise an
entry is armed at the home, with the timeout in whole µs, and WATCH and WATCHT wait on it. What the home answers is R218's table. -/
def Obligations.WatchWords : Prop := ∀ (h : Hdr) (d a b c : Opnd) (m : WatchMod) (s : State) (g : Group) (pc : Pc),
  let n := if m.w64 then 8 else 4
  let E : Instr → Group := fun i => g.entered (info i)
  let S : Instr → State := fun i => s.entered (info i) g
  let vm : Group → DWord × DWord := fun y =>
    if m.w64 then (pair64 (y.rdj 0 0 b) (y.rdj 0 1 b), pair64 (y.rdj 0 2 b) (y.rdj 0 3 b)) else ((y.rdj 0 0 b).setWidth 64, (y.rdj 0 1 b).setWidth 64)
  let ends : Option Nat → Option Nat → Prop := fun us t => match us with
    | none => t = none
    | some k => ∃ j, t = some j ∧ s.pkg.clock + k * max 1 s.pkg.freq < j ∧ j ≤ s.pkg.clock + (k + 1) * max 1 s.pkg.freq
  let starts : Instr → State → DWord → Nat → Nat → Nat → Prop := fun i u p e z flat => Ready (info i) (ownKeys (info i)) s g pc ∧
    (E i).exLanes (info i) g.active ≠ [] ∧ (S i).reachG (E i).who 0 ((E i).rd64 0 a) n true true needR kindLoad = (.glob p e z flat, u)
  let clear : Instr → State → DWord → Nat → Nat → Nat → Prop := fun i u p e z flat =>
    u.watchHeld s.focus (E i) p n (.glob p e z flat) = none ∧ (u.recallLine (E i).core p flat).bad flat n = false
  let waits : Instr → (Group → Option Nat) → Prop := fun i us => ∀ u p e z flat, starts i u p e z flat → clear i u p e z flat →
    let r := (u.recallLine (E i).core p flat).watchFind (E i).ctx m e flat (vm (E i)) (decide (us (E i) = some 0))
    (∀ st x, r.1 = .at_ st x → AwaitsIn i s g pc (r.2.freeDue.2.acquireNow (E i) 0)
      (match opndNum d with
        | none => []
        | some k => if m.w64 then [(cellKey k 0, lo32 x), (cellKey (k + 1) 0, hi32 x), (cellKey (k + 2) 0, BitVec.ofNat 32 st), (cellKey (k + 3) 0, 0)]
          else [(cellKey k 0, lo32 x), (cellKey (k + 1) 0, BitVec.ofNat 32 st)]) (fun t => s.pkg.clock < t)) ∧
    (∀ sect k, r.1 = .arm sect k → ∃ x q id til, Performs i s g pc x [] ∧ q.pc = pc ∧ q.regs = dstRegs (info i) ∧ q.cells = [] ∧ q.due = none ∧
      x.grp s.focus = some { E i with pends := (E i).pends ++ [q], wait := .watch sect k, waitPc := pc, waitMask := g.active, wakeAt := none, touches := [] } ∧
      kget (x.die sect).watches k = some ⟨(E i).ctx, p, flat, m, (vm (E i)).1, (vm (E i)).2, .group s.focus, til, id, none, r.2.originOf s.focus⟩ ∧
      ends (us (E i)) til ∧ (∀ a, x.byte a = r.2.byte a) ∧ ∀ j, j ≠ s.focus → x.grp j = s.grp j)
  let i := Instr.watchh h d a b c m
  let rec_ := pair64 ((E i).rdj 0 0 c) ((E i).rdj 0 1 c)
  let us := ((E i).rdj 0 2 c).toNat
  waits (.watch h d a b m) (fun _ => none) ∧ waits (.watcht h d a b c m) (fun y => some (y.rd 0 c).toNat) ∧
  (∀ u p e z flat p2 e2 z2 f2 u2, starts i u p e z flat → u.reachG (E i).who 0 rec_ 16 true true needW kindStore = (.glob p2 e2 z2 f2, u2) →
    clear i u2 p e z flat →
    let r := (u2.recallLine (E i).core p flat).watchFind (E i).ctx m e flat (vm (E i)) false
    (∀ st x, r.1 = .at_ st x → AwaitsIn i s g pc (if st = 0 then r.2.freeDue.2.wakeRecord (E i).ctx rec_ 0 x else r.2.freeDue.2)
      (dstCells d 0 ((E i).exLanes (info i) g.active) (fun _ => BitVec.ofNat 32 st)) (fun t => s.pkg.clock < t)) ∧
    (∀ sect k, r.1 = .arm sect k → ∃ x id til, AwaitsIn i s g pc x (dstCells d 0 ((E i).exLanes (info i) g.active) (fun _ => 0)) (fun t => s.pkg.clock < t) ∧
      x.grp s.focus = some (E i) ∧
      kget (x.die sect).watches k = some ⟨(E i).ctx, p, flat, m, (vm (E i)).1, (vm (E i)).2, .record rec_, til, id, none, r.2.originOf s.focus⟩ ∧
      ends (if us = 0 then none else some us) til ∧ (∀ a, x.byte a = r.2.byte a) ∧ ∀ j, j ≠ s.focus → x.grp j = s.grp j)) ∧
  (∀ (t : State) (ctx e flat : Nat) (v : DWord × DWord) (zero : Bool), flat < 2 ^ 52 + 2 ^ 50 →
    let x := BitVec.ofNat 64 (t.num flat n)
    (t.watchFind ctx m e flat v zero).1 = if watchHolds m x v.1 v.2 then .at_ 0 x else if zero then .at_ 1 x else
      match t.watchSlot (if leafHome e = 15 then 20 else 8 + leafHome e) ctx with
      | some k => .arm (if leafHome e = 15 then 20 else 8 + leafHome e) k
      | none => .at_ 2 x) ∧
  (∀ (t : State) (ctx e flat : Nat) (v : DWord × DWord) (zero : Bool), 2 ^ 52 + 2 ^ 50 ≤ flat → ∃ x, (t.watchFind ctx m e flat v zero).1 = .at_ 3 x)

/-- WATCH_EVALUATE and WATCH_TIMEOUT on an armed entry (R215, R218): a captured value, or a condition that holds of the word as it
stands, ends the entry with status 0; an evaluation that fails changes nothing, and a timeout ends with status 1 and the word's value. A
group's entry is freed, its word's registers get value and status and its wait is over; a record's entry is freed and its 16 bytes are
written (R220). -/
def Obligations.WatchEvents : Prop := ∀ (s : State) (sect idx : Nat) (w : Watch), s.pkg.on = true → kget (s.die sect).watches idx = some w →
  let word := s.watchWord w
  let found : Option (Nat × DWord) := match w.hit with
    | some x => some (0, x)
    | none => if watchHolds w.m word w.value w.mask then some (0, word) else none
  let ends : Host.Outcome State Fault Refusal → Nat → DWord → Prop := fun o status x => ∃ t, o = .next t ∧
    (∀ gid y, w.waiter = .group gid → s.grp gid = some y → kget (t.die sect).watches idx = none ∧ (∀ a, t.byte a = s.byte a) ∧ (∀ k, k ≠ gid → t.grp k = s.grp k) ∧
      t.grp gid = some { y with wait := .none, wakeAt := none, pends := y.pends.map (fun p => if isWatchPend p then
        { p with cells := (if p.regs.isEmpty then [] else if w.m.w64 then
            [(cellKey p.base 0, lo32 x), (cellKey (p.base + 1) 0, hi32 x), (cellKey (p.base + 2) 0, BitVec.ofNat 32 status), (cellKey (p.base + 3) 0, 0)]
            else [(cellKey p.base 0, lo32 x), (cellKey (p.base + 1) 0, BitVec.ofNat 32 status)]), due := some (s.pkg.clock + 1) } else p) }) ∧
    (∀ ptr, w.waiter = .record ptr → let q := (s.modDie sect (fun d => { d with watches := kdel d.watches idx })).homeOf w.ctx ptr needW
      t = match q.1 with
        | some a => q.2.homePut a (toBytes 8 x.toNat ++ [BitVec.ofNat 8 status, 0, 0, 0, 0, 0, 0, 128])
        | none => q.2)
  (∀ st x, found = some (st, x) → ends (exec (.watchEvaluate sect idx) s) st x ∧ ends (exec (.watchTimeout sect idx) s) st x) ∧
  (found = none → exec (.watchEvaluate sect idx) s = .next s ∧ ends (exec (.watchTimeout sect idx) s) 1 word)

/-- The value an atomic leaves (R182 to R184): XCHG to DEC on w-bit values, the FP32 and packed sums and FMIN and FMAX,
and CAS, which writes only on a hit; one lane at its execution point (R187) returns the old value, whether it wrote, and memory with the new
value's bytes at its address and nowhere else. -/
def Obligations.AtomicOperations : Prop :=
  (∀ (w64 : Bool) (o b c : Nat), let w := if w64 then 64 else 32
    let s := fun v : Nat => if v < 2 ^ (w - 1) then (v : Int) else (v : Int) - 2 ^ w
    o < 2 ^ w → b < 2 ^ w →
    (AtomOp.atom .xchg w64).apply o b c = some b ∧ (AtomOp.atom .add w64).apply o b c = some ((o + b) % 2 ^ w) ∧
    (AtomOp.atom .and w64).apply o b c = some (o &&& b) ∧ (AtomOp.atom .or w64).apply o b c = some (o ||| b) ∧
    (AtomOp.atom .xor w64).apply o b c = some (o ^^^ b) ∧
    (AtomOp.atom .min w64).apply o b c = some (if s o ≤ s b then o else b) ∧ (AtomOp.atom .max w64).apply o b c = some (if s b ≤ s o then o else b) ∧
    (AtomOp.atom .minu w64).apply o b c = some (min o b) ∧ (AtomOp.atom .maxu w64).apply o b c = some (max o b) ∧
    (AtomOp.atom .inc w64).apply o b c = some (if b ≤ o then 0 else (o + 1) % 2 ^ w) ∧
    (AtomOp.atom .dec w64).apply o b c = some (if o = 0 ∨ b < o then b else o - 1) ∧
    (AtomOp.cas w64).apply o b c = if o = b then some c else none) ∧
  (∀ o b c : Nat, (AtomOp.fatom .add).apply o b c = some (fp32.add .rn o b) ∧ (AtomOp.fatom .min).apply o b c = some (fminMax false false o b) ∧
    (AtomOp.fatom .max).apply o b c = some (fminMax true false o b) ∧
    (AtomOp.fatom .addh2).apply o b c = some (fp16.add .rn (o % 2 ^ 16) (b % 2 ^ 16) + fp16.add .rn (o / 2 ^ 16) (b / 2 ^ 16) * 2 ^ 16) ∧
    (AtomOp.fatom .addb2).apply o b c = some (bf16.add .rn (o % 2 ^ 16) (b % 2 ^ 16) + bf16.add .rn (o / 2 ^ 16) (b / 2 ^ 16) * 2 ^ 16)) ∧
  ∀ (s : State) (op : AtomOp) (w64 : Bool) (x : AtomLane),
    let n := if w64 then 8 else 4
    let old := ofBytes ((List.range n).map (fun k => s.byte (x.addr + k)))
    let r := op.apply old (x.b.toNat % 2 ^ (8 * n)) (x.c.toNat % 2 ^ (8 * n))
    (s.atomAt op w64 x).1 = old ∧ (s.atomAt op w64 x).2.1 = r.isSome ∧ (∀ k, (s.atomAt op w64 x).2.2.grp k = s.grp k) ∧
    ∀ a, (s.atomAt op w64 x).2.2.byte a = match r with
      | some v => if x.addr ≤ a ∧ a < x.addr + n then BitVec.ofNat 8 (v / 2 ^ (8 * (a - x.addr))) else s.byte a
      | none => s.byte a

/-- ATOMIC_PERFORM on a word in flight takes it off its way and performs its lanes in ascending order (R187); a lane whose
home answers, or whose page's replica does (R190), works on the line recalled from the issuing die, and a lane whose home is lost or whose
data are bad receives MCHECK with its destination unchanged; a word with a result then completes its scoreboard entry, after its latency. -/
def Obligations.AtomicPerform : Prop := ∀ (s : State) (id : Nat) (a : AtomFlight), s.pkg.on = true → kget s.atoms id = some a →
  let r := a.lanes.foldl (State.performLane a) ([], [], { s with atoms := kdel s.atoms id })
  (∀ (cells : List (Nat × Word)) (bad : List LaneFault) (t : State) (x y : AtomLane), t.atomHome a.ctx x = some (some y) →
    let u := if y.home = 16 then t else (t.recallLine a.core y.ptr y.addr).redoLine y
    let v := u.atomAt a.op a.w64 y
    State.performLane a (cells, bad, t) x = if u.bad y.addr (if a.w64 then 8 else 4)
      then (cells, bad ++ [accFault y.lane .mcheck y.ptr (y.addr % 2 ^ 52) .g kindAtomic], u)
      else (cells ++ atomCells a.dst a.pred a.w64 y.lane v.1 v.2.1, bad, v.2.2)) ∧
  (∀ (cells : List (Nat × Word)) (bad : List LaneFault) (t : State) (x : AtomLane), t.atomHome a.ctx x = some none →
    State.performLane a (cells, bad, t) x = (cells, bad ++ [accFault x.lane .mcheck x.ptr (x.addr % 2 ^ 52) .g kindAtomic], t)) ∧
  (a.pend = none → exec (.atomicPerform id) s = .next r.2.2) ∧
  ∀ p, a.pend = some p →
    let u := r.2.2.modGrp a.gid (fun g => { g with pends := g.pends.map (fun q =>
      if q.id = p then { q with cells := q.cells ++ r.1, due := some (r.2.2.pkg.clock + 1 + a.lat) } else q) })
    (r.2.1 = [] → exec (.atomicPerform id) s = .next u) ∧
    (r.2.1 ≠ [] → ∀ q, (r.2.2.grpD a.gid).pends.find? (fun q => decide (q.id = p)) = some q →
      exec (.atomicPerform id) s = .next (u.raiseTrap a.gid ⟨true, q.pc, r.2.1⟩))

/-- TOUCH, where every lane passes its checks, completes later and opens the lanes' window, the fifth closing the oldest of four
(R97, R144); PREF, FLUSH and INV act in ascending lanes on the line of every lane whose checks pass and on no other (R142, R143); VPROBE
returns, in a later clk, what each lane's address would meet (R145). -/
def Obligations.CacheWords : Prop := ∀ (h : Hdr) (d a b : Opnd) (rd l2 : Bool) (lvl : PLvl) (s : State) (g : Group) (pc : Pc),
  let E : Instr → Group := fun i => g.entered (info i)
  let X : Instr → List Nat := fun i => (E i).exLanes (info i) g.active
  let ready : Instr → Prop := fun i => Ready (info i) (ownKeys (info i)) s g pc
  let R : Instr → Need → List (Nat × Reach) × State := fun i need =>
    (s.entered (info i) g).reachAll (fun t l => t.reachG (E i).who l ((E i).gptr l a b) 1 false false need kindLoad) (X i)
  let passed : Instr → (State → DWord → Nat → Nat → Nat → State) → Prop := fun i f => ready i → Performs i s g pc
    ((R i needR).1.foldl (fun t q => match q.2 with
      | .glob p e z flat => f t p e z flat
      | _ => t) (R i needR).2) []
  let core := fun i => (E i).core
  let T := Instr.touch h a b rd
  let need := if rd then needR else needRW
  (ready T → X T ≠ [] → (∀ q ∈ (R T need).1, ∃ p e z f, q.2 = .glob p e z f) → ∃ x p due, Performs T s g pc x [] ∧
    p.pc = pc ∧ p.regs = [] ∧ p.cells = [] ∧ p.due = some due ∧ s.pkg.clock < due ∧ (∀ c, x.byte c = (R T need).2.byte c) ∧ (∀ k, k ≠ s.focus → x.grp k = s.grp k) ∧
    x.grp s.focus = some { E T with pends := (E T).pends ++ [p], touches := (E T).touches.drop ((E T).touches.length - 3) ++
      [⟨p.id, (R T need).1.filterMap (fun q => match q.2 with
        | .glob p _ _ _ => some (q.1, vaOf p / 2 ^ 16)
        | _ => none), 257⟩] }) ∧
  passed (.pref h a b lvl) (fun t p e z flat => if (E (.pref h a b lvl)).isSup then t else match lvl with
    | .l1 => t.fillL1 (E (.pref h a b lvl)).who p e z flat
    | .l2 => t.fillL2 (coreDie (core (.pref h a b lvl))) (E (.pref h a b lvl)).ctx e flat
    | .llc => t) ∧
  passed (.flush h a b l2) (fun t p _ _ flat => let u := t.writeBackLine (core (.flush h a b l2)) (vline p)
    if l2 then u.flushL2Line (coreDie (core (.flush h a b l2))) (flat / 128) else u) ∧
  passed (.inv h a b l2) (fun t p _ _ flat => let u := t.dropLine (core (.inv h a b l2)) (vline p)
    if l2 then u.dropL2Line (coreDie (core (.inv h a b l2))) (flat / 128) else u) ∧
  (ready (.vprobe h d a b) → X (.vprobe h d a b) ≠ [] → let r := (s.entered (info (.vprobe h d a b)) g).probes (E (.vprobe h d a b)) a b (X (.vprobe h d a b))
    r.1.map (fun q => q.1) = X (.vprobe h d a b) ∧
    AwaitsIn (.vprobe h d a b) s g pc { r.2 with free := r.2.free + 1 } (r.1.flatMap (fun q => dstCells d 0 [q.1] (fun _ => q.2))) (fun t => s.pkg.clock < t)) ∧
  ∀ (t : State) (w : Who) (ptr : DWord), w.sup = false →
    let q := t.leafTlb (coreCcl w.core) w.ctx ptr
    (t.probe w ptr).2 = q.2 ∧ (t.probe w ptr).1 = BitVec.ofNat 32 ((if t.boundsOk w.core ptr then 2 else 0) + match q.1 with
      | .ok e z => (z - 6) / 10 % 4 * 2 ^ 10 + (if leafRegion e = tagOf ptr then 1 else 0) +
          (e / 2 ^ 7 % 2 * 2 ^ 9 + e / 2 ^ 6 % 2 * 2 ^ 8 + e / 2 ^ 5 % 2 * 2 ^ 7 + e / 2 ^ 4 % 2 * 2 ^ 6 + e / 2 ^ 3 % 2 * 2 ^ 5 + e % 8 * 4)
      | _ => 0)

/-- SIDE_LOG_REPLAY of an entry (R170 to R172): an unserviceable page or a failed check drops it with a LATE record, a
write-blocked page keeps it, an absent page with no request yet asks for it, and a page that can be written performs it, byte by byte in order
for a store and as one atomic for a RED or FREDM, and takes it out of the log. WRITE_ACKNOWLEDGED (R193) writes the dirty bytes of one die L2
line to their home, where they and nothing else change memory. -/
def Obligations.LogReplayAndWriteBack : Prop := ∀ (s : State), s.pkg.on = true →
  (∀ (core id : Nat) (e : LogEntry), s.logFind core id = some e →
    let r := s.logXlate core e
    let run := exec (.sideLogReplay core id) s
    let late : State → Cause → State := fun t c => (t.logDrop core e.id).lateRecord e.ctx
      ⟨0, c, e.ptr, 0, 0, (match e.op with | .store _ => 1 | _ => 2), 0, true⟩
    (e.bad = true → run = .next (late s .page)) ∧
    (e.bad = false → (∀ c u, r = (.fail c, u) → run = .next (late u c)) ∧
      (∀ mal lvl u, r = (.absent mal lvl, u) → e.req = none → ∃ k q, run = .next (q.logMod core id (fun x => { x with req := some k })) ∧
        u.request ⟨coreDie core, none, 1, .log core id, e.ctx, [lo32 e.ptr, hi32 e.ptr], 0, 0, 0, 0, 1, mal, lvl, []⟩ = (k, q)) ∧
      (∀ leaf size u, r = (.ok leaf size, u) → leafWb leaf = true → run = .next u) ∧
      ∀ leaf size u f, r = (.ok leaf size, u) → leafWb leaf = false → u.place (decide (e.ctx = 0)) leaf size e.ptr = .mem f →
        let d := u.logDrop core id
        (∀ x ∈ (d.core core).sideLog, x.id ≠ id) ∧
        (∀ b, e.op = .store b → run = .next (b.foldl (fun t x => t.storeG ⟨core, e.ctx, false⟩ (ptrOff e.ptr (x.1 : Int)) .bypass leaf size (f + x.1) [x.2]) d)) ∧
        (∀ op w64 b, e.op = .red op w64 b → run = .next (((d.recallLine core e.ptr f).countReq ⟨core, e.ctx, false⟩ e.ptr 1).atomAt (.atom op w64) w64
          ⟨0, f, b, 0, e.ptr, leafHome leaf, leafM leaf, false⟩).2.2) ∧
        (∀ op b, e.op = .fred op b → run = .next (((d.recallLine core e.ptr f).countReq ⟨core, e.ctx, false⟩ e.ptr 1).atomAt (.fatom op) false
          ⟨0, f, b.setWidth 64, 0, e.ptr, leafHome leaf, leafM leaf, false⟩).2.2))) ∧
  ∀ (id : Nat) (w : WriteBack) (l : L2Line), kget s.wbs id = some w → kget (s.die w.die).l2 w.line = some l →
    ∃ t, exec (.writeAcknowledged id) s = .next t ∧ kget t.wbs id = none ∧ (∀ k, t.grp k = s.grp k) ∧
      ∀ a, t.byte a = (lastAt ((l.bytes.filter (fun c => c.2.dirty)).map (fun c => (w.line * 128 + c.1, c.2.b))) a).getD (s.byte a)

/-- The words that allocate and change a tile (R222, R230 to R232), once for the group. TALLOC of a free entry with a legal offset
and size leaves it EMPTY with every count zero; TFREE frees an EMPTY or READY tile, TDRAIN empties a READY one and leaves an EMPTY one,
TEXPECT adds to EC and fills, or waits while DRAINING; a FILLING or DRAINING tile holds TFREE and TDRAIN. TSTATE returns the byte
counter or the tile word 8 clk later, zero for a free entry; TTEST and TWAIT test the mask on a tile with no error. -/
def Obligations.TileWords : Prop := ∀ (h : Hdr) (d a b : Opnd) (q : Fin 8) (n : Fin 64) (by_ : Bool) (s : State) (g : Group) (pc : Pc) (t : Tile),
  let E : Instr → Group := fun i => g.entered (info i)
  let S : Instr → State := fun i => s.entered (info i) g
  let X : Instr → List Nat := fun i => (E i).exLanes (info i) g.active
  let T := s.teamD g.tid
  let ready : Instr → Prop := fun i => Ready (info i) (ownKeys (info i)) s g pc ∧ X i ≠ []
  let names : Instr → Prop := fun i => ready i ∧ n.val < T.kernel.tiles ∧ kget T.tiles n.val = some t
  let sets : Instr → (Tile → Tile) → Prop := fun i f => Performs i s g pc ((S i).modTile g.tid n.val f) []
  let waits : Instr → Prop := fun i => exec i s = .next ((s.modGrp s.focus (fun k => { k with touches := [] })).modGrp s.focus (fun k =>
    { k with retryAt := s.pkg.clock + 1, retryCause := .tile, waitPc := pc }))
  let al := Instr.talloc h n a b
  let fr := Instr.tfree h n
  let dr := Instr.tdrain h n
  let ex := Instr.texpect h n a
  let st := Instr.tstate h d n by_
  let tt := Instr.ttest h q n a b
  let tw := Instr.twait h n a b
  let off := ((E al).rd 0 a).toNat
  let size := ((E al).rd 0 b).toNat
  let inc := ((E ex).rd 0 a).toNat
  let holds : Instr → Prop := fun i => ∀ k, k < 64 → ((E i).rd64 0 a).getLsbD k = true →
    t.size / 512 ≤ 64 * (((E i).rd 0 b).toNat % 8) + k ∨ t.bits.testBit (64 * (((E i).rd 0 b).toNat % 8) + k) = true
  (ready al → n.val < T.kernel.tiles → kget T.tiles n.val = none → off % 512 = 0 → size % 512 = 0 → 0 < size → size ≤ 262144 →
    off + size ≤ T.allocSize → Performs al s g pc ((S al).modTeam g.tid (fun t => { t with tiles := kset t.tiles n.val ⟨off, size, .empty, 0, 0, 0, 0, 0, false, 0⟩ })) []) ∧
  (names fr → if t.state = .filling ∨ t.state = .draining then waits fr
    else Performs fr s g pc ((S fr).modTeam g.tid (fun t => { t with tiles := kdel t.tiles n.val })) []) ∧
  (names dr → if t.state = .filling ∨ t.state = .draining then waits dr
    else if t.state = .ready then sets dr (fun t => { t with state := .empty, bits := 0, bytes := 0, err := 0, mcd := false, errVa := 0 })
    else Performs dr s g pc (S dr) []) ∧
  (names ex → 1 ≤ inc → inc ≤ 1023 → t.ec + (inc : Int) ≤ 1023 → if t.state = .draining then waits ex
    else sets ex (fun t => ({ t with state := .filling, ec := t.ec + (inc : Int) }).settle)) ∧
  (ready st → n.val < T.kernel.tiles → Awaits st s g pc (dstCells d 0 (X st) (fun _ => match kget T.tiles n.val with
    | none => 0
    | some t => if by_ then BitVec.ofNat 32 t.bytes else BitVec.ofNat 32 (tileWord t))) (fun c => c = s.pkg.clock + 8)) ∧
  (names tt → t.err = 0 → ∀ v : Bool, (v = true ↔ holds tt) →
    Awaits tt s g pc (predCells (.q q) (X tt) (fun _ => v)) (fun c => c = s.pkg.clock + 8)) ∧
  (names tw → t.err = 0 → (holds tw → Completes tw s g pc []) ∧ (¬ holds tw → t.state ≠ .empty → waits tw))

/-- XLOAD and XSTORE (R222, R223, R227, R233, R238), where every lane passes its checks, the tile allows the word, the window has
room and every record can be read or is known to fail, make the tile FILLING or DRAINING once and issue one job for each lane that is no
helper, in order, each counted in OC; a DRAINING tile, or a FILLING one under XSTORE, holds the word. XPREF fills the die L2 with the lines
of every lane's box that can be read, and changes no byte of memory (R239); XFENCE adds the group's copy jobs, or its drain jobs, to those its next
word waits for (R240); XSTAT returns, 8 clk later, the window's and the team's counts (R241). -/
def Obligations.CopyWords : Prop := ∀ (h : Hdr) (d a b : Opnd) (n : Fin 64) (rm : BitVec 4) (win s24 mc st : Bool) (s : State) (g : Group) (pc : Pc) (t : Tile),
  let E : Instr → Group := fun i => g.entered (info i)
  let S : Instr → State := fun i => s.entered (info i) g
  let X : Instr → List Nat := fun i => (E i).exLanes (info i) g.active
  let T := s.teamD g.tid
  let ready : Instr → Prop := fun i => Ready (info i) (ownKeys (info i)) s g pc
  let lanes : Instr → List Nat := fun i => (X i).filter (fun l => !(E i).isHelper l)
  let names : Instr → Prop := fun i => ready i ∧ lanes i ≠ [] ∧ n.val < T.kernel.tiles ∧ kget T.tiles n.val = some t ∧ t.err = 0 ∧
    ∀ l ∈ lanes i, ((E i).rd64 l a).toNat % 64 = 0
  let recs : Instr → Bool → List (Option CopyLane × Option (Nat × DWord × Bool × Nat)) × State := fun i z => (S i).copyRecords (E i) a b z (lanes i)
  let room : Instr → Bool → Prop := fun i z => (S i).windowUsed g.core + (lanes i).length ≤ 1024 ∧ ∀ r ∈ (recs i z).1, r.1.isSome = true
  let waits : Instr → Prop := fun i => exec i s = .next ((s.modGrp s.focus (fun k => { k with touches := [] })).modGrp s.focus (fun k =>
    { k with retryAt := s.pkg.clock + 1, retryCause := .tile, waitPc := pc }))
  let xl := Instr.xload h n a b rm win s24 mc
  let xs := Instr.xstore h n a b
  let xp := Instr.xpref h a b
  let xf := Instr.xfence h st
  let xt := Instr.xstat h d
  (names xl → (t.state = .draining → waits xl) ∧ (t.state ≠ .draining → room xl s24 →
    Performs xl s g pc ((recs xl s24).2.copyGo s.focus (E xl) pc n.val false win s24 (if mc then some rm else none) ((recs xl s24).1.filterMap (fun r => r.1))) [])) ∧
  (names xs → (t.state = .draining ∨ t.state = .filling → waits xs) ∧ (t.state = .ready → room xs false →
    Performs xs s g pc ((recs xs false).2.copyGo s.focus (E xs) pc n.val true false false none ((recs xs false).1.filterMap (fun r => r.1))) [])) ∧
  (ready xp → let x := (lanes xp).foldl (State.xprefLane (E xp) a b) (S xp)
    Performs xp s g pc x [] ∧ ∀ c, x.byte c = s.byte c) ∧
  (ready xf → X xf ≠ [] → Changes xf s g pc [] (fun k => k = { E xf with copyWait := (E xf).copyWait ++
    (s.jobs.filter (fun j => decide (j.2.gid = s.focus) && (!st || j.2.drain))).map (fun j => j.1) })) ∧
  (ready xt → X xt ≠ [] → Awaits xt s g pc (dstCells d 0 (X xt) (fun _ => BitVec.ofNat 32 (
    (if s.windowUsed g.core < 1024 then 0 else 2 ^ 31) +
    2 ^ 24 * (((s.jobs.filter (fun j => decide (j.2.tid = g.tid))).foldl (fun n j => n + j.2.parked.length) 0) % 128) +
    ((s.jobs.filter (fun j => decide (j.2.tid = g.tid))).length + (s.mjobs.filter (fun j => decide (j.2.tid = g.tid))).length) % 2048)))
      (fun c => c = s.pkg.clock + 8)) ∧
  ∀ (gid : Nat) (g : Group) (pc : Pc) (n : Nat) (drain win s24 : Bool) (parts : List Nat) (s : State) (c : CopyLane) (x : Tile),
    (s.team g.tid).isSome = true → kget (s.teamD g.tid).tiles n = some x →
    ∃ j y, (State.copyIssue gid g pc n drain win s24 parts s c).jobs = kset s.jobs s.serial j ∧
      j.phase = .issued ∧ j.tid = g.tid ∧ j.core = g.core ∧ j.gid = gid ∧ j.pc = pc ∧ j.tile = n ∧ j.drain = drain ∧ j.recErr = c.err ∧
      (c.err ≠ 0 → j.reads = [] ∧ j.writes = [] ∧ j.unsettled = []) ∧
      (c.err = 0 → j.unsettled = c.lay.chunks ∧ (if drain then j.reads else j.writes) = tileRange (s.teamD g.tid) x c.lay) ∧
      kget ((State.copyIssue gid g pc n drain win s24 parts s c).teamD g.tid).tiles n = some y ∧ y.oc = x.oc + 1 ∧ y.state = x.state ∧
      y.bits = (if drain then x.bits else (x.clear (if c.err = 0 then c.lay.chunks else [])).bits)

/-- COPY_JOB_START runs a job whose record was read and passes R226, with the line buffers its .WIN gives it (R237), and ends one that fails with its code in the tile's ERR, which keeps
the first code (R226, R242); MC_PART_START joins a part to a tile it fits, which then FILLS, with its chunks' bits clear, EC less 1 and OC more
1, and drops a part with no such tile, with MCD set at the issuer's (R238); CHUNK_SETTLE moves the job's next chunk that is not parked,
CHUNK_REISSUE a parked one (R174, R234, R235): it settles when every element in bounds is moved, and an absent page parks it with a fault
request; COPY_JOB_COMPLETE ends a job with no chunk left, takes it out of OC everywhere, and a tile whose counts reach zero turns READY, with
every bit set when it has no error (R222, R223). -/
def Obligations.CopyEvents : Prop := ∀ (s : State) (id : Nat) (j : CopyJob), s.pkg.on = true → kget s.jobs id = some j →
  let set : CopyJob → State := fun x => { s with jobs := kset s.jobs id x }
  let tile : State → Nat → Option Tile := fun t k => t.tile k j.tile
  let size := ((tile s j.tid).map (fun t => t.size)).getD 0
  let check := j.lay.check j.coords j.win j.s24 size
  let w : Who := ⟨j.core, (s.teamD j.tid).ctx, false⟩
  (j.recErr = 0 → check = 0 → exec (.copyJobStart id) s = .next { s.newLines j with jobs := kset s.jobs id { j with phase := .running, reuse := s.heldLines j } }) ∧
  (∀ x, (∀ p ∈ j.parts, p.2 = false) → tile s j.tid = some x → (j.recErr ≠ 0 ∨ check ≠ 0) → ∃ t y code, exec (.copyJobStart id) s = .next t ∧
    code = (if j.recErr ≠ 0 then j.recErr else check) ∧ (∃ va, kget t.jobs id = some { j with phase := .running, unsettled := [], parked := [], err := code, errVa := va }) ∧
    tile t j.tid = some y ∧ y.err = (if x.err = 0 then code else x.err) ∧ y.state = x.state ∧ y.oc = x.oc ∧ y.bits = x.bits) ∧
  (∀ part k, part < j.parts.length → j.parts.getD part (0, true) = (k, false) →
    let fits : Tile → Prop := fun x => 128 * j.lay.toff + j.lay.rows * j.lay.p ≤ x.size
    (∀ x, tile s k = some x → x.state ≠ .draining → -1024 < x.ec → fits x → exec (.mcPartStart id part) s =
      .next ((set { j with parts := setNth j.parts part (k, true) }).modTile k j.tile (fun t =>
        { (t.clear j.lay.chunks) with state := .filling, ec := t.ec - 1, oc := t.oc + 1 }))) ∧
    ((tile s k = none ∨ ∃ x, tile s k = some x ∧ x.state ≠ .draining ∧ -1024 < x.ec ∧ ¬ fits x) → exec (.mcPartStart id part) s =
      .next ((set { j with parts := j.parts.take part ++ j.parts.drop (part + 1) }).modTile j.tid j.tile (fun t => { t with mcd := true })))) ∧
  (∀ c, j.unsettled.find? (fun c => (kget j.parked c).isNone) = some c → exec (.chunkSettle id) s = .next (s.chunkRun id c)) ∧
  (∀ p, j.parked.find? (s.parkedReady j) = some p → exec (.chunkReissue id) s = .next ((set { j with parked := kdel j.parked p.1 }).chunkRun id p.1)) ∧
  (∀ c, let els := j.lay.inChunk j.coords c
    let lines : State → List DWord → State := fun t l => t.countLines w l
    let done : State → State := fun t => { t with jobs := kset t.jobs id { j with unsettled := j.unsettled.filter (fun k => decide (k ≠ c)), parked := kdel j.parked c } }
    (∀ l u, j.drain = false → s.fillChunk w j els = (.ok l, u) → s.chunkRun id c =
      (j.parts.filter (fun p => p.2)).foldl (fun t p => t.fillTile id p.1 j.tile c l) ((done (lines u (j.requests els))).fillTile id j.tid j.tile c l)) ∧
    (∀ l u, j.drain = true → s.drainChunk w j els = (.ok l, u) → s.chunkRun id c =
      done (lines (l.foldl (fun t p => t.writeL2 (coreDie j.core) w.ctx p.2.1 p.2.2
        (t.bytes (flatScratch (u.teamD j.tid).core ((u.teamD j.tid).allocOff + ((tile u j.tid).map (fun x => x.base)).getD 0 + p.1)) j.lay.e)) u) (els.map (fun x => j.lay.ga j.coords x.1 (j.lay.x j.coords x.1 x.2 0))))) ∧
    (∀ ptr mal lvl u, (if j.drain then (s.drainChunk w j els).1 = .error (.park ptr (some (mal, lvl))) ∧ (s.drainChunk w j els).2 = u
      else (s.fillChunk w j els).1 = .error (.park ptr (some (mal, lvl))) ∧ (s.fillChunk w j els).2 = u) →
      let q := u.request ⟨coreDie j.core, none, 1, .job id, (u.teamD j.tid).ctx, [lo32 ptr, hi32 ptr], 0, 0, 0, 0, kindJob, mal, lvl, []⟩
      s.chunkRun id c = { q.2 with jobs := kset q.2.jobs id { j with parked := kset j.parked c q.1 } })) ∧
  (j.phase = .running → j.unsettled = [] → exec (.copyJobComplete id) s = .next ((j.parts.filter (fun p => p.2)).foldl (fun t p => t.tileDone p.1 j.tile)
    (State.tileDone { s with jobs := kdel s.jobs id } j.tid j.tile))) ∧
  ∀ (t : State) (tid k : Nat) (x : Tile), t.tile tid k = some x → ∃ y, (t.tileDone tid k).tile tid k = some y ∧ y.oc = x.oc - 1 ∧ y.ec = x.ec ∧ y.err = x.err ∧
    y.state = (if x.oc ≤ 1 ∧ (x.state = .draining ∨ x.state = .filling ∧ x.ec = 0) then .ready else x.state) ∧
    y.bits = (if x.oc ≤ 1 ∧ x.state = .filling ∧ x.ec = 0 ∧ x.err = 0 then allBits else x.bits)

/-- MMA, MMAS, MMAX and MMAC (R244 to R253), where the core's array has room: each executing lane's registers take, 24 clk later,
its elements of A·B plus the accumulator, rows and columns as R245 and R246 place them, computed and rounded as R249 says; the word takes
its array units, and MXSTAT's bits come with the results (R251). The elements of an operand's vector are those of its two lanes' registers. -/
def Obligations.FragmentProducts : Prop := ∀ (h : Hdr) (d a b c : Opnd) (ty : MmaTy) (cj : Bool) (s : State) (g : Group) (pc : Pc),
  let E : Instr → Group := fun i => g.entered (info i)
  let X : Instr → List Nat := fun i => (E i).exLanes (info i) g.active
  let does : Instr → Nat → Nat → (Group → Nat → Nat → Nat) → (Group → Nat → Nat → Word) → Prop := fun i units n v bits =>
    Ready (info i) (fragKeys (info i)) s g pc → X i ≠ [] → (s.core g.core).arrayUsed + units ≤ 2 →
    Performs i s g pc ((s.entered (info i) g).fragTakes s.focus g.core units
        (((List.range n).flatMap (fun j => (X i).map (fun l => bits (E i) l j))).foldl (fun x y => x ||| y) 0))
      ((List.range n).flatMap (fun j => (X i).flatMap (fun l => dstCells d j [l] (fun _ => BitVec.ofNat 32 (v (E i) l j)))))
  let row : Group → Nat → Nat := fun g l => g.fragVec a (l % 16)
  let col : Group → Nat → Nat → Nat := fun g l j => g.fragVec b (8 * (l / 16) + j)
  let sum : (Group → Nat → Nat → Nat) → Opnd → Group → Nat → Nat → Nat := fun scale acc g l j =>
    mmaSum ty (scale g (l % 16) (8 * (l / 16) + j)) (row g l) (col g l j) (g.accElem acc l j)
  let fnv : Nat → Word := fun r => if (fp32.val r).isNan then 2 else 0
  let iovf : Int → Word := fun v => if v < -(2 ^ 31) ∨ 2 ^ 31 - 1 < v then 1 else 0
  let mBits : (Group → Nat → Nat → Nat) → Opnd → Group → Nat → Nat → Word := fun v acc g l j =>
    if mmaFloat ty then fnv (v g l j) else iovf (mmaExact ty (row g l) (col g l j) (g.accElem acc l j))
  let one : Group → Nat → Nat → Nat := fun _ _ _ => 0x3F800000
  let cx : Group → Nat → Nat → Int := fun g l j => let v := dotC cj (row g l) (col g l (j / 2)) 16
    sextNat (g.accElem c l j) 32 + (if j % 2 = 0 then v.1 else v.2)
  let cRes : Group → Nat → Nat → Nat := fun g l j => (cx g l j % 2 ^ 32).toNat
  let cBits : Group → Nat → Nat → Word := fun g l j => iovf (cx g l j)
  let scaleOf : Group → Nat → Nat → Nat := fun g i n => fp32.mul .rn (g.rd i c).toNat (g.rd (16 + n) c).toNat
  does (.mma h d a b c ty) 1 8 (sum one c) (mBits (sum one c) c) ∧
  does (.mmas h d a b c ty) 1 8 (sum scaleOf d) (mBits (sum scaleOf d) d) ∧
  does (.mmax h d a b c) 1 8 (fun g l j => mmaMx (g.rd (l % 16) c).toNat (g.rd (16 + (8 * (l / 16) + j)) c).toNat (row g l) (col g l j) (g.rdj l j d).toNat)
    (fun g l j => fnv (mmaMx (g.rd (l % 16) c).toNat (g.rd (16 + (8 * (l / 16) + j)) c).toNat (row g l) (col g l j) (g.rdj l j d).toNat)) ∧
  does (.mmac h d a b c cj) 2 16 cRes cBits ∧
  ∀ (g : Group) (o : Opnd) (v w k : Nat), o ≠ .zero → (w = 4 ∨ w = 8 ∨ w = 16) → w * k < 256 →
    fragElem (g.fragVec o v) w k = (g.rdj (if w * k < 128 then v else v + 16) (w * k / 32 % 4) o).toNat / 2 ^ (w * k % 32) % 2 ^ w

/-- LDM and STM (R254 to R257) with a base and a pitch that are multiples of 16, where every piece passes its checks and no atomic
of the group is on its way to the bytes. LDM: each executing lane's registers become pending with the bits of its pieces, which lie where R255
places them. STM: the lanes that are no helpers store their pieces in ascending lanes, the side log takes those on absent or write-blocked
pages, no register changes. -/
def Obligations.FragmentMemory : Prop := ∀ (h : Hdr) (d a b : Opnd) (m : FragMod) (s : State) (g : Group) (pc : Pc),
  let ld := Instr.ldm h d a b m
  let st := Instr.stm h d a b m
  let E : Instr → Group := fun i => g.entered (info i)
  let X : Instr → List Nat := fun i => (E i).exLanes (info i) g.active
  let ready : Instr → Prop := fun i => Ready (info i) (ownKeys (info i)) s g pc ∧ X i ≠ []
  let aligned : Instr → Prop := fun i => (if m.sp = .g then ((E i).rd64 0 a).toNat else ((E i).rd 0 a).toNat) % 16 = 0 ∧ ((E i).rd 0 b).toNat % 16 = 0
  let R : Instr → Need → Nat → List Nat → List FragAt × State := fun i need kind ls =>
    (s.entered (info i) g).fragReach (E i) m a need kind (fragPieces m ((E i).rd 0 b).toNat ls)
  let n := match m.kind, m.t, m.es with
    | .fop, false, _ => 16
    | .fop, true, .e16 => 2
    | .fop, true, _ => 1
    | .facc, _, _ => 4
    | .fcpx, _, _ => 8
  (ready ld → aligned ld → let q := R ld needR kindLoad (X ld)
    (∀ x ∈ q.1, (∃ p e z f, x.2.2 = .glob p e z f) ∨ ∃ f c, x.2.2 = .chip f c) → q.2.overlapsFlight s.focus 16 (flatReach q.1) = false →
    ∀ data u, (q.2.tilePort (E ld).core q.1).2.readsOk s.focus (E ld) n .keep (flatReach q.1) = some (data, u) →
    let part : Nat → Nat := fun l => ((q.1.zip data).map (fun y => if y.1.1 = l then pieceVal y.1.2.1 y.2.2 else 0)).sum
    ∃ x, AwaitsIn ld s g pc x ((X ld).flatMap (fun l => dstCellsN d (match m.kind with | .fop => 4 | .facc => 8 | .fcpx => 16) [l]
        (fun j _ => BitVec.ofNat 32 (part l / 2 ^ (32 * j))))) (fun t => s.pkg.clock < t) ∧
      x.grp s.focus = some (E ld) ∧ (∀ c, x.byte c = u.byte c) ∧ ∀ k, k ≠ s.focus → x.grp k = s.grp k) ∧
  (ready st → aligned st → let q := R st needW kindStore ((X st).filter (fun l => !(E st).isHelper l))
    let log := q.2.stmLog s.focus (E st) m d q.1
    (∀ x ∈ q.1, (∃ p e z f, x.2.2 = .glob p e z f) ∨ (∃ f c, x.2.2 = .chip f c) ∨ ∃ f, x.2.2 = .absent f) →
    List.length (α := Nat × DWord × Option (Bool × Nat) × List (Nat × Byte)) log ≤ q.2.logFree (E st).core → q.2.overlapsFlight s.focus 16 (flatReach q.1) = false →
    let stored := q.1.foldl (fun t x => match x.2.2 with
      | .glob p e z f => if s.logged s.focus (E st) p e then t else t.storeG (E st).who p .keep e z f ((E st).stmBytes d m x.1 x.2.1)
      | .chip f _ => t.put f ((E st).stmBytes d m x.1 x.2.1)
      | _ => t) (q.2.tilePort (E st).core q.1).2
    Performs st s g pc (stored.logLines s.focus (E st) log) [] ∧ (stored.logLines s.focus (E st) log).grp s.focus = some (E st) ∧
    ∀ k, k ≠ s.focus → (stored.logLines s.focus (E st) log).grp k = s.grp k) ∧
  (∀ l p r k, l < 32 → r = l % 16 → k = l / 16 →
    pieces ⟨m.sp, .fop, false, m.es⟩ p l = [⟨r * p + 16 * k, 16, 0, none⟩] ∧
    pieces ⟨m.sp, .fop, true, .e16⟩ p l = (List.range 8).map (fun j => ⟨(8 * k + j) * p + 2 * r, 2, 4 * j, none⟩) ∧
    pieces ⟨m.sp, .fop, true, .e8⟩ p l = (List.range 16).map (fun j => ⟨(16 * k + j) * p + r, 1, 2 * j, none⟩) ∧
    pieces ⟨m.sp, .fop, true, .e4⟩ p l = (List.range 32).map (fun j => ⟨(32 * k + j) * p + r / 2, 1, j, some (r % 2)⟩) ∧
    pieces ⟨m.sp, .facc, false, m.es⟩ p l = (List.range 8).map (fun j => ⟨r * p + 4 * (8 * k + j), 4, 8 * j, none⟩) ∧
    pieces ⟨m.sp, .facc, true, m.es⟩ p l = (List.range 8).map (fun j => ⟨(8 * k + j) * p + 4 * r, 4, 8 * j, none⟩) ∧
    pieces ⟨m.sp, .fcpx, false, m.es⟩ p l = (List.range 8).map (fun j => ⟨r * p + 8 * (8 * k + j), 8, 16 * j, none⟩) ∧
    pieces ⟨m.sp, .fcpx, true, m.es⟩ p l = (List.range 8).map (fun j => ⟨(8 * k + j) * p + 8 * r, 8, 16 * j, none⟩))

/-- MXB, ACCZ, ACCLD and ACCST (R262, R273, R278) by an accumulator team with no error, where the block is aligned, in bounds and
its tiles READY, and the window has room, issue one job for each lane that is no helper, in ascending lanes, and return their IDs 4 clk later,
consecutive and never 0, with 0 in helper lanes; MXB's block is then copied and its STATUS and PROG cleared (R263). ACCRD issues one job with no ID and its
eight registers wait for it (R282). MXBW returns ACCSTAT when no named job is outstanding, and waits for the oldest otherwise; MXBT tests (R277). -/
def Obligations.BlockMatrixWords : Prop := ∀ (h : Hdr) (d a b c : Opnd) (p : PCode) (dt st : NumTy) (rm : RndE) (sat : Bool) (s : State) (g : Group) (pc : Pc),
  let E : Instr → Group := fun i => g.entered (info i)
  let S : Instr → State := fun i => s.entered (info i) g
  let X : Instr → List Nat := fun i => (E i).exLanes (info i) g.active
  let awake : Instr → List Nat := fun i => (X i).filter (fun l => !(E i).isHelper l)
  let T := s.teamD g.tid
  let own : Prop := T.accstat.toNat / 2 ^ 28 % 16 = 0 ∧ (s.core g.core).accTeam = g.tid
  let room : Nat → Nat → Prop := fun core n => s.windowUsed core + n ≤ 1024
  let target : Instr → Nat := fun i => ((S i).accTarget g.tid ((E i).rd 0 a)).getD g.core
  let issues : Instr → Nat → MJob → (State → State) → Prop := fun i core j fx => awake i ≠ [] → own → room core (awake i).length →
    AwaitsIn i s g pc (fx ((awake i).foldl (fun t _ => t.mIssue j true) (S i)))
      (dstCells d 0 ((X i).filter (E i).isHelper) (fun _ => 0) ++ (awake i).zipIdx.flatMap (fun q => dstCells d 0 [q.1] (fun _ => idAhead q.2 T.nextId)))
      (fun t => t = s.pkg.clock + 4)
  let mx := Instr.mxb h d a b c
  let off := ((E mx).rd 0 a).toNat
  let blk := (S mx).blockAt (E mx) off
  let tileReady : Nat → Prop := fun at_ => blk.testBit (at_ + 6) = true → bitsOf blk at_ 6 < T.kernel.tiles ∧ ∃ t, kget T.tiles (bitsOf blk at_ 6) = some t ∧ t.err = 0 ∧ t.state = .ready
  let place : Nat → Option (Nat × Nat) := fun at_ => if blk.testBit (at_ + 6) then (kget T.tiles (bitsOf blk at_ 6)).map (fun t => (t.base, t.size)) else none
  let mj : MJob := { MJob.blank with
    tid := g.tid, gid := s.focus, core := g.core, pc := pc, kind := .mxb, block := blk, blockOff := off, descB := (E mx).rd64 0 b,
    descC := (E mx).rd64 0 c, imgA := (E mx).vImage blk 64 96, imgB := (E mx).vImage blk 66 160, tileA := place 68, tileB := place 75 }
  let acc : Instr → MKind → Opnd → MJob := fun i k b =>
    { MJob.blank with tid := g.tid, gid := s.focus, core := g.core, pc := pc, kind := k, rect := (E i).rd 0 a, descB := (E i).rd64 0 b }
  let accs : Instr → MKind → Opnd → Prop := fun i k b => Ready (info i) (ownKeys (info i)) s g pc → issues i (target i) (acc i k b) id
  let rd := Instr.accrd h d a
  let bw := Instr.mxbw h d a
  let bt := Instr.mxbt h p a
  let named := oldestJob ((X bw).filterMap (fun l => s.jobOfId g.tid ((E bw).rd l a)))
  (Ready (info mx) (mxbKeys s a (info mx)) s g pc → off % 128 = 0 → off + 128 ≤ T.allocSize → tileReady 68 → tileReady 75 →
    issues mx g.core mj (fun t => t.put (flatScratch (t.teamD g.tid).core ((t.teamD g.tid).allocOff + off + 56)) (toBytes 8 0))) ∧
  accs (.accz h d a) .accz .zero ∧ accs (.accld h d a b st) (.accld st) b ∧ accs (.accst h d a b dt st rm sat) (.accst dt st rm sat) b ∧
  (Ready (info rd) (ownKeys (info rd)) s g pc → X rd ≠ [] → own → room (target rd) 1 → ∃ (x : State) (e : Pend), Performs rd s g pc (x.mIssue (acc rd (.accrd e.id (vNum d) (maskOf (fun l => (X rd).contains l))) .zero) false) [] ∧
    x.grp s.focus = some { E rd with pends := (E rd).pends ++ [e] } ∧ e.pc = pc ∧ e.regs = dstRegs (info rd) ∧ e.due = none ∧
    (∀ k, k ≠ s.focus → x.grp k = s.grp k) ∧ x.mjobs = s.mjobs ∧ x.teams = s.teams ∧ ∀ k, x.byte k = s.byte k) ∧
  (Ready (info bw) (ownKeys (info bw)) s g pc → X bw ≠ [] → (named = none → ∃ n, AwaitsIn bw s g pc { S bw with free := n } (dstCells d 0 (X bw) (fun _ => s.accStat g.tid)) (fun t => s.pkg.clock < t)) ∧
    ∀ j, named = some j → exec bw s = .next (s.modGrp s.focus (fun k => { k with retryAt := s.pkg.clock + 1, retryCause := .depEngine, waitPc := j.pc }))) ∧
  (Ready (info bt) (ownKeys (info bt)) s g pc → X bt ≠ [] →
    Awaits bt s g pc (predCells p (X bt) (fun l => (s.jobOfId g.tid ((E bt).rd l a)).isNone)) (fun t => t = s.pkg.clock + 8)) ∧
  ∀ (t : State) (j : MJob), kget (t.mIssue j true).mjobs t.serial = some (t.mjobPlaced { j with seq := t.serial, id := (t.teamD j.tid).nextId }) ∧
    ((t.team j.tid).isSome = true → ((t.mIssue j true).teamD j.tid).nextId = if (t.teamD j.tid).nextId = 0xFFFFFFFF#32 then 1 else (t.teamD j.tid).nextId + 1)

/-- MXB_JOB_START (R264, R274) runs a job that passes its checks, with a part in every other cooperating window, and ends one that fails
with its code and no part; KBLOCK_END (R270, R275) zeroes the rectangles before the first K-block with ZA, adds one K-block of every product to
each element as R270 rounds it, and advances KDONE, or on uncorrectable data ends the job with MCHECK and adds nothing; MXB_JOB_COMPLETE
(R276) frees the job, writes STATUS and PROG, and sets ACCSTAT.ERR if it is 0. ACC_JOB_START (R279 to R282) zeroes a rectangle and no
other byte, loads or stores one, or reads ACCRD's elements, and ends a job whose target has no accumulator team with code 11. -/
def Obligations.MatrixEvents : Prop := ∀ (s : State) (id : Nat) (j : MJob), s.pkg.on = true → kget s.mjobs id = some j →
  let T := s.teamD j.tid
  let target := s.accTarget j.tid j.rect
  let gone : State := { s with mjobs := kdel s.mjobs id }
  let bad : Nat → State → State := fun e t => t.modTeam j.tid (fun x =>
    if bitsOf x.accstat.toNat 28 4 = 0 then { x with accstat := x.accstat ||| BitVec.ofNat 32 (field 28 4 e) } else x)
  let rect : Nat → Nat → Prop := fun c a => ∃ r k, 16 * bitsOf j.rect.toNat 8 3 ≤ r ∧ r < 16 * (bitsOf j.rect.toNat 8 3 + bitsOf j.rect.toNat 20 3 + 1) ∧
    64 * bitsOf j.rect.toNat 4 4 ≤ k ∧ k < 64 * (bitsOf j.rect.toNat 4 4 + bitsOf j.rect.toNat 16 4 + 1) ∧ a = flatAcc c (1024 * r + k)
  let prog := (if j.saved then 2 ^ 31 else 0) + j.kdone % 2 ^ 16
  let status := 2 ^ 31 + (if j.ovf then 32 else 0) + (if j.fnv then 16 else 0) + j.err % 16
  (j.saved = false → s.mxbCheck j ≠ 0 → exec (.mxbJobStart id) s = .next { s with mjobs := kset s.mjobs id { j with phase := .running, err := s.mxbCheck j } }) ∧
  (j.saved = false → s.mxbCheck j = 0 → let q := s.mxbParts j
    exec (.mxbJobStart id) s = .next { q.2 with mjobs := kset q.2.mjobs id { j with phase := .running, parts := q.1, saved := false } } ∧
    q.2.mem = s.mem ∧ ∀ c, (kget q.1 c).isSome = true → ∃ r, (c, r) ∈ s.mxbOthers j) ∧
  (∀ t, blkTy (bitsOf j.block 0 5) = some t →
    (∀ a b c d, (s.kZero j).kReads j t = some (a, b, c, d) → let r := (s.kZero j).kAll j t a b c d
      let k := { j with kdone := j.kdone + 1, ovf := j.ovf || r.1, fnv := j.fnv || r.2.1 }
      exec (.kblockEnd id) s = .next (State.accFlags { r.2.2 with mjobs := kset r.2.2.mjobs id k } j.tid r.1 r.2.1)) ∧
    ((s.kZero j).kReads j t = none → let z := s.kZero j
      exec (.kblockEnd id) s = .next { z with mjobs := kset z.mjobs id { j with err := 5 } })) ∧
  (exec (.mxbJobComplete id) s = .next (let t := gone.put (flatScratch T.core (T.allocOff + j.blockOff + 56)) (toBytes 8 (prog + status * 2 ^ 32))
    if j.err = 0 then t else bad j.err t)) ∧
  (∀ c, j.kind = .accz → target = some c → rectOk j.rect = true → ∃ t, exec (.accJobStart id) s = .next t ∧ t.mjobs = kdel s.mjobs id ∧ t.groups = s.groups ∧ t.teams = s.teams ∧
    ∀ a, (rect c a → t.byte a = 0) ∧ (¬ rect c a → t.byte a = s.byte a)) ∧
  (∀ st c u, j.kind = .accld st → target = some c → s.accCheck j = 0 → gone.accLoad j c st = some u → exec (.accJobStart id) s = .next u) ∧
  (∀ dt st rm sat c, j.kind = .accst dt st rm sat → target = some c → s.accCheck j = 0 → exec (.accJobStart id) s = .next (gone.accStore j c dt st rm sat)) ∧
  (∀ p base lanes, j.kind = .accrd p base lanes → exec (.accJobStart id) s = .next (gone.modGrp j.gid (fun g =>
    let due := s.pkg.clock + (if target = some T.core ∨ target = none then 12 else 40)
    { g with pends := g.pends.map (fun x => if x.id = p then { x with cells := s.accCells j.rect target base (lanesOf lanes), due := some due } else x) }))) ∧
  ((j.kind = .accz ∨ (∃ st, j.kind = .accld st) ∨ ∃ dt st rm sat, j.kind = .accst dt st rm sat) → target = none → exec (.accJobStart id) s = .next (bad 11 gone)) ∧
  ∀ (conj scl : Bool) (sa sb x y a im : Nat) (t u : NumTy),
    kElem (.half t) conj scl sa sb x y a im = ((List.range 64).foldl (fun a m => fp32.round .rn false (addV .rn (fp32.val a) (dotV t t 16 x y (2 * m) 2))) a, im, false) ∧
    kElem (.eight t u) conj scl sa sb x y a im = (fp32.round .rn false (addV .rn (fp32.val a) (mulV (fp32.val (fp32.round .rn false (dotV t u 8 x y 0 128)))
      (fp32.val (if scl then fp32.mul .rn sa sb else 0x3F800000)))), im, false) ∧
    (let v := sextNat a 32 + dotI t u (tyBits t) x y 128
     kElem (.int t u) conj scl sa sb x y a im = ((v % 2 ^ 32).toNat, im, decide (v < -(2 ^ 31)) || decide (2 ^ 31 - 1 < v)))

/-- With room in the queue of 64, each sequencer word (R295) enters its operation, with its operands, behind the others of its core
cluster, marks its team and the cluster's context (R287, R307), and leaves its result to come; a word whose table asks for records waits for its
operation's end before its group's next word (R302). SLV_OP_COMMIT takes the next operation that may end (R304) and gives its result to the word in
the next clk; a bound record ends the group (R302); an absent page parks it (R306). Sample and slot numbers, the expected sequence number,
the replay and the phases follow R292, R293 and R295, and SLVPUT, SLVCFG, SLVINIT and SLVSTAT their own rules. -/
def Obligations.SequencerWords : Prop := ∀ (h : Hdr) (d a b : Opnd) (s : State) (g : Group) (pc : Pc),
  let word : Instr → Nat → DWord → Nat → Nat → Prop := fun i kind ptr x y =>
    let E := g.entered (info i)
    let cl := coreCcl g.core
    let emits := (s.ccl cl).emits kind x
    Ready (info i) (ownKeys (info i)) s g pc → E.exLanes (info i) g.active ≠ [] → (s.ccl cl).seqQ.length < 64 →
    ∃ due n, s.pkg.clock < due ∧ Leaves i s g pc [] (fun e z =>
      let o : SeqOp := { gid := s.focus, pend := e.id, pc := pc, mask := g.active, kind := kind, ctx := g.ctx, tid := g.tid, ptr := ptr, a := x, b := y, req := none, bad := false, due := due }
      let z1 : State := { z with free := n, teams := kmod z.teams g.tid (fun t => { t with seqUsed := true }) }
      let z2 := z1.modCcl cl (fun k => { k with seqCtx := g.ctx, seqQ := k.seqQ ++ [o] })
      if emits then z2.modGrp s.focus (fun q => { q with wait := .engine, waitPc := pc, waitMask := g.active, wakeAt := none, touches := [] }) else z2)
  let v : Instr → Opnd → Nat := fun i x => ((g.entered (info i)).rd 0 x).toNat
  let p : Instr → DWord := fun i => (g.entered (info i)).rd64 0 a
  (word (.slvcfg h d a b) 0 (p (.slvcfg h d a b)) 0 (v (.slvcfg h d a b) b) ∧ word (.slvinit h d a b) 1 (p (.slvinit h d a b)) 0 (v (.slvinit h d a b) b) ∧
    word (.slvstage h d a b) 2 0 (v (.slvstage h d a b) a) (v (.slvstage h d a b) b) ∧ word (.slvput h d a b) 3 0 (v (.slvput h d a b) a) (v (.slvput h d a b) b) ∧
    word (.slvstep h d a b) 4 0 (v (.slvstep h d a b) a) (v (.slvstep h d a b) b) ∧ word (.slvstat h d a b) 5 0 (v (.slvstat h d a b) a) (v (.slvstat h d a b) b)) ∧
  (s.pkg.on = true → ∀ cl, (s.seqNext cl = none → exec (.slvOpCommit cl) s = .next s) ∧
    ∀ o, s.seqNext cl = some o →
      (∀ w k t, s.seqPerform o cl = (.ok (w, none, k), t) → exec (.slvOpCommit cl) s = .next
        (((t.modCcl cl (fun _ => { k with seqQ := k.seqQ.filter (fun x => decide (x.pend ≠ o.pend)) })).answer o.gid o.pend w).modGrp o.gid (fun q => { q with wait := if q.wait = .engine then .none else q.wait }))) ∧
      (∀ w n rec k t, s.seqPerform o cl = (.ok (w, some (n, rec), k), t) → exec (.slvOpCommit cl) s = .next
        (((((t.modCcl cl (fun _ => { k with seqQ := k.seqQ.filter (fun x => decide (x.pend ≠ o.pend)) })).answer o.gid o.pend w).modGrp o.gid (fun q => { q with wait := if q.wait = .engine then .none else q.wait }))).seqEnd o n rec)) ∧
      ∀ q x t, s.seqPerform o cl = (.error (q, some x), t) → exec (.slvOpCommit cl) s = .next (t.seqPark cl o q x)) ∧
  ∀ (o : SeqOp) (cl : Nat), let k := s.ccl cl
    let r := k.sample o.a
    let n := o.b % 4096
    let onSample := o.kind = 2 ∨ o.kind = 3 ∨ o.kind = 4
    let phase : Nat := if o.kind = 2 then 1 else if o.kind = 3 then 2 else 3
    let same : Word → Prop := fun w => s.seqPerform o cl = (.ok (w, none, k.setSample o.a r), s)
    (onSample → 4095 < o.a → s.seqPerform o cl = (.ok (7, none, k), s)) ∧
    (onSample → o.a ≤ 4095 → n ≠ smpSeq r → n = (smpSeq r + 4095) % 4096 → smp r 622 2 = o.kind - 1 → same (BitVec.ofNat 32 (smp r 640 32 / 8 * 8 + 1))) ∧
    (onSample → o.a ≤ 4095 → n ≠ smpSeq r → (n ≠ (smpSeq r + 4095) % 4096 ∨ smp r 622 2 ≠ o.kind - 1) → same (slvStatus r 0 2)) ∧
    (onSample → o.a ≤ 4095 → n = smpSeq r → smpPhase r ≠ phase → same (slvStatus r 0 3)) ∧
    (o.kind = 3 → o.a ≤ 4095 → n = smpSeq r → smpPhase r = 2 → let st := smpStage r
      let r1 := smpSet (smpSet (smpSet r 624 16 (smp r 624 16 ||| 2 ^ st)) 584 5 (st + 1)) 581 3 (if st + 1 = tabS ((k.table (smpTable r)).getD []) then 3 else 1)
      let r2 := smpSet (smpSet r1 597 12 (smpSeq r1 + 1)) 622 2 2
      let r3 := smpSet r2 640 32 (slvStatus r2 0 0).toNat
      s.seqPerform o cl = (.ok (slvStatus r3 0 0, none, k.setSample o.a r3), s)) ∧
    (o.kind = 0 → 7 < o.b → s.seqPerform o cl = (.ok (7, none, k), s)) ∧
    (o.kind = 0 → o.b ≤ 7 → o.ptr.toNat % 128 = 0 → ∀ img t, s.seqImage o o.ptr 1280 = (.ok img, t) →
      s.seqPerform o cl = (.ok (if tableOk img then 0 else 4, none, if tableOk img then { k with slots := kset k.slots o.b img } else k), t)) ∧
    (o.kind = 1 → o.b ≤ 4095 → ∀ img t, s.seqImage o o.ptr 128 = (.ok img, t) → initOk k (ofBytes img) = true →
      s.seqPerform o cl = (.ok (slvStatus (initRecord (ofBytes img)) 0 0, none, k.setSample o.b (initRecord (ofBytes img))), t)) ∧
    (o.kind = 5 → o.b.testBit 5 = false → s.seqPerform o cl = (.ok (BitVec.ofNat 32 (if 4095 < o.a then 0 else smp r (32 * (o.b % 32)) 32), none, k), s))

/-- LAUNCH, EMIT, CONT and NOTIFY begin their release, of .PKG or .SYS, and wait for it (R322 to R325). When it is over, LAUNCH enters
the 64 bytes at its record's home in the context's device queue and leaves its result to come; EMIT writes its lanes' records at consecutive ring
entries from the first free one, in lane order, and appends them; CONT binds its record to the team, and every lane exits, so that the group
retires; NOTIFY gives each lane its port's status, 0 in helper lanes, and makes the tail writes of the good ones in order. NODEQ returns each
lane's node word no earlier than 100 clk later (R326), made of state, BLK and occupancy. They are stated where the checks
of LAUNCH's record, EMIT's node and ring entries and CONT's node pass. -/
def Obligations.WorkWords : Prop := ∀ (h : Hdr) (d a b : Opnd) (rs : RecSize) (s : State) (g : Group) (pc : Pc),
  let E : Instr → Group := fun i => g.entered (info i)
  let S : Instr → State := fun i => s.entered (info i) g
  let X : Instr → List Nat := fun i => (E i).exLanes (info i) g.active
  let ready : Instr → Prop := fun i => Ready (info i) (ownKeys (info i)) s g pc ∧ X i ≠ []
  let free : Instr → State → State := fun i t => t.modGrp s.focus (fun _ => { (E i).afterRelease pc with recReq := [] })
  let free' : Instr → State → State := fun i t => t.modGrp s.focus (fun _ => (E i).afterRelease pc)
  let begins : Instr → Nat → Prop := fun i scope => (∀ f ∈ g.fences, ¬ (f.barrier = true ∧ f.pc = pc)) →
    exec i s = .next ((relFence s.focus pc scope s).modGrp s.focus (fun k => { k with retryAt := s.pkg.clock + 1, retryCause := .fence, waitPc := pc }))
  let la := Instr.launch h d a
  let em := Instr.emit h a b rs
  let co := Instr.cont h a b rs
  let no := Instr.notify h d a b
  let nq := Instr.nodeq h d a
  let L := (X em).filter (fun l => !(E em).isHelper l)
  let n := ((E em).rd (L.headD 0) a).toNat
  let helps : Nat → Prop := fun l => uniOf (info no) = false ∧ (E no).isHelper l = true
  let port : Nat → Nat := fun l => ((E no).rd l a).toNat
  let status : Nat → Word := fun l => if helps l then 0 else if 1023 < port l then 1 else if (s.port (port l)).ctx ≠ g.ctx then 2 else 0
  (ready la → ∀ p e z f t, (S la).reachG (E la).who 0 ((E la).rd64 0 a) 64 true true needR kindLoad = (.glob p e z f, t) →
    begins la 0 ∧ (g.released pc → (t.feCtx g.ctx).devq.length < 256 → t.bad f 64 = false →
      LeavesIn la s g pc (free' la t) [] (fun e x => x.modFeCtx g.ctx (fun c => { c with devq := c.devq ++ [⟨t.bytes f 64, t.originOf s.focus, s.focus, e.id⟩] })))) ∧
  (ready em → L ≠ [] → ∀ x, s.node g.ctx n = some x → x.state = 1 → x.rs = rsBytes rs → begins em 0 ∧
    (g.released pc → x.times.length + L.length ≤ 2 ^ x.kernel.cap → ∀ fs : List Nat,
      (List.range L.length).map (fun k => (S em).ringAt (E em) (x.entry (x.times.length + k))) = fs.map RingAt.ok →
      Performs em s g pc (((fs.zip L).foldl (fun t q => t.homePut q.1 ((E em).record q.2 b (rsBytes rs))) (free em (S em))).nodeAppend g.ctx n L.length) [])) ∧
  (ready co → s.contCheck g.tid ((E co).rd 0 a).toNat (rsBytes rs) = none → begins co 0 ∧ (g.released pc →
    ∃ (z : State) (k : Group), exec co s = .next ((z.chargeIssue s.focus .issue pc).retireGroup s.focus) ∧ z.grp s.focus = some k ∧ k.retired = true ∧
      z.teams = kmod s.teams g.tid (fun t => { t with bound := t.bound ++ [⟨((E co).rd 0 a).toNat, (E co).record 0 b (rsBytes rs)⟩] }) ∧
      (∀ j, j ≠ s.focus → z.grp j = s.grp j) ∧ ∀ c, z.byte c = s.byte c)) ∧
  (ready no → begins no 5 ∧ (g.released pc → ∃ m,
    AwaitsIn no s g pc { (((X no).filter (fun l => decide (status l = 0 ∧ ¬ helps l))).foldl (fun t l => t.modPort (port l) (fun p => p.tail ((E no).rd l b))) (free' no (S no))) with free := m }
      (dstCells d 0 (X no) status) (fun t => s.pkg.clock < t))) ∧
  (ready nq → Awaits nq s g pc (dstCells d 0 (X nq) (fun l => match s.node g.ctx ((E nq).rd l a).toNat with
    | none => 0
    | some x => BitVec.ofNat 32 (x.state % 4 * 2 ^ 30 + (if x.blocked then 2 ^ 29 else 0) + x.times.length % 2 ^ 17))) (fun t => s.pkg.clock + 100 ≤ t))

/-- A parse slot takes a ready source's oldest record (R316). A bad one is skipped, and a port counts it and notes its index (R311, R313);
a good GRID record makes a grid of its fields (R312), a good OPEN record a node in state OPEN with an empty ring (R317), a good CLOSE
record makes its node CLOSING and its launch open until the node is drained. NODE_GATHER forms teams when the ring has a full batch or the node is
CLOSING, GATHER_TIMER_EXPIRY when the oldest record has waited TIMER clk (R318), each only where the node is not blocked and has a core, areas and
readable records (R320, R321): the oldest records are taken, 32G to a team in rank order. NODE_DRAINED closes a CLOSING node with no record and no
team, flushes the context and makes its signal (R317). -/
def Obligations.NodeAndParseEvents : Prop := ∀ (s : State) (q r : Nat) (u : State), s.pkg.on = true →
  let ctx := s.queueCtx q
  let k := u.recKernel ctx r
  let bad := k.2.recBad ctx r k.1
  let t := k.2.queueTake q false
  let id := t.serial
  let w : State := { t with serial := id + 1 }
  let parsed : Nat → Instr → Prop := fun kind i => s.queueReady q = true → s.queueHead q = (some r, u) → (u.ctx ctx).isSome = true → lrKind r = kind →
    (bad = true → exec i s = .next (k.2.queueTake q true)) ∧
    (bad = false → (∀ z, kind = 0 → k.1 = some z →
        ∃ g : Grid, exec i s = .next ((w.modFe (fun e => { e with grids := kset e.grids id g })).launchOpen q id) ∧ g.ctx = ctx ∧ g.kernel = z ∧
          (g.gx, g.gy, g.gz) = (bitsOf r 144 24 + 1, bitsOf r 168 24 + 1, bitsOf r 192 24 + 1) ∧ g.lanes = bitsOf r 133 11 + 1 ∧
          (g.args, g.spool, g.sigptr, g.sigval) = (lrPtr r 320, lrPtr r 256, lrPtr r 448, lrPtr r 384) ∧ g.prio = bitsOf r 5 3 ∧ g.pooln = bitsOf r 32 16 ∧
          (g.stksz, g.stklo) = (bitsOf r 236 20, bitsOf r 216 20) ∧ g.next = 0 ∧ g.source = q ∧ g.origin = s.queueOrigin q) ∧
      (∀ z, kind = 1 → k.1 = some z →
        ∃ n : Node, exec i s = .next ((w.modFe (fun e => { e with nodes := kset e.nodes (nodeKey ctx (bitsOf r 48 16)) n })).reblock ctx) ∧
          n.state = 1 ∧ n.kernel = z ∧ n.ring = lrPtr r 448 ∧ n.rs = lrRs r ∧ (n.high, n.low) = (bitsOf r 431 17, bitsOf r 414 17) ∧
          (n.down0, n.down1) = (bitsOf r 200 16, bitsOf r 184 16) ∧ n.args = lrPtr r 320 ∧ n.prio = bitsOf r 5 3 ∧ n.times = [] ∧ n.head = 0 ∧ n.batch = 0 ∧ n.origin = s.queueOrigin q) ∧
      (kind = 2 →
        exec i s = .next ((w.modNode ctx (bitsOf r 48 16) (fun n => { n with state := 2, sigptr := lrPtr r 448, sigval := lrPtr r 384, closer := some (q, id), closeOrigin := s.queueOrigin q })).launchOpen q id)))
  let formed : Nat → Nat → Instr → (Node → Prop) → Prop := fun c n i why => ∀ x, s.node c n = some x → x.blocked = false → x.times ≠ [] → why x →
    let per := 32 * x.kernel.groups
    let take := min x.times.length (per * x.kernel.tpc)
    let teams := (take + per - 1) / per
    ∀ areas cores recs z, s.takeAreas (nodePool c n) x.pooln (16 * x.stksz) (teams * x.kernel.groups) = some areas → s.findCores c teams x.kernel.groups x.kernel x.alloc = some cores →
      s.ringRead c x x.head take = (some recs, z) →
      let ts := (List.range teams).map (fun j => (x.team c n (x.batch + j) ((recs.drop (per * j)).take per).length ((areas.drop (x.kernel.groups * j)).take x.kernel.groups), (recs.drop (per * j)).take per))
      let x1 : Node := { x with head := (x.head + take) % 2 ^ x.kernel.cap, times := x.times.drop take, batch := x.batch + teams }
      exec i s = .next (((z.startTeams c cores x.spool x.rs ts).modFe (fun e => { e with nodes := kset e.nodes (nodeKey c n) x1 })).reblock c)
  let whole : Node → Prop := fun x => 32 * x.kernel.groups * x.kernel.tpc ≤ x.times.length ∨ x.state = 2
  parsed 0 (.parseGrid q) ∧ parsed 1 (.parseOpen q) ∧ parsed 2 (.parseClose q) ∧
  (q < 1024 → ∀ (v : State) (b : Bool), let p := (v.queueTake q b).port q
    p.qhead = (v.port q).qhead + 1 ∧ p.bad = (if b then satInc (v.port q).bad 65535 else (v.port q).bad) ∧ p.qerr = (if b then (v.port q).qhead else (v.port q).qerr) ∧ (v.queueTake q b).fe.nextParse = v.pkg.clock + 4) ∧
  ∀ c n, formed c n (.nodeGather c n) whole ∧
    formed c n (.gatherTimerExpiry c n) (fun x => ¬ whole x ∧ x.kernel.timer ≠ 0 ∧ x.times.headD 0 + x.kernel.timer ≤ s.pkg.clock) ∧
    ∀ x, s.node c n = some x → x.state = 2 → x.times = [] →
      (∀ y ∈ s.teams, y.2.ctx = c → y.2.nodeid.toNat ≠ n ∧ ∀ b ∈ y.2.bound, b.node ≠ n) →
      exec (.nodeDrained c n) s = .next ((((s.flushContext c).modFe (fun e => { e with nodes := kdel e.nodes (nodeKey c n) })).reblock c).signalMake
        { ctx := c, ptr := x.sigptr, val := x.sigval, req := none, bad := false, origin := x.closeOrigin, launch := x.closer })

/-- PLACE_TEAM restores the first of a context's save batches that has room, oldest first; with none it places the next teams of the
grid that comes first in R321's order, x fastest (R312), each with its coordinates, areas and lanes. SUCCESSOR_FORM forms a waiting team's
successor from its bound records when areas are free (R324), on the same core, with its allocation, tiles, ACCSTAT and NEXTID. TEAM_RETIRE writes the L1's dirty bytes
back and frees a team whose work is over, or keeps one with bound records for its successor (R89). GRID_COMPLETE ends a grid whose last team has
retired: the context's caches go to their homes, its launch is done, and its signal is made (R312). The candidates stand in order of their keys. -/
def Obligations.TeamEvents : Prop := ∀ (s : State), s.pkg.on = true → ∀ (ctx tid id : Nat),
  (∀ t, (s.batches ctx).findSome? (fun b => s.savedPlace ctx b) = some t → exec (.placeTeam ctx) s = .next t) ∧
  ((s.batches ctx).findSome? (fun b => s.savedPlace ctx b) = none → ∀ c g areas cores, s.candNext ctx = some c → c.node = false → kget s.fe.grids c.id = some g →
    let n := g.kernel.groups
    let k := min g.kernel.tpc (g.gx * g.gy * g.gz - g.next)
    k ≠ 0 → s.takeAreas (gridPool c.id) g.pooln (16 * g.stksz) (k * n) = some areas → s.findCores g.ctx k n g.kernel g.kernel.scratch = some cores →
    let ts := (List.range k).map (fun j => (g.team c.id (g.next + j) ((areas.drop (n * j)).take n), ([] : List (List Byte))))
    exec (.placeTeam ctx) s = .next ((s.startTeams g.ctx cores g.spool 0 ts).modFe (fun e => { e with grids := kset e.grids c.id { g with next := g.next + k } })) ∧
    ∀ i a, let t := g.team c.id i a
      (t.x, t.y, t.z) = (i % g.gx, i / g.gx % g.gy, i / (g.gx * g.gy)) ∧ t.kernel = g.kernel ∧ t.lanes = g.lanes ∧ t.argptr = g.args ∧ t.areas = a ∧ t.stackLo = 16 * g.stklo) ∧
  (s.cands ctx).Pairwise (fun c d => c.key < d.key ∨ (c.key = d.key ∧ c.order ≤ d.order)) ∧
  (∀ t b rest x areas, s.team tid = some t → t.bound = b :: rest → s.node t.ctx b.node = some x → t.successor = true → t.saving = false → (s.core t.core).owner = t.ctx →
    (s.core t.core).changing = none → let g := x.kernel.groups
    (s.onCore t.core).length + g ≤ 64 → (s.onCore t.core).foldl (fun a y => a + y.2.vregs) 0 + g * x.kernel.vregs ≤ 8192 →
    s.takeAreas (nodePool t.ctx b.node) x.pooln (16 * x.stksz) g = some areas →
    let y : Team := { x.team t.ctx b.node x.batch t.bound.length areas with
      cluster := s.serial, allocOff := t.allocOff, allocSize := t.allocSize, tiles := t.tiles, accstat := t.accstat, nextId := t.nextId }
    let u : State := ({ s with serial := s.serial + 1 } : State).newCluster t.ctx (coreCcl t.core) s.serial [(0, tid)] g
    exec (.successorForm tid) s = .next (((u.startTeam tid t.core y x.spool x.rs (t.bound.map (fun b => b.bytes)) true).dropEmpty tid).modNode t.ctx b.node (fun z => { z with batch := z.batch + 1 }))) ∧
  (s.teamOver tid = true → let t := s.teamD tid
    (t.bound = [] → exec (.teamRetire tid) s = .next ((s.writeBackL1 t.core).freeTeam tid)) ∧
    (t.bound ≠ [] → exec (.teamRetire tid) s = .next (((s.writeBackL1 t.core).leaveCluster tid).modTeam tid (fun t =>
      { t with resident := false, successor := true, grid := 0, nodeid := 0xFFFFFFFF#32 })))) ∧
  ∀ g, kget s.fe.grids id = some g → g.gx * g.gy * g.gz ≤ g.next → (∀ t ∈ s.teams, t.2.grid ≠ id) →
    exec (.gridComplete id) s = .next ((((s.flushContext g.ctx).modFe (fun e => { e with grids := kdel e.grids id })).launchDone g.source id).signalMake
      { ctx := g.ctx, ptr := g.sigptr, val := g.sigval, req := none, bad := false, origin := g.origin, launch := none })

/-- A tail write merges by serial-number comparison, and a RUNNING port whose tail is more than its ring ahead of its head goes to
HALTED (R314); EN := 1 takes a DISABLED port to RUNNING with the same check, EN := 0 takes a port to DISABLED, and a RESETTING port ignores all three
(R315). QRESET puts a port into RESETTING and discards its work (R329), with no effect on a RESETTING port; when what the work wrote is at its
home the port is DISABLED with QHEAD, QTAIL, EN and BAD zero. No other port and no byte of memory changes with a tail write, an enable or a disable. -/
def Obligations.QueuePortEvents : Prop := ∀ (s : State) (p : Nat) (v : Word), s.pkg.on = true →
  let x := s.port p
  let makes : Instr → QPort → Prop := fun i y => ∃ t, exec i s = .next t ∧ t.port p = y ∧ (∀ q, q ≠ p → t.port q = s.port q) ∧ t.groups = s.groups ∧ t.teams = s.teams ∧ ∀ a, t.byte a = s.byte a
  let step := (v - x.qtail).toNat
  let tail := if 1 ≤ step ∧ step ≤ 2 ^ 31 - 1 then v else x.qtail
  makes (.qtailWrite p v) (if x.state = 3 then x else
    { x with qtail := tail, state := if x.state = 1 ∧ 2 ^ x.sizel < (tail - x.qhead).toNat then 2 else x.state }) ∧
  makes (.portEnable p) (if x.state = 0 then { x with en := true, state := if 2 ^ x.sizel < (x.qtail - x.qhead).toNat then 2 else 1 } else x) ∧
  makes (.portDisable p) (if x.state = 3 then x else { x with en := false, state := 0 }) ∧
  (x.state = 3 → exec (.qreset p) s = .next s) ∧
  (x.state ≠ 3 → exec (.qreset p) s = .next ((s.modPort p (fun x => { x with state := 3 })).discardWork x.ctx (fun o => decide (o = p)))) ∧
  (x.state = 3 → exec (.queueResetComplete p) s = .next ((s.flushContext x.ctx).modPort p (fun y => { y with state := 0, qhead := 0, qtail := 0, en := false, bad := 0, openLaunches := [] }))) ∧
  (x.state ≠ 3 → exec (.queueResetComplete p) s = .next s)

/-- RDSYS returns the register, or the pair, 6 clk after issue, RSIG once no register is pending (R331, R396), and WRSYS writes it (R331), in the
states where they are legal; SYSCALL waits for the pending registers, releases .PKG, and sends its request, its group held and the next word a region
entry (R345), or on supervisor and service cores returns all ones; TRET gives its status: 9 for no such ticket, 4 for a verdict above 2, the
ticket staying, else 0 with the ticket freed and the verdict carried out (R346). Sample registers' values and writes are as R333 and R334 map them. -/
def Obligations.SystemWords : Prop := ∀ (h : Hdr) (d a b c : Opnd) (w64 : Bool) (n : Fin 1024) (s : State) (g : Group) (pc : Pc),
  let E : Instr → Group := fun i => g.entered (info i)
  let S : Instr → State := fun i => s.entered (info i) g
  let X : Instr → List Nat := fun i => (E i).exLanes (info i) g.active
  let ready : Instr → Prop := fun i => Ready (info i) (ownKeys (info i)) s g pc ∧ X i ≠ []
  let rd := Instr.rdsys h d w64 n
  let wr := Instr.wrsys h a w64 n
  let sy := Instr.syscall h d a b
  let tr := Instr.tret h d a b c
  let v := s.sysValue s.focus (E rd) n.val
  let args := (List.range 4).map (fun j => (E sy).rdj 0 j b)
  let callNo := ((E sy).rd 0 a).toNat % 65536
  let call : Request :=
    { die := coreDie g.core, ticket := none, type := 3, orig := .group s.focus, ctx := g.ctx, args := args,
      epc := (E sy).epc, rgncnt := (E sy).rgncnt, gh := ghOf s.focus, call := callNo, kind := kindTrap, mal := false, level := 0, lanes := [] }
  let after := (S sy).modGrp s.focus (fun _ => (E sy).afterRelease pc)
  let ans := (S tr).tret (coreDie g.core) ((E tr).rd 0 a) ((E tr).rd64 0 b) ((E tr).rd 0 c).toNat
  (ready rd → (n.val = 0x036 → g.pends = []) →
    Awaits rd s g pc (if w64 then dstCells64 d (X rd) (fun _ => v) else dstCells d 0 (X rd) (fun _ => lo32 v)) (fun t => t = s.pkg.clock + 6)) ∧
  (ready wr → ¬ ((E wr).isSup = true ∧ sysVoid n.val = true) → ∀ r half, sysOf n.val = some (r, half) →
    Performs wr s g pc ((S wr).sysWrite s.focus (E wr) r ((E wr).rd64 0 a)) []) ∧
  (ready wr → (E wr).isSup = true → sysVoid n.val = true → Completes wr s g pc []) ∧
  (ready sy → (E sy).isSup = true → Awaits sy s g pc (dstCells64 d (X sy) (fun _ => 0xFFFFFFFFFFFFFFFF#64)) (fun t => t = s.pkg.clock + 1)) ∧
  (ready sy → (E sy).isSup = false → g.pends = [] →
    ((∀ f ∈ g.fences, ¬ (f.barrier = true ∧ f.pc = pc)) → exec sy s = .next ((relFence s.focus pc 0 s).modGrp s.focus (fun k =>
      { k with retryAt := s.pkg.clock + 1, retryCause := .fence, waitPc := pc }))) ∧
    (g.released pc → Performs sy s g pc ((((after.request call).2).modGrp s.focus (fun k =>
      { k with wait := .syscall (opndNum d), waitPc := pc, waitMask := g.active, wakeAt := none, touches := [] })).modGrp s.focus (fun k => { k with regionNext := k.inRegion })) [])) ∧
  (ready sy → (E sy).isSup = false → ∀ p rest, g.pends = p :: rest → exec sy s = .next (s.modGrp s.focus (fun k =>
    { k with retryAt := s.pkg.clock + 1, retryCause := depCause p.op, waitPc := p.pc }))) ∧
  (ready tr → ∃ m, AwaitsIn tr s g pc { ans.2 with free := m } (dstCells d 0 (X tr) (fun _ => BitVec.ofNat 32 ans.1)) (fun t => ans.2.pkg.clock < t)) ∧
  (∀ die ticket value vd, let q := s.tret die ticket value vd
    ((∀ r ∈ s.reqs, ¬ (r.2.die = die ∧ r.2.ticket = some ticket.toNat)) → q = (9, s)) ∧
    (∀ id r, s.reqs.find? (fun r => decide (r.2.die = die) && decide (r.2.ticket = some ticket.toNat)) = some (id, r) →
      (2 < vd → q = (4, s)) ∧ (vd < 2 → let s1 : State := { s with reqs := kdel s.reqs id }
        q = (0, s1.verdict r (decide (vd = 0)) value)))) ∧
  (g.isSup = false → ∀ gid, let x := fun k => s.sysValue gid g k
    let T := s.teamD g.tid
    let C := s.ctxD g.ctx
    x 0x001 = BitVec.ofNat 64 g.index ∧ x 0x002 = BitVec.ofNat 64 T.kernel.groups ∧ x 0x003 = BitVec.ofNat 64 T.x ∧ x 0x006 = BitVec.ofNat 64 T.gridx ∧
    x 0x009 = BitVec.ofNat 64 T.rank ∧ x 0x00A = C.ctxstat.setWidth 64 ∧ x 0x00B = g.rgncnt.setWidth 64 ∧ x 0x00C = g.retcnt.setWidth 64 ∧ x 0x00D = g.stklim.setWidth 64 ∧
    x 0x00E = g.hndpc.setWidth 64 ∧ x 0x00F = g.trapcause.setWidth 64 ∧ x 0x010 = g.trapva ∧ x 0x011 = (hi32 g.trapva).setWidth 64 ∧ x 0x012 = BitVec.ofNat 64 g.ctx ∧
    x 0x014 = BitVec.ofNat 64 (s.time % 2 ^ 32) ∧ x 0x015 = BitVec.ofNat 64 (s.time / 2 ^ 32) ∧ x 0x016 = T.recbase.setWidth 64 ∧ x 0x017 = T.nodeid.setWidth 64 ∧
    x 0x01A = g.lbase ∧ x 0x01C = T.argptr ∧ x 0x020 = C.ptroot ∧ x 0x022 = C.btbase ∧ x 0x024 = C.tcfg.setWidth 64 ∧ x 0x025 = g.mxstat.setWidth 64 ∧
    x 0x028 = C.illpc ∧ x 0x02A = C.frbase ∧ x 0x02C = C.frctl.setWidth 64 ∧ x 0x032 = C.slice.setWidth 64 ∧ x 0x036 = g.rsig.setWidth 64) ∧
  ∀ (gid : Nat) (z : DWord), s.sysWrite gid g .hndpc z = s.modGrp gid (fun k => { k with hndpc := lo32 z }) ∧
    s.sysWrite gid g .schk z = s.modGrp gid (fun k => { k with schk := z.getLsbD 0 }) ∧
    s.sysWrite gid g .mxstat z = s.modGrp gid (fun k => { k with mxstat := k.mxstat &&& ~~~(lo32 z &&& 3) }) ∧
    s.sysWrite gid g .ctxstat z = s.modCtx g.ctx (fun k => { k with ctxstat := k.ctxstat &&& ~~~(lo32 z &&& 0x1C) }) ∧
    s.sysWrite gid g .frhead z = s.modCtx g.ctx (fun k => { k with frhead := lo32 z }) ∧ s.sysWrite gid g .slice z = s.modCtx g.ctx (fun k => { k with slice := lo32 z &&& 0xFFFFF })

/-- CTXLOAD reads the 128 bytes of its control block as a load and makes a context resident from them, or gives NOCTX, EXISTS or
FORMAT (R347 to R349). CTXSAVE with B = 0 begins to take every core the context owns, with B = 1 discards all of the context's work and ends its
residency, and gives NOCTX, or FORMAT for another B. PREEMPT.SPATIAL takes N cores in descending order, whole clusters first where R328 rounds N;
.HALT and .RESUME set and clear HALTED, .STOP halts and goes on with the group named; .RDREG and .WRREG read and write one register of a
group of a halted context (R352, R355, R356). A result no rule states is free (log 12), as is the clk a status comes at (log 6). EVICT,
DESTROY and SPATIAL are stated where nothing of a team stands in the supervisor group's place. -/
def Obligations.ContextWords : Prop := ∀ (h : Hdr) (d a b : Opnd) (s : State) (g : Group) (pc : Pc),
  let E : Instr → Group := fun i => g.entered (info i)
  let S : Instr → State := fun i => s.entered (info i) g
  let X : Instr → List Nat := fun i => (E i).exLanes (info i) g.active
  let ready : Instr → Prop := fun i => Ready (info i) (ownKeys (info i)) s g pc ∧ X i ≠ []
  let status : Instr → State → Nat → Prop := fun i x st => ∃ m,
    AwaitsIn i s g pc { x with free := m } (dstCells d 0 (X i) (fun _ => BitVec.ofNat 32 st)) (fun t => x.pkg.clock < t)
  let result : Instr → State → Nat → Option DWord → Prop := fun i x st v => ∃ m y, (∀ z, v = some z → y = z) ∧
    AwaitsIn i s g pc { x with free := m } (dstCellsN d 4 (X i) (fun j _ => [BitVec.ofNat 32 st, 0, lo32 y, hi32 y].getD j 0)) (fun t => x.pkg.clock < t)
  let goesOn : Instr → State → Nat → Nat → Nat → DWord → List Nat → Prop := fun i x kind c n v mask =>
    LeavesIn i s g pc x [] (fun e z => z.supEnter ⟨s.focus, e.id, kind, c, n, v, mask, [], 0⟩)
  let ld := Instr.ctxload h d a b
  let ev := Instr.ctxsaveEvict h d a b
  let de := Instr.ctxsaveDestroy h d a
  let sp := Instr.preemptSpatial h d a
  let ha := Instr.preemptHalt h d a
  let st := Instr.preemptStop h d a
  let re := Instr.preemptResume h d a
  let rr := Instr.preemptRdreg h d a
  let wr := Instr.preemptWrreg h d a
  let n : Instr → Nat := fun i => ((E i).rd 0 a).toNat
  let q : Instr → Nat → Word := fun i j => (E i).rdj 0 j a
  let lives : Nat → Prop := fun c => 1 ≤ c ∧ c ≤ 256 ∧ (s.ctx c).isSome = true
  (ready ld →
    (n ld = 0 ∨ 256 < n ld → status ld (S ld) 2) ∧ (lives (n ld) → status ld (S ld) 3) ∧
    (1 ≤ n ld → n ld ≤ 256 → s.ctx (n ld) = none → ∀ p e z f t, (S ld).reachG (E ld).who 0 ((E ld).rd64 0 b) 128 false false needR kindLoad = (.glob p e z f, t) → t.bad f 128 = false →
      let c := t.num f 128
      (bitsOf c 763 5 ≤ 16 ∧ 6 ≤ bitsOf c 731 5 ∧ bitsOf c 731 5 ≤ 16 → status ld (t.ctxLoad (n ld) f c) 0) ∧
      (16 < bitsOf c 763 5 ∨ bitsOf c 731 5 < 6 ∨ 16 < bitsOf c 731 5 → status ld t 4))) ∧
  (ready ev → ((E ev).rd 0 b ≠ 0 → status ev (S ev) 4) ∧ ((E ev).rd 0 b = 0 → ¬ lives (n ev) → status ev (S ev) 2) ∧
    ((E ev).rd 0 b = 0 → lives (n ev) → Apart s.focus (S ev) → goesOn ev ((S ev).evict (n ev)) 0 (n ev) 0 0 (s.owned (n ev)))) ∧
  (ready de → (¬ lives (n de) → status de (S de) 2) ∧ (lives (n de) → Apart s.focus (S de) → status de ((S de).destroy (n de)) 0)) ∧
  (ready sp → let c := (q sp 0).toNat
    let cs := s.takenCores c (q sp 1).toNat
    (¬ lives c → result sp (S sp) 2 none) ∧ (lives c → Apart s.focus (S sp) → goesOn sp ((S sp).take c cs) 2 c cs.length 0 cs)) ∧
  (ready ha → let c := (q ha 0).toNat
    (¬ lives c → result ha (S ha) 2 none) ∧ (lives c → result ha ((S ha).modCtx c (fun k => { k with ctxstat := k.ctxstat ||| 0x20 })) 0 none)) ∧
  (ready st → let c := (q st 0).toNat
    (¬ lives c → result st (S st) 2 none) ∧ (lives c → goesOn st ((S st).modCtx c (fun k => { k with ctxstat := k.ctxstat ||| 0x20 })) 3 c ((q st 1).toNat % 65536)
      (pair64 (q st 2) (q st 3)) [])) ∧
  (ready re → let c := (q re 0).toNat
    (¬ lives c → result re (S re) 2 none) ∧ (lives c → (s.ctxD c).ctxstat.getLsbD 7 = true → result re (S re) 4 none) ∧
    (lives c → (s.ctxD c).ctxstat.getLsbD 7 = false → result re ((S re).modCtx c (fun k => { k with ctxstat := k.ctxstat &&& 0xFFFFFFDF })) 0 none)) ∧
  (ready rr → let r := (S rr).regRead (q rr 0).toNat (q rr 1 >>> 16).toNat (q rr 1).toNat
    result rr (S rr) r.1 r.2) ∧
  (ready wr → g.ctx = 0 → let r := (S wr).regWrite (q wr 0).toNat (q wr 1 >>> 16).toNat (q wr 1).toNat (pair64 (q wr 2) (q wr 3))
    result wr r.2 r.1 none) ∧
  (∀ c hd x v, (¬ lives c → s.regRead c hd x = (2, none) ∧ s.regWrite c hd x v = (2, s)) ∧
    (lives c → (s.ctxD c).ctxstat.getLsbD 5 = false → s.regRead c hd x = (6, none) ∧ s.regWrite c hd x v = (6, s)) ∧
    (lives c → (s.ctxD c).ctxstat.getLsbD 5 = true →
      (gidOfHandle hd = none → s.regRead c hd x = (7, none) ∧ s.regWrite c hd x v = (7, s)) ∧
      ∀ gid, gidOfHandle hd = some gid → (s.grp gid = none → s.regRead c hd x = (7, none) ∧ s.regWrite c hd x v = (7, s)) ∧
        ∀ k, s.grp gid = some k → k.ctx = c →
          ((x / 16384 % 4) = 0 ∧ k.vregs ≤ (x % 512) ∨ (x / 16384 % 4) = 1 ∧ k.sregs ≤ (x % 512) ∨ (x / 16384 % 4) = 2 ∧ 16 ≤ (x % 512) → s.regRead c hd x = (4, none) ∧ s.regWrite c hd x v = (4, s)) ∧
          ((x / 16384 % 4) = 3 → s.regRead c hd x = (0, some (BitVec.ofNat 64 ((k.vpcOf (x / 512 % 32)).toNat * 8))) ∧ (k.vpcOf (x / 512 % 32) = exitPc → s.regWrite c hd x v = (4, s)) ∧
            (k.vpcOf (x / 512 % 32) ≠ exitPc → s.regWrite c hd x v = (0, s.modGrp gid (fun k => { k with vpc := setNth k.vpc (x / 512 % 32) (pcOfAddr (v &&& 0x00FFFFFFFFFFFFFF)) })))) ∧
          ∀ r l, ((x / 16384 % 4) = 0 ∧ (x % 512) < k.vregs ∧ r = vReg (x % 512) ∧ l = x / 512 % 32) ∨ ((x / 16384 % 4) = 1 ∧ (x % 512) < k.sregs ∧ r = sReg (x % 512) ∧ l = 0) ∨
              ((x / 16384 % 4) = 2 ∧ (x % 512) < 8 ∧ r = 640 + (x % 512) ∧ l = x / 512 % 32) ∨ ((x / 16384 % 4) = 2 ∧ 8 ≤ (x % 512) ∧ (x % 512) < 16 ∧ r = 640 + (x % 512) ∧ l = 0) →
            ((∃ p ∈ k.pends, r ∈ p.regs) → s.regRead c hd x = (1, none) ∧ s.regWrite c hd x v = (1, s)) ∧
            ((∀ p ∈ k.pends, r ∉ p.regs) → (r = 647 ∨ r = 655 → s.regRead c hd x = (0, some 1) ∧ s.regWrite c hd x v = (0, s)) ∧
              (r ≠ 647 → r ≠ 655 → s.regRead c hd x = (0, some ((k.cell r l).setWidth 64)) ∧
                s.regWrite c hd x v = (0, s.modGrp gid (fun k => k.putCells [(cellKey r l, if r < 640 then lo32 v else lo32 v &&& 1)])))))) ∧
  (∀ c m, let mine := ((s.owned c).filter (fun k => (s.core k).changing.isNone)).reverse
    (s.wholeClusters c = false → s.takenCores c m = mine.take m) ∧
    (s.wholeClusters c = true → ∃ whole rest : List Nat, s.takenCores c m = (whole ++ rest).take (roundUp m 4) ∧ (whole ++ rest).Perm mine ∧
      ∀ k, k ∈ whole ↔ k ∈ mine ∧ ∀ j ∈ cclCores (coreCcl k), j ∈ mine)) ∧
  ∀ (t : State) (f c j : Nat), (∃ m, (t.ctxLoad j f c).ctx j = some { ctxOfCcb f c with tdmask := m }) ∧ (t.destroy j).ctx j = none ∧
    let k := ctxOfCcb f c
    k.ccb = f ∧ k.ptroot = BitVec.ofNat 64 (bitsOf c 64 64) &&& 0x000FFFFFFFFFE000 ∧ k.btbase = BitVec.ofNat 64 (bitsOf c 128 64) &&& 0x000FFFFFFFFFF000 ∧
    k.frtail = BitVec.ofNat 32 (bitsOf c 192 32) ∧ k.frhead = BitVec.ofNat 32 (bitsOf c 224 32) ∧ k.frbase = BitVec.ofNat 64 (bitsOf c 320 64) ∧
    k.hsbase = BitVec.ofNat 64 (bitsOf c 384 64) ∧ k.savebase = BitVec.ofNat 64 (bitsOf c 512 64) ∧ k.dmpbase = BitVec.ofNat 64 (bitsOf c 576 64) ∧
    k.slotsl = bitsOf c 763 5 ∧ k.slotsz = bitsOf c 768 16 ∧ k.dmpsz = bitsOf c 784 16 ∧ k.wquota = bitsOf c 809 13 ∧ k.dscrsz = bitsOf c 822 10

/-- DUMP queues a dump of a resident context on a C-die, or gives FORMAT, NOCTX or QFULL (R353); the die's engine starts its oldest
dump, and when it is done the dump's header, primary and secondary records stand in the die's part, DUMPED is set and a TYPE 6 record is
sent (R353, R354). SLICE_END begins the change of owner of a core whose turn is over, and of its whole cluster when a team ties it
(R20, R350); TEAM_SAVE saves every team that must be saved with one that has stopped, or none where a slot or room lacks (R351), a save
writing the core's stores back (log 65); OWNER_CHANGE
passes an empty core to the next owner with its caches, stores and counters emptied (R22); a core set write sets 64 bits, lets the claims on those cores
stand again, and ends the ownership of the cores it takes out (R422). -/
def Obligations.TurnEvents : Prop := ∀ (h : Hdr) (d a : Opnd) (s : State) (g : Group) (pc : Pc),
  let E : Instr → Group := fun i => g.entered (info i)
  let S : Instr → State := fun i => s.entered (info i) g
  let X : Instr → List Nat := fun i => (E i).exLanes (info i) g.active
  let ready : Instr → Prop := fun i => Ready (info i) (ownKeys (info i)) s g pc ∧ X i ≠ []
  let status : Instr → State → Nat → Prop := fun i x st => ∃ m,
    AwaitsIn i s g pc { x with free := m } (dstCells d 0 (X i) (fun _ => BitVec.ofNat 32 st)) (fun t => x.pkg.clock < t)
  let du := Instr.dump h d a
  let n := ((E du).rd 0 a).toNat
  let die := coreDie g.core
  let lives : Nat → Prop := fun c => 1 ≤ c ∧ c ≤ 256 ∧ (s.ctx c).isSome = true
  (ready du → (8 ≤ die → status du (S du) 4) ∧ (die < 8 → ¬ lives n → status du (S du) 2) ∧
    (die < 8 → lives n → 8 ≤ (s.die die).dumps.length → status du (S du) 8) ∧
    (die < 8 → lives n → (s.die die).dumps.length < 8 → status du ((S du).modDie die (fun x =>
      { x with dumps := x.dumps ++ [{ ctx := n, reason := 0, primary := 0, second := [], extra := 0, running := false, start := 0, due := 0 }] })) 0)) ∧
  (s.pkg.on = true → ∀ (k core tid : Nat) (x : Dump) (rest : List Dump), (s.die k).dumps = x :: rest →
    (x.running = false → exec (.dumpRun k) s = .next (State.modDie { s with free := s.free + 1 } k (fun y =>
      { y with dumps := { x with running := true, start := s.time, due := s.pkg.clock + 1 + Config.freeTime s.free } :: y.dumps.drop 1 }))) ∧
    (x.running = true → x.due ≤ s.pkg.clock → ∃ t : State, exec (.dumpDone k) s = .next (((t.modDie k (fun y => { y with dumps := y.dumps.drop 1 })).modCtx x.ctx
        (fun y => { y with ctxstat := y.ctxstat ||| 0x40 })).dieRecord k (dieRec t.time [BitVec.ofNat 32 x.ctx] 0 0 0 0 x.ctx 0 0 false 0 6)) ∧
      let c := s.ctxD x.ctx
      let part := flatPa 0 (c.dmpbase.toNat % 2 ^ 52 + 65536 * c.dmpsz * k)
      (c.dmpsz = 0 → t = s) ∧ (c.dmpsz ≠ 0 → x.second.length ≤ 15 → t.bytes (part + 64) 64 = toBytes 64 x.primary ∧
        (∀ j v, x.second[j]? = some v → t.bytes (part + 128 + 64 * j) 64 = toBytes 64 v) ∧
        ∃ (teams : Nat) (cut : Bool), t.bytes part 64 = toBytes 64 (x.start % 2 ^ 64 * 2 ^ 448 + x.second.length * 2 ^ 416 + x.extra % 2 ^ 32 * 2 ^ 384 + teams % 2 ^ 32 * 2 ^ 352 +
          x.reason % 2 ^ 8 * 2 ^ 312 + (if cut then 2 ^ 9 else 0) + x.ctx % 2 ^ 9)))) ∧
  (s.pkg.on = true → ∀ core tid ctx w : Nat, ∀ v : DWord,
    (s.sliceDue core = true → exec (.sliceEnd core) s = .next ((if s.tied core then cclCores (coreCcl core) else [core]).foldl (fun s c => s.beginChange c) s)) ∧
    (∀ k, (s.core k).changing = none → ((s.beginChange k).core k).changing = some (s.nextOwner k) ∧ ((s.beginChange k).core k).owner = (s.core k).owner ∧
      ((s.beginChange k).core k).counters = (s.core k).settled s.pkg.clock ∧ ∀ j, j ≠ k → (s.beginChange k).core j = s.core j) ∧
    (let ts := (s.savedWith tid).filter (fun t => (s.teamD t).resident)
      let c := (s.teamD tid).ctx
      let used := (s.teams.filter (fun t => decide (t.2.ctx = c) && t.2.slot.isSome)).length
      let room := (∀ t ∈ ts, s.imageSize t ≤ (s.ctxD (s.teamD t).ctx).slotsz * 65536) ∧ used + ts.length ≤ 2 ^ (s.ctxD c).slotsl
      (∀ t ∈ ts, (s.teamD t).saving = true ∧ s.saveReady t = true) →
        (room → exec (.teamSave tid) s = .next (ts.foldl (fun x t => ((x.keepSeq t).takeTeam t ((x.saveSlot c).getD 0)).modTeam t (fun y => { y with saveNo := s.serial }))
          { s with serial := s.serial + 1 })) ∧
        (¬ room → exec (.teamSave tid) s = .next (s.saveFails ts))) ∧
    (s.coreEmpty core = true → ∀ next, (s.core core).changing = some next → exec (.ownerChange core) s = .next (s.passCore core (if (s.ctx next).isSome then next else 0))) ∧
    (s.coreEmpty core = true → (s.core core).changing = none → s.nextOwner core ≠ 0 → s.wants (s.core core).owner core = false →
      exec (.ownerChange core) s = .next (((s.settleCore core).modCore core (fun c => { c with changing := some (s.nextOwner core) })).passCore core (s.nextOwner core))) ∧
    (∀ next, let k := (s.passCore core next).core core
      k.owner = next ∧ k.changing = none ∧ k.l1 = [] ∧ k.icache = [] ∧ k.accTeam = 0 ∧ k.turnStart = s.pkg.clock ∧ k.turnFirst = none) ∧
    exec (.csetWrite ctx w v) s = .next (s.csetWrite ctx w v) ∧
    ((ctx = 0 ∨ 256 < ctx ∨ 3 < w ∨ s.ctx ctx = none) → s.csetWrite ctx w v = s) ∧
    (lives ctx → w ≤ 3 → (∀ k, ((s.csetWrite ctx w v).feCtx ctx).cset.testBit k =
        (if 64 * w ≤ k ∧ k < 64 * w + 64 then decide (k < 224) && v.getLsbD (k - 64 * w) else (s.feCtx ctx).cset.testBit k)) ∧
      ∀ k, 64 * w ≤ k → k < 64 * w + 64 → k < 224 →
        ctx ∉ ((s.csetWrite ctx w v).core k).withheld ∧
        ((s.feCtx ctx).cset.testBit k = true → v.getLsbD (k - 64 * w) = false → (s.core k).owner = ctx →
          ((s.csetWrite ctx w v).core k).changing.isSome = true)))

/-- MSGSEND waits for its group's previous one, gives FORMAT for a bad target, or takes the sequencer's next number (with .MC) and goes on
with its header and payload; a target that is not UP counts as dead, another takes the message at the end of its queue when it has room (R360 to
R363). MSGRECV takes the oldest message, or waits, or with .NB gives zeros (R362). INVAPPLY releases at .PKG and posts to its targets as a
multicast (R365); TLBINV applies its entry on the issuing die (R368); ZEROPG gives a frame to a die's Groomer (R369). SHOOTDOWN_APPLY passes a
lazy entry and holds it, begins another with steps 1 to 3 of R366 and passes it when step 4 can be completed; LAZY_APPLY applies the
held entries whose trigger has come (R367). Step 1 leaves no entry of the range in a cluster TLB but those pinned, step 4 none. -/
def Obligations.DieWords : Prop := ∀ (h : Hdr) (d a b : Opnd) (mc nb : Bool) (qn : Fin 3) (s : State) (g : Group) (pc : Pc),
  let E : Instr → Group := fun i => g.entered (info i)
  let S : Instr → State := fun i => s.entered (info i) g
  let X : Instr → List Nat := fun i => (E i).exLanes (info i) g.active
  let ready : Instr → Prop := fun i => Ready (info i) (ownKeys (info i)) s g pc ∧ X i ≠ []
  let die := coreDie g.core
  let status : Instr → State → Nat → Prop := fun i x st => ∃ m,
    AwaitsIn i s g pc { x with free := m } (dstCells d 0 (X i) (fun _ => BitVec.ofNat 32 st)) (fun t => x.pkg.clock < t)
  let status2 : Instr → State → Nat → Prop := fun i x st => ∃ m,
    AwaitsIn i s g pc { x with free := m } (dstCellsN d 2 (X i) (fun j _ => if j = 0 then BitVec.ofNat 32 st else 0)) (fun t => x.pkg.clock < t)
  let takes : Instr → State → (Nat → Word) → Prop := fun i x v => ∃ m,
    AwaitsIn i s g pc { x with free := m } (dstCellsN d 16 (X i) (fun j _ => v j)) (fun t => x.pkg.clock < t)
  let goesOn : Instr → State → Nat → Nat → Nat → DWord → List Nat → List Word → Prop := fun i x kind c n v mask msg =>
    LeavesIn i s g pc x [] (fun e z => z.supEnter ⟨s.focus, e.id, kind, c, n, v, mask, msg, 0⟩)
  let held : Instr → SlotCause → (State → State) → Prop := fun i c fx =>
    exec i s = .next ((fx s).modGrp s.focus (fun k => { k with retryAt := s.pkg.clock + 1, retryCause := c, waitPc := pc }))
  let ms := Instr.msgsend h d a b mc qn
  let mr := Instr.msgrecv h d a nb
  let iv := Instr.invapply h d a
  let ti := Instr.tlbinv h d a
  let zp := Instr.zeropg h d a b
  let n : Instr → Nat := fun i => ((E i).rd 0 a).toNat
  let dies : Nat → List Nat := fun m => (List.range 21).filter (fun k => m.testBit k)
  let seq := s.pkg.seqNo
  (ready ms → ((∃ o ∈ s.supOps, o.2.gid = s.focus ∧ o.2.kind = 4) → held ms .depEngine id) ∧
    ((∀ o ∈ s.supOps, ¬ (o.2.gid = s.focus ∧ o.2.kind = 4)) →
      (mc = false → 20 < n ms → status2 ms (S ms) 4) ∧ (mc = true → n ms = 0 ∨ 2 ^ 21 ≤ n ms → status2 ms (S ms) 4) ∧
      let hdr : Nat → DWord := fun k => BitVec.ofNat 64 (2 ^ 63 + (if mc then 2 ^ 62 else 0) + qn.val * 2 ^ 60 + die % 32 * 2 ^ 55 + k)
      let words := (List.range 14).map (fun j => (E ms).rdj 0 (j + 2) b)
      (mc = false → n ms ≤ 20 → goesOn ms (S ms) 4 qn.val 0 (hdr 0) [n ms] words) ∧
      (mc = true → n ms ≠ 0 → n ms < 2 ^ 21 → goesOn ms ((S ms).modPkg (fun p => { p with seqNo := seq + 1 })) 4 qn.val (seq + 1) (hdr (seq % 2 ^ 32)) (dies (n ms)) words))) ∧
  (∀ id o k, kget s.supOps id = some o → o.kind = 4 → let rest := fun x : Nat => kmod s.supOps id (fun p => { p with mask := p.mask.filter (fun y => decide (y ≠ k)), phase := p.phase + x })
    ((s.die k).st ≠ .up → s.sendTo id o k = { s with supOps := rest (2 ^ k) }) ∧
    ((s.die k).st = .up → s.mcBlocked o k = true → s.sendTo id o k = s) ∧
    ((s.die k).st = .up → s.mcBlocked o k = false → let q := (kget (s.die k).queues o.ctx).getD []
      (64 ≤ q.length → s.sendTo id o k = s) ∧
      (q.length < 64 → s.sendTo id o k = State.modDie { s with supOps := rest 0 } k (fun x => { x with queues := kset x.queues o.ctx (q ++ [⟨o.x, o.msg⟩]) })))) ∧
  (ready mr → let q := n mr % 4
    (q = 3 → ∃ v, v 0 = 4 ∧ takes mr (S mr) v) ∧
    (q < 3 → ∀ m t, (kget (s.die die).queues q).getD [] = m :: t → takes mr ((S mr).modDie die (fun x => { x with queues := kset x.queues q t }))
      (fun j => if j = 0 then lo32 m.hdr else if j = 1 then hi32 m.hdr else m.payload.getD (j - 2) 0)) ∧
    (q < 3 → (kget (s.die die).queues q).getD [] = [] → (nb = true → takes mr (S mr) (fun _ => 0)) ∧ (nb = false → held mr .depEngine id))) ∧
  (ready iv → let m := ((E iv).rdj 0 0 a).toNat
    (m = 0 ∨ 2 ^ 21 ≤ m ∨ m / 2 ^ 8 % 2 ^ 12 ≠ 0 → status2 iv (S iv) 4) ∧
    (m ≠ 0 → m < 2 ^ 21 → m / 2 ^ 8 % 2 ^ 12 = 0 → ((∀ f ∈ g.fences, ¬ (f.barrier = true ∧ f.pc = pc)) → held iv .fence (relFence s.focus pc 0)) ∧
      (g.released pc → LeavesIn iv s g pc ((S iv).modGrp s.focus (fun _ => (E iv).afterRelease pc)) [] (fun e z =>
        let posts := (List.range 11).map (fun j => (E iv).rdj 0 (j + 1) a)
        State.modPkg { z with
          serial := z.serial + 1, supOps := kset z.supOps z.serial ⟨s.focus, e.id, 6, 3, z.pkg.seqNo + 1, 0, dies m, posts, 0⟩,
          shoots := kset z.shoots z.serial ⟨s.focus, e.id, dies m, []⟩ } (fun p => { p with seqNo := p.seqNo + 1 }))))) ∧
  (ready ti → let v := (List.range 8).foldl (fun x j => x + ((E ti).rdj 0 j a).toNat * 2 ^ (32 * j)) 0
    ((8 ≤ die ∧ die < 20) ∨ v / 2 ^ 238 % 4 = 3 → status2 ti (S ti) 4) ∧
    ((die < 8 ∨ 20 ≤ die) → v / 2 ^ 238 % 4 ≠ 3 → goesOn ti ((S ti).applyEntry die v false) 5 die 0 0 [] ((List.range 8).map (fun j => (E ti).rdj 0 j a)))) ∧
  (ready zp → let x := ((E zp).rd 0 b).toNat
    let pa := ((E zp).rd64 0 a).toNat
    let sz := x / 16 % 4
    let len := if sz = 0 then 2 ^ 16 else if sz = 1 then 2 ^ 26 else 2 ^ 36
    (11 < x % 16 ∨ sz = 3 ∨ pa % len ≠ 0 ∨ 2 ^ 52 ≤ pa → status zp (S zp) 4) ∧
    (x % 16 ≤ 11 → sz ≠ 3 → pa % len = 0 → pa < 2 ^ 52 → let k := 8 + x % 16
      ((s.die k).st ≠ .up → status zp (S zp) 10) ∧ ((s.die k).st = .up → LeavesIn zp s g pc (S zp) [] (fun e z => z.groomEnter k pa len s.focus e.id)))) ∧
  (s.pkg.on = true → ∀ k : Nat, let v := s.ilEntry k
    let pass : State → State := fun x => (x.modDie k (fun y => { y with ilnext := (y.ilnext + 1) % 65536, applying := false })).ackPosts k
    (s.ilReady k = true → v.testBit 237 = true → exec (.shootdownApply k) s = .next (pass (s.modDie k (fun x => { x with lazy := x.lazy ++ [⟨v, false⟩] })))) ∧
    (s.ilReady k = true → v.testBit 237 = false → (s.die k).applying = false → ∃ x : State, exec (.shootdownApply k) s = .next (x.applyEntry k v false) ∧
      x = { s.modDie k (fun y => { y with applying := true, lazy := y.lazy.map (fun l => { l with due := true }) }) with
        agenda := s.agenda ++ (if (s.die k).lazy = [] then [] else [Instr.lazyApply k]) }) ∧
    (s.ilReady k = true → v.testBit 237 = false → (s.die k).applying = true → s.applyClear k v = true → exec (.shootdownApply k) s = .next (pass (s.applyEntry k v true))) ∧
    exec (.lazyApply k) s = .next (((s.die k).lazy.filter (fun l => l.due)).foldl (fun x e => x.applyEntry k e.v true)
      (s.modDie k (fun x => { x with lazy := x.lazy.filter (fun l => !l.due) })))) ∧
  ∀ (t : State) (k ctx lo hi : Nat) (all : Bool), ∀ c ∈ dieCcls k, ∀ e ∈ ((t.dropTlb k ctx lo hi all).ccl c).tlb,
    e ∈ (t.ccl c).tlb ∧ (e.ctx = ctx → e.page * 2 ^ (e.size - 16) < hi → lo < (e.page + 1) * 2 ^ (e.size - 16) → all = false ∧ t.pinned c e = true)

/-- SPLITRD gives zero on supervisor cores, all ones for a selector above 16, and otherwise counts of the group's port or core at a
fixed time, or of its context's account within 4 µs (R386, R387). SPLITSNAP writes header and accounts at its pieces' homes and gives TIME (R388).
MARK adds a record when MK = 1 (R393); SAMPCFG puts its value in effect and gives the one it replaces within 2 µs (R391). A slot is sampled in the
clk R392 names; a record enters its core's trace buffer, or is lost and counted, and is carried to its die's ring in order (R394, R395); a port
whose counter is near its end is folded to the owner (R382, R383). -/
def Obligations.MeasureWords : Prop := ∀ (h : Hdr) (d a : Opnd) (tag : BitVec 8) (all : Bool) (form : SplitForm) (s : State) (g : Group) (pc : Pc),
  let E : Instr → Group := fun i => g.entered (info i)
  let S : Instr → State := fun i => s.entered (info i) g
  let X : Instr → List Nat := fun i => (E i).exLanes (info i) g.active
  let ready : Instr → Prop := fun i => Ready (info i) (ownKeys (info i)) s g pc ∧ X i ≠ []
  let sr := Instr.splitrd h d a form
  let sn := Instr.splitsnap h d a all
  let mk := Instr.mark h tag a
  let sc := Instr.sampcfg h d a
  let k := ((E sr).rd 0 a).toNat
  let v := if g.isSup then 0 else if 16 < k then 2 ^ 64 - 1 else countAt (match form with
    | .port => (s.core g.core).counts (some (s.focus / 16 % 4))
    | .core => (s.core g.core).counts none
    | .ctx => (S sr).account g.ctx) k
  let R := (S sn).reachPieces (E sn) ((E sn).rd64 0 a) (List.range (if all then 517 else 3))
  let mark := traceRec s.time pc.toNat (tag.toNat * 2 ^ 32 + ((E mk).rd 0 a).toNat) (E mk).rgncnt.toNat (E mk).retcnt.toNat g.ctx (handleOf s.focus) 0 false 2
  let smp := ((E sc).rd 0 a) &&& 0xC000001F
  (ready sr → 0 < s.pkg.freq → Awaits sr s g pc (dstCells64 d (X sr) (fun _ => BitVec.ofNat 64 v))
    (fun t => if form = .ctx then s.pkg.clock < t ∧ t ≤ s.pkg.clock + 4 * s.pkg.freq else t = s.pkg.clock + 6)) ∧
  (∀ (c : Core) (p : Option Nat) (j : Nat), j < 16 →
    countAt (c.counts p) j = ((c.counters.filter (fun x => decide (x.1 % 16 = j) && (match p with
      | some n => decide (x.1 / 16 = n)
      | none => true))).map (fun x => x.2)).sum % 2 ^ 64) ∧
  (ready sn → (∀ q ∈ R.1, ∃ p e z f, q.2 = .glob p e z f) → R.2.snapHeld (E sn) R.1 = false → ∃ m,
    AwaitsIn sn s g pc { R.2.putPieces (E sn) (R.2.snapshot (E sn) all) R.1 with free := m } (dstCells64 d (X sn) (fun _ => BitVec.ofNat 64 s.time)) (fun t => s.pkg.clock < t)) ∧
  (g.isSup = false → let count := fun m : List (Nat × Nat) => (List.range 16).flatMap (fun c => toBytes 8 (((kget m c).getD 0) % 2 ^ 64))
    s.snapshot g false = toBytes 64 (s.time % 2 ^ 64 * 2 ^ 448 + 2 ^ 432 + g.ctx % 2 ^ 9 * 2 ^ 423 + s.coresOf g.ctx % 2 ^ 8 * 2 ^ 400) ++ count (s.account g.ctx) ∧
    s.snapshot g true = toBytes 64 (s.time % 2 ^ 64 * 2 ^ 448 + 258 * 2 ^ 432 + 224 * 2 ^ 400) ++
      (List.range 257).flatMap (fun c => count (if c = 0 ∨ (s.ctx c).isSome then s.account c else [])) ++ count s.pkg.retired) ∧
  (ready mk → (g.isSup = true ∨ (s.ctxD g.ctx).smpctl.getLsbD 30 = true → Performs mk s g pc ((S mk).traceAdd g.core mark) []) ∧
    (g.isSup = false → (s.ctxD g.ctx).smpctl.getLsbD 30 = false → Completes mk s g pc [])) ∧
  (ready sc → 0 < s.pkg.freq → ∃ m, AwaitsIn sc s g pc { (if g.isSup then S sc else (S sc).modCtx g.ctx (fun c => { c with smpctl := smp })) with free := m }
    (dstCells d 0 (X sc) (fun _ => if g.isSup then 0 else (s.ctxD g.ctx).smpctl)) (fun t => s.pkg.clock < t ∧ t ≤ s.pkg.clock + 2 * s.pkg.freq)) ∧
  (s.pkg.on = true → ∀ core port : Nat, let c := s.slotCharge core port
    let x := s.ctxD c.acct
    let period := 2 ^ (min 24 (max 10 (x.smpctl.toNat % 32)))
    let takes := core < 224 ∧ port < 4 ∧ c.acct ≠ 0 ∧ c.cause ≠ .switch ∧ x.ctxstat.getLsbD 5 = false ∧ x.smpctl.getLsbD 31 = true ∧
      (s.pkg.clock + 37 * (4 * core + port)) % period = 0
    (takes → ∀ gid rgn ret, c.cand = some (gid, rgn, ret) →
      exec (.sample core port) s = .next (s.traceAdd core (traceRec s.time c.pc.toNat c.blame.toNat rgn.toNat ret.toNat c.acct (handleOf gid) (slotCode c.cause) false 1))) ∧
    (takes → c.cand = none → exec (.sample core port) s = .next (s.traceAdd core
      (traceRec s.time c.pc.toNat c.blame.toNat 0 0 c.acct (handleOf (gidOf core port 0)) (slotCode c.cause) true 1))) ∧
    (¬ takes → exec (.sample core port) s = .next s) ∧
    (((∃ y ∈ (s.core core).counters, y.1 / 16 = port ∧ 2 ^ 48 - 2 ^ 32 ≤ y.2) → exec (.overflowFold core port) s =
        .next ((s.foldPort (s.core core).owner (s.core core).counters port).modCore core (fun z => { z with counters := z.counters.filter (fun y => decide (y.1 / 16 ≠ port)) }))) ∧
      ((∀ y ∈ (s.core core).counters, y.1 / 16 = port → y.2 < 2 ^ 48 - 2 ^ 32) → exec (.overflowFold core port) s = .next s)) ∧
    (∀ r rest, (s.core core).trace = r :: rest → let n := coreDie core
      let y := s.die n
      let on := y.trctl.getLsbD 31 = true ∧ 10 ≤ y.trctl.toNat % 32 ∧ y.trctl.toNat % 32 ≤ 24
      let t := (s.modCore core (fun z => { z with trace := rest })).lossRecord core
      (¬ on → exec (.traceDeliver core) s = .next t) ∧
      (on → 2 ^ (y.trctl.toNat % 32) ≤ (y.trtail - y.trhead).toNat → exec (.traceDeliver core) s = .next s) ∧
      (on → (y.trtail - y.trhead).toNat < 2 ^ (y.trctl.toNat % 32) → exec (.traceDeliver core) s = .next
        ((t.homePut (flatPa 0 (y.trbase.toNat + 32 * (y.trtail.toNat % 2 ^ (y.trctl.toNat % 32)))) (toBytes 32 r.v)).modDie n (fun z => { z with trtail := z.trtail + 1 }))))) ∧
  ∀ (core : Nat) (r : TraceRec), let y := s.die (coreDie core)
    let on := coreDie core < 8 ∧ y.trctl.getLsbD 31 = true ∧ 10 ≤ y.trctl.toNat % 32 ∧ y.trctl.toNat % 32 ≤ 24
    (¬ on → s.traceAdd core r = s) ∧
    (on → 128 ≤ (s.core core).trace.length → s.traceAdd core r = s.modCore core (fun z => { z with traceLoss := if z.traceLoss < 2 ^ 32 - 1 then z.traceLoss + 1 else 2 ^ 32 - 1 })) ∧
    (on → (s.core core).trace.length < 128 → ((s.core core).traceLoss = 0 ∨ 126 < (s.core core).trace.length →
        ((s.traceAdd core r).core core).trace = (s.core core).trace ++ [r]) ∧
      ((s.core core).traceLoss ≠ 0 → (s.core core).trace.length ≤ 126 → ((s.traceAdd core r).core core).traceLoss = 0 ∧
        ((s.traceAdd core r).core core).trace = (s.core core).trace ++ [traceRec s.time 0 0 (s.core core).traceLoss 0 0 (handleOf (gidOf core 0 0)) 0 false 3, r]))

/-- What the machine does to a group between its words. REGISTER_COMPLETE gives the registers of the first scoreboard entry that is due their
values, and ends the entry (R40); REGION_RESTART, once no register is pending, puts back VPC and LSP, clears the aside stack, RETCNT and the signature,
leaves RGNCNT, and holds the group for the redirect (R95); SLEEP_END ends a sleep that is over (R91); STACK_SPILL passes the dirty bytes outside the lanes' windows
to their pages, or to the side log where a page is absent or write-blocked, and STACK_FILL keeps what is cached and brings in the window's
bytes (R85); a touch window ends at its last word (R97); ILLEGAL_WORD_KILL charges the slot to ISSUE, records the first illegal PC, and retires the group
as if every lane executed EXIT (R47). -/
def Obligations.GroupEvents : Prop := ∀ (s : State) (gid : Nat) (g : Group), s.pkg.on = true → s.grp gid = some g →
  let due : Pend → Prop := fun p => ∃ t, p.due = some t ∧ t ≤ s.pkg.clock
  (∀ l p r, g.pends = l ++ p :: r → (∀ q ∈ l, ¬ due q) → due p → let y := { g.putCells p.cells with pends := g.pends.filter (fun q => decide (q.id ≠ p.id)), rsig := g.rsig ^^^ sigItems p }
    exec (.registerComplete gid) s = .next ((s.setGrp gid y).reap gid) ∧ (∀ r l, y.cell r l = (lastAt p.cells (cellKey r l)).getD (g.cell r l)) ∧ (p.sig = none → sigItems p = 0)) ∧
  ((∀ q ∈ g.pends, ¬ due q) → exec (.registerComplete gid) s = .next s) ∧
  (g.restart = true → g.pends = [] → exec (.regionRestart gid) s = .next (s.setGrp gid
    { g with vpc := g.evpc, lsp := g.elsp, aside := [], retcnt := 0, rsig := 0, touches := [], restart := false, wait := .none, wakeAt := none, regionStart := true, regionNext := false, fillDue := true, redirUntil := s.pkg.clock + 5, redirPc := g.waitPc, fences := g.fences.filter (fun f => !f.barrier) })) ∧
  ((g.restart = false ∨ g.pends ≠ []) → exec (.regionRestart gid) s = .next s) ∧
  (∀ t, g.wait = .sleep t → (t ≤ s.pkg.clock → exec (.sleepEnd gid) s = .next (s.setGrp gid { g with wait := .none })) ∧
    (s.pkg.clock < t → exec (.sleepEnd gid) s = .next (s.setGrp gid g))) ∧
  (let far := g.stk.filter (fun c => c.2.dirty && !inWindow (g.lspOf (c.1 % 32)).toNat (c.1 / 32))
    ∃ t : State, exec (.stackSpill gid) s = .next (t.setGrp gid { g with stk := g.stk.filter (fun c => inWindow (g.lspOf (c.1 % 32)).toNat (c.1 / 32)) }) ∧
      t = far.foldl (fun (u : State) c => (u.spillByte gid g true (c.1 % 32) (c.1 / 32) c.2.b).2) s ∧ t.grp gid = some g) ∧
  (∀ (u : State) (l o : Nat) (b : Byte), let ptr := u.backPtr gid g l o
    let line := ptrOff ptr (-((vaOf ptr % 128 : Nat) : Int))
    (∀ e z t f, u.xlate g.who ptr needW = (.ok e z, t) → leafWb e = false → t.place g.isSup e z ptr = .mem f → (u.spillByte gid g true l o b).2 = t.homePut f [b]) ∧
    (∀ e z t, u.xlate g.who ptr needW = (.ok e z, t) → leafWb e = true → (u.spillByte gid g true l o b).2 = t.logStore gid g line (.store [(vaOf ptr % 128, b)]) none) ∧
    (∀ m v t, u.xlate g.who ptr needW = (.absent m v, t) → (u.spillByte gid g true l o b).2 = t.logStore gid g line (.store [(vaOf ptr % 128, b)]) (some (m, v)))) ∧
  (∃ (t : State) (y : Group), exec (.stackFill gid) s = .next t ∧ t.grp gid = some y ∧ y.fillDue = false ∧
    (∀ k c, kget g.stk k = some c → kget y.stk k = some c) ∧ { y with stk := g.stk, fillDue := g.fillDue } = g ∧
    (g.isSup = false → ∀ l ∈ lanesOf g.live, ∀ o, (g.lspOf l).toNat ≤ o → o < (g.lspOf l).toNat + 64 → o < s.stackTop g → kget g.stk (o * 32 + l) = none →
      (∃ (u : State) (b : Byte), (u.backByte gid g l o).1 = .bytes [b] ∧ kget y.stk (o * 32 + l) = some ⟨b, false⟩) ∨
      (∃ u : State, ∀ b, (u.backByte gid g l o).1 ≠ .bytes [b]))) ∧
  exec (.touchWindowClose gid) s = .next (s.setGrp gid { g with touches := g.touches.filter (fun t => decide (t.left ≠ 0)) }) ∧
  (let pc := g.issuePc.getD exitPc
    let t := if (s.ctxD g.ctx).ctxstat.getLsbD 3 = true then s else s.modCtx g.ctx (fun c => { c with illpc := BitVec.ofNat 64 (8 * pc.toNat), ctxstat := c.ctxstat ||| 8 })
    exec (.illegalWordKill gid) s = .next (((t.chargeIssue gid .issue pc).setGrp gid { g with vpc := lanes32.map (fun _ => exitPc), aside := [], windows := [] }).retireGroup gid))

/-- A page walk's valid leaf takes the place of the cluster's entry for its address and sets the touched dies of the context (R156, R160, R370), and a walk
without one leaves the address with no entry; access counts at their threshold are cleared and each sends a record (R175); a notification record
goes into an enabled queue at its tail, and a full one counts a loss (R176); the Groomer's report comes when every byte of the frame is zero (R148);
corrected errors are counted, saturating, and the count is cleared at a write (R150); a word that keeps bad check bits is reported to each
context that maps it, at its write-back and at a scrub (R151). -/
def Obligations.MemoryEvents : Prop := ∀ (s : State), s.pkg.on = true →
  (∀ (k ctx : Nat) (ptr : DWord), k < 56 → (s.ctx ctx).isSome = true →
    (∀ e z, s.walk (s.ctxD ctx).ptroot (vaOf ptr) = .ok e z → ∃ t : State, exec (.pageWalkComplete k ctx ptr) s = .next t ∧
      let new : TlbEntry := ⟨ctx, vaOf ptr / 2 ^ z, z, BitVec.ofNat 64 e, 0, s.serial⟩
      (t.ccl k).tlb.find? (tlbHit ctx (vaOf ptr)) = some new ∧ (∀ u ∈ (t.ccl k).tlb, u = new ∨ u ∈ (s.ccl k).tlb) ∧ (∀ j, j ≠ k → t.ccl j = s.ccl j) ∧
      t.mem = s.mem ∧ t.groups = s.groups ∧ (leafHome e ≠ 15 → (t.ctxD ctx).tdmask.getLsbD (8 + leafHome e) = true ∧
        (leafM e = true → (t.ctxD ctx).tdmask.getLsbD (8 + leafMhome e) = true))) ∧
    (∀ m l, s.walk (s.ctxD ctx).ptroot (vaOf ptr) = .absent m l → exec (.pageWalkComplete k ctx ptr) s =
      .next (s.modCcl k (fun c => { c with tlb := c.tlb.filter (fun t => !tlbHit ctx (vaOf ptr) t) })))) ∧
  (∀ k, let hit := fun t : TlbEntry => decide (0 < (s.ctxD t.ctx).tcfg.toNat % 65536) && decide ((s.ctxD t.ctx).tcfg.toNat % 65536 ≤ t.count)
    let rec_ := fun (u : State) (t : TlbEntry) => u.time % 2 ^ 64 * 2 ^ 192 + (leafRegion t.leaf.toNat * 2 ^ 56 + t.page * 2 ^ 16) % 2 ^ 64 * 2 ^ 128 +
      (u.ctxD t.ctx).tcfg.toNat % 65536 * 2 ^ 112 + k % 64 * 2 ^ 106 + t.ctx % 512 * 2 ^ 80 + 1
    ((∀ t ∈ (s.ccl k).tlb, hit t = false) → exec (.accessCountNotify k) s = .next s) ∧
    ((∃ t ∈ (s.ccl k).tlb, hit t = true) → ∃ t : State, exec (.accessCountNotify k) s = .next (((s.ccl k).tlb.filter hit).foldl (fun (u : State) x => u.notify (k / 7) (rec_ u x)) t) ∧
      t = s.modCcl k (fun c => { c with tlb := c.tlb.map (fun t => if hit t then { t with count := 0 } else t) }))) ∧
  (∀ d v, let x := s.die d
    (x.nqen = 0 → s.notify d v = s) ∧
    (x.nqen ≠ 0 → (x.nqtail - x.nqhead).toNat = 4096 → s.notify d v = s.modDie d (fun y => { y with nqloss := if y.nqloss < 2 ^ 32 - 1 then y.nqloss + 1 else 2 ^ 32 - 1 })) ∧
    (x.nqen ≠ 0 → (x.nqtail - x.nqhead).toNat ≠ 4096 → s.notify d v =
      (s.homePut (flatPa 0 (x.nqbase.toNat + 32 * (x.nqtail.toNat % 4096))) (toBytes 32 v)).modDie d (fun y => { y with nqtail := y.nqtail + 1 }))) ∧
  (∀ d r, s.groomDue d = some r → r ∈ (s.die d).groom ∧ r.due ≤ s.pkg.clock ∧ ∃ t : State, exec (.groomerReport d) s = .next ((t.evalWatches (flatPa 0 r.pa) r.len).answer r.gid r.pend 0) ∧
    (t.die d).groom = (s.die d).groom.erase r ∧ t.groups = s.groups ∧
    ∀ a, t.byte a = if flatPa 0 r.pa ≤ a ∧ a < flatPa 0 r.pa + r.len then 0 else s.byte a) ∧
  (∀ d, (∀ r ∈ (s.die d).groom, s.pkg.clock < r.due) → exec (.groomerReport d) s = .next s) ∧
  (∀ d, d ≤ 20 → let x := s.die d
    exec (.ceClear d) s = .next (s.modDie d (fun y => { y with cecnt := 0 })) ∧
    (x.cecnt = 2 ^ 32 - 1 → exec (.correctedError d) s = .next s) ∧
    (let t := s.modDie d (fun y => { y with cecnt := x.cecnt + 1 });
      x.cecnt ≠ 2 ^ 32 - 1 → ((x.cethr = 0 ∨ (x.cecnt + 1) % x.cethr ≠ 0) → exec (.correctedError d) s = .next t) ∧
        (x.cethr ≠ 0 → (x.cecnt + 1) % x.cethr = 0 → ∀ q, (if d < 8 then q = d else q < 8 ∧ s.dieUp q = true ∧ ∀ j < q, s.dieUp j = false) →
          exec (.correctedError d) s = .next (t.notify q (s.time % 2 ^ 64 * 2 ^ 192 + (x.cecnt + 1) % 65536 * 2 ^ 112 + d * 2 ^ 106 + 2))))) ∧
  ∀ pa, let w := pa / 8 * 8
    let t : State := { s with badWords := if s.badWords.contains w then s.badWords else s.badWords ++ [w] }
    let maps := fun (c : Nat × Ctx) => s.mapsIn (w % 2 ^ 52) (decide (w < 2 ^ 52)) 4 (c.2.ptroot.toNat / 2 ^ 13 % 2 ^ 39 * 2 ^ 13) 0
    t.bad w 8 = true ∧
    ((∀ c ∈ s.ctxs, maps c = none) → exec (.uncorrectableWriteback pa) s = .next t ∧ s.reportBad w = s) ∧
    (∀ c, s.ctxs = [c] → ∀ va tag, maps c = some (va, tag) → exec (.uncorrectableWriteback pa) s = .next (t.mchkRecord c.1 (BitVec.ofNat 64 (tag * 2 ^ 56 + va)) (w % 2 ^ 52))) ∧
    ∀ d, 8 ≤ d → d < 20 → exec (.patrolScrub d) s = .next ((s.badWords.filter (fun a => decide (a / 2 ^ 46 = d))).foldl (fun (u : State) a => u.reportBad a) s)

/-- A hardware fault of a die that is UP or draining ends its service, LOST, its registers as reset but for ticket numbers, and tells every group of each context that
touched it (R371); dies that lose their last route to die 20 follow (R376); the loss of die 20, or of the supplies, stops the package (R375, R419). A reset
request is refused while one runs and for die 20, takes a LOST die to DOWN, drains an UP die for at most 100 µs unless it would cut others off, and
the end of the drain leaves the die DOWN (R376). A link's width changes within its modules, and its clock loses nothing (R377). A target that
does not answer is deaf from then on, and a failed port's requests go out on the others (R408, R409). -/
def Obligations.DieEvents : Prop := ∀ (s : State), s.pkg.on = true →
  (let off := s.modPkg (fun p => { p with on := false });
    off.pkg.on = false ∧ exec .packageLoss s = .next off ∧ exec .supplyShutdown s = .next off ∧ exec (.dieLoss 20) s = .next off) ∧
  (∀ d, d ≠ 20 → ((s.die d).st = .up → exec (.dieLoss d) s = .next (s.dieFalls d .lost .dieLost).cutOff) ∧
    ((s.die d).st = .drain → ∃ t : State, exec (.dieLoss d) s = .next t.cutOff ∧ (t.pkg.fmdie ≠ some d) ∧ (t.die d).st = .lost) ∧
    (((s.die d).st = .down ∨ (s.die d).st = .lost) → exec (.dieLoss d) s = .next s)) ∧
  (∀ d st c, ∃ n, (s.dieFalls d st c).die d = { Die.reset with st := st, nextTicket := n }) ∧
  (∀ d c k, (s.tellLoss d c).grp k = (s.grp k).map (fun g => if ((s.ctxD g.ctx).tdmask).getLsbD d = true ∧ (s.ctx g.ctx).isSome = true ∧ g.isSup = false
    then { g with asyncs := g.asyncs ++ [⟨0, c, 0, 0, 0, 7, d, false⟩] } else g)) ∧
  (∀ d, (s.die d).st = .drain → ((s.die d).drainUntil ≤ s.pkg.clock → ∃ t : State, exec (.drainDone d) s = .next t ∧ d ∉ t.pkg.booted ∧ t.pkg.fmdie ≠ some d ∧
      ∃ y : Pkg → Pkg, t = ((s.dieFalls d .down .dieLost).cutOff).modPkg y) ∧
    (s.pkg.clock < (s.die d).drainUntil → exec (.drainDone d) s = .next s)) ∧
  (∀ v : Word, let d := v.toNat % 32
    let cut := s.cutBy d
    let m := cut.foldl (fun m x => m + 2 ^ x) 0
    ((s.pkg.fmdie.isSome = true ∨ 20 ≤ d) → exec (.fmResetRequest v) s = .next (s.modPkg (fun p => { p with fmres := 3 }))) ∧
    (s.pkg.fmdie = none → d < 20 →
      ((s.die d).st = .up → cut ≠ [] → v.getLsbD 31 = false → exec (.fmResetRequest v) s = .next (s.modPkg (fun p => { p with fmres := 2, fmcut := m }))) ∧
      ((s.die d).st = .up → (cut = [] ∨ v.getLsbD 31 = true) → 0 < s.pkg.freq → ∃ t : State, exec (.fmResetRequest v) s = .next t ∧ t.pkg.fmres = 1 ∧ t.pkg.fmcut = m ∧ t.pkg.fmdie = some d ∧
        (t.die d).st = .drain ∧ s.pkg.clock < (t.die d).drainUntil ∧ (t.die d).drainUntil ≤ s.pkg.clock + 100 * s.pkg.freq ∧ (t.die d).posts = []) ∧
      ((s.die d).st = .lost → ∃ t : State, exec (.fmResetRequest v) s = .next t ∧ (t.die d).st = .down ∧ t.pkg.fmres = 0 ∧ d ∉ t.pkg.booted) ∧
      ((s.die d).st = .down → exec (.fmResetRequest v) s = .next (s.modPkg (fun p => { p with fmres := 0, fmcut := 0 }))))) ∧
  (∀ a b n, exec (.linkClockChange a b) s = .next s ∧ exec (.linkWidthChange a b n) s = .next (s.modPkg (fun p => { p with links := p.links.map (fun l =>
    if ((l.a = a ∧ l.b = b) ∨ (l.a = b ∧ l.b = a)) ∧ 1 ≤ n ∧ n ≤ l.mods then { l with active := n } else l) }))) ∧
  ∀ pa port, exec (.yosonPortFail port) s = .next s ∧
    (pa / 2 ^ 50 = 1 → ∃ t : State, exec (.yosonTimeout pa) s = .next t ∧ pa / 2 ^ 42 % 256 ∈ t.pkg.deaf ∧ ∃ l, t = s.modPkg (fun p => { p with deaf := l })) ∧
    (pa / 2 ^ 50 ≠ 1 → exec (.yosonTimeout pa) s = .next s)

/-- A frame at an enabled port is counted in BADFCS when its check fails and in UNMATCHED when no enabled rule or ring takes it, saturating; one
that matches goes to the ring of the lowest such rule, and where the ring has a slot free its payload and descriptor are written before PIDX; a full ring
holds it in 2 MiB of headroom under PAUSE and counts it in DROPS otherwise (R410 to R413). Held frames are delivered in arrival order as slots free.
A ring is enabled only with legal fields, and disabling it drops and counts the frames held for it; link changes and clears act on their port
(R423). How a frame's headers are parsed is the model's reading of the standards the spec names (log 62). -/
def Obligations.EthernetEvents : Prop := ∀ (s : State) (port : Nat), s.pkg.on = true →
  let e := s.ethp port
  let unmatched := s.modEth port (fun x => { x with unmatched := if x.unmatched < 2 ^ 64 - 1 then x.unmatched + 1 else 2 ^ 64 - 1 })
  let badfcs := s.modEth port (fun x => { x with badfcs := if x.badfcs < 2 ^ 64 - 1 then x.badfcs + 1 else 2 ^ 64 - 1 })
  (∀ (f : List Byte) (ok : Bool), let run := exec (.frameReceive port f ok) s
    ((8 ≤ port ∨ e.en = false) → run = .next s) ∧
    (port < 8 → e.en = true → (ok = false → run = .next badfcs) ∧
      (ok = true → 9216 < f.length → ∃ t : State, run = .next t ∧ (t = { unmatched with free := s.free + 1 } ∨ t = { badfcs with free := s.free + 1 })) ∧
      (ok = true → f.length ≤ 9216 → (e.ruleFor f = none → run = .next unmatched) ∧
        (∀ n r, e.ruleFor f = some (n, r) → let k := r / 2 ^ 56 % 64
          ((∀ y, kget e.rings k = some y → y.en = false) → run = .next unmatched) ∧
          (∀ y m, kget e.rings k = some y → y.en = true → s.ringOcc y = some m →
            let queued := e.headroom.any (fun x => decide (x.ring = k))
            (m < y.slots → (y.pauses = false ∨ queued = false) → run = .next (s.ringDeliver port y ⟨k, n, f, s.time⟩ (r / 2 ^ 42 % 2 ^ 14))) ∧
            ((y.slots ≤ m ∨ queued = true) → y.pauses = true → e.held + f.length ≤ 2 ^ 21 → run = .next (s.modEth port (fun x => { x with headroom := x.headroom ++ [⟨k, n, f, s.time⟩] }))) ∧
            (y.slots ≤ m → (y.pauses = false ∨ 2 ^ 21 < e.held + f.length) → run = .next (s.ringDrops y 1))))))) ∧
  (∀ (y : EthRing) (h : HeldFrame) (strip i c base pay : Nat) (t u : State), let body := h.bytes.drop strip
    let slot := ptrOff y.rbase ((65536 + y.slotBytes * (i % y.slots) : Nat) : Int)
    s.ringIdx y = some (i, c) → s.ethHome y.ctx y.rbase = (.ok base, t) → t.ethHome y.ctx slot = (.ok pay, u) →
      s.ringDeliver port y h strip = (((u.homePut pay (body.take y.slotBytes)).homePut (base + 4096 + 16 * (i % y.slots))
        (toBytes 16 (min y.slotBytes body.length % 2 ^ 32 + h.rule % 2 ^ 16 * 2 ^ 32 + port % 2 ^ 8 * 2 ^ 48 + (if y.slotBytes < body.length then 2 ^ 56 else 0) + h.time % 2 ^ 64 * 2 ^ 64))).homePut
          base (toBytes 4 ((i + 1) % 2 ^ 32))).ringPause port h.ring y) ∧
  (∀ (l : List HeldFrame) (h : HeldFrame) (r : List HeldFrame) (y : EthRing) (m : Nat), let full := fun x : HeldFrame => ∃ z n, kget e.rings x.ring = some z ∧ s.ringOcc z = some n ∧ z.slots ≤ n
    e.headroom = l ++ h :: r → (∀ x ∈ l, full x) → kget e.rings h.ring = some y → s.ringOcc y = some m → m < y.slots → exec (.headroomDeliver port) s = .next
      ((s.modEth port (fun x => { x with headroom := x.headroom.erase h })).ringDeliver port y h ((kget e.rules h.rule).getD 0 / 2 ^ 42 % 2 ^ 14))) ∧
  ((∀ x ∈ e.headroom, ∃ z n, kget e.rings x.ring = some z ∧ s.ringOcc z = some n ∧ z.slots ≤ n) → exec (.headroomDeliver port) s = .next s) ∧
  (port < 8 → (∀ up, exec (.ethernetLinkChange port up) s = .next (s.modEth port (fun x => { x with link := up }))) ∧
    exec (.unmatchedClear port) s = .next (s.modEth port (fun x => { x with unmatched := 0 })) ∧
    exec (.badfcsClear port) s = .next (s.modEth port (fun x => { x with badfcs := 0 })) ∧
    ∀ k, k < 64 → let y := (kget e.rings k).getD ⟨0, 0, false⟩
      let held := (e.headroom.filter (fun h => decide (h.ring = k))).length
      ((y.en = true ∨ s.ringOk y = false) → exec (.ringEnable port k true) s = .next s) ∧
      (y.en = false → s.ringOk y = true → exec (.ringEnable port k true) s = .next (s.modEth port (fun x => { x with rings := kset x.rings k { y with rcfg := y.rcfg ||| 0x8000000000000000 } }))) ∧
      exec (.ringEnable port k false) s = .next ((if held = 0 then s else s.ringDrops y held).modEth port (fun x =>
        { x with headroom := x.headroom.filter (fun h => decide (h.ring ≠ k)), rings := kset x.rings k { y with rcfg := y.rcfg &&& 0x7FFFFFFFFFFFFFFF, xoff := false } })))

/-- A host write of HBM, or of host memory it shares, is performed at its home and a read changes nothing (R406, R220); a request of another package is performed at its home here
when that die serves, an atomic by its operation on the old value (R409); a drive's data becomes the context's, block by block of 64 KiB (R414); a write of the control
space reaches an aligned register of a serving die, through BAR0 only the I-die's first window, and changes the register it names (R407, R420, R313,
R419, R421 to R424). -/
def Obligations.OutsideEvents : Prop := ∀ (s : State), s.pkg.on = true →
  let here := fun pa : Nat => pa < 2 ^ 52 ∧ s.dieServes (pa / 2 ^ 46) = true
  (∀ pa b, exec (.hostMemAccess false pa b) s = .next s ∧ (here pa → exec (.hostMemAccess true pa b) s = .next (s.homePut (flatPa 0 pa) b)) ∧
    (¬ here pa → exec (.hostMemAccess true pa b) s = .next s) ∧ (pa < 2 ^ 50 → exec (.hostSnoop pa b) s = .next (s.homePut (flatPa 15 pa) b)) ∧
    (2 ^ 50 ≤ pa → exec (.hostSnoop pa b) s = .next s)) ∧
  (∀ pa, (∀ n, exec (.yosonlinkRequest (.load pa n)) s = .next s) ∧
    (¬ here pa → ∀ (w : Bool) (b c : DWord) (v : Word) (l : List Byte) op fop, exec (.yosonlinkRequest (.store pa l)) s = .next s ∧ exec (.yosonlinkRequest (.atom pa op w b)) s = .next s ∧
      exec (.yosonlinkRequest (.fatom pa fop v)) s = .next s ∧ exec (.yosonlinkRequest (.cas pa w b c)) s = .next s) ∧
    (here pa → let a := flatPa 0 pa
      (∀ l, exec (.yosonlinkRequest (.store pa l)) s = .next (s.homePut a l)) ∧
      (∀ op b, exec (.yosonlinkRequest (.atom pa op true b)) s = .next (s.homePut a (toBytes 8 (atomNew op 64 (s.num a 8) b.toNat))) ∧
        exec (.yosonlinkRequest (.atom pa op false b)) s = .next (s.homePut a (toBytes 4 (atomNew op 32 (s.num a 4) b.toNat)))) ∧
      (∀ op b, exec (.yosonlinkRequest (.fatom pa op b)) s = .next (s.homePut a (toBytes 4 (fatomNew op (s.num a 4) b.toNat)))) ∧
      (∀ w b c, let n := if w then 8 else 4
        exec (.yosonlinkRequest (.cas pa w b c)) s = .next (if s.num a n = b.toNat then s.homePut a (toBytes n c.toNat) else s)))) ∧
  (∀ ctx p b, exec (.nvmeCompletion ctx p b false) s = .next s ∧ (s.ctx ctx = none → exec (.nvmeCompletion ctx p b true) s = .next s) ∧
    ((s.ctx ctx).isSome = true → exec (.nvmeCompletion ctx p b true) s = .next (s.nvmeWrite ctx (b.length / 65536 + 2) p b)) ∧
    (∀ n f t, b ≠ [] → let k := 65536 - vaOf p % 65536
      (s.homeOf ctx p needW = (some f, t) → s.nvmeWrite ctx (n + 1) p b = (t.homePut f (b.take k)).nvmeWrite ctx n (ptrOff p (k : Nat)) (b.drop k)) ∧
      (s.homeOf ctx p needW = (none, t) → s.nvmeWrite ctx (n + 1) p b = t.nvmeWrite ctx n (ptrOff p (k : Nat)) (b.drop k))) ∧
    s.nvmeWrite ctx 0 p b = s ∧ s.nvmeWrite ctx (b.length / 65536 + 2) p [] = s) ∧
  ∀ (pa : Nat) (v : DWord) (bar : Bool), let d := pa % 2 ^ 50 / 2 ^ 24
    let o := pa % 2 ^ 24
    let run := exec (.registerWrite pa v bar) s
    ((pa % 8 ≠ 0 ∨ 20 < d ∨ s.dieServes d = false ∨ (bar = true ∧ (d ≠ 20 ∨ 0x410000 ≤ o))) → run = .next s) ∧
    (pa % 8 = 0 → s.dieServes d = true → bar = false → d ≤ 20 →
      (o = 0xF00008 → run = .next (if v.getLsbD 0 then s.modDie d (fun x => { x with cecnt := 0 }) else s)) ∧
      (o = 0xF00010 → run = .next (s.modDie d (fun x => { x with cethr := v.toNat % 2 ^ 32 }))) ∧
      (o = 0xF00100 → d < 8 → run = .next (s.modDie d (fun x => { x with nqbase := v &&& 0x000FFFFFFFFE0000, nqen := v.setWidth 32 &&& 1 }))) ∧
      (o = 0xF00110 → d < 8 → run = .next (s.modDie d (fun x => { x with nqhead := v.setWidth 32 }))) ∧
      (o = 0xF00200 → 8 ≤ d → d < 20 → run = .next (s.modDie d (fun x => { x with cmpen := v.setWidth 32 &&& 1 }))) ∧
      (∀ c w, d = 20 → o = 0x600000 + 32 * c + 8 * w → 1 ≤ c → c ≤ 256 → w < 4 → run = .next (s.csetWrite c w v))) ∧
    (pa % 8 = 0 → s.dieServes 20 = true → d = 20 →
      (∀ p, p < 1024 → (o = 4096 * p → (s.port p).state = 0 → run = .next (s.modPort p (fun x => { x with qring := v }))) ∧
        (o = 4096 * p + 16 → run = exec (.qtailWrite p (v.setWidth 32)) s) ∧ (o = 4096 * p + 40 → v.getLsbD 0 = true → run = exec (.qreset p) s)) ∧
      (∀ n, n < 32 → o = 0x400000 + 8 * n → run = .next (s.modPkg (fun p => { p with bands := kset p.bands n v.toNat }))) ∧
      (o = 0x400100 → run = exec (.clockPlan (v.toNat % 2048)) s) ∧
      (o = 0x400200 → run = .next (s.modPkg (fun p => { p with plim := min 4400 (max 2000 (v.toNat % 8192)) / 50 * 50 }))) ∧
      (o = 0x401000 → run = .next (s.modPkg (fun p => { p with mbaddr := v }))) ∧ (o = 0x401008 → run = .next (s.modPkg (fun p => { p with mblen := v.setWidth 32 }))))

/-- At power-up the boot core opens the mailbox, and a package that was shut down starts again as after reset, with what lies outside it (R415, R375). LOADFE,
LOADDIE and QUOTE wait for the mailbox and for the command being served; an image is accepted when none of the five checks fails, and otherwise MBSTAT
gives the reason and nothing is loaded (R424). An accepted front end is measured and loaded; an accepted supervisor image is measured and written at
its address, and the die starts, UP, with one SUPERVISOR group in slot 0 of each of its supervisor or service cores at ENTRY (R424). A quote carries the
nonce, the log, the clock and the signature over them (R425). A clock plan takes the highest admitted candidate at or below its target, or ends
with CONFLICT or NOFREQ (R417); power measurements throttle, step and shut down by their limits (R418, R419). The hash and
signature standards, the keys and the order in which the checks are made are the model's choice (logs 15, 63). -/
def Obligations.BootEvents : Prop := ∀ (s : State),
  (s.pkg.on = true → exec .powerUp s = .next (s.modPkg (fun p => { p with mbOpen := true }))) ∧
  (s.pkg.on = false → ∃ t : State, exec .powerUp s = .next t ∧ t.pkg = { State.reset.pkg with mbOpen := true } ∧ t.groups = [] ∧ (∀ d, (t.die d).st = if d = 20 then .up else .down) ∧
    ∀ a, t.byte a = if 2 ^ 52 ≤ a ∧ a < 2 ^ 53 then s.byte a else 0) ∧
  (s.pkg.on = true → s.pkg.mbOpen = false → ∀ d, exec .loadfe s = .next s ∧ exec (.loaddie d) s = .next s ∧ exec .quote s = .next s) ∧
  (s.pkg.on = true → s.pkg.mbOpen = true →
    let img := s.bytes (flatPa 15 s.pkg.mbaddr.toNat) s.pkg.mblen.toNat
    let entry := sha512 (img.take 512 ++ img.drop 4096) ++ toBytes 8 (ofBytes ((img.drop 8).take 8)) ++ toBytes 8 1 ++ List.replicate 48 0
    let done := s.modPkg (fun p => { p with mbPend := none, mbstat := 512 })
    let logged := fun n => done.modPkg (fun p => { p with measLog := kset p.measLog n entry })
    (∀ cmd d, s.imgReason cmd d img = none ↔ (s.pkg.mbaddr.toNat + s.pkg.mblen.toNat ≤ 2 ^ 50 ∧ s.bad (flatPa 15 s.pkg.mbaddr.toNat) s.pkg.mblen.toNat = false ∧
      s.pkg.mbaddr.toNat % 4096 = 0 ∧ 4096 ≤ s.pkg.mblen.toNat ∧ s.pkg.mblen.toNat ≤ 2 ^ 28 ∧ imgFormatOk cmd d img = true ∧ imgSignatureOk img = true ∧
      Config.minSecurityVersion cmd ≤ ofBytes ((img.drop 8).take 8) ∧ s.bootOrder cmd d img = true)) ∧
    (∀ x, (s.pkg.mbPend = none ∧ x = 0 ∨ s.pkg.mbPend = some (1, x)) →
      (∀ r, s.imgReason 1 x img = some r → exec .loadfe s = .next (s.modPkg (fun p => { p with mbPend := none, mbstat := BitVec.ofNat 32 (768 + r) }))) ∧
      (s.imgReason 1 x img = none → exec .loadfe s = .next ((logged 0).modFe (fun e => { e with loaded := true })))) ∧
    (∀ d, (s.pkg.mbPend = none ∨ s.pkg.mbPend = some (2, d)) →
      (∀ r, s.imgReason 2 d img = some r → exec (.loaddie d) s = .next (s.modPkg (fun p => { p with mbPend := none, mbstat := BitVec.ofNat 32 (768 + r) }))) ∧
      (s.imgReason 2 d img = none → exec (.loaddie d) s = .next ((((logged (1 + d)).homePut (flatPhys (ofBytes ((img.drop 24).take 8))) (img.drop 4096)).modPkg
        (fun p => { p with booted := p.booted ++ [d] })).startDie d (pcOfAddr (BitVec.ofNat 64 (ofBytes ((img.drop 32).take 8)))) (BitVec.ofNat 64 (ofBytes ((img.drop 40).take 8)))))) ∧
    (∀ x, (s.pkg.mbPend = none ∨ s.pkg.mbPend = some (3, x)) → let a := s.pkg.mbaddr.toNat
      (a % 64 ≠ 0 → exec .quote s = .next (s.modPkg (fun p => { p with mbPend := none, mbstat := 772 }))) ∧
      (a % 64 = 0 → exec .quote s = .next (((s.modPkg (fun p => { p with mbPend := none })).homePut (flatPa 15 (a % 2 ^ 50))
        (s.quoteBody ++ (List.range 96).map (Config.deviceSignature (sha384 s.quoteBody)))).modPkg (fun p => { p with mbstat := 512 })) ∧ s.quoteBody.length = 2888)) ∧
    (∀ c x d, s.pkg.mbPend = some (c, x) → (c ≠ 1 → exec .loadfe s = .next s) ∧ ((c, x) ≠ (2, d) → exec (.loaddie d) s = .next s) ∧ (c ≠ 3 → exec .quote s = .next s))) ∧
  (∀ d entry sptr, d < 21 → let t := s.startDie d entry sptr
    (t.die d).st = .up ∧ (t.die d).sptroot = sptr &&& 0x000FFFFFFFFFE000 ∧ ∀ j, j < (if d < 8 then 4 else if d < 20 then 2 else 16) →
      ∃ id, t.grp (gidOf (224 + 16 * d + j) 0 0) = some { supGroup entry with core := 224 + 16 * d + j, born := id }) ∧
  (s.pkg.on = true → ∀ target, let p := s.pkg
    (([2000, 3125, 25000].any p.meets = true) → exec (.clockPlan target) s = .next (s.modPkg (fun p => { p with cpst := 2 }))) ∧
    ([2000, 3125, 25000].any p.meets = false →
      (∀ k, k ≤ 30 → 1700 + 5 * k ≤ target → p.meets (20 * (1700 + 5 * k)) = false → (∀ j, k < j → j ≤ 30 → 1700 + 5 * j ≤ target → p.meets (20 * (1700 + 5 * j)) = true) →
        exec (.clockPlan target) s = .next (s.modPkg (fun p => { p with freq := 1700 + 5 * k, plan := 1700 + 5 * k, cpst := 0 }))) ∧
      ((∀ j, j ≤ 30 → 1700 + 5 * j ≤ target → p.meets (20 * (1700 + 5 * j)) = true) → exec (.clockPlan target) s = .next (s.modPkg (fun p => { p with cpst := 3 }))))) ∧
  (s.pkg.on = true → ∀ watts temps, ((∃ t ∈ temps, 115 ≤ t) → exec (.powerMeasure watts temps) s = .next (s.modPkg (fun p => { p with on := false }))) ∧
    ((∀ t ∈ temps, t < 115) → ∃ t : State, exec (.powerMeasure watts temps) s = .next t ∧ t.pkg.on = true ∧ t.pkg.hot = temps.any (fun x => decide (105 ≤ x)) ∧
      t.pkg.thr = (t.pkg.hot || decide (s.pkg.plim < watts)) ∧ t.pkg.plim = s.pkg.plim ∧ t.pkg.plan = s.pkg.plan ∧ (t.pkg.freq = s.pkg.freq ∨ s.pkg.meets (20 * t.pkg.freq) = false) ∧
      (s.pkg.freq < t.pkg.freq → t.pkg.freq ≤ s.pkg.plan) ∧ t.groups = s.groups ∧ t.mem = s.mem))

/-- Seventeen words written out from the spec's examples decode, from their bytes in memory (R2), to the instructions they stand for,
and all-ones and a word with an unassigned opcode are refused (R46). -/
def Obligations.DecodeWords : Prop :=
  let h : Hdr := ⟨false, 0, false, 7⟩
  let decodes : Nat → Instr → Prop := fun w i => decodeBytes (toBytes 8 w) = .ok i
  decodes 0x2601A0300D41C000 (.iadd ⟨true, 3, true, 2⟩ (.v 12) (.v 13) (.s 7) .wrap) ∧
  decodes 0x481E0200A710180B (.pairWord false 2 ⟨.iadd, 7, .v 4, .v 5⟩ ⟨.fmul, 1, .v 6, .v 11⟩) ∧
  decodes 0x8029745012345678 (.moviWide h (.s 20) 0x12345678) ∧
  decodes 0x0024700C08C140D2 (.icmp h (.p 3) (.v 8) (.imm 5) ⟨.and, true, 1⟩ .lt) ∧
  decodes 0x00813A0280FFFFFB (.braFull ⟨false, 0, false, 3⟩ 0xFFFFFB) ∧
  decodes 0x00807A0280A00000 (.nop h) ∧
  decodes 0x00C3702804014061 (.ffma h (.v 10) (.v 4) (.v 5) (.v 6) .rz false false) ∧
  decodes 0x00E0700807A00601 (.cvt h (.v 2) (.v 7) .e4m3 .fp32 .rn true) ∧
  decodes 0x0100702002C40B00 (.ld h (.v 8) (.v 2) (.imm 16) ⟨.c, .b64, false, .keep⟩) ∧
  decodes 0x01307028040305C1 (.atom h (.v 10) (.v 4) (.v 12) .add ⟨.g, true, .ar, .die⟩) ∧
  decodes 0x0153742280A00000 (.cbara h (.s 8) 0) ∧
  decodes 0x016A7A0280A00000 (.xfence h false) ∧
  decodes 0x01A0105280A02800 (.mxb ⟨false, 0, false, 1⟩ (.v 20) .zero .zero .zero) ∧
  decodes 0x01C3741904414000 (.notify h (.s 6) (.s 4) (.s 5)) ∧
  decodes 0x01D17A0109A0000E (.wrsys h (.s 9) false 14) ∧
  decodes 0x01D7742148A00000 (.tlbinv h (.s 8) (.s 72)) ∧
  decodes 0x01F27A010CA00003 (.mark h 3 (.s 12)) ∧
  decodeBytes (toBytes 8 0xFFFFFFFFFFFFFFFF) = .error .reservedFormat ∧
  decodeBytes (toBytes 8 0x01FF7A0280A00000) = .error .unassigned

/-- Every well-formed instruction's word fits 64 bits, the decoder reads the instruction back from the word and from its bytes in memory,
and so no two instructions share a word (R2, R28 to R35, R44); what the decoder reads from a word is well-formed; a word with F = 11, and a full word
whose opcode the map leaves unassigned, is refused (R46). -/
def Obligations.RoundTrip : Prop :=
  (∀ i, i.wf = true → encode i < 2 ^ 64 ∧ decodeWord (encode i) = .ok i ∧ decodeBytes (encodeBytes i) = .ok i) ∧
  (∀ i j, i.wf = true → j.wf = true → encode i = encode j → i = j) ∧
  (∀ w i, decodeWord w = .ok i → i.wf = true) ∧
  (∀ w, w / 2 ^ 62 % 4 = 3 → decodeWord w = .error .reservedFormat) ∧
  (∀ w, w / 2 ^ 62 % 4 = 0 → w / 2 ^ 48 % 512 / 16 ∈ [4, 5, 6, 7, 10, 11, 15, 17, 18, 20, 23, 25, 30] → decodeWord w = .error .unassigned)

/-- The group a port issues (R76) is a resident, unretired group that nothing holds; when some ready group has waited 1,008 ready clk or more, it is the
one with the largest age count and, among equals, the oldest; otherwise the group that issued last on the port when it is ready; otherwise the oldest
ready group. A port of a core that runs picks some group whenever one is ready, the port has not issued in the clk and the slot is not withheld. -/
def Obligations.PortChoice : Prop := ∀ (s : State) (core port : Nat),
  let ready : Nat × Group → Prop := fun x => x ∈ s.groups ∧ x.2.core = core ∧ x.2.port = port ∧ x.2.retired = false ∧ s.mayIssue x.1 x.2 = true ∧ s.holdOf x.2 = none
  let last := kget (s.core core).lastIssuer port
  (∀ k g, s.pick core port = some (k, g) → ready (k, g) ∧
    ((∃ x, ready x ∧ 1008 ≤ x.2.ageCount) → ∀ x, ready x → x.2.ageCount ≤ g.ageCount ∧ (x.2.ageCount = g.ageCount → g.born ≤ x.2.born)) ∧
    ((∀ x, ready x → x.2.ageCount < 1008) →
      ((∃ x, ready x ∧ last = some x.1) → last = some k) ∧ ((∀ x, ready x → last ≠ some x.1) → ∀ x, ready x → g.born ≤ x.2.born))) ∧
  (s.coreRuns core = true → kget (s.core core).issued port = none → s.withheldSlot core port = false → (∃ x, ready x) → ∃ x, s.pick core port = some x)

/-- A step of a package that is on does what is due first; with nothing due and no stop in re-execution, the first group that a port picks (R76) runs the word at its issue
address: the instruction that its eight bytes decode to when that is legal for the group (R46), the bytes coming from its core's instruction cache, or on a
supervisor, service or boot core from physical memory (log 61); any other bytes kill the group (R47). An event on the agenda runs next; with no group to issue, the clk ends; a
package that is off does not step. -/
def Obligations.StepRunsWord : Prop := ∀ (s : State),
  (s.pkg.on = false → step s = .fault .packageOff) ∧
  (s.pkg.on = true →
    (∀ e t, s.ctlq = [] → s.agenda = e :: t → step s = exec e { s with agenda := t }) ∧
    (s.dueAct = none → s.dry = none →
      (∀ gid g pc b, s.groups.findSome? (fun x => s.pick x.2.core x.2.port) = some (gid, g) → g.issuePc = some pc →
        (if g.isSup then s.bytes (flatPhys (pc.toNat * 8)) 8 = b
          else ∃ line, kget (s.core g.core).icache (pc.toNat / 16) = some line ∧ (line.drop (pc.toNat % 16 * 8)).take 8 = b) →
        (∀ i, decodeBytes b = .ok i → legalFor g i = true → step s = exec i { s with focus := gid }) ∧
        (∀ i, decodeBytes b = .ok i → legalFor g i = false → step s = exec (.illegalWordKill gid) s) ∧
        (∀ r, decodeBytes b = .error r → step s = exec (.illegalWordKill gid) s)) ∧
      ((∀ x ∈ s.groups, s.pick x.2.core x.2.port = none) → step s = .next s.endClk)))

/-- What a register will read at a stall distance (R37 to R39). A window of latency L, opened by a word, gives its cells at every distance of at least L, the
latest word in program order winning; a word with stall count S moves every open window of its group, and its own, on by 1 + S, and changes no other
reading: stated for NOP, which opens none, and for a result of latency 4 (IADD), 5 (IMUL) and 12 (FRCP), at every distance n behind it. -/
def Obligations.ValueByDistance : Prop := ∀ (h : Hdr) (d a b : Opnd) (r : Rnd) (s : State) (g : Group) (pc : Pc),
  let reads : List Window → List (Nat × Word) → Nat → Nat → Word := fun ws regs n key =>
    (lastAt ((ws.filter (fun w => decide (w.left ≤ n))).flatMap (fun w => w.cells)) key).getD (cget 0 regs key)
  let after : Instr → List Window → Prop := fun i ws => Ready (info i) (ownKeys (info i)) s g pc →
    ∃ t y, exec i s = .next t ∧ t.grp s.focus = some y ∧
      (∀ n key, reads y.windows y.regs n key = reads (g.windows ++ ws) g.regs (n + (1 + h.stall.val)) key) ∧
      ∀ q l, y.cell q l = reads (g.windows ++ ws) g.regs (1 + h.stall.val) (cellKey q l)
  let E : Instr → Group := fun i => g.entered (info i)
  let X : Instr → List Nat := fun i => (E i).exLanes (info i) g.active
  after (.nop h) [] ∧
  after (.iadd h d a b .wrap) [⟨4, dstCells d 0 (X (.iadd h d a b .wrap)) (fun l => (E (.iadd h d a b .wrap)).rd l a + (E (.iadd h d a b .wrap)).rd l b)⟩] ∧
  after (.imul h d a b) [⟨5, dstCells d 0 (X (.imul h d a b)) (fun l => (E (.imul h d a b)).rd l a * (E (.imul h d a b)).rd l b)⟩] ∧
  after (.frcp h d a r) [⟨12, dstCells d 0 (X (.frcp h d a r)) (fun l => BitVec.ofNat 32 (frcpVal r ((E (.frcp h d a r)).f32 l a)))⟩]

/-- With SCHK set, a word that would read a source cell, its guard included, that an open fixed-latency window holds does not execute: the group enters
the trap STALL_SHORT at the word, every active lane's PC still at it, with no effect of the word (R41). The word counts in RETCNT above the handler's level (R403), and no
region is entered by it (the model's reading, log 100). Stated for words of the integer, floating, branch, memory, atomic, barrier, work and system families. -/
def Obligations.StallShort : Prop := ∀ (h : Hdr) (d a b c : Opnd) (sat : Sat) (r : Rnd) (fm : FMods) (off : BitVec 24) (m : MemMod) (op : AOp) (am : AtomMod)
    (n : Fin 16) (rs : RecSize) (w64 : Bool) (reg : Fin 1024) (s : State) (g : Group) (pc : Pc),
  s.pkg.on = true → s.dry = none → s.grp s.focus = some g → g.issuePc = some pc →
  let shorts : Instr → Prop := fun i =>
    (g.early (info i) (ownKeys (info i)) = true ↔ g.schk = true ∧ ∃ k, (k ∈ (guardRegs (info i)).flatMap (regKeys (lanesOf g.active)) ∨
      k ∈ (srcRegs (info i)).flatMap (regKeys (g.exLanes (info i) g.active))) ∧ ∃ w ∈ g.windows, ∃ x ∈ w.cells, x.1 = k) ∧
    (g.early (info i) (ownKeys (info i)) = true → ∃ u, exec i s = .next (u.enterTrap s.focus
        ⟨false, pc, [⟨(lowestLane g.active).getD 0, .stallShort, 0, 0, 0, kindOther, 0, false⟩]⟩) ∧
      u.grp s.focus = some { g with retcnt := if g.inRegion then g.counted else g.retcnt } ∧ StateKept s.focus s u)
  shorts (.nop h) ∧ shorts (.iadd h d a b sat) ∧ shorts (.imad h d a b c) ∧ shorts (.sel h d a b false 0) ∧ shorts (.fadd h d a b r fm) ∧ shorts (.fdiv h d a b r) ∧
  shorts (.braFull h off) ∧ shorts (.brx h a) ∧ shorts (.push h a .b32) ∧ shorts (.ld h d a b m) ∧ shorts (.st h d a b m) ∧ shorts (.atom h d a b op am) ∧
  shorts (.bara h d n) ∧ shorts (.sleepc h a) ∧ shorts (.emit h a b rs) ∧ shorts (.notify h d a b) ∧ shorts (.wrsys h a w64 reg) ∧ shorts (.clock h d)

/-- The machine right after package reset, where the spec says what it holds: CLOCK is 0, every core belongs to the idle account and every slot count is 0
(R382); only die 20 is UP, and LIVEMASK reads 0x10_0000 (R359, R375); no table slot of a sequencer is valid and its sample records are zero (R287); the
front end is not loaded and every queue port is DISABLED with zero registers (R313, R415); the core frequency is 1,800 MHz, PLIM 4,400 W and the other management
registers, with the measurement log, zero (R417, R419, R424, R425); so are the Ethernet ports' registers but for MEDIA (R423) and every die's control
registers (R421). The invariant `Inv` of every step holds there. What a register without a reset value holds is the model's choice (logs 1, 2 and 20) and is not stated. -/
def Obligations.ResetState : Prop :=
  let s := State.reset
  let io : Nat → Nat := fun o => s.ctlRead (20 * 2 ^ 24 + o)
  (s.pkg.on = true ∧ s.pkg.clock = 0 ∧ ∀ c, (s.core c).owner = 0 ∧ (s.core c).changing = none ∧ ∀ k, kget (s.core c).counters k = none) ∧
  (∀ d, (s.die d).st = if d = 20 then .up else .down) ∧
  (∀ gid g, s.sysRead gid g .livemask = 0x100000) ∧
  (∀ k j, kget (s.ccl k).slots j = none ∧ kget (s.ccl k).samples j = none) ∧
  s.fe.loaded = false ∧
  (∀ p, (s.port p).state = 0 ∧ (s.port p).en = false ∧ ∀ o, (s.port p).regRead o = 0) ∧
  (∀ o, o < 0x400000 → io o = 0) ∧
  io 0x400108 = 1800 ∧ io 0x400200 = 4400 ∧
  (∀ o, 0x400000 ≤ o → o < 0x403000 → o ≠ 0x400108 → o ≠ 0x400200 → io o = 0) ∧
  (∀ o, 0x500000 ≤ o → o < 0x580000 → o % 0x10000 ≠ 0 → io o = 0) ∧
  (∀ d o, d ≤ 20 → 0xF00000 ≤ o → o < 2 ^ 24 → s.ctlRead (d * 2 ^ 24 + o) = 0) ∧
  Inv s

/-- From the bits of the word on (R58): a full word with opcode 0x010 to 0x013 is legal only with M14 = 0, and what the decoder reads from it
takes its operands from the fields D, A and B and gives D the bitwise AND, OR, XOR or AND NOT of A and B, in every lane it executes in. -/
def Obligations.BitwiseRules : Prop := ∀ (w : Nat), w / 2 ^ 62 % 4 = 0 →
  let op := w / 2 ^ 48 % 512
  let legal : (Opnd → Opnd → Opnd → Instr → Prop) → Prop := fun does =>
    (w % 2 ^ 14 ≠ 0 → ∃ r, decodeWord w = .error r) ∧
    ∀ i, decodeWord w = .ok i → ∃ d a b, opndOf (w / 2 ^ 34 % 1024) = some d ∧ opndOf (w / 2 ^ 24 % 1024) = some a ∧
      opndOf (w / 2 ^ 14 % 1024) = some b ∧ does d a b i
  (op = 0x010 → legal (fun d a b i => Result1 i d (fun g l => g.rd l a &&& g.rd l b))) ∧
  (op = 0x011 → legal (fun d a b i => Result1 i d (fun g l => g.rd l a ||| g.rd l b))) ∧
  (op = 0x012 → legal (fun d a b i => Result1 i d (fun g l => g.rd l a ^^^ g.rd l b))) ∧
  (op = 0x013 → legal (fun d a b i => Result1 i d (fun g l => g.rd l a &&& ~~~g.rd l b)))

/-- A word with E = 1 above the handler's level makes the region entry before its own effect, whatever its guard and once for a pair (R45): RGNCNT goes up by one,
wrapping, EVPC and ELSP take the lanes' PCs and stack pointers, the signature is reset, and RETCNT reads 1 after the word (R94); RETCNT with E therefore
returns 0 and the new RGNCNT (R390). At HANDLER level it leaves them all. The first word of a restarted or new region makes no second entry (R94, R95). Stated for words with no effect
beyond their registers. -/
def Obligations.RegionEntry : Prop := ∀ (h : Hdr) (d a b : Opnd) (stall : Fin 8) (x y : Half) (s : State) (g : Group) (pc : Pc), h.e = true →
  let enters : Instr → (Group → List Nat → List Nat) → Prop := fun i keys => Ready (info i) keys s g pc →
    ∃ t u, exec i s = .next t ∧ t.grp s.focus = some u ∧
      (g.inRegion = true → g.regionStart = false → u.rgncnt = g.rgncnt + 1 ∧ u.evpc = g.vpc ∧ u.elsp = g.lsp ∧ u.retcnt = 1 ∧ u.rsig = 0) ∧
      (g.inRegion = true → g.regionStart = true → u.rgncnt = g.rgncnt ∧ u.evpc = g.evpc ∧ u.elsp = g.elsp ∧ u.retcnt = g.counted ∧ u.rsig = g.rsig) ∧
      (g.inRegion = false → u.rgncnt = g.rgncnt ∧ u.evpc = g.evpc ∧ u.elsp = g.elsp ∧ u.retcnt = g.retcnt ∧ u.rsig = g.rsig)
  enters (.nop h) (ownKeys (info (.nop h))) ∧
  enters (.iadd h d a b .wrap) (ownKeys (info (.iadd h d a b .wrap))) ∧
  enters (.mov h d a) (ownKeys (info (.mov h d a))) ∧
  enters (.fmul h d a b .rn ⟨false, false, false, false⟩) (ownKeys (info (.fmul h d a b .rn ⟨false, false, false, false⟩))) ∧
  enters (.pairWord true stall x y) (fun g ex => halfKeys g ex x ++ halfKeys g ex y) ∧
  enters (.retcnt h d) (ownKeys (info (.retcnt h d))) ∧
  (Ready (info (.retcnt h d)) (ownKeys (info (.retcnt h d))) s g pc → g.inRegion = true → g.regionStart = false →
    Completes (.retcnt h d) s g pc (dstCellsN d 2 (g.exLanes (info (.retcnt h d)) g.active) (fun j _ => if j = 0 then 0 else g.rgncnt + 1)))

/-- From the bits of the word on (R61): a full word with opcode 0x01C to 0x01F is legal only with M14 = 0, and what the decoder reads from it
takes its operands from the fields D and A and gives D the number of A's one bits, of the zero bits above its highest or below its lowest one bit,
32 for A = 0, or its bits in reverse, in every lane it executes in. -/
def Obligations.CountRules : Prop := ∀ (w : Nat), w / 2 ^ 62 % 4 = 0 →
  let op := w / 2 ^ 48 % 512
  let legal : (Opnd → Opnd → Instr → Prop) → Prop := fun does =>
    (w % 2 ^ 14 ≠ 0 → ∃ r, decodeWord w = .error r) ∧
    ∀ i, decodeWord w = .ok i → ∃ d a, opndOf (w / 2 ^ 34 % 1024) = some d ∧ opndOf (w / 2 ^ 24 % 1024) = some a ∧ does d a i
  (op = 0x01C → legal (fun d a i => Result1 i d (fun g l => BitVec.ofNat 32 ((List.range 32).countP (fun j => (g.rd l a).getLsbD j))))) ∧
  (op = 0x01D → legal (fun d a i => ∃ n : Word → Nat, Result1 i d (fun g l => BitVec.ofNat 32 (n (g.rd l a))) ∧ n 0 = 32 ∧
    ∀ x : Word, ∀ k, k < 32 → x.getLsbD k = true → (∀ j, k < j → x.getLsbD j = false) → n x = 31 - k)) ∧
  (op = 0x01E → legal (fun d a i => ∃ n : Word → Nat, Result1 i d (fun g l => BitVec.ofNat 32 (n (g.rd l a))) ∧ n 0 = 32 ∧
    ∀ x : Word, ∀ k, k < 32 → x.getLsbD k = true → (∀ j, j < k → x.getLsbD j = false) → n x = k)) ∧
  (op = 0x01F → legal (fun d a i => ∃ r : Word → Word, Result1 i d (fun g l => r (g.rd l a)) ∧ ∀ x j, j < 32 → (r x).getLsbD j = x.getLsbD (31 - j)))

/-- Every step, of any state, that answers a next state keeps the machine's invariant: the memory stays in its one canonical form (addresses strictly
rising, no entry equal to what an unlisted address reads as, so that equal memories are equal data); and the core clock and the clock plan stay candidate frequencies, the clock
at or below its plan, and the power limit a step of 50 W between 2,000 W and 4,400 W (R417 to R419). The memory's form is the model's own (log 1). -/
def Obligations.StepKeepsInvariant : Prop := ∀ s t : State, Inv s → step s = .next t → Inv t
end

