-- ==== Sys2Proof/Laws/Maps.lean ====
section
/-! SUPPORT. The laws of the sparse maps: reading after a change, and the canonical forms that every change keeps. -/

namespace Sys2Proof.Machine

/-- Reading the key just put. -/
@[simp] theorem kget_kset_self {α : Type} (m : List (Nat × α)) (k : Nat) (v : α) : kget (kset m k v) k = some v := by
  induction m with
  | nil => simp [kset, kget]
  | cons e t ih => obtain ⟨j, u⟩ := e; simp only [kset]; split_ifs <;> simp_all [kget]

/-- Reading another key than the one put. -/
theorem kget_kset_ne {α : Type} (m : List (Nat × α)) {k n : Nat} (v : α) (h : n ≠ k) : kget (kset m k v) n = kget m n := by
  induction m with
  | nil => simp [kset, kget, Ne.symm h]
  | cons e t ih => obtain ⟨j, u⟩ := e; simp only [kset]; split_ifs <;> simp_all [kget, Ne.symm h]

/-- Reading after a put. -/
theorem kget_kset {α : Type} (m : List (Nat × α)) (k n : Nat) (v : α) : kget (kset m k v) n = if n = k then some v else kget m n := by
  split
  · subst n; simp
  · exact kget_kset_ne m v ‹_›

/-- Reading a dropped key. -/
@[simp] theorem kget_kdel_self {α : Type} (m : List (Nat × α)) (k : Nat) : kget (kdel m k) k = none := by
  induction m with
  | nil => rfl
  | cons e t ih => obtain ⟨j, u⟩ := e; by_cases h : j = k <;> simp_all [kdel, kget]

/-- Reading another key than the one dropped. -/
theorem kget_kdel_ne {α : Type} (m : List (Nat × α)) {k n : Nat} (h : n ≠ k) : kget (kdel m k) n = kget m n := by
  induction m with
  | nil => rfl
  | cons e t ih =>
    obtain ⟨j, u⟩ := e
    by_cases hj : j = k
    · subst hj; simp_all [kdel, kget, Ne.symm h]
    · simp_all [kdel, kget]

/-- Reading a changed map. -/
theorem kget_kmap {α : Type} (m : List (Nat × α)) (f : Nat → α → α) (k : Nat) : kget (kmap m f) k = (kget m k).map (f k) := by
  induction m with
  | nil => rfl
  | cons e t ih => obtain ⟨j, u⟩ := e; by_cases h : j = k <;> simp_all [kmap, kget]

/-- Reading the value at a changed key. -/
theorem kget_kmod {α : Type} (m : List (Nat × α)) (k n : Nat) (f : α → α) :
    kget (kmod m k f) n = if n = k then (kget m n).map f else kget m n := by
  induction m with
  | nil => simp [kmod, kget]
  | cons e t ih =>
    obtain ⟨j, u⟩ := e
    simp only [kmod, List.map_cons, kget] at ih ⊢
    by_cases hj : j = k <;> by_cases hn : j = n <;> by_cases hk : n = k <;> simp_all

/-- Reading a map with a default after a write. -/
theorem cget_cset {α : Type} [DecidableEq α] (d : α) (m : List (Nat × α)) (k n : Nat) (v : α) :
    cget d (cset d m k v) n = if n = k then v else cget d m n := by
  unfold cget cset
  by_cases hv : v = d <;> by_cases hn : n = k
  · subst hn; simp [hv]
  · simp [hv, hn, kget_kdel_ne m hn]
  · subst hn; simp [hv]
  · simp [hv, hn, kget_kset_ne m v hn]

/-- Reading from two lists, one after the other. -/
theorem kget_append {α : Type} (a b : List (Nat × α)) (k : Nat) : kget (a ++ b) k = (kget a k).or (kget b k) := by
  induction a with
  | nil => simp [kget]
  | cons e t ih => obtain ⟨j, u⟩ := e; by_cases h : j = k <;> simp_all [kget]

@[simp] theorem lastAt_nil {α : Type} (k : Nat) : lastAt ([] : List (Nat × α)) k = none := rfl

/-- The last value of two lists of writes. -/
theorem lastAt_append {α : Type} (a b : List (Nat × α)) (k : Nat) : lastAt (a ++ b) k = (lastAt b k).or (lastAt a k) := by
  simp [lastAt, kget_append]

theorem lastAt_cons {α : Type} (e : Nat × α) (l : List (Nat × α)) (k : Nat) :
    lastAt (e :: l) k = (lastAt l k).or (if e.1 = k then some e.2 else none) := by
  simp [lastAt, kget_append, kget]

/-- Reading a map with a default after several writes. -/
theorem cget_csets {α : Type} [DecidableEq α] (d : α) (m l : List (Nat × α)) (k : Nat) :
    cget d (csets d m l) k = (lastAt l k).getD (cget d m k) := by
  induction l generalizing m with
  | nil => simp [csets]
  | cons e t ih =>
    have := ih (cset d m e.1 e.2)
    simp only [csets, List.foldl_cons] at this ⊢
    rw [this, lastAt_cons, cget_cset]
    cases lastAt t k <;> simp [eq_comm]
    split <;> simp

/-- The value that writes made one for each lane of a list give a lane. -/
theorem lastAt_lanes {α : Type} (l : List Nat) (f : Nat → α) (k : Nat) :
    lastAt (l.map (fun j => (j, f j))) k = if k ∈ l then some (f k) else none := by
  induction l with
  | nil => simp
  | cons a t ih =>
    rw [List.map_cons, lastAt_cons, ih]
    by_cases h : k ∈ t
    · simp [h]
    · by_cases ha : a = k
      · simp [h, ha]
      · simp [h, ha, Ne.symm ha]

theorem risingFrom_mono {α : Type} {a b : Nat} (h : a ≤ b) {m : List (Nat × α)} (hm : risingFrom b m = true) :
    risingFrom a m = true := by
  cases m with
  | nil => rfl
  | cons e t => simp_all [risingFrom]; omega

/-- A put keeps the keys rising. -/
theorem risingFrom_kset {α : Type} {b : Nat} {m : List (Nat × α)} {k : Nat} (v : α) (hk : b ≤ k) (hm : risingFrom b m = true) :
    risingFrom b (kset m k v) = true := by
  induction m generalizing b with
  | nil => simp [kset, risingFrom, hk]
  | cons e t ih =>
    obtain ⟨j, u⟩ := e
    simp only [risingFrom, Bool.and_eq_true, decide_eq_true_eq] at hm
    simp only [kset]
    split_ifs with h1 h2
    · simp [risingFrom, hk, hm.2]; omega
    · subst h2; simp [risingFrom, hm]
    · simp only [risingFrom, Bool.and_eq_true, decide_eq_true_eq]
      exact ⟨hm.1, ih (by omega) hm.2⟩

/-- A filter keeps the keys rising. -/
theorem risingFrom_filter {α : Type} {b : Nat} {m : List (Nat × α)} (p : Nat × α → Bool) (hm : risingFrom b m = true) :
    risingFrom b (m.filter p) = true := by
  induction m generalizing b with
  | nil => rfl
  | cons e t ih =>
    obtain ⟨j, u⟩ := e
    simp only [risingFrom, Bool.and_eq_true, decide_eq_true_eq] at hm
    rw [List.filter_cons]
    split
    · simp [risingFrom, hm.1, ih hm.2]
    · exact risingFrom_mono (by omega) (ih hm.2)

/-- A change of the values keeps the keys rising. -/
theorem risingFrom_map {α β : Type} {b : Nat} (f : Nat × α → β) {m : List (Nat × α)} (hm : risingFrom b m = true) :
    risingFrom b (m.map (fun e => (e.1, f e))) = true := by
  induction m generalizing b with
  | nil => rfl
  | cons e t ih => obtain ⟨j, u⟩ := e; simp_all [risingFrom]

/-- The entries of a map after a put are old ones or the new one. -/
theorem mem_kset {α : Type} {m : List (Nat × α)} {k : Nat} {v : α} {e : Nat × α} (h : e ∈ kset m k v) : e ∈ m ∨ e = (k, v) := by
  induction m with
  | nil => simp_all [kset]
  | cons x t ih =>
    obtain ⟨j, u⟩ := x
    simp only [kset] at h
    split_ifs at h <;> simp_all <;> tauto

/-- A write keeps the canonical form of a map with a default. -/
theorem cwf_cset {α : Type} [DecidableEq α] {d : α} {m : List (Nat × α)} (k : Nat) (v : α) (h : cwf d m = true) :
    cwf d (cset d m k v) = true := by
  simp only [cwf, Bool.and_eq_true, List.all_eq_true, decide_eq_true_eq] at h ⊢
  unfold cset
  split_ifs with hv
  · exact ⟨risingFrom_filter _ h.1, fun e he => h.2 e (List.mem_of_mem_filter he)⟩
  · refine ⟨risingFrom_kset v (Nat.zero_le _) h.1, fun e he => ?_⟩
    rcases mem_kset he with he | rfl
    · exact h.2 e he
    · exact hv

/-- Several writes keep the canonical form. -/
theorem cwf_csets {α : Type} [DecidableEq α] {d : α} {m : List (Nat × α)} (l : List (Nat × α)) (h : cwf d m = true) :
    cwf d (csets d m l) = true := by
  induction l generalizing m with
  | nil => exact h
  | cons e t ih => exact ih (cwf_cset e.1 e.2 h)

/-- Dropping entries keeps the canonical form. -/
theorem cwf_filter {α : Type} [DecidableEq α] {d : α} {m : List (Nat × α)} (p : Nat × α → Bool) (h : cwf d m = true) :
    cwf d (m.filter p) = true := by
  simp only [cwf, Bool.and_eq_true, List.all_eq_true, decide_eq_true_eq] at h ⊢
  exact ⟨risingFrom_filter _ h.1, fun e he => h.2 e (List.mem_of_mem_filter he)⟩

/-- A key set twice has the last value. -/
theorem kset_kset {α : Type} (m : List (Nat × α)) (k : Nat) (a b : α) : kset (kset m k a) k b = kset m k b := by
  induction m with
  | nil => simp [kset]
  | cons e t ih =>
    obtain ⟨j, u⟩ := e
    by_cases h1 : k < j
    · simp [kset, h1]
    · by_cases h2 : j = k
      · subst h2; simp [kset]
      · simp [kset, h1, h2, ih]

end Sys2Proof.Machine
end

