-- ==== Sys2Proof/Laws/State.lean ====
section
/-! SUPPORT. What each change of one part of the state does to every field of it: one lemma for a field and a change, so that no
later proof unfolds a record update. -/

namespace Sys2Proof.Machine

/- Changes made by `setGrp`. -/
@[simp] theorem State.setGrp_pkg (s : State) (g : Nat) (x : Group) : (s.setGrp g x).pkg = s.pkg := rfl
@[simp] theorem State.setGrp_agenda (s : State) (g : Nat) (x : Group) : (s.setGrp g x).agenda = s.agenda := rfl
@[simp] theorem State.setGrp_focus (s : State) (g : Nat) (x : Group) : (s.setGrp g x).focus = s.focus := rfl
@[simp] theorem State.setGrp_free (s : State) (g : Nat) (x : Group) : (s.setGrp g x).free = s.free := rfl
@[simp] theorem State.setGrp_serial (s : State) (g : Nat) (x : Group) : (s.setGrp g x).serial = s.serial := rfl
@[simp] theorem State.setGrp_groups (s : State) (g : Nat) (x : Group) : (s.setGrp g x).groups = kset s.groups g x := rfl
@[simp] theorem State.setGrp_teams (s : State) (g : Nat) (x : Group) : (s.setGrp g x).teams = s.teams := rfl
@[simp] theorem State.setGrp_lclusters (s : State) (g : Nat) (x : Group) : (s.setGrp g x).lclusters = s.lclusters := rfl
@[simp] theorem State.setGrp_cores (s : State) (g : Nat) (x : Group) : (s.setGrp g x).cores = s.cores := rfl
@[simp] theorem State.setGrp_cclusters (s : State) (g : Nat) (x : Group) : (s.setGrp g x).cclusters = s.cclusters := rfl
@[simp] theorem State.setGrp_dies (s : State) (g : Nat) (x : Group) : (s.setGrp g x).dies = s.dies := rfl
@[simp] theorem State.setGrp_ctxs (s : State) (g : Nat) (x : Group) : (s.setGrp g x).ctxs = s.ctxs := rfl
@[simp] theorem State.setGrp_fe (s : State) (g : Nat) (x : Group) : (s.setGrp g x).fe = s.fe := rfl
@[simp] theorem State.setGrp_eth (s : State) (g : Nat) (x : Group) : (s.setGrp g x).eth = s.eth := rfl
@[simp] theorem State.setGrp_mem (s : State) (g : Nat) (x : Group) : (s.setGrp g x).mem = s.mem := rfl
@[simp] theorem State.setGrp_badWords (s : State) (g : Nat) (x : Group) : (s.setGrp g x).badWords = s.badWords := rfl
@[simp] theorem State.setGrp_jobs (s : State) (g : Nat) (x : Group) : (s.setGrp g x).jobs = s.jobs := rfl
@[simp] theorem State.setGrp_mjobs (s : State) (g : Nat) (x : Group) : (s.setGrp g x).mjobs = s.mjobs := rfl
@[simp] theorem State.setGrp_atoms (s : State) (g : Nat) (x : Group) : (s.setGrp g x).atoms = s.atoms := rfl
@[simp] theorem State.setGrp_wbs (s : State) (g : Nat) (x : Group) : (s.setGrp g x).wbs = s.wbs := rfl
@[simp] theorem State.setGrp_reqs (s : State) (g : Nat) (x : Group) : (s.setGrp g x).reqs = s.reqs := rfl
@[simp] theorem State.setGrp_shoots (s : State) (g : Nat) (x : Group) : (s.setGrp g x).shoots = s.shoots := rfl
@[simp] theorem State.setGrp_supOps (s : State) (g : Nat) (x : Group) : (s.setGrp g x).supOps = s.supOps := rfl
@[simp] theorem State.setGrp_dry (s : State) (g : Nat) (x : Group) : (s.setGrp g x).dry = s.dry := rfl
@[simp] theorem State.setGrp_ctlq (s : State) (g : Nat) (x : Group) : (s.setGrp g x).ctlq = s.ctlq := rfl

/- Changes made by `delGrp`. -/
@[simp] theorem State.delGrp_pkg (s : State) (g : Nat) : (s.delGrp g).pkg = s.pkg := rfl
@[simp] theorem State.delGrp_agenda (s : State) (g : Nat) : (s.delGrp g).agenda = s.agenda := rfl
@[simp] theorem State.delGrp_focus (s : State) (g : Nat) : (s.delGrp g).focus = s.focus := rfl
@[simp] theorem State.delGrp_free (s : State) (g : Nat) : (s.delGrp g).free = s.free := rfl
@[simp] theorem State.delGrp_serial (s : State) (g : Nat) : (s.delGrp g).serial = s.serial := rfl
@[simp] theorem State.delGrp_groups (s : State) (g : Nat) : (s.delGrp g).groups = kdel s.groups g := rfl
@[simp] theorem State.delGrp_teams (s : State) (g : Nat) : (s.delGrp g).teams = s.teams := rfl
@[simp] theorem State.delGrp_lclusters (s : State) (g : Nat) : (s.delGrp g).lclusters = s.lclusters := rfl
@[simp] theorem State.delGrp_cores (s : State) (g : Nat) : (s.delGrp g).cores = s.cores := rfl
@[simp] theorem State.delGrp_cclusters (s : State) (g : Nat) : (s.delGrp g).cclusters = s.cclusters := rfl
@[simp] theorem State.delGrp_dies (s : State) (g : Nat) : (s.delGrp g).dies = s.dies := rfl
@[simp] theorem State.delGrp_ctxs (s : State) (g : Nat) : (s.delGrp g).ctxs = s.ctxs := rfl
@[simp] theorem State.delGrp_fe (s : State) (g : Nat) : (s.delGrp g).fe = s.fe := rfl
@[simp] theorem State.delGrp_eth (s : State) (g : Nat) : (s.delGrp g).eth = s.eth := rfl
@[simp] theorem State.delGrp_mem (s : State) (g : Nat) : (s.delGrp g).mem = s.mem := rfl
@[simp] theorem State.delGrp_badWords (s : State) (g : Nat) : (s.delGrp g).badWords = s.badWords := rfl
@[simp] theorem State.delGrp_jobs (s : State) (g : Nat) : (s.delGrp g).jobs = s.jobs := rfl
@[simp] theorem State.delGrp_mjobs (s : State) (g : Nat) : (s.delGrp g).mjobs = s.mjobs := rfl
@[simp] theorem State.delGrp_atoms (s : State) (g : Nat) : (s.delGrp g).atoms = s.atoms := rfl
@[simp] theorem State.delGrp_wbs (s : State) (g : Nat) : (s.delGrp g).wbs = s.wbs := rfl
@[simp] theorem State.delGrp_reqs (s : State) (g : Nat) : (s.delGrp g).reqs = s.reqs := rfl
@[simp] theorem State.delGrp_shoots (s : State) (g : Nat) : (s.delGrp g).shoots = s.shoots := rfl
@[simp] theorem State.delGrp_supOps (s : State) (g : Nat) : (s.delGrp g).supOps = s.supOps := rfl
@[simp] theorem State.delGrp_dry (s : State) (g : Nat) : (s.delGrp g).dry = s.dry := rfl
@[simp] theorem State.delGrp_ctlq (s : State) (g : Nat) : (s.delGrp g).ctlq = s.ctlq := rfl

/- Changes made by `modGrp`. -/
@[simp] theorem State.modGrp_pkg (s : State) (g : Nat) (f : Group → Group) : (s.modGrp g f).pkg = s.pkg := rfl
@[simp] theorem State.modGrp_agenda (s : State) (g : Nat) (f : Group → Group) : (s.modGrp g f).agenda = s.agenda := rfl
@[simp] theorem State.modGrp_focus (s : State) (g : Nat) (f : Group → Group) : (s.modGrp g f).focus = s.focus := rfl
@[simp] theorem State.modGrp_free (s : State) (g : Nat) (f : Group → Group) : (s.modGrp g f).free = s.free := rfl
@[simp] theorem State.modGrp_serial (s : State) (g : Nat) (f : Group → Group) : (s.modGrp g f).serial = s.serial := rfl
@[simp] theorem State.modGrp_teams (s : State) (g : Nat) (f : Group → Group) : (s.modGrp g f).teams = s.teams := rfl
@[simp] theorem State.modGrp_lclusters (s : State) (g : Nat) (f : Group → Group) : (s.modGrp g f).lclusters = s.lclusters := rfl
@[simp] theorem State.modGrp_cores (s : State) (g : Nat) (f : Group → Group) : (s.modGrp g f).cores = s.cores := rfl
@[simp] theorem State.modGrp_cclusters (s : State) (g : Nat) (f : Group → Group) : (s.modGrp g f).cclusters = s.cclusters := rfl
@[simp] theorem State.modGrp_dies (s : State) (g : Nat) (f : Group → Group) : (s.modGrp g f).dies = s.dies := rfl
@[simp] theorem State.modGrp_ctxs (s : State) (g : Nat) (f : Group → Group) : (s.modGrp g f).ctxs = s.ctxs := rfl
@[simp] theorem State.modGrp_fe (s : State) (g : Nat) (f : Group → Group) : (s.modGrp g f).fe = s.fe := rfl
@[simp] theorem State.modGrp_eth (s : State) (g : Nat) (f : Group → Group) : (s.modGrp g f).eth = s.eth := rfl
@[simp] theorem State.modGrp_mem (s : State) (g : Nat) (f : Group → Group) : (s.modGrp g f).mem = s.mem := rfl
@[simp] theorem State.modGrp_badWords (s : State) (g : Nat) (f : Group → Group) : (s.modGrp g f).badWords = s.badWords := rfl
@[simp] theorem State.modGrp_jobs (s : State) (g : Nat) (f : Group → Group) : (s.modGrp g f).jobs = s.jobs := rfl
@[simp] theorem State.modGrp_mjobs (s : State) (g : Nat) (f : Group → Group) : (s.modGrp g f).mjobs = s.mjobs := rfl
@[simp] theorem State.modGrp_atoms (s : State) (g : Nat) (f : Group → Group) : (s.modGrp g f).atoms = s.atoms := rfl
@[simp] theorem State.modGrp_wbs (s : State) (g : Nat) (f : Group → Group) : (s.modGrp g f).wbs = s.wbs := rfl
@[simp] theorem State.modGrp_reqs (s : State) (g : Nat) (f : Group → Group) : (s.modGrp g f).reqs = s.reqs := rfl
@[simp] theorem State.modGrp_shoots (s : State) (g : Nat) (f : Group → Group) : (s.modGrp g f).shoots = s.shoots := rfl
@[simp] theorem State.modGrp_supOps (s : State) (g : Nat) (f : Group → Group) : (s.modGrp g f).supOps = s.supOps := rfl
@[simp] theorem State.modGrp_dry (s : State) (g : Nat) (f : Group → Group) : (s.modGrp g f).dry = s.dry := rfl
@[simp] theorem State.modGrp_ctlq (s : State) (g : Nat) (f : Group → Group) : (s.modGrp g f).ctlq = s.ctlq := rfl

/- Changes made by `modCore`. -/
@[simp] theorem State.modCore_pkg (s : State) (c : Nat) (f : Core → Core) : (s.modCore c f).pkg = s.pkg := rfl
@[simp] theorem State.modCore_agenda (s : State) (c : Nat) (f : Core → Core) : (s.modCore c f).agenda = s.agenda := rfl
@[simp] theorem State.modCore_focus (s : State) (c : Nat) (f : Core → Core) : (s.modCore c f).focus = s.focus := rfl
@[simp] theorem State.modCore_free (s : State) (c : Nat) (f : Core → Core) : (s.modCore c f).free = s.free := rfl
@[simp] theorem State.modCore_serial (s : State) (c : Nat) (f : Core → Core) : (s.modCore c f).serial = s.serial := rfl
@[simp] theorem State.modCore_groups (s : State) (c : Nat) (f : Core → Core) : (s.modCore c f).groups = s.groups := rfl
@[simp] theorem State.modCore_teams (s : State) (c : Nat) (f : Core → Core) : (s.modCore c f).teams = s.teams := rfl
@[simp] theorem State.modCore_lclusters (s : State) (c : Nat) (f : Core → Core) : (s.modCore c f).lclusters = s.lclusters := rfl
@[simp] theorem State.modCore_cores (s : State) (c : Nat) (f : Core → Core) : (s.modCore c f).cores = kset s.cores c (f (s.core c)) := rfl
@[simp] theorem State.modCore_cclusters (s : State) (c : Nat) (f : Core → Core) : (s.modCore c f).cclusters = s.cclusters := rfl
@[simp] theorem State.modCore_dies (s : State) (c : Nat) (f : Core → Core) : (s.modCore c f).dies = s.dies := rfl
@[simp] theorem State.modCore_ctxs (s : State) (c : Nat) (f : Core → Core) : (s.modCore c f).ctxs = s.ctxs := rfl
@[simp] theorem State.modCore_fe (s : State) (c : Nat) (f : Core → Core) : (s.modCore c f).fe = s.fe := rfl
@[simp] theorem State.modCore_eth (s : State) (c : Nat) (f : Core → Core) : (s.modCore c f).eth = s.eth := rfl
@[simp] theorem State.modCore_mem (s : State) (c : Nat) (f : Core → Core) : (s.modCore c f).mem = s.mem := rfl
@[simp] theorem State.modCore_badWords (s : State) (c : Nat) (f : Core → Core) : (s.modCore c f).badWords = s.badWords := rfl
@[simp] theorem State.modCore_jobs (s : State) (c : Nat) (f : Core → Core) : (s.modCore c f).jobs = s.jobs := rfl
@[simp] theorem State.modCore_mjobs (s : State) (c : Nat) (f : Core → Core) : (s.modCore c f).mjobs = s.mjobs := rfl
@[simp] theorem State.modCore_atoms (s : State) (c : Nat) (f : Core → Core) : (s.modCore c f).atoms = s.atoms := rfl
@[simp] theorem State.modCore_wbs (s : State) (c : Nat) (f : Core → Core) : (s.modCore c f).wbs = s.wbs := rfl
@[simp] theorem State.modCore_reqs (s : State) (c : Nat) (f : Core → Core) : (s.modCore c f).reqs = s.reqs := rfl
@[simp] theorem State.modCore_shoots (s : State) (c : Nat) (f : Core → Core) : (s.modCore c f).shoots = s.shoots := rfl
@[simp] theorem State.modCore_supOps (s : State) (c : Nat) (f : Core → Core) : (s.modCore c f).supOps = s.supOps := rfl
@[simp] theorem State.modCore_dry (s : State) (c : Nat) (f : Core → Core) : (s.modCore c f).dry = s.dry := rfl
@[simp] theorem State.modCore_ctlq (s : State) (c : Nat) (f : Core → Core) : (s.modCore c f).ctlq = s.ctlq := rfl

/- Changes made by `modCcl`. -/
@[simp] theorem State.modCcl_pkg (s : State) (k : Nat) (f : CCluster → CCluster) : (s.modCcl k f).pkg = s.pkg := rfl
@[simp] theorem State.modCcl_agenda (s : State) (k : Nat) (f : CCluster → CCluster) : (s.modCcl k f).agenda = s.agenda := rfl
@[simp] theorem State.modCcl_focus (s : State) (k : Nat) (f : CCluster → CCluster) : (s.modCcl k f).focus = s.focus := rfl
@[simp] theorem State.modCcl_free (s : State) (k : Nat) (f : CCluster → CCluster) : (s.modCcl k f).free = s.free := rfl
@[simp] theorem State.modCcl_serial (s : State) (k : Nat) (f : CCluster → CCluster) : (s.modCcl k f).serial = s.serial := rfl
@[simp] theorem State.modCcl_groups (s : State) (k : Nat) (f : CCluster → CCluster) : (s.modCcl k f).groups = s.groups := rfl
@[simp] theorem State.modCcl_teams (s : State) (k : Nat) (f : CCluster → CCluster) : (s.modCcl k f).teams = s.teams := rfl
@[simp] theorem State.modCcl_lclusters (s : State) (k : Nat) (f : CCluster → CCluster) : (s.modCcl k f).lclusters = s.lclusters := rfl
@[simp] theorem State.modCcl_cores (s : State) (k : Nat) (f : CCluster → CCluster) : (s.modCcl k f).cores = s.cores := rfl
@[simp] theorem State.modCcl_cclusters (s : State) (k : Nat) (f : CCluster → CCluster) : (s.modCcl k f).cclusters = kset s.cclusters k (f (s.ccl k)) := rfl
@[simp] theorem State.modCcl_dies (s : State) (k : Nat) (f : CCluster → CCluster) : (s.modCcl k f).dies = s.dies := rfl
@[simp] theorem State.modCcl_ctxs (s : State) (k : Nat) (f : CCluster → CCluster) : (s.modCcl k f).ctxs = s.ctxs := rfl
@[simp] theorem State.modCcl_fe (s : State) (k : Nat) (f : CCluster → CCluster) : (s.modCcl k f).fe = s.fe := rfl
@[simp] theorem State.modCcl_eth (s : State) (k : Nat) (f : CCluster → CCluster) : (s.modCcl k f).eth = s.eth := rfl
@[simp] theorem State.modCcl_mem (s : State) (k : Nat) (f : CCluster → CCluster) : (s.modCcl k f).mem = s.mem := rfl
@[simp] theorem State.modCcl_badWords (s : State) (k : Nat) (f : CCluster → CCluster) : (s.modCcl k f).badWords = s.badWords := rfl
@[simp] theorem State.modCcl_jobs (s : State) (k : Nat) (f : CCluster → CCluster) : (s.modCcl k f).jobs = s.jobs := rfl
@[simp] theorem State.modCcl_mjobs (s : State) (k : Nat) (f : CCluster → CCluster) : (s.modCcl k f).mjobs = s.mjobs := rfl
@[simp] theorem State.modCcl_atoms (s : State) (k : Nat) (f : CCluster → CCluster) : (s.modCcl k f).atoms = s.atoms := rfl
@[simp] theorem State.modCcl_wbs (s : State) (k : Nat) (f : CCluster → CCluster) : (s.modCcl k f).wbs = s.wbs := rfl
@[simp] theorem State.modCcl_reqs (s : State) (k : Nat) (f : CCluster → CCluster) : (s.modCcl k f).reqs = s.reqs := rfl
@[simp] theorem State.modCcl_shoots (s : State) (k : Nat) (f : CCluster → CCluster) : (s.modCcl k f).shoots = s.shoots := rfl
@[simp] theorem State.modCcl_supOps (s : State) (k : Nat) (f : CCluster → CCluster) : (s.modCcl k f).supOps = s.supOps := rfl
@[simp] theorem State.modCcl_dry (s : State) (k : Nat) (f : CCluster → CCluster) : (s.modCcl k f).dry = s.dry := rfl
@[simp] theorem State.modCcl_ctlq (s : State) (k : Nat) (f : CCluster → CCluster) : (s.modCcl k f).ctlq = s.ctlq := rfl

/- Changes made by `modDie`. -/
@[simp] theorem State.modDie_pkg (s : State) (d : Nat) (f : Die → Die) : (s.modDie d f).pkg = s.pkg := rfl
@[simp] theorem State.modDie_agenda (s : State) (d : Nat) (f : Die → Die) : (s.modDie d f).agenda = s.agenda := rfl
@[simp] theorem State.modDie_focus (s : State) (d : Nat) (f : Die → Die) : (s.modDie d f).focus = s.focus := rfl
@[simp] theorem State.modDie_free (s : State) (d : Nat) (f : Die → Die) : (s.modDie d f).free = s.free := rfl
@[simp] theorem State.modDie_serial (s : State) (d : Nat) (f : Die → Die) : (s.modDie d f).serial = s.serial := rfl
@[simp] theorem State.modDie_groups (s : State) (d : Nat) (f : Die → Die) : (s.modDie d f).groups = s.groups := rfl
@[simp] theorem State.modDie_teams (s : State) (d : Nat) (f : Die → Die) : (s.modDie d f).teams = s.teams := rfl
@[simp] theorem State.modDie_lclusters (s : State) (d : Nat) (f : Die → Die) : (s.modDie d f).lclusters = s.lclusters := rfl
@[simp] theorem State.modDie_cores (s : State) (d : Nat) (f : Die → Die) : (s.modDie d f).cores = s.cores := rfl
@[simp] theorem State.modDie_cclusters (s : State) (d : Nat) (f : Die → Die) : (s.modDie d f).cclusters = s.cclusters := rfl
@[simp] theorem State.modDie_dies (s : State) (d : Nat) (f : Die → Die) : (s.modDie d f).dies = kset s.dies d (f (s.die d)) := rfl
@[simp] theorem State.modDie_ctxs (s : State) (d : Nat) (f : Die → Die) : (s.modDie d f).ctxs = s.ctxs := rfl
@[simp] theorem State.modDie_fe (s : State) (d : Nat) (f : Die → Die) : (s.modDie d f).fe = s.fe := rfl
@[simp] theorem State.modDie_eth (s : State) (d : Nat) (f : Die → Die) : (s.modDie d f).eth = s.eth := rfl
@[simp] theorem State.modDie_mem (s : State) (d : Nat) (f : Die → Die) : (s.modDie d f).mem = s.mem := rfl
@[simp] theorem State.modDie_badWords (s : State) (d : Nat) (f : Die → Die) : (s.modDie d f).badWords = s.badWords := rfl
@[simp] theorem State.modDie_jobs (s : State) (d : Nat) (f : Die → Die) : (s.modDie d f).jobs = s.jobs := rfl
@[simp] theorem State.modDie_mjobs (s : State) (d : Nat) (f : Die → Die) : (s.modDie d f).mjobs = s.mjobs := rfl
@[simp] theorem State.modDie_atoms (s : State) (d : Nat) (f : Die → Die) : (s.modDie d f).atoms = s.atoms := rfl
@[simp] theorem State.modDie_wbs (s : State) (d : Nat) (f : Die → Die) : (s.modDie d f).wbs = s.wbs := rfl
@[simp] theorem State.modDie_reqs (s : State) (d : Nat) (f : Die → Die) : (s.modDie d f).reqs = s.reqs := rfl
@[simp] theorem State.modDie_shoots (s : State) (d : Nat) (f : Die → Die) : (s.modDie d f).shoots = s.shoots := rfl
@[simp] theorem State.modDie_supOps (s : State) (d : Nat) (f : Die → Die) : (s.modDie d f).supOps = s.supOps := rfl
@[simp] theorem State.modDie_dry (s : State) (d : Nat) (f : Die → Die) : (s.modDie d f).dry = s.dry := rfl
@[simp] theorem State.modDie_ctlq (s : State) (d : Nat) (f : Die → Die) : (s.modDie d f).ctlq = s.ctlq := rfl

/- Changes made by `modCtx`. -/
@[simp] theorem State.modCtx_pkg (s : State) (c : Nat) (f : Ctx → Ctx) : (s.modCtx c f).pkg = s.pkg := rfl
@[simp] theorem State.modCtx_agenda (s : State) (c : Nat) (f : Ctx → Ctx) : (s.modCtx c f).agenda = s.agenda := rfl
@[simp] theorem State.modCtx_focus (s : State) (c : Nat) (f : Ctx → Ctx) : (s.modCtx c f).focus = s.focus := rfl
@[simp] theorem State.modCtx_free (s : State) (c : Nat) (f : Ctx → Ctx) : (s.modCtx c f).free = s.free := rfl
@[simp] theorem State.modCtx_serial (s : State) (c : Nat) (f : Ctx → Ctx) : (s.modCtx c f).serial = s.serial := rfl
@[simp] theorem State.modCtx_groups (s : State) (c : Nat) (f : Ctx → Ctx) : (s.modCtx c f).groups = s.groups := rfl
@[simp] theorem State.modCtx_teams (s : State) (c : Nat) (f : Ctx → Ctx) : (s.modCtx c f).teams = s.teams := rfl
@[simp] theorem State.modCtx_lclusters (s : State) (c : Nat) (f : Ctx → Ctx) : (s.modCtx c f).lclusters = s.lclusters := rfl
@[simp] theorem State.modCtx_cores (s : State) (c : Nat) (f : Ctx → Ctx) : (s.modCtx c f).cores = s.cores := rfl
@[simp] theorem State.modCtx_cclusters (s : State) (c : Nat) (f : Ctx → Ctx) : (s.modCtx c f).cclusters = s.cclusters := rfl
@[simp] theorem State.modCtx_dies (s : State) (c : Nat) (f : Ctx → Ctx) : (s.modCtx c f).dies = s.dies := rfl
@[simp] theorem State.modCtx_ctxs (s : State) (c : Nat) (f : Ctx → Ctx) : (s.modCtx c f).ctxs = kmod s.ctxs c f := rfl
@[simp] theorem State.modCtx_fe (s : State) (c : Nat) (f : Ctx → Ctx) : (s.modCtx c f).fe = s.fe := rfl
@[simp] theorem State.modCtx_eth (s : State) (c : Nat) (f : Ctx → Ctx) : (s.modCtx c f).eth = s.eth := rfl
@[simp] theorem State.modCtx_mem (s : State) (c : Nat) (f : Ctx → Ctx) : (s.modCtx c f).mem = s.mem := rfl
@[simp] theorem State.modCtx_badWords (s : State) (c : Nat) (f : Ctx → Ctx) : (s.modCtx c f).badWords = s.badWords := rfl
@[simp] theorem State.modCtx_jobs (s : State) (c : Nat) (f : Ctx → Ctx) : (s.modCtx c f).jobs = s.jobs := rfl
@[simp] theorem State.modCtx_mjobs (s : State) (c : Nat) (f : Ctx → Ctx) : (s.modCtx c f).mjobs = s.mjobs := rfl
@[simp] theorem State.modCtx_atoms (s : State) (c : Nat) (f : Ctx → Ctx) : (s.modCtx c f).atoms = s.atoms := rfl
@[simp] theorem State.modCtx_wbs (s : State) (c : Nat) (f : Ctx → Ctx) : (s.modCtx c f).wbs = s.wbs := rfl
@[simp] theorem State.modCtx_reqs (s : State) (c : Nat) (f : Ctx → Ctx) : (s.modCtx c f).reqs = s.reqs := rfl
@[simp] theorem State.modCtx_shoots (s : State) (c : Nat) (f : Ctx → Ctx) : (s.modCtx c f).shoots = s.shoots := rfl
@[simp] theorem State.modCtx_supOps (s : State) (c : Nat) (f : Ctx → Ctx) : (s.modCtx c f).supOps = s.supOps := rfl
@[simp] theorem State.modCtx_dry (s : State) (c : Nat) (f : Ctx → Ctx) : (s.modCtx c f).dry = s.dry := rfl
@[simp] theorem State.modCtx_ctlq (s : State) (c : Nat) (f : Ctx → Ctx) : (s.modCtx c f).ctlq = s.ctlq := rfl

/- Changes made by `modTeam`. -/
@[simp] theorem State.modTeam_pkg (s : State) (t : Nat) (f : Team → Team) : (s.modTeam t f).pkg = s.pkg := rfl
@[simp] theorem State.modTeam_agenda (s : State) (t : Nat) (f : Team → Team) : (s.modTeam t f).agenda = s.agenda := rfl
@[simp] theorem State.modTeam_focus (s : State) (t : Nat) (f : Team → Team) : (s.modTeam t f).focus = s.focus := rfl
@[simp] theorem State.modTeam_free (s : State) (t : Nat) (f : Team → Team) : (s.modTeam t f).free = s.free := rfl
@[simp] theorem State.modTeam_serial (s : State) (t : Nat) (f : Team → Team) : (s.modTeam t f).serial = s.serial := rfl
@[simp] theorem State.modTeam_groups (s : State) (t : Nat) (f : Team → Team) : (s.modTeam t f).groups = s.groups := rfl
@[simp] theorem State.modTeam_teams (s : State) (t : Nat) (f : Team → Team) : (s.modTeam t f).teams = kmod s.teams t f := rfl
@[simp] theorem State.modTeam_lclusters (s : State) (t : Nat) (f : Team → Team) : (s.modTeam t f).lclusters = s.lclusters := rfl
@[simp] theorem State.modTeam_cores (s : State) (t : Nat) (f : Team → Team) : (s.modTeam t f).cores = s.cores := rfl
@[simp] theorem State.modTeam_cclusters (s : State) (t : Nat) (f : Team → Team) : (s.modTeam t f).cclusters = s.cclusters := rfl
@[simp] theorem State.modTeam_dies (s : State) (t : Nat) (f : Team → Team) : (s.modTeam t f).dies = s.dies := rfl
@[simp] theorem State.modTeam_ctxs (s : State) (t : Nat) (f : Team → Team) : (s.modTeam t f).ctxs = s.ctxs := rfl
@[simp] theorem State.modTeam_fe (s : State) (t : Nat) (f : Team → Team) : (s.modTeam t f).fe = s.fe := rfl
@[simp] theorem State.modTeam_eth (s : State) (t : Nat) (f : Team → Team) : (s.modTeam t f).eth = s.eth := rfl
@[simp] theorem State.modTeam_mem (s : State) (t : Nat) (f : Team → Team) : (s.modTeam t f).mem = s.mem := rfl
@[simp] theorem State.modTeam_badWords (s : State) (t : Nat) (f : Team → Team) : (s.modTeam t f).badWords = s.badWords := rfl
@[simp] theorem State.modTeam_jobs (s : State) (t : Nat) (f : Team → Team) : (s.modTeam t f).jobs = s.jobs := rfl
@[simp] theorem State.modTeam_mjobs (s : State) (t : Nat) (f : Team → Team) : (s.modTeam t f).mjobs = s.mjobs := rfl
@[simp] theorem State.modTeam_atoms (s : State) (t : Nat) (f : Team → Team) : (s.modTeam t f).atoms = s.atoms := rfl
@[simp] theorem State.modTeam_wbs (s : State) (t : Nat) (f : Team → Team) : (s.modTeam t f).wbs = s.wbs := rfl
@[simp] theorem State.modTeam_reqs (s : State) (t : Nat) (f : Team → Team) : (s.modTeam t f).reqs = s.reqs := rfl
@[simp] theorem State.modTeam_shoots (s : State) (t : Nat) (f : Team → Team) : (s.modTeam t f).shoots = s.shoots := rfl
@[simp] theorem State.modTeam_supOps (s : State) (t : Nat) (f : Team → Team) : (s.modTeam t f).supOps = s.supOps := rfl
@[simp] theorem State.modTeam_dry (s : State) (t : Nat) (f : Team → Team) : (s.modTeam t f).dry = s.dry := rfl
@[simp] theorem State.modTeam_ctlq (s : State) (t : Nat) (f : Team → Team) : (s.modTeam t f).ctlq = s.ctlq := rfl

/- Changes made by `modLCl`. -/
@[simp] theorem State.modLCl_pkg (s : State) (k : Nat) (f : LCluster → LCluster) : (s.modLCl k f).pkg = s.pkg := rfl
@[simp] theorem State.modLCl_agenda (s : State) (k : Nat) (f : LCluster → LCluster) : (s.modLCl k f).agenda = s.agenda := rfl
@[simp] theorem State.modLCl_focus (s : State) (k : Nat) (f : LCluster → LCluster) : (s.modLCl k f).focus = s.focus := rfl
@[simp] theorem State.modLCl_free (s : State) (k : Nat) (f : LCluster → LCluster) : (s.modLCl k f).free = s.free := rfl
@[simp] theorem State.modLCl_serial (s : State) (k : Nat) (f : LCluster → LCluster) : (s.modLCl k f).serial = s.serial := rfl
@[simp] theorem State.modLCl_groups (s : State) (k : Nat) (f : LCluster → LCluster) : (s.modLCl k f).groups = s.groups := rfl
@[simp] theorem State.modLCl_teams (s : State) (k : Nat) (f : LCluster → LCluster) : (s.modLCl k f).teams = s.teams := rfl
@[simp] theorem State.modLCl_lclusters (s : State) (k : Nat) (f : LCluster → LCluster) : (s.modLCl k f).lclusters = kmod s.lclusters k f := rfl
@[simp] theorem State.modLCl_cores (s : State) (k : Nat) (f : LCluster → LCluster) : (s.modLCl k f).cores = s.cores := rfl
@[simp] theorem State.modLCl_cclusters (s : State) (k : Nat) (f : LCluster → LCluster) : (s.modLCl k f).cclusters = s.cclusters := rfl
@[simp] theorem State.modLCl_dies (s : State) (k : Nat) (f : LCluster → LCluster) : (s.modLCl k f).dies = s.dies := rfl
@[simp] theorem State.modLCl_ctxs (s : State) (k : Nat) (f : LCluster → LCluster) : (s.modLCl k f).ctxs = s.ctxs := rfl
@[simp] theorem State.modLCl_fe (s : State) (k : Nat) (f : LCluster → LCluster) : (s.modLCl k f).fe = s.fe := rfl
@[simp] theorem State.modLCl_eth (s : State) (k : Nat) (f : LCluster → LCluster) : (s.modLCl k f).eth = s.eth := rfl
@[simp] theorem State.modLCl_mem (s : State) (k : Nat) (f : LCluster → LCluster) : (s.modLCl k f).mem = s.mem := rfl
@[simp] theorem State.modLCl_badWords (s : State) (k : Nat) (f : LCluster → LCluster) : (s.modLCl k f).badWords = s.badWords := rfl
@[simp] theorem State.modLCl_jobs (s : State) (k : Nat) (f : LCluster → LCluster) : (s.modLCl k f).jobs = s.jobs := rfl
@[simp] theorem State.modLCl_mjobs (s : State) (k : Nat) (f : LCluster → LCluster) : (s.modLCl k f).mjobs = s.mjobs := rfl
@[simp] theorem State.modLCl_atoms (s : State) (k : Nat) (f : LCluster → LCluster) : (s.modLCl k f).atoms = s.atoms := rfl
@[simp] theorem State.modLCl_wbs (s : State) (k : Nat) (f : LCluster → LCluster) : (s.modLCl k f).wbs = s.wbs := rfl
@[simp] theorem State.modLCl_reqs (s : State) (k : Nat) (f : LCluster → LCluster) : (s.modLCl k f).reqs = s.reqs := rfl
@[simp] theorem State.modLCl_shoots (s : State) (k : Nat) (f : LCluster → LCluster) : (s.modLCl k f).shoots = s.shoots := rfl
@[simp] theorem State.modLCl_supOps (s : State) (k : Nat) (f : LCluster → LCluster) : (s.modLCl k f).supOps = s.supOps := rfl
@[simp] theorem State.modLCl_dry (s : State) (k : Nat) (f : LCluster → LCluster) : (s.modLCl k f).dry = s.dry := rfl
@[simp] theorem State.modLCl_ctlq (s : State) (k : Nat) (f : LCluster → LCluster) : (s.modLCl k f).ctlq = s.ctlq := rfl

/- Changes made by `modPkg`. -/
@[simp] theorem State.modPkg_pkg (s : State) (f : Pkg → Pkg) : (s.modPkg f).pkg = f s.pkg := rfl
@[simp] theorem State.modPkg_agenda (s : State) (f : Pkg → Pkg) : (s.modPkg f).agenda = s.agenda := rfl
@[simp] theorem State.modPkg_focus (s : State) (f : Pkg → Pkg) : (s.modPkg f).focus = s.focus := rfl
@[simp] theorem State.modPkg_free (s : State) (f : Pkg → Pkg) : (s.modPkg f).free = s.free := rfl
@[simp] theorem State.modPkg_serial (s : State) (f : Pkg → Pkg) : (s.modPkg f).serial = s.serial := rfl
@[simp] theorem State.modPkg_groups (s : State) (f : Pkg → Pkg) : (s.modPkg f).groups = s.groups := rfl
@[simp] theorem State.modPkg_teams (s : State) (f : Pkg → Pkg) : (s.modPkg f).teams = s.teams := rfl
@[simp] theorem State.modPkg_lclusters (s : State) (f : Pkg → Pkg) : (s.modPkg f).lclusters = s.lclusters := rfl
@[simp] theorem State.modPkg_cores (s : State) (f : Pkg → Pkg) : (s.modPkg f).cores = s.cores := rfl
@[simp] theorem State.modPkg_cclusters (s : State) (f : Pkg → Pkg) : (s.modPkg f).cclusters = s.cclusters := rfl
@[simp] theorem State.modPkg_dies (s : State) (f : Pkg → Pkg) : (s.modPkg f).dies = s.dies := rfl
@[simp] theorem State.modPkg_ctxs (s : State) (f : Pkg → Pkg) : (s.modPkg f).ctxs = s.ctxs := rfl
@[simp] theorem State.modPkg_fe (s : State) (f : Pkg → Pkg) : (s.modPkg f).fe = s.fe := rfl
@[simp] theorem State.modPkg_eth (s : State) (f : Pkg → Pkg) : (s.modPkg f).eth = s.eth := rfl
@[simp] theorem State.modPkg_mem (s : State) (f : Pkg → Pkg) : (s.modPkg f).mem = s.mem := rfl
@[simp] theorem State.modPkg_badWords (s : State) (f : Pkg → Pkg) : (s.modPkg f).badWords = s.badWords := rfl
@[simp] theorem State.modPkg_jobs (s : State) (f : Pkg → Pkg) : (s.modPkg f).jobs = s.jobs := rfl
@[simp] theorem State.modPkg_mjobs (s : State) (f : Pkg → Pkg) : (s.modPkg f).mjobs = s.mjobs := rfl
@[simp] theorem State.modPkg_atoms (s : State) (f : Pkg → Pkg) : (s.modPkg f).atoms = s.atoms := rfl
@[simp] theorem State.modPkg_wbs (s : State) (f : Pkg → Pkg) : (s.modPkg f).wbs = s.wbs := rfl
@[simp] theorem State.modPkg_reqs (s : State) (f : Pkg → Pkg) : (s.modPkg f).reqs = s.reqs := rfl
@[simp] theorem State.modPkg_shoots (s : State) (f : Pkg → Pkg) : (s.modPkg f).shoots = s.shoots := rfl
@[simp] theorem State.modPkg_supOps (s : State) (f : Pkg → Pkg) : (s.modPkg f).supOps = s.supOps := rfl
@[simp] theorem State.modPkg_dry (s : State) (f : Pkg → Pkg) : (s.modPkg f).dry = s.dry := rfl
@[simp] theorem State.modPkg_ctlq (s : State) (f : Pkg → Pkg) : (s.modPkg f).ctlq = s.ctlq := rfl

/- Changes made by `modFe`. -/
@[simp] theorem State.modFe_pkg (s : State) (f : FrontEnd → FrontEnd) : (s.modFe f).pkg = s.pkg := rfl
@[simp] theorem State.modFe_agenda (s : State) (f : FrontEnd → FrontEnd) : (s.modFe f).agenda = s.agenda := rfl
@[simp] theorem State.modFe_focus (s : State) (f : FrontEnd → FrontEnd) : (s.modFe f).focus = s.focus := rfl
@[simp] theorem State.modFe_free (s : State) (f : FrontEnd → FrontEnd) : (s.modFe f).free = s.free := rfl
@[simp] theorem State.modFe_serial (s : State) (f : FrontEnd → FrontEnd) : (s.modFe f).serial = s.serial := rfl
@[simp] theorem State.modFe_groups (s : State) (f : FrontEnd → FrontEnd) : (s.modFe f).groups = s.groups := rfl
@[simp] theorem State.modFe_teams (s : State) (f : FrontEnd → FrontEnd) : (s.modFe f).teams = s.teams := rfl
@[simp] theorem State.modFe_lclusters (s : State) (f : FrontEnd → FrontEnd) : (s.modFe f).lclusters = s.lclusters := rfl
@[simp] theorem State.modFe_cores (s : State) (f : FrontEnd → FrontEnd) : (s.modFe f).cores = s.cores := rfl
@[simp] theorem State.modFe_cclusters (s : State) (f : FrontEnd → FrontEnd) : (s.modFe f).cclusters = s.cclusters := rfl
@[simp] theorem State.modFe_dies (s : State) (f : FrontEnd → FrontEnd) : (s.modFe f).dies = s.dies := rfl
@[simp] theorem State.modFe_ctxs (s : State) (f : FrontEnd → FrontEnd) : (s.modFe f).ctxs = s.ctxs := rfl
@[simp] theorem State.modFe_fe (s : State) (f : FrontEnd → FrontEnd) : (s.modFe f).fe = f s.fe := rfl
@[simp] theorem State.modFe_eth (s : State) (f : FrontEnd → FrontEnd) : (s.modFe f).eth = s.eth := rfl
@[simp] theorem State.modFe_mem (s : State) (f : FrontEnd → FrontEnd) : (s.modFe f).mem = s.mem := rfl
@[simp] theorem State.modFe_badWords (s : State) (f : FrontEnd → FrontEnd) : (s.modFe f).badWords = s.badWords := rfl
@[simp] theorem State.modFe_jobs (s : State) (f : FrontEnd → FrontEnd) : (s.modFe f).jobs = s.jobs := rfl
@[simp] theorem State.modFe_mjobs (s : State) (f : FrontEnd → FrontEnd) : (s.modFe f).mjobs = s.mjobs := rfl
@[simp] theorem State.modFe_atoms (s : State) (f : FrontEnd → FrontEnd) : (s.modFe f).atoms = s.atoms := rfl
@[simp] theorem State.modFe_wbs (s : State) (f : FrontEnd → FrontEnd) : (s.modFe f).wbs = s.wbs := rfl
@[simp] theorem State.modFe_reqs (s : State) (f : FrontEnd → FrontEnd) : (s.modFe f).reqs = s.reqs := rfl
@[simp] theorem State.modFe_shoots (s : State) (f : FrontEnd → FrontEnd) : (s.modFe f).shoots = s.shoots := rfl
@[simp] theorem State.modFe_supOps (s : State) (f : FrontEnd → FrontEnd) : (s.modFe f).supOps = s.supOps := rfl
@[simp] theorem State.modFe_dry (s : State) (f : FrontEnd → FrontEnd) : (s.modFe f).dry = s.dry := rfl
@[simp] theorem State.modFe_ctlq (s : State) (f : FrontEnd → FrontEnd) : (s.modFe f).ctlq = s.ctlq := rfl

/- Changes made by `modEth`. -/
@[simp] theorem State.modEth_pkg (s : State) (p : Nat) (f : EthPort → EthPort) : (s.modEth p f).pkg = s.pkg := rfl
@[simp] theorem State.modEth_agenda (s : State) (p : Nat) (f : EthPort → EthPort) : (s.modEth p f).agenda = s.agenda := rfl
@[simp] theorem State.modEth_focus (s : State) (p : Nat) (f : EthPort → EthPort) : (s.modEth p f).focus = s.focus := rfl
@[simp] theorem State.modEth_free (s : State) (p : Nat) (f : EthPort → EthPort) : (s.modEth p f).free = s.free := rfl
@[simp] theorem State.modEth_serial (s : State) (p : Nat) (f : EthPort → EthPort) : (s.modEth p f).serial = s.serial := rfl
@[simp] theorem State.modEth_groups (s : State) (p : Nat) (f : EthPort → EthPort) : (s.modEth p f).groups = s.groups := rfl
@[simp] theorem State.modEth_teams (s : State) (p : Nat) (f : EthPort → EthPort) : (s.modEth p f).teams = s.teams := rfl
@[simp] theorem State.modEth_lclusters (s : State) (p : Nat) (f : EthPort → EthPort) : (s.modEth p f).lclusters = s.lclusters := rfl
@[simp] theorem State.modEth_cores (s : State) (p : Nat) (f : EthPort → EthPort) : (s.modEth p f).cores = s.cores := rfl
@[simp] theorem State.modEth_cclusters (s : State) (p : Nat) (f : EthPort → EthPort) : (s.modEth p f).cclusters = s.cclusters := rfl
@[simp] theorem State.modEth_dies (s : State) (p : Nat) (f : EthPort → EthPort) : (s.modEth p f).dies = s.dies := rfl
@[simp] theorem State.modEth_ctxs (s : State) (p : Nat) (f : EthPort → EthPort) : (s.modEth p f).ctxs = s.ctxs := rfl
@[simp] theorem State.modEth_fe (s : State) (p : Nat) (f : EthPort → EthPort) : (s.modEth p f).fe = s.fe := rfl
@[simp] theorem State.modEth_eth (s : State) (p : Nat) (f : EthPort → EthPort) : (s.modEth p f).eth = kset s.eth p (f (s.ethp p)) := rfl
@[simp] theorem State.modEth_mem (s : State) (p : Nat) (f : EthPort → EthPort) : (s.modEth p f).mem = s.mem := rfl
@[simp] theorem State.modEth_badWords (s : State) (p : Nat) (f : EthPort → EthPort) : (s.modEth p f).badWords = s.badWords := rfl
@[simp] theorem State.modEth_jobs (s : State) (p : Nat) (f : EthPort → EthPort) : (s.modEth p f).jobs = s.jobs := rfl
@[simp] theorem State.modEth_mjobs (s : State) (p : Nat) (f : EthPort → EthPort) : (s.modEth p f).mjobs = s.mjobs := rfl
@[simp] theorem State.modEth_atoms (s : State) (p : Nat) (f : EthPort → EthPort) : (s.modEth p f).atoms = s.atoms := rfl
@[simp] theorem State.modEth_wbs (s : State) (p : Nat) (f : EthPort → EthPort) : (s.modEth p f).wbs = s.wbs := rfl
@[simp] theorem State.modEth_reqs (s : State) (p : Nat) (f : EthPort → EthPort) : (s.modEth p f).reqs = s.reqs := rfl
@[simp] theorem State.modEth_shoots (s : State) (p : Nat) (f : EthPort → EthPort) : (s.modEth p f).shoots = s.shoots := rfl
@[simp] theorem State.modEth_supOps (s : State) (p : Nat) (f : EthPort → EthPort) : (s.modEth p f).supOps = s.supOps := rfl
@[simp] theorem State.modEth_dry (s : State) (p : Nat) (f : EthPort → EthPort) : (s.modEth p f).dry = s.dry := rfl
@[simp] theorem State.modEth_ctlq (s : State) (p : Nat) (f : EthPort → EthPort) : (s.modEth p f).ctlq = s.ctlq := rfl

/- Changes made by `then_`. -/
@[simp] theorem State.then_pkg (s : State) (l : List Instr) : (s.then_ l).pkg = s.pkg := rfl
@[simp] theorem State.then_agenda (s : State) (l : List Instr) : (s.then_ l).agenda = s.agenda ++ l := rfl
@[simp] theorem State.then_focus (s : State) (l : List Instr) : (s.then_ l).focus = s.focus := rfl
@[simp] theorem State.then_free (s : State) (l : List Instr) : (s.then_ l).free = s.free := rfl
@[simp] theorem State.then_serial (s : State) (l : List Instr) : (s.then_ l).serial = s.serial := rfl
@[simp] theorem State.then_groups (s : State) (l : List Instr) : (s.then_ l).groups = s.groups := rfl
@[simp] theorem State.then_teams (s : State) (l : List Instr) : (s.then_ l).teams = s.teams := rfl
@[simp] theorem State.then_lclusters (s : State) (l : List Instr) : (s.then_ l).lclusters = s.lclusters := rfl
@[simp] theorem State.then_cores (s : State) (l : List Instr) : (s.then_ l).cores = s.cores := rfl
@[simp] theorem State.then_cclusters (s : State) (l : List Instr) : (s.then_ l).cclusters = s.cclusters := rfl
@[simp] theorem State.then_dies (s : State) (l : List Instr) : (s.then_ l).dies = s.dies := rfl
@[simp] theorem State.then_ctxs (s : State) (l : List Instr) : (s.then_ l).ctxs = s.ctxs := rfl
@[simp] theorem State.then_fe (s : State) (l : List Instr) : (s.then_ l).fe = s.fe := rfl
@[simp] theorem State.then_eth (s : State) (l : List Instr) : (s.then_ l).eth = s.eth := rfl
@[simp] theorem State.then_mem (s : State) (l : List Instr) : (s.then_ l).mem = s.mem := rfl
@[simp] theorem State.then_badWords (s : State) (l : List Instr) : (s.then_ l).badWords = s.badWords := rfl
@[simp] theorem State.then_jobs (s : State) (l : List Instr) : (s.then_ l).jobs = s.jobs := rfl
@[simp] theorem State.then_mjobs (s : State) (l : List Instr) : (s.then_ l).mjobs = s.mjobs := rfl
@[simp] theorem State.then_atoms (s : State) (l : List Instr) : (s.then_ l).atoms = s.atoms := rfl
@[simp] theorem State.then_wbs (s : State) (l : List Instr) : (s.then_ l).wbs = s.wbs := rfl
@[simp] theorem State.then_reqs (s : State) (l : List Instr) : (s.then_ l).reqs = s.reqs := rfl
@[simp] theorem State.then_shoots (s : State) (l : List Instr) : (s.then_ l).shoots = s.shoots := rfl
@[simp] theorem State.then_supOps (s : State) (l : List Instr) : (s.then_ l).supOps = s.supOps := rfl
@[simp] theorem State.then_dry (s : State) (l : List Instr) : (s.then_ l).dry = s.dry := rfl
@[simp] theorem State.then_ctlq (s : State) (l : List Instr) : (s.then_ l).ctlq = s.ctlq := rfl

/- Changes made by `put`. -/
@[simp] theorem State.put_pkg (s : State) (a : Nat) (l : List Byte) : (s.put a l).pkg = s.pkg := rfl
@[simp] theorem State.put_agenda (s : State) (a : Nat) (l : List Byte) : (s.put a l).agenda = s.agenda := rfl
@[simp] theorem State.put_focus (s : State) (a : Nat) (l : List Byte) : (s.put a l).focus = s.focus := rfl
@[simp] theorem State.put_free (s : State) (a : Nat) (l : List Byte) : (s.put a l).free = s.free := rfl
@[simp] theorem State.put_serial (s : State) (a : Nat) (l : List Byte) : (s.put a l).serial = s.serial := rfl
@[simp] theorem State.put_groups (s : State) (a : Nat) (l : List Byte) : (s.put a l).groups = s.groups := rfl
@[simp] theorem State.put_teams (s : State) (a : Nat) (l : List Byte) : (s.put a l).teams = s.teams := rfl
@[simp] theorem State.put_lclusters (s : State) (a : Nat) (l : List Byte) : (s.put a l).lclusters = s.lclusters := rfl
@[simp] theorem State.put_cores (s : State) (a : Nat) (l : List Byte) : (s.put a l).cores = s.cores := rfl
@[simp] theorem State.put_cclusters (s : State) (a : Nat) (l : List Byte) : (s.put a l).cclusters = s.cclusters := rfl
@[simp] theorem State.put_dies (s : State) (a : Nat) (l : List Byte) : (s.put a l).dies = s.dies := rfl
@[simp] theorem State.put_ctxs (s : State) (a : Nat) (l : List Byte) : (s.put a l).ctxs = s.ctxs := rfl
@[simp] theorem State.put_fe (s : State) (a : Nat) (l : List Byte) : (s.put a l).fe = s.fe := rfl
@[simp] theorem State.put_eth (s : State) (a : Nat) (l : List Byte) : (s.put a l).eth = s.eth := rfl
@[simp] theorem State.put_mem (s : State) (a : Nat) (l : List Byte) : (s.put a l).mem = memPut s.mem a l := rfl
@[simp] theorem State.put_badWords (s : State) (a : Nat) (l : List Byte) : (s.put a l).badWords = s.badWords := rfl
@[simp] theorem State.put_jobs (s : State) (a : Nat) (l : List Byte) : (s.put a l).jobs = s.jobs := rfl
@[simp] theorem State.put_mjobs (s : State) (a : Nat) (l : List Byte) : (s.put a l).mjobs = s.mjobs := rfl
@[simp] theorem State.put_atoms (s : State) (a : Nat) (l : List Byte) : (s.put a l).atoms = s.atoms := rfl
@[simp] theorem State.put_wbs (s : State) (a : Nat) (l : List Byte) : (s.put a l).wbs = s.wbs := rfl
@[simp] theorem State.put_reqs (s : State) (a : Nat) (l : List Byte) : (s.put a l).reqs = s.reqs := rfl
@[simp] theorem State.put_shoots (s : State) (a : Nat) (l : List Byte) : (s.put a l).shoots = s.shoots := rfl
@[simp] theorem State.put_supOps (s : State) (a : Nat) (l : List Byte) : (s.put a l).supOps = s.supOps := rfl
@[simp] theorem State.put_dry (s : State) (a : Nat) (l : List Byte) : (s.put a l).dry = s.dry := rfl
@[simp] theorem State.put_ctlq (s : State) (a : Nat) (l : List Byte) : (s.put a l).ctlq = s.ctlq := rfl

/- Changes made by `putCells`. -/
@[simp] theorem State.putCells_pkg (s : State) (l : List Host.Cell) : (s.putCells l).pkg = s.pkg := rfl
@[simp] theorem State.putCells_agenda (s : State) (l : List Host.Cell) : (s.putCells l).agenda = s.agenda := rfl
@[simp] theorem State.putCells_focus (s : State) (l : List Host.Cell) : (s.putCells l).focus = s.focus := rfl
@[simp] theorem State.putCells_free (s : State) (l : List Host.Cell) : (s.putCells l).free = s.free := rfl
@[simp] theorem State.putCells_serial (s : State) (l : List Host.Cell) : (s.putCells l).serial = s.serial := rfl
@[simp] theorem State.putCells_groups (s : State) (l : List Host.Cell) : (s.putCells l).groups = s.groups := rfl
@[simp] theorem State.putCells_teams (s : State) (l : List Host.Cell) : (s.putCells l).teams = s.teams := rfl
@[simp] theorem State.putCells_lclusters (s : State) (l : List Host.Cell) : (s.putCells l).lclusters = s.lclusters := rfl
@[simp] theorem State.putCells_cores (s : State) (l : List Host.Cell) : (s.putCells l).cores = s.cores := rfl
@[simp] theorem State.putCells_cclusters (s : State) (l : List Host.Cell) : (s.putCells l).cclusters = s.cclusters := rfl
@[simp] theorem State.putCells_dies (s : State) (l : List Host.Cell) : (s.putCells l).dies = s.dies := rfl
@[simp] theorem State.putCells_ctxs (s : State) (l : List Host.Cell) : (s.putCells l).ctxs = s.ctxs := rfl
@[simp] theorem State.putCells_fe (s : State) (l : List Host.Cell) : (s.putCells l).fe = s.fe := rfl
@[simp] theorem State.putCells_eth (s : State) (l : List Host.Cell) : (s.putCells l).eth = s.eth := rfl
@[simp] theorem State.putCells_mem (s : State) (l : List Host.Cell) : (s.putCells l).mem = csets memDefault s.mem l := rfl
@[simp] theorem State.putCells_badWords (s : State) (l : List Host.Cell) : (s.putCells l).badWords = s.badWords := rfl
@[simp] theorem State.putCells_jobs (s : State) (l : List Host.Cell) : (s.putCells l).jobs = s.jobs := rfl
@[simp] theorem State.putCells_mjobs (s : State) (l : List Host.Cell) : (s.putCells l).mjobs = s.mjobs := rfl
@[simp] theorem State.putCells_atoms (s : State) (l : List Host.Cell) : (s.putCells l).atoms = s.atoms := rfl
@[simp] theorem State.putCells_wbs (s : State) (l : List Host.Cell) : (s.putCells l).wbs = s.wbs := rfl
@[simp] theorem State.putCells_reqs (s : State) (l : List Host.Cell) : (s.putCells l).reqs = s.reqs := rfl
@[simp] theorem State.putCells_shoots (s : State) (l : List Host.Cell) : (s.putCells l).shoots = s.shoots := rfl
@[simp] theorem State.putCells_supOps (s : State) (l : List Host.Cell) : (s.putCells l).supOps = s.supOps := rfl
@[simp] theorem State.putCells_dry (s : State) (l : List Host.Cell) : (s.putCells l).dry = s.dry := rfl
@[simp] theorem State.putCells_ctlq (s : State) (l : List Host.Cell) : (s.putCells l).ctlq = s.ctlq := rfl

/- Changes made by `zeroRange`. -/
@[simp] theorem State.zeroRange_pkg (s : State) (a n : Nat) : (s.zeroRange a n).pkg = s.pkg := rfl
@[simp] theorem State.zeroRange_agenda (s : State) (a n : Nat) : (s.zeroRange a n).agenda = s.agenda := rfl
@[simp] theorem State.zeroRange_focus (s : State) (a n : Nat) : (s.zeroRange a n).focus = s.focus := rfl
@[simp] theorem State.zeroRange_free (s : State) (a n : Nat) : (s.zeroRange a n).free = s.free := rfl
@[simp] theorem State.zeroRange_serial (s : State) (a n : Nat) : (s.zeroRange a n).serial = s.serial := rfl
@[simp] theorem State.zeroRange_groups (s : State) (a n : Nat) : (s.zeroRange a n).groups = s.groups := rfl
@[simp] theorem State.zeroRange_teams (s : State) (a n : Nat) : (s.zeroRange a n).teams = s.teams := rfl
@[simp] theorem State.zeroRange_lclusters (s : State) (a n : Nat) : (s.zeroRange a n).lclusters = s.lclusters := rfl
@[simp] theorem State.zeroRange_cores (s : State) (a n : Nat) : (s.zeroRange a n).cores = s.cores := rfl
@[simp] theorem State.zeroRange_cclusters (s : State) (a n : Nat) : (s.zeroRange a n).cclusters = s.cclusters := rfl
@[simp] theorem State.zeroRange_dies (s : State) (a n : Nat) : (s.zeroRange a n).dies = s.dies := rfl
@[simp] theorem State.zeroRange_ctxs (s : State) (a n : Nat) : (s.zeroRange a n).ctxs = s.ctxs := rfl
@[simp] theorem State.zeroRange_fe (s : State) (a n : Nat) : (s.zeroRange a n).fe = s.fe := rfl
@[simp] theorem State.zeroRange_eth (s : State) (a n : Nat) : (s.zeroRange a n).eth = s.eth := rfl
@[simp] theorem State.zeroRange_badWords (s : State) (a n : Nat) : (s.zeroRange a n).badWords = s.badWords := rfl
@[simp] theorem State.zeroRange_jobs (s : State) (a n : Nat) : (s.zeroRange a n).jobs = s.jobs := rfl
@[simp] theorem State.zeroRange_mjobs (s : State) (a n : Nat) : (s.zeroRange a n).mjobs = s.mjobs := rfl
@[simp] theorem State.zeroRange_atoms (s : State) (a n : Nat) : (s.zeroRange a n).atoms = s.atoms := rfl
@[simp] theorem State.zeroRange_wbs (s : State) (a n : Nat) : (s.zeroRange a n).wbs = s.wbs := rfl
@[simp] theorem State.zeroRange_reqs (s : State) (a n : Nat) : (s.zeroRange a n).reqs = s.reqs := rfl
@[simp] theorem State.zeroRange_shoots (s : State) (a n : Nat) : (s.zeroRange a n).shoots = s.shoots := rfl
@[simp] theorem State.zeroRange_supOps (s : State) (a n : Nat) : (s.zeroRange a n).supOps = s.supOps := rfl
@[simp] theorem State.zeroRange_dry (s : State) (a n : Nat) : (s.zeroRange a n).dry = s.dry := rfl
@[simp] theorem State.zeroRange_ctlq (s : State) (a n : Nat) : (s.zeroRange a n).ctlq = s.ctlq := rfl

/-- The group just set. -/
@[simp] theorem State.grp_setGrp_self (s : State) (g : Nat) (x : Group) : (s.setGrp g x).grp g = some x := by
  simp [State.grp]

/-- Another group than the one set. -/
theorem State.grp_setGrp_ne (s : State) {g k : Nat} (x : Group) (h : k ≠ g) : (s.setGrp g x).grp k = s.grp k := by
  simp [State.grp, kget_kset_ne _ _ h]

/-- The group just changed. -/
@[simp] theorem State.grp_modGrp_self (s : State) (g : Nat) (f : Group → Group) : (s.modGrp g f).grp g = (s.grp g).map f := by
  unfold State.modGrp State.grp; cases h : kget s.groups g <;> simp [h]

/-- Another group than the one changed. -/
theorem State.grp_modGrp_ne (s : State) {g k : Nat} (f : Group → Group) (h : k ≠ g) : (s.modGrp g f).grp k = s.grp k := by
  unfold State.modGrp State.grp; cases kget s.groups g <;> simp [kget_kset_ne _ _ h]

/-- Two settings of one group are the second. -/
theorem State.setGrp_modGrp (s : State) (g : Nat) (x : Group) (f : Group → Group) :
    ((s.setGrp g x).modGrp g f).grp g = some (f x) := by simp

/-- A resident group is the one `grpD` reads. -/
theorem State.grpD_of_grp {s : State} {g : Nat} {x : Group} (h : s.grp g = some x) : s.grpD g = x := by
  unfold State.grp at h; simp [State.grpD, h]

/-- A read of a byte depends on the memory only. -/
theorem State.byte_eq {s t : State} (h : t.mem = s.mem) (a : Nat) : t.byte a = s.byte a := by simp [State.byte, h]

/-- A read of bytes depends on the memory only. -/
theorem State.bytes_eq {s t : State} (h : t.mem = s.mem) (a n : Nat) : t.bytes a n = s.bytes a n := by
  have : t.byte = s.byte := funext fun x => State.byte_eq h x
  simp [State.bytes, this]

/-- The byte read after a write of bytes: the byte written there, or what stood there. -/
theorem cget_memPut (m : List Host.Cell) (a : Nat) (l : List Byte) (x : Nat) :
    cget memDefault (memPut m a l) x = if a ≤ x ∧ x < a + l.length then l.getD (x - a) 0 else cget memDefault m x := by
  induction l generalizing m a with
  | nil => simp [memPut]
  | cons b t ih =>
    rw [memPut, ih, cget_cset]
    by_cases h1 : x = a
    · subst h1; simp
    · by_cases h2 : a + 1 ≤ x ∧ x < a + 1 + t.length
      · have h3 : a ≤ x ∧ x < a + (b :: t).length := by simp only [List.length_cons]; omega
        have h4 : x - a = (x - (a + 1)) + 1 := by omega
        rw [if_pos h2, if_pos h3, h4]; rfl
      · have h3 : ¬(a ≤ x ∧ x < a + (b :: t).length) := by simp only [List.length_cons]; omega
        rw [if_neg h2, if_neg h3, if_neg h1]

/-- The byte read after `put`. -/
theorem State.byte_put (s : State) (a : Nat) (l : List Byte) (x : Nat) :
    (s.put a l).byte x = if a ≤ x ∧ x < a + l.length then l.getD (x - a) 0 else s.byte x := cget_memPut s.mem a l x

/-- The byte read after `putCells`. -/
theorem State.byte_putCells (s : State) (l : List Host.Cell) (x : Nat) : (s.putCells l).byte x = (lastAt l x).getD (s.byte x) :=
  cget_csets memDefault s.mem l x

/-- A write of bytes keeps the canonical form. -/
theorem memPut_wf {m : List Host.Cell} (a : Nat) (l : List Byte) (h : Memory.wf m = true) : Memory.wf (memPut m a l) = true := by
  induction l generalizing m a with
  | nil => exact h
  | cons b t ih => exact ih (a + 1) (cwf_cset a b h)

/-- `put` keeps the canonical form. -/
theorem State.put_wf {s : State} (a : Nat) (l : List Byte) (h : Memory.wf s.mem = true) : Memory.wf (s.put a l).mem = true :=
  memPut_wf a l h

/-- `putCells` keeps the canonical form. -/
theorem State.putCells_wf {s : State} (l : List Host.Cell) (h : Memory.wf s.mem = true) : Memory.wf (s.putCells l).mem = true :=
  cwf_csets l h

/-- `zeroRange` keeps the canonical form. -/
theorem State.zeroRange_wf {s : State} (a n : Nat) (h : Memory.wf s.mem = true) : Memory.wf (s.zeroRange a n).mem = true :=
  cwf_filter _ h

/-- Evaluating one watch leaves the memory as it is. -/
@[simp] theorem State.evalWatch_mem (s : State) (sect idx : Nat) : (s.evalWatch sect idx).mem = s.mem := by
  unfold State.evalWatch
  split
  · rfl
  · simp only
    split <;> rfl

/-- Evaluating the watches on a range leaves the memory as it is. -/
@[simp] theorem State.evalWatches_mem (s : State) (a n : Nat) : (s.evalWatches a n).mem = s.mem := by
  unfold State.evalWatches
  generalize sortByFst (s.watchesOn a n) = l
  induction l generalizing s with
  | nil => rfl
  | cons w t ih => simp [ih]

/-- A write at a byte's home changes memory as `memPut` says. -/
@[simp] theorem State.homePut_mem (s : State) (a : Nat) (l : List Byte) : (s.homePut a l).mem = memPut s.mem a l := by
  simp [State.homePut]

/-- The byte read after a write at its home. -/
theorem State.byte_homePut (s : State) (a : Nat) (l : List Byte) (x : Nat) :
    (s.homePut a l).byte x = if a ≤ x ∧ x < a + l.length then l.getD (x - a) 0 else s.byte x := by
  simpa [State.byte] using cget_memPut s.mem a l x

/-- A write at its home keeps the canonical form. -/
theorem State.homePut_wf {s : State} (a : Nat) (l : List Byte) (h : Memory.wf s.mem = true) : Memory.wf (s.homePut a l).mem = true := by
  simpa using memPut_wf a l h

end Sys2Proof.Machine
end

