-- ==== Sys2Proof/Laws/Words.lean ====
section
/-! SUPPORT. What every word does around its own effect: one lemma for each shared operation of Machine/Ops.lean that the proofs about
words cite. -/

namespace Sys2Proof.Machine

/-- A list of writes that names a key gives it a value. -/
theorem lastAt_some {α : Type} {l : List (Nat × α)} {k : Nat} (h : k ∈ l.map (fun c => c.1)) : ∃ v, lastAt l k = some v := by
  induction l with
  | nil => simp at h
  | cons e t ih =>
    rw [lastAt_cons]
    by_cases ht : k ∈ t.map (fun c => c.1)
    · obtain ⟨v, hv⟩ := ih ht; exact ⟨v, by simp [hv]⟩
    · have : k = e.1 := by simp_all
      cases lastAt t k <;> simp [this]

/-- A list of writes that does not name a key gives it none. -/
theorem lastAt_none {α : Type} {l : List (Nat × α)} {k : Nat} (h : k ∉ l.map (fun c => c.1)) : lastAt l k = none := by
  induction l with
  | nil => rfl
  | cons e t ih =>
    rw [lastAt_cons, ih (by simp_all)]
    have : e.1 ≠ k := by rintro rfl; simp at h
    simp [this]

/-- Writes to other keys taken out of a list leave a key's last value. -/
theorem lastAt_filter {α : Type} (l : List (Nat × α)) (p : Nat → Bool) (k : Nat) :
    lastAt (l.filter (fun c => p c.1)) k = if p k then lastAt l k else none := by
  induction l with
  | nil => simp
  | cons e t ih =>
    rw [List.filter_cons, lastAt_cons]
    split
    · rw [lastAt_cons, ih]
      split
      · rfl
      · have : e.1 ≠ k := by rintro rfl; simp_all
        simp [this]
    · rw [ih]
      split
      · have : e.1 ≠ k := by rintro rfl; simp_all
        simp [this]
      · rfl

/-- Filtering every window filters the list of their cells. -/
theorem flatMap_filter (l : List Window) (p : Nat → Bool) :
    (l.map (fun d => { d with cells := d.cells.filter (fun c => p c.1) })).flatMap (fun w => w.cells) =
      (l.flatMap (fun w => w.cells)).filter (fun c => p c.1) := by
  induction l with
  | nil => rfl
  | cons w t ih => simp [ih]

/-- Closing windows changes no register's coming value (R38). -/
theorem commitWindows_coming (weight : Nat) (ws done : List Window) (regs : List (Nat × Word)) (k : Nat) :
    (lastAt ((commitWindows weight ws done regs).1.flatMap (fun w => w.cells)) k).getD (cget 0 (commitWindows weight ws done regs).2 k) =
      (lastAt ((done ++ ws).flatMap (fun w => w.cells)) k).getD (cget 0 regs k) := by
  induction ws generalizing done regs with
  | nil => simp [commitWindows]
  | cons w t ih =>
    unfold commitWindows
    split
    · rw [ih]
      simp only [List.flatMap_append, List.flatMap_cons, lastAt_append]
      rw [flatMap_filter done (fun j => !(w.cells.map (fun c => c.1)).contains j),
        lastAt_filter _ (fun j => !(w.cells.map (fun c => c.1)).contains j), cget_csets]
      cases h : lastAt (t.flatMap (fun w => w.cells)) k with
      | some v => simp
      | none =>
        by_cases hk : k ∈ w.cells.map (fun c => c.1)
        · obtain ⟨v, hv⟩ := lastAt_some hk
          have : (w.cells.map (fun c => c.1)).contains k = true := by simpa using hk
          rw [this, hv]; simp
        · have : (w.cells.map (fun c => c.1)).contains k = false := by simpa using hk
          rw [this, lastAt_none hk]; simp
    · rw [ih]; simp

/-- What the issue of a word changes beyond its group: the accounts of its core and its context. -/
theorem State.chargeIssue_kept (s : State) (gid : Nat) (c : SlotCause) (pc : Pc) :
    (s.chargeIssue gid c pc).groups = s.groups ∧ (s.chargeIssue gid c pc).mem = s.mem ∧
    (s.chargeIssue gid c pc).pkg = s.pkg ∧ (s.chargeIssue gid c pc).agenda = s.agenda ∧
    (s.chargeIssue gid c pc).focus = s.focus ∧ (s.chargeIssue gid c pc).teams = s.teams ∧
    (s.chargeIssue gid c pc).lclusters = s.lclusters ∧ (s.chargeIssue gid c pc).cclusters = s.cclusters ∧
    (s.chargeIssue gid c pc).dies = s.dies ∧ (s.chargeIssue gid c pc).fe = s.fe ∧ (s.chargeIssue gid c pc).eth = s.eth ∧
    (s.chargeIssue gid c pc).badWords = s.badWords ∧
    (s.chargeIssue gid c pc).jobs = s.jobs ∧ (s.chargeIssue gid c pc).mjobs = s.mjobs ∧
    (s.chargeIssue gid c pc).atoms = s.atoms ∧ (s.chargeIssue gid c pc).wbs = s.wbs ∧ (s.chargeIssue gid c pc).reqs = s.reqs ∧
    (s.chargeIssue gid c pc).shoots = s.shoots ∧ (s.chargeIssue gid c pc).supOps = s.supOps ∧
    (s.chargeIssue gid c pc).dry = s.dry ∧ (s.chargeIssue gid c pc).ctlq = s.ctlq ∧
    (s.chargeIssue gid c pc).free = s.free ∧ (s.chargeIssue gid c pc).serial = s.serial := by
  unfold State.chargeIssue State.firstIssue
  simp only
  split <;> simp

/-- A core after a change of its fields of account. -/
theorem State.core_modCore (s : State) (c k : Nat) (f : Core → Core) : (s.modCore c f).core k = if k = c then f (s.core c) else s.core k := by
  unfold State.modCore State.core
  rw [kget_kset]; split <;> simp_all

/-- The issue of a word leaves each core's owner, caches, log and bounds. -/
theorem State.chargeIssue_core (s : State) (gid : Nat) (c : SlotCause) (pc : Pc) (k : Nat) :
    ((s.chargeIssue gid c pc).core k).owner = (s.core k).owner ∧ ((s.chargeIssue gid c pc).core k).l1 = (s.core k).l1 ∧
    ((s.chargeIssue gid c pc).core k).sideLog = (s.core k).sideLog ∧ ((s.chargeIssue gid c pc).core k).bounds = (s.core k).bounds ∧
    ((s.chargeIssue gid c pc).core k).accTeam = (s.core k).accTeam := by
  have hctx : ∀ (s : State) c f k, (s.modCtx c f).core k = s.core k := fun _ _ _ _ => rfl
  unfold State.chargeIssue State.firstIssue
  simp only
  split
  · rw [State.core_modCore]; split <;> simp_all
  · rw [hctx, State.core_modCore]; split
    · subst k; simp only [State.core_modCore, if_true, and_self]
    · rw [State.core_modCore]; simp_all

/-- The issue of a word leaves each context but for its slice statistics. -/
theorem State.chargeIssue_ctx (s : State) (gid : Nat) (c : SlotCause) (pc : Pc) (k : Nat) :
    (s.chargeIssue gid c pc).ctx k =
      (s.ctx k).map (fun x => { x with slstat := (((s.chargeIssue gid c pc).ctx k).getD Ctx.reset).slstat }) := by
  have triv : ∀ o : Option Ctx, o = o.map (fun x => { x with slstat := (o.getD Ctx.reset).slstat }) := by
    intro o; cases o <;> rfl
  unfold State.chargeIssue State.firstIssue
  simp only
  split
  · exact triv _
  · simp only [State.modCtx, State.ctx, kget_kmod, State.modCore_ctxs]
    split
    · cases kget s.ctxs k with
      | none => rfl
      | some x => simp only [Option.map_some, Option.getD_some]; split <;> rfl
    · exact triv _

/-- The lanes in order. -/
theorem lanes32_eq : lanes32 = List.range 32 := by decide

theorem mem_lanes32 {l : Nat} : l ∈ lanes32 ↔ l < 32 := by rw [lanes32_eq, List.mem_range]

/-- The element of a list made lane by lane. -/
theorem getD_lanes {α : Type} (f : Nat → α) (d : α) {l : Nat} (h : l < 32) : (lanes32.map f).getD l d = f l := by
  rw [lanes32_eq]; simp [List.getD, h]

/-- A sum of powers below a bound has the bits that were put into it. -/
theorem maskSum (f : Nat → Bool) (n : Nat) :
    (List.range n).foldl (fun acc l => if f l then acc + 2 ^ l else acc) 0 < 2 ^ n ∧
      ∀ l, l < n → ((List.range n).foldl (fun acc l => if f l then acc + 2 ^ l else acc) 0).testBit l = f l := by
  induction n with
  | zero => simp
  | succ n ih =>
    obtain ⟨h1, h2⟩ := ih
    rw [List.range_succ, List.foldl_append]
    simp only [List.foldl_cons, List.foldl_nil]
    generalize (List.range n).foldl (fun acc l => if f l then acc + 2 ^ l else acc) 0 = x at h1 h2
    have hp : 2 ^ (n + 1) = 2 ^ n + 2 ^ n := by rw [Nat.pow_succ]; omega
    refine ⟨by split <;> omega, fun l hl => ?_⟩
    by_cases hn : l = n
    · subst hn
      split
      · rw [Nat.add_comm, Nat.testBit_two_pow_add_eq, Nat.testBit_lt_two_pow h1]; simp_all
      · rw [Nat.testBit_lt_two_pow h1]; simp_all
    · split
      · rw [Nat.add_comm, Nat.testBit_two_pow_add_gt (by omega)]; exact h2 l (by omega)
      · exact h2 l (by omega)

/-- The bits of a lane mask. -/
theorem maskOf_bit (f : Nat → Bool) {l : Nat} (h : l < 32) : (maskOf f).getLsbD l = f l := by
  unfold maskOf
  rw [lanes32_eq, BitVec.getLsbD_ofNat, (maskSum f 32).2 l h]
  simp [h]

/-- The lowest of some PCs is one of them. -/
theorem minPc_mem {l : List Pc} {p : Pc} (h : minPc l = some p) : p ∈ l := by
  induction l generalizing p with
  | nil => simp [minPc] at h
  | cons a t ih =>
    unfold minPc at h
    cases ht : minPc t with
    | none => simp_all
    | some b =>
      simp only [ht, Option.some.injEq] at h
      split at h
      · subst h; exact List.mem_cons_of_mem _ (ih ht)
      · simp [← h]

/-- A group with an issue address has an active lane (R78). -/
theorem Group.exists_active {g : Group} {pc : Pc} (h : g.issuePc = some pc) :
    ∃ l, l < 32 ∧ g.active.getLsbD l = true ∧ g.vpcOf l = pc ∧ pc ≠ exitPc := by
  have h' := minPc_mem h
  obtain ⟨l, hl, hp⟩ := List.mem_map.1 h'
  obtain ⟨hl1, hl2⟩ := List.mem_filter.1 hl
  have hl3 := mem_lanes32.1 hl1
  simp only [Bool.and_eq_true, decide_eq_true_eq] at hl2
  refine ⟨l, hl3, ?_, hp, hp ▸ hl2.1⟩
  unfold Group.active
  rw [h]
  simp only [maskOf_bit _ hl3, Bool.and_eq_true, decide_eq_true_eq]
  exact ⟨⟨hp, hp ▸ hl2.1⟩, hl2.2⟩

/-- A group with a lane that has not exited has not retired (R78). -/
theorem Group.not_retired {g : Group} {l : Nat} (hl : l < 32) (h : g.vpcOf l ≠ exitPc) : g.retired = false := by
  unfold Group.retired Group.live
  have := maskOf_bit (fun l => decide (g.vpcOf l ≠ exitPc)) hl
  simp only [h, ne_eq, not_false_eq_true, decide_true] at this
  simp only [decide_eq_false_iff_not]
  intro hz
  rw [hz] at this
  simp at this

/-- The helpers stay while another lane does (R88). -/
theorem exitHelpers_id {helper : LaneMask} {vpc : List Pc} {l : Nat} (hl : l < 32) (hh : helper.getLsbD l = false)
    (hv : vpc.getD l exitPc ≠ exitPc) : exitHelpers helper vpc = vpc := by
  unfold exitHelpers
  rw [if_neg]
  simp only [List.all_eq_true, Bool.or_eq_true, decide_eq_true_eq]
  intro h
  rcases h l (mem_lanes32.2 hl) with h | h
  · simp_all
  · exact hv h

/-- A group that has not retired is not removed. -/
theorem State.retireGroup_live {s : State} {gid : Nat} {g : Group} (h : s.grp gid = some g) (hr : g.retired = false) :
    s.retireGroup gid = s := by
  unfold State.retireGroup; rw [h]; simp [hr]

/-- The region entry leaves the group's registers, windows, lanes and level (R45, R94). -/
theorem Group.entered_kept (g : Group) (f : Info) :
    (g.entered f).regs = g.regs ∧ (g.entered f).windows = g.windows ∧ (g.entered f).pends = g.pends ∧ (g.entered f).vpc = g.vpc ∧
    (g.entered f).aside = g.aside ∧ (g.entered f).level = g.level ∧ (g.entered f).helper = g.helper ∧
    (g.entered f).svpc = g.svpc ∧ (g.entered f).lsp = g.lsp := by
  unfold Group.entered; simp only; split <;> simp [Group.enterRegion]

/-- At HANDLER level there is no region entry (R94). -/
theorem Group.entered_handler (g : Group) (f : Info) (h : g.inRegion = false) : (g.entered f).retcnt = g.retcnt := by
  unfold Group.entered; simp [h]

/-- A word that runs undisturbed is its body and its end. -/
theorem Ready.wordStep {f : Info} {keys : Group → List Nat → List Nat} {s : State} {g : Group} {pc : Pc} (h : Ready f keys s g pc)
    (body : W → W) : wordStep f keys s g pc body = (body (W.begin f s g pc)).finish := by
  unfold Machine.wordStep; simp [h.notEarly]

/-- A word that runs undisturbed answers a next state. -/
theorem Ready.run {i : Instr} {keys : Group → List Nat → List Nat} {s : State} {g : Group} {pc : Pc} (h : Ready (info i) keys s g pc)
    (body : W → W) : runWordX i keys s body = .next (body (W.begin (info i) s g pc)).finish := by
  unfold runWordX; simp [h.on, h.here, h.at_, h.wordStep]

/-- The end of a word that is neither held nor faults (R36–R45). -/
theorem W.finish_clean (w : W) (h1 : w.hold = none) (h2 : w.faults = []) (h3 : w.absents = []) (h4 : w.held = []) (h5 : w.dry = false) :
    w.finish = ((w.s.modGrp w.gid w.close).chargeIssue w.gid .issue w.pc).retireGroup w.gid := by
  unfold W.finish W.settle W.rolled; simp [h1, h2, h3, h4, h5]

/-- The group after the end of a clean word whose group goes on. -/
theorem W.finish_grp (w : W) (gx : Group) (h1 : w.hold = none) (h2 : w.faults = []) (h3 : w.absents = []) (h4 : w.held = [])
    (h5 : w.dry = false) (hg : w.s.grp w.gid = some gx) (hr : (w.close gx).retired = false) :
    w.finish.grp w.gid = some (w.close gx) ∧ w.finish = (w.s.modGrp w.gid w.close).chargeIssue w.gid .issue w.pc := by
  have hgrp : ((w.s.modGrp w.gid w.close).chargeIssue w.gid .issue w.pc).grp w.gid = some (w.close gx) := by
    have := (State.chargeIssue_kept (w.s.modGrp w.gid w.close) w.gid .issue w.pc).1
    have h := State.grp_modGrp_self w.s w.gid w.close
    rw [hg] at h
    unfold State.grp at *
    rw [this, h]; rfl
  rw [W.finish_clean w h1 h2 h3 h4 h5, State.retireGroup_live hgrp hr]
  exact ⟨hgrp, rfl⟩

/-- Nothing is changed by nothing. -/
theorem StateKept.refl (gid : Nat) (s : State) : StateKept gid s s :=
  ⟨fun _ => rfl, fun _ _ => rfl, ⟨rfl, rfl⟩, fun _ => ⟨rfl, rfl, rfl, rfl, rfl⟩, fun c => by cases s.ctx c <;> rfl, ⟨rfl, rfl⟩,
    ⟨rfl, rfl, rfl, rfl, rfl, rfl, rfl, rfl⟩, ⟨rfl, rfl⟩, rfl⟩

/-- What is kept stays kept when the group is set. -/
theorem StateKept.setGrp {gid : Nat} {s x : State} (h : StateKept gid s x) (g : Group) : StateKept gid s (x.setGrp gid g) :=
  ⟨h.memory, fun k hk => (State.grp_setGrp_ne x g hk).trans (h.groups k hk), h.teams, h.cores, h.ctxs, h.dies, h.units, h.queued, h.pkg⟩

/-- What is kept stays kept when the group is changed. -/
theorem StateKept.modGrp {gid : Nat} {s x : State} (h : StateKept gid s x) (f : Group → Group) : StateKept gid s (x.modGrp gid f) :=
  ⟨h.memory, fun k hk => (State.grp_modGrp_ne x f hk).trans (h.groups k hk), h.teams, h.cores, h.ctxs, h.dies, h.units, h.queued, h.pkg⟩

/-- What is kept stays kept when the word is accounted. -/
theorem StateKept.issue {n : Nat} {s x : State} (h : StateKept n s x) (gid : Nat) (c : SlotCause) (pc : Pc) : StateKept n s (x.chargeIssue gid c pc) := by
  obtain ⟨k1, k2, k3, k4, k5, k6, k7, k8, k9, k10, k11, k12, k13, k14, k15, k16, k17, k18, k19, k20, k21, -⟩ :=
    State.chargeIssue_kept x gid c pc
  refine ⟨fun a => (State.byte_eq k2 a).trans (h.memory a), fun j hj => ?_, ⟨k6.trans h.teams.1, k7.trans h.teams.2⟩, fun c' => ?_,
    fun c' => ?_, ⟨k9.trans h.dies.1, k8.trans h.dies.2⟩, ?_, ⟨k4.trans h.queued.1, k21.trans h.queued.2⟩, k3.trans h.pkg⟩
  · unfold State.grp
    rw [k1]; exact h.groups j hj
  · obtain ⟨a1, a2, a3, a4, a5⟩ := State.chargeIssue_core x gid c pc c'
    obtain ⟨b1, b2, b3, b4, b5⟩ := h.cores c'
    exact ⟨a1.trans b1, a2.trans b2, a3.trans b3, a4.trans b4, a5.trans b5⟩
  · have hx := State.chargeIssue_ctx x gid c pc c'
    have hs := h.ctxs c'
    rw [hs] at hx
    cases hc : s.ctx c' with
    | none => simpa [hc] using hx
    | some v => rw [hc] at hx; simp only [Option.map_some] at hx ⊢; rw [hx]; rfl
  · obtain ⟨u1, u2, u3, u4, u5, u6, u7, u8⟩ := h.units
    exact ⟨k10.trans u1, k11.trans u2, k13.trans u3, k14.trans u4, k15.trans u5, k17.trans u6, k18.trans u7, k19.trans u8⟩

/-- What the end of a clean word that goes on makes of its group. -/
theorem W.close_kept (w : W) (g : Group) : GroupKept { g with rsig := (w.close g).rsig } (w.close g) ∧
    (∀ k, (w.close g).coming k = (lastAt (w.fixed.flatMap (fun x => x.cells)) k).getD (g.coming k)) ∧
    (w.close g).vpc = exitHelpers g.helper w.newVpc ∧ (w.close g).pends.map Pend.plain = g.pends.map Pend.plain ∧
    (w.close g).retcnt = (if w.g.inRegion && w.retires (exitHelpers g.helper w.newVpc) then g.counted else g.retcnt) := by
  have hp : ∀ (rc : Word) (l : List Pend), (l.map (fun p => if p.sig = some 0 then { p with sig := some rc } else p)).map Pend.plain =
      l.map Pend.plain := by
    intro rc l; rw [List.map_map]; congr 1; funext p; simp only [Function.comp]; split <;> rfl
  have hc : ∀ k, (lastAt ((commitWindows w.weight (g.windows ++ w.fixed) [] g.regs).1.flatMap (fun x => x.cells)) k).getD
      (cget 0 (commitWindows w.weight (g.windows ++ w.fixed) [] g.regs).2 k) = (lastAt (w.fixed.flatMap (fun x => x.cells)) k).getD (g.coming k) := by
    intro k
    rw [commitWindows_coming]
    simp only [List.nil_append, List.flatMap_append, lastAt_append, Group.coming]
    cases lastAt (w.fixed.flatMap (fun x => x.cells)) k <;> simp
  unfold W.close
  simp only
  split
  all_goals
    refine ⟨?_, hc, rfl, hp _ _, rfl⟩
    constructor <;> simp [W.closed]

/-- The PC of a lane that a word leaves it at (R79), when it faults nowhere. -/
def W.toPc (w : W) (l : Nat) : Pc := (lastAt w.vpc l).getD (w.pc + 1)

/-- The new lane PCs of a word that faults nowhere (R79). -/
theorem W.newVpc_clean (w : W) (h1 : w.faults = []) (h2 : w.absents = []) (h3 : w.held = []) (h4 : w.stuck = false)
    (g : Group) (ha : w.act = g.active) (hv : (w.s.grpD w.gid).vpc = g.vpc) :
    w.newVpc = lanes32.map (fun l => if g.active.getLsbD l then w.toPc l else g.vpcOf l) := by
  unfold W.newVpc W.stays W.rolled W.toPc W.nx Group.vpcOf
  simp only [h1, h2, h3, h4, ha, hv, List.isEmpty_nil, Bool.not_true, Bool.or_self, Bool.false_and, List.append_nil, List.map_nil, ite_self,
    List.contains_nil, Bool.and_false, Bool.false_eq_true, if_false]
  apply List.map_congr_left
  intro l _
  unfold lastAt
  split
  · cases kget w.vpc.reverse l <;> rfl
  · rfl

/-- After a word that goes to the next word, some lane that is no helper is not exited. -/
theorem Ready.goes {f : Info} {keys : Group → List Nat → List Nat} {s : State} {g : Group} {pc : Pc} (h : Ready f keys s g pc) :
    ∃ l, l < 32 ∧ g.helper.getLsbD l = false ∧ (if g.active.getLsbD l then pc + 1 else g.vpcOf l) ≠ exitPc := by
  obtain ⟨l, hl, hh, hv⟩ := h.someLane
  refine ⟨l, hl, hh, ?_⟩
  split
  · exact h.inside
  · exact hv

/-- No word is its own next word. -/
theorem nx_ne (pc : Pc) : pc + 1 ≠ pc := by
  intro hc
  have := congrArg BitVec.toNat hc
  rw [BitVec.toNat_add] at this
  simp at this
  omega

/-- A word that is no transfer leaves the replay signature (R396). -/
theorem W.close_rsig (w : W) (hw : w.branch = none) (x : Group) : (w.close x).rsig = x.rsig := by
  have h : (w.closed x).rsig = x.rsig := by unfold W.closed; simp [hw]
  unfold W.close
  simp only
  split <;> exact h

/-- THE END OF A CLEAN WORD (R36–R45, R79, R94): a word that is neither held nor faults performs its own effect, moves its lanes and issues. -/
theorem Ready.performsTo {i : Instr} {keys : Group → List Nat → List Nat} {s : State} {g gx : Group} {pc : Pc} {body : W → W}
    (h : Ready (info i) keys s g pc) (he : exec i s = runWordX i keys s body) (w : W) (hb : body (W.begin (info i) s g pc) = w)
    (h1 : w.hold = none ∧ w.faults = [] ∧ w.absents = [] ∧ w.held = [] ∧ w.dry = false ∧ w.stuck = false)
    (h2 : w.gid = s.focus ∧ w.pc = pc ∧ w.act = g.active ∧ w.g.level = g.level) (hg : w.s.grp s.focus = some gx)
    (hv : gx.vpc = g.vpc ∧ gx.helper = g.helper)
    (hgo : ∃ l, l < 32 ∧ g.helper.getLsbD l = false ∧ (if g.active.getLsbD l then w.toPc l else g.vpcOf l) ≠ exitPc) :
    PerformsTo i s g w.s (w.fixed.flatMap (fun x => x.cells)) w.toPc := by
  obtain ⟨e1, e2, e3, e4, e5, e6⟩ := h1
  obtain ⟨d1, d2, d3, d4⟩ := h2
  have hv' := W.newVpc_clean w e2 e3 e4 e6 g d3 (by rw [d1, State.grpD_of_grp hg]; exact hv.1)
  obtain ⟨l, hl, hh, hx⟩ := hgo
  have hx' : (lanes32.map (fun l => if g.active.getLsbD l then w.toPc l else g.vpcOf l)).getD l exitPc ≠ exitPc := by
    rw [getD_lanes _ _ hl]; exact hx
  have hex : exitHelpers gx.helper w.newVpc = lanes32.map (fun l => if g.active.getLsbD l then w.toPc l else g.vpcOf l) := by
    rw [hv']; exact exitHelpers_id hl (by rw [hv.2]; exact hh) hx'
  obtain ⟨c1, c2, c3, c4, c5⟩ := W.close_kept w gx
  have hr : (w.close gx).retired = false := by
    apply Group.not_retired hl
    unfold Group.vpcOf
    rw [c3, hex]; exact hx'
  obtain ⟨f1, f2⟩ := W.finish_grp w gx e1 e2 e3 e4 e5 (d1 ▸ hg) hr
  have hret : w.retires (lanes32.map (fun l => if g.active.getLsbD l then w.toPc l else g.vpcOf l)) = true := by
    obtain ⟨x, hx1, hx2, -, -⟩ := Group.exists_active h.at_
    simp only [W.retires, W.rolled, W.stays, e2, e3, e4, e5, e6, d2, d3, List.isEmpty_nil, Bool.not_true, Bool.or_self, Bool.not_false,
      Bool.true_and, Bool.false_and, if_true, List.any_eq_true]
    refine ⟨x, List.mem_filter.2 ⟨mem_lanes32.2 hx1, hx2⟩, ?_⟩
    rw [getD_lanes _ _ hx1, if_pos hx2]
    unfold W.toPc lastAt
    cases kget w.vpc.reverse x with
    | some v => simp
    | none => simp only [Option.getD_none, d2, Option.isSome_none, Bool.or_false, decide_eq_true_eq]; exact nx_ne pc
  refine ⟨w.finish, gx, w.close gx, by rw [he, h.run, hb], hg, d1 ▸ f1, by rw [c3, hex], ?_, c2, c4, c1, ?_⟩
  · rw [c5, hex, hret]
    have : w.g.inRegion = g.inRegion := by unfold Group.inRegion; rw [d4]
    rw [this, Bool.and_true]
  · rw [f2, d1]; exact ((StateKept.refl s.focus w.s).modGrp _).issue _ _ _

/-- The group and the state at the end of a clean word (R36–R45, R79), whatever the word made of its lanes' PCs. -/
theorem Ready.closes {i : Instr} {keys : Group → List Nat → List Nat} {s : State} {g gx : Group} {pc : Pc} {body : W → W}
    (h : Ready (info i) keys s g pc) (he : exec i s = runWordX i keys s body) (w : W) (hb : body (W.begin (info i) s g pc) = w)
    (h1 : w.hold = none ∧ w.faults = [] ∧ w.absents = [] ∧ w.held = [] ∧ w.dry = false ∧ w.stuck = false)
    (h2 : w.gid = s.focus ∧ w.act = g.active) (hg : w.s.grp s.focus = some gx)
    (hgo : ∃ l, l < 32 ∧ gx.helper.getLsbD l = false ∧ (if g.active.getLsbD l then w.toPc l else gx.vpcOf l) ≠ exitPc) :
    exec i s = .next w.finish ∧ w.finish.grp s.focus = some (w.close gx) ∧
    (w.close gx).vpc = lanes32.map (fun l => if g.active.getLsbD l then w.toPc l else gx.vpcOf l) ∧
    exitHelpers gx.helper w.newVpc = (w.close gx).vpc ∧ StateKept s.focus w.s w.finish := by
  obtain ⟨e1, e2, e3, e4, e5, e6⟩ := h1
  obtain ⟨d1, d2⟩ := h2
  have hv : w.newVpc = lanes32.map (fun l => if g.active.getLsbD l then w.toPc l else gx.vpcOf l) := by
    unfold W.newVpc W.stays W.rolled W.toPc W.nx
    simp only [e2, e3, e4, e6, d2, d1, State.grpD_of_grp hg, List.isEmpty_nil, Bool.not_true, Bool.or_self, Bool.false_and, List.append_nil,
      List.map_nil, ite_self, List.contains_nil, Bool.and_false, Bool.false_eq_true, if_false]
    apply List.map_congr_left
    intro l _
    unfold lastAt
    split
    · cases kget w.vpc.reverse l <;> rfl
    · rfl
  obtain ⟨l, hl, hh, hx⟩ := hgo
  have hx' : (lanes32.map (fun l => if g.active.getLsbD l then w.toPc l else gx.vpcOf l)).getD l exitPc ≠ exitPc := by
    rw [getD_lanes _ _ hl]; exact hx
  have hex : exitHelpers gx.helper w.newVpc = lanes32.map (fun l => if g.active.getLsbD l then w.toPc l else gx.vpcOf l) := by
    rw [hv]; exact exitHelpers_id hl hh hx'
  obtain ⟨c1, c2, c3, c4, c5⟩ := W.close_kept w gx
  have hr : (w.close gx).retired = false := by
    apply Group.not_retired hl
    unfold Group.vpcOf
    rw [c3, hex]; exact hx'
  obtain ⟨f1, f2⟩ := W.finish_grp w gx e1 e2 e3 e4 e5 (d1 ▸ hg) hr
  exact ⟨by rw [he, h.run, hb], d1 ▸ f1, c3.trans hex, c3.symm, by rw [f2, d1]; exact ((StateKept.refl s.focus w.s).modGrp _).issue _ _ _⟩

/-- Only the PCs of active lanes matter. -/
theorem PerformsTo.congr {i : Instr} {s : State} {g : Group} {x : State} {cells : List (Nat × Word)} {p q : Nat → Pc}
    (h : PerformsTo i s g x cells p) (hpq : ∀ l, g.active.getLsbD l = true → p l = q l) : PerformsTo i s g x cells q := by
  have : lanes32.map (fun l => if g.active.getLsbD l then p l else g.vpcOf l) =
      lanes32.map (fun l => if g.active.getLsbD l then q l else g.vpcOf l) := by
    apply List.map_congr_left
    intro l _
    split
    · exact hpq l ‹_›
    · rfl
  unfold PerformsTo at h ⊢
  rwa [this] at h

/-- A lane of execution of a vector word is an active lane where the guard holds (R33, R36). -/
theorem Group.mem_exLanes {g : Group} {f : Info} {act : LaneMask} {l : Nat} (hu : uniOf f = false) (hl : l < 32) :
    l ∈ g.exLanes f act ↔ act.getLsbD l = true ∧ g.guard false f.h l = true := by
  unfold Group.exLanes lanesOf
  rw [hu]
  simp only [Bool.false_eq_true, if_false, List.mem_filter, mem_lanes32, hl, true_and]

/-- An active lane is one of the 32. -/
theorem lt_of_getLsbD {m : LaneMask} {l : Nat} (h : m.getLsbD l = true) : l < 32 := by
  by_contra hc
  rw [BitVec.getLsbD_of_ge _ _ (by omega)] at h
  simp at h

/-- The same for a word that sets no PC. -/
theorem Ready.performs {i : Instr} {keys : Group → List Nat → List Nat} {s : State} {g gx : Group} {pc : Pc} {body : W → W}
    (h : Ready (info i) keys s g pc) (he : exec i s = runWordX i keys s body) (w : W) (hb : body (W.begin (info i) s g pc) = w)
    (h1 : w.hold = none ∧ w.faults = [] ∧ w.absents = [] ∧ w.held = [] ∧ w.dry = false ∧ w.stuck = false ∧ w.vpc = [])
    (h2 : w.gid = s.focus ∧ w.pc = pc ∧ w.act = g.active ∧ w.g.level = g.level) (hg : w.s.grp s.focus = some gx)
    (hv : gx.vpc = g.vpc ∧ gx.helper = g.helper) : Performs i s g pc w.s (w.fixed.flatMap (fun x => x.cells)) := by
  obtain ⟨e1, e2, e3, e4, e5, e6, e7⟩ := h1
  have : w.toPc = fun _ => pc + 1 := by unfold W.toPc; rw [e7, h2.2.1]; rfl
  unfold Performs
  rw [← this]
  exact h.performsTo he w hb ⟨e1, e2, e3, e4, e5, e6⟩ h2 hg hv (by rw [this]; exact h.goes)

/-- A word that runs undisturbed is in no re-execution of a stop. -/
theorem Ready.wet {f : Info} {keys : Group → List Nat → List Nat} {s : State} {g : Group} {pc : Pc} (h : Ready f keys s g pc) :
    (W.begin f s g pc).dry = false := by simp [W.begin, h.noStop]

/-- The group in the state in which a word's own effect begins. -/
theorem State.entered_grp (s : State) (f : Info) (g : Group) : (s.entered f g).grp s.focus = some (g.entered f) := by simp [State.entered]

/-- A WORD OF FIXED LATENCY (R38): a word whose own effect is to write register cells completes with exactly those writes. -/
theorem Ready.completes {i : Instr} {keys : Group → List Nat → List Nat} {s : State} {g : Group} {pc : Pc} {body : W → W}
    (h : Ready (info i) keys s g pc) (he : exec i s = runWordX i keys s body) (ws : List Window)
    (hb : body (W.begin (info i) s g pc) = { W.begin (info i) s g pc with fixed := ws }) :
    Completes i s g pc (ws.flatMap (fun x => x.cells)) := by
  have hk := Group.entered_kept g (info i)
  exact h.performs he { W.begin (info i) s g pc with fixed := ws } hb ⟨rfl, rfl, rfl, rfl, h.wet, rfl, rfl⟩
    ⟨rfl, rfl, rfl, hk.2.2.2.2.2.1⟩ (State.entered_grp s _ g) ⟨hk.2.2.2.1, hk.2.2.2.2.2.2.1⟩

/-- A WORD WHOSE EFFECT IS A CHANGE OF THE STATE: a word whose body changes the state to `x`, with nothing else, performs that. -/
theorem Ready.effects {i : Instr} {keys : Group → List Nat → List Nat} {s : State} {g gx : Group} {pc : Pc} {body : W → W}
    (h : Ready (info i) keys s g pc) (he : exec i s = runWordX i keys s body) (x : State) (ws : List Window)
    (hb : body (W.begin (info i) s g pc) = { W.begin (info i) s g pc with s := x, fixed := ws })
    (hg : x.grp s.focus = some gx) (hv : gx.vpc = g.vpc ∧ gx.helper = g.helper) :
    Performs i s g pc x (ws.flatMap (fun x => x.cells)) := by
  have hk := Group.entered_kept g (info i)
  exact h.performs he { W.begin (info i) s g pc with s := x, fixed := ws } hb ⟨rfl, rfl, rfl, rfl, h.wet, rfl, rfl⟩
    ⟨rfl, rfl, rfl, hk.2.2.2.2.2.1⟩ hg hv

/-- A WORD THAT CHANGES ITS GROUP ALONE: a word whose body changes the group by `f` performs that. -/
theorem Ready.changes {i : Instr} {keys : Group → List Nat → List Nat} {s : State} {g : Group} {pc : Pc} {body : W → W}
    (h : Ready (info i) keys s g pc) (he : exec i s = runWordX i keys s body) (f : Group → Group) (ws : List Window)
    (hb : body (W.begin (info i) s g pc) =
      { W.begin (info i) s g pc with s := (W.begin (info i) s g pc).s.modGrp s.focus f, fixed := ws })
    (hv : (f (g.entered (info i))).vpc = (g.entered (info i)).vpc ∧ (f (g.entered (info i))).helper = (g.entered (info i)).helper)
    {P : Group → Prop} (hP : P (f (g.entered (info i)))) :
    Changes i s g pc (ws.flatMap (fun x => x.cells)) P := by
  have hk := Group.entered_kept g (info i)
  have hg : ((W.begin (info i) s g pc).s.modGrp s.focus f).grp s.focus = some (f (g.entered (info i))) := by
    rw [State.grp_modGrp_self]
    show ((s.entered _ g).grp s.focus).map _ = _
    rw [State.entered_grp]; rfl
  exact ⟨_, _, h.effects he _ ws hb hg ⟨hv.1.trans hk.2.2.2.1, hv.2.trans hk.2.2.2.2.2.2.1⟩, (StateKept.refl _ _).modGrp _, hg, hP⟩

/-- What is seen of a state does not depend on the counters behind free values and serial numbers. -/
theorem Performs.of_kept {i : Instr} {s : State} {g : Group} {pc : Pc} {x y : State} {cells : List (Nat × Word)}
    (h : Performs i s g pc x cells) (hg : y.grp s.focus = x.grp s.focus) (hk : ∀ t, StateKept s.focus x t → StateKept s.focus y t) :
    Performs i s g pc y cells := by
  obtain ⟨t, gx, g', a1, a2, a3, a4, a5, a6, a7, a8, a9⟩ := h
  exact ⟨t, gx, g', a1, hg.trans a2, a3, a4, a5, a6, a7, a8, hk t a9⟩

/-- A WORD OF VARIABLE LATENCY (R40): a word that changes the state to `x` and makes one scoreboard entry takes its place with it. -/
theorem Ready.awaitsIn {i : Instr} {keys : Group → List Nat → List Nat} {s : State} {g gx : Group} {pc : Pc} {body : W → W}
    (h : Ready (info i) keys s g pc) (he : exec i s = runWordX i keys s body) (hx : (g.entered (info i)).exLanes (info i) g.active ≠ [])
    (x : State) (cells : List (Nat × Word)) (due : Nat) (sig : Bool)
    (hb : body (W.begin (info i) s g pc) = { W.begin (info i) s g pc with s := x }.var cells due sig)
    (hg : x.grp s.focus = some gx) (hv : gx.vpc = g.vpc ∧ gx.helper = g.helper) (ok : Nat → Prop) (hd : ok due) :
    AwaitsIn i s g pc x cells ok := by
  have hw : ∃ p : Pend, { W.begin (info i) s g pc with s := x }.var cells due sig = { W.begin (info i) s g pc with
      s := { x with serial := x.serial + 1 }.modGrp s.focus (fun y => { y with pends := y.pends ++ [p] }) } ∧
      p.pc = pc ∧ p.regs = dstRegs (info i) ∧ p.cells = cells ∧ p.due = some due := by
    have hgx : ∀ f1 f2 : Group → Group, f1 gx = f2 gx →
        State.modGrp { x with serial := x.serial + 1 } s.focus f1 = State.modGrp { x with serial := x.serial + 1 } s.focus f2 := by
      intro f1 f2 hf
      unfold State.grp at hg
      unfold State.modGrp
      simp only [hg, hf]
    refine ⟨⟨x.serial, pc, (info i).op, dstRegs (info i), cells, some due, if sig && gx.inRegion then some 0 else none,
      (dstRegs (info i)).headD 0⟩, ?_, rfl, rfl, rfl, rfl⟩
    unfold W.var W.pend
    simp only [State.fresh]
    rw [if_neg (by simpa [W.begin, List.isEmpty_iff] using hx)]
    simp only [W.mod, W.begin, h.noStop, Option.map_none]
    congr 1
    exact hgx _ _ rfl
  obtain ⟨p, hw, p1, p2, p3, p4⟩ := hw
  refine ⟨p, due, p1, p2, p3, p4, hd, ?_⟩
  have := h.effects (gx := { gx with pends := gx.pends ++ [p] }) he _ [] (hb.trans hw) (by
    have hg' : State.grp { x with serial := x.serial + 1 } s.focus = some gx := hg
    rw [State.grp_modGrp_self, hg']; rfl) hv
  exact this.of_kept rfl (fun t k => ⟨k.memory, k.groups, k.teams, k.cores, k.ctxs, k.dies, k.units, k.queued, k.pkg⟩)

/-- The same for a word that changes nothing else but the counter behind the free values. -/
theorem Ready.awaits {i : Instr} {keys : Group → List Nat → List Nat} {s : State} {g : Group} {pc : Pc} {body : W → W}
    (h : Ready (info i) keys s g pc) (he : exec i s = runWordX i keys s body) (hx : (g.entered (info i)).exLanes (info i) g.active ≠ [])
    (n : Nat) (cells : List (Nat × Word)) (due : Nat) (sig : Bool)
    (hb : body (W.begin (info i) s g pc) = { W.begin (info i) s g pc with s := { s.entered (info i) g with free := n } }.var cells due sig)
    (ok : Nat → Prop) (hd : ok due) : Awaits i s g pc cells ok := by
  have hk := Group.entered_kept g (info i)
  obtain ⟨p, d, p1, p2, p3, p4, p5, hp⟩ := h.awaitsIn (gx := g.entered (info i)) he hx { s.entered (info i) g with free := n } cells due sig hb
    (State.entered_grp s _ g) ⟨hk.2.2.2.1, hk.2.2.2.2.2.2.1⟩ ok hd
  exact ⟨p, d, p1, p2, p3, p4, p5, hp.of_kept rfl (fun t k => ⟨k.memory, k.groups, k.teams, k.cores, k.ctxs, k.dies, k.units, k.queued, k.pkg⟩)⟩

/-- A word whose body makes one fixed-latency result completes with its cells. -/
theorem writes_of_fixL {i : Instr} {keys : State → Group → List Nat → List Nat} {body : W → W} {cells : Group → LaneMask → List Nat → List (Nat × Word)}
    (lat : W → Nat) (he : ∀ s, exec i s = runWordX i (keys s) s body)
    (hb : ∀ w, w.f = info i → body w = w.fixL (lat w) (cells w.g w.act w.ex)) (s : State) (g : Group) (pc : Pc)
    (h : Ready (info i) (keys s) s g pc) :
    Completes i s g pc (cells (g.entered (info i)) g.active ((g.entered (info i)).exLanes (info i) g.active)) := by
  by_cases hc : (cells (g.entered (info i)) g.active ((g.entered (info i)).exLanes (info i) g.active)).isEmpty = true
  · have := h.completes (he s) [] (by rw [hb _ rfl]; exact if_pos hc)
    rwa [List.isEmpty_iff.1 hc]
  · have := h.completes (he s) [⟨lat (W.begin (info i) s g pc), cells (g.entered (info i)) g.active ((g.entered (info i)).exLanes (info i) g.active)⟩]
      (by rw [hb _ rfl]; exact if_neg hc)
    simpa using this

/-- A scoreboard entry of a word that executes somewhere and is in no re-execution (R40). -/
theorem W.pend_eq (w : W) (cells : List (Nat × Word)) (due : Option Nat) (sig : Bool) (hx : w.ex ≠ []) (hd : w.dry = false) :
    w.pend cells due sig = (w.s.serial, { w with s := State.modGrp { w.s with serial := w.s.serial + 1 } w.gid (fun g =>
      { g with pends := g.pends ++ [Pend.mk w.s.serial w.pc w.f.op (dstRegs w.f) cells due (if sig && g.inRegion then some 0 else none)
        ((dstRegs w.f).headD 0)] }) }) := by
  unfold W.pend
  simp only [State.fresh]
  rw [if_neg (by simpa [List.isEmpty_iff] using hx)]
  simp only [W.mod, hd, Bool.false_eq_true, if_false]

/-- A group keeps its lanes' PCs and its helper lanes from one state to another. -/
def Steady (gid : Nat) (s x : State) : Prop := ∀ y, s.grp gid = some y → ∃ z, x.grp gid = some z ∧ z.vpc = y.vpc ∧ z.helper = y.helper

theorem Steady.refl (gid : Nat) (s : State) : Steady gid s s := fun y hy => ⟨y, hy, rfl, rfl⟩
theorem Steady.trans {gid : Nat} {s t u : State} (h : Steady gid s t) (k : Steady gid t u) : Steady gid s u := by
  intro y hy
  obtain ⟨z, h1, h2, h3⟩ := h y hy
  obtain ⟨v, k1, k2, k3⟩ := k z h1
  exact ⟨v, k1, k2.trans h2, k3.trans h3⟩
theorem Steady.ofGroups (gid : Nat) {s x : State} (h : x.groups = s.groups) : Steady gid s x :=
  fun y hy => ⟨y, by unfold State.grp at *; rw [h]; exact hy, rfl, rfl⟩
theorem Steady.modGrp (gid k : Nat) (s : State) (f : Group → Group) (hf : ∀ y, (f y).vpc = y.vpc ∧ (f y).helper = y.helper) :
    Steady gid s (s.modGrp k f) := by
  intro y hy
  by_cases h : gid = k
  · subst h
    exact ⟨f y, by rw [State.grp_modGrp_self, hy]; rfl, hf y⟩
  · exact ⟨y, (State.grp_modGrp_ne s f h).trans hy, rfl, rfl⟩

/-- A WORD WHOSE EFFECT IS A CHANGE OF THE STATE that keeps its group's lanes where they are. -/
theorem Ready.does {i : Instr} {keys : Group → List Nat → List Nat} {s : State} {g : Group} {pc : Pc} {body : W → W}
    (h : Ready (info i) keys s g pc) (he : exec i s = runWordX i keys s body) (x : State)
    (hb : body (W.begin (info i) s g pc) = { W.begin (info i) s g pc with s := x }) (hs : Steady s.focus (s.entered (info i) g) x) :
    Performs i s g pc x [] := by
  have hk := Group.entered_kept g (info i)
  obtain ⟨z, h1, h2, h3⟩ := hs _ (State.entered_grp s _ g)
  exact h.effects he x [] hb h1 ⟨h2.trans hk.2.2.2.1, h3.trans hk.2.2.2.2.2.2.1⟩

/-- A WORD OF VARIABLE LATENCY whose other effect is a change of the state that keeps its group's lanes where they are. -/
theorem Ready.starts {i : Instr} {keys : Group → List Nat → List Nat} {s : State} {g : Group} {pc : Pc} {body : W → W}
    (h : Ready (info i) keys s g pc) (he : exec i s = runWordX i keys s body) (hx : (g.entered (info i)).exLanes (info i) g.active ≠ [])
    (x : State) (cells : List (Nat × Word)) (due : Nat) (sig : Bool)
    (hb : body (W.begin (info i) s g pc) = { W.begin (info i) s g pc with s := x }.var cells due sig)
    (hs : Steady s.focus (s.entered (info i) g) x) (ok : Nat → Prop) (hd : ok due) : AwaitsIn i s g pc x cells ok := by
  have hk := Group.entered_kept g (info i)
  obtain ⟨z, h1, h2, h3⟩ := hs _ (State.entered_grp s _ g)
  exact h.awaitsIn he hx x cells due sig hb h1 ⟨h2.trans hk.2.2.2.1, h3.trans hk.2.2.2.2.2.2.1⟩ ok hd

/-- A word whose body changes nothing completes. -/
theorem Ready.nothing {i : Instr} {keys : Group → List Nat → List Nat} {s : State} {g : Group} {pc : Pc} {body : W → W}
    (h : Ready (info i) keys s g pc) (he : exec i s = runWordX i keys s body) (hb : body (W.begin (info i) s g pc) = W.begin (info i) s g pc) :
    Completes i s g pc [] := h.completes he [] hb

/-- The same for a result of the entry's latency. -/
theorem writes_of_fix {i : Instr} {keys : Group → List Nat → List Nat} {body : W → W} {cells : Group → LaneMask → List Nat → List (Nat × Word)}
    (he : ∀ s, exec i s = runWordX i keys s body) (hb : ∀ w, w.f = info i → body w = w.fix (cells w.g w.act w.ex)) : Writes i keys cells :=
  fun s g pc h => writes_of_fixL (keys := fun _ => keys) (fun w => w.f.lat) he hb s g pc h

end Sys2Proof.Machine
end

