-- ==== Sys2Proof/Laws/Stack.lean ====
section
/-! SUPPORT. What the shared operations of the lane stack do (R84, R85, R87). -/

namespace Sys2Proof.Machine

/-- What is kept twice is kept. -/
theorem StateKept.trans {gid : Nat} {s t u : State} (h : StateKept gid s t) (k : StateKept gid t u) : StateKept gid s u := by
  refine ⟨fun a => (k.memory a).trans (h.memory a), fun j hj => (k.groups j hj).trans (h.groups j hj),
    ⟨k.teams.1.trans h.teams.1, k.teams.2.trans h.teams.2⟩, fun c => ?_, fun c => ?_, ⟨k.dies.1.trans h.dies.1, k.dies.2.trans h.dies.2⟩, ?_,
    ⟨k.queued.1.trans h.queued.1, k.queued.2.trans h.queued.2⟩, k.pkg.trans h.pkg⟩
  · obtain ⟨a1, a2, a3, a4, a5⟩ := k.cores c
    obtain ⟨b1, b2, b3, b4, b5⟩ := h.cores c
    exact ⟨a1.trans b1, a2.trans b2, a3.trans b3, a4.trans b4, a5.trans b5⟩
  · have hx := k.ctxs c
    rw [h.ctxs c] at hx
    cases hc : s.ctx c with
    | none => simpa [hc] using hx
    | some v => rw [hc] at hx; simp only [Option.map_some] at hx ⊢; rw [hx]; rfl
  · obtain ⟨u1, u2, u3, u4, u5, u6, u7, u8⟩ := k.units
    obtain ⟨v1, v2, v3, v4, v5, v6, v7, v8⟩ := h.units
    exact ⟨u1.trans v1, u2.trans v2, u3.trans v3, u4.trans v4, u5.trans v5, u6.trans v6, u7.trans v7, u8.trans v8⟩

/-- The size of a stack space does not depend on what is kept. -/
theorem StateKept.stackTop {gid : Nat} {s t : State} (h : StateKept gid s t) (g : Group) : t.stackTop g = s.stackTop g := by
  unfold State.stackTop State.ctxD
  have := h.ctxs g.ctx
  unfold State.ctx at this
  rw [this]
  cases kget s.ctxs g.ctx <;> rfl

/-- Bytes put into a lane's stack cache, dirty. -/
def stkPut (m : List (Nat × StkByte)) (l : Nat) : Nat → List Byte → List (Nat × StkByte)
  | _, [] => m
  | o, b :: t => stkPut (kset m (o * 32 + l) ⟨b, true⟩) l (o + 1) t

/-- A store inside a lane's window goes into the stack cache (R85). -/
theorem State.writeL_window {g : Group} (hs : g.isSup = false) (gid l lsp : Nat) (b : List Byte) (s : State) (o : Nat)
    (h1 : lsp ≤ o) (h2 : o + b.length ≤ lsp + 64) :
    StateKept gid s (s.writeL gid g l lsp o b) ∧
    (s.writeL gid g l lsp o b).grp gid = (s.grp gid).map (fun y => { y with stk := stkPut y.stk l o b }) := by
  induction b generalizing s o with
  | nil => exact ⟨StateKept.refl _ _, by simp [State.writeL, stkPut]⟩
  | cons x t ih =>
    simp only [List.length_cons] at h2
    have hw : inWindow lsp o = true := by unfold inWindow; simp; omega
    unfold State.writeL
    simp only [hs, Bool.false_eq_true, if_false, hw, if_true]
    obtain ⟨i1, i2⟩ := ih (s.modGrp gid (fun y => { y with stk := kset y.stk (o * 32 + l) ⟨x, true⟩ })) (o + 1) (by omega) (by omega)
    refine ⟨((StateKept.refl gid s).modGrp _).trans i1, ?_⟩
    rw [i2, State.grp_modGrp_self]
    cases s.grp gid <;> rfl

/-- What a push of bytes on a lane's stack does to its group (R84, R87): `g` is the group as the word found it. -/
def pushed (g : Group) (l : Nat) (b : List Byte) (y : Group) : Group :=
  { y with lsp := lanes32.map (fun k => if k = l then BitVec.ofNat 32 ((g.lspOf l).toNat - b.length) else y.lspOf k),
           fillDue := y.fillDue || decide ((y.lspOf l).toNat < (g.lspOf l).toNat - b.length),
           stk := stkPut y.stk l ((g.lspOf l).toNat - b.length) b }

/-- A push inside the window of the new stack pointer (R85, R87). -/
theorem W.pushBytes_pushed (w : W) (l : Nat) (b : List Byte) (hd : w.dry = false) (hs : w.g.isSup = false) (hb : b.length ≤ 64) :
    ∃ x, w.pushBytes l b = { w with s := x } ∧ StateKept w.gid w.s x ∧ x.grp w.gid = (w.s.grp w.gid).map (pushed w.g l b) := by
  have h := State.writeL_window hs w.gid l ((w.g.lspOf l).toNat - b.length) b (w.setLsp l ((w.g.lspOf l).toNat - b.length)).s
    ((w.g.lspOf l).toNat - b.length) (le_refl _) (by omega)
  refine ⟨_, ?_, (StateKept.modGrp (StateKept.refl w.gid w.s) _).trans h.1, ?_⟩
  · unfold W.pushBytes W.eff
    simp only
    rw [if_neg (by show ¬ w.dry = true; rw [hd]; simp)]
    rfl
  · rw [h.2]
    unfold W.setLsp W.mod
    simp only [State.grp_modGrp_self]
    cases w.s.grp w.gid <;> rfl

/-- Pushes in several lanes, one after the other. -/
def pushedAll (g : Group) (b : Nat → List Byte) (ex : List Nat) (y : Group) : Group := ex.foldl (fun y l => pushed g l (b l) y) y

/-- The stack pointers after pushes in several lanes. -/
theorem pushedAll_lsp (g : Group) (b : Nat → List Byte) (ex : List Nat) (y : Group) {k : Nat} (hk : k < 32) :
    (pushedAll g b ex y).lspOf k = if k ∈ ex then BitVec.ofNat 32 ((g.lspOf k).toNat - (b k).length) else y.lspOf k := by
  induction ex generalizing y with
  | nil => simp [pushedAll]
  | cons l t ih =>
    have h := ih (pushed g l (b l) y)
    unfold pushedAll at h ⊢
    rw [List.foldl_cons, h]
    have h2 : (pushed g l (b l) y).lspOf k = if k = l then BitVec.ofNat 32 ((g.lspOf l).toNat - (b l).length) else y.lspOf k := by
      exact getD_lanes (fun k => if k = l then BitVec.ofNat 32 ((g.lspOf l).toNat - (b l).length) else y.lspOf k) 0 hk
    rw [h2]
    by_cases h3 : k ∈ t <;> by_cases h4 : k = l <;> simp_all

/-- What pushes in several lanes leave of their group. -/
theorem pushedAll_kept (g : Group) (b : Nat → List Byte) (ex : List Nat) (y : Group) :
    pushedAll g b ex y = { y with lsp := (pushedAll g b ex y).lsp, fillDue := (pushedAll g b ex y).fillDue, stk := (pushedAll g b ex y).stk } := by
  induction ex generalizing y with
  | nil => rfl
  | cons l t ih =>
    have h := ih (pushed g l (b l) y)
    unfold pushedAll at h ⊢
    rw [List.foldl_cons]
    rw [h]
    rfl

/-- The keys of the stack cache of one lane. -/
theorem kget_stkPut (m : List (Nat × StkByte)) {l : Nat} (hl : l < 32) (o : Nat) (b : List Byte) (k : Nat) :
    kget (stkPut m l o b) k =
      if k % 32 = l ∧ o ≤ k / 32 ∧ k / 32 < o + b.length then some ⟨b.getD (k / 32 - o) 0, true⟩ else kget m k := by
  induction b generalizing m o with
  | nil => simp only [stkPut, List.length_nil]; rw [if_neg (by omega)]
  | cons x t ih =>
    rw [stkPut, ih, kget_kset]
    simp only [List.length_cons]
    by_cases h1 : k = o * 32 + l
    · have h2 : k / 32 = o := by omega
      have h3 : k % 32 = l := by omega
      rw [if_neg (by omega), if_pos h1, if_pos (by omega), h2]; simp
    · by_cases h2 : k % 32 = l ∧ o + 1 ≤ k / 32 ∧ k / 32 < o + 1 + t.length
      · rw [if_pos h2, if_pos (by omega)]
        have : k / 32 - o = (k / 32 - (o + 1)) + 1 := by omega
        rw [this]; simp
      · rw [if_neg h2, if_neg h1, if_neg (by omega)]

/-- The stack cache after pushes in several lanes. -/
theorem pushedAll_stk (g : Group) (b : Nat → List Byte) (ex : List Nat) (y : Group) (hex : ex.Nodup) (h32 : ∀ l ∈ ex, l < 32) (k : Nat) :
    kget (pushedAll g b ex y).stk k =
      if k % 32 ∈ ex ∧ (g.lspOf (k % 32)).toNat - (b (k % 32)).length ≤ k / 32 ∧
          k / 32 < (g.lspOf (k % 32)).toNat - (b (k % 32)).length + (b (k % 32)).length
      then some ⟨(b (k % 32)).getD (k / 32 - ((g.lspOf (k % 32)).toNat - (b (k % 32)).length)) 0, true⟩ else kget y.stk k := by
  induction ex generalizing y with
  | nil => simp [pushedAll]
  | cons l t ih =>
    have hn := List.nodup_cons.1 hex
    have h := ih (pushed g l (b l) y) hn.2 (fun j hj => h32 j (by simp [hj]))
    unfold pushedAll at h ⊢
    rw [List.foldl_cons, h]
    have h2 : kget (pushed g l (b l) y).stk k = _ := kget_stkPut y.stk (h32 l (by simp)) _ (b l) k
    rw [h2]
    by_cases h4 : k % 32 = l
    · subst h4
      simp [hn.1]
    · simp only [List.mem_cons, h4, false_or, false_and, if_false]

/-- The lanes of execution are distinct and below 32 (R33). -/
theorem Group.exLanes_nodup (g : Group) (f : Info) (act : LaneMask) : (g.exLanes f act).Nodup ∧ ∀ l ∈ g.exLanes f act, l < 32 := by
  have h : lanes32.Nodup := by decide
  unfold Group.exLanes lanesOf
  split
  · split <;> simp
  · exact ⟨(h.filter _).filter _, fun l hl => mem_lanes32.1 (List.mem_filter.1 (List.mem_filter.1 hl).1).1⟩

/-- A fold of words' parts each of which changes the word's group in one way and may set a lane's PC. -/
theorem W.foldUpd (f : W → Nat → W) (upd : Group → Nat → Group → Group) (jump : Nat → List (Nat × Pc))
    (ok : Nat → W → Prop) (hok : ∀ l w x v, StateKept w.gid w.s x → ok l w → ok l { w with s := x, vpc := v })
    (hf : ∀ w l, ok l w → ∃ x, f w l = { w with s := x, vpc := w.vpc ++ jump l } ∧ StateKept w.gid w.s x ∧
      x.grp w.gid = (w.s.grp w.gid).map (upd w.g l))
    (ex : List Nat) (w : W) (h : ∀ l ∈ ex, ok l w) :
    ∃ x, ex.foldl f w = { w with s := x, vpc := w.vpc ++ ex.flatMap jump } ∧ StateKept w.gid w.s x ∧
      x.grp w.gid = (w.s.grp w.gid).map (fun y => ex.foldl (fun y l => upd w.g l y) y) := by
  induction ex generalizing w with
  | nil => exact ⟨w.s, by simp, StateKept.refl _ _, by cases h : w.s.grp w.gid <;> simp⟩
  | cons l t ih =>
    obtain ⟨x, e1, e2, e3⟩ := hf w l (h l (by simp))
    obtain ⟨y, d1, d2, d3⟩ := ih { w with s := x, vpc := w.vpc ++ jump l } (fun k hk => hok k w x _ e2 (h k (by simp [hk])))
    refine ⟨y, ?_, e2.trans d2, ?_⟩
    · rw [List.foldl_cons, e1, d1]; simp
    · rw [d3]
      show (x.grp w.gid).map _ = _
      rw [e3]
      cases w.s.grp w.gid <;> rfl

/-- A lane's stack pointer moved (R85). -/
def lspSet (l n : Nat) (y : Group) : Group :=
  { y with lsp := lanes32.map (fun k => if k = l then BitVec.ofNat 32 n else y.lspOf k), fillDue := y.fillDue || decide ((y.lspOf l).toNat < n) }

/-- The stack pointers of several lanes moved. -/
def lspAll (n : Nat → Nat) (ex : List Nat) (y : Group) : Group := ex.foldl (fun y l => lspSet l (n l) y) y

/-- The stack pointers after several lanes' moves. -/
theorem lspAll_lsp (n : Nat → Nat) (ex : List Nat) (y : Group) {k : Nat} (hk : k < 32) :
    (lspAll n ex y).lspOf k = if k ∈ ex then BitVec.ofNat 32 (n k) else y.lspOf k := by
  induction ex generalizing y with
  | nil => simp [lspAll]
  | cons l t ih =>
    have h := ih (lspSet l (n l) y)
    unfold lspAll at h ⊢
    rw [List.foldl_cons, h]
    have h2 : (lspSet l (n l) y).lspOf k = if k = l then BitVec.ofNat 32 (n l) else y.lspOf k :=
      getD_lanes (fun k => if k = l then BitVec.ofNat 32 (n l) else y.lspOf k) 0 hk
    rw [h2]
    by_cases h3 : k ∈ t <;> by_cases h4 : k = l <;> simp_all

/-- What moves of stack pointers leave of their group. -/
theorem lspAll_kept (n : Nat → Nat) (ex : List Nat) (y : Group) :
    lspAll n ex y = { y with lsp := (lspAll n ex y).lsp, fillDue := (lspAll n ex y).fillDue } := by
  induction ex generalizing y with
  | nil => rfl
  | cons l t ih =>
    have h := ih (lspSet l (n l) y)
    unfold lspAll at h ⊢
    rw [List.foldl_cons]
    rw [h]
    rfl

/-- A word's move of one lane's stack pointer. -/
theorem W.setLsp_set (w : W) (l n : Nat) : ∃ x, w.setLsp l n = { w with s := x } ∧ StateKept w.gid w.s x ∧
    x.grp w.gid = (w.s.grp w.gid).map (lspSet l n) :=
  ⟨_, rfl, StateKept.modGrp (StateKept.refl w.gid w.s) _, State.grp_modGrp_self _ _ _⟩

/-- A stack read whose bytes are all in the stack cache (R85). -/
theorem State.readL_cached {g : Group} (hs : g.isSup = false) (s : State) (gid l n o : Nat)
    (h : ∀ j, o ≤ j → j < o + n → (kget g.stk (j * 32 + l)).isSome = true) :
    s.readL gid g l n o = (.bytes ((upFrom o n).map (fun j => ((kget g.stk (j * 32 + l)).getD ⟨0, false⟩).b)), s) := by
  induction n generalizing o with
  | zero => rfl
  | succ n ih =>
    unfold State.readL
    have h0 := h o (le_refl _) (by omega)
    rw [Option.isSome_iff_exists] at h0
    obtain ⟨c, hc⟩ := h0
    unfold State.stackByte
    simp only [hs, Bool.false_eq_true, if_false, hc, ih (o + 1) (fun j a b => h j (by omega) (by omega))]
    simp [upFrom, hc]

end Sys2Proof.Machine
end

