-- ==== Sys2Proof/Laws/Memory.lean ====
section
/-! SUPPORT. What translation, the caches and the memory operations leave alone: every group, the package, the teams and the focus. -/

namespace Sys2Proof.Machine

/-- What no memory operation changes. -/
structure Calm (s t : State) : Prop where
  groups : t.groups = s.groups
  pkg : t.pkg = s.pkg
  focus : t.focus = s.focus
  dry : t.dry = s.dry
  teams : t.teams = s.teams
  lclusters : t.lclusters = s.lclusters

theorem Calm.refl (s : State) : Calm s s := ⟨rfl, rfl, rfl, rfl, rfl, rfl⟩
theorem Calm.trans {s t u : State} (h : Calm s t) (k : Calm t u) : Calm s u :=
  ⟨k.groups.trans h.groups, k.pkg.trans h.pkg, k.focus.trans h.focus, k.dry.trans h.dry, k.teams.trans h.teams, k.lclusters.trans h.lclusters⟩
theorem Calm.grp {s t : State} (h : Calm s t) (g : Nat) : t.grp g = s.grp g := by unfold State.grp; rw [h.groups]
theorem Calm.modCore (s : State) (c : Nat) (f : Core → Core) : Calm s (s.modCore c f) := ⟨rfl, rfl, rfl, rfl, rfl, rfl⟩
theorem Calm.modCcl (s : State) (c : Nat) (f : CCluster → CCluster) : Calm s (s.modCcl c f) := ⟨rfl, rfl, rfl, rfl, rfl, rfl⟩
theorem Calm.modDie (s : State) (c : Nat) (f : Die → Die) : Calm s (s.modDie c f) := ⟨rfl, rfl, rfl, rfl, rfl, rfl⟩
theorem Calm.modCtx (s : State) (c : Nat) (f : Ctx → Ctx) : Calm s (s.modCtx c f) := ⟨rfl, rfl, rfl, rfl, rfl, rfl⟩
theorem Calm.serial (s : State) (n : Nat) : Calm s { s with serial := n } := ⟨rfl, rfl, rfl, rfl, rfl, rfl⟩
theorem Calm.then_ (s : State) (l : List Instr) : Calm s (s.then_ l) := ⟨rfl, rfl, rfl, rfl, rfl, rfl⟩

/-- A fold of calm steps is calm. -/
theorem Calm.fold {α : Type} {f : State → α → State} (hf : ∀ s a, Calm s (f s a)) (l : List α) (s : State) : Calm s (l.foldl f s) := by
  induction l generalizing s with
  | nil => exact Calm.refl s
  | cons a t ih => exact (hf s a).trans (ih _)

theorem State.touchDies_calm (s : State) (ctx e : Nat) : Calm s (s.touchDies ctx e) := by
  unfold State.touchDies; split
  · exact Calm.refl s
  · exact Calm.modCtx _ _ _

/-- A page walk (R156, R160). -/
theorem State.walkDone_calm (s : State) (ccl ctx : Nat) (ptr : DWord) : Calm s (s.walkDone ccl ctx ptr).2 := by
  unfold State.walkDone
  simp only
  split
  · exact (State.touchDies_calm s _ _).trans ⟨rfl, rfl, rfl, rfl, rfl, rfl⟩
  · exact Calm.refl s

/-- The TLB (R160). -/
theorem State.leafTlb_calm (s : State) (ccl ctx : Nat) (ptr : DWord) : Calm s (s.leafTlb ccl ctx ptr).2 := by
  unfold State.leafTlb
  split
  · exact ⟨rfl, rfl, rfl, rfl, rfl, rfl⟩
  · exact State.walkDone_calm _ _ _ _

/-- A check made again (R367). -/
theorem State.confirm_calm (s : State) (ccl ctx : Nat) (ptr : DWord) (n : Need) : Calm s (s.confirm ccl ctx ptr n).2 := by
  unfold State.confirm
  split
  · have h := (Calm.modCcl s ccl (fun c => { c with tlb := c.tlb.filter (fun t => !tlbHit ctx (vaOf ptr) t) })).trans
      (State.walkDone_calm (s.modCcl ccl (fun c => { c with tlb := c.tlb.filter (fun t => !tlbHit ctx (vaOf ptr) t) })) ccl ctx ptr)
    split
    · rename_i he; rw [he] at h; exact h
    · exact h
  · exact Calm.refl s

/-- Translation (R159). -/
theorem State.xlate_calm (s : State) (w : Who) (ptr : DWord) (n : Need) : Calm s (s.xlate w ptr n).2 := by
  unfold State.xlate
  split
  · split <;> exact Calm.refl s
  · split
    · exact Calm.refl s
    · have h := State.leafTlb_calm s (coreCcl w.core) w.ctx ptr
      split
      · rename_i he
        rw [he] at h
        split
        · exact h.trans (State.confirm_calm _ _ _ _ _)
        · exact h
      · exact h

/-- Translation through the L1 (R162). -/
theorem State.xlateL1_calm (s : State) (w : Who) (ptr : DWord) (n : Need) : Calm s (s.xlateL1 w ptr n).2 := by
  unfold State.xlateL1
  split
  · exact State.xlate_calm _ _ _ _
  · split
    · split
      · split
        · exact State.xlate_calm _ _ _ _
        · exact Calm.refl s
      · exact Calm.refl s
    · exact State.xlate_calm _ _ _ _

/-- The checks of a global access (R132, R159). -/
theorem State.reachG_calm (s : State) (w : Who) (l : Nat) (ptr : DWord) (n : Nat) (al ca : Bool) (need : Need) (kind : Nat) :
    Calm s (s.reachG w l ptr n al ca need kind).2 := by
  unfold State.reachG
  split
  · exact Calm.refl s
  · have h : Calm s (if ca then s.xlateL1 w ptr need else s.xlate w ptr need).2 := by
      split
      · exact State.xlateL1_calm _ _ _ _
      · exact State.xlate_calm _ _ _ _
    split
    · rename_i he
      rw [he] at h
      split <;> exact h
    · rename_i he; rw [he] at h; exact h
    · rename_i he; rw [he] at h; exact h

/-- The checks of a lane of a memory word (R132). -/
theorem State.reach_calm (s : State) (g : Group) (l : Nat) (sp : Space) (a b : Opnd) (n : Nat) (need : Need) (kind : Nat) :
    Calm s (s.reach g l sp a b n need kind).2 := by
  unfold State.reach
  split
  · exact State.reachG_calm _ _ _ _ _ _ _ _ _
  · exact Calm.refl s

/-- The checks of every lane (R132). -/
theorem State.reachAll_calm {f : State → Nat → Reach × State} (hf : ∀ s l, Calm s (f s l).2) (ex : List Nat) (s : State) :
    Calm s (s.reachAll f ex).2 := by
  induction ex generalizing s with
  | nil => exact Calm.refl s
  | cons l t ih => exact (hf s l).trans (ih _)

theorem State.countReq_calm (s : State) (w : Who) (ptr : DWord) (n : Nat) : Calm s (s.countReq w ptr n) := by
  unfold State.countReq; split
  · exact Calm.refl s
  · exact Calm.modCcl _ _ _

theorem State.evalWatch_calm (s : State) (a b : Nat) : Calm s (s.evalWatch a b) := by
  unfold State.evalWatch
  split
  · exact Calm.refl s
  · simp only
    split
    · exact (Calm.modDie _ _ _).trans (Calm.then_ _ _)
    · exact Calm.refl s

/-- A write at its home (R205). -/
theorem State.homePut_calm (s : State) (a : Nat) (l : List Byte) : Calm s (s.homePut a l) := by
  have h : ∀ s : State, Calm s (s.evalWatches a l.length) := fun s => Calm.fold (fun s (w : Nat × Nat × Nat) => State.evalWatch_calm s w.2.1 w.2.2) _ s
  exact Calm.trans (⟨rfl, rfl, rfl, rfl, rfl, rfl⟩ : Calm s { s with mem := memPut s.mem a l, badWords := s.badWords.filter (fun w => !(decide (w < a + l.length) && decide (a < w + 8))) }) (h _)

theorem State.writeL2_calm (s : State) (die ctx e flat : Nat) (b : List Byte) : Calm s (s.writeL2 die ctx e flat b) := by
  unfold State.writeL2; split
  · exact Calm.modDie _ _ _
  · exact State.homePut_calm _ _ _

theorem State.writeBackLine_calm (s : State) (core vl : Nat) : Calm s (s.writeBackLine core vl) := by
  unfold State.writeBackLine
  split
  · exact Calm.refl s
  · simp only
    split
    · exact Calm.refl s
    · unfold State.writeL2Bytes
      exact ((Calm.modCore _ _ _).trans (State.countReq_calm _ _ _ _)).trans (Calm.fold (fun s x => State.writeL2_calm s _ _ _ _ _) _ _)

theorem State.dropLine_calm (s : State) (core vl : Nat) : Calm s (s.dropLine core vl) :=
  (State.writeBackLine_calm s core vl).trans (Calm.modCore _ _ _)

theorem State.dropSynonyms_calm (s : State) (core vl pl : Nat) : Calm s (s.dropSynonyms core vl pl) :=
  Calm.fold (fun s v => State.dropLine_calm s core v) _ _

theorem State.fillL2_calm (s : State) (die ctx e flat : Nat) : Calm s (s.fillL2 die ctx e flat) := by
  unfold State.fillL2; split
  · exact Calm.modDie _ _ _
  · exact Calm.refl s

theorem State.fillL1_calm (s : State) (w : Who) (ptr : DWord) (e size flat : Nat) : Calm s (s.fillL1 w ptr e size flat) := by
  unfold State.fillL1
  exact Calm.trans ((State.dropSynonyms_calm s w.core (vline ptr) (flat / 128)).trans (State.fillL2_calm _ (coreDie w.core) w.ctx e flat))
    (Calm.modCore _ w.core _)

/-- A group's load (R138–R140). -/
theorem State.loadG_calm (s : State) (w : Who) (ptr : DWord) (n : Nat) (pol : Pol) (e size flat : Nat) : Calm s (s.loadG w ptr n pol e size flat).2 := by
  unfold State.loadG
  split
  · exact Calm.refl s
  · simp only
    have h : Calm s (match (kget (s.core w.core).l1 (vline ptr)).bind (fun l => l1Bytes l (vaOf ptr % 128) n) with
      | some b => (some b, s)
      | none =>
        if pol = .bypass then
          let s := s.countReq w ptr 1
          let l := (kget (s.core w.core).l1 (vline ptr)).map (fun l => l.bytes)
          let die := coreDie w.core
          if (upFrom flat n).any (fun a => (s.l2Byte die a).isNone && s.bad a 1 && ((l.bind (fun b => kget b (a % 128))).isNone)) then (none, s)
          else (some ((upFrom flat n).map (fun a => ((l.bind (fun b => kget b (a % 128))).map (fun c => c.b)).getD (s.belowL1 die a))), s)
        else
          let s := (s.countReq w ptr 1).fillL1 w ptr e size flat
          ((kget (s.core w.core).l1 (vline ptr)).bind (fun l => l1Bytes l (vaOf ptr % 128) n), s) : Option (List Byte) × State).2 := by
      split
      · exact Calm.refl s
      · split
        · simp only
          split <;> exact State.countReq_calm _ _ _ _
        · exact (State.countReq_calm _ _ _ _).trans (State.fillL1_calm _ _ _ _ _ _)
    split <;> exact h

/-- A group's store (R138–R140). -/
theorem State.storeG_calm (s : State) (w : Who) (ptr : DWord) (pol : Pol) (e size flat : Nat) (b : List Byte) :
    Calm s (s.storeG w ptr pol e size flat b) := by
  unfold State.storeG
  split
  · exact State.homePut_calm _ _ _
  · split
    · exact ((((State.countReq_calm _ _ _ _).trans (State.dropSynonyms_calm _ _ _ _)).trans (Calm.modCore _ _ _)).trans (Calm.modDie _ _ _)).trans
        (State.homePut_calm _ _ _)
    · exact (State.dropSynonyms_calm _ _ _ _).trans (Calm.modCore _ _ _)

theorem State.flushL2Line_calm (s : State) (die line : Nat) : Calm s (s.flushL2Line die line) := by
  unfold State.flushL2Line
  split
  · exact Calm.refl s
  · exact (Calm.modDie _ _ _).trans (Calm.fold (fun s b => State.homePut_calm s _ _) _ _)

theorem State.dropL2Line_calm (s : State) (die line : Nat) : Calm s (s.dropL2Line die line) :=
  (State.flushL2Line_calm s die line).trans (Calm.modDie _ _ _)

/-- A line recalled for an atomic (R189). -/
theorem State.recallLine_calm (s : State) (core : Nat) (ptr : DWord) (flat : Nat) : Calm s (s.recallLine core ptr flat) :=
  ((State.dropLine_calm s _ _).trans (State.dropSynonyms_calm _ _ _ _)).trans (State.dropL2Line_calm _ _ _)

/-- What is calm keeps everything outside one group, when memory, cores, contexts, dies and units stay as well. -/
theorem Calm.setGrp {s t : State} (h : Calm s t) (gid : Nat) (g : Group) (hg : s.grp gid = some g) : t.grp gid = some g := (h.grp gid).trans hg

/-- A byte behind the stack cache (R85). -/
theorem State.backByte_calm (s : State) (gid : Nat) (g : Group) (l o : Nat) : Calm s (s.backByte gid g l o).2 := by
  unfold State.backByte
  simp only
  have h := State.xlate_calm s g.who (s.backPtr gid g l o) needR
  split
  · rename_i he
    rw [he] at h
    split
    · split <;> exact h
    · exact h
    · exact h
    · exact h
  · rename_i he; rw [he] at h; exact h
  · rename_i he; rw [he] at h; exact h

/-- Bytes of a lane's stack (R85). -/
theorem State.readL_calm (gid : Nat) (g : Group) (l n : Nat) : ∀ (s : State) (o : Nat), Calm s (s.readL gid g l n o).2 := by
  induction n with
  | zero => intro s o; exact Calm.refl s
  | succ n ih =>
    intro s o
    have h : Calm s (s.stackByte gid g l o).2 := by
      unfold State.stackByte
      split
      · exact Calm.refl s
      · split
        · exact Calm.refl s
        · exact State.backByte_calm _ _ _ _ _
    unfold State.readL
    split
    · rename_i b s1 he
      rw [he] at h
      have h2 := ih s1 (o + 1)
      split
      · rename_i he2; rw [he2] at h2; exact h.trans h2
      · exact h.trans h2
    · exact h

/-- The reads of a load (R130). -/
theorem State.readsOk_calm (gid : Nat) (g : Group) (n : Nat) (pol : Pol) (rs : List (Nat × Reach)) : ∀ (s u : State) (data : List (Nat × List Byte)),
    s.readsOk gid g n pol rs = some (data, u) → Calm s u := by
  induction rs with
  | nil => intro s u data h; simp only [State.readsOk, Option.some.injEq, Prod.mk.injEq] at h; rw [← h.2]; exact Calm.refl s
  | cons x t ih =>
    obtain ⟨l, r⟩ := x
    intro s u data h
    unfold State.readsOk at h
    simp only at h
    cases r <;> simp only at h
    · rename_i p e size f
      have hc := State.loadG_calm s g.who p n pol e size f
      cases hb : (s.loadG g.who p n pol e size f).1 with
      | none => simp [hb] at h
      | some b =>
        simp only [hb] at h
        rw [Option.map_eq_some_iff] at h
        obtain ⟨q, h1, h2⟩ := h
        have := ih _ _ _ h1
        have e : u = q.2 := (congrArg Prod.snd h2).symm
        rw [e]; exact hc.trans this
    · rw [Option.map_eq_some_iff] at h
      obtain ⟨q, h1, h2⟩ := h
      have e : u = q.2 := (congrArg Prod.snd h2).symm
      rw [e]; exact ih _ _ _ h1
    · rename_i f c
      by_cases hb : s.bad f n = true
      · simp [hb] at h
      · simp only [hb, Bool.false_eq_true, if_false] at h
        rw [Option.map_eq_some_iff] at h
        obtain ⟨q, h1, h2⟩ := h
        have e : u = q.2 := (congrArg Prod.snd h2).symm
        rw [e]; exact ih _ _ _ h1
    · rename_i o
      have hc := State.readL_calm gid g l n s o
      rcases hb : s.readL gid g l n o with ⟨got, x⟩
      rw [hb] at hc h
      cases got <;> simp only at h
      · rw [Option.map_eq_some_iff] at h
        obtain ⟨q, h1, h2⟩ := h
        have e : u = q.2 := (congrArg Prod.snd h2).symm
        rw [e]; exact hc.trans (ih _ _ _ h1)
      all_goals simp at h
    all_goals simp at h

/-- The lanes of a load whose data can be read (R130). -/
theorem W.loadLanes_reads (m : MemMod) (d : Opnd) (rs : List (Nat × Reach)) : ∀ (w : W) (u : State) (data : List (Nat × List Byte)),
    w.s.readsOk w.gid w.g (szBytes m.sz) m.pol rs = some (data, u) →
    w.loadLanes (szBytes m.sz) m d rs = (data.flatMap (fun q => dstCellsN d (szRegs m.sz) [q.1] (fun j _ => BitVec.ofNat 32 (bitsOf (loadValue m q.2) (32 * j) 32))), { w with s := u }) := by
  induction rs with
  | nil => intro w u data h; simp only [State.readsOk, Option.some.injEq, Prod.mk.injEq] at h; rw [← h.1, ← h.2]; rfl
  | cons x t ih =>
    obtain ⟨l, r⟩ := x
    intro w u data h
    unfold State.readsOk at h
    simp only at h
    have key : ∀ (b : List Byte) (s' : State), w.readLane (szBytes m.sz) m.pol m.sp l r = (some b, { w with s := s' }) →
        (s'.readsOk w.gid w.g (szBytes m.sz) m.pol t).map (fun q => ((l, b) :: q.1, q.2)) = some (data, u) →
        w.loadLanes (szBytes m.sz) m d ((l, r) :: t) = (data.flatMap (fun q => dstCellsN d (szRegs m.sz) [q.1] (fun j _ => BitVec.ofNat 32 (bitsOf (loadValue m q.2) (32 * j) 32))), { w with s := u }) := by
      intro b s' h1 h2
      rw [Option.map_eq_some_iff] at h2
      obtain ⟨q, h3, h4⟩ := h2
      have := ih { w with s := s' } q.2 q.1 h3
      unfold W.loadLanes
      simp only [h1, this]
      have e1 : data = (l, b) :: q.1 := (congrArg Prod.fst h4).symm
      have e2 : u = q.2 := (congrArg Prod.snd h4).symm
      rw [e1, e2]; rfl
    cases r <;> simp only at h
    · rename_i p e size f
      cases hb : w.s.loadG w.g.who p (szBytes m.sz) m.pol e size f with
      | mk o s' =>
        rw [hb] at h
        cases o with
        | none => simp at h
        | some b => exact key b s' (by unfold W.readLane; simp only [hb]) h
    · exact key _ _ rfl h
    · rename_i f c
      by_cases hb : w.s.bad f (szBytes m.sz) = true
      · simp [hb] at h
      · simp only [hb, Bool.false_eq_true, if_false] at h
        exact key _ _ (by unfold W.readLane; simp [hb]) h
    · rename_i o
      rcases hb : w.s.readL w.gid w.g l (szBytes m.sz) o with ⟨got, x⟩
      rw [hb] at h
      cases got <;> simp only at h
      · exact key _ _ (by unfold W.readLane; simp only [hb]) h
      all_goals simp at h
    all_goals simp at h

/-- What the lane paths of a word change: their times, and the group's hold on them. -/
structure PathKept (gid : Nat) (s x : State) : Prop where
  grp : ∃ f : Group → Group, x.grp gid = (s.grp gid).map f ∧ ∀ y, f y = { y with pathUntil := (f y).pathUntil, pathPc := (f y).pathPc }
  others : ∀ k, k ≠ gid → x.grp k = s.grp k
  mem : x.mem = s.mem
  dies : x.dies = s.dies
  reqs : x.reqs = s.reqs
  pkg : x.pkg = s.pkg
  atoms : x.atoms = s.atoms
  cores : ∀ c, (x.core c).l1 = (s.core c).l1 ∧ (x.core c).sideLog = (s.core c).sideLog

theorem PathKept.refl (gid : Nat) (s : State) : PathKept gid s s :=
  ⟨⟨id, by simp, fun _ => rfl⟩, fun _ _ => rfl, rfl, rfl, rfl, rfl, rfl, fun _ => ⟨rfl, rfl⟩⟩

theorem PathKept.trans {gid : Nat} {s t u : State} (h : PathKept gid s t) (k : PathKept gid t u) : PathKept gid s u := by
  obtain ⟨f, f1, f2⟩ := h.grp
  obtain ⟨f', g1, g2⟩ := k.grp
  refine ⟨⟨fun y => f' (f y), ?_, ?_⟩, fun j hj => (k.others j hj).trans (h.others j hj), k.mem.trans h.mem, k.dies.trans h.dies,
    k.reqs.trans h.reqs, k.pkg.trans h.pkg, k.atoms.trans h.atoms, fun c => ⟨(k.cores c).1.trans (h.cores c).1, (k.cores c).2.trans (h.cores c).2⟩⟩
  · rw [g1, f1]; cases s.grp gid <;> rfl
  · intro y
    have a := g2 (f y)
    have b := f2 y
    simp only
    generalize f' (f y) = z at a ⊢
    generalize f y = v at a b
    exact a.trans (congrArg (fun q : Group => { q with pathUntil := z.pathUntil, pathPc := z.pathPc }) b)

theorem PathKept.take (gid : Nat) (s : State) (core p : Nat) : PathKept gid s (s.takePath core p).2 := by
  unfold State.takePath
  simp only
  split
  · exact PathKept.refl gid s
  · refine ⟨⟨id, by simp; rfl, fun _ => rfl⟩, fun _ _ => rfl, rfl, rfl, rfl, rfl, rfl, fun c => ?_⟩
    rw [State.core_modCore]
    split
    · rename_i h; subst h; exact ⟨rfl, rfl⟩
    · exact ⟨rfl, rfl⟩

/-- The remote lane paths of a word (R136). -/
theorem remotePath_kept (n : Nat) (rs : List (Nat × Reach)) (cs : List Nat) (acc : Nat × W) :
    ∃ x, (cs.foldl (remotePath n rs) acc).2 = { acc.2 with s := x } ∧ PathKept acc.2.gid acc.2.s x ∧ acc.1 ≤ (cs.foldl (remotePath n rs) acc).1 := by
  induction cs generalizing acc with
  | nil => exact ⟨acc.2.s, rfl, PathKept.refl _ _, le_refl _⟩
  | cons c t ih =>
    rw [List.foldl_cons]
    obtain ⟨x, h1, h2, h3⟩ := ih (remotePath n rs acc c)
    exact ⟨x, h1, (PathKept.take acc.2.gid acc.2.s c _).trans h2, le_trans (Nat.le_max_left _ _) h3⟩

/-- The lane paths of a word (R134, R136). -/
theorem W.paths_kept (w : W) (n : Nat) (rs : List (Nat × Reach)) (hd : w.dry = false) :
    ∃ x, (w.paths n rs).2 = { w with s := x } ∧ PathKept w.gid w.s x ∧ w.clk < (w.paths n rs).1 := by
  have ht := PathKept.take w.gid w.s w.g.core (passCount n (chipLanes rs w.g.core))
  have hd' : ¬ w.dry = true := by rw [hd]; simp
  unfold W.paths
  rw [if_neg hd']
  simp only
  split
  · obtain ⟨x, h1, h2, h3⟩ := remotePath_kept n rs (remoteCores rs w.g.core)
      (w.clk + 1, { w with s := (w.s.takePath w.g.core (passCount n (chipLanes rs w.g.core))).2 })
    exact ⟨x, h1, ht.trans h2, h3⟩
  · obtain ⟨x, h1, h2, h3⟩ := remotePath_kept n rs (remoteCores rs w.g.core)
      ((w.s.takePath w.g.core (passCount n (chipLanes rs w.g.core))).1 + 20,
        ({ w with s := (w.s.takePath w.g.core (passCount n (chipLanes rs w.g.core))).2 } : W).mod
          (fun g => { g with pathUntil := (w.s.takePath w.g.core (passCount n (chipLanes rs w.g.core))).1, pathPc := w.pc }))
    refine ⟨x, h1, (ht.trans ?_).trans h2, lt_of_lt_of_le ?_ h3⟩
    · exact ⟨⟨_, State.grp_modGrp_self _ _ _, fun _ => rfl⟩, fun k hk => State.grp_modGrp_ne _ _ hk, rfl, rfl, rfl, rfl, rfl, fun _ => ⟨rfl, rfl⟩⟩
    · have : w.s.pkg.clock ≤ (w.s.takePath w.g.core (passCount n (chipLanes rs w.g.core))).1 := by
        unfold State.takePath; exact le_trans (Nat.le_max_left _ _) (Nat.le_add_right _ _)
      show w.s.pkg.clock < _
      simp only
      omega

/-- The clk from which a load's values are read (R134, R136, R141). -/
theorem W.loadDue_kept (w : W) (n : Nat) (rs : List (Nat × Reach)) (hit : Bool) (hd : w.dry = false) :
    ∃ x, (w.loadDue n rs hit).2 = { w with s := x } ∧ PathKept w.gid w.s x ∧ w.clk < (w.loadDue n rs hit).1 := by
  obtain ⟨x, h1, h2, h3⟩ := w.paths_kept n rs hd
  have hf : PathKept w.gid x { x with free := x.free + 1 } :=
    ⟨⟨id, by simp; rfl, fun _ => rfl⟩, fun _ _ => rfl, rfl, rfl, rfl, rfl, rfl, fun _ => ⟨rfl, rfl⟩⟩
  have hd' : ¬ w.dry = true := by rw [hd]; simp
  unfold W.loadDue
  simp only
  rw [if_neg hd', h1]
  split
  · exact ⟨x, rfl, h2, lt_of_lt_of_le h3 (Nat.le_max_left _ _)⟩
  · split
    · exact ⟨_, rfl, h2.trans hf, lt_of_lt_of_le h3 (Nat.le_max_left _ _)⟩
    · split
      · exact ⟨_, rfl, h2.trans hf, lt_of_lt_of_le h3 (Nat.le_max_left _ _)⟩
      · exact ⟨x, h1, h2, h3⟩

/-- A load whose checks pass, whose bytes no atomic of its group is on its way to and whose data can be read takes its place with them
(R130, R131). -/
theorem W.load_clean (w : W) (d a b : Opnd) (m : MemMod) (hd : w.dry = false) (hr : w.rolled = false) (R : List (Nat × Reach) × State)
    (hR : w.s.reachAll (fun s l => s.reach w.g l m.sp a b (szBytes m.sz) needR kindLoad) w.ex = R) (hw : anyWait R.1 = false)
    (hf : R.2.overlapsFlight w.gid (szBytes m.sz) R.1 = false) (data : List (Nat × List Byte)) (u : State)
    (hu : R.2.readsOk w.gid w.g (szBytes m.sz) m.pol R.1 = some (data, u)) :
    ∃ x due, w.load d a b m = ({ w with s := x } : W).var (data.flatMap (fun q => dstCellsN d (szRegs m.sz) [q.1]
      (fun j _ => BitVec.ofNat 32 (bitsOf (loadValue m q.2) (32 * j) 32)))) due true ∧ PathKept w.gid u x ∧ u.pkg.clock < due := by
  have h1 := W.loadLanes_reads m d R.1 { w with s := R.2 } u data hu
  obtain ⟨x, d1, d2, d3⟩ := W.loadDue_kept { w with s := u } (szBytes m.sz) R.1 (R.2.allHit w.g (szBytes m.sz) R.1) hd
  refine ⟨x, _, ?_, d2, d3⟩
  unfold W.load
  simp only [hR]
  have e3 : ¬ ({ w with s := u } : W).rolled = true := by
    have : ({ w with s := u } : W).rolled = w.rolled := rfl
    rw [this, hr]; simp
  rw [if_neg (by rw [hw]; simp), if_neg (by rw [hf]; simp), h1]
  simp only
  rw [if_neg e3, d1]

/-- A record in a die's fault ring (R344). -/
theorem State.dfrPut_calm (s : State) (d v : Nat) : Calm s (s.dfrPut d v) := by
  unfold State.dfrPut
  exact Calm.trans (State.homePut_calm s _ _) (Calm.modDie _ _ _)

/-- A record other than a request (R344). -/
theorem State.dieRecord_calm (s : State) (d v : Nat) : Calm s (s.dieRecord d v) := by
  unfold State.dieRecord
  simp only
  split
  · exact State.dfrPut_calm _ _ _
  · exact Calm.modDie _ _ _

/-- A request sent (R344). -/
theorem State.postRequest_calm (s : State) (id : Nat) (r : Request) : Calm s (s.postRequest id r) := by
  unfold State.postRequest
  simp only
  refine Calm.trans ?_ (Calm.modDie _ _ _)
  refine Calm.trans ?_ (State.dfrPut_calm _ _ _)
  exact ⟨rfl, rfl, rfl, rfl, rfl, rfl⟩

/-- A request made (R344). -/
theorem State.request_calm (s : State) (r : Request) : Calm s (s.request r).2 := by
  unfold State.request State.fresh
  simp only
  split
  · refine Calm.trans ?_ (State.postRequest_calm _ _ _)
    exact ⟨rfl, rfl, rfl, rfl, rfl, rfl⟩
  · exact ⟨rfl, rfl, rfl, rfl, rfl, rfl⟩

/-- A side-log entry (R169). -/
theorem State.logStore_calm (s : State) (gid : Nat) (g : Group) (ptr : DWord) (op : LogOp) (ab : Option (Bool × Nat)) :
    Calm s (s.logStore gid g ptr op ab) := by
  unfold State.logStore State.fresh
  cases ab with
  | none => exact ⟨rfl, rfl, rfl, rfl, rfl, rfl⟩
  | some q =>
    refine Calm.trans ?_ (Calm.modCore _ _ _)
    refine Calm.trans ?_ (State.request_calm _ _)
    exact ⟨rfl, rfl, rfl, rfl, rfl, rfl⟩

/-- A store word's side-log entries (R169). -/
theorem State.logLines_calm (s : State) (gid : Nat) (g : Group) (m : LineLog) : Calm s (s.logLines gid g m) :=
  Calm.fold (fun s _ => State.logStore_calm s _ _ _ _ _) m s

/-- The checks of a store behind the stack cache (R85). -/
theorem State.backChecks_calm (gid : Nat) (g : Group) (l lsp n : Nat) : ∀ (s : State) (o : Nat), Calm s (s.backChecks gid g l lsp n o).2 := by
  induction n with
  | zero => intro s o; exact Calm.refl s
  | succ n ih =>
    intro s o
    unfold State.backChecks
    split
    · exact ih s (o + 1)
    · have h : Calm s (s.backCheck gid g l o).2 := by
        unfold State.backCheck
        simp only
        have h := State.xlate_calm s g.who (s.backPtr gid g l o) needW
        split
        · rename_i he; rw [he] at h; split <;> exact h
        · rename_i he; rw [he] at h; exact h
        · rename_i he; rw [he] at h; exact h
      split
      · rename_i he; rw [he] at h; exact h.trans (ih _ _)
      · exact h

/-- One dirty stack byte written back (R85). -/
theorem State.spillByte_calm (s : State) (gid : Nat) (g : Group) (ab : Bool) (l o : Nat) (b : Byte) : Calm s (s.spillByte gid g ab l o b).2 := by
  unfold State.spillByte
  simp only
  have h := State.xlate_calm s g.who (s.backPtr gid g l o) needW
  split
  · rename_i he
    rw [he] at h
    split
    · simp only at h ⊢
      exact Calm.trans h (State.logStore_calm _ _ _ _ _ _)
    · split
      · simp only at h ⊢
        exact Calm.trans h (State.homePut_calm _ _ _)
      · exact h
  · rename_i he
    rw [he] at h
    split
    · simp only at h ⊢
      exact Calm.trans h (State.logStore_calm _ _ _ _ _ _)
    · exact h
  · rename_i he; rw [he] at h; exact h

/-- What a word's stores may change of its groups: the stack cache of its own. -/
structure StkKept (gid : Nat) (s x : State) : Prop where
  grp : ∃ f : Group → Group, x.grp gid = (s.grp gid).map f ∧ ∀ y, f y = { y with stk := (f y).stk }
  others : ∀ k, k ≠ gid → x.grp k = s.grp k
  pkg : x.pkg = s.pkg

theorem StkKept.ofCalm {s x : State} (gid : Nat) (h : Calm s x) : StkKept gid s x :=
  ⟨⟨id, by rw [h.grp]; simp, fun _ => rfl⟩, fun k _ => h.grp k, h.pkg⟩

theorem StkKept.trans {gid : Nat} {s t u : State} (h : StkKept gid s t) (k : StkKept gid t u) : StkKept gid s u := by
  obtain ⟨f, f1, f2⟩ := h.grp
  obtain ⟨f', g1, g2⟩ := k.grp
  refine ⟨⟨fun y => f' (f y), ?_, ?_⟩, fun j hj => (k.others j hj).trans (h.others j hj), k.pkg.trans h.pkg⟩
  · rw [g1, f1]; cases s.grp gid <;> rfl
  · intro y
    have a := g2 (f y)
    have b := f2 y
    simp only
    generalize f' (f y) = z at a ⊢
    generalize f y = v at a b
    exact a.trans (congrArg (fun q : Group => { q with stk := z.stk }) b)

theorem StkKept.stk (gid : Nat) (s : State) (h : List (Nat × StkByte) → List (Nat × StkByte)) :
    StkKept gid s (s.modGrp gid (fun x => { x with stk := h x.stk })) :=
  ⟨⟨_, State.grp_modGrp_self _ _ _, fun _ => rfl⟩, fun _ hk => State.grp_modGrp_ne _ _ hk, rfl⟩

/-- Bytes stored into a lane's stack (R85). -/
theorem State.writeL_kept (gid : Nat) (g : Group) (l lsp : Nat) (b : List Byte) : ∀ (s : State) (o : Nat), StkKept gid s (s.writeL gid g l lsp o b) := by
  induction b with
  | nil => intro s o; exact StkKept.ofCalm gid (Calm.refl s)
  | cons x t ih =>
    intro s o
    unfold State.writeL
    refine StkKept.trans ?_ (ih _ _)
    split
    · exact StkKept.ofCalm gid ⟨rfl, rfl, rfl, rfl, rfl, rfl⟩
    · split
      · exact StkKept.stk gid s (fun m => kset m (o * 32 + l) ⟨x, true⟩)
      · exact (StkKept.ofCalm gid (State.spillByte_calm s gid g true l o x)).trans (StkKept.stk gid _ (fun m => kdel m (o * 32 + l)))

/-- The lanes of a store whose checks pass (R130). -/
theorem W.writeLanes_stores (n : Nat) (pol : Pol) (data : Nat → List Byte) (rs : List (Nat × Reach)) : ∀ (w : W) (u : State), w.dry = false →
    State.storesOk w.gid w.g n pol w.s0 data w.s rs = some u →
    rs.foldl (fun w x => w.writeLane n pol x.1 (data x.1) x.2) w = { w with s := u } ∧ StkKept w.gid w.s u := by
  induction rs with
  | nil => intro w u _ h; simp only [State.storesOk, Option.some.injEq] at h; rw [← h]; exact ⟨rfl, StkKept.ofCalm _ (Calm.refl _)⟩
  | cons x t ih =>
    obtain ⟨l, r⟩ := x
    intro w u hd h
    have hd' : ¬ w.dry = true := by rw [hd]; simp
    have key : ∀ y : State, w.writeLane n pol l (data l) r = { w with s := y } → StkKept w.gid w.s y →
        State.storesOk w.gid w.g n pol w.s0 data y t = some u →
        ((l, r) :: t).foldl (fun w x => w.writeLane n pol x.1 (data x.1) x.2) w = { w with s := u } ∧ StkKept w.gid w.s u := by
      intro y h1 h2 h3
      obtain ⟨a1, a2⟩ := ih { w with s := y } u hd h3
      rw [List.foldl_cons, h1]
      exact ⟨a1, h2.trans a2⟩
    have heff : ∀ f : State → State, w.eff f = { w with s := f w.s } := fun f => if_neg hd'
    unfold State.storesOk at h
    simp only at h
    cases r <;> simp only at h
    · rename_i p e size f
      refine key _ ?_ ?_ h
      · unfold W.writeLane
        simp only
        split
        · rfl
        · exact heff _
      · split
        · exact StkKept.ofCalm _ (Calm.refl _)
        · exact StkKept.ofCalm _ (State.storeG_calm _ _ _ _ _ _ _ _)
    · rename_i pa
      refine key _ ?_ ?_ h
      · unfold W.writeLane
        simp only
        split
        · exact heff _
        · rfl
      · split
        · exact StkKept.ofCalm _ ⟨rfl, rfl, rfl, rfl, rfl, rfl⟩
        · exact StkKept.ofCalm _ (Calm.refl _)
    · refine key _ ?_ ?_ h
      · unfold W.writeLane
        exact heff _
      · exact StkKept.ofCalm _ ⟨rfl, rfl, rfl, rfl, rfl, rfl⟩
    · rename_i o
      have hc := State.backChecks_calm w.gid w.g l (w.g.lspOf l).toNat n w.s o
      rcases hb : w.s.backChecks w.gid w.g l (w.g.lspOf l).toNat n o with ⟨got, x⟩
      rw [hb] at hc h
      cases got <;> simp only at h
      · refine key _ ?_ ((StkKept.ofCalm _ hc).trans (State.writeL_kept _ _ _ _ _ _ _)) h
        unfold W.writeLane
        simp only [hb]
        exact if_neg hd'
      all_goals simp at h
    · simp at h
    · refine key w.s ?_ (StkKept.ofCalm _ (Calm.refl _)) h
      unfold W.writeLane
      exact if_neg hd'
    · simp at h

/-- A store whose checks pass, whose side log has room and whose bytes no atomic of its group is on its way to (R130, R131, R169). -/
theorem W.store_clean (w : W) (d a b : Opnd) (m : MemMod) (hd : w.dry = false) (R : List (Nat × Reach) × State)
    (hR : w.s.reachAll (fun s l => s.reach w.g l m.sp a b (szBytes m.sz) needW kindStore) (w.storeLanes m.sp) = R) (hw : anyWait R.1 = false)
    (hl : (({ w with s := R.2 } : W).storeLog (w.g.storeData m.sz d) R.1).length ≤ R.2.logFree w.g.core)
    (hf : R.2.overlapsFlight w.gid (szBytes m.sz) R.1 = false) (u : State)
    (hu : State.storesOk w.gid w.g (szBytes m.sz) m.pol w.s0 (w.g.storeData m.sz d) R.2 R.1 = some u) :
    ∃ x, w.store d a b m = { w with s := x } ∧
      PathKept w.gid (u.logLines w.gid w.g (({ w with s := R.2 } : W).storeLog (w.g.storeData m.sz d) R.1)) x ∧ StkKept w.gid R.2 u := by
  have hd' : ¬ w.dry = true := by rw [hd]; simp
  obtain ⟨h1, h2⟩ := W.writeLanes_stores (szBytes m.sz) m.pol (w.g.storeData m.sz d) R.1 { w with s := R.2 } u hd hu
  obtain ⟨x, d1, d2, -⟩ := W.paths_kept { w with s := u.logLines w.gid w.g (({ w with s := R.2 } : W).storeLog (w.g.storeData m.sz d) R.1) }
    (szBytes m.sz) R.1 hd
  refine ⟨x, ?_, d2, h2⟩
  unfold W.store
  simp only [hR]
  have e1 : ¬ (anyWait R.1 || decide (R.2.logFree w.g.core < (({ w with s := R.2 } : W).storeLog (w.g.storeData m.sz d) R.1).length)) = true := by
    simp only [hw, Bool.false_or, decide_eq_true_eq]; omega
  rw [if_neg e1, if_neg (by rw [hf]; simp)]
  rw [h1]
  have heff : ∀ f : State → State, W.eff { w with s := u } f = { w with s := f u } := fun f => if_neg hd'
  simp only
  rw [heff, d1]

end Sys2Proof.Machine
end

