-- ==== Sys2Proof/Laws/Atomics.lean ====
section
/-! SUPPORT. What the atomic words do at issue: on-chip lanes are performed at once, global ones are sent on their way. -/

namespace Sys2Proof.Machine

/-- Checks that change no state (R132). -/
theorem State.reachAll_pure {f : State → Nat → Reach × State} (r : Nat → Reach) (s : State) (hf : ∀ l, f s l = (r l, s)) (ex : List Nat) :
    s.reachAll f ex = (ex.map (fun l => (l, r l)), s) := by
  induction ex with
  | nil => rfl
  | cons l t ih => unfold State.reachAll; simp only [hf, ih, List.map_cons]

/-- The remote lane paths of an atomic word (R188). -/
theorem remoteAtomPath_kept (n : Nat) (rs : List (Nat × Reach)) (cs : List Nat) (acc : Nat × W) :
    ∃ x, (cs.foldl (remoteAtomPath n rs) acc).2 = { acc.2 with s := x } ∧ PathKept acc.2.gid acc.2.s x ∧
      acc.1 ≤ (cs.foldl (remoteAtomPath n rs) acc).1 := by
  induction cs generalizing acc with
  | nil => exact ⟨acc.2.s, rfl, PathKept.refl _ _, le_refl _⟩
  | cons c t ih =>
    rw [List.foldl_cons]
    obtain ⟨x, h1, h2, h3⟩ := ih (remoteAtomPath n rs acc c)
    exact ⟨x, h1, (PathKept.take acc.2.gid acc.2.s c _).trans h2, le_trans (Nat.le_max_left _ _) h3⟩

/-- The lane paths of an atomic word (R188). -/
theorem W.atomPaths_kept (w : W) (n : Nat) (rs : List (Nat × Reach)) :
    ∃ x, (w.atomPaths n rs).2 = { w with s := x } ∧ PathKept w.gid w.s x ∧ w.clk < (w.atomPaths n rs).1 := by
  have ht := PathKept.take w.gid w.s w.g.core (atomPasses n (chipLanes rs w.g.core))
  have key : ∃ x, ((remoteCores rs w.g.core).foldl (remoteAtomPath n rs)
      (if (chipLanes rs w.g.core).isEmpty then (w.clk + 1, { w with s := (w.s.takePath w.g.core (atomPasses n (chipLanes rs w.g.core))).2 })
      else ((w.s.takePath w.g.core (atomPasses n (chipLanes rs w.g.core))).1 + 24,
        ({ w with s := (w.s.takePath w.g.core (atomPasses n (chipLanes rs w.g.core))).2 } : W).mod
          (fun g => { g with pathUntil := (w.s.takePath w.g.core (atomPasses n (chipLanes rs w.g.core))).1, pathPc := w.pc })))).2 = { w with s := x } ∧
      PathKept w.gid w.s x ∧ w.clk < ((remoteCores rs w.g.core).foldl (remoteAtomPath n rs)
      (if (chipLanes rs w.g.core).isEmpty then (w.clk + 1, { w with s := (w.s.takePath w.g.core (atomPasses n (chipLanes rs w.g.core))).2 })
      else ((w.s.takePath w.g.core (atomPasses n (chipLanes rs w.g.core))).1 + 24,
        ({ w with s := (w.s.takePath w.g.core (atomPasses n (chipLanes rs w.g.core))).2 } : W).mod
          (fun g => { g with pathUntil := (w.s.takePath w.g.core (atomPasses n (chipLanes rs w.g.core))).1, pathPc := w.pc })))).1 := by
    split
    · obtain ⟨x, h1, h2, h3⟩ := remoteAtomPath_kept n rs (remoteCores rs w.g.core)
        (w.clk + 1, { w with s := (w.s.takePath w.g.core (atomPasses n (chipLanes rs w.g.core))).2 })
      exact ⟨x, h1, ht.trans h2, h3⟩
    · obtain ⟨x, h1, h2, h3⟩ := remoteAtomPath_kept n rs (remoteCores rs w.g.core)
        ((w.s.takePath w.g.core (atomPasses n (chipLanes rs w.g.core))).1 + 24,
          ({ w with s := (w.s.takePath w.g.core (atomPasses n (chipLanes rs w.g.core))).2 } : W).mod
            (fun g => { g with pathUntil := (w.s.takePath w.g.core (atomPasses n (chipLanes rs w.g.core))).1, pathPc := w.pc }))
      refine ⟨x, h1, (ht.trans ?_).trans h2, lt_of_lt_of_le ?_ h3⟩
      · exact ⟨⟨_, State.grp_modGrp_self _ _ _, fun _ => rfl⟩, fun k hk => State.grp_modGrp_ne _ _ hk, rfl, rfl, rfl, rfl, rfl, fun _ => ⟨rfl, rfl⟩⟩
      · have : w.s.pkg.clock ≤ (w.s.takePath w.g.core (atomPasses n (chipLanes rs w.g.core))).1 := by
          unfold State.takePath; exact le_trans (Nat.le_max_left _ _) (Nat.le_add_right _ _)
        show w.s.pkg.clock < _
        simp only
        omega
  obtain ⟨x, h1, h2, h3⟩ := key
  have hf : PathKept w.gid x { x with free := x.free + 1 } :=
    ⟨⟨id, by simp; rfl, fun _ => rfl⟩, fun _ _ => rfl, rfl, rfl, rfl, rfl, rfl, fun _ => ⟨rfl, rfl⟩⟩
  unfold W.atomPaths
  simp only
  rw [h1]
  split
  · exact ⟨_, rfl, h2.trans hf, lt_of_lt_of_le h3 (Nat.le_max_left _ _)⟩
  · exact ⟨x, h1, h2, h3⟩

/-- A read of memory depends on memory alone. -/
theorem State.num_eq {s t : State} (h : t.mem = s.mem) (a n : Nat) : t.num a n = s.num a n := by
  unfold State.num; rw [State.bytes_eq h]

/-- On-chip lanes depend on memory alone and change nothing else (R187). -/
theorem State.atomLanes_chip (op : AtomOp) (dst pred : Option Nat) (w64 : Bool) (go : List AtomLane) (hgo : ∀ k ∈ go, k.home = 16) :
    ∀ s t : State, t.mem = s.mem → (t.atomLanes op dst pred w64 go).1 = (s.atomLanes op dst pred w64 go).1 ∧
      (t.atomLanes op dst pred w64 go).2 = { t with mem := (s.atomLanes op dst pred w64 go).2.mem } := by
  induction go with
  | nil => intro s t h; exact ⟨rfl, by show t = { t with mem := s.mem }; rw [← h]⟩
  | cons k r ih =>
    intro s t h
    have h16 := hgo k (by simp)
    have ih' := ih (fun j hj => hgo j (by simp [hj]))
    have h1 : ∀ u : State, u.atomAt op w64 k = (u.num k.addr (if w64 then 8 else 4),
        (op.apply (u.num k.addr (if w64 then 8 else 4)) (k.b.toNat % 2 ^ (8 * (if w64 then 8 else 4))) (k.c.toNat % 2 ^ (8 * (if w64 then 8 else 4)))).isSome,
        match op.apply (u.num k.addr (if w64 then 8 else 4)) (k.b.toNat % 2 ^ (8 * (if w64 then 8 else 4))) (k.c.toNat % 2 ^ (8 * (if w64 then 8 else 4))) with
        | some v => u.put k.addr (toBytes (if w64 then 8 else 4) v)
        | none => u) := by
      intro u
      unfold State.atomAt
      simp only [h16, if_true]
      split <;> rename_i he <;> rw [he] <;> rfl
    unfold State.atomLanes
    rw [h1 s, h1 t, State.num_eq h]
    simp only
    cases op.apply (s.num k.addr (if w64 then 8 else 4)) (k.b.toNat % 2 ^ (8 * (if w64 then 8 else 4))) (k.c.toNat % 2 ^ (8 * (if w64 then 8 else 4))) with
    | none =>
      obtain ⟨i1, i2⟩ := ih' s t h
      simp only [i1, i2, and_self]
    | some v =>
      obtain ⟨i1, i2⟩ := ih' (s.put k.addr (toBytes (if w64 then 8 else 4) v)) (t.put k.addr (toBytes (if w64 then 8 else 4) v)) (by
        show memPut t.mem _ _ = memPut s.mem _ _; rw [h])
      simp only [i1, i2]
      exact ⟨trivial, rfl⟩

/-- What an atomic word changes at issue beyond memory and its flight: its group's lane path, scoreboard entries `ps` and fences `fs`. -/
structure IssKept (gid : Nat) (s z : State) (ps : List Pend) (fs : List FenceRec) : Prop where
  grp : ∀ y, s.grp gid = some y → ∃ a b, z.grp gid = some { y with pathUntil := a, pathPc := b, pends := y.pends ++ ps, fences := y.fences ++ fs }
  others : ∀ k, k ≠ gid → z.grp k = s.grp k
  dies : z.dies = s.dies
  pkg : z.pkg = s.pkg

theorem IssKept.trans {gid : Nat} {s t u : State} {p q : List Pend} {e f : List FenceRec} (h : IssKept gid s t p e) (k : IssKept gid t u q f) :
    IssKept gid s u (p ++ q) (e ++ f) := by
  refine ⟨fun y hy => ?_, fun j hj => (k.others j hj).trans (h.others j hj), k.dies.trans h.dies, k.pkg.trans h.pkg⟩
  obtain ⟨a, b, h1⟩ := h.grp y hy
  obtain ⟨c, d, h2⟩ := k.grp _ h1
  exact ⟨c, d, by rw [h2]; simp⟩

theorem IssKept.ofPath {gid : Nat} {s t : State} (h : PathKept gid s t) : IssKept gid s t [] [] := by
  refine ⟨fun y hy => ?_, h.others, h.dies, h.pkg⟩
  obtain ⟨f, f1, f2⟩ := h.grp
  refine ⟨(f y).pathUntil, (f y).pathPc, ?_⟩
  rw [f1, hy]
  simp only [Option.map_some, List.append_nil]
  rw [← f2 y]

theorem IssKept.ofGroups (gid : Nat) {s t : State} (h1 : t.groups = s.groups) (h2 : t.dies = s.dies) (h3 : t.pkg = s.pkg) : IssKept gid s t [] [] := by
  refine ⟨fun y hy => ⟨y.pathUntil, y.pathPc, ?_⟩, fun k _ => by unfold State.grp; rw [h1], h2, h3⟩
  simp only [List.append_nil]
  unfold State.grp at *
  rw [h1, hy]

/-- A scoreboard entry of a word that executes somewhere (R40). -/
theorem W.pend_kept (w : W) (cells : List (Nat × Word)) (due : Option Nat) (sig : Bool) (hx : w.ex ≠ []) (hd : w.dry = false) (y : Group)
    (hy : w.s.grp w.gid = some y) :
    ∃ z p, w.pend cells due sig = (p.id, { w with s := z }) ∧ IssKept w.gid w.s z [p] [] ∧ p.pc = w.pc ∧ p.regs = dstRegs w.f ∧ p.cells = cells ∧
      p.due = due ∧ z.mem = w.s.mem ∧ z.atoms = w.s.atoms := by
  refine ⟨State.modGrp { w.s with serial := w.s.serial + 1 } w.gid (fun g => { g with pends := g.pends ++ [Pend.mk w.s.serial w.pc w.f.op (dstRegs w.f) cells
      due (if sig && g.inRegion then some 0 else none) ((dstRegs w.f).headD 0)] }),
    ⟨w.s.serial, w.pc, w.f.op, dstRegs w.f, cells, due, if sig && y.inRegion then some 0 else none, (dstRegs w.f).headD 0⟩,
    ?_, ?_, rfl, rfl, rfl, rfl, rfl, rfl⟩
  · exact w.pend_eq cells due sig hx hd
  · refine ⟨fun v hv => ⟨v.pathUntil, v.pathPc, ?_⟩, fun k hk => State.grp_modGrp_ne _ _ hk, rfl, rfl⟩
    have hvy : v = y := by rw [hy] at hv; exact (Option.some.inj hv).symm
    subst hvy
    rw [State.grp_modGrp_self]
    have : State.grp { w.s with serial := w.s.serial + 1 } w.gid = some v := hy
    rw [this]
    simp

/-- A fence begun by a word. -/
theorem W.addFence_kept (w : W) (f : FenceRec) :
    ∃ z, w.addFence f = (w.s.serial, { w with s := z }) ∧ IssKept w.gid w.s z [] [{ f with id := w.s.serial, pc := w.pc }] ∧
      z.mem = w.s.mem ∧ z.atoms = w.s.atoms := by
  refine ⟨_, rfl, ⟨fun v hv => ⟨v.pathUntil, v.pathPc, ?_⟩, fun k hk => State.grp_modGrp_ne _ _ hk, rfl, rfl⟩, rfl, rfl⟩
  unfold State.addFence
  rw [State.grp_modGrp_self]
  have : State.grp { w.s with serial := w.s.serial + 1 } w.gid = some v := hv
  rw [this]
  simp

theorem W.relBefore_kept (w : W) (m : AtomMod) :
    ∃ z fs, w.relBefore m = (fs.head?.map (fun f => f.id), { w with s := z }) ∧ IssKept w.gid w.s z [] fs ∧ z.mem = w.s.mem ∧
      z.atoms = w.s.atoms ∧ fs.map FenceRec.anon = relFences m w.pc := by
  unfold W.relBefore relFences
  split
  · obtain ⟨z, h1, h2, h3, h4⟩ := w.addFence_kept (orderFence m true (decide (m.ord = .sc)) 0)
    exact ⟨z, [{ orderFence m true (decide (m.ord = .sc)) 0 with id := w.s.serial, pc := w.pc }], congrArg (fun q : Nat × W => (some q.1, q.2)) h1, h2, h3, h4, rfl⟩
  · exact ⟨w.s, [], rfl, IssKept.ofGroups _ rfl rfl rfl, rfl, rfl, rfl⟩

theorem W.acqAfter_kept (w : W) (m : AtomMod) :
    ∃ z fs, w.acqAfter m = { w with s := z } ∧ IssKept w.gid w.s z [] fs ∧ z.mem = w.s.mem ∧ z.atoms = w.s.atoms ∧
      fs.map FenceRec.anon = acqFences m w.pc := by
  unfold W.acqAfter acqFences
  split
  · obtain ⟨z, h1, h2, h3, h4⟩ := w.addFence_kept (orderFence m (decide (m.ord = .sc)) true 0)
    exact ⟨z, _, congrArg Prod.snd h1, h2, h3, h4, rfl⟩
  · exact ⟨w.s, [], rfl, IssKept.ofGroups _ rfl rfl rfl, rfl, rfl, rfl⟩

/-- Counting requests changes neither groups, dies, memory nor flights (R72). -/
theorem State.countAll_kept (w : Who) (l : List AtomLane) (s : State) :
    (l.foldl (fun (s : State) (k : AtomLane) => s.countReq w k.ptr 1) s).groups = s.groups ∧
    (l.foldl (fun (s : State) (k : AtomLane) => s.countReq w k.ptr 1) s).dies = s.dies ∧
    (l.foldl (fun (s : State) (k : AtomLane) => s.countReq w k.ptr 1) s).pkg = s.pkg ∧
    (l.foldl (fun (s : State) (k : AtomLane) => s.countReq w k.ptr 1) s).mem = s.mem ∧
    (l.foldl (fun (s : State) (k : AtomLane) => s.countReq w k.ptr 1) s).atoms = s.atoms := by
  induction l generalizing s with
  | nil => exact ⟨rfl, rfl, rfl, rfl, rfl⟩
  | cons k t ih =>
    rw [List.foldl_cons]
    obtain ⟨a, b, c, d, e⟩ := ih (s.countReq w k.ptr 1)
    have : (s.countReq w k.ptr 1).groups = s.groups ∧ (s.countReq w k.ptr 1).dies = s.dies ∧ (s.countReq w k.ptr 1).pkg = s.pkg ∧
        (s.countReq w k.ptr 1).mem = s.mem ∧ (s.countReq w k.ptr 1).atoms = s.atoms := by
      unfold State.countReq; split <;> exact ⟨rfl, rfl, rfl, rfl, rfl⟩
    exact ⟨a.trans this.1, b.trans this.2.1, c.trans this.2.2.1, d.trans this.2.2.2.1, e.trans this.2.2.2.2⟩

/-- AN ATOMIC WORD WHOSE LANES ARE CLEAR (R182–R188, R194): performed at once when every lane lies on chip and no release is asked for, and
sent on its way otherwise. -/
theorem W.atomic_clean (w : W) (a : Opnd) (x : AtomWord) (h1 : w.dry = false) (h2 : w.rolled = false) (hx : w.ex ≠ []) (R : List (Nat × Reach) × State)
    (hR : w.s.reachAll (fun s l => s.reach w.g l x.m.sp a .zero (if x.m.w64 then 8 else 4) (if x.ret then needRW else needW) kindAtomic)
      (w.storeLanes .g) = R)
    (y : Group) (hy : R.2.grp w.gid = some y)
    (hc : ∀ q ∈ R.1, w.s0.atomClear R.2 w.gid w.g x.ret q) (hf : R.2.overlapsFlight w.gid (if x.m.w64 then 8 else 4) R.1 = false)
    (zs : List (Nat × Word)) (hzs : zs = (w.ex.filter (fun l => !(w.storeLanes .g).contains l)).flatMap (zeroCells w.f)) :
    ∃ z ps fs fs', w.atomic a x = { w with s := z } ∧ IssKept w.gid R.2 z ps (fs ++ fs') ∧ fs.map FenceRec.anon = relFences x.m w.pc ∧
      fs'.map FenceRec.anon = acqFences x.m w.pc ∧
      (if !hasRel x.m.ord && (x.lanes w.recLane R.1).all (fun k => decide (k.home = 16)) then
        (if x.ret then ∃ p due, ps = [p] ∧ p.pc = w.pc ∧ p.regs = dstRegs w.f ∧
          p.cells = zs ++ (R.2.atomLanes x.op x.dst x.pred x.m.w64 (x.lanes w.recLane R.1)).1 ∧ p.due = some due ∧ R.2.pkg.clock < due else ps = []) ∧
        z.mem = (R.2.atomLanes x.op x.dst x.pred x.m.w64 (x.lanes w.recLane R.1)).2.mem ∧ z.atoms = R.2.atoms
      else
        (if x.ret then ∃ p, ps = [p] ∧ p.pc = w.pc ∧ p.regs = dstRegs w.f ∧ p.cells = zs ∧ p.due = none else ps = []) ∧ z.mem = R.2.mem ∧
        ∃ id lat due, R.2.pkg.clock < due ∧ (∀ k, k ≠ id → kget z.atoms k = kget R.2.atoms k) ∧ kget z.atoms id = some ⟨w.gid, w.g.tid, w.g.ctx, w.g.core,
          ps.head?.map (fun p => p.id), x.op, x.lanes w.recLane R.1, x.dst, x.m.w64, x.pred, lat, fs.head?.map (fun f => f.id), due⟩) := by
  let v : W := { w with s := R.2 }
  have hw : anyWait R.1 = false := by
    unfold anyWait
    rw [List.any_eq_false]
    intro q hq
    rcases hc q hq with ⟨f, c, e⟩ | ⟨p, e', z, f, e, -⟩ <;> rw [e] <;> simp
  have hlq : ∀ q ∈ R.1, x.ret = false → v.redLogged q = false := by
    intro q hq hret
    rcases hc q hq with ⟨f, c, e⟩ | ⟨p, e', z, f, e, e2, -⟩
    · unfold W.redLogged; rw [e]
    · rw [hret] at e2
      unfold W.redLogged; rw [e]; simpa using e2
  have hl : (if x.ret then [] else R.1.filter v.redLogged) = [] := by
    cases hret : x.ret
    · rw [if_neg (by simp), List.filter_eq_nil_iff]
      intro q hq; rw [hlq q hq hret]; simp
    · rfl
  have hll : R.1.any v.lineLogged = false := by
    rw [List.any_eq_false]
    intro q hq
    rcases hc q hq with ⟨f, c, e⟩ | ⟨p, e', z, f, e, -, e3⟩
    · unfold W.lineLogged; rw [e]; simp
    · have : (R.2.core w.g.core).sideLog.any (fun k => decide (k.ctx = w.g.ctx) && decide (vline k.ptr = vline p)) = false := by
        rw [List.any_eq_false]
        intro k hk
        have := e3 k hk
        simpa using this
      unfold W.lineLogged; rw [e]
      show ¬ (!v.redLogged q && (R.2.core w.g.core).sideLog.any (fun k => decide (k.ctx = w.g.ctx) && decide (vline k.ptr = vline p))) = true
      rw [this]; simp
  have hfl : v.atomFaults x R.1 = v := by
    have key : ∀ l : List (Nat × Reach), (∀ q ∈ l, v.s0.atomClear v.s v.gid v.g x.ret q) → v.atomFaults x l = v := by
      intro l
      induction l with
      | nil => intro _; rfl
      | cons q t ih =>
        intro hq
        have : v.atomFaults x (q :: t) = v.atomFaults x t := by
          rcases hq q (by simp) with ⟨f, c, e⟩ | ⟨p, e', z, f, e, e2, -⟩
          · unfold W.atomFaults
            rw [List.foldl_cons, e]
          · unfold W.atomFaults
            rw [List.foldl_cons, e]
            have : (x.ret && leafWb e' && !v.g.inTouch q.1 p && !v.dry) = false := by
              cases hret : x.ret
              · rfl
              · rw [hret] at e2
                have e2' : leafWb e' = false := e2
                rw [e2']; rfl
            simp only [this]
            rfl
        rw [this, ih (fun z hz => hq z (by simp [hz]))]
    exact key R.1 hc
  have hz : v.atomZeros (w.storeLanes .g) R.1 = zs := by
    have key : ∀ f : Nat × Reach → Option Nat, (∀ q ∈ R.1, f q = none) → R.1.filterMap f = [] := fun f h => by
      rw [List.filterMap_eq_nil_iff]; exact h
    unfold W.atomZeros
    rw [key]
    · rw [List.append_nil]; exact hzs.symm
    · intro q hq
      rcases hc q hq with ⟨f, c, e⟩ | ⟨p, e', z, f, e, -⟩ <;> simp only [e]
  have hg : v.atomGo x R.1 = x.lanes w.recLane R.1 := by
    unfold W.atomGo
    have : R.1.filter (fun r => x.ret || !v.redLogged r) = R.1 := by
      rw [List.filter_eq_self]
      intro q hq
      cases hret : x.ret
      · simp [hlq q hq hret]
      · simp
    rw [this]; rfl
  generalize hgo : x.lanes w.recLane R.1 = go at *
  have hrl : v.redLog x (if x.ret then [] else R.1) v.s = v.s := by
    unfold W.redLog
    have : (if x.ret then [] else R.1).filter v.redLogged = [] := by
      cases hret : x.ret
      · rw [hret] at hl; exact hl
      · rfl
    rw [this]; rfl
  let glob : List AtomLane := go.filter (fun k => decide (k.home ≠ 16))
  let s1 : State := glob.foldl (fun (s : State) (k : AtomLane) => s.countReq w.g.who k.ptr 1) R.2
  have k1 : s1.groups = R.2.groups ∧ s1.dies = R.2.dies ∧ s1.pkg = R.2.pkg ∧ s1.mem = R.2.mem ∧ s1.atoms = R.2.atoms := State.countAll_kept w.g.who glob R.2
  have i1 : IssKept w.gid R.2 s1 [] [] := IssKept.ofGroups _ k1.1 k1.2.1 k1.2.2.1
  obtain ⟨s2, fs, r1, r2, r3, r4, r5⟩ := W.relBefore_kept { w with s := s1 } x.m
  have hiss : v.atomIssue (if x.m.w64 then 8 else 4) x R.1 (if x.ret then v.atomZeros (w.storeLanes .g) R.1 else []) =
      (if glob.isEmpty && (fs.head?.map (fun f => f.id)).isNone then
        ({ w with s := s2 } : W).atomNow (if x.m.w64 then 8 else 4) x R.1 (if x.ret then zs else []) go
      else ({ w with s := s2 } : W).atomSend (if x.m.w64 then 8 else 4) x R.1 (if x.ret then zs else []) go (fs.head?.map (fun f => f.id))).acqAfter x.m := by
    unfold W.atomIssue
    simp only [hg, hrl, hz]
    have : W.relBefore { v with s := List.foldl (fun (s : State) (k : AtomLane) => s.countReq w.g.who k.ptr 1) v.s (List.filter (fun k => decide (k.home ≠ 16)) go) } x.m =
        (fs.head?.map (fun f => f.id), { w with s := s2 }) := r1
    simp only [v] at this ⊢
    rw [this]
  have hroll : v.rolled = false := h2
  have hdry : v.dry = false := h1
  have c1 : ¬ (anyWait R.1 || decide (v.s.logFree v.g.core < (if x.ret then [] else R.1.filter v.redLogged).length) ||
      (R.1.any v.lineLogged && !v.dry)) = true := by rw [hw, hl, hll]; simp
  have c2 : ¬ v.s.overlapsFlight v.gid (if x.m.w64 then 8 else 4) R.1 = true := by rw [show v.s.overlapsFlight v.gid (if x.m.w64 then 8 else 4) R.1 = false from hf]; simp
  have hat : w.atomic a x = v.atomIssue (if x.m.w64 then 8 else 4) x R.1 (if x.ret then v.atomZeros (w.storeLanes .g) R.1 else []) := by
    unfold W.atomic
    simp only [hR]
    refine (if_neg c1).trans ((if_neg c2).trans ?_)
    rw [show W.atomFaults { w with s := R.2 } x R.1 = v from hfl]
    refine (if_neg (by rw [hroll]; simp)).trans ?_
    exact if_neg (by rw [hdry]; simp)
  rw [hat, hiss]
  have hfn : (fs.head?.map (fun f => f.id)).isNone = !hasRel x.m.ord := by
    unfold relFences at r5
    cases hh : hasRel x.m.ord
    · rw [hh] at r5; simp only [Bool.false_eq_true, if_false, List.map_eq_nil_iff] at r5; rw [r5]; rfl
    · rw [hh] at r5
      cases fs with
      | nil => simp at r5
      | cons f t => rfl
  have hge : glob.isEmpty = go.all (fun k => decide (k.home = 16)) := by
    simp only [glob]
    rw [Bool.eq_iff_iff, List.isEmpty_iff, List.filter_eq_nil_iff, List.all_eq_true]
    simp
  have hcond : (glob.isEmpty && (fs.head?.map (fun f => f.id)).isNone) = (!hasRel x.m.ord && go.all (fun k => decide (k.home = 16))) := by
    rw [hge, hfn, Bool.and_comm]
  rw [hcond]
  have i2 : IssKept w.gid R.2 s2 [] fs := by have := i1.trans r2; simpa using this
  by_cases hnow : (!hasRel x.m.ord && go.all (fun k => decide (k.home = 16))) = true
  · simp only [if_pos hnow]
    have hh : ∀ k ∈ go, k.home = 16 := by
      intro k hk
      have := (Bool.and_eq_true _ _ ▸ hnow).2
      rw [List.all_eq_true] at this
      simpa using this k hk
    obtain ⟨u, p1, p2, p3⟩ := W.atomPaths_kept { w with s := s2 } (if x.m.w64 then 8 else 4) R.1
    have hmem : s2.mem = R.2.mem := (r3.trans k1.2.2.2.1)
    obtain ⟨q1, q2⟩ := State.atomLanes_chip x.op x.dst x.pred x.m.w64 go hh R.2 u (p2.mem.trans hmem)
    have i3 : IssKept w.gid R.2 { u with mem := (R.2.atomLanes x.op x.dst x.pred x.m.w64 go).2.mem } [] fs := by
      have := i2.trans (IssKept.ofPath p2)
      simp only [List.append_nil] at this
      exact ⟨this.grp, this.others, this.dies, this.pkg⟩
    have e1 : u.atomLanes x.op x.dst x.pred x.m.w64 go = ((R.2.atomLanes x.op x.dst x.pred x.m.w64 go).1,
        { u with mem := (R.2.atomLanes x.op x.dst x.pred x.m.w64 go).2.mem }) := Prod.ext q1 q2
    have hua : u.atoms = R.2.atoms := p2.atoms.trans (r4.trans k1.2.2.2.2)
    let u' : State := { u with mem := (R.2.atomLanes x.op x.dst x.pred x.m.w64 go).2.mem }
    have hclk : R.2.pkg.clock < (W.atomPaths { w with s := s2 } (if x.m.w64 then 8 else 4) R.1).1 := by
      have e : s2.pkg = R.2.pkg := i2.pkg
      have p3' : s2.pkg.clock < (W.atomPaths { w with s := s2 } (if x.m.w64 then 8 else 4) R.1).1 := p3
      rw [e] at p3'; exact p3'
    obtain ⟨a1, b1, hy'⟩ := i3.grp y hy
    cases hret : x.ret
    · obtain ⟨z, fs', g1, g2, g3, g4, g5⟩ := W.acqAfter_kept { w with s := u' } x.m
      refine ⟨z, [], fs, fs', ?_, by simpa using i3.trans g2, r5, g5, ?_⟩
      · have hn : W.atomNow { w with s := s2 } (if x.m.w64 then 8 else 4) x R.1 (if x.ret then zs else []) go = { w with s := u' } := by
          unfold W.atomNow
          simp only [p1]
          rw [e1, hret]
          rfl
        rw [hret] at hn
        rw [hn]; exact g1
      · exact ⟨rfl, g3, g4.trans hua⟩
    · obtain ⟨z0, p, f1, f2, f3, f4, f5, f6, f7, f8⟩ := W.pend_kept { w with s := u' } (zs ++ (R.2.atomLanes x.op x.dst x.pred x.m.w64 go).1)
        (some (W.atomPaths { w with s := s2 } (if x.m.w64 then 8 else 4) R.1).1) true hx h1 _ hy'
      obtain ⟨z, fs', g1, g2, g3, g4, g5⟩ := W.acqAfter_kept { w with s := z0 } x.m
      refine ⟨z, [p], fs, fs', ?_, by simpa using (i3.trans f2).trans g2, r5, g5, ?_⟩
      · have hn : W.atomNow { w with s := s2 } (if x.m.w64 then 8 else 4) x R.1 (if x.ret then zs else []) go = { w with s := z0 } := by
          unfold W.atomNow
          simp only [p1]
          rw [e1, hret]
          exact congrArg Prod.snd f1
        rw [hret] at hn
        rw [hn]; exact g1
      · exact ⟨⟨p, _, rfl, f3, f4, f5, f6, hclk⟩, g3.trans f7, g4.trans (f8.trans hua)⟩
  · simp only [if_neg hnow]
    let s3 : State := { s2 with free := s2.free + 1 }
    have i3 : IssKept w.gid R.2 s3 [] fs := ⟨i2.grp, i2.others, i2.dies, i2.pkg⟩
    obtain ⟨a1, b1, hy'⟩ := i3.grp y hy
    have hclk : R.2.pkg.clock < s2.freeDue.1 := by
      have e : s2.pkg = R.2.pkg := i2.pkg
      unfold State.freeDue
      rw [e]
      show R.2.pkg.clock < R.2.pkg.clock + 1 + _
      omega
    have hmem : s2.mem = R.2.mem := (r3.trans k1.2.2.2.1)
    have hat : s2.atoms = R.2.atoms := r4.trans k1.2.2.2.2
    cases hret : x.ret
    · obtain ⟨z, fs', g1, g2, g3, g4, g5⟩ := W.acqAfter_kept { w with s := { s3 with serial := s3.serial + 1, atoms := kset s3.atoms s3.serial ⟨w.gid, w.g.tid, w.g.ctx, w.g.core, none, x.op, go, x.dst, x.m.w64,
          x.pred, W.atomLat { w with s := s2 } (if x.m.w64 then 8 else 4) x.m.sp R.1, fs.head?.map (fun f => f.id), s2.freeDue.1⟩ } } x.m
      have i4 : IssKept w.gid s3 { s3 with serial := s3.serial + 1, atoms := kset s3.atoms s3.serial ⟨w.gid, w.g.tid, w.g.ctx, w.g.core, none, x.op, go, x.dst, x.m.w64,
          x.pred, W.atomLat { w with s := s2 } (if x.m.w64 then 8 else 4) x.m.sp R.1, fs.head?.map (fun f => f.id), s2.freeDue.1⟩ } [] [] :=
        IssKept.ofGroups _ rfl rfl rfl
      refine ⟨z, [], fs, fs', ?_, by simpa using (i3.trans i4).trans g2, r5, g5, ?_⟩
      · have hn : W.atomSend { w with s := s2 } (if x.m.w64 then 8 else 4) x R.1 (if x.ret then zs else []) go (fs.head?.map (fun f => f.id)) = { w with s := { s3 with serial := s3.serial + 1, atoms := kset s3.atoms s3.serial ⟨w.gid, w.g.tid, w.g.ctx, w.g.core, none, x.op, go, x.dst, x.m.w64,
          x.pred, W.atomLat { w with s := s2 } (if x.m.w64 then 8 else 4) x.m.sp R.1, fs.head?.map (fun f => f.id), s2.freeDue.1⟩ } } := by
          unfold W.atomSend
          rw [hret]
          rfl
        rw [hret] at hn
        rw [hn]; exact g1
      · refine ⟨rfl, g3.trans hmem, s3.serial, W.atomLat { w with s := s2 } (if x.m.w64 then 8 else 4) x.m.sp R.1, _, hclk, fun k hk => ?_, ?_⟩
        · rw [g4]; show kget (kset s3.atoms _ _) k = _
          rw [kget_kset, if_neg hk]; exact congrArg (fun m => kget m k) hat
        · rw [g4]; show kget (kset s3.atoms _ _) _ = _
          rw [kget_kset, if_pos rfl]; rfl
    · obtain ⟨z0, p, f1, f2, f3, f4, f5, f6, f7, f8⟩ := W.pend_kept { w with s := s3 } zs none true hx h1 _ hy'
      obtain ⟨z, fs', g1, g2, g3, g4, g5⟩ := W.acqAfter_kept { w with s := { z0 with serial := z0.serial + 1, atoms := kset z0.atoms z0.serial ⟨w.gid, w.g.tid, w.g.ctx, w.g.core, some p.id, x.op, go, x.dst, x.m.w64,
          x.pred, W.atomLat { w with s := s2 } (if x.m.w64 then 8 else 4) x.m.sp R.1, fs.head?.map (fun f => f.id), s2.freeDue.1⟩ } } x.m
      have i4 : IssKept w.gid z0 { z0 with serial := z0.serial + 1, atoms := kset z0.atoms z0.serial ⟨w.gid, w.g.tid, w.g.ctx, w.g.core, some p.id, x.op, go, x.dst, x.m.w64,
          x.pred, W.atomLat { w with s := s2 } (if x.m.w64 then 8 else 4) x.m.sp R.1, fs.head?.map (fun f => f.id), s2.freeDue.1⟩ } [] [] :=
        IssKept.ofGroups _ rfl rfl rfl
      refine ⟨z, [p], fs, fs', ?_, by simpa using ((i3.trans f2).trans i4).trans g2, r5, g5, ?_⟩
      · have hn : W.atomSend { w with s := s2 } (if x.m.w64 then 8 else 4) x R.1 (if x.ret then zs else []) go (fs.head?.map (fun f => f.id)) = { w with s := { z0 with serial := z0.serial + 1, atoms := kset z0.atoms z0.serial ⟨w.gid, w.g.tid, w.g.ctx, w.g.core, some p.id, x.op, go, x.dst, x.m.w64,
          x.pred, W.atomLat { w with s := s2 } (if x.m.w64 then 8 else 4) x.m.sp R.1, fs.head?.map (fun f => f.id), s2.freeDue.1⟩ } } := by
          unfold W.atomSend
          rw [hret]
          have : W.pend { ({ w with s := s2 } : W) with s := s2.freeDue.2 } zs none true = (p.id, { w with s := z0 }) := f1
          simp only [if_true]
          rw [this]

        rw [hret] at hn
        rw [hn]; exact g1
      · refine ⟨⟨p, rfl, f3, f4, f5, f6⟩, g3.trans (f7.trans hmem), z0.serial, W.atomLat { w with s := s2 } (if x.m.w64 then 8 else 4) x.m.sp R.1, _, hclk, fun k hk => ?_, ?_⟩
        · rw [g4]; show kget (kset z0.atoms _ _) k = _
          rw [kget_kset, if_neg hk]; exact congrArg (fun m => kget m k) (f8.trans hat)
        · rw [g4]; show kget (kset z0.atoms _ _) _ = _
          rw [kget_kset, if_pos rfl]; rfl

end Sys2Proof.Machine
end

