-- ==== Sys2Proof/Laws/Quiet.lean ====
section
/-! SUPPORT. What translation and an engine's reads leave alone: the memory, the groups, the package, the teams. -/

namespace Sys2Proof.Machine

theorem State.touchDies_mem (s : State) (ctx e : Nat) : (s.touchDies ctx e).mem = s.mem := by
  unfold State.touchDies; split <;> rfl

/-- A page walk (R156, R160). -/
theorem State.walkDone_mem (s : State) (ccl ctx : Nat) (ptr : DWord) : (s.walkDone ccl ctx ptr).2.mem = s.mem := by
  unfold State.walkDone
  simp only
  split
  · exact State.touchDies_mem s _ _
  · rfl

/-- The TLB (R160). -/
theorem State.leafTlb_mem (s : State) (ccl ctx : Nat) (ptr : DWord) : (s.leafTlb ccl ctx ptr).2.mem = s.mem := by
  unfold State.leafTlb
  split
  · rfl
  · exact State.walkDone_mem _ _ _ _

/-- A check made again (R367). -/
theorem State.confirm_mem (s : State) (ccl ctx : Nat) (ptr : DWord) (n : Need) : (s.confirm ccl ctx ptr n).2.mem = s.mem := by
  unfold State.confirm
  split
  · have h := State.walkDone_mem (s.modCcl ccl (fun c => { c with tlb := c.tlb.filter (fun t => !tlbHit ctx (vaOf ptr) t) })) ccl ctx ptr
    split
    · rename_i he; rw [he] at h; exact h
    · exact h
  · rfl

/-- Translation (R159). -/
theorem State.xlate_mem (s : State) (w : Who) (ptr : DWord) (n : Need) : (s.xlate w ptr n).2.mem = s.mem := by
  unfold State.xlate
  split
  · split <;> rfl
  · split
    · rfl
    · have h := State.leafTlb_mem s (coreCcl w.core) w.ctx ptr
      split
      · rename_i he
        rw [he] at h
        split
        · exact (State.confirm_mem _ _ _ _ _).trans h
        · exact h
      · exact h

theorem State.fillL2_mem (s : State) (die ctx e flat : Nat) : (s.fillL2 die ctx e flat).mem = s.mem := by
  unfold State.fillL2; split <;> rfl

/-- A job's translation (R174). -/
theorem State.jobAt_kept (s : State) (w : Who) (p : DWord) (n : Need) : Calm s (s.jobAt w p n).2 ∧ (s.jobAt w p n).2.mem = s.mem := by
  have h := State.xlate_calm s w p n
  have m := State.xlate_mem s w p n
  unfold State.jobAt
  split <;> rename_i he <;> rw [he] at h m
  · exact ⟨h, m⟩
  · exact ⟨h, m⟩
  · split
    · exact ⟨h, m⟩
    · split <;> exact ⟨h, m⟩

/-- A job's read (R206, R228). -/
theorem State.jobRead_kept (s : State) (w : Who) (p : DWord) (n : Nat) (al : Bool) : Calm s (s.jobRead w p n al).2 ∧ (s.jobRead w p n al).2.mem = s.mem := by
  have h := State.jobAt_kept s w p needR
  unfold State.jobRead
  split
  · rename_i he; rw [he] at h
    split
    · exact h
    · simp only
      split
      · exact ⟨h.1.trans (State.fillL2_calm _ _ _ _ _), (State.fillL2_mem _ _ _ _ _).trans h.2⟩
      · exact h
  · exact h

/-- A group's team and core stay through a region entry (R94). -/
theorem Group.entered_place (g : Group) (f : Info) : (g.entered f).tid = g.tid ∧ (g.entered f).core = g.core ∧ (g.entered f).ctx = g.ctx := by
  unfold Group.entered; simp only; split <;> exact ⟨rfl, rfl, rfl⟩

/-- A word with a lane of execution executes somewhere. -/
theorem W.begin_ex {i : Instr} {s : State} {g : Group} {pc : Pc} (hx : (g.entered (info i)).exLanes (info i) g.active ≠ []) :
    (W.begin (info i) s g pc).ex.isEmpty = false := by simpa [W.begin, List.isEmpty_iff] using hx

/-- A word held for a tile (R222). -/
theorem Ready.held {i : Instr} {keys : Group → List Nat → List Nat} {s : State} {g : Group} {pc : Pc} {body : W → W} (h : Ready (info i) keys s g pc)
    (he : exec i s = runWordX i keys s body) (c : SlotCause) (fx : State → State)
    (hb : body (W.begin (info i) s g pc) = { W.begin (info i) s g pc with hold := some c, holdFx := fx }) :
    exec i s = .next ((fx s).modGrp s.focus (fun k => { k with retryAt := s.pkg.clock + 1, retryCause := c, waitPc := pc })) := by
  refine he.trans ((h.run _).trans ?_)
  rw [hb]
  rfl

/-- A word held with another word's PC to blame. -/
theorem Ready.heldFor {i : Instr} {keys : Group → List Nat → List Nat} {s : State} {g : Group} {pc : Pc} {body : W → W} (h : Ready (info i) keys s g pc)
    (he : exec i s = runWordX i keys s body) (c : SlotCause) (blame : Pc)
    (hb : body (W.begin (info i) s g pc) = { W.begin (info i) s g pc with hold := some c, holdPc := some blame }) :
    exec i s = .next (s.modGrp s.focus (fun k => { k with retryAt := s.pkg.clock + 1, retryCause := c, waitPc := blame })) := by
  refine he.trans ((h.run _).trans ?_)
  rw [hb]
  rfl

/-- A WORD THAT LEAVES AN ENTRY (R40): a word whose body changes the state, makes one scoreboard entry with no completion, and changes the
state again. -/
theorem Ready.leavesIn {i : Instr} {keys : Group → List Nat → List Nat} {s : State} {g : Group} {pc : Pc} {body : W → W} (h : Ready (info i) keys s g pc)
    (he : exec i s = runWordX i keys s body) (hx : (g.entered (info i)).exLanes (info i) g.active ≠ []) (x : State) (cells : List (Nat × Word)) (sig : Bool)
    (fx : Pend → State → State)
    (hb : ∀ e : Pend, e.id = x.serial → body (W.begin (info i) s g pc) = { (W.pend { W.begin (info i) s g pc with s := x } cells none sig).2 with
      s := fx e (W.pend { W.begin (info i) s g pc with s := x } cells none sig).2.s })
    (hx' : Steady s.focus (s.entered (info i) g) x) (hs : ∀ e x, Steady s.focus x (fx e x)) : LeavesIn i s g pc x cells fx := by
  obtain ⟨gx, hgx, -, -⟩ := hx' _ (State.entered_grp s _ g)
  let e : Pend := Pend.mk x.serial pc (info i).op (dstRegs (info i)) cells none (if sig && gx.inRegion then some 0 else none) ((dstRegs (info i)).headD 0)
  have hp := W.pend_eq { W.begin (info i) s g pc with s := x } cells none sig hx h.wet
  have hm : ∀ f1 f2 : Group → Group, f1 gx = f2 gx →
      State.modGrp { x with serial := x.serial + 1 } s.focus f1 = State.modGrp { x with serial := x.serial + 1 } s.focus f2 := by
    intro f1 f2 hf
    have hg : kget x.groups s.focus = some gx := hgx
    unfold State.modGrp
    simp only [hg, hf]
  refine ⟨e, rfl, rfl, rfl, rfl, rfl, ?_⟩
  have hb' := hb e rfl
  rw [hp] at hb'
  have hm' := hm (fun y => { y with pends := y.pends ++ [Pend.mk x.serial pc (info i).op (dstRegs (info i)) cells none (if sig && y.inRegion then some 0 else none)
    ((dstRegs (info i)).headD 0)] }) (fun y => { y with pends := y.pends ++ [e] }) rfl
  refine h.does he _ (hb'.trans ?_) ?_
  · exact congrArg (fun y => { W.begin (info i) s g pc with s := fx e y }) hm'
  · exact hx'.trans (Steady.trans (t := State.modGrp { x with serial := x.serial + 1 } s.focus (fun y => { y with pends := y.pends ++ [e] }))
      (Steady.trans (t := { x with serial := x.serial + 1 }) (Steady.ofGroups _ rfl) (Steady.modGrp _ _ _ _ (fun y => ⟨rfl, rfl⟩))) (hs _ _))

/-- The same for a word that changes nothing before. -/
theorem Ready.leaves {i : Instr} {keys : Group → List Nat → List Nat} {s : State} {g : Group} {pc : Pc} {body : W → W} (h : Ready (info i) keys s g pc)
    (he : exec i s = runWordX i keys s body) (hx : (g.entered (info i)).exLanes (info i) g.active ≠ []) (cells : List (Nat × Word)) (sig : Bool)
    (fx : Pend → State → State)
    (hb : ∀ e : Pend, e.id = s.serial → body (W.begin (info i) s g pc) = { ((W.begin (info i) s g pc).pend cells none sig).2 with
      s := fx e ((W.begin (info i) s g pc).pend cells none sig).2.s })
    (hs : ∀ e x, Steady s.focus x (fx e x)) : Leaves i s g pc cells fx :=
  h.leavesIn he hx (s.entered (info i) g) cells sig fx hb (Steady.refl _ _) hs

/-- A group's fences, its requests for ring pages and its registers stay through a region entry (R94). -/
theorem Group.entered_fences (g : Group) (f : Info) : (g.entered f).fences = g.fences ∧ (g.entered f).recReq = g.recReq ∧ (g.entered f).level = g.level := by
  unfold Group.entered; simp only; split <;> exact ⟨rfl, rfl, rfl⟩

/-- Entries kept by a test of their keys. -/
theorem kget_filter {α : Type} (l : List (Nat × α)) (p : Nat → Bool) (k : Nat) : kget (l.filter (fun e => p e.1)) k = if p k then kget l k else none := by
  induction l with
  | nil => simp [kget]
  | cons e t ih =>
    obtain ⟨j, v⟩ := e
    rw [List.filter_cons]
    by_cases hj : j = k
    · subst hj
      cases hp : p j
      · simp only [hp, Bool.false_eq_true, if_false] at ih ⊢
        exact ih
      · simp only [if_true]
        simp [kget]
    · have hk : kget ((j, v) :: t) k = kget t k := by simp [kget, hj]
      rw [hk]
      cases hp : p j
      · simp only [Bool.false_eq_true, if_false]; exact ih
      · simp only [if_true]
        have : kget ((j, v) :: t.filter (fun e => p e.1)) k = kget (t.filter (fun e => p e.1)) k := by simp [kget, hj]
        rw [this]; exact ih

/-- A byte after a range is zeroed. -/
theorem State.byte_zeroRange (s : State) (a n x : Nat) : (s.zeroRange a n).byte x = if a ≤ x ∧ x < a + n then 0 else s.byte x := by
  unfold State.byte State.zeroRange cget
  simp only
  have := kget_filter s.mem (fun k => !(decide (a ≤ k) && decide (k < a + n))) x
  rw [this]
  by_cases h : a ≤ x ∧ x < a + n
  · simp [h, memDefault]
  · rw [if_neg h, if_pos]
    simp only [Bool.not_eq_true', Bool.and_eq_false_iff, decide_eq_false_iff_not]
    omega

end Sys2Proof.Machine
end

