-- ==== Sys2Proof/Laws/Steady.lean ====
section
/-! SUPPORT. Shared operations of the engines and the supervisor that leave every group's lanes where they are: requests, verdicts,
answers, shoot-downs and die records. -/

namespace Sys2Proof.Machine

/-- A calm change. -/
theorem Steady.ofCalm (gid : Nat) {s x : State} (h : Calm s x) : Steady gid s x := Steady.ofGroups gid h.groups

/-- Steady changes made one after another. -/
theorem Steady.fold {α : Type} {gid : Nat} {f : State → α → State} (hf : ∀ s a, Steady gid s (f s a)) (l : List α) (s : State) :
    Steady gid s (l.foldl f s) := by
  induction l generalizing s with
  | nil => exact Steady.refl _ _
  | cons a t ih => exact (hf s a).trans (ih _)

/-- A record in a die's fault ring (R344). -/
theorem Steady.dfrPut (gid : Nat) (s : State) (d v : Nat) : Steady gid s (s.dfrPut d v) := by
  unfold State.dfrPut
  exact (Steady.ofCalm gid (State.homePut_calm s _ _)).trans (Steady.ofGroups _ rfl)

theorem Steady.dieRecord (gid : Nat) (s : State) (d v : Nat) : Steady gid s (s.dieRecord d v) := by
  unfold State.dieRecord
  simp only
  split
  · exact Steady.dfrPut _ _ _ _
  · exact Steady.ofGroups _ rfl

/-- A request made (R344). -/
theorem Steady.postRequest (gid : Nat) (s : State) (id : Nat) (r : Request) : Steady gid s (s.postRequest id r) := by
  unfold State.postRequest
  simp only
  refine Steady.trans (t := { s with reqs := kset s.reqs id { r with ticket := some (s.freshTicket r.die s.reqs.length ((s.die r.die).nextTicket % 2 ^ 32)) } })
    (Steady.ofGroups _ rfl) ?_
  exact (Steady.dfrPut gid _ _ _).trans (Steady.ofGroups _ rfl)

theorem Steady.request (gid : Nat) (s : State) (r : Request) : Steady gid s (s.request r).2 := by
  unfold State.request State.fresh
  simp only
  split
  · exact Steady.trans (t := { s with serial := s.serial + 1 }) (Steady.ofGroups _ rfl) (Steady.postRequest _ _ _ _)
  · exact Steady.ofGroups _ rfl

theorem Steady.postWaiting (gid : Nat) (s : State) (d : Nat) : Steady gid s (s.postWaiting d) := by
  unfold State.postWaiting
  refine Steady.fold (fun s r => ?_) _ _
  split
  · exact Steady.postRequest _ _ _ _
  · exact Steady.refl _ _

/-- A word's result given (R40). -/
theorem Steady.answers (gid : Nat) (s : State) (k p : Nat) (vs : List Word) : Steady gid s (s.answers k p vs) := by
  unfold State.answers
  exact Steady.modGrp _ _ _ _ (fun y => ⟨rfl, rfl⟩)

/-- Shoot-downs (R365). -/
theorem Steady.shootTake (gid : Nat) (s : State) (id d : Nat) (dead : Bool) : Steady gid s (s.shootTake id d dead) := by
  unfold State.shootTake State.shootDone
  simp only
  split
  · exact Steady.ofGroups _ rfl
  · split
    · refine Steady.trans (t := ({ s with shoots := kdel (kmod s.shoots id (fun h =>
        { h with wait := h.wait.filter (fun x => decide (x ≠ d)), dead := if dead && h.wait.contains d then h.dead ++ [d] else h.dead })) id } : State))
        (Steady.ofGroups _ rfl) (Steady.answers _ _ _ _ _)
    · exact Steady.ofGroups _ rfl

theorem Steady.leaveUp (gid : Nat) (s : State) (d : Nat) : Steady gid s (s.leaveUp d) := by
  unfold State.leaveUp
  exact Steady.trans (t := s.modDie d (fun x => { x with posts := [], applying := false })) (Steady.ofGroups _ rfl)
    (Steady.fold (fun s h => Steady.shootTake _ _ _ _ _) _ _)

/-- A die reset asked for (R376). -/
theorem Steady.fmRequest (gid : Nat) (s : State) (v : Word) : Steady gid s (s.fmRequest v) := by
  unfold State.fmRequest
  simp only
  split
  · exact Steady.ofGroups _ rfl
  · split
    · split
      · exact Steady.ofGroups _ rfl
      · exact Steady.trans (t := State.leaveUp { s with free := s.free + 1 } (v.toNat % 32))
          (Steady.trans (t := { s with free := s.free + 1 }) (Steady.ofGroups _ rfl) (Steady.leaveUp _ _ _)) (Steady.ofGroups _ rfl)
    · exact Steady.ofGroups _ rfl
    · exact Steady.ofGroups _ rfl

/-- A system register written (R331). -/
theorem Steady.sysWrite (gid : Nat) (s : State) (k : Nat) (g : Group) (r : SysReg) (v : DWord) : Steady gid s (s.sysWrite k g r v) := by
  unfold State.sysWrite
  cases r
  all_goals first
    | exact Steady.modGrp _ _ _ _ (fun y => ⟨rfl, rfl⟩)
    | exact Steady.fmRequest _ _ _
    | exact Steady.trans (t := s.modDie (coreDie g.core) _) (Steady.ofGroups _ rfl) (Steady.postWaiting _ _ _)
    | exact Steady.ofGroups _ rfl

/-- A failed copy job (R242). -/
theorem Steady.jobFail (gid : Nat) (s : State) (id code : Nat) (va : DWord) : Steady gid s (s.jobFail id code va) := by
  unfold State.jobFail State.jobErr
  split
  · exact Steady.refl _ _
  · rename_i j _
    refine Steady.trans (t := State.modTile { s with jobs := kset s.jobs id { j with unsettled := [], parked := [], err := code, errVa := va, phase := .running } }
      j.tid j.tile (fun t => t.fail code va)) (Steady.ofGroups _ rfl) ?_
    exact Steady.fold (f := fun (s : State) (p : Nat × Bool) => s.modTile p.1 j.tile (fun t => t.fail code va)) (fun s p => Steady.ofGroups _ rfl) _ _

/-- The acquire actions (R193). -/
theorem Steady.acquireNow (gid : Nat) (s : State) (g : Group) (scope : Nat) : Steady gid s (s.acquireNow g scope) := by
  unfold State.acquireNow
  split
  · exact Steady.refl _ _
  · split
    · exact Steady.ofGroups _ rfl
    · unfold State.acquirePkg State.lazyTrigger
      simp only
      split <;> exact Steady.ofGroups _ rfl

/-- A verdict keeps its group's lanes where they are (R346). -/
theorem Group.sysDone_kept (g : Group) (v : DWord) : (g.sysDone v).vpc = g.vpc ∧ (g.sysDone v).helper = g.helper := by
  unfold Group.sysDone
  split <;> exact ⟨rfl, rfl⟩

theorem Group.served_kept (g : Group) : g.served.vpc = g.vpc ∧ g.served.helper = g.helper := by
  unfold Group.served
  split <;> exact ⟨rfl, rfl⟩

theorem Group.called_kept (g : Group) (ok : Bool) (v : DWord) :
    (if ok = true then g.sysDone v else g.sysTrap).vpc = g.vpc ∧ (if ok = true then g.sysDone v else g.sysTrap).helper = g.helper := by
  cases ok
  · exact ⟨rfl, rfl⟩
  · exact Group.sysDone_kept _ _

theorem Group.paged_kept (g : Group) (ok : Bool) (l : List LaneFault) :
    (if ok = true then g.served else g.unserved l).vpc = g.vpc ∧ (if ok = true then g.served else g.unserved l).helper = g.helper := by
  cases ok
  · exact ⟨rfl, rfl⟩
  · exact Group.served_kept _

theorem Group.fetched_kept (g : Group) (ok : Bool) (l : List LaneFault) :
    (if ok = true then { g with wait := .none } else g.fetchTrap l).vpc = g.vpc ∧ (if ok = true then { g with wait := .none } else g.fetchTrap l).helper = g.helper := by
  cases ok <;> exact ⟨rfl, rfl⟩

theorem Steady.verdict (gid : Nat) (s : State) (r : Request) (ok : Bool) (v : DWord) : Steady gid s (s.verdict r ok v) := by
  unfold State.verdict
  simp only
  split
  · split
    · refine Steady.trans (t := if ok = true then s.acquireNow (s.grpD _) 0 else s) ?_ (Steady.modGrp _ _ _ _ (fun y => Group.called_kept y ok v))
      split
      · exact Steady.acquireNow _ _ _ _
      · exact Steady.refl _ _
    · split
      · split
        · exact Steady.modGrp _ _ _ _ (fun y => Group.served_kept y)
        · exact Steady.refl _ _
      · refine Steady.trans (t := { s with reqs := kmap s.reqs (fun _ x => if x.orig = r.orig then { x with orig := .gone } else x) }) (Steady.ofGroups _ rfl) ?_
        exact Steady.modGrp _ _ _ _ (fun y => ⟨rfl, rfl⟩)
  · split
    · split <;> exact Steady.ofGroups _ rfl
    · split <;> exact Steady.ofGroups _ rfl
  · exact Steady.modGrp _ _ _ _ (fun y => Group.fetched_kept y ok r.lanes)
  · split
    · exact Steady.refl _ _
    · exact Steady.jobFail _ _ _ _ _
  · exact Steady.ofGroups _ rfl
  · exact Steady.ofGroups _ rfl
  · exact Steady.ofGroups _ rfl
  · exact Steady.modGrp _ _ _ _ (fun y => ⟨rfl, rfl⟩)
  · exact Steady.refl _ _

theorem Steady.queueDump (gid : Nat) (s : State) (d c r x : Nat) : Steady gid s (s.queueDump d c r x) := by
  unfold State.queueDump
  simp only
  split
  · exact Steady.ofGroups _ rfl
  · split
    · exact Steady.ofGroups _ rfl
    · exact Steady.trans (t := s.modDie d (fun x => { x with dloss := satInc x.dloss 0xFFFF })) (Steady.ofGroups _ rfl) (Steady.dieRecord _ _ _ _)

/-- TRET's answer (R346). -/
theorem Steady.tret (gid : Nat) (s : State) (die : Nat) (ticket : Word) (v : DWord) (verdict : Nat) : Steady gid s (s.tret die ticket v verdict).2 := by
  unfold State.tret
  split
  · exact Steady.refl _ _
  · split
    · exact Steady.refl _ _
    · simp only
      split
      · split
        · exact Steady.ofGroups _ rfl
        · unfold State.verdictFatal
          simp only
          split
          · refine Steady.trans (t := State.setCtxstat { s with reqs := kdel s.reqs _ } _ (bitFatal ||| bitHalted)) (Steady.ofGroups _ rfl) (Steady.queueDump _ _ _ _ _ _)
          · exact Steady.ofGroups _ rfl
      · exact Steady.trans (t := { s with reqs := kdel s.reqs _ }) (Steady.ofGroups _ rfl) (Steady.verdict _ _ _ _ _)

end Sys2Proof.Machine
end

