-- ==== Sys2Proof/Laws/Contexts.lean ====
section
/-! SUPPORT. What the saving and the discarding of a context's teams leave alone: a supervisor group keeps its lanes' places. -/

namespace Sys2Proof.Machine

/-- A change after which a supervisor group stands apart and where it stood. -/
def Spares (gid : Nat) (s x : State) : Prop := Apart gid s → Apart gid x ∧ Steady gid s x

theorem Spares.refl (gid : Nat) (s : State) : Spares gid s s := fun h => ⟨h, Steady.refl _ _⟩
theorem Spares.trans {gid : Nat} {s t u : State} (h : Spares gid s t) (k : Spares gid t u) : Spares gid s u :=
  fun a => ⟨(k (h a).1).1, (h a).2.trans (k (h a).1).2⟩
theorem Spares.fold {α : Type} {gid : Nat} {f : State → α → State} (hf : ∀ s a, Spares gid s (f s a)) (l : List α) (s : State) :
    Spares gid s (l.foldl f s) := by
  induction l generalizing s with
  | nil => exact Spares.refl _ _
  | cons a t ih => exact (hf s a).trans (ih _)
theorem Spares.foldMem {α : Type} {gid : Nat} {f : State → α → State} (l : List α) (s : State) (hf : ∀ a ∈ l, ∀ s, Spares gid s (f s a)) :
    Spares gid s (l.foldl f s) := by
  induction l generalizing s with
  | nil => exact Spares.refl _ _
  | cons a t ih => exact (hf a (List.mem_cons_self ..) s).trans (ih _ (fun b hb => hf b (List.mem_cons_of_mem _ hb)))

/-- A calm change that takes no operation into a sequencer. -/
theorem Spares.calm {gid : Nat} {s x : State} (h : Calm s x)
    (ho : (∀ k ∈ s.cclusters, ∀ o ∈ k.2.seqQ, o.gid ≠ gid) → ∀ k ∈ x.cclusters, ∀ o ∈ k.2.seqQ, o.gid ≠ gid) : Spares gid s x :=
  fun a => ⟨⟨by rw [h.groups]; exact a.groups, by rw [h.teams]; exact a.teams, by rw [h.lclusters]; exact a.mates, ho a.ops⟩, Steady.ofCalm _ h⟩
/-- A change of nothing a team has. -/
theorem Spares.same {gid : Nat} {s x : State} (h1 : x.groups = s.groups) (h2 : x.teams = s.teams) (h3 : x.lclusters = s.lclusters)
    (h4 : x.cclusters = s.cclusters) : Spares gid s x :=
  fun a => ⟨⟨by rw [h1]; exact a.groups, by rw [h2]; exact a.teams, by rw [h3]; exact a.mates, by rw [h4]; exact a.ops⟩, Steady.ofGroups _ h1⟩

theorem Spares.modCcl (gid : Nat) (s : State) (k : Nat) (f : CCluster → CCluster) (hf : ∀ c, ∀ o ∈ (f c).seqQ, o ∈ c.seqQ) :
    Spares gid s (s.modCcl k f) := by
  intro a
  refine ⟨⟨a.groups, a.teams, a.mates, ?_⟩, Steady.ofGroups _ rfl⟩
  intro q hq o ho
  rcases mem_kset hq with h | h
  · exact a.ops q h o ho
  · subst h
    have := hf _ o ho
    unfold State.ccl at this
    cases hk : kget s.cclusters k with
    | none => rw [hk] at this; simp [CCluster.reset] at this
    | some c =>
      rw [hk] at this
      have hm : ∀ l : List (Nat × CCluster), kget l k = some c → (k, c) ∈ l := by
        intro l
        induction l with
        | nil => intro h; simp [kget] at h
        | cons e t ih =>
          intro h
          unfold kget at h
          split at h
          · subst k; cases h; exact List.mem_cons_self ..
          · exact List.mem_cons_of_mem _ (ih h)
      exact a.ops _ (hm _ hk) o this

theorem Spares.modGrp (gid k : Nat) (s : State) (f : Group → Group) (hk : k ≠ gid ∨ ∀ y, (f y).vpc = y.vpc ∧ (f y).helper = y.helper)
    (ht : ∀ y, (f y).tid = y.tid) : Spares gid s (s.modGrp k f) := by
  intro a
  refine ⟨⟨?_, a.teams, a.mates, a.ops⟩, ?_⟩
  · intro q hq he
    unfold State.modGrp at hq
    simp only at hq
    split at hq
    · rename_i x hx
      rcases mem_kset hq with h | h
      · exact a.groups q h he
      · subst h
        simp only at he
        subst he
        have hm : ∀ l : List (Nat × Group), kget l k = some x → (k, x) ∈ l := by
          intro l
          induction l with
          | nil => intro h; simp [kget] at h
          | cons e t ih =>
            intro h
            unfold kget at h
            split at h
            · subst k; cases h; exact List.mem_cons_self ..
            · exact List.mem_cons_of_mem _ (ih h)
        exact (ht x).trans (a.groups _ (hm _ hx) rfl)
    · exact a.groups q hq he
  · rcases hk with h | h
    · intro y hy
      exact ⟨y, (State.grp_modGrp_ne s f (Ne.symm h)).trans hy, rfl, rfl⟩
    · exact Steady.modGrp _ _ _ _ h

theorem Spares.delGrp (gid k : Nat) (s : State) (hk : k ≠ gid) : Spares gid s (s.delGrp k) := by
  intro a
  refine ⟨⟨fun q hq => a.groups q (List.mem_filter.1 hq).1, a.teams, a.mates, a.ops⟩, ?_⟩
  intro y hy
  exact ⟨y, (kget_kdel_ne _ (Ne.symm hk)).trans hy, rfl, rfl⟩

theorem Spares.homePut (gid : Nat) (s : State) (a : Nat) (l : List Byte) : Spares gid s (s.homePut a l) := by
  refine Spares.trans (t := { s with mem := memPut s.mem a l, badWords := s.badWords.filter (fun w => !(decide (w < a + l.length) && decide (a < w + 8))) })
    (Spares.same rfl rfl rfl rfl) ?_
  refine Spares.fold (fun s w => ?_) _ _
  unfold State.evalWatch
  split
  · exact Spares.refl _ _
  · simp only
    split
    · exact Spares.same rfl rfl rfl rfl
    · exact Spares.refl _ _

theorem Spares.countReq (gid : Nat) (s : State) (w : Who) (ptr : DWord) (n : Nat) : Spares gid s (s.countReq w ptr n) := by
  unfold State.countReq; split
  · exact Spares.refl _ _
  · exact Spares.modCcl _ _ _ _ (fun c o ho => ho)

theorem Spares.writeL2 (gid : Nat) (s : State) (die ctx e flat : Nat) (b : List Byte) : Spares gid s (s.writeL2 die ctx e flat b) := by
  unfold State.writeL2; split
  · exact Spares.same rfl rfl rfl rfl
  · exact Spares.homePut _ _ _ _

theorem Spares.writeBackLine (gid : Nat) (s : State) (core vl : Nat) : Spares gid s (s.writeBackLine core vl) := by
  unfold State.writeBackLine
  split
  · exact Spares.refl _ _
  · simp only
    split
    · exact Spares.refl _ _
    · unfold State.writeL2Bytes
      refine Spares.trans ?_ (Spares.fold (fun s x => Spares.writeL2 _ s _ _ _ _ _) _ _)
      exact Spares.trans (t := s.modCore core _) (Spares.same rfl rfl rfl rfl) (Spares.countReq _ _ _ _ _)

theorem Spares.writeBackL1 (gid : Nat) (s : State) (core : Nat) : Spares gid s (s.writeBackL1 core) :=
  Spares.fold (fun s v => Spares.writeBackLine _ s _ v) _ _

theorem Spares.flushL2Line (gid : Nat) (s : State) (die line : Nat) : Spares gid s (s.flushL2Line die line) := by
  unfold State.flushL2Line
  split
  · exact Spares.refl _ _
  · exact Spares.trans (t := s.modDie die _) (Spares.same rfl rfl rfl rfl) (Spares.fold (fun s b => Spares.homePut _ s _ _) _ _)

theorem Spares.flushContext (gid : Nat) (s : State) (ctx : Nat) : Spares gid s (s.flushContext ctx) := by
  unfold State.flushContext
  exact (Spares.fold (fun s c => Spares.writeBackL1 _ _ _) _ _).trans (Spares.fold (fun s d => Spares.fold (fun s l => Spares.flushL2Line _ _ _ _) _ _) _ _)

theorem State.homeOf_same (s : State) (c : Nat) (p : DWord) (n : Need) : (s.homeOf c p n).2.groups = s.groups ∧ (s.homeOf c p n).2.teams = s.teams ∧
    (s.homeOf c p n).2.lclusters = s.lclusters ∧ (s.homeOf c p n).2.cclusters = s.cclusters := by
  have hx : (s.xlateCtx c p n).2.groups = s.groups ∧ (s.xlateCtx c p n).2.teams = s.teams ∧ (s.xlateCtx c p n).2.lclusters = s.lclusters ∧
      (s.xlateCtx c p n).2.cclusters = s.cclusters := by
    unfold State.xlateCtx State.touchDies
    simp only
    split
    · exact ⟨rfl, rfl, rfl, rfl⟩
    · split
      · split
        · split <;> exact ⟨rfl, rfl, rfl, rfl⟩
        · exact ⟨rfl, rfl, rfl, rfl⟩
      · exact ⟨rfl, rfl, rfl, rfl⟩
  unfold State.homeOf
  split
  · rename_i h; rw [h] at hx
    split <;> exact hx
  · rename_i h; rw [h] at hx; exact hx

theorem Spares.putCounts (gid : Nat) (s : State) (a : Nat) (l : List (Nat × Nat)) :
    Spares gid s (l.foldl (fun s c => s.homePut (a + 8 * c.1) (toBytes 8 ((s.num (a + 8 * c.1) 8 + c.2) % 2 ^ 64))) s) :=
  Spares.fold (fun s c => Spares.homePut _ s _ _) _ _

theorem Spares.foldContext (gid : Nat) (s : State) (ctx : Nat) (l : List (Nat × Nat)) : Spares gid s (s.foldContext ctx l) := by
  have hx : Spares gid s (s.splitTable ctx needW).2 := by
    unfold State.splitTable
    simp only
    split
    · obtain ⟨h1, h2, h3, h4⟩ := State.homeOf_same s ctx (ptrOff (s.ctxD ctx).frbase ((320 * 2 ^ (s.ctxD ctx).sizel : Nat) : Int)) needW
      exact Spares.same h1 h2 h3 h4
    · exact Spares.refl _ _
  unfold State.foldContext
  split
  · rename_i h; rw [h] at hx; exact hx.trans (Spares.same rfl rfl rfl rfl)
  · rename_i a u h; rw [h] at hx
    refine hx.trans ?_
    simp only
    exact Spares.trans ((Spares.putCounts gid _ a _).trans ((Spares.homePut _ _ _ _).trans (Spares.homePut _ _ _ _))) (Spares.same rfl rfl rfl rfl)

theorem Spares.foldCore (gid : Nat) (s : State) (core : Nat) : Spares gid s (s.foldCore core) := by
  unfold State.foldCore
  simp only
  refine Spares.trans (t := s.settleCore core) (Spares.same rfl rfl rfl rfl) (Spares.trans (Spares.fold (fun s p => ?_) _ _) (Spares.same rfl rfl rfl rfl))
  unfold State.foldPort
  simp only
  split
  · exact Spares.same rfl rfl rfl rfl
  · exact Spares.foldContext _ _ _ _

theorem Spares.lazyTrigger (gid : Nat) (s : State) (d c : Nat) : Spares gid s (s.lazyTrigger d c) := by
  unfold State.lazyTrigger
  simp only
  split
  · exact Spares.same rfl rfl rfl rfl
  · exact Spares.refl _ _

/-- A change of owner (R22). -/
theorem Spares.passCore (gid : Nat) (s : State) (core next : Nat) : Spares gid s (s.passCore core next) := by
  unfold State.passCore
  extract_lets old s1 s2 k s3 s4 s5 s6
  have h1 : Spares gid s s1 := Spares.foldCore _ _ _
  have h2 : Spares gid s1 s2 := Spares.same rfl rfl rfl rfl
  have h3 : Spares gid s2 s3 := by
    show Spares gid s2 (if _ then s2 else _)
    split
    · exact Spares.refl _ _
    · exact Spares.modCcl _ _ _ _ (fun c o ho => ho)
  have h4 : Spares gid s3 s4 := Spares.writeBackL1 _ _ _
  have h5 : Spares gid s4 s5 := by
    show Spares gid s4 (if _ then _ else s4)
    split
    · exact Spares.modCcl _ _ _ _ (fun c o ho => ho)
    · exact Spares.refl _ _
  have h6 : Spares gid s5 s6 := Spares.same rfl rfl rfl rfl
  have h7 : Spares gid s6 (s6.loadBounds core next) := Spares.same rfl rfl rfl rfl
  exact h1.trans (h2.trans (h3.trans (h4.trans (h5.trans (h6.trans (h7.trans ((Spares.lazyTrigger _ _ _ _).trans (Spares.lazyTrigger _ _ _ _))))))))

theorem Spares.watchDrop (gid : Nat) (s : State) (k : Nat) : Spares gid s (s.watchDrop k) := by
  unfold State.watchDrop
  exact Spares.trans (t := { s with dies := kmap s.dies (fun _ d => { d with watches := d.watches.filter (fun w => decide (w.2.waiter ≠ Waiter.group k)) }) })
    (Spares.same rfl rfl rfl rfl) (Spares.modGrp _ _ _ _ (Or.inr (fun y => ⟨rfl, rfl⟩)) (fun y => rfl))

theorem Spares.killGroup (gid : Nat) (s : State) (k : Nat) (hk : k ≠ gid) : Spares gid s (s.killGroup k) := by
  unfold State.killGroup
  extract_lets s1 g s2 s3
  have h1 : Spares gid s s1 := Spares.watchDrop _ _ _
  have h2 : Spares gid s1 s2 := Spares.same rfl rfl rfl rfl
  have h3 : Spares gid s2 s3 := Spares.same rfl rfl rfl rfl
  exact h1.trans (h2.trans (h3.trans (Spares.delGrp _ _ _ hk)))

theorem Spares.leaveCluster (gid : Nat) (s : State) (tid : Nat) : Spares gid s (s.leaveCluster tid) := by
  unfold State.leaveCluster
  simp only
  split
  · exact Spares.refl _ _
  · rename_i c hc
    have hm : ∀ l : List (Nat × LCluster), kget l (s.teamD tid).cluster = some c → ((s.teamD tid).cluster, c) ∈ l := by
      intro l
      induction l with
      | nil => intro h; simp [kget] at h
      | cons e t ih =>
        intro h
        unfold kget at h
        split at h
        · rename_i he; cases h; rw [← he]; exact List.mem_cons_self ..
        · exact List.mem_cons_of_mem _ (ih h)
    intro a
    refine ⟨⟨a.groups, a.teams, ?_, a.ops⟩, Steady.ofGroups _ rfl⟩
    intro q hq x hx
    simp only at hq
    split at hq
    · exact a.mates q (List.mem_filter.1 hq).1 x hx
    · rcases mem_kset hq with h | h
      · exact a.mates q h x hx
      · subst h
        exact a.mates _ (hm _ hc) x (List.mem_filter.1 hx).1

theorem Spares.freeTeam (gid : Nat) (s : State) (tid : Nat) : Spares gid s (s.freeTeam tid) := by
  unfold State.freeTeam
  extract_lets t s1
  have h1 : Spares gid s s1 := Spares.trans (Spares.leaveCluster _ _ _) (Spares.same rfl rfl rfl rfl)
  exact h1.trans (fun a => ⟨⟨a.groups, fun t ht => a.teams t (List.mem_filter.1 ht).1, a.mates, a.ops⟩, Steady.ofGroups _ rfl⟩)

/-- A team that is not the supervisor group's is discarded (R329). -/
theorem Spares.discardTeam (gid : Nat) (s : State) (tid : Nat) (ht : tid ≠ 0) : Spares gid s (s.discardTeam tid) := by
  intro a
  refine (?_ : Spares gid s (s.discardTeam tid)) a
  unfold State.discardTeam
  extract_lets t s1 s2 s3 gone s4 s5
  have h1 : Spares gid s s1 := by
    refine Spares.foldMem _ _ (fun q hq s' => Spares.killGroup _ _ _ ?_)
    intro he
    obtain ⟨h1, h2⟩ := List.mem_filter.1 hq
    have h3 := a.groups q h1 he
    simp only [decide_eq_true_eq] at h2
    exact ht (h2.symm.trans h3)
  have h2 : Spares gid s1 s2 := Spares.modCcl _ _ _ _ (fun c o ho => (List.mem_filter.1 ho).1)
  have h3 : Spares gid s2 s3 := Spares.same rfl rfl rfl rfl
  have h4 : Spares gid s3 s4 := Spares.same rfl rfl rfl rfl
  have h5 : Spares gid s4 s5 := Spares.same rfl rfl rfl rfl
  exact h1.trans (h2.trans (h3.trans (h4.trans (h5.trans (Spares.freeTeam _ _ _)))))

theorem Spares.launchDone (gid : Nat) (s : State) (q n : Nat) : Spares gid s (s.launchDone q n) := by
  unfold State.launchDone
  split <;> exact Spares.same rfl rfl rfl rfl

theorem Spares.modTeam (gid : Nat) (s : State) (t : Nat) (f : Team → Team) : Spares gid s (s.modTeam t f) := by
  intro a
  refine ⟨⟨a.groups, ?_, a.mates, a.ops⟩, Steady.ofGroups _ rfl⟩
  intro q hq
  obtain ⟨u, hu, he⟩ := List.mem_map.1 (show q ∈ s.teams.map (fun e => if e.1 = t then (e.1, f e.2) else e) from hq)
  have := a.teams u hu
  subst he
  split <;> exact this

theorem Spares.discardNode (gid : Nat) (s : State) (ctx n : Nat) : Spares gid s (s.discardNode ctx n) := by
  unfold State.discardNode
  extract_lets x s1 s2
  have h1 : Spares gid s s1 := Spares.same rfl rfl rfl rfl
  have h2 : Spares gid s1 s2 := by
    show Spares gid s1 (match _ with | some (q, l) => s1.launchDone q l | none => s1)
    split
    · exact Spares.launchDone _ _ _ _
    · exact Spares.refl _ _
  refine h1.trans (h2.trans (Spares.fold (fun s t => ?_) _ _))
  split
  · exact Spares.freeTeam _ _ _
  · exact Spares.modTeam _ _ _ _

theorem Spares.signalDone (gid : Nat) (s : State) (id : Nat) (x : Signal) : Spares gid s (s.signalDone id x) := by
  unfold State.signalDone
  extract_lets s1
  have h1 : Spares gid s s1 := Spares.same rfl rfl rfl rfl
  split
  · exact h1.trans (Spares.launchDone _ _ _ _)
  · exact h1

/-- The work of a context is discarded (R329). -/
theorem Spares.discardWork (gid : Nat) (s : State) (ctx : Nat) (own : Nat → Bool) : Spares gid s (s.discardWork ctx own) := by
  intro a
  refine (?_ : Spares gid s (s.discardWork ctx own)) a
  unfold State.discardWork State.reblock
  extract_lets s1 s2 s3 s4 s5 s6 s7
  have h1 : Spares gid s s1 := Spares.foldMem _ _ (fun t ht s' => Spares.discardTeam _ _ _ (a.teams t (List.mem_filter.1 ht).1))
  clear_value s1
  have h2 : Spares gid s1 s2 := Spares.fold (fun s n => Spares.discardNode _ _ _ _) _ _
  clear_value s2
  have h3 : Spares gid s2 s3 := 
    Spares.fold (f := fun (s : State) (g : Nat × Grid) => (s.launchDone g.2.source g.1).modFe (fun e => { e with grids := kdel e.grids g.1 }))
      (fun s g => Spares.trans (t := s.launchDone g.2.source g.1) (Spares.launchDone _ _ _ _) (Spares.same rfl rfl rfl rfl)) _ _
  clear_value s3
  have h4 : Spares gid s3 s4 := Spares.same rfl rfl rfl rfl
  clear_value s4
  have h5 : Spares gid s4 s5 := Spares.fold (fun s x => Spares.signalDone _ _ _ _) _ _
  clear_value s5
  have h6 : Spares gid s5 s6 := Spares.same rfl rfl rfl rfl
  clear_value s6
  exact h1.trans (h2.trans (h3.trans (h4.trans (h5.trans (h6.trans (Spares.same rfl rfl rfl rfl))))))

theorem Spares.ccbBack (gid : Nat) (s : State) (ctx : Nat) : Spares gid s (s.ccbBack ctx) := by
  unfold State.ccbBack
  split
  · exact Spares.homePut _ _ _ _
  · exact Spares.refl _ _

theorem Spares.answers (gid : Nat) (s : State) (k p : Nat) (vs : List Word) : Spares gid s (s.answers k p vs) := by
  unfold State.answers
  exact Spares.modGrp _ _ _ _ (Or.inr (fun y => ⟨rfl, rfl⟩)) (fun y => rfl)

theorem Spares.dropContext (gid : Nat) (s : State) (ctx : Nat) : Spares gid s (s.dropContext ctx) := by
  unfold State.dropContext
  intro a
  refine ⟨⟨a.groups, a.teams, a.mates, ?_⟩, Steady.ofGroups _ rfl⟩
  intro q hq o ho
  obtain ⟨u, hu, he⟩ := List.mem_map.1 (show q ∈ s.cclusters.map (fun e => (e.1, _)) from hq)
  subst he
  exact a.ops u hu o (List.mem_filter.1 ho).1

theorem Spares.orphanOps (gid : Nat) (s : State) (ctx : Nat) : Spares gid s (s.orphanOps ctx) := by
  unfold State.orphanOps
  extract_lets ops s1 s2
  have h1 : Spares gid s s1 := Spares.fold (f := fun (s : State) (o : Nat × SupOp) => s.answers o.2.gid o.2.pend [2, 0, 0, 0]) (fun s o => Spares.answers _ _ _ _ _) _ _
  have h2 : Spares gid s1 s2 := Spares.same rfl rfl rfl rfl
  refine h1.trans (h2.trans ?_)
  split
  · split
    · rename_i d _ _
      exact Spares.trans (t := { s2 with dry := none }) (Spares.same rfl rfl rfl rfl) (Spares.answers _ _ _ _ _)
    · exact Spares.refl _ _
  · exact Spares.refl _ _

/-- CTXSAVE DESTROY (R349) leaves a supervisor group where it is. -/
theorem Spares.destroy (gid : Nat) (s : State) (ctx : Nat) : Spares gid s (s.destroy ctx) := by
  unfold State.destroy
  extract_lets mine s1 s2 s3 s4
  have h1 : Spares gid s s1 := (Spares.flushContext _ _ _).trans (Spares.discardWork _ _ _ _)
  clear_value s1
  have h2 : Spares gid s1 s2 := Spares.trans (t := s1.turnAway ctx) (Spares.same rfl rfl rfl rfl) (Spares.dropContext _ _ _)
  clear_value s2
  have h3 : Spares gid s2 s3 := Spares.fold (fun s c => Spares.passCore _ _ _ _) _ _
  clear_value s3
  have h4 : Spares gid s3 s4 := Spares.trans (t := s3.retireAccount ctx) (Spares.same rfl rfl rfl rfl) (Spares.ccbBack _ _ _)
  clear_value s4
  have h5 : Spares gid s4 (({ s4 with ctxs := kdel s4.ctxs ctx }).modFe (fun e => { e with ctxs := kdel e.ctxs ctx })) := Spares.same rfl rfl rfl rfl
  exact h1.trans (h2.trans (h3.trans (h4.trans (h5.trans (Spares.orphanOps _ _ _)))))

/-- The sequencer operations of teams that are to be saved are abandoned (R307). -/
theorem Spares.abandonOps (gid : Nat) (s : State) (tids : List Nat) : Spares gid s (s.abandonOps tids) := by
  intro a
  refine (?_ : Spares gid s (s.abandonOps tids)) a
  unfold State.abandonOps
  extract_lets ops s1
  have h1 : Spares gid s s1 := by
    refine Spares.foldMem _ _ (fun o ho s' => Spares.modGrp _ _ _ _ (Or.inl ?_) (fun y => rfl))
    obtain ⟨k, hk, h2⟩ := List.mem_flatMap.1 (List.mem_reverse.1 ho)
    exact a.ops k hk o (List.mem_filter.1 h2).1
  refine h1.trans (fun b => ⟨⟨b.groups, b.teams, b.mates, ?_⟩, Steady.ofGroups _ rfl⟩)
  intro q hq o ho
  obtain ⟨u, hu, he⟩ := List.mem_map.1 hq
  subst he
  exact b.ops u hu o (List.mem_filter.1 ho).1

/-- A team that is not the supervisor group's begins its save (R351). -/
theorem Spares.saveOne (gid : Nat) (s : State) (t : Nat) (f : Team → Team) (ht : t ≠ 0) : Spares gid s (let s := (s.abandonOps [t]).modTeam t f
    (s.groups.filter (fun g => decide (g.2.tid = t))).foldl (fun s g =>
      let s := match g.2.wait with
        | .watch _ _ => (s.watchDrop g.1).modGrp g.1 Group.unwait
        | _ => s
      s.modGrp g.1 (fun g => { g with touches := [] })) s) := by
  refine Spares.trans ((Spares.abandonOps _ s [t]).trans (Spares.modTeam _ _ t f)) ?_
  intro a
  refine Spares.foldMem _ _ (fun q hq s' => ?_) a
  have hne : q.1 ≠ gid := by
    intro he
    obtain ⟨h1, h2⟩ := List.mem_filter.1 hq
    have h3 := a.groups q h1 he
    simp only [decide_eq_true_eq] at h2
    exact ht (h2.symm.trans h3)
  refine Spares.trans ?_ (Spares.modGrp _ _ _ _ (Or.inl hne) (fun y => rfl))
  split
  · exact (Spares.watchDrop _ _ _).trans (Spares.modGrp _ _ _ _ (Or.inl hne) (fun y => rfl))
  · exact Spares.refl _ _

theorem State.savedWith_ne {gid : Nat} {s : State} (a : Apart gid s) {tid : Nat} (ht : tid ≠ 0) : ∀ t ∈ s.savedWith tid, t ≠ 0 := by
  have hmates : ∀ t ∈ ((kget s.lclusters (s.teamD tid).cluster).map (fun k => k.teams.map (fun x => x.2))).getD [tid], t ≠ 0 := by
    intro t h
    cases hk : kget s.lclusters (s.teamD tid).cluster with
    | none => rw [hk] at h; simp at h; subst h; exact ht
    | some c =>
      rw [hk] at h
      simp only [Option.map_some, Option.getD_some] at h
      obtain ⟨x, hx, he⟩ := List.mem_map.1 h
      subst he
      have hm : ∀ l : List (Nat × LCluster), kget l (s.teamD tid).cluster = some c → ((s.teamD tid).cluster, c) ∈ l := by
        intro l
        induction l with
        | nil => intro h; simp [kget] at h
        | cons e t ih =>
          intro h
          unfold kget at h
          split at h
          · rename_i he; cases h; rw [← he]; exact List.mem_cons_self ..
          · exact List.mem_cons_of_mem _ (ih h)
      exact a.mates _ (hm _ hk) x hx
  intro t h
  unfold State.savedWith at h
  simp only at h
  split at h
  · rcases List.mem_append.1 h with h | h
    · obtain ⟨x, hx, he⟩ := List.mem_map.1 h
      subst he
      exact a.teams x (List.mem_filter.1 hx).1
    · exact hmates t (List.mem_filter.1 h).1
  · exact hmates t h

theorem Spares.beginSave (gid : Nat) (s : State) (tid : Nat) (ht : tid ≠ 0) : Spares gid s (s.beginSave tid) := by
  intro a
  refine (?_ : Spares gid s (s.beginSave tid)) a
  unfold State.beginSave
  exact Spares.foldMem _ _ (fun t h s' => Spares.saveOne _ _ _ _ (State.savedWith_ne a ht t h))

theorem Spares.vacate (gid : Nat) (s : State) (core : Nat) : Spares gid s (s.vacate core) := by
  intro a
  refine (?_ : Spares gid s (s.vacate core)) a
  unfold State.vacate
  simp only
  refine Spares.foldMem _ _ (fun t h s' => ?_)
  obtain ⟨c, -, h⟩ := List.mem_flatMap.1 h
  obtain ⟨x, hx, he⟩ := List.mem_map.1 h
  subst he
  split
  · exact Spares.refl _ _
  · exact Spares.beginSave _ _ _ (a.teams x (List.mem_filter.1 hx).1)

/-- A core begins its change of owner (R22). -/
theorem Spares.beginChange (gid : Nat) (s : State) (core : Nat) : Spares gid s (s.beginChange core) := by
  unfold State.beginChange
  split
  · exact Spares.refl _ _
  · exact Spares.trans (t := (s.settleCore core).modCore core _) (Spares.same rfl rfl rfl rfl) (Spares.vacate _ _ _)

/-- Cores taken from a context (R328). -/
theorem Spares.take (gid : Nat) (s : State) (ctx : Nat) (cs : List Nat) : Spares gid s (s.take ctx cs) :=
  (Spares.fold (f := fun (s : State) c => s.withhold ctx c) (fun s c => Spares.same rfl rfl rfl rfl) _ _).trans (Spares.fold (fun s c => Spares.beginChange _ _ _) _ _)

/-- CTXSAVE EVICT (R349). -/
theorem Spares.evict (gid : Nat) (s : State) (ctx : Nat) : Spares gid s (s.evict ctx) := by
  unfold State.evict
  extract_lets mine s1
  have h1 : Spares gid s s1 := Spares.trans (t := s.turnAway ctx) (Spares.same rfl rfl rfl rfl) (Spares.fold (f := fun (s : State) c => s.withhold ctx c) (fun s c => Spares.same rfl rfl rfl rfl) _ _)
  exact h1.trans (Spares.fold (fun s c => Spares.beginChange _ _ _) _ _)

end Sys2Proof.Machine
end

