-- ==== Sys2Proof/Laws/Encode.lean ====
section
/-! SUPPORT. Decoding a word that `encode` wrote: each field, each format and each code is read back
(R28–R35). -/

namespace Sys2Proof.Laws

open Machine

theorem b2n_lt (b : Bool) : b2n b < 2 := by cases b <;> decide
theorem b2n_rt (b : Bool) : decide (b2n b = 1) = b := by cases b <;> rfl
theorem fin_rt (k : Nat) (h : 0 < k) (n : Fin k) : finOf k h n.val = some n := by
  unfold finOf
  rw [if_pos n.isLt]
  exact congrArg some (Fin.ext (Nat.mod_eq_of_lt n.isLt))
theorem bv_rt {k : Nat} (v : BitVec k) : BitVec.ofNat k v.toNat = v := BitVec.ofNat_toNat k v ▸ BitVec.setWidth_eq v
theorem opnd_lt (o : Opnd) : opndC o < 1024 := by
  cases o with
  | v n => have := n.isLt; simp only [opndC]; omega
  | s n => have := n.isLt; simp only [opndC]; omega
  | imm i => have := i.isLt; simp only [opndC]; omega
  | zero => decide
  | lane => decide
  | qlane => decide
theorem opnd_rt (o : Opnd) : opndOf (opndC o) = some o := by
  cases o with
  | v n =>
    unfold opndOf opndC
    rw [if_pos n.isLt]
    exact congrArg (fun k => some (Opnd.v k)) (Fin.ext (Nat.mod_eq_of_lt n.isLt))
  | s n =>
    have := n.isLt
    unfold opndOf opndC
    simp only
    rw [if_neg (by omega), if_pos (by omega)]
    refine congrArg (fun k => some (Opnd.s k)) (Fin.ext ?_)
    show (256 + n.val - 256) % 384 = n.val
    omega
  | imm i =>
    have := i.isLt
    unfold opndOf opndC
    simp only
    rw [if_neg (by omega), if_neg (by omega), if_neg (by omega), if_neg (by omega), if_neg (by omega), if_neg (by omega), if_pos (by omega), Nat.add_sub_cancel_left]
    exact congrArg (fun k => some (Opnd.imm k)) (bv_rt i)
  | zero => rfl
  | lane => rfl
  | qlane => rfl
theorem pcode_lt (p : PCode) : pcodeC p < 16 := by
  cases p with
  | p n => have := n.isLt; simp only [pcodeC]; omega
  | q n => have := n.isLt; simp only [pcodeC]; omega
theorem pcode_rt (p : PCode) : pcodeOf (pcodeC p) = some p := by
  cases p with
  | p n =>
    unfold pcodeOf pcodeC
    rw [if_pos n.isLt]
    exact congrArg (fun k => some (PCode.p k)) (Fin.ext (Nat.mod_eq_of_lt n.isLt))
  | q n =>
    have := n.isLt
    unfold pcodeOf pcodeC
    simp only
    rw [if_neg (by omega), if_pos (by omega)]
    refine congrArg (fun k => some (PCode.q k)) (Fin.ext ?_)
    show (8 + n.val - 8) % 8 = n.val
    omega
theorem aop_lt (m : AOp) : aopC m < 11 := by cases m <;> decide
theorem aop_rt (m : AOp) : aopOf (aopC m) = some m := by cases m <;> rfl
theorem aord_lt (m : AOrd) : aordC m < 5 := by cases m <;> decide
theorem aord_rt (m : AOrd) : aordOf (aordC m) = some m := by cases m <;> rfl
theorem barcls_lt (m : BarCls) : barclsC m < 2 := by cases m <;> decide
theorem barcls_rt (m : BarCls) : barclsOf (barclsC m) = some m := by cases m <;> rfl
theorem comb_lt (m : Comb) : combC m < 4 := by cases m <;> decide
theorem comb_rt (m : Comb) : combOf (combC m) = some m := by cases m <;> rfl
theorem faop_lt (m : FAOp) : faopC m < 5 := by cases m <;> decide
theorem faop_rt (m : FAOp) : faopOf (faopC m) = some m := by cases m <;> rfl
theorem fcond_lt (m : FCond) : fcondC m < 14 := by cases m <;> decide
theorem fcond_rt (m : FCond) : fcondOf (fcondC m) = some m := by cases m <;> rfl
theorem ford_lt (m : FOrd) : fordC m < 4 := by cases m <;> decide
theorem ford_rt (m : FOrd) : fordOf (fordC m) = some m := by cases m <;> rfl
theorem frages_lt (m : FragEs) : fragesC m < 4 := by cases m <;> decide
theorem frages_rt (m : FragEs) : fragesOf (fragesC m) = some m := by cases m <;> rfl
theorem fragkind_lt (m : FragKind) : fragkindC m < 3 := by cases m <;> decide
theorem fragkind_rt (m : FragKind) : fragkindOf (fragkindC m) = some m := by cases m <;> rfl
theorem fredop_lt (m : FRedOp) : fredopC m < 3 := by cases m <;> decide
theorem fredop_rt (m : FRedOp) : fredopOf (fredopC m) = some m := by cases m <;> rfl
theorem fxmode_lt (m : FxMode) : fxmodeC m < 3 := by cases m <;> decide
theorem fxmode_rt (m : FxMode) : fxmodeOf (fxmodeC m) = some m := by cases m <;> rfl
theorem halfop_lt (m : HalfOp) : halfopC m < 24 := by cases m <;> decide
theorem halfop_rt (m : HalfOp) : halfopOf (halfopC m) = some m := by cases m <;> rfl
theorem icond_lt (m : ICond) : icondC m < 10 := by cases m <;> decide
theorem icond_rt (m : ICond) : icondOf (icondC m) = some m := by cases m <;> rfl
theorem leaForm_lt (m : LeaForm) : leaFormC m < 3 := by cases m <;> decide
theorem leaForm_rt (m : LeaForm) : leaFormOf (leaFormC m) = some m := by cases m <;> rfl
theorem maskKind_lt (m : MaskKind) : maskKindC m < 3 := by cases m <;> decide
theorem maskKind_rt (m : MaskKind) : maskKindOf (maskKindC m) = some m := by cases m <;> rfl
theorem mmaty_lt (m : MmaTy) : mmatyC m < 14 := by cases m <;> decide
theorem mmaty_rt (m : MmaTy) : mmatyOf (mmatyC m) = some m := by cases m <;> rfl
theorem msize_lt (m : MSize) : msizeC m < 5 := by cases m <;> decide
theorem msize_rt (m : MSize) : msizeOf (msizeC m) = some m := by cases m <;> rfl
theorem numty_lt (m : NumTy) : numtyC m < 18 := by cases m <;> decide
theorem numty_rt (m : NumTy) : numtyOf (numtyC m) = some m := by cases m <;> rfl
theorem plvl_lt (m : PLvl) : plvlC m < 3 := by cases m <;> decide
theorem plvl_rt (m : PLvl) : plvlOf (plvlC m) = some m := by cases m <;> rfl
theorem pol_lt (m : Pol) : polC m < 3 := by cases m <;> decide
theorem pol_rt (m : Pol) : polOf (polC m) = some m := by cases m <;> rfl
theorem qmode_lt (m : QMode) : qmodeC m < 7 := by cases m <;> decide
theorem qmode_rt (m : QMode) : qmodeOf (qmodeC m) = some m := by cases m <;> rfl
theorem recsize_lt (m : RecSize) : recsizeC m < 3 := by cases m <;> decide
theorem recsize_rt (m : RecSize) : recsizeOf (recsizeC m) = some m := by cases m <;> rfl
theorem redop_lt (m : RedOp) : redopC m < 8 := by cases m <;> decide
theorem redop_rt (m : RedOp) : redopOf (redopC m) = some m := by cases m <;> rfl
theorem rnd_lt (m : Rnd) : rndC m < 4 := by cases m <;> decide
theorem rnd_rt (m : Rnd) : rndOf (rndC m) = some m := by cases m <;> rfl
theorem rnde_lt (m : RndE) : rndeC m < 5 := by cases m <;> decide
theorem rnde_rt (m : RndE) : rndeOf (rndeC m) = some m := by cases m <;> rfl
theorem sat_lt (m : Sat) : satC m < 3 := by cases m <;> decide
theorem sat_rt (m : Sat) : satOf (satC m) = some m := by cases m <;> rfl
theorem scope_lt (m : Scope) : scopeC m < 6 := by cases m <;> decide
theorem scope_rt (m : Scope) : scopeOf (scopeC m) = some m := by cases m <;> rfl
theorem shmode_lt (m : ShMode) : shmodeC m < 4 := by cases m <;> decide
theorem shmode_rt (m : ShMode) : shmodeOf (shmodeC m) = some m := by cases m <;> rfl
theorem space_lt (m : Space) : spaceC m < 5 := by cases m <;> decide
theorem space_rt (m : Space) : spaceOf (spaceC m) = some m := by cases m <;> rfl
theorem splitform_lt (m : SplitForm) : splitformC m < 3 := by cases m <;> decide
theorem splitform_rt (m : SplitForm) : splitformOf (splitformC m) = some m := by cases m <;> rfl
theorem stkSize_lt (m : StkSize) : stkSizeC m < 3 := by cases m <;> decide
theorem stkSize_rt (m : StkSize) : stkSizeOf (stkSizeC m) = some m := by cases m <;> rfl
theorem vmode_lt (m : VMode) : vmodeC m < 3 := by cases m <;> decide
theorem vmode_rt (m : VMode) : vmodeOf (vmodeC m) = some m := by cases m <;> rfl
theorem wcond_lt (m : WCond) : wcondC m < 4 := by cases m <;> decide
theorem wcond_rt (m : WCond) : wcondOf (wcondC m) = some m := by cases m <;> rfl
theorem pcomb_lt (k : PComb) : pcombC k < 64 := by
  have := comb_lt k.comb
  have := b2n_lt k.cn
  have := k.ci.isLt
  unfold pcombC; omega
theorem pcomb_rt (k : PComb) : pcombOf (pcombC k) = some k := by
  have := comb_lt k.comb
  have := b2n_lt k.cn
  have e1 : (combC k.comb + 4 * b2n k.cn + 8 * k.ci.val) % 4 = combC k.comb := by omega
  have e2 : (combC k.comb + 4 * b2n k.cn + 8 * k.ci.val) / 8 = k.ci.val := by omega
  have e3 : (combC k.comb + 4 * b2n k.cn + 8 * k.ci.val) / 4 % 2 = b2n k.cn := by omega
  simp only [pcombOf, pcombC, e1, e2, e3, comb_rt, fin_rt, b2n_rt, Option.bind_eq_bind, Option.bind_some, Option.pure_def]
theorem fmods_lt (m : FMods) : fmodsC m < 16 := by
  have := b2n_lt m.nega; have := b2n_lt m.negb; have := b2n_lt m.absa; have := b2n_lt m.absb
  unfold fmodsC; omega
theorem fmods_rt (m : FMods) : fmodsOf (fmodsC m) = some m := by
  obtain ⟨a, b, c, d⟩ := m
  cases a <;> cases b <;> cases c <;> cases d <;> rfl
theorem memmod_lt (m : MemMod) : memmodC m < 16384 := by
  have := pol_lt m.pol; have := b2n_lt m.sx; have := msize_lt m.sz; have := space_lt m.sp
  unfold memmodC; omega
theorem memmod_rt (m : MemMod) : memmodOf (memmodC m) = some m := by
  have := pol_lt m.pol; have := b2n_lt m.sx; have := msize_lt m.sz; have := space_lt m.sp
  have e1 : (32 * polC m.pol + 128 * b2n m.sx + 256 * msizeC m.sz + 2048 * spaceC m.sp) / 2048 = spaceC m.sp := by omega
  have e2 : (32 * polC m.pol + 128 * b2n m.sx + 256 * msizeC m.sz + 2048 * spaceC m.sp) / 256 % 8 = msizeC m.sz := by omega
  have e3 : (32 * polC m.pol + 128 * b2n m.sx + 256 * msizeC m.sz + 2048 * spaceC m.sp) / 32 % 4 = polC m.pol := by omega
  have e4 : (32 * polC m.pol + 128 * b2n m.sx + 256 * msizeC m.sz + 2048 * spaceC m.sp) / 128 % 2 = b2n m.sx := by omega
  simp only [memmodOf, memmodC, e1, e2, e3, e4, space_rt, msize_rt, pol_rt, b2n_rt, Option.bind_eq_bind, Option.bind_some, Option.pure_def]
theorem atommod_lt (m : AtomMod) : atommodC m < 1024 := by
  have := scope_lt m.scope; have := aord_lt m.ord; have := b2n_lt m.w64; have := space_lt m.sp
  unfold atommodC; omega
theorem atommod_rt (m : AtomMod) : atommodOf (atommodC m) = some m := by
  have := scope_lt m.scope; have := aord_lt m.ord; have := b2n_lt m.w64; have := space_lt m.sp
  have e1 : (scopeC m.scope + 8 * aordC m.ord + 64 * b2n m.w64 + 128 * spaceC m.sp) / 128 = spaceC m.sp := by omega
  have e2 : (scopeC m.scope + 8 * aordC m.ord + 64 * b2n m.w64 + 128 * spaceC m.sp) / 8 % 8 = aordC m.ord := by omega
  have e3 : (scopeC m.scope + 8 * aordC m.ord + 64 * b2n m.w64 + 128 * spaceC m.sp) % 8 = scopeC m.scope := by omega
  have e4 : (scopeC m.scope + 8 * aordC m.ord + 64 * b2n m.w64 + 128 * spaceC m.sp) / 64 % 2 = b2n m.w64 := by omega
  simp only [atommodOf, atommodC, e1, e2, e3, e4, space_rt, aord_rt, scope_rt, b2n_rt, Option.bind_eq_bind, Option.bind_some, Option.pure_def]
theorem watchmod_lt (m : WatchMod) : watchmodC m < 16 := by
  have := b2n_lt m.w64; have := b2n_lt m.un; have := wcond_lt m.cond
  unfold watchmodC; omega
theorem watchmod_rt (m : WatchMod) : watchmodOf (watchmodC m) = some m := by
  obtain ⟨a, b, c⟩ := m
  cases a <;> cases b <;> cases c <;> rfl
theorem fragmod_lt (m : FragMod) : fragmodC m < 16384 := by
  have := frages_lt m.es; have := b2n_lt m.t; have := fragkind_lt m.kind; have := space_lt m.sp
  unfold fragmodC; omega
theorem fragmod_rt (m : FragMod) : fragmodOf (fragmodC m) = some m := by
  have := frages_lt m.es; have := b2n_lt m.t; have := fragkind_lt m.kind; have := space_lt m.sp
  have e1 : (64 * fragesC m.es + 256 * b2n m.t + 512 * fragkindC m.kind + 2048 * spaceC m.sp) / 2048 = spaceC m.sp := by omega
  have e2 : (64 * fragesC m.es + 256 * b2n m.t + 512 * fragkindC m.kind + 2048 * spaceC m.sp) / 512 % 4 = fragkindC m.kind := by omega
  have e3 : (64 * fragesC m.es + 256 * b2n m.t + 512 * fragkindC m.kind + 2048 * spaceC m.sp) / 64 % 4 = fragesC m.es := by omega
  have e4 : (64 * fragesC m.es + 256 * b2n m.t + 512 * fragkindC m.kind + 2048 * spaceC m.sp) / 256 % 2 = b2n m.t := by omega
  simp only [fragmodOf, fragmodC, e1, e2, e3, e4, space_rt, fragkind_rt, frages_rt, b2n_rt, Option.bind_eq_bind, Option.bind_some, Option.pure_def]
theorem hdr_rt (h : Hdr) (w : Nat) (h1 : w / 2 ^ 61 % 2 = b2n h.e) (h2 : w / 2 ^ 57 % 16 = h.stall.val) (h3 : w / 2 ^ 47 % 2 = b2n h.gn) (h4 : w / 2 ^ 44 % 8 = h.gi.val) :
    (rawOf w).h = h := by
  obtain ⟨e, st, gn, gi⟩ := h
  simp only at h1 h2 h3 h4
  unfold rawOf
  simp only [h1, h2, h3, h4, b2n_rt]
theorem check_ok (i : Instr) (hw : i.wf = true) : checked (encode i) i = .ok i := by
  unfold checked
  rw [if_neg (fun h => h rfl), if_pos hw]
/-- A full word (R28) is read back field by field. -/
theorem full_ok {i : Instr} (h : Hdr) (op d a b x : Nat) (he : encode i = joinFull h op d a b x) (ho : op < 512) (hd : d < 1024) (ha : a < 1024) (hb : b < 1024) (hx : x < 16384)
    (hw : i.wf = true) (hc : ∀ im, candFull ⟨h, op, d, a, b, x, im⟩ = some i) : encode i < 2 ^ 64 ∧ decodeWord (encode i) = .ok i := by
  have b1 := b2n_lt h.e
  have b2 := b2n_lt h.gn
  have b3 := h.stall.isLt
  have b4 := h.gi.isLt
  have hj : encode i = b2n h.e * 2305843009213693952 + h.stall.val * 144115188075855872 + op * 281474976710656 + b2n h.gn * 140737488355328 + h.gi.val * 17592186044416 + d * 17179869184 +
      a * 16777216 + b * 16384 + x := he
  refine ⟨by omega, ?_⟩
  have hf : encode i / 2 ^ 62 % 4 = 0 := by omega
  have hr : rawOf (encode i) = ⟨h, op, d, a, b, x, encode i % 2 ^ 32⟩ := by
    have e0 := hdr_rt h (encode i) (by omega) (by omega) (by omega) (by omega)
    have e1 : encode i / 2 ^ 48 % 512 = op := by omega
    have e2 : encode i / 2 ^ 34 % 1024 = d := by omega
    have e3 : encode i / 2 ^ 24 % 1024 = a := by omega
    have e4 : encode i / 2 ^ 14 % 1024 = b := by omega
    have e5 : encode i % 2 ^ 14 = x := by omega
    rw [← e0, ← e1, ← e2, ← e3, ← e4, ← e5]
    rfl
  unfold decodeWord
  rw [hf]
  simp only
  rw [hr, hc]
  exact check_ok i hw
/-- A wide word (R28) is read back field by field. -/
theorem wide_ok {i : Instr} (h : Hdr) (op d imm : Nat) (he : encode i = joinWide h op d imm) (ho : op < 512) (hd : d < 1024) (hm : imm < 4294967296)
    (hw : i.wf = true) (hc : ∀ a b x, candWide ⟨h, op, d, a, b, x, imm⟩ = some i) : encode i < 2 ^ 64 ∧ decodeWord (encode i) = .ok i := by
  have b1 := b2n_lt h.e
  have b2 := b2n_lt h.gn
  have b3 := h.stall.isLt
  have b4 := h.gi.isLt
  have hj : encode i = 9223372036854775808 + (b2n h.e * 2305843009213693952 + h.stall.val * 144115188075855872 + op * 281474976710656 + b2n h.gn * 140737488355328 + h.gi.val * 17592186044416 +
      d * 17179869184) + imm := he
  refine ⟨by omega, ?_⟩
  have hf : encode i / 2 ^ 62 % 4 = 2 := by omega
  have hz : encode i / 2 ^ 32 % 4 = 0 := by omega
  have hr : rawOf (encode i) = ⟨h, op, d, encode i / 2 ^ 24 % 1024, encode i / 2 ^ 14 % 1024, encode i % 2 ^ 14, imm⟩ := by
    have e0 := hdr_rt h (encode i) (by omega) (by omega) (by omega) (by omega)
    have e1 : encode i / 2 ^ 48 % 512 = op := by omega
    have e2 : encode i / 2 ^ 34 % 1024 = d := by omega
    have e3 : encode i % 2 ^ 32 = imm := by omega
    unfold rawOf at e0 ⊢
    simp only at e0
    rw [e0, e1, e2, e3]
  unfold decodeWord
  rw [hf]
  simp only
  rw [if_neg (by rw [hz]; simp), hr, hc]
  exact check_ok i hw
theorem half_lt (x : Half) : halfC x < 536870912 := by
  have := halfop_lt x.op; have := x.g.isLt; have := opnd_lt x.d; have := opnd_lt x.a
  unfold halfC; omega
theorem half_rt (x : Half) : halfOf (halfC x) = some x := by
  have := halfop_lt x.op; have := x.g.isLt; have := opnd_lt x.d; have := opnd_lt x.a
  have hj : halfC x = halfopC x.op * 8388608 + x.g.val * 1048576 + opndC x.d * 1024 + opndC x.a := rfl
  have e1 : halfC x / 2 ^ 23 = halfopC x.op := by omega
  have e2 : halfC x / 2 ^ 10 % 1024 = opndC x.d := by omega
  have e3 : halfC x % 1024 = opndC x.a := by omega
  have e4 : halfC x / 2 ^ 20 % 8 = x.g.val := by omega
  unfold halfOf
  simp only [e1, e2, e3, e4, halfop_rt, opnd_rt, Option.bind_eq_bind, Option.bind_some, Option.pure_def]
/-- A pair word (R28, R43) is read back half by half. -/
theorem pair_ok (e : Bool) (stall : Fin 8) (h0 h1 : Half) (hw : (Instr.pairWord e stall h0 h1).wf = true) :
    encode (.pairWord e stall h0 h1) < 2 ^ 64 ∧ decodeWord (encode (.pairWord e stall h0 h1)) = .ok (.pairWord e stall h0 h1) := by
  have b1 := b2n_lt e
  have b2 := stall.isLt
  have b3 := half_lt h0
  have b4 := half_lt h1
  have hj : encode (.pairWord e stall h0 h1) = 4611686018427387904 + b2n e * 2305843009213693952 + stall.val * 288230376151711744 + halfC h0 * 536870912 + halfC h1 := rfl
  generalize hq : encode (.pairWord e stall h0 h1) = w at hj
  refine ⟨by omega, ?_⟩
  have hf : w / 2 ^ 62 % 4 = 1 := by omega
  have hp : candPair w = some (.pairWord e stall h0 h1) := by
    have e1 : w / 2 ^ 29 % 2 ^ 29 = halfC h0 := by omega
    have e2 : w % 2 ^ 29 = halfC h1 := by omega
    have e3 : w / 2 ^ 61 % 2 = b2n e := by omega
    have e4 : w / 2 ^ 58 % 8 = stall.val := by omega
    unfold candPair
    simp only [e1, e2, e3, e4, half_rt, b2n_rt, Option.bind_eq_bind, Option.bind_some, Option.pure_def]
  unfold decodeWord
  rw [hf]
  simp only
  rw [hp, ← hq]
  exact check_ok _ hw
/-- CTXSAVE.EVICT names no immediate 1 as its B (R355): that word is CTXSAVE.DESTROY. -/
theorem evict_ne {h : Hdr} {d a b : Opnd} (hw : (Instr.ctxsaveEvict h d a b).wf = true) : opndC b ≠ 769 := by
  intro hb
  have h1 : b = .imm 1 := Option.some.inj ((opnd_rt b).symm.trans ((congrArg opndOf hb).trans rfl))
  subst h1
  exact absurd (show false = true from hw) (by decide)

end Sys2Proof.Laws
end

