-- ==== Sys2Proof/Laws/Keep.lean ====
section
/-! SUPPORT. The machine's invariant `Inv` through the small operations, and the lemmas that carry it through control flow. -/

namespace Sys2Proof.Machine

theorem Inv.mk {x_pkg} {x_agenda} {x_focus} {x_free} {x_serial} {x_groups} {x_teams} {x_lclusters} {x_cores} {x_cclusters} {x_dies} {x_ctxs} {x_fe} {x_eth} {x_mem} {x_badWords} {x_jobs} {x_mjobs} {x_atoms} {x_wbs} {x_reqs} {x_shoots} {x_supOps} {x_dry} {x_ctlq} (h : InvOf x_mem x_pkg) : Inv (State.mk x_pkg x_agenda x_focus x_free x_serial x_groups x_teams x_lclusters x_cores x_cclusters x_dies x_ctxs x_fe x_eth x_mem x_badWords x_jobs x_mjobs x_atoms x_wbs x_reqs x_shoots x_supOps x_dry x_ctlq) := h
theorem PkgOk.mk {x_clock} {x_engineAt} {x_on} {x_freq} {x_cpst} {x_bands} {x_plim} {x_thr} {x_hot} {x_plan} {x_pHist} {x_pLow} {x_deaf} {x_mbaddr} {x_mblen} {x_mbstat} {x_mbPend} {x_mbDue} {x_nonce} {x_measLog} {x_mbOpen} {x_booted} {x_idle} {x_retired} {x_links} {x_seqNo} {x_fmres} {x_fmcut} {x_fmdie} (h : ClockOk x_freq x_plan x_plim) : PkgOk (Pkg.mk x_clock x_engineAt x_on x_freq x_cpst x_bands x_plim x_thr x_hot x_plan x_pHist x_pLow x_deaf x_mbaddr x_mblen x_mbstat x_mbPend x_mbDue x_nonce x_measLog x_mbOpen x_booted x_idle x_retired x_links x_seqNo x_fmres x_fmcut x_fmdie) := h
theorem PkgOk.fold {p : Pkg} (h : PkgOk p) : ClockOk p.freq p.plan p.plim := h
theorem Inv.fold {s : State} (h : Inv s) : InvOf s.mem s.pkg := h
theorem Inv.setPkg {s : State} {p : Pkg} (h : Inv s) (k : PkgOk s.pkg → PkgOk p) : InvOf s.mem p := ⟨h.1, k h.2⟩
theorem Inv.setMem {s : State} {m : List Host.Cell} (h : Inv s) (k : Memory.wf s.mem = true → Memory.wf m = true) : InvOf m s.pkg := ⟨k h.1, h.2⟩
theorem Inv.snd {α : Type} {p : α × State} {a : α} {s : State} (e : p = (a, s)) (h : Inv p.2) : Inv s := by rw [e] at h; exact h
theorem Inv.trd {α β : Type} {p : α × β × State} {a : α} {b : β} {s : State} (e : p = (a, b, s)) (h : Inv p.2.2) : Inv s := by rw [e] at h; exact h
theorem Inv.some {o : Option State} {s : State} (e : o = some s) (h : ∀ t, o = some t → Inv t) : Inv s := h s e
theorem Inv.getD {o : Option State} {s : State} (h : ∀ t, o = .some t → Inv t) (k : Inv s) : Inv (o.getD s) := by
  cases o with
  | none => exact k
  | some t => exact h t rfl
theorem Inv.findSome {α : Type} {f : α → Option State} {l : List α} {t : State} (e : l.findSome? f = .some t)
    (h : ∀ x u, f x = .some u → Inv u) : Inv t := by
  obtain ⟨x, -, hx⟩ := List.exists_of_findSome?_eq_some e
  exact h x t hx
theorem Inv.ofSome {s t : State} (h : Inv s) : Option.some s = .some t → Inv t := by rintro ⟨⟩; exact h
theorem Inv.ofNone {t : State} : none = Option.some t → Inv t := by rintro ⟨⟩
theorem Inv.ite {c : Prop} [Decidable c] {a b : State} (ha : Inv a) (hb : Inv b) : Inv (if c then a else b) := by split <;> assumption
theorem Inv.ite2 {α : Type} {c : Prop} [Decidable c] {a b : α × State} (ha : Inv a.2) (hb : Inv b.2) : Inv (if c then a else b).2 := by split <;> assumption
theorem Inv.foldl {α : Type} {f : State → α → State} {l : List α} {s : State} (h : Inv s) (hf : ∀ t x, Inv t → Inv (f t x)) : Inv (l.foldl f s) := by
  induction l generalizing s with
  | nil => exact h
  | cons a t ih => exact ih (hf s a h)
theorem Inv.foldl2 {α β : Type} {f : β × State → α → β × State} {l : List α} {s : β × State} (h : Inv s.2)
    (hf : ∀ t x, Inv t.2 → Inv (f t x).2) : Inv (l.foldl f s).2 := by
  induction l generalizing s with
  | nil => exact h
  | cons a t ih => exact ih (hf s a h)
theorem Inv.foldl3 {α β γ : Type} {f : β × γ × State → α → β × γ × State} {l : List α} {s : β × γ × State} (h : Inv s.2.2)
    (hf : ∀ t x, Inv t.2.2 → Inv (f t x).2.2) : Inv (l.foldl f s).2.2 := by
  induction l generalizing s with
  | nil => exact h
  | cons a t ih => exact ih (hf s a h)
theorem Inv.foldlM {α : Type} {f : State → α → Option State} {l : List α} (hf : ∀ t x u, f t x = .some u → Inv t → Inv u) :
    ∀ {s u : State}, l.foldlM f s = .some u → Inv s → Inv u := by
  induction l with
  | nil => intro s u e h; cases e; exact h
  | cons a t ih =>
    intro s u e h
    rw [List.foldlM_cons] at e
    obtain ⟨v, hv, hu⟩ := Option.bind_eq_some_iff.1 e
    exact ih hu (hf s a v hv h)

/-- What a word in progress keeps: its state, the state it began in, and what it does when held. -/
structure InvW (w : W) : Prop where
  s : Inv w.s
  s0 : Inv w.s0
  fx : ∀ t, Inv t → Inv (w.holdFx t)

theorem InvW.make {x_s} {x_s0} {x_gid} {x_g} {x_f} {x_pc} {x_act} {x_ex} {x_dry} {x_fixed} {x_vpc} {x_asides} {x_faults} {x_afterWord} {x_stuck} {x_absents} {x_held} {x_redir} {x_branch} {x_hold} {x_holdPc} {x_holdFx} (h : Inv x_s) (h0 : Inv x_s0) (hf : ∀ t, Inv t → Inv (x_holdFx t)) :
    InvW (W.mk x_s x_s0 x_gid x_g x_f x_pc x_act x_ex x_dry x_fixed x_vpc x_asides x_faults x_afterWord x_stuck x_absents x_held x_redir x_branch x_hold x_holdPc x_holdFx) := ⟨h, h0, hf⟩
theorem InvW.snd {α : Type} {p : α × W} {a : α} {w : W} (e : p = (a, w)) (h : InvW p.2) : InvW w := by rw [e] at h; exact h
theorem InvW.fst {α : Type} {p : W × α} {a : α} {w : W} (e : p = (w, a)) (h : InvW p.1) : InvW w := by rw [e] at h; exact h
theorem InvW.some {o : Option W} {s : W} (e : o = some s) (h : ∀ t, o = some t → InvW t) : InvW s := h s e
theorem InvW.ofSome {s t : W} (h : InvW s) : Option.some s = .some t → InvW t := by rintro ⟨⟩; exact h
theorem InvW.ofNone {t : W} : none = Option.some t → InvW t := by rintro ⟨⟩
theorem InvW.ite {c : Prop} [Decidable c] {a b : W} (ha : InvW a) (hb : InvW b) : InvW (if c then a else b) := by split <;> assumption
theorem InvW.foldl {α : Type} {f : W → α → W} {l : List α} {s : W} (h : InvW s) (hf : ∀ t x, InvW t → InvW (f t x)) : InvW (l.foldl f s) := by
  induction l generalizing s with
  | nil => exact h
  | cons a t ih => exact ih (hf s a h)
theorem InvW.foldl2 {α β : Type} {f : β × W → α → β × W} {l : List α} {s : β × W} (h : InvW s.2)
    (hf : ∀ t x, InvW t.2 → InvW (f t x).2) : InvW (l.foldl f s).2 := by
  induction l generalizing s with
  | nil => exact h
  | cons a t ih => exact ih (hf s a h)
theorem InvW.foldl1 {α β : Type} {f : W × β → α → W × β} {l : List α} {s : W × β} (h : InvW s.1)
    (hf : ∀ t x, InvW t.1 → InvW (f t x).1) : InvW (l.foldl f s).1 := by
  induction l generalizing s with
  | nil => exact h
  | cons a t ih => exact ih (hf s a h)

theorem State.modPkg_inv {s : State} {f : Pkg → Pkg} (h : Inv s) (hf : PkgOk s.pkg → PkgOk (f s.pkg)) : Inv (s.modPkg f) := ⟨h.1, hf h.2⟩
theorem State.put_inv {s : State} {a : Nat} {l : List Byte} (h : Inv s) : Inv (s.put a l) := ⟨State.put_wf a l h.1, h.2⟩
theorem State.putCells_inv {s : State} {l : List Host.Cell} (h : Inv s) : Inv (s.putCells l) := ⟨State.putCells_wf l h.1, h.2⟩
theorem State.zeroRange_inv {s : State} {a n : Nat} (h : Inv s) : Inv (s.zeroRange a n) := ⟨State.zeroRange_wf a n h.1, h.2⟩
theorem W.eff_inv {w : W} {f : State → State} (h : InvW w) (hf : ∀ t, Inv t → Inv (f t)) : InvW (w.eff f) := by
  unfold W.eff
  split
  · exact h
  · exact ⟨hf _ h.s, h.s0, h.fx⟩

end Sys2Proof.Machine
end

