-- ==== Sys2Proof/Laws/KeepAccess.lean ====
section
/-! SUPPORT. The operations of Machine/Access keep the machine's invariant `Inv`. -/

namespace Sys2Proof.Machine

theorem State.modGrp_inv {s : State} {x1} {x2} (h : Inv s) :
    Inv (State.modGrp s x1 x2) := by
  unfold State.modGrp
  repeat'
    first
      | with_reducible assumption
      | with_reducible refine Inv.getD ?_ ?_
      | intro _
      | with_reducible refine Inv.foldl ?_ ?_
      | with_reducible refine Inv.foldl2 ?_ ?_
      | with_reducible refine Inv.foldl3 ?_ ?_
      | with_reducible refine Inv.ite ?_ ?_
      | split
      | with_reducible refine Inv.snd (by assumption) ?_
      | with_reducible refine Inv.trd (by assumption) ?_
      | with_reducible refine Inv.fold ?_
      | with_reducible refine Inv.mk ?_

theorem State.modTeam_inv {s : State} {x1} {x2} (h : Inv s) :
    Inv (State.modTeam s x1 x2) := by
  unfold State.modTeam
  repeat'
    first
      | with_reducible assumption
      | with_reducible refine Inv.getD ?_ ?_
      | intro _
      | with_reducible refine Inv.foldl ?_ ?_
      | with_reducible refine Inv.foldl2 ?_ ?_
      | with_reducible refine Inv.foldl3 ?_ ?_
      | with_reducible refine Inv.ite ?_ ?_
      | split
      | with_reducible refine Inv.snd (by assumption) ?_
      | with_reducible refine Inv.trd (by assumption) ?_
      | with_reducible refine Inv.fold ?_
      | with_reducible refine Inv.mk ?_

theorem State.modDie_inv {s : State} {x1} {x2} (h : Inv s) :
    Inv (State.modDie s x1 x2) := by
  unfold State.modDie
  repeat'
    first
      | with_reducible assumption
      | with_reducible refine Inv.getD ?_ ?_
      | intro _
      | with_reducible refine Inv.foldl ?_ ?_
      | with_reducible refine Inv.foldl2 ?_ ?_
      | with_reducible refine Inv.foldl3 ?_ ?_
      | with_reducible refine Inv.ite ?_ ?_
      | split
      | with_reducible refine Inv.snd (by assumption) ?_
      | with_reducible refine Inv.trd (by assumption) ?_
      | with_reducible refine Inv.fold ?_
      | with_reducible refine Inv.mk ?_

theorem State.modCore_inv {s : State} {x1} {x2} (h : Inv s) :
    Inv (State.modCore s x1 x2) := by
  unfold State.modCore
  repeat'
    first
      | with_reducible assumption
      | with_reducible refine Inv.getD ?_ ?_
      | intro _
      | with_reducible refine Inv.foldl ?_ ?_
      | with_reducible refine Inv.foldl2 ?_ ?_
      | with_reducible refine Inv.foldl3 ?_ ?_
      | with_reducible refine Inv.ite ?_ ?_
      | split
      | with_reducible refine Inv.snd (by assumption) ?_
      | with_reducible refine Inv.trd (by assumption) ?_
      | with_reducible refine Inv.fold ?_
      | with_reducible refine Inv.mk ?_

theorem State.then__inv {s : State} {x1} (h : Inv s) :
    Inv (State.then_ s x1) := by
  unfold State.then_
  repeat'
    first
      | with_reducible assumption
      | with_reducible refine Inv.getD ?_ ?_
      | intro _
      | with_reducible refine Inv.foldl ?_ ?_
      | with_reducible refine Inv.foldl2 ?_ ?_
      | with_reducible refine Inv.foldl3 ?_ ?_
      | with_reducible refine Inv.ite ?_ ?_
      | split
      | with_reducible refine Inv.snd (by assumption) ?_
      | with_reducible refine Inv.trd (by assumption) ?_
      | with_reducible refine Inv.fold ?_
      | with_reducible refine Inv.mk ?_

theorem State.fresh_inv {s : State} (h : Inv s) :
    Inv (State.fresh s).2 := by
  unfold State.fresh
  (try dsimp only)
  repeat'
    first
      | with_reducible assumption
      | with_reducible refine Inv.getD ?_ ?_
      | intro _
      | with_reducible refine Inv.foldl ?_ ?_
      | with_reducible refine Inv.foldl2 ?_ ?_
      | with_reducible refine Inv.foldl3 ?_ ?_
      | with_reducible refine Inv.ite ?_ ?_
      | split
      | with_reducible refine Inv.snd (by assumption) ?_
      | with_reducible refine Inv.trd (by assumption) ?_
      | with_reducible refine Inv.fold ?_
      | with_reducible refine Inv.mk ?_

theorem State.setGrp_inv {s : State} {x1} {x2} (h : Inv s) :
    Inv (State.setGrp s x1 x2) := by
  unfold State.setGrp
  repeat'
    first
      | with_reducible assumption
      | with_reducible refine Inv.getD ?_ ?_
      | intro _
      | with_reducible refine Inv.foldl ?_ ?_
      | with_reducible refine Inv.foldl2 ?_ ?_
      | with_reducible refine Inv.foldl3 ?_ ?_
      | with_reducible refine Inv.ite ?_ ?_
      | split
      | with_reducible refine Inv.snd (by assumption) ?_
      | with_reducible refine Inv.trd (by assumption) ?_
      | with_reducible refine Inv.fold ?_
      | with_reducible refine Inv.mk ?_

theorem State.modCcl_inv {s : State} {x1} {x2} (h : Inv s) :
    Inv (State.modCcl s x1 x2) := by
  unfold State.modCcl
  repeat'
    first
      | with_reducible assumption
      | with_reducible refine Inv.getD ?_ ?_
      | intro _
      | with_reducible refine Inv.foldl ?_ ?_
      | with_reducible refine Inv.foldl2 ?_ ?_
      | with_reducible refine Inv.foldl3 ?_ ?_
      | with_reducible refine Inv.ite ?_ ?_
      | split
      | with_reducible refine Inv.snd (by assumption) ?_
      | with_reducible refine Inv.trd (by assumption) ?_
      | with_reducible refine Inv.fold ?_
      | with_reducible refine Inv.mk ?_

theorem State.modCtx_inv {s : State} {x1} {x2} (h : Inv s) :
    Inv (State.modCtx s x1 x2) := by
  unfold State.modCtx
  repeat'
    first
      | with_reducible assumption
      | with_reducible refine Inv.getD ?_ ?_
      | intro _
      | with_reducible refine Inv.foldl ?_ ?_
      | with_reducible refine Inv.foldl2 ?_ ?_
      | with_reducible refine Inv.foldl3 ?_ ?_
      | with_reducible refine Inv.ite ?_ ?_
      | split
      | with_reducible refine Inv.snd (by assumption) ?_
      | with_reducible refine Inv.trd (by assumption) ?_
      | with_reducible refine Inv.fold ?_
      | with_reducible refine Inv.mk ?_

theorem State.freeDue_inv {s : State} (h : Inv s) :
    Inv (State.freeDue s).2 := by
  unfold State.freeDue
  (try dsimp only)
  repeat'
    first
      | with_reducible assumption
      | with_reducible refine Inv.getD ?_ ?_
      | intro _
      | with_reducible refine Inv.foldl ?_ ?_
      | with_reducible refine Inv.foldl2 ?_ ?_
      | with_reducible refine Inv.foldl3 ?_ ?_
      | with_reducible refine Inv.ite ?_ ?_
      | split
      | with_reducible refine Inv.snd (by assumption) ?_
      | with_reducible refine Inv.trd (by assumption) ?_
      | with_reducible refine Inv.fold ?_
      | with_reducible refine Inv.mk ?_

theorem State.modFe_inv {s : State} {x1} (h : Inv s) :
    Inv (State.modFe s x1) := by
  unfold State.modFe
  repeat'
    first
      | with_reducible assumption
      | with_reducible refine Inv.getD ?_ ?_
      | intro _
      | with_reducible refine Inv.foldl ?_ ?_
      | with_reducible refine Inv.foldl2 ?_ ?_
      | with_reducible refine Inv.foldl3 ?_ ?_
      | with_reducible refine Inv.ite ?_ ?_
      | split
      | with_reducible refine Inv.snd (by assumption) ?_
      | with_reducible refine Inv.trd (by assumption) ?_
      | with_reducible refine Inv.fold ?_
      | with_reducible refine Inv.mk ?_

theorem State.modFeCtx_inv {s : State} {x1} {x2} (h : Inv s) :
    Inv (State.modFeCtx s x1 x2) := by
  unfold State.modFeCtx
  repeat'
    first
      | with_reducible assumption
      | with_reducible refine State.modFe_inv ?_

theorem State.modEth_inv {s : State} {x1} {x2} (h : Inv s) :
    Inv (State.modEth s x1 x2) := by
  unfold State.modEth
  repeat'
    first
      | with_reducible assumption
      | with_reducible refine Inv.getD ?_ ?_
      | intro _
      | with_reducible refine Inv.foldl ?_ ?_
      | with_reducible refine Inv.foldl2 ?_ ?_
      | with_reducible refine Inv.foldl3 ?_ ?_
      | with_reducible refine Inv.ite ?_ ?_
      | split
      | with_reducible refine Inv.snd (by assumption) ?_
      | with_reducible refine Inv.trd (by assumption) ?_
      | with_reducible refine Inv.fold ?_
      | with_reducible refine Inv.mk ?_

theorem State.modPort_inv {s : State} {x1} {x2} (h : Inv s) :
    Inv (State.modPort s x1 x2) := by
  unfold State.modPort
  repeat'
    first
      | with_reducible assumption
      | with_reducible refine State.modFe_inv ?_

theorem State.delGrp_inv {s : State} {x1} (h : Inv s) :
    Inv (State.delGrp s x1) := by
  unfold State.delGrp
  repeat'
    first
      | with_reducible assumption
      | with_reducible refine Inv.getD ?_ ?_
      | intro _
      | with_reducible refine Inv.foldl ?_ ?_
      | with_reducible refine Inv.foldl2 ?_ ?_
      | with_reducible refine Inv.foldl3 ?_ ?_
      | with_reducible refine Inv.ite ?_ ?_
      | split
      | with_reducible refine Inv.snd (by assumption) ?_
      | with_reducible refine Inv.trd (by assumption) ?_
      | with_reducible refine Inv.fold ?_
      | with_reducible refine Inv.mk ?_

theorem State.freePick_inv {s : State} {x1} (h : Inv s) :
    Inv (State.freePick s x1).2 := by
  unfold State.freePick
  (try dsimp only)
  repeat'
    first
      | with_reducible assumption
      | with_reducible refine Inv.getD ?_ ?_
      | intro _
      | with_reducible refine Inv.foldl ?_ ?_
      | with_reducible refine Inv.foldl2 ?_ ?_
      | with_reducible refine Inv.foldl3 ?_ ?_
      | with_reducible refine Inv.ite ?_ ?_
      | split
      | with_reducible refine Inv.snd (by assumption) ?_
      | with_reducible refine Inv.trd (by assumption) ?_
      | with_reducible refine Inv.fold ?_
      | with_reducible refine Inv.mk ?_

end Sys2Proof.Machine
end

