-- ==== Sys2Proof/Laws/KeepMemory.lean ====
section
/-! SUPPORT. The operations of Machine/Memory keep the machine's invariant `Inv`. -/

namespace Sys2Proof.Machine

theorem State.evalWatch_inv {s : State} {x1} {x2} (h : Inv s) :
    Inv (State.evalWatch s x1 x2) := by
  unfold State.evalWatch
  (try dsimp only)
  repeat'
    first
      | with_reducible assumption
      | with_reducible refine State.modDie_inv ?_
      | with_reducible refine State.then__inv ?_
      | with_reducible refine Inv.getD ?_ ?_
      | intro _
      | with_reducible refine Inv.foldl ?_ ?_
      | with_reducible refine Inv.foldl2 ?_ ?_
      | with_reducible refine Inv.foldl3 ?_ ?_
      | with_reducible refine Inv.ite ?_ ?_
      | split

theorem State.evalWatches_inv {s : State} {x1} {x2} (h : Inv s) :
    Inv (State.evalWatches s x1 x2) := by
  unfold State.evalWatches
  repeat'
    first
      | with_reducible assumption
      | with_reducible refine State.evalWatch_inv ?_
      | with_reducible refine Inv.getD ?_ ?_
      | intro _
      | with_reducible refine Inv.foldl ?_ ?_

theorem State.homePut_inv {s : State} {x1} {x2} (h : Inv s) :
    Inv (State.homePut s x1 x2) := by
  unfold State.homePut
  exact State.evalWatches_inv (Inv.mk ⟨memPut_wf _ _ h.1, h.2⟩)

end Sys2Proof.Machine
end

