-- ==== Sys2Proof/Laws/KeepXlate.lean ====
section
/-! SUPPORT. The operations of Machine/Xlate keep the machine's invariant `Inv`. -/

namespace Sys2Proof.Machine

theorem State.invalCleanL1_inv {s : State} {x1} (h : Inv s) :
    Inv (State.invalCleanL1 s x1) := by
  unfold State.invalCleanL1
  (try dsimp only)
  repeat'
    first
      | with_reducible assumption
      | with_reducible refine State.modCore_inv ?_

theorem State.lazyTrigger_inv {s : State} {x1} {x2} (h : Inv s) :
    Inv (State.lazyTrigger s x1 x2) := by
  unfold State.lazyTrigger
  (try dsimp only)
  repeat'
    first
      | with_reducible assumption
      | with_reducible refine State.modDie_inv ?_
      | with_reducible refine State.then__inv ?_
      | with_reducible refine Inv.getD ?_ ?_
      | intro _
      | with_reducible refine Inv.foldl ?_ ?_
      | with_reducible refine Inv.foldl2 ?_ ?_
      | with_reducible refine Inv.foldl3 ?_ ?_
      | with_reducible refine Inv.ite ?_ ?_

theorem State.invalCleanL2_inv {s : State} {x1} {x2} (h : Inv s) :
    Inv (State.invalCleanL2 s x1 x2) := by
  unfold State.invalCleanL2
  (try dsimp only)
  repeat'
    first
      | with_reducible assumption
      | with_reducible refine State.modDie_inv ?_

theorem State.acquirePkg_inv {s : State} {x1} {x2} (h : Inv s) :
    Inv (State.acquirePkg s x1 x2) := by
  unfold State.acquirePkg
  repeat'
    first
      | with_reducible assumption
      | with_reducible refine State.invalCleanL1_inv ?_
      | with_reducible refine State.lazyTrigger_inv ?_
      | with_reducible refine State.invalCleanL2_inv ?_

theorem State.countReq_inv {s : State} {x1} {x2} {x3} (h : Inv s) :
    Inv (State.countReq s x1 x2 x3) := by
  unfold State.countReq
  repeat'
    first
      | with_reducible assumption
      | with_reducible refine State.modCcl_inv ?_
      | with_reducible refine Inv.getD ?_ ?_
      | intro _
      | with_reducible refine Inv.foldl ?_ ?_
      | with_reducible refine Inv.foldl2 ?_ ?_
      | with_reducible refine Inv.foldl3 ?_ ?_
      | with_reducible refine Inv.ite ?_ ?_

theorem State.writeL2_inv {s : State} {x1} {x2} {x3} {x4} {x5} (h : Inv s) :
    Inv (State.writeL2 s x1 x2 x3 x4 x5) := by
  unfold State.writeL2
  (try dsimp only)
  repeat'
    first
      | with_reducible assumption
      | with_reducible refine State.modDie_inv ?_
      | with_reducible refine State.homePut_inv ?_
      | with_reducible refine Inv.getD ?_ ?_
      | intro _
      | with_reducible refine Inv.foldl ?_ ?_
      | with_reducible refine Inv.foldl2 ?_ ?_
      | with_reducible refine Inv.foldl3 ?_ ?_
      | with_reducible refine Inv.ite ?_ ?_

theorem State.writeL2Bytes_inv {s : State} {x1} {x2} {x3} {x4} {x5} (h : Inv s) :
    Inv (State.writeL2Bytes s x1 x2 x3 x4 x5) := by
  unfold State.writeL2Bytes
  repeat'
    first
      | with_reducible assumption
      | with_reducible refine State.writeL2_inv ?_
      | with_reducible refine Inv.getD ?_ ?_
      | intro _
      | with_reducible refine Inv.foldl ?_ ?_

theorem State.writeBackLine_inv {s : State} {x1} {x2} (h : Inv s) :
    Inv (State.writeBackLine s x1 x2) := by
  unfold State.writeBackLine
  (try dsimp only)
  repeat'
    first
      | with_reducible assumption
      | with_reducible refine State.modCore_inv ?_
      | with_reducible refine State.countReq_inv ?_
      | with_reducible refine State.writeL2Bytes_inv ?_
      | with_reducible refine Inv.getD ?_ ?_
      | intro _
      | with_reducible refine Inv.foldl ?_ ?_
      | with_reducible refine Inv.foldl2 ?_ ?_
      | with_reducible refine Inv.foldl3 ?_ ?_
      | with_reducible refine Inv.ite ?_ ?_
      | split

theorem State.dropLine_inv {s : State} {x1} {x2} (h : Inv s) :
    Inv (State.dropLine s x1 x2) := by
  unfold State.dropLine
  repeat'
    first
      | with_reducible assumption
      | with_reducible refine State.modCore_inv ?_
      | with_reducible refine State.writeBackLine_inv ?_

theorem State.flushL2Line_inv {s : State} {x1} {x2} (h : Inv s) :
    Inv (State.flushL2Line s x1 x2) := by
  unfold State.flushL2Line
  (try dsimp only)
  repeat'
    first
      | with_reducible assumption
      | with_reducible refine State.modDie_inv ?_
      | with_reducible refine State.homePut_inv ?_
      | with_reducible refine Inv.getD ?_ ?_
      | intro _
      | with_reducible refine Inv.foldl ?_ ?_
      | with_reducible refine Inv.foldl2 ?_ ?_
      | with_reducible refine Inv.foldl3 ?_ ?_
      | with_reducible refine Inv.ite ?_ ?_
      | split

theorem State.writeBackL1_inv {s : State} {x1} (h : Inv s) :
    Inv (State.writeBackL1 s x1) := by
  unfold State.writeBackL1
  repeat'
    first
      | with_reducible assumption
      | with_reducible refine State.writeBackLine_inv ?_
      | with_reducible refine Inv.getD ?_ ?_
      | intro _
      | with_reducible refine Inv.foldl ?_ ?_

theorem State.dropSynonyms_inv {s : State} {x1} {x2} {x3} (h : Inv s) :
    Inv (State.dropSynonyms s x1 x2 x3) := by
  unfold State.dropSynonyms
  repeat'
    first
      | with_reducible assumption
      | with_reducible refine State.dropLine_inv ?_
      | with_reducible refine Inv.getD ?_ ?_
      | intro _
      | with_reducible refine Inv.foldl ?_ ?_

theorem State.dropL2Line_inv {s : State} {x1} {x2} (h : Inv s) :
    Inv (State.dropL2Line s x1 x2) := by
  unfold State.dropL2Line
  repeat'
    first
      | with_reducible assumption
      | with_reducible refine State.modDie_inv ?_
      | with_reducible refine State.flushL2Line_inv ?_

theorem State.recallLine_inv {s : State} {x1} {x2} {x3} (h : Inv s) :
    Inv (State.recallLine s x1 x2 x3) := by
  unfold State.recallLine
  (try dsimp only)
  repeat'
    first
      | with_reducible assumption
      | with_reducible refine State.dropLine_inv ?_
      | with_reducible refine State.dropSynonyms_inv ?_
      | with_reducible refine State.dropL2Line_inv ?_

theorem State.touchDies_inv {s : State} {x1} {x2} (h : Inv s) :
    Inv (State.touchDies s x1 x2) := by
  unfold State.touchDies
  repeat'
    first
      | with_reducible assumption
      | with_reducible refine State.modCtx_inv ?_
      | with_reducible refine Inv.getD ?_ ?_
      | intro _
      | with_reducible refine Inv.foldl ?_ ?_
      | with_reducible refine Inv.foldl2 ?_ ?_
      | with_reducible refine Inv.foldl3 ?_ ?_
      | with_reducible refine Inv.ite ?_ ?_

theorem State.walkDone_inv {s : State} {x1} {x2} {x3} (h : Inv s) :
    Inv (State.walkDone s x1 x2 x3).2 := by
  unfold State.walkDone
  (try dsimp only)
  repeat'
    first
      | with_reducible assumption
      | with_reducible refine State.modCcl_inv ?_
      | with_reducible refine State.touchDies_inv ?_
      | with_reducible refine Inv.getD ?_ ?_
      | intro _
      | with_reducible refine Inv.foldl ?_ ?_
      | with_reducible refine Inv.foldl2 ?_ ?_
      | with_reducible refine Inv.foldl3 ?_ ?_
      | with_reducible refine Inv.ite ?_ ?_
      | split
      | with_reducible refine Inv.snd (by assumption) ?_
      | with_reducible refine Inv.trd (by assumption) ?_
      | with_reducible refine Inv.fold ?_
      | with_reducible refine Inv.mk ?_

theorem State.leafTlb_inv {s : State} {x1} {x2} {x3} (h : Inv s) :
    Inv (State.leafTlb s x1 x2 x3).2 := by
  unfold State.leafTlb
  (try dsimp only)
  repeat'
    first
      | with_reducible assumption
      | with_reducible refine State.modCcl_inv ?_
      | with_reducible refine State.walkDone_inv ?_
      | with_reducible refine Inv.getD ?_ ?_
      | intro _
      | with_reducible refine Inv.foldl ?_ ?_
      | with_reducible refine Inv.foldl2 ?_ ?_
      | with_reducible refine Inv.foldl3 ?_ ?_
      | with_reducible refine Inv.ite ?_ ?_
      | split
      | with_reducible refine Inv.snd (by assumption) ?_
      | with_reducible refine Inv.trd (by assumption) ?_
      | with_reducible refine Inv.fold ?_
      | with_reducible refine Inv.mk ?_

theorem State.confirm_inv {s : State} {x1} {x2} {x3} {x4} (h : Inv s) :
    Inv (State.confirm s x1 x2 x3 x4).2 := by
  unfold State.confirm
  repeat'
    first
      | with_reducible assumption
      | with_reducible refine State.modCcl_inv ?_
      | with_reducible refine State.walkDone_inv ?_
      | with_reducible refine Inv.getD ?_ ?_
      | intro _
      | with_reducible refine Inv.foldl ?_ ?_
      | with_reducible refine Inv.foldl2 ?_ ?_
      | with_reducible refine Inv.foldl3 ?_ ?_
      | with_reducible refine Inv.ite ?_ ?_
      | split
      | with_reducible refine Inv.snd (by assumption) ?_

theorem State.xlate_inv {s : State} {x1} {x2} {x3} (h : Inv s) :
    Inv (State.xlate s x1 x2 x3).2 := by
  unfold State.xlate
  repeat'
    first
      | with_reducible assumption
      | with_reducible refine State.leafTlb_inv ?_
      | with_reducible refine State.confirm_inv ?_
      | with_reducible refine Inv.getD ?_ ?_
      | intro _
      | with_reducible refine Inv.foldl ?_ ?_
      | with_reducible refine Inv.foldl2 ?_ ?_
      | with_reducible refine Inv.foldl3 ?_ ?_
      | with_reducible refine Inv.ite ?_ ?_
      | split
      | with_reducible refine Inv.snd (by assumption) ?_

theorem State.xlateCtx_inv {s : State} {x1} {x2} {x3} (h : Inv s) :
    Inv (State.xlateCtx s x1 x2 x3).2 := by
  unfold State.xlateCtx
  (try dsimp only)
  repeat'
    first
      | with_reducible assumption
      | with_reducible refine State.touchDies_inv ?_
      | with_reducible refine Inv.getD ?_ ?_
      | intro _
      | with_reducible refine Inv.foldl ?_ ?_
      | with_reducible refine Inv.foldl2 ?_ ?_
      | with_reducible refine Inv.foldl3 ?_ ?_
      | with_reducible refine Inv.ite ?_ ?_
      | split

theorem State.homeOf_inv {s : State} {x1} {x2} {x3} (h : Inv s) :
    Inv (State.homeOf s x1 x2 x3).2 := by
  unfold State.homeOf
  repeat'
    first
      | with_reducible assumption
      | with_reducible refine State.xlateCtx_inv ?_
      | with_reducible refine Inv.getD ?_ ?_
      | intro _
      | with_reducible refine Inv.foldl ?_ ?_
      | with_reducible refine Inv.foldl2 ?_ ?_
      | with_reducible refine Inv.foldl3 ?_ ?_
      | with_reducible refine Inv.ite ?_ ?_
      | split
      | with_reducible refine Inv.snd (by assumption) ?_

theorem State.readCtx_inv {s : State} {x1} {x2} {x3} (h : Inv s) :
    Inv (State.readCtx s x1 x2 x3).2 := by
  unfold State.readCtx
  repeat'
    first
      | with_reducible assumption
      | with_reducible refine State.xlateCtx_inv ?_
      | with_reducible refine Inv.getD ?_ ?_
      | intro _
      | with_reducible refine Inv.foldl ?_ ?_
      | with_reducible refine Inv.foldl2 ?_ ?_
      | with_reducible refine Inv.foldl3 ?_ ?_
      | with_reducible refine Inv.ite ?_ ?_
      | split
      | with_reducible refine Inv.snd (by assumption) ?_

theorem State.fillL2_inv {s : State} {x1} {x2} {x3} {x4} (h : Inv s) :
    Inv (State.fillL2 s x1 x2 x3 x4) := by
  unfold State.fillL2
  (try dsimp only)
  repeat'
    first
      | with_reducible assumption
      | with_reducible refine State.modDie_inv ?_
      | with_reducible refine Inv.getD ?_ ?_
      | intro _
      | with_reducible refine Inv.foldl ?_ ?_
      | with_reducible refine Inv.foldl2 ?_ ?_
      | with_reducible refine Inv.foldl3 ?_ ?_
      | with_reducible refine Inv.ite ?_ ?_

theorem State.loadBounds_inv {s : State} {x1} {x2} (h : Inv s) :
    Inv (State.loadBounds s x1 x2) := by
  unfold State.loadBounds
  (try dsimp only)
  repeat'
    first
      | with_reducible assumption
      | with_reducible refine State.modCore_inv ?_

theorem State.xlateL1_inv {s : State} {x1} {x2} {x3} (h : Inv s) :
    Inv (State.xlateL1 s x1 x2 x3).2 := by
  unfold State.xlateL1
  repeat'
    first
      | with_reducible assumption
      | with_reducible refine State.xlate_inv ?_
      | with_reducible refine Inv.getD ?_ ?_
      | intro _
      | with_reducible refine Inv.foldl ?_ ?_
      | with_reducible refine Inv.foldl2 ?_ ?_
      | with_reducible refine Inv.foldl3 ?_ ?_
      | with_reducible refine Inv.ite ?_ ?_
      | split

theorem State.fillL1_inv {s : State} {x1} {x2} {x3} {x4} {x5} (h : Inv s) :
    Inv (State.fillL1 s x1 x2 x3 x4 x5) := by
  unfold State.fillL1
  (try dsimp only)
  repeat'
    first
      | with_reducible assumption
      | with_reducible refine State.modCore_inv ?_
      | with_reducible refine State.dropSynonyms_inv ?_
      | with_reducible refine State.fillL2_inv ?_

theorem State.loadG_inv {s : State} {x1} {x2} {x3} {x4} {x5} {x6} {x7} (h : Inv s) :
    Inv (State.loadG s x1 x2 x3 x4 x5 x6 x7).2 := by
  unfold State.loadG
  (try dsimp only)
  repeat'
    first
      | with_reducible assumption
      | with_reducible refine State.countReq_inv ?_
      | with_reducible refine State.fillL1_inv ?_
      | with_reducible refine Inv.getD ?_ ?_
      | intro _
      | with_reducible refine Inv.foldl ?_ ?_
      | with_reducible refine Inv.foldl2 ?_ ?_
      | with_reducible refine Inv.foldl3 ?_ ?_
      | with_reducible refine Inv.ite ?_ ?_
      | split

theorem State.storeG_inv {s : State} {x1} {x2} {x3} {x4} {x5} {x6} {x7} (h : Inv s) :
    Inv (State.storeG s x1 x2 x3 x4 x5 x6 x7) := by
  unfold State.storeG
  (try dsimp only)
  repeat'
    first
      | with_reducible assumption
      | with_reducible refine State.modDie_inv ?_
      | with_reducible refine State.modCore_inv ?_
      | with_reducible refine State.countReq_inv ?_
      | with_reducible refine State.homePut_inv ?_
      | with_reducible refine State.dropSynonyms_inv ?_
      | with_reducible refine Inv.getD ?_ ?_
      | intro _
      | with_reducible refine Inv.foldl ?_ ?_
      | with_reducible refine Inv.foldl2 ?_ ?_
      | with_reducible refine Inv.foldl3 ?_ ?_
      | with_reducible refine Inv.ite ?_ ?_

end Sys2Proof.Machine
end

