-- ==== Sys2Proof/Laws/KeepRings.lean ====
section
/-! SUPPORT. The operations of Machine/Rings keep the machine's invariant `Inv`. -/

namespace Sys2Proof.Machine

theorem State.setCtxstat_inv {s : State} {x1} {x2} (h : Inv s) :
    Inv (State.setCtxstat s x1 x2) := by
  unfold State.setCtxstat
  repeat'
    first
      | with_reducible assumption
      | with_reducible refine State.modCtx_inv ?_

theorem State.dfrPut_inv {s : State} {x1} {x2} (h : Inv s) :
    Inv (State.dfrPut s x1 x2) := by
  unfold State.dfrPut
  (try dsimp only)
  repeat'
    first
      | with_reducible assumption
      | with_reducible refine State.modDie_inv ?_
      | with_reducible refine State.homePut_inv ?_

theorem State.dieRecord_inv {s : State} {x1} {x2} (h : Inv s) :
    Inv (State.dieRecord s x1 x2) := by
  unfold State.dieRecord
  (try dsimp only)
  repeat'
    first
      | with_reducible assumption
      | with_reducible refine State.modDie_inv ?_
      | with_reducible refine State.dfrPut_inv ?_
      | with_reducible refine Inv.getD ?_ ?_
      | intro _
      | with_reducible refine Inv.foldl ?_ ?_
      | with_reducible refine Inv.foldl2 ?_ ?_
      | with_reducible refine Inv.foldl3 ?_ ?_
      | with_reducible refine Inv.ite ?_ ?_

theorem State.queueDump_inv {s : State} {x1} {x2} {x3} {x4} (h : Inv s) :
    Inv (State.queueDump s x1 x2 x3 x4) := by
  unfold State.queueDump
  (try dsimp only)
  repeat'
    first
      | with_reducible assumption
      | with_reducible refine State.modDie_inv ?_
      | with_reducible refine State.dieRecord_inv ?_
      | with_reducible refine Inv.getD ?_ ?_
      | intro _
      | with_reducible refine Inv.foldl ?_ ?_
      | with_reducible refine Inv.foldl2 ?_ ?_
      | with_reducible refine Inv.foldl3 ?_ ?_
      | with_reducible refine Inv.ite ?_ ?_

theorem State.makeFatal_inv {s : State} {x1} {x2} {x3} {x4} {x5} {x6} (h : Inv s) :
    Inv (State.makeFatal s x1 x2 x3 x4 x5 x6) := by
  unfold State.makeFatal
  (try dsimp only)
  repeat'
    first
      | with_reducible assumption
      | with_reducible refine State.setCtxstat_inv ?_
      | with_reducible refine State.dieRecord_inv ?_
      | with_reducible refine State.queueDump_inv ?_
      | with_reducible refine Inv.getD ?_ ?_
      | intro _
      | with_reducible refine Inv.foldl ?_ ?_
      | with_reducible refine Inv.foldl2 ?_ ?_
      | with_reducible refine Inv.foldl3 ?_ ?_
      | with_reducible refine Inv.ite ?_ ?_

theorem State.postRequest_inv {s : State} {x1} {x2} (h : Inv s) :
    Inv (State.postRequest s x1 x2) := by
  unfold State.postRequest
  (try dsimp only)
  repeat'
    first
      | with_reducible assumption
      | with_reducible refine State.modDie_inv ?_
      | with_reducible refine State.dfrPut_inv ?_
      | with_reducible refine Inv.getD ?_ ?_
      | intro _
      | with_reducible refine Inv.foldl ?_ ?_
      | with_reducible refine Inv.foldl2 ?_ ?_
      | with_reducible refine Inv.foldl3 ?_ ?_
      | with_reducible refine Inv.ite ?_ ?_
      | split
      | with_reducible refine Inv.snd (by assumption) ?_
      | with_reducible refine Inv.trd (by assumption) ?_
      | with_reducible refine Inv.fold ?_
      | with_reducible refine Inv.mk ?_

theorem State.request_inv {s : State} {x1} (h : Inv s) :
    Inv (State.request s x1).2 := by
  unfold State.request
  (try dsimp only)
  repeat'
    first
      | with_reducible assumption
      | with_reducible refine State.fresh_inv ?_
      | with_reducible refine State.postRequest_inv ?_
      | with_reducible refine Inv.getD ?_ ?_
      | intro _
      | with_reducible refine Inv.foldl ?_ ?_
      | with_reducible refine Inv.foldl2 ?_ ?_
      | with_reducible refine Inv.foldl3 ?_ ?_
      | with_reducible refine Inv.ite ?_ ?_
      | split
      | with_reducible refine Inv.snd (by assumption) ?_
      | with_reducible refine Inv.trd (by assumption) ?_
      | with_reducible refine Inv.fold ?_
      | with_reducible refine Inv.mk ?_

theorem State.ringPut_inv {s : State} {x1} {f2 : State → DWord → Option Nat × State} {x3} {x4} (h : Inv s) (hf : ∀ t a, Inv t → Inv (f2 t a).2) :
    Inv (State.ringPut s x1 f2 x3 x4).2 := by
  unfold State.ringPut
  (try dsimp only)
  repeat'
    first
      | with_reducible assumption
      | with_reducible refine State.homePut_inv ?_
      | with_reducible refine State.modCtx_inv ?_
      | with_reducible refine hf _ _ ?_
      | with_reducible refine Inv.getD ?_ ?_
      | intro _
      | with_reducible refine Inv.foldl ?_ ?_
      | with_reducible refine Inv.foldl2 ?_ ?_
      | with_reducible refine Inv.foldl3 ?_ ?_
      | with_reducible refine Inv.ite ?_ ?_
      | split
      | with_reducible refine Inv.snd (by assumption) ?_

theorem State.ctxLook_inv {u : State} {x1} {s : State} {x3} (h : Inv s) :
    Inv (State.ctxLook u x1 s x3).2 := by
  unfold State.ctxLook
  split
  · exact State.homeOf_inv h
  · exact h

theorem State.mchkRecord_inv {s : State} {x1} {x2} {x3} (h : Inv s) :
    Inv (State.mchkRecord s x1 x2 x3) := by
  unfold State.mchkRecord
  exact State.setCtxstat_inv (State.ringPut_inv h (fun t a k => State.ctxLook_inv k))

theorem State.lateRecord_inv {s : State} {x1} {x2} (h : Inv s) :
    Inv (State.lateRecord s x1 x2) := by
  unfold State.lateRecord
  exact State.setCtxstat_inv (State.ringPut_inv h (fun t a k => State.ctxLook_inv k))

theorem State.postWaiting_inv {s : State} {x1} (h : Inv s) :
    Inv (State.postWaiting s x1) := by
  unfold State.postWaiting
  repeat'
    first
      | with_reducible assumption
      | with_reducible refine State.postRequest_inv ?_
      | with_reducible refine Inv.getD ?_ ?_
      | intro _
      | with_reducible refine Inv.foldl ?_ ?_
      | with_reducible refine Inv.foldl2 ?_ ?_
      | with_reducible refine Inv.foldl3 ?_ ?_
      | with_reducible refine Inv.ite ?_ ?_

end Sys2Proof.Machine
end

