-- ==== Sys2Proof/Laws/KeepOps.lean ====
section
/-! SUPPORT. The operations of Machine/Ops keep the machine's invariant `Inv`. -/

namespace Sys2Proof.Machine

theorem State.modLCl_inv {s : State} {x1} {x2} (h : Inv s) :
    Inv (State.modLCl s x1 x2) := by
  unfold State.modLCl
  repeat'
    first
      | with_reducible assumption
      | with_reducible refine Inv.getD ?_ ?_
      | intro _
      | with_reducible refine Inv.foldl ?_ ?_
      | with_reducible refine Inv.foldl2 ?_ ?_
      | with_reducible refine Inv.foldl3 ?_ ?_
      | with_reducible refine Inv.ite ?_ ?_
      | split
      | with_reducible refine Inv.snd (by assumption) ?_
      | with_reducible refine Inv.trd (by assumption) ?_
      | with_reducible refine Inv.fold ?_
      | with_reducible refine Inv.mk ?_

theorem State.setBar_inv {s : State} {x1} {x2} {x3} (h : Inv s) :
    Inv (State.setBar s x1 x2 x3) := by
  unfold State.setBar
  repeat'
    first
      | with_reducible assumption
      | with_reducible refine State.modTeam_inv ?_

theorem State.wakeBarrier_inv {s : State} {x1} {x2} {x3} (h : Inv s) :
    Inv (State.wakeBarrier s x1 x2 x3) := by
  unfold State.wakeBarrier
  repeat'
    first
      | with_reducible assumption
      | with_reducible refine Inv.getD ?_ ?_
      | intro _
      | with_reducible refine Inv.foldl ?_ ?_
      | with_reducible refine Inv.foldl2 ?_ ?_
      | with_reducible refine Inv.foldl3 ?_ ?_
      | with_reducible refine Inv.ite ?_ ?_
      | split
      | with_reducible refine Inv.snd (by assumption) ?_
      | with_reducible refine Inv.trd (by assumption) ?_
      | with_reducible refine Inv.fold ?_
      | with_reducible refine Inv.mk ?_

theorem State.stopFatal_inv {s : State} {x1} {x2} {x3} {x4} {x5} (h : Inv s) :
    Inv (State.stopFatal s x1 x2 x3 x4 x5) := by
  unfold State.stopFatal
  (try dsimp only)
  repeat'
    first
      | with_reducible assumption
      | with_reducible refine State.modGrp_inv ?_
      | with_reducible refine State.makeFatal_inv ?_

theorem State.logAdd_inv {s : State} {x1} {x2} (h : Inv s) :
    Inv (State.logAdd s x1 x2) := by
  unfold State.logAdd
  repeat'
    first
      | with_reducible assumption
      | with_reducible refine State.modCore_inv ?_

theorem State.logStore_inv {s : State} {x1} {x2} {x3} {x4} {x5} (h : Inv s) :
    Inv (State.logStore s x1 x2 x3 x4 x5) := by
  unfold State.logStore
  (try dsimp only)
  repeat'
    first
      | with_reducible assumption
      | with_reducible refine State.fresh_inv ?_
      | with_reducible refine State.logAdd_inv ?_
      | with_reducible refine State.request_inv ?_
      | with_reducible refine Inv.getD ?_ ?_
      | intro _
      | with_reducible refine Inv.foldl ?_ ?_
      | with_reducible refine Inv.foldl2 ?_ ?_
      | with_reducible refine Inv.foldl3 ?_ ?_
      | with_reducible refine Inv.ite ?_ ?_
      | split

theorem State.spillByte_inv {s : State} {x1} {x2} {x3} {x4} {x5} {x6} (h : Inv s) :
    Inv (State.spillByte s x1 x2 x3 x4 x5 x6).2 := by
  unfold State.spillByte
  (try dsimp only)
  repeat'
    first
      | with_reducible assumption
      | with_reducible refine State.homePut_inv ?_
      | with_reducible refine State.xlate_inv ?_
      | with_reducible refine State.logStore_inv ?_
      | with_reducible refine Inv.getD ?_ ?_
      | intro _
      | with_reducible refine Inv.foldl ?_ ?_
      | with_reducible refine Inv.foldl2 ?_ ?_
      | with_reducible refine Inv.foldl3 ?_ ?_
      | with_reducible refine Inv.ite ?_ ?_
      | split
      | with_reducible refine Inv.snd (by assumption) ?_

theorem State.spill_inv {s : State} {x1} {x2} {x3} (h : Inv s) :
    Inv (State.spill s x1 x2 x3).2 := by
  unfold State.spill
  (try dsimp only)
  repeat'
    first
      | with_reducible assumption
      | with_reducible refine State.modGrp_inv ?_
      | with_reducible refine State.spillByte_inv ?_
      | with_reducible refine Inv.getD ?_ ?_
      | intro _
      | with_reducible refine Inv.foldl ?_ ?_
      | with_reducible refine Inv.foldl2 ?_ ?_

theorem State.writeRecs_inv {s : State} {gid : Nat} {g : Group} {pc : Pc} {svpc : List Pc} {l : List LaneFault} {first : Bool} (h : Inv s) :
    Inv (State.writeRecs s gid g pc svpc l first).2.2.2.2 := by
  induction l generalizing s first with
  | nil => exact h
  | cons f t ih =>
    unfold State.writeRecs
    have hr : ∀ v n, Inv (s.ringPut g.ctx (fun s p => match s.xlate g.who p needW with
      | (.ok e size, s) => (match s.place false e size p with
        | .mem a => (some a, s)
        | _ => (none, s))
      | (_, s) => (none, s)) v n).2 := fun v n => State.ringPut_inv h (fun t a k => by
        have kx := State.xlate_inv (x1 := g.who) (x2 := a) (x3 := needW) k
        split
        · rename_i heq; rw [heq] at kx; split <;> exact kx
        · rename_i heq; rw [heq] at kx; exact kx)
    have hr := hr (s.faultRecord gid g pc f first) (if first then some svpc else none)
    dsimp only at hr ⊢
    generalize s.ringPut g.ctx _ _ _ = r at hr ⊢
    obtain ⟨r, s1⟩ := r
    cases r <;> first
      | exact hr
      | exact ih hr

theorem State.enterHandler_inv {s : State} {x1} {x2} {x3} (h : Inv s) :
    Inv (State.enterHandler s x1 x2 x3) := by
  unfold State.enterHandler
  (try dsimp only)
  repeat'
    first
      | with_reducible assumption
      | with_reducible refine State.modGrp_inv ?_
      | with_reducible refine State.acquirePkg_inv ?_

theorem State.deliverTrap_inv {s : State} {x1} {x2} {x3} {x4} {x5} {x6} (h : Inv s) :
    Inv (State.deliverTrap s x1 x2 x3 x4 x5 x6) := by
  unfold State.deliverTrap
  (try dsimp only)
  repeat'
    first
      | with_reducible assumption
      | with_reducible refine State.modGrp_inv ?_
      | with_reducible refine State.setCtxstat_inv ?_
      | with_reducible refine State.dieRecord_inv ?_
      | with_reducible refine State.stopFatal_inv ?_
      | with_reducible refine State.enterHandler_inv ?_
      | with_reducible refine Inv.getD ?_ ?_
      | intro _
      | with_reducible refine Inv.foldl ?_ ?_
      | with_reducible refine Inv.foldl2 ?_ ?_
      | with_reducible refine Inv.foldl3 ?_ ?_
      | with_reducible refine Inv.ite ?_ ?_

theorem State.enterUserTrap_inv {s : State} {x1} {x2} {x3} {x4} {x5} (h : Inv s) :
    Inv (State.enterUserTrap s x1 x2 x3 x4 x5) := by
  unfold State.enterUserTrap
  (try dsimp only)
  repeat'
    first
      | with_reducible assumption
      | with_reducible refine State.modGrp_inv ?_
      | with_reducible refine State.stopFatal_inv ?_
      | with_reducible refine State.spill_inv ?_
      | with_reducible refine State.writeRecs_inv ?_
      | with_reducible refine State.deliverTrap_inv ?_
      | with_reducible refine Inv.getD ?_ ?_
      | intro _
      | with_reducible refine Inv.foldl ?_ ?_
      | with_reducible refine Inv.foldl2 ?_ ?_
      | with_reducible refine Inv.foldl3 ?_ ?_
      | with_reducible refine Inv.ite ?_ ?_

theorem State.enterTrap_inv {s : State} {x1} {x2} (h : Inv s) :
    Inv (State.enterTrap s x1 x2) := by
  unfold State.enterTrap
  (try dsimp only)
  repeat'
    first
      | with_reducible assumption
      | with_reducible refine State.modGrp_inv ?_
      | with_reducible refine State.stopFatal_inv ?_
      | with_reducible refine State.enterUserTrap_inv ?_
      | with_reducible refine Inv.getD ?_ ?_
      | intro _
      | with_reducible refine Inv.foldl ?_ ?_
      | with_reducible refine Inv.foldl2 ?_ ?_
      | with_reducible refine Inv.foldl3 ?_ ?_
      | with_reducible refine Inv.ite ?_ ?_
      | split

theorem State.raiseTrap_inv {s : State} {x1} {x2} (h : Inv s) :
    Inv (State.raiseTrap s x1 x2) := by
  unfold State.raiseTrap
  repeat'
    first
      | with_reducible assumption
      | with_reducible refine State.modGrp_inv ?_
      | with_reducible refine State.enterTrap_inv ?_
      | with_reducible refine Inv.getD ?_ ?_
      | intro _
      | with_reducible refine Inv.foldl ?_ ?_
      | with_reducible refine Inv.foldl2 ?_ ?_
      | with_reducible refine Inv.foldl3 ?_ ?_
      | with_reducible refine Inv.ite ?_ ?_

theorem State.dropTeamBar_inv {s : State} {x1} {x2} {x3} (h : Inv s) :
    Inv (State.dropTeamBar s x1 x2 x3) := by
  unfold State.dropTeamBar
  (try dsimp only)
  repeat'
    first
      | with_reducible assumption
      | with_reducible refine State.setBar_inv ?_
      | with_reducible refine State.wakeBarrier_inv ?_
      | with_reducible refine Inv.getD ?_ ?_
      | intro _
      | with_reducible refine Inv.foldl ?_ ?_
      | with_reducible refine Inv.foldl2 ?_ ?_
      | with_reducible refine Inv.foldl3 ?_ ?_
      | with_reducible refine Inv.ite ?_ ?_
      | split

theorem State.dropClusterBar_inv {s : State} {x1} {x2} {x3} (h : Inv s) :
    Inv (State.dropClusterBar s x1 x2 x3) := by
  unfold State.dropClusterBar
  (try dsimp only)
  repeat'
    first
      | with_reducible assumption
      | with_reducible refine State.modLCl_inv ?_
      | with_reducible refine State.wakeBarrier_inv ?_
      | with_reducible refine Inv.getD ?_ ?_
      | intro _
      | with_reducible refine Inv.foldl ?_ ?_
      | with_reducible refine Inv.foldl2 ?_ ?_
      | with_reducible refine Inv.foldl3 ?_ ?_
      | with_reducible refine Inv.ite ?_ ?_
      | split

theorem State.dropAll_inv {s : State} {x1} {x2} (h : Inv s) :
    Inv (State.dropAll s x1 x2) := by
  unfold State.dropAll
  (try dsimp only)
  repeat'
    first
      | with_reducible assumption
      | with_reducible refine State.dropTeamBar_inv ?_
      | with_reducible refine State.dropClusterBar_inv ?_
      | with_reducible refine Inv.getD ?_ ?_
      | intro _
      | with_reducible refine Inv.foldl ?_ ?_

theorem State.firstIssue_inv {s : State} {x1} (h : Inv s) :
    Inv (State.firstIssue s x1) := by
  unfold State.firstIssue
  (try dsimp only)
  repeat'
    first
      | with_reducible assumption
      | with_reducible refine State.modCore_inv ?_
      | with_reducible refine State.modCtx_inv ?_
      | with_reducible refine Inv.getD ?_ ?_
      | intro _
      | with_reducible refine Inv.foldl ?_ ?_
      | with_reducible refine Inv.foldl2 ?_ ?_
      | with_reducible refine Inv.foldl3 ?_ ?_
      | with_reducible refine Inv.ite ?_ ?_

theorem State.chargeIssue_inv {s : State} {x1} {x2} {x3} (h : Inv s) :
    Inv (State.chargeIssue s x1 x2 x3) := by
  unfold State.chargeIssue
  repeat'
    first
      | with_reducible assumption
      | with_reducible refine State.modCore_inv ?_
      | with_reducible refine State.firstIssue_inv ?_

theorem State.reap_inv {s : State} {x1} (h : Inv s) :
    Inv (State.reap s x1) := by
  unfold State.reap
  repeat'
    first
      | with_reducible assumption
      | with_reducible refine State.delGrp_inv ?_
      | with_reducible refine Inv.getD ?_ ?_
      | intro _
      | with_reducible refine Inv.foldl ?_ ?_
      | with_reducible refine Inv.foldl2 ?_ ?_
      | with_reducible refine Inv.foldl3 ?_ ?_
      | with_reducible refine Inv.ite ?_ ?_
      | split

theorem State.requestPages_inv {s : State} {x1} {x2} {x3} {x4} {x5} (h : Inv s) :
    Inv (State.requestPages s x1 x2 x3 x4 x5) := by
  unfold State.requestPages
  (try dsimp only)
  repeat'
    first
      | with_reducible assumption
      | with_reducible refine State.request_inv ?_
      | with_reducible refine Inv.getD ?_ ?_
      | intro _
      | with_reducible refine Inv.foldl ?_ ?_

theorem State.retireGroup_inv {s : State} {x1} (h : Inv s) :
    Inv (State.retireGroup s x1) := by
  unfold State.retireGroup
  (try dsimp only)
  repeat'
    first
      | with_reducible assumption
      | with_reducible refine State.modTeam_inv ?_
      | with_reducible refine State.dropAll_inv ?_
      | with_reducible refine State.reap_inv ?_
      | with_reducible refine Inv.getD ?_ ?_
      | intro _
      | with_reducible refine Inv.foldl ?_ ?_
      | with_reducible refine Inv.foldl2 ?_ ?_
      | with_reducible refine Inv.foldl3 ?_ ?_
      | with_reducible refine Inv.ite ?_ ?_
      | split

theorem State.illegalKill_inv {s : State} {x1} (h : Inv s) :
    Inv (State.illegalKill s x1) := by
  unfold State.illegalKill
  (try dsimp only)
  repeat'
    first
      | with_reducible assumption
      | with_reducible refine State.modGrp_inv ?_
      | with_reducible refine State.modCtx_inv ?_
      | with_reducible refine State.chargeIssue_inv ?_
      | with_reducible refine State.retireGroup_inv ?_
      | with_reducible refine Inv.getD ?_ ?_
      | intro _
      | with_reducible refine Inv.foldl ?_ ?_
      | with_reducible refine Inv.foldl2 ?_ ?_
      | with_reducible refine Inv.foldl3 ?_ ?_
      | with_reducible refine Inv.ite ?_ ?_
      | split

theorem W.diverge_inv {w : W} (h : InvW w) :
    InvW (W.diverge w) := by
  unfold W.diverge
  (try dsimp only)
  repeat'
    first
      | with_reducible assumption
      | with_reducible refine InvW.s ?_
      | with_reducible refine InvW.s0 ?_
      | with_reducible refine InvW.fx ?_
      | with_reducible refine Inv.getD ?_ ?_
      | intro _
      | with_reducible refine Inv.foldl ?_ ?_
      | with_reducible refine Inv.foldl2 ?_ ?_
      | with_reducible refine Inv.foldl3 ?_ ?_
      | with_reducible refine Inv.ite ?_ ?_
      | with_reducible refine InvW.foldl ?_ ?_
      | with_reducible refine InvW.foldl2 ?_ ?_
      | with_reducible refine InvW.ite ?_ ?_
      | split
      | with_reducible refine Inv.snd (by assumption) ?_
      | with_reducible refine Inv.trd (by assumption) ?_
      | with_reducible refine InvW.snd (by assumption) ?_
      | with_reducible refine InvW.fst (by assumption) ?_
      | with_reducible refine InvW.make ?_ ?_ ?_
      | with_reducible refine Inv.fold ?_
      | with_reducible refine Inv.mk ?_

theorem W.absent_inv {w : W} {x1} (h : InvW w) :
    InvW (W.absent w x1) := by
  unfold W.absent
  repeat'
    first
      | with_reducible assumption
      | with_reducible refine W.diverge_inv ?_
      | with_reducible refine InvW.s ?_
      | with_reducible refine InvW.s0 ?_
      | with_reducible refine InvW.fx ?_
      | with_reducible refine Inv.getD ?_ ?_
      | intro _
      | with_reducible refine Inv.foldl ?_ ?_
      | with_reducible refine Inv.foldl2 ?_ ?_
      | with_reducible refine Inv.foldl3 ?_ ?_
      | with_reducible refine Inv.ite ?_ ?_
      | with_reducible refine InvW.foldl ?_ ?_
      | with_reducible refine InvW.foldl2 ?_ ?_
      | with_reducible refine InvW.ite ?_ ?_
      | split
      | with_reducible refine Inv.snd (by assumption) ?_
      | with_reducible refine Inv.trd (by assumption) ?_
      | with_reducible refine InvW.snd (by assumption) ?_
      | with_reducible refine InvW.fst (by assumption) ?_
      | with_reducible refine InvW.make ?_ ?_ ?_

theorem W.mod_inv {w : W} {x1} (h : InvW w) :
    InvW (W.mod w x1) := by
  unfold W.mod
  repeat'
    first
      | with_reducible assumption
      | with_reducible refine State.modGrp_inv ?_
      | with_reducible refine InvW.s ?_
      | with_reducible refine InvW.s0 ?_
      | with_reducible refine InvW.fx ?_
      | with_reducible refine Inv.getD ?_ ?_
      | intro _
      | with_reducible refine Inv.foldl ?_ ?_
      | with_reducible refine Inv.foldl2 ?_ ?_
      | with_reducible refine Inv.foldl3 ?_ ?_
      | with_reducible refine Inv.ite ?_ ?_
      | with_reducible refine InvW.foldl ?_ ?_
      | with_reducible refine InvW.foldl2 ?_ ?_
      | with_reducible refine InvW.ite ?_ ?_
      | split
      | with_reducible refine Inv.snd (by assumption) ?_
      | with_reducible refine Inv.trd (by assumption) ?_
      | with_reducible refine InvW.snd (by assumption) ?_
      | with_reducible refine InvW.fst (by assumption) ?_
      | with_reducible refine InvW.make ?_ ?_ ?_

theorem W.pend_inv {w : W} {x1} {x2} {x3} (h : InvW w) :
    InvW (W.pend w x1 x2 x3).2 := by
  unfold W.pend
  (try dsimp only)
  repeat'
    first
      | with_reducible assumption
      | with_reducible refine State.fresh_inv ?_
      | with_reducible refine W.mod_inv ?_
      | with_reducible refine InvW.s ?_
      | with_reducible refine InvW.s0 ?_
      | with_reducible refine InvW.fx ?_
      | with_reducible refine Inv.getD ?_ ?_
      | intro _
      | with_reducible refine Inv.foldl ?_ ?_
      | with_reducible refine Inv.foldl2 ?_ ?_
      | with_reducible refine Inv.foldl3 ?_ ?_
      | with_reducible refine Inv.ite ?_ ?_
      | with_reducible refine InvW.foldl ?_ ?_
      | with_reducible refine InvW.foldl2 ?_ ?_
      | with_reducible refine InvW.ite ?_ ?_
      | split
      | with_reducible refine Inv.snd (by assumption) ?_
      | with_reducible refine Inv.trd (by assumption) ?_
      | with_reducible refine InvW.snd (by assumption) ?_
      | with_reducible refine InvW.fst (by assumption) ?_
      | with_reducible refine InvW.make ?_ ?_ ?_

theorem W.var_inv {w : W} {x1} {x2} {x3} (h : InvW w) :
    InvW (W.var w x1 x2 x3) := by
  unfold W.var
  repeat'
    first
      | with_reducible assumption
      | with_reducible refine W.pend_inv ?_

theorem W.fault_inv {w : W} {x1} (h : InvW w) :
    InvW (W.fault w x1) := by
  unfold W.fault
  repeat'
    first
      | with_reducible assumption
      | with_reducible refine W.diverge_inv ?_
      | with_reducible refine InvW.s ?_
      | with_reducible refine InvW.s0 ?_
      | with_reducible refine InvW.fx ?_
      | with_reducible refine Inv.getD ?_ ?_
      | intro _
      | with_reducible refine Inv.foldl ?_ ?_
      | with_reducible refine Inv.foldl2 ?_ ?_
      | with_reducible refine Inv.foldl3 ?_ ?_
      | with_reducible refine Inv.ite ?_ ?_
      | with_reducible refine InvW.foldl ?_ ?_
      | with_reducible refine InvW.foldl2 ?_ ?_
      | with_reducible refine InvW.ite ?_ ?_
      | split
      | with_reducible refine Inv.snd (by assumption) ?_
      | with_reducible refine Inv.trd (by assumption) ?_
      | with_reducible refine InvW.snd (by assumption) ?_
      | with_reducible refine InvW.fst (by assumption) ?_
      | with_reducible refine InvW.make ?_ ?_ ?_

theorem W.faultWord_inv {w : W} {x1} {x2} {x3} (h : InvW w) :
    InvW (W.faultWord w x1 x2 x3) := by
  unfold W.faultWord
  repeat'
    first
      | with_reducible assumption
      | with_reducible refine W.diverge_inv ?_
      | with_reducible refine InvW.s ?_
      | with_reducible refine InvW.s0 ?_
      | with_reducible refine InvW.fx ?_
      | with_reducible refine Inv.getD ?_ ?_
      | intro _
      | with_reducible refine Inv.foldl ?_ ?_
      | with_reducible refine Inv.foldl2 ?_ ?_
      | with_reducible refine Inv.foldl3 ?_ ?_
      | with_reducible refine Inv.ite ?_ ?_
      | with_reducible refine InvW.foldl ?_ ?_
      | with_reducible refine InvW.foldl2 ?_ ?_
      | with_reducible refine InvW.ite ?_ ?_
      | split
      | with_reducible refine Inv.snd (by assumption) ?_
      | with_reducible refine Inv.trd (by assumption) ?_
      | with_reducible refine InvW.snd (by assumption) ?_
      | with_reducible refine InvW.fst (by assumption) ?_
      | with_reducible refine InvW.make ?_ ?_ ?_

theorem W.begin_inv {x0} {s : State} {x2} {x3} (h : Inv s) : InvW (W.begin x0 s x2 x3) := ⟨State.setGrp_inv h, h, fun _ k => k⟩

theorem W.jump_inv {w : W} {x1} (h : InvW w) :
    InvW (W.jump w x1) := by
  unfold W.jump
  repeat'
    first
      | with_reducible assumption
      | with_reducible refine InvW.s ?_
      | with_reducible refine InvW.s0 ?_
      | with_reducible refine InvW.fx ?_
      | with_reducible refine Inv.getD ?_ ?_
      | intro _
      | with_reducible refine Inv.foldl ?_ ?_
      | with_reducible refine Inv.foldl2 ?_ ?_
      | with_reducible refine Inv.foldl3 ?_ ?_
      | with_reducible refine Inv.ite ?_ ?_
      | with_reducible refine InvW.foldl ?_ ?_
      | with_reducible refine InvW.foldl2 ?_ ?_
      | with_reducible refine InvW.ite ?_ ?_
      | split
      | with_reducible refine Inv.snd (by assumption) ?_
      | with_reducible refine Inv.trd (by assumption) ?_
      | with_reducible refine InvW.snd (by assumption) ?_
      | with_reducible refine InvW.fst (by assumption) ?_
      | with_reducible refine InvW.make ?_ ?_ ?_

theorem W.heldState_inv {w : W} {x1} (h : InvW w) :
    Inv (W.heldState w x1) := by
  unfold W.heldState
  exact State.modGrp_inv (h.fx _ h.s0)

theorem W.settle_inv {w : W} {s : State} (h : InvW w) (h : Inv s) :
    Inv (W.settle w s) := by
  unfold W.settle
  (try dsimp only)
  repeat'
    first
      | with_reducible assumption
      | with_reducible refine State.modGrp_inv ?_
      | with_reducible refine State.raiseTrap_inv ?_
      | with_reducible refine State.requestPages_inv ?_
      | with_reducible refine InvW.s ?_
      | with_reducible refine InvW.s0 ?_
      | with_reducible refine InvW.fx ?_
      | with_reducible refine Inv.getD ?_ ?_
      | intro _
      | with_reducible refine Inv.foldl ?_ ?_
      | with_reducible refine Inv.foldl2 ?_ ?_
      | with_reducible refine Inv.foldl3 ?_ ?_
      | with_reducible refine Inv.ite ?_ ?_

theorem W.finish_inv {w : W} (h : InvW w) :
    Inv (W.finish w) := by
  unfold W.finish
  (try dsimp only)
  repeat'
    first
      | with_reducible assumption
      | with_reducible refine State.modGrp_inv ?_
      | with_reducible refine State.setGrp_inv ?_
      | with_reducible refine State.chargeIssue_inv ?_
      | with_reducible refine State.retireGroup_inv ?_
      | with_reducible refine W.heldState_inv ?_
      | with_reducible refine W.settle_inv ?_ ?_
      | with_reducible refine InvW.s ?_
      | with_reducible refine InvW.s0 ?_
      | with_reducible refine InvW.fx ?_
      | with_reducible refine Inv.getD ?_ ?_
      | intro _
      | with_reducible refine Inv.foldl ?_ ?_
      | with_reducible refine Inv.foldl2 ?_ ?_
      | with_reducible refine Inv.foldl3 ?_ ?_
      | with_reducible refine Inv.ite ?_ ?_
      | with_reducible refine InvW.foldl ?_ ?_
      | with_reducible refine InvW.foldl2 ?_ ?_
      | with_reducible refine InvW.ite ?_ ?_
      | split

theorem W.fixL_inv {w : W} {x1} {x2} (h : InvW w) :
    InvW (W.fixL w x1 x2) := by
  unfold W.fixL
  repeat'
    first
      | with_reducible assumption
      | with_reducible refine InvW.s ?_
      | with_reducible refine InvW.s0 ?_
      | with_reducible refine InvW.fx ?_
      | with_reducible refine Inv.getD ?_ ?_
      | intro _
      | with_reducible refine Inv.foldl ?_ ?_
      | with_reducible refine Inv.foldl2 ?_ ?_
      | with_reducible refine Inv.foldl3 ?_ ?_
      | with_reducible refine Inv.ite ?_ ?_
      | with_reducible refine InvW.foldl ?_ ?_
      | with_reducible refine InvW.foldl2 ?_ ?_
      | with_reducible refine InvW.ite ?_ ?_
      | split
      | with_reducible refine Inv.snd (by assumption) ?_
      | with_reducible refine Inv.trd (by assumption) ?_
      | with_reducible refine InvW.snd (by assumption) ?_
      | with_reducible refine InvW.fst (by assumption) ?_
      | with_reducible refine InvW.make ?_ ?_ ?_

theorem W.fix_inv {w : W} {x1} (h : InvW w) :
    InvW (W.fix w x1) := by
  unfold W.fix
  repeat'
    first
      | with_reducible assumption
      | with_reducible refine W.fixL_inv ?_

theorem wordStep_inv {f : Info} {keys : Group → List Nat → List Nat} {s : State} {g : Group} {pc : Pc} {body : W → W}
    (h : Inv s) (hb : ∀ w, InvW w → InvW (body w)) : Inv (wordStep f keys s g pc body) := by
  unfold wordStep
  dsimp only
  split
  · exact State.raiseTrap_inv (State.modGrp_inv (State.chargeIssue_inv h))
  · refine W.finish_inv (hb _ (W.begin_inv ?_))
    split
    · exact Inv.mk h
    · exact h

end Sys2Proof.Machine
end

