-- ==== Sys2Proof/Laws/KeepInteger.lean ====
section
/-! SUPPORT. The operations of Machine/Integer keep the machine's invariant `Inv`. -/

namespace Sys2Proof.Machine

theorem W.freeIn_inv {w : W} {x1} {x2} (h : InvW w) :
    InvW (W.freeIn w x1 x2).2 := by
  unfold W.freeIn
  (try dsimp only)
  repeat'
    first
      | with_reducible assumption
      | with_reducible refine InvW.s ?_
      | with_reducible refine InvW.s0 ?_
      | with_reducible refine InvW.fx ?_
      | with_reducible refine Inv.getD ?_ ?_
      | intro _
      | with_reducible refine Inv.foldl ?_ ?_
      | with_reducible refine Inv.foldl2 ?_ ?_
      | with_reducible refine Inv.foldl3 ?_ ?_
      | with_reducible refine Inv.ite ?_ ?_
      | with_reducible refine InvW.foldl ?_ ?_
      | with_reducible refine InvW.foldl2 ?_ ?_
      | with_reducible refine InvW.ite ?_ ?_
      | split
      | with_reducible refine Inv.snd (by assumption) ?_
      | with_reducible refine Inv.trd (by assumption) ?_
      | with_reducible refine InvW.snd (by assumption) ?_
      | with_reducible refine InvW.fst (by assumption) ?_
      | with_reducible refine InvW.make ?_ ?_ ?_
      | with_reducible refine Inv.fold ?_
      | with_reducible refine Inv.mk ?_

theorem W.put1_inv {w : W} {x1} {x2} (h : InvW w) :
    InvW (W.put1 w x1 x2) := by
  unfold W.put1
  repeat'
    first
      | with_reducible assumption
      | with_reducible refine W.fix_inv ?_

theorem W.put2_inv {w : W} {x1} {x2} (h : InvW w) :
    InvW (W.put2 w x1 x2) := by
  unfold W.put2
  repeat'
    first
      | with_reducible assumption
      | with_reducible refine W.fix_inv ?_

theorem W.putP_inv {w : W} {x1} {x2} (h : InvW w) :
    InvW (W.putP w x1 x2) := by
  unfold W.putP
  repeat'
    first
      | with_reducible assumption
      | with_reducible refine W.fix_inv ?_

end Sys2Proof.Machine
end

