-- ==== Sys2Proof/Laws/KeepFloatOps.lean ====
section
/-! SUPPORT. The operations of Machine/FloatOps keep the machine's invariant `Inv`. -/

namespace Sys2Proof.Machine

theorem W.packed_inv {w : W} {x1} {x2} {x3} {x4} (h : InvW w) :
    InvW (W.packed w x1 x2 x3 x4) := by
  unfold W.packed
  (try dsimp only)
  repeat'
    first
      | with_reducible assumption
      | with_reducible refine W.put1_inv ?_

theorem W.putF_inv {w : W} {x1} {x2} (h : InvW w) :
    InvW (W.putF w x1 x2) := by
  unfold W.putF
  repeat'
    first
      | with_reducible assumption
      | with_reducible refine W.put1_inv ?_

end Sys2Proof.Machine
end

