-- ==== Sys2Proof/Laws/KeepStack.lean ====
section
/-! SUPPORT. The operations of Machine/Stack keep the machine's invariant `Inv`. -/

namespace Sys2Proof.Machine

theorem State.backByte_inv {s : State} {x1} {x2} {x3} {x4} (h : Inv s) :
    Inv (State.backByte s x1 x2 x3 x4).2 := by
  unfold State.backByte
  (try dsimp only)
  repeat'
    first
      | with_reducible assumption
      | with_reducible refine State.xlate_inv ?_
      | with_reducible refine Inv.getD ?_ ?_
      | intro _
      | with_reducible refine Inv.foldl ?_ ?_
      | with_reducible refine Inv.foldl2 ?_ ?_
      | with_reducible refine Inv.foldl3 ?_ ?_
      | with_reducible refine Inv.ite ?_ ?_
      | split
      | with_reducible refine Inv.snd (by assumption) ?_

theorem State.backCheck_inv {s : State} {x1} {x2} {x3} {x4} (h : Inv s) :
    Inv (State.backCheck s x1 x2 x3 x4).2 := by
  unfold State.backCheck
  (try dsimp only)
  repeat'
    first
      | with_reducible assumption
      | with_reducible refine State.xlate_inv ?_
      | with_reducible refine Inv.getD ?_ ?_
      | intro _
      | with_reducible refine Inv.foldl ?_ ?_
      | with_reducible refine Inv.foldl2 ?_ ?_
      | with_reducible refine Inv.foldl3 ?_ ?_
      | with_reducible refine Inv.ite ?_ ?_
      | split
      | with_reducible refine Inv.snd (by assumption) ?_

theorem State.backChecks_inv {s : State} {x1} {x2} {x3} {x4} {x5} {x6} (h : Inv s) :
    Inv (State.backChecks s x1 x2 x3 x4 x5 x6).2 := by
  induction x5 generalizing s x6 with
  | zero =>
    unfold State.backChecks
    (try dsimp only)
    repeat'
      first
        | with_reducible assumption
  | succ n ih =>
    unfold State.backChecks
    repeat'
      first
        | with_reducible assumption
        | with_reducible refine ih ?_
        | with_reducible refine State.backCheck_inv ?_
        | with_reducible refine Inv.getD ?_ ?_
        | intro _
        | with_reducible refine Inv.foldl ?_ ?_
        | with_reducible refine Inv.foldl2 ?_ ?_
        | with_reducible refine Inv.foldl3 ?_ ?_
        | with_reducible refine Inv.ite ?_ ?_
        | split
        | with_reducible refine Inv.snd (by assumption) ?_

theorem State.fillStack_inv {s : State} {x1} (h : Inv s) :
    Inv (State.fillStack s x1) := by
  unfold State.fillStack
  (try dsimp only)
  repeat'
    first
      | with_reducible assumption
      | with_reducible refine State.modGrp_inv ?_
      | with_reducible refine State.backByte_inv ?_
      | with_reducible refine Inv.getD ?_ ?_
      | intro _
      | with_reducible refine Inv.foldl ?_ ?_
      | with_reducible refine Inv.foldl2 ?_ ?_
      | with_reducible refine Inv.foldl3 ?_ ?_
      | with_reducible refine Inv.ite ?_ ?_
      | split
      | with_reducible refine Inv.snd (by assumption) ?_

theorem State.stackByte_inv {s : State} {x1} {x2} {x3} {x4} (h : Inv s) :
    Inv (State.stackByte s x1 x2 x3 x4).2 := by
  unfold State.stackByte
  repeat'
    first
      | with_reducible assumption
      | with_reducible refine State.backByte_inv ?_
      | with_reducible refine Inv.getD ?_ ?_
      | intro _
      | with_reducible refine Inv.foldl ?_ ?_
      | with_reducible refine Inv.foldl2 ?_ ?_
      | with_reducible refine Inv.foldl3 ?_ ?_
      | with_reducible refine Inv.ite ?_ ?_
      | split

theorem State.readL_inv {s : State} {x1} {x2} {x3} {x4} {x5} (h : Inv s) :
    Inv (State.readL s x1 x2 x3 x4 x5).2 := by
  induction x4 generalizing s x5 with
  | zero =>
    unfold State.readL
    (try dsimp only)
    repeat'
      first
        | with_reducible assumption
  | succ n ih =>
    unfold State.readL
    repeat'
      first
        | with_reducible assumption
        | with_reducible refine ih ?_
        | with_reducible refine State.stackByte_inv ?_
        | with_reducible refine Inv.getD ?_ ?_
        | intro _
        | with_reducible refine Inv.foldl ?_ ?_
        | with_reducible refine Inv.foldl2 ?_ ?_
        | with_reducible refine Inv.foldl3 ?_ ?_
        | with_reducible refine Inv.ite ?_ ?_
        | split
        | with_reducible refine Inv.snd (by assumption) ?_

theorem State.spillOutside_inv {s : State} {x1} (h : Inv s) :
    Inv (State.spillOutside s x1) := by
  unfold State.spillOutside
  (try dsimp only)
  repeat'
    first
      | with_reducible assumption
      | with_reducible refine State.spill_inv ?_

theorem State.writeL_inv {s : State} {x1} {x2} {x3} {x4} {x5} {x6} (h : Inv s) :
    Inv (State.writeL s x1 x2 x3 x4 x5 x6) := by
  induction x6 generalizing s x5 with
  | nil =>
    unfold State.writeL
    repeat'
      first
        | with_reducible assumption
  | cons a t ih =>
    unfold State.writeL
    (try dsimp only)
    repeat'
      first
        | with_reducible assumption
        | with_reducible refine ih ?_
        | with_reducible refine State.modGrp_inv ?_
        | with_reducible refine State.put_inv ?_
        | with_reducible refine State.spillByte_inv ?_
        | with_reducible refine Inv.getD ?_ ?_
        | intro _
        | with_reducible refine Inv.foldl ?_ ?_
        | with_reducible refine Inv.foldl2 ?_ ?_
        | with_reducible refine Inv.foldl3 ?_ ?_
        | with_reducible refine Inv.ite ?_ ?_

theorem W.stackGot_inv {w : W} {x1} {x2} {x3} {x4} (h : InvW w) :
    InvW (W.stackGot w x1 x2 x3 x4) := by
  unfold W.stackGot
  repeat'
    first
      | with_reducible assumption
      | with_reducible refine W.absent_inv ?_
      | with_reducible refine W.fault_inv ?_
      | with_reducible refine InvW.s ?_
      | with_reducible refine InvW.s0 ?_
      | with_reducible refine InvW.fx ?_
      | with_reducible refine Inv.getD ?_ ?_
      | intro _
      | with_reducible refine Inv.foldl ?_ ?_
      | with_reducible refine Inv.foldl2 ?_ ?_
      | with_reducible refine Inv.foldl3 ?_ ?_
      | with_reducible refine Inv.ite ?_ ?_
      | with_reducible refine InvW.foldl ?_ ?_
      | with_reducible refine InvW.foldl2 ?_ ?_
      | with_reducible refine InvW.ite ?_ ?_
      | split
      | with_reducible refine Inv.snd (by assumption) ?_
      | with_reducible refine Inv.trd (by assumption) ?_
      | with_reducible refine InvW.snd (by assumption) ?_
      | with_reducible refine InvW.fst (by assumption) ?_
      | with_reducible refine InvW.make ?_ ?_ ?_

theorem W.setLsp_inv {w : W} {x1} {x2} (h : InvW w) :
    InvW (W.setLsp w x1 x2) := by
  unfold W.setLsp
  repeat'
    first
      | with_reducible assumption
      | with_reducible refine W.mod_inv ?_

theorem W.pushBytes_inv {w : W} {x1} {x2} (h : InvW w) :
    InvW (W.pushBytes w x1 x2) := by
  unfold W.pushBytes
  (try dsimp only)
  repeat'
    first
      | with_reducible assumption
      | with_reducible refine State.writeL_inv ?_
      | with_reducible refine W.eff_inv ?_ ?_
      | with_reducible refine W.setLsp_inv ?_
      | with_reducible refine InvW.s ?_
      | with_reducible refine InvW.s0 ?_
      | with_reducible refine InvW.fx ?_
      | with_reducible refine Inv.getD ?_ ?_
      | intro _

theorem W.stackOver_inv {w : W} {x1} {x2} (h : InvW w) :
    InvW (W.stackOver w x1 x2) := by
  unfold W.stackOver
  repeat'
    first
      | with_reducible assumption
      | with_reducible refine W.fault_inv ?_

end Sys2Proof.Machine
end

