-- ==== Sys2Proof/Laws/KeepCtlSpace.lean ====
section
/-! SUPPORT. The operations of Machine/CtlSpace keep the machine's invariant `Inv`. -/

namespace Sys2Proof.Machine

theorem State.ctlWrite_inv {s : State} {x1} {x2} {x3} (h : Inv s) :
    Inv (State.ctlWrite s x1 x2 x3) := by
  unfold State.ctlWrite
  repeat'
    first
      | with_reducible assumption
      | with_reducible refine Inv.getD ?_ ?_
      | intro _
      | with_reducible refine Inv.foldl ?_ ?_
      | with_reducible refine Inv.foldl2 ?_ ?_
      | with_reducible refine Inv.foldl3 ?_ ?_
      | with_reducible refine Inv.ite ?_ ?_
      | split
      | with_reducible refine Inv.snd (by assumption) ?_
      | with_reducible refine Inv.trd (by assumption) ?_
      | with_reducible refine Inv.fold ?_
      | with_reducible refine Inv.mk ?_

end Sys2Proof.Machine
end

