-- ==== Sys2Proof/Laws/KeepMem.lean ====
section
/-! SUPPORT. The operations of Machine/Mem keep the machine's invariant `Inv`. -/

namespace Sys2Proof.Machine

theorem State.reachG_inv {s : State} {x1} {x2} {x3} {x4} {x5} {x6} {x7} {x8} (h : Inv s) :
    Inv (State.reachG s x1 x2 x3 x4 x5 x6 x7 x8).2 := by
  unfold State.reachG
  (try dsimp only)
  repeat'
    first
      | with_reducible assumption
      | with_reducible refine State.xlate_inv ?_
      | with_reducible refine State.xlateL1_inv ?_
      | with_reducible refine Inv.getD ?_ ?_
      | intro _
      | with_reducible refine Inv.foldl ?_ ?_
      | with_reducible refine Inv.foldl2 ?_ ?_
      | with_reducible refine Inv.foldl3 ?_ ?_
      | with_reducible refine Inv.ite ?_ ?_
      | split
      | with_reducible refine Inv.snd (by assumption) ?_

theorem State.logLines_inv {s : State} {x1} {x2} {x3} (h : Inv s) :
    Inv (State.logLines s x1 x2 x3) := by
  unfold State.logLines
  repeat'
    first
      | with_reducible assumption
      | with_reducible refine State.logStore_inv ?_
      | with_reducible refine Inv.getD ?_ ?_
      | intro _
      | with_reducible refine Inv.foldl ?_ ?_

theorem State.prefLane_inv {x0} {x1} {s : State} {x3} (h : Inv s) :
    Inv (State.prefLane x0 x1 s x3) := by
  unfold State.prefLane
  repeat'
    first
      | with_reducible assumption
      | with_reducible refine State.fillL2_inv ?_
      | with_reducible refine State.fillL1_inv ?_
      | with_reducible refine Inv.getD ?_ ?_
      | intro _
      | with_reducible refine Inv.foldl ?_ ?_
      | with_reducible refine Inv.foldl2 ?_ ?_
      | with_reducible refine Inv.foldl3 ?_ ?_
      | with_reducible refine Inv.ite ?_ ?_
      | split

theorem State.probe_inv {s : State} {x1} {x2} (h : Inv s) :
    Inv (State.probe s x1 x2).2 := by
  unfold State.probe
  (try dsimp only)
  repeat'
    first
      | with_reducible assumption
      | with_reducible refine State.leafTlb_inv ?_
      | with_reducible refine Inv.getD ?_ ?_
      | intro _
      | with_reducible refine Inv.foldl ?_ ?_
      | with_reducible refine Inv.foldl2 ?_ ?_
      | with_reducible refine Inv.foldl3 ?_ ?_
      | with_reducible refine Inv.ite ?_ ?_
      | split

theorem State.probes_inv {s : State} {x1} {x2} {x3} {x4} (h : Inv s) :
    Inv (State.probes s x1 x2 x3 x4).2 := by
  induction x4 generalizing s with
  | nil =>
    unfold State.probes
    (try dsimp only)
    repeat'
      first
        | with_reducible assumption
  | cons a t ih =>
    unfold State.probes
    (try dsimp only)
    repeat'
      first
        | with_reducible assumption
        | with_reducible refine ih ?_
        | with_reducible refine State.probe_inv ?_

theorem State.reach_inv {s : State} {x1} {x2} {x3} {x4} {x5} {x6} {x7} {x8} (h : Inv s) :
    Inv (State.reach s x1 x2 x3 x4 x5 x6 x7 x8).2 := by
  unfold State.reach
  repeat'
    first
      | with_reducible assumption
      | with_reducible refine State.reachG_inv ?_
      | with_reducible refine Inv.getD ?_ ?_
      | intro _
      | with_reducible refine Inv.foldl ?_ ?_
      | with_reducible refine Inv.foldl2 ?_ ?_
      | with_reducible refine Inv.foldl3 ?_ ?_
      | with_reducible refine Inv.ite ?_ ?_
      | split

theorem State.reachAll_inv {s : State} {f1 : State → Nat → Reach × State} {x2} (h : Inv s) (hf : ∀ t a, Inv t → Inv (f1 t a).2) :
    Inv (State.reachAll s f1 x2).2 := by
  induction x2 generalizing s with
  | nil =>
    unfold State.reachAll
    (try dsimp only)
    repeat'
      first
        | with_reducible assumption
  | cons a t ih =>
    unfold State.reachAll
    (try dsimp only)
    repeat'
      first
        | with_reducible assumption
        | with_reducible refine ih ?_
        | with_reducible refine hf _ _ ?_

theorem State.reachPtrs_inv {s : State} {x1} {x2} {x3} {x4} {x5} (h : Inv s) :
    Inv (State.reachPtrs s x1 x2 x3 x4 x5).2 := by
  unfold State.reachPtrs
  repeat'
    first
      | with_reducible assumption
      | with_reducible refine State.reachG_inv ?_
      | with_reducible refine State.reachAll_inv ?_ ?_
      | with_reducible refine Inv.getD ?_ ?_
      | intro _

theorem State.takePath_inv {s : State} {x1} {x2} (h : Inv s) :
    Inv (State.takePath s x1 x2).2 := by
  unfold State.takePath
  (try dsimp only)
  repeat'
    first
      | with_reducible assumption
      | with_reducible refine State.modCore_inv ?_
      | with_reducible refine Inv.getD ?_ ?_
      | intro _
      | with_reducible refine Inv.foldl ?_ ?_
      | with_reducible refine Inv.foldl2 ?_ ?_
      | with_reducible refine Inv.foldl3 ?_ ?_
      | with_reducible refine Inv.ite ?_ ?_

theorem W.readLane_inv {w : W} {x1} {x2} {x3} {x4} {x5} (h : InvW w) :
    InvW (W.readLane w x1 x2 x3 x4 x5).2 := by
  unfold W.readLane
  repeat'
    first
      | with_reducible assumption
      | with_reducible refine State.loadG_inv ?_
      | with_reducible refine State.readL_inv ?_
      | with_reducible refine W.absent_inv ?_
      | with_reducible refine W.fault_inv ?_
      | with_reducible refine W.stackGot_inv ?_
      | with_reducible refine InvW.s ?_
      | with_reducible refine InvW.s0 ?_
      | with_reducible refine InvW.fx ?_
      | with_reducible refine Inv.getD ?_ ?_
      | intro _
      | with_reducible refine Inv.foldl ?_ ?_
      | with_reducible refine Inv.foldl2 ?_ ?_
      | with_reducible refine Inv.foldl3 ?_ ?_
      | with_reducible refine Inv.ite ?_ ?_
      | with_reducible refine InvW.foldl ?_ ?_
      | with_reducible refine InvW.foldl2 ?_ ?_
      | with_reducible refine InvW.ite ?_ ?_
      | split
      | with_reducible refine Inv.snd (by assumption) ?_
      | with_reducible refine Inv.trd (by assumption) ?_
      | with_reducible refine InvW.snd (by assumption) ?_
      | with_reducible refine InvW.fst (by assumption) ?_
      | with_reducible refine InvW.make ?_ ?_ ?_

theorem W.loadLanes_inv {w : W} {x1} {x2} {x3} {x4} (h : InvW w) :
    InvW (W.loadLanes w x1 x2 x3 x4).2 := by
  induction x4 generalizing w with
  | nil =>
    unfold W.loadLanes
    (try dsimp only)
    repeat'
      first
        | with_reducible assumption
  | cons a t ih =>
    unfold W.loadLanes
    (try dsimp only)
    repeat'
      first
        | with_reducible assumption
        | with_reducible refine ih ?_
        | with_reducible refine W.readLane_inv ?_

theorem remotePath_inv {x0} {x1} {acc : Nat × W} {x3} (h : InvW acc.2) :
    InvW (remotePath x0 x1 acc x3).2 := by
  unfold remotePath
  (try dsimp only)
  repeat'
    first
      | with_reducible assumption
      | with_reducible refine State.takePath_inv ?_
      | with_reducible refine InvW.s ?_
      | with_reducible refine InvW.s0 ?_
      | with_reducible refine InvW.fx ?_
      | with_reducible refine Inv.getD ?_ ?_
      | intro _
      | with_reducible refine Inv.foldl ?_ ?_
      | with_reducible refine Inv.foldl2 ?_ ?_
      | with_reducible refine Inv.foldl3 ?_ ?_
      | with_reducible refine Inv.ite ?_ ?_
      | with_reducible refine InvW.foldl ?_ ?_
      | with_reducible refine InvW.foldl2 ?_ ?_
      | with_reducible refine InvW.ite ?_ ?_
      | split
      | with_reducible refine Inv.snd (by assumption) ?_
      | with_reducible refine Inv.trd (by assumption) ?_
      | with_reducible refine InvW.snd (by assumption) ?_
      | with_reducible refine InvW.fst (by assumption) ?_
      | with_reducible refine InvW.make ?_ ?_ ?_

theorem W.paths_inv {w : W} {x1} {x2} (h : InvW w) :
    InvW (W.paths w x1 x2).2 := by
  unfold W.paths
  (try dsimp only)
  repeat'
    first
      | with_reducible assumption
      | with_reducible refine State.takePath_inv ?_
      | with_reducible refine W.mod_inv ?_
      | with_reducible refine remotePath_inv ?_
      | with_reducible refine InvW.s ?_
      | with_reducible refine InvW.s0 ?_
      | with_reducible refine InvW.fx ?_
      | with_reducible refine Inv.getD ?_ ?_
      | intro _
      | with_reducible refine Inv.foldl ?_ ?_
      | with_reducible refine Inv.foldl2 ?_ ?_
      | with_reducible refine Inv.foldl3 ?_ ?_
      | with_reducible refine Inv.ite ?_ ?_
      | with_reducible refine InvW.foldl ?_ ?_
      | with_reducible refine InvW.foldl2 ?_ ?_
      | with_reducible refine InvW.ite ?_ ?_
      | split
      | with_reducible refine Inv.snd (by assumption) ?_
      | with_reducible refine Inv.trd (by assumption) ?_
      | with_reducible refine InvW.snd (by assumption) ?_
      | with_reducible refine InvW.fst (by assumption) ?_
      | with_reducible refine InvW.make ?_ ?_ ?_

theorem W.loadDue_inv {w : W} {x1} {x2} {x3} (h : InvW w) :
    InvW (W.loadDue w x1 x2 x3).2 := by
  unfold W.loadDue
  (try dsimp only)
  repeat'
    first
      | with_reducible assumption
      | with_reducible refine State.freeDue_inv ?_
      | with_reducible refine W.paths_inv ?_
      | with_reducible refine InvW.s ?_
      | with_reducible refine InvW.s0 ?_
      | with_reducible refine InvW.fx ?_
      | with_reducible refine Inv.getD ?_ ?_
      | intro _
      | with_reducible refine Inv.foldl ?_ ?_
      | with_reducible refine Inv.foldl2 ?_ ?_
      | with_reducible refine Inv.foldl3 ?_ ?_
      | with_reducible refine Inv.ite ?_ ?_
      | with_reducible refine InvW.foldl ?_ ?_
      | with_reducible refine InvW.foldl2 ?_ ?_
      | with_reducible refine InvW.ite ?_ ?_
      | split
      | with_reducible refine Inv.snd (by assumption) ?_
      | with_reducible refine Inv.trd (by assumption) ?_
      | with_reducible refine InvW.snd (by assumption) ?_
      | with_reducible refine InvW.fst (by assumption) ?_
      | with_reducible refine InvW.make ?_ ?_ ?_

theorem W.load_inv {w : W} {x1} {x2} {x3} {x4} (h : InvW w) :
    InvW (W.load w x1 x2 x3 x4) := by
  unfold W.load
  (try dsimp only)
  repeat'
    first
      | with_reducible assumption
      | with_reducible refine State.reach_inv ?_
      | with_reducible refine State.reachAll_inv ?_ ?_
      | with_reducible refine W.var_inv ?_
      | with_reducible refine W.loadLanes_inv ?_
      | with_reducible refine W.loadDue_inv ?_
      | with_reducible refine InvW.s ?_
      | with_reducible refine InvW.s0 ?_
      | with_reducible refine InvW.fx ?_
      | with_reducible refine Inv.getD ?_ ?_
      | intro _
      | with_reducible refine Inv.foldl ?_ ?_
      | with_reducible refine Inv.foldl2 ?_ ?_
      | with_reducible refine Inv.foldl3 ?_ ?_
      | with_reducible refine Inv.ite ?_ ?_
      | with_reducible refine InvW.foldl ?_ ?_
      | with_reducible refine InvW.foldl2 ?_ ?_
      | with_reducible refine InvW.ite ?_ ?_
      | split
      | with_reducible refine Inv.snd (by assumption) ?_
      | with_reducible refine Inv.trd (by assumption) ?_
      | with_reducible refine InvW.snd (by assumption) ?_
      | with_reducible refine InvW.fst (by assumption) ?_
      | with_reducible refine InvW.make ?_ ?_ ?_

theorem onLine_inv {f0 : State → Nat → Nat → State} {s : State} {x2} (hf : ∀ t a b, Inv t → Inv (f0 t a b)) (h : Inv s) :
    Inv (onLine f0 s x2) := by
  unfold onLine
  repeat'
    first
      | with_reducible assumption
      | with_reducible refine hf _ _ _ ?_
      | with_reducible refine Inv.getD ?_ ?_
      | intro _
      | with_reducible refine Inv.foldl ?_ ?_
      | with_reducible refine Inv.foldl2 ?_ ?_
      | with_reducible refine Inv.foldl3 ?_ ?_
      | with_reducible refine Inv.ite ?_ ?_
      | split

theorem W.maintain_inv {w : W} {x1} {x2} {f3 : State → Nat → Nat → State} (h : InvW w) (hf : ∀ t a b, Inv t → Inv (f3 t a b)) :
    InvW (W.maintain w x1 x2 f3) := by
  unfold W.maintain
  (try dsimp only)
  repeat'
    first
      | with_reducible assumption
      | with_reducible refine State.reachPtrs_inv ?_
      | with_reducible refine W.eff_inv ?_ ?_
      | with_reducible refine onLine_inv ?_ ?_
      | with_reducible refine hf _ _ _ ?_
      | with_reducible refine InvW.s ?_
      | with_reducible refine InvW.s0 ?_
      | with_reducible refine InvW.fx ?_
      | with_reducible refine Inv.getD ?_ ?_
      | intro _
      | with_reducible refine Inv.foldl ?_ ?_
      | with_reducible refine Inv.foldl2 ?_ ?_
      | with_reducible refine Inv.foldl3 ?_ ?_
      | with_reducible refine Inv.ite ?_ ?_
      | with_reducible refine InvW.foldl ?_ ?_
      | with_reducible refine InvW.foldl2 ?_ ?_
      | with_reducible refine InvW.ite ?_ ?_
      | split
      | with_reducible refine Inv.snd (by assumption) ?_
      | with_reducible refine Inv.trd (by assumption) ?_
      | with_reducible refine InvW.snd (by assumption) ?_
      | with_reducible refine InvW.fst (by assumption) ?_
      | with_reducible refine InvW.make ?_ ?_ ?_

theorem W.varFree_inv {w : W} {x1} {x2} (h : InvW w) :
    InvW (W.varFree w x1 x2) := by
  unfold W.varFree
  repeat'
    first
      | with_reducible assumption
      | with_reducible refine State.freeDue_inv ?_
      | with_reducible refine W.var_inv ?_
      | with_reducible refine InvW.s ?_
      | with_reducible refine InvW.s0 ?_
      | with_reducible refine InvW.fx ?_
      | with_reducible refine Inv.getD ?_ ?_
      | intro _
      | with_reducible refine Inv.foldl ?_ ?_
      | with_reducible refine Inv.foldl2 ?_ ?_
      | with_reducible refine Inv.foldl3 ?_ ?_
      | with_reducible refine Inv.ite ?_ ?_
      | with_reducible refine InvW.foldl ?_ ?_
      | with_reducible refine InvW.foldl2 ?_ ?_
      | with_reducible refine InvW.ite ?_ ?_
      | split
      | with_reducible refine Inv.snd (by assumption) ?_
      | with_reducible refine Inv.trd (by assumption) ?_
      | with_reducible refine InvW.snd (by assumption) ?_
      | with_reducible refine InvW.fst (by assumption) ?_
      | with_reducible refine InvW.make ?_ ?_ ?_

theorem W.pref_inv {w : W} {x1} {x2} {x3} (h : InvW w) :
    InvW (W.pref w x1 x2 x3) := by
  unfold W.pref
  (try dsimp only)
  repeat'
    first
      | with_reducible assumption
      | with_reducible refine State.prefLane_inv ?_
      | with_reducible refine State.reachPtrs_inv ?_
      | with_reducible refine W.eff_inv ?_ ?_
      | with_reducible refine InvW.s ?_
      | with_reducible refine InvW.s0 ?_
      | with_reducible refine InvW.fx ?_
      | with_reducible refine Inv.getD ?_ ?_
      | intro _
      | with_reducible refine Inv.foldl ?_ ?_
      | with_reducible refine Inv.foldl2 ?_ ?_
      | with_reducible refine Inv.foldl3 ?_ ?_
      | with_reducible refine Inv.ite ?_ ?_
      | with_reducible refine InvW.foldl ?_ ?_
      | with_reducible refine InvW.foldl2 ?_ ?_
      | with_reducible refine InvW.ite ?_ ?_
      | split
      | with_reducible refine Inv.snd (by assumption) ?_
      | with_reducible refine Inv.trd (by assumption) ?_
      | with_reducible refine InvW.snd (by assumption) ?_
      | with_reducible refine InvW.fst (by assumption) ?_
      | with_reducible refine InvW.make ?_ ?_ ?_

theorem W.writeLane_inv {w : W} {x1} {x2} {x3} {x4} {x5} (h : InvW w) :
    InvW (W.writeLane w x1 x2 x3 x4 x5) := by
  unfold W.writeLane
  repeat'
    first
      | with_reducible assumption
      | with_reducible refine State.put_inv ?_
      | with_reducible refine State.backChecks_inv ?_
      | with_reducible refine State.ctlWrite_inv ?_
      | with_reducible refine State.storeG_inv ?_
      | with_reducible refine State.writeL_inv ?_
      | with_reducible refine W.fault_inv ?_
      | with_reducible refine W.stackGot_inv ?_
      | with_reducible refine W.eff_inv ?_ ?_
      | with_reducible refine InvW.s ?_
      | with_reducible refine InvW.s0 ?_
      | with_reducible refine InvW.fx ?_
      | with_reducible refine Inv.getD ?_ ?_
      | intro _
      | with_reducible refine Inv.foldl ?_ ?_
      | with_reducible refine Inv.foldl2 ?_ ?_
      | with_reducible refine Inv.foldl3 ?_ ?_
      | with_reducible refine Inv.ite ?_ ?_
      | with_reducible refine InvW.foldl ?_ ?_
      | with_reducible refine InvW.foldl2 ?_ ?_
      | with_reducible refine InvW.ite ?_ ?_
      | split
      | with_reducible refine Inv.snd (by assumption) ?_
      | with_reducible refine Inv.trd (by assumption) ?_
      | with_reducible refine InvW.snd (by assumption) ?_
      | with_reducible refine InvW.fst (by assumption) ?_
      | with_reducible refine InvW.make ?_ ?_ ?_

theorem W.store_inv {w : W} {x1} {x2} {x3} {x4} (h : InvW w) :
    InvW (W.store w x1 x2 x3 x4) := by
  unfold W.store
  (try dsimp only)
  repeat'
    first
      | with_reducible assumption
      | with_reducible refine State.logLines_inv ?_
      | with_reducible refine State.reach_inv ?_
      | with_reducible refine State.reachAll_inv ?_ ?_
      | with_reducible refine W.eff_inv ?_ ?_
      | with_reducible refine W.paths_inv ?_
      | with_reducible refine W.writeLane_inv ?_
      | with_reducible refine InvW.s ?_
      | with_reducible refine InvW.s0 ?_
      | with_reducible refine InvW.fx ?_
      | with_reducible refine Inv.getD ?_ ?_
      | intro _
      | with_reducible refine Inv.foldl ?_ ?_
      | with_reducible refine Inv.foldl2 ?_ ?_
      | with_reducible refine Inv.foldl3 ?_ ?_
      | with_reducible refine Inv.ite ?_ ?_
      | with_reducible refine InvW.foldl ?_ ?_
      | with_reducible refine InvW.foldl2 ?_ ?_
      | with_reducible refine InvW.ite ?_ ?_
      | split
      | with_reducible refine Inv.snd (by assumption) ?_
      | with_reducible refine Inv.trd (by assumption) ?_
      | with_reducible refine InvW.snd (by assumption) ?_
      | with_reducible refine InvW.fst (by assumption) ?_
      | with_reducible refine InvW.make ?_ ?_ ?_

theorem W.touchFaults_inv {w : W} {x1} (h : InvW w) :
    InvW (W.touchFaults w x1) := by
  unfold W.touchFaults
  repeat'
    first
      | with_reducible assumption
      | with_reducible refine W.absent_inv ?_
      | with_reducible refine W.fault_inv ?_
      | with_reducible refine InvW.s ?_
      | with_reducible refine InvW.s0 ?_
      | with_reducible refine InvW.fx ?_
      | with_reducible refine Inv.getD ?_ ?_
      | intro _
      | with_reducible refine Inv.foldl ?_ ?_
      | with_reducible refine Inv.foldl2 ?_ ?_
      | with_reducible refine Inv.foldl3 ?_ ?_
      | with_reducible refine Inv.ite ?_ ?_
      | with_reducible refine InvW.foldl ?_ ?_
      | with_reducible refine InvW.foldl2 ?_ ?_
      | with_reducible refine InvW.ite ?_ ?_
      | split

theorem W.touch_inv {w : W} {x1} {x2} {x3} (h : InvW w) :
    InvW (W.touch w x1 x2 x3) := by
  unfold W.touch
  (try dsimp only)
  repeat'
    first
      | with_reducible assumption
      | with_reducible refine State.freeDue_inv ?_
      | with_reducible refine State.reachPtrs_inv ?_
      | with_reducible refine W.mod_inv ?_
      | with_reducible refine W.pend_inv ?_
      | with_reducible refine W.touchFaults_inv ?_
      | with_reducible refine InvW.s ?_
      | with_reducible refine InvW.s0 ?_
      | with_reducible refine InvW.fx ?_
      | with_reducible refine Inv.getD ?_ ?_
      | intro _
      | with_reducible refine Inv.foldl ?_ ?_
      | with_reducible refine Inv.foldl2 ?_ ?_
      | with_reducible refine Inv.foldl3 ?_ ?_
      | with_reducible refine Inv.ite ?_ ?_
      | with_reducible refine InvW.foldl ?_ ?_
      | with_reducible refine InvW.foldl2 ?_ ?_
      | with_reducible refine InvW.ite ?_ ?_
      | split
      | with_reducible refine Inv.snd (by assumption) ?_
      | with_reducible refine Inv.trd (by assumption) ?_
      | with_reducible refine InvW.snd (by assumption) ?_
      | with_reducible refine InvW.fst (by assumption) ?_
      | with_reducible refine InvW.make ?_ ?_ ?_

theorem flushLine_inv {x0} {x1} {s : State} {x3} {x4} (h : Inv s) :
    Inv (flushLine x0 x1 s x3 x4) := by
  unfold flushLine
  (try dsimp only)
  repeat'
    first
      | with_reducible assumption
      | with_reducible refine State.writeBackLine_inv ?_
      | with_reducible refine State.flushL2Line_inv ?_
      | with_reducible refine Inv.getD ?_ ?_
      | intro _
      | with_reducible refine Inv.foldl ?_ ?_
      | with_reducible refine Inv.foldl2 ?_ ?_
      | with_reducible refine Inv.foldl3 ?_ ?_
      | with_reducible refine Inv.ite ?_ ?_

theorem invLine_inv {x0} {x1} {s : State} {x3} {x4} (h : Inv s) :
    Inv (invLine x0 x1 s x3 x4) := by
  unfold invLine
  (try dsimp only)
  repeat'
    first
      | with_reducible assumption
      | with_reducible refine State.dropLine_inv ?_
      | with_reducible refine State.dropL2Line_inv ?_
      | with_reducible refine Inv.getD ?_ ?_
      | intro _
      | with_reducible refine Inv.foldl ?_ ?_
      | with_reducible refine Inv.foldl2 ?_ ?_
      | with_reducible refine Inv.foldl3 ?_ ?_
      | with_reducible refine Inv.ite ?_ ?_

end Sys2Proof.Machine
end

