-- ==== Sys2Proof/Laws/KeepAtomics.lean ====
section
/-! SUPPORT. The operations of Machine/Atomics keep the machine's invariant `Inv`. -/

namespace Sys2Proof.Machine

theorem State.acquireNow_inv {s : State} {x1} {x2} (h : Inv s) :
    Inv (State.acquireNow s x1 x2) := by
  unfold State.acquireNow
  repeat'
    first
      | with_reducible assumption
      | with_reducible refine State.invalCleanL1_inv ?_
      | with_reducible refine State.acquirePkg_inv ?_
      | with_reducible refine Inv.getD ?_ ?_
      | intro _
      | with_reducible refine Inv.foldl ?_ ?_
      | with_reducible refine Inv.foldl2 ?_ ?_
      | with_reducible refine Inv.foldl3 ?_ ?_
      | with_reducible refine Inv.ite ?_ ?_

theorem State.addFence_inv {s : State} {x1} {x2} {x3} (h : Inv s) :
    Inv (State.addFence s x1 x2 x3) := by
  unfold State.addFence
  repeat'
    first
      | with_reducible assumption
      | with_reducible refine State.modGrp_inv ?_
      | with_reducible refine Inv.getD ?_ ?_
      | intro _
      | with_reducible refine Inv.foldl ?_ ?_
      | with_reducible refine Inv.foldl2 ?_ ?_
      | with_reducible refine Inv.foldl3 ?_ ?_
      | with_reducible refine Inv.ite ?_ ?_
      | split
      | with_reducible refine Inv.snd (by assumption) ?_
      | with_reducible refine Inv.trd (by assumption) ?_
      | with_reducible refine Inv.fold ?_
      | with_reducible refine Inv.mk ?_

theorem State.atomAt_inv {s : State} {x1} {x2} {x3} (h : Inv s) :
    Inv (State.atomAt s x1 x2 x3).2.2 := by
  unfold State.atomAt
  (try dsimp only)
  repeat'
    first
      | with_reducible assumption
      | with_reducible refine State.put_inv ?_
      | with_reducible refine State.homePut_inv ?_
      | with_reducible refine Inv.getD ?_ ?_
      | intro _
      | with_reducible refine Inv.foldl ?_ ?_
      | with_reducible refine Inv.foldl2 ?_ ?_
      | with_reducible refine Inv.foldl3 ?_ ?_
      | with_reducible refine Inv.ite ?_ ?_
      | split

theorem State.atomLanes_inv {s : State} {x1} {x2} {x3} {x4} {x5} (h : Inv s) :
    Inv (State.atomLanes s x1 x2 x3 x4 x5).2 := by
  induction x5 generalizing s with
  | nil =>
    unfold State.atomLanes
    (try dsimp only)
    repeat'
      first
        | with_reducible assumption
  | cons a t ih =>
    unfold State.atomLanes
    (try dsimp only)
    repeat'
      first
        | with_reducible assumption
        | with_reducible refine ih ?_
        | with_reducible refine State.atomAt_inv ?_

theorem State.redoLine_inv {s : State} {x1} (h : Inv s) :
    Inv (State.redoLine s x1) := by
  unfold State.redoLine
  (try dsimp only)
  repeat'
    first
      | with_reducible assumption
      | with_reducible refine State.modDie_inv ?_
      | with_reducible refine Inv.getD ?_ ?_
      | intro _
      | with_reducible refine Inv.foldl ?_ ?_
      | with_reducible refine Inv.foldl2 ?_ ?_
      | with_reducible refine Inv.foldl3 ?_ ?_
      | with_reducible refine Inv.ite ?_ ?_

theorem State.performLane_inv {x0} {acc : List (Nat × Word) × List LaneFault × State} {x2} (h : Inv acc.2.2) :
    Inv (State.performLane x0 acc x2).2.2 := by
  unfold State.performLane
  (try dsimp only)
  repeat'
    first
      | with_reducible assumption
      | with_reducible refine State.atomAt_inv ?_
      | with_reducible refine State.redoLine_inv ?_
      | with_reducible refine State.recallLine_inv ?_
      | with_reducible refine Inv.getD ?_ ?_
      | intro _
      | with_reducible refine Inv.foldl ?_ ?_
      | with_reducible refine Inv.foldl2 ?_ ?_
      | with_reducible refine Inv.foldl3 ?_ ?_
      | with_reducible refine Inv.ite ?_ ?_
      | split

theorem State.atomPerform_inv {s : State} {x1} (h : Inv s) :
    Inv (State.atomPerform s x1) := by
  unfold State.atomPerform
  (try dsimp only)
  repeat'
    first
      | with_reducible assumption
      | with_reducible refine State.modGrp_inv ?_
      | with_reducible refine State.performLane_inv ?_
      | with_reducible refine State.raiseTrap_inv ?_
      | with_reducible refine Inv.getD ?_ ?_
      | intro _
      | with_reducible refine Inv.foldl ?_ ?_
      | with_reducible refine Inv.foldl2 ?_ ?_
      | with_reducible refine Inv.foldl3 ?_ ?_
      | with_reducible refine Inv.ite ?_ ?_
      | split
      | with_reducible refine Inv.snd (by assumption) ?_
      | with_reducible refine Inv.trd (by assumption) ?_
      | with_reducible refine Inv.fold ?_
      | with_reducible refine Inv.mk ?_

theorem State.beginRelease_inv {s : State} {x1} {x2} {x3} (h : Inv s) :
    Inv (State.beginRelease s x1 x2 x3).2 := by
  unfold State.beginRelease
  (try dsimp only)
  repeat'
    first
      | with_reducible assumption
      | with_reducible refine State.fresh_inv ?_
      | with_reducible refine State.writeBackL1_inv ?_
      | with_reducible refine State.freeDue_inv ?_
      | with_reducible refine Inv.getD ?_ ?_
      | intro _
      | with_reducible refine Inv.foldl ?_ ?_
      | with_reducible refine Inv.foldl2 ?_ ?_
      | with_reducible refine Inv.foldl3 ?_ ?_
      | with_reducible refine Inv.ite ?_ ?_
      | split
      | with_reducible refine Inv.snd (by assumption) ?_
      | with_reducible refine Inv.trd (by assumption) ?_
      | with_reducible refine Inv.fold ?_
      | with_reducible refine Inv.mk ?_

theorem State.logMod_inv {s : State} {x1} {x2} {x3} (h : Inv s) :
    Inv (State.logMod s x1 x2 x3) := by
  unfold State.logMod
  (try dsimp only)
  repeat'
    first
      | with_reducible assumption
      | with_reducible refine State.modCore_inv ?_
      | with_reducible refine Inv.getD ?_ ?_
      | intro _
      | with_reducible refine Inv.foldl ?_ ?_
      | with_reducible refine Inv.foldl2 ?_ ?_
      | with_reducible refine Inv.foldl3 ?_ ?_
      | with_reducible refine Inv.ite ?_ ?_
      | split
      | with_reducible refine Inv.snd (by assumption) ?_
      | with_reducible refine Inv.trd (by assumption) ?_
      | with_reducible refine Inv.fold ?_
      | with_reducible refine Inv.mk ?_

theorem State.fenceOne_inv {s : State} {x1} {x2} (h : Inv s) :
    Inv (State.fenceOne s x1 x2).2 := by
  unfold State.fenceOne
  (try dsimp only)
  repeat'
    first
      | with_reducible assumption
      | with_reducible refine State.invalCleanL1_inv ?_
      | with_reducible refine State.acquireNow_inv ?_
      | with_reducible refine State.beginRelease_inv ?_
      | with_reducible refine Inv.getD ?_ ?_
      | intro _
      | with_reducible refine Inv.foldl ?_ ?_
      | with_reducible refine Inv.foldl2 ?_ ?_
      | with_reducible refine Inv.foldl3 ?_ ?_
      | with_reducible refine Inv.ite ?_ ?_
      | split

theorem State.fenceStep_inv {s : State} {x1} (h : Inv s) :
    Inv (State.fenceStep s x1) := by
  unfold State.fenceStep
  (try dsimp only)
  repeat'
    first
      | with_reducible assumption
      | with_reducible refine State.modGrp_inv ?_
      | with_reducible refine State.fenceOne_inv ?_
      | with_reducible refine State.reap_inv ?_
      | with_reducible refine Inv.getD ?_ ?_
      | intro _
      | with_reducible refine Inv.foldl ?_ ?_
      | with_reducible refine Inv.foldl2 ?_ ?_

theorem State.logDrop_inv {s : State} {x1} {x2} (h : Inv s) :
    Inv (State.logDrop s x1 x2) := by
  unfold State.logDrop
  repeat'
    first
      | with_reducible assumption
      | with_reducible refine State.modCore_inv ?_
      | with_reducible refine Inv.getD ?_ ?_
      | intro _
      | with_reducible refine Inv.foldl ?_ ?_
      | with_reducible refine Inv.foldl2 ?_ ?_
      | with_reducible refine Inv.foldl3 ?_ ?_
      | with_reducible refine Inv.ite ?_ ?_
      | split
      | with_reducible refine Inv.snd (by assumption) ?_
      | with_reducible refine Inv.trd (by assumption) ?_
      | with_reducible refine Inv.fold ?_
      | with_reducible refine Inv.mk ?_

theorem State.logLate_inv {s : State} {x1} {x2} {x3} (h : Inv s) :
    Inv (State.logLate s x1 x2 x3) := by
  unfold State.logLate
  repeat'
    first
      | with_reducible assumption
      | with_reducible refine State.lateRecord_inv ?_
      | with_reducible refine State.logDrop_inv ?_

theorem State.logPut_inv {s : State} {x1} {x2} {x3} {x4} {x5} (h : Inv s) :
    Inv (State.logPut s x1 x2 x3 x4 x5) := by
  unfold State.logPut
  (try dsimp only)
  repeat'
    first
      | with_reducible assumption
      | with_reducible refine State.countReq_inv ?_
      | with_reducible refine State.atomAt_inv ?_
      | with_reducible refine State.recallLine_inv ?_
      | with_reducible refine State.storeG_inv ?_
      | with_reducible refine Inv.getD ?_ ?_
      | intro _
      | with_reducible refine Inv.foldl ?_ ?_
      | with_reducible refine Inv.foldl2 ?_ ?_
      | with_reducible refine Inv.foldl3 ?_ ?_
      | with_reducible refine Inv.ite ?_ ?_
      | split

theorem State.logXlate_inv {s : State} {x1} {x2} (h : Inv s) :
    Inv (State.logXlate s x1 x2).2 := by
  unfold State.logXlate
  repeat'
    first
      | with_reducible assumption
      | with_reducible refine State.xlate_inv ?_
      | with_reducible refine State.xlateCtx_inv ?_
      | with_reducible refine Inv.getD ?_ ?_
      | intro _
      | with_reducible refine Inv.foldl ?_ ?_
      | with_reducible refine Inv.foldl2 ?_ ?_
      | with_reducible refine Inv.foldl3 ?_ ?_
      | with_reducible refine Inv.ite ?_ ?_
      | split

theorem State.logReplay_inv {s : State} {x1} {x2} (h : Inv s) :
    Inv (State.logReplay s x1 x2) := by
  unfold State.logReplay
  (try dsimp only)
  repeat'
    first
      | with_reducible assumption
      | with_reducible refine State.request_inv ?_
      | with_reducible refine State.logMod_inv ?_
      | with_reducible refine State.logDrop_inv ?_
      | with_reducible refine State.logLate_inv ?_
      | with_reducible refine State.logPut_inv ?_
      | with_reducible refine State.logXlate_inv ?_
      | with_reducible refine Inv.getD ?_ ?_
      | intro _
      | with_reducible refine Inv.foldl ?_ ?_
      | with_reducible refine Inv.foldl2 ?_ ?_
      | with_reducible refine Inv.foldl3 ?_ ?_
      | with_reducible refine Inv.ite ?_ ?_
      | split
      | with_reducible refine Inv.snd (by assumption) ?_

theorem State.writeBackDone_inv {s : State} {x1} (h : Inv s) :
    Inv (State.writeBackDone s x1) := by
  unfold State.writeBackDone
  repeat'
    first
      | with_reducible assumption
      | with_reducible refine State.flushL2Line_inv ?_
      | with_reducible refine Inv.getD ?_ ?_
      | intro _
      | with_reducible refine Inv.foldl ?_ ?_
      | with_reducible refine Inv.foldl2 ?_ ?_
      | with_reducible refine Inv.foldl3 ?_ ?_
      | with_reducible refine Inv.ite ?_ ?_
      | split
      | with_reducible refine Inv.snd (by assumption) ?_
      | with_reducible refine Inv.trd (by assumption) ?_
      | with_reducible refine Inv.fold ?_
      | with_reducible refine Inv.mk ?_

theorem W.addFence_inv {w : W} {x1} (h : InvW w) :
    InvW (W.addFence w x1).2 := by
  unfold W.addFence
  (try dsimp only)
  repeat'
    first
      | with_reducible assumption
      | with_reducible refine State.addFence_inv ?_
      | with_reducible refine InvW.s ?_
      | with_reducible refine InvW.s0 ?_
      | with_reducible refine InvW.fx ?_
      | with_reducible refine Inv.getD ?_ ?_
      | intro _
      | with_reducible refine Inv.foldl ?_ ?_
      | with_reducible refine Inv.foldl2 ?_ ?_
      | with_reducible refine Inv.foldl3 ?_ ?_
      | with_reducible refine Inv.ite ?_ ?_
      | with_reducible refine InvW.foldl ?_ ?_
      | with_reducible refine InvW.foldl2 ?_ ?_
      | with_reducible refine InvW.ite ?_ ?_
      | split
      | with_reducible refine Inv.snd (by assumption) ?_
      | with_reducible refine Inv.trd (by assumption) ?_
      | with_reducible refine InvW.snd (by assumption) ?_
      | with_reducible refine InvW.fst (by assumption) ?_
      | with_reducible refine InvW.make ?_ ?_ ?_

theorem W.acqAfter_inv {w : W} {x1} (h : InvW w) :
    InvW (W.acqAfter w x1) := by
  unfold W.acqAfter
  (try dsimp only)
  repeat'
    first
      | with_reducible assumption
      | with_reducible refine W.addFence_inv ?_
      | with_reducible refine InvW.s ?_
      | with_reducible refine InvW.s0 ?_
      | with_reducible refine InvW.fx ?_
      | with_reducible refine Inv.getD ?_ ?_
      | intro _
      | with_reducible refine Inv.foldl ?_ ?_
      | with_reducible refine Inv.foldl2 ?_ ?_
      | with_reducible refine Inv.foldl3 ?_ ?_
      | with_reducible refine Inv.ite ?_ ?_
      | with_reducible refine InvW.foldl ?_ ?_
      | with_reducible refine InvW.foldl2 ?_ ?_
      | with_reducible refine InvW.ite ?_ ?_

theorem W.atomDry_inv {w : W} {x1} {x2} {x3} (h : InvW w) :
    InvW (W.atomDry w x1 x2 x3) := by
  unfold W.atomDry
  (try dsimp only)
  repeat'
    first
      | with_reducible assumption
      | with_reducible refine W.var_inv ?_
      | with_reducible refine W.readLane_inv ?_
      | with_reducible refine InvW.s ?_
      | with_reducible refine InvW.s0 ?_
      | with_reducible refine InvW.fx ?_
      | with_reducible refine Inv.getD ?_ ?_
      | intro _
      | with_reducible refine Inv.foldl ?_ ?_
      | with_reducible refine Inv.foldl2 ?_ ?_
      | with_reducible refine Inv.foldl3 ?_ ?_
      | with_reducible refine Inv.ite ?_ ?_
      | with_reducible refine InvW.foldl ?_ ?_
      | with_reducible refine InvW.foldl2 ?_ ?_
      | with_reducible refine InvW.ite ?_ ?_
      | split

theorem W.atomFaults_inv {w : W} {x1} {x2} (h : InvW w) :
    InvW (W.atomFaults w x1 x2) := by
  unfold W.atomFaults
  repeat'
    first
      | with_reducible assumption
      | with_reducible refine W.absent_inv ?_
      | with_reducible refine W.fault_inv ?_
      | with_reducible refine InvW.s ?_
      | with_reducible refine InvW.s0 ?_
      | with_reducible refine InvW.fx ?_
      | with_reducible refine Inv.getD ?_ ?_
      | intro _
      | with_reducible refine Inv.foldl ?_ ?_
      | with_reducible refine Inv.foldl2 ?_ ?_
      | with_reducible refine Inv.foldl3 ?_ ?_
      | with_reducible refine Inv.ite ?_ ?_
      | with_reducible refine InvW.foldl ?_ ?_
      | with_reducible refine InvW.foldl2 ?_ ?_
      | with_reducible refine InvW.ite ?_ ?_
      | split
      | with_reducible refine Inv.snd (by assumption) ?_
      | with_reducible refine Inv.trd (by assumption) ?_
      | with_reducible refine InvW.snd (by assumption) ?_
      | with_reducible refine InvW.fst (by assumption) ?_
      | with_reducible refine InvW.make ?_ ?_ ?_

theorem W.redLog_inv {w : W} {x1} {x2} {s : State} (h : InvW w) (h : Inv s) :
    Inv (W.redLog w x1 x2 s) := by
  unfold W.redLog
  (try dsimp only)
  repeat'
    first
      | with_reducible assumption
      | with_reducible refine State.logStore_inv ?_
      | with_reducible refine InvW.s ?_
      | with_reducible refine InvW.s0 ?_
      | with_reducible refine InvW.fx ?_
      | with_reducible refine Inv.getD ?_ ?_
      | intro _
      | with_reducible refine Inv.foldl ?_ ?_

theorem W.relBefore_inv {w : W} {x1} (h : InvW w) :
    InvW (W.relBefore w x1).2 := by
  unfold W.relBefore
  (try dsimp only)
  repeat'
    first
      | with_reducible assumption
      | with_reducible refine W.addFence_inv ?_
      | with_reducible refine InvW.s ?_
      | with_reducible refine InvW.s0 ?_
      | with_reducible refine InvW.fx ?_
      | with_reducible refine Inv.getD ?_ ?_
      | intro _
      | with_reducible refine Inv.foldl ?_ ?_
      | with_reducible refine Inv.foldl2 ?_ ?_
      | with_reducible refine Inv.foldl3 ?_ ?_
      | with_reducible refine Inv.ite ?_ ?_
      | with_reducible refine InvW.foldl ?_ ?_
      | with_reducible refine InvW.foldl2 ?_ ?_
      | with_reducible refine InvW.ite ?_ ?_
      | split

theorem remoteAtomPath_inv {x0} {x1} {acc : Nat × W} {x3} (h : InvW acc.2) :
    InvW (remoteAtomPath x0 x1 acc x3).2 := by
  unfold remoteAtomPath
  (try dsimp only)
  repeat'
    first
      | with_reducible assumption
      | with_reducible refine State.takePath_inv ?_
      | with_reducible refine InvW.s ?_
      | with_reducible refine InvW.s0 ?_
      | with_reducible refine InvW.fx ?_
      | with_reducible refine Inv.getD ?_ ?_
      | intro _
      | with_reducible refine Inv.foldl ?_ ?_
      | with_reducible refine Inv.foldl2 ?_ ?_
      | with_reducible refine Inv.foldl3 ?_ ?_
      | with_reducible refine Inv.ite ?_ ?_
      | with_reducible refine InvW.foldl ?_ ?_
      | with_reducible refine InvW.foldl2 ?_ ?_
      | with_reducible refine InvW.ite ?_ ?_
      | split
      | with_reducible refine Inv.snd (by assumption) ?_
      | with_reducible refine Inv.trd (by assumption) ?_
      | with_reducible refine InvW.snd (by assumption) ?_
      | with_reducible refine InvW.fst (by assumption) ?_
      | with_reducible refine InvW.make ?_ ?_ ?_

theorem W.atomPaths_inv {w : W} {x1} {x2} (h : InvW w) :
    InvW (W.atomPaths w x1 x2).2 := by
  unfold W.atomPaths
  (try dsimp only)
  repeat'
    first
      | with_reducible assumption
      | with_reducible refine State.freeDue_inv ?_
      | with_reducible refine State.takePath_inv ?_
      | with_reducible refine W.mod_inv ?_
      | with_reducible refine remoteAtomPath_inv ?_
      | with_reducible refine InvW.s ?_
      | with_reducible refine InvW.s0 ?_
      | with_reducible refine InvW.fx ?_
      | with_reducible refine Inv.getD ?_ ?_
      | intro _
      | with_reducible refine Inv.foldl ?_ ?_
      | with_reducible refine Inv.foldl2 ?_ ?_
      | with_reducible refine Inv.foldl3 ?_ ?_
      | with_reducible refine Inv.ite ?_ ?_
      | with_reducible refine InvW.foldl ?_ ?_
      | with_reducible refine InvW.foldl2 ?_ ?_
      | with_reducible refine InvW.ite ?_ ?_
      | split
      | with_reducible refine Inv.snd (by assumption) ?_
      | with_reducible refine Inv.trd (by assumption) ?_
      | with_reducible refine InvW.snd (by assumption) ?_
      | with_reducible refine InvW.fst (by assumption) ?_
      | with_reducible refine InvW.make ?_ ?_ ?_

theorem W.atomNow_inv {w : W} {x1} {x2} {x3} {x4} {x5} (h : InvW w) :
    InvW (W.atomNow w x1 x2 x3 x4 x5) := by
  unfold W.atomNow
  (try dsimp only)
  repeat'
    first
      | with_reducible assumption
      | with_reducible refine State.atomLanes_inv ?_
      | with_reducible refine W.var_inv ?_
      | with_reducible refine W.atomPaths_inv ?_
      | with_reducible refine InvW.s ?_
      | with_reducible refine InvW.s0 ?_
      | with_reducible refine InvW.fx ?_
      | with_reducible refine Inv.getD ?_ ?_
      | intro _
      | with_reducible refine Inv.foldl ?_ ?_
      | with_reducible refine Inv.foldl2 ?_ ?_
      | with_reducible refine Inv.foldl3 ?_ ?_
      | with_reducible refine Inv.ite ?_ ?_
      | with_reducible refine InvW.foldl ?_ ?_
      | with_reducible refine InvW.foldl2 ?_ ?_
      | with_reducible refine InvW.ite ?_ ?_
      | split
      | with_reducible refine Inv.snd (by assumption) ?_
      | with_reducible refine Inv.trd (by assumption) ?_
      | with_reducible refine InvW.snd (by assumption) ?_
      | with_reducible refine InvW.fst (by assumption) ?_
      | with_reducible refine InvW.make ?_ ?_ ?_

theorem W.atomSend_inv {w : W} {x1} {x2} {x3} {x4} {x5} {x6} (h : InvW w) :
    InvW (W.atomSend w x1 x2 x3 x4 x5 x6) := by
  unfold W.atomSend
  (try dsimp only)
  repeat'
    first
      | with_reducible assumption
      | with_reducible refine State.freeDue_inv ?_
      | with_reducible refine W.pend_inv ?_
      | with_reducible refine InvW.s ?_
      | with_reducible refine InvW.s0 ?_
      | with_reducible refine InvW.fx ?_
      | with_reducible refine Inv.getD ?_ ?_
      | intro _
      | with_reducible refine Inv.foldl ?_ ?_
      | with_reducible refine Inv.foldl2 ?_ ?_
      | with_reducible refine Inv.foldl3 ?_ ?_
      | with_reducible refine Inv.ite ?_ ?_
      | with_reducible refine InvW.foldl ?_ ?_
      | with_reducible refine InvW.foldl2 ?_ ?_
      | with_reducible refine InvW.ite ?_ ?_
      | split
      | with_reducible refine Inv.snd (by assumption) ?_
      | with_reducible refine Inv.trd (by assumption) ?_
      | with_reducible refine InvW.snd (by assumption) ?_
      | with_reducible refine InvW.fst (by assumption) ?_
      | with_reducible refine InvW.make ?_ ?_ ?_
      | with_reducible refine Inv.fold ?_
      | with_reducible refine Inv.mk ?_

theorem W.atomIssue_inv {w : W} {x1} {x2} {x3} {x4} (h : InvW w) :
    InvW (W.atomIssue w x1 x2 x3 x4) := by
  unfold W.atomIssue
  (try dsimp only)
  repeat'
    first
      | with_reducible assumption
      | with_reducible refine State.countReq_inv ?_
      | with_reducible refine W.acqAfter_inv ?_
      | with_reducible refine W.redLog_inv ?_ ?_
      | with_reducible refine W.relBefore_inv ?_
      | with_reducible refine W.atomNow_inv ?_
      | with_reducible refine W.atomSend_inv ?_
      | with_reducible refine InvW.s ?_
      | with_reducible refine InvW.s0 ?_
      | with_reducible refine InvW.fx ?_
      | with_reducible refine Inv.getD ?_ ?_
      | intro _
      | with_reducible refine Inv.foldl ?_ ?_
      | with_reducible refine Inv.foldl2 ?_ ?_
      | with_reducible refine Inv.foldl3 ?_ ?_
      | with_reducible refine Inv.ite ?_ ?_
      | with_reducible refine InvW.foldl ?_ ?_
      | with_reducible refine InvW.foldl2 ?_ ?_
      | with_reducible refine InvW.ite ?_ ?_
      | split
      | with_reducible refine Inv.snd (by assumption) ?_
      | with_reducible refine Inv.trd (by assumption) ?_
      | with_reducible refine InvW.snd (by assumption) ?_
      | with_reducible refine InvW.fst (by assumption) ?_
      | with_reducible refine InvW.make ?_ ?_ ?_

theorem W.atomic_inv {w : W} {x1} {x2} (h : InvW w) :
    InvW (W.atomic w x1 x2) := by
  unfold W.atomic
  (try dsimp only)
  repeat'
    first
      | with_reducible assumption
      | with_reducible refine State.reach_inv ?_
      | with_reducible refine State.reachAll_inv ?_ ?_
      | with_reducible refine W.atomDry_inv ?_
      | with_reducible refine W.atomFaults_inv ?_
      | with_reducible refine W.atomIssue_inv ?_
      | with_reducible refine InvW.s ?_
      | with_reducible refine InvW.s0 ?_
      | with_reducible refine InvW.fx ?_
      | with_reducible refine Inv.getD ?_ ?_
      | intro _
      | with_reducible refine Inv.foldl ?_ ?_
      | with_reducible refine Inv.foldl2 ?_ ?_
      | with_reducible refine Inv.foldl3 ?_ ?_
      | with_reducible refine Inv.ite ?_ ?_
      | with_reducible refine InvW.foldl ?_ ?_
      | with_reducible refine InvW.foldl2 ?_ ?_
      | with_reducible refine InvW.ite ?_ ?_
      | split
      | with_reducible refine Inv.snd (by assumption) ?_
      | with_reducible refine Inv.trd (by assumption) ?_
      | with_reducible refine InvW.snd (by assumption) ?_
      | with_reducible refine InvW.fst (by assumption) ?_
      | with_reducible refine InvW.make ?_ ?_ ?_

theorem W.fence_inv {w : W} {x1} {x2} (h : InvW w) :
    InvW (W.fence w x1 x2) := by
  unfold W.fence
  repeat'
    first
      | with_reducible assumption
      | with_reducible refine W.addFence_inv ?_
      | with_reducible refine InvW.s ?_
      | with_reducible refine InvW.s0 ?_
      | with_reducible refine InvW.fx ?_
      | with_reducible refine Inv.getD ?_ ?_
      | intro _
      | with_reducible refine Inv.foldl ?_ ?_
      | with_reducible refine Inv.foldl2 ?_ ?_
      | with_reducible refine Inv.foldl3 ?_ ?_
      | with_reducible refine Inv.ite ?_ ?_
      | with_reducible refine InvW.foldl ?_ ?_
      | with_reducible refine InvW.foldl2 ?_ ?_
      | with_reducible refine InvW.ite ?_ ?_

theorem W.fencex_inv {w : W} {x1} (h : InvW w) :
    InvW (W.fencex w x1) := by
  unfold W.fencex
  (try dsimp only)
  repeat'
    first
      | with_reducible assumption
      | with_reducible refine State.writeBackL1_inv ?_
      | with_reducible refine W.addFence_inv ?_
      | with_reducible refine InvW.s ?_
      | with_reducible refine InvW.s0 ?_
      | with_reducible refine InvW.fx ?_
      | with_reducible refine Inv.getD ?_ ?_
      | intro _
      | with_reducible refine Inv.foldl ?_ ?_
      | with_reducible refine Inv.foldl2 ?_ ?_
      | with_reducible refine Inv.foldl3 ?_ ?_
      | with_reducible refine Inv.ite ?_ ?_
      | with_reducible refine InvW.foldl ?_ ?_
      | with_reducible refine InvW.foldl2 ?_ ?_
      | with_reducible refine InvW.ite ?_ ?_
      | split
      | with_reducible refine Inv.snd (by assumption) ?_
      | with_reducible refine Inv.trd (by assumption) ?_
      | with_reducible refine InvW.snd (by assumption) ?_
      | with_reducible refine InvW.fst (by assumption) ?_
      | with_reducible refine InvW.make ?_ ?_ ?_

end Sys2Proof.Machine
end

