-- ==== Sys2Proof/Laws/KeepControl.lean ====
section
/-! SUPPORT. The operations of Machine/Control keep the machine's invariant `Inv`. -/

namespace Sys2Proof.Machine

theorem W.wait_inv {w : W} {x1} (h : InvW w) :
    InvW (W.wait w x1) := by
  unfold W.wait
  repeat'
    first
      | with_reducible assumption
      | with_reducible refine W.mod_inv ?_
      | with_reducible refine InvW.s ?_
      | with_reducible refine InvW.s0 ?_
      | with_reducible refine InvW.fx ?_
      | with_reducible refine Inv.getD ?_ ?_
      | intro _
      | with_reducible refine Inv.foldl ?_ ?_
      | with_reducible refine Inv.foldl2 ?_ ?_
      | with_reducible refine Inv.foldl3 ?_ ?_
      | with_reducible refine Inv.ite ?_ ?_
      | with_reducible refine InvW.foldl ?_ ?_
      | with_reducible refine InvW.foldl2 ?_ ?_
      | with_reducible refine InvW.ite ?_ ?_

theorem W.transfer_inv {w : W} {x1} {x2} (h : InvW w) :
    InvW (W.transfer w x1 x2) := by
  unfold W.transfer
  (try dsimp only)
  repeat'
    first
      | with_reducible assumption
      | with_reducible refine W.jump_inv ?_
      | with_reducible refine InvW.s ?_
      | with_reducible refine InvW.s0 ?_
      | with_reducible refine InvW.fx ?_
      | with_reducible refine Inv.getD ?_ ?_
      | intro _
      | with_reducible refine Inv.foldl ?_ ?_
      | with_reducible refine Inv.foldl2 ?_ ?_
      | with_reducible refine Inv.foldl3 ?_ ?_
      | with_reducible refine Inv.ite ?_ ?_
      | with_reducible refine InvW.foldl ?_ ?_
      | with_reducible refine InvW.foldl2 ?_ ?_
      | with_reducible refine InvW.ite ?_ ?_
      | split
      | with_reducible refine Inv.snd (by assumption) ?_
      | with_reducible refine Inv.trd (by assumption) ?_
      | with_reducible refine InvW.snd (by assumption) ?_
      | with_reducible refine InvW.fst (by assumption) ?_
      | with_reducible refine InvW.make ?_ ?_ ?_

theorem W.bra_inv {w : W} {x1} (h : InvW w) :
    InvW (W.bra w x1) := by
  unfold W.bra
  repeat'
    first
      | with_reducible assumption
      | with_reducible refine W.transfer_inv ?_

theorem W.bru_inv {w : W} {x1} (h : InvW w) :
    InvW (W.bru w x1) := by
  unfold W.bru
  repeat'
    first
      | with_reducible assumption
      | with_reducible refine W.transfer_inv ?_

theorem W.transferDone_inv {w : W} {x1} (h : InvW w) :
    InvW (W.transferDone w x1) := by
  unfold W.transferDone
  repeat'
    first
      | with_reducible assumption
      | with_reducible refine InvW.s ?_
      | with_reducible refine InvW.s0 ?_
      | with_reducible refine InvW.fx ?_
      | with_reducible refine Inv.getD ?_ ?_
      | intro _
      | with_reducible refine Inv.foldl ?_ ?_
      | with_reducible refine Inv.foldl2 ?_ ?_
      | with_reducible refine Inv.foldl3 ?_ ?_
      | with_reducible refine Inv.ite ?_ ?_
      | with_reducible refine InvW.foldl ?_ ?_
      | with_reducible refine InvW.foldl2 ?_ ?_
      | with_reducible refine InvW.ite ?_ ?_
      | split
      | with_reducible refine Inv.snd (by assumption) ?_
      | with_reducible refine Inv.trd (by assumption) ?_
      | with_reducible refine InvW.snd (by assumption) ?_
      | with_reducible refine InvW.fst (by assumption) ?_
      | with_reducible refine InvW.make ?_ ?_ ?_

theorem W.callLane_inv {w : W} {x1} {x2} (h : InvW w) :
    InvW (W.callLane w x1 x2) := by
  unfold W.callLane
  (try dsimp only)
  repeat'
    first
      | with_reducible assumption
      | with_reducible refine W.jump_inv ?_
      | with_reducible refine W.pushBytes_inv ?_
      | with_reducible refine W.stackOver_inv ?_
      | with_reducible refine InvW.s ?_
      | with_reducible refine InvW.s0 ?_
      | with_reducible refine InvW.fx ?_
      | with_reducible refine Inv.getD ?_ ?_
      | intro _
      | with_reducible refine Inv.foldl ?_ ?_
      | with_reducible refine Inv.foldl2 ?_ ?_
      | with_reducible refine Inv.foldl3 ?_ ?_
      | with_reducible refine Inv.ite ?_ ?_
      | with_reducible refine InvW.foldl ?_ ?_
      | with_reducible refine InvW.foldl2 ?_ ?_
      | with_reducible refine InvW.ite ?_ ?_

theorem W.call_inv {w : W} {x1} (h : InvW w) :
    InvW (W.call w x1) := by
  unfold W.call
  repeat'
    first
      | with_reducible assumption
      | with_reducible refine W.transferDone_inv ?_
      | with_reducible refine W.callLane_inv ?_
      | with_reducible refine InvW.s ?_
      | with_reducible refine InvW.s0 ?_
      | with_reducible refine InvW.fx ?_
      | with_reducible refine Inv.getD ?_ ?_
      | intro _
      | with_reducible refine Inv.foldl ?_ ?_
      | with_reducible refine Inv.foldl2 ?_ ?_
      | with_reducible refine Inv.foldl3 ?_ ?_
      | with_reducible refine Inv.ite ?_ ?_
      | with_reducible refine InvW.foldl ?_ ?_

theorem W.misTarget_inv {w : W} {x1} {x2} (h : InvW w) :
    InvW (W.misTarget w x1 x2) := by
  unfold W.misTarget
  repeat'
    first
      | with_reducible assumption
      | with_reducible refine W.fault_inv ?_

theorem W.popLane_inv {w : W} {x1} {x2} {acc : W × List (Nat × Word)} {x4} (h : InvW w) (h : InvW acc.1) :
    InvW (W.popLane w x1 x2 acc x4).1 := by
  unfold W.popLane
  (try dsimp only)
  repeat'
    first
      | with_reducible assumption
      | with_reducible refine State.readL_inv ?_
      | with_reducible refine W.stackGot_inv ?_
      | with_reducible refine W.setLsp_inv ?_
      | with_reducible refine W.stackOver_inv ?_
      | with_reducible refine InvW.s ?_
      | with_reducible refine InvW.s0 ?_
      | with_reducible refine InvW.fx ?_
      | with_reducible refine Inv.getD ?_ ?_
      | intro _
      | with_reducible refine Inv.foldl ?_ ?_
      | with_reducible refine Inv.foldl2 ?_ ?_
      | with_reducible refine Inv.foldl3 ?_ ?_
      | with_reducible refine Inv.ite ?_ ?_
      | with_reducible refine InvW.foldl ?_ ?_
      | with_reducible refine InvW.foldl2 ?_ ?_
      | with_reducible refine InvW.ite ?_ ?_
      | split
      | with_reducible refine Inv.snd (by assumption) ?_
      | with_reducible refine Inv.trd (by assumption) ?_
      | with_reducible refine InvW.snd (by assumption) ?_
      | with_reducible refine InvW.fst (by assumption) ?_
      | with_reducible refine InvW.make ?_ ?_ ?_

theorem W.retLane_inv {w : W} {x1} (h : InvW w) :
    InvW (W.retLane w x1) := by
  unfold W.retLane
  (try dsimp only)
  repeat'
    first
      | with_reducible assumption
      | with_reducible refine State.readL_inv ?_
      | with_reducible refine W.stackGot_inv ?_
      | with_reducible refine W.jump_inv ?_
      | with_reducible refine W.setLsp_inv ?_
      | with_reducible refine W.stackOver_inv ?_
      | with_reducible refine InvW.s ?_
      | with_reducible refine InvW.s0 ?_
      | with_reducible refine InvW.fx ?_
      | with_reducible refine Inv.getD ?_ ?_
      | intro _
      | with_reducible refine Inv.foldl ?_ ?_
      | with_reducible refine Inv.foldl2 ?_ ?_
      | with_reducible refine Inv.foldl3 ?_ ?_
      | with_reducible refine Inv.ite ?_ ?_
      | with_reducible refine InvW.foldl ?_ ?_
      | with_reducible refine InvW.foldl2 ?_ ?_
      | with_reducible refine InvW.ite ?_ ?_
      | split
      | with_reducible refine Inv.snd (by assumption) ?_
      | with_reducible refine Inv.trd (by assumption) ?_
      | with_reducible refine InvW.snd (by assumption) ?_
      | with_reducible refine InvW.fst (by assumption) ?_
      | with_reducible refine InvW.make ?_ ?_ ?_

theorem W.sallocLane_inv {w : W} {x1} {x2} {acc : W × List (Nat × Word)} {x4} (h : InvW w) (h : InvW acc.1) :
    InvW (W.sallocLane w x1 x2 acc x4).1 := by
  unfold W.sallocLane
  (try dsimp only)
  repeat'
    first
      | with_reducible assumption
      | with_reducible refine W.setLsp_inv ?_
      | with_reducible refine W.stackOver_inv ?_
      | with_reducible refine InvW.s ?_
      | with_reducible refine InvW.s0 ?_
      | with_reducible refine InvW.fx ?_
      | with_reducible refine Inv.getD ?_ ?_
      | intro _
      | with_reducible refine Inv.foldl ?_ ?_
      | with_reducible refine Inv.foldl2 ?_ ?_
      | with_reducible refine Inv.foldl3 ?_ ?_
      | with_reducible refine Inv.ite ?_ ?_
      | with_reducible refine InvW.foldl ?_ ?_
      | with_reducible refine InvW.foldl2 ?_ ?_
      | with_reducible refine InvW.ite ?_ ?_
      | split

theorem W.trapWord_inv {w : W} {x1} {x2} (h : InvW w) :
    InvW (W.trapWord w x1 x2) := by
  unfold W.trapWord
  (try dsimp only)
  repeat'
    first
      | with_reducible assumption
      | with_reducible refine W.fault_inv ?_
      | with_reducible refine InvW.s ?_
      | with_reducible refine InvW.s0 ?_
      | with_reducible refine InvW.fx ?_
      | with_reducible refine Inv.getD ?_ ?_
      | intro _
      | with_reducible refine Inv.foldl ?_ ?_
      | with_reducible refine Inv.foldl2 ?_ ?_
      | with_reducible refine Inv.foldl3 ?_ ?_
      | with_reducible refine Inv.ite ?_ ?_
      | with_reducible refine InvW.foldl ?_ ?_
      | with_reducible refine InvW.foldl2 ?_ ?_
      | with_reducible refine InvW.ite ?_ ?_
      | split
      | with_reducible refine Inv.snd (by assumption) ?_
      | with_reducible refine Inv.trd (by assumption) ?_
      | with_reducible refine InvW.snd (by assumption) ?_
      | with_reducible refine InvW.fst (by assumption) ?_
      | with_reducible refine InvW.make ?_ ?_ ?_

end Sys2Proof.Machine
end

