-- ==== Sys2Proof/Laws/KeepSync.lean ====
section
/-! SUPPORT. The operations of Machine/Sync keep the machine's invariant `Inv`. -/

namespace Sys2Proof.Machine

theorem State.watchDrop_inv {s : State} {x1} (h : Inv s) :
    Inv (State.watchDrop s x1) := by
  unfold State.watchDrop
  (try dsimp only)
  repeat'
    first
      | with_reducible assumption
      | with_reducible refine State.modGrp_inv ?_
      | with_reducible refine Inv.getD ?_ ?_
      | intro _
      | with_reducible refine Inv.foldl ?_ ?_
      | with_reducible refine Inv.foldl2 ?_ ?_
      | with_reducible refine Inv.foldl3 ?_ ?_
      | with_reducible refine Inv.ite ?_ ?_
      | split
      | with_reducible refine Inv.snd (by assumption) ?_
      | with_reducible refine Inv.trd (by assumption) ?_
      | with_reducible refine Inv.fold ?_
      | with_reducible refine Inv.mk ?_

theorem State.arrivalDone_inv {s : State} {x1} {x2} {x3} {x4} (h : Inv s) :
    Inv (State.arrivalDone s x1 x2 x3 x4) := by
  unfold State.arrivalDone
  repeat'
    first
      | with_reducible assumption
      | with_reducible refine State.modGrp_inv ?_
      | with_reducible refine State.writeBackL1_inv ?_
      | with_reducible refine Inv.getD ?_ ?_
      | intro _
      | with_reducible refine Inv.foldl ?_ ?_
      | with_reducible refine Inv.foldl2 ?_ ?_
      | with_reducible refine Inv.foldl3 ?_ ?_
      | with_reducible refine Inv.ite ?_ ?_

theorem State.putBar_inv {s : State} {x1} {x2} {x3} {x4} (h : Inv s) :
    Inv (State.putBar s x1 x2 x3 x4) := by
  unfold State.putBar
  repeat'
    first
      | with_reducible assumption
      | with_reducible refine State.modLCl_inv ?_
      | with_reducible refine State.setBar_inv ?_
      | with_reducible refine Inv.getD ?_ ?_
      | intro _
      | with_reducible refine Inv.foldl ?_ ?_
      | with_reducible refine Inv.foldl2 ?_ ?_
      | with_reducible refine Inv.foldl3 ?_ ?_
      | with_reducible refine Inv.ite ?_ ?_

theorem State.arriveBar_inv {s : State} {x1} {x2} {x3} {x4} {x5} (h : Inv s) :
    Inv (State.arriveBar s x1 x2 x3 x4 x5) := by
  unfold State.arriveBar
  (try dsimp only)
  repeat'
    first
      | with_reducible assumption
      | with_reducible refine State.putBar_inv ?_
      | with_reducible refine State.wakeBarrier_inv ?_
      | with_reducible refine Inv.getD ?_ ?_
      | intro _
      | with_reducible refine Inv.foldl ?_ ?_
      | with_reducible refine Inv.foldl2 ?_ ?_
      | with_reducible refine Inv.foldl3 ?_ ?_
      | with_reducible refine Inv.ite ?_ ?_

theorem State.watchAcquire_inv {s : State} {x1} (h : Inv s) :
    Inv (State.watchAcquire s x1) := by
  unfold State.watchAcquire
  repeat'
    first
      | with_reducible assumption
      | with_reducible refine State.acquireNow_inv ?_

theorem State.watchWake_inv {s : State} {x1} {x2} {x3} {x4} (h : Inv s) :
    Inv (State.watchWake s x1 x2 x3 x4) := by
  unfold State.watchWake
  repeat'
    first
      | with_reducible assumption
      | with_reducible refine State.modGrp_inv ?_
      | with_reducible refine State.watchAcquire_inv ?_
      | with_reducible refine Inv.getD ?_ ?_
      | intro _
      | with_reducible refine Inv.foldl ?_ ?_
      | with_reducible refine Inv.foldl2 ?_ ?_
      | with_reducible refine Inv.foldl3 ?_ ?_
      | with_reducible refine Inv.ite ?_ ?_
      | split

theorem State.wakeRecord_inv {s : State} {x1} {x2} {x3} {x4} (h : Inv s) :
    Inv (State.wakeRecord s x1 x2 x3 x4) := by
  unfold State.wakeRecord
  repeat'
    first
      | with_reducible assumption
      | with_reducible refine State.homePut_inv ?_
      | with_reducible refine State.homeOf_inv ?_
      | with_reducible refine Inv.getD ?_ ?_
      | intro _
      | with_reducible refine Inv.foldl ?_ ?_
      | with_reducible refine Inv.foldl2 ?_ ?_
      | with_reducible refine Inv.foldl3 ?_ ?_
      | with_reducible refine Inv.ite ?_ ?_
      | split
      | with_reducible refine Inv.snd (by assumption) ?_

theorem State.watchArm_inv {s : State} {x1} {x2} {x3} (h : Inv s) :
    Inv (State.watchArm s x1 x2 x3) := by
  unfold State.watchArm
  (try dsimp only)
  repeat'
    first
      | with_reducible assumption
      | with_reducible refine State.modDie_inv ?_
      | with_reducible refine State.fresh_inv ?_

theorem State.watchFree_inv {s : State} {x1} {x2} (h : Inv s) :
    Inv (State.watchFree s x1 x2) := by
  unfold State.watchFree
  repeat'
    first
      | with_reducible assumption
      | with_reducible refine State.modDie_inv ?_

theorem State.watchEnd_inv {s : State} {x1} {x2} {x3} {x4} {x5} (h : Inv s) :
    Inv (State.watchEnd s x1 x2 x3 x4 x5) := by
  unfold State.watchEnd
  (try dsimp only)
  repeat'
    first
      | with_reducible assumption
      | with_reducible refine State.watchWake_inv ?_
      | with_reducible refine State.wakeRecord_inv ?_
      | with_reducible refine State.watchFree_inv ?_
      | with_reducible refine Inv.getD ?_ ?_
      | intro _
      | with_reducible refine Inv.foldl ?_ ?_
      | with_reducible refine Inv.foldl2 ?_ ?_
      | with_reducible refine Inv.foldl3 ?_ ?_
      | with_reducible refine Inv.ite ?_ ?_
      | split

theorem State.watchFind_inv {s : State} {x1} {x2} {x3} {x4} {x5} {x6} (h : Inv s) :
    Inv (State.watchFind s x1 x2 x3 x4 x5 x6).2 := by
  unfold State.watchFind
  (try dsimp only)
  repeat'
    first
      | with_reducible assumption
      | with_reducible refine Inv.getD ?_ ?_
      | intro _
      | with_reducible refine Inv.foldl ?_ ?_
      | with_reducible refine Inv.foldl2 ?_ ?_
      | with_reducible refine Inv.foldl3 ?_ ?_
      | with_reducible refine Inv.ite ?_ ?_
      | split
      | with_reducible refine Inv.snd (by assumption) ?_
      | with_reducible refine Inv.trd (by assumption) ?_
      | with_reducible refine Inv.fold ?_
      | with_reducible refine Inv.mk ?_

theorem State.watchUntil_inv {s : State} {x1} (h : Inv s) :
    Inv (State.watchUntil s x1).2 := by
  unfold State.watchUntil
  (try dsimp only)
  repeat'
    first
      | with_reducible assumption
      | with_reducible refine State.freePick_inv ?_

theorem State.watchTil_inv {s : State} {x1} (h : Inv s) :
    Inv (State.watchTil s x1).2 := by
  unfold State.watchTil
  (try dsimp only)
  repeat'
    first
      | with_reducible assumption
      | with_reducible refine State.watchUntil_inv ?_
      | with_reducible refine Inv.getD ?_ ?_
      | intro _
      | with_reducible refine Inv.foldl ?_ ?_
      | with_reducible refine Inv.foldl2 ?_ ?_
      | with_reducible refine Inv.foldl3 ?_ ?_
      | with_reducible refine Inv.ite ?_ ?_
      | split

theorem arrivalFence_inv {x0} {x1} {s : State} (h : Inv s) :
    Inv (arrivalFence x0 x1 s) := by
  unfold arrivalFence
  (try dsimp only)
  repeat'
    first
      | with_reducible assumption
      | with_reducible refine State.modGrp_inv ?_
      | with_reducible refine State.fresh_inv ?_

theorem W.arrivalHeld_inv {w : W} {x1} (h : InvW w) :
    InvW (W.arrivalHeld w x1) := by
  unfold W.arrivalHeld
  repeat'
    first
      | with_reducible assumption
      | with_reducible refine arrivalFence_inv ?_
      | with_reducible refine InvW.s ?_
      | with_reducible refine InvW.s0 ?_
      | with_reducible refine InvW.fx ?_
      | with_reducible refine Inv.getD ?_ ?_
      | intro _
      | with_reducible refine Inv.foldl ?_ ?_
      | with_reducible refine Inv.foldl2 ?_ ?_
      | with_reducible refine Inv.foldl3 ?_ ?_
      | with_reducible refine Inv.ite ?_ ?_
      | with_reducible refine InvW.foldl ?_ ?_
      | with_reducible refine InvW.foldl2 ?_ ?_
      | with_reducible refine InvW.ite ?_ ?_
      | split
      | with_reducible refine Inv.snd (by assumption) ?_
      | with_reducible refine Inv.trd (by assumption) ?_
      | with_reducible refine InvW.snd (by assumption) ?_
      | with_reducible refine InvW.fst (by assumption) ?_
      | with_reducible refine InvW.make ?_ ?_ ?_

theorem W.barAcquire_inv {w : W} {x1} (h : InvW w) :
    InvW (W.barAcquire w x1) := by
  unfold W.barAcquire
  repeat'
    first
      | with_reducible assumption
      | with_reducible refine State.acquireNow_inv ?_
      | with_reducible refine InvW.s ?_
      | with_reducible refine InvW.s0 ?_
      | with_reducible refine InvW.fx ?_
      | with_reducible refine Inv.getD ?_ ?_
      | intro _
      | with_reducible refine Inv.foldl ?_ ?_
      | with_reducible refine Inv.foldl2 ?_ ?_
      | with_reducible refine Inv.foldl3 ?_ ?_
      | with_reducible refine Inv.ite ?_ ?_
      | with_reducible refine InvW.foldl ?_ ?_
      | with_reducible refine InvW.foldl2 ?_ ?_
      | with_reducible refine InvW.ite ?_ ?_
      | split
      | with_reducible refine Inv.snd (by assumption) ?_
      | with_reducible refine Inv.trd (by assumption) ?_
      | with_reducible refine InvW.snd (by assumption) ?_
      | with_reducible refine InvW.fst (by assumption) ?_
      | with_reducible refine InvW.make ?_ ?_ ?_

theorem W.misuse_inv {w : W} (h : InvW w) :
    InvW (W.misuse w) := by
  unfold W.misuse
  repeat'
    first
      | with_reducible assumption
      | with_reducible refine W.faultWord_inv ?_

theorem W.barArrive_inv {w : W} {x1} {x2} {x3} (h : InvW w) :
    InvW (W.barArrive w x1 x2 x3) := by
  unfold W.barArrive
  repeat'
    first
      | with_reducible assumption
      | with_reducible refine State.arrivalDone_inv ?_
      | with_reducible refine State.arriveBar_inv ?_
      | with_reducible refine W.var_inv ?_
      | with_reducible refine W.arrivalHeld_inv ?_
      | with_reducible refine W.misuse_inv ?_
      | with_reducible refine InvW.s ?_
      | with_reducible refine InvW.s0 ?_
      | with_reducible refine InvW.fx ?_
      | with_reducible refine Inv.getD ?_ ?_
      | intro _
      | with_reducible refine Inv.foldl ?_ ?_
      | with_reducible refine Inv.foldl2 ?_ ?_
      | with_reducible refine Inv.foldl3 ?_ ?_
      | with_reducible refine Inv.ite ?_ ?_
      | with_reducible refine InvW.foldl ?_ ?_
      | with_reducible refine InvW.foldl2 ?_ ?_
      | with_reducible refine InvW.ite ?_ ?_
      | split
      | with_reducible refine Inv.snd (by assumption) ?_
      | with_reducible refine Inv.trd (by assumption) ?_
      | with_reducible refine InvW.snd (by assumption) ?_
      | with_reducible refine InvW.fst (by assumption) ?_
      | with_reducible refine InvW.make ?_ ?_ ?_

theorem W.barDrop_inv {w : W} {x1} {x2} (h : InvW w) :
    InvW (W.barDrop w x1 x2) := by
  unfold W.barDrop
  repeat'
    first
      | with_reducible assumption
      | with_reducible refine State.dropTeamBar_inv ?_
      | with_reducible refine State.dropClusterBar_inv ?_
      | with_reducible refine W.misuse_inv ?_
      | with_reducible refine InvW.s ?_
      | with_reducible refine InvW.s0 ?_
      | with_reducible refine InvW.fx ?_
      | with_reducible refine Inv.getD ?_ ?_
      | intro _
      | with_reducible refine Inv.foldl ?_ ?_
      | with_reducible refine Inv.foldl2 ?_ ?_
      | with_reducible refine Inv.foldl3 ?_ ?_
      | with_reducible refine Inv.ite ?_ ?_
      | with_reducible refine InvW.foldl ?_ ?_
      | with_reducible refine InvW.foldl2 ?_ ?_
      | with_reducible refine InvW.ite ?_ ?_
      | split
      | with_reducible refine Inv.snd (by assumption) ?_
      | with_reducible refine Inv.trd (by assumption) ?_
      | with_reducible refine InvW.snd (by assumption) ?_
      | with_reducible refine InvW.fst (by assumption) ?_
      | with_reducible refine InvW.make ?_ ?_ ?_

theorem W.barSync_inv {w : W} {x1} {x2} (h : InvW w) :
    InvW (W.barSync w x1 x2) := by
  unfold W.barSync
  (try dsimp only)
  repeat'
    first
      | with_reducible assumption
      | with_reducible refine State.arrivalDone_inv ?_
      | with_reducible refine State.arriveBar_inv ?_
      | with_reducible refine W.arrivalHeld_inv ?_
      | with_reducible refine W.misuse_inv ?_
      | with_reducible refine W.wait_inv ?_
      | with_reducible refine InvW.s ?_
      | with_reducible refine InvW.s0 ?_
      | with_reducible refine InvW.fx ?_
      | with_reducible refine Inv.getD ?_ ?_
      | intro _
      | with_reducible refine Inv.foldl ?_ ?_
      | with_reducible refine Inv.foldl2 ?_ ?_
      | with_reducible refine Inv.foldl3 ?_ ?_
      | with_reducible refine Inv.ite ?_ ?_
      | with_reducible refine InvW.foldl ?_ ?_
      | with_reducible refine InvW.foldl2 ?_ ?_
      | with_reducible refine InvW.ite ?_ ?_
      | split
      | with_reducible refine Inv.snd (by assumption) ?_
      | with_reducible refine Inv.trd (by assumption) ?_
      | with_reducible refine InvW.snd (by assumption) ?_
      | with_reducible refine InvW.fst (by assumption) ?_
      | with_reducible refine InvW.make ?_ ?_ ?_

theorem W.barWait_inv {w : W} {x1} {x2} {x3} (h : InvW w) :
    InvW (W.barWait w x1 x2 x3) := by
  unfold W.barWait
  repeat'
    first
      | with_reducible assumption
      | with_reducible refine W.barAcquire_inv ?_
      | with_reducible refine W.misuse_inv ?_
      | with_reducible refine W.wait_inv ?_
      | with_reducible refine InvW.s ?_
      | with_reducible refine InvW.s0 ?_
      | with_reducible refine InvW.fx ?_
      | with_reducible refine Inv.getD ?_ ?_
      | intro _
      | with_reducible refine Inv.foldl ?_ ?_
      | with_reducible refine Inv.foldl2 ?_ ?_
      | with_reducible refine Inv.foldl3 ?_ ?_
      | with_reducible refine Inv.ite ?_ ?_
      | with_reducible refine InvW.foldl ?_ ?_
      | with_reducible refine InvW.foldl2 ?_ ?_
      | with_reducible refine InvW.ite ?_ ?_
      | split

theorem W.watchFault_inv {w : W} {x1} (h : InvW w) :
    InvW (W.watchFault w x1) := by
  unfold W.watchFault
  repeat'
    first
      | with_reducible assumption
      | with_reducible refine W.absent_inv ?_
      | with_reducible refine W.fault_inv ?_
      | with_reducible refine InvW.s ?_
      | with_reducible refine InvW.s0 ?_
      | with_reducible refine InvW.fx ?_
      | with_reducible refine Inv.getD ?_ ?_
      | intro _
      | with_reducible refine Inv.foldl ?_ ?_
      | with_reducible refine Inv.foldl2 ?_ ?_
      | with_reducible refine Inv.foldl3 ?_ ?_
      | with_reducible refine Inv.ite ?_ ?_
      | with_reducible refine InvW.foldl ?_ ?_
      | with_reducible refine InvW.foldl2 ?_ ?_
      | with_reducible refine InvW.ite ?_ ?_
      | split
      | with_reducible refine Inv.snd (by assumption) ?_
      | with_reducible refine Inv.trd (by assumption) ?_
      | with_reducible refine InvW.snd (by assumption) ?_
      | with_reducible refine InvW.fst (by assumption) ?_
      | with_reducible refine InvW.make ?_ ?_ ?_

theorem W.watchAnswer_inv {w : W} {x1} {x2} {x3} {x4} {x5} {x6} {x7} (h : InvW w) :
    InvW (W.watchAnswer w x1 x2 x3 x4 x5 x6 x7) := by
  unfold W.watchAnswer
  (try dsimp only)
  repeat'
    first
      | with_reducible assumption
      | with_reducible refine State.freeDue_inv ?_
      | with_reducible refine State.watchAcquire_inv ?_
      | with_reducible refine State.watchArm_inv ?_
      | with_reducible refine State.watchTil_inv ?_
      | with_reducible refine W.pend_inv ?_
      | with_reducible refine W.var_inv ?_
      | with_reducible refine W.wait_inv ?_
      | with_reducible refine InvW.s ?_
      | with_reducible refine InvW.s0 ?_
      | with_reducible refine InvW.fx ?_
      | with_reducible refine Inv.getD ?_ ?_
      | intro _
      | with_reducible refine Inv.foldl ?_ ?_
      | with_reducible refine Inv.foldl2 ?_ ?_
      | with_reducible refine Inv.foldl3 ?_ ?_
      | with_reducible refine Inv.ite ?_ ?_
      | with_reducible refine InvW.foldl ?_ ?_
      | with_reducible refine InvW.foldl2 ?_ ?_
      | with_reducible refine InvW.ite ?_ ?_
      | split
      | with_reducible refine Inv.snd (by assumption) ?_
      | with_reducible refine Inv.trd (by assumption) ?_
      | with_reducible refine InvW.snd (by assumption) ?_
      | with_reducible refine InvW.fst (by assumption) ?_
      | with_reducible refine InvW.make ?_ ?_ ?_

theorem W.watchZero_inv {w : W} (h : InvW w) :
    InvW (W.watchZero w) := by
  unfold W.watchZero
  repeat'
    first
      | with_reducible assumption
      | with_reducible refine W.var_inv ?_
      | with_reducible refine InvW.s ?_
      | with_reducible refine InvW.s0 ?_
      | with_reducible refine InvW.fx ?_
      | with_reducible refine Inv.getD ?_ ?_
      | intro _
      | with_reducible refine Inv.foldl ?_ ?_
      | with_reducible refine Inv.foldl2 ?_ ?_
      | with_reducible refine Inv.foldl3 ?_ ?_
      | with_reducible refine Inv.ite ?_ ?_
      | with_reducible refine InvW.foldl ?_ ?_
      | with_reducible refine InvW.foldl2 ?_ ?_
      | with_reducible refine InvW.ite ?_ ?_

theorem W.watch_inv {w : W} {x1} {x2} {x3} {x4} {x5} (h : InvW w) :
    InvW (W.watch w x1 x2 x3 x4 x5) := by
  unfold W.watch
  split
  · exact h
  dsimp only
  have kq := State.reachG_inv (x1 := w.g.who) (x2 := 0) (x3 := w.g.rd64 0 x2) (x4 := if x4.w64 = true then 8 else 4) (x5 := true) (x6 := true)
    (x7 := needR) (x8 := kindLoad) h.s
  generalize State.reachG w.s w.g.who 0 (w.g.rd64 0 x2) (if x4.w64 = true then 8 else 4) true true needR kindLoad = q at kq ⊢
  obtain ⟨r, t⟩ := q
  cases r <;> dsimp only at kq ⊢
  repeat'
    first
      | with_reducible assumption
      | with_reducible refine State.recallLine_inv ?_
      | with_reducible refine State.reachG_inv ?_
      | with_reducible refine State.watchFind_inv ?_
      | with_reducible refine W.var_inv ?_
      | with_reducible refine W.fault_inv ?_
      | with_reducible refine W.watchFault_inv ?_
      | with_reducible refine W.watchAnswer_inv ?_
      | with_reducible refine W.watchZero_inv ?_
      | with_reducible refine InvW.s ?_
      | with_reducible refine InvW.s0 ?_
      | with_reducible refine InvW.fx ?_
      | with_reducible refine Inv.getD ?_ ?_
      | intro _
      | with_reducible refine Inv.foldl ?_ ?_
      | with_reducible refine Inv.foldl2 ?_ ?_
      | with_reducible refine Inv.foldl3 ?_ ?_
      | with_reducible refine Inv.ite ?_ ?_
      | with_reducible refine InvW.foldl ?_ ?_
      | with_reducible refine InvW.foldl2 ?_ ?_
      | with_reducible refine InvW.ite ?_ ?_
      | split
      | with_reducible refine Inv.snd (by assumption) ?_
      | with_reducible refine Inv.trd (by assumption) ?_
      | with_reducible refine InvW.snd (by assumption) ?_
      | with_reducible refine InvW.fst (by assumption) ?_
      | with_reducible refine InvW.make ?_ ?_ ?_

theorem W.watchhAnswer_inv {w : W} {x1} {x2} {x3} {x4} {x5} {x6} {x7} {x8} (h : InvW w) :
    InvW (W.watchhAnswer w x1 x2 x3 x4 x5 x6 x7 x8) := by
  unfold W.watchhAnswer
  (try dsimp only)
  repeat'
    first
      | with_reducible assumption
      | with_reducible refine State.freeDue_inv ?_
      | with_reducible refine State.wakeRecord_inv ?_
      | with_reducible refine State.watchArm_inv ?_
      | with_reducible refine State.watchTil_inv ?_
      | with_reducible refine W.var_inv ?_
      | with_reducible refine InvW.s ?_
      | with_reducible refine InvW.s0 ?_
      | with_reducible refine InvW.fx ?_
      | with_reducible refine Inv.getD ?_ ?_
      | intro _
      | with_reducible refine Inv.foldl ?_ ?_
      | with_reducible refine Inv.foldl2 ?_ ?_
      | with_reducible refine Inv.foldl3 ?_ ?_
      | with_reducible refine Inv.ite ?_ ?_
      | with_reducible refine InvW.foldl ?_ ?_
      | with_reducible refine InvW.foldl2 ?_ ?_
      | with_reducible refine InvW.ite ?_ ?_
      | split
      | with_reducible refine Inv.snd (by assumption) ?_
      | with_reducible refine Inv.trd (by assumption) ?_
      | with_reducible refine InvW.snd (by assumption) ?_
      | with_reducible refine InvW.fst (by assumption) ?_
      | with_reducible refine InvW.make ?_ ?_ ?_

theorem W.watchRecord_inv {w : W} {x1} {x2} {x3} {x4} {x5} (h : InvW w) :
    InvW (W.watchRecord w x1 x2 x3 x4 x5) := by
  unfold W.watchRecord
  split
  · exact h
  extract_lets n rec_ us q q2 w2
  have kq : Inv q.2 := State.reachG_inv h.s
  have kq2 : Inv q2.2 := State.reachG_inv kq
  have k2 : InvW w2 := InvW.make kq2 h.s0 h.fx
  clear_value q q2 w2
  split
  repeat'
    first
      | with_reducible assumption
      | with_reducible refine State.recallLine_inv ?_
      | with_reducible refine State.reachG_inv ?_
      | with_reducible refine State.watchFind_inv ?_
      | with_reducible refine W.var_inv ?_
      | with_reducible refine W.fault_inv ?_
      | with_reducible refine W.watchFault_inv ?_
      | with_reducible refine W.watchZero_inv ?_
      | with_reducible refine W.watchhAnswer_inv ?_
      | with_reducible refine InvW.s ?_
      | with_reducible refine InvW.s0 ?_
      | with_reducible refine InvW.fx ?_
      | with_reducible refine Inv.getD ?_ ?_
      | intro _
      | with_reducible refine Inv.foldl ?_ ?_
      | with_reducible refine Inv.foldl2 ?_ ?_
      | with_reducible refine Inv.foldl3 ?_ ?_
      | with_reducible refine Inv.ite ?_ ?_
      | with_reducible refine InvW.foldl ?_ ?_
      | with_reducible refine InvW.foldl2 ?_ ?_
      | with_reducible refine InvW.ite ?_ ?_
      | split
      | with_reducible refine Inv.snd (by assumption) ?_
      | with_reducible refine Inv.trd (by assumption) ?_
      | with_reducible refine InvW.snd (by assumption) ?_
      | with_reducible refine InvW.fst (by assumption) ?_
      | with_reducible refine InvW.make ?_ ?_ ?_

end Sys2Proof.Machine
end

