-- ==== Sys2Proof/Laws/KeepCopy.lean ====
section
/-! SUPPORT. The operations of Machine/Copy keep the machine's invariant `Inv`. -/

namespace Sys2Proof.Machine

theorem State.jobAt_inv {s : State} {x1} {x2} {x3} (h : Inv s) :
    Inv (State.jobAt s x1 x2 x3).2 := by
  unfold State.jobAt
  repeat'
    first
      | with_reducible assumption
      | with_reducible refine State.xlate_inv ?_
      | with_reducible refine Inv.getD ?_ ?_
      | intro _
      | with_reducible refine Inv.foldl ?_ ?_
      | with_reducible refine Inv.foldl2 ?_ ?_
      | with_reducible refine Inv.foldl3 ?_ ?_
      | with_reducible refine Inv.ite ?_ ?_
      | split
      | with_reducible refine Inv.snd (by assumption) ?_

theorem State.drainChunk_inv {s : State} {x1} {x2} {x3} (h : Inv s) :
    Inv (State.drainChunk s x1 x2 x3).2 := by
  induction x3 generalizing s with
  | nil =>
    unfold State.drainChunk
    (try dsimp only)
    repeat'
      first
        | with_reducible assumption
  | cons a t ih =>
    unfold State.drainChunk
    repeat'
      first
        | with_reducible assumption
        | with_reducible refine ih ?_
        | with_reducible refine State.jobAt_inv ?_
        | with_reducible refine Inv.getD ?_ ?_
        | intro _
        | with_reducible refine Inv.foldl ?_ ?_
        | with_reducible refine Inv.foldl2 ?_ ?_
        | with_reducible refine Inv.foldl3 ?_ ?_
        | with_reducible refine Inv.ite ?_ ?_
        | split
        | with_reducible refine Inv.snd (by assumption) ?_

theorem State.modTile_inv {s : State} {x1} {x2} {x3} (h : Inv s) :
    Inv (State.modTile s x1 x2 x3) := by
  unfold State.modTile
  repeat'
    first
      | with_reducible assumption
      | with_reducible refine State.modTeam_inv ?_

theorem State.jobErr_inv {s : State} {x1} {x2} {x3} (h : Inv s) :
    Inv (State.jobErr s x1 x2 x3) := by
  unfold State.jobErr
  (try dsimp only)
  repeat'
    first
      | with_reducible assumption
      | with_reducible refine State.modTile_inv ?_
      | with_reducible refine Inv.getD ?_ ?_
      | intro _
      | with_reducible refine Inv.foldl ?_ ?_

theorem State.jobFail_inv {s : State} {x1} {x2} {x3} (h : Inv s) :
    Inv (State.jobFail s x1 x2 x3) := by
  unfold State.jobFail
  (try dsimp only)
  repeat'
    first
      | with_reducible assumption
      | with_reducible refine State.jobErr_inv ?_
      | with_reducible refine Inv.getD ?_ ?_
      | intro _
      | with_reducible refine Inv.foldl ?_ ?_
      | with_reducible refine Inv.foldl2 ?_ ?_
      | with_reducible refine Inv.foldl3 ?_ ?_
      | with_reducible refine Inv.ite ?_ ?_
      | split
      | with_reducible refine Inv.snd (by assumption) ?_
      | with_reducible refine Inv.trd (by assumption) ?_
      | with_reducible refine Inv.fold ?_
      | with_reducible refine Inv.mk ?_

theorem State.chunkStop_inv {s : State} {x1} {x2} {x3} {x4} (h : Inv s) :
    Inv (State.chunkStop s x1 x2 x3 x4) := by
  unfold State.chunkStop
  (try dsimp only)
  repeat'
    first
      | with_reducible assumption
      | with_reducible refine State.request_inv ?_
      | with_reducible refine State.jobFail_inv ?_
      | with_reducible refine Inv.getD ?_ ?_
      | intro _
      | with_reducible refine Inv.foldl ?_ ?_
      | with_reducible refine Inv.foldl2 ?_ ?_
      | with_reducible refine Inv.foldl3 ?_ ?_
      | with_reducible refine Inv.ite ?_ ?_
      | split
      | with_reducible refine Inv.snd (by assumption) ?_
      | with_reducible refine Inv.trd (by assumption) ?_
      | with_reducible refine Inv.fold ?_
      | with_reducible refine Inv.mk ?_

theorem State.countLines_inv {s : State} {x1} {x2} (h : Inv s) :
    Inv (State.countLines s x1 x2) := by
  unfold State.countLines
  repeat'
    first
      | with_reducible assumption
      | with_reducible refine State.countReq_inv ?_
      | with_reducible refine Inv.getD ?_ ?_
      | intro _
      | with_reducible refine Inv.foldl ?_ ?_

theorem State.jobRead_inv {s : State} {x1} {x2} {x3} {x4} (h : Inv s) :
    Inv (State.jobRead s x1 x2 x3 x4).2 := by
  unfold State.jobRead
  (try dsimp only)
  repeat'
    first
      | with_reducible assumption
      | with_reducible refine State.jobAt_inv ?_
      | with_reducible refine State.fillL2_inv ?_
      | with_reducible refine Inv.getD ?_ ?_
      | intro _
      | with_reducible refine Inv.foldl ?_ ?_
      | with_reducible refine Inv.foldl2 ?_ ?_
      | with_reducible refine Inv.foldl3 ?_ ?_
      | with_reducible refine Inv.ite ?_ ?_
      | split
      | with_reducible refine Inv.snd (by assumption) ?_

theorem State.keepElem_inv {s : State} {x1} {x2} {x3} {x4} (h : Inv s) :
    Inv (State.keepElem s x1 x2 x3 x4) := by
  unfold State.keepElem
  repeat'
    first
      | with_reducible assumption
      | with_reducible refine State.modCore_inv ?_
      | with_reducible refine Inv.getD ?_ ?_
      | intro _
      | with_reducible refine Inv.foldl ?_ ?_
      | with_reducible refine Inv.foldl2 ?_ ?_
      | with_reducible refine Inv.foldl3 ?_ ?_
      | with_reducible refine Inv.ite ?_ ?_

theorem State.fillRead_inv {s : State} {x1} {x2} {x3} {x4} (h : Inv s) :
    Inv (State.fillRead s x1 x2 x3 x4).2 := by
  unfold State.fillRead
  (try dsimp only)
  repeat'
    first
      | with_reducible assumption
      | with_reducible refine State.jobRead_inv ?_
      | with_reducible refine State.keepElem_inv ?_
      | with_reducible refine Inv.getD ?_ ?_
      | intro _
      | with_reducible refine Inv.foldl ?_ ?_
      | with_reducible refine Inv.foldl2 ?_ ?_
      | with_reducible refine Inv.foldl3 ?_ ?_
      | with_reducible refine Inv.ite ?_ ?_
      | split
      | with_reducible refine Inv.snd (by assumption) ?_

theorem State.fillSource_inv {s : State} {x1} {x2} {x3} {x4} (h : Inv s) :
    Inv (State.fillSource s x1 x2 x3 x4).2 := by
  unfold State.fillSource
  (try dsimp only)
  repeat'
    first
      | with_reducible assumption
      | with_reducible refine State.jobRead_inv ?_
      | with_reducible refine State.fillRead_inv ?_
      | with_reducible refine Inv.getD ?_ ?_
      | intro _
      | with_reducible refine Inv.foldl ?_ ?_
      | with_reducible refine Inv.foldl2 ?_ ?_
      | with_reducible refine Inv.foldl3 ?_ ?_
      | with_reducible refine Inv.ite ?_ ?_
      | split
      | with_reducible refine Inv.snd (by assumption) ?_

theorem State.fillChunk_inv {s : State} {x1} {x2} {x3} (h : Inv s) :
    Inv (State.fillChunk s x1 x2 x3).2 := by
  induction x3 generalizing s with
  | nil =>
    unfold State.fillChunk
    (try dsimp only)
    repeat'
      first
        | with_reducible assumption
  | cons a t ih =>
    unfold State.fillChunk
    repeat'
      first
        | with_reducible assumption
        | with_reducible refine ih ?_
        | with_reducible refine State.fillSource_inv ?_
        | with_reducible refine Inv.getD ?_ ?_
        | intro _
        | with_reducible refine Inv.foldl ?_ ?_
        | with_reducible refine Inv.foldl2 ?_ ?_
        | with_reducible refine Inv.foldl3 ?_ ?_
        | with_reducible refine Inv.ite ?_ ?_
        | split
        | with_reducible refine Inv.snd (by assumption) ?_

theorem State.setChunk_inv {s : State} {x1} {x2} {x3} {x4} {x5} (h : Inv s) :
    Inv (State.setChunk s x1 x2 x3 x4 x5) := by
  unfold State.setChunk
  (try dsimp only)
  repeat'
    first
      | with_reducible assumption
      | with_reducible refine State.modTile_inv ?_

theorem State.fillTile_inv {s : State} {x1} {x2} {x3} {x4} {x5} (h : Inv s) :
    Inv (State.fillTile s x1 x2 x3 x4 x5) := by
  unfold State.fillTile
  repeat'
    first
      | with_reducible assumption
      | with_reducible refine State.put_inv ?_
      | with_reducible refine State.setChunk_inv ?_
      | with_reducible refine Inv.getD ?_ ?_
      | intro _
      | with_reducible refine Inv.foldl ?_ ?_
      | with_reducible refine Inv.foldl2 ?_ ?_
      | with_reducible refine Inv.foldl3 ?_ ?_
      | with_reducible refine Inv.ite ?_ ?_
      | split

theorem State.chunkRun_inv {s : State} {x1} {x2} (h : Inv s) :
    Inv (State.chunkRun s x1 x2) := by
  unfold State.chunkRun
  (try dsimp only)
  repeat'
    first
      | with_reducible assumption
      | with_reducible refine State.writeL2_inv ?_
      | with_reducible refine State.drainChunk_inv ?_
      | with_reducible refine State.chunkStop_inv ?_
      | with_reducible refine State.countLines_inv ?_
      | with_reducible refine State.fillChunk_inv ?_
      | with_reducible refine State.fillTile_inv ?_
      | with_reducible refine Inv.getD ?_ ?_
      | intro _
      | with_reducible refine Inv.foldl ?_ ?_
      | with_reducible refine Inv.foldl2 ?_ ?_
      | with_reducible refine Inv.foldl3 ?_ ?_
      | with_reducible refine Inv.ite ?_ ?_
      | split
      | with_reducible refine Inv.snd (by assumption) ?_
      | with_reducible refine Inv.trd (by assumption) ?_
      | with_reducible refine Inv.fold ?_
      | with_reducible refine Inv.mk ?_

theorem State.chunkReissue_inv {s : State} {x1} (h : Inv s) :
    Inv (State.chunkReissue s x1) := by
  unfold State.chunkReissue
  repeat'
    first
      | with_reducible assumption
      | with_reducible refine State.chunkRun_inv ?_
      | with_reducible refine Inv.getD ?_ ?_
      | intro _
      | with_reducible refine Inv.foldl ?_ ?_
      | with_reducible refine Inv.foldl2 ?_ ?_
      | with_reducible refine Inv.foldl3 ?_ ?_
      | with_reducible refine Inv.ite ?_ ?_
      | split
      | with_reducible refine Inv.snd (by assumption) ?_
      | with_reducible refine Inv.trd (by assumption) ?_
      | with_reducible refine Inv.fold ?_
      | with_reducible refine Inv.mk ?_

theorem State.chunkSettle_inv {s : State} {x1} (h : Inv s) :
    Inv (State.chunkSettle s x1) := by
  unfold State.chunkSettle
  repeat'
    first
      | with_reducible assumption
      | with_reducible refine State.chunkRun_inv ?_
      | with_reducible refine Inv.getD ?_ ?_
      | intro _
      | with_reducible refine Inv.foldl ?_ ?_
      | with_reducible refine Inv.foldl2 ?_ ?_
      | with_reducible refine Inv.foldl3 ?_ ?_
      | with_reducible refine Inv.ite ?_ ?_
      | split

theorem State.copyIssue_inv {x0} {x1} {x2} {x3} {x4} {x5} {x6} {x7} {s : State} {x9} (h : Inv s) :
    Inv (State.copyIssue x0 x1 x2 x3 x4 x5 x6 x7 s x9) := by
  unfold State.copyIssue
  (try dsimp only)
  repeat'
    first
      | with_reducible assumption
      | with_reducible refine State.modTile_inv ?_
      | with_reducible refine Inv.getD ?_ ?_
      | intro _
      | with_reducible refine Inv.foldl ?_ ?_
      | with_reducible refine Inv.foldl2 ?_ ?_
      | with_reducible refine Inv.foldl3 ?_ ?_
      | with_reducible refine Inv.ite ?_ ?_
      | split
      | with_reducible refine Inv.snd (by assumption) ?_
      | with_reducible refine Inv.trd (by assumption) ?_
      | with_reducible refine Inv.fold ?_
      | with_reducible refine Inv.mk ?_

theorem State.copyGo_inv {s : State} {x1} {x2} {x3} {x4} {x5} {x6} {x7} {x8} {x9} (h : Inv s) :
    Inv (State.copyGo s x1 x2 x3 x4 x5 x6 x7 x8 x9) := by
  unfold State.copyGo
  repeat'
    first
      | with_reducible assumption
      | with_reducible refine State.modGrp_inv ?_
      | with_reducible refine State.modTile_inv ?_
      | with_reducible refine State.copyIssue_inv ?_
      | with_reducible refine Inv.getD ?_ ?_
      | intro _
      | with_reducible refine Inv.foldl ?_ ?_

theorem State.recordRead_inv {s : State} {x1} {x2} {x3} (h : Inv s) :
    Inv (State.recordRead s x1 x2 x3).2 := by
  unfold State.recordRead
  repeat'
    first
      | with_reducible assumption
      | with_reducible refine State.jobRead_inv ?_

theorem State.copyRecord_inv {s : State} {x1} {x2} {x3} {x4} {x5} (h : Inv s) :
    Inv (State.copyRecord s x1 x2 x3 x4 x5).2.2 := by
  unfold State.copyRecord
  (try dsimp only)
  repeat'
    first
      | with_reducible assumption
      | with_reducible refine State.recordRead_inv ?_
      | with_reducible refine Inv.getD ?_ ?_
      | intro _
      | with_reducible refine Inv.foldl ?_ ?_
      | with_reducible refine Inv.foldl2 ?_ ?_
      | with_reducible refine Inv.foldl3 ?_ ?_
      | with_reducible refine Inv.ite ?_ ?_
      | split

theorem State.copyRecords_inv {x0} {x1} {x2} {x3} {s : State} {x5} (h : Inv s) :
    Inv (State.copyRecords x0 x1 x2 x3 s x5).2 := by
  induction x5 generalizing s with
  | nil =>
    unfold State.copyRecords
    (try dsimp only)
    repeat'
      first
        | with_reducible assumption
  | cons a t ih =>
    unfold State.copyRecords
    (try dsimp only)
    repeat'
      first
        | with_reducible assumption
        | with_reducible refine ih ?_
        | with_reducible refine State.copyRecord_inv ?_

theorem State.tileDone_inv {s : State} {x1} {x2} (h : Inv s) :
    Inv (State.tileDone s x1 x2) := by
  unfold State.tileDone
  repeat'
    first
      | with_reducible assumption
      | with_reducible refine State.modTile_inv ?_

theorem State.jobComplete_inv {s : State} {x1} (h : Inv s) :
    Inv (State.jobComplete s x1) := by
  unfold State.jobComplete
  repeat'
    first
      | with_reducible assumption
      | with_reducible refine State.tileDone_inv ?_
      | with_reducible refine Inv.getD ?_ ?_
      | intro _
      | with_reducible refine Inv.foldl ?_ ?_
      | with_reducible refine Inv.foldl2 ?_ ?_
      | with_reducible refine Inv.foldl3 ?_ ?_
      | with_reducible refine Inv.ite ?_ ?_
      | split
      | with_reducible refine Inv.snd (by assumption) ?_
      | with_reducible refine Inv.trd (by assumption) ?_
      | with_reducible refine Inv.fold ?_
      | with_reducible refine Inv.mk ?_

theorem State.newLines_inv {s : State} {x1} (h : Inv s) :
    Inv (State.newLines s x1) := by
  unfold State.newLines
  repeat'
    first
      | with_reducible assumption
      | with_reducible refine State.modCore_inv ?_
      | with_reducible refine Inv.getD ?_ ?_
      | intro _
      | with_reducible refine Inv.foldl ?_ ?_
      | with_reducible refine Inv.foldl2 ?_ ?_
      | with_reducible refine Inv.foldl3 ?_ ?_
      | with_reducible refine Inv.ite ?_ ?_

theorem State.jobStart_inv {s : State} {x1} (h : Inv s) :
    Inv (State.jobStart s x1) := by
  unfold State.jobStart
  (try dsimp only)
  repeat'
    first
      | with_reducible assumption
      | with_reducible refine State.jobFail_inv ?_
      | with_reducible refine State.newLines_inv ?_
      | with_reducible refine Inv.getD ?_ ?_
      | intro _
      | with_reducible refine Inv.foldl ?_ ?_
      | with_reducible refine Inv.foldl2 ?_ ?_
      | with_reducible refine Inv.foldl3 ?_ ?_
      | with_reducible refine Inv.ite ?_ ?_
      | split
      | with_reducible refine Inv.snd (by assumption) ?_
      | with_reducible refine Inv.trd (by assumption) ?_
      | with_reducible refine Inv.fold ?_
      | with_reducible refine Inv.mk ?_

theorem State.partStart_inv {s : State} {x1} {x2} (h : Inv s) :
    Inv (State.partStart s x1 x2) := by
  unfold State.partStart
  (try dsimp only)
  repeat'
    first
      | with_reducible assumption
      | with_reducible refine State.modTile_inv ?_
      | with_reducible refine Inv.getD ?_ ?_
      | intro _
      | with_reducible refine Inv.foldl ?_ ?_
      | with_reducible refine Inv.foldl2 ?_ ?_
      | with_reducible refine Inv.foldl3 ?_ ?_
      | with_reducible refine Inv.ite ?_ ?_
      | split
      | with_reducible refine Inv.snd (by assumption) ?_
      | with_reducible refine Inv.trd (by assumption) ?_
      | with_reducible refine Inv.fold ?_
      | with_reducible refine Inv.mk ?_

theorem State.xprefLane_inv {x0} {x1} {x2} {s : State} {x4} (h : Inv s) :
    Inv (State.xprefLane x0 x1 x2 s x4) := by
  unfold State.xprefLane
  (try dsimp only)
  repeat'
    first
      | with_reducible assumption
      | with_reducible refine State.jobAt_inv ?_
      | with_reducible refine State.fillL2_inv ?_
      | with_reducible refine State.recordRead_inv ?_
      | with_reducible refine Inv.getD ?_ ?_
      | intro _
      | with_reducible refine Inv.foldl ?_ ?_
      | with_reducible refine Inv.foldl2 ?_ ?_
      | with_reducible refine Inv.foldl3 ?_ ?_
      | with_reducible refine Inv.ite ?_ ?_
      | split

theorem W.tileWait_inv {w : W} (h : InvW w) :
    InvW (W.tileWait w) := by
  unfold W.tileWait
  repeat'
    first
      | with_reducible assumption
      | with_reducible refine State.modGrp_inv ?_
      | with_reducible refine InvW.s ?_
      | with_reducible refine InvW.s0 ?_
      | with_reducible refine InvW.fx ?_
      | with_reducible refine Inv.getD ?_ ?_
      | intro _
      | with_reducible refine Inv.foldl ?_ ?_
      | with_reducible refine Inv.foldl2 ?_ ?_
      | with_reducible refine Inv.foldl3 ?_ ?_
      | with_reducible refine Inv.ite ?_ ?_
      | with_reducible refine InvW.foldl ?_ ?_
      | with_reducible refine InvW.foldl2 ?_ ?_
      | with_reducible refine InvW.ite ?_ ?_
      | split
      | with_reducible refine Inv.snd (by assumption) ?_
      | with_reducible refine Inv.trd (by assumption) ?_
      | with_reducible refine InvW.snd (by assumption) ?_
      | with_reducible refine InvW.fst (by assumption) ?_
      | with_reducible refine InvW.make ?_ ?_ ?_

theorem askRecords_inv {x0} {x1} {s : State} (h : Inv s) :
    Inv (askRecords x0 x1 s) := by
  unfold askRecords
  (try dsimp only)
  repeat'
    first
      | with_reducible assumption
      | with_reducible refine State.modGrp_inv ?_
      | with_reducible refine State.request_inv ?_
      | with_reducible refine Inv.getD ?_ ?_
      | intro _
      | with_reducible refine Inv.foldl ?_ ?_
      | with_reducible refine Inv.foldl2 ?_ ?_
      | with_reducible refine Inv.foldl3 ?_ ?_
      | with_reducible refine Inv.ite ?_ ?_

theorem W.copy_inv {w : W} {x1} {x2} {x3} {x4} {x5} {x6} {x7} (h : InvW w) :
    InvW (W.copy w x1 x2 x3 x4 x5 x6 x7) := by
  unfold W.copy
  (try dsimp only)
  repeat'
    first
      | with_reducible assumption
      | with_reducible refine State.copyGo_inv ?_
      | with_reducible refine State.copyRecords_inv ?_
      | with_reducible refine W.fault_inv ?_
      | with_reducible refine W.tileWait_inv ?_
      | with_reducible refine askRecords_inv ?_
      | with_reducible refine InvW.s ?_
      | with_reducible refine InvW.s0 ?_
      | with_reducible refine InvW.fx ?_
      | with_reducible refine Inv.getD ?_ ?_
      | intro _
      | with_reducible refine Inv.foldl ?_ ?_
      | with_reducible refine Inv.foldl2 ?_ ?_
      | with_reducible refine Inv.foldl3 ?_ ?_
      | with_reducible refine Inv.ite ?_ ?_
      | with_reducible refine InvW.foldl ?_ ?_
      | with_reducible refine InvW.foldl2 ?_ ?_
      | with_reducible refine InvW.ite ?_ ?_
      | split
      | with_reducible refine Inv.snd (by assumption) ?_
      | with_reducible refine Inv.trd (by assumption) ?_
      | with_reducible refine InvW.snd (by assumption) ?_
      | with_reducible refine InvW.fst (by assumption) ?_
      | with_reducible refine InvW.make ?_ ?_ ?_

theorem W.tileState_inv {w : W} (h : InvW w) :
    InvW (W.tileState w) := by
  unfold W.tileState
  repeat'
    first
      | with_reducible assumption
      | with_reducible refine W.faultWord_inv ?_

theorem W.talloc_inv {w : W} {x1} {x2} {x3} (h : InvW w) :
    InvW (W.talloc w x1 x2 x3) := by
  unfold W.talloc
  (try dsimp only)
  repeat'
    first
      | with_reducible assumption
      | with_reducible refine State.modTeam_inv ?_
      | with_reducible refine W.tileState_inv ?_
      | with_reducible refine InvW.s ?_
      | with_reducible refine InvW.s0 ?_
      | with_reducible refine InvW.fx ?_
      | with_reducible refine Inv.getD ?_ ?_
      | intro _
      | with_reducible refine Inv.foldl ?_ ?_
      | with_reducible refine Inv.foldl2 ?_ ?_
      | with_reducible refine Inv.foldl3 ?_ ?_
      | with_reducible refine Inv.ite ?_ ?_
      | with_reducible refine InvW.foldl ?_ ?_
      | with_reducible refine InvW.foldl2 ?_ ?_
      | with_reducible refine InvW.ite ?_ ?_
      | split
      | with_reducible refine Inv.snd (by assumption) ?_
      | with_reducible refine Inv.trd (by assumption) ?_
      | with_reducible refine InvW.snd (by assumption) ?_
      | with_reducible refine InvW.fst (by assumption) ?_
      | with_reducible refine InvW.make ?_ ?_ ?_

theorem W.tdrain_inv {w : W} {x1} (h : InvW w) :
    InvW (W.tdrain w x1) := by
  unfold W.tdrain
  repeat'
    first
      | with_reducible assumption
      | with_reducible refine State.modTile_inv ?_
      | with_reducible refine W.tileWait_inv ?_
      | with_reducible refine W.tileState_inv ?_
      | with_reducible refine InvW.s ?_
      | with_reducible refine InvW.s0 ?_
      | with_reducible refine InvW.fx ?_
      | with_reducible refine Inv.getD ?_ ?_
      | intro _
      | with_reducible refine Inv.foldl ?_ ?_
      | with_reducible refine Inv.foldl2 ?_ ?_
      | with_reducible refine Inv.foldl3 ?_ ?_
      | with_reducible refine Inv.ite ?_ ?_
      | with_reducible refine InvW.foldl ?_ ?_
      | with_reducible refine InvW.foldl2 ?_ ?_
      | with_reducible refine InvW.ite ?_ ?_
      | split
      | with_reducible refine Inv.snd (by assumption) ?_
      | with_reducible refine Inv.trd (by assumption) ?_
      | with_reducible refine InvW.snd (by assumption) ?_
      | with_reducible refine InvW.fst (by assumption) ?_
      | with_reducible refine InvW.make ?_ ?_ ?_

theorem W.texpect_inv {w : W} {x1} {x2} (h : InvW w) :
    InvW (W.texpect w x1 x2) := by
  unfold W.texpect
  (try dsimp only)
  repeat'
    first
      | with_reducible assumption
      | with_reducible refine State.modTile_inv ?_
      | with_reducible refine W.tileWait_inv ?_
      | with_reducible refine W.tileState_inv ?_
      | with_reducible refine InvW.s ?_
      | with_reducible refine InvW.s0 ?_
      | with_reducible refine InvW.fx ?_
      | with_reducible refine Inv.getD ?_ ?_
      | intro _
      | with_reducible refine Inv.foldl ?_ ?_
      | with_reducible refine Inv.foldl2 ?_ ?_
      | with_reducible refine Inv.foldl3 ?_ ?_
      | with_reducible refine Inv.ite ?_ ?_
      | with_reducible refine InvW.foldl ?_ ?_
      | with_reducible refine InvW.foldl2 ?_ ?_
      | with_reducible refine InvW.ite ?_ ?_
      | split
      | with_reducible refine Inv.snd (by assumption) ?_
      | with_reducible refine Inv.trd (by assumption) ?_
      | with_reducible refine InvW.snd (by assumption) ?_
      | with_reducible refine InvW.fst (by assumption) ?_
      | with_reducible refine InvW.make ?_ ?_ ?_

theorem W.tfree_inv {w : W} {x1} (h : InvW w) :
    InvW (W.tfree w x1) := by
  unfold W.tfree
  repeat'
    first
      | with_reducible assumption
      | with_reducible refine State.modTeam_inv ?_
      | with_reducible refine W.tileWait_inv ?_
      | with_reducible refine W.tileState_inv ?_
      | with_reducible refine InvW.s ?_
      | with_reducible refine InvW.s0 ?_
      | with_reducible refine InvW.fx ?_
      | with_reducible refine Inv.getD ?_ ?_
      | intro _
      | with_reducible refine Inv.foldl ?_ ?_
      | with_reducible refine Inv.foldl2 ?_ ?_
      | with_reducible refine Inv.foldl3 ?_ ?_
      | with_reducible refine Inv.ite ?_ ?_
      | with_reducible refine InvW.foldl ?_ ?_
      | with_reducible refine InvW.foldl2 ?_ ?_
      | with_reducible refine InvW.ite ?_ ?_
      | split
      | with_reducible refine Inv.snd (by assumption) ?_
      | with_reducible refine Inv.trd (by assumption) ?_
      | with_reducible refine InvW.snd (by assumption) ?_
      | with_reducible refine InvW.fst (by assumption) ?_
      | with_reducible refine InvW.make ?_ ?_ ?_

theorem W.tileEngine_inv {w : W} {x1} (h : InvW w) :
    InvW (W.tileEngine w x1) := by
  unfold W.tileEngine
  repeat'
    first
      | with_reducible assumption
      | with_reducible refine W.diverge_inv ?_
      | with_reducible refine InvW.s ?_
      | with_reducible refine InvW.s0 ?_
      | with_reducible refine InvW.fx ?_
      | with_reducible refine Inv.getD ?_ ?_
      | intro _
      | with_reducible refine Inv.foldl ?_ ?_
      | with_reducible refine Inv.foldl2 ?_ ?_
      | with_reducible refine Inv.foldl3 ?_ ?_
      | with_reducible refine Inv.ite ?_ ?_
      | with_reducible refine InvW.foldl ?_ ?_
      | with_reducible refine InvW.foldl2 ?_ ?_
      | with_reducible refine InvW.ite ?_ ?_
      | split
      | with_reducible refine Inv.snd (by assumption) ?_
      | with_reducible refine Inv.trd (by assumption) ?_
      | with_reducible refine InvW.snd (by assumption) ?_
      | with_reducible refine InvW.fst (by assumption) ?_
      | with_reducible refine InvW.make ?_ ?_ ?_

theorem W.tstate_inv {w : W} {x1} {x2} {x3} (h : InvW w) :
    InvW (W.tstate w x1 x2 x3) := by
  unfold W.tstate
  (try dsimp only)
  repeat'
    first
      | with_reducible assumption
      | with_reducible refine W.diverge_inv ?_
      | with_reducible refine W.var_inv ?_
      | with_reducible refine W.tileState_inv ?_
      | with_reducible refine InvW.s ?_
      | with_reducible refine InvW.s0 ?_
      | with_reducible refine InvW.fx ?_
      | with_reducible refine Inv.getD ?_ ?_
      | intro _
      | with_reducible refine Inv.foldl ?_ ?_
      | with_reducible refine Inv.foldl2 ?_ ?_
      | with_reducible refine Inv.foldl3 ?_ ?_
      | with_reducible refine Inv.ite ?_ ?_
      | with_reducible refine InvW.foldl ?_ ?_
      | with_reducible refine InvW.foldl2 ?_ ?_
      | with_reducible refine InvW.ite ?_ ?_

theorem W.ttest_inv {w : W} {x1} {x2} {x3} {x4} (h : InvW w) :
    InvW (W.ttest w x1 x2 x3 x4) := by
  unfold W.ttest
  (try dsimp only)
  repeat'
    first
      | with_reducible assumption
      | with_reducible refine W.diverge_inv ?_
      | with_reducible refine W.var_inv ?_
      | with_reducible refine W.tileState_inv ?_
      | with_reducible refine W.tileEngine_inv ?_
      | with_reducible refine InvW.s ?_
      | with_reducible refine InvW.s0 ?_
      | with_reducible refine InvW.fx ?_
      | with_reducible refine Inv.getD ?_ ?_
      | intro _
      | with_reducible refine Inv.foldl ?_ ?_
      | with_reducible refine Inv.foldl2 ?_ ?_
      | with_reducible refine Inv.foldl3 ?_ ?_
      | with_reducible refine Inv.ite ?_ ?_
      | with_reducible refine InvW.foldl ?_ ?_
      | with_reducible refine InvW.foldl2 ?_ ?_
      | with_reducible refine InvW.ite ?_ ?_
      | split

theorem W.twait_inv {w : W} {x1} {x2} {x3} (h : InvW w) :
    InvW (W.twait w x1 x2 x3) := by
  unfold W.twait
  (try dsimp only)
  repeat'
    first
      | with_reducible assumption
      | with_reducible refine W.tileWait_inv ?_
      | with_reducible refine W.tileState_inv ?_
      | with_reducible refine W.tileEngine_inv ?_
      | with_reducible refine InvW.s ?_
      | with_reducible refine InvW.s0 ?_
      | with_reducible refine InvW.fx ?_
      | with_reducible refine Inv.getD ?_ ?_
      | intro _
      | with_reducible refine Inv.foldl ?_ ?_
      | with_reducible refine Inv.foldl2 ?_ ?_
      | with_reducible refine Inv.foldl3 ?_ ?_
      | with_reducible refine Inv.ite ?_ ?_
      | with_reducible refine InvW.foldl ?_ ?_
      | with_reducible refine InvW.foldl2 ?_ ?_
      | with_reducible refine InvW.ite ?_ ?_
      | split

theorem W.xfence_inv {w : W} {x1} (h : InvW w) :
    InvW (W.xfence w x1) := by
  unfold W.xfence
  repeat'
    first
      | with_reducible assumption
      | with_reducible refine W.mod_inv ?_
      | with_reducible refine InvW.s ?_
      | with_reducible refine InvW.s0 ?_
      | with_reducible refine InvW.fx ?_
      | with_reducible refine Inv.getD ?_ ?_
      | intro _
      | with_reducible refine Inv.foldl ?_ ?_
      | with_reducible refine Inv.foldl2 ?_ ?_
      | with_reducible refine Inv.foldl3 ?_ ?_
      | with_reducible refine Inv.ite ?_ ?_
      | with_reducible refine InvW.foldl ?_ ?_
      | with_reducible refine InvW.foldl2 ?_ ?_
      | with_reducible refine InvW.ite ?_ ?_

theorem W.xpref_inv {w : W} {x1} {x2} (h : InvW w) :
    InvW (W.xpref w x1 x2) := by
  unfold W.xpref
  repeat'
    first
      | with_reducible assumption
      | with_reducible refine State.xprefLane_inv ?_
      | with_reducible refine W.eff_inv ?_ ?_
      | with_reducible refine InvW.s ?_
      | with_reducible refine InvW.s0 ?_
      | with_reducible refine InvW.fx ?_
      | with_reducible refine Inv.getD ?_ ?_
      | intro _
      | with_reducible refine Inv.foldl ?_ ?_

theorem W.xstat_inv {w : W} {x1} (h : InvW w) :
    InvW (W.xstat w x1) := by
  unfold W.xstat
  repeat'
    first
      | with_reducible assumption
      | with_reducible refine W.var_inv ?_

end Sys2Proof.Machine
end

