-- ==== Sys2Proof/Laws/KeepFragment.lean ====
section
/-! SUPPORT. The operations of Machine/Fragment keep the machine's invariant `Inv`. -/

namespace Sys2Proof.Machine

theorem State.pieceAt_inv {s : State} {x1} {x2} {x3} {x4} {x5} {x6} {x7} (h : Inv s) :
    Inv (State.pieceAt s x1 x2 x3 x4 x5 x6 x7).2 := by
  unfold State.pieceAt
  repeat'
    first
      | with_reducible assumption
      | with_reducible refine State.reachG_inv ?_
      | with_reducible refine Inv.getD ?_ ?_
      | intro _
      | with_reducible refine Inv.foldl ?_ ?_
      | with_reducible refine Inv.foldl2 ?_ ?_
      | with_reducible refine Inv.foldl3 ?_ ?_
      | with_reducible refine Inv.ite ?_ ?_
      | split

theorem State.fragReach_inv {x0} {x1} {x2} {x3} {x4} {s : State} {x6} (h : Inv s) :
    Inv (State.fragReach x0 x1 x2 x3 x4 s x6).2 := by
  induction x6 generalizing s with
  | nil =>
    unfold State.fragReach
    (try dsimp only)
    repeat'
      first
        | with_reducible assumption
  | cons a t ih =>
    unfold State.fragReach
    (try dsimp only)
    repeat'
      first
        | with_reducible assumption
        | with_reducible refine ih ?_
        | with_reducible refine State.pieceAt_inv ?_

theorem State.fragTakes_inv {s : State} {x1} {x2} {x3} {x4} (h : Inv s) :
    Inv (State.fragTakes s x1 x2 x3 x4) := by
  unfold State.fragTakes
  (try dsimp only)
  repeat'
    first
      | with_reducible assumption
      | with_reducible refine State.modGrp_inv ?_
      | with_reducible refine State.modCore_inv ?_
      | with_reducible refine Inv.getD ?_ ?_
      | intro _
      | with_reducible refine Inv.foldl ?_ ?_
      | with_reducible refine Inv.foldl2 ?_ ?_
      | with_reducible refine Inv.foldl3 ?_ ?_
      | with_reducible refine Inv.ite ?_ ?_

theorem State.tilePort_inv {s : State} {x1} {x2} (h : Inv s) :
    Inv (State.tilePort s x1 x2).2 := by
  unfold State.tilePort
  (try dsimp only)
  repeat'
    first
      | with_reducible assumption
      | with_reducible refine State.modCore_inv ?_
      | with_reducible refine Inv.getD ?_ ?_
      | intro _
      | with_reducible refine Inv.foldl ?_ ?_
      | with_reducible refine Inv.foldl2 ?_ ?_

theorem W.fragCheck_inv {w : W} {x1} (h : InvW w) :
    ∀ t, W.fragCheck w x1 = some t → InvW t := by
  intro t
  unfold W.fragCheck
  repeat'
    first
      | with_reducible assumption
      | with_reducible refine W.absent_inv ?_
      | with_reducible refine W.fault_inv ?_
      | with_reducible refine InvW.s ?_
      | with_reducible refine InvW.s0 ?_
      | with_reducible refine InvW.fx ?_
      | split
      | with_reducible refine InvW.ofSome ?_
      | with_reducible exact InvW.ofNone
      | with_reducible refine Inv.getD ?_ ?_
      | intro _
      | with_reducible refine Inv.foldl ?_ ?_
      | with_reducible refine Inv.foldl2 ?_ ?_
      | with_reducible refine Inv.foldl3 ?_ ?_
      | with_reducible refine Inv.ite ?_ ?_
      | with_reducible refine InvW.foldl ?_ ?_
      | with_reducible refine InvW.foldl2 ?_ ?_
      | with_reducible refine InvW.ite ?_ ?_
      | split
      | with_reducible refine Inv.snd (by assumption) ?_
      | with_reducible refine Inv.trd (by assumption) ?_
      | with_reducible refine InvW.snd (by assumption) ?_
      | with_reducible refine InvW.fst (by assumption) ?_
      | with_reducible refine InvW.make ?_ ?_ ?_

theorem W.fragMisalign_inv {w : W} {x1} {x2} {x3} (h : InvW w) :
    InvW (W.fragMisalign w x1 x2 x3) := by
  unfold W.fragMisalign
  repeat'
    first
      | with_reducible assumption
      | with_reducible refine W.fault_inv ?_
      | with_reducible refine InvW.s ?_
      | with_reducible refine InvW.s0 ?_
      | with_reducible refine InvW.fx ?_
      | with_reducible refine Inv.getD ?_ ?_
      | intro _
      | with_reducible refine Inv.foldl ?_ ?_
      | with_reducible refine Inv.foldl2 ?_ ?_
      | with_reducible refine Inv.foldl3 ?_ ?_
      | with_reducible refine Inv.ite ?_ ?_
      | with_reducible refine InvW.foldl ?_ ?_
      | with_reducible refine InvW.foldl2 ?_ ?_
      | with_reducible refine InvW.ite ?_ ?_
      | split
      | with_reducible refine Inv.snd (by assumption) ?_
      | with_reducible refine Inv.trd (by assumption) ?_
      | with_reducible refine InvW.snd (by assumption) ?_
      | with_reducible refine InvW.fst (by assumption) ?_
      | with_reducible refine InvW.make ?_ ?_ ?_

theorem W.fragment_inv {w : W} {x1} {x2} {x3} {x4} (h : InvW w) :
    InvW (W.fragment w x1 x2 x3 x4) := by
  unfold W.fragment
  (try dsimp only)
  repeat'
    first
      | with_reducible assumption
      | with_reducible refine State.fragTakes_inv ?_
      | with_reducible refine W.fix_inv ?_
      | with_reducible refine InvW.s ?_
      | with_reducible refine InvW.s0 ?_
      | with_reducible refine InvW.fx ?_
      | with_reducible refine Inv.getD ?_ ?_
      | intro _
      | with_reducible refine Inv.foldl ?_ ?_
      | with_reducible refine Inv.foldl2 ?_ ?_
      | with_reducible refine Inv.foldl3 ?_ ?_
      | with_reducible refine Inv.ite ?_ ?_
      | with_reducible refine InvW.foldl ?_ ?_
      | with_reducible refine InvW.foldl2 ?_ ?_
      | with_reducible refine InvW.ite ?_ ?_
      | split
      | with_reducible refine Inv.snd (by assumption) ?_
      | with_reducible refine Inv.trd (by assumption) ?_
      | with_reducible refine InvW.snd (by assumption) ?_
      | with_reducible refine InvW.fst (by assumption) ?_
      | with_reducible refine InvW.make ?_ ?_ ?_

theorem W.ldmReads_inv {w : W} {x1} {x2} (h : InvW w) :
    InvW (W.ldmReads w x1 x2).2 := by
  induction x2 generalizing w with
  | nil =>
    unfold W.ldmReads
    (try dsimp only)
    repeat'
      first
        | with_reducible assumption
  | cons a t ih =>
    unfold W.ldmReads
    (try dsimp only)
    repeat'
      first
        | with_reducible assumption
        | with_reducible refine ih ?_
        | with_reducible refine W.readLane_inv ?_

theorem W.ldmDue_inv {w : W} {x1} {x2} {x3} {x4} (h : InvW w) :
    Inv (W.ldmDue w x1 x2 x3 x4).2 := by
  unfold W.ldmDue
  repeat'
    first
      | with_reducible assumption
      | with_reducible refine State.freeDue_inv ?_
      | with_reducible refine InvW.s ?_
      | with_reducible refine InvW.s0 ?_
      | with_reducible refine InvW.fx ?_
      | with_reducible refine Inv.getD ?_ ?_
      | intro _
      | with_reducible refine Inv.foldl ?_ ?_
      | with_reducible refine Inv.foldl2 ?_ ?_
      | with_reducible refine Inv.foldl3 ?_ ?_
      | with_reducible refine Inv.ite ?_ ?_
      | with_reducible refine InvW.foldl ?_ ?_
      | with_reducible refine InvW.foldl2 ?_ ?_
      | with_reducible refine InvW.ite ?_ ?_
      | split

theorem W.ldm_inv {w : W} {x1} {x2} {x3} {x4} (h : InvW w) :
    InvW (W.ldm w x1 x2 x3 x4) := by
  unfold W.ldm
  extract_lets p R w2
  have kR : Inv R.2 := State.fragReach_inv h.s
  have k2 : InvW w2 := InvW.make kR h.s0 h.fx
  clear_value R w2
  repeat'
    first
      | with_reducible assumption
      | with_reducible refine State.fragReach_inv ?_
      | with_reducible refine State.tilePort_inv ?_
      | with_reducible refine W.diverge_inv ?_
      | with_reducible refine W.absent_inv ?_
      | with_reducible refine W.var_inv ?_
      | with_reducible refine W.fragCheck_inv ?_
      | with_reducible refine W.fragMisalign_inv ?_
      | with_reducible refine W.ldmReads_inv ?_
      | with_reducible refine W.ldmDue_inv ?_
      | with_reducible refine InvW.s ?_
      | with_reducible refine InvW.s0 ?_
      | with_reducible refine InvW.fx ?_
      | with_reducible refine Inv.getD ?_ ?_
      | intro _
      | with_reducible refine Inv.foldl ?_ ?_
      | with_reducible refine Inv.foldl2 ?_ ?_
      | with_reducible refine Inv.foldl3 ?_ ?_
      | with_reducible refine Inv.ite ?_ ?_
      | with_reducible refine InvW.foldl ?_ ?_
      | with_reducible refine InvW.foldl2 ?_ ?_
      | with_reducible refine InvW.ite ?_ ?_
      | split
      | with_reducible refine W.fragCheck_inv ?_ _
      | with_reducible refine W.fragCheck_inv ?_ _ (by assumption)
      | with_reducible refine Inv.snd (by assumption) ?_
      | with_reducible refine Inv.trd (by assumption) ?_
      | with_reducible refine InvW.snd (by assumption) ?_
      | with_reducible refine InvW.fst (by assumption) ?_
      | with_reducible refine InvW.make ?_ ?_ ?_

theorem W.mma_inv {w : W} {x1} {x2} {x3} {x4} {x5} {x6} (h : InvW w) :
    InvW (W.mma w x1 x2 x3 x4 x5 x6) := by
  unfold W.mma
  (try dsimp only)
  repeat'
    first
      | with_reducible assumption
      | with_reducible refine W.fragment_inv ?_

theorem W.stm_inv {w : W} {x1} {x2} {x3} {x4} (h : InvW w) :
    InvW (W.stm w x1 x2 x3 x4) := by
  unfold W.stm
  extract_lets p R w2
  have kR : Inv R.2 := State.fragReach_inv h.s
  have k2 : InvW w2 := InvW.make kR h.s0 h.fx
  clear_value R w2
  repeat'
    first
      | with_reducible assumption
      | with_reducible refine State.fragReach_inv ?_
      | with_reducible refine State.logLines_inv ?_
      | with_reducible refine State.tilePort_inv ?_
      | with_reducible refine W.eff_inv ?_ ?_
      | with_reducible refine W.fragCheck_inv ?_
      | with_reducible refine W.fragMisalign_inv ?_
      | with_reducible refine W.writeLane_inv ?_
      | with_reducible refine InvW.s ?_
      | with_reducible refine InvW.s0 ?_
      | with_reducible refine InvW.fx ?_
      | with_reducible refine Inv.getD ?_ ?_
      | intro _
      | with_reducible refine Inv.foldl ?_ ?_
      | with_reducible refine Inv.foldl2 ?_ ?_
      | with_reducible refine Inv.foldl3 ?_ ?_
      | with_reducible refine Inv.ite ?_ ?_
      | with_reducible refine InvW.foldl ?_ ?_
      | with_reducible refine InvW.foldl2 ?_ ?_
      | with_reducible refine InvW.ite ?_ ?_
      | split
      | with_reducible refine W.fragCheck_inv ?_ _
      | with_reducible refine W.fragCheck_inv ?_ _ (by assumption)
      | with_reducible refine Inv.snd (by assumption) ?_
      | with_reducible refine Inv.trd (by assumption) ?_
      | with_reducible refine InvW.snd (by assumption) ?_
      | with_reducible refine InvW.fst (by assumption) ?_
      | with_reducible refine InvW.make ?_ ?_ ?_

end Sys2Proof.Machine
end

