-- ==== Sys2Proof/Laws/KeepMatrix.lean ====
section
/-! SUPPORT. The operations of Machine/Matrix keep the machine's invariant `Inv`. -/

namespace Sys2Proof.Machine

theorem State.accErr_inv {s : State} {x1} {x2} (h : Inv s) :
    Inv (State.accErr s x1 x2) := by
  unfold State.accErr
  repeat'
    first
      | with_reducible assumption
      | with_reducible refine State.modTeam_inv ?_

theorem State.accFlags_inv {s : State} {x1} {x2} {x3} (h : Inv s) :
    Inv (State.accFlags s x1 x2 x3) := by
  unfold State.accFlags
  repeat'
    first
      | with_reducible assumption
      | with_reducible refine State.modTeam_inv ?_

theorem State.accLoad_inv {s : State} {x1} {x2} {x3} (h : Inv s) :
    ∀ t, State.accLoad s x1 x2 x3 = some t → Inv t := by
  intro t e
  unfold State.accLoad at e
  refine Inv.foldlM (fun t x u eu k => ?_) e h
  obtain ⟨v, -, rfl⟩ := Option.map_eq_some_iff.1 eu
  exact State.put_inv k

theorem State.accRead_inv {s : State} {x1} {x2} {x3} {x4} {x5} (h : Inv s) :
    Inv (State.accRead s x1 x2 x3 x4 x5) := by
  unfold State.accRead
  (try dsimp only)
  repeat'
    first
      | with_reducible assumption
      | with_reducible refine State.modGrp_inv ?_

theorem State.accZero_inv {s : State} {x1} {x2} (h : Inv s) :
    Inv (State.accZero s x1 x2) := by
  unfold State.accZero
  repeat'
    first
      | with_reducible assumption
      | with_reducible refine State.zeroRange_inv ?_
      | with_reducible refine Inv.getD ?_ ?_
      | intro _
      | with_reducible refine Inv.foldl ?_ ?_

theorem State.mPutRow_inv {s : State} {x1} {x2} {x3} {x4} (h : Inv s) :
    Inv (State.mPutRow s x1 x2 x3 x4) := by
  unfold State.mPutRow
  repeat'
    first
      | with_reducible assumption
      | with_reducible refine State.put_inv ?_
      | with_reducible refine Inv.getD ?_ ?_
      | intro _
      | with_reducible refine Inv.foldl ?_ ?_
      | with_reducible refine Inv.foldl2 ?_ ?_
      | with_reducible refine Inv.foldl3 ?_ ?_
      | with_reducible refine Inv.ite ?_ ?_
      | split

theorem State.accStore_inv {s : State} {x1} {x2} {x3} {x4} {x5} {x6} (h : Inv s) :
    Inv (State.accStore s x1 x2 x3 x4 x5 x6) := by
  unfold State.accStore
  (try dsimp only)
  repeat'
    first
      | with_reducible assumption
      | with_reducible refine State.mPutRow_inv ?_
      | with_reducible refine Inv.getD ?_ ?_
      | intro _
      | with_reducible refine Inv.foldl ?_ ?_
      | with_reducible refine Inv.foldl2 ?_ ?_

theorem State.accStart_inv {s : State} {x1} (h : Inv s) :
    Inv (State.accStart s x1) := by
  unfold State.accStart
  (try dsimp only)
  repeat'
    first
      | with_reducible assumption
      | with_reducible refine State.accErr_inv ?_
      | with_reducible refine State.accLoad_inv ?_
      | with_reducible refine State.accRead_inv ?_
      | with_reducible refine State.accZero_inv ?_
      | with_reducible refine State.accStore_inv ?_
      | with_reducible refine Inv.getD ?_ ?_
      | intro _
      | with_reducible refine Inv.foldl ?_ ?_
      | with_reducible refine Inv.foldl2 ?_ ?_
      | with_reducible refine Inv.foldl3 ?_ ?_
      | with_reducible refine Inv.ite ?_ ?_
      | split
      | with_reducible refine State.accLoad_inv ?_ _
      | with_reducible refine State.accLoad_inv ?_ _ (by assumption)
      | with_reducible refine Inv.snd (by assumption) ?_
      | with_reducible refine Inv.trd (by assumption) ?_
      | with_reducible refine Inv.fold ?_
      | with_reducible refine Inv.mk ?_

theorem State.kPart_inv {s : State} {x1} {x2} {x3} {x4} {x5} {x6} {x7} {x8} (h : Inv s) :
    Inv (State.kPart s x1 x2 x3 x4 x5 x6 x7 x8).2.2 := by
  unfold State.kPart
  (try dsimp only)
  repeat'
    first
      | with_reducible assumption
      | with_reducible refine State.put_inv ?_
      | with_reducible refine Inv.getD ?_ ?_
      | intro _
      | with_reducible refine Inv.foldl ?_ ?_
      | with_reducible refine Inv.foldl2 ?_ ?_
      | with_reducible refine Inv.foldl3 ?_ ?_
      | with_reducible refine Inv.ite ?_ ?_

theorem State.kAll_inv {s : State} {x1} {x2} {x3} {x4} {x5} {x6} (h : Inv s) :
    Inv (State.kAll s x1 x2 x3 x4 x5 x6).2.2 := by
  unfold State.kAll
  (try dsimp only)
  repeat'
    first
      | with_reducible assumption
      | with_reducible refine State.kPart_inv ?_
      | with_reducible refine Inv.getD ?_ ?_
      | intro _
      | with_reducible refine Inv.foldl ?_ ?_
      | with_reducible refine Inv.foldl2 ?_ ?_
      | with_reducible refine Inv.foldl3 ?_ ?_

theorem State.kZero_inv {s : State} {x1} (h : Inv s) :
    Inv (State.kZero s x1) := by
  unfold State.kZero
  repeat'
    first
      | with_reducible assumption
      | with_reducible refine State.accZero_inv ?_
      | with_reducible refine Inv.getD ?_ ?_
      | intro _
      | with_reducible refine Inv.foldl ?_ ?_
      | with_reducible refine Inv.foldl2 ?_ ?_
      | with_reducible refine Inv.foldl3 ?_ ?_
      | with_reducible refine Inv.ite ?_ ?_

theorem State.kblock_inv {s : State} {x1} (h : Inv s) :
    Inv (State.kblock s x1) := by
  unfold State.kblock
  (try dsimp only)
  repeat'
    first
      | with_reducible assumption
      | with_reducible refine State.accFlags_inv ?_
      | with_reducible refine State.kAll_inv ?_
      | with_reducible refine State.kZero_inv ?_
      | with_reducible refine Inv.getD ?_ ?_
      | intro _
      | with_reducible refine Inv.foldl ?_ ?_
      | with_reducible refine Inv.foldl2 ?_ ?_
      | with_reducible refine Inv.foldl3 ?_ ?_
      | with_reducible refine Inv.ite ?_ ?_
      | split
      | with_reducible refine Inv.snd (by assumption) ?_
      | with_reducible refine Inv.trd (by assumption) ?_
      | with_reducible refine Inv.fold ?_
      | with_reducible refine Inv.mk ?_

theorem State.mIssue_inv {s : State} {x1} {x2} (h : Inv s) :
    Inv (State.mIssue s x1 x2) := by
  unfold State.mIssue
  (try dsimp only)
  repeat'
    first
      | with_reducible assumption
      | with_reducible refine State.modTeam_inv ?_
      | with_reducible refine Inv.getD ?_ ?_
      | intro _
      | with_reducible refine Inv.foldl ?_ ?_
      | with_reducible refine Inv.foldl2 ?_ ?_
      | with_reducible refine Inv.foldl3 ?_ ?_
      | with_reducible refine Inv.ite ?_ ?_
      | split
      | with_reducible refine Inv.snd (by assumption) ?_
      | with_reducible refine Inv.trd (by assumption) ?_
      | with_reducible refine Inv.fold ?_
      | with_reducible refine Inv.mk ?_

theorem State.putStatus_inv {s : State} {x1} {x2} (h : Inv s) :
    Inv (State.putStatus s x1 x2) := by
  unfold State.putStatus
  (try dsimp only)
  repeat'
    first
      | with_reducible assumption
      | with_reducible refine State.put_inv ?_

theorem State.mxbDone_inv {s : State} {x1} (h : Inv s) :
    Inv (State.mxbDone s x1) := by
  unfold State.mxbDone
  (try dsimp only)
  repeat'
    first
      | with_reducible assumption
      | with_reducible refine State.accErr_inv ?_
      | with_reducible refine State.putStatus_inv ?_
      | with_reducible refine Inv.getD ?_ ?_
      | intro _
      | with_reducible refine Inv.foldl ?_ ?_
      | with_reducible refine Inv.foldl2 ?_ ?_
      | with_reducible refine Inv.foldl3 ?_ ?_
      | with_reducible refine Inv.ite ?_ ?_
      | split
      | with_reducible refine Inv.snd (by assumption) ?_
      | with_reducible refine Inv.trd (by assumption) ?_
      | with_reducible refine Inv.fold ?_
      | with_reducible refine Inv.mk ?_

theorem State.mxbParts_inv {s : State} {x1} (h : Inv s) :
    Inv (State.mxbParts s x1).2 := by
  unfold State.mxbParts
  (try dsimp only)
  repeat'
    first
      | with_reducible assumption
      | with_reducible refine Inv.getD ?_ ?_
      | intro _
      | with_reducible refine Inv.foldl ?_ ?_
      | with_reducible refine Inv.foldl2 ?_ ?_
      | with_reducible refine Inv.foldl3 ?_ ?_
      | with_reducible refine Inv.ite ?_ ?_
      | split
      | with_reducible refine Inv.snd (by assumption) ?_
      | with_reducible refine Inv.trd (by assumption) ?_
      | with_reducible refine Inv.fold ?_
      | with_reducible refine Inv.mk ?_

theorem State.mxbStart_inv {s : State} {x1} (h : Inv s) :
    Inv (State.mxbStart s x1) := by
  unfold State.mxbStart
  (try dsimp only)
  repeat'
    first
      | with_reducible assumption
      | with_reducible refine State.putStatus_inv ?_
      | with_reducible refine State.mxbParts_inv ?_
      | with_reducible refine Inv.getD ?_ ?_
      | intro _
      | with_reducible refine Inv.foldl ?_ ?_
      | with_reducible refine Inv.foldl2 ?_ ?_
      | with_reducible refine Inv.foldl3 ?_ ?_
      | with_reducible refine Inv.ite ?_ ?_
      | split
      | with_reducible refine Inv.snd (by assumption) ?_
      | with_reducible refine Inv.trd (by assumption) ?_
      | with_reducible refine Inv.fold ?_
      | with_reducible refine Inv.mk ?_

theorem W.issueJobs_inv {w : W} {x1} {x2} {x3} {x4} {f5 : State → State} (h : InvW w) (hf : ∀ t, Inv t → Inv (f5 t)) :
    InvW (W.issueJobs w x1 x2 x3 x4 f5) := by
  unfold W.issueJobs
  repeat'
    first
      | with_reducible assumption
      | with_reducible refine State.mIssue_inv ?_
      | with_reducible refine W.diverge_inv ?_
      | with_reducible refine W.var_inv ?_
      | with_reducible refine W.fault_inv ?_
      | with_reducible refine W.tileWait_inv ?_
      | with_reducible refine hf _ ?_
      | with_reducible refine InvW.s ?_
      | with_reducible refine InvW.s0 ?_
      | with_reducible refine InvW.fx ?_
      | with_reducible refine Inv.getD ?_ ?_
      | intro _
      | with_reducible refine Inv.foldl ?_ ?_
      | with_reducible refine Inv.foldl2 ?_ ?_
      | with_reducible refine Inv.foldl3 ?_ ?_
      | with_reducible refine Inv.ite ?_ ?_
      | with_reducible refine InvW.foldl ?_ ?_
      | with_reducible refine InvW.foldl2 ?_ ?_
      | with_reducible refine InvW.ite ?_ ?_
      | split
      | with_reducible refine Inv.snd (by assumption) ?_
      | with_reducible refine Inv.trd (by assumption) ?_
      | with_reducible refine InvW.snd (by assumption) ?_
      | with_reducible refine InvW.fst (by assumption) ?_
      | with_reducible refine InvW.make ?_ ?_ ?_

theorem W.accWord_inv {w : W} {x1} {x2} {x3} {x4} (h : InvW w) :
    InvW (W.accWord w x1 x2 x3 x4) := by
  exact W.issueJobs_inv h (fun _ k => k)

theorem W.accrd_inv {w : W} {x1} {x2} (h : InvW w) :
    InvW (W.accrd w x1 x2) := by
  unfold W.accrd
  (try dsimp only)
  repeat'
    first
      | with_reducible assumption
      | with_reducible refine State.mIssue_inv ?_
      | with_reducible refine W.diverge_inv ?_
      | with_reducible refine W.pend_inv ?_
      | with_reducible refine W.var_inv ?_
      | with_reducible refine W.faultWord_inv ?_
      | with_reducible refine InvW.s ?_
      | with_reducible refine InvW.s0 ?_
      | with_reducible refine InvW.fx ?_
      | with_reducible refine Inv.getD ?_ ?_
      | intro _
      | with_reducible refine Inv.foldl ?_ ?_
      | with_reducible refine Inv.foldl2 ?_ ?_
      | with_reducible refine Inv.foldl3 ?_ ?_
      | with_reducible refine Inv.ite ?_ ?_
      | with_reducible refine InvW.foldl ?_ ?_
      | with_reducible refine InvW.foldl2 ?_ ?_
      | with_reducible refine InvW.ite ?_ ?_
      | split
      | with_reducible refine Inv.snd (by assumption) ?_
      | with_reducible refine Inv.trd (by assumption) ?_
      | with_reducible refine InvW.snd (by assumption) ?_
      | with_reducible refine InvW.fst (by assumption) ?_
      | with_reducible refine InvW.make ?_ ?_ ?_

theorem W.mxb_inv {w : W} {x1} {x2} {x3} {x4} (h : InvW w) :
    InvW (W.mxb w x1 x2 x3 x4) := by
  unfold W.mxb
  repeat'
    first
      | with_reducible assumption
      | with_reducible refine State.putStatus_inv ?_
      | with_reducible refine W.issueJobs_inv ?_ ?_
      | with_reducible refine InvW.s ?_
      | with_reducible refine InvW.s0 ?_
      | with_reducible refine InvW.fx ?_
      | with_reducible refine Inv.getD ?_ ?_
      | intro _

theorem W.mxbt_inv {w : W} {x1} {x2} (h : InvW w) :
    InvW (W.mxbt w x1 x2) := by
  unfold W.mxbt
  repeat'
    first
      | with_reducible assumption
      | with_reducible refine W.var_inv ?_

theorem W.mxbw_inv {w : W} {x1} {x2} (h : InvW w) :
    InvW (W.mxbw w x1 x2) := by
  unfold W.mxbw
  repeat'
    first
      | with_reducible assumption
      | with_reducible refine W.var_inv ?_
      | with_reducible refine W.varFree_inv ?_
      | with_reducible refine InvW.s ?_
      | with_reducible refine InvW.s0 ?_
      | with_reducible refine InvW.fx ?_
      | with_reducible refine Inv.getD ?_ ?_
      | intro _
      | with_reducible refine Inv.foldl ?_ ?_
      | with_reducible refine Inv.foldl2 ?_ ?_
      | with_reducible refine Inv.foldl3 ?_ ?_
      | with_reducible refine Inv.ite ?_ ?_
      | with_reducible refine InvW.foldl ?_ ?_
      | with_reducible refine InvW.foldl2 ?_ ?_
      | with_reducible refine InvW.ite ?_ ?_
      | split
      | with_reducible refine Inv.snd (by assumption) ?_
      | with_reducible refine Inv.trd (by assumption) ?_
      | with_reducible refine InvW.snd (by assumption) ?_
      | with_reducible refine InvW.fst (by assumption) ?_
      | with_reducible refine InvW.make ?_ ?_ ?_

end Sys2Proof.Machine
end

