-- ==== Sys2Proof/Laws/KeepAccounts.lean ====
section
/-! SUPPORT. The operations of Machine/Accounts keep the machine's invariant `Inv`. -/

namespace Sys2Proof.Machine

theorem State.settleCore_inv {s : State} {x1} (h : Inv s) :
    Inv (State.settleCore s x1) := by
  unfold State.settleCore
  repeat'
    first
      | with_reducible assumption
      | with_reducible refine State.modCore_inv ?_

theorem State.splitTable_inv {s : State} {x1} {x2} (h : Inv s) :
    Inv (State.splitTable s x1 x2).2 := by
  unfold State.splitTable
  (try dsimp only)
  repeat'
    first
      | with_reducible assumption
      | with_reducible refine State.homeOf_inv ?_
      | with_reducible refine Inv.getD ?_ ?_
      | intro _
      | with_reducible refine Inv.foldl ?_ ?_
      | with_reducible refine Inv.foldl2 ?_ ?_
      | with_reducible refine Inv.foldl3 ?_ ?_
      | with_reducible refine Inv.ite ?_ ?_
      | split

theorem State.foldContext_inv {s : State} {x1} {x2} (h : Inv s) :
    Inv (State.foldContext s x1 x2) := by
  unfold State.foldContext
  (try dsimp only)
  repeat'
    first
      | with_reducible assumption
      | with_reducible refine State.homePut_inv ?_
      | with_reducible refine State.modCtx_inv ?_
      | with_reducible refine State.splitTable_inv ?_
      | with_reducible refine Inv.getD ?_ ?_
      | intro _
      | with_reducible refine Inv.foldl ?_ ?_
      | with_reducible refine Inv.foldl2 ?_ ?_
      | with_reducible refine Inv.foldl3 ?_ ?_
      | with_reducible refine Inv.ite ?_ ?_
      | split
      | with_reducible refine Inv.snd (by assumption) ?_

theorem State.foldPort_inv {s : State} {x1} {x2} {x3} (h : Inv s) :
    Inv (State.foldPort s x1 x2 x3) := by
  unfold State.foldPort
  (try dsimp only)
  repeat'
    first
      | with_reducible assumption
      | with_reducible refine State.modPkg_inv ?_ ?_
      | with_reducible refine State.foldContext_inv ?_
      | with_reducible refine Inv.getD ?_ ?_
      | intro _
      | with_reducible refine Inv.foldl ?_ ?_
      | with_reducible refine Inv.foldl2 ?_ ?_
      | with_reducible refine Inv.foldl3 ?_ ?_
      | with_reducible refine Inv.ite ?_ ?_
      | split
      | with_reducible refine Inv.snd (by assumption) ?_
      | with_reducible refine Inv.trd (by assumption) ?_
      | with_reducible refine Inv.fold ?_
      | with_reducible refine Inv.mk ?_
      | with_reducible refine PkgOk.fold ?_
      | with_reducible refine PkgOk.mk ?_

theorem State.overflowFold_inv {s : State} {x1} {x2} (h : Inv s) :
    Inv (State.overflowFold s x1 x2) := by
  unfold State.overflowFold
  (try dsimp only)
  repeat'
    first
      | with_reducible assumption
      | with_reducible refine State.modCore_inv ?_
      | with_reducible refine State.foldPort_inv ?_
      | with_reducible refine Inv.getD ?_ ?_
      | intro _
      | with_reducible refine Inv.foldl ?_ ?_
      | with_reducible refine Inv.foldl2 ?_ ?_
      | with_reducible refine Inv.foldl3 ?_ ?_
      | with_reducible refine Inv.ite ?_ ?_

theorem State.clearTable_inv {s : State} {x1} (h : Inv s) :
    Inv (State.clearTable s x1) := by
  unfold State.clearTable
  repeat'
    first
      | with_reducible assumption
      | with_reducible refine State.homePut_inv ?_
      | with_reducible refine State.splitTable_inv ?_
      | with_reducible refine Inv.getD ?_ ?_
      | intro _
      | with_reducible refine Inv.foldl ?_ ?_
      | with_reducible refine Inv.foldl2 ?_ ?_
      | with_reducible refine Inv.foldl3 ?_ ?_
      | with_reducible refine Inv.ite ?_ ?_
      | split
      | with_reducible refine Inv.snd (by assumption) ?_

theorem State.foldCore_inv {s : State} {x1} (h : Inv s) :
    Inv (State.foldCore s x1) := by
  unfold State.foldCore
  (try dsimp only)
  repeat'
    first
      | with_reducible assumption
      | with_reducible refine State.modCore_inv ?_
      | with_reducible refine State.settleCore_inv ?_
      | with_reducible refine State.foldPort_inv ?_
      | with_reducible refine Inv.getD ?_ ?_
      | intro _
      | with_reducible refine Inv.foldl ?_ ?_

theorem State.retireAccount_inv {s : State} {x1} (h : Inv s) :
    Inv (State.retireAccount s x1) := by
  unfold State.retireAccount
  (try dsimp only)
  repeat'
    first
      | with_reducible assumption
      | with_reducible refine State.modPkg_inv ?_ ?_
      | with_reducible refine Inv.getD ?_ ?_
      | intro _
      | with_reducible refine Inv.foldl ?_ ?_
      | with_reducible refine Inv.foldl2 ?_ ?_
      | with_reducible refine Inv.foldl3 ?_ ?_
      | with_reducible refine Inv.ite ?_ ?_
      | split
      | with_reducible refine Inv.snd (by assumption) ?_
      | with_reducible refine Inv.trd (by assumption) ?_
      | with_reducible refine Inv.fold ?_
      | with_reducible refine Inv.mk ?_
      | with_reducible refine PkgOk.fold ?_
      | with_reducible refine PkgOk.mk ?_

end Sys2Proof.Machine
end

