-- ==== Sys2Proof/Laws/KeepTeams.lean ====
section
/-! SUPPORT. The operations of Machine/Teams keep the machine's invariant `Inv`. -/

namespace Sys2Proof.Machine

theorem State.abandonOps_inv {s : State} {x1} (h : Inv s) :
    Inv (State.abandonOps s x1) := by
  unfold State.abandonOps
  (try dsimp only)
  repeat'
    first
      | with_reducible assumption
      | with_reducible refine State.modGrp_inv ?_
      | with_reducible refine Inv.getD ?_ ?_
      | intro _
      | with_reducible refine Inv.foldl ?_ ?_
      | with_reducible refine Inv.foldl2 ?_ ?_
      | with_reducible refine Inv.foldl3 ?_ ?_
      | with_reducible refine Inv.ite ?_ ?_
      | split
      | with_reducible refine Inv.snd (by assumption) ?_
      | with_reducible refine Inv.trd (by assumption) ?_
      | with_reducible refine Inv.fold ?_
      | with_reducible refine Inv.mk ?_

theorem State.addGroup_inv {s : State} {x1} {x2} (h : Inv s) :
    Inv (State.addGroup s x1 x2).2 := by
  unfold State.addGroup
  (try dsimp only)
  repeat'
    first
      | with_reducible assumption
      | with_reducible refine State.fresh_inv ?_
      | with_reducible refine State.setGrp_inv ?_

theorem State.groupBack_inv {s : State} {x1} {x2} {x3} {x4} (h : Inv s) :
    Inv (State.groupBack s x1 x2 x3 x4) := by
  unfold State.groupBack
  (try dsimp only)
  repeat'
    first
      | with_reducible assumption
      | with_reducible refine State.addGroup_inv ?_
      | with_reducible refine State.homePut_inv ?_
      | with_reducible refine State.homeOf_inv ?_
      | with_reducible refine Inv.getD ?_ ?_
      | intro _
      | with_reducible refine Inv.foldl ?_ ?_
      | with_reducible refine Inv.foldl2 ?_ ?_
      | with_reducible refine Inv.foldl3 ?_ ?_
      | with_reducible refine Inv.ite ?_ ?_
      | split
      | with_reducible refine Inv.snd (by assumption) ?_
      | with_reducible refine Inv.trd (by assumption) ?_
      | with_reducible refine Inv.fold ?_
      | with_reducible refine Inv.mk ?_

theorem State.jobBack_inv {s : State} {x1} (h : Inv s) :
    Inv (State.jobBack s x1) := by
  unfold State.jobBack
  (try dsimp only)
  repeat'
    first
      | with_reducible assumption
      | with_reducible refine State.fresh_inv ?_
      | with_reducible refine Inv.getD ?_ ?_
      | intro _
      | with_reducible refine Inv.foldl ?_ ?_
      | with_reducible refine Inv.foldl2 ?_ ?_
      | with_reducible refine Inv.foldl3 ?_ ?_
      | with_reducible refine Inv.ite ?_ ?_
      | split
      | with_reducible refine Inv.snd (by assumption) ?_
      | with_reducible refine Inv.trd (by assumption) ?_
      | with_reducible refine Inv.fold ?_
      | with_reducible refine Inv.mk ?_

theorem State.mjobBack_inv {s : State} {x1} (h : Inv s) :
    Inv (State.mjobBack s x1) := by
  unfold State.mjobBack
  (try dsimp only)
  repeat'
    first
      | with_reducible assumption
      | with_reducible refine State.fresh_inv ?_
      | with_reducible refine Inv.getD ?_ ?_
      | intro _
      | with_reducible refine Inv.foldl ?_ ?_
      | with_reducible refine Inv.foldl2 ?_ ?_
      | with_reducible refine Inv.foldl3 ?_ ?_
      | with_reducible refine Inv.ite ?_ ?_
      | split
      | with_reducible refine Inv.snd (by assumption) ?_
      | with_reducible refine Inv.trd (by assumption) ?_
      | with_reducible refine Inv.fold ?_
      | with_reducible refine Inv.mk ?_

theorem State.dependsOn_inv {s : State} {x1} {x2} (h : Inv s) :
    Inv (State.dependsOn s x1 x2) := by
  unfold State.dependsOn
  repeat'
    first
      | with_reducible assumption
      | with_reducible refine State.modCtx_inv ?_

theorem State.teamBack_inv {s : State} {x1} {x2} (h : Inv s) :
    Inv (State.teamBack s x1 x2) := by
  unfold State.teamBack
  (try dsimp only)
  repeat'
    first
      | with_reducible assumption
      | with_reducible refine State.modTeam_inv ?_
      | with_reducible refine State.zeroRange_inv ?_
      | with_reducible refine State.modCore_inv ?_
      | with_reducible refine State.acquirePkg_inv ?_
      | with_reducible refine State.modCcl_inv ?_
      | with_reducible refine State.modLCl_inv ?_
      | with_reducible refine State.putCells_inv ?_
      | with_reducible refine State.groupBack_inv ?_
      | with_reducible refine State.jobBack_inv ?_
      | with_reducible refine State.mjobBack_inv ?_
      | with_reducible refine State.dependsOn_inv ?_
      | with_reducible refine Inv.getD ?_ ?_
      | intro _
      | with_reducible refine Inv.foldl ?_ ?_
      | with_reducible refine Inv.foldl2 ?_ ?_
      | with_reducible refine Inv.foldl3 ?_ ?_
      | with_reducible refine Inv.ite ?_ ?_
      | split

theorem State.beginSave_inv {s : State} {x1} (h : Inv s) :
    Inv (State.beginSave s x1) := by
  unfold State.beginSave
  (try dsimp only)
  repeat'
    first
      | with_reducible assumption
      | with_reducible refine State.modGrp_inv ?_
      | with_reducible refine State.abandonOps_inv ?_
      | with_reducible refine State.watchDrop_inv ?_
      | with_reducible refine State.modTeam_inv ?_
      | with_reducible refine Inv.getD ?_ ?_
      | intro _
      | with_reducible refine Inv.foldl ?_ ?_
      | with_reducible refine Inv.foldl2 ?_ ?_
      | with_reducible refine Inv.foldl3 ?_ ?_
      | with_reducible refine Inv.ite ?_ ?_
      | split

theorem State.newCluster_inv {s : State} {x1} {x2} {x3} {x4} {x5} (h : Inv s) :
    Inv (State.newCluster s x1 x2 x3 x4 x5) := by
  unfold State.newCluster
  repeat'
    first
      | with_reducible assumption
      | with_reducible refine Inv.getD ?_ ?_
      | intro _
      | with_reducible refine Inv.foldl ?_ ?_
      | with_reducible refine Inv.foldl2 ?_ ?_
      | with_reducible refine Inv.foldl3 ?_ ?_
      | with_reducible refine Inv.ite ?_ ?_
      | split
      | with_reducible refine Inv.snd (by assumption) ?_
      | with_reducible refine Inv.trd (by assumption) ?_
      | with_reducible refine Inv.fold ?_
      | with_reducible refine Inv.mk ?_

theorem State.dropEmpty_inv {s : State} {x1} (h : Inv s) :
    Inv (State.dropEmpty s x1) := by
  unfold State.dropEmpty
  (try dsimp only)
  repeat'
    first
      | with_reducible assumption
      | with_reducible refine State.dropAll_inv ?_
      | with_reducible refine Inv.getD ?_ ?_
      | intro _
      | with_reducible refine Inv.foldl ?_ ?_

theorem State.startTeam_inv {s : State} {x1} {x2} {x3} {x4} {x5} {x6} {x7} (h : Inv s) :
    Inv (State.startTeam s x1 x2 x3 x4 x5 x6 x7) := by
  unfold State.startTeam
  (try dsimp only)
  repeat'
    first
      | with_reducible assumption
      | with_reducible refine State.put_inv ?_
      | with_reducible refine State.zeroRange_inv ?_
      | with_reducible refine State.modCore_inv ?_
      | with_reducible refine State.acquirePkg_inv ?_
      | with_reducible refine State.addGroup_inv ?_
      | with_reducible refine State.dependsOn_inv ?_
      | with_reducible refine Inv.getD ?_ ?_
      | intro _
      | with_reducible refine Inv.foldl ?_ ?_
      | with_reducible refine Inv.foldl2 ?_ ?_
      | with_reducible refine Inv.foldl3 ?_ ?_
      | with_reducible refine Inv.ite ?_ ?_
      | split
      | with_reducible refine Inv.snd (by assumption) ?_
      | with_reducible refine Inv.trd (by assumption) ?_
      | with_reducible refine Inv.fold ?_
      | with_reducible refine Inv.mk ?_

theorem State.killGroup_inv {s : State} {x1} (h : Inv s) :
    Inv (State.killGroup s x1) := by
  unfold State.killGroup
  (try dsimp only)
  repeat'
    first
      | with_reducible assumption
      | with_reducible refine State.watchDrop_inv ?_
      | with_reducible refine State.modCore_inv ?_
      | with_reducible refine State.delGrp_inv ?_
      | with_reducible refine Inv.getD ?_ ?_
      | intro _
      | with_reducible refine Inv.foldl ?_ ?_
      | with_reducible refine Inv.foldl2 ?_ ?_
      | with_reducible refine Inv.foldl3 ?_ ?_
      | with_reducible refine Inv.ite ?_ ?_
      | split
      | with_reducible refine Inv.snd (by assumption) ?_
      | with_reducible refine Inv.trd (by assumption) ?_
      | with_reducible refine Inv.fold ?_
      | with_reducible refine Inv.mk ?_

theorem State.leaveCluster_inv {s : State} {x1} (h : Inv s) :
    Inv (State.leaveCluster s x1) := by
  unfold State.leaveCluster
  (try dsimp only)
  repeat'
    first
      | with_reducible assumption
      | with_reducible refine Inv.getD ?_ ?_
      | intro _
      | with_reducible refine Inv.foldl ?_ ?_
      | with_reducible refine Inv.foldl2 ?_ ?_
      | with_reducible refine Inv.foldl3 ?_ ?_
      | with_reducible refine Inv.ite ?_ ?_
      | split
      | with_reducible refine Inv.snd (by assumption) ?_
      | with_reducible refine Inv.trd (by assumption) ?_
      | with_reducible refine Inv.fold ?_
      | with_reducible refine Inv.mk ?_

theorem State.freeTeam_inv {s : State} {x1} (h : Inv s) :
    Inv (State.freeTeam s x1) := by
  unfold State.freeTeam
  (try dsimp only)
  repeat'
    first
      | with_reducible assumption
      | with_reducible refine State.modCore_inv ?_
      | with_reducible refine State.leaveCluster_inv ?_
      | with_reducible refine Inv.getD ?_ ?_
      | intro _
      | with_reducible refine Inv.foldl ?_ ?_
      | with_reducible refine Inv.foldl2 ?_ ?_
      | with_reducible refine Inv.foldl3 ?_ ?_
      | with_reducible refine Inv.ite ?_ ?_
      | split
      | with_reducible refine Inv.snd (by assumption) ?_
      | with_reducible refine Inv.trd (by assumption) ?_
      | with_reducible refine Inv.fold ?_
      | with_reducible refine Inv.mk ?_

theorem State.discardTeam_inv {s : State} {x1} (h : Inv s) :
    Inv (State.discardTeam s x1) := by
  unfold State.discardTeam
  (try dsimp only)
  repeat'
    first
      | with_reducible assumption
      | with_reducible refine State.modCore_inv ?_
      | with_reducible refine State.modCcl_inv ?_
      | with_reducible refine State.killGroup_inv ?_
      | with_reducible refine State.freeTeam_inv ?_
      | with_reducible refine Inv.getD ?_ ?_
      | intro _
      | with_reducible refine Inv.foldl ?_ ?_
      | with_reducible refine Inv.foldl2 ?_ ?_
      | with_reducible refine Inv.foldl3 ?_ ?_
      | with_reducible refine Inv.ite ?_ ?_
      | split
      | with_reducible refine Inv.snd (by assumption) ?_
      | with_reducible refine Inv.trd (by assumption) ?_
      | with_reducible refine Inv.fold ?_
      | with_reducible refine Inv.mk ?_

theorem State.freeBytes_inv {s : State} {x1} (h : Inv s) :
    Inv (State.freeBytes s x1).2 := by
  unfold State.freeBytes
  (try dsimp only)
  repeat'
    first
      | with_reducible assumption
      | with_reducible refine Inv.getD ?_ ?_
      | intro _
      | with_reducible refine Inv.foldl ?_ ?_
      | with_reducible refine Inv.foldl2 ?_ ?_
      | with_reducible refine Inv.foldl3 ?_ ?_
      | with_reducible refine Inv.ite ?_ ?_
      | split
      | with_reducible refine Inv.snd (by assumption) ?_
      | with_reducible refine Inv.trd (by assumption) ?_
      | with_reducible refine Inv.fold ?_
      | with_reducible refine Inv.mk ?_

theorem State.passCore_inv {s : State} {x1} {x2} (h : Inv s) :
    Inv (State.passCore s x1 x2) := by
  unfold State.passCore
  (try dsimp only)
  repeat'
    first
      | with_reducible assumption
      | with_reducible refine State.zeroRange_inv ?_
      | with_reducible refine State.modCore_inv ?_
      | with_reducible refine State.lazyTrigger_inv ?_
      | with_reducible refine State.modCcl_inv ?_
      | with_reducible refine State.writeBackL1_inv ?_
      | with_reducible refine State.foldCore_inv ?_
      | with_reducible refine State.loadBounds_inv ?_
      | with_reducible refine Inv.getD ?_ ?_
      | intro _
      | with_reducible refine Inv.foldl ?_ ?_
      | with_reducible refine Inv.foldl2 ?_ ?_
      | with_reducible refine Inv.foldl3 ?_ ?_
      | with_reducible refine Inv.ite ?_ ?_

theorem State.teamImage_inv {s : State} {x1} (h : Inv s) :
    Inv (State.teamImage s x1).2 := by
  unfold State.teamImage
  (try dsimp only)
  repeat'
    first
      | with_reducible assumption
      | with_reducible refine State.freeBytes_inv ?_

theorem State.keepSeq_inv {s : State} {x1} (h : Inv s) :
    Inv (State.keepSeq s x1) := by
  unfold State.keepSeq
  (try dsimp only)
  repeat'
    first
      | with_reducible assumption
      | with_reducible refine State.modTeam_inv ?_
      | with_reducible refine Inv.getD ?_ ?_
      | intro _
      | with_reducible refine Inv.foldl ?_ ?_
      | with_reducible refine Inv.foldl2 ?_ ?_
      | with_reducible refine Inv.foldl3 ?_ ?_
      | with_reducible refine Inv.ite ?_ ?_

theorem State.saveFails_inv {s : State} {x1} (h : Inv s) :
    Inv (State.saveFails s x1) := by
  unfold State.saveFails
  (try dsimp only)
  repeat'
    first
      | with_reducible assumption
      | with_reducible refine State.modTeam_inv ?_
      | with_reducible refine State.modCore_inv ?_
      | with_reducible refine Inv.getD ?_ ?_
      | intro _
      | with_reducible refine Inv.foldl ?_ ?_
      | with_reducible refine Inv.foldl2 ?_ ?_
      | with_reducible refine Inv.foldl3 ?_ ?_
      | with_reducible refine Inv.ite ?_ ?_
      | split
      | with_reducible refine Inv.snd (by assumption) ?_
      | with_reducible refine Inv.trd (by assumption) ?_
      | with_reducible refine Inv.fold ?_
      | with_reducible refine Inv.mk ?_

theorem State.saveGroup_inv {s : State} {x1} (h : Inv s) :
    Inv (State.saveGroup s x1) := by
  unfold State.saveGroup
  (try dsimp only)
  repeat'
    first
      | with_reducible assumption
      | with_reducible refine State.modTeam_inv ?_
      | with_reducible refine State.spill_inv ?_
      | with_reducible refine State.delGrp_inv ?_
      | with_reducible refine Inv.getD ?_ ?_
      | intro _
      | with_reducible refine Inv.foldl ?_ ?_
      | with_reducible refine Inv.foldl2 ?_ ?_
      | with_reducible refine Inv.foldl3 ?_ ?_
      | with_reducible refine Inv.ite ?_ ?_
      | split
      | with_reducible refine Inv.snd (by assumption) ?_
      | with_reducible refine Inv.trd (by assumption) ?_
      | with_reducible refine Inv.fold ?_
      | with_reducible refine Inv.mk ?_

theorem State.writeOut_inv {s : State} {x1} {x2} (h : Inv s) :
    Inv (State.writeOut s x1 x2) := by
  unfold State.writeOut
  repeat'
    first
      | with_reducible assumption
      | with_reducible refine State.flushL2Line_inv ?_
      | with_reducible refine State.writeBackL1_inv ?_
      | with_reducible refine Inv.getD ?_ ?_
      | intro _
      | with_reducible refine Inv.foldl ?_ ?_

theorem State.takeTeam_inv {s : State} {x1} {x2} (h : Inv s) :
    Inv (State.takeTeam s x1 x2) := by
  unfold State.takeTeam
  (try dsimp only)
  repeat'
    first
      | with_reducible assumption
      | with_reducible refine State.modTeam_inv ?_
      | with_reducible refine State.modCore_inv ?_
      | with_reducible refine State.homePut_inv ?_
      | with_reducible refine State.teamImage_inv ?_
      | with_reducible refine State.putStatus_inv ?_
      | with_reducible refine State.saveGroup_inv ?_
      | with_reducible refine State.writeOut_inv ?_
      | with_reducible refine Inv.getD ?_ ?_
      | intro _
      | with_reducible refine Inv.foldl ?_ ?_
      | with_reducible refine Inv.foldl2 ?_ ?_
      | with_reducible refine Inv.foldl3 ?_ ?_
      | with_reducible refine Inv.ite ?_ ?_
      | split
      | with_reducible refine Inv.snd (by assumption) ?_
      | with_reducible refine Inv.trd (by assumption) ?_
      | with_reducible refine Inv.fold ?_
      | with_reducible refine Inv.mk ?_

theorem State.teamRetire_inv {s : State} {x1} (h : Inv s) :
    Inv (State.teamRetire s x1) := by
  unfold State.teamRetire
  (try dsimp only)
  repeat'
    first
      | with_reducible assumption
      | with_reducible refine State.modTeam_inv ?_
      | with_reducible refine State.writeBackL1_inv ?_
      | with_reducible refine State.leaveCluster_inv ?_
      | with_reducible refine State.freeTeam_inv ?_
      | with_reducible refine Inv.getD ?_ ?_
      | intro _
      | with_reducible refine Inv.foldl ?_ ?_
      | with_reducible refine Inv.foldl2 ?_ ?_
      | with_reducible refine Inv.foldl3 ?_ ?_
      | with_reducible refine Inv.ite ?_ ?_

theorem State.teamSave_inv {s : State} {x1} (h : Inv s) :
    Inv (State.teamSave s x1) := by
  unfold State.teamSave
  (try dsimp only)
  repeat'
    first
      | with_reducible assumption
      | with_reducible refine State.modTeam_inv ?_
      | with_reducible refine State.fresh_inv ?_
      | with_reducible refine State.keepSeq_inv ?_
      | with_reducible refine State.saveFails_inv ?_
      | with_reducible refine State.takeTeam_inv ?_
      | with_reducible refine Inv.getD ?_ ?_
      | intro _
      | with_reducible refine Inv.foldl ?_ ?_
      | with_reducible refine Inv.foldl2 ?_ ?_
      | with_reducible refine Inv.foldl3 ?_ ?_
      | with_reducible refine Inv.ite ?_ ?_

end Sys2Proof.Machine
end

