-- ==== Sys2Proof/Laws/KeepWork.lean ====
section
/-! SUPPORT. The operations of Machine/Work keep the machine's invariant `Inv`. -/

namespace Sys2Proof.Machine

theorem State.answers_inv {s : State} {x1} {x2} {x3} (h : Inv s) :
    Inv (State.answers s x1 x2 x3) := by
  unfold State.answers
  repeat'
    first
      | with_reducible assumption
      | with_reducible refine State.modGrp_inv ?_

theorem State.answer_inv {s : State} {x1} {x2} {x3} (h : Inv s) :
    Inv (State.answer s x1 x2 x3) := by
  unfold State.answer
  repeat'
    first
      | with_reducible assumption
      | with_reducible refine State.answers_inv ?_

theorem State.batchBack_inv {s : State} {x1} {x2} {x3} (h : Inv s) :
    ∀ t, State.batchBack s x1 x2 x3 = some t → Inv t := by
  intro t e
  unfold State.batchBack at e
  refine Inv.foldlM (fun t x u eu k => ?_) e h
  dsimp only at eu
  split at eu
  · cases eu; exact State.teamBack_inv k
  · cases eu

theorem State.vacate_inv {s : State} {x1} (h : Inv s) :
    Inv (State.vacate s x1) := by
  unfold State.vacate
  (try dsimp only)
  repeat'
    first
      | with_reducible assumption
      | with_reducible refine State.beginSave_inv ?_
      | with_reducible refine Inv.getD ?_ ?_
      | intro _
      | with_reducible refine Inv.foldl ?_ ?_
      | with_reducible refine Inv.foldl2 ?_ ?_
      | with_reducible refine Inv.foldl3 ?_ ?_
      | with_reducible refine Inv.ite ?_ ?_

theorem State.beginChange_inv {s : State} {x1} (h : Inv s) :
    Inv (State.beginChange s x1) := by
  unfold State.beginChange
  (try dsimp only)
  repeat'
    first
      | with_reducible assumption
      | with_reducible refine State.modCore_inv ?_
      | with_reducible refine State.vacate_inv ?_
      | with_reducible refine State.settleCore_inv ?_
      | with_reducible refine Inv.getD ?_ ?_
      | intro _
      | with_reducible refine Inv.foldl ?_ ?_
      | with_reducible refine Inv.foldl2 ?_ ?_
      | with_reducible refine Inv.foldl3 ?_ ?_
      | with_reducible refine Inv.ite ?_ ?_

theorem State.ringRead_inv {s : State} {x1} {x2} {x3} {x4} (h : Inv s) :
    Inv (State.ringRead s x1 x2 x3 x4).2 := by
  induction x4 generalizing s x3 with
  | zero =>
    unfold State.ringRead
    (try dsimp only)
    repeat'
      first
        | with_reducible assumption
  | succ n ih =>
    unfold State.ringRead
    (try dsimp only)
    repeat'
      first
        | with_reducible assumption
        | with_reducible refine ih ?_
        | with_reducible refine State.readCtx_inv ?_
        | with_reducible refine Inv.getD ?_ ?_
        | intro _
        | with_reducible refine Inv.foldl ?_ ?_
        | with_reducible refine Inv.foldl2 ?_ ?_
        | with_reducible refine Inv.foldl3 ?_ ?_
        | with_reducible refine Inv.ite ?_ ?_
        | split
        | with_reducible refine Inv.snd (by assumption) ?_

theorem State.reblock_inv {s : State} {x1} (h : Inv s) :
    Inv (State.reblock s x1) := by
  unfold State.reblock
  repeat'
    first
      | with_reducible assumption
      | with_reducible refine State.modFe_inv ?_

theorem State.startTeams_inv {s : State} {x1} {x2} {x3} {x4} {x5} (h : Inv s) :
    Inv (State.startTeams s x1 x2 x3 x4 x5) := by
  unfold State.startTeams
  (try dsimp only)
  repeat'
    first
      | with_reducible assumption
      | with_reducible refine State.fresh_inv ?_
      | with_reducible refine State.newCluster_inv ?_
      | with_reducible refine State.dropEmpty_inv ?_
      | with_reducible refine State.startTeam_inv ?_
      | with_reducible refine State.modFeCtx_inv ?_
      | with_reducible refine Inv.getD ?_ ?_
      | intro _
      | with_reducible refine Inv.foldl ?_ ?_
      | with_reducible refine Inv.foldl2 ?_ ?_
      | with_reducible refine Inv.foldl3 ?_ ?_
      | with_reducible refine Inv.ite ?_ ?_
      | split
      | with_reducible refine Inv.snd (by assumption) ?_
      | with_reducible refine Inv.trd (by assumption) ?_
      | with_reducible refine Inv.fold ?_
      | with_reducible refine Inv.mk ?_

theorem State.nodePlace_inv {s : State} {x1} {x2} (h : Inv s) :
    ∀ t, State.nodePlace s x1 x2 = some t → Inv t := by
  intro t
  unfold State.nodePlace
  (try dsimp only)
  repeat'
    first
      | with_reducible assumption
      | with_reducible refine State.ringRead_inv ?_
      | with_reducible refine State.modFe_inv ?_
      | with_reducible refine State.reblock_inv ?_
      | with_reducible refine State.startTeams_inv ?_
      | split
      | with_reducible refine Inv.ofSome ?_
      | with_reducible exact Inv.ofNone
      | with_reducible refine Inv.getD ?_ ?_
      | intro _
      | with_reducible refine Inv.foldl ?_ ?_
      | with_reducible refine Inv.foldl2 ?_ ?_
      | with_reducible refine Inv.foldl3 ?_ ?_
      | with_reducible refine Inv.ite ?_ ?_
      | split
      | with_reducible refine Inv.snd (by assumption) ?_

theorem State.gridPlace_inv {s : State} {x1} (h : Inv s) :
    ∀ t, State.gridPlace s x1 = some t → Inv t := by
  intro t
  unfold State.gridPlace
  (try dsimp only)
  repeat'
    first
      | with_reducible assumption
      | with_reducible refine State.modFe_inv ?_
      | with_reducible refine State.startTeams_inv ?_
      | split
      | with_reducible refine Inv.ofSome ?_
      | with_reducible exact Inv.ofNone

theorem State.candPlace_inv {s : State} {x1} {x2} (h : Inv s) :
    ∀ t, State.candPlace s x1 x2 = some t → Inv t := by
  intro t
  unfold State.candPlace
  repeat'
    first
      | with_reducible assumption
      | with_reducible refine State.nodePlace_inv ?_
      | with_reducible refine State.gridPlace_inv ?_
      | split
      | with_reducible refine Inv.ofSome ?_
      | with_reducible exact Inv.ofNone
      | with_reducible refine Inv.getD ?_ ?_
      | intro _
      | with_reducible refine Inv.foldl ?_ ?_
      | with_reducible refine Inv.foldl2 ?_ ?_
      | with_reducible refine Inv.foldl3 ?_ ?_
      | with_reducible refine Inv.ite ?_ ?_
      | split
      | with_reducible refine State.nodePlace_inv ?_ _
      | with_reducible refine State.nodePlace_inv ?_ _ (by assumption)
      | with_reducible refine State.gridPlace_inv ?_ _
      | with_reducible refine State.gridPlace_inv ?_ _ (by assumption)

theorem State.launchDone_inv {s : State} {x1} {x2} (h : Inv s) :
    Inv (State.launchDone s x1 x2) := by
  unfold State.launchDone
  repeat'
    first
      | with_reducible assumption
      | with_reducible refine State.modFeCtx_inv ?_
      | with_reducible refine State.modPort_inv ?_
      | with_reducible refine Inv.getD ?_ ?_
      | intro _
      | with_reducible refine Inv.foldl ?_ ?_
      | with_reducible refine Inv.foldl2 ?_ ?_
      | with_reducible refine Inv.foldl3 ?_ ?_
      | with_reducible refine Inv.ite ?_ ?_

theorem State.discardNode_inv {s : State} {x1} {x2} (h : Inv s) :
    Inv (State.discardNode s x1 x2) := by
  unfold State.discardNode
  (try dsimp only)
  repeat'
    first
      | with_reducible assumption
      | with_reducible refine State.modTeam_inv ?_
      | with_reducible refine State.modFe_inv ?_
      | with_reducible refine State.freeTeam_inv ?_
      | with_reducible refine State.launchDone_inv ?_
      | with_reducible refine Inv.getD ?_ ?_
      | intro _
      | with_reducible refine Inv.foldl ?_ ?_
      | with_reducible refine Inv.foldl2 ?_ ?_
      | with_reducible refine Inv.foldl3 ?_ ?_
      | with_reducible refine Inv.ite ?_ ?_
      | split

theorem State.signalDone_inv {s : State} {x1} {x2} (h : Inv s) :
    Inv (State.signalDone s x1 x2) := by
  unfold State.signalDone
  (try dsimp only)
  repeat'
    first
      | with_reducible assumption
      | with_reducible refine State.modFe_inv ?_
      | with_reducible refine State.launchDone_inv ?_
      | with_reducible refine Inv.getD ?_ ?_
      | intro _
      | with_reducible refine Inv.foldl ?_ ?_
      | with_reducible refine Inv.foldl2 ?_ ?_
      | with_reducible refine Inv.foldl3 ?_ ?_
      | with_reducible refine Inv.ite ?_ ?_
      | split

theorem State.discardWork_inv {s : State} {x1} {x2} (h : Inv s) :
    Inv (State.discardWork s x1 x2) := by
  unfold State.discardWork
  (try dsimp only)
  repeat'
    first
      | with_reducible assumption
      | with_reducible refine State.modFe_inv ?_
      | with_reducible refine State.reblock_inv ?_
      | with_reducible refine State.modFeCtx_inv ?_
      | with_reducible refine State.discardTeam_inv ?_
      | with_reducible refine State.launchDone_inv ?_
      | with_reducible refine State.discardNode_inv ?_
      | with_reducible refine State.signalDone_inv ?_
      | with_reducible refine Inv.getD ?_ ?_
      | intro _
      | with_reducible refine Inv.foldl ?_ ?_
      | with_reducible refine Inv.foldl2 ?_ ?_
      | with_reducible refine Inv.foldl3 ?_ ?_
      | with_reducible refine Inv.ite ?_ ?_
      | split
      | with_reducible refine Inv.snd (by assumption) ?_
      | with_reducible refine Inv.trd (by assumption) ?_
      | with_reducible refine Inv.fold ?_
      | with_reducible refine Inv.mk ?_

theorem State.queueReset_inv {s : State} {x1} (h : Inv s) :
    Inv (State.queueReset s x1) := by
  unfold State.queueReset
  repeat'
    first
      | with_reducible assumption
      | with_reducible refine State.modPort_inv ?_
      | with_reducible refine State.discardWork_inv ?_
      | with_reducible refine Inv.getD ?_ ?_
      | intro _
      | with_reducible refine Inv.foldl ?_ ?_
      | with_reducible refine Inv.foldl2 ?_ ?_
      | with_reducible refine Inv.foldl3 ?_ ?_
      | with_reducible refine Inv.ite ?_ ?_

theorem State.flushContext_inv {s : State} {x1} (h : Inv s) :
    Inv (State.flushContext s x1) := by
  unfold State.flushContext
  (try dsimp only)
  repeat'
    first
      | with_reducible assumption
      | with_reducible refine State.flushL2Line_inv ?_
      | with_reducible refine State.writeBackL1_inv ?_
      | with_reducible refine Inv.getD ?_ ?_
      | intro _
      | with_reducible refine Inv.foldl ?_ ?_

theorem State.signalTry_inv {s : State} {x1} (h : Inv s) :
    Inv (State.signalTry s x1) := by
  unfold State.signalTry
  (try dsimp only)
  repeat'
    first
      | with_reducible assumption
      | with_reducible refine State.homePut_inv ?_
      | with_reducible refine State.request_inv ?_
      | with_reducible refine State.xlateCtx_inv ?_
      | with_reducible refine State.modFe_inv ?_
      | with_reducible refine State.signalDone_inv ?_
      | with_reducible refine State.lateRecord_inv ?_
      | with_reducible refine Inv.getD ?_ ?_
      | intro _
      | with_reducible refine Inv.foldl ?_ ?_
      | with_reducible refine Inv.foldl2 ?_ ?_
      | with_reducible refine Inv.foldl3 ?_ ?_
      | with_reducible refine Inv.ite ?_ ?_
      | split
      | with_reducible refine Inv.snd (by assumption) ?_

theorem State.signalsTry_inv {s : State} (h : Inv s) :
    Inv (State.signalsTry s) := by
  unfold State.signalsTry
  repeat'
    first
      | with_reducible assumption
      | with_reducible refine State.signalTry_inv ?_
      | with_reducible refine Inv.getD ?_ ?_
      | intro _
      | with_reducible refine Inv.foldl ?_ ?_

theorem State.signalMake_inv {s : State} {x1} (h : Inv s) :
    Inv (State.signalMake s x1) := by
  unfold State.signalMake
  (try dsimp only)
  repeat'
    first
      | with_reducible assumption
      | with_reducible refine State.fresh_inv ?_
      | with_reducible refine State.modFe_inv ?_
      | with_reducible refine State.launchDone_inv ?_
      | with_reducible refine Inv.getD ?_ ?_
      | intro _
      | with_reducible refine Inv.foldl ?_ ?_
      | with_reducible refine Inv.foldl2 ?_ ?_
      | with_reducible refine Inv.foldl3 ?_ ?_
      | with_reducible refine Inv.ite ?_ ?_
      | split

theorem State.gridComplete_inv {s : State} {x1} (h : Inv s) :
    Inv (State.gridComplete s x1) := by
  unfold State.gridComplete
  (try dsimp only)
  repeat'
    first
      | with_reducible assumption
      | with_reducible refine State.modFe_inv ?_
      | with_reducible refine State.launchDone_inv ?_
      | with_reducible refine State.flushContext_inv ?_
      | with_reducible refine State.signalMake_inv ?_
      | with_reducible refine Inv.getD ?_ ?_
      | intro _
      | with_reducible refine Inv.foldl ?_ ?_
      | with_reducible refine Inv.foldl2 ?_ ?_
      | with_reducible refine Inv.foldl3 ?_ ?_
      | with_reducible refine Inv.ite ?_ ?_
      | split

theorem State.kernelAt_inv {s : State} {x1} {x2} (h : Inv s) :
    Inv (State.kernelAt s x1 x2).2 := by
  unfold State.kernelAt
  repeat'
    first
      | with_reducible assumption
      | with_reducible refine State.readCtx_inv ?_
      | with_reducible refine Inv.getD ?_ ?_
      | intro _
      | with_reducible refine Inv.foldl ?_ ?_
      | with_reducible refine Inv.foldl2 ?_ ?_
      | with_reducible refine Inv.foldl3 ?_ ?_
      | with_reducible refine Inv.ite ?_ ?_
      | split
      | with_reducible refine Inv.snd (by assumption) ?_

theorem State.launchOpen_inv {s : State} {x1} {x2} (h : Inv s) :
    Inv (State.launchOpen s x1 x2) := by
  unfold State.launchOpen
  repeat'
    first
      | with_reducible assumption
      | with_reducible refine State.modFeCtx_inv ?_
      | with_reducible refine State.modPort_inv ?_
      | with_reducible refine Inv.getD ?_ ?_
      | intro _
      | with_reducible refine Inv.foldl ?_ ?_
      | with_reducible refine Inv.foldl2 ?_ ?_
      | with_reducible refine Inv.foldl3 ?_ ?_
      | with_reducible refine Inv.ite ?_ ?_

theorem State.modNode_inv {s : State} {x1} {x2} {x3} (h : Inv s) :
    Inv (State.modNode s x1 x2 x3) := by
  unfold State.modNode
  repeat'
    first
      | with_reducible assumption
      | with_reducible refine State.modFe_inv ?_

theorem State.launch_inv {s : State} {x1} {x2} {x3} {x4} {x5} (h : Inv s) :
    Inv (State.launch s x1 x2 x3 x4 x5) := by
  unfold State.launch
  (try dsimp only)
  repeat'
    first
      | with_reducible assumption
      | with_reducible refine State.fresh_inv ?_
      | with_reducible refine State.modFe_inv ?_
      | with_reducible refine State.reblock_inv ?_
      | with_reducible refine State.launchOpen_inv ?_
      | with_reducible refine State.modNode_inv ?_
      | with_reducible refine Inv.getD ?_ ?_
      | intro _
      | with_reducible refine Inv.foldl ?_ ?_
      | with_reducible refine Inv.foldl2 ?_ ?_
      | with_reducible refine Inv.foldl3 ?_ ?_
      | with_reducible refine Inv.ite ?_ ?_
      | split

theorem State.nodeAppend_inv {s : State} {x1} {x2} {x3} (h : Inv s) :
    Inv (State.nodeAppend s x1 x2 x3) := by
  unfold State.nodeAppend
  repeat'
    first
      | with_reducible assumption
      | with_reducible refine State.reblock_inv ?_
      | with_reducible refine State.modNode_inv ?_

theorem State.nodeDrained_inv {s : State} {x1} {x2} (h : Inv s) :
    Inv (State.nodeDrained s x1 x2) := by
  unfold State.nodeDrained
  (try dsimp only)
  repeat'
    first
      | with_reducible assumption
      | with_reducible refine State.modFe_inv ?_
      | with_reducible refine State.reblock_inv ?_
      | with_reducible refine State.flushContext_inv ?_
      | with_reducible refine State.signalMake_inv ?_
      | with_reducible refine Inv.getD ?_ ?_
      | intro _
      | with_reducible refine Inv.foldl ?_ ?_
      | with_reducible refine Inv.foldl2 ?_ ?_
      | with_reducible refine Inv.foldl3 ?_ ?_
      | with_reducible refine Inv.ite ?_ ?_
      | split

theorem State.nodeFormed_inv {s : State} {x1} {x2} {x3} (h : Inv s) :
    Inv (State.nodeFormed s x1 x2 x3) := by
  unfold State.nodeFormed
  repeat'
    first
      | with_reducible assumption
      | with_reducible refine State.nodePlace_inv ?_
      | with_reducible refine Inv.getD ?_ ?_
      | intro _
      | with_reducible refine Inv.foldl ?_ ?_
      | with_reducible refine Inv.foldl2 ?_ ?_
      | with_reducible refine Inv.foldl3 ?_ ?_
      | with_reducible refine Inv.ite ?_ ?_
      | split

theorem State.ownerChange_inv {s : State} {x1} (h : Inv s) :
    Inv (State.ownerChange s x1) := by
  unfold State.ownerChange
  (try dsimp only)
  repeat'
    first
      | with_reducible assumption
      | with_reducible refine State.modCore_inv ?_
      | with_reducible refine State.settleCore_inv ?_
      | with_reducible refine State.passCore_inv ?_
      | with_reducible refine Inv.getD ?_ ?_
      | intro _
      | with_reducible refine Inv.foldl ?_ ?_
      | with_reducible refine Inv.foldl2 ?_ ?_
      | with_reducible refine Inv.foldl3 ?_ ?_
      | with_reducible refine Inv.ite ?_ ?_
      | split

theorem State.queueHead_inv {s : State} {x1} (h : Inv s) :
    Inv (State.queueHead s x1).2 := by
  unfold State.queueHead
  (try dsimp only)
  repeat'
    first
      | with_reducible assumption
      | with_reducible refine State.readCtx_inv ?_
      | with_reducible refine Inv.getD ?_ ?_
      | intro _
      | with_reducible refine Inv.foldl ?_ ?_
      | with_reducible refine Inv.foldl2 ?_ ?_
      | with_reducible refine Inv.foldl3 ?_ ?_
      | with_reducible refine Inv.ite ?_ ?_
      | split
      | with_reducible refine Inv.snd (by assumption) ?_

theorem State.queueTake_inv {s : State} {x1} {x2} (h : Inv s) :
    Inv (State.queueTake s x1 x2) := by
  unfold State.queueTake
  (try dsimp only)
  repeat'
    first
      | with_reducible assumption
      | with_reducible refine State.answer_inv ?_
      | with_reducible refine State.modFe_inv ?_
      | with_reducible refine State.modFeCtx_inv ?_
      | with_reducible refine State.modPort_inv ?_
      | with_reducible refine Inv.getD ?_ ?_
      | intro _
      | with_reducible refine Inv.foldl ?_ ?_
      | with_reducible refine Inv.foldl2 ?_ ?_
      | with_reducible refine Inv.foldl3 ?_ ?_
      | with_reducible refine Inv.ite ?_ ?_
      | split

theorem State.recKernel_inv {s : State} {x1} {x2} (h : Inv s) :
    Inv (State.recKernel s x1 x2).2 := by
  unfold State.recKernel
  repeat'
    first
      | with_reducible assumption
      | with_reducible refine State.kernelAt_inv ?_
      | with_reducible refine Inv.getD ?_ ?_
      | intro _
      | with_reducible refine Inv.foldl ?_ ?_
      | with_reducible refine Inv.foldl2 ?_ ?_
      | with_reducible refine Inv.foldl3 ?_ ?_
      | with_reducible refine Inv.ite ?_ ?_
      | split

theorem State.parseRec_inv {s : State} {x1} {x2} {x3} {x4} (h : Inv s) :
    Inv (State.parseRec s x1 x2 x3 x4) := by
  unfold State.parseRec
  (try dsimp only)
  repeat'
    first
      | with_reducible assumption
      | with_reducible refine State.launch_inv ?_
      | with_reducible refine State.queueTake_inv ?_
      | with_reducible refine State.recKernel_inv ?_
      | with_reducible refine Inv.getD ?_ ?_
      | intro _
      | with_reducible refine Inv.foldl ?_ ?_
      | with_reducible refine Inv.foldl2 ?_ ?_
      | with_reducible refine Inv.foldl3 ?_ ?_
      | with_reducible refine Inv.ite ?_ ?_

theorem State.parse_inv {s : State} {x1} {x2} (h : Inv s) :
    Inv (State.parse s x1 x2) := by
  unfold State.parse
  repeat'
    first
      | with_reducible assumption
      | with_reducible refine State.queueHead_inv ?_
      | with_reducible refine State.queueTake_inv ?_
      | with_reducible refine State.parseRec_inv ?_
      | with_reducible refine Inv.getD ?_ ?_
      | intro _
      | with_reducible refine Inv.foldl ?_ ?_
      | with_reducible refine Inv.foldl2 ?_ ?_
      | with_reducible refine Inv.foldl3 ?_ ?_
      | with_reducible refine Inv.ite ?_ ?_
      | split

theorem State.savedPlace_inv {s : State} {x1} {x2} (h : Inv s) :
    ∀ t, State.savedPlace s x1 x2 = some t → Inv t := by
  intro t e
  unfold State.savedPlace at e
  dsimp only at e
  split at e
  · cases e
  split at e
  · refine Inv.findSome e (fun d u eu => Inv.findSome eu (fun x v ev => ?_))
    split at ev
    · exact State.batchBack_inv h _ ev
    · cases ev
  split at e
  · cases e; exact State.modFeCtx_inv (State.teamBack_inv h)
  · cases e

theorem State.placeTeam_inv {s : State} {x1} (h : Inv s) :
    Inv (State.placeTeam s x1) := by
  unfold State.placeTeam
  split
  · rename_i t e
    exact Inv.findSome e (fun b u eu => State.savedPlace_inv h _ eu)
  · split
    · split
      · exact h
      · exact Inv.getD (State.candPlace_inv h) h
    · exact h

theorem State.successorPlace_inv {s : State} {x1} (h : Inv s) :
    ∀ t, State.successorPlace s x1 = some t → Inv t := by
  intro t
  unfold State.successorPlace
  (try dsimp only)
  repeat'
    first
      | with_reducible assumption
      | with_reducible refine State.fresh_inv ?_
      | with_reducible refine State.newCluster_inv ?_
      | with_reducible refine State.dropEmpty_inv ?_
      | with_reducible refine State.startTeam_inv ?_
      | with_reducible refine State.modNode_inv ?_
      | split
      | with_reducible refine Inv.ofSome ?_
      | with_reducible exact Inv.ofNone

end Sys2Proof.Machine
end

