-- ==== Sys2Proof/Laws/KeepWorkWords.lean ====
section
/-! SUPPORT. The operations of Machine/WorkWords keep the machine's invariant `Inv`. -/

namespace Sys2Proof.Machine

theorem State.bind_inv {s : State} {x1} {x2} {x3} (h : Inv s) :
    Inv (State.bind s x1 x2 x3) := by
  unfold State.bind
  repeat'
    first
      | with_reducible assumption
      | with_reducible refine State.modTeam_inv ?_

theorem State.devEnter_inv {s : State} {x1} {x2} (h : Inv s) :
    Inv (State.devEnter s x1 x2) := by
  unfold State.devEnter
  repeat'
    first
      | with_reducible assumption
      | with_reducible refine State.modFeCtx_inv ?_

theorem State.emitPut_inv {s : State} {x1} {x2} {x3} {x4} (h : Inv s) :
    Inv (State.emitPut s x1 x2 x3 x4) := by
  unfold State.emitPut
  repeat'
    first
      | with_reducible assumption
      | with_reducible refine State.homePut_inv ?_
      | with_reducible refine Inv.getD ?_ ?_
      | intro _
      | with_reducible refine Inv.foldl ?_ ?_
      | with_reducible refine Inv.foldl2 ?_ ?_
      | with_reducible refine Inv.foldl3 ?_ ?_
      | with_reducible refine Inv.ite ?_ ?_
      | split

theorem State.tails_inv {s : State} {x1} {x2} {x3} (h : Inv s) :
    Inv (State.tails s x1 x2 x3) := by
  unfold State.tails
  repeat'
    first
      | with_reducible assumption
      | with_reducible refine State.modPort_inv ?_
      | with_reducible refine Inv.getD ?_ ?_
      | intro _
      | with_reducible refine Inv.foldl ?_ ?_

theorem W.workTrap_inv {w : W} {x1} {x2} (h : InvW w) :
    InvW (W.workTrap w x1 x2) := by
  unfold W.workTrap
  (try dsimp only)
  repeat'
    first
      | with_reducible assumption
      | with_reducible refine W.fault_inv ?_
      | with_reducible refine InvW.s ?_
      | with_reducible refine InvW.s0 ?_
      | with_reducible refine InvW.fx ?_
      | with_reducible refine Inv.getD ?_ ?_
      | intro _
      | with_reducible refine Inv.foldl ?_ ?_
      | with_reducible refine Inv.foldl2 ?_ ?_
      | with_reducible refine Inv.foldl3 ?_ ?_
      | with_reducible refine Inv.ite ?_ ?_
      | with_reducible refine InvW.foldl ?_ ?_
      | with_reducible refine InvW.foldl2 ?_ ?_
      | with_reducible refine InvW.ite ?_ ?_
      | split
      | with_reducible refine Inv.snd (by assumption) ?_
      | with_reducible refine Inv.trd (by assumption) ?_
      | with_reducible refine InvW.snd (by assumption) ?_
      | with_reducible refine InvW.fst (by assumption) ?_
      | with_reducible refine InvW.make ?_ ?_ ?_

theorem relFence_inv {x0} {x1} {x2} {s : State} (h : Inv s) :
    Inv (relFence x0 x1 x2 s) := by
  unfold relFence
  (try dsimp only)
  repeat'
    first
      | with_reducible assumption
      | with_reducible refine State.modGrp_inv ?_
      | with_reducible refine State.fresh_inv ?_

theorem W.relWait_inv {w : W} {x1} (h : InvW w) :
    ∀ t, W.relWait w x1 = some t → InvW t := by
  intro t
  unfold W.relWait
  repeat'
    first
      | with_reducible assumption
      | with_reducible refine relFence_inv ?_
      | with_reducible refine InvW.s ?_
      | with_reducible refine InvW.s0 ?_
      | with_reducible refine InvW.fx ?_
      | split
      | with_reducible refine InvW.ofSome ?_
      | with_reducible exact InvW.ofNone
      | with_reducible refine Inv.getD ?_ ?_
      | intro _
      | with_reducible refine Inv.foldl ?_ ?_
      | with_reducible refine Inv.foldl2 ?_ ?_
      | with_reducible refine Inv.foldl3 ?_ ?_
      | with_reducible refine Inv.ite ?_ ?_
      | with_reducible refine InvW.foldl ?_ ?_
      | with_reducible refine InvW.foldl2 ?_ ?_
      | with_reducible refine InvW.ite ?_ ?_
      | split
      | with_reducible refine Inv.snd (by assumption) ?_
      | with_reducible refine Inv.trd (by assumption) ?_
      | with_reducible refine InvW.snd (by assumption) ?_
      | with_reducible refine InvW.fst (by assumption) ?_
      | with_reducible refine InvW.make ?_ ?_ ?_

theorem W.exitAll_inv {w : W} (h : InvW w) :
    InvW (W.exitAll w) := by
  unfold W.exitAll
  repeat'
    first
      | with_reducible assumption
      | with_reducible refine W.mod_inv ?_
      | with_reducible refine W.jump_inv ?_

theorem W.relDone_inv {w : W} (h : InvW w) :
    InvW (W.relDone w) := by
  unfold W.relDone
  repeat'
    first
      | with_reducible assumption
      | with_reducible refine W.mod_inv ?_

theorem W.cont_inv {w : W} {x1} {x2} {x3} (h : InvW w) :
    InvW (W.cont w x1 x2 x3) := by
  unfold W.cont
  (try dsimp only)
  repeat'
    first
      | with_reducible assumption
      | with_reducible refine State.bind_inv ?_
      | with_reducible refine W.workTrap_inv ?_
      | with_reducible refine W.relWait_inv ?_
      | with_reducible refine W.exitAll_inv ?_
      | with_reducible refine W.relDone_inv ?_
      | with_reducible refine InvW.s ?_
      | with_reducible refine InvW.s0 ?_
      | with_reducible refine InvW.fx ?_
      | with_reducible refine Inv.getD ?_ ?_
      | intro _
      | with_reducible refine Inv.foldl ?_ ?_
      | with_reducible refine Inv.foldl2 ?_ ?_
      | with_reducible refine Inv.foldl3 ?_ ?_
      | with_reducible refine Inv.ite ?_ ?_
      | with_reducible refine InvW.foldl ?_ ?_
      | with_reducible refine InvW.foldl2 ?_ ?_
      | with_reducible refine InvW.ite ?_ ?_
      | split
      | with_reducible refine W.relWait_inv ?_ _
      | with_reducible refine W.relWait_inv ?_ _ (by assumption)
      | with_reducible refine Inv.snd (by assumption) ?_
      | with_reducible refine Inv.trd (by assumption) ?_
      | with_reducible refine InvW.snd (by assumption) ?_
      | with_reducible refine InvW.fst (by assumption) ?_
      | with_reducible refine InvW.make ?_ ?_ ?_

theorem W.freeWord_inv {w : W} (h : InvW w) :
    InvW (W.freeWord w).2 := by
  unfold W.freeWord
  (try dsimp only)
  repeat'
    first
      | with_reducible assumption
      | with_reducible refine InvW.s ?_
      | with_reducible refine InvW.s0 ?_
      | with_reducible refine InvW.fx ?_
      | with_reducible refine Inv.getD ?_ ?_
      | intro _
      | with_reducible refine Inv.foldl ?_ ?_
      | with_reducible refine Inv.foldl2 ?_ ?_
      | with_reducible refine Inv.foldl3 ?_ ?_
      | with_reducible refine Inv.ite ?_ ?_
      | with_reducible refine InvW.foldl ?_ ?_
      | with_reducible refine InvW.foldl2 ?_ ?_
      | with_reducible refine InvW.ite ?_ ?_
      | split
      | with_reducible refine Inv.snd (by assumption) ?_
      | with_reducible refine Inv.trd (by assumption) ?_
      | with_reducible refine InvW.snd (by assumption) ?_
      | with_reducible refine InvW.fst (by assumption) ?_
      | with_reducible refine InvW.make ?_ ?_ ?_
      | with_reducible refine Inv.fold ?_
      | with_reducible refine Inv.mk ?_

theorem W.dryResult_inv {w : W} {x1} (h : InvW w) :
    InvW (W.dryResult w x1) := by
  unfold W.dryResult
  (try dsimp only)
  repeat'
    first
      | with_reducible assumption
      | with_reducible refine W.var_inv ?_
      | with_reducible refine W.freeWord_inv ?_

theorem askRing_inv {x0} {x1} {s : State} (h : Inv s) :
    Inv (askRing x0 x1 s) := by
  unfold askRing
  (try dsimp only)
  repeat'
    first
      | with_reducible assumption
      | with_reducible refine State.modGrp_inv ?_
      | with_reducible refine State.request_inv ?_
      | with_reducible refine Inv.getD ?_ ?_
      | intro _
      | with_reducible refine Inv.foldl ?_ ?_
      | with_reducible refine Inv.foldl2 ?_ ?_
      | with_reducible refine Inv.foldl3 ?_ ?_
      | with_reducible refine Inv.ite ?_ ?_
      | split

theorem W.emit_inv {w : W} {x1} {x2} {x3} (h : InvW w) :
    InvW (W.emit w x1 x2 x3) := by
  unfold W.emit
  (try dsimp only)
  repeat'
    first
      | with_reducible assumption
      | with_reducible refine State.emitPut_inv ?_
      | with_reducible refine State.nodeAppend_inv ?_
      | with_reducible refine W.mod_inv ?_
      | with_reducible refine W.fault_inv ?_
      | with_reducible refine W.workTrap_inv ?_
      | with_reducible refine W.relWait_inv ?_
      | with_reducible refine W.relDone_inv ?_
      | with_reducible refine askRing_inv ?_
      | with_reducible refine InvW.s ?_
      | with_reducible refine InvW.s0 ?_
      | with_reducible refine InvW.fx ?_
      | with_reducible refine Inv.getD ?_ ?_
      | intro _
      | with_reducible refine Inv.foldl ?_ ?_
      | with_reducible refine Inv.foldl2 ?_ ?_
      | with_reducible refine Inv.foldl3 ?_ ?_
      | with_reducible refine Inv.ite ?_ ?_
      | with_reducible refine InvW.foldl ?_ ?_
      | with_reducible refine InvW.foldl2 ?_ ?_
      | with_reducible refine InvW.ite ?_ ?_
      | split
      | with_reducible refine W.relWait_inv ?_ _
      | with_reducible refine W.relWait_inv ?_ _ (by assumption)
      | with_reducible refine Inv.snd (by assumption) ?_
      | with_reducible refine Inv.trd (by assumption) ?_
      | with_reducible refine InvW.snd (by assumption) ?_
      | with_reducible refine InvW.fst (by assumption) ?_
      | with_reducible refine InvW.make ?_ ?_ ?_

theorem W.launch_inv {w : W} {x1} {x2} (h : InvW w) :
    InvW (W.launch w x1 x2) := by
  unfold W.launch
  split
  · exact h
  split
  · exact W.dryResult_inv h
  extract_lets q w2
  have kq : Inv q.2 := State.reachG_inv h.s
  have k2 : InvW w2 := InvW.make kq h.s0 h.fx
  clear_value q w2
  repeat'
    first
      | with_reducible assumption
      | with_reducible refine State.devEnter_inv ?_
      | with_reducible refine State.reachG_inv ?_
      | with_reducible refine W.pend_inv ?_
      | with_reducible refine W.fault_inv ?_
      | with_reducible refine W.relWait_inv ?_
      | with_reducible refine W.relDone_inv ?_
      | with_reducible refine W.watchFault_inv ?_
      | with_reducible refine W.dryResult_inv ?_
      | with_reducible refine InvW.s ?_
      | with_reducible refine InvW.s0 ?_
      | with_reducible refine InvW.fx ?_
      | with_reducible refine Inv.getD ?_ ?_
      | intro _
      | with_reducible refine Inv.foldl ?_ ?_
      | with_reducible refine Inv.foldl2 ?_ ?_
      | with_reducible refine Inv.foldl3 ?_ ?_
      | with_reducible refine Inv.ite ?_ ?_
      | with_reducible refine InvW.foldl ?_ ?_
      | with_reducible refine InvW.foldl2 ?_ ?_
      | with_reducible refine InvW.ite ?_ ?_
      | split
      | with_reducible refine W.relWait_inv ?_ _
      | with_reducible refine W.relWait_inv ?_ _ (by assumption)
      | with_reducible refine Inv.snd (by assumption) ?_
      | with_reducible refine Inv.trd (by assumption) ?_
      | with_reducible refine InvW.snd (by assumption) ?_
      | with_reducible refine InvW.fst (by assumption) ?_
      | with_reducible refine InvW.make ?_ ?_ ?_

theorem W.notify_inv {w : W} {x1} {x2} {x3} (h : InvW w) :
    InvW (W.notify w x1 x2 x3) := by
  unfold W.notify
  (try dsimp only)
  repeat'
    first
      | with_reducible assumption
      | with_reducible refine State.freeDue_inv ?_
      | with_reducible refine State.tails_inv ?_
      | with_reducible refine W.var_inv ?_
      | with_reducible refine W.relWait_inv ?_
      | with_reducible refine W.relDone_inv ?_
      | with_reducible refine W.dryResult_inv ?_
      | with_reducible refine InvW.s ?_
      | with_reducible refine InvW.s0 ?_
      | with_reducible refine InvW.fx ?_
      | with_reducible refine Inv.getD ?_ ?_
      | intro _
      | with_reducible refine Inv.foldl ?_ ?_
      | with_reducible refine Inv.foldl2 ?_ ?_
      | with_reducible refine Inv.foldl3 ?_ ?_
      | with_reducible refine Inv.ite ?_ ?_
      | with_reducible refine InvW.foldl ?_ ?_
      | with_reducible refine InvW.foldl2 ?_ ?_
      | with_reducible refine InvW.ite ?_ ?_
      | split
      | with_reducible refine W.relWait_inv ?_ _
      | with_reducible refine W.relWait_inv ?_ _ (by assumption)
      | with_reducible refine Inv.snd (by assumption) ?_
      | with_reducible refine Inv.trd (by assumption) ?_
      | with_reducible refine InvW.snd (by assumption) ?_
      | with_reducible refine InvW.fst (by assumption) ?_
      | with_reducible refine InvW.make ?_ ?_ ?_

end Sys2Proof.Machine
end

