-- ==== Sys2Proof/Laws/KeepSlalom.lean ====
section
/-! SUPPORT. The operations of Machine/Slalom keep the machine's invariant `Inv`. -/

namespace Sys2Proof.Machine

theorem State.seqAt_inv {s : State} {x1} {x2} {x3} {x4} (h : Inv s) :
    Inv (State.seqAt s x1 x2 x3 x4).2 := by
  unfold State.seqAt
  (try dsimp only)
  repeat'
    first
      | with_reducible assumption
      | with_reducible refine State.jobAt_inv ?_
      | with_reducible refine Inv.getD ?_ ?_
      | intro _
      | with_reducible refine Inv.foldl ?_ ?_
      | with_reducible refine Inv.foldl2 ?_ ?_
      | with_reducible refine Inv.foldl3 ?_ ?_
      | with_reducible refine Inv.ite ?_ ?_
      | split
      | with_reducible refine Inv.snd (by assumption) ?_

theorem State.seqRead_inv {s : State} {x1} {x2} {x3} (h : Inv s) :
    Inv (State.seqRead s x1 x2 x3).2 := by
  unfold State.seqRead
  (try dsimp only)
  repeat'
    first
      | with_reducible assumption
      | with_reducible refine State.seqAt_inv ?_
      | with_reducible refine Inv.getD ?_ ?_
      | intro _
      | with_reducible refine Inv.foldl ?_ ?_
      | with_reducible refine Inv.foldl2 ?_ ?_
      | with_reducible refine Inv.foldl3 ?_ ?_
      | with_reducible refine Inv.ite ?_ ?_
      | split
      | with_reducible refine Inv.snd (by assumption) ?_

theorem State.seqBuf_inv {s : State} {x1} {x2} {x3} {x4} {x5} (h : Inv s) :
    Inv (State.seqBuf s x1 x2 x3 x4 x5).2 := by
  induction x5 generalizing s x4 with
  | zero =>
    unfold State.seqBuf
    (try dsimp only)
    repeat'
      first
        | with_reducible assumption
  | succ n ih =>
    unfold State.seqBuf
    repeat'
      first
        | with_reducible assumption
        | with_reducible refine ih ?_
        | with_reducible refine State.seqRead_inv ?_
        | with_reducible refine Inv.getD ?_ ?_
        | intro _
        | with_reducible refine Inv.foldl ?_ ?_
        | with_reducible refine Inv.foldl2 ?_ ?_
        | with_reducible refine Inv.foldl3 ?_ ?_
        | with_reducible refine Inv.ite ?_ ?_
        | split
        | with_reducible refine Inv.snd (by assumption) ?_

theorem State.seqBufs_inv {s : State} {x1} {x2} {x3} {x4} (h : Inv s) :
    Inv (State.seqBufs s x1 x2 x3 x4).2 := by
  induction x4 generalizing s with
  | nil =>
    unfold State.seqBufs
    (try dsimp only)
    repeat'
      first
        | with_reducible assumption
  | cons a t ih =>
    unfold State.seqBufs
    repeat'
      first
        | with_reducible assumption
        | with_reducible refine ih ?_
        | with_reducible refine State.seqBuf_inv ?_
        | with_reducible refine Inv.getD ?_ ?_
        | intro _
        | with_reducible refine Inv.foldl ?_ ?_
        | with_reducible refine Inv.foldl2 ?_ ?_
        | with_reducible refine Inv.foldl3 ?_ ?_
        | with_reducible refine Inv.ite ?_ ?_
        | split
        | with_reducible refine Inv.snd (by assumption) ?_

theorem State.seqImage_inv {s : State} {x1} {x2} {x3} (h : Inv s) :
    Inv (State.seqImage s x1 x2 x3).2 := by
  induction x3 generalizing s x2 with
  | zero =>
    unfold State.seqImage
    (try dsimp only)
    repeat'
      first
        | with_reducible assumption
  | succ n ih =>
    unfold State.seqImage
    repeat'
      first
        | with_reducible assumption
        | with_reducible refine ih ?_
        | with_reducible refine State.jobRead_inv ?_
        | with_reducible refine Inv.getD ?_ ?_
        | intro _
        | with_reducible refine Inv.foldl ?_ ?_
        | with_reducible refine Inv.foldl2 ?_ ?_
        | with_reducible refine Inv.foldl3 ?_ ?_
        | with_reducible refine Inv.ite ?_ ?_
        | split
        | with_reducible refine Inv.snd (by assumption) ?_

theorem State.seqPlaces_inv {s : State} {x1} {x2} {x3} {x4} {x5} (h : Inv s) :
    Inv (State.seqPlaces s x1 x2 x3 x4 x5).2 := by
  induction x5 generalizing s x4 with
  | zero =>
    unfold State.seqPlaces
    (try dsimp only)
    repeat'
      first
        | with_reducible assumption
  | succ n ih =>
    unfold State.seqPlaces
    repeat'
      first
        | with_reducible assumption
        | with_reducible refine ih ?_
        | with_reducible refine State.seqAt_inv ?_
        | with_reducible refine Inv.getD ?_ ?_
        | intro _
        | with_reducible refine Inv.foldl ?_ ?_
        | with_reducible refine Inv.foldl2 ?_ ?_
        | with_reducible refine Inv.foldl3 ?_ ?_
        | with_reducible refine Inv.ite ?_ ?_
        | split
        | with_reducible refine Inv.snd (by assumption) ?_

theorem State.seqWrite_inv {s : State} {x1} {x2} {x3} {x4} (h : Inv s) :
    Inv (State.seqWrite s x1 x2 x3 x4) := by
  unfold State.seqWrite
  repeat'
    first
      | with_reducible assumption
      | with_reducible refine State.put_inv ?_
      | with_reducible refine State.writeL2_inv ?_
      | with_reducible refine Inv.getD ?_ ?_
      | intro _
      | with_reducible refine Inv.foldl ?_ ?_
      | with_reducible refine Inv.foldl2 ?_ ?_
      | with_reducible refine Inv.foldl3 ?_ ?_
      | with_reducible refine Inv.ite ?_ ?_

theorem State.seqStage_inv {s : State} {x1} {x2} {x3} (h : Inv s) :
    Inv (State.seqStage s x1 x2 x3).2 := by
  unfold State.seqStage
  (try dsimp only)
  repeat'
    first
      | with_reducible assumption
      | with_reducible refine State.seqBufs_inv ?_
      | with_reducible refine State.seqPlaces_inv ?_
      | with_reducible refine State.seqWrite_inv ?_
      | with_reducible refine Inv.getD ?_ ?_
      | intro _
      | with_reducible refine Inv.foldl ?_ ?_
      | with_reducible refine Inv.foldl2 ?_ ?_
      | with_reducible refine Inv.foldl3 ?_ ?_
      | with_reducible refine Inv.ite ?_ ?_
      | split
      | with_reducible refine Inv.snd (by assumption) ?_

theorem State.seqSpoil_inv {s : State} {x1} {x2} {x3} {x4} (h : Inv s) :
    Inv (State.seqSpoil s x1 x2 x3 x4) := by
  unfold State.seqSpoil
  (try dsimp only)
  repeat'
    first
      | with_reducible assumption
      | with_reducible refine State.seqAt_inv ?_
      | with_reducible refine State.seqWrite_inv ?_
      | with_reducible refine Inv.getD ?_ ?_
      | intro _
      | with_reducible refine Inv.foldl ?_ ?_
      | with_reducible refine Inv.foldl2 ?_ ?_
      | with_reducible refine Inv.foldl3 ?_ ?_
      | with_reducible refine Inv.ite ?_ ?_
      | split
      | with_reducible refine Inv.snd (by assumption) ?_
      | with_reducible refine Inv.trd (by assumption) ?_
      | with_reducible refine Inv.fold ?_
      | with_reducible refine Inv.mk ?_

theorem State.seqStopped_inv {s : State} {x1} {x2} {x3} {x4} (h : Inv s) :
    Inv (State.seqStopped s x1 x2 x3 x4).2 := by
  unfold State.seqStopped
  repeat'
    first
      | with_reducible assumption
      | with_reducible refine State.seqSpoil_inv ?_
      | with_reducible refine Inv.getD ?_ ?_
      | intro _
      | with_reducible refine Inv.foldl ?_ ?_
      | with_reducible refine Inv.foldl2 ?_ ?_
      | with_reducible refine Inv.foldl3 ?_ ?_
      | with_reducible refine Inv.ite ?_ ?_
      | split

theorem State.seqStep_inv {s : State} {x1} {x2} {x3} (h : Inv s) :
    Inv (State.seqStep s x1 x2 x3).2 := by
  unfold State.seqStep
  (try dsimp only)
  repeat'
    first
      | with_reducible assumption
      | with_reducible refine State.seqBufs_inv ?_
      | with_reducible refine State.seqPlaces_inv ?_
      | with_reducible refine State.seqWrite_inv ?_
      | with_reducible refine Inv.getD ?_ ?_
      | intro _
      | with_reducible refine Inv.foldl ?_ ?_
      | with_reducible refine Inv.foldl2 ?_ ?_
      | with_reducible refine Inv.foldl3 ?_ ?_
      | with_reducible refine Inv.ite ?_ ?_
      | split
      | with_reducible refine Inv.snd (by assumption) ?_

theorem State.seqSample_inv {s : State} {x1} {x2} (h : Inv s) :
    Inv (State.seqSample s x1 x2).2 := by
  unfold State.seqSample
  (try dsimp only)
  repeat'
    first
      | with_reducible assumption
      | with_reducible refine State.seqStage_inv ?_
      | with_reducible refine State.seqStopped_inv ?_
      | with_reducible refine State.seqStep_inv ?_
      | with_reducible refine Inv.getD ?_ ?_
      | intro _
      | with_reducible refine Inv.foldl ?_ ?_
      | with_reducible refine Inv.foldl2 ?_ ?_
      | with_reducible refine Inv.foldl3 ?_ ?_
      | with_reducible refine Inv.ite ?_ ?_
      | split
      | with_reducible refine Inv.snd (by assumption) ?_

theorem State.seqPerform_inv {s : State} {x1} {x2} (h : Inv s) :
    Inv (State.seqPerform s x1 x2).2 := by
  unfold State.seqPerform
  (try dsimp only)
  repeat'
    first
      | with_reducible assumption
      | with_reducible refine State.seqImage_inv ?_
      | with_reducible refine State.seqSample_inv ?_
      | with_reducible refine Inv.getD ?_ ?_
      | intro _
      | with_reducible refine Inv.foldl ?_ ?_
      | with_reducible refine Inv.foldl2 ?_ ?_
      | with_reducible refine Inv.foldl3 ?_ ?_
      | with_reducible refine Inv.ite ?_ ?_
      | split
      | with_reducible refine Inv.snd (by assumption) ?_

theorem State.seqPark_inv {s : State} {x1} {x2} {x3} {x4} (h : Inv s) :
    Inv (State.seqPark s x1 x2 x3 x4) := by
  unfold State.seqPark
  (try dsimp only)
  repeat'
    first
      | with_reducible assumption
      | with_reducible refine State.modCcl_inv ?_
      | with_reducible refine State.request_inv ?_

theorem State.seqEnd_inv {s : State} {x1} {x2} {x3} (h : Inv s) :
    Inv (State.seqEnd s x1 x2 x3) := by
  unfold State.seqEnd
  (try dsimp only)
  repeat'
    first
      | with_reducible assumption
      | with_reducible refine State.modGrp_inv ?_
      | with_reducible refine State.flushL2Line_inv ?_
      | with_reducible refine State.writeBackL1_inv ?_
      | with_reducible refine State.bind_inv ?_
      | with_reducible refine State.retireGroup_inv ?_
      | with_reducible refine Inv.getD ?_ ?_
      | intro _
      | with_reducible refine Inv.foldl ?_ ?_

theorem State.seqDone_inv {s : State} {x1} {x2} {x3} {x4} {x5} (h : Inv s) :
    Inv (State.seqDone s x1 x2 x3 x4 x5) := by
  unfold State.seqDone
  (try dsimp only)
  repeat'
    first
      | with_reducible assumption
      | with_reducible refine State.modGrp_inv ?_
      | with_reducible refine State.answer_inv ?_
      | with_reducible refine State.modCcl_inv ?_
      | with_reducible refine State.seqEnd_inv ?_
      | with_reducible refine Inv.getD ?_ ?_
      | intro _
      | with_reducible refine Inv.foldl ?_ ?_
      | with_reducible refine Inv.foldl2 ?_ ?_
      | with_reducible refine Inv.foldl3 ?_ ?_
      | with_reducible refine Inv.ite ?_ ?_
      | split

theorem State.seqCommit_inv {s : State} {x1} (h : Inv s) :
    Inv (State.seqCommit s x1) := by
  unfold State.seqCommit
  repeat'
    first
      | with_reducible assumption
      | with_reducible refine State.modCcl_inv ?_
      | with_reducible refine State.seqPerform_inv ?_
      | with_reducible refine State.seqPark_inv ?_
      | with_reducible refine State.seqDone_inv ?_
      | with_reducible refine Inv.getD ?_ ?_
      | intro _
      | with_reducible refine Inv.foldl ?_ ?_
      | with_reducible refine Inv.foldl2 ?_ ?_
      | with_reducible refine Inv.foldl3 ?_ ?_
      | with_reducible refine Inv.ite ?_ ?_
      | split
      | with_reducible refine Inv.snd (by assumption) ?_

theorem State.seqEnter_inv {s : State} {x1} {x2} (h : Inv s) :
    Inv (State.seqEnter s x1 x2) := by
  unfold State.seqEnter
  repeat'
    first
      | with_reducible assumption
      | with_reducible refine State.modTeam_inv ?_
      | with_reducible refine State.modCcl_inv ?_

theorem W.slv_inv {w : W} {x1} {x2} {x3} {x4} {x5} (h : InvW w) :
    InvW (W.slv w x1 x2 x3 x4 x5) := by
  unfold W.slv
  (try dsimp only)
  repeat'
    first
      | with_reducible assumption
      | with_reducible refine State.freeDue_inv ?_
      | with_reducible refine State.seqPerform_inv ?_
      | with_reducible refine State.seqEnter_inv ?_
      | with_reducible refine W.pend_inv ?_
      | with_reducible refine W.var_inv ?_
      | with_reducible refine W.wait_inv ?_
      | with_reducible refine W.dryResult_inv ?_
      | with_reducible refine InvW.s ?_
      | with_reducible refine InvW.s0 ?_
      | with_reducible refine InvW.fx ?_
      | with_reducible refine Inv.getD ?_ ?_
      | intro _
      | with_reducible refine Inv.foldl ?_ ?_
      | with_reducible refine Inv.foldl2 ?_ ?_
      | with_reducible refine Inv.foldl3 ?_ ?_
      | with_reducible refine Inv.ite ?_ ?_
      | with_reducible refine InvW.foldl ?_ ?_
      | with_reducible refine InvW.foldl2 ?_ ?_
      | with_reducible refine InvW.ite ?_ ?_
      | split
      | with_reducible refine Inv.snd (by assumption) ?_
      | with_reducible refine Inv.trd (by assumption) ?_
      | with_reducible refine InvW.snd (by assumption) ?_
      | with_reducible refine InvW.fst (by assumption) ?_
      | with_reducible refine InvW.make ?_ ?_ ?_

end Sys2Proof.Machine
end

