-- ==== Sys2Proof/Laws/KeepTraps.lean ====
section
/-! SUPPORT. The operations of Machine/Traps keep the machine's invariant `Inv`. -/

namespace Sys2Proof.Machine

theorem State.abandonWait_inv {s : State} {x1} (h : Inv s) :
    Inv (State.abandonWait s x1) := by
  unfold State.abandonWait
  repeat'
    first
      | with_reducible assumption
      | with_reducible refine State.modGrp_inv ?_
      | with_reducible refine State.watchDrop_inv ?_
      | with_reducible refine Inv.getD ?_ ?_
      | intro _
      | with_reducible refine Inv.foldl ?_ ?_
      | with_reducible refine Inv.foldl2 ?_ ?_
      | with_reducible refine Inv.foldl3 ?_ ?_
      | with_reducible refine Inv.ite ?_ ?_
      | split

theorem State.modSaved_inv {s : State} {x1} {x2} {x3} (h : Inv s) :
    Inv (State.modSaved s x1 x2 x3) := by
  unfold State.modSaved
  repeat'
    first
      | with_reducible assumption
      | with_reducible refine State.modTeam_inv ?_

theorem State.verdict_inv {s : State} {x1} {x2} {x3} (h : Inv s) :
    Inv (State.verdict s x1 x2 x3) := by
  unfold State.verdict
  (try dsimp only)
  repeat'
    first
      | with_reducible assumption
      | with_reducible refine State.modGrp_inv ?_
      | with_reducible refine State.acquireNow_inv ?_
      | with_reducible refine State.modCcl_inv ?_
      | with_reducible refine State.modFe_inv ?_
      | with_reducible refine State.jobFail_inv ?_
      | with_reducible refine State.modSaved_inv ?_
      | with_reducible refine State.logMod_inv ?_
      | with_reducible refine Inv.getD ?_ ?_
      | intro _
      | with_reducible refine Inv.foldl ?_ ?_
      | with_reducible refine Inv.foldl2 ?_ ?_
      | with_reducible refine Inv.foldl3 ?_ ?_
      | with_reducible refine Inv.ite ?_ ?_
      | split
      | with_reducible refine Inv.snd (by assumption) ?_
      | with_reducible refine Inv.trd (by assumption) ?_
      | with_reducible refine Inv.fold ?_
      | with_reducible refine Inv.mk ?_

theorem State.trapEntry_inv {s : State} {x1} (h : Inv s) :
    Inv (State.trapEntry s x1) := by
  unfold State.trapEntry
  (try dsimp only)
  repeat'
    first
      | with_reducible assumption
      | with_reducible refine State.modGrp_inv ?_
      | with_reducible refine State.abandonWait_inv ?_
      | with_reducible refine State.enterTrap_inv ?_
      | with_reducible refine Inv.getD ?_ ?_
      | intro _
      | with_reducible refine Inv.foldl ?_ ?_
      | with_reducible refine Inv.foldl2 ?_ ?_
      | with_reducible refine Inv.foldl3 ?_ ?_
      | with_reducible refine Inv.ite ?_ ?_
      | split

theorem State.verdictFatal_inv {s : State} {x1} (h : Inv s) :
    Inv (State.verdictFatal s x1) := by
  unfold State.verdictFatal
  (try dsimp only)
  repeat'
    first
      | with_reducible assumption
      | with_reducible refine State.setCtxstat_inv ?_
      | with_reducible refine State.queueDump_inv ?_
      | with_reducible refine Inv.getD ?_ ?_
      | intro _
      | with_reducible refine Inv.foldl ?_ ?_
      | with_reducible refine Inv.foldl2 ?_ ?_
      | with_reducible refine Inv.foldl3 ?_ ?_
      | with_reducible refine Inv.ite ?_ ?_

theorem State.tret_inv {s : State} {x1} {x2} {x3} {x4} (h : Inv s) :
    Inv (State.tret s x1 x2 x3 x4).2 := by
  unfold State.tret
  (try dsimp only)
  repeat'
    first
      | with_reducible assumption
      | with_reducible refine State.verdict_inv ?_
      | with_reducible refine State.verdictFatal_inv ?_
      | with_reducible refine Inv.getD ?_ ?_
      | intro _
      | with_reducible refine Inv.foldl ?_ ?_
      | with_reducible refine Inv.foldl2 ?_ ?_
      | with_reducible refine Inv.foldl3 ?_ ?_
      | with_reducible refine Inv.ite ?_ ?_
      | split
      | with_reducible refine Inv.snd (by assumption) ?_
      | with_reducible refine Inv.trd (by assumption) ?_
      | with_reducible refine Inv.fold ?_
      | with_reducible refine Inv.mk ?_

theorem W.quiet_inv {w : W} (h : InvW w) :
    ∀ t, W.quiet w = some t → InvW t := by
  intro t
  unfold W.quiet
  repeat'
    first
      | with_reducible assumption
      | with_reducible refine InvW.s ?_
      | with_reducible refine InvW.s0 ?_
      | with_reducible refine InvW.fx ?_
      | split
      | with_reducible refine InvW.ofSome ?_
      | with_reducible exact InvW.ofNone
      | with_reducible refine Inv.getD ?_ ?_
      | intro _
      | with_reducible refine Inv.foldl ?_ ?_
      | with_reducible refine Inv.foldl2 ?_ ?_
      | with_reducible refine Inv.foldl3 ?_ ?_
      | with_reducible refine Inv.ite ?_ ?_
      | with_reducible refine InvW.foldl ?_ ?_
      | with_reducible refine InvW.foldl2 ?_ ?_
      | with_reducible refine InvW.ite ?_ ?_
      | split
      | with_reducible refine Inv.snd (by assumption) ?_
      | with_reducible refine Inv.trd (by assumption) ?_
      | with_reducible refine InvW.snd (by assumption) ?_
      | with_reducible refine InvW.fst (by assumption) ?_
      | with_reducible refine InvW.make ?_ ?_ ?_

theorem W.rdsys_inv {w : W} {x1} {x2} {x3} (h : InvW w) :
    InvW (W.rdsys w x1 x2 x3) := by
  unfold W.rdsys
  (try dsimp only)
  repeat'
    first
      | with_reducible assumption
      | with_reducible refine W.var_inv ?_

theorem W.syscall_inv {w : W} {x1} {x2} {x3} (h : InvW w) :
    InvW (W.syscall w x1 x2 x3) := by
  unfold W.syscall
  (try dsimp only)
  repeat'
    first
      | with_reducible assumption
      | with_reducible refine State.request_inv ?_
      | with_reducible refine W.mod_inv ?_
      | with_reducible refine W.var_inv ?_
      | with_reducible refine W.wait_inv ?_
      | with_reducible refine W.relWait_inv ?_
      | with_reducible refine W.relDone_inv ?_
      | with_reducible refine W.quiet_inv ?_
      | with_reducible refine InvW.s ?_
      | with_reducible refine InvW.s0 ?_
      | with_reducible refine InvW.fx ?_
      | with_reducible refine Inv.getD ?_ ?_
      | intro _
      | with_reducible refine Inv.foldl ?_ ?_
      | with_reducible refine Inv.foldl2 ?_ ?_
      | with_reducible refine Inv.foldl3 ?_ ?_
      | with_reducible refine Inv.ite ?_ ?_
      | with_reducible refine InvW.foldl ?_ ?_
      | with_reducible refine InvW.foldl2 ?_ ?_
      | with_reducible refine InvW.ite ?_ ?_
      | split
      | with_reducible refine W.relWait_inv ?_ _
      | with_reducible refine W.relWait_inv ?_ _ (by assumption)
      | with_reducible refine W.quiet_inv ?_ _
      | with_reducible refine W.quiet_inv ?_ _ (by assumption)
      | with_reducible refine Inv.snd (by assumption) ?_
      | with_reducible refine Inv.trd (by assumption) ?_
      | with_reducible refine InvW.snd (by assumption) ?_
      | with_reducible refine InvW.fst (by assumption) ?_
      | with_reducible refine InvW.make ?_ ?_ ?_

end Sys2Proof.Machine
end

