-- ==== Sys2Proof/Laws/KeepContexts.lean ====
section
/-! SUPPORT. The operations of Machine/Contexts keep the machine's invariant `Inv`. -/

namespace Sys2Proof.Machine

theorem State.ccbBack_inv {s : State} {x1} (h : Inv s) :
    Inv (State.ccbBack s x1) := by
  unfold State.ccbBack
  repeat'
    first
      | with_reducible assumption
      | with_reducible refine State.homePut_inv ?_
      | with_reducible refine Inv.getD ?_ ?_
      | intro _
      | with_reducible refine Inv.foldl ?_ ?_
      | with_reducible refine Inv.foldl2 ?_ ?_
      | with_reducible refine Inv.foldl3 ?_ ?_
      | with_reducible refine Inv.ite ?_ ?_
      | split

theorem State.ctxLoad_inv {s : State} {x1} {x2} {x3} (h : Inv s) :
    Inv (State.ctxLoad s x1 x2 x3) := by
  unfold State.ctxLoad
  (try dsimp only)
  repeat'
    first
      | with_reducible assumption
      | with_reducible refine State.zeroRange_inv ?_
      | with_reducible refine State.modFeCtx_inv ?_
      | with_reducible refine State.clearTable_inv ?_
      | with_reducible refine Inv.getD ?_ ?_
      | intro _
      | with_reducible refine Inv.foldl ?_ ?_
      | with_reducible refine Inv.foldl2 ?_ ?_
      | with_reducible refine Inv.foldl3 ?_ ?_
      | with_reducible refine Inv.ite ?_ ?_
      | split
      | with_reducible refine Inv.snd (by assumption) ?_
      | with_reducible refine Inv.trd (by assumption) ?_
      | with_reducible refine Inv.fold ?_
      | with_reducible refine Inv.mk ?_

theorem State.preAnswer_inv {s : State} {x1} {x2} {x3} {x4} (h : Inv s) :
    Inv (State.preAnswer s x1 x2 x3 x4) := by
  unfold State.preAnswer
  (try dsimp only)
  repeat'
    first
      | with_reducible assumption
      | with_reducible refine State.answers_inv ?_
      | with_reducible refine State.freeBytes_inv ?_

theorem State.takeStep_inv {s : State} {x1} {x2} (h : Inv s) :
    Inv (State.takeStep s x1 x2) := by
  unfold State.takeStep
  (try dsimp only)
  repeat'
    first
      | with_reducible assumption
      | with_reducible refine State.answer_inv ?_
      | with_reducible refine State.ccbBack_inv ?_
      | with_reducible refine State.preAnswer_inv ?_
      | with_reducible refine Inv.getD ?_ ?_
      | intro _
      | with_reducible refine Inv.foldl ?_ ?_
      | with_reducible refine Inv.foldl2 ?_ ?_
      | with_reducible refine Inv.foldl3 ?_ ?_
      | with_reducible refine Inv.ite ?_ ?_
      | split
      | with_reducible refine Inv.snd (by assumption) ?_
      | with_reducible refine Inv.trd (by assumption) ?_
      | with_reducible refine Inv.fold ?_
      | with_reducible refine Inv.mk ?_

theorem State.stopStep_inv {s : State} {x1} {x2} (h : Inv s) :
    Inv (State.stopStep s x1 x2) := by
  unfold State.stopStep
  (try dsimp only)
  repeat'
    first
      | with_reducible assumption
      | with_reducible refine State.setGrp_inv ?_
      | with_reducible refine State.preAnswer_inv ?_
      | with_reducible refine Inv.getD ?_ ?_
      | intro _
      | with_reducible refine Inv.foldl ?_ ?_
      | with_reducible refine Inv.foldl2 ?_ ?_
      | with_reducible refine Inv.foldl3 ?_ ?_
      | with_reducible refine Inv.ite ?_ ?_
      | split
      | with_reducible refine Inv.snd (by assumption) ?_
      | with_reducible refine Inv.trd (by assumption) ?_
      | with_reducible refine Inv.fold ?_
      | with_reducible refine Inv.mk ?_

theorem State.ctxOps_inv {s : State} (h : Inv s) :
    Inv (State.ctxOps s) := by
  unfold State.ctxOps
  repeat'
    first
      | with_reducible assumption
      | with_reducible refine State.takeStep_inv ?_
      | with_reducible refine State.stopStep_inv ?_
      | with_reducible refine Inv.getD ?_ ?_
      | intro _
      | with_reducible refine Inv.foldl ?_ ?_
      | with_reducible refine Inv.foldl2 ?_ ?_
      | with_reducible refine Inv.foldl3 ?_ ?_
      | with_reducible refine Inv.ite ?_ ?_

theorem State.dropContext_inv {s : State} {x1} (h : Inv s) :
    Inv (State.dropContext s x1) := by
  unfold State.dropContext
  (try dsimp only)
  repeat'
    first
      | with_reducible assumption
      | with_reducible refine Inv.getD ?_ ?_
      | intro _
      | with_reducible refine Inv.foldl ?_ ?_
      | with_reducible refine Inv.foldl2 ?_ ?_
      | with_reducible refine Inv.foldl3 ?_ ?_
      | with_reducible refine Inv.ite ?_ ?_
      | split
      | with_reducible refine Inv.snd (by assumption) ?_
      | with_reducible refine Inv.trd (by assumption) ?_
      | with_reducible refine Inv.fold ?_
      | with_reducible refine Inv.mk ?_

theorem State.turnAway_inv {s : State} {x1} (h : Inv s) :
    Inv (State.turnAway s x1) := by
  unfold State.turnAway
  repeat'
    first
      | with_reducible assumption
      | with_reducible refine Inv.getD ?_ ?_
      | intro _
      | with_reducible refine Inv.foldl ?_ ?_
      | with_reducible refine Inv.foldl2 ?_ ?_
      | with_reducible refine Inv.foldl3 ?_ ?_
      | with_reducible refine Inv.ite ?_ ?_
      | split
      | with_reducible refine Inv.snd (by assumption) ?_
      | with_reducible refine Inv.trd (by assumption) ?_
      | with_reducible refine Inv.fold ?_
      | with_reducible refine Inv.mk ?_

theorem State.orphanOps_inv {s : State} {x1} (h : Inv s) :
    Inv (State.orphanOps s x1) := by
  unfold State.orphanOps
  (try dsimp only)
  repeat'
    first
      | with_reducible assumption
      | with_reducible refine State.answers_inv ?_
      | with_reducible refine Inv.getD ?_ ?_
      | intro _
      | with_reducible refine Inv.foldl ?_ ?_
      | with_reducible refine Inv.foldl2 ?_ ?_
      | with_reducible refine Inv.foldl3 ?_ ?_
      | with_reducible refine Inv.ite ?_ ?_
      | split
      | with_reducible refine Inv.snd (by assumption) ?_
      | with_reducible refine Inv.trd (by assumption) ?_
      | with_reducible refine Inv.fold ?_
      | with_reducible refine Inv.mk ?_

theorem State.destroy_inv {s : State} {x1} (h : Inv s) :
    Inv (State.destroy s x1) := by
  unfold State.destroy
  (try dsimp only)
  repeat'
    first
      | with_reducible assumption
      | with_reducible refine State.modFe_inv ?_
      | with_reducible refine State.ccbBack_inv ?_
      | with_reducible refine State.discardWork_inv ?_
      | with_reducible refine State.passCore_inv ?_
      | with_reducible refine State.flushContext_inv ?_
      | with_reducible refine State.dropContext_inv ?_
      | with_reducible refine State.turnAway_inv ?_
      | with_reducible refine State.retireAccount_inv ?_
      | with_reducible refine State.orphanOps_inv ?_
      | with_reducible refine Inv.getD ?_ ?_
      | intro _
      | with_reducible refine Inv.foldl ?_ ?_
      | with_reducible refine Inv.foldl2 ?_ ?_
      | with_reducible refine Inv.foldl3 ?_ ?_
      | with_reducible refine Inv.ite ?_ ?_
      | split
      | with_reducible refine Inv.snd (by assumption) ?_
      | with_reducible refine Inv.trd (by assumption) ?_
      | with_reducible refine Inv.fold ?_
      | with_reducible refine Inv.mk ?_

theorem State.dryEarly_inv {s : State} {x1} {x2} (h : Inv s) :
    Inv (State.dryEarly s x1 x2) := by
  unfold State.dryEarly
  (try dsimp only)
  repeat'
    first
      | with_reducible assumption
      | with_reducible refine State.modGrp_inv ?_
      | with_reducible refine State.watchDrop_inv ?_
      | with_reducible refine Inv.getD ?_ ?_
      | intro _
      | with_reducible refine Inv.foldl ?_ ?_
      | with_reducible refine Inv.foldl2 ?_ ?_
      | with_reducible refine Inv.foldl3 ?_ ?_
      | with_reducible refine Inv.ite ?_ ?_
      | split
      | with_reducible refine Inv.snd (by assumption) ?_
      | with_reducible refine Inv.trd (by assumption) ?_
      | with_reducible refine Inv.fold ?_
      | with_reducible refine Inv.mk ?_

theorem State.dryLand_inv {s : State} {x1} {x2} (h : Inv s) :
    Inv (State.dryLand s x1 x2) := by
  unfold State.dryLand
  (try dsimp only)
  repeat'
    first
      | with_reducible assumption
      | with_reducible refine State.modGrp_inv ?_
      | with_reducible refine State.preAnswer_inv ?_
      | with_reducible refine State.dryEarly_inv ?_
      | with_reducible refine Inv.getD ?_ ?_
      | intro _
      | with_reducible refine Inv.foldl ?_ ?_
      | with_reducible refine Inv.foldl2 ?_ ?_
      | with_reducible refine Inv.foldl3 ?_ ?_
      | with_reducible refine Inv.ite ?_ ?_
      | split
      | with_reducible refine Inv.snd (by assumption) ?_
      | with_reducible refine Inv.trd (by assumption) ?_
      | with_reducible refine Inv.fold ?_
      | with_reducible refine Inv.mk ?_

theorem State.dryNext_inv {s : State} (h : Inv s) :
    Inv (State.dryNext s) := by
  unfold State.dryNext
  (try dsimp only)
  repeat'
    first
      | with_reducible assumption
      | with_reducible refine State.setGrp_inv ?_
      | with_reducible refine State.preAnswer_inv ?_
      | with_reducible refine State.dryLand_inv ?_
      | with_reducible refine Inv.getD ?_ ?_
      | intro _
      | with_reducible refine Inv.foldl ?_ ?_
      | with_reducible refine Inv.foldl2 ?_ ?_
      | with_reducible refine Inv.foldl3 ?_ ?_
      | with_reducible refine Inv.ite ?_ ?_
      | split
      | with_reducible refine Inv.snd (by assumption) ?_
      | with_reducible refine Inv.trd (by assumption) ?_
      | with_reducible refine Inv.fold ?_
      | with_reducible refine Inv.mk ?_

theorem State.dryStuck_inv {s : State} (h : Inv s) :
    Inv (State.dryStuck s) := by
  unfold State.dryStuck
  repeat'
    first
      | with_reducible assumption
      | with_reducible refine State.dryLand_inv ?_
      | with_reducible refine Inv.getD ?_ ?_
      | intro _
      | with_reducible refine Inv.foldl ?_ ?_
      | with_reducible refine Inv.foldl2 ?_ ?_
      | with_reducible refine Inv.foldl3 ?_ ?_
      | with_reducible refine Inv.ite ?_ ?_
      | split

theorem State.dumpImages_inv {s : State} {x1} {x2} {x3} (h : Inv s) :
    Inv (State.dumpImages s x1 x2 x3).2.2 := by
  induction x3 generalizing s x2 with
  | nil =>
    unfold State.dumpImages
    (try dsimp only)
    repeat'
      first
        | with_reducible assumption
  | cons a t ih =>
    unfold State.dumpImages
    (try dsimp only)
    repeat'
      first
        | with_reducible assumption
        | with_reducible refine ih ?_
        | with_reducible refine State.homePut_inv ?_
        | with_reducible refine State.teamImage_inv ?_
        | with_reducible refine Inv.getD ?_ ?_
        | intro _
        | with_reducible refine Inv.foldl ?_ ?_
        | with_reducible refine Inv.foldl2 ?_ ?_
        | with_reducible refine Inv.foldl3 ?_ ?_
        | with_reducible refine Inv.ite ?_ ?_
        | split

theorem State.dumpWrite_inv {s : State} {x1} {x2} (h : Inv s) :
    Inv (State.dumpWrite s x1 x2) := by
  unfold State.dumpWrite
  (try dsimp only)
  repeat'
    first
      | with_reducible assumption
      | with_reducible refine State.homePut_inv ?_
      | with_reducible refine State.dumpImages_inv ?_
      | with_reducible refine Inv.getD ?_ ?_
      | intro _
      | with_reducible refine Inv.foldl ?_ ?_
      | with_reducible refine Inv.foldl2 ?_ ?_
      | with_reducible refine Inv.foldl3 ?_ ?_
      | with_reducible refine Inv.ite ?_ ?_

theorem State.withhold_inv {s : State} {x1} {x2} (h : Inv s) :
    Inv (State.withhold s x1 x2) := by
  unfold State.withhold
  repeat'
    first
      | with_reducible assumption
      | with_reducible refine State.modCore_inv ?_

theorem State.evict_inv {s : State} {x1} (h : Inv s) :
    Inv (State.evict s x1) := by
  unfold State.evict
  (try dsimp only)
  repeat'
    first
      | with_reducible assumption
      | with_reducible refine State.beginChange_inv ?_
      | with_reducible refine State.turnAway_inv ?_
      | with_reducible refine State.withhold_inv ?_
      | with_reducible refine Inv.getD ?_ ?_
      | intro _
      | with_reducible refine Inv.foldl ?_ ?_

theorem State.regWrite_inv {s : State} {x1} {x2} {x3} {x4} (h : Inv s) :
    Inv (State.regWrite s x1 x2 x3 x4).2 := by
  unfold State.regWrite
  repeat'
    first
      | with_reducible assumption
      | with_reducible refine State.modGrp_inv ?_
      | with_reducible refine Inv.getD ?_ ?_
      | intro _
      | with_reducible refine Inv.foldl ?_ ?_
      | with_reducible refine Inv.foldl2 ?_ ?_
      | with_reducible refine Inv.foldl3 ?_ ?_
      | with_reducible refine Inv.ite ?_ ?_
      | split

theorem State.supEnter_inv {s : State} {x1} (h : Inv s) :
    Inv (State.supEnter s x1) := by
  unfold State.supEnter
  repeat'
    first
      | with_reducible assumption
      | with_reducible refine Inv.getD ?_ ?_
      | intro _
      | with_reducible refine Inv.foldl ?_ ?_
      | with_reducible refine Inv.foldl2 ?_ ?_
      | with_reducible refine Inv.foldl3 ?_ ?_
      | with_reducible refine Inv.ite ?_ ?_
      | split
      | with_reducible refine Inv.snd (by assumption) ?_
      | with_reducible refine Inv.trd (by assumption) ?_
      | with_reducible refine Inv.fold ?_
      | with_reducible refine Inv.mk ?_

theorem State.take_inv {s : State} {x1} {x2} (h : Inv s) :
    Inv (State.take s x1 x2) := by
  unfold State.take
  repeat'
    first
      | with_reducible assumption
      | with_reducible refine State.beginChange_inv ?_
      | with_reducible refine State.withhold_inv ?_
      | with_reducible refine Inv.getD ?_ ?_
      | intro _
      | with_reducible refine Inv.foldl ?_ ?_

theorem W.status_inv {w : W} {x1} {x2} (h : InvW w) :
    InvW (W.status w x1 x2) := by
  unfold W.status
  repeat'
    first
      | with_reducible assumption
      | with_reducible refine State.freeDue_inv ?_
      | with_reducible refine W.var_inv ?_
      | with_reducible refine InvW.s ?_
      | with_reducible refine InvW.s0 ?_
      | with_reducible refine InvW.fx ?_
      | with_reducible refine Inv.getD ?_ ?_
      | intro _
      | with_reducible refine Inv.foldl ?_ ?_
      | with_reducible refine Inv.foldl2 ?_ ?_
      | with_reducible refine Inv.foldl3 ?_ ?_
      | with_reducible refine Inv.ite ?_ ?_
      | with_reducible refine InvW.foldl ?_ ?_
      | with_reducible refine InvW.foldl2 ?_ ?_
      | with_reducible refine InvW.ite ?_ ?_
      | split
      | with_reducible refine Inv.snd (by assumption) ?_
      | with_reducible refine Inv.trd (by assumption) ?_
      | with_reducible refine InvW.snd (by assumption) ?_
      | with_reducible refine InvW.fst (by assumption) ?_
      | with_reducible refine InvW.make ?_ ?_ ?_

theorem W.ctxload_inv {w : W} {x1} {x2} {x3} (h : InvW w) :
    InvW (W.ctxload w x1 x2 x3) := by
  unfold W.ctxload
  (try dsimp only)
  repeat'
    first
      | with_reducible assumption
      | with_reducible refine State.ctxLoad_inv ?_
      | with_reducible refine State.reachG_inv ?_
      | with_reducible refine W.fault_inv ?_
      | with_reducible refine W.status_inv ?_
      | with_reducible refine W.watchFault_inv ?_
      | with_reducible refine InvW.s ?_
      | with_reducible refine InvW.s0 ?_
      | with_reducible refine InvW.fx ?_
      | with_reducible refine Inv.getD ?_ ?_
      | intro _
      | with_reducible refine Inv.foldl ?_ ?_
      | with_reducible refine Inv.foldl2 ?_ ?_
      | with_reducible refine Inv.foldl3 ?_ ?_
      | with_reducible refine Inv.ite ?_ ?_
      | with_reducible refine InvW.foldl ?_ ?_
      | with_reducible refine InvW.foldl2 ?_ ?_
      | with_reducible refine InvW.ite ?_ ?_
      | split
      | with_reducible refine Inv.snd (by assumption) ?_
      | with_reducible refine Inv.trd (by assumption) ?_
      | with_reducible refine InvW.snd (by assumption) ?_
      | with_reducible refine InvW.fst (by assumption) ?_
      | with_reducible refine InvW.make ?_ ?_ ?_

theorem W.supOp_inv {w : W} {x1} {x2} {x3} {x4} {x5} {x6} (h : InvW w) :
    InvW (W.supOp w x1 x2 x3 x4 x5 x6) := by
  unfold W.supOp
  (try dsimp only)
  repeat'
    first
      | with_reducible assumption
      | with_reducible refine State.supEnter_inv ?_
      | with_reducible refine W.pend_inv ?_
      | with_reducible refine InvW.s ?_
      | with_reducible refine InvW.s0 ?_
      | with_reducible refine InvW.fx ?_
      | with_reducible refine Inv.getD ?_ ?_
      | intro _
      | with_reducible refine Inv.foldl ?_ ?_
      | with_reducible refine Inv.foldl2 ?_ ?_
      | with_reducible refine Inv.foldl3 ?_ ?_
      | with_reducible refine Inv.ite ?_ ?_
      | with_reducible refine InvW.foldl ?_ ?_
      | with_reducible refine InvW.foldl2 ?_ ?_
      | with_reducible refine InvW.ite ?_ ?_
      | split
      | with_reducible refine Inv.snd (by assumption) ?_
      | with_reducible refine Inv.trd (by assumption) ?_
      | with_reducible refine InvW.snd (by assumption) ?_
      | with_reducible refine InvW.fst (by assumption) ?_
      | with_reducible refine InvW.make ?_ ?_ ?_

theorem W.ctxsave_inv {w : W} {x1} {x2} {x3} (h : InvW w) :
    InvW (W.ctxsave w x1 x2 x3) := by
  unfold W.ctxsave
  (try dsimp only)
  repeat'
    first
      | with_reducible assumption
      | with_reducible refine State.evict_inv ?_
      | with_reducible refine W.status_inv ?_
      | with_reducible refine W.supOp_inv ?_
      | with_reducible refine InvW.s ?_
      | with_reducible refine InvW.s0 ?_
      | with_reducible refine InvW.fx ?_
      | with_reducible refine Inv.getD ?_ ?_
      | intro _
      | with_reducible refine Inv.foldl ?_ ?_
      | with_reducible refine Inv.foldl2 ?_ ?_
      | with_reducible refine Inv.foldl3 ?_ ?_
      | with_reducible refine Inv.ite ?_ ?_
      | with_reducible refine InvW.foldl ?_ ?_
      | with_reducible refine InvW.foldl2 ?_ ?_
      | with_reducible refine InvW.ite ?_ ?_
      | split
      | with_reducible refine Inv.snd (by assumption) ?_
      | with_reducible refine Inv.trd (by assumption) ?_
      | with_reducible refine InvW.snd (by assumption) ?_
      | with_reducible refine InvW.fst (by assumption) ?_
      | with_reducible refine InvW.make ?_ ?_ ?_

theorem W.preResult_inv {w : W} {x1} {x2} {x3} {x4} (h : InvW w) :
    InvW (W.preResult w x1 x2 x3 x4) := by
  unfold W.preResult
  (try dsimp only)
  repeat'
    first
      | with_reducible assumption
      | with_reducible refine State.freeDue_inv ?_
      | with_reducible refine W.var_inv ?_
      | with_reducible refine W.freeWord_inv ?_
      | with_reducible refine InvW.s ?_
      | with_reducible refine InvW.s0 ?_
      | with_reducible refine InvW.fx ?_
      | with_reducible refine Inv.getD ?_ ?_
      | intro _
      | with_reducible refine Inv.foldl ?_ ?_
      | with_reducible refine Inv.foldl2 ?_ ?_
      | with_reducible refine Inv.foldl3 ?_ ?_
      | with_reducible refine Inv.ite ?_ ?_
      | with_reducible refine InvW.foldl ?_ ?_
      | with_reducible refine InvW.foldl2 ?_ ?_
      | with_reducible refine InvW.ite ?_ ?_
      | split
      | with_reducible refine Inv.snd (by assumption) ?_
      | with_reducible refine Inv.trd (by assumption) ?_
      | with_reducible refine InvW.snd (by assumption) ?_
      | with_reducible refine InvW.fst (by assumption) ?_
      | with_reducible refine InvW.make ?_ ?_ ?_

theorem W.spatial_inv {w : W} {x1} {x2} (h : InvW w) :
    InvW (W.spatial w x1 x2) := by
  unfold W.spatial
  (try dsimp only)
  repeat'
    first
      | with_reducible assumption
      | with_reducible refine State.take_inv ?_
      | with_reducible refine W.supOp_inv ?_
      | with_reducible refine W.preResult_inv ?_
      | with_reducible refine InvW.s ?_
      | with_reducible refine InvW.s0 ?_
      | with_reducible refine InvW.fx ?_
      | with_reducible refine Inv.getD ?_ ?_
      | intro _
      | with_reducible refine Inv.foldl ?_ ?_
      | with_reducible refine Inv.foldl2 ?_ ?_
      | with_reducible refine Inv.foldl3 ?_ ?_
      | with_reducible refine Inv.ite ?_ ?_
      | with_reducible refine InvW.foldl ?_ ?_
      | with_reducible refine InvW.foldl2 ?_ ?_
      | with_reducible refine InvW.ite ?_ ?_
      | split
      | with_reducible refine Inv.snd (by assumption) ?_
      | with_reducible refine Inv.trd (by assumption) ?_
      | with_reducible refine InvW.snd (by assumption) ?_
      | with_reducible refine InvW.fst (by assumption) ?_
      | with_reducible refine InvW.make ?_ ?_ ?_

end Sys2Proof.Machine
end

