-- ==== Sys2Proof/Laws/KeepDies.lean ====
section
/-! SUPPORT. The operations of Machine/Dies keep the machine's invariant `Inv`. -/

namespace Sys2Proof.Machine

theorem State.shootDone_inv {s : State} {x1} (h : Inv s) :
    Inv (State.shootDone s x1) := by
  unfold State.shootDone
  (try dsimp only)
  repeat'
    first
      | with_reducible assumption
      | with_reducible refine State.answers_inv ?_
      | with_reducible refine Inv.getD ?_ ?_
      | intro _
      | with_reducible refine Inv.foldl ?_ ?_
      | with_reducible refine Inv.foldl2 ?_ ?_
      | with_reducible refine Inv.foldl3 ?_ ?_
      | with_reducible refine Inv.ite ?_ ?_
      | split
      | with_reducible refine Inv.snd (by assumption) ?_
      | with_reducible refine Inv.trd (by assumption) ?_
      | with_reducible refine Inv.fold ?_
      | with_reducible refine Inv.mk ?_

theorem State.shootTake_inv {s : State} {x1} {x2} {x3} (h : Inv s) :
    Inv (State.shootTake s x1 x2 x3) := by
  unfold State.shootTake
  repeat'
    first
      | with_reducible assumption
      | with_reducible refine State.shootDone_inv ?_
      | with_reducible refine Inv.getD ?_ ?_
      | intro _
      | with_reducible refine Inv.foldl ?_ ?_
      | with_reducible refine Inv.foldl2 ?_ ?_
      | with_reducible refine Inv.foldl3 ?_ ?_
      | with_reducible refine Inv.ite ?_ ?_
      | split
      | with_reducible refine Inv.snd (by assumption) ?_
      | with_reducible refine Inv.trd (by assumption) ?_
      | with_reducible refine Inv.fold ?_
      | with_reducible refine Inv.mk ?_

theorem State.ackPosts_inv {s : State} {x1} (h : Inv s) :
    Inv (State.ackPosts s x1) := by
  unfold State.ackPosts
  (try dsimp only)
  repeat'
    first
      | with_reducible assumption
      | with_reducible refine State.shootTake_inv ?_
      | with_reducible refine State.modDie_inv ?_
      | with_reducible refine Inv.getD ?_ ?_
      | intro _
      | with_reducible refine Inv.foldl ?_ ?_

theorem State.dropRange_inv {s : State} {x1} {x2} {x3} {x4} (h : Inv s) :
    Inv (State.dropRange s x1 x2 x3 x4) := by
  unfold State.dropRange
  (try dsimp only)
  repeat'
    first
      | with_reducible assumption
      | with_reducible refine State.dropLine_inv ?_
      | with_reducible refine State.flushL2Line_inv ?_
      | with_reducible refine Inv.getD ?_ ?_
      | intro _
      | with_reducible refine Inv.foldl ?_ ?_

theorem State.dropTlb_inv {s : State} {x1} {x2} {x3} {x4} {x5} (h : Inv s) :
    Inv (State.dropTlb s x1 x2 x3 x4 x5) := by
  unfold State.dropTlb
  repeat'
    first
      | with_reducible assumption
      | with_reducible refine State.modCcl_inv ?_
      | with_reducible refine Inv.getD ?_ ?_
      | intro _
      | with_reducible refine Inv.foldl ?_ ?_

theorem State.reloadBounds_inv {s : State} {x1} {x2} {x3} (h : Inv s) :
    Inv (State.reloadBounds s x1 x2 x3) := by
  unfold State.reloadBounds
  repeat'
    first
      | with_reducible assumption
      | with_reducible refine State.modCore_inv ?_
      | with_reducible refine Inv.getD ?_ ?_
      | intro _
      | with_reducible refine Inv.foldl ?_ ?_
      | with_reducible refine Inv.foldl2 ?_ ?_
      | with_reducible refine Inv.foldl3 ?_ ?_
      | with_reducible refine Inv.ite ?_ ?_
      | split

theorem State.applyEntry_inv {s : State} {x1} {x2} {x3} (h : Inv s) :
    Inv (State.applyEntry s x1 x2 x3) := by
  unfold State.applyEntry
  (try dsimp only)
  repeat'
    first
      | with_reducible assumption
      | with_reducible refine State.dropRange_inv ?_
      | with_reducible refine State.dropTlb_inv ?_
      | with_reducible refine State.reloadBounds_inv ?_
      | with_reducible refine Inv.getD ?_ ?_
      | intro _
      | with_reducible refine Inv.foldl ?_ ?_
      | with_reducible refine Inv.foldl2 ?_ ?_
      | with_reducible refine Inv.foldl3 ?_ ?_
      | with_reducible refine Inv.ite ?_ ?_

theorem State.leaveUp_inv {s : State} {x1} (h : Inv s) :
    Inv (State.leaveUp s x1) := by
  unfold State.leaveUp
  (try dsimp only)
  repeat'
    first
      | with_reducible assumption
      | with_reducible refine State.shootTake_inv ?_
      | with_reducible refine State.modDie_inv ?_
      | with_reducible refine Inv.getD ?_ ?_
      | intro _
      | with_reducible refine Inv.foldl ?_ ?_

theorem State.loseTeams_inv {s : State} {x1} (h : Inv s) :
    Inv (State.loseTeams s x1) := by
  unfold State.loseTeams
  (try dsimp only)
  repeat'
    first
      | with_reducible assumption
      | with_reducible refine State.modFe_inv ?_
      | with_reducible refine State.discardTeam_inv ?_
      | with_reducible refine Inv.getD ?_ ?_
      | intro _
      | with_reducible refine Inv.foldl ?_ ?_

theorem State.tellLoss_inv {s : State} {x1} {x2} (h : Inv s) :
    Inv (State.tellLoss s x1 x2) := by
  unfold State.tellLoss
  (try dsimp only)
  repeat'
    first
      | with_reducible assumption
      | with_reducible refine Inv.getD ?_ ?_
      | intro _
      | with_reducible refine Inv.foldl ?_ ?_
      | with_reducible refine Inv.foldl2 ?_ ?_
      | with_reducible refine Inv.foldl3 ?_ ?_
      | with_reducible refine Inv.ite ?_ ?_
      | split
      | with_reducible refine Inv.snd (by assumption) ?_
      | with_reducible refine Inv.trd (by assumption) ?_
      | with_reducible refine Inv.fold ?_
      | with_reducible refine Inv.mk ?_

theorem State.loseCores_inv {s : State} {x1} (h : Inv s) :
    Inv (State.loseCores s x1) := by
  unfold State.loseCores
  extract_lets s1 sup s2
  have k1 : Inv s1 := Inv.foldl h (fun t x k => by
    split
    · exact k
    · exact State.passCore_inv (State.modCore_inv k))
  have k2 : Inv s2 := Inv.mk k1
  exact Inv.mk (Inv.setMem k2 (cwf_filter _))

theorem State.loseWatches_inv {s : State} {x1} (h : Inv s) :
    Inv (State.loseWatches s x1) := by
  unfold State.loseWatches
  (try dsimp only)
  repeat'
    first
      | with_reducible assumption
      | with_reducible refine State.modDie_inv ?_
      | with_reducible refine State.xlateCtx_inv ?_
      | with_reducible refine State.watchWake_inv ?_
      | with_reducible refine Inv.getD ?_ ?_
      | intro _
      | with_reducible refine Inv.foldl ?_ ?_
      | with_reducible refine Inv.foldl2 ?_ ?_
      | with_reducible refine Inv.foldl3 ?_ ?_
      | with_reducible refine Inv.ite ?_ ?_
      | split

theorem State.loseLines_inv {s : State} {x1} (h : Inv s) :
    Inv (State.loseLines s x1) := by
  unfold State.loseLines
  (try dsimp only)
  repeat'
    first
      | with_reducible assumption
      | with_reducible refine State.mchkRecord_inv ?_
      | with_reducible refine Inv.getD ?_ ?_
      | intro _
      | with_reducible refine Inv.foldl ?_ ?_
      | with_reducible refine Inv.foldl2 ?_ ?_
      | with_reducible refine Inv.foldl3 ?_ ?_
      | with_reducible refine Inv.ite ?_ ?_
      | split
      | with_reducible refine Inv.snd (by assumption) ?_
      | with_reducible refine Inv.trd (by assumption) ?_
      | with_reducible refine Inv.fold ?_
      | with_reducible refine Inv.mk ?_

theorem State.loseRequests_inv {s : State} {x1} (h : Inv s) :
    Inv (State.loseRequests s x1) := by
  unfold State.loseRequests
  (try dsimp only)
  repeat'
    first
      | with_reducible assumption
      | with_reducible refine State.verdict_inv ?_
      | with_reducible refine Inv.getD ?_ ?_
      | intro _
      | with_reducible refine Inv.foldl ?_ ?_
      | with_reducible refine Inv.foldl2 ?_ ?_
      | with_reducible refine Inv.foldl3 ?_ ?_
      | with_reducible refine Inv.ite ?_ ?_
      | split
      | with_reducible refine Inv.snd (by assumption) ?_
      | with_reducible refine Inv.trd (by assumption) ?_
      | with_reducible refine Inv.fold ?_
      | with_reducible refine Inv.mk ?_

theorem State.dieFalls_inv {s : State} {x1} {x2} {x3} (h : Inv s) :
    Inv (State.dieFalls s x1 x2 x3) := by
  unfold State.dieFalls
  (try dsimp only)
  repeat'
    first
      | with_reducible assumption
      | with_reducible refine State.modDie_inv ?_
      | with_reducible refine State.answer_inv ?_
      | with_reducible refine State.leaveUp_inv ?_
      | with_reducible refine State.loseTeams_inv ?_
      | with_reducible refine State.tellLoss_inv ?_
      | with_reducible refine State.loseCores_inv ?_
      | with_reducible refine State.loseWatches_inv ?_
      | with_reducible refine State.loseLines_inv ?_
      | with_reducible refine State.loseRequests_inv ?_
      | with_reducible refine Inv.getD ?_ ?_
      | intro _
      | with_reducible refine Inv.foldl ?_ ?_

theorem State.cutOff_inv {s : State} (h : Inv s) :
    Inv (State.cutOff s) := by
  unfold State.cutOff
  repeat'
    first
      | with_reducible assumption
      | with_reducible refine State.dieFalls_inv ?_
      | with_reducible refine Inv.getD ?_ ?_
      | intro _
      | with_reducible refine Inv.foldl ?_ ?_

theorem State.packageOff_inv {s : State} (h : Inv s) :
    Inv (State.packageOff s) := by
  unfold State.packageOff
  repeat'
    first
      | with_reducible assumption
      | with_reducible refine State.modPkg_inv ?_ ?_
      | with_reducible refine Inv.getD ?_ ?_
      | intro _
      | with_reducible refine Inv.foldl ?_ ?_
      | with_reducible refine Inv.foldl2 ?_ ?_
      | with_reducible refine Inv.foldl3 ?_ ?_
      | with_reducible refine Inv.ite ?_ ?_
      | split
      | with_reducible refine Inv.snd (by assumption) ?_
      | with_reducible refine Inv.trd (by assumption) ?_
      | with_reducible refine Inv.fold ?_
      | with_reducible refine Inv.mk ?_
      | with_reducible refine PkgOk.fold ?_
      | with_reducible refine PkgOk.mk ?_

theorem State.dieLoss_inv {s : State} {x1} (h : Inv s) :
    Inv (State.dieLoss s x1) := by
  unfold State.dieLoss
  (try dsimp only)
  repeat'
    first
      | with_reducible assumption
      | with_reducible refine State.modPkg_inv ?_ ?_
      | with_reducible refine State.dieFalls_inv ?_
      | with_reducible refine State.cutOff_inv ?_
      | with_reducible refine State.packageOff_inv ?_
      | with_reducible refine Inv.getD ?_ ?_
      | intro _
      | with_reducible refine Inv.foldl ?_ ?_
      | with_reducible refine Inv.foldl2 ?_ ?_
      | with_reducible refine Inv.foldl3 ?_ ?_
      | with_reducible refine Inv.ite ?_ ?_
      | split
      | with_reducible refine Inv.snd (by assumption) ?_
      | with_reducible refine Inv.trd (by assumption) ?_
      | with_reducible refine Inv.fold ?_
      | with_reducible refine Inv.mk ?_
      | with_reducible refine PkgOk.fold ?_
      | with_reducible refine PkgOk.mk ?_

theorem State.sendTo_inv {s : State} {x1} {x2} {x3} (h : Inv s) :
    Inv (State.sendTo s x1 x2 x3) := by
  unfold State.sendTo
  (try dsimp only)
  repeat'
    first
      | with_reducible assumption
      | with_reducible refine State.shootTake_inv ?_
      | with_reducible refine State.modDie_inv ?_
      | with_reducible refine State.ackPosts_inv ?_
      | with_reducible refine Inv.getD ?_ ?_
      | intro _
      | with_reducible refine Inv.foldl ?_ ?_
      | with_reducible refine Inv.foldl2 ?_ ?_
      | with_reducible refine Inv.foldl3 ?_ ?_
      | with_reducible refine Inv.ite ?_ ?_
      | split
      | with_reducible refine Inv.snd (by assumption) ?_
      | with_reducible refine Inv.trd (by assumption) ?_
      | with_reducible refine Inv.fold ?_
      | with_reducible refine Inv.mk ?_

theorem State.sendStep_inv {s : State} {x1} {x2} (h : Inv s) :
    Inv (State.sendStep s x1 x2) := by
  unfold State.sendStep
  (try dsimp only)
  repeat'
    first
      | with_reducible assumption
      | with_reducible refine State.answers_inv ?_
      | with_reducible refine State.sendTo_inv ?_
      | with_reducible refine Inv.getD ?_ ?_
      | intro _
      | with_reducible refine Inv.foldl ?_ ?_
      | with_reducible refine Inv.foldl2 ?_ ?_
      | with_reducible refine Inv.foldl3 ?_ ?_
      | with_reducible refine Inv.ite ?_ ?_
      | split
      | with_reducible refine Inv.snd (by assumption) ?_
      | with_reducible refine Inv.trd (by assumption) ?_
      | with_reducible refine Inv.fold ?_
      | with_reducible refine Inv.mk ?_

theorem State.tlbStep_inv {s : State} {x1} {x2} (h : Inv s) :
    Inv (State.tlbStep s x1 x2) := by
  unfold State.tlbStep
  (try dsimp only)
  repeat'
    first
      | with_reducible assumption
      | with_reducible refine State.answers_inv ?_
      | with_reducible refine State.applyEntry_inv ?_
      | with_reducible refine Inv.getD ?_ ?_
      | intro _
      | with_reducible refine Inv.foldl ?_ ?_
      | with_reducible refine Inv.foldl2 ?_ ?_
      | with_reducible refine Inv.foldl3 ?_ ?_
      | with_reducible refine Inv.ite ?_ ?_
      | split
      | with_reducible refine Inv.snd (by assumption) ?_
      | with_reducible refine Inv.trd (by assumption) ?_
      | with_reducible refine Inv.fold ?_
      | with_reducible refine Inv.mk ?_

theorem State.dieOps_inv {s : State} (h : Inv s) :
    Inv (State.dieOps s) := by
  unfold State.dieOps
  repeat'
    first
      | with_reducible assumption
      | with_reducible refine State.sendStep_inv ?_
      | with_reducible refine State.tlbStep_inv ?_
      | with_reducible refine Inv.getD ?_ ?_
      | intro _
      | with_reducible refine Inv.foldl ?_ ?_
      | with_reducible refine Inv.foldl2 ?_ ?_
      | with_reducible refine Inv.foldl3 ?_ ?_
      | with_reducible refine Inv.ite ?_ ?_

theorem State.pagesTry_inv {s : State} (h : Inv s) :
    Inv (State.pagesTry s) := by
  unfold State.pagesTry
  repeat'
    first
      | with_reducible assumption
      | with_reducible refine Inv.getD ?_ ?_
      | intro _
      | with_reducible refine Inv.foldl ?_ ?_
      | with_reducible refine Inv.foldl2 ?_ ?_
      | with_reducible refine Inv.foldl3 ?_ ?_
      | with_reducible refine Inv.ite ?_ ?_
      | split
      | with_reducible refine Inv.snd (by assumption) ?_
      | with_reducible refine Inv.trd (by assumption) ?_
      | with_reducible refine Inv.fold ?_
      | with_reducible refine Inv.mk ?_

theorem State.fmRequest_inv {s : State} {x1} (h : Inv s) :
    Inv (State.fmRequest s x1) := by
  unfold State.fmRequest
  (try dsimp only)
  repeat'
    first
      | with_reducible assumption
      | with_reducible refine State.modDie_inv ?_
      | with_reducible refine State.modPkg_inv ?_ ?_
      | with_reducible refine State.leaveUp_inv ?_
      | with_reducible refine Inv.getD ?_ ?_
      | intro _
      | with_reducible refine Inv.foldl ?_ ?_
      | with_reducible refine Inv.foldl2 ?_ ?_
      | with_reducible refine Inv.foldl3 ?_ ?_
      | with_reducible refine Inv.ite ?_ ?_
      | split
      | with_reducible refine Inv.snd (by assumption) ?_
      | with_reducible refine Inv.trd (by assumption) ?_
      | with_reducible refine Inv.fold ?_
      | with_reducible refine Inv.mk ?_
      | with_reducible refine PkgOk.fold ?_
      | with_reducible refine PkgOk.mk ?_

theorem State.groomEnter_inv {s : State} {x1} {x2} {x3} {x4} {x5} (h : Inv s) :
    Inv (State.groomEnter s x1 x2 x3 x4 x5) := by
  unfold State.groomEnter
  repeat'
    first
      | with_reducible assumption
      | with_reducible refine State.modDie_inv ?_
      | with_reducible refine State.freeDue_inv ?_

theorem State.ilPass_inv {s : State} {x1} (h : Inv s) :
    Inv (State.ilPass s x1) := by
  unfold State.ilPass
  repeat'
    first
      | with_reducible assumption
      | with_reducible refine State.modDie_inv ?_
      | with_reducible refine State.ackPosts_inv ?_

theorem State.linkWidth_inv {s : State} {x1} {x2} {x3} (h : Inv s) :
    Inv (State.linkWidth s x1 x2 x3) := by
  unfold State.linkWidth
  repeat'
    first
      | with_reducible assumption
      | with_reducible refine State.modPkg_inv ?_ ?_
      | with_reducible refine Inv.getD ?_ ?_
      | intro _
      | with_reducible refine Inv.foldl ?_ ?_
      | with_reducible refine Inv.foldl2 ?_ ?_
      | with_reducible refine Inv.foldl3 ?_ ?_
      | with_reducible refine Inv.ite ?_ ?_
      | split
      | with_reducible refine Inv.snd (by assumption) ?_
      | with_reducible refine Inv.trd (by assumption) ?_
      | with_reducible refine Inv.fold ?_
      | with_reducible refine Inv.mk ?_
      | with_reducible refine PkgOk.fold ?_
      | with_reducible refine PkgOk.mk ?_

theorem State.nextSeq_inv {s : State} (h : Inv s) :
    Inv (State.nextSeq s) := by
  unfold State.nextSeq
  repeat'
    first
      | with_reducible assumption
      | with_reducible refine State.modPkg_inv ?_ ?_
      | with_reducible refine Inv.getD ?_ ?_
      | intro _
      | with_reducible refine Inv.foldl ?_ ?_
      | with_reducible refine Inv.foldl2 ?_ ?_
      | with_reducible refine Inv.foldl3 ?_ ?_
      | with_reducible refine Inv.ite ?_ ?_
      | split
      | with_reducible refine Inv.snd (by assumption) ?_
      | with_reducible refine Inv.trd (by assumption) ?_
      | with_reducible refine Inv.fold ?_
      | with_reducible refine Inv.mk ?_
      | with_reducible refine PkgOk.fold ?_
      | with_reducible refine PkgOk.mk ?_

theorem State.shootApply_inv {s : State} {x1} (h : Inv s) :
    Inv (State.shootApply s x1) := by
  unfold State.shootApply
  (try dsimp only)
  repeat'
    first
      | with_reducible assumption
      | with_reducible refine State.modDie_inv ?_
      | with_reducible refine State.then__inv ?_
      | with_reducible refine State.applyEntry_inv ?_
      | with_reducible refine State.ilPass_inv ?_
      | with_reducible refine Inv.getD ?_ ?_
      | intro _
      | with_reducible refine Inv.foldl ?_ ?_
      | with_reducible refine Inv.foldl2 ?_ ?_
      | with_reducible refine Inv.foldl3 ?_ ?_
      | with_reducible refine Inv.ite ?_ ?_

theorem State.shootPost_inv {s : State} {x1} {x2} {x3} {x4} (h : Inv s) :
    Inv (State.shootPost s x1 x2 x3 x4) := by
  unfold State.shootPost
  (try dsimp only)
  repeat'
    first
      | with_reducible assumption
      | with_reducible refine State.nextSeq_inv ?_
      | with_reducible refine Inv.getD ?_ ?_
      | intro _
      | with_reducible refine Inv.foldl ?_ ?_
      | with_reducible refine Inv.foldl2 ?_ ?_
      | with_reducible refine Inv.foldl3 ?_ ?_
      | with_reducible refine Inv.ite ?_ ?_
      | split
      | with_reducible refine Inv.snd (by assumption) ?_
      | with_reducible refine Inv.trd (by assumption) ?_
      | with_reducible refine Inv.fold ?_
      | with_reducible refine Inv.mk ?_

theorem W.status2_inv {w : W} {x1} {x2} (h : InvW w) :
    InvW (W.status2 w x1 x2) := by
  unfold W.status2
  repeat'
    first
      | with_reducible assumption
      | with_reducible refine State.freeDue_inv ?_
      | with_reducible refine W.var_inv ?_
      | with_reducible refine InvW.s ?_
      | with_reducible refine InvW.s0 ?_
      | with_reducible refine InvW.fx ?_
      | with_reducible refine Inv.getD ?_ ?_
      | intro _
      | with_reducible refine Inv.foldl ?_ ?_
      | with_reducible refine Inv.foldl2 ?_ ?_
      | with_reducible refine Inv.foldl3 ?_ ?_
      | with_reducible refine Inv.ite ?_ ?_
      | with_reducible refine InvW.foldl ?_ ?_
      | with_reducible refine InvW.foldl2 ?_ ?_
      | with_reducible refine InvW.ite ?_ ?_
      | split
      | with_reducible refine Inv.snd (by assumption) ?_
      | with_reducible refine Inv.trd (by assumption) ?_
      | with_reducible refine InvW.snd (by assumption) ?_
      | with_reducible refine InvW.fst (by assumption) ?_
      | with_reducible refine InvW.make ?_ ?_ ?_

theorem W.invapply_inv {w : W} {x1} {x2} (h : InvW w) :
    InvW (W.invapply w x1 x2) := by
  unfold W.invapply
  (try dsimp only)
  repeat'
    first
      | with_reducible assumption
      | with_reducible refine State.shootPost_inv ?_
      | with_reducible refine W.pend_inv ?_
      | with_reducible refine W.relWait_inv ?_
      | with_reducible refine W.relDone_inv ?_
      | with_reducible refine W.status2_inv ?_
      | with_reducible refine InvW.s ?_
      | with_reducible refine InvW.s0 ?_
      | with_reducible refine InvW.fx ?_
      | with_reducible refine Inv.getD ?_ ?_
      | intro _
      | with_reducible refine Inv.foldl ?_ ?_
      | with_reducible refine Inv.foldl2 ?_ ?_
      | with_reducible refine Inv.foldl3 ?_ ?_
      | with_reducible refine Inv.ite ?_ ?_
      | with_reducible refine InvW.foldl ?_ ?_
      | with_reducible refine InvW.foldl2 ?_ ?_
      | with_reducible refine InvW.ite ?_ ?_
      | split
      | with_reducible refine W.relWait_inv ?_ _
      | with_reducible refine W.relWait_inv ?_ _ (by assumption)
      | with_reducible refine Inv.snd (by assumption) ?_
      | with_reducible refine Inv.trd (by assumption) ?_
      | with_reducible refine InvW.snd (by assumption) ?_
      | with_reducible refine InvW.fst (by assumption) ?_
      | with_reducible refine InvW.make ?_ ?_ ?_

theorem W.msgrecv_inv {w : W} {x1} {x2} {x3} (h : InvW w) :
    InvW (W.msgrecv w x1 x2 x3) := by
  unfold W.msgrecv
  (try dsimp only)
  repeat'
    first
      | with_reducible assumption
      | with_reducible refine State.modDie_inv ?_
      | with_reducible refine State.freeDue_inv ?_
      | with_reducible refine State.freeBytes_inv ?_
      | with_reducible refine W.var_inv ?_
      | with_reducible refine InvW.s ?_
      | with_reducible refine InvW.s0 ?_
      | with_reducible refine InvW.fx ?_
      | with_reducible refine Inv.getD ?_ ?_
      | intro _
      | with_reducible refine Inv.foldl ?_ ?_
      | with_reducible refine Inv.foldl2 ?_ ?_
      | with_reducible refine Inv.foldl3 ?_ ?_
      | with_reducible refine Inv.ite ?_ ?_
      | with_reducible refine InvW.foldl ?_ ?_
      | with_reducible refine InvW.foldl2 ?_ ?_
      | with_reducible refine InvW.ite ?_ ?_
      | split
      | with_reducible refine Inv.snd (by assumption) ?_
      | with_reducible refine Inv.trd (by assumption) ?_
      | with_reducible refine InvW.snd (by assumption) ?_
      | with_reducible refine InvW.fst (by assumption) ?_
      | with_reducible refine InvW.make ?_ ?_ ?_

theorem W.msgsend_inv {w : W} {x1} {x2} {x3} {x4} {x5} (h : InvW w) :
    InvW (W.msgsend w x1 x2 x3 x4 x5) := by
  unfold W.msgsend
  (try dsimp only)
  repeat'
    first
      | with_reducible assumption
      | with_reducible refine State.nextSeq_inv ?_
      | with_reducible refine W.supOp_inv ?_
      | with_reducible refine W.status2_inv ?_
      | with_reducible refine InvW.s ?_
      | with_reducible refine InvW.s0 ?_
      | with_reducible refine InvW.fx ?_
      | with_reducible refine Inv.getD ?_ ?_
      | intro _
      | with_reducible refine Inv.foldl ?_ ?_
      | with_reducible refine Inv.foldl2 ?_ ?_
      | with_reducible refine Inv.foldl3 ?_ ?_
      | with_reducible refine Inv.ite ?_ ?_
      | with_reducible refine InvW.foldl ?_ ?_
      | with_reducible refine InvW.foldl2 ?_ ?_
      | with_reducible refine InvW.ite ?_ ?_
      | split
      | with_reducible refine Inv.snd (by assumption) ?_
      | with_reducible refine Inv.trd (by assumption) ?_
      | with_reducible refine InvW.snd (by assumption) ?_
      | with_reducible refine InvW.fst (by assumption) ?_
      | with_reducible refine InvW.make ?_ ?_ ?_

theorem W.tlbinv_inv {w : W} {x1} {x2} (h : InvW w) :
    InvW (W.tlbinv w x1 x2) := by
  unfold W.tlbinv
  (try dsimp only)
  repeat'
    first
      | with_reducible assumption
      | with_reducible refine State.applyEntry_inv ?_
      | with_reducible refine W.supOp_inv ?_
      | with_reducible refine W.status2_inv ?_
      | with_reducible refine InvW.s ?_
      | with_reducible refine InvW.s0 ?_
      | with_reducible refine InvW.fx ?_
      | with_reducible refine Inv.getD ?_ ?_
      | intro _
      | with_reducible refine Inv.foldl ?_ ?_
      | with_reducible refine Inv.foldl2 ?_ ?_
      | with_reducible refine Inv.foldl3 ?_ ?_
      | with_reducible refine Inv.ite ?_ ?_
      | with_reducible refine InvW.foldl ?_ ?_
      | with_reducible refine InvW.foldl2 ?_ ?_
      | with_reducible refine InvW.ite ?_ ?_
      | split
      | with_reducible refine Inv.snd (by assumption) ?_
      | with_reducible refine Inv.trd (by assumption) ?_
      | with_reducible refine InvW.snd (by assumption) ?_
      | with_reducible refine InvW.fst (by assumption) ?_
      | with_reducible refine InvW.make ?_ ?_ ?_

theorem W.zeropg_inv {w : W} {x1} {x2} {x3} (h : InvW w) :
    InvW (W.zeropg w x1 x2 x3) := by
  unfold W.zeropg
  (try dsimp only)
  repeat'
    first
      | with_reducible assumption
      | with_reducible refine State.groomEnter_inv ?_
      | with_reducible refine W.pend_inv ?_
      | with_reducible refine W.status_inv ?_
      | with_reducible refine InvW.s ?_
      | with_reducible refine InvW.s0 ?_
      | with_reducible refine InvW.fx ?_
      | with_reducible refine Inv.getD ?_ ?_
      | intro _
      | with_reducible refine Inv.foldl ?_ ?_
      | with_reducible refine Inv.foldl2 ?_ ?_
      | with_reducible refine Inv.foldl3 ?_ ?_
      | with_reducible refine Inv.ite ?_ ?_
      | with_reducible refine InvW.foldl ?_ ?_
      | with_reducible refine InvW.foldl2 ?_ ?_
      | with_reducible refine InvW.ite ?_ ?_
      | split
      | with_reducible refine Inv.snd (by assumption) ?_
      | with_reducible refine Inv.trd (by assumption) ?_
      | with_reducible refine InvW.snd (by assumption) ?_
      | with_reducible refine InvW.fst (by assumption) ?_
      | with_reducible refine InvW.make ?_ ?_ ?_

end Sys2Proof.Machine
end

