-- ==== Sys2Proof/Laws/KeepSysWrite.lean ====
section
/-! SUPPORT. The operations of Machine/SysWrite keep the machine's invariant `Inv`. -/

namespace Sys2Proof.Machine

theorem State.sysWrite_inv {s : State} {x1} {x2} {x3} {x4} (h : Inv s) :
    Inv (State.sysWrite s x1 x2 x3 x4) := by
  unfold State.sysWrite
  (try dsimp only)
  repeat'
    first
      | with_reducible assumption
      | with_reducible refine State.modGrp_inv ?_
      | with_reducible refine State.modTeam_inv ?_
      | with_reducible refine State.modDie_inv ?_
      | with_reducible refine State.modCtx_inv ?_
      | with_reducible refine State.fmRequest_inv ?_
      | with_reducible refine State.postWaiting_inv ?_
      | with_reducible refine Inv.getD ?_ ?_
      | intro _
      | with_reducible refine Inv.foldl ?_ ?_
      | with_reducible refine Inv.foldl2 ?_ ?_
      | with_reducible refine Inv.foldl3 ?_ ?_
      | with_reducible refine Inv.ite ?_ ?_
      | split

theorem W.wrsys_inv {w : W} {x1} {x2} (h : InvW w) :
    InvW (W.wrsys w x1 x2) := by
  unfold W.wrsys
  repeat'
    first
      | with_reducible assumption
      | with_reducible refine State.sysWrite_inv ?_
      | with_reducible refine InvW.s ?_
      | with_reducible refine InvW.s0 ?_
      | with_reducible refine InvW.fx ?_
      | with_reducible refine Inv.getD ?_ ?_
      | intro _
      | with_reducible refine Inv.foldl ?_ ?_
      | with_reducible refine Inv.foldl2 ?_ ?_
      | with_reducible refine Inv.foldl3 ?_ ?_
      | with_reducible refine Inv.ite ?_ ?_
      | with_reducible refine InvW.foldl ?_ ?_
      | with_reducible refine InvW.foldl2 ?_ ?_
      | with_reducible refine InvW.ite ?_ ?_
      | split
      | with_reducible refine Inv.snd (by assumption) ?_
      | with_reducible refine Inv.trd (by assumption) ?_
      | with_reducible refine InvW.snd (by assumption) ?_
      | with_reducible refine InvW.fst (by assumption) ?_
      | with_reducible refine InvW.make ?_ ?_ ?_

end Sys2Proof.Machine
end

