-- ==== Sys2Proof/Laws/KeepMeasure.lean ====
section
/-! SUPPORT. The operations of Machine/Measure keep the machine's invariant `Inv`. -/

namespace Sys2Proof.Machine

theorem State.lossRecord_inv {s : State} {x1} (h : Inv s) :
    Inv (State.lossRecord s x1) := by
  unfold State.lossRecord
  repeat'
    first
      | with_reducible assumption
      | with_reducible refine State.modCore_inv ?_

theorem State.traceAdd_inv {s : State} {x1} {x2} (h : Inv s) :
    Inv (State.traceAdd s x1 x2) := by
  unfold State.traceAdd
  (try dsimp only)
  repeat'
    first
      | with_reducible assumption
      | with_reducible refine State.modCore_inv ?_
      | with_reducible refine State.lossRecord_inv ?_
      | with_reducible refine Inv.getD ?_ ?_
      | intro _
      | with_reducible refine Inv.foldl ?_ ?_
      | with_reducible refine Inv.foldl2 ?_ ?_
      | with_reducible refine Inv.foldl3 ?_ ?_
      | with_reducible refine Inv.ite ?_ ?_

theorem State.sampleSlot_inv {s : State} {x1} {x2} {x3} (h : Inv s) :
    Inv (State.sampleSlot s x1 x2 x3) := by
  unfold State.sampleSlot
  (try dsimp only)
  repeat'
    first
      | with_reducible assumption
      | with_reducible refine State.traceAdd_inv ?_
      | with_reducible refine Inv.getD ?_ ?_
      | intro _
      | with_reducible refine Inv.foldl ?_ ?_
      | with_reducible refine Inv.foldl2 ?_ ?_
      | with_reducible refine Inv.foldl3 ?_ ?_
      | with_reducible refine Inv.ite ?_ ?_

theorem State.chargeCore_inv {s : State} {x1} {x2} (h : Inv s) :
    Inv (State.chargeCore s x1 x2) := by
  unfold State.chargeCore
  (try dsimp only)
  repeat'
    first
      | with_reducible assumption
      | with_reducible refine State.modCore_inv ?_
      | with_reducible refine State.sampleSlot_inv ?_
      | with_reducible refine State.overflowFold_inv ?_
      | with_reducible refine Inv.getD ?_ ?_
      | intro _
      | with_reducible refine Inv.foldl ?_ ?_

theorem State.chargeAll_inv {s : State} (h : Inv s) :
    Inv (State.chargeAll s) := by
  unfold State.chargeAll
  (try dsimp only)
  repeat'
    first
      | with_reducible assumption
      | with_reducible refine State.chargeCore_inv ?_
      | with_reducible refine Inv.getD ?_ ?_
      | intro _
      | with_reducible refine Inv.foldl ?_ ?_

theorem State.putLine_inv {s : State} {x1} {x2} {x3} {x4} (h : Inv s) :
    Inv (State.putLine s x1 x2 x3 x4) := by
  unfold State.putLine
  repeat'
    first
      | with_reducible assumption
      | with_reducible refine State.homePut_inv ?_
      | with_reducible refine State.recallLine_inv ?_
      | with_reducible refine Inv.getD ?_ ?_
      | intro _
      | with_reducible refine Inv.foldl ?_ ?_
      | with_reducible refine Inv.foldl2 ?_ ?_
      | with_reducible refine Inv.foldl3 ?_ ?_
      | with_reducible refine Inv.ite ?_ ?_

theorem State.putPieces_inv {s : State} {x1} {x2} {x3} (h : Inv s) :
    Inv (State.putPieces s x1 x2 x3) := by
  unfold State.putPieces
  repeat'
    first
      | with_reducible assumption
      | with_reducible refine State.putLine_inv ?_
      | with_reducible refine Inv.getD ?_ ?_
      | intro _
      | with_reducible refine Inv.foldl ?_ ?_
      | with_reducible refine Inv.foldl2 ?_ ?_
      | with_reducible refine Inv.foldl3 ?_ ?_
      | with_reducible refine Inv.ite ?_ ?_
      | split

theorem State.reachPieces_inv {s : State} {x1} {x2} {x3} (h : Inv s) :
    Inv (State.reachPieces s x1 x2 x3).2 := by
  induction x3 generalizing s with
  | nil =>
    unfold State.reachPieces
    (try dsimp only)
    repeat'
      first
        | with_reducible assumption
  | cons a t ih =>
    unfold State.reachPieces
    (try dsimp only)
    repeat'
      first
        | with_reducible assumption
        | with_reducible refine ih ?_
        | with_reducible refine State.reachG_inv ?_

theorem State.traceTake_inv {s : State} {x1} (h : Inv s) :
    Inv (State.traceTake s x1) := by
  unfold State.traceTake
  (try dsimp only)
  repeat'
    first
      | with_reducible assumption
      | with_reducible refine State.modDie_inv ?_
      | with_reducible refine State.modCore_inv ?_
      | with_reducible refine State.homePut_inv ?_
      | with_reducible refine State.lossRecord_inv ?_
      | with_reducible refine Inv.getD ?_ ?_
      | intro _
      | with_reducible refine Inv.foldl ?_ ?_
      | with_reducible refine Inv.foldl2 ?_ ?_
      | with_reducible refine Inv.foldl3 ?_ ?_
      | with_reducible refine Inv.ite ?_ ?_
      | split

theorem W.mark_inv {w : W} {x1} {x2} (h : InvW w) :
    InvW (W.mark w x1 x2) := by
  unfold W.mark
  (try dsimp only)
  repeat'
    first
      | with_reducible assumption
      | with_reducible refine State.traceAdd_inv ?_
      | with_reducible refine W.eff_inv ?_ ?_
      | with_reducible refine InvW.s ?_
      | with_reducible refine InvW.s0 ?_
      | with_reducible refine InvW.fx ?_
      | with_reducible refine Inv.getD ?_ ?_
      | intro _
      | with_reducible refine Inv.foldl ?_ ?_
      | with_reducible refine Inv.foldl2 ?_ ?_
      | with_reducible refine Inv.foldl3 ?_ ?_
      | with_reducible refine Inv.ite ?_ ?_
      | with_reducible refine InvW.foldl ?_ ?_
      | with_reducible refine InvW.foldl2 ?_ ?_
      | with_reducible refine InvW.ite ?_ ?_

theorem W.sampcfg_inv {w : W} {x1} {x2} (h : InvW w) :
    InvW (W.sampcfg w x1 x2) := by
  unfold W.sampcfg
  (try dsimp only)
  repeat'
    first
      | with_reducible assumption
      | with_reducible refine State.modCtx_inv ?_
      | with_reducible refine State.freePick_inv ?_
      | with_reducible refine W.var_inv ?_
      | with_reducible refine InvW.s ?_
      | with_reducible refine InvW.s0 ?_
      | with_reducible refine InvW.fx ?_
      | with_reducible refine Inv.getD ?_ ?_
      | intro _
      | with_reducible refine Inv.foldl ?_ ?_
      | with_reducible refine Inv.foldl2 ?_ ?_
      | with_reducible refine Inv.foldl3 ?_ ?_
      | with_reducible refine Inv.ite ?_ ?_
      | with_reducible refine InvW.foldl ?_ ?_
      | with_reducible refine InvW.foldl2 ?_ ?_
      | with_reducible refine InvW.ite ?_ ?_
      | split
      | with_reducible refine Inv.snd (by assumption) ?_
      | with_reducible refine Inv.trd (by assumption) ?_
      | with_reducible refine InvW.snd (by assumption) ?_
      | with_reducible refine InvW.fst (by assumption) ?_
      | with_reducible refine InvW.make ?_ ?_ ?_

theorem W.splitsnap_inv {w : W} {x1} {x2} {x3} (h : InvW w) :
    InvW (W.splitsnap w x1 x2 x3) := by
  unfold W.splitsnap
  (try dsimp only)
  repeat'
    first
      | with_reducible assumption
      | with_reducible refine State.putPieces_inv ?_
      | with_reducible refine State.reachPieces_inv ?_
      | with_reducible refine W.var_inv ?_
      | with_reducible refine W.eff_inv ?_ ?_
      | with_reducible refine W.watchFault_inv ?_
      | with_reducible refine W.varFree_inv ?_
      | with_reducible refine InvW.s ?_
      | with_reducible refine InvW.s0 ?_
      | with_reducible refine InvW.fx ?_
      | with_reducible refine Inv.getD ?_ ?_
      | intro _
      | with_reducible refine Inv.foldl ?_ ?_
      | with_reducible refine Inv.foldl2 ?_ ?_
      | with_reducible refine Inv.foldl3 ?_ ?_
      | with_reducible refine Inv.ite ?_ ?_
      | with_reducible refine InvW.foldl ?_ ?_
      | with_reducible refine InvW.foldl2 ?_ ?_
      | with_reducible refine InvW.ite ?_ ?_
      | split
      | with_reducible refine Inv.snd (by assumption) ?_
      | with_reducible refine Inv.trd (by assumption) ?_
      | with_reducible refine InvW.snd (by assumption) ?_
      | with_reducible refine InvW.fst (by assumption) ?_
      | with_reducible refine InvW.make ?_ ?_ ?_

end Sys2Proof.Machine
end

