-- ==== Sys2Proof/Laws/KeepEthernet.lean ====
section
/-! SUPPORT. The operations of Machine/Ethernet keep the machine's invariant `Inv`. -/

namespace Sys2Proof.Machine

theorem State.clearBadfcs_inv {s : State} {x1} (h : Inv s) :
    Inv (State.clearBadfcs s x1) := by
  unfold State.clearBadfcs
  repeat'
    first
      | with_reducible assumption
      | with_reducible refine State.modEth_inv ?_
      | with_reducible refine Inv.getD ?_ ?_
      | intro _
      | with_reducible refine Inv.foldl ?_ ?_
      | with_reducible refine Inv.foldl2 ?_ ?_
      | with_reducible refine Inv.foldl3 ?_ ?_
      | with_reducible refine Inv.ite ?_ ?_

theorem State.clearUnmatched_inv {s : State} {x1} (h : Inv s) :
    Inv (State.clearUnmatched s x1) := by
  unfold State.clearUnmatched
  repeat'
    first
      | with_reducible assumption
      | with_reducible refine State.modEth_inv ?_
      | with_reducible refine Inv.getD ?_ ?_
      | intro _
      | with_reducible refine Inv.foldl ?_ ?_
      | with_reducible refine Inv.foldl2 ?_ ?_
      | with_reducible refine Inv.foldl3 ?_ ?_
      | with_reducible refine Inv.ite ?_ ?_

theorem State.ethHome_inv {s : State} {x1} {x2} (h : Inv s) :
    Inv (State.ethHome s x1 x2).2 := by
  unfold State.ethHome
  repeat'
    first
      | with_reducible assumption
      | with_reducible refine State.xlateCtx_inv ?_
      | with_reducible refine Inv.getD ?_ ?_
      | intro _
      | with_reducible refine Inv.foldl ?_ ?_
      | with_reducible refine Inv.foldl2 ?_ ?_
      | with_reducible refine Inv.foldl3 ?_ ?_
      | with_reducible refine Inv.ite ?_ ?_
      | split
      | with_reducible refine Inv.snd (by assumption) ?_

theorem State.ringDrops_inv {s : State} {x1} {x2} (h : Inv s) :
    Inv (State.ringDrops s x1 x2) := by
  unfold State.ringDrops
  repeat'
    first
      | with_reducible assumption
      | with_reducible refine State.homePut_inv ?_
      | with_reducible refine State.ethHome_inv ?_
      | with_reducible refine Inv.getD ?_ ?_
      | intro _
      | with_reducible refine Inv.foldl ?_ ?_
      | with_reducible refine Inv.foldl2 ?_ ?_
      | with_reducible refine Inv.foldl3 ?_ ?_
      | with_reducible refine Inv.ite ?_ ?_
      | split
      | with_reducible refine Inv.snd (by assumption) ?_

theorem State.ringSwitch_inv {s : State} {x1} {x2} {x3} (h : Inv s) :
    Inv (State.ringSwitch s x1 x2 x3) := by
  unfold State.ringSwitch
  (try dsimp only)
  repeat'
    first
      | with_reducible assumption
      | with_reducible refine State.modEth_inv ?_
      | with_reducible refine State.ringDrops_inv ?_
      | with_reducible refine Inv.getD ?_ ?_
      | intro _
      | with_reducible refine Inv.foldl ?_ ?_
      | with_reducible refine Inv.foldl2 ?_ ?_
      | with_reducible refine Inv.foldl3 ?_ ?_
      | with_reducible refine Inv.ite ?_ ?_

theorem State.rcfgWrite_inv {s : State} {x1} {x2} {x3} (h : Inv s) :
    Inv (State.rcfgWrite s x1 x2 x3) := by
  unfold State.rcfgWrite
  (try dsimp only)
  repeat'
    first
      | with_reducible assumption
      | with_reducible refine State.modEth_inv ?_
      | with_reducible refine State.ringSwitch_inv ?_
      | with_reducible refine Inv.getD ?_ ?_
      | intro _
      | with_reducible refine Inv.foldl ?_ ?_
      | with_reducible refine Inv.foldl2 ?_ ?_
      | with_reducible refine Inv.foldl3 ?_ ?_
      | with_reducible refine Inv.ite ?_ ?_

theorem State.ethWrite_inv {s : State} {x1} {x2} {x3} (h : Inv s) :
    Inv (State.ethWrite s x1 x2 x3) := by
  unfold State.ethWrite
  (try dsimp only)
  repeat'
    first
      | with_reducible assumption
      | with_reducible refine State.modEth_inv ?_
      | with_reducible refine State.clearBadfcs_inv ?_
      | with_reducible refine State.clearUnmatched_inv ?_
      | with_reducible refine State.rcfgWrite_inv ?_
      | with_reducible refine Inv.getD ?_ ?_
      | intro _
      | with_reducible refine Inv.foldl ?_ ?_
      | with_reducible refine Inv.foldl2 ?_ ?_
      | with_reducible refine Inv.foldl3 ?_ ?_
      | with_reducible refine Inv.ite ?_ ?_

theorem State.ringPause_inv {s : State} {x1} {x2} {x3} (h : Inv s) :
    Inv (State.ringPause s x1 x2 x3) := by
  unfold State.ringPause
  (try dsimp only)
  repeat'
    first
      | with_reducible assumption
      | with_reducible refine State.modEth_inv ?_
      | with_reducible refine Inv.getD ?_ ?_
      | intro _
      | with_reducible refine Inv.foldl ?_ ?_
      | with_reducible refine Inv.foldl2 ?_ ?_
      | with_reducible refine Inv.foldl3 ?_ ?_
      | with_reducible refine Inv.ite ?_ ?_
      | split

theorem State.pauseTick_inv {s : State} (h : Inv s) :
    Inv (State.pauseTick s) := by
  unfold State.pauseTick
  repeat'
    first
      | with_reducible assumption
      | with_reducible refine State.ringPause_inv ?_
      | with_reducible refine Inv.getD ?_ ?_
      | intro _
      | with_reducible refine Inv.foldl ?_ ?_
      | with_reducible refine Inv.foldl2 ?_ ?_
      | with_reducible refine Inv.foldl3 ?_ ?_
      | with_reducible refine Inv.ite ?_ ?_

theorem State.ringFail_inv {s : State} {x1} {x2} {x3} (h : Inv s) :
    Inv (State.ringFail s x1 x2 x3) := by
  unfold State.ringFail
  repeat'
    first
      | with_reducible assumption
      | with_reducible refine State.ringDrops_inv ?_
      | with_reducible refine State.lateRecord_inv ?_

theorem State.ringDeliver_inv {s : State} {x1} {x2} {x3} {x4} (h : Inv s) :
    Inv (State.ringDeliver s x1 x2 x3 x4) := by
  unfold State.ringDeliver
  (try dsimp only)
  repeat'
    first
      | with_reducible assumption
      | with_reducible refine State.homePut_inv ?_
      | with_reducible refine State.ethHome_inv ?_
      | with_reducible refine State.ringPause_inv ?_
      | with_reducible refine State.ringFail_inv ?_
      | with_reducible refine Inv.getD ?_ ?_
      | intro _
      | with_reducible refine Inv.foldl ?_ ?_
      | with_reducible refine Inv.foldl2 ?_ ?_
      | with_reducible refine Inv.foldl3 ?_ ?_
      | with_reducible refine Inv.ite ?_ ?_
      | split
      | with_reducible refine Inv.snd (by assumption) ?_

theorem State.ringTake_inv {s : State} {x1} {x2} {x3} {x4} {x5} (h : Inv s) :
    Inv (State.ringTake s x1 x2 x3 x4 x5) := by
  unfold State.ringTake
  repeat'
    first
      | with_reducible assumption
      | with_reducible refine State.modEth_inv ?_
      | with_reducible refine State.ethHome_inv ?_
      | with_reducible refine State.ringDrops_inv ?_
      | with_reducible refine State.ringFail_inv ?_
      | with_reducible refine State.ringDeliver_inv ?_
      | with_reducible refine Inv.getD ?_ ?_
      | intro _
      | with_reducible refine Inv.foldl ?_ ?_
      | with_reducible refine Inv.foldl2 ?_ ?_
      | with_reducible refine Inv.foldl3 ?_ ?_
      | with_reducible refine Inv.ite ?_ ?_
      | split

theorem State.frameIn_inv {s : State} {x1} {x2} {x3} (h : Inv s) :
    Inv (State.frameIn s x1 x2 x3) := by
  unfold State.frameIn
  (try dsimp only)
  repeat'
    first
      | with_reducible assumption
      | with_reducible refine State.modEth_inv ?_
      | with_reducible refine State.freePick_inv ?_
      | with_reducible refine State.ringTake_inv ?_
      | with_reducible refine Inv.getD ?_ ?_
      | intro _
      | with_reducible refine Inv.foldl ?_ ?_
      | with_reducible refine Inv.foldl2 ?_ ?_
      | with_reducible refine Inv.foldl3 ?_ ?_
      | with_reducible refine Inv.ite ?_ ?_
      | split

end Sys2Proof.Machine
end

