-- ==== Sys2Proof/Laws/KeepBoot.lean ====
section
/-! SUPPORT. The operations of Machine/Boot keep the machine's invariant `Inv`. -/

namespace Sys2Proof.Machine

theorem State.mbSet_inv {s : State} {x1} {x2} (h : Inv s) :
    Inv (State.mbSet s x1 x2) := by
  unfold State.mbSet
  repeat'
    first
      | with_reducible assumption
      | with_reducible refine State.modPkg_inv ?_ ?_
      | with_reducible refine Inv.getD ?_ ?_
      | intro _
      | with_reducible refine Inv.foldl ?_ ?_
      | with_reducible refine Inv.foldl2 ?_ ?_
      | with_reducible refine Inv.foldl3 ?_ ?_
      | with_reducible refine Inv.ite ?_ ?_
      | split
      | with_reducible refine Inv.snd (by assumption) ?_
      | with_reducible refine Inv.trd (by assumption) ?_
      | with_reducible refine Inv.fold ?_
      | with_reducible refine Inv.mk ?_
      | with_reducible refine PkgOk.fold ?_
      | with_reducible refine PkgOk.mk ?_

theorem State.mbCmd_inv {s : State} {x1} (h : Inv s) :
    Inv (State.mbCmd s x1) := by
  unfold State.mbCmd
  (try dsimp only)
  repeat'
    first
      | with_reducible assumption
      | with_reducible refine State.freeDue_inv ?_
      | with_reducible refine State.modPkg_inv ?_ ?_
      | with_reducible refine State.mbSet_inv ?_
      | with_reducible refine Inv.getD ?_ ?_
      | intro _
      | with_reducible refine Inv.foldl ?_ ?_
      | with_reducible refine Inv.foldl2 ?_ ?_
      | with_reducible refine Inv.foldl3 ?_ ?_
      | with_reducible refine Inv.ite ?_ ?_
      | split
      | with_reducible refine Inv.snd (by assumption) ?_
      | with_reducible refine Inv.trd (by assumption) ?_
      | with_reducible refine Inv.fold ?_
      | with_reducible refine Inv.mk ?_
      | with_reducible refine PkgOk.fold ?_
      | with_reducible refine PkgOk.mk ?_

theorem State.measure_inv {s : State} {x1} {x2} (h : Inv s) :
    Inv (State.measure s x1 x2) := by
  unfold State.measure
  repeat'
    first
      | with_reducible assumption
      | with_reducible refine State.modPkg_inv ?_ ?_
      | with_reducible refine Inv.getD ?_ ?_
      | intro _
      | with_reducible refine Inv.foldl ?_ ?_
      | with_reducible refine Inv.foldl2 ?_ ?_
      | with_reducible refine Inv.foldl3 ?_ ?_
      | with_reducible refine Inv.ite ?_ ?_
      | split
      | with_reducible refine Inv.snd (by assumption) ?_
      | with_reducible refine Inv.trd (by assumption) ?_
      | with_reducible refine Inv.fold ?_
      | with_reducible refine Inv.mk ?_
      | with_reducible refine PkgOk.fold ?_
      | with_reducible refine PkgOk.mk ?_

theorem State.startDie_inv {s : State} {x1} {x2} {x3} (h : Inv s) :
    Inv (State.startDie s x1 x2 x3) := by
  unfold State.startDie
  (try dsimp only)
  repeat'
    first
      | with_reducible assumption
      | with_reducible refine State.zeroRange_inv ?_
      | with_reducible refine State.modDie_inv ?_
      | with_reducible refine State.fresh_inv ?_
      | with_reducible refine State.setGrp_inv ?_
      | with_reducible refine Inv.getD ?_ ?_
      | intro _
      | with_reducible refine Inv.foldl ?_ ?_

theorem State.loadImage_inv {s : State} {x1} {x2} (h : Inv s) :
    Inv (State.loadImage s x1 x2) := by
  unfold State.loadImage
  (try dsimp only)
  repeat'
    first
      | with_reducible assumption
      | with_reducible refine State.homePut_inv ?_
      | with_reducible refine State.modFe_inv ?_
      | with_reducible refine State.modPkg_inv ?_ ?_
      | with_reducible refine State.mbSet_inv ?_
      | with_reducible refine State.measure_inv ?_
      | with_reducible refine State.startDie_inv ?_
      | with_reducible refine Inv.getD ?_ ?_
      | intro _
      | with_reducible refine Inv.foldl ?_ ?_
      | with_reducible refine Inv.foldl2 ?_ ?_
      | with_reducible refine Inv.foldl3 ?_ ?_
      | with_reducible refine Inv.ite ?_ ?_
      | split
      | with_reducible refine Inv.snd (by assumption) ?_
      | with_reducible refine Inv.trd (by assumption) ?_
      | with_reducible refine Inv.fold ?_
      | with_reducible refine Inv.mk ?_
      | with_reducible refine PkgOk.fold ?_
      | with_reducible refine PkgOk.mk ?_

theorem State.quoteOut_inv {s : State} (h : Inv s) :
    Inv (State.quoteOut s) := by
  unfold State.quoteOut
  (try dsimp only)
  repeat'
    first
      | with_reducible assumption
      | with_reducible refine State.homePut_inv ?_
      | with_reducible refine State.mbSet_inv ?_
      | with_reducible refine Inv.getD ?_ ?_
      | intro _
      | with_reducible refine Inv.foldl ?_ ?_
      | with_reducible refine Inv.foldl2 ?_ ?_
      | with_reducible refine Inv.foldl3 ?_ ?_
      | with_reducible refine Inv.ite ?_ ?_

theorem State.mbRun_inv {s : State} {x1} {x2} (h : Inv s) :
    Inv (State.mbRun s x1 x2) := by
  unfold State.mbRun
  (try dsimp only)
  repeat'
    first
      | with_reducible assumption
      | with_reducible refine State.modPkg_inv ?_ ?_
      | with_reducible refine State.loadImage_inv ?_
      | with_reducible refine State.quoteOut_inv ?_
      | with_reducible refine Inv.getD ?_ ?_
      | intro _
      | with_reducible refine Inv.foldl ?_ ?_
      | with_reducible refine Inv.foldl2 ?_ ?_
      | with_reducible refine Inv.foldl3 ?_ ?_
      | with_reducible refine Inv.ite ?_ ?_
      | split
      | with_reducible refine Inv.snd (by assumption) ?_
      | with_reducible refine Inv.trd (by assumption) ?_
      | with_reducible refine Inv.fold ?_
      | with_reducible refine Inv.mk ?_
      | with_reducible refine PkgOk.fold ?_
      | with_reducible refine PkgOk.mk ?_

theorem State.mbServe_inv {s : State} {x1} {x2} (h : Inv s) :
    Inv (State.mbServe s x1 x2) := by
  unfold State.mbServe
  repeat'
    first
      | with_reducible assumption
      | with_reducible refine State.mbRun_inv ?_
      | with_reducible refine Inv.getD ?_ ?_
      | intro _
      | with_reducible refine Inv.foldl ?_ ?_
      | with_reducible refine Inv.foldl2 ?_ ?_
      | with_reducible refine Inv.foldl3 ?_ ?_
      | with_reducible refine Inv.ite ?_ ?_
      | split

theorem State.powerCycle_inv {s : State} (h : Inv s) :
    Inv (State.powerCycle s) := by
  unfold State.powerCycle
  refine Inv.mk ⟨cwf_filter _ h.1, ?_⟩
  show ClockOk 1800 1800 4400
  unfold ClockOk clockCandidates
  decide

end Sys2Proof.Machine
end

