-- ==== Sys2Proof/Laws/KeepOutside.lean ====
section
/-! SUPPORT. The operations of Machine/Outside keep the machine's invariant `Inv`. -/

namespace Sys2Proof.Machine

theorem State.ceClear_inv {s : State} {x1} (h : Inv s) :
    Inv (State.ceClear s x1) := by
  unfold State.ceClear
  repeat'
    first
      | with_reducible assumption
      | with_reducible refine State.modDie_inv ?_

theorem State.notify_inv {s : State} {x1} {x2} (h : Inv s) :
    Inv (State.notify s x1 x2) := by
  unfold State.notify
  (try dsimp only)
  repeat'
    first
      | with_reducible assumption
      | with_reducible refine State.modDie_inv ?_
      | with_reducible refine State.homePut_inv ?_
      | with_reducible refine Inv.getD ?_ ?_
      | intro _
      | with_reducible refine Inv.foldl ?_ ?_
      | with_reducible refine Inv.foldl2 ?_ ?_
      | with_reducible refine Inv.foldl3 ?_ ?_
      | with_reducible refine Inv.ite ?_ ?_

theorem State.corrected_inv {s : State} {x1} (h : Inv s) :
    Inv (State.corrected s x1) := by
  unfold State.corrected
  (try dsimp only)
  repeat'
    first
      | with_reducible assumption
      | with_reducible refine State.modDie_inv ?_
      | with_reducible refine State.notify_inv ?_
      | with_reducible refine Inv.getD ?_ ?_
      | intro _
      | with_reducible refine Inv.foldl ?_ ?_
      | with_reducible refine Inv.foldl2 ?_ ?_
      | with_reducible refine Inv.foldl3 ?_ ?_
      | with_reducible refine Inv.ite ?_ ?_
      | split

theorem State.countSend_inv {s : State} {x1} (h : Inv s) :
    Inv (State.countSend s x1) := by
  unfold State.countSend
  (try dsimp only)
  repeat'
    first
      | with_reducible assumption
      | with_reducible refine State.modCcl_inv ?_
      | with_reducible refine State.notify_inv ?_
      | with_reducible refine Inv.getD ?_ ?_
      | intro _
      | with_reducible refine Inv.foldl ?_ ?_
      | with_reducible refine Inv.foldl2 ?_ ?_
      | with_reducible refine Inv.foldl3 ?_ ?_
      | with_reducible refine Inv.ite ?_ ?_

theorem State.csetWrite_inv {s : State} {x1} {x2} {x3} (h : Inv s) :
    Inv (State.csetWrite s x1 x2 x3) := by
  unfold State.csetWrite
  (try dsimp only)
  repeat'
    first
      | with_reducible assumption
      | with_reducible refine State.modCore_inv ?_
      | with_reducible refine State.beginChange_inv ?_
      | with_reducible refine State.modFeCtx_inv ?_
      | with_reducible refine Inv.getD ?_ ?_
      | intro _
      | with_reducible refine Inv.foldl ?_ ?_
      | with_reducible refine Inv.foldl2 ?_ ?_
      | with_reducible refine Inv.foldl3 ?_ ?_
      | with_reducible refine Inv.ite ?_ ?_

theorem State.dieWrite_inv {s : State} {x1} {x2} {x3} (h : Inv s) :
    Inv (State.dieWrite s x1 x2 x3) := by
  unfold State.dieWrite
  (try dsimp only)
  repeat'
    first
      | with_reducible assumption
      | with_reducible refine State.modDie_inv ?_
      | with_reducible refine State.ceClear_inv ?_
      | with_reducible refine Inv.getD ?_ ?_
      | intro _
      | with_reducible refine Inv.foldl ?_ ?_
      | with_reducible refine Inv.foldl2 ?_ ?_
      | with_reducible refine Inv.foldl3 ?_ ?_
      | with_reducible refine Inv.ite ?_ ?_
      | split

theorem State.portWrite_inv {s : State} {x1} {x2} {x3} {x4} (h : Inv s) :
    Inv (State.portWrite s x1 x2 x3 x4) := by
  unfold State.portWrite
  (try dsimp only)
  repeat'
    first
      | with_reducible assumption
      | with_reducible refine State.modPort_inv ?_
      | with_reducible refine State.queueReset_inv ?_
      | with_reducible refine Inv.getD ?_ ?_
      | intro _
      | with_reducible refine Inv.foldl ?_ ?_
      | with_reducible refine Inv.foldl2 ?_ ?_
      | with_reducible refine Inv.foldl3 ?_ ?_
      | with_reducible refine Inv.ite ?_ ?_
      | split

theorem Pkg.admitted_mem {p : Pkg} {q : Nat → Bool} {f : Nat} (h : p.admitted.find? q = some f) : f ∈ clockCandidates ∧ q f = true :=
  ⟨List.mem_of_mem_filter (List.mem_of_find?_eq_some h), List.find?_some h⟩
theorem Pkg.admitted_rev_mem {p : Pkg} {q : Nat → Bool} {f : Nat} (h : p.admitted.reverse.find? q = some f) : f ∈ clockCandidates ∧ q f = true :=
  ⟨List.mem_of_mem_filter (List.mem_reverse.1 (List.mem_of_find?_eq_some h)), List.find?_some h⟩
theorem Pkg.stepDown_ok {p : Pkg} (h : PkgOk p) : PkgOk p.stepDown := by
  unfold Pkg.stepDown
  split
  · rename_i f hf
    obtain ⟨h1, h2⟩ := Pkg.admitted_mem hf
    refine PkgOk.mk ⟨h1, h.2.1, ?_, h.2.2.2⟩
    have := h.2.2.1
    simp only [decide_eq_true_eq] at h2
    omega
  · exact h
theorem Pkg.stepUp_ok {p : Pkg} (h : PkgOk p) : PkgOk p.stepUp := by
  unfold Pkg.stepUp
  split
  · rename_i f hf
    obtain ⟨h1, h2⟩ := Pkg.admitted_rev_mem hf
    simp only [Bool.and_eq_true, decide_eq_true_eq] at h2
    exact PkgOk.mk ⟨h1, h.2.1, h2.2, h.2.2.2⟩
  · exact h
theorem plimOf_ok (v : Nat) : 2000 ≤ plimOf v ∧ plimOf v ≤ 4400 ∧ 50 ∣ plimOf v := by
  unfold plimOf
  omega

theorem State.planClock_inv {s : State} {x1} (h : Inv s) :
    Inv (State.planClock s x1) := by
  unfold State.planClock
  refine State.modPkg_inv h (fun k => ?_)
  split
  · exact PkgOk.mk k
  · split
    · rename_i f hf
      exact PkgOk.mk ⟨(Pkg.admitted_mem hf).1, (Pkg.admitted_mem hf).1, Nat.le_refl _, k.2.2.2⟩
    · exact PkgOk.mk k

theorem State.mgmtWrite_inv {s : State} {x1} {x2} (h : Inv s) :
    Inv (State.mgmtWrite s x1 x2) := by
  unfold State.mgmtWrite
  split
  · exact State.modPkg_inv h (fun k => PkgOk.mk k)
  split
  · exact State.planClock_inv h
  split
  · exact State.modPkg_inv h (fun k => PkgOk.mk ⟨k.1, k.2.1, k.2.2.1, plimOf_ok _⟩)
  split
  · exact State.modPkg_inv h (fun k => PkgOk.mk k)
  split
  · exact State.modPkg_inv h (fun k => PkgOk.mk k)
  split
  · exact State.mbCmd_inv h
  split
  · exact State.modPkg_inv h (fun k => PkgOk.mk k)
  · exact h

theorem State.ctlPerform_inv {s : State} {x1} {x2} {x3} (h : Inv s) :
    Inv (State.ctlPerform s x1 x2 x3) := by
  unfold State.ctlPerform
  (try dsimp only)
  repeat'
    first
      | with_reducible assumption
      | with_reducible refine State.modFeCtx_inv ?_
      | with_reducible refine State.csetWrite_inv ?_
      | with_reducible refine State.dieWrite_inv ?_
      | with_reducible refine State.portWrite_inv ?_
      | with_reducible refine State.mgmtWrite_inv ?_
      | with_reducible refine State.ethWrite_inv ?_
      | with_reducible refine Inv.getD ?_ ?_
      | intro _
      | with_reducible refine Inv.foldl ?_ ?_
      | with_reducible refine Inv.foldl2 ?_ ?_
      | with_reducible refine Inv.foldl3 ?_ ?_
      | with_reducible refine Inv.ite ?_ ?_

theorem State.ctlStep_inv {s : State} (h : Inv s) :
    Inv (State.ctlStep s) := by
  unfold State.ctlStep
  repeat'
    first
      | with_reducible assumption
      | with_reducible refine State.ctlPerform_inv ?_
      | with_reducible refine Inv.getD ?_ ?_
      | intro _
      | with_reducible refine Inv.foldl ?_ ?_
      | with_reducible refine Inv.foldl2 ?_ ?_
      | with_reducible refine Inv.foldl3 ?_ ?_
      | with_reducible refine Inv.ite ?_ ?_
      | split
      | with_reducible refine Inv.snd (by assumption) ?_
      | with_reducible refine Inv.trd (by assumption) ?_
      | with_reducible refine Inv.fold ?_
      | with_reducible refine Inv.mk ?_

theorem Pkg.step_ok {c d : Prop} [Decidable c] [Decidable d] {p : Pkg} (k : PkgOk p) :
    PkgOk (if c then p.stepDown else if d then p.stepUp else p) := by
  split
  · exact Pkg.stepDown_ok k
  · split
    · exact Pkg.stepUp_ok k
    · exact k

theorem State.measurePower_inv {s : State} {x1} {x2} (h : Inv s) :
    Inv (State.measurePower s x1 x2) := by
  unfold State.measurePower
  split
  · exact State.packageOff_inv h
  · exact State.modPkg_inv h (fun k => Pkg.step_ok (PkgOk.mk k))

theorem State.nvmeWrite_inv {s : State} {x1} {x2} {x3} {x4} (h : Inv s) :
    Inv (State.nvmeWrite s x1 x2 x3 x4) := by
  induction x2 generalizing s x3 x4 with
  | zero =>
    unfold State.nvmeWrite
    repeat'
      first
        | with_reducible assumption
  | succ n ih =>
    unfold State.nvmeWrite
    (try dsimp only)
    repeat'
      first
        | with_reducible assumption
        | with_reducible refine ih ?_
        | with_reducible refine State.homePut_inv ?_
        | with_reducible refine State.homeOf_inv ?_
        | with_reducible refine Inv.getD ?_ ?_
        | intro _
        | with_reducible refine Inv.foldl ?_ ?_
        | with_reducible refine Inv.foldl2 ?_ ?_
        | with_reducible refine Inv.foldl3 ?_ ?_
        | with_reducible refine Inv.ite ?_ ?_
        | split
        | with_reducible refine Inv.snd (by assumption) ?_

theorem State.remoteAtom_inv {s : State} {x1} {x2} {x3} {x4} {x5} (h : Inv s) :
    Inv (State.remoteAtom s x1 x2 x3 x4 x5) := by
  unfold State.remoteAtom
  (try dsimp only)
  repeat'
    first
      | with_reducible assumption
      | with_reducible refine State.homePut_inv ?_
      | with_reducible refine Inv.getD ?_ ?_
      | intro _
      | with_reducible refine Inv.foldl ?_ ?_
      | with_reducible refine Inv.foldl2 ?_ ?_
      | with_reducible refine Inv.foldl3 ?_ ?_
      | with_reducible refine Inv.ite ?_ ?_
      | split

theorem State.reportBad_inv {s : State} {x1} (h : Inv s) :
    Inv (State.reportBad s x1) := by
  unfold State.reportBad
  (try dsimp only)
  repeat'
    first
      | with_reducible assumption
      | with_reducible refine State.mchkRecord_inv ?_
      | with_reducible refine Inv.getD ?_ ?_
      | intro _
      | with_reducible refine Inv.foldl ?_ ?_
      | with_reducible refine Inv.foldl2 ?_ ?_
      | with_reducible refine Inv.foldl3 ?_ ?_
      | with_reducible refine Inv.ite ?_ ?_
      | split

end Sys2Proof.Machine
end

