-- ==== Sys2Proof/Laws/KeepSched.lean ====
section
/-! SUPPORT. The operations of Machine/Sched keep the machine's invariant `Inv`. -/

namespace Sys2Proof.Machine

theorem State.fetchAt_inv {s : State} {x1} {x2} (h : Inv s) :
    Inv (State.fetchAt s x1 x2).2 := by
  unfold State.fetchAt
  repeat'
    first
      | with_reducible assumption
      | with_reducible refine State.reachG_inv ?_

theorem State.fillLine_inv {s : State} {x1} {x2} (h : Inv s) :
    Inv (State.fillLine s x1 x2) := by
  unfold State.fillLine
  (try dsimp only)
  repeat'
    first
      | with_reducible assumption
      | with_reducible refine State.modCore_inv ?_
      | with_reducible refine State.fetchAt_inv ?_
      | with_reducible refine Inv.getD ?_ ?_
      | intro _
      | with_reducible refine Inv.foldl ?_ ?_
      | with_reducible refine Inv.foldl2 ?_ ?_
      | with_reducible refine Inv.foldl3 ?_ ?_
      | with_reducible refine Inv.ite ?_ ?_
      | split
      | with_reducible refine Inv.snd (by assumption) ?_

theorem State.fillsDone_inv {s : State} {x1} (h : Inv s) :
    Inv (State.fillsDone s x1) := by
  unfold State.fillsDone
  (try dsimp only)
  repeat'
    first
      | with_reducible assumption
      | with_reducible refine State.modCore_inv ?_
      | with_reducible refine State.fillLine_inv ?_
      | with_reducible refine Inv.getD ?_ ?_
      | intro _
      | with_reducible refine Inv.foldl ?_ ?_
      | with_reducible refine Inv.foldl2 ?_ ?_
      | with_reducible refine Inv.foldl3 ?_ ?_
      | with_reducible refine Inv.ite ?_ ?_
      | split

theorem State.fetchGroup_inv {s : State} {x1} {x2} (h : Inv s) :
    Inv (State.fetchGroup s x1 x2) := by
  unfold State.fetchGroup
  (try dsimp only)
  repeat'
    first
      | with_reducible assumption
      | with_reducible refine State.modGrp_inv ?_
      | with_reducible refine State.modCore_inv ?_
      | with_reducible refine State.freeDue_inv ?_
      | with_reducible refine State.fetchAt_inv ?_
      | with_reducible refine State.requestPages_inv ?_
      | with_reducible refine Inv.getD ?_ ?_
      | intro _
      | with_reducible refine Inv.foldl ?_ ?_
      | with_reducible refine Inv.foldl2 ?_ ?_
      | with_reducible refine Inv.foldl3 ?_ ?_
      | with_reducible refine Inv.ite ?_ ?_
      | split
      | with_reducible refine Inv.snd (by assumption) ?_

theorem State.fetchAll_inv {s : State} (h : Inv s) :
    Inv (State.fetchAll s) := by
  unfold State.fetchAll
  (try dsimp only)
  repeat'
    first
      | with_reducible assumption
      | with_reducible refine State.fillsDone_inv ?_
      | with_reducible refine State.fetchGroup_inv ?_
      | with_reducible refine Inv.getD ?_ ?_
      | intro _
      | with_reducible refine Inv.foldl ?_ ?_

theorem State.endClk_inv {s : State} (h : Inv s) :
    Inv (State.endClk s) := by
  unfold State.endClk
  (try dsimp only)
  repeat'
    first
      | with_reducible assumption
      | with_reducible refine State.modPkg_inv ?_ ?_
      | with_reducible refine State.chargeAll_inv ?_
      | with_reducible refine State.ctxOps_inv ?_
      | with_reducible refine State.dieOps_inv ?_
      | with_reducible refine State.fenceStep_inv ?_
      | with_reducible refine State.fetchAll_inv ?_
      | with_reducible refine State.pauseTick_inv ?_
      | with_reducible refine State.pagesTry_inv ?_
      | with_reducible refine State.signalsTry_inv ?_
      | with_reducible refine Inv.getD ?_ ?_
      | intro _
      | with_reducible refine Inv.foldl ?_ ?_
      | with_reducible refine Inv.foldl2 ?_ ?_
      | with_reducible refine Inv.foldl3 ?_ ?_
      | with_reducible refine Inv.ite ?_ ?_
      | split
      | with_reducible refine Inv.snd (by assumption) ?_
      | with_reducible refine Inv.trd (by assumption) ?_
      | with_reducible refine Inv.fold ?_
      | with_reducible refine Inv.mk ?_
      | with_reducible refine PkgOk.fold ?_
      | with_reducible refine PkgOk.mk ?_

theorem State.quietDue_inv {s : State} (h : Inv s) :
    ∀ t, State.quietDue s = some t → Inv t := by
  intro t
  unfold State.quietDue
  split
  · exact Inv.ofSome (State.modPkg_inv h (fun k => PkgOk.mk k))
  split
  · split
    · exact Inv.ofSome (State.mbRun_inv h)
    · exact Inv.ofNone
  split
  · exact Inv.ofSome (State.modGrp_inv h)
  split
  · exact Inv.ofSome (State.writeBackDone_inv h)
  · intro e
    obtain ⟨c, -, rfl⟩ := Option.map_eq_some_iff.1 e
    exact State.countSend_inv h

end Sys2Proof.Machine
end

