-- ==== Sys2Proof/Laws/KeepExec.lean ====
section
/-! SUPPORT. Every meaning keeps the machine's invariant `Inv`: when it answers a next state, the invariant holds there. -/

namespace Sys2Proof.Machine

theorem runWordX_inv {i : Instr} {keys : Group → List Nat → List Nat} {s t : State} {body : W → W} (h : Inv s) (hb : ∀ w, InvW w → InvW (body w)) :
    runWordX i keys s body = .next t → Inv t := by
  unfold runWordX
  intro e
  split at e
  · cases e
  split at e
  · cases e
  split at e
  · cases e
  · cases e
    exact wordStep_inv h hb

theorem runWord_inv {i : Instr} {s t : State} {body : W → W} (h : Inv s) (hb : ∀ w, InvW w → InvW (body w)) :
    runWord i s body = .next t → Inv t := runWordX_inv h hb

theorem runEvent_inv {s t : State} {f : State → State} (h : Inv s) (hf : ∀ u, Inv u → Inv (f u)) : runEvent s f = .next t → Inv t := by
  unfold runEvent
  intro e
  split at e
  · cases e
    exact hf s h
  · cases e

theorem execMov_inv {x0} {x1} {x2} {s : State} {t : State} (h : Inv s) :
    execMov x0 x1 x2 s = .next t → Inv t := by
  unfold execMov
  refine runWord_inv h (fun w k => ?_)
  repeat'
    first
      | with_reducible assumption
      | with_reducible refine W.put1_inv ?_

theorem execIadd_inv {x0} {x1} {x2} {x3} {x4} {s : State} {t : State} (h : Inv s) :
    execIadd x0 x1 x2 x3 x4 s = .next t → Inv t := by
  unfold execIadd
  refine runWord_inv h (fun w k => ?_)
  repeat'
    first
      | with_reducible assumption
      | with_reducible refine W.put1_inv ?_

theorem execIadd64_inv {x0} {x1} {x2} {x3} {s : State} {t : State} (h : Inv s) :
    execIadd64 x0 x1 x2 x3 s = .next t → Inv t := by
  unfold execIadd64
  refine runWord_inv h (fun w k => ?_)
  repeat'
    first
      | with_reducible assumption
      | with_reducible refine W.put2_inv ?_

theorem execIsub_inv {x0} {x1} {x2} {x3} {x4} {s : State} {t : State} (h : Inv s) :
    execIsub x0 x1 x2 x3 x4 s = .next t → Inv t := by
  unfold execIsub
  refine runWord_inv h (fun w k => ?_)
  repeat'
    first
      | with_reducible assumption
      | with_reducible refine W.put1_inv ?_

theorem execIsub64_inv {x0} {x1} {x2} {x3} {s : State} {t : State} (h : Inv s) :
    execIsub64 x0 x1 x2 x3 s = .next t → Inv t := by
  unfold execIsub64
  refine runWord_inv h (fun w k => ?_)
  repeat'
    first
      | with_reducible assumption
      | with_reducible refine W.put2_inv ?_

theorem execImul_inv {x0} {x1} {x2} {x3} {s : State} {t : State} (h : Inv s) :
    execImul x0 x1 x2 x3 s = .next t → Inv t := by
  unfold execImul
  refine runWord_inv h (fun w k => ?_)
  repeat'
    first
      | with_reducible assumption
      | with_reducible refine W.put1_inv ?_

theorem execImulh_inv {x0} {x1} {x2} {x3} {s : State} {t : State} (h : Inv s) :
    execImulh x0 x1 x2 x3 s = .next t → Inv t := by
  unfold execImulh
  refine runWord_inv h (fun w k => ?_)
  repeat'
    first
      | with_reducible assumption
      | with_reducible refine W.put1_inv ?_

theorem execImulhu_inv {x0} {x1} {x2} {x3} {s : State} {t : State} (h : Inv s) :
    execImulhu x0 x1 x2 x3 s = .next t → Inv t := by
  unfold execImulhu
  refine runWord_inv h (fun w k => ?_)
  repeat'
    first
      | with_reducible assumption
      | with_reducible refine W.put1_inv ?_

theorem execImad_inv {x0} {x1} {x2} {x3} {x4} {s : State} {t : State} (h : Inv s) :
    execImad x0 x1 x2 x3 x4 s = .next t → Inv t := by
  unfold execImad
  refine runWord_inv h (fun w k => ?_)
  repeat'
    first
      | with_reducible assumption
      | with_reducible refine W.put1_inv ?_

theorem execImadw_inv {x0} {x1} {x2} {x3} {x4} {x5} {s : State} {t : State} (h : Inv s) :
    execImadw x0 x1 x2 x3 x4 x5 s = .next t → Inv t := by
  unfold execImadw
  refine runWord_inv h (fun w k => ?_)
  repeat'
    first
      | with_reducible assumption
      | with_reducible refine W.put2_inv ?_

theorem execIdiv_inv {x0} {x1} {x2} {x3} {x4} {s : State} {t : State} (h : Inv s) :
    execIdiv x0 x1 x2 x3 x4 s = .next t → Inv t := by
  unfold execIdiv
  refine runWord_inv h (fun w k => ?_)
  (try dsimp only)
  repeat'
    first
      | with_reducible assumption
      | with_reducible refine W.var_inv ?_
      | with_reducible refine W.freeIn_inv ?_

theorem execIrem_inv {x0} {x1} {x2} {x3} {x4} {s : State} {t : State} (h : Inv s) :
    execIrem x0 x1 x2 x3 x4 s = .next t → Inv t := by
  unfold execIrem
  refine runWord_inv h (fun w k => ?_)
  (try dsimp only)
  repeat'
    first
      | with_reducible assumption
      | with_reducible refine W.var_inv ?_
      | with_reducible refine W.freeIn_inv ?_

theorem execImin_inv {x0} {x1} {x2} {x3} {x4} {s : State} {t : State} (h : Inv s) :
    execImin x0 x1 x2 x3 x4 s = .next t → Inv t := by
  unfold execImin
  refine runWord_inv h (fun w k => ?_)
  repeat'
    first
      | with_reducible assumption
      | with_reducible refine W.put1_inv ?_

theorem execImax_inv {x0} {x1} {x2} {x3} {x4} {s : State} {t : State} (h : Inv s) :
    execImax x0 x1 x2 x3 x4 s = .next t → Inv t := by
  unfold execImax
  refine runWord_inv h (fun w k => ?_)
  repeat'
    first
      | with_reducible assumption
      | with_reducible refine W.put1_inv ?_

theorem execIabs_inv {x0} {x1} {x2} {x3} {s : State} {t : State} (h : Inv s) :
    execIabs x0 x1 x2 x3 s = .next t → Inv t := by
  unfold execIabs
  refine runWord_inv h (fun w k => ?_)
  (try dsimp only)
  repeat'
    first
      | with_reducible assumption
      | with_reducible refine W.put1_inv ?_

theorem execIsad_inv {x0} {x1} {x2} {x3} {x4} {x5} {s : State} {t : State} (h : Inv s) :
    execIsad x0 x1 x2 x3 x4 x5 s = .next t → Inv t := by
  unfold execIsad
  refine runWord_inv h (fun w k => ?_)
  repeat'
    first
      | with_reducible assumption
      | with_reducible refine W.put1_inv ?_

theorem execAnd_inv {x0} {x1} {x2} {x3} {s : State} {t : State} (h : Inv s) :
    execAnd x0 x1 x2 x3 s = .next t → Inv t := by
  unfold execAnd
  refine runWord_inv h (fun w k => ?_)
  repeat'
    first
      | with_reducible assumption
      | with_reducible refine W.put1_inv ?_

theorem execOr_inv {x0} {x1} {x2} {x3} {s : State} {t : State} (h : Inv s) :
    execOr x0 x1 x2 x3 s = .next t → Inv t := by
  unfold execOr
  refine runWord_inv h (fun w k => ?_)
  repeat'
    first
      | with_reducible assumption
      | with_reducible refine W.put1_inv ?_

theorem execXor_inv {x0} {x1} {x2} {x3} {s : State} {t : State} (h : Inv s) :
    execXor x0 x1 x2 x3 s = .next t → Inv t := by
  unfold execXor
  refine runWord_inv h (fun w k => ?_)
  repeat'
    first
      | with_reducible assumption
      | with_reducible refine W.put1_inv ?_

theorem execAndn_inv {x0} {x1} {x2} {x3} {s : State} {t : State} (h : Inv s) :
    execAndn x0 x1 x2 x3 s = .next t → Inv t := by
  unfold execAndn
  refine runWord_inv h (fun w k => ?_)
  repeat'
    first
      | with_reducible assumption
      | with_reducible refine W.put1_inv ?_

theorem execShl_inv {x0} {x1} {x2} {x3} {s : State} {t : State} (h : Inv s) :
    execShl x0 x1 x2 x3 s = .next t → Inv t := by
  unfold execShl
  refine runWord_inv h (fun w k => ?_)
  repeat'
    first
      | with_reducible assumption
      | with_reducible refine W.put1_inv ?_

theorem execShr_inv {x0} {x1} {x2} {x3} {s : State} {t : State} (h : Inv s) :
    execShr x0 x1 x2 x3 s = .next t → Inv t := by
  unfold execShr
  refine runWord_inv h (fun w k => ?_)
  repeat'
    first
      | with_reducible assumption
      | with_reducible refine W.put1_inv ?_

theorem execSar_inv {x0} {x1} {x2} {x3} {s : State} {t : State} (h : Inv s) :
    execSar x0 x1 x2 x3 s = .next t → Inv t := by
  unfold execSar
  refine runWord_inv h (fun w k => ?_)
  repeat'
    first
      | with_reducible assumption
      | with_reducible refine W.put1_inv ?_

theorem execShl64_inv {x0} {x1} {x2} {x3} {s : State} {t : State} (h : Inv s) :
    execShl64 x0 x1 x2 x3 s = .next t → Inv t := by
  unfold execShl64
  refine runWord_inv h (fun w k => ?_)
  repeat'
    first
      | with_reducible assumption
      | with_reducible refine W.put2_inv ?_

theorem execShr64_inv {x0} {x1} {x2} {x3} {s : State} {t : State} (h : Inv s) :
    execShr64 x0 x1 x2 x3 s = .next t → Inv t := by
  unfold execShr64
  refine runWord_inv h (fun w k => ?_)
  repeat'
    first
      | with_reducible assumption
      | with_reducible refine W.put2_inv ?_

theorem execSar64_inv {x0} {x1} {x2} {x3} {s : State} {t : State} (h : Inv s) :
    execSar64 x0 x1 x2 x3 s = .next t → Inv t := by
  unfold execSar64
  refine runWord_inv h (fun w k => ?_)
  repeat'
    first
      | with_reducible assumption
      | with_reducible refine W.put2_inv ?_

theorem execFshl_inv {x0} {x1} {x2} {x3} {x4} {x5} {s : State} {t : State} (h : Inv s) :
    execFshl x0 x1 x2 x3 x4 x5 s = .next t → Inv t := by
  unfold execFshl
  refine runWord_inv h (fun w k => ?_)
  repeat'
    first
      | with_reducible assumption
      | with_reducible refine W.put1_inv ?_

theorem execFshr_inv {x0} {x1} {x2} {x3} {x4} {x5} {s : State} {t : State} (h : Inv s) :
    execFshr x0 x1 x2 x3 x4 x5 s = .next t → Inv t := by
  unfold execFshr
  refine runWord_inv h (fun w k => ?_)
  repeat'
    first
      | with_reducible assumption
      | with_reducible refine W.put1_inv ?_

theorem execPopc_inv {x0} {x1} {x2} {s : State} {t : State} (h : Inv s) :
    execPopc x0 x1 x2 s = .next t → Inv t := by
  unfold execPopc
  refine runWord_inv h (fun w k => ?_)
  repeat'
    first
      | with_reducible assumption
      | with_reducible refine W.put1_inv ?_

theorem execClz_inv {x0} {x1} {x2} {s : State} {t : State} (h : Inv s) :
    execClz x0 x1 x2 s = .next t → Inv t := by
  unfold execClz
  refine runWord_inv h (fun w k => ?_)
  repeat'
    first
      | with_reducible assumption
      | with_reducible refine W.put1_inv ?_

theorem execCtz_inv {x0} {x1} {x2} {s : State} {t : State} (h : Inv s) :
    execCtz x0 x1 x2 s = .next t → Inv t := by
  unfold execCtz
  refine runWord_inv h (fun w k => ?_)
  repeat'
    first
      | with_reducible assumption
      | with_reducible refine W.put1_inv ?_

theorem execBrev_inv {x0} {x1} {x2} {s : State} {t : State} (h : Inv s) :
    execBrev x0 x1 x2 s = .next t → Inv t := by
  unfold execBrev
  refine runWord_inv h (fun w k => ?_)
  repeat'
    first
      | with_reducible assumption
      | with_reducible refine W.put1_inv ?_

theorem execBfe_inv {x0} {x1} {x2} {x3} {x4} {x5} {s : State} {t : State} (h : Inv s) :
    execBfe x0 x1 x2 x3 x4 x5 s = .next t → Inv t := by
  unfold execBfe
  refine runWord_inv h (fun w k => ?_)
  repeat'
    first
      | with_reducible assumption
      | with_reducible refine W.put1_inv ?_

theorem execBfi_inv {x0} {x1} {x2} {x3} {x4} {s : State} {t : State} (h : Inv s) :
    execBfi x0 x1 x2 x3 x4 s = .next t → Inv t := by
  unfold execBfi
  refine runWord_inv h (fun w k => ?_)
  repeat'
    first
      | with_reducible assumption
      | with_reducible refine W.put1_inv ?_

theorem execSext_inv {x0} {x1} {x2} {x3} {s : State} {t : State} (h : Inv s) :
    execSext x0 x1 x2 x3 s = .next t → Inv t := by
  unfold execSext
  refine runWord_inv h (fun w k => ?_)
  repeat'
    first
      | with_reducible assumption
      | with_reducible refine W.put1_inv ?_

theorem execZext_inv {x0} {x1} {x2} {x3} {s : State} {t : State} (h : Inv s) :
    execZext x0 x1 x2 x3 s = .next t → Inv t := by
  unfold execZext
  refine runWord_inv h (fun w k => ?_)
  repeat'
    first
      | with_reducible assumption
      | with_reducible refine W.put1_inv ?_

theorem execIcmp_inv {x0} {x1} {x2} {x3} {x4} {x5} {s : State} {t : State} (h : Inv s) :
    execIcmp x0 x1 x2 x3 x4 x5 s = .next t → Inv t := by
  unfold execIcmp
  refine runWord_inv h (fun w k => ?_)
  repeat'
    first
      | with_reducible assumption
      | with_reducible refine W.putP_inv ?_

theorem execIcmp64_inv {x0} {x1} {x2} {x3} {x4} {x5} {s : State} {t : State} (h : Inv s) :
    execIcmp64 x0 x1 x2 x3 x4 x5 s = .next t → Inv t := by
  unfold execIcmp64
  refine runWord_inv h (fun w k => ?_)
  repeat'
    first
      | with_reducible assumption
      | with_reducible refine W.putP_inv ?_

theorem execSel_inv {x0} {x1} {x2} {x3} {x4} {x5} {s : State} {t : State} (h : Inv s) :
    execSel x0 x1 x2 x3 x4 x5 s = .next t → Inv t := by
  unfold execSel
  refine runWord_inv h (fun w k => ?_)
  repeat'
    first
      | with_reducible assumption
      | with_reducible refine W.put1_inv ?_

theorem execPlop_inv {x0} {x1} {x2} {x3} {x4} {s : State} {t : State} (h : Inv s) :
    execPlop x0 x1 x2 x3 x4 s = .next t → Inv t := by
  unfold execPlop
  refine runWord_inv h (fun w k => ?_)
  repeat'
    first
      | with_reducible assumption
      | with_reducible refine W.putP_inv ?_

theorem execLea_inv {x0} {x1} {x2} {x3} {x4} {x5} {x6} {s : State} {t : State} (h : Inv s) :
    execLea x0 x1 x2 x3 x4 x5 x6 s = .next t → Inv t := by
  unfold execLea
  refine runWord_inv h (fun w k => ?_)
  repeat'
    first
      | with_reducible assumption
      | with_reducible refine W.put1_inv ?_
      | with_reducible refine W.put2_inv ?_
      | with_reducible refine InvW.s ?_
      | with_reducible refine InvW.s0 ?_
      | with_reducible refine InvW.fx ?_
      | intro _
      | with_reducible refine Inv.getD ?_ ?_
      | with_reducible refine Inv.foldl ?_ ?_
      | with_reducible refine Inv.ite ?_ ?_
      | with_reducible refine InvW.foldl ?_ ?_
      | with_reducible refine InvW.foldl1 ?_ ?_
      | with_reducible refine InvW.ite ?_ ?_
      | split

theorem execMoviFull_inv {x0} {x1} {x2} {s : State} {t : State} (h : Inv s) :
    execMoviFull x0 x1 x2 s = .next t → Inv t := by
  unfold execMoviFull
  refine runWord_inv h (fun w k => ?_)
  repeat'
    first
      | with_reducible assumption
      | with_reducible refine W.put1_inv ?_

theorem execMoviWide_inv {x0} {x1} {x2} {s : State} {t : State} (h : Inv s) :
    execMoviWide x0 x1 x2 s = .next t → Inv t := by
  unfold execMoviWide
  refine runWord_inv h (fun w k => ?_)
  repeat'
    first
      | with_reducible assumption
      | with_reducible refine W.put1_inv ?_

theorem execMovihFull_inv {x0} {x1} {x2} {s : State} {t : State} (h : Inv s) :
    execMovihFull x0 x1 x2 s = .next t → Inv t := by
  unfold execMovihFull
  refine runWord_inv h (fun w k => ?_)
  repeat'
    first
      | with_reducible assumption
      | with_reducible refine W.fix_inv ?_

theorem execMovihWide_inv {x0} {x1} {x2} {s : State} {t : State} (h : Inv s) :
    execMovihWide x0 x1 x2 s = .next t → Inv t := by
  unfold execMovihWide
  refine runWord_inv h (fun w k => ?_)
  repeat'
    first
      | with_reducible assumption
      | with_reducible refine W.fix_inv ?_

theorem execIaddiFull_inv {x0} {x1} {x2} {x3} {s : State} {t : State} (h : Inv s) :
    execIaddiFull x0 x1 x2 x3 s = .next t → Inv t := by
  unfold execIaddiFull
  refine runWord_inv h (fun w k => ?_)
  repeat'
    first
      | with_reducible assumption
      | with_reducible refine W.put1_inv ?_

theorem execIaddiWide_inv {x0} {x1} {x2} {s : State} {t : State} (h : Inv s) :
    execIaddiWide x0 x1 x2 s = .next t → Inv t := by
  unfold execIaddiWide
  refine runWord_inv h (fun w k => ?_)
  repeat'
    first
      | with_reducible assumption
      | with_reducible refine W.put1_inv ?_

theorem execQxch_inv {x0} {x1} {x2} {x3} {s : State} {t : State} (h : Inv s) :
    execQxch x0 x1 x2 x3 s = .next t → Inv t := by
  unfold execQxch
  refine runWordX_inv h (fun w k => ?_)
  repeat'
    first
      | with_reducible assumption
      | with_reducible refine W.put1_inv ?_

theorem execShfl_inv {x0} {x1} {x2} {x3} {x4} {x5} {s : State} {t : State} (h : Inv s) :
    execShfl x0 x1 x2 x3 x4 x5 s = .next t → Inv t := by
  unfold execShfl
  refine runWordX_inv h (fun w k => ?_)
  repeat'
    first
      | with_reducible assumption
      | with_reducible refine W.put1_inv ?_

theorem execVote_inv {x0} {x1} {x2} {x3} {s : State} {t : State} (h : Inv s) :
    execVote x0 x1 x2 x3 s = .next t → Inv t := by
  unfold execVote
  refine runWord_inv h (fun w k => ?_)
  repeat'
    first
      | with_reducible assumption
      | with_reducible refine W.putP_inv ?_

theorem execBallot_inv {x0} {x1} {x2} {s : State} {t : State} (h : Inv s) :
    execBallot x0 x1 x2 s = .next t → Inv t := by
  unfold execBallot
  refine runWord_inv h (fun w k => ?_)
  repeat'
    first
      | with_reducible assumption
      | with_reducible refine W.put1_inv ?_

theorem execMatchw_inv {x0} {x1} {x2} {x3} {s : State} {t : State} (h : Inv s) :
    execMatchw x0 x1 x2 x3 s = .next t → Inv t := by
  unfold execMatchw
  refine runWord_inv h (fun w k => ?_)
  (try dsimp only)
  repeat'
    first
      | with_reducible assumption
      | with_reducible refine W.put1_inv ?_

theorem execElect_inv {x0} {x1} {s : State} {t : State} (h : Inv s) :
    execElect x0 x1 s = .next t → Inv t := by
  unfold execElect
  refine runWord_inv h (fun w k => ?_)
  repeat'
    first
      | with_reducible assumption
      | with_reducible refine W.putP_inv ?_

theorem execReadlane_inv {x0} {x1} {x2} {x3} {s : State} {t : State} (h : Inv s) :
    execReadlane x0 x1 x2 x3 s = .next t → Inv t := by
  unfold execReadlane
  refine runWordX_inv h (fun w k => ?_)
  repeat'
    first
      | with_reducible assumption
      | with_reducible refine W.put1_inv ?_

theorem execWritelane_inv {x0} {x1} {x2} {x3} {s : State} {t : State} (h : Inv s) :
    execWritelane x0 x1 x2 x3 s = .next t → Inv t := by
  unfold execWritelane
  refine runWord_inv h (fun w k => ?_)
  (try dsimp only)
  repeat'
    first
      | with_reducible assumption
      | with_reducible refine W.fix_inv ?_
      | with_reducible refine InvW.s ?_
      | with_reducible refine InvW.s0 ?_
      | with_reducible refine InvW.fx ?_
      | intro _
      | with_reducible refine Inv.getD ?_ ?_
      | with_reducible refine Inv.foldl ?_ ?_
      | with_reducible refine Inv.ite ?_ ?_
      | with_reducible refine InvW.foldl ?_ ?_
      | with_reducible refine InvW.foldl1 ?_ ?_
      | with_reducible refine InvW.ite ?_ ?_

theorem execGred_inv {x0} {x1} {x2} {x3} {s : State} {t : State} (h : Inv s) :
    execGred x0 x1 x2 x3 s = .next t → Inv t := by
  unfold execGred
  refine runWord_inv h (fun w k => ?_)
  repeat'
    first
      | with_reducible assumption
      | with_reducible refine W.put1_inv ?_

theorem execGscan_inv {x0} {x1} {x2} {x3} {x4} {s : State} {t : State} (h : Inv s) :
    execGscan x0 x1 x2 x3 x4 s = .next t → Inv t := by
  unfold execGscan
  refine runWord_inv h (fun w k => ?_)
  repeat'
    first
      | with_reducible assumption
      | with_reducible refine W.put1_inv ?_

theorem execMask_inv {x0} {x1} {x2} {s : State} {t : State} (h : Inv s) :
    execMask x0 x1 x2 s = .next t → Inv t := by
  unfold execMask
  refine runWord_inv h (fun w k => ?_)
  (try dsimp only)
  repeat'
    first
      | with_reducible assumption
      | with_reducible refine W.put1_inv ?_

theorem execPairWord_inv {x0} {x1} {x2} {x3} {s : State} {t : State} (h : Inv s) :
    execPairWord x0 x1 x2 x3 s = .next t → Inv t := by
  unfold execPairWord
  refine runWordX_inv h (fun w k => ?_)
  (try dsimp only)
  repeat'
    first
      | with_reducible assumption
      | with_reducible refine W.fixL_inv ?_

theorem execNop_inv {x0} {s : State} {t : State} (h : Inv s) :
    execNop x0 s = .next t → Inv t := by
  unfold execNop
  refine runWord_inv h (fun w k => ?_)
  repeat'
    first
      | with_reducible assumption

theorem execBraFull_inv {x0} {x1} {s : State} {t : State} (h : Inv s) :
    execBraFull x0 x1 s = .next t → Inv t := by
  unfold execBraFull
  refine runWord_inv h (fun w k => ?_)
  repeat'
    first
      | with_reducible assumption
      | with_reducible refine W.bra_inv ?_

theorem execBraWide_inv {x0} {x1} {s : State} {t : State} (h : Inv s) :
    execBraWide x0 x1 s = .next t → Inv t := by
  unfold execBraWide
  refine runWord_inv h (fun w k => ?_)
  repeat'
    first
      | with_reducible assumption
      | with_reducible refine W.bra_inv ?_

theorem execBrx_inv {x0} {x1} {s : State} {t : State} (h : Inv s) :
    execBrx x0 x1 s = .next t → Inv t := by
  unfold execBrx
  refine runWord_inv h (fun w k => ?_)
  (try dsimp only)
  repeat'
    first
      | with_reducible assumption
      | with_reducible refine W.jump_inv ?_
      | with_reducible refine W.transferDone_inv ?_
      | with_reducible refine W.misTarget_inv ?_
      | with_reducible refine InvW.s ?_
      | with_reducible refine InvW.s0 ?_
      | with_reducible refine InvW.fx ?_
      | intro _
      | with_reducible refine Inv.getD ?_ ?_
      | with_reducible refine Inv.foldl ?_ ?_
      | with_reducible refine Inv.ite ?_ ?_
      | with_reducible refine InvW.foldl ?_ ?_
      | with_reducible refine InvW.foldl1 ?_ ?_
      | with_reducible refine InvW.ite ?_ ?_

theorem execBruFull_inv {x0} {x1} {s : State} {t : State} (h : Inv s) :
    execBruFull x0 x1 s = .next t → Inv t := by
  unfold execBruFull
  refine runWord_inv h (fun w k => ?_)
  repeat'
    first
      | with_reducible assumption
      | with_reducible refine W.bru_inv ?_

theorem execBruWide_inv {x0} {x1} {s : State} {t : State} (h : Inv s) :
    execBruWide x0 x1 s = .next t → Inv t := by
  unfold execBruWide
  refine runWord_inv h (fun w k => ?_)
  repeat'
    first
      | with_reducible assumption
      | with_reducible refine W.bru_inv ?_

theorem execCallFull_inv {x0} {x1} {s : State} {t : State} (h : Inv s) :
    execCallFull x0 x1 s = .next t → Inv t := by
  unfold execCallFull
  refine runWord_inv h (fun w k => ?_)
  repeat'
    first
      | with_reducible assumption
      | with_reducible refine W.call_inv ?_

theorem execCallWide_inv {x0} {x1} {s : State} {t : State} (h : Inv s) :
    execCallWide x0 x1 s = .next t → Inv t := by
  unfold execCallWide
  refine runWord_inv h (fun w k => ?_)
  repeat'
    first
      | with_reducible assumption
      | with_reducible refine W.call_inv ?_

theorem execCallx_inv {x0} {x1} {s : State} {t : State} (h : Inv s) :
    execCallx x0 x1 s = .next t → Inv t := by
  unfold execCallx
  refine runWord_inv h (fun w k => ?_)
  (try dsimp only)
  repeat'
    first
      | with_reducible assumption
      | with_reducible refine W.transferDone_inv ?_
      | with_reducible refine W.callLane_inv ?_
      | with_reducible refine W.misTarget_inv ?_
      | with_reducible refine InvW.s ?_
      | with_reducible refine InvW.s0 ?_
      | with_reducible refine InvW.fx ?_
      | intro _
      | with_reducible refine Inv.getD ?_ ?_
      | with_reducible refine Inv.foldl ?_ ?_
      | with_reducible refine Inv.ite ?_ ?_
      | with_reducible refine InvW.foldl ?_ ?_
      | with_reducible refine InvW.foldl1 ?_ ?_
      | with_reducible refine InvW.ite ?_ ?_

theorem execRet_inv {x0} {s : State} {t : State} (h : Inv s) :
    execRet x0 s = .next t → Inv t := by
  unfold execRet
  refine runWord_inv h (fun w k => ?_)
  repeat'
    first
      | with_reducible assumption
      | with_reducible refine W.transferDone_inv ?_
      | with_reducible refine W.retLane_inv ?_
      | with_reducible refine InvW.s ?_
      | with_reducible refine InvW.s0 ?_
      | with_reducible refine InvW.fx ?_
      | intro _
      | with_reducible refine Inv.getD ?_ ?_
      | with_reducible refine Inv.foldl ?_ ?_
      | with_reducible refine Inv.ite ?_ ?_
      | with_reducible refine InvW.foldl ?_ ?_

theorem execExit_inv {x0} {s : State} {t : State} (h : Inv s) :
    execExit x0 s = .next t → Inv t := by
  unfold execExit
  refine runWord_inv h (fun w k => ?_)
  (try dsimp only)
  repeat'
    first
      | with_reducible assumption
      | with_reducible refine W.jump_inv ?_
      | with_reducible refine InvW.s ?_
      | with_reducible refine InvW.s0 ?_
      | with_reducible refine InvW.fx ?_
      | intro _
      | with_reducible refine Inv.getD ?_ ?_
      | with_reducible refine Inv.foldl ?_ ?_
      | with_reducible refine Inv.ite ?_ ?_
      | with_reducible refine InvW.foldl ?_ ?_
      | with_reducible refine InvW.foldl1 ?_ ?_
      | with_reducible refine InvW.ite ?_ ?_
      | split
      | with_reducible refine Inv.snd (by assumption) ?_
      | with_reducible refine InvW.snd (by assumption) ?_
      | with_reducible refine InvW.fst (by assumption) ?_
      | with_reducible refine InvW.make ?_ ?_ ?_

theorem execYield_inv {x0} {x1} {s : State} {t : State} (h : Inv s) :
    execYield x0 x1 s = .next t → Inv t := by
  unfold execYield
  refine runWord_inv h (fun w k => ?_)
  repeat'
    first
      | with_reducible assumption
      | with_reducible refine InvW.s ?_
      | with_reducible refine InvW.s0 ?_
      | with_reducible refine InvW.fx ?_
      | intro _
      | with_reducible refine Inv.getD ?_ ?_
      | with_reducible refine Inv.foldl ?_ ?_
      | with_reducible refine Inv.ite ?_ ?_
      | with_reducible refine InvW.foldl ?_ ?_
      | with_reducible refine InvW.foldl1 ?_ ?_
      | with_reducible refine InvW.ite ?_ ?_
      | split
      | with_reducible refine Inv.snd (by assumption) ?_
      | with_reducible refine InvW.snd (by assumption) ?_
      | with_reducible refine InvW.fst (by assumption) ?_
      | with_reducible refine InvW.make ?_ ?_ ?_

theorem execRdvpc_inv {x0} {x1} {x2} {s : State} {t : State} (h : Inv s) :
    execRdvpc x0 x1 x2 s = .next t → Inv t := by
  unfold execRdvpc
  refine runWord_inv h (fun w k => ?_)
  repeat'
    first
      | with_reducible assumption
      | with_reducible refine W.put2_inv ?_

theorem execWrvpc_inv {x0} {x1} {x2} {s : State} {t : State} (h : Inv s) :
    execWrvpc x0 x1 x2 s = .next t → Inv t := by
  unfold execWrvpc
  refine runWord_inv h (fun w k => ?_)
  (try dsimp only)
  repeat'
    first
      | with_reducible assumption
      | with_reducible refine W.mod_inv ?_

theorem execSleepc_inv {x0} {x1} {s : State} {t : State} (h : Inv s) :
    execSleepc x0 x1 s = .next t → Inv t := by
  unfold execSleepc
  refine runWord_inv h (fun w k => ?_)
  (try dsimp only)
  repeat'
    first
      | with_reducible assumption
      | with_reducible refine W.wait_inv ?_
      | with_reducible refine InvW.s ?_
      | with_reducible refine InvW.s0 ?_
      | with_reducible refine InvW.fx ?_
      | intro _
      | with_reducible refine Inv.getD ?_ ?_
      | with_reducible refine Inv.foldl ?_ ?_
      | with_reducible refine Inv.ite ?_ ?_
      | with_reducible refine InvW.foldl ?_ ?_
      | with_reducible refine InvW.foldl1 ?_ ?_
      | with_reducible refine InvW.ite ?_ ?_

theorem execTrap_inv {x0} {x1} {s : State} {t : State} (h : Inv s) :
    execTrap x0 x1 s = .next t → Inv t := by
  unfold execTrap
  refine runWord_inv h (fun w k => ?_)
  repeat'
    first
      | with_reducible assumption
      | with_reducible refine W.trapWord_inv ?_

theorem execBkpt_inv {x0} {x1} {s : State} {t : State} (h : Inv s) :
    execBkpt x0 x1 s = .next t → Inv t := by
  unfold execBkpt
  refine runWord_inv h (fun w k => ?_)
  repeat'
    first
      | with_reducible assumption
      | with_reducible refine W.trapWord_inv ?_

theorem execHret_inv {x0} {s : State} {t : State} (h : Inv s) :
    execHret x0 s = .next t → Inv t := by
  unfold execHret
  refine runWord_inv h (fun w k => ?_)
  (try dsimp only)
  repeat'
    first
      | with_reducible assumption
      | with_reducible refine State.spill_inv ?_
      | with_reducible refine W.mod_inv ?_
      | with_reducible refine W.jump_inv ?_
      | with_reducible refine InvW.s ?_
      | with_reducible refine InvW.s0 ?_
      | with_reducible refine InvW.fx ?_
      | intro _
      | with_reducible refine Inv.getD ?_ ?_
      | with_reducible refine Inv.foldl ?_ ?_
      | with_reducible refine Inv.ite ?_ ?_
      | with_reducible refine InvW.foldl ?_ ?_
      | with_reducible refine InvW.foldl1 ?_ ?_
      | with_reducible refine InvW.ite ?_ ?_
      | split
      | with_reducible refine Inv.snd (by assumption) ?_
      | with_reducible refine InvW.snd (by assumption) ?_
      | with_reducible refine InvW.fst (by assumption) ?_
      | with_reducible refine InvW.make ?_ ?_ ?_

theorem execPush_inv {x0} {x1} {x2} {s : State} {t : State} (h : Inv s) :
    execPush x0 x1 x2 s = .next t → Inv t := by
  unfold execPush
  refine runWord_inv h (fun w k => ?_)
  (try dsimp only)
  repeat'
    first
      | with_reducible assumption
      | with_reducible refine W.pushBytes_inv ?_
      | with_reducible refine W.stackOver_inv ?_
      | with_reducible refine InvW.s ?_
      | with_reducible refine InvW.s0 ?_
      | with_reducible refine InvW.fx ?_
      | intro _
      | with_reducible refine Inv.getD ?_ ?_
      | with_reducible refine Inv.foldl ?_ ?_
      | with_reducible refine Inv.ite ?_ ?_
      | with_reducible refine InvW.foldl ?_ ?_
      | with_reducible refine InvW.foldl1 ?_ ?_
      | with_reducible refine InvW.ite ?_ ?_

theorem execPop_inv {x0} {x1} {x2} {s : State} {t : State} (h : Inv s) :
    execPop x0 x1 x2 s = .next t → Inv t := by
  unfold execPop
  refine runWord_inv h (fun w k => ?_)
  (try dsimp only)
  repeat'
    first
      | with_reducible assumption
      | with_reducible refine State.freeDue_inv ?_
      | with_reducible refine W.var_inv ?_
      | with_reducible refine W.popLane_inv ?_ ?_
      | with_reducible refine InvW.s ?_
      | with_reducible refine InvW.s0 ?_
      | with_reducible refine InvW.fx ?_
      | intro _
      | with_reducible refine Inv.getD ?_ ?_
      | with_reducible refine Inv.foldl ?_ ?_
      | with_reducible refine Inv.ite ?_ ?_
      | with_reducible refine InvW.foldl ?_ ?_
      | with_reducible refine InvW.foldl1 ?_ ?_
      | with_reducible refine InvW.ite ?_ ?_
      | split
      | with_reducible refine Inv.snd (by assumption) ?_
      | with_reducible refine InvW.snd (by assumption) ?_
      | with_reducible refine InvW.fst (by assumption) ?_
      | with_reducible refine InvW.make ?_ ?_ ?_

theorem execSalloc_inv {x0} {x1} {x2} {s : State} {t : State} (h : Inv s) :
    execSalloc x0 x1 x2 s = .next t → Inv t := by
  unfold execSalloc
  refine runWord_inv h (fun w k => ?_)
  (try dsimp only)
  repeat'
    first
      | with_reducible assumption
      | with_reducible refine W.fix_inv ?_
      | with_reducible refine W.sallocLane_inv ?_ ?_
      | with_reducible refine InvW.s ?_
      | with_reducible refine InvW.s0 ?_
      | with_reducible refine InvW.fx ?_
      | intro _
      | with_reducible refine Inv.getD ?_ ?_
      | with_reducible refine Inv.foldl ?_ ?_
      | with_reducible refine Inv.ite ?_ ?_
      | with_reducible refine InvW.foldl ?_ ?_
      | with_reducible refine InvW.foldl1 ?_ ?_

theorem execSfree_inv {x0} {x1} {s : State} {t : State} (h : Inv s) :
    execSfree x0 x1 s = .next t → Inv t := by
  unfold execSfree
  refine runWord_inv h (fun w k => ?_)
  (try dsimp only)
  repeat'
    first
      | with_reducible assumption
      | with_reducible refine W.setLsp_inv ?_
      | with_reducible refine W.stackOver_inv ?_
      | with_reducible refine InvW.s ?_
      | with_reducible refine InvW.s0 ?_
      | with_reducible refine InvW.fx ?_
      | intro _
      | with_reducible refine Inv.getD ?_ ?_
      | with_reducible refine Inv.foldl ?_ ?_
      | with_reducible refine Inv.ite ?_ ?_
      | with_reducible refine InvW.foldl ?_ ?_
      | with_reducible refine InvW.foldl1 ?_ ?_
      | with_reducible refine InvW.ite ?_ ?_

theorem execFadd_inv {x0} {x1} {x2} {x3} {x4} {x5} {s : State} {t : State} (h : Inv s) :
    execFadd x0 x1 x2 x3 x4 x5 s = .next t → Inv t := by
  unfold execFadd
  refine runWord_inv h (fun w k => ?_)
  repeat'
    first
      | with_reducible assumption
      | with_reducible refine W.putF_inv ?_

theorem execFsub_inv {x0} {x1} {x2} {x3} {x4} {x5} {s : State} {t : State} (h : Inv s) :
    execFsub x0 x1 x2 x3 x4 x5 s = .next t → Inv t := by
  unfold execFsub
  refine runWord_inv h (fun w k => ?_)
  repeat'
    first
      | with_reducible assumption
      | with_reducible refine W.putF_inv ?_

theorem execFmul_inv {x0} {x1} {x2} {x3} {x4} {x5} {s : State} {t : State} (h : Inv s) :
    execFmul x0 x1 x2 x3 x4 x5 s = .next t → Inv t := by
  unfold execFmul
  refine runWord_inv h (fun w k => ?_)
  repeat'
    first
      | with_reducible assumption
      | with_reducible refine W.putF_inv ?_

theorem execFfma_inv {x0} {x1} {x2} {x3} {x4} {x5} {x6} {x7} {s : State} {t : State} (h : Inv s) :
    execFfma x0 x1 x2 x3 x4 x5 x6 x7 s = .next t → Inv t := by
  unfold execFfma
  refine runWord_inv h (fun w k => ?_)
  repeat'
    first
      | with_reducible assumption
      | with_reducible refine W.putF_inv ?_

theorem execFfma2_inv {x0} {x1} {x2} {x3} {x4} {x5} {x6} {x7} {s : State} {t : State} (h : Inv s) :
    execFfma2 x0 x1 x2 x3 x4 x5 x6 x7 s = .next t → Inv t := by
  unfold execFfma2
  refine runWord_inv h (fun w k => ?_)
  repeat'
    first
      | with_reducible assumption
      | with_reducible refine W.fix_inv ?_

theorem execFmin_inv {x0} {x1} {x2} {x3} {x4} {x5} {s : State} {t : State} (h : Inv s) :
    execFmin x0 x1 x2 x3 x4 x5 s = .next t → Inv t := by
  unfold execFmin
  refine runWord_inv h (fun w k => ?_)
  repeat'
    first
      | with_reducible assumption
      | with_reducible refine W.putF_inv ?_

theorem execFmax_inv {x0} {x1} {x2} {x3} {x4} {x5} {s : State} {t : State} (h : Inv s) :
    execFmax x0 x1 x2 x3 x4 x5 s = .next t → Inv t := by
  unfold execFmax
  refine runWord_inv h (fun w k => ?_)
  repeat'
    first
      | with_reducible assumption
      | with_reducible refine W.putF_inv ?_

theorem execFcmp_inv {x0} {x1} {x2} {x3} {x4} {x5} {s : State} {t : State} (h : Inv s) :
    execFcmp x0 x1 x2 x3 x4 x5 s = .next t → Inv t := by
  unfold execFcmp
  refine runWord_inv h (fun w k => ?_)
  repeat'
    first
      | with_reducible assumption
      | with_reducible refine W.putP_inv ?_

theorem execHadd2_inv {x0} {x1} {x2} {x3} {s : State} {t : State} (h : Inv s) :
    execHadd2 x0 x1 x2 x3 s = .next t → Inv t := by
  unfold execHadd2
  refine runWord_inv h (fun w k => ?_)
  repeat'
    first
      | with_reducible assumption
      | with_reducible refine W.packed_inv ?_

theorem execHmul2_inv {x0} {x1} {x2} {x3} {s : State} {t : State} (h : Inv s) :
    execHmul2 x0 x1 x2 x3 s = .next t → Inv t := by
  unfold execHmul2
  refine runWord_inv h (fun w k => ?_)
  repeat'
    first
      | with_reducible assumption
      | with_reducible refine W.packed_inv ?_

theorem execHfma2_inv {x0} {x1} {x2} {x3} {x4} {s : State} {t : State} (h : Inv s) :
    execHfma2 x0 x1 x2 x3 x4 s = .next t → Inv t := by
  unfold execHfma2
  refine runWord_inv h (fun w k => ?_)
  repeat'
    first
      | with_reducible assumption
      | with_reducible refine W.packed_inv ?_

theorem execBadd2_inv {x0} {x1} {x2} {x3} {s : State} {t : State} (h : Inv s) :
    execBadd2 x0 x1 x2 x3 s = .next t → Inv t := by
  unfold execBadd2
  refine runWord_inv h (fun w k => ?_)
  repeat'
    first
      | with_reducible assumption
      | with_reducible refine W.packed_inv ?_

theorem execBmul2_inv {x0} {x1} {x2} {x3} {s : State} {t : State} (h : Inv s) :
    execBmul2 x0 x1 x2 x3 s = .next t → Inv t := by
  unfold execBmul2
  refine runWord_inv h (fun w k => ?_)
  repeat'
    first
      | with_reducible assumption
      | with_reducible refine W.packed_inv ?_

theorem execBfma2_inv {x0} {x1} {x2} {x3} {x4} {s : State} {t : State} (h : Inv s) :
    execBfma2 x0 x1 x2 x3 x4 s = .next t → Inv t := by
  unfold execBfma2
  refine runWord_inv h (fun w k => ?_)
  repeat'
    first
      | with_reducible assumption
      | with_reducible refine W.packed_inv ?_

theorem execFrcp_inv {x0} {x1} {x2} {x3} {s : State} {t : State} (h : Inv s) :
    execFrcp x0 x1 x2 x3 s = .next t → Inv t := by
  unfold execFrcp
  refine runWord_inv h (fun w k => ?_)
  repeat'
    first
      | with_reducible assumption
      | with_reducible refine W.putF_inv ?_

theorem execFrsq_inv {x0} {x1} {x2} {x3} {s : State} {t : State} (h : Inv s) :
    execFrsq x0 x1 x2 x3 s = .next t → Inv t := by
  unfold execFrsq
  refine runWord_inv h (fun w k => ?_)
  repeat'
    first
      | with_reducible assumption
      | with_reducible refine W.putF_inv ?_

theorem execFsqrt_inv {x0} {x1} {x2} {x3} {s : State} {t : State} (h : Inv s) :
    execFsqrt x0 x1 x2 x3 s = .next t → Inv t := by
  unfold execFsqrt
  refine runWord_inv h (fun w k => ?_)
  repeat'
    first
      | with_reducible assumption
      | with_reducible refine W.putF_inv ?_

theorem execFex2_inv {x0} {x1} {x2} {x3} {s : State} {t : State} (h : Inv s) :
    execFex2 x0 x1 x2 x3 s = .next t → Inv t := by
  unfold execFex2
  refine runWord_inv h (fun w k => ?_)
  repeat'
    first
      | with_reducible assumption
      | with_reducible refine W.putF_inv ?_

theorem execFlg2_inv {x0} {x1} {x2} {x3} {s : State} {t : State} (h : Inv s) :
    execFlg2 x0 x1 x2 x3 s = .next t → Inv t := by
  unfold execFlg2
  refine runWord_inv h (fun w k => ?_)
  repeat'
    first
      | with_reducible assumption
      | with_reducible refine W.putF_inv ?_

theorem execFsin_inv {x0} {x1} {x2} {x3} {s : State} {t : State} (h : Inv s) :
    execFsin x0 x1 x2 x3 s = .next t → Inv t := by
  unfold execFsin
  refine runWord_inv h (fun w k => ?_)
  repeat'
    first
      | with_reducible assumption
      | with_reducible refine W.putF_inv ?_

theorem execFcos_inv {x0} {x1} {x2} {x3} {s : State} {t : State} (h : Inv s) :
    execFcos x0 x1 x2 x3 s = .next t → Inv t := by
  unfold execFcos
  refine runWord_inv h (fun w k => ?_)
  repeat'
    first
      | with_reducible assumption
      | with_reducible refine W.putF_inv ?_

theorem execFtanh_inv {x0} {x1} {x2} {x3} {s : State} {t : State} (h : Inv s) :
    execFtanh x0 x1 x2 x3 s = .next t → Inv t := by
  unfold execFtanh
  refine runWord_inv h (fun w k => ?_)
  repeat'
    first
      | with_reducible assumption
      | with_reducible refine W.putF_inv ?_

theorem execFdiv_inv {x0} {x1} {x2} {x3} {x4} {s : State} {t : State} (h : Inv s) :
    execFdiv x0 x1 x2 x3 x4 s = .next t → Inv t := by
  unfold execFdiv
  refine runWord_inv h (fun w k => ?_)
  (try dsimp only)
  repeat'
    first
      | with_reducible assumption
      | with_reducible refine W.var_inv ?_
      | with_reducible refine W.freeIn_inv ?_

theorem execCvt_inv {x0} {x1} {x2} {x3} {x4} {x5} {x6} {s : State} {t : State} (h : Inv s) :
    execCvt x0 x1 x2 x3 x4 x5 x6 s = .next t → Inv t := by
  unfold execCvt
  refine runWord_inv h (fun w k => ?_)
  (try dsimp only)
  repeat'
    first
      | with_reducible assumption
      | with_reducible refine W.put2_inv ?_
      | with_reducible refine W.putF_inv ?_
      | with_reducible refine InvW.s ?_
      | with_reducible refine InvW.s0 ?_
      | with_reducible refine InvW.fx ?_
      | intro _
      | with_reducible refine Inv.getD ?_ ?_
      | with_reducible refine Inv.foldl ?_ ?_
      | with_reducible refine Inv.ite ?_ ?_
      | with_reducible refine InvW.foldl ?_ ?_
      | with_reducible refine InvW.foldl1 ?_ ?_
      | with_reducible refine InvW.ite ?_ ?_
      | split

theorem execCvtp_inv {x0} {x1} {x2} {x3} {x4} {x5} {x6} {s : State} {t : State} (h : Inv s) :
    execCvtp x0 x1 x2 x3 x4 x5 x6 s = .next t → Inv t := by
  unfold execCvtp
  refine runWord_inv h (fun w k => ?_)
  (try dsimp only)
  repeat'
    first
      | with_reducible assumption
      | with_reducible refine W.putF_inv ?_
      | with_reducible refine InvW.s ?_
      | with_reducible refine InvW.s0 ?_
      | with_reducible refine InvW.fx ?_
      | intro _
      | with_reducible refine Inv.getD ?_ ?_
      | with_reducible refine Inv.foldl ?_ ?_
      | with_reducible refine Inv.ite ?_ ?_
      | with_reducible refine InvW.foldl ?_ ?_
      | with_reducible refine InvW.foldl1 ?_ ?_
      | with_reducible refine InvW.ite ?_ ?_
      | split

theorem execUnpk_inv {x0} {x1} {x2} {x3} {s : State} {t : State} (h : Inv s) :
    execUnpk x0 x1 x2 x3 s = .next t → Inv t := by
  unfold execUnpk
  refine runWord_inv h (fun w k => ?_)
  (try dsimp only)
  repeat'
    first
      | with_reducible assumption
      | with_reducible refine W.fix_inv ?_

theorem execQblk_inv {x0} {x1} {x2} {x3} {s : State} {t : State} (h : Inv s) :
    execQblk x0 x1 x2 x3 s = .next t → Inv t := by
  unfold execQblk
  refine runWord_inv h (fun w k => ?_)
  (try dsimp only)
  repeat'
    first
      | with_reducible assumption
      | with_reducible refine W.var_inv ?_

theorem execMxq_inv {x0} {x1} {x2} {x3} {x4} {s : State} {t : State} (h : Inv s) :
    execMxq x0 x1 x2 x3 x4 s = .next t → Inv t := by
  unfold execMxq
  refine runWord_inv h (fun w k => ?_)
  (try dsimp only)
  repeat'
    first
      | with_reducible assumption
      | with_reducible refine W.fix_inv ?_

theorem execFred_inv {x0} {x1} {x2} {x3} {x4} {s : State} {t : State} (h : Inv s) :
    execFred x0 x1 x2 x3 x4 s = .next t → Inv t := by
  unfold execFred
  refine runWord_inv h (fun w k => ?_)
  (try dsimp only)
  repeat'
    first
      | with_reducible assumption
      | with_reducible refine W.putF_inv ?_

theorem execCmulh2_inv {x0} {x1} {x2} {x3} {x4} {s : State} {t : State} (h : Inv s) :
    execCmulh2 x0 x1 x2 x3 x4 s = .next t → Inv t := by
  unfold execCmulh2
  refine runWord_inv h (fun w k => ?_)
  (try dsimp only)
  repeat'
    first
      | with_reducible assumption
      | with_reducible refine W.put1_inv ?_

theorem execCfmah2_inv {x0} {x1} {x2} {x3} {x4} {x5} {s : State} {t : State} (h : Inv s) :
    execCfmah2 x0 x1 x2 x3 x4 x5 s = .next t → Inv t := by
  unfold execCfmah2
  refine runWord_inv h (fun w k => ?_)
  (try dsimp only)
  repeat'
    first
      | with_reducible assumption
      | with_reducible refine W.put1_inv ?_

theorem execLd_inv {x0} {x1} {x2} {x3} {x4} {s : State} {t : State} (h : Inv s) :
    execLd x0 x1 x2 x3 x4 s = .next t → Inv t := by
  unfold execLd
  refine runWord_inv h (fun w k => ?_)
  repeat'
    first
      | with_reducible assumption
      | with_reducible refine W.load_inv ?_

theorem execSt_inv {x0} {x1} {x2} {x3} {x4} {s : State} {t : State} (h : Inv s) :
    execSt x0 x1 x2 x3 x4 s = .next t → Inv t := by
  unfold execSt
  refine runWord_inv h (fun w k => ?_)
  repeat'
    first
      | with_reducible assumption
      | with_reducible refine W.store_inv ?_

theorem execLdu_inv {x0} {x1} {x2} {x3} {x4} {s : State} {t : State} (h : Inv s) :
    execLdu x0 x1 x2 x3 x4 s = .next t → Inv t := by
  unfold execLdu
  refine runWord_inv h (fun w k => ?_)
  repeat'
    first
      | with_reducible assumption
      | with_reducible refine W.load_inv ?_

theorem execStu_inv {x0} {x1} {x2} {x3} {x4} {s : State} {t : State} (h : Inv s) :
    execStu x0 x1 x2 x3 x4 s = .next t → Inv t := by
  unfold execStu
  refine runWord_inv h (fun w k => ?_)
  repeat'
    first
      | with_reducible assumption
      | with_reducible refine W.store_inv ?_

theorem execTouch_inv {x0} {x1} {x2} {x3} {s : State} {t : State} (h : Inv s) :
    execTouch x0 x1 x2 x3 s = .next t → Inv t := by
  unfold execTouch
  refine runWord_inv h (fun w k => ?_)
  repeat'
    first
      | with_reducible assumption
      | with_reducible refine W.touch_inv ?_

theorem execPref_inv {x0} {x1} {x2} {x3} {s : State} {t : State} (h : Inv s) :
    execPref x0 x1 x2 x3 s = .next t → Inv t := by
  unfold execPref
  refine runWord_inv h (fun w k => ?_)
  repeat'
    first
      | with_reducible assumption
      | with_reducible refine W.pref_inv ?_

theorem execFlush_inv {x0} {x1} {x2} {x3} {s : State} {t : State} (h : Inv s) :
    execFlush x0 x1 x2 x3 s = .next t → Inv t := by
  unfold execFlush
  refine runWord_inv h (fun w k => ?_)
  repeat'
    first
      | with_reducible assumption
      | with_reducible refine W.maintain_inv ?_ ?_
      | with_reducible refine flushLine_inv ?_
      | with_reducible refine InvW.s ?_
      | with_reducible refine InvW.s0 ?_
      | with_reducible refine InvW.fx ?_
      | intro _

theorem execInv_inv {x0} {x1} {x2} {x3} {s : State} {t : State} (h : Inv s) :
    execInv x0 x1 x2 x3 s = .next t → Inv t := by
  unfold execInv
  refine runWord_inv h (fun w k => ?_)
  repeat'
    first
      | with_reducible assumption
      | with_reducible refine W.maintain_inv ?_ ?_
      | with_reducible refine invLine_inv ?_
      | with_reducible refine InvW.s ?_
      | with_reducible refine InvW.s0 ?_
      | with_reducible refine InvW.fx ?_
      | intro _

theorem execVprobe_inv {x0} {x1} {x2} {x3} {s : State} {t : State} (h : Inv s) :
    execVprobe x0 x1 x2 x3 s = .next t → Inv t := by
  unfold execVprobe
  refine runWord_inv h (fun w k => ?_)
  (try dsimp only)
  repeat'
    first
      | with_reducible assumption
      | with_reducible refine State.probes_inv ?_
      | with_reducible refine W.varFree_inv ?_
      | with_reducible refine InvW.s ?_
      | with_reducible refine InvW.s0 ?_
      | with_reducible refine InvW.fx ?_
      | intro _
      | with_reducible refine Inv.getD ?_ ?_
      | with_reducible refine Inv.foldl ?_ ?_
      | with_reducible refine Inv.ite ?_ ?_
      | with_reducible refine InvW.foldl ?_ ?_
      | with_reducible refine InvW.foldl1 ?_ ?_
      | with_reducible refine InvW.ite ?_ ?_
      | split
      | with_reducible refine Inv.snd (by assumption) ?_
      | with_reducible refine InvW.snd (by assumption) ?_
      | with_reducible refine InvW.fst (by assumption) ?_
      | with_reducible refine InvW.make ?_ ?_ ?_

theorem execAtom_inv {x0} {x1} {x2} {x3} {x4} {x5} {s : State} {t : State} (h : Inv s) :
    execAtom x0 x1 x2 x3 x4 x5 s = .next t → Inv t := by
  unfold execAtom
  refine runWord_inv h (fun w k => ?_)
  repeat'
    first
      | with_reducible assumption
      | with_reducible refine W.atomic_inv ?_

theorem execCas_inv {x0} {x1} {x2} {x3} {x4} {s : State} {t : State} (h : Inv s) :
    execCas x0 x1 x2 x3 x4 s = .next t → Inv t := by
  unfold execCas
  refine runWord_inv h (fun w k => ?_)
  repeat'
    first
      | with_reducible assumption
      | with_reducible refine W.atomic_inv ?_

theorem execCasar_inv {x0} {x1} {x2} {x3} {x4} {x5} {s : State} {t : State} (h : Inv s) :
    execCasar x0 x1 x2 x3 x4 x5 s = .next t → Inv t := by
  unfold execCasar
  refine runWord_inv h (fun w k => ?_)
  repeat'
    first
      | with_reducible assumption
      | with_reducible refine W.atomic_inv ?_

theorem execRed_inv {x0} {x1} {x2} {x3} {x4} {s : State} {t : State} (h : Inv s) :
    execRed x0 x1 x2 x3 x4 s = .next t → Inv t := by
  unfold execRed
  refine runWord_inv h (fun w k => ?_)
  repeat'
    first
      | with_reducible assumption
      | with_reducible refine W.atomic_inv ?_

theorem execFatom_inv {x0} {x1} {x2} {x3} {x4} {x5} {s : State} {t : State} (h : Inv s) :
    execFatom x0 x1 x2 x3 x4 x5 s = .next t → Inv t := by
  unfold execFatom
  refine runWord_inv h (fun w k => ?_)
  repeat'
    first
      | with_reducible assumption
      | with_reducible refine W.atomic_inv ?_

theorem execFredm_inv {x0} {x1} {x2} {x3} {x4} {s : State} {t : State} (h : Inv s) :
    execFredm x0 x1 x2 x3 x4 s = .next t → Inv t := by
  unfold execFredm
  refine runWord_inv h (fun w k => ?_)
  repeat'
    first
      | with_reducible assumption
      | with_reducible refine W.atomic_inv ?_

theorem execFence_inv {x0} {x1} {x2} {s : State} {t : State} (h : Inv s) :
    execFence x0 x1 x2 s = .next t → Inv t := by
  unfold execFence
  refine runWord_inv h (fun w k => ?_)
  repeat'
    first
      | with_reducible assumption
      | with_reducible refine W.fence_inv ?_

theorem execFencex_inv {x0} {x1} {s : State} {t : State} (h : Inv s) :
    execFencex x0 x1 s = .next t → Inv t := by
  unfold execFencex
  refine runWord_inv h (fun w k => ?_)
  repeat'
    first
      | with_reducible assumption
      | with_reducible refine W.fencex_inv ?_

theorem execBara_inv {x0} {x1} {x2} {s : State} {t : State} (h : Inv s) :
    execBara x0 x1 x2 s = .next t → Inv t := by
  unfold execBara
  refine runWord_inv h (fun w k => ?_)
  repeat'
    first
      | with_reducible assumption
      | with_reducible refine W.barArrive_inv ?_

theorem execBarw_inv {x0} {x1} {x2} {s : State} {t : State} (h : Inv s) :
    execBarw x0 x1 x2 s = .next t → Inv t := by
  unfold execBarw
  refine runWord_inv h (fun w k => ?_)
  repeat'
    first
      | with_reducible assumption
      | with_reducible refine W.barWait_inv ?_

theorem execBars_inv {x0} {x1} {s : State} {t : State} (h : Inv s) :
    execBars x0 x1 s = .next t → Inv t := by
  unfold execBars
  refine runWord_inv h (fun w k => ?_)
  repeat'
    first
      | with_reducible assumption
      | with_reducible refine W.barSync_inv ?_

theorem execCbara_inv {x0} {x1} {x2} {s : State} {t : State} (h : Inv s) :
    execCbara x0 x1 x2 s = .next t → Inv t := by
  unfold execCbara
  refine runWord_inv h (fun w k => ?_)
  repeat'
    first
      | with_reducible assumption
      | with_reducible refine W.barArrive_inv ?_

theorem execCbarw_inv {x0} {x1} {x2} {s : State} {t : State} (h : Inv s) :
    execCbarw x0 x1 x2 s = .next t → Inv t := by
  unfold execCbarw
  refine runWord_inv h (fun w k => ?_)
  repeat'
    first
      | with_reducible assumption
      | with_reducible refine W.barWait_inv ?_

theorem execCbars_inv {x0} {x1} {s : State} {t : State} (h : Inv s) :
    execCbars x0 x1 s = .next t → Inv t := by
  unfold execCbars
  refine runWord_inv h (fun w k => ?_)
  repeat'
    first
      | with_reducible assumption
      | with_reducible refine W.barSync_inv ?_

theorem execBarx_inv {x0} {x1} {x2} {s : State} {t : State} (h : Inv s) :
    execBarx x0 x1 x2 s = .next t → Inv t := by
  unfold execBarx
  refine runWord_inv h (fun w k => ?_)
  repeat'
    first
      | with_reducible assumption
      | with_reducible refine W.barDrop_inv ?_

theorem execWatch_inv {x0} {x1} {x2} {x3} {x4} {s : State} {t : State} (h : Inv s) :
    execWatch x0 x1 x2 x3 x4 s = .next t → Inv t := by
  unfold execWatch
  refine runWord_inv h (fun w k => ?_)
  repeat'
    first
      | with_reducible assumption
      | with_reducible refine W.watch_inv ?_

theorem execWatcht_inv {x0} {x1} {x2} {x3} {x4} {x5} {s : State} {t : State} (h : Inv s) :
    execWatcht x0 x1 x2 x3 x4 x5 s = .next t → Inv t := by
  unfold execWatcht
  refine runWord_inv h (fun w k => ?_)
  repeat'
    first
      | with_reducible assumption
      | with_reducible refine W.watch_inv ?_

theorem execWatchh_inv {x0} {x1} {x2} {x3} {x4} {x5} {s : State} {t : State} (h : Inv s) :
    execWatchh x0 x1 x2 x3 x4 x5 s = .next t → Inv t := by
  unfold execWatchh
  refine runWord_inv h (fun w k => ?_)
  repeat'
    first
      | with_reducible assumption
      | with_reducible refine W.watchRecord_inv ?_

theorem execTalloc_inv {x0} {x1} {x2} {x3} {s : State} {t : State} (h : Inv s) :
    execTalloc x0 x1 x2 x3 s = .next t → Inv t := by
  unfold execTalloc
  refine runWord_inv h (fun w k => ?_)
  repeat'
    first
      | with_reducible assumption
      | with_reducible refine W.talloc_inv ?_

theorem execTfree_inv {x0} {x1} {s : State} {t : State} (h : Inv s) :
    execTfree x0 x1 s = .next t → Inv t := by
  unfold execTfree
  refine runWord_inv h (fun w k => ?_)
  repeat'
    first
      | with_reducible assumption
      | with_reducible refine W.tfree_inv ?_

theorem execTstate_inv {x0} {x1} {x2} {x3} {s : State} {t : State} (h : Inv s) :
    execTstate x0 x1 x2 x3 s = .next t → Inv t := by
  unfold execTstate
  refine runWord_inv h (fun w k => ?_)
  repeat'
    first
      | with_reducible assumption
      | with_reducible refine W.tstate_inv ?_

theorem execTwait_inv {x0} {x1} {x2} {x3} {s : State} {t : State} (h : Inv s) :
    execTwait x0 x1 x2 x3 s = .next t → Inv t := by
  unfold execTwait
  refine runWord_inv h (fun w k => ?_)
  repeat'
    first
      | with_reducible assumption
      | with_reducible refine W.twait_inv ?_

theorem execTtest_inv {x0} {x1} {x2} {x3} {x4} {s : State} {t : State} (h : Inv s) :
    execTtest x0 x1 x2 x3 x4 s = .next t → Inv t := by
  unfold execTtest
  refine runWord_inv h (fun w k => ?_)
  repeat'
    first
      | with_reducible assumption
      | with_reducible refine W.ttest_inv ?_

theorem execTexpect_inv {x0} {x1} {x2} {s : State} {t : State} (h : Inv s) :
    execTexpect x0 x1 x2 s = .next t → Inv t := by
  unfold execTexpect
  refine runWord_inv h (fun w k => ?_)
  repeat'
    first
      | with_reducible assumption
      | with_reducible refine W.texpect_inv ?_

theorem execTdrain_inv {x0} {x1} {s : State} {t : State} (h : Inv s) :
    execTdrain x0 x1 s = .next t → Inv t := by
  unfold execTdrain
  refine runWord_inv h (fun w k => ?_)
  repeat'
    first
      | with_reducible assumption
      | with_reducible refine W.tdrain_inv ?_

theorem execXload_inv {x0} {x1} {x2} {x3} {x4} {x5} {x6} {x7} {s : State} {t : State} (h : Inv s) :
    execXload x0 x1 x2 x3 x4 x5 x6 x7 s = .next t → Inv t := by
  unfold execXload
  refine runWord_inv h (fun w k => ?_)
  repeat'
    first
      | with_reducible assumption
      | with_reducible refine W.copy_inv ?_

theorem execXstore_inv {x0} {x1} {x2} {x3} {s : State} {t : State} (h : Inv s) :
    execXstore x0 x1 x2 x3 s = .next t → Inv t := by
  unfold execXstore
  refine runWord_inv h (fun w k => ?_)
  repeat'
    first
      | with_reducible assumption
      | with_reducible refine W.copy_inv ?_

theorem execXfence_inv {x0} {x1} {s : State} {t : State} (h : Inv s) :
    execXfence x0 x1 s = .next t → Inv t := by
  unfold execXfence
  refine runWord_inv h (fun w k => ?_)
  repeat'
    first
      | with_reducible assumption
      | with_reducible refine W.xfence_inv ?_

theorem execXstat_inv {x0} {x1} {s : State} {t : State} (h : Inv s) :
    execXstat x0 x1 s = .next t → Inv t := by
  unfold execXstat
  refine runWord_inv h (fun w k => ?_)
  repeat'
    first
      | with_reducible assumption
      | with_reducible refine W.xstat_inv ?_

theorem execXpref_inv {x0} {x1} {x2} {s : State} {t : State} (h : Inv s) :
    execXpref x0 x1 x2 s = .next t → Inv t := by
  unfold execXpref
  refine runWord_inv h (fun w k => ?_)
  repeat'
    first
      | with_reducible assumption
      | with_reducible refine W.xpref_inv ?_

theorem execMma_inv {x0} {x1} {x2} {x3} {x4} {x5} {s : State} {t : State} (h : Inv s) :
    execMma x0 x1 x2 x3 x4 x5 s = .next t → Inv t := by
  unfold execMma
  refine runWordX_inv h (fun w k => ?_)
  repeat'
    first
      | with_reducible assumption
      | with_reducible refine W.mma_inv ?_

theorem execMmas_inv {x0} {x1} {x2} {x3} {x4} {x5} {s : State} {t : State} (h : Inv s) :
    execMmas x0 x1 x2 x3 x4 x5 s = .next t → Inv t := by
  unfold execMmas
  refine runWordX_inv h (fun w k => ?_)
  repeat'
    first
      | with_reducible assumption
      | with_reducible refine W.mma_inv ?_

theorem execMmac_inv {x0} {x1} {x2} {x3} {x4} {x5} {s : State} {t : State} (h : Inv s) :
    execMmac x0 x1 x2 x3 x4 x5 s = .next t → Inv t := by
  unfold execMmac
  refine runWordX_inv h (fun w k => ?_)
  (try dsimp only)
  repeat'
    first
      | with_reducible assumption
      | with_reducible refine W.fragment_inv ?_

theorem execMmax_inv {x0} {x1} {x2} {x3} {x4} {s : State} {t : State} (h : Inv s) :
    execMmax x0 x1 x2 x3 x4 s = .next t → Inv t := by
  unfold execMmax
  refine runWordX_inv h (fun w k => ?_)
  repeat'
    first
      | with_reducible assumption
      | with_reducible refine W.fragment_inv ?_

theorem execLdm_inv {x0} {x1} {x2} {x3} {x4} {s : State} {t : State} (h : Inv s) :
    execLdm x0 x1 x2 x3 x4 s = .next t → Inv t := by
  unfold execLdm
  refine runWord_inv h (fun w k => ?_)
  repeat'
    first
      | with_reducible assumption
      | with_reducible refine W.ldm_inv ?_
      | with_reducible refine InvW.s ?_
      | with_reducible refine InvW.s0 ?_
      | with_reducible refine InvW.fx ?_
      | intro _
      | with_reducible refine Inv.getD ?_ ?_
      | with_reducible refine Inv.foldl ?_ ?_
      | with_reducible refine Inv.ite ?_ ?_
      | with_reducible refine InvW.foldl ?_ ?_
      | with_reducible refine InvW.foldl1 ?_ ?_
      | with_reducible refine InvW.ite ?_ ?_

theorem execStm_inv {x0} {x1} {x2} {x3} {x4} {s : State} {t : State} (h : Inv s) :
    execStm x0 x1 x2 x3 x4 s = .next t → Inv t := by
  unfold execStm
  refine runWord_inv h (fun w k => ?_)
  repeat'
    first
      | with_reducible assumption
      | with_reducible refine W.stm_inv ?_
      | with_reducible refine InvW.s ?_
      | with_reducible refine InvW.s0 ?_
      | with_reducible refine InvW.fx ?_
      | intro _
      | with_reducible refine Inv.getD ?_ ?_
      | with_reducible refine Inv.foldl ?_ ?_
      | with_reducible refine Inv.ite ?_ ?_
      | with_reducible refine InvW.foldl ?_ ?_
      | with_reducible refine InvW.foldl1 ?_ ?_
      | with_reducible refine InvW.ite ?_ ?_

theorem execMxb_inv {x0} {x1} {x2} {x3} {x4} {s : State} {t : State} (h : Inv s) :
    execMxb x0 x1 x2 x3 x4 s = .next t → Inv t := by
  unfold execMxb
  refine runWordX_inv h (fun w k => ?_)
  repeat'
    first
      | with_reducible assumption
      | with_reducible refine W.mxb_inv ?_

theorem execMxbw_inv {x0} {x1} {x2} {s : State} {t : State} (h : Inv s) :
    execMxbw x0 x1 x2 s = .next t → Inv t := by
  unfold execMxbw
  refine runWord_inv h (fun w k => ?_)
  repeat'
    first
      | with_reducible assumption
      | with_reducible refine W.mxbw_inv ?_

theorem execMxbt_inv {x0} {x1} {x2} {s : State} {t : State} (h : Inv s) :
    execMxbt x0 x1 x2 s = .next t → Inv t := by
  unfold execMxbt
  refine runWord_inv h (fun w k => ?_)
  repeat'
    first
      | with_reducible assumption
      | with_reducible refine W.mxbt_inv ?_

theorem execAccz_inv {x0} {x1} {x2} {s : State} {t : State} (h : Inv s) :
    execAccz x0 x1 x2 s = .next t → Inv t := by
  unfold execAccz
  refine runWord_inv h (fun w k => ?_)
  repeat'
    first
      | with_reducible assumption
      | with_reducible refine W.accWord_inv ?_

theorem execAccld_inv {x0} {x1} {x2} {x3} {x4} {s : State} {t : State} (h : Inv s) :
    execAccld x0 x1 x2 x3 x4 s = .next t → Inv t := by
  unfold execAccld
  refine runWord_inv h (fun w k => ?_)
  repeat'
    first
      | with_reducible assumption
      | with_reducible refine W.accWord_inv ?_

theorem execAccst_inv {x0} {x1} {x2} {x3} {x4} {x5} {x6} {x7} {s : State} {t : State} (h : Inv s) :
    execAccst x0 x1 x2 x3 x4 x5 x6 x7 s = .next t → Inv t := by
  unfold execAccst
  refine runWord_inv h (fun w k => ?_)
  repeat'
    first
      | with_reducible assumption
      | with_reducible refine W.accWord_inv ?_

theorem execAccrd_inv {x0} {x1} {x2} {s : State} {t : State} (h : Inv s) :
    execAccrd x0 x1 x2 s = .next t → Inv t := by
  unfold execAccrd
  refine runWord_inv h (fun w k => ?_)
  repeat'
    first
      | with_reducible assumption
      | with_reducible refine W.accrd_inv ?_

theorem execSlvcfg_inv {x0} {x1} {x2} {x3} {s : State} {t : State} (h : Inv s) :
    execSlvcfg x0 x1 x2 x3 s = .next t → Inv t := by
  unfold execSlvcfg
  refine runWord_inv h (fun w k => ?_)
  repeat'
    first
      | with_reducible assumption
      | with_reducible refine W.slv_inv ?_

theorem execSlvinit_inv {x0} {x1} {x2} {x3} {s : State} {t : State} (h : Inv s) :
    execSlvinit x0 x1 x2 x3 s = .next t → Inv t := by
  unfold execSlvinit
  refine runWord_inv h (fun w k => ?_)
  repeat'
    first
      | with_reducible assumption
      | with_reducible refine W.slv_inv ?_

theorem execSlvstage_inv {x0} {x1} {x2} {x3} {s : State} {t : State} (h : Inv s) :
    execSlvstage x0 x1 x2 x3 s = .next t → Inv t := by
  unfold execSlvstage
  refine runWord_inv h (fun w k => ?_)
  repeat'
    first
      | with_reducible assumption
      | with_reducible refine W.slv_inv ?_

theorem execSlvput_inv {x0} {x1} {x2} {x3} {s : State} {t : State} (h : Inv s) :
    execSlvput x0 x1 x2 x3 s = .next t → Inv t := by
  unfold execSlvput
  refine runWord_inv h (fun w k => ?_)
  repeat'
    first
      | with_reducible assumption
      | with_reducible refine W.slv_inv ?_

theorem execSlvstep_inv {x0} {x1} {x2} {x3} {s : State} {t : State} (h : Inv s) :
    execSlvstep x0 x1 x2 x3 s = .next t → Inv t := by
  unfold execSlvstep
  refine runWord_inv h (fun w k => ?_)
  repeat'
    first
      | with_reducible assumption
      | with_reducible refine W.slv_inv ?_

theorem execSlvstat_inv {x0} {x1} {x2} {x3} {s : State} {t : State} (h : Inv s) :
    execSlvstat x0 x1 x2 x3 s = .next t → Inv t := by
  unfold execSlvstat
  refine runWord_inv h (fun w k => ?_)
  repeat'
    first
      | with_reducible assumption
      | with_reducible refine W.slv_inv ?_

theorem execLaunch_inv {x0} {x1} {x2} {s : State} {t : State} (h : Inv s) :
    execLaunch x0 x1 x2 s = .next t → Inv t := by
  unfold execLaunch
  refine runWord_inv h (fun w k => ?_)
  repeat'
    first
      | with_reducible assumption
      | with_reducible refine W.launch_inv ?_

theorem execEmit_inv {x0} {x1} {x2} {x3} {s : State} {t : State} (h : Inv s) :
    execEmit x0 x1 x2 x3 s = .next t → Inv t := by
  unfold execEmit
  refine runWord_inv h (fun w k => ?_)
  repeat'
    first
      | with_reducible assumption
      | with_reducible refine W.emit_inv ?_

theorem execCont_inv {x0} {x1} {x2} {x3} {s : State} {t : State} (h : Inv s) :
    execCont x0 x1 x2 x3 s = .next t → Inv t := by
  unfold execCont
  refine runWord_inv h (fun w k => ?_)
  repeat'
    first
      | with_reducible assumption
      | with_reducible refine W.cont_inv ?_

theorem execNotify_inv {x0} {x1} {x2} {x3} {s : State} {t : State} (h : Inv s) :
    execNotify x0 x1 x2 x3 s = .next t → Inv t := by
  unfold execNotify
  refine runWord_inv h (fun w k => ?_)
  repeat'
    first
      | with_reducible assumption
      | with_reducible refine W.notify_inv ?_

theorem execNodeq_inv {x0} {x1} {x2} {s : State} {t : State} (h : Inv s) :
    execNodeq x0 x1 x2 s = .next t → Inv t := by
  unfold execNodeq
  refine runWord_inv h (fun w k => ?_)
  repeat'
    first
      | with_reducible assumption
      | with_reducible refine State.freeDue_inv ?_
      | with_reducible refine W.var_inv ?_
      | with_reducible refine InvW.s ?_
      | with_reducible refine InvW.s0 ?_
      | with_reducible refine InvW.fx ?_
      | intro _
      | with_reducible refine Inv.getD ?_ ?_
      | with_reducible refine Inv.foldl ?_ ?_
      | with_reducible refine Inv.ite ?_ ?_
      | with_reducible refine InvW.foldl ?_ ?_
      | with_reducible refine InvW.foldl1 ?_ ?_
      | with_reducible refine InvW.ite ?_ ?_
      | split
      | with_reducible refine Inv.snd (by assumption) ?_
      | with_reducible refine InvW.snd (by assumption) ?_
      | with_reducible refine InvW.fst (by assumption) ?_
      | with_reducible refine InvW.make ?_ ?_ ?_

theorem execRdsys_inv {x0} {x1} {x2} {x3} {s : State} {t : State} (h : Inv s) :
    execRdsys x0 x1 x2 x3 s = .next t → Inv t := by
  unfold execRdsys
  refine runWord_inv h (fun w k => ?_)
  repeat'
    first
      | with_reducible assumption
      | with_reducible refine W.quiet_inv ?_
      | with_reducible refine W.rdsys_inv ?_
      | with_reducible refine InvW.s ?_
      | with_reducible refine InvW.s0 ?_
      | with_reducible refine InvW.fx ?_
      | intro _
      | with_reducible refine Inv.getD ?_ ?_
      | with_reducible refine Inv.foldl ?_ ?_
      | with_reducible refine Inv.ite ?_ ?_
      | with_reducible refine InvW.foldl ?_ ?_
      | with_reducible refine InvW.foldl1 ?_ ?_
      | with_reducible refine InvW.ite ?_ ?_
      | split
      | with_reducible refine W.quiet_inv ?_ _
      | with_reducible refine W.quiet_inv ?_ _ (by assumption)

theorem execWrsys_inv {x0} {x1} {x2} {x3} {s : State} {t : State} (h : Inv s) :
    execWrsys x0 x1 x2 x3 s = .next t → Inv t := by
  unfold execWrsys
  refine runWord_inv h (fun w k => ?_)
  repeat'
    first
      | with_reducible assumption
      | with_reducible refine W.wrsys_inv ?_

theorem execSyscall_inv {x0} {x1} {x2} {x3} {s : State} {t : State} (h : Inv s) :
    execSyscall x0 x1 x2 x3 s = .next t → Inv t := by
  unfold execSyscall
  refine runWord_inv h (fun w k => ?_)
  repeat'
    first
      | with_reducible assumption
      | with_reducible refine W.syscall_inv ?_

theorem execTret_inv {x0} {x1} {x2} {x3} {x4} {s : State} {t : State} (h : Inv s) :
    execTret x0 x1 x2 x3 x4 s = .next t → Inv t := by
  unfold execTret
  refine runWord_inv h (fun w k => ?_)
  (try dsimp only)
  repeat'
    first
      | with_reducible assumption
      | with_reducible refine State.freeDue_inv ?_
      | with_reducible refine State.tret_inv ?_
      | with_reducible refine W.var_inv ?_
      | with_reducible refine InvW.s ?_
      | with_reducible refine InvW.s0 ?_
      | with_reducible refine InvW.fx ?_
      | intro _
      | with_reducible refine Inv.getD ?_ ?_
      | with_reducible refine Inv.foldl ?_ ?_
      | with_reducible refine Inv.ite ?_ ?_
      | with_reducible refine InvW.foldl ?_ ?_
      | with_reducible refine InvW.foldl1 ?_ ?_
      | with_reducible refine InvW.ite ?_ ?_
      | split
      | with_reducible refine Inv.snd (by assumption) ?_
      | with_reducible refine InvW.snd (by assumption) ?_
      | with_reducible refine InvW.fst (by assumption) ?_
      | with_reducible refine InvW.make ?_ ?_ ?_

theorem execCtxload_inv {x0} {x1} {x2} {x3} {s : State} {t : State} (h : Inv s) :
    execCtxload x0 x1 x2 x3 s = .next t → Inv t := by
  unfold execCtxload
  refine runWord_inv h (fun w k => ?_)
  repeat'
    first
      | with_reducible assumption
      | with_reducible refine W.ctxload_inv ?_

theorem execCtxsaveEvict_inv {x0} {x1} {x2} {x3} {s : State} {t : State} (h : Inv s) :
    execCtxsaveEvict x0 x1 x2 x3 s = .next t → Inv t := by
  unfold execCtxsaveEvict
  refine runWord_inv h (fun w k => ?_)
  repeat'
    first
      | with_reducible assumption
      | with_reducible refine W.ctxsave_inv ?_

theorem execCtxsaveDestroy_inv {x0} {x1} {x2} {s : State} {t : State} (h : Inv s) :
    execCtxsaveDestroy x0 x1 x2 s = .next t → Inv t := by
  unfold execCtxsaveDestroy
  refine runWord_inv h (fun w k => ?_)
  (try dsimp only)
  repeat'
    first
      | with_reducible assumption
      | with_reducible refine State.destroy_inv ?_
      | with_reducible refine W.status_inv ?_
      | with_reducible refine InvW.s ?_
      | with_reducible refine InvW.s0 ?_
      | with_reducible refine InvW.fx ?_
      | intro _
      | with_reducible refine Inv.getD ?_ ?_
      | with_reducible refine Inv.foldl ?_ ?_
      | with_reducible refine Inv.ite ?_ ?_
      | with_reducible refine InvW.foldl ?_ ?_
      | with_reducible refine InvW.foldl1 ?_ ?_
      | with_reducible refine InvW.ite ?_ ?_
      | split
      | with_reducible refine Inv.snd (by assumption) ?_
      | with_reducible refine InvW.snd (by assumption) ?_
      | with_reducible refine InvW.fst (by assumption) ?_
      | with_reducible refine InvW.make ?_ ?_ ?_

theorem execPreemptSpatial_inv {x0} {x1} {x2} {s : State} {t : State} (h : Inv s) :
    execPreemptSpatial x0 x1 x2 s = .next t → Inv t := by
  unfold execPreemptSpatial
  refine runWord_inv h (fun w k => ?_)
  repeat'
    first
      | with_reducible assumption
      | with_reducible refine W.spatial_inv ?_

theorem execPreemptHalt_inv {x0} {x1} {x2} {s : State} {t : State} (h : Inv s) :
    execPreemptHalt x0 x1 x2 s = .next t → Inv t := by
  unfold execPreemptHalt
  refine runWord_inv h (fun w k => ?_)
  (try dsimp only)
  repeat'
    first
      | with_reducible assumption
      | with_reducible refine State.setCtxstat_inv ?_
      | with_reducible refine W.preResult_inv ?_
      | with_reducible refine InvW.s ?_
      | with_reducible refine InvW.s0 ?_
      | with_reducible refine InvW.fx ?_
      | intro _
      | with_reducible refine Inv.getD ?_ ?_
      | with_reducible refine Inv.foldl ?_ ?_
      | with_reducible refine Inv.ite ?_ ?_
      | with_reducible refine InvW.foldl ?_ ?_
      | with_reducible refine InvW.foldl1 ?_ ?_
      | with_reducible refine InvW.ite ?_ ?_
      | split
      | with_reducible refine Inv.snd (by assumption) ?_
      | with_reducible refine InvW.snd (by assumption) ?_
      | with_reducible refine InvW.fst (by assumption) ?_
      | with_reducible refine InvW.make ?_ ?_ ?_

theorem execPreemptStop_inv {x0} {x1} {x2} {s : State} {t : State} (h : Inv s) :
    execPreemptStop x0 x1 x2 s = .next t → Inv t := by
  unfold execPreemptStop
  refine runWord_inv h (fun w k => ?_)
  (try dsimp only)
  repeat'
    first
      | with_reducible assumption
      | with_reducible refine State.setCtxstat_inv ?_
      | with_reducible refine W.supOp_inv ?_
      | with_reducible refine W.preResult_inv ?_
      | with_reducible refine InvW.s ?_
      | with_reducible refine InvW.s0 ?_
      | with_reducible refine InvW.fx ?_
      | intro _
      | with_reducible refine Inv.getD ?_ ?_
      | with_reducible refine Inv.foldl ?_ ?_
      | with_reducible refine Inv.ite ?_ ?_
      | with_reducible refine InvW.foldl ?_ ?_
      | with_reducible refine InvW.foldl1 ?_ ?_
      | with_reducible refine InvW.ite ?_ ?_
      | split
      | with_reducible refine Inv.snd (by assumption) ?_
      | with_reducible refine InvW.snd (by assumption) ?_
      | with_reducible refine InvW.fst (by assumption) ?_
      | with_reducible refine InvW.make ?_ ?_ ?_

theorem execPreemptResume_inv {x0} {x1} {x2} {s : State} {t : State} (h : Inv s) :
    execPreemptResume x0 x1 x2 s = .next t → Inv t := by
  unfold execPreemptResume
  refine runWord_inv h (fun w k => ?_)
  (try dsimp only)
  repeat'
    first
      | with_reducible assumption
      | with_reducible refine State.modCtx_inv ?_
      | with_reducible refine W.preResult_inv ?_
      | with_reducible refine InvW.s ?_
      | with_reducible refine InvW.s0 ?_
      | with_reducible refine InvW.fx ?_
      | intro _
      | with_reducible refine Inv.getD ?_ ?_
      | with_reducible refine Inv.foldl ?_ ?_
      | with_reducible refine Inv.ite ?_ ?_
      | with_reducible refine InvW.foldl ?_ ?_
      | with_reducible refine InvW.foldl1 ?_ ?_
      | with_reducible refine InvW.ite ?_ ?_
      | split
      | with_reducible refine Inv.snd (by assumption) ?_
      | with_reducible refine InvW.snd (by assumption) ?_
      | with_reducible refine InvW.fst (by assumption) ?_
      | with_reducible refine InvW.make ?_ ?_ ?_

theorem execPreemptRdreg_inv {x0} {x1} {x2} {s : State} {t : State} (h : Inv s) :
    execPreemptRdreg x0 x1 x2 s = .next t → Inv t := by
  unfold execPreemptRdreg
  refine runWord_inv h (fun w k => ?_)
  (try dsimp only)
  repeat'
    first
      | with_reducible assumption
      | with_reducible refine W.preResult_inv ?_
      | with_reducible refine InvW.s ?_
      | with_reducible refine InvW.s0 ?_
      | with_reducible refine InvW.fx ?_
      | intro _
      | with_reducible refine Inv.getD ?_ ?_
      | with_reducible refine Inv.foldl ?_ ?_
      | with_reducible refine Inv.ite ?_ ?_
      | with_reducible refine InvW.foldl ?_ ?_
      | with_reducible refine InvW.foldl1 ?_ ?_
      | with_reducible refine InvW.ite ?_ ?_

theorem execPreemptWrreg_inv {x0} {x1} {x2} {s : State} {t : State} (h : Inv s) :
    execPreemptWrreg x0 x1 x2 s = .next t → Inv t := by
  unfold execPreemptWrreg
  refine runWord_inv h (fun w k => ?_)
  (try dsimp only)
  repeat'
    first
      | with_reducible assumption
      | with_reducible refine State.regWrite_inv ?_
      | with_reducible refine W.preResult_inv ?_
      | with_reducible refine InvW.s ?_
      | with_reducible refine InvW.s0 ?_
      | with_reducible refine InvW.fx ?_
      | intro _
      | with_reducible refine Inv.getD ?_ ?_
      | with_reducible refine Inv.foldl ?_ ?_
      | with_reducible refine Inv.ite ?_ ?_
      | with_reducible refine InvW.foldl ?_ ?_
      | with_reducible refine InvW.foldl1 ?_ ?_
      | with_reducible refine InvW.ite ?_ ?_
      | split
      | with_reducible refine Inv.snd (by assumption) ?_
      | with_reducible refine InvW.snd (by assumption) ?_
      | with_reducible refine InvW.fst (by assumption) ?_
      | with_reducible refine InvW.make ?_ ?_ ?_

theorem execDump_inv {x0} {x1} {x2} {s : State} {t : State} (h : Inv s) :
    execDump x0 x1 x2 s = .next t → Inv t := by
  unfold execDump
  refine runWord_inv h (fun w k => ?_)
  (try dsimp only)
  repeat'
    first
      | with_reducible assumption
      | with_reducible refine State.queueDump_inv ?_
      | with_reducible refine W.status_inv ?_
      | with_reducible refine InvW.s ?_
      | with_reducible refine InvW.s0 ?_
      | with_reducible refine InvW.fx ?_
      | intro _
      | with_reducible refine Inv.getD ?_ ?_
      | with_reducible refine Inv.foldl ?_ ?_
      | with_reducible refine Inv.ite ?_ ?_
      | with_reducible refine InvW.foldl ?_ ?_
      | with_reducible refine InvW.foldl1 ?_ ?_
      | with_reducible refine InvW.ite ?_ ?_
      | split
      | with_reducible refine Inv.snd (by assumption) ?_
      | with_reducible refine InvW.snd (by assumption) ?_
      | with_reducible refine InvW.fst (by assumption) ?_
      | with_reducible refine InvW.make ?_ ?_ ?_

theorem execMsgsend_inv {x0} {x1} {x2} {x3} {x4} {x5} {s : State} {t : State} (h : Inv s) :
    execMsgsend x0 x1 x2 x3 x4 x5 s = .next t → Inv t := by
  unfold execMsgsend
  refine runWord_inv h (fun w k => ?_)
  repeat'
    first
      | with_reducible assumption
      | with_reducible refine W.msgsend_inv ?_

theorem execMsgrecv_inv {x0} {x1} {x2} {x3} {s : State} {t : State} (h : Inv s) :
    execMsgrecv x0 x1 x2 x3 s = .next t → Inv t := by
  unfold execMsgrecv
  refine runWord_inv h (fun w k => ?_)
  repeat'
    first
      | with_reducible assumption
      | with_reducible refine W.msgrecv_inv ?_

theorem execInvapply_inv {x0} {x1} {x2} {s : State} {t : State} (h : Inv s) :
    execInvapply x0 x1 x2 s = .next t → Inv t := by
  unfold execInvapply
  refine runWord_inv h (fun w k => ?_)
  repeat'
    first
      | with_reducible assumption
      | with_reducible refine W.invapply_inv ?_

theorem execTlbinv_inv {x0} {x1} {x2} {s : State} {t : State} (h : Inv s) :
    execTlbinv x0 x1 x2 s = .next t → Inv t := by
  unfold execTlbinv
  refine runWord_inv h (fun w k => ?_)
  repeat'
    first
      | with_reducible assumption
      | with_reducible refine W.tlbinv_inv ?_

theorem execZeropg_inv {x0} {x1} {x2} {x3} {s : State} {t : State} (h : Inv s) :
    execZeropg x0 x1 x2 x3 s = .next t → Inv t := by
  unfold execZeropg
  refine runWord_inv h (fun w k => ?_)
  repeat'
    first
      | with_reducible assumption
      | with_reducible refine W.zeropg_inv ?_

theorem execSplitrd_inv {x0} {x1} {x2} {x3} {s : State} {t : State} (h : Inv s) :
    execSplitrd x0 x1 x2 x3 s = .next t → Inv t := by
  unfold execSplitrd
  refine runWord_inv h (fun w k => ?_)
  (try dsimp only)
  repeat'
    first
      | with_reducible assumption
      | with_reducible refine State.freePick_inv ?_
      | with_reducible refine W.var_inv ?_
      | with_reducible refine InvW.s ?_
      | with_reducible refine InvW.s0 ?_
      | with_reducible refine InvW.fx ?_
      | intro _
      | with_reducible refine Inv.getD ?_ ?_
      | with_reducible refine Inv.foldl ?_ ?_
      | with_reducible refine Inv.ite ?_ ?_
      | with_reducible refine InvW.foldl ?_ ?_
      | with_reducible refine InvW.foldl1 ?_ ?_
      | with_reducible refine InvW.ite ?_ ?_
      | split
      | with_reducible refine Inv.snd (by assumption) ?_
      | with_reducible refine InvW.snd (by assumption) ?_
      | with_reducible refine InvW.fst (by assumption) ?_
      | with_reducible refine InvW.make ?_ ?_ ?_

theorem execSplitsnap_inv {x0} {x1} {x2} {x3} {s : State} {t : State} (h : Inv s) :
    execSplitsnap x0 x1 x2 x3 s = .next t → Inv t := by
  unfold execSplitsnap
  refine runWord_inv h (fun w k => ?_)
  repeat'
    first
      | with_reducible assumption
      | with_reducible refine W.splitsnap_inv ?_

theorem execMark_inv {x0} {x1} {x2} {s : State} {t : State} (h : Inv s) :
    execMark x0 x1 x2 s = .next t → Inv t := by
  unfold execMark
  refine runWord_inv h (fun w k => ?_)
  repeat'
    first
      | with_reducible assumption
      | with_reducible refine W.mark_inv ?_

theorem execSampcfg_inv {x0} {x1} {x2} {s : State} {t : State} (h : Inv s) :
    execSampcfg x0 x1 x2 s = .next t → Inv t := by
  unfold execSampcfg
  refine runWord_inv h (fun w k => ?_)
  repeat'
    first
      | with_reducible assumption
      | with_reducible refine W.sampcfg_inv ?_

theorem execClock_inv {x0} {x1} {s : State} {t : State} (h : Inv s) :
    execClock x0 x1 s = .next t → Inv t := by
  unfold execClock
  refine runWord_inv h (fun w k => ?_)
  repeat'
    first
      | with_reducible assumption
      | with_reducible refine W.fix_inv ?_

theorem execRetcnt_inv {x0} {x1} {s : State} {t : State} (h : Inv s) :
    execRetcnt x0 x1 s = .next t → Inv t := by
  unfold execRetcnt
  refine runWord_inv h (fun w k => ?_)
  repeat'
    first
      | with_reducible assumption
      | with_reducible refine W.fix_inv ?_

theorem execIllegalWordKill_inv {x0} {s : State} {t : State} (h : Inv s) :
    execIllegalWordKill x0 s = .next t → Inv t := by
  unfold execIllegalWordKill
  refine runEvent_inv h (fun s h => ?_)
  repeat'
    first
      | with_reducible assumption
      | with_reducible refine State.illegalKill_inv ?_

theorem execSleepEnd_inv {x0} {s : State} {t : State} (h : Inv s) :
    execSleepEnd x0 s = .next t → Inv t := by
  unfold execSleepEnd
  refine runEvent_inv h (fun s h => ?_)
  repeat'
    first
      | with_reducible assumption
      | with_reducible refine State.modGrp_inv ?_

theorem execStackSpill_inv {x0} {s : State} {t : State} (h : Inv s) :
    execStackSpill x0 s = .next t → Inv t := by
  unfold execStackSpill
  refine runEvent_inv h (fun s h => ?_)
  repeat'
    first
      | with_reducible assumption
      | with_reducible refine State.spillOutside_inv ?_

theorem execStackFill_inv {x0} {s : State} {t : State} (h : Inv s) :
    execStackFill x0 s = .next t → Inv t := by
  unfold execStackFill
  refine runEvent_inv h (fun s h => ?_)
  repeat'
    first
      | with_reducible assumption
      | with_reducible refine State.fillStack_inv ?_

theorem execRegionRestart_inv {x0} {s : State} {t : State} (h : Inv s) :
    execRegionRestart x0 s = .next t → Inv t := by
  unfold execRegionRestart
  refine runEvent_inv h (fun s h => ?_)
  repeat'
    first
      | with_reducible assumption
      | with_reducible refine State.modGrp_inv ?_
      | intro _
      | with_reducible refine Inv.getD ?_ ?_
      | with_reducible refine Inv.foldl ?_ ?_
      | with_reducible refine Inv.ite ?_ ?_
      | split

theorem execRegisterComplete_inv {x0} {s : State} {t : State} (h : Inv s) :
    execRegisterComplete x0 s = .next t → Inv t := by
  unfold execRegisterComplete
  refine runEvent_inv h (fun s h => ?_)
  (try dsimp only)
  repeat'
    first
      | with_reducible assumption
      | with_reducible refine State.modGrp_inv ?_
      | with_reducible refine State.reap_inv ?_
      | intro _
      | with_reducible refine Inv.getD ?_ ?_
      | with_reducible refine Inv.foldl ?_ ?_
      | with_reducible refine Inv.ite ?_ ?_
      | split

theorem execSideLogReplay_inv {x0} {x1} {s : State} {t : State} (h : Inv s) :
    execSideLogReplay x0 x1 s = .next t → Inv t := by
  unfold execSideLogReplay
  refine runEvent_inv h (fun s h => ?_)
  repeat'
    first
      | with_reducible assumption
      | with_reducible refine State.logReplay_inv ?_

theorem execChunkReissue_inv {x0} {s : State} {t : State} (h : Inv s) :
    execChunkReissue x0 s = .next t → Inv t := by
  unfold execChunkReissue
  refine runEvent_inv h (fun s h => ?_)
  repeat'
    first
      | with_reducible assumption
      | with_reducible refine State.chunkReissue_inv ?_

theorem execAtomicPerform_inv {x0} {s : State} {t : State} (h : Inv s) :
    execAtomicPerform x0 s = .next t → Inv t := by
  unfold execAtomicPerform
  refine runEvent_inv h (fun s h => ?_)
  repeat'
    first
      | with_reducible assumption
      | with_reducible refine State.atomPerform_inv ?_

theorem execBarrierWake_inv {x0} {s : State} {t : State} (h : Inv s) :
    execBarrierWake x0 s = .next t → Inv t := by
  unfold execBarrierWake
  refine runEvent_inv h (fun s h => ?_)
  repeat'
    first
      | with_reducible assumption
      | with_reducible refine State.modGrp_inv ?_
      | with_reducible refine State.acquireNow_inv ?_
      | intro _
      | with_reducible refine Inv.getD ?_ ?_
      | with_reducible refine Inv.foldl ?_ ?_
      | with_reducible refine Inv.ite ?_ ?_
      | split

theorem execWatchEvaluate_inv {x0} {x1} {s : State} {t : State} (h : Inv s) :
    execWatchEvaluate x0 x1 s = .next t → Inv t := by
  unfold execWatchEvaluate
  refine runEvent_inv h (fun s h => ?_)
  (try dsimp only)
  repeat'
    first
      | with_reducible assumption
      | with_reducible refine State.watchEnd_inv ?_
      | intro _
      | with_reducible refine Inv.getD ?_ ?_
      | with_reducible refine Inv.foldl ?_ ?_
      | with_reducible refine Inv.ite ?_ ?_
      | split

theorem execWatchTimeout_inv {x0} {x1} {s : State} {t : State} (h : Inv s) :
    execWatchTimeout x0 x1 s = .next t → Inv t := by
  unfold execWatchTimeout
  refine runEvent_inv h (fun s h => ?_)
  (try dsimp only)
  repeat'
    first
      | with_reducible assumption
      | with_reducible refine State.watchEnd_inv ?_
      | intro _
      | with_reducible refine Inv.getD ?_ ?_
      | with_reducible refine Inv.foldl ?_ ?_
      | with_reducible refine Inv.ite ?_ ?_
      | split

theorem execCopyJobStart_inv {x0} {s : State} {t : State} (h : Inv s) :
    execCopyJobStart x0 s = .next t → Inv t := by
  unfold execCopyJobStart
  refine runEvent_inv h (fun s h => ?_)
  repeat'
    first
      | with_reducible assumption
      | with_reducible refine State.jobStart_inv ?_

theorem execMcPartStart_inv {x0} {x1} {s : State} {t : State} (h : Inv s) :
    execMcPartStart x0 x1 s = .next t → Inv t := by
  unfold execMcPartStart
  refine runEvent_inv h (fun s h => ?_)
  repeat'
    first
      | with_reducible assumption
      | with_reducible refine State.partStart_inv ?_

theorem execChunkSettle_inv {x0} {s : State} {t : State} (h : Inv s) :
    execChunkSettle x0 s = .next t → Inv t := by
  unfold execChunkSettle
  refine runEvent_inv h (fun s h => ?_)
  repeat'
    first
      | with_reducible assumption
      | with_reducible refine State.chunkSettle_inv ?_

theorem execCopyJobComplete_inv {x0} {s : State} {t : State} (h : Inv s) :
    execCopyJobComplete x0 s = .next t → Inv t := by
  unfold execCopyJobComplete
  refine runEvent_inv h (fun s h => ?_)
  repeat'
    first
      | with_reducible assumption
      | with_reducible refine State.jobComplete_inv ?_

theorem execMxbJobStart_inv {x0} {s : State} {t : State} (h : Inv s) :
    execMxbJobStart x0 s = .next t → Inv t := by
  unfold execMxbJobStart
  refine runEvent_inv h (fun s h => ?_)
  repeat'
    first
      | with_reducible assumption
      | with_reducible refine State.mxbStart_inv ?_

theorem execAccJobStart_inv {x0} {s : State} {t : State} (h : Inv s) :
    execAccJobStart x0 s = .next t → Inv t := by
  unfold execAccJobStart
  refine runEvent_inv h (fun s h => ?_)
  repeat'
    first
      | with_reducible assumption
      | with_reducible refine State.accStart_inv ?_

theorem execKblockEnd_inv {x0} {s : State} {t : State} (h : Inv s) :
    execKblockEnd x0 s = .next t → Inv t := by
  unfold execKblockEnd
  refine runEvent_inv h (fun s h => ?_)
  repeat'
    first
      | with_reducible assumption
      | with_reducible refine State.kblock_inv ?_

theorem execMxbJobComplete_inv {x0} {s : State} {t : State} (h : Inv s) :
    execMxbJobComplete x0 s = .next t → Inv t := by
  unfold execMxbJobComplete
  refine runEvent_inv h (fun s h => ?_)
  repeat'
    first
      | with_reducible assumption
      | with_reducible refine State.mxbDone_inv ?_

theorem execSlvOpCommit_inv {x0} {s : State} {t : State} (h : Inv s) :
    execSlvOpCommit x0 s = .next t → Inv t := by
  unfold execSlvOpCommit
  refine runEvent_inv h (fun s h => ?_)
  repeat'
    first
      | with_reducible assumption
      | with_reducible refine State.seqCommit_inv ?_

theorem execParseGrid_inv {x0} {s : State} {t : State} (h : Inv s) :
    execParseGrid x0 s = .next t → Inv t := by
  unfold execParseGrid
  refine runEvent_inv h (fun s h => ?_)
  repeat'
    first
      | with_reducible assumption
      | with_reducible refine State.parse_inv ?_

theorem execParseOpen_inv {x0} {s : State} {t : State} (h : Inv s) :
    execParseOpen x0 s = .next t → Inv t := by
  unfold execParseOpen
  refine runEvent_inv h (fun s h => ?_)
  repeat'
    first
      | with_reducible assumption
      | with_reducible refine State.parse_inv ?_

theorem execParseClose_inv {x0} {s : State} {t : State} (h : Inv s) :
    execParseClose x0 s = .next t → Inv t := by
  unfold execParseClose
  refine runEvent_inv h (fun s h => ?_)
  repeat'
    first
      | with_reducible assumption
      | with_reducible refine State.parse_inv ?_

theorem execNodeGather_inv {x0} {x1} {s : State} {t : State} (h : Inv s) :
    execNodeGather x0 x1 s = .next t → Inv t := by
  unfold execNodeGather
  refine runEvent_inv h (fun s h => ?_)
  repeat'
    first
      | with_reducible assumption
      | with_reducible refine State.nodeFormed_inv ?_

theorem execGatherTimerExpiry_inv {x0} {x1} {s : State} {t : State} (h : Inv s) :
    execGatherTimerExpiry x0 x1 s = .next t → Inv t := by
  unfold execGatherTimerExpiry
  refine runEvent_inv h (fun s h => ?_)
  repeat'
    first
      | with_reducible assumption
      | with_reducible refine State.nodeFormed_inv ?_

theorem execNodeDrained_inv {x0} {x1} {s : State} {t : State} (h : Inv s) :
    execNodeDrained x0 x1 s = .next t → Inv t := by
  unfold execNodeDrained
  refine runEvent_inv h (fun s h => ?_)
  repeat'
    first
      | with_reducible assumption
      | with_reducible refine State.nodeDrained_inv ?_

theorem execPlaceTeam_inv {x0} {s : State} {t : State} (h : Inv s) :
    execPlaceTeam x0 s = .next t → Inv t := by
  unfold execPlaceTeam
  refine runEvent_inv h (fun s h => ?_)
  repeat'
    first
      | with_reducible assumption
      | with_reducible refine State.placeTeam_inv ?_

theorem execSuccessorForm_inv {x0} {s : State} {t : State} (h : Inv s) :
    execSuccessorForm x0 s = .next t → Inv t := by
  unfold execSuccessorForm
  refine runEvent_inv h (fun s h => ?_)
  repeat'
    first
      | with_reducible assumption
      | with_reducible refine State.successorPlace_inv ?_
      | intro _
      | with_reducible refine Inv.getD ?_ ?_

theorem execTeamRetire_inv {x0} {s : State} {t : State} (h : Inv s) :
    execTeamRetire x0 s = .next t → Inv t := by
  unfold execTeamRetire
  refine runEvent_inv h (fun s h => ?_)
  repeat'
    first
      | with_reducible assumption
      | with_reducible refine State.teamRetire_inv ?_

theorem execGridComplete_inv {x0} {s : State} {t : State} (h : Inv s) :
    execGridComplete x0 s = .next t → Inv t := by
  unfold execGridComplete
  refine runEvent_inv h (fun s h => ?_)
  repeat'
    first
      | with_reducible assumption
      | with_reducible refine State.gridComplete_inv ?_

theorem execQueueResetComplete_inv {x0} {s : State} {t : State} (h : Inv s) :
    execQueueResetComplete x0 s = .next t → Inv t := by
  unfold execQueueResetComplete
  refine runEvent_inv h (fun s h => ?_)
  repeat'
    first
      | with_reducible assumption
      | with_reducible refine State.modPort_inv ?_
      | with_reducible refine State.flushContext_inv ?_
      | intro _
      | with_reducible refine Inv.getD ?_ ?_
      | with_reducible refine Inv.foldl ?_ ?_
      | with_reducible refine Inv.ite ?_ ?_

theorem execDumpRun_inv {x0} {s : State} {t : State} (h : Inv s) :
    execDumpRun x0 s = .next t → Inv t := by
  unfold execDumpRun
  refine runEvent_inv h (fun s h => ?_)
  repeat'
    first
      | with_reducible assumption
      | with_reducible refine State.modDie_inv ?_
      | with_reducible refine State.freeDue_inv ?_
      | intro _
      | with_reducible refine Inv.getD ?_ ?_
      | with_reducible refine Inv.foldl ?_ ?_
      | with_reducible refine Inv.ite ?_ ?_
      | split

theorem execDumpDone_inv {x0} {s : State} {t : State} (h : Inv s) :
    execDumpDone x0 s = .next t → Inv t := by
  unfold execDumpDone
  refine runEvent_inv h (fun s h => ?_)
  (try dsimp only)
  repeat'
    first
      | with_reducible assumption
      | with_reducible refine State.modDie_inv ?_
      | with_reducible refine State.setCtxstat_inv ?_
      | with_reducible refine State.dieRecord_inv ?_
      | with_reducible refine State.dumpWrite_inv ?_
      | intro _
      | with_reducible refine Inv.getD ?_ ?_
      | with_reducible refine Inv.foldl ?_ ?_
      | with_reducible refine Inv.ite ?_ ?_
      | split

theorem execTrapEntry_inv {x0} {s : State} {t : State} (h : Inv s) :
    execTrapEntry x0 s = .next t → Inv t := by
  unfold execTrapEntry
  refine runEvent_inv h (fun s h => ?_)
  repeat'
    first
      | with_reducible assumption
      | with_reducible refine State.trapEntry_inv ?_

theorem execTeamSave_inv {x0} {s : State} {t : State} (h : Inv s) :
    execTeamSave x0 s = .next t → Inv t := by
  unfold execTeamSave
  refine runEvent_inv h (fun s h => ?_)
  repeat'
    first
      | with_reducible assumption
      | with_reducible refine State.teamSave_inv ?_

theorem execSliceEnd_inv {x0} {s : State} {t : State} (h : Inv s) :
    execSliceEnd x0 s = .next t → Inv t := by
  unfold execSliceEnd
  refine runEvent_inv h (fun s h => ?_)
  repeat'
    first
      | with_reducible assumption
      | with_reducible refine State.beginChange_inv ?_
      | intro _
      | with_reducible refine Inv.getD ?_ ?_
      | with_reducible refine Inv.foldl ?_ ?_
      | with_reducible refine Inv.ite ?_ ?_

theorem execOwnerChange_inv {x0} {s : State} {t : State} (h : Inv s) :
    execOwnerChange x0 s = .next t → Inv t := by
  unfold execOwnerChange
  refine runEvent_inv h (fun s h => ?_)
  repeat'
    first
      | with_reducible assumption
      | with_reducible refine State.ownerChange_inv ?_

theorem execGroomerReport_inv {x0} {s : State} {t : State} (h : Inv s) :
    execGroomerReport x0 s = .next t → Inv t := by
  unfold execGroomerReport
  refine runEvent_inv h (fun s h => ?_)
  (try dsimp only)
  repeat'
    first
      | with_reducible assumption
      | with_reducible refine State.zeroRange_inv ?_
      | with_reducible refine State.modDie_inv ?_
      | with_reducible refine State.answer_inv ?_
      | with_reducible refine State.evalWatches_inv ?_
      | intro _
      | with_reducible refine Inv.getD ?_ ?_
      | with_reducible refine Inv.foldl ?_ ?_
      | with_reducible refine Inv.ite ?_ ?_
      | split
      | with_reducible refine Inv.snd (by assumption) ?_
      | with_reducible refine Inv.fold ?_
      | with_reducible refine Inv.mk ?_

theorem execShootdownApply_inv {x0} {s : State} {t : State} (h : Inv s) :
    execShootdownApply x0 s = .next t → Inv t := by
  unfold execShootdownApply
  refine runEvent_inv h (fun s h => ?_)
  repeat'
    first
      | with_reducible assumption
      | with_reducible refine State.shootApply_inv ?_

theorem execLazyApply_inv {x0} {s : State} {t : State} (h : Inv s) :
    execLazyApply x0 s = .next t → Inv t := by
  unfold execLazyApply
  refine runEvent_inv h (fun s h => ?_)
  (try dsimp only)
  repeat'
    first
      | with_reducible assumption
      | with_reducible refine State.modDie_inv ?_
      | with_reducible refine State.applyEntry_inv ?_
      | intro _
      | with_reducible refine Inv.getD ?_ ?_
      | with_reducible refine Inv.foldl ?_ ?_

theorem execDrainDone_inv {x0} {s : State} {t : State} (h : Inv s) :
    execDrainDone x0 s = .next t → Inv t := by
  unfold execDrainDone
  refine runEvent_inv h (fun s h => ?_)
  (try dsimp only)
  repeat'
    first
      | with_reducible assumption
      | with_reducible refine State.modPkg_inv ?_ ?_
      | with_reducible refine State.dieFalls_inv ?_
      | with_reducible refine State.cutOff_inv ?_
      | intro _
      | with_reducible refine Inv.getD ?_ ?_
      | with_reducible refine Inv.foldl ?_ ?_
      | with_reducible refine Inv.ite ?_ ?_
      | split
      | with_reducible refine Inv.snd (by assumption) ?_
      | with_reducible refine Inv.fold ?_
      | with_reducible refine Inv.mk ?_
      | with_reducible refine PkgOk.fold ?_
      | with_reducible refine PkgOk.mk ?_

theorem execTraceDeliver_inv {x0} {s : State} {t : State} (h : Inv s) :
    execTraceDeliver x0 s = .next t → Inv t := by
  unfold execTraceDeliver
  refine runEvent_inv h (fun s h => ?_)
  repeat'
    first
      | with_reducible assumption
      | with_reducible refine State.traceTake_inv ?_

theorem execHeadroomDeliver_inv {x0} {s : State} {t : State} (h : Inv s) :
    execHeadroomDeliver x0 s = .next t → Inv t := by
  unfold execHeadroomDeliver
  refine runEvent_inv h (fun s h => ?_)
  (try dsimp only)
  repeat'
    first
      | with_reducible assumption
      | with_reducible refine State.modEth_inv ?_
      | with_reducible refine State.ringDeliver_inv ?_
      | intro _
      | with_reducible refine Inv.getD ?_ ?_
      | with_reducible refine Inv.foldl ?_ ?_
      | with_reducible refine Inv.ite ?_ ?_
      | split

theorem execWriteAcknowledged_inv {x0} {s : State} {t : State} (h : Inv s) :
    execWriteAcknowledged x0 s = .next t → Inv t := by
  unfold execWriteAcknowledged
  refine runEvent_inv h (fun s h => ?_)
  repeat'
    first
      | with_reducible assumption
      | with_reducible refine State.writeBackDone_inv ?_

theorem execTouchWindowClose_inv {x0} {s : State} {t : State} (h : Inv s) :
    execTouchWindowClose x0 s = .next t → Inv t := by
  unfold execTouchWindowClose
  refine runEvent_inv h (fun s h => ?_)
  repeat'
    first
      | with_reducible assumption
      | with_reducible refine State.modGrp_inv ?_

theorem execPageWalkComplete_inv {x0} {x1} {x2} {s : State} {t : State} (h : Inv s) :
    execPageWalkComplete x0 x1 x2 s = .next t → Inv t := by
  unfold execPageWalkComplete
  refine runEvent_inv h (fun s h => ?_)
  repeat'
    first
      | with_reducible assumption
      | with_reducible refine State.modCcl_inv ?_
      | with_reducible refine State.walkDone_inv ?_
      | intro _
      | with_reducible refine Inv.getD ?_ ?_
      | with_reducible refine Inv.foldl ?_ ?_
      | with_reducible refine Inv.ite ?_ ?_

theorem execAccessCountNotify_inv {x0} {s : State} {t : State} (h : Inv s) :
    execAccessCountNotify x0 s = .next t → Inv t := by
  unfold execAccessCountNotify
  refine runEvent_inv h (fun s h => ?_)
  repeat'
    first
      | with_reducible assumption
      | with_reducible refine State.countSend_inv ?_

theorem execSample_inv {x0} {x1} {s : State} {t : State} (h : Inv s) :
    execSample x0 x1 s = .next t → Inv t := by
  unfold execSample
  refine runEvent_inv h (fun s h => ?_)
  repeat'
    first
      | with_reducible assumption
      | with_reducible refine State.sampleSlot_inv ?_

theorem execOverflowFold_inv {x0} {x1} {s : State} {t : State} (h : Inv s) :
    execOverflowFold x0 x1 s = .next t → Inv t := by
  unfold execOverflowFold
  refine runEvent_inv h (fun s h => ?_)
  repeat'
    first
      | with_reducible assumption
      | with_reducible refine State.overflowFold_inv ?_

theorem execCorrectedError_inv {x0} {s : State} {t : State} (h : Inv s) :
    execCorrectedError x0 s = .next t → Inv t := by
  unfold execCorrectedError
  refine runEvent_inv h (fun s h => ?_)
  repeat'
    first
      | with_reducible assumption
      | with_reducible refine State.corrected_inv ?_
      | intro _
      | with_reducible refine Inv.getD ?_ ?_
      | with_reducible refine Inv.foldl ?_ ?_
      | with_reducible refine Inv.ite ?_ ?_

theorem execUncorrectableWriteback_inv {x0} {s : State} {t : State} (h : Inv s) :
    execUncorrectableWriteback x0 s = .next t → Inv t := by
  unfold execUncorrectableWriteback
  refine runEvent_inv h (fun s h => ?_)
  (try dsimp only)
  repeat'
    first
      | with_reducible assumption
      | with_reducible refine State.reportBad_inv ?_
      | intro _
      | with_reducible refine Inv.getD ?_ ?_
      | with_reducible refine Inv.foldl ?_ ?_
      | with_reducible refine Inv.ite ?_ ?_
      | split
      | with_reducible refine Inv.snd (by assumption) ?_
      | with_reducible refine Inv.fold ?_
      | with_reducible refine Inv.mk ?_

theorem execPatrolScrub_inv {x0} {s : State} {t : State} (h : Inv s) :
    execPatrolScrub x0 s = .next t → Inv t := by
  unfold execPatrolScrub
  refine runEvent_inv h (fun s h => ?_)
  repeat'
    first
      | with_reducible assumption
      | with_reducible refine State.reportBad_inv ?_
      | intro _
      | with_reducible refine Inv.getD ?_ ?_
      | with_reducible refine Inv.foldl ?_ ?_

theorem execQtailWrite_inv {x0} {x1} {s : State} {t : State} (h : Inv s) :
    execQtailWrite x0 x1 s = .next t → Inv t := by
  unfold execQtailWrite
  refine runEvent_inv h (fun s h => ?_)
  repeat'
    first
      | with_reducible assumption
      | with_reducible refine State.modPort_inv ?_

theorem execPortEnable_inv {x0} {s : State} {t : State} (h : Inv s) :
    execPortEnable x0 s = .next t → Inv t := by
  unfold execPortEnable
  refine runEvent_inv h (fun s h => ?_)
  repeat'
    first
      | with_reducible assumption
      | with_reducible refine State.modPort_inv ?_

theorem execPortDisable_inv {x0} {s : State} {t : State} (h : Inv s) :
    execPortDisable x0 s = .next t → Inv t := by
  unfold execPortDisable
  refine runEvent_inv h (fun s h => ?_)
  repeat'
    first
      | with_reducible assumption
      | with_reducible refine State.modPort_inv ?_

theorem execQreset_inv {x0} {s : State} {t : State} (h : Inv s) :
    execQreset x0 s = .next t → Inv t := by
  unfold execQreset
  refine runEvent_inv h (fun s h => ?_)
  repeat'
    first
      | with_reducible assumption
      | with_reducible refine State.queueReset_inv ?_

theorem execDieLoss_inv {x0} {s : State} {t : State} (h : Inv s) :
    execDieLoss x0 s = .next t → Inv t := by
  unfold execDieLoss
  refine runEvent_inv h (fun s h => ?_)
  repeat'
    first
      | with_reducible assumption
      | with_reducible refine State.dieLoss_inv ?_

theorem execFmResetRequest_inv {x0} {s : State} {t : State} (h : Inv s) :
    execFmResetRequest x0 s = .next t → Inv t := by
  unfold execFmResetRequest
  refine runEvent_inv h (fun s h => ?_)
  repeat'
    first
      | with_reducible assumption
      | with_reducible refine State.fmRequest_inv ?_

theorem execLinkWidthChange_inv {x0} {x1} {x2} {s : State} {t : State} (h : Inv s) :
    execLinkWidthChange x0 x1 x2 s = .next t → Inv t := by
  unfold execLinkWidthChange
  refine runEvent_inv h (fun s h => ?_)
  repeat'
    first
      | with_reducible assumption
      | with_reducible refine State.linkWidth_inv ?_

theorem execLinkClockChange_inv {x0} {x1} {s : State} {t : State} (h : Inv s) :
    execLinkClockChange x0 x1 s = .next t → Inv t := by
  unfold execLinkClockChange
  refine runEvent_inv h (fun s h => ?_)
  repeat'
    first
      | with_reducible assumption

theorem execHostMemAccess_inv {x0} {x1} {x2} {s : State} {t : State} (h : Inv s) :
    execHostMemAccess x0 x1 x2 s = .next t → Inv t := by
  unfold execHostMemAccess
  refine runEvent_inv h (fun s h => ?_)
  repeat'
    first
      | with_reducible assumption
      | with_reducible refine State.homePut_inv ?_
      | intro _
      | with_reducible refine Inv.getD ?_ ?_
      | with_reducible refine Inv.foldl ?_ ?_
      | with_reducible refine Inv.ite ?_ ?_

theorem execHostSnoop_inv {x0} {x1} {s : State} {t : State} (h : Inv s) :
    execHostSnoop x0 x1 s = .next t → Inv t := by
  unfold execHostSnoop
  refine runEvent_inv h (fun s h => ?_)
  repeat'
    first
      | with_reducible assumption
      | with_reducible refine State.homePut_inv ?_
      | intro _
      | with_reducible refine Inv.getD ?_ ?_
      | with_reducible refine Inv.foldl ?_ ?_
      | with_reducible refine Inv.ite ?_ ?_

theorem execYosonTimeout_inv {x0} {s : State} {t : State} (h : Inv s) :
    execYosonTimeout x0 s = .next t → Inv t := by
  unfold execYosonTimeout
  refine runEvent_inv h (fun s h => ?_)
  (try dsimp only)
  repeat'
    first
      | with_reducible assumption
      | with_reducible refine State.modPkg_inv ?_ ?_
      | intro _
      | with_reducible refine Inv.getD ?_ ?_
      | with_reducible refine Inv.foldl ?_ ?_
      | with_reducible refine Inv.ite ?_ ?_
      | split
      | with_reducible refine Inv.snd (by assumption) ?_
      | with_reducible refine Inv.fold ?_
      | with_reducible refine Inv.mk ?_
      | with_reducible refine PkgOk.fold ?_
      | with_reducible refine PkgOk.mk ?_

theorem execYosonPortFail_inv {x0} {s : State} {t : State} (h : Inv s) :
    execYosonPortFail x0 s = .next t → Inv t := by
  unfold execYosonPortFail
  refine runEvent_inv h (fun s h => ?_)
  repeat'
    first
      | with_reducible assumption

theorem execFrameReceive_inv {x0} {x1} {x2} {s : State} {t : State} (h : Inv s) :
    execFrameReceive x0 x1 x2 s = .next t → Inv t := by
  unfold execFrameReceive
  refine runEvent_inv h (fun s h => ?_)
  repeat'
    first
      | with_reducible assumption
      | with_reducible refine State.frameIn_inv ?_

theorem execNvmeCompletion_inv {x0} {x1} {x2} {x3} {s : State} {t : State} (h : Inv s) :
    execNvmeCompletion x0 x1 x2 x3 s = .next t → Inv t := by
  unfold execNvmeCompletion
  refine runEvent_inv h (fun s h => ?_)
  repeat'
    first
      | with_reducible assumption
      | with_reducible refine State.nvmeWrite_inv ?_
      | intro _
      | with_reducible refine Inv.getD ?_ ?_
      | with_reducible refine Inv.foldl ?_ ?_
      | with_reducible refine Inv.ite ?_ ?_

theorem execPowerUp_inv {s : State} {t : State} (h : Inv s) :
    execPowerUp s = .next t → Inv t := by
  intro e
  unfold execPowerUp at e
  cases e
  refine State.modPkg_inv ?_ (fun k => PkgOk.mk k)
  split
  · exact h
  · exact State.powerCycle_inv h

theorem execLoadfe_inv {s : State} {t : State} (h : Inv s) :
    execLoadfe s = .next t → Inv t := by
  unfold execLoadfe
  refine runEvent_inv h (fun s h => ?_)
  repeat'
    first
      | with_reducible assumption
      | with_reducible refine State.mbServe_inv ?_

theorem execLoaddie_inv {x0} {s : State} {t : State} (h : Inv s) :
    execLoaddie x0 s = .next t → Inv t := by
  unfold execLoaddie
  refine runEvent_inv h (fun s h => ?_)
  repeat'
    first
      | with_reducible assumption
      | with_reducible refine State.mbServe_inv ?_

theorem execQuote_inv {s : State} {t : State} (h : Inv s) :
    execQuote s = .next t → Inv t := by
  unfold execQuote
  refine runEvent_inv h (fun s h => ?_)
  repeat'
    first
      | with_reducible assumption
      | with_reducible refine State.mbServe_inv ?_

theorem execClockPlan_inv {x0} {s : State} {t : State} (h : Inv s) :
    execClockPlan x0 s = .next t → Inv t := by
  unfold execClockPlan
  refine runEvent_inv h (fun s h => ?_)
  repeat'
    first
      | with_reducible assumption
      | with_reducible refine State.planClock_inv ?_

theorem execPowerMeasure_inv {x0} {x1} {s : State} {t : State} (h : Inv s) :
    execPowerMeasure x0 x1 s = .next t → Inv t := by
  unfold execPowerMeasure
  refine runEvent_inv h (fun s h => ?_)
  repeat'
    first
      | with_reducible assumption
      | with_reducible refine State.measurePower_inv ?_

theorem execSupplyShutdown_inv {s : State} {t : State} (h : Inv s) :
    execSupplyShutdown s = .next t → Inv t := by
  unfold execSupplyShutdown
  refine runEvent_inv h (fun s h => ?_)
  repeat'
    first
      | with_reducible assumption
      | with_reducible refine State.packageOff_inv ?_

theorem execPackageLoss_inv {s : State} {t : State} (h : Inv s) :
    execPackageLoss s = .next t → Inv t := by
  unfold execPackageLoss
  refine runEvent_inv h (fun s h => ?_)
  repeat'
    first
      | with_reducible assumption
      | with_reducible refine State.packageOff_inv ?_

theorem execCeClear_inv {x0} {s : State} {t : State} (h : Inv s) :
    execCeClear x0 s = .next t → Inv t := by
  unfold execCeClear
  refine runEvent_inv h (fun s h => ?_)
  repeat'
    first
      | with_reducible assumption
      | with_reducible refine State.ceClear_inv ?_
      | intro _
      | with_reducible refine Inv.getD ?_ ?_
      | with_reducible refine Inv.foldl ?_ ?_
      | with_reducible refine Inv.ite ?_ ?_

theorem execUnmatchedClear_inv {x0} {s : State} {t : State} (h : Inv s) :
    execUnmatchedClear x0 s = .next t → Inv t := by
  unfold execUnmatchedClear
  refine runEvent_inv h (fun s h => ?_)
  repeat'
    first
      | with_reducible assumption
      | with_reducible refine State.clearUnmatched_inv ?_

theorem execBadfcsClear_inv {x0} {s : State} {t : State} (h : Inv s) :
    execBadfcsClear x0 s = .next t → Inv t := by
  unfold execBadfcsClear
  refine runEvent_inv h (fun s h => ?_)
  repeat'
    first
      | with_reducible assumption
      | with_reducible refine State.clearBadfcs_inv ?_

theorem execRingEnable_inv {x0} {x1} {x2} {s : State} {t : State} (h : Inv s) :
    execRingEnable x0 x1 x2 s = .next t → Inv t := by
  unfold execRingEnable
  refine runEvent_inv h (fun s h => ?_)
  repeat'
    first
      | with_reducible assumption
      | with_reducible refine State.ringSwitch_inv ?_
      | intro _
      | with_reducible refine Inv.getD ?_ ?_
      | with_reducible refine Inv.foldl ?_ ?_
      | with_reducible refine Inv.ite ?_ ?_

theorem execCsetWrite_inv {x0} {x1} {x2} {s : State} {t : State} (h : Inv s) :
    execCsetWrite x0 x1 x2 s = .next t → Inv t := by
  unfold execCsetWrite
  refine runEvent_inv h (fun s h => ?_)
  repeat'
    first
      | with_reducible assumption
      | with_reducible refine State.csetWrite_inv ?_

theorem execRegisterWrite_inv {x0} {x1} {x2} {s : State} {t : State} (h : Inv s) :
    execRegisterWrite x0 x1 x2 s = .next t → Inv t := by
  unfold execRegisterWrite
  refine runEvent_inv h (fun s h => ?_)
  repeat'
    first
      | with_reducible assumption
      | with_reducible refine State.ctlPerform_inv ?_

theorem execEthernetLinkChange_inv {x0} {x1} {s : State} {t : State} (h : Inv s) :
    execEthernetLinkChange x0 x1 s = .next t → Inv t := by
  unfold execEthernetLinkChange
  refine runEvent_inv h (fun s h => ?_)
  repeat'
    first
      | with_reducible assumption
      | with_reducible refine State.modEth_inv ?_
      | intro _
      | with_reducible refine Inv.getD ?_ ?_
      | with_reducible refine Inv.foldl ?_ ?_
      | with_reducible refine Inv.ite ?_ ?_

theorem execYosonlinkRequest_inv {x0} {s : State} {t : State} (h : Inv s) :
    execYosonlinkRequest x0 s = .next t → Inv t := by
  unfold execYosonlinkRequest
  refine runEvent_inv h (fun s h => ?_)
  (try dsimp only)
  repeat'
    first
      | with_reducible assumption
      | with_reducible refine State.homePut_inv ?_
      | with_reducible refine State.remoteAtom_inv ?_
      | intro _
      | with_reducible refine Inv.getD ?_ ?_
      | with_reducible refine Inv.foldl ?_ ?_
      | with_reducible refine Inv.ite ?_ ?_
      | split

/-- Whatever an instruction does, a next state keeps the invariant. -/
theorem exec_inv (i : Instr) {s t : State} (h : Inv s) (e : exec i s = .next t) : Inv t := by
  cases i with
  | mov a0 a1 a2 => exact execMov_inv (x0 := a0) (x1 := a1) (x2 := a2) h e
  | iadd a0 a1 a2 a3 a4 => exact execIadd_inv (x0 := a0) (x1 := a1) (x2 := a2) (x3 := a3) (x4 := a4) h e
  | iadd64 a0 a1 a2 a3 => exact execIadd64_inv (x0 := a0) (x1 := a1) (x2 := a2) (x3 := a3) h e
  | isub a0 a1 a2 a3 a4 => exact execIsub_inv (x0 := a0) (x1 := a1) (x2 := a2) (x3 := a3) (x4 := a4) h e
  | isub64 a0 a1 a2 a3 => exact execIsub64_inv (x0 := a0) (x1 := a1) (x2 := a2) (x3 := a3) h e
  | imul a0 a1 a2 a3 => exact execImul_inv (x0 := a0) (x1 := a1) (x2 := a2) (x3 := a3) h e
  | imulh a0 a1 a2 a3 => exact execImulh_inv (x0 := a0) (x1 := a1) (x2 := a2) (x3 := a3) h e
  | imulhu a0 a1 a2 a3 => exact execImulhu_inv (x0 := a0) (x1 := a1) (x2 := a2) (x3 := a3) h e
  | imad a0 a1 a2 a3 a4 => exact execImad_inv (x0 := a0) (x1 := a1) (x2 := a2) (x3 := a3) (x4 := a4) h e
  | imadw a0 a1 a2 a3 a4 a5 => exact execImadw_inv (x0 := a0) (x1 := a1) (x2 := a2) (x3 := a3) (x4 := a4) (x5 := a5) h e
  | idiv a0 a1 a2 a3 a4 => exact execIdiv_inv (x0 := a0) (x1 := a1) (x2 := a2) (x3 := a3) (x4 := a4) h e
  | irem a0 a1 a2 a3 a4 => exact execIrem_inv (x0 := a0) (x1 := a1) (x2 := a2) (x3 := a3) (x4 := a4) h e
  | imin a0 a1 a2 a3 a4 => exact execImin_inv (x0 := a0) (x1 := a1) (x2 := a2) (x3 := a3) (x4 := a4) h e
  | imax a0 a1 a2 a3 a4 => exact execImax_inv (x0 := a0) (x1 := a1) (x2 := a2) (x3 := a3) (x4 := a4) h e
  | iabs a0 a1 a2 a3 => exact execIabs_inv (x0 := a0) (x1 := a1) (x2 := a2) (x3 := a3) h e
  | isad a0 a1 a2 a3 a4 a5 => exact execIsad_inv (x0 := a0) (x1 := a1) (x2 := a2) (x3 := a3) (x4 := a4) (x5 := a5) h e
  | and a0 a1 a2 a3 => exact execAnd_inv (x0 := a0) (x1 := a1) (x2 := a2) (x3 := a3) h e
  | or a0 a1 a2 a3 => exact execOr_inv (x0 := a0) (x1 := a1) (x2 := a2) (x3 := a3) h e
  | xor a0 a1 a2 a3 => exact execXor_inv (x0 := a0) (x1 := a1) (x2 := a2) (x3 := a3) h e
  | andn a0 a1 a2 a3 => exact execAndn_inv (x0 := a0) (x1 := a1) (x2 := a2) (x3 := a3) h e
  | shl a0 a1 a2 a3 => exact execShl_inv (x0 := a0) (x1 := a1) (x2 := a2) (x3 := a3) h e
  | shr a0 a1 a2 a3 => exact execShr_inv (x0 := a0) (x1 := a1) (x2 := a2) (x3 := a3) h e
  | sar a0 a1 a2 a3 => exact execSar_inv (x0 := a0) (x1 := a1) (x2 := a2) (x3 := a3) h e
  | shl64 a0 a1 a2 a3 => exact execShl64_inv (x0 := a0) (x1 := a1) (x2 := a2) (x3 := a3) h e
  | shr64 a0 a1 a2 a3 => exact execShr64_inv (x0 := a0) (x1 := a1) (x2 := a2) (x3 := a3) h e
  | sar64 a0 a1 a2 a3 => exact execSar64_inv (x0 := a0) (x1 := a1) (x2 := a2) (x3 := a3) h e
  | fshl a0 a1 a2 a3 a4 a5 => exact execFshl_inv (x0 := a0) (x1 := a1) (x2 := a2) (x3 := a3) (x4 := a4) (x5 := a5) h e
  | fshr a0 a1 a2 a3 a4 a5 => exact execFshr_inv (x0 := a0) (x1 := a1) (x2 := a2) (x3 := a3) (x4 := a4) (x5 := a5) h e
  | popc a0 a1 a2 => exact execPopc_inv (x0 := a0) (x1 := a1) (x2 := a2) h e
  | clz a0 a1 a2 => exact execClz_inv (x0 := a0) (x1 := a1) (x2 := a2) h e
  | ctz a0 a1 a2 => exact execCtz_inv (x0 := a0) (x1 := a1) (x2 := a2) h e
  | brev a0 a1 a2 => exact execBrev_inv (x0 := a0) (x1 := a1) (x2 := a2) h e
  | bfe a0 a1 a2 a3 a4 a5 => exact execBfe_inv (x0 := a0) (x1 := a1) (x2 := a2) (x3 := a3) (x4 := a4) (x5 := a5) h e
  | bfi a0 a1 a2 a3 a4 => exact execBfi_inv (x0 := a0) (x1 := a1) (x2 := a2) (x3 := a3) (x4 := a4) h e
  | sext a0 a1 a2 a3 => exact execSext_inv (x0 := a0) (x1 := a1) (x2 := a2) (x3 := a3) h e
  | zext a0 a1 a2 a3 => exact execZext_inv (x0 := a0) (x1 := a1) (x2 := a2) (x3 := a3) h e
  | icmp a0 a1 a2 a3 a4 a5 => exact execIcmp_inv (x0 := a0) (x1 := a1) (x2 := a2) (x3 := a3) (x4 := a4) (x5 := a5) h e
  | icmp64 a0 a1 a2 a3 a4 a5 => exact execIcmp64_inv (x0 := a0) (x1 := a1) (x2 := a2) (x3 := a3) (x4 := a4) (x5 := a5) h e
  | sel a0 a1 a2 a3 a4 a5 => exact execSel_inv (x0 := a0) (x1 := a1) (x2 := a2) (x3 := a3) (x4 := a4) (x5 := a5) h e
  | plop a0 a1 a2 a3 a4 => exact execPlop_inv (x0 := a0) (x1 := a1) (x2 := a2) (x3 := a3) (x4 := a4) h e
  | lea a0 a1 a2 a3 a4 a5 a6 => exact execLea_inv (x0 := a0) (x1 := a1) (x2 := a2) (x3 := a3) (x4 := a4) (x5 := a5) (x6 := a6) h e
  | moviFull a0 a1 a2 => exact execMoviFull_inv (x0 := a0) (x1 := a1) (x2 := a2) h e
  | moviWide a0 a1 a2 => exact execMoviWide_inv (x0 := a0) (x1 := a1) (x2 := a2) h e
  | movihFull a0 a1 a2 => exact execMovihFull_inv (x0 := a0) (x1 := a1) (x2 := a2) h e
  | movihWide a0 a1 a2 => exact execMovihWide_inv (x0 := a0) (x1 := a1) (x2 := a2) h e
  | iaddiFull a0 a1 a2 a3 => exact execIaddiFull_inv (x0 := a0) (x1 := a1) (x2 := a2) (x3 := a3) h e
  | iaddiWide a0 a1 a2 => exact execIaddiWide_inv (x0 := a0) (x1 := a1) (x2 := a2) h e
  | qxch a0 a1 a2 a3 => exact execQxch_inv (x0 := a0) (x1 := a1) (x2 := a2) (x3 := a3) h e
  | shfl a0 a1 a2 a3 a4 a5 => exact execShfl_inv (x0 := a0) (x1 := a1) (x2 := a2) (x3 := a3) (x4 := a4) (x5 := a5) h e
  | vote a0 a1 a2 a3 => exact execVote_inv (x0 := a0) (x1 := a1) (x2 := a2) (x3 := a3) h e
  | ballot a0 a1 a2 => exact execBallot_inv (x0 := a0) (x1 := a1) (x2 := a2) h e
  | matchw a0 a1 a2 a3 => exact execMatchw_inv (x0 := a0) (x1 := a1) (x2 := a2) (x3 := a3) h e
  | elect a0 a1 => exact execElect_inv (x0 := a0) (x1 := a1) h e
  | readlane a0 a1 a2 a3 => exact execReadlane_inv (x0 := a0) (x1 := a1) (x2 := a2) (x3 := a3) h e
  | writelane a0 a1 a2 a3 => exact execWritelane_inv (x0 := a0) (x1 := a1) (x2 := a2) (x3 := a3) h e
  | gred a0 a1 a2 a3 => exact execGred_inv (x0 := a0) (x1 := a1) (x2 := a2) (x3 := a3) h e
  | gscan a0 a1 a2 a3 a4 => exact execGscan_inv (x0 := a0) (x1 := a1) (x2 := a2) (x3 := a3) (x4 := a4) h e
  | mask a0 a1 a2 => exact execMask_inv (x0 := a0) (x1 := a1) (x2 := a2) h e
  | pairWord a0 a1 a2 a3 => exact execPairWord_inv (x0 := a0) (x1 := a1) (x2 := a2) (x3 := a3) h e
  | nop a0 => exact execNop_inv (x0 := a0) h e
  | braFull a0 a1 => exact execBraFull_inv (x0 := a0) (x1 := a1) h e
  | braWide a0 a1 => exact execBraWide_inv (x0 := a0) (x1 := a1) h e
  | brx a0 a1 => exact execBrx_inv (x0 := a0) (x1 := a1) h e
  | bruFull a0 a1 => exact execBruFull_inv (x0 := a0) (x1 := a1) h e
  | bruWide a0 a1 => exact execBruWide_inv (x0 := a0) (x1 := a1) h e
  | callFull a0 a1 => exact execCallFull_inv (x0 := a0) (x1 := a1) h e
  | callWide a0 a1 => exact execCallWide_inv (x0 := a0) (x1 := a1) h e
  | callx a0 a1 => exact execCallx_inv (x0 := a0) (x1 := a1) h e
  | ret a0 => exact execRet_inv (x0 := a0) h e
  | exit a0 => exact execExit_inv (x0 := a0) h e
  | yield a0 a1 => exact execYield_inv (x0 := a0) (x1 := a1) h e
  | rdvpc a0 a1 a2 => exact execRdvpc_inv (x0 := a0) (x1 := a1) (x2 := a2) h e
  | wrvpc a0 a1 a2 => exact execWrvpc_inv (x0 := a0) (x1 := a1) (x2 := a2) h e
  | sleepc a0 a1 => exact execSleepc_inv (x0 := a0) (x1 := a1) h e
  | trap a0 a1 => exact execTrap_inv (x0 := a0) (x1 := a1) h e
  | bkpt a0 a1 => exact execBkpt_inv (x0 := a0) (x1 := a1) h e
  | hret a0 => exact execHret_inv (x0 := a0) h e
  | push a0 a1 a2 => exact execPush_inv (x0 := a0) (x1 := a1) (x2 := a2) h e
  | pop a0 a1 a2 => exact execPop_inv (x0 := a0) (x1 := a1) (x2 := a2) h e
  | salloc a0 a1 a2 => exact execSalloc_inv (x0 := a0) (x1 := a1) (x2 := a2) h e
  | sfree a0 a1 => exact execSfree_inv (x0 := a0) (x1 := a1) h e
  | fadd a0 a1 a2 a3 a4 a5 => exact execFadd_inv (x0 := a0) (x1 := a1) (x2 := a2) (x3 := a3) (x4 := a4) (x5 := a5) h e
  | fsub a0 a1 a2 a3 a4 a5 => exact execFsub_inv (x0 := a0) (x1 := a1) (x2 := a2) (x3 := a3) (x4 := a4) (x5 := a5) h e
  | fmul a0 a1 a2 a3 a4 a5 => exact execFmul_inv (x0 := a0) (x1 := a1) (x2 := a2) (x3 := a3) (x4 := a4) (x5 := a5) h e
  | ffma a0 a1 a2 a3 a4 a5 a6 a7 => exact execFfma_inv (x0 := a0) (x1 := a1) (x2 := a2) (x3 := a3) (x4 := a4) (x5 := a5) (x6 := a6) (x7 := a7) h e
  | ffma2 a0 a1 a2 a3 a4 a5 a6 a7 => exact execFfma2_inv (x0 := a0) (x1 := a1) (x2 := a2) (x3 := a3) (x4 := a4) (x5 := a5) (x6 := a6) (x7 := a7) h e
  | fmin a0 a1 a2 a3 a4 a5 => exact execFmin_inv (x0 := a0) (x1 := a1) (x2 := a2) (x3 := a3) (x4 := a4) (x5 := a5) h e
  | fmax a0 a1 a2 a3 a4 a5 => exact execFmax_inv (x0 := a0) (x1 := a1) (x2 := a2) (x3 := a3) (x4 := a4) (x5 := a5) h e
  | fcmp a0 a1 a2 a3 a4 a5 => exact execFcmp_inv (x0 := a0) (x1 := a1) (x2 := a2) (x3 := a3) (x4 := a4) (x5 := a5) h e
  | hadd2 a0 a1 a2 a3 => exact execHadd2_inv (x0 := a0) (x1 := a1) (x2 := a2) (x3 := a3) h e
  | hmul2 a0 a1 a2 a3 => exact execHmul2_inv (x0 := a0) (x1 := a1) (x2 := a2) (x3 := a3) h e
  | hfma2 a0 a1 a2 a3 a4 => exact execHfma2_inv (x0 := a0) (x1 := a1) (x2 := a2) (x3 := a3) (x4 := a4) h e
  | badd2 a0 a1 a2 a3 => exact execBadd2_inv (x0 := a0) (x1 := a1) (x2 := a2) (x3 := a3) h e
  | bmul2 a0 a1 a2 a3 => exact execBmul2_inv (x0 := a0) (x1 := a1) (x2 := a2) (x3 := a3) h e
  | bfma2 a0 a1 a2 a3 a4 => exact execBfma2_inv (x0 := a0) (x1 := a1) (x2 := a2) (x3 := a3) (x4 := a4) h e
  | frcp a0 a1 a2 a3 => exact execFrcp_inv (x0 := a0) (x1 := a1) (x2 := a2) (x3 := a3) h e
  | frsq a0 a1 a2 a3 => exact execFrsq_inv (x0 := a0) (x1 := a1) (x2 := a2) (x3 := a3) h e
  | fsqrt a0 a1 a2 a3 => exact execFsqrt_inv (x0 := a0) (x1 := a1) (x2 := a2) (x3 := a3) h e
  | fex2 a0 a1 a2 a3 => exact execFex2_inv (x0 := a0) (x1 := a1) (x2 := a2) (x3 := a3) h e
  | flg2 a0 a1 a2 a3 => exact execFlg2_inv (x0 := a0) (x1 := a1) (x2 := a2) (x3 := a3) h e
  | fsin a0 a1 a2 a3 => exact execFsin_inv (x0 := a0) (x1 := a1) (x2 := a2) (x3 := a3) h e
  | fcos a0 a1 a2 a3 => exact execFcos_inv (x0 := a0) (x1 := a1) (x2 := a2) (x3 := a3) h e
  | ftanh a0 a1 a2 a3 => exact execFtanh_inv (x0 := a0) (x1 := a1) (x2 := a2) (x3 := a3) h e
  | fdiv a0 a1 a2 a3 a4 => exact execFdiv_inv (x0 := a0) (x1 := a1) (x2 := a2) (x3 := a3) (x4 := a4) h e
  | cvt a0 a1 a2 a3 a4 a5 a6 => exact execCvt_inv (x0 := a0) (x1 := a1) (x2 := a2) (x3 := a3) (x4 := a4) (x5 := a5) (x6 := a6) h e
  | cvtp a0 a1 a2 a3 a4 a5 a6 => exact execCvtp_inv (x0 := a0) (x1 := a1) (x2 := a2) (x3 := a3) (x4 := a4) (x5 := a5) (x6 := a6) h e
  | unpk a0 a1 a2 a3 => exact execUnpk_inv (x0 := a0) (x1 := a1) (x2 := a2) (x3 := a3) h e
  | qblk a0 a1 a2 a3 => exact execQblk_inv (x0 := a0) (x1 := a1) (x2 := a2) (x3 := a3) h e
  | mxq a0 a1 a2 a3 a4 => exact execMxq_inv (x0 := a0) (x1 := a1) (x2 := a2) (x3 := a3) (x4 := a4) h e
  | fred a0 a1 a2 a3 a4 => exact execFred_inv (x0 := a0) (x1 := a1) (x2 := a2) (x3 := a3) (x4 := a4) h e
  | cmulh2 a0 a1 a2 a3 a4 => exact execCmulh2_inv (x0 := a0) (x1 := a1) (x2 := a2) (x3 := a3) (x4 := a4) h e
  | cfmah2 a0 a1 a2 a3 a4 a5 => exact execCfmah2_inv (x0 := a0) (x1 := a1) (x2 := a2) (x3 := a3) (x4 := a4) (x5 := a5) h e
  | ld a0 a1 a2 a3 a4 => exact execLd_inv (x0 := a0) (x1 := a1) (x2 := a2) (x3 := a3) (x4 := a4) h e
  | st a0 a1 a2 a3 a4 => exact execSt_inv (x0 := a0) (x1 := a1) (x2 := a2) (x3 := a3) (x4 := a4) h e
  | ldu a0 a1 a2 a3 a4 => exact execLdu_inv (x0 := a0) (x1 := a1) (x2 := a2) (x3 := a3) (x4 := a4) h e
  | stu a0 a1 a2 a3 a4 => exact execStu_inv (x0 := a0) (x1 := a1) (x2 := a2) (x3 := a3) (x4 := a4) h e
  | touch a0 a1 a2 a3 => exact execTouch_inv (x0 := a0) (x1 := a1) (x2 := a2) (x3 := a3) h e
  | pref a0 a1 a2 a3 => exact execPref_inv (x0 := a0) (x1 := a1) (x2 := a2) (x3 := a3) h e
  | flush a0 a1 a2 a3 => exact execFlush_inv (x0 := a0) (x1 := a1) (x2 := a2) (x3 := a3) h e
  | inv a0 a1 a2 a3 => exact execInv_inv (x0 := a0) (x1 := a1) (x2 := a2) (x3 := a3) h e
  | vprobe a0 a1 a2 a3 => exact execVprobe_inv (x0 := a0) (x1 := a1) (x2 := a2) (x3 := a3) h e
  | atom a0 a1 a2 a3 a4 a5 => exact execAtom_inv (x0 := a0) (x1 := a1) (x2 := a2) (x3 := a3) (x4 := a4) (x5 := a5) h e
  | cas a0 a1 a2 a3 a4 => exact execCas_inv (x0 := a0) (x1 := a1) (x2 := a2) (x3 := a3) (x4 := a4) h e
  | casar a0 a1 a2 a3 a4 a5 => exact execCasar_inv (x0 := a0) (x1 := a1) (x2 := a2) (x3 := a3) (x4 := a4) (x5 := a5) h e
  | red a0 a1 a2 a3 a4 => exact execRed_inv (x0 := a0) (x1 := a1) (x2 := a2) (x3 := a3) (x4 := a4) h e
  | fatom a0 a1 a2 a3 a4 a5 => exact execFatom_inv (x0 := a0) (x1 := a1) (x2 := a2) (x3 := a3) (x4 := a4) (x5 := a5) h e
  | fredm a0 a1 a2 a3 a4 => exact execFredm_inv (x0 := a0) (x1 := a1) (x2 := a2) (x3 := a3) (x4 := a4) h e
  | fence a0 a1 a2 => exact execFence_inv (x0 := a0) (x1 := a1) (x2 := a2) h e
  | fencex a0 a1 => exact execFencex_inv (x0 := a0) (x1 := a1) h e
  | bara a0 a1 a2 => exact execBara_inv (x0 := a0) (x1 := a1) (x2 := a2) h e
  | barw a0 a1 a2 => exact execBarw_inv (x0 := a0) (x1 := a1) (x2 := a2) h e
  | bars a0 a1 => exact execBars_inv (x0 := a0) (x1 := a1) h e
  | cbara a0 a1 a2 => exact execCbara_inv (x0 := a0) (x1 := a1) (x2 := a2) h e
  | cbarw a0 a1 a2 => exact execCbarw_inv (x0 := a0) (x1 := a1) (x2 := a2) h e
  | cbars a0 a1 => exact execCbars_inv (x0 := a0) (x1 := a1) h e
  | barx a0 a1 a2 => exact execBarx_inv (x0 := a0) (x1 := a1) (x2 := a2) h e
  | watch a0 a1 a2 a3 a4 => exact execWatch_inv (x0 := a0) (x1 := a1) (x2 := a2) (x3 := a3) (x4 := a4) h e
  | watcht a0 a1 a2 a3 a4 a5 => exact execWatcht_inv (x0 := a0) (x1 := a1) (x2 := a2) (x3 := a3) (x4 := a4) (x5 := a5) h e
  | watchh a0 a1 a2 a3 a4 a5 => exact execWatchh_inv (x0 := a0) (x1 := a1) (x2 := a2) (x3 := a3) (x4 := a4) (x5 := a5) h e
  | talloc a0 a1 a2 a3 => exact execTalloc_inv (x0 := a0) (x1 := a1) (x2 := a2) (x3 := a3) h e
  | tfree a0 a1 => exact execTfree_inv (x0 := a0) (x1 := a1) h e
  | tstate a0 a1 a2 a3 => exact execTstate_inv (x0 := a0) (x1 := a1) (x2 := a2) (x3 := a3) h e
  | twait a0 a1 a2 a3 => exact execTwait_inv (x0 := a0) (x1 := a1) (x2 := a2) (x3 := a3) h e
  | ttest a0 a1 a2 a3 a4 => exact execTtest_inv (x0 := a0) (x1 := a1) (x2 := a2) (x3 := a3) (x4 := a4) h e
  | texpect a0 a1 a2 => exact execTexpect_inv (x0 := a0) (x1 := a1) (x2 := a2) h e
  | tdrain a0 a1 => exact execTdrain_inv (x0 := a0) (x1 := a1) h e
  | xload a0 a1 a2 a3 a4 a5 a6 a7 => exact execXload_inv (x0 := a0) (x1 := a1) (x2 := a2) (x3 := a3) (x4 := a4) (x5 := a5) (x6 := a6) (x7 := a7) h e
  | xstore a0 a1 a2 a3 => exact execXstore_inv (x0 := a0) (x1 := a1) (x2 := a2) (x3 := a3) h e
  | xfence a0 a1 => exact execXfence_inv (x0 := a0) (x1 := a1) h e
  | xstat a0 a1 => exact execXstat_inv (x0 := a0) (x1 := a1) h e
  | xpref a0 a1 a2 => exact execXpref_inv (x0 := a0) (x1 := a1) (x2 := a2) h e
  | mma a0 a1 a2 a3 a4 a5 => exact execMma_inv (x0 := a0) (x1 := a1) (x2 := a2) (x3 := a3) (x4 := a4) (x5 := a5) h e
  | mmas a0 a1 a2 a3 a4 a5 => exact execMmas_inv (x0 := a0) (x1 := a1) (x2 := a2) (x3 := a3) (x4 := a4) (x5 := a5) h e
  | mmac a0 a1 a2 a3 a4 a5 => exact execMmac_inv (x0 := a0) (x1 := a1) (x2 := a2) (x3 := a3) (x4 := a4) (x5 := a5) h e
  | mmax a0 a1 a2 a3 a4 => exact execMmax_inv (x0 := a0) (x1 := a1) (x2 := a2) (x3 := a3) (x4 := a4) h e
  | ldm a0 a1 a2 a3 a4 => exact execLdm_inv (x0 := a0) (x1 := a1) (x2 := a2) (x3 := a3) (x4 := a4) h e
  | stm a0 a1 a2 a3 a4 => exact execStm_inv (x0 := a0) (x1 := a1) (x2 := a2) (x3 := a3) (x4 := a4) h e
  | mxb a0 a1 a2 a3 a4 => exact execMxb_inv (x0 := a0) (x1 := a1) (x2 := a2) (x3 := a3) (x4 := a4) h e
  | mxbw a0 a1 a2 => exact execMxbw_inv (x0 := a0) (x1 := a1) (x2 := a2) h e
  | mxbt a0 a1 a2 => exact execMxbt_inv (x0 := a0) (x1 := a1) (x2 := a2) h e
  | accz a0 a1 a2 => exact execAccz_inv (x0 := a0) (x1 := a1) (x2 := a2) h e
  | accld a0 a1 a2 a3 a4 => exact execAccld_inv (x0 := a0) (x1 := a1) (x2 := a2) (x3 := a3) (x4 := a4) h e
  | accst a0 a1 a2 a3 a4 a5 a6 a7 => exact execAccst_inv (x0 := a0) (x1 := a1) (x2 := a2) (x3 := a3) (x4 := a4) (x5 := a5) (x6 := a6) (x7 := a7) h e
  | accrd a0 a1 a2 => exact execAccrd_inv (x0 := a0) (x1 := a1) (x2 := a2) h e
  | slvcfg a0 a1 a2 a3 => exact execSlvcfg_inv (x0 := a0) (x1 := a1) (x2 := a2) (x3 := a3) h e
  | slvinit a0 a1 a2 a3 => exact execSlvinit_inv (x0 := a0) (x1 := a1) (x2 := a2) (x3 := a3) h e
  | slvstage a0 a1 a2 a3 => exact execSlvstage_inv (x0 := a0) (x1 := a1) (x2 := a2) (x3 := a3) h e
  | slvput a0 a1 a2 a3 => exact execSlvput_inv (x0 := a0) (x1 := a1) (x2 := a2) (x3 := a3) h e
  | slvstep a0 a1 a2 a3 => exact execSlvstep_inv (x0 := a0) (x1 := a1) (x2 := a2) (x3 := a3) h e
  | slvstat a0 a1 a2 a3 => exact execSlvstat_inv (x0 := a0) (x1 := a1) (x2 := a2) (x3 := a3) h e
  | launch a0 a1 a2 => exact execLaunch_inv (x0 := a0) (x1 := a1) (x2 := a2) h e
  | emit a0 a1 a2 a3 => exact execEmit_inv (x0 := a0) (x1 := a1) (x2 := a2) (x3 := a3) h e
  | cont a0 a1 a2 a3 => exact execCont_inv (x0 := a0) (x1 := a1) (x2 := a2) (x3 := a3) h e
  | notify a0 a1 a2 a3 => exact execNotify_inv (x0 := a0) (x1 := a1) (x2 := a2) (x3 := a3) h e
  | nodeq a0 a1 a2 => exact execNodeq_inv (x0 := a0) (x1 := a1) (x2 := a2) h e
  | rdsys a0 a1 a2 a3 => exact execRdsys_inv (x0 := a0) (x1 := a1) (x2 := a2) (x3 := a3) h e
  | wrsys a0 a1 a2 a3 => exact execWrsys_inv (x0 := a0) (x1 := a1) (x2 := a2) (x3 := a3) h e
  | syscall a0 a1 a2 a3 => exact execSyscall_inv (x0 := a0) (x1 := a1) (x2 := a2) (x3 := a3) h e
  | tret a0 a1 a2 a3 a4 => exact execTret_inv (x0 := a0) (x1 := a1) (x2 := a2) (x3 := a3) (x4 := a4) h e
  | ctxload a0 a1 a2 a3 => exact execCtxload_inv (x0 := a0) (x1 := a1) (x2 := a2) (x3 := a3) h e
  | ctxsaveEvict a0 a1 a2 a3 => exact execCtxsaveEvict_inv (x0 := a0) (x1 := a1) (x2 := a2) (x3 := a3) h e
  | ctxsaveDestroy a0 a1 a2 => exact execCtxsaveDestroy_inv (x0 := a0) (x1 := a1) (x2 := a2) h e
  | preemptSpatial a0 a1 a2 => exact execPreemptSpatial_inv (x0 := a0) (x1 := a1) (x2 := a2) h e
  | preemptHalt a0 a1 a2 => exact execPreemptHalt_inv (x0 := a0) (x1 := a1) (x2 := a2) h e
  | preemptStop a0 a1 a2 => exact execPreemptStop_inv (x0 := a0) (x1 := a1) (x2 := a2) h e
  | preemptResume a0 a1 a2 => exact execPreemptResume_inv (x0 := a0) (x1 := a1) (x2 := a2) h e
  | preemptRdreg a0 a1 a2 => exact execPreemptRdreg_inv (x0 := a0) (x1 := a1) (x2 := a2) h e
  | preemptWrreg a0 a1 a2 => exact execPreemptWrreg_inv (x0 := a0) (x1 := a1) (x2 := a2) h e
  | dump a0 a1 a2 => exact execDump_inv (x0 := a0) (x1 := a1) (x2 := a2) h e
  | msgsend a0 a1 a2 a3 a4 a5 => exact execMsgsend_inv (x0 := a0) (x1 := a1) (x2 := a2) (x3 := a3) (x4 := a4) (x5 := a5) h e
  | msgrecv a0 a1 a2 a3 => exact execMsgrecv_inv (x0 := a0) (x1 := a1) (x2 := a2) (x3 := a3) h e
  | invapply a0 a1 a2 => exact execInvapply_inv (x0 := a0) (x1 := a1) (x2 := a2) h e
  | tlbinv a0 a1 a2 => exact execTlbinv_inv (x0 := a0) (x1 := a1) (x2 := a2) h e
  | zeropg a0 a1 a2 a3 => exact execZeropg_inv (x0 := a0) (x1 := a1) (x2 := a2) (x3 := a3) h e
  | splitrd a0 a1 a2 a3 => exact execSplitrd_inv (x0 := a0) (x1 := a1) (x2 := a2) (x3 := a3) h e
  | splitsnap a0 a1 a2 a3 => exact execSplitsnap_inv (x0 := a0) (x1 := a1) (x2 := a2) (x3 := a3) h e
  | mark a0 a1 a2 => exact execMark_inv (x0 := a0) (x1 := a1) (x2 := a2) h e
  | sampcfg a0 a1 a2 => exact execSampcfg_inv (x0 := a0) (x1 := a1) (x2 := a2) h e
  | clock a0 a1 => exact execClock_inv (x0 := a0) (x1 := a1) h e
  | retcnt a0 a1 => exact execRetcnt_inv (x0 := a0) (x1 := a1) h e
  | illegalWordKill a0 => exact execIllegalWordKill_inv (x0 := a0) h e
  | sleepEnd a0 => exact execSleepEnd_inv (x0 := a0) h e
  | stackSpill a0 => exact execStackSpill_inv (x0 := a0) h e
  | stackFill a0 => exact execStackFill_inv (x0 := a0) h e
  | regionRestart a0 => exact execRegionRestart_inv (x0 := a0) h e
  | registerComplete a0 => exact execRegisterComplete_inv (x0 := a0) h e
  | sideLogReplay a0 a1 => exact execSideLogReplay_inv (x0 := a0) (x1 := a1) h e
  | chunkReissue a0 => exact execChunkReissue_inv (x0 := a0) h e
  | atomicPerform a0 => exact execAtomicPerform_inv (x0 := a0) h e
  | barrierWake a0 => exact execBarrierWake_inv (x0 := a0) h e
  | watchEvaluate a0 a1 => exact execWatchEvaluate_inv (x0 := a0) (x1 := a1) h e
  | watchTimeout a0 a1 => exact execWatchTimeout_inv (x0 := a0) (x1 := a1) h e
  | copyJobStart a0 => exact execCopyJobStart_inv (x0 := a0) h e
  | mcPartStart a0 a1 => exact execMcPartStart_inv (x0 := a0) (x1 := a1) h e
  | chunkSettle a0 => exact execChunkSettle_inv (x0 := a0) h e
  | copyJobComplete a0 => exact execCopyJobComplete_inv (x0 := a0) h e
  | mxbJobStart a0 => exact execMxbJobStart_inv (x0 := a0) h e
  | accJobStart a0 => exact execAccJobStart_inv (x0 := a0) h e
  | kblockEnd a0 => exact execKblockEnd_inv (x0 := a0) h e
  | mxbJobComplete a0 => exact execMxbJobComplete_inv (x0 := a0) h e
  | slvOpCommit a0 => exact execSlvOpCommit_inv (x0 := a0) h e
  | parseGrid a0 => exact execParseGrid_inv (x0 := a0) h e
  | parseOpen a0 => exact execParseOpen_inv (x0 := a0) h e
  | parseClose a0 => exact execParseClose_inv (x0 := a0) h e
  | nodeGather a0 a1 => exact execNodeGather_inv (x0 := a0) (x1 := a1) h e
  | gatherTimerExpiry a0 a1 => exact execGatherTimerExpiry_inv (x0 := a0) (x1 := a1) h e
  | nodeDrained a0 a1 => exact execNodeDrained_inv (x0 := a0) (x1 := a1) h e
  | placeTeam a0 => exact execPlaceTeam_inv (x0 := a0) h e
  | successorForm a0 => exact execSuccessorForm_inv (x0 := a0) h e
  | teamRetire a0 => exact execTeamRetire_inv (x0 := a0) h e
  | gridComplete a0 => exact execGridComplete_inv (x0 := a0) h e
  | queueResetComplete a0 => exact execQueueResetComplete_inv (x0 := a0) h e
  | dumpRun a0 => exact execDumpRun_inv (x0 := a0) h e
  | dumpDone a0 => exact execDumpDone_inv (x0 := a0) h e
  | trapEntry a0 => exact execTrapEntry_inv (x0 := a0) h e
  | teamSave a0 => exact execTeamSave_inv (x0 := a0) h e
  | sliceEnd a0 => exact execSliceEnd_inv (x0 := a0) h e
  | ownerChange a0 => exact execOwnerChange_inv (x0 := a0) h e
  | groomerReport a0 => exact execGroomerReport_inv (x0 := a0) h e
  | shootdownApply a0 => exact execShootdownApply_inv (x0 := a0) h e
  | lazyApply a0 => exact execLazyApply_inv (x0 := a0) h e
  | drainDone a0 => exact execDrainDone_inv (x0 := a0) h e
  | traceDeliver a0 => exact execTraceDeliver_inv (x0 := a0) h e
  | headroomDeliver a0 => exact execHeadroomDeliver_inv (x0 := a0) h e
  | writeAcknowledged a0 => exact execWriteAcknowledged_inv (x0 := a0) h e
  | touchWindowClose a0 => exact execTouchWindowClose_inv (x0 := a0) h e
  | pageWalkComplete a0 a1 a2 => exact execPageWalkComplete_inv (x0 := a0) (x1 := a1) (x2 := a2) h e
  | accessCountNotify a0 => exact execAccessCountNotify_inv (x0 := a0) h e
  | sample a0 a1 => exact execSample_inv (x0 := a0) (x1 := a1) h e
  | overflowFold a0 a1 => exact execOverflowFold_inv (x0 := a0) (x1 := a1) h e
  | correctedError a0 => exact execCorrectedError_inv (x0 := a0) h e
  | uncorrectableWriteback a0 => exact execUncorrectableWriteback_inv (x0 := a0) h e
  | patrolScrub a0 => exact execPatrolScrub_inv (x0 := a0) h e
  | qtailWrite a0 a1 => exact execQtailWrite_inv (x0 := a0) (x1 := a1) h e
  | portEnable a0 => exact execPortEnable_inv (x0 := a0) h e
  | portDisable a0 => exact execPortDisable_inv (x0 := a0) h e
  | qreset a0 => exact execQreset_inv (x0 := a0) h e
  | dieLoss a0 => exact execDieLoss_inv (x0 := a0) h e
  | fmResetRequest a0 => exact execFmResetRequest_inv (x0 := a0) h e
  | linkWidthChange a0 a1 a2 => exact execLinkWidthChange_inv (x0 := a0) (x1 := a1) (x2 := a2) h e
  | linkClockChange a0 a1 => exact execLinkClockChange_inv (x0 := a0) (x1 := a1) h e
  | hostMemAccess a0 a1 a2 => exact execHostMemAccess_inv (x0 := a0) (x1 := a1) (x2 := a2) h e
  | hostSnoop a0 a1 => exact execHostSnoop_inv (x0 := a0) (x1 := a1) h e
  | yosonTimeout a0 => exact execYosonTimeout_inv (x0 := a0) h e
  | yosonPortFail a0 => exact execYosonPortFail_inv (x0 := a0) h e
  | frameReceive a0 a1 a2 => exact execFrameReceive_inv (x0 := a0) (x1 := a1) (x2 := a2) h e
  | nvmeCompletion a0 a1 a2 a3 => exact execNvmeCompletion_inv (x0 := a0) (x1 := a1) (x2 := a2) (x3 := a3) h e
  | powerUp => exact execPowerUp_inv h e
  | loadfe => exact execLoadfe_inv h e
  | loaddie a0 => exact execLoaddie_inv (x0 := a0) h e
  | quote => exact execQuote_inv h e
  | clockPlan a0 => exact execClockPlan_inv (x0 := a0) h e
  | powerMeasure a0 a1 => exact execPowerMeasure_inv (x0 := a0) (x1 := a1) h e
  | supplyShutdown => exact execSupplyShutdown_inv h e
  | packageLoss => exact execPackageLoss_inv h e
  | ceClear a0 => exact execCeClear_inv (x0 := a0) h e
  | unmatchedClear a0 => exact execUnmatchedClear_inv (x0 := a0) h e
  | badfcsClear a0 => exact execBadfcsClear_inv (x0 := a0) h e
  | ringEnable a0 a1 a2 => exact execRingEnable_inv (x0 := a0) (x1 := a1) (x2 := a2) h e
  | csetWrite a0 a1 a2 => exact execCsetWrite_inv (x0 := a0) (x1 := a1) (x2 := a2) h e
  | registerWrite a0 a1 a2 => exact execRegisterWrite_inv (x0 := a0) (x1 := a1) (x2 := a2) h e
  | ethernetLinkChange a0 a1 => exact execEthernetLinkChange_inv (x0 := a0) (x1 := a1) h e
  | yosonlinkRequest a0 => exact execYosonlinkRequest_inv (x0 := a0) h e

end Sys2Proof.Machine
end

