-- ==== Sys2Proof/Laws/KeepNext.lean ====
section
/-! SUPPORT. What comes next keeps the machine's invariant `Inv`, before any instruction or event of it takes effect. -/

namespace Sys2Proof.Machine

/-- The state in which an act begins. -/
def Act.start : Act → State
  | .run s _ => s
  | .quiet s => s

theorem State.engineAct_inv {s : State} {a : Act} (h : Inv s) (e : s.engineAct = some a) : Inv a.start := by
  unfold State.engineAct at e
  split at e
  · cases e
  split at e
  · cases e
  · obtain ⟨i, -, rfl⟩ := Option.map_eq_some_iff.1 e
    exact ⟨h.1, PkgOk.mk (PkgOk.fold h.2)⟩

theorem State.dueAct_inv {s : State} {a : Act} (h : Inv s) (e : s.dueAct = some a) : Inv a.start := by
  unfold State.dueAct at e
  split at e
  · cases e; exact State.ctlStep_inv h
  split at e
  · cases e; exact Inv.mk h
  split at e
  · cases e; rename_i hq; exact State.quietDue_inv h _ hq
  split at e
  · cases e; exact h
  split at e
  · cases e; exact h
  split at e
  · cases e; exact h
  · exact State.engineAct_inv h e

theorem State.dryAct_inv {s : State} {d : DryRun} (h : Inv s) : Inv (s.dryAct d).start := by
  unfold State.dryAct
  dsimp only
  repeat'
    first
      | exact State.dryNext_inv h
      | exact State.dryStuck_inv h
      | exact State.fillLine_inv h
      | exact Inv.mk (Inv.fold h)
      | split

theorem State.wordAct_inv {s : State} {a : Act} (h : Inv s) (e : s.wordAct = some a) : Inv a.start := by
  unfold State.wordAct at e
  obtain ⟨x, -, rfl⟩ := Option.map_eq_some_iff.1 e
  split
  · exact Inv.mk (Inv.fold h)
  · exact h

/-- The next act begins in a state that keeps the invariant. -/
theorem State.nextAct_inv {s : State} (h : Inv s) : Inv s.nextAct.start := by
  unfold State.nextAct
  split
  · rename_i e; exact State.dueAct_inv h e
  split
  · exact State.dryAct_inv h
  split
  · rename_i e; exact State.wordAct_inv h e
  · exact State.endClk_inv h

end Sys2Proof.Machine
end

