-- ==== Sys2Proof/Laws/PerInstr.lean ====
section
/-! SUPPORT. The family Enc: for every constructor of Instr, the decoder reads a well-formed instruction back from the word that
`encode` writes for it (R28–R35, R46). -/

namespace Sys2Proof.Laws

open Machine

/-- What the family Enc says of an instruction: if it is well-formed, its word fits 64 bits and the decoder reads it from the word. -/
def Enc.Statement (i : Instr) : Prop := i.wf = true → encode i < 2 ^ 64 ∧ decodeWord (encode i) = .ok i

/-- An event has no word and is not well-formed. -/
theorem event_enc {i : Instr} (h : i.wf = false) : Enc.Statement i := fun hw => by rw [h] at hw; cases hw
theorem Enc.mov (h : Hdr) (d a : Opnd) : Enc.Statement (.mov h d a) := by
  intro hw
  refine full_ok h 0x000 (opndC d) (opndC a) (640) (0) rfl (by decide) (opnd_lt d) (opnd_lt a) (by decide) (by decide) hw (fun _ => ?_)
  simp only [candFull, full00, opnd_rt, Option.bind_eq_bind, Option.bind_some, Option.pure_def]
theorem Enc.iadd (h : Hdr) (d a b : Opnd) (m : Sat) : Enc.Statement (.iadd h d a b m) := by
  intro hw
  have := opnd_lt a
  have := opnd_lt b
  have := opnd_lt d
  have := sat_lt m
  refine full_ok h 0x001 (opndC d) (opndC a) (opndC b) (satC m) rfl (by decide) (opnd_lt d) (opnd_lt a) (opnd_lt b) (by omega) hw (fun _ => ?_)
  have e3 : (satC m) % 4 = satC m := by omega
  simp only [candFull, full00, e3, opnd_rt, sat_rt, Option.bind_eq_bind, Option.bind_some, Option.pure_def]
theorem Enc.iadd64 (h : Hdr) (d a b : Opnd) : Enc.Statement (.iadd64 h d a b) := by
  intro hw
  refine full_ok h 0x002 (opndC d) (opndC a) (opndC b) (0) rfl (by decide) (opnd_lt d) (opnd_lt a) (opnd_lt b) (by decide) hw (fun _ => ?_)
  simp only [candFull, full00, opnd_rt, Option.bind_eq_bind, Option.bind_some, Option.pure_def]
theorem Enc.isub (h : Hdr) (d a b : Opnd) (m : Sat) : Enc.Statement (.isub h d a b m) := by
  intro hw
  have := opnd_lt a
  have := opnd_lt b
  have := opnd_lt d
  have := sat_lt m
  refine full_ok h 0x003 (opndC d) (opndC a) (opndC b) (satC m) rfl (by decide) (opnd_lt d) (opnd_lt a) (opnd_lt b) (by omega) hw (fun _ => ?_)
  have e3 : (satC m) % 4 = satC m := by omega
  simp only [candFull, full00, e3, opnd_rt, sat_rt, Option.bind_eq_bind, Option.bind_some, Option.pure_def]
theorem Enc.isub64 (h : Hdr) (d a b : Opnd) : Enc.Statement (.isub64 h d a b) := by
  intro hw
  refine full_ok h 0x004 (opndC d) (opndC a) (opndC b) (0) rfl (by decide) (opnd_lt d) (opnd_lt a) (opnd_lt b) (by decide) hw (fun _ => ?_)
  simp only [candFull, full00, opnd_rt, Option.bind_eq_bind, Option.bind_some, Option.pure_def]
theorem Enc.imul (h : Hdr) (d a b : Opnd) : Enc.Statement (.imul h d a b) := by
  intro hw
  refine full_ok h 0x005 (opndC d) (opndC a) (opndC b) (0) rfl (by decide) (opnd_lt d) (opnd_lt a) (opnd_lt b) (by decide) hw (fun _ => ?_)
  simp only [candFull, full00, opnd_rt, Option.bind_eq_bind, Option.bind_some, Option.pure_def]
theorem Enc.imulh (h : Hdr) (d a b : Opnd) : Enc.Statement (.imulh h d a b) := by
  intro hw
  refine full_ok h 0x006 (opndC d) (opndC a) (opndC b) (0) rfl (by decide) (opnd_lt d) (opnd_lt a) (opnd_lt b) (by decide) hw (fun _ => ?_)
  simp only [candFull, full00, opnd_rt, Option.bind_eq_bind, Option.bind_some, Option.pure_def]
theorem Enc.imulhu (h : Hdr) (d a b : Opnd) : Enc.Statement (.imulhu h d a b) := by
  intro hw
  refine full_ok h 0x007 (opndC d) (opndC a) (opndC b) (0) rfl (by decide) (opnd_lt d) (opnd_lt a) (opnd_lt b) (by decide) hw (fun _ => ?_)
  simp only [candFull, full00, opnd_rt, Option.bind_eq_bind, Option.bind_some, Option.pure_def]
theorem Enc.imad (h : Hdr) (d a b c : Opnd) : Enc.Statement (.imad h d a b c) := by
  intro hw
  have := opnd_lt a
  have := opnd_lt b
  have := opnd_lt c
  have := opnd_lt d
  refine full_ok h 0x008 (opndC d) (opndC a) (opndC b) (16 * opndC c) rfl (by decide) (opnd_lt d) (opnd_lt a) (opnd_lt b) (by omega) hw (fun _ => ?_)
  have e3 : (16 * opndC c) / 16 = opndC c := by omega
  simp only [candFull, full00, e3, opnd_rt, Option.bind_eq_bind, Option.bind_some, Option.pure_def]
theorem Enc.imadw (h : Hdr) (d a b c : Opnd) (un : Bool) : Enc.Statement (.imadw h d a b c un) := by
  intro hw
  have := b2n_lt un
  have := opnd_lt a
  have := opnd_lt b
  have := opnd_lt c
  have := opnd_lt d
  refine full_ok h 0x009 (opndC d) (opndC a) (opndC b) (16 * opndC c + b2n un) rfl (by decide) (opnd_lt d) (opnd_lt a) (opnd_lt b) (by omega) hw (fun _ => ?_)
  have e3 : (16 * opndC c + b2n un) / 16 = opndC c := by omega
  have e4 : (16 * opndC c + b2n un) % 2 = b2n un := by omega
  simp only [candFull, full00, e3, e4, opnd_rt, b2n_rt, Option.bind_eq_bind, Option.bind_some, Option.pure_def]
theorem Enc.idiv (h : Hdr) (d a b : Opnd) (un : Bool) : Enc.Statement (.idiv h d a b un) := by
  intro hw
  have := b2n_lt un
  have := opnd_lt a
  have := opnd_lt b
  have := opnd_lt d
  refine full_ok h 0x00A (opndC d) (opndC a) (opndC b) (b2n un) rfl (by decide) (opnd_lt d) (opnd_lt a) (opnd_lt b) (by omega) hw (fun _ => ?_)
  have e3 : (b2n un) % 2 = b2n un := by omega
  simp only [candFull, full00, e3, opnd_rt, b2n_rt, Option.bind_eq_bind, Option.bind_some, Option.pure_def]
theorem Enc.irem (h : Hdr) (d a b : Opnd) (un : Bool) : Enc.Statement (.irem h d a b un) := by
  intro hw
  have := b2n_lt un
  have := opnd_lt a
  have := opnd_lt b
  have := opnd_lt d
  refine full_ok h 0x00B (opndC d) (opndC a) (opndC b) (b2n un) rfl (by decide) (opnd_lt d) (opnd_lt a) (opnd_lt b) (by omega) hw (fun _ => ?_)
  have e3 : (b2n un) % 2 = b2n un := by omega
  simp only [candFull, full00, e3, opnd_rt, b2n_rt, Option.bind_eq_bind, Option.bind_some, Option.pure_def]
theorem Enc.imin (h : Hdr) (d a b : Opnd) (un : Bool) : Enc.Statement (.imin h d a b un) := by
  intro hw
  have := b2n_lt un
  have := opnd_lt a
  have := opnd_lt b
  have := opnd_lt d
  refine full_ok h 0x00C (opndC d) (opndC a) (opndC b) (b2n un) rfl (by decide) (opnd_lt d) (opnd_lt a) (opnd_lt b) (by omega) hw (fun _ => ?_)
  have e3 : (b2n un) % 2 = b2n un := by omega
  simp only [candFull, full00, e3, opnd_rt, b2n_rt, Option.bind_eq_bind, Option.bind_some, Option.pure_def]
theorem Enc.imax (h : Hdr) (d a b : Opnd) (un : Bool) : Enc.Statement (.imax h d a b un) := by
  intro hw
  have := b2n_lt un
  have := opnd_lt a
  have := opnd_lt b
  have := opnd_lt d
  refine full_ok h 0x00D (opndC d) (opndC a) (opndC b) (b2n un) rfl (by decide) (opnd_lt d) (opnd_lt a) (opnd_lt b) (by omega) hw (fun _ => ?_)
  have e3 : (b2n un) % 2 = b2n un := by omega
  simp only [candFull, full00, e3, opnd_rt, b2n_rt, Option.bind_eq_bind, Option.bind_some, Option.pure_def]
theorem Enc.iabs (h : Hdr) (d a : Opnd) (sat : Bool) : Enc.Statement (.iabs h d a sat) := by
  intro hw
  have := b2n_lt sat
  have := opnd_lt a
  have := opnd_lt d
  refine full_ok h 0x00E (opndC d) (opndC a) (640) (b2n sat) rfl (by decide) (opnd_lt d) (opnd_lt a) (by decide) (by omega) hw (fun _ => ?_)
  have e2 : (b2n sat) % 2 = b2n sat := by omega
  simp only [candFull, full00, e2, opnd_rt, b2n_rt, Option.bind_eq_bind, Option.bind_some, Option.pure_def]
theorem Enc.isad (h : Hdr) (d a b c : Opnd) (un : Bool) : Enc.Statement (.isad h d a b c un) := by
  intro hw
  have := b2n_lt un
  have := opnd_lt a
  have := opnd_lt b
  have := opnd_lt c
  have := opnd_lt d
  refine full_ok h 0x00F (opndC d) (opndC a) (opndC b) (16 * opndC c + b2n un) rfl (by decide) (opnd_lt d) (opnd_lt a) (opnd_lt b) (by omega) hw (fun _ => ?_)
  have e3 : (16 * opndC c + b2n un) / 16 = opndC c := by omega
  have e4 : (16 * opndC c + b2n un) % 2 = b2n un := by omega
  simp only [candFull, full00, e3, e4, opnd_rt, b2n_rt, Option.bind_eq_bind, Option.bind_some, Option.pure_def]
theorem Enc.and (h : Hdr) (d a b : Opnd) : Enc.Statement (.and h d a b) := by
  intro hw
  refine full_ok h 0x010 (opndC d) (opndC a) (opndC b) (0) rfl (by decide) (opnd_lt d) (opnd_lt a) (opnd_lt b) (by decide) hw (fun _ => ?_)
  simp only [candFull, full01, opnd_rt, Option.bind_eq_bind, Option.bind_some, Option.pure_def]
theorem Enc.or (h : Hdr) (d a b : Opnd) : Enc.Statement (.or h d a b) := by
  intro hw
  refine full_ok h 0x011 (opndC d) (opndC a) (opndC b) (0) rfl (by decide) (opnd_lt d) (opnd_lt a) (opnd_lt b) (by decide) hw (fun _ => ?_)
  simp only [candFull, full01, opnd_rt, Option.bind_eq_bind, Option.bind_some, Option.pure_def]
theorem Enc.xor (h : Hdr) (d a b : Opnd) : Enc.Statement (.xor h d a b) := by
  intro hw
  refine full_ok h 0x012 (opndC d) (opndC a) (opndC b) (0) rfl (by decide) (opnd_lt d) (opnd_lt a) (opnd_lt b) (by decide) hw (fun _ => ?_)
  simp only [candFull, full01, opnd_rt, Option.bind_eq_bind, Option.bind_some, Option.pure_def]
theorem Enc.andn (h : Hdr) (d a b : Opnd) : Enc.Statement (.andn h d a b) := by
  intro hw
  refine full_ok h 0x013 (opndC d) (opndC a) (opndC b) (0) rfl (by decide) (opnd_lt d) (opnd_lt a) (opnd_lt b) (by decide) hw (fun _ => ?_)
  simp only [candFull, full01, opnd_rt, Option.bind_eq_bind, Option.bind_some, Option.pure_def]
theorem Enc.shl (h : Hdr) (d a b : Opnd) : Enc.Statement (.shl h d a b) := by
  intro hw
  refine full_ok h 0x014 (opndC d) (opndC a) (opndC b) (0) rfl (by decide) (opnd_lt d) (opnd_lt a) (opnd_lt b) (by decide) hw (fun _ => ?_)
  simp only [candFull, full01, opnd_rt, Option.bind_eq_bind, Option.bind_some, Option.pure_def]
theorem Enc.shr (h : Hdr) (d a b : Opnd) : Enc.Statement (.shr h d a b) := by
  intro hw
  refine full_ok h 0x015 (opndC d) (opndC a) (opndC b) (0) rfl (by decide) (opnd_lt d) (opnd_lt a) (opnd_lt b) (by decide) hw (fun _ => ?_)
  simp only [candFull, full01, opnd_rt, Option.bind_eq_bind, Option.bind_some, Option.pure_def]
theorem Enc.sar (h : Hdr) (d a b : Opnd) : Enc.Statement (.sar h d a b) := by
  intro hw
  refine full_ok h 0x016 (opndC d) (opndC a) (opndC b) (0) rfl (by decide) (opnd_lt d) (opnd_lt a) (opnd_lt b) (by decide) hw (fun _ => ?_)
  simp only [candFull, full01, opnd_rt, Option.bind_eq_bind, Option.bind_some, Option.pure_def]
theorem Enc.shl64 (h : Hdr) (d a b : Opnd) : Enc.Statement (.shl64 h d a b) := by
  intro hw
  refine full_ok h 0x017 (opndC d) (opndC a) (opndC b) (0) rfl (by decide) (opnd_lt d) (opnd_lt a) (opnd_lt b) (by decide) hw (fun _ => ?_)
  simp only [candFull, full01, opnd_rt, Option.bind_eq_bind, Option.bind_some, Option.pure_def]
theorem Enc.shr64 (h : Hdr) (d a b : Opnd) : Enc.Statement (.shr64 h d a b) := by
  intro hw
  refine full_ok h 0x018 (opndC d) (opndC a) (opndC b) (0) rfl (by decide) (opnd_lt d) (opnd_lt a) (opnd_lt b) (by decide) hw (fun _ => ?_)
  simp only [candFull, full01, opnd_rt, Option.bind_eq_bind, Option.bind_some, Option.pure_def]
theorem Enc.sar64 (h : Hdr) (d a b : Opnd) : Enc.Statement (.sar64 h d a b) := by
  intro hw
  refine full_ok h 0x019 (opndC d) (opndC a) (opndC b) (0) rfl (by decide) (opnd_lt d) (opnd_lt a) (opnd_lt b) (by decide) hw (fun _ => ?_)
  simp only [candFull, full01, opnd_rt, Option.bind_eq_bind, Option.bind_some, Option.pure_def]
theorem Enc.fshl (h : Hdr) (d a b c : Opnd) (clamp : Bool) : Enc.Statement (.fshl h d a b c clamp) := by
  intro hw
  have := b2n_lt clamp
  have := opnd_lt a
  have := opnd_lt b
  have := opnd_lt c
  have := opnd_lt d
  refine full_ok h 0x01A (opndC d) (opndC a) (opndC b) (16 * opndC c + b2n clamp) rfl (by decide) (opnd_lt d) (opnd_lt a) (opnd_lt b) (by omega) hw (fun _ => ?_)
  have e3 : (16 * opndC c + b2n clamp) / 16 = opndC c := by omega
  have e4 : (16 * opndC c + b2n clamp) % 2 = b2n clamp := by omega
  simp only [candFull, full01, e3, e4, opnd_rt, b2n_rt, Option.bind_eq_bind, Option.bind_some, Option.pure_def]
theorem Enc.fshr (h : Hdr) (d a b c : Opnd) (clamp : Bool) : Enc.Statement (.fshr h d a b c clamp) := by
  intro hw
  have := b2n_lt clamp
  have := opnd_lt a
  have := opnd_lt b
  have := opnd_lt c
  have := opnd_lt d
  refine full_ok h 0x01B (opndC d) (opndC a) (opndC b) (16 * opndC c + b2n clamp) rfl (by decide) (opnd_lt d) (opnd_lt a) (opnd_lt b) (by omega) hw (fun _ => ?_)
  have e3 : (16 * opndC c + b2n clamp) / 16 = opndC c := by omega
  have e4 : (16 * opndC c + b2n clamp) % 2 = b2n clamp := by omega
  simp only [candFull, full01, e3, e4, opnd_rt, b2n_rt, Option.bind_eq_bind, Option.bind_some, Option.pure_def]
theorem Enc.popc (h : Hdr) (d a : Opnd) : Enc.Statement (.popc h d a) := by
  intro hw
  refine full_ok h 0x01C (opndC d) (opndC a) (640) (0) rfl (by decide) (opnd_lt d) (opnd_lt a) (by decide) (by decide) hw (fun _ => ?_)
  simp only [candFull, full01, opnd_rt, Option.bind_eq_bind, Option.bind_some, Option.pure_def]
theorem Enc.clz (h : Hdr) (d a : Opnd) : Enc.Statement (.clz h d a) := by
  intro hw
  refine full_ok h 0x01D (opndC d) (opndC a) (640) (0) rfl (by decide) (opnd_lt d) (opnd_lt a) (by decide) (by decide) hw (fun _ => ?_)
  simp only [candFull, full01, opnd_rt, Option.bind_eq_bind, Option.bind_some, Option.pure_def]
theorem Enc.ctz (h : Hdr) (d a : Opnd) : Enc.Statement (.ctz h d a) := by
  intro hw
  refine full_ok h 0x01E (opndC d) (opndC a) (640) (0) rfl (by decide) (opnd_lt d) (opnd_lt a) (by decide) (by decide) hw (fun _ => ?_)
  simp only [candFull, full01, opnd_rt, Option.bind_eq_bind, Option.bind_some, Option.pure_def]
theorem Enc.brev (h : Hdr) (d a : Opnd) : Enc.Statement (.brev h d a) := by
  intro hw
  refine full_ok h 0x01F (opndC d) (opndC a) (640) (0) rfl (by decide) (opnd_lt d) (opnd_lt a) (by decide) (by decide) hw (fun _ => ?_)
  simp only [candFull, full01, opnd_rt, Option.bind_eq_bind, Option.bind_some, Option.pure_def]
theorem Enc.bfe (h : Hdr) (d a b c : Opnd) (sx : Bool) : Enc.Statement (.bfe h d a b c sx) := by
  intro hw
  have := b2n_lt sx
  have := opnd_lt a
  have := opnd_lt b
  have := opnd_lt c
  have := opnd_lt d
  refine full_ok h 0x020 (opndC d) (opndC a) (opndC b) (16 * opndC c + b2n sx) rfl (by decide) (opnd_lt d) (opnd_lt a) (opnd_lt b) (by omega) hw (fun _ => ?_)
  have e3 : (16 * opndC c + b2n sx) / 16 = opndC c := by omega
  have e4 : (16 * opndC c + b2n sx) % 2 = b2n sx := by omega
  simp only [candFull, full02, e3, e4, opnd_rt, b2n_rt, Option.bind_eq_bind, Option.bind_some, Option.pure_def]
theorem Enc.bfi (h : Hdr) (d a b c : Opnd) : Enc.Statement (.bfi h d a b c) := by
  intro hw
  have := opnd_lt a
  have := opnd_lt b
  have := opnd_lt c
  have := opnd_lt d
  refine full_ok h 0x021 (opndC d) (opndC a) (opndC b) (16 * opndC c) rfl (by decide) (opnd_lt d) (opnd_lt a) (opnd_lt b) (by omega) hw (fun _ => ?_)
  have e3 : (16 * opndC c) / 16 = opndC c := by omega
  simp only [candFull, full02, e3, opnd_rt, Option.bind_eq_bind, Option.bind_some, Option.pure_def]
theorem Enc.sext (h : Hdr) (d a b : Opnd) : Enc.Statement (.sext h d a b) := by
  intro hw
  refine full_ok h 0x022 (opndC d) (opndC a) (opndC b) (0) rfl (by decide) (opnd_lt d) (opnd_lt a) (opnd_lt b) (by decide) hw (fun _ => ?_)
  simp only [candFull, full02, opnd_rt, Option.bind_eq_bind, Option.bind_some, Option.pure_def]
theorem Enc.zext (h : Hdr) (d a b : Opnd) : Enc.Statement (.zext h d a b) := by
  intro hw
  refine full_ok h 0x023 (opndC d) (opndC a) (opndC b) (0) rfl (by decide) (opnd_lt d) (opnd_lt a) (opnd_lt b) (by decide) hw (fun _ => ?_)
  simp only [candFull, full02, opnd_rt, Option.bind_eq_bind, Option.bind_some, Option.pure_def]
theorem Enc.icmp (h : Hdr) (d : PCode) (a b : Opnd) (k : PComb) (cond : ICond) : Enc.Statement (.icmp h d a b k cond) := by
  intro hw
  have := icond_lt cond
  have := opnd_lt a
  have := opnd_lt b
  have := pcode_lt d
  have := pcomb_lt k
  refine full_ok h 0x024 (pcodeC d) (opndC a) (opndC b) (icondC cond + 16 * pcombC k) rfl (by decide) (by omega) (opnd_lt a) (opnd_lt b) (by omega) hw (fun _ => ?_)
  have e3 : (icondC cond + 16 * pcombC k) % 16 = icondC cond := by omega
  have e4 : (icondC cond + 16 * pcombC k) / 16 % 64 = pcombC k := by omega
  simp only [candFull, full02, e3, e4, opnd_rt, pcode_rt, icond_rt, pcomb_rt, Option.bind_eq_bind, Option.bind_some, Option.pure_def]
theorem Enc.icmp64 (h : Hdr) (d : PCode) (a b : Opnd) (k : PComb) (cond : ICond) : Enc.Statement (.icmp64 h d a b k cond) := by
  intro hw
  have := icond_lt cond
  have := opnd_lt a
  have := opnd_lt b
  have := pcode_lt d
  have := pcomb_lt k
  refine full_ok h 0x025 (pcodeC d) (opndC a) (opndC b) (icondC cond + 16 * pcombC k) rfl (by decide) (by omega) (opnd_lt a) (opnd_lt b) (by omega) hw (fun _ => ?_)
  have e3 : (icondC cond + 16 * pcombC k) % 16 = icondC cond := by omega
  have e4 : (icondC cond + 16 * pcombC k) / 16 % 64 = pcombC k := by omega
  simp only [candFull, full02, e3, e4, opnd_rt, pcode_rt, icond_rt, pcomb_rt, Option.bind_eq_bind, Option.bind_some, Option.pure_def]
theorem Enc.sel (h : Hdr) (d a b : Opnd) (neg : Bool) (n : Fin 8) : Enc.Statement (.sel h d a b neg n) := by
  intro hw
  have := b2n_lt neg
  have := opnd_lt a
  have := opnd_lt b
  have := opnd_lt d
  have := n.isLt
  refine full_ok h 0x026 (opndC d) (opndC a) (opndC b) (n.val + 8 * b2n neg) rfl (by decide) (opnd_lt d) (opnd_lt a) (opnd_lt b) (by omega) hw (fun _ => ?_)
  have e3 : (n.val + 8 * b2n neg) % 8 = n.val := by omega
  have e4 : (n.val + 8 * b2n neg) / 8 % 2 = b2n neg := by omega
  simp only [candFull, full02, e3, e4, opnd_rt, b2n_rt, fin_rt, Option.bind_eq_bind, Option.bind_some, Option.pure_def]
theorem Enc.plop (h : Hdr) (d a b : PCode) (lut : BitVec 4) : Enc.Statement (.plop h d a b lut) := by
  intro hw
  have := pcode_lt a
  have := pcode_lt b
  have := pcode_lt d
  have := lut.isLt
  refine full_ok h 0x027 (pcodeC d) (pcodeC a) (pcodeC b) (lut.toNat) rfl (by decide) (by omega) (by omega) (by omega) (by omega) hw (fun _ => ?_)
  have e3 : (lut.toNat) % 16 = lut.toNat := by omega
  simp only [candFull, full02, e3, pcode_rt, bv_rt, Option.bind_eq_bind, Option.bind_some, Option.pure_def]
theorem Enc.lea (h : Hdr) (d a b : Opnd) (form : LeaForm) (sx : Bool) (sh : Fin 8) : Enc.Statement (.lea h d a b form sx sh) := by
  intro hw
  have := b2n_lt sx
  have := leaForm_lt form
  have := opnd_lt a
  have := opnd_lt b
  have := opnd_lt d
  have := sh.isLt
  refine full_ok h 0x028 (opndC d) (opndC a) (opndC b) (sh.val + 8 * b2n sx + 16 * leaFormC form) rfl (by decide) (opnd_lt d) (opnd_lt a) (opnd_lt b) (by omega) hw (fun _ => ?_)
  have e3 : (sh.val + 8 * b2n sx + 16 * leaFormC form) % 8 = sh.val := by omega
  have e4 : (sh.val + 8 * b2n sx + 16 * leaFormC form) / 16 % 4 = leaFormC form := by omega
  have e5 : (sh.val + 8 * b2n sx + 16 * leaFormC form) / 8 % 2 = b2n sx := by omega
  simp only [candFull, full02, e3, e4, e5, opnd_rt, leaForm_rt, b2n_rt, fin_rt, Option.bind_eq_bind, Option.bind_some, Option.pure_def]
theorem Enc.moviFull (h : Hdr) (d : Opnd) (imm : BitVec 24) : Enc.Statement (.moviFull h d imm) := by
  intro hw
  have := opnd_lt d
  have := imm.isLt
  refine full_ok h 0x029 (opndC d) (640) (imm.toNat / 16384) (imm.toNat % 16384) rfl (by decide) (opnd_lt d) (by decide) (by omega) (by omega) hw (fun _ => ?_)
  have e1 : (imm.toNat / 16384) * 16384 + (imm.toNat % 16384) = imm.toNat := by omega
  simp only [candFull, full02, e1, opnd_rt, bv_rt, Option.bind_eq_bind, Option.bind_some, Option.pure_def]
theorem Enc.moviWide (h : Hdr) (d : Opnd) (imm : BitVec 32) : Enc.Statement (.moviWide h d imm) := by
  intro hw
  have := opnd_lt d
  have := imm.isLt
  refine wide_ok h 0x029 (opndC d) (imm.toNat) rfl (by decide) (by omega) (by omega) hw (fun a b x => ?_)
  simp only [candWide, opnd_rt, bv_rt, Option.bind_eq_bind, Option.bind_some, Option.pure_def]
theorem Enc.movihFull (h : Hdr) (d : Opnd) (imm : BitVec 24) : Enc.Statement (.movihFull h d imm) := by
  intro hw
  have := opnd_lt d
  have := imm.isLt
  refine full_ok h 0x02A (opndC d) (640) (imm.toNat / 16384) (imm.toNat % 16384) rfl (by decide) (opnd_lt d) (by decide) (by omega) (by omega) hw (fun _ => ?_)
  have e1 : (imm.toNat / 16384) * 16384 + (imm.toNat % 16384) = imm.toNat := by omega
  simp only [candFull, full02, e1, opnd_rt, bv_rt, Option.bind_eq_bind, Option.bind_some, Option.pure_def]
theorem Enc.movihWide (h : Hdr) (d : Opnd) (imm : BitVec 32) : Enc.Statement (.movihWide h d imm) := by
  intro hw
  have := opnd_lt d
  have := imm.isLt
  refine wide_ok h 0x02A (opndC d) (imm.toNat) rfl (by decide) (by omega) (by omega) hw (fun a b x => ?_)
  simp only [candWide, opnd_rt, bv_rt, Option.bind_eq_bind, Option.bind_some, Option.pure_def]
theorem Enc.iaddiFull (h : Hdr) (d a : Opnd) (imm : BitVec 24) : Enc.Statement (.iaddiFull h d a imm) := by
  intro hw
  have := opnd_lt a
  have := opnd_lt d
  have := imm.isLt
  refine full_ok h 0x02B (opndC d) (opndC a) (imm.toNat / 16384) (imm.toNat % 16384) rfl (by decide) (opnd_lt d) (opnd_lt a) (by omega) (by omega) hw (fun _ => ?_)
  have e2 : (imm.toNat / 16384) * 16384 + (imm.toNat % 16384) = imm.toNat := by omega
  simp only [candFull, full02, e2, opnd_rt, bv_rt, Option.bind_eq_bind, Option.bind_some, Option.pure_def]
theorem Enc.iaddiWide (h : Hdr) (d : Opnd) (imm : BitVec 32) : Enc.Statement (.iaddiWide h d imm) := by
  intro hw
  have := opnd_lt d
  have := imm.isLt
  refine wide_ok h 0x02B (opndC d) (imm.toNat) rfl (by decide) (by omega) (by omega) hw (fun a b x => ?_)
  simp only [candWide, opnd_rt, bv_rt, Option.bind_eq_bind, Option.bind_some, Option.pure_def]
theorem Enc.qxch (h : Hdr) (d a : Opnd) (mode : QMode) : Enc.Statement (.qxch h d a mode) := by
  intro hw
  have := opnd_lt a
  have := opnd_lt d
  have := qmode_lt mode
  refine full_ok h 0x030 (opndC d) (opndC a) (640) (qmodeC mode) rfl (by decide) (opnd_lt d) (opnd_lt a) (by decide) (by omega) hw (fun _ => ?_)
  have e2 : (qmodeC mode) % 8 = qmodeC mode := by omega
  simp only [candFull, full03, e2, opnd_rt, qmode_rt, Option.bind_eq_bind, Option.bind_some, Option.pure_def]
theorem Enc.shfl (h : Hdr) (d a b : Opnd) (w : Fin 6) (mode : ShMode) : Enc.Statement (.shfl h d a b w mode) := by
  intro hw
  have := opnd_lt a
  have := opnd_lt b
  have := opnd_lt d
  have := shmode_lt mode
  have := w.isLt
  refine full_ok h 0x031 (opndC d) (opndC a) (opndC b) (shmodeC mode + 4 * w.val) rfl (by decide) (opnd_lt d) (opnd_lt a) (opnd_lt b) (by omega) hw (fun _ => ?_)
  have e3 : (shmodeC mode + 4 * w.val) % 4 = shmodeC mode := by omega
  have e4 : (shmodeC mode + 4 * w.val) / 4 % 8 = w.val := by omega
  simp only [candFull, full03, e3, e4, opnd_rt, shmode_rt, fin_rt, Option.bind_eq_bind, Option.bind_some, Option.pure_def]
theorem Enc.vote (h : Hdr) (d : Fin 8) (a : PCode) (mode : VMode) : Enc.Statement (.vote h d a mode) := by
  intro hw
  have := pcode_lt a
  have := vmode_lt mode
  have := d.isLt
  refine full_ok h 0x032 (d.val) (pcodeC a) (640) (vmodeC mode) rfl (by decide) (by omega) (by omega) (by decide) (by omega) hw (fun _ => ?_)
  have e2 : (vmodeC mode) % 4 = vmodeC mode := by omega
  simp only [candFull, full03, e2, pcode_rt, vmode_rt, fin_rt, Option.bind_eq_bind, Option.bind_some, Option.pure_def]
theorem Enc.ballot (h : Hdr) (d : Opnd) (a : PCode) : Enc.Statement (.ballot h d a) := by
  intro hw
  have := opnd_lt d
  have := pcode_lt a
  refine full_ok h 0x033 (opndC d) (pcodeC a) (640) (0) rfl (by decide) (opnd_lt d) (by omega) (by decide) (by decide) hw (fun _ => ?_)
  simp only [candFull, full03, opnd_rt, pcode_rt, Option.bind_eq_bind, Option.bind_some, Option.pure_def]
theorem Enc.matchw (h : Hdr) (d a : Opnd) (w64 : Bool) : Enc.Statement (.matchw h d a w64) := by
  intro hw
  have := b2n_lt w64
  have := opnd_lt a
  have := opnd_lt d
  refine full_ok h 0x034 (opndC d) (opndC a) (640) (b2n w64) rfl (by decide) (opnd_lt d) (opnd_lt a) (by decide) (by omega) hw (fun _ => ?_)
  have e2 : (b2n w64) % 2 = b2n w64 := by omega
  simp only [candFull, full03, e2, opnd_rt, b2n_rt, Option.bind_eq_bind, Option.bind_some, Option.pure_def]
theorem Enc.elect (h : Hdr) (d : Fin 8) : Enc.Statement (.elect h d) := by
  intro hw
  have := d.isLt
  refine full_ok h 0x035 (d.val) (640) (640) (0) rfl (by decide) (by omega) (by decide) (by decide) (by decide) hw (fun _ => ?_)
  simp only [candFull, full03, fin_rt, Option.bind_eq_bind, Option.bind_some, Option.pure_def]
theorem Enc.readlane (h : Hdr) (d a b : Opnd) : Enc.Statement (.readlane h d a b) := by
  intro hw
  refine full_ok h 0x036 (opndC d) (opndC a) (opndC b) (0) rfl (by decide) (opnd_lt d) (opnd_lt a) (opnd_lt b) (by decide) hw (fun _ => ?_)
  simp only [candFull, full03, opnd_rt, Option.bind_eq_bind, Option.bind_some, Option.pure_def]
theorem Enc.writelane (h : Hdr) (d a b : Opnd) : Enc.Statement (.writelane h d a b) := by
  intro hw
  refine full_ok h 0x037 (opndC d) (opndC a) (opndC b) (0) rfl (by decide) (opnd_lt d) (opnd_lt a) (opnd_lt b) (by decide) hw (fun _ => ?_)
  simp only [candFull, full03, opnd_rt, Option.bind_eq_bind, Option.bind_some, Option.pure_def]
theorem Enc.gred (h : Hdr) (d a : Opnd) (op : RedOp) : Enc.Statement (.gred h d a op) := by
  intro hw
  have := opnd_lt a
  have := opnd_lt d
  have := redop_lt op
  refine full_ok h 0x038 (opndC d) (opndC a) (640) (redopC op) rfl (by decide) (opnd_lt d) (opnd_lt a) (by decide) (by omega) hw (fun _ => ?_)
  have e2 : (redopC op) % 8 = redopC op := by omega
  simp only [candFull, full03, e2, opnd_rt, redop_rt, Option.bind_eq_bind, Option.bind_some, Option.pure_def]
theorem Enc.gscan (h : Hdr) (d a : Opnd) (exc : Bool) (op : RedOp) : Enc.Statement (.gscan h d a exc op) := by
  intro hw
  have := b2n_lt exc
  have := opnd_lt a
  have := opnd_lt d
  have := redop_lt op
  refine full_ok h 0x039 (opndC d) (opndC a) (640) (redopC op + 8 * b2n exc) rfl (by decide) (opnd_lt d) (opnd_lt a) (by decide) (by omega) hw (fun _ => ?_)
  have e2 : (redopC op + 8 * b2n exc) % 8 = redopC op := by omega
  have e3 : (redopC op + 8 * b2n exc) / 8 % 2 = b2n exc := by omega
  simp only [candFull, full03, e2, e3, opnd_rt, redop_rt, b2n_rt, Option.bind_eq_bind, Option.bind_some, Option.pure_def]
theorem Enc.mask (h : Hdr) (d : Opnd) (kind : MaskKind) : Enc.Statement (.mask h d kind) := by
  intro hw
  have := maskKind_lt kind
  have := opnd_lt d
  refine full_ok h 0x03A (opndC d) (640) (640) (maskKindC kind) rfl (by decide) (opnd_lt d) (by decide) (by decide) (by omega) hw (fun _ => ?_)
  have e1 : (maskKindC kind) % 4 = maskKindC kind := by omega
  simp only [candFull, full03, e1, opnd_rt, maskKind_rt, Option.bind_eq_bind, Option.bind_some, Option.pure_def]
theorem Enc.pairWord (e : Bool) (stall : Fin 8) (h0 h1 : Half) : Enc.Statement (.pairWord e stall h0 h1) := fun hw => pair_ok _ _ _ _ hw
theorem Enc.nop (h : Hdr) : Enc.Statement (.nop h) := by
  intro hw
  refine full_ok h 0x080 (640) (640) (640) (0) rfl (by decide) (by decide) (by decide) (by decide) (by decide) hw (fun _ => ?_)
  simp only [candFull, full08]
theorem Enc.braFull (h : Hdr) (off : BitVec 24) : Enc.Statement (.braFull h off) := by
  intro hw
  have := off.isLt
  refine full_ok h 0x081 (640) (640) (off.toNat / 16384) (off.toNat % 16384) rfl (by decide) (by decide) (by decide) (by omega) (by omega) hw (fun _ => ?_)
  have e0 : (off.toNat / 16384) * 16384 + (off.toNat % 16384) = off.toNat := by omega
  simp only [candFull, full08, e0, bv_rt]
theorem Enc.braWide (h : Hdr) (off : BitVec 32) : Enc.Statement (.braWide h off) := by
  intro hw
  have := off.isLt
  refine wide_ok h 0x081 (640) (off.toNat) rfl (by decide) (by omega) (by omega) hw (fun a b x => ?_)
  simp only [candWide, bv_rt]
theorem Enc.brx (h : Hdr) (a : Opnd) : Enc.Statement (.brx h a) := by
  intro hw
  refine full_ok h 0x082 (640) (opndC a) (640) (0) rfl (by decide) (by decide) (opnd_lt a) (by decide) (by decide) hw (fun _ => ?_)
  simp only [candFull, full08, opnd_rt, Option.bind_eq_bind, Option.bind_some, Option.pure_def]
theorem Enc.bruFull (h : Hdr) (off : BitVec 24) : Enc.Statement (.bruFull h off) := by
  intro hw
  have := off.isLt
  refine full_ok h 0x083 (640) (640) (off.toNat / 16384) (off.toNat % 16384) rfl (by decide) (by decide) (by decide) (by omega) (by omega) hw (fun _ => ?_)
  have e0 : (off.toNat / 16384) * 16384 + (off.toNat % 16384) = off.toNat := by omega
  simp only [candFull, full08, e0, bv_rt]
theorem Enc.bruWide (h : Hdr) (off : BitVec 32) : Enc.Statement (.bruWide h off) := by
  intro hw
  have := off.isLt
  refine wide_ok h 0x083 (640) (off.toNat) rfl (by decide) (by omega) (by omega) hw (fun a b x => ?_)
  simp only [candWide, bv_rt]
theorem Enc.callFull (h : Hdr) (off : BitVec 24) : Enc.Statement (.callFull h off) := by
  intro hw
  have := off.isLt
  refine full_ok h 0x084 (640) (640) (off.toNat / 16384) (off.toNat % 16384) rfl (by decide) (by decide) (by decide) (by omega) (by omega) hw (fun _ => ?_)
  have e0 : (off.toNat / 16384) * 16384 + (off.toNat % 16384) = off.toNat := by omega
  simp only [candFull, full08, e0, bv_rt]
theorem Enc.callWide (h : Hdr) (off : BitVec 32) : Enc.Statement (.callWide h off) := by
  intro hw
  have := off.isLt
  refine wide_ok h 0x084 (640) (off.toNat) rfl (by decide) (by omega) (by omega) hw (fun a b x => ?_)
  simp only [candWide, bv_rt]
theorem Enc.callx (h : Hdr) (a : Opnd) : Enc.Statement (.callx h a) := by
  intro hw
  refine full_ok h 0x085 (640) (opndC a) (640) (0) rfl (by decide) (by decide) (opnd_lt a) (by decide) (by decide) hw (fun _ => ?_)
  simp only [candFull, full08, opnd_rt, Option.bind_eq_bind, Option.bind_some, Option.pure_def]
theorem Enc.ret (h : Hdr) : Enc.Statement (.ret h) := by
  intro hw
  refine full_ok h 0x086 (640) (640) (640) (0) rfl (by decide) (by decide) (by decide) (by decide) (by decide) hw (fun _ => ?_)
  simp only [candFull, full08]
theorem Enc.exit (h : Hdr) : Enc.Statement (.exit h) := by
  intro hw
  refine full_ok h 0x087 (640) (640) (640) (0) rfl (by decide) (by decide) (by decide) (by decide) (by decide) hw (fun _ => ?_)
  simp only [candFull, full08]
theorem Enc.yield (h : Hdr) (n : BitVec 8) : Enc.Statement (.yield h n) := by
  intro hw
  have := n.isLt
  refine full_ok h 0x088 (640) (640) (640) (n.toNat) rfl (by decide) (by decide) (by decide) (by decide) (by omega) hw (fun _ => ?_)
  have e0 : (n.toNat) % 256 = n.toNat := by omega
  simp only [candFull, full08, e0, bv_rt]
theorem Enc.rdvpc (h : Hdr) (d a : Opnd) : Enc.Statement (.rdvpc h d a) := by
  intro hw
  refine full_ok h 0x08A (opndC d) (opndC a) (640) (0) rfl (by decide) (opnd_lt d) (opnd_lt a) (by decide) (by decide) hw (fun _ => ?_)
  simp only [candFull, full08, opnd_rt, Option.bind_eq_bind, Option.bind_some, Option.pure_def]
theorem Enc.wrvpc (h : Hdr) (a b : Opnd) : Enc.Statement (.wrvpc h a b) := by
  intro hw
  refine full_ok h 0x08B (640) (opndC a) (opndC b) (0) rfl (by decide) (by decide) (opnd_lt a) (opnd_lt b) (by decide) hw (fun _ => ?_)
  simp only [candFull, full08, opnd_rt, Option.bind_eq_bind, Option.bind_some, Option.pure_def]
theorem Enc.sleepc (h : Hdr) (a : Opnd) : Enc.Statement (.sleepc h a) := by
  intro hw
  refine full_ok h 0x08C (640) (opndC a) (640) (0) rfl (by decide) (by decide) (opnd_lt a) (by decide) (by decide) hw (fun _ => ?_)
  simp only [candFull, full08, opnd_rt, Option.bind_eq_bind, Option.bind_some, Option.pure_def]
theorem Enc.trap (h : Hdr) (code : BitVec 8) : Enc.Statement (.trap h code) := by
  intro hw
  have := code.isLt
  refine full_ok h 0x08D (640) (640) (640) (code.toNat) rfl (by decide) (by decide) (by decide) (by decide) (by omega) hw (fun _ => ?_)
  have e0 : (code.toNat) % 256 = code.toNat := by omega
  simp only [candFull, full08, e0, bv_rt]
theorem Enc.bkpt (h : Hdr) (code : BitVec 8) : Enc.Statement (.bkpt h code) := by
  intro hw
  have := code.isLt
  refine full_ok h 0x08E (640) (640) (640) (code.toNat) rfl (by decide) (by decide) (by decide) (by decide) (by omega) hw (fun _ => ?_)
  have e0 : (code.toNat) % 256 = code.toNat := by omega
  simp only [candFull, full08, e0, bv_rt]
theorem Enc.hret (h : Hdr) : Enc.Statement (.hret h) := by
  intro hw
  refine full_ok h 0x08F (640) (640) (640) (0) rfl (by decide) (by decide) (by decide) (by decide) (by decide) hw (fun _ => ?_)
  simp only [candFull, full08]
theorem Enc.push (h : Hdr) (a : Opnd) (sz : StkSize) : Enc.Statement (.push h a sz) := by
  intro hw
  have := opnd_lt a
  have := stkSize_lt sz
  refine full_ok h 0x090 (640) (opndC a) (640) (stkSizeC sz) rfl (by decide) (by decide) (opnd_lt a) (by decide) (by omega) hw (fun _ => ?_)
  have e1 : (stkSizeC sz) % 4 = stkSizeC sz := by omega
  simp only [candFull, full09, e1, opnd_rt, stkSize_rt, Option.bind_eq_bind, Option.bind_some, Option.pure_def]
theorem Enc.pop (h : Hdr) (d : Opnd) (sz : StkSize) : Enc.Statement (.pop h d sz) := by
  intro hw
  have := opnd_lt d
  have := stkSize_lt sz
  refine full_ok h 0x091 (opndC d) (640) (640) (stkSizeC sz) rfl (by decide) (opnd_lt d) (by decide) (by decide) (by omega) hw (fun _ => ?_)
  have e1 : (stkSizeC sz) % 4 = stkSizeC sz := by omega
  simp only [candFull, full09, e1, opnd_rt, stkSize_rt, Option.bind_eq_bind, Option.bind_some, Option.pure_def]
theorem Enc.salloc (h : Hdr) (d a : Opnd) : Enc.Statement (.salloc h d a) := by
  intro hw
  refine full_ok h 0x092 (opndC d) (opndC a) (640) (0) rfl (by decide) (opnd_lt d) (opnd_lt a) (by decide) (by decide) hw (fun _ => ?_)
  simp only [candFull, full09, opnd_rt, Option.bind_eq_bind, Option.bind_some, Option.pure_def]
theorem Enc.sfree (h : Hdr) (a : Opnd) : Enc.Statement (.sfree h a) := by
  intro hw
  refine full_ok h 0x093 (640) (opndC a) (640) (0) rfl (by decide) (by decide) (opnd_lt a) (by decide) (by decide) hw (fun _ => ?_)
  simp only [candFull, full09, opnd_rt, Option.bind_eq_bind, Option.bind_some, Option.pure_def]
theorem Enc.fadd (h : Hdr) (d a b : Opnd) (r : Rnd) (m : FMods) : Enc.Statement (.fadd h d a b r m) := by
  intro hw
  have := fmods_lt m
  have := opnd_lt a
  have := opnd_lt b
  have := opnd_lt d
  have := rnd_lt r
  refine full_ok h 0x0C0 (opndC d) (opndC a) (opndC b) (rndC r + 4 * fmodsC m) rfl (by decide) (opnd_lt d) (opnd_lt a) (opnd_lt b) (by omega) hw (fun _ => ?_)
  have e3 : (rndC r + 4 * fmodsC m) % 4 = rndC r := by omega
  have e4 : (rndC r + 4 * fmodsC m) / 4 % 16 = fmodsC m := by omega
  simp only [candFull, full0C, e3, e4, opnd_rt, rnd_rt, fmods_rt, Option.bind_eq_bind, Option.bind_some, Option.pure_def]
theorem Enc.fsub (h : Hdr) (d a b : Opnd) (r : Rnd) (m : FMods) : Enc.Statement (.fsub h d a b r m) := by
  intro hw
  have := fmods_lt m
  have := opnd_lt a
  have := opnd_lt b
  have := opnd_lt d
  have := rnd_lt r
  refine full_ok h 0x0C1 (opndC d) (opndC a) (opndC b) (rndC r + 4 * fmodsC m) rfl (by decide) (opnd_lt d) (opnd_lt a) (opnd_lt b) (by omega) hw (fun _ => ?_)
  have e3 : (rndC r + 4 * fmodsC m) % 4 = rndC r := by omega
  have e4 : (rndC r + 4 * fmodsC m) / 4 % 16 = fmodsC m := by omega
  simp only [candFull, full0C, e3, e4, opnd_rt, rnd_rt, fmods_rt, Option.bind_eq_bind, Option.bind_some, Option.pure_def]
theorem Enc.fmul (h : Hdr) (d a b : Opnd) (r : Rnd) (m : FMods) : Enc.Statement (.fmul h d a b r m) := by
  intro hw
  have := fmods_lt m
  have := opnd_lt a
  have := opnd_lt b
  have := opnd_lt d
  have := rnd_lt r
  refine full_ok h 0x0C2 (opndC d) (opndC a) (opndC b) (rndC r + 4 * fmodsC m) rfl (by decide) (opnd_lt d) (opnd_lt a) (opnd_lt b) (by omega) hw (fun _ => ?_)
  have e3 : (rndC r + 4 * fmodsC m) % 4 = rndC r := by omega
  have e4 : (rndC r + 4 * fmodsC m) / 4 % 16 = fmodsC m := by omega
  simp only [candFull, full0C, e3, e4, opnd_rt, rnd_rt, fmods_rt, Option.bind_eq_bind, Option.bind_some, Option.pure_def]
theorem Enc.ffma (h : Hdr) (d a b c : Opnd) (r : Rnd) (nega negc : Bool) : Enc.Statement (.ffma h d a b c r nega negc) := by
  intro hw
  have := b2n_lt nega
  have := b2n_lt negc
  have := opnd_lt a
  have := opnd_lt b
  have := opnd_lt c
  have := opnd_lt d
  have := rnd_lt r
  refine full_ok h 0x0C3 (opndC d) (opndC a) (opndC b) (16 * opndC c + rndC r + 4 * b2n nega + 8 * b2n negc) rfl (by decide) (opnd_lt d) (opnd_lt a) (opnd_lt b) (by omega) hw (fun _ => ?_)
  have e3 : (16 * opndC c + rndC r + 4 * b2n nega + 8 * b2n negc) / 16 = opndC c := by omega
  have e4 : (16 * opndC c + rndC r + 4 * b2n nega + 8 * b2n negc) % 4 = rndC r := by omega
  have e5 : (16 * opndC c + rndC r + 4 * b2n nega + 8 * b2n negc) / 4 % 2 = b2n nega := by omega
  have e6 : (16 * opndC c + rndC r + 4 * b2n nega + 8 * b2n negc) / 8 % 2 = b2n negc := by omega
  simp only [candFull, full0C, e3, e4, e5, e6, opnd_rt, rnd_rt, b2n_rt, Option.bind_eq_bind, Option.bind_some, Option.pure_def]
theorem Enc.ffma2 (h : Hdr) (d a b c : Opnd) (r : Rnd) (nega negc : Bool) : Enc.Statement (.ffma2 h d a b c r nega negc) := by
  intro hw
  have := b2n_lt nega
  have := b2n_lt negc
  have := opnd_lt a
  have := opnd_lt b
  have := opnd_lt c
  have := opnd_lt d
  have := rnd_lt r
  refine full_ok h 0x0C7 (opndC d) (opndC a) (opndC b) (16 * opndC c + rndC r + 4 * b2n nega + 8 * b2n negc) rfl (by decide) (opnd_lt d) (opnd_lt a) (opnd_lt b) (by omega) hw (fun _ => ?_)
  have e3 : (16 * opndC c + rndC r + 4 * b2n nega + 8 * b2n negc) / 16 = opndC c := by omega
  have e4 : (16 * opndC c + rndC r + 4 * b2n nega + 8 * b2n negc) % 4 = rndC r := by omega
  have e5 : (16 * opndC c + rndC r + 4 * b2n nega + 8 * b2n negc) / 4 % 2 = b2n nega := by omega
  have e6 : (16 * opndC c + rndC r + 4 * b2n nega + 8 * b2n negc) / 8 % 2 = b2n negc := by omega
  simp only [candFull, full0C, e3, e4, e5, e6, opnd_rt, rnd_rt, b2n_rt, Option.bind_eq_bind, Option.bind_some, Option.pure_def]
theorem Enc.fmin (h : Hdr) (d a b : Opnd) (pr : Bool) (m : FMods) : Enc.Statement (.fmin h d a b pr m) := by
  intro hw
  have := b2n_lt pr
  have := fmods_lt m
  have := opnd_lt a
  have := opnd_lt b
  have := opnd_lt d
  refine full_ok h 0x0C4 (opndC d) (opndC a) (opndC b) (4 * fmodsC m + 64 * b2n pr) rfl (by decide) (opnd_lt d) (opnd_lt a) (opnd_lt b) (by omega) hw (fun _ => ?_)
  have e3 : (4 * fmodsC m + 64 * b2n pr) / 4 % 16 = fmodsC m := by omega
  have e4 : (4 * fmodsC m + 64 * b2n pr) / 64 % 2 = b2n pr := by omega
  simp only [candFull, full0C, e3, e4, opnd_rt, fmods_rt, b2n_rt, Option.bind_eq_bind, Option.bind_some, Option.pure_def]
theorem Enc.fmax (h : Hdr) (d a b : Opnd) (pr : Bool) (m : FMods) : Enc.Statement (.fmax h d a b pr m) := by
  intro hw
  have := b2n_lt pr
  have := fmods_lt m
  have := opnd_lt a
  have := opnd_lt b
  have := opnd_lt d
  refine full_ok h 0x0C5 (opndC d) (opndC a) (opndC b) (4 * fmodsC m + 64 * b2n pr) rfl (by decide) (opnd_lt d) (opnd_lt a) (opnd_lt b) (by omega) hw (fun _ => ?_)
  have e3 : (4 * fmodsC m + 64 * b2n pr) / 4 % 16 = fmodsC m := by omega
  have e4 : (4 * fmodsC m + 64 * b2n pr) / 64 % 2 = b2n pr := by omega
  simp only [candFull, full0C, e3, e4, opnd_rt, fmods_rt, b2n_rt, Option.bind_eq_bind, Option.bind_some, Option.pure_def]
theorem Enc.fcmp (h : Hdr) (d : PCode) (a b : Opnd) (k : PComb) (cond : FCond) : Enc.Statement (.fcmp h d a b k cond) := by
  intro hw
  have := fcond_lt cond
  have := opnd_lt a
  have := opnd_lt b
  have := pcode_lt d
  have := pcomb_lt k
  refine full_ok h 0x0C6 (pcodeC d) (opndC a) (opndC b) (fcondC cond + 16 * pcombC k) rfl (by decide) (by omega) (opnd_lt a) (opnd_lt b) (by omega) hw (fun _ => ?_)
  have e3 : (fcondC cond + 16 * pcombC k) % 16 = fcondC cond := by omega
  have e4 : (fcondC cond + 16 * pcombC k) / 16 % 64 = pcombC k := by omega
  simp only [candFull, full0C, e3, e4, opnd_rt, pcode_rt, fcond_rt, pcomb_rt, Option.bind_eq_bind, Option.bind_some, Option.pure_def]
theorem Enc.hadd2 (h : Hdr) (d a b : Opnd) : Enc.Statement (.hadd2 h d a b) := by
  intro hw
  refine full_ok h 0x0C8 (opndC d) (opndC a) (opndC b) (0) rfl (by decide) (opnd_lt d) (opnd_lt a) (opnd_lt b) (by decide) hw (fun _ => ?_)
  simp only [candFull, full0C, opnd_rt, Option.bind_eq_bind, Option.bind_some, Option.pure_def]
theorem Enc.hmul2 (h : Hdr) (d a b : Opnd) : Enc.Statement (.hmul2 h d a b) := by
  intro hw
  refine full_ok h 0x0C9 (opndC d) (opndC a) (opndC b) (0) rfl (by decide) (opnd_lt d) (opnd_lt a) (opnd_lt b) (by decide) hw (fun _ => ?_)
  simp only [candFull, full0C, opnd_rt, Option.bind_eq_bind, Option.bind_some, Option.pure_def]
theorem Enc.hfma2 (h : Hdr) (d a b c : Opnd) : Enc.Statement (.hfma2 h d a b c) := by
  intro hw
  have := opnd_lt a
  have := opnd_lt b
  have := opnd_lt c
  have := opnd_lt d
  refine full_ok h 0x0CA (opndC d) (opndC a) (opndC b) (16 * opndC c) rfl (by decide) (opnd_lt d) (opnd_lt a) (opnd_lt b) (by omega) hw (fun _ => ?_)
  have e3 : (16 * opndC c) / 16 = opndC c := by omega
  simp only [candFull, full0C, e3, opnd_rt, Option.bind_eq_bind, Option.bind_some, Option.pure_def]
theorem Enc.badd2 (h : Hdr) (d a b : Opnd) : Enc.Statement (.badd2 h d a b) := by
  intro hw
  refine full_ok h 0x0CB (opndC d) (opndC a) (opndC b) (0) rfl (by decide) (opnd_lt d) (opnd_lt a) (opnd_lt b) (by decide) hw (fun _ => ?_)
  simp only [candFull, full0C, opnd_rt, Option.bind_eq_bind, Option.bind_some, Option.pure_def]
theorem Enc.bmul2 (h : Hdr) (d a b : Opnd) : Enc.Statement (.bmul2 h d a b) := by
  intro hw
  refine full_ok h 0x0CC (opndC d) (opndC a) (opndC b) (0) rfl (by decide) (opnd_lt d) (opnd_lt a) (opnd_lt b) (by decide) hw (fun _ => ?_)
  simp only [candFull, full0C, opnd_rt, Option.bind_eq_bind, Option.bind_some, Option.pure_def]
theorem Enc.bfma2 (h : Hdr) (d a b c : Opnd) : Enc.Statement (.bfma2 h d a b c) := by
  intro hw
  have := opnd_lt a
  have := opnd_lt b
  have := opnd_lt c
  have := opnd_lt d
  refine full_ok h 0x0CD (opndC d) (opndC a) (opndC b) (16 * opndC c) rfl (by decide) (opnd_lt d) (opnd_lt a) (opnd_lt b) (by omega) hw (fun _ => ?_)
  have e3 : (16 * opndC c) / 16 = opndC c := by omega
  simp only [candFull, full0C, e3, opnd_rt, Option.bind_eq_bind, Option.bind_some, Option.pure_def]
theorem Enc.frcp (h : Hdr) (d a : Opnd) (r : Rnd) : Enc.Statement (.frcp h d a r) := by
  intro hw
  have := opnd_lt a
  have := opnd_lt d
  have := rnd_lt r
  refine full_ok h 0x0D0 (opndC d) (opndC a) (640) (rndC r) rfl (by decide) (opnd_lt d) (opnd_lt a) (by decide) (by omega) hw (fun _ => ?_)
  have e2 : (rndC r) % 4 = rndC r := by omega
  simp only [candFull, full0D, e2, opnd_rt, rnd_rt, Option.bind_eq_bind, Option.bind_some, Option.pure_def]
theorem Enc.frsq (h : Hdr) (d a : Opnd) (r : Rnd) : Enc.Statement (.frsq h d a r) := by
  intro hw
  have := opnd_lt a
  have := opnd_lt d
  have := rnd_lt r
  refine full_ok h 0x0D1 (opndC d) (opndC a) (640) (rndC r) rfl (by decide) (opnd_lt d) (opnd_lt a) (by decide) (by omega) hw (fun _ => ?_)
  have e2 : (rndC r) % 4 = rndC r := by omega
  simp only [candFull, full0D, e2, opnd_rt, rnd_rt, Option.bind_eq_bind, Option.bind_some, Option.pure_def]
theorem Enc.fsqrt (h : Hdr) (d a : Opnd) (r : Rnd) : Enc.Statement (.fsqrt h d a r) := by
  intro hw
  have := opnd_lt a
  have := opnd_lt d
  have := rnd_lt r
  refine full_ok h 0x0D2 (opndC d) (opndC a) (640) (rndC r) rfl (by decide) (opnd_lt d) (opnd_lt a) (by decide) (by omega) hw (fun _ => ?_)
  have e2 : (rndC r) % 4 = rndC r := by omega
  simp only [candFull, full0D, e2, opnd_rt, rnd_rt, Option.bind_eq_bind, Option.bind_some, Option.pure_def]
theorem Enc.fex2 (h : Hdr) (d a : Opnd) (r : Rnd) : Enc.Statement (.fex2 h d a r) := by
  intro hw
  have := opnd_lt a
  have := opnd_lt d
  have := rnd_lt r
  refine full_ok h 0x0D3 (opndC d) (opndC a) (640) (rndC r) rfl (by decide) (opnd_lt d) (opnd_lt a) (by decide) (by omega) hw (fun _ => ?_)
  have e2 : (rndC r) % 4 = rndC r := by omega
  simp only [candFull, full0D, e2, opnd_rt, rnd_rt, Option.bind_eq_bind, Option.bind_some, Option.pure_def]
theorem Enc.flg2 (h : Hdr) (d a : Opnd) (r : Rnd) : Enc.Statement (.flg2 h d a r) := by
  intro hw
  have := opnd_lt a
  have := opnd_lt d
  have := rnd_lt r
  refine full_ok h 0x0D4 (opndC d) (opndC a) (640) (rndC r) rfl (by decide) (opnd_lt d) (opnd_lt a) (by decide) (by omega) hw (fun _ => ?_)
  have e2 : (rndC r) % 4 = rndC r := by omega
  simp only [candFull, full0D, e2, opnd_rt, rnd_rt, Option.bind_eq_bind, Option.bind_some, Option.pure_def]
theorem Enc.fsin (h : Hdr) (d a : Opnd) (r : Rnd) : Enc.Statement (.fsin h d a r) := by
  intro hw
  have := opnd_lt a
  have := opnd_lt d
  have := rnd_lt r
  refine full_ok h 0x0D5 (opndC d) (opndC a) (640) (rndC r) rfl (by decide) (opnd_lt d) (opnd_lt a) (by decide) (by omega) hw (fun _ => ?_)
  have e2 : (rndC r) % 4 = rndC r := by omega
  simp only [candFull, full0D, e2, opnd_rt, rnd_rt, Option.bind_eq_bind, Option.bind_some, Option.pure_def]
theorem Enc.fcos (h : Hdr) (d a : Opnd) (r : Rnd) : Enc.Statement (.fcos h d a r) := by
  intro hw
  have := opnd_lt a
  have := opnd_lt d
  have := rnd_lt r
  refine full_ok h 0x0D6 (opndC d) (opndC a) (640) (rndC r) rfl (by decide) (opnd_lt d) (opnd_lt a) (by decide) (by omega) hw (fun _ => ?_)
  have e2 : (rndC r) % 4 = rndC r := by omega
  simp only [candFull, full0D, e2, opnd_rt, rnd_rt, Option.bind_eq_bind, Option.bind_some, Option.pure_def]
theorem Enc.ftanh (h : Hdr) (d a : Opnd) (r : Rnd) : Enc.Statement (.ftanh h d a r) := by
  intro hw
  have := opnd_lt a
  have := opnd_lt d
  have := rnd_lt r
  refine full_ok h 0x0D7 (opndC d) (opndC a) (640) (rndC r) rfl (by decide) (opnd_lt d) (opnd_lt a) (by decide) (by omega) hw (fun _ => ?_)
  have e2 : (rndC r) % 4 = rndC r := by omega
  simp only [candFull, full0D, e2, opnd_rt, rnd_rt, Option.bind_eq_bind, Option.bind_some, Option.pure_def]
theorem Enc.fdiv (h : Hdr) (d a b : Opnd) (r : Rnd) : Enc.Statement (.fdiv h d a b r) := by
  intro hw
  have := opnd_lt a
  have := opnd_lt b
  have := opnd_lt d
  have := rnd_lt r
  refine full_ok h 0x0D8 (opndC d) (opndC a) (opndC b) (rndC r) rfl (by decide) (opnd_lt d) (opnd_lt a) (opnd_lt b) (by omega) hw (fun _ => ?_)
  have e3 : (rndC r) % 4 = rndC r := by omega
  simp only [candFull, full0D, e3, opnd_rt, rnd_rt, Option.bind_eq_bind, Option.bind_some, Option.pure_def]
theorem Enc.cvt (h : Hdr) (d a : Opnd) (dt st : NumTy) (rm : RndE) (sat : Bool) : Enc.Statement (.cvt h d a dt st rm sat) := by
  intro hw
  have := b2n_lt sat
  have := numty_lt dt
  have := numty_lt st
  have := opnd_lt a
  have := opnd_lt d
  have := rnde_lt rm
  refine full_ok h 0x0E0 (opndC d) (opndC a) (640) (b2n sat + 2 * rndeC rm + 16 * numtyC st + 512 * numtyC dt) rfl (by decide) (opnd_lt d) (opnd_lt a) (by decide) (by omega) hw (fun _ => ?_)
  have e2 : (b2n sat + 2 * rndeC rm + 16 * numtyC st + 512 * numtyC dt) / 2 % 8 = rndeC rm := by omega
  have e3 : (b2n sat + 2 * rndeC rm + 16 * numtyC st + 512 * numtyC dt) / 16 % 32 = numtyC st := by omega
  have e4 : (b2n sat + 2 * rndeC rm + 16 * numtyC st + 512 * numtyC dt) / 512 % 32 = numtyC dt := by omega
  have e5 : (b2n sat + 2 * rndeC rm + 16 * numtyC st + 512 * numtyC dt) % 2 = b2n sat := by omega
  simp only [candFull, full0E, e2, e3, e4, e5, opnd_rt, rnde_rt, numty_rt, b2n_rt, Option.bind_eq_bind, Option.bind_some, Option.pure_def]
theorem Enc.cvtp (h : Hdr) (d a b : Opnd) (dt : NumTy) (rm : RndE) (sat : Bool) : Enc.Statement (.cvtp h d a b dt rm sat) := by
  intro hw
  have := b2n_lt sat
  have := numty_lt dt
  have := opnd_lt a
  have := opnd_lt b
  have := opnd_lt d
  have := rnde_lt rm
  refine full_ok h 0x0E1 (opndC d) (opndC a) (opndC b) (b2n sat + 2 * rndeC rm + 512 * numtyC dt) rfl (by decide) (opnd_lt d) (opnd_lt a) (opnd_lt b) (by omega) hw (fun _ => ?_)
  have e3 : (b2n sat + 2 * rndeC rm + 512 * numtyC dt) / 2 % 8 = rndeC rm := by omega
  have e4 : (b2n sat + 2 * rndeC rm + 512 * numtyC dt) / 512 % 32 = numtyC dt := by omega
  have e5 : (b2n sat + 2 * rndeC rm + 512 * numtyC dt) % 2 = b2n sat := by omega
  simp only [candFull, full0E, e3, e4, e5, opnd_rt, rnde_rt, numty_rt, b2n_rt, Option.bind_eq_bind, Option.bind_some, Option.pure_def]
theorem Enc.unpk (h : Hdr) (d a : Opnd) (st : NumTy) : Enc.Statement (.unpk h d a st) := by
  intro hw
  have := numty_lt st
  have := opnd_lt a
  have := opnd_lt d
  refine full_ok h 0x0E2 (opndC d) (opndC a) (640) (16 * numtyC st) rfl (by decide) (opnd_lt d) (opnd_lt a) (by decide) (by omega) hw (fun _ => ?_)
  have e2 : (16 * numtyC st) / 16 % 32 = numtyC st := by omega
  simp only [candFull, full0E, e2, opnd_rt, numty_rt, Option.bind_eq_bind, Option.bind_some, Option.pure_def]
theorem Enc.qblk (h : Hdr) (d a b : Opnd) : Enc.Statement (.qblk h d a b) := by
  intro hw
  refine full_ok h 0x0E3 (opndC d) (opndC a) (opndC b) (0) rfl (by decide) (opnd_lt d) (opnd_lt a) (opnd_lt b) (by decide) hw (fun _ => ?_)
  simp only [candFull, full0E, opnd_rt, Option.bind_eq_bind, Option.bind_some, Option.pure_def]
theorem Enc.mxq (h : Hdr) (d a b : Opnd) (rnef : Bool) : Enc.Statement (.mxq h d a b rnef) := by
  intro hw
  have := b2n_lt rnef
  have := opnd_lt a
  have := opnd_lt b
  have := opnd_lt d
  refine full_ok h 0x0E4 (opndC d) (opndC a) (opndC b) (4 * b2n rnef) rfl (by decide) (opnd_lt d) (opnd_lt a) (opnd_lt b) (by omega) hw (fun _ => ?_)
  have e3 : (4 * b2n rnef) / 4 % 2 = b2n rnef := by omega
  simp only [candFull, full0E, e3, opnd_rt, b2n_rt, Option.bind_eq_bind, Option.bind_some, Option.pure_def]
theorem Enc.fred (h : Hdr) (d a : Opnd) (op : FRedOp) (r : Rnd) : Enc.Statement (.fred h d a op r) := by
  intro hw
  have := fredop_lt op
  have := opnd_lt a
  have := opnd_lt d
  have := rnd_lt r
  refine full_ok h 0x0E5 (opndC d) (opndC a) (640) (rndC r + 4 * fredopC op) rfl (by decide) (opnd_lt d) (opnd_lt a) (by decide) (by omega) hw (fun _ => ?_)
  have e2 : (rndC r + 4 * fredopC op) % 4 = rndC r := by omega
  have e3 : (rndC r + 4 * fredopC op) / 4 % 4 = fredopC op := by omega
  simp only [candFull, full0E, e2, e3, opnd_rt, rnd_rt, fredop_rt, Option.bind_eq_bind, Option.bind_some, Option.pure_def]
theorem Enc.cmulh2 (h : Hdr) (d a b : Opnd) (conj : Bool) : Enc.Statement (.cmulh2 h d a b conj) := by
  intro hw
  have := b2n_lt conj
  have := opnd_lt a
  have := opnd_lt b
  have := opnd_lt d
  refine full_ok h 0x0E8 (opndC d) (opndC a) (opndC b) (b2n conj) rfl (by decide) (opnd_lt d) (opnd_lt a) (opnd_lt b) (by omega) hw (fun _ => ?_)
  have e3 : (b2n conj) % 2 = b2n conj := by omega
  simp only [candFull, full0E, e3, opnd_rt, b2n_rt, Option.bind_eq_bind, Option.bind_some, Option.pure_def]
theorem Enc.cfmah2 (h : Hdr) (d a b c : Opnd) (conj : Bool) : Enc.Statement (.cfmah2 h d a b c conj) := by
  intro hw
  have := b2n_lt conj
  have := opnd_lt a
  have := opnd_lt b
  have := opnd_lt c
  have := opnd_lt d
  refine full_ok h 0x0E9 (opndC d) (opndC a) (opndC b) (16 * opndC c + b2n conj) rfl (by decide) (opnd_lt d) (opnd_lt a) (opnd_lt b) (by omega) hw (fun _ => ?_)
  have e3 : (16 * opndC c + b2n conj) / 16 = opndC c := by omega
  have e4 : (16 * opndC c + b2n conj) % 2 = b2n conj := by omega
  simp only [candFull, full0E, e3, e4, opnd_rt, b2n_rt, Option.bind_eq_bind, Option.bind_some, Option.pure_def]
theorem Enc.ld (h : Hdr) (d a b : Opnd) (m : MemMod) : Enc.Statement (.ld h d a b m) := by
  intro hw
  have := memmod_lt m
  have := opnd_lt a
  have := opnd_lt b
  have := opnd_lt d
  refine full_ok h 0x100 (opndC d) (opndC a) (opndC b) (memmodC m) rfl (by decide) (opnd_lt d) (opnd_lt a) (opnd_lt b) (by omega) hw (fun _ => ?_)
  have e3 : (memmodC m) % 16384 = memmodC m := by omega
  simp only [candFull, full10, e3, opnd_rt, memmod_rt, Option.bind_eq_bind, Option.bind_some, Option.pure_def]
theorem Enc.st (h : Hdr) (d a b : Opnd) (m : MemMod) : Enc.Statement (.st h d a b m) := by
  intro hw
  have := memmod_lt m
  have := opnd_lt a
  have := opnd_lt b
  have := opnd_lt d
  refine full_ok h 0x101 (opndC d) (opndC a) (opndC b) (memmodC m) rfl (by decide) (opnd_lt d) (opnd_lt a) (opnd_lt b) (by omega) hw (fun _ => ?_)
  have e3 : (memmodC m) % 16384 = memmodC m := by omega
  simp only [candFull, full10, e3, opnd_rt, memmod_rt, Option.bind_eq_bind, Option.bind_some, Option.pure_def]
theorem Enc.ldu (h : Hdr) (d a b : Opnd) (m : MemMod) : Enc.Statement (.ldu h d a b m) := by
  intro hw
  have := memmod_lt m
  have := opnd_lt a
  have := opnd_lt b
  have := opnd_lt d
  refine full_ok h 0x102 (opndC d) (opndC a) (opndC b) (memmodC m) rfl (by decide) (opnd_lt d) (opnd_lt a) (opnd_lt b) (by omega) hw (fun _ => ?_)
  have e3 : (memmodC m) % 16384 = memmodC m := by omega
  simp only [candFull, full10, e3, opnd_rt, memmod_rt, Option.bind_eq_bind, Option.bind_some, Option.pure_def]
theorem Enc.stu (h : Hdr) (d a b : Opnd) (m : MemMod) : Enc.Statement (.stu h d a b m) := by
  intro hw
  have := memmod_lt m
  have := opnd_lt a
  have := opnd_lt b
  have := opnd_lt d
  refine full_ok h 0x103 (opndC d) (opndC a) (opndC b) (memmodC m) rfl (by decide) (opnd_lt d) (opnd_lt a) (opnd_lt b) (by omega) hw (fun _ => ?_)
  have e3 : (memmodC m) % 16384 = memmodC m := by omega
  simp only [candFull, full10, e3, opnd_rt, memmod_rt, Option.bind_eq_bind, Option.bind_some, Option.pure_def]
theorem Enc.touch (h : Hdr) (a b : Opnd) (rd : Bool) : Enc.Statement (.touch h a b rd) := by
  intro hw
  have := b2n_lt rd
  have := opnd_lt a
  have := opnd_lt b
  refine full_ok h 0x106 (640) (opndC a) (opndC b) (b2n rd) rfl (by decide) (by decide) (opnd_lt a) (opnd_lt b) (by omega) hw (fun _ => ?_)
  have e2 : (b2n rd) % 2 = b2n rd := by omega
  simp only [candFull, full10, e2, opnd_rt, b2n_rt, Option.bind_eq_bind, Option.bind_some, Option.pure_def]
theorem Enc.pref (h : Hdr) (a b : Opnd) (lvl : PLvl) : Enc.Statement (.pref h a b lvl) := by
  intro hw
  have := opnd_lt a
  have := opnd_lt b
  have := plvl_lt lvl
  refine full_ok h 0x107 (640) (opndC a) (opndC b) (plvlC lvl) rfl (by decide) (by decide) (opnd_lt a) (opnd_lt b) (by omega) hw (fun _ => ?_)
  have e2 : (plvlC lvl) % 4 = plvlC lvl := by omega
  simp only [candFull, full10, e2, opnd_rt, plvl_rt, Option.bind_eq_bind, Option.bind_some, Option.pure_def]
theorem Enc.flush (h : Hdr) (a b : Opnd) (l2 : Bool) : Enc.Statement (.flush h a b l2) := by
  intro hw
  have := b2n_lt l2
  have := opnd_lt a
  have := opnd_lt b
  refine full_ok h 0x108 (640) (opndC a) (opndC b) (b2n l2) rfl (by decide) (by decide) (opnd_lt a) (opnd_lt b) (by omega) hw (fun _ => ?_)
  have e2 : (b2n l2) % 2 = b2n l2 := by omega
  simp only [candFull, full10, e2, opnd_rt, b2n_rt, Option.bind_eq_bind, Option.bind_some, Option.pure_def]
theorem Enc.inv (h : Hdr) (a b : Opnd) (l2 : Bool) : Enc.Statement (.inv h a b l2) := by
  intro hw
  have := b2n_lt l2
  have := opnd_lt a
  have := opnd_lt b
  refine full_ok h 0x109 (640) (opndC a) (opndC b) (b2n l2) rfl (by decide) (by decide) (opnd_lt a) (opnd_lt b) (by omega) hw (fun _ => ?_)
  have e2 : (b2n l2) % 2 = b2n l2 := by omega
  simp only [candFull, full10, e2, opnd_rt, b2n_rt, Option.bind_eq_bind, Option.bind_some, Option.pure_def]
theorem Enc.vprobe (h : Hdr) (d a b : Opnd) : Enc.Statement (.vprobe h d a b) := by
  intro hw
  refine full_ok h 0x10C (opndC d) (opndC a) (opndC b) (0) rfl (by decide) (opnd_lt d) (opnd_lt a) (opnd_lt b) (by decide) hw (fun _ => ?_)
  simp only [candFull, full10, opnd_rt, Option.bind_eq_bind, Option.bind_some, Option.pure_def]
theorem Enc.atom (h : Hdr) (d a b : Opnd) (op : AOp) (m : AtomMod) : Enc.Statement (.atom h d a b op m) := by
  intro hw
  have := aop_lt op
  have := atommod_lt m
  have := opnd_lt a
  have := opnd_lt b
  have := opnd_lt d
  refine full_ok h 0x130 (opndC d) (opndC a) (opndC b) (aopC op + 16 * atommodC m) rfl (by decide) (opnd_lt d) (opnd_lt a) (opnd_lt b) (by omega) hw (fun _ => ?_)
  have e3 : (aopC op + 16 * atommodC m) % 16 = aopC op := by omega
  have e4 : (aopC op + 16 * atommodC m) / 16 % 1024 = atommodC m := by omega
  simp only [candFull, full13, e3, e4, opnd_rt, aop_rt, atommod_rt, Option.bind_eq_bind, Option.bind_some, Option.pure_def]
theorem Enc.cas (h : Hdr) (d a b : Opnd) (m : AtomMod) : Enc.Statement (.cas h d a b m) := by
  intro hw
  have := atommod_lt m
  have := opnd_lt a
  have := opnd_lt b
  have := opnd_lt d
  refine full_ok h 0x131 (opndC d) (opndC a) (opndC b) (16 * atommodC m) rfl (by decide) (opnd_lt d) (opnd_lt a) (opnd_lt b) (by omega) hw (fun _ => ?_)
  have e3 : (16 * atommodC m) / 16 % 1024 = atommodC m := by omega
  simp only [candFull, full13, e3, opnd_rt, atommod_rt, Option.bind_eq_bind, Option.bind_some, Option.pure_def]
theorem Enc.casar (h : Hdr) (d a b : Opnd) (m : AtomMod) (n : Fin 8) : Enc.Statement (.casar h d a b m n) := by
  intro hw
  have := atommod_lt m
  have := opnd_lt a
  have := opnd_lt b
  have := opnd_lt d
  have := n.isLt
  refine full_ok h 0x132 (opndC d) (opndC a) (opndC b) (n.val + 16 * atommodC m) rfl (by decide) (opnd_lt d) (opnd_lt a) (opnd_lt b) (by omega) hw (fun _ => ?_)
  have e3 : (n.val + 16 * atommodC m) % 8 = n.val := by omega
  have e4 : (n.val + 16 * atommodC m) / 16 % 1024 = atommodC m := by omega
  simp only [candFull, full13, e3, e4, opnd_rt, atommod_rt, fin_rt, Option.bind_eq_bind, Option.bind_some, Option.pure_def]
theorem Enc.red (h : Hdr) (a b : Opnd) (op : AOp) (m : AtomMod) : Enc.Statement (.red h a b op m) := by
  intro hw
  have := aop_lt op
  have := atommod_lt m
  have := opnd_lt a
  have := opnd_lt b
  refine full_ok h 0x133 (640) (opndC a) (opndC b) (aopC op + 16 * atommodC m) rfl (by decide) (by decide) (opnd_lt a) (opnd_lt b) (by omega) hw (fun _ => ?_)
  have e2 : (aopC op + 16 * atommodC m) % 16 = aopC op := by omega
  have e3 : (aopC op + 16 * atommodC m) / 16 % 1024 = atommodC m := by omega
  simp only [candFull, full13, e2, e3, opnd_rt, aop_rt, atommod_rt, Option.bind_eq_bind, Option.bind_some, Option.pure_def]
theorem Enc.fatom (h : Hdr) (d a b : Opnd) (op : FAOp) (m : AtomMod) : Enc.Statement (.fatom h d a b op m) := by
  intro hw
  have := atommod_lt m
  have := faop_lt op
  have := opnd_lt a
  have := opnd_lt b
  have := opnd_lt d
  refine full_ok h 0x134 (opndC d) (opndC a) (opndC b) (faopC op + 16 * atommodC m) rfl (by decide) (opnd_lt d) (opnd_lt a) (opnd_lt b) (by omega) hw (fun _ => ?_)
  have e3 : (faopC op + 16 * atommodC m) % 16 = faopC op := by omega
  have e4 : (faopC op + 16 * atommodC m) / 16 % 1024 = atommodC m := by omega
  simp only [candFull, full13, e3, e4, opnd_rt, faop_rt, atommod_rt, Option.bind_eq_bind, Option.bind_some, Option.pure_def]
theorem Enc.fredm (h : Hdr) (a b : Opnd) (op : FAOp) (m : AtomMod) : Enc.Statement (.fredm h a b op m) := by
  intro hw
  have := atommod_lt m
  have := faop_lt op
  have := opnd_lt a
  have := opnd_lt b
  refine full_ok h 0x135 (640) (opndC a) (opndC b) (faopC op + 16 * atommodC m) rfl (by decide) (by decide) (opnd_lt a) (opnd_lt b) (by omega) hw (fun _ => ?_)
  have e2 : (faopC op + 16 * atommodC m) % 16 = faopC op := by omega
  have e3 : (faopC op + 16 * atommodC m) / 16 % 1024 = atommodC m := by omega
  simp only [candFull, full13, e2, e3, opnd_rt, faop_rt, atommod_rt, Option.bind_eq_bind, Option.bind_some, Option.pure_def]
theorem Enc.fence (h : Hdr) (ord : FOrd) (scope : Scope) : Enc.Statement (.fence h ord scope) := by
  intro hw
  have := ford_lt ord
  have := scope_lt scope
  refine full_ok h 0x138 (640) (640) (640) (16 * scopeC scope + 128 * fordC ord) rfl (by decide) (by decide) (by decide) (by decide) (by omega) hw (fun _ => ?_)
  have e0 : (16 * scopeC scope + 128 * fordC ord) / 16 % 8 = scopeC scope := by omega
  have e1 : (16 * scopeC scope + 128 * fordC ord) / 128 % 8 = fordC ord := by omega
  simp only [candFull, full13, e0, e1, scope_rt, ford_rt, Option.bind_eq_bind, Option.bind_some, Option.pure_def]
theorem Enc.fencex (h : Hdr) (mode : FxMode) : Enc.Statement (.fencex h mode) := by
  intro hw
  have := fxmode_lt mode
  refine full_ok h 0x139 (640) (640) (640) (fxmodeC mode) rfl (by decide) (by decide) (by decide) (by decide) (by omega) hw (fun _ => ?_)
  have e0 : (fxmodeC mode) % 4 = fxmodeC mode := by omega
  simp only [candFull, full13, e0, fxmode_rt, Option.bind_eq_bind, Option.bind_some, Option.pure_def]
theorem Enc.bara (h : Hdr) (d : Opnd) (n : Fin 16) : Enc.Statement (.bara h d n) := by
  intro hw
  have := opnd_lt d
  have := n.isLt
  refine full_ok h 0x150 (opndC d) (640) (640) (n.val) rfl (by decide) (opnd_lt d) (by decide) (by decide) (by omega) hw (fun _ => ?_)
  have e1 : (n.val) % 16 = n.val := by omega
  simp only [candFull, full15, e1, opnd_rt, fin_rt, Option.bind_eq_bind, Option.bind_some, Option.pure_def]
theorem Enc.barw (h : Hdr) (n : Fin 16) (a : Opnd) : Enc.Statement (.barw h n a) := by
  intro hw
  have := opnd_lt a
  have := n.isLt
  refine full_ok h 0x151 (640) (opndC a) (640) (n.val) rfl (by decide) (by decide) (opnd_lt a) (by decide) (by omega) hw (fun _ => ?_)
  have e1 : (n.val) % 16 = n.val := by omega
  simp only [candFull, full15, e1, opnd_rt, fin_rt, Option.bind_eq_bind, Option.bind_some, Option.pure_def]
theorem Enc.bars (h : Hdr) (n : Fin 16) : Enc.Statement (.bars h n) := by
  intro hw
  have := n.isLt
  refine full_ok h 0x152 (640) (640) (640) (n.val) rfl (by decide) (by decide) (by decide) (by decide) (by omega) hw (fun _ => ?_)
  have e0 : (n.val) % 16 = n.val := by omega
  simp only [candFull, full15, e0, fin_rt, Option.bind_eq_bind, Option.bind_some, Option.pure_def]
theorem Enc.cbara (h : Hdr) (d : Opnd) (n : Fin 8) : Enc.Statement (.cbara h d n) := by
  intro hw
  have := opnd_lt d
  have := n.isLt
  refine full_ok h 0x153 (opndC d) (640) (640) (n.val) rfl (by decide) (opnd_lt d) (by decide) (by decide) (by omega) hw (fun _ => ?_)
  have e1 : (n.val) % 8 = n.val := by omega
  simp only [candFull, full15, e1, opnd_rt, fin_rt, Option.bind_eq_bind, Option.bind_some, Option.pure_def]
theorem Enc.cbarw (h : Hdr) (n : Fin 8) (a : Opnd) : Enc.Statement (.cbarw h n a) := by
  intro hw
  have := opnd_lt a
  have := n.isLt
  refine full_ok h 0x154 (640) (opndC a) (640) (n.val) rfl (by decide) (by decide) (opnd_lt a) (by decide) (by omega) hw (fun _ => ?_)
  have e1 : (n.val) % 8 = n.val := by omega
  simp only [candFull, full15, e1, opnd_rt, fin_rt, Option.bind_eq_bind, Option.bind_some, Option.pure_def]
theorem Enc.cbars (h : Hdr) (n : Fin 8) : Enc.Statement (.cbars h n) := by
  intro hw
  have := n.isLt
  refine full_ok h 0x155 (640) (640) (640) (n.val) rfl (by decide) (by decide) (by decide) (by decide) (by omega) hw (fun _ => ?_)
  have e0 : (n.val) % 8 = n.val := by omega
  simp only [candFull, full15, e0, fin_rt, Option.bind_eq_bind, Option.bind_some, Option.pure_def]
theorem Enc.barx (h : Hdr) (cls : BarCls) (n : Fin 16) : Enc.Statement (.barx h cls n) := by
  intro hw
  have := barcls_lt cls
  have := n.isLt
  refine full_ok h 0x156 (640) (640) (640) (n.val + 16 * barclsC cls) rfl (by decide) (by decide) (by decide) (by decide) (by omega) hw (fun _ => ?_)
  have e0 : (n.val + 16 * barclsC cls) % 16 = n.val := by omega
  have e1 : (n.val + 16 * barclsC cls) / 16 % 2 = barclsC cls := by omega
  simp only [candFull, full15, e0, e1, barcls_rt, fin_rt, Option.bind_eq_bind, Option.bind_some, Option.pure_def]
theorem Enc.watch (h : Hdr) (d a b : Opnd) (m : WatchMod) : Enc.Statement (.watch h d a b m) := by
  intro hw
  have := opnd_lt a
  have := opnd_lt b
  have := opnd_lt d
  have := watchmod_lt m
  refine full_ok h 0x157 (opndC d) (opndC a) (opndC b) (watchmodC m) rfl (by decide) (opnd_lt d) (opnd_lt a) (opnd_lt b) (by omega) hw (fun _ => ?_)
  have e3 : (watchmodC m) % 16 = watchmodC m := by omega
  simp only [candFull, full15, e3, opnd_rt, watchmod_rt, Option.bind_eq_bind, Option.bind_some, Option.pure_def]
theorem Enc.watcht (h : Hdr) (d a b c : Opnd) (m : WatchMod) : Enc.Statement (.watcht h d a b c m) := by
  intro hw
  have := opnd_lt a
  have := opnd_lt b
  have := opnd_lt c
  have := opnd_lt d
  have := watchmod_lt m
  refine full_ok h 0x158 (opndC d) (opndC a) (opndC b) (16 * opndC c + watchmodC m) rfl (by decide) (opnd_lt d) (opnd_lt a) (opnd_lt b) (by omega) hw (fun _ => ?_)
  have e3 : (16 * opndC c + watchmodC m) / 16 = opndC c := by omega
  have e4 : (16 * opndC c + watchmodC m) % 16 = watchmodC m := by omega
  simp only [candFull, full15, e3, e4, opnd_rt, watchmod_rt, Option.bind_eq_bind, Option.bind_some, Option.pure_def]
theorem Enc.watchh (h : Hdr) (d a b c : Opnd) (m : WatchMod) : Enc.Statement (.watchh h d a b c m) := by
  intro hw
  have := opnd_lt a
  have := opnd_lt b
  have := opnd_lt c
  have := opnd_lt d
  have := watchmod_lt m
  refine full_ok h 0x159 (opndC d) (opndC a) (opndC b) (16 * opndC c + watchmodC m) rfl (by decide) (opnd_lt d) (opnd_lt a) (opnd_lt b) (by omega) hw (fun _ => ?_)
  have e3 : (16 * opndC c + watchmodC m) / 16 = opndC c := by omega
  have e4 : (16 * opndC c + watchmodC m) % 16 = watchmodC m := by omega
  simp only [candFull, full15, e3, e4, opnd_rt, watchmod_rt, Option.bind_eq_bind, Option.bind_some, Option.pure_def]
theorem Enc.talloc (h : Hdr) (n : Fin 64) (a b : Opnd) : Enc.Statement (.talloc h n a b) := by
  intro hw
  have := opnd_lt a
  have := opnd_lt b
  have := n.isLt
  refine full_ok h 0x160 (640) (opndC a) (opndC b) (n.val) rfl (by decide) (by decide) (opnd_lt a) (opnd_lt b) (by omega) hw (fun _ => ?_)
  have e2 : (n.val) % 64 = n.val := by omega
  simp only [candFull, full16, e2, opnd_rt, fin_rt, Option.bind_eq_bind, Option.bind_some, Option.pure_def]
theorem Enc.tfree (h : Hdr) (n : Fin 64) : Enc.Statement (.tfree h n) := by
  intro hw
  have := n.isLt
  refine full_ok h 0x161 (640) (640) (640) (n.val) rfl (by decide) (by decide) (by decide) (by decide) (by omega) hw (fun _ => ?_)
  have e0 : (n.val) % 64 = n.val := by omega
  simp only [candFull, full16, e0, fin_rt, Option.bind_eq_bind, Option.bind_some, Option.pure_def]
theorem Enc.tstate (h : Hdr) (d : Opnd) (n : Fin 64) (bytes : Bool) : Enc.Statement (.tstate h d n bytes) := by
  intro hw
  have := b2n_lt bytes
  have := opnd_lt d
  have := n.isLt
  refine full_ok h 0x162 (opndC d) (640) (640) (n.val + 64 * b2n bytes) rfl (by decide) (opnd_lt d) (by decide) (by decide) (by omega) hw (fun _ => ?_)
  have e1 : (n.val + 64 * b2n bytes) % 64 = n.val := by omega
  have e2 : (n.val + 64 * b2n bytes) / 64 % 2 = b2n bytes := by omega
  simp only [candFull, full16, e1, e2, opnd_rt, b2n_rt, fin_rt, Option.bind_eq_bind, Option.bind_some, Option.pure_def]
theorem Enc.twait (h : Hdr) (n : Fin 64) (a b : Opnd) : Enc.Statement (.twait h n a b) := by
  intro hw
  have := opnd_lt a
  have := opnd_lt b
  have := n.isLt
  refine full_ok h 0x163 (640) (opndC a) (opndC b) (n.val) rfl (by decide) (by decide) (opnd_lt a) (opnd_lt b) (by omega) hw (fun _ => ?_)
  have e2 : (n.val) % 64 = n.val := by omega
  simp only [candFull, full16, e2, opnd_rt, fin_rt, Option.bind_eq_bind, Option.bind_some, Option.pure_def]
theorem Enc.ttest (h : Hdr) (d : Fin 8) (n : Fin 64) (a b : Opnd) : Enc.Statement (.ttest h d n a b) := by
  intro hw
  have := opnd_lt a
  have := opnd_lt b
  have := d.isLt
  have := n.isLt
  refine full_ok h 0x164 (8 + d.val) (opndC a) (opndC b) (n.val) rfl (by decide) (by omega) (opnd_lt a) (opnd_lt b) (by omega) hw (fun _ => ?_)
  have e0 : (8 + d.val) / 8 = 1 := by omega
  have e1 : (8 + d.val) % 8 = d.val := by omega
  have e4 : (n.val) % 64 = n.val := by omega
  simp only [candFull, full16, e0, e1, e4, if_true, opnd_rt, fin_rt, Option.bind_eq_bind, Option.bind_some, Option.pure_def]
theorem Enc.texpect (h : Hdr) (n : Fin 64) (a : Opnd) : Enc.Statement (.texpect h n a) := by
  intro hw
  have := opnd_lt a
  have := n.isLt
  refine full_ok h 0x165 (640) (opndC a) (640) (n.val) rfl (by decide) (by decide) (opnd_lt a) (by decide) (by omega) hw (fun _ => ?_)
  have e1 : (n.val) % 64 = n.val := by omega
  simp only [candFull, full16, e1, opnd_rt, fin_rt, Option.bind_eq_bind, Option.bind_some, Option.pure_def]
theorem Enc.tdrain (h : Hdr) (n : Fin 64) : Enc.Statement (.tdrain h n) := by
  intro hw
  have := n.isLt
  refine full_ok h 0x166 (640) (640) (640) (n.val) rfl (by decide) (by decide) (by decide) (by decide) (by omega) hw (fun _ => ?_)
  have e0 : (n.val) % 64 = n.val := by omega
  simp only [candFull, full16, e0, fin_rt, Option.bind_eq_bind, Option.bind_some, Option.pure_def]
theorem Enc.xload (h : Hdr) (n : Fin 64) (a b : Opnd) (rmask : BitVec 4) (win s24 mc : Bool) : Enc.Statement (.xload h n a b rmask win s24 mc) := by
  intro hw
  have := b2n_lt mc
  have := b2n_lt s24
  have := b2n_lt win
  have := opnd_lt a
  have := opnd_lt b
  have := n.isLt
  have := rmask.isLt
  refine full_ok h 0x167 (640) (opndC a) (opndC b) (n.val + 64 * rmask.toNat + 2048 * b2n win + 4096 * b2n s24 + 8192 * b2n mc) rfl (by decide) (by decide) (opnd_lt a) (opnd_lt b) (by omega) hw (fun _ => ?_)
  have e2 : (n.val + 64 * rmask.toNat + 2048 * b2n win + 4096 * b2n s24 + 8192 * b2n mc) % 64 = n.val := by omega
  have e3 : (n.val + 64 * rmask.toNat + 2048 * b2n win + 4096 * b2n s24 + 8192 * b2n mc) / 64 % 16 = rmask.toNat := by omega
  have e4 : (n.val + 64 * rmask.toNat + 2048 * b2n win + 4096 * b2n s24 + 8192 * b2n mc) / 2048 % 2 = b2n win := by omega
  have e5 : (n.val + 64 * rmask.toNat + 2048 * b2n win + 4096 * b2n s24 + 8192 * b2n mc) / 4096 % 2 = b2n s24 := by omega
  have e6 : (n.val + 64 * rmask.toNat + 2048 * b2n win + 4096 * b2n s24 + 8192 * b2n mc) / 8192 % 2 = b2n mc := by omega
  simp only [candFull, full16, e2, e3, e4, e5, e6, opnd_rt, b2n_rt, fin_rt, bv_rt, Option.bind_eq_bind, Option.bind_some, Option.pure_def]
theorem Enc.xstore (h : Hdr) (n : Fin 64) (a b : Opnd) : Enc.Statement (.xstore h n a b) := by
  intro hw
  have := opnd_lt a
  have := opnd_lt b
  have := n.isLt
  refine full_ok h 0x168 (640) (opndC a) (opndC b) (n.val) rfl (by decide) (by decide) (opnd_lt a) (opnd_lt b) (by omega) hw (fun _ => ?_)
  have e2 : (n.val) % 64 = n.val := by omega
  simp only [candFull, full16, e2, opnd_rt, fin_rt, Option.bind_eq_bind, Option.bind_some, Option.pure_def]
theorem Enc.xfence (h : Hdr) (st : Bool) : Enc.Statement (.xfence h st) := by
  intro hw
  have := b2n_lt st
  refine full_ok h 0x16A (640) (640) (640) (b2n st) rfl (by decide) (by decide) (by decide) (by decide) (by omega) hw (fun _ => ?_)
  have e0 : (b2n st) % 2 = b2n st := by omega
  simp only [candFull, full16, e0, b2n_rt]
theorem Enc.xstat (h : Hdr) (d : Opnd) : Enc.Statement (.xstat h d) := by
  intro hw
  refine full_ok h 0x16B (opndC d) (640) (640) (0) rfl (by decide) (opnd_lt d) (by decide) (by decide) (by decide) hw (fun _ => ?_)
  simp only [candFull, full16, opnd_rt, Option.bind_eq_bind, Option.bind_some, Option.pure_def]
theorem Enc.xpref (h : Hdr) (a b : Opnd) : Enc.Statement (.xpref h a b) := by
  intro hw
  refine full_ok h 0x16C (640) (opndC a) (opndC b) (0) rfl (by decide) (by decide) (opnd_lt a) (opnd_lt b) (by decide) hw (fun _ => ?_)
  simp only [candFull, full16, opnd_rt, Option.bind_eq_bind, Option.bind_some, Option.pure_def]
theorem Enc.mma (h : Hdr) (d a b c : Opnd) (ty : MmaTy) : Enc.Statement (.mma h d a b c ty) := by
  intro hw
  have := mmaty_lt ty
  have := opnd_lt a
  have := opnd_lt b
  have := opnd_lt c
  have := opnd_lt d
  refine full_ok h 0x180 (opndC d) (opndC a) (opndC b) (16 * opndC c + mmatyC ty) rfl (by decide) (opnd_lt d) (opnd_lt a) (opnd_lt b) (by omega) hw (fun _ => ?_)
  have e3 : (16 * opndC c + mmatyC ty) / 16 = opndC c := by omega
  have e4 : (16 * opndC c + mmatyC ty) % 16 = mmatyC ty := by omega
  simp only [candFull, full18, e3, e4, opnd_rt, mmaty_rt, Option.bind_eq_bind, Option.bind_some, Option.pure_def]
theorem Enc.mmas (h : Hdr) (d a b c : Opnd) (ty : MmaTy) : Enc.Statement (.mmas h d a b c ty) := by
  intro hw
  have := mmaty_lt ty
  have := opnd_lt a
  have := opnd_lt b
  have := opnd_lt c
  have := opnd_lt d
  refine full_ok h 0x181 (opndC d) (opndC a) (opndC b) (16 * opndC c + mmatyC ty) rfl (by decide) (opnd_lt d) (opnd_lt a) (opnd_lt b) (by omega) hw (fun _ => ?_)
  have e3 : (16 * opndC c + mmatyC ty) / 16 = opndC c := by omega
  have e4 : (16 * opndC c + mmatyC ty) % 16 = mmatyC ty := by omega
  simp only [candFull, full18, e3, e4, opnd_rt, mmaty_rt, Option.bind_eq_bind, Option.bind_some, Option.pure_def]
theorem Enc.mmac (h : Hdr) (d a b c : Opnd) (conj : Bool) : Enc.Statement (.mmac h d a b c conj) := by
  intro hw
  have := b2n_lt conj
  have := opnd_lt a
  have := opnd_lt b
  have := opnd_lt c
  have := opnd_lt d
  refine full_ok h 0x182 (opndC d) (opndC a) (opndC b) (16 * opndC c + b2n conj) rfl (by decide) (opnd_lt d) (opnd_lt a) (opnd_lt b) (by omega) hw (fun _ => ?_)
  have e3 : (16 * opndC c + b2n conj) / 16 = opndC c := by omega
  have e4 : (16 * opndC c + b2n conj) % 2 = b2n conj := by omega
  simp only [candFull, full18, e3, e4, opnd_rt, b2n_rt, Option.bind_eq_bind, Option.bind_some, Option.pure_def]
theorem Enc.mmax (h : Hdr) (d a b c : Opnd) : Enc.Statement (.mmax h d a b c) := by
  intro hw
  have := opnd_lt a
  have := opnd_lt b
  have := opnd_lt c
  have := opnd_lt d
  refine full_ok h 0x183 (opndC d) (opndC a) (opndC b) (16 * opndC c) rfl (by decide) (opnd_lt d) (opnd_lt a) (opnd_lt b) (by omega) hw (fun _ => ?_)
  have e3 : (16 * opndC c) / 16 = opndC c := by omega
  simp only [candFull, full18, e3, opnd_rt, Option.bind_eq_bind, Option.bind_some, Option.pure_def]
theorem Enc.ldm (h : Hdr) (d a b : Opnd) (m : FragMod) : Enc.Statement (.ldm h d a b m) := by
  intro hw
  have := fragmod_lt m
  have := opnd_lt a
  have := opnd_lt b
  have := opnd_lt d
  refine full_ok h 0x184 (opndC d) (opndC a) (opndC b) (fragmodC m) rfl (by decide) (opnd_lt d) (opnd_lt a) (opnd_lt b) (by omega) hw (fun _ => ?_)
  have e3 : (fragmodC m) % 16384 = fragmodC m := by omega
  simp only [candFull, full18, e3, opnd_rt, fragmod_rt, Option.bind_eq_bind, Option.bind_some, Option.pure_def]
theorem Enc.stm (h : Hdr) (d a b : Opnd) (m : FragMod) : Enc.Statement (.stm h d a b m) := by
  intro hw
  have := fragmod_lt m
  have := opnd_lt a
  have := opnd_lt b
  have := opnd_lt d
  refine full_ok h 0x185 (opndC d) (opndC a) (opndC b) (fragmodC m) rfl (by decide) (opnd_lt d) (opnd_lt a) (opnd_lt b) (by omega) hw (fun _ => ?_)
  have e3 : (fragmodC m) % 16384 = fragmodC m := by omega
  simp only [candFull, full18, e3, opnd_rt, fragmod_rt, Option.bind_eq_bind, Option.bind_some, Option.pure_def]
theorem Enc.mxb (h : Hdr) (d a b c : Opnd) : Enc.Statement (.mxb h d a b c) := by
  intro hw
  have := opnd_lt a
  have := opnd_lt b
  have := opnd_lt c
  have := opnd_lt d
  refine full_ok h 0x1A0 (opndC d) (opndC a) (opndC b) (16 * opndC c) rfl (by decide) (opnd_lt d) (opnd_lt a) (opnd_lt b) (by omega) hw (fun _ => ?_)
  have e3 : (16 * opndC c) / 16 = opndC c := by omega
  simp only [candFull, full1A, e3, opnd_rt, Option.bind_eq_bind, Option.bind_some, Option.pure_def]
theorem Enc.mxbw (h : Hdr) (d a : Opnd) : Enc.Statement (.mxbw h d a) := by
  intro hw
  refine full_ok h 0x1A1 (opndC d) (opndC a) (640) (0) rfl (by decide) (opnd_lt d) (opnd_lt a) (by decide) (by decide) hw (fun _ => ?_)
  simp only [candFull, full1A, opnd_rt, Option.bind_eq_bind, Option.bind_some, Option.pure_def]
theorem Enc.mxbt (h : Hdr) (d : PCode) (a : Opnd) : Enc.Statement (.mxbt h d a) := by
  intro hw
  have := opnd_lt a
  have := pcode_lt d
  refine full_ok h 0x1A2 (pcodeC d) (opndC a) (640) (0) rfl (by decide) (by omega) (opnd_lt a) (by decide) (by decide) hw (fun _ => ?_)
  simp only [candFull, full1A, opnd_rt, pcode_rt, Option.bind_eq_bind, Option.bind_some, Option.pure_def]
theorem Enc.accz (h : Hdr) (d a : Opnd) : Enc.Statement (.accz h d a) := by
  intro hw
  refine full_ok h 0x1A3 (opndC d) (opndC a) (640) (0) rfl (by decide) (opnd_lt d) (opnd_lt a) (by decide) (by decide) hw (fun _ => ?_)
  simp only [candFull, full1A, opnd_rt, Option.bind_eq_bind, Option.bind_some, Option.pure_def]
theorem Enc.accld (h : Hdr) (d a b : Opnd) (st : NumTy) : Enc.Statement (.accld h d a b st) := by
  intro hw
  have := numty_lt st
  have := opnd_lt a
  have := opnd_lt b
  have := opnd_lt d
  refine full_ok h 0x1A4 (opndC d) (opndC a) (opndC b) (16 * numtyC st) rfl (by decide) (opnd_lt d) (opnd_lt a) (opnd_lt b) (by omega) hw (fun _ => ?_)
  have e3 : (16 * numtyC st) / 16 % 32 = numtyC st := by omega
  simp only [candFull, full1A, e3, opnd_rt, numty_rt, Option.bind_eq_bind, Option.bind_some, Option.pure_def]
theorem Enc.accst (h : Hdr) (d a b : Opnd) (dt st : NumTy) (rm : RndE) (sat : Bool) : Enc.Statement (.accst h d a b dt st rm sat) := by
  intro hw
  have := b2n_lt sat
  have := numty_lt dt
  have := numty_lt st
  have := opnd_lt a
  have := opnd_lt b
  have := opnd_lt d
  have := rnde_lt rm
  refine full_ok h 0x1A5 (opndC d) (opndC a) (opndC b) (b2n sat + 2 * rndeC rm + 16 * numtyC st + 512 * numtyC dt) rfl (by decide) (opnd_lt d) (opnd_lt a) (opnd_lt b) (by omega) hw (fun _ => ?_)
  have e3 : (b2n sat + 2 * rndeC rm + 16 * numtyC st + 512 * numtyC dt) / 2 % 8 = rndeC rm := by omega
  have e4 : (b2n sat + 2 * rndeC rm + 16 * numtyC st + 512 * numtyC dt) / 16 % 32 = numtyC st := by omega
  have e5 : (b2n sat + 2 * rndeC rm + 16 * numtyC st + 512 * numtyC dt) / 512 % 32 = numtyC dt := by omega
  have e6 : (b2n sat + 2 * rndeC rm + 16 * numtyC st + 512 * numtyC dt) % 2 = b2n sat := by omega
  simp only [candFull, full1A, e3, e4, e5, e6, opnd_rt, rnde_rt, numty_rt, b2n_rt, Option.bind_eq_bind, Option.bind_some, Option.pure_def]
theorem Enc.accrd (h : Hdr) (d a : Opnd) : Enc.Statement (.accrd h d a) := by
  intro hw
  refine full_ok h 0x1A6 (opndC d) (opndC a) (640) (0) rfl (by decide) (opnd_lt d) (opnd_lt a) (by decide) (by decide) hw (fun _ => ?_)
  simp only [candFull, full1A, opnd_rt, Option.bind_eq_bind, Option.bind_some, Option.pure_def]
theorem Enc.slvcfg (h : Hdr) (d a b : Opnd) : Enc.Statement (.slvcfg h d a b) := by
  intro hw
  refine full_ok h 0x1B0 (opndC d) (opndC a) (opndC b) (0) rfl (by decide) (opnd_lt d) (opnd_lt a) (opnd_lt b) (by decide) hw (fun _ => ?_)
  simp only [candFull, full1B, opnd_rt, Option.bind_eq_bind, Option.bind_some, Option.pure_def]
theorem Enc.slvinit (h : Hdr) (d a b : Opnd) : Enc.Statement (.slvinit h d a b) := by
  intro hw
  refine full_ok h 0x1B1 (opndC d) (opndC a) (opndC b) (0) rfl (by decide) (opnd_lt d) (opnd_lt a) (opnd_lt b) (by decide) hw (fun _ => ?_)
  simp only [candFull, full1B, opnd_rt, Option.bind_eq_bind, Option.bind_some, Option.pure_def]
theorem Enc.slvstage (h : Hdr) (d a b : Opnd) : Enc.Statement (.slvstage h d a b) := by
  intro hw
  refine full_ok h 0x1B2 (opndC d) (opndC a) (opndC b) (0) rfl (by decide) (opnd_lt d) (opnd_lt a) (opnd_lt b) (by decide) hw (fun _ => ?_)
  simp only [candFull, full1B, opnd_rt, Option.bind_eq_bind, Option.bind_some, Option.pure_def]
theorem Enc.slvput (h : Hdr) (d a b : Opnd) : Enc.Statement (.slvput h d a b) := by
  intro hw
  refine full_ok h 0x1B3 (opndC d) (opndC a) (opndC b) (0) rfl (by decide) (opnd_lt d) (opnd_lt a) (opnd_lt b) (by decide) hw (fun _ => ?_)
  simp only [candFull, full1B, opnd_rt, Option.bind_eq_bind, Option.bind_some, Option.pure_def]
theorem Enc.slvstep (h : Hdr) (d a b : Opnd) : Enc.Statement (.slvstep h d a b) := by
  intro hw
  refine full_ok h 0x1B4 (opndC d) (opndC a) (opndC b) (0) rfl (by decide) (opnd_lt d) (opnd_lt a) (opnd_lt b) (by decide) hw (fun _ => ?_)
  simp only [candFull, full1B, opnd_rt, Option.bind_eq_bind, Option.bind_some, Option.pure_def]
theorem Enc.slvstat (h : Hdr) (d a b : Opnd) : Enc.Statement (.slvstat h d a b) := by
  intro hw
  refine full_ok h 0x1B5 (opndC d) (opndC a) (opndC b) (0) rfl (by decide) (opnd_lt d) (opnd_lt a) (opnd_lt b) (by decide) hw (fun _ => ?_)
  simp only [candFull, full1B, opnd_rt, Option.bind_eq_bind, Option.bind_some, Option.pure_def]
theorem Enc.launch (h : Hdr) (d a : Opnd) : Enc.Statement (.launch h d a) := by
  intro hw
  refine full_ok h 0x1C0 (opndC d) (opndC a) (640) (0) rfl (by decide) (opnd_lt d) (opnd_lt a) (by decide) (by decide) hw (fun _ => ?_)
  simp only [candFull, full1C, opnd_rt, Option.bind_eq_bind, Option.bind_some, Option.pure_def]
theorem Enc.emit (h : Hdr) (a b : Opnd) (rs : RecSize) : Enc.Statement (.emit h a b rs) := by
  intro hw
  have := opnd_lt a
  have := opnd_lt b
  have := recsize_lt rs
  refine full_ok h 0x1C1 (640) (opndC a) (opndC b) (recsizeC rs) rfl (by decide) (by decide) (opnd_lt a) (opnd_lt b) (by omega) hw (fun _ => ?_)
  have e2 : (recsizeC rs) % 4 = recsizeC rs := by omega
  simp only [candFull, full1C, e2, opnd_rt, recsize_rt, Option.bind_eq_bind, Option.bind_some, Option.pure_def]
theorem Enc.cont (h : Hdr) (a b : Opnd) (rs : RecSize) : Enc.Statement (.cont h a b rs) := by
  intro hw
  have := opnd_lt a
  have := opnd_lt b
  have := recsize_lt rs
  refine full_ok h 0x1C2 (640) (opndC a) (opndC b) (recsizeC rs) rfl (by decide) (by decide) (opnd_lt a) (opnd_lt b) (by omega) hw (fun _ => ?_)
  have e2 : (recsizeC rs) % 4 = recsizeC rs := by omega
  simp only [candFull, full1C, e2, opnd_rt, recsize_rt, Option.bind_eq_bind, Option.bind_some, Option.pure_def]
theorem Enc.notify (h : Hdr) (d a b : Opnd) : Enc.Statement (.notify h d a b) := by
  intro hw
  refine full_ok h 0x1C3 (opndC d) (opndC a) (opndC b) (0) rfl (by decide) (opnd_lt d) (opnd_lt a) (opnd_lt b) (by decide) hw (fun _ => ?_)
  simp only [candFull, full1C, opnd_rt, Option.bind_eq_bind, Option.bind_some, Option.pure_def]
theorem Enc.nodeq (h : Hdr) (d a : Opnd) : Enc.Statement (.nodeq h d a) := by
  intro hw
  refine full_ok h 0x1C4 (opndC d) (opndC a) (640) (0) rfl (by decide) (opnd_lt d) (opnd_lt a) (by decide) (by decide) hw (fun _ => ?_)
  simp only [candFull, full1C, opnd_rt, Option.bind_eq_bind, Option.bind_some, Option.pure_def]
theorem Enc.rdsys (h : Hdr) (d : Opnd) (w64 : Bool) (n : Fin 1024) : Enc.Statement (.rdsys h d w64 n) := by
  intro hw
  have := b2n_lt w64
  have := opnd_lt d
  have := n.isLt
  refine full_ok h 0x1D0 (opndC d) (640) (640) (n.val + 1024 * b2n w64) rfl (by decide) (opnd_lt d) (by decide) (by decide) (by omega) hw (fun _ => ?_)
  have e1 : (n.val + 1024 * b2n w64) % 1024 = n.val := by omega
  have e2 : (n.val + 1024 * b2n w64) / 1024 % 2 = b2n w64 := by omega
  simp only [candFull, full1D, e1, e2, opnd_rt, b2n_rt, fin_rt, Option.bind_eq_bind, Option.bind_some, Option.pure_def]
theorem Enc.wrsys (h : Hdr) (a : Opnd) (w64 : Bool) (n : Fin 1024) : Enc.Statement (.wrsys h a w64 n) := by
  intro hw
  have := b2n_lt w64
  have := opnd_lt a
  have := n.isLt
  refine full_ok h 0x1D1 (640) (opndC a) (640) (n.val + 1024 * b2n w64) rfl (by decide) (by decide) (opnd_lt a) (by decide) (by omega) hw (fun _ => ?_)
  have e1 : (n.val + 1024 * b2n w64) % 1024 = n.val := by omega
  have e2 : (n.val + 1024 * b2n w64) / 1024 % 2 = b2n w64 := by omega
  simp only [candFull, full1D, e1, e2, opnd_rt, b2n_rt, fin_rt, Option.bind_eq_bind, Option.bind_some, Option.pure_def]
theorem Enc.syscall (h : Hdr) (d a b : Opnd) : Enc.Statement (.syscall h d a b) := by
  intro hw
  refine full_ok h 0x1D2 (opndC d) (opndC a) (opndC b) (0) rfl (by decide) (opnd_lt d) (opnd_lt a) (opnd_lt b) (by decide) hw (fun _ => ?_)
  simp only [candFull, full1D, opnd_rt, Option.bind_eq_bind, Option.bind_some, Option.pure_def]
theorem Enc.tret (h : Hdr) (d a b c : Opnd) : Enc.Statement (.tret h d a b c) := by
  intro hw
  have := opnd_lt a
  have := opnd_lt b
  have := opnd_lt c
  have := opnd_lt d
  refine full_ok h 0x1D3 (opndC d) (opndC a) (opndC b) (16 * opndC c) rfl (by decide) (opnd_lt d) (opnd_lt a) (opnd_lt b) (by omega) hw (fun _ => ?_)
  have e3 : (16 * opndC c) / 16 = opndC c := by omega
  simp only [candFull, full1D, e3, opnd_rt, Option.bind_eq_bind, Option.bind_some, Option.pure_def]
theorem Enc.ctxload (h : Hdr) (d a b : Opnd) : Enc.Statement (.ctxload h d a b) := by
  intro hw
  refine full_ok h 0x1D8 (opndC d) (opndC a) (opndC b) (0) rfl (by decide) (opnd_lt d) (opnd_lt a) (opnd_lt b) (by decide) hw (fun _ => ?_)
  simp only [candFull, full1D, opnd_rt, Option.bind_eq_bind, Option.bind_some, Option.pure_def]
theorem Enc.ctxsaveEvict (h : Hdr) (d a b : Opnd) : Enc.Statement (.ctxsaveEvict h d a b) := by
  intro hw
  refine full_ok h 0x1D9 (opndC d) (opndC a) (opndC b) (0) rfl (by decide) (opnd_lt d) (opnd_lt a) (opnd_lt b) (by decide) hw (fun _ => ?_)
  have hb : opndC b ≠ 769 := evict_ne hw
  simp only [candFull, full1D, hb, if_false, opnd_rt, Option.bind_eq_bind, Option.bind_some, Option.pure_def]
theorem Enc.ctxsaveDestroy (h : Hdr) (d a : Opnd) : Enc.Statement (.ctxsaveDestroy h d a) := by
  intro hw
  refine full_ok h 0x1D9 (opndC d) (opndC a) (0x301) (0) rfl (by decide) (opnd_lt d) (opnd_lt a) (by decide) (by decide) hw (fun _ => ?_)
  simp only [candFull, full1D, if_true, opnd_rt, Option.bind_eq_bind, Option.bind_some, Option.pure_def]
theorem Enc.preemptSpatial (h : Hdr) (d a : Opnd) : Enc.Statement (.preemptSpatial h d a) := by
  intro hw
  refine full_ok h 0x1DA (opndC d) (opndC a) (640) (0) rfl (by decide) (opnd_lt d) (opnd_lt a) (by decide) (by decide) hw (fun _ => ?_)
  simp only [candFull, full1D, opnd_rt, Option.bind_eq_bind, Option.bind_some, Option.pure_def]
theorem Enc.preemptHalt (h : Hdr) (d a : Opnd) : Enc.Statement (.preemptHalt h d a) := by
  intro hw
  refine full_ok h 0x1DA (opndC d) (opndC a) (640) (1) rfl (by decide) (opnd_lt d) (opnd_lt a) (by decide) (by decide) hw (fun _ => ?_)
  simp only [candFull, full1D, opnd_rt, Option.bind_eq_bind, Option.bind_some, Option.pure_def]
theorem Enc.preemptStop (h : Hdr) (d a : Opnd) : Enc.Statement (.preemptStop h d a) := by
  intro hw
  refine full_ok h 0x1DA (opndC d) (opndC a) (640) (2) rfl (by decide) (opnd_lt d) (opnd_lt a) (by decide) (by decide) hw (fun _ => ?_)
  simp only [candFull, full1D, opnd_rt, Option.bind_eq_bind, Option.bind_some, Option.pure_def]
theorem Enc.preemptResume (h : Hdr) (d a : Opnd) : Enc.Statement (.preemptResume h d a) := by
  intro hw
  refine full_ok h 0x1DA (opndC d) (opndC a) (640) (3) rfl (by decide) (opnd_lt d) (opnd_lt a) (by decide) (by decide) hw (fun _ => ?_)
  simp only [candFull, full1D, opnd_rt, Option.bind_eq_bind, Option.bind_some, Option.pure_def]
theorem Enc.preemptRdreg (h : Hdr) (d a : Opnd) : Enc.Statement (.preemptRdreg h d a) := by
  intro hw
  refine full_ok h 0x1DA (opndC d) (opndC a) (640) (4) rfl (by decide) (opnd_lt d) (opnd_lt a) (by decide) (by decide) hw (fun _ => ?_)
  simp only [candFull, full1D, opnd_rt, Option.bind_eq_bind, Option.bind_some, Option.pure_def]
theorem Enc.preemptWrreg (h : Hdr) (d a : Opnd) : Enc.Statement (.preemptWrreg h d a) := by
  intro hw
  refine full_ok h 0x1DA (opndC d) (opndC a) (640) (5) rfl (by decide) (opnd_lt d) (opnd_lt a) (by decide) (by decide) hw (fun _ => ?_)
  simp only [candFull, full1D, opnd_rt, Option.bind_eq_bind, Option.bind_some, Option.pure_def]
theorem Enc.dump (h : Hdr) (d a : Opnd) : Enc.Statement (.dump h d a) := by
  intro hw
  refine full_ok h 0x1DB (opndC d) (opndC a) (640) (0) rfl (by decide) (opnd_lt d) (opnd_lt a) (by decide) (by decide) hw (fun _ => ?_)
  simp only [candFull, full1D, opnd_rt, Option.bind_eq_bind, Option.bind_some, Option.pure_def]
theorem Enc.msgsend (h : Hdr) (d a b : Opnd) (mc : Bool) (q : Fin 3) : Enc.Statement (.msgsend h d a b mc q) := by
  intro hw
  have := b2n_lt mc
  have := opnd_lt a
  have := opnd_lt b
  have := opnd_lt d
  have := q.isLt
  refine full_ok h 0x1D4 (opndC d) (opndC a) (opndC b) (q.val + 8 * b2n mc) rfl (by decide) (opnd_lt d) (opnd_lt a) (opnd_lt b) (by omega) hw (fun _ => ?_)
  have e3 : (q.val + 8 * b2n mc) % 4 = q.val := by omega
  have e4 : (q.val + 8 * b2n mc) / 8 % 2 = b2n mc := by omega
  simp only [candFull, full1D, e3, e4, opnd_rt, b2n_rt, fin_rt, Option.bind_eq_bind, Option.bind_some, Option.pure_def]
theorem Enc.msgrecv (h : Hdr) (d a : Opnd) (nb : Bool) : Enc.Statement (.msgrecv h d a nb) := by
  intro hw
  have := b2n_lt nb
  have := opnd_lt a
  have := opnd_lt d
  refine full_ok h 0x1D5 (opndC d) (opndC a) (640) (b2n nb) rfl (by decide) (opnd_lt d) (opnd_lt a) (by decide) (by omega) hw (fun _ => ?_)
  have e2 : (b2n nb) % 2 = b2n nb := by omega
  simp only [candFull, full1D, e2, opnd_rt, b2n_rt, Option.bind_eq_bind, Option.bind_some, Option.pure_def]
theorem Enc.invapply (h : Hdr) (d a : Opnd) : Enc.Statement (.invapply h d a) := by
  intro hw
  refine full_ok h 0x1D6 (opndC d) (opndC a) (640) (0) rfl (by decide) (opnd_lt d) (opnd_lt a) (by decide) (by decide) hw (fun _ => ?_)
  simp only [candFull, full1D, opnd_rt, Option.bind_eq_bind, Option.bind_some, Option.pure_def]
theorem Enc.tlbinv (h : Hdr) (d a : Opnd) : Enc.Statement (.tlbinv h d a) := by
  intro hw
  refine full_ok h 0x1D7 (opndC d) (opndC a) (640) (0) rfl (by decide) (opnd_lt d) (opnd_lt a) (by decide) (by decide) hw (fun _ => ?_)
  simp only [candFull, full1D, opnd_rt, Option.bind_eq_bind, Option.bind_some, Option.pure_def]
theorem Enc.zeropg (h : Hdr) (d a b : Opnd) : Enc.Statement (.zeropg h d a b) := by
  intro hw
  refine full_ok h 0x1DD (opndC d) (opndC a) (opndC b) (0) rfl (by decide) (opnd_lt d) (opnd_lt a) (opnd_lt b) (by decide) hw (fun _ => ?_)
  simp only [candFull, full1D, opnd_rt, Option.bind_eq_bind, Option.bind_some, Option.pure_def]
theorem Enc.splitrd (h : Hdr) (d a : Opnd) (form : SplitForm) : Enc.Statement (.splitrd h d a form) := by
  intro hw
  have := opnd_lt a
  have := opnd_lt d
  have := splitform_lt form
  refine full_ok h 0x1F0 (opndC d) (opndC a) (640) (splitformC form) rfl (by decide) (opnd_lt d) (opnd_lt a) (by decide) (by omega) hw (fun _ => ?_)
  have e2 : (splitformC form) % 4 = splitformC form := by omega
  simp only [candFull, full1F, e2, opnd_rt, splitform_rt, Option.bind_eq_bind, Option.bind_some, Option.pure_def]
theorem Enc.splitsnap (h : Hdr) (d a : Opnd) (all : Bool) : Enc.Statement (.splitsnap h d a all) := by
  intro hw
  have := b2n_lt all
  have := opnd_lt a
  have := opnd_lt d
  refine full_ok h 0x1F1 (opndC d) (opndC a) (640) (b2n all) rfl (by decide) (opnd_lt d) (opnd_lt a) (by decide) (by omega) hw (fun _ => ?_)
  have e2 : (b2n all) % 2 = b2n all := by omega
  simp only [candFull, full1F, e2, opnd_rt, b2n_rt, Option.bind_eq_bind, Option.bind_some, Option.pure_def]
theorem Enc.mark (h : Hdr) (tag : BitVec 8) (a : Opnd) : Enc.Statement (.mark h tag a) := by
  intro hw
  have := opnd_lt a
  have := tag.isLt
  refine full_ok h 0x1F2 (640) (opndC a) (640) (tag.toNat) rfl (by decide) (by decide) (opnd_lt a) (by decide) (by omega) hw (fun _ => ?_)
  have e1 : (tag.toNat) % 256 = tag.toNat := by omega
  simp only [candFull, full1F, e1, opnd_rt, bv_rt, Option.bind_eq_bind, Option.bind_some, Option.pure_def]
theorem Enc.sampcfg (h : Hdr) (d a : Opnd) : Enc.Statement (.sampcfg h d a) := by
  intro hw
  refine full_ok h 0x1F3 (opndC d) (opndC a) (640) (0) rfl (by decide) (opnd_lt d) (opnd_lt a) (by decide) (by decide) hw (fun _ => ?_)
  simp only [candFull, full1F, opnd_rt, Option.bind_eq_bind, Option.bind_some, Option.pure_def]
theorem Enc.clock (h : Hdr) (d : Opnd) : Enc.Statement (.clock h d) := by
  intro hw
  refine full_ok h 0x1F4 (opndC d) (640) (640) (0) rfl (by decide) (opnd_lt d) (by decide) (by decide) (by decide) hw (fun _ => ?_)
  simp only [candFull, full1F, opnd_rt, Option.bind_eq_bind, Option.bind_some, Option.pure_def]
theorem Enc.retcnt (h : Hdr) (d : Opnd) : Enc.Statement (.retcnt h d) := by
  intro hw
  refine full_ok h 0x1F5 (opndC d) (640) (640) (0) rfl (by decide) (opnd_lt d) (by decide) (by decide) (by decide) hw (fun _ => ?_)
  simp only [candFull, full1F, opnd_rt, Option.bind_eq_bind, Option.bind_some, Option.pure_def]
theorem Enc.illegalWordKill (_gid : Nat) : Enc.Statement (.illegalWordKill _gid) := event_enc rfl
theorem Enc.sleepEnd (_gid : Nat) : Enc.Statement (.sleepEnd _gid) := event_enc rfl
theorem Enc.stackSpill (_gid : Nat) : Enc.Statement (.stackSpill _gid) := event_enc rfl
theorem Enc.stackFill (_gid : Nat) : Enc.Statement (.stackFill _gid) := event_enc rfl
theorem Enc.regionRestart (_gid : Nat) : Enc.Statement (.regionRestart _gid) := event_enc rfl
theorem Enc.registerComplete (_gid : Nat) : Enc.Statement (.registerComplete _gid) := event_enc rfl
theorem Enc.sideLogReplay (_core _entry : Nat) : Enc.Statement (.sideLogReplay _core _entry) := event_enc rfl
theorem Enc.chunkReissue (_job : Nat) : Enc.Statement (.chunkReissue _job) := event_enc rfl
theorem Enc.atomicPerform (_id : Nat) : Enc.Statement (.atomicPerform _id) := event_enc rfl
theorem Enc.barrierWake (_gid : Nat) : Enc.Statement (.barrierWake _gid) := event_enc rfl
theorem Enc.watchEvaluate (_sect _idx : Nat) : Enc.Statement (.watchEvaluate _sect _idx) := event_enc rfl
theorem Enc.watchTimeout (_sect _idx : Nat) : Enc.Statement (.watchTimeout _sect _idx) := event_enc rfl
theorem Enc.copyJobStart (_job : Nat) : Enc.Statement (.copyJobStart _job) := event_enc rfl
theorem Enc.mcPartStart (_job _part : Nat) : Enc.Statement (.mcPartStart _job _part) := event_enc rfl
theorem Enc.chunkSettle (_job : Nat) : Enc.Statement (.chunkSettle _job) := event_enc rfl
theorem Enc.copyJobComplete (_job : Nat) : Enc.Statement (.copyJobComplete _job) := event_enc rfl
theorem Enc.mxbJobStart (_job : Nat) : Enc.Statement (.mxbJobStart _job) := event_enc rfl
theorem Enc.accJobStart (_job : Nat) : Enc.Statement (.accJobStart _job) := event_enc rfl
theorem Enc.kblockEnd (_job : Nat) : Enc.Statement (.kblockEnd _job) := event_enc rfl
theorem Enc.mxbJobComplete (_job : Nat) : Enc.Statement (.mxbJobComplete _job) := event_enc rfl
theorem Enc.slvOpCommit (_cluster : Nat) : Enc.Statement (.slvOpCommit _cluster) := event_enc rfl
theorem Enc.parseGrid (_q : Nat) : Enc.Statement (.parseGrid _q) := event_enc rfl
theorem Enc.parseOpen (_q : Nat) : Enc.Statement (.parseOpen _q) := event_enc rfl
theorem Enc.parseClose (_q : Nat) : Enc.Statement (.parseClose _q) := event_enc rfl
theorem Enc.nodeGather (_ctx _node : Nat) : Enc.Statement (.nodeGather _ctx _node) := event_enc rfl
theorem Enc.gatherTimerExpiry (_ctx _node : Nat) : Enc.Statement (.gatherTimerExpiry _ctx _node) := event_enc rfl
theorem Enc.nodeDrained (_ctx _node : Nat) : Enc.Statement (.nodeDrained _ctx _node) := event_enc rfl
theorem Enc.placeTeam (_ctx : Nat) : Enc.Statement (.placeTeam _ctx) := event_enc rfl
theorem Enc.successorForm (_team : Nat) : Enc.Statement (.successorForm _team) := event_enc rfl
theorem Enc.teamRetire (_team : Nat) : Enc.Statement (.teamRetire _team) := event_enc rfl
theorem Enc.gridComplete (_grid : Nat) : Enc.Statement (.gridComplete _grid) := event_enc rfl
theorem Enc.queueResetComplete (_port : Nat) : Enc.Statement (.queueResetComplete _port) := event_enc rfl
theorem Enc.dumpRun (_die : Nat) : Enc.Statement (.dumpRun _die) := event_enc rfl
theorem Enc.dumpDone (_die : Nat) : Enc.Statement (.dumpDone _die) := event_enc rfl
theorem Enc.trapEntry (_gid : Nat) : Enc.Statement (.trapEntry _gid) := event_enc rfl
theorem Enc.teamSave (_team : Nat) : Enc.Statement (.teamSave _team) := event_enc rfl
theorem Enc.sliceEnd (_core : Nat) : Enc.Statement (.sliceEnd _core) := event_enc rfl
theorem Enc.ownerChange (_core : Nat) : Enc.Statement (.ownerChange _core) := event_enc rfl
theorem Enc.groomerReport (_die : Nat) : Enc.Statement (.groomerReport _die) := event_enc rfl
theorem Enc.shootdownApply (_die : Nat) : Enc.Statement (.shootdownApply _die) := event_enc rfl
theorem Enc.lazyApply (_die : Nat) : Enc.Statement (.lazyApply _die) := event_enc rfl
theorem Enc.drainDone (_die : Nat) : Enc.Statement (.drainDone _die) := event_enc rfl
theorem Enc.traceDeliver (_core : Nat) : Enc.Statement (.traceDeliver _core) := event_enc rfl
theorem Enc.headroomDeliver (_port : Nat) : Enc.Statement (.headroomDeliver _port) := event_enc rfl
theorem Enc.writeAcknowledged (_id : Nat) : Enc.Statement (.writeAcknowledged _id) := event_enc rfl
theorem Enc.touchWindowClose (_gid : Nat) : Enc.Statement (.touchWindowClose _gid) := event_enc rfl
theorem Enc.pageWalkComplete (_cluster _ctx : Nat) (_ptr : DWord) : Enc.Statement (.pageWalkComplete _cluster _ctx _ptr) := event_enc rfl
theorem Enc.accessCountNotify (_cluster : Nat) : Enc.Statement (.accessCountNotify _cluster) := event_enc rfl
theorem Enc.sample (_core _port : Nat) : Enc.Statement (.sample _core _port) := event_enc rfl
theorem Enc.overflowFold (_core _port : Nat) : Enc.Statement (.overflowFold _core _port) := event_enc rfl
theorem Enc.correctedError (_die : Nat) : Enc.Statement (.correctedError _die) := event_enc rfl
theorem Enc.uncorrectableWriteback (_pa : Nat) : Enc.Statement (.uncorrectableWriteback _pa) := event_enc rfl
theorem Enc.patrolScrub (_die : Nat) : Enc.Statement (.patrolScrub _die) := event_enc rfl
theorem Enc.qtailWrite (_port : Nat) (_v : Word) : Enc.Statement (.qtailWrite _port _v) := event_enc rfl
theorem Enc.portEnable (_port : Nat) : Enc.Statement (.portEnable _port) := event_enc rfl
theorem Enc.portDisable (_port : Nat) : Enc.Statement (.portDisable _port) := event_enc rfl
theorem Enc.qreset (_port : Nat) : Enc.Statement (.qreset _port) := event_enc rfl
theorem Enc.dieLoss (_die : Nat) : Enc.Statement (.dieLoss _die) := event_enc rfl
theorem Enc.fmResetRequest (_v : Word) : Enc.Statement (.fmResetRequest _v) := event_enc rfl
theorem Enc.linkWidthChange (_a _b _n : Nat) : Enc.Statement (.linkWidthChange _a _b _n) := event_enc rfl
theorem Enc.linkClockChange (_a _b : Nat) : Enc.Statement (.linkClockChange _a _b) := event_enc rfl
theorem Enc.hostMemAccess (_write : Bool) (_pa : Nat) (_bytes : List Byte) : Enc.Statement (.hostMemAccess _write _pa _bytes) := event_enc rfl
theorem Enc.hostSnoop (_pa : Nat) (_bytes : List Byte) : Enc.Statement (.hostSnoop _pa _bytes) := event_enc rfl
theorem Enc.yosonTimeout (_pa : Nat) : Enc.Statement (.yosonTimeout _pa) := event_enc rfl
theorem Enc.yosonPortFail (_port : Nat) : Enc.Statement (.yosonPortFail _port) := event_enc rfl
theorem Enc.frameReceive (_port : Nat) (_frame : List Byte) (_fcsOk : Bool) : Enc.Statement (.frameReceive _port _frame _fcsOk) := event_enc rfl
theorem Enc.nvmeCompletion (_ctx : Nat) (_ptr : DWord) (_bytes : List Byte) (_toDevice : Bool) : Enc.Statement (.nvmeCompletion _ctx _ptr _bytes _toDevice) := event_enc rfl
theorem Enc.powerUp : Enc.Statement (.powerUp) := event_enc rfl
theorem Enc.loadfe : Enc.Statement (.loadfe) := event_enc rfl
theorem Enc.loaddie (_die : Nat) : Enc.Statement (.loaddie _die) := event_enc rfl
theorem Enc.quote : Enc.Statement (.quote) := event_enc rfl
theorem Enc.clockPlan (_target : Nat) : Enc.Statement (.clockPlan _target) := event_enc rfl
theorem Enc.powerMeasure (_watts : Nat) (_temps : List Nat) : Enc.Statement (.powerMeasure _watts _temps) := event_enc rfl
theorem Enc.supplyShutdown : Enc.Statement (.supplyShutdown) := event_enc rfl
theorem Enc.packageLoss : Enc.Statement (.packageLoss) := event_enc rfl
theorem Enc.ceClear (_die : Nat) : Enc.Statement (.ceClear _die) := event_enc rfl
theorem Enc.unmatchedClear (_port : Nat) : Enc.Statement (.unmatchedClear _port) := event_enc rfl
theorem Enc.badfcsClear (_port : Nat) : Enc.Statement (.badfcsClear _port) := event_enc rfl
theorem Enc.ringEnable (_port _ring : Nat) (_en : Bool) : Enc.Statement (.ringEnable _port _ring _en) := event_enc rfl
theorem Enc.csetWrite (_ctx _word : Nat) (_val : DWord) : Enc.Statement (.csetWrite _ctx _word _val) := event_enc rfl
theorem Enc.registerWrite (_pa : Nat) (_val : DWord) (_viaBar0 : Bool) : Enc.Statement (.registerWrite _pa _val _viaBar0) := event_enc rfl
theorem Enc.ethernetLinkChange (_port : Nat) (_up : Bool) : Enc.Statement (.ethernetLinkChange _port _up) := event_enc rfl
theorem Enc.yosonlinkRequest (_req : YosReq) : Enc.Statement (.yosonlinkRequest _req) := event_enc rfl

end Sys2Proof.Laws
end

section
/-! PROOFS of the bitwise and the bit-counting words, from the word's bits on (R58, R61). -/

namespace Sys2Proof.Laws

open Machine

/-- A full word is decoded through its fields alone (R28), and the instruction they name is checked (R29). -/
theorem decodeWord_full {w : Nat} {i : Instr} (hf : w / 2 ^ 62 % 4 = 0) (hi : candFull (rawOf w) = some i) : decodeWord w = checked w i := by
  unfold decodeWord
  simp only [hf, hi]

/-- A full word whose fields name no instruction is refused (R46). -/
theorem decodeWord_full_none {w : Nat} (hf : w / 2 ^ 62 % 4 = 0) (hi : candFull (rawOf w) = none) : decodeWord w = .error .unassigned := by
  unfold decodeWord
  simp only [hf, hi]

/-- A check that succeeds returns its candidate. -/
theorem checked_ok {w : Nat} {i j : Instr} (h : checked w i = .ok j) : i = j := by
  unfold checked at h
  split at h
  · cases h
  · split at h
    · exact Except.ok.inj h
    · cases h

/-- A check fails when M14 differs from what the candidate encodes there (R29). -/
theorem checked_error {w : Nat} {i : Instr} (h : encode i % 2 ^ 14 ≠ w % 2 ^ 14) : checked w i = .error .modifier := if_pos h

/-- Where a full word's fields name only instructions that have M14 = 0 and satisfy `P`, the word is refused with any other M14 (R29), and
what is read from it satisfies `P`. -/
theorem decodeWord_full_m14 {w : Nat} {P : Instr → Prop} (hf : w / 2 ^ 62 % 4 = 0)
    (hP : ∀ i, candFull (rawOf w) = some i → encode i % 2 ^ 14 = 0 ∧ P i) :
    (w % 2 ^ 14 ≠ 0 → ∃ r, decodeWord w = .error r) ∧ ∀ i, decodeWord w = .ok i → P i := by
  cases hc : candFull (rawOf w) with
  | none =>
    rw [decodeWord_full_none hf hc]
    exact ⟨fun _ => ⟨_, rfl⟩, fun _ h => nomatch h⟩
  | some j =>
    obtain ⟨hj, pj⟩ := hP j hc
    rw [decodeWord_full hf hc]
    exact ⟨fun hw => ⟨_, checked_error (by rw [hj]; exact hw.symm)⟩, fun i h => checked_ok h ▸ pj⟩

/-- The M14 field of a full word joined with M14 = 0 (R28). -/
theorem joinFull_m14 (h : Hdr) (op d a b : Nat) : joinFull h op d a b 0 % 2 ^ 14 = 0 := by
  unfold joinFull joinHdr
  omega

/-- The bitwise words as they are encoded, M14 = 0 (R58). -/
theorem encode_and (h : Hdr) (d a b : Opnd) : encode (.and h d a b) = joinFull h 0x010 (opndC d) (opndC a) (opndC b) 0 := rfl
theorem encode_or (h : Hdr) (d a b : Opnd) : encode (.or h d a b) = joinFull h 0x011 (opndC d) (opndC a) (opndC b) 0 := rfl
theorem encode_xor (h : Hdr) (d a b : Opnd) : encode (.xor h d a b) = joinFull h 0x012 (opndC d) (opndC a) (opndC b) 0 := rfl
theorem encode_andn (h : Hdr) (d a b : Opnd) : encode (.andn h d a b) = joinFull h 0x013 (opndC d) (opndC a) (opndC b) 0 := rfl

/-- The bit-counting words as they are encoded, M14 = 0 and the field B unused (R29, R61). -/
theorem encode_popc (h : Hdr) (d a : Opnd) : encode (.popc h d a) = joinFull h 0x01C (opndC d) (opndC a) 640 0 := rfl
theorem encode_clz (h : Hdr) (d a : Opnd) : encode (.clz h d a) = joinFull h 0x01D (opndC d) (opndC a) 640 0 := rfl
theorem encode_ctz (h : Hdr) (d a : Opnd) : encode (.ctz h d a) = joinFull h 0x01E (opndC d) (opndC a) 640 0 := rfl
theorem encode_brev (h : Hdr) (d a : Opnd) : encode (.brev h d a) = joinFull h 0x01F (opndC d) (opndC a) 640 0 := rfl

/-- The instruction two operand fields name. -/
def fields2 (raw : Raw) (mk : Hdr → Opnd → Opnd → Instr) : Option Instr := do
  let d ← opndOf raw.d
  let a ← opndOf raw.a
  pure (mk raw.h d a)

/-- The instruction three operand fields name. -/
def fields3 (raw : Raw) (mk : Hdr → Opnd → Opnd → Opnd → Instr) : Option Instr := do
  let d ← opndOf raw.d
  let a ← opndOf raw.a
  let b ← opndOf raw.b
  pure (mk raw.h d a b)

theorem fields2_eq_some {raw : Raw} {mk : Hdr → Opnd → Opnd → Instr} {i : Instr} :
    fields2 raw mk = some i ↔ ∃ d a, opndOf raw.d = some d ∧ opndOf raw.a = some a ∧ i = mk raw.h d a := by
  simp [fields2, Option.bind_eq_some_iff, @eq_comm Instr i]

theorem fields3_eq_some {raw : Raw} {mk : Hdr → Opnd → Opnd → Opnd → Instr} {i : Instr} :
    fields3 raw mk = some i ↔
      ∃ d a b, opndOf raw.d = some d ∧ opndOf raw.a = some a ∧ opndOf raw.b = some b ∧ i = mk raw.h d a b := by
  simp [fields3, Option.bind_eq_some_iff, @eq_comm Instr i]

/-- The bitwise words' entries in the opcode map (R58). -/
theorem candFull_and {raw : Raw} (h : raw.op = 0x010) : candFull raw = fields3 raw .and := by simp only [candFull, full01, h, fields3]
theorem candFull_or {raw : Raw} (h : raw.op = 0x011) : candFull raw = fields3 raw .or := by simp only [candFull, full01, h, fields3]
theorem candFull_xor {raw : Raw} (h : raw.op = 0x012) : candFull raw = fields3 raw .xor := by simp only [candFull, full01, h, fields3]
theorem candFull_andn {raw : Raw} (h : raw.op = 0x013) : candFull raw = fields3 raw .andn := by simp only [candFull, full01, h, fields3]

/-- The bit-counting words' entries in the opcode map (R61). -/
theorem candFull_popc {raw : Raw} (h : raw.op = 0x01C) : candFull raw = fields2 raw .popc := by simp only [candFull, full01, h, fields2]
theorem candFull_clz {raw : Raw} (h : raw.op = 0x01D) : candFull raw = fields2 raw .clz := by simp only [candFull, full01, h, fields2]
theorem candFull_ctz {raw : Raw} (h : raw.op = 0x01E) : candFull raw = fields2 raw .ctz := by simp only [candFull, full01, h, fields2]
theorem candFull_brev {raw : Raw} (h : raw.op = 0x01F) : candFull raw = fields2 raw .brev := by simp only [candFull, full01, h, fields2]

/-- A full word of two operands and M14 = 0: it is refused with another M14, and what is read from it does what its entry says of the
operands in the fields D and A. -/
theorem decodeWord_fields2 {w : Nat} {op : Nat} {mk : Hdr → Opnd → Opnd → Instr} {does : Opnd → Opnd → Instr → Prop} (hf : w / 2 ^ 62 % 4 = 0)
    (hc : candFull (rawOf w) = fields2 (rawOf w) mk)
    (he : ∀ h d a, encode (mk h d a) = joinFull h op (opndC d) (opndC a) 640 0) (hd : ∀ h d a, does d a (mk h d a)) :
    (w % 2 ^ 14 ≠ 0 → ∃ r, decodeWord w = .error r) ∧
    ∀ i, decodeWord w = .ok i → ∃ d a, opndOf (w / 2 ^ 34 % 1024) = some d ∧ opndOf (w / 2 ^ 24 % 1024) = some a ∧ does d a i := by
  refine decodeWord_full_m14 hf (fun i hi => ?_)
  obtain ⟨d, a, ed, ea, rfl⟩ := fields2_eq_some.1 (hc ▸ hi)
  exact ⟨by rw [he]; exact joinFull_m14 _ _ _ _ _, d, a, ed, ea, hd _ d a⟩

/-- A full word of three operands and M14 = 0: it is refused with another M14, and what is read from it does what its entry says of the
operands in the fields D, A and B. -/
theorem decodeWord_fields3 {w : Nat} {op : Nat} {mk : Hdr → Opnd → Opnd → Opnd → Instr} {does : Opnd → Opnd → Opnd → Instr → Prop}
    (hf : w / 2 ^ 62 % 4 = 0) (hc : candFull (rawOf w) = fields3 (rawOf w) mk)
    (he : ∀ h d a b, encode (mk h d a b) = joinFull h op (opndC d) (opndC a) (opndC b) 0)
    (hd : ∀ h d a b, does d a b (mk h d a b)) :
    (w % 2 ^ 14 ≠ 0 → ∃ r, decodeWord w = .error r) ∧
    ∀ i, decodeWord w = .ok i → ∃ d a b, opndOf (w / 2 ^ 34 % 1024) = some d ∧ opndOf (w / 2 ^ 24 % 1024) = some a ∧
      opndOf (w / 2 ^ 14 % 1024) = some b ∧ does d a b i := by
  refine decodeWord_full_m14 hf (fun i hi => ?_)
  obtain ⟨d, a, b, ed, ea, eb, rfl⟩ := fields3_eq_some.1 (hc ▸ hi)
  exact ⟨by rw [he]; exact joinFull_m14 _ _ _ _ _, d, a, b, ed, ea, eb, hd _ d a b⟩

end Sys2Proof.Laws

namespace Sys2Proof.Machine

/-- A word whose whole meaning is one 32-bit result in every lane it executes in (R38) writes that result. -/
theorem result1_of_put1 {i : Instr} {d : Opnd} {v : Group → Nat → Word}
    (he : ∀ s, exec i s = runWord i s fun w => w.put1 d (v w.g)) : Result1 i d v :=
  writes_of_fix he (fun _ _ => rfl)

theorem result1_and (h : Hdr) (d a b : Opnd) : Result1 (.and h d a b) d (fun g l => g.rd l a &&& g.rd l b) :=
  result1_of_put1 (fun _ => rfl)
theorem result1_or (h : Hdr) (d a b : Opnd) : Result1 (.or h d a b) d (fun g l => g.rd l a ||| g.rd l b) :=
  result1_of_put1 (fun _ => rfl)
theorem result1_xor (h : Hdr) (d a b : Opnd) : Result1 (.xor h d a b) d (fun g l => g.rd l a ^^^ g.rd l b) :=
  result1_of_put1 (fun _ => rfl)
theorem result1_andn (h : Hdr) (d a b : Opnd) : Result1 (.andn h d a b) d (fun g l => g.rd l a &&& ~~~g.rd l b) :=
  result1_of_put1 (fun _ => rfl)

/-- The one bits among the low `n`, counted by halving, are the positions below `n` that hold a one. -/
theorem popNat_eq_countP (n x : Nat) : popNat n x = (List.range n).countP (fun j => x.testBit j) := by
  induction n generalizing x with
  | zero => rfl
  | succ n ih =>
    have tail : (fun j => x.testBit j) ∘ Nat.succ = fun j => (x / 2).testBit j := by
      funext j; exact Nat.testBit_succ x j
    rw [popNat, ih, List.range_succ_eq_map, List.countP_cons, List.countP_map, tail, Nat.testBit_zero]
    rcases Nat.mod_two_eq_zero_or_one x with h | h <;> simp [h, Nat.add_comm]

/-- Zero has nothing but zeros above its highest one bit. -/
theorem clzNat_zero (n : Nat) : clzNat n 0 = n := by
  induction n with
  | zero => rfl
  | succ n ih => simp [clzNat, ih, Nat.add_comm]

/-- With its highest one bit at `k`, a number of `n` bits has the `n - 1 - k` zeros above it. -/
theorem clzNat_of_highest {n x k : Nat} (hk : k < n) (one : x.testBit k = true) (zeros : ∀ j, k < j → x.testBit j = false) :
    clzNat n x = n - 1 - k := by
  induction n with
  | zero => omega
  | succ n ih =>
    rw [clzNat]
    by_cases h : k = n
    · subst h
      rw [if_pos one]
      omega
    · rw [zeros n (by omega), if_neg Bool.false_ne_true, ih (by omega)]
      omega

/-- Zero has nothing but zeros below its lowest one bit. -/
theorem ctzNat_zero (n : Nat) : ctzNat n 0 = n := by
  induction n with
  | zero => rfl
  | succ n ih => simp [ctzNat, ih, Nat.add_comm]

/-- With its lowest one bit at `k`, a number has the `k` zeros below it. -/
theorem ctzNat_of_lowest {n x k : Nat} (hk : k < n) (one : x.testBit k = true) (zeros : ∀ j, j < k → x.testBit j = false) :
    ctzNat n x = k := by
  induction n generalizing x k with
  | zero => omega
  | succ n ih =>
    rw [ctzNat]
    cases k with
    | zero => exact if_pos one
    | succ k =>
      have one' : (x / 2).testBit k = true := by rw [← Nat.testBit_succ]; exact one
      have zeros' : ∀ j, j < k → (x / 2).testBit j = false := fun j hj => by
        rw [← Nat.testBit_succ]; exact zeros (j + 1) (by omega)
      rw [zeros 0 (by omega), if_neg Bool.false_ne_true, ih (by omega) one' zeros', Nat.add_comm]

/-- The reverse of `n` bits has `n` bits. -/
theorem brevNat_lt (n x : Nat) : brevNat n x < 2 ^ n := by
  induction n generalizing x with
  | zero => exact Nat.one_pos
  | succ n ih =>
    have low := ih (x / 2)
    rw [brevNat, Nat.pow_succ]
    rcases Nat.mod_two_eq_zero_or_one x with h | h <;> rw [h] <;> omega

/-- Bit `j` of the reverse of `n` bits is bit `n - 1 - j`. -/
theorem testBit_brevNat {n j : Nat} (x : Nat) (hj : j < n) : (brevNat n x).testBit j = x.testBit (n - 1 - j) := by
  induction n generalizing x with
  | zero => omega
  | succ n ih =>
    rw [brevNat, Nat.mul_comm, Nat.testBit_two_pow_mul_add _ (brevNat_lt n (x / 2))]
    by_cases h : j < n
    · rw [if_pos h, ih (x / 2) h, ← Nat.testBit_succ]
      congr 1
      omega
    · obtain rfl : j = n := by omega
      simp

theorem result1_popc (h : Hdr) (d a : Opnd) :
    Result1 (.popc h d a) d (fun g l => BitVec.ofNat 32 ((List.range 32).countP (fun j => (g.rd l a).getLsbD j))) :=
  result1_of_put1 (fun s => by
    show runWord (.popc h d a) s (fun w => w.put1 d (fun l => BitVec.ofNat 32 (popNat 32 (w.g.rd l a).toNat))) = _
    simp only [popNat_eq_countP, BitVec.testBit_toNat])
theorem result1_clz (h : Hdr) (d a : Opnd) : Result1 (.clz h d a) d (fun g l => BitVec.ofNat 32 (clzNat 32 (g.rd l a).toNat)) :=
  result1_of_put1 (fun _ => rfl)
theorem result1_ctz (h : Hdr) (d a : Opnd) : Result1 (.ctz h d a) d (fun g l => BitVec.ofNat 32 (ctzNat 32 (g.rd l a).toNat)) :=
  result1_of_put1 (fun _ => rfl)
theorem result1_brev (h : Hdr) (d a : Opnd) : Result1 (.brev h d a) d (fun g l => BitVec.ofNat 32 (brevNat 32 (g.rd l a).toNat)) :=
  result1_of_put1 (fun _ => rfl)

/-- Bit `j` of BREV's result is bit `31 - j` of A (R61). -/
theorem getLsbD_brev (x : Word) {j : Nat} (hj : j < 32) : (BitVec.ofNat 32 (brevNat 32 x.toNat)).getLsbD j = x.getLsbD (31 - j) := by
  rw [BitVec.getLsbD_ofNat, testBit_brevNat _ hj, BitVec.testBit_toNat]
  simp [hj]

end Sys2Proof.Machine

open Sys2Proof Sys2Proof.Machine Sys2Proof.Laws

/-- Settles O57: the fields D, A and B name the operands of the four bitwise words, whose result is one 32-bit register (R58). -/
theorem bitwiseRules : Obligations.BitwiseRules := by
  intro w hf
  exact ⟨fun hop => decodeWord_fields3 hf (candFull_and hop) encode_and result1_and,
    fun hop => decodeWord_fields3 hf (candFull_or hop) encode_or result1_or,
    fun hop => decodeWord_fields3 hf (candFull_xor hop) encode_xor result1_xor,
    fun hop => decodeWord_fields3 hf (candFull_andn hop) encode_andn result1_andn⟩

/-- Settles O59: the fields D and A name the operands of the four bit-counting words; the counts and the reversal that the model computes by
halving are those of the bits of A (R61). -/
theorem countRules : Obligations.CountRules := by
  intro w hf
  refine ⟨fun hop => decodeWord_fields2 hf (candFull_popc hop) encode_popc result1_popc,
    fun hop => decodeWord_fields2 hf (candFull_clz hop) encode_clz (fun h d a => ?_),
    fun hop => decodeWord_fields2 hf (candFull_ctz hop) encode_ctz (fun h d a => ?_),
    fun hop => decodeWord_fields2 hf (candFull_brev hop) encode_brev (fun h d a => ?_)⟩
  · exact ⟨fun x => clzNat 32 x.toNat, result1_clz h d a, clzNat_zero 32, fun _ _ hk one zeros => clzNat_of_highest hk one zeros⟩
  · exact ⟨fun x => ctzNat 32 x.toNat, result1_ctz h d a, ctzNat_zero 32, fun _ _ hk one zeros => ctzNat_of_lowest hk one zeros⟩
  · exact ⟨fun x => BitVec.ofNat 32 (brevNat 32 x.toNat), result1_brev h d a, fun x _ hj => getLsbD_brev x hj⟩
end

section
/-! PROOFS of the codec and of the machine's invariant (R2, R28–R35, R44, R46; R417–R419). -/

namespace Sys2Proof.Laws

open Machine

/-- The decoder reads every well-formed instruction back from its word. -/
theorem enc (i : Instr) : Enc.Statement i := by
  cases i with
  | mov a0 a1 a2 => exact Enc.mov a0 a1 a2
  | iadd a0 a1 a2 a3 a4 => exact Enc.iadd a0 a1 a2 a3 a4
  | iadd64 a0 a1 a2 a3 => exact Enc.iadd64 a0 a1 a2 a3
  | isub a0 a1 a2 a3 a4 => exact Enc.isub a0 a1 a2 a3 a4
  | isub64 a0 a1 a2 a3 => exact Enc.isub64 a0 a1 a2 a3
  | imul a0 a1 a2 a3 => exact Enc.imul a0 a1 a2 a3
  | imulh a0 a1 a2 a3 => exact Enc.imulh a0 a1 a2 a3
  | imulhu a0 a1 a2 a3 => exact Enc.imulhu a0 a1 a2 a3
  | imad a0 a1 a2 a3 a4 => exact Enc.imad a0 a1 a2 a3 a4
  | imadw a0 a1 a2 a3 a4 a5 => exact Enc.imadw a0 a1 a2 a3 a4 a5
  | idiv a0 a1 a2 a3 a4 => exact Enc.idiv a0 a1 a2 a3 a4
  | irem a0 a1 a2 a3 a4 => exact Enc.irem a0 a1 a2 a3 a4
  | imin a0 a1 a2 a3 a4 => exact Enc.imin a0 a1 a2 a3 a4
  | imax a0 a1 a2 a3 a4 => exact Enc.imax a0 a1 a2 a3 a4
  | iabs a0 a1 a2 a3 => exact Enc.iabs a0 a1 a2 a3
  | isad a0 a1 a2 a3 a4 a5 => exact Enc.isad a0 a1 a2 a3 a4 a5
  | and a0 a1 a2 a3 => exact Enc.and a0 a1 a2 a3
  | or a0 a1 a2 a3 => exact Enc.or a0 a1 a2 a3
  | xor a0 a1 a2 a3 => exact Enc.xor a0 a1 a2 a3
  | andn a0 a1 a2 a3 => exact Enc.andn a0 a1 a2 a3
  | shl a0 a1 a2 a3 => exact Enc.shl a0 a1 a2 a3
  | shr a0 a1 a2 a3 => exact Enc.shr a0 a1 a2 a3
  | sar a0 a1 a2 a3 => exact Enc.sar a0 a1 a2 a3
  | shl64 a0 a1 a2 a3 => exact Enc.shl64 a0 a1 a2 a3
  | shr64 a0 a1 a2 a3 => exact Enc.shr64 a0 a1 a2 a3
  | sar64 a0 a1 a2 a3 => exact Enc.sar64 a0 a1 a2 a3
  | fshl a0 a1 a2 a3 a4 a5 => exact Enc.fshl a0 a1 a2 a3 a4 a5
  | fshr a0 a1 a2 a3 a4 a5 => exact Enc.fshr a0 a1 a2 a3 a4 a5
  | popc a0 a1 a2 => exact Enc.popc a0 a1 a2
  | clz a0 a1 a2 => exact Enc.clz a0 a1 a2
  | ctz a0 a1 a2 => exact Enc.ctz a0 a1 a2
  | brev a0 a1 a2 => exact Enc.brev a0 a1 a2
  | bfe a0 a1 a2 a3 a4 a5 => exact Enc.bfe a0 a1 a2 a3 a4 a5
  | bfi a0 a1 a2 a3 a4 => exact Enc.bfi a0 a1 a2 a3 a4
  | sext a0 a1 a2 a3 => exact Enc.sext a0 a1 a2 a3
  | zext a0 a1 a2 a3 => exact Enc.zext a0 a1 a2 a3
  | icmp a0 a1 a2 a3 a4 a5 => exact Enc.icmp a0 a1 a2 a3 a4 a5
  | icmp64 a0 a1 a2 a3 a4 a5 => exact Enc.icmp64 a0 a1 a2 a3 a4 a5
  | sel a0 a1 a2 a3 a4 a5 => exact Enc.sel a0 a1 a2 a3 a4 a5
  | plop a0 a1 a2 a3 a4 => exact Enc.plop a0 a1 a2 a3 a4
  | lea a0 a1 a2 a3 a4 a5 a6 => exact Enc.lea a0 a1 a2 a3 a4 a5 a6
  | moviFull a0 a1 a2 => exact Enc.moviFull a0 a1 a2
  | moviWide a0 a1 a2 => exact Enc.moviWide a0 a1 a2
  | movihFull a0 a1 a2 => exact Enc.movihFull a0 a1 a2
  | movihWide a0 a1 a2 => exact Enc.movihWide a0 a1 a2
  | iaddiFull a0 a1 a2 a3 => exact Enc.iaddiFull a0 a1 a2 a3
  | iaddiWide a0 a1 a2 => exact Enc.iaddiWide a0 a1 a2
  | qxch a0 a1 a2 a3 => exact Enc.qxch a0 a1 a2 a3
  | shfl a0 a1 a2 a3 a4 a5 => exact Enc.shfl a0 a1 a2 a3 a4 a5
  | vote a0 a1 a2 a3 => exact Enc.vote a0 a1 a2 a3
  | ballot a0 a1 a2 => exact Enc.ballot a0 a1 a2
  | matchw a0 a1 a2 a3 => exact Enc.matchw a0 a1 a2 a3
  | elect a0 a1 => exact Enc.elect a0 a1
  | readlane a0 a1 a2 a3 => exact Enc.readlane a0 a1 a2 a3
  | writelane a0 a1 a2 a3 => exact Enc.writelane a0 a1 a2 a3
  | gred a0 a1 a2 a3 => exact Enc.gred a0 a1 a2 a3
  | gscan a0 a1 a2 a3 a4 => exact Enc.gscan a0 a1 a2 a3 a4
  | mask a0 a1 a2 => exact Enc.mask a0 a1 a2
  | pairWord a0 a1 a2 a3 => exact Enc.pairWord a0 a1 a2 a3
  | nop a0 => exact Enc.nop a0
  | braFull a0 a1 => exact Enc.braFull a0 a1
  | braWide a0 a1 => exact Enc.braWide a0 a1
  | brx a0 a1 => exact Enc.brx a0 a1
  | bruFull a0 a1 => exact Enc.bruFull a0 a1
  | bruWide a0 a1 => exact Enc.bruWide a0 a1
  | callFull a0 a1 => exact Enc.callFull a0 a1
  | callWide a0 a1 => exact Enc.callWide a0 a1
  | callx a0 a1 => exact Enc.callx a0 a1
  | ret a0 => exact Enc.ret a0
  | exit a0 => exact Enc.exit a0
  | yield a0 a1 => exact Enc.yield a0 a1
  | rdvpc a0 a1 a2 => exact Enc.rdvpc a0 a1 a2
  | wrvpc a0 a1 a2 => exact Enc.wrvpc a0 a1 a2
  | sleepc a0 a1 => exact Enc.sleepc a0 a1
  | trap a0 a1 => exact Enc.trap a0 a1
  | bkpt a0 a1 => exact Enc.bkpt a0 a1
  | hret a0 => exact Enc.hret a0
  | push a0 a1 a2 => exact Enc.push a0 a1 a2
  | pop a0 a1 a2 => exact Enc.pop a0 a1 a2
  | salloc a0 a1 a2 => exact Enc.salloc a0 a1 a2
  | sfree a0 a1 => exact Enc.sfree a0 a1
  | fadd a0 a1 a2 a3 a4 a5 => exact Enc.fadd a0 a1 a2 a3 a4 a5
  | fsub a0 a1 a2 a3 a4 a5 => exact Enc.fsub a0 a1 a2 a3 a4 a5
  | fmul a0 a1 a2 a3 a4 a5 => exact Enc.fmul a0 a1 a2 a3 a4 a5
  | ffma a0 a1 a2 a3 a4 a5 a6 a7 => exact Enc.ffma a0 a1 a2 a3 a4 a5 a6 a7
  | ffma2 a0 a1 a2 a3 a4 a5 a6 a7 => exact Enc.ffma2 a0 a1 a2 a3 a4 a5 a6 a7
  | fmin a0 a1 a2 a3 a4 a5 => exact Enc.fmin a0 a1 a2 a3 a4 a5
  | fmax a0 a1 a2 a3 a4 a5 => exact Enc.fmax a0 a1 a2 a3 a4 a5
  | fcmp a0 a1 a2 a3 a4 a5 => exact Enc.fcmp a0 a1 a2 a3 a4 a5
  | hadd2 a0 a1 a2 a3 => exact Enc.hadd2 a0 a1 a2 a3
  | hmul2 a0 a1 a2 a3 => exact Enc.hmul2 a0 a1 a2 a3
  | hfma2 a0 a1 a2 a3 a4 => exact Enc.hfma2 a0 a1 a2 a3 a4
  | badd2 a0 a1 a2 a3 => exact Enc.badd2 a0 a1 a2 a3
  | bmul2 a0 a1 a2 a3 => exact Enc.bmul2 a0 a1 a2 a3
  | bfma2 a0 a1 a2 a3 a4 => exact Enc.bfma2 a0 a1 a2 a3 a4
  | frcp a0 a1 a2 a3 => exact Enc.frcp a0 a1 a2 a3
  | frsq a0 a1 a2 a3 => exact Enc.frsq a0 a1 a2 a3
  | fsqrt a0 a1 a2 a3 => exact Enc.fsqrt a0 a1 a2 a3
  | fex2 a0 a1 a2 a3 => exact Enc.fex2 a0 a1 a2 a3
  | flg2 a0 a1 a2 a3 => exact Enc.flg2 a0 a1 a2 a3
  | fsin a0 a1 a2 a3 => exact Enc.fsin a0 a1 a2 a3
  | fcos a0 a1 a2 a3 => exact Enc.fcos a0 a1 a2 a3
  | ftanh a0 a1 a2 a3 => exact Enc.ftanh a0 a1 a2 a3
  | fdiv a0 a1 a2 a3 a4 => exact Enc.fdiv a0 a1 a2 a3 a4
  | cvt a0 a1 a2 a3 a4 a5 a6 => exact Enc.cvt a0 a1 a2 a3 a4 a5 a6
  | cvtp a0 a1 a2 a3 a4 a5 a6 => exact Enc.cvtp a0 a1 a2 a3 a4 a5 a6
  | unpk a0 a1 a2 a3 => exact Enc.unpk a0 a1 a2 a3
  | qblk a0 a1 a2 a3 => exact Enc.qblk a0 a1 a2 a3
  | mxq a0 a1 a2 a3 a4 => exact Enc.mxq a0 a1 a2 a3 a4
  | fred a0 a1 a2 a3 a4 => exact Enc.fred a0 a1 a2 a3 a4
  | cmulh2 a0 a1 a2 a3 a4 => exact Enc.cmulh2 a0 a1 a2 a3 a4
  | cfmah2 a0 a1 a2 a3 a4 a5 => exact Enc.cfmah2 a0 a1 a2 a3 a4 a5
  | ld a0 a1 a2 a3 a4 => exact Enc.ld a0 a1 a2 a3 a4
  | st a0 a1 a2 a3 a4 => exact Enc.st a0 a1 a2 a3 a4
  | ldu a0 a1 a2 a3 a4 => exact Enc.ldu a0 a1 a2 a3 a4
  | stu a0 a1 a2 a3 a4 => exact Enc.stu a0 a1 a2 a3 a4
  | touch a0 a1 a2 a3 => exact Enc.touch a0 a1 a2 a3
  | pref a0 a1 a2 a3 => exact Enc.pref a0 a1 a2 a3
  | flush a0 a1 a2 a3 => exact Enc.flush a0 a1 a2 a3
  | inv a0 a1 a2 a3 => exact Enc.inv a0 a1 a2 a3
  | vprobe a0 a1 a2 a3 => exact Enc.vprobe a0 a1 a2 a3
  | atom a0 a1 a2 a3 a4 a5 => exact Enc.atom a0 a1 a2 a3 a4 a5
  | cas a0 a1 a2 a3 a4 => exact Enc.cas a0 a1 a2 a3 a4
  | casar a0 a1 a2 a3 a4 a5 => exact Enc.casar a0 a1 a2 a3 a4 a5
  | red a0 a1 a2 a3 a4 => exact Enc.red a0 a1 a2 a3 a4
  | fatom a0 a1 a2 a3 a4 a5 => exact Enc.fatom a0 a1 a2 a3 a4 a5
  | fredm a0 a1 a2 a3 a4 => exact Enc.fredm a0 a1 a2 a3 a4
  | fence a0 a1 a2 => exact Enc.fence a0 a1 a2
  | fencex a0 a1 => exact Enc.fencex a0 a1
  | bara a0 a1 a2 => exact Enc.bara a0 a1 a2
  | barw a0 a1 a2 => exact Enc.barw a0 a1 a2
  | bars a0 a1 => exact Enc.bars a0 a1
  | cbara a0 a1 a2 => exact Enc.cbara a0 a1 a2
  | cbarw a0 a1 a2 => exact Enc.cbarw a0 a1 a2
  | cbars a0 a1 => exact Enc.cbars a0 a1
  | barx a0 a1 a2 => exact Enc.barx a0 a1 a2
  | watch a0 a1 a2 a3 a4 => exact Enc.watch a0 a1 a2 a3 a4
  | watcht a0 a1 a2 a3 a4 a5 => exact Enc.watcht a0 a1 a2 a3 a4 a5
  | watchh a0 a1 a2 a3 a4 a5 => exact Enc.watchh a0 a1 a2 a3 a4 a5
  | talloc a0 a1 a2 a3 => exact Enc.talloc a0 a1 a2 a3
  | tfree a0 a1 => exact Enc.tfree a0 a1
  | tstate a0 a1 a2 a3 => exact Enc.tstate a0 a1 a2 a3
  | twait a0 a1 a2 a3 => exact Enc.twait a0 a1 a2 a3
  | ttest a0 a1 a2 a3 a4 => exact Enc.ttest a0 a1 a2 a3 a4
  | texpect a0 a1 a2 => exact Enc.texpect a0 a1 a2
  | tdrain a0 a1 => exact Enc.tdrain a0 a1
  | xload a0 a1 a2 a3 a4 a5 a6 a7 => exact Enc.xload a0 a1 a2 a3 a4 a5 a6 a7
  | xstore a0 a1 a2 a3 => exact Enc.xstore a0 a1 a2 a3
  | xfence a0 a1 => exact Enc.xfence a0 a1
  | xstat a0 a1 => exact Enc.xstat a0 a1
  | xpref a0 a1 a2 => exact Enc.xpref a0 a1 a2
  | mma a0 a1 a2 a3 a4 a5 => exact Enc.mma a0 a1 a2 a3 a4 a5
  | mmas a0 a1 a2 a3 a4 a5 => exact Enc.mmas a0 a1 a2 a3 a4 a5
  | mmac a0 a1 a2 a3 a4 a5 => exact Enc.mmac a0 a1 a2 a3 a4 a5
  | mmax a0 a1 a2 a3 a4 => exact Enc.mmax a0 a1 a2 a3 a4
  | ldm a0 a1 a2 a3 a4 => exact Enc.ldm a0 a1 a2 a3 a4
  | stm a0 a1 a2 a3 a4 => exact Enc.stm a0 a1 a2 a3 a4
  | mxb a0 a1 a2 a3 a4 => exact Enc.mxb a0 a1 a2 a3 a4
  | mxbw a0 a1 a2 => exact Enc.mxbw a0 a1 a2
  | mxbt a0 a1 a2 => exact Enc.mxbt a0 a1 a2
  | accz a0 a1 a2 => exact Enc.accz a0 a1 a2
  | accld a0 a1 a2 a3 a4 => exact Enc.accld a0 a1 a2 a3 a4
  | accst a0 a1 a2 a3 a4 a5 a6 a7 => exact Enc.accst a0 a1 a2 a3 a4 a5 a6 a7
  | accrd a0 a1 a2 => exact Enc.accrd a0 a1 a2
  | slvcfg a0 a1 a2 a3 => exact Enc.slvcfg a0 a1 a2 a3
  | slvinit a0 a1 a2 a3 => exact Enc.slvinit a0 a1 a2 a3
  | slvstage a0 a1 a2 a3 => exact Enc.slvstage a0 a1 a2 a3
  | slvput a0 a1 a2 a3 => exact Enc.slvput a0 a1 a2 a3
  | slvstep a0 a1 a2 a3 => exact Enc.slvstep a0 a1 a2 a3
  | slvstat a0 a1 a2 a3 => exact Enc.slvstat a0 a1 a2 a3
  | launch a0 a1 a2 => exact Enc.launch a0 a1 a2
  | emit a0 a1 a2 a3 => exact Enc.emit a0 a1 a2 a3
  | cont a0 a1 a2 a3 => exact Enc.cont a0 a1 a2 a3
  | notify a0 a1 a2 a3 => exact Enc.notify a0 a1 a2 a3
  | nodeq a0 a1 a2 => exact Enc.nodeq a0 a1 a2
  | rdsys a0 a1 a2 a3 => exact Enc.rdsys a0 a1 a2 a3
  | wrsys a0 a1 a2 a3 => exact Enc.wrsys a0 a1 a2 a3
  | syscall a0 a1 a2 a3 => exact Enc.syscall a0 a1 a2 a3
  | tret a0 a1 a2 a3 a4 => exact Enc.tret a0 a1 a2 a3 a4
  | ctxload a0 a1 a2 a3 => exact Enc.ctxload a0 a1 a2 a3
  | ctxsaveEvict a0 a1 a2 a3 => exact Enc.ctxsaveEvict a0 a1 a2 a3
  | ctxsaveDestroy a0 a1 a2 => exact Enc.ctxsaveDestroy a0 a1 a2
  | preemptSpatial a0 a1 a2 => exact Enc.preemptSpatial a0 a1 a2
  | preemptHalt a0 a1 a2 => exact Enc.preemptHalt a0 a1 a2
  | preemptStop a0 a1 a2 => exact Enc.preemptStop a0 a1 a2
  | preemptResume a0 a1 a2 => exact Enc.preemptResume a0 a1 a2
  | preemptRdreg a0 a1 a2 => exact Enc.preemptRdreg a0 a1 a2
  | preemptWrreg a0 a1 a2 => exact Enc.preemptWrreg a0 a1 a2
  | dump a0 a1 a2 => exact Enc.dump a0 a1 a2
  | msgsend a0 a1 a2 a3 a4 a5 => exact Enc.msgsend a0 a1 a2 a3 a4 a5
  | msgrecv a0 a1 a2 a3 => exact Enc.msgrecv a0 a1 a2 a3
  | invapply a0 a1 a2 => exact Enc.invapply a0 a1 a2
  | tlbinv a0 a1 a2 => exact Enc.tlbinv a0 a1 a2
  | zeropg a0 a1 a2 a3 => exact Enc.zeropg a0 a1 a2 a3
  | splitrd a0 a1 a2 a3 => exact Enc.splitrd a0 a1 a2 a3
  | splitsnap a0 a1 a2 a3 => exact Enc.splitsnap a0 a1 a2 a3
  | mark a0 a1 a2 => exact Enc.mark a0 a1 a2
  | sampcfg a0 a1 a2 => exact Enc.sampcfg a0 a1 a2
  | clock a0 a1 => exact Enc.clock a0 a1
  | retcnt a0 a1 => exact Enc.retcnt a0 a1
  | illegalWordKill a0 => exact Enc.illegalWordKill a0
  | sleepEnd a0 => exact Enc.sleepEnd a0
  | stackSpill a0 => exact Enc.stackSpill a0
  | stackFill a0 => exact Enc.stackFill a0
  | regionRestart a0 => exact Enc.regionRestart a0
  | registerComplete a0 => exact Enc.registerComplete a0
  | sideLogReplay a0 a1 => exact Enc.sideLogReplay a0 a1
  | chunkReissue a0 => exact Enc.chunkReissue a0
  | atomicPerform a0 => exact Enc.atomicPerform a0
  | barrierWake a0 => exact Enc.barrierWake a0
  | watchEvaluate a0 a1 => exact Enc.watchEvaluate a0 a1
  | watchTimeout a0 a1 => exact Enc.watchTimeout a0 a1
  | copyJobStart a0 => exact Enc.copyJobStart a0
  | mcPartStart a0 a1 => exact Enc.mcPartStart a0 a1
  | chunkSettle a0 => exact Enc.chunkSettle a0
  | copyJobComplete a0 => exact Enc.copyJobComplete a0
  | mxbJobStart a0 => exact Enc.mxbJobStart a0
  | accJobStart a0 => exact Enc.accJobStart a0
  | kblockEnd a0 => exact Enc.kblockEnd a0
  | mxbJobComplete a0 => exact Enc.mxbJobComplete a0
  | slvOpCommit a0 => exact Enc.slvOpCommit a0
  | parseGrid a0 => exact Enc.parseGrid a0
  | parseOpen a0 => exact Enc.parseOpen a0
  | parseClose a0 => exact Enc.parseClose a0
  | nodeGather a0 a1 => exact Enc.nodeGather a0 a1
  | gatherTimerExpiry a0 a1 => exact Enc.gatherTimerExpiry a0 a1
  | nodeDrained a0 a1 => exact Enc.nodeDrained a0 a1
  | placeTeam a0 => exact Enc.placeTeam a0
  | successorForm a0 => exact Enc.successorForm a0
  | teamRetire a0 => exact Enc.teamRetire a0
  | gridComplete a0 => exact Enc.gridComplete a0
  | queueResetComplete a0 => exact Enc.queueResetComplete a0
  | dumpRun a0 => exact Enc.dumpRun a0
  | dumpDone a0 => exact Enc.dumpDone a0
  | trapEntry a0 => exact Enc.trapEntry a0
  | teamSave a0 => exact Enc.teamSave a0
  | sliceEnd a0 => exact Enc.sliceEnd a0
  | ownerChange a0 => exact Enc.ownerChange a0
  | groomerReport a0 => exact Enc.groomerReport a0
  | shootdownApply a0 => exact Enc.shootdownApply a0
  | lazyApply a0 => exact Enc.lazyApply a0
  | drainDone a0 => exact Enc.drainDone a0
  | traceDeliver a0 => exact Enc.traceDeliver a0
  | headroomDeliver a0 => exact Enc.headroomDeliver a0
  | writeAcknowledged a0 => exact Enc.writeAcknowledged a0
  | touchWindowClose a0 => exact Enc.touchWindowClose a0
  | pageWalkComplete a0 a1 a2 => exact Enc.pageWalkComplete a0 a1 a2
  | accessCountNotify a0 => exact Enc.accessCountNotify a0
  | sample a0 a1 => exact Enc.sample a0 a1
  | overflowFold a0 a1 => exact Enc.overflowFold a0 a1
  | correctedError a0 => exact Enc.correctedError a0
  | uncorrectableWriteback a0 => exact Enc.uncorrectableWriteback a0
  | patrolScrub a0 => exact Enc.patrolScrub a0
  | qtailWrite a0 a1 => exact Enc.qtailWrite a0 a1
  | portEnable a0 => exact Enc.portEnable a0
  | portDisable a0 => exact Enc.portDisable a0
  | qreset a0 => exact Enc.qreset a0
  | dieLoss a0 => exact Enc.dieLoss a0
  | fmResetRequest a0 => exact Enc.fmResetRequest a0
  | linkWidthChange a0 a1 a2 => exact Enc.linkWidthChange a0 a1 a2
  | linkClockChange a0 a1 => exact Enc.linkClockChange a0 a1
  | hostMemAccess a0 a1 a2 => exact Enc.hostMemAccess a0 a1 a2
  | hostSnoop a0 a1 => exact Enc.hostSnoop a0 a1
  | yosonTimeout a0 => exact Enc.yosonTimeout a0
  | yosonPortFail a0 => exact Enc.yosonPortFail a0
  | frameReceive a0 a1 a2 => exact Enc.frameReceive a0 a1 a2
  | nvmeCompletion a0 a1 a2 a3 => exact Enc.nvmeCompletion a0 a1 a2 a3
  | powerUp => exact Enc.powerUp
  | loadfe => exact Enc.loadfe
  | loaddie a0 => exact Enc.loaddie a0
  | quote => exact Enc.quote
  | clockPlan a0 => exact Enc.clockPlan a0
  | powerMeasure a0 a1 => exact Enc.powerMeasure a0 a1
  | supplyShutdown => exact Enc.supplyShutdown
  | packageLoss => exact Enc.packageLoss
  | ceClear a0 => exact Enc.ceClear a0
  | unmatchedClear a0 => exact Enc.unmatchedClear a0
  | badfcsClear a0 => exact Enc.badfcsClear a0
  | ringEnable a0 a1 a2 => exact Enc.ringEnable a0 a1 a2
  | csetWrite a0 a1 a2 => exact Enc.csetWrite a0 a1 a2
  | registerWrite a0 a1 a2 => exact Enc.registerWrite a0 a1 a2
  | ethernetLinkChange a0 a1 => exact Enc.ethernetLinkChange a0 a1
  | yosonlinkRequest a0 => exact Enc.yosonlinkRequest a0

/-- Bytes written in little-endian order read back as the number they hold (R2). -/
theorem ofBytes_toBytes (n x : Nat) : ofBytes (toBytes n x) = x % 2 ^ (8 * n) := by
  induction n generalizing x with
  | zero => simp [toBytes, ofBytes, Nat.mod_one]
  | succ n ih =>
    have split256 : x % 2 ^ (8 * (n + 1)) = x % 256 + 256 * (x / 256 % 2 ^ (8 * n)) := by
      rw [Nat.mul_succ, Nat.pow_add, Nat.mul_comm, Nat.mod_mul]
    rw [toBytes, ofBytes, ih, BitVec.toNat_ofNat, split256]

/-- The map assigns no opcode in these blocks of 16 (R46). -/
theorem candFull_unassigned {raw : Raw} (h : raw.op / 16 ∈ [4, 5, 6, 7, 10, 11, 15, 17, 18, 20, 23, 25, 30]) : candFull raw = none := by
  simp only [List.mem_cons, List.not_mem_nil, or_false] at h
  rcases h with h | h | h | h | h | h | h | h | h | h | h | h | h <;> simp only [candFull, h]

/-- What passes the check of a decoded word is well-formed. -/
theorem checked_wf {w : Nat} {i j : Instr} (h : checked w i = .ok j) : j.wf = true := by
  unfold checked at h
  split at h
  · cases h
  · split at h
    · cases h; assumption
    · cases h

/-- The decoder answers only well-formed instructions. -/
theorem decodeWord_wf {w : Nat} {i : Instr} (h : decodeWord w = .ok i) : i.wf = true := by
  unfold decodeWord at h
  split at h
  · split at h
    · exact checked_wf h
    · cases h
  · split at h
    · exact checked_wf h
    · cases h
  · split at h
    · cases h
    · split at h
      · exact checked_wf h
      · cases h
  · cases h

end Sys2Proof.Laws

open Sys2Proof Sys2Proof.Machine Sys2Proof.Laws

/-- Settles O51: the family Enc, one lemma a constructor, says that the decoder inverts the encoder. -/
theorem roundTrip : Obligations.RoundTrip := by
  refine ⟨fun i hw => ?_, fun i j hi hj e => ?_, fun w i => decodeWord_wf, fun w hw => ?_, fun w hf hb => ?_⟩
  · obtain ⟨lt, dec⟩ := enc i hw
    refine ⟨lt, dec, ?_⟩
    rw [decodeBytes, encodeBytes, ofBytes_toBytes, Nat.mod_eq_of_lt lt, dec]
  · have di := (enc i hi).2
    rw [e, (enc j hj).2] at di
    exact (Except.ok.inj di).symm
  · rw [decodeWord, hw]
    rfl
  · exact decodeWord_full_none hf (candFull_unassigned hb)

/-- Settles O60: what comes next begins in a state that keeps the invariant, and every instruction and event keeps it. -/
theorem stepKeepsInvariant : Obligations.StepKeepsInvariant := by
  intro s t h e
  unfold step at e
  split at e
  · have start := State.nextAct_inv h
    split at e
    · rename_i ha; rw [ha] at start; exact exec_inv _ start e
    · rename_i ha; rw [ha] at start; cases e; exact start
  · cases e
end

section
/-! PROOFS of the integer words (R55–R67): the values of Machine/Integer.lean are those of the rules. -/

namespace Sys2Proof.Machine

/-- The model's signed reading of `n` bits is that of a bit vector (R8). -/
theorem sextNat_eq (x n : Nat) : sextNat x n = (BitVec.ofNat n x).toInt := by
  unfold sextNat
  rw [BitVec.toInt_eq_toNat_cond, BitVec.toNat_ofNat]
  rcases n with _ | n
  · simp [Nat.mod_one]
  · have double : 2 ^ (n + 1) = 2 ^ n * 2 := pow_succ 2 n
    simp only [Nat.add_one_ne_zero, if_false, Nat.add_sub_cancel]
    by_cases low : x % 2 ^ (n + 1) < 2 ^ n
    · rw [if_pos low, if_pos (by omega)]
    · rw [if_neg low, if_neg (by omega)]
      push_cast
      rfl

theorem sextNat_toNat {n : Nat} (x : BitVec n) : sextNat x.toNat n = x.toInt := by rw [sextNat_eq, BitVec.ofNat_toNat, BitVec.setWidth_eq]
theorem sval_eq (x : Word) : sval x = x.toInt := sextNat_toNat x
theorem sval64_eq (x : DWord) : sval64 x = x.toInt := sextNat_toNat x
theorem extv_eq (un : Bool) (x : Word) : extv un x = if un then (x.toNat : Int) else x.toInt := by rw [extv, sval_eq]

/-- The low 32 bits of a word's value, read either way, are the word. -/
theorem ofInt_extv (un : Bool) (x : Word) : BitVec.ofInt 32 (extv un x) = x := by
  rw [extv_eq]
  split <;> simp

theorem clampInt_eq {lo hi : Int} (h : lo ≤ hi) (i : Int) : clampInt lo hi i = max lo (min hi i) := by
  unfold clampInt
  split
  · omega
  · split <;> omega

theorem iaddVal_sat (a b : Word) : iaddVal .sat a b = BitVec.ofInt 32 (max (-2147483648) (min 2147483647 (a.toInt + b.toInt))) := by
  rw [iaddVal, clampInt_eq (by decide), sval_eq, sval_eq]; rfl
theorem isubVal_sat (a b : Word) : isubVal .sat a b = BitVec.ofInt 32 (max (-2147483648) (min 2147483647 (a.toInt - b.toInt))) := by
  rw [isubVal, clampInt_eq (by decide), sval_eq, sval_eq]; rfl

theorem narrow_natCast (n : Nat) : narrow n = BitVec.ofNat 32 n := BitVec.ofInt_natCast 32 n

theorem iaddVal_satu (a b : Word) : iaddVal .satu a b = BitVec.ofNat 32 (min 4294967295 (a.toNat + b.toNat)) := by
  rw [iaddVal, clampInt_eq (by decide), ← narrow_natCast]
  congr 1
  omega
theorem isubVal_satu (a b : Word) : isubVal .satu a b = BitVec.ofNat 32 (a.toNat - b.toNat) := by
  have := a.isLt
  rw [isubVal, clampInt_eq (by decide), ← narrow_natCast]
  congr 1
  omega

/-- The smaller and the larger of two words in either reading (R57). -/
theorem min_extv (un : Bool) (a b : Word) : (if extv un a ≤ extv un b then a else b) = BitVec.ofInt 32 (min (extv un a) (extv un b)) := by
  split
  · rw [min_eq_left ‹_›, ofInt_extv]
  · rw [min_eq_right (by omega), ofInt_extv]
theorem max_extv (un : Bool) (a b : Word) : (if extv un a ≥ extv un b then a else b) = BitVec.ofInt 32 (max (extv un a) (extv un b)) := by
  split
  · rw [max_eq_left ‹_›, ofInt_extv]
  · rw [max_eq_right (by omega), ofInt_extv]

theorem imulh_eq (a b : Word) : narrow (sval a * sval b / 2 ^ 32) = BitVec.ofInt 32 (a.toInt * b.toInt / 4294967296) := by
  rw [sval_eq, sval_eq]
  norm_num [narrow]

theorem iabs_wrap (x : Word) : (if false && decide (x = 0x80000000) then 0x7FFFFFFF else narrow ((sval x).natAbs : Int)) = BitVec.ofInt 32 |x.toInt| := by
  rw [sval_eq, Int.natCast_natAbs]
  rfl

theorem isad_eq (un : Bool) (a b c : Word) :
    narrow ((extv un a - extv un b).natAbs : Int) + c = BitVec.ofInt 32 |extv un a - extv un b| + c := by
  rw [Int.natCast_natAbs]
  rfl

/-- IABS.SAT differs from IABS at the most negative number only (R57). -/
theorem iabs_sat (x : Word) : (if true && decide (x = 0x80000000) then 0x7FFFFFFF else narrow ((sval x).natAbs : Int)) = BitVec.ofInt 32 (min 2147483647 |x.toInt|) := by
  rw [sval_eq, Int.natCast_natAbs]
  simp only [Bool.true_and, decide_eq_true_eq]
  split
  · subst x; decide
  · rename_i h
    have low : -2147483648 ≤ x.toInt := x.le_toInt
    have high : x.toInt < 2147483648 := x.toInt_lt
    have ne : x.toInt ≠ -2147483648 := fun e => h (BitVec.eq_of_toInt_eq e)
    rw [min_eq_right (abs_le.2 ⟨by omega, by omega⟩)]
    rfl

theorem Result1.of_val {i : Instr} {d : Opnd} {v v' : Group → Nat → Word} (hv : ∀ g l, v' g l = v g l)
    (he : ∀ s, exec i s = runWord i s fun w => w.put1 d (v' w.g)) : Result1 i d v := by
  obtain rfl : v' = v := funext fun g => funext fun l => hv g l
  exact result1_of_put1 he

theorem Result2.of_val {i : Instr} {d : Opnd} {v v' : Group → Nat → DWord} (hv : ∀ g l, v' g l = v g l)
    (he : ∀ s, exec i s = runWord i s fun w => w.put2 d (v' w.g)) : Result2 i d v := by
  obtain rfl : v' = v := funext fun g => funext fun l => hv g l
  exact writes_of_fix he (fun _ _ => rfl)

theorem ResultP.of_val {i : Instr} {d : PCode} {v v' : Group → Nat → Bool} (hv : ∀ g l, v' g l = v g l)
    (he : ∀ s, exec i s = runWord i s fun w => w.putP d (v' w.g)) : ResultP i d v := by
  obtain rfl : v' = v := funext fun g => funext fun l => hv g l
  exact writes_of_fix he (fun _ _ => rfl)

/-- The results of a word as the rule gives them, where the model computes them from the same operands. -/
theorem Result1.congr {i : Instr} {d : Opnd} {v v' : Group → Nat → Word} (hr : Result1 i d v') (hv : ∀ g l, v' g l = v g l) : Result1 i d v := by
  obtain rfl : v' = v := funext fun g => funext fun l => hv g l
  exact hr

end Sys2Proof.Machine

open Sys2Proof Sys2Proof.Machine Sys2Proof.Laws

/-- Settles O1: each word's result is computed by a function of its operands, and that function is the rule's. -/
theorem integerResults : Obligations.IntegerResults := by
  intro h d a b c un ext clamp
  have ext_eq : ∀ x, ext x = extv un x := fun x => (extv_eq un x).symm
  simp only [ext_eq]
  exact ⟨Result1.of_val (fun _ _ => rfl) (fun _ => rfl),
    Result1.of_val (fun _ _ => rfl) (fun _ => rfl),
    Result1.of_val (fun _ _ => iaddVal_sat _ _) (fun _ => rfl),
    Result1.of_val (fun _ _ => iaddVal_satu _ _) (fun _ => rfl),
    Result2.of_val (fun _ _ => rfl) (fun _ => rfl),
    Result1.of_val (fun _ _ => rfl) (fun _ => rfl),
    Result1.of_val (fun _ _ => isubVal_sat _ _) (fun _ => rfl),
    Result1.of_val (fun _ _ => isubVal_satu _ _) (fun _ => rfl),
    Result2.of_val (fun _ _ => rfl) (fun _ => rfl),
    Result1.of_val (fun _ _ => rfl) (fun _ => rfl),
    Result1.of_val (fun g l => imulh_eq (g.rd l a) (g.rd l b)) (fun _ => rfl),
    Result1.of_val (fun _ _ => rfl) (fun _ => rfl),
    Result1.of_val (fun _ _ => rfl) (fun _ => rfl),
    Result2.of_val (fun _ _ => rfl) (fun _ => rfl),
    Result1.of_val (fun g l => min_extv un (g.rd l a) (g.rd l b)) (fun _ => rfl),
    Result1.of_val (fun g l => max_extv un (g.rd l a) (g.rd l b)) (fun _ => rfl),
    Result1.of_val (fun g l => iabs_wrap (g.rd l a)) (fun _ => rfl),
    Result1.of_val (fun g l => iabs_sat (g.rd l a)) (fun _ => rfl),
    Result1.of_val (fun g l => isad_eq un (g.rd l a) (g.rd l b) (g.rd l c)) (fun _ => rfl),
    result1_and h d a b, result1_or h d a b, result1_xor h d a b, result1_andn h d a b⟩
end

section
/-! PROOFS of the shift, count and bit-field words (R59–R62). -/

namespace Sys2Proof.Machine

theorem shlVal_eq {w : Nat} (x : BitVec w) (n : Nat) : BitVec.ofNat w (shlVal w x.toNat n) = x <<< n := by
  unfold shlVal
  split
  · rw [BitVec.shiftLeft_eq_zero ‹_›]
  · exact BitVec.eq_of_toNat_eq (by simp)

theorem shrVal_eq {w : Nat} (x : BitVec w) (n : Nat) : BitVec.ofNat w (shrVal w x.toNat n) = x >>> n := by
  unfold shrVal
  split
  · rw [BitVec.ushiftRight_eq_zero ‹_›]
  · rw [Nat.mod_eq_of_lt x.isLt]
    exact BitVec.eq_of_toNat_eq (by simp [Nat.mod_eq_of_lt (lt_of_le_of_lt (Nat.shiftRight_le x.toNat n) x.isLt)])

/-- Past the power that bounds a number, every power divides it alike, into 0 or -1. -/
theorem ediv_two_pow_min {i : Int} {w : Nat} (low : -2 ^ w ≤ i) (high : i < 2 ^ w) (n : Nat) : i / 2 ^ min n w = i / 2 ^ n := by
  rcases le_total n w with h | h
  · rw [min_eq_left h]
  · have grow : (2 : Int) ^ w ≤ 2 ^ n := pow_le_pow_right₀ (by decide) h
    rw [min_eq_right h]
    by_cases hi : 0 ≤ i
    · rw [Int.ediv_eq_zero_of_lt hi high, Int.ediv_eq_zero_of_lt hi (by omega)]
    · rw [Int.ediv_eq_neg_one_of_neg_of_le (by omega) (by omega), Int.ediv_eq_neg_one_of_neg_of_le (by omega) (by omega)]

theorem toInt_bounds {w : Nat} (x : BitVec w) : -2 ^ w ≤ x.toInt ∧ x.toInt < 2 ^ w := by
  have grow : (2 : Int) ^ (w - 1) ≤ 2 ^ w := pow_le_pow_right₀ (by decide) (by omega)
  have low := x.le_toInt
  have high := x.toInt_lt
  omega

/-- An arithmetic shift past the width gives what a shift by the width gives (R59). -/
theorem sarVal_eq {w : Nat} (x : BitVec w) (n : Nat) : BitVec.ofInt w (sarVal w x.toNat n) = x.sshiftRight n := by
  obtain ⟨low, high⟩ := toInt_bounds x
  rw [sarVal, sextNat_toNat, ediv_two_pow_min low high, BitVec.sshiftRight, Int.shiftRight_eq_div_pow]
  norm_cast

theorem fshlVal_wrap (a b c : Word) : fshlVal false a b c = BitVec.ofNat 32 ((a.toNat * 2 ^ 32 + b.toNat) * 2 ^ (c.toNat % 32) / 2 ^ 32) := by
  rw [fshlVal, Nat.shiftLeft_eq, Nat.shiftRight_eq_div_pow]; rfl
theorem fshlVal_clamp (a b c : Word) : fshlVal true a b c = BitVec.ofNat 32 ((a.toNat * 2 ^ 32 + b.toNat) * 2 ^ (min c.toNat 32) / 2 ^ 32) := by
  rw [fshlVal, Nat.shiftLeft_eq, Nat.shiftRight_eq_div_pow]; rfl
theorem fshrVal_wrap (a b c : Word) : fshrVal false a b c = BitVec.ofNat 32 ((a.toNat * 2 ^ 32 + b.toNat) / 2 ^ (c.toNat % 32)) := by
  rw [fshrVal, Nat.shiftRight_eq_div_pow]; rfl
theorem fshrVal_clamp (a b c : Word) : fshrVal true a b c = BitVec.ofNat 32 ((a.toNat * 2 ^ 32 + b.toNat) / 2 ^ (min c.toNat 32)) := by
  rw [fshrVal, Nat.shiftRight_eq_div_pow]; rfl

/-- The zeros above the highest one bit, counted by looking for it from above (R61). -/
theorem clzNat_eq_findIdx (n x : Nat) : clzNat n x = (List.range n).reverse.findIdx (fun j => x.testBit j) := by
  induction n with
  | zero => rfl
  | succ n ih =>
    rw [clzNat, ih, List.range_succ, List.reverse_append, List.reverse_singleton, List.singleton_append, List.findIdx_cons]
    cases x.testBit n <;> simp [Nat.add_comm]

/-- The zeros below the lowest one bit, counted by looking for it from below (R61). -/
theorem ctzNat_eq_findIdx (n x : Nat) : ctzNat n x = (List.range n).findIdx (fun j => x.testBit j) := by
  induction n generalizing x with
  | zero => rfl
  | succ n ih =>
    rw [ctzNat, ih, List.range_succ_eq_map, List.findIdx_cons, List.findIdx_map]
    cases x.testBit 0 <;> simp [Nat.add_comm, Nat.testBit_succ, Function.comp_def]

theorem brev_eq_reverse (x : Word) : BitVec.ofNat 32 (brevNat 32 x.toNat) = x.reverse := by
  apply BitVec.eq_of_getLsbD_eq
  intro j hj
  rw [getLsbD_brev x hj, BitVec.getLsbD_reverse, BitVec.getMsbD_eq_getLsbD]
  simp [hj]

theorem toNat_emod_two_pow_lt (i : Int) (len : Nat) : (i % (2 : Int) ^ len).toNat < 2 ^ len := by
  have pos : (0 : Int) < 2 ^ len := by positivity
  zify
  rw [Int.toNat_of_nonneg (Int.emod_nonneg _ (by omega))]
  exact Int.emod_lt_of_pos _ pos

theorem ofNat_toNat_emod (i : Int) (len : Nat) : BitVec.ofNat len (i % (2 : Int) ^ len).toNat = BitVec.ofInt len i := by
  apply BitVec.eq_of_toNat_eq
  rw [BitVec.toNat_ofNat, Nat.mod_eq_of_lt (toNat_emod_two_pow_lt i len), BitVec.toNat_ofInt]
  norm_cast

/-- The low bits of an integer, from more of its low bits. -/
theorem setWidth_ofInt_of_le {len w : Nat} (h : len ≤ w) (i : Int) : (BitVec.ofInt w i).setWidth len = BitVec.ofInt len i := by
  have pos : (0 : Int) < 2 ^ w := by positivity
  rw [← ofNat_toNat_emod i w, BitVec.setWidth_ofNat_of_le h]
  apply BitVec.eq_of_toNat_eq
  rw [BitVec.toNat_ofNat, BitVec.toNat_ofInt]
  zify
  rw [Int.toNat_of_nonneg (Int.emod_nonneg _ (by omega)), Int.toNat_of_nonneg (Int.emod_nonneg _ (by positivity)), Int.emod_emod_of_dvd _ (pow_dvd_pow 2 h)]

theorem field_sshiftRight (x : Word) (pos : Nat) {len : Nat} (h : len ≤ 32) :
    BitVec.ofNat len ((x.toInt / (2 : Int) ^ pos) % (2 : Int) ^ len).toNat = (x.sshiftRight pos).setWidth len := by
  rw [ofNat_toNat_emod, BitVec.sshiftRight, setWidth_ofInt_of_le h, Int.shiftRight_eq_div_pow]
  norm_cast

theorem field_ushiftRight (x : Word) (pos len : Nat) :
    BitVec.ofNat len (((x.toNat : Int) / (2 : Int) ^ pos) % (2 : Int) ^ len).toNat = (x >>> pos).setWidth len := by
  rw [ofNat_toNat_emod]
  apply BitVec.eq_of_toNat_eq
  rw [BitVec.toNat_setWidth, BitVec.toNat_ushiftRight, Nat.shiftRight_eq_div_pow, BitVec.toNat_ofInt]
  norm_cast

theorem bfeVal_eq (sx : Bool) (a b c : Word) : bfeVal sx a b c =
    if min (c.toNat % 256) 32 = 0 then 0
    else if sx then ((a.sshiftRight (b.toNat % 256)).setWidth (min (c.toNat % 256) 32)).signExtend 32
    else ((a >>> (b.toNat % 256)).setWidth (min (c.toNat % 256) 32)).setWidth 32 := by
  have le : min (c.toNat % 256) 32 ≤ 32 := min_le_right _ _
  unfold bfeVal
  simp only
  by_cases zero : min (c.toNat % 256) 32 = 0
  · rw [if_pos zero, if_pos zero]
  rw [if_neg zero, if_neg zero]
  cases sx
  · simp only [Bool.false_eq_true, if_false]
    rw [← field_ushiftRight a, BitVec.setWidth_ofNat_of_le_of_lt le (toNat_emod_two_pow_lt _ _)]
  · simp only [if_true, sval_eq]
    rw [sextNat_eq, field_sshiftRight a _ le]
    rfl

theorem bfiVal_eq (d a b c : Word) : bfiVal d a b c =
    (d &&& ~~~BitVec.ofNat 32 ((2 ^ min (c.toNat % 256) 32 - 1) * 2 ^ (b.toNat % 256))) |||
      ((a <<< (b.toNat % 256)) &&& BitVec.ofNat 32 ((2 ^ min (c.toNat % 256) 32 - 1) * 2 ^ (b.toNat % 256))) := by
  have shl : BitVec.ofNat 32 (a.toNat <<< (b.toNat % 256)) = a <<< (b.toNat % 256) := BitVec.eq_of_toNat_eq (by simp)
  unfold bfiVal
  simp only [shl]
  rw [Nat.shiftLeft_eq]

theorem sextVal_eq (a b : Word) : sextVal a b = (a.setWidth (min (b.toNat % 256) 32)).signExtend 32 := by
  unfold sextVal
  simp only
  split
  · have : min (b.toNat % 256) 32 = 0 := by omega
    rw [this, BitVec.signExtend, BitVec.toInt_zero_length]
    rfl
  split
  · rw [min_eq_right (by omega)]
    simp
  · rw [min_eq_left (by omega), sextNat_eq, BitVec.ofNat_toNat]
    rfl

theorem zextVal_eq (a b : Word) : zextVal a b = (a.setWidth (min (b.toNat % 256) 32)).setWidth 32 := by
  unfold zextVal
  simp only
  split
  · have : min (b.toNat % 256) 32 = 0 := by omega
    rw [this]
    exact BitVec.eq_of_toNat_eq (by simp [Nat.mod_one])
  split
  · rw [min_eq_right (by omega)]
    simp
  · rw [min_eq_left (by omega)]
    exact BitVec.eq_of_toNat_eq (by simp)

end Sys2Proof.Machine

open Sys2Proof Sys2Proof.Machine Sys2Proof.Laws

/-- Settles O2: each word's result is computed by a function of its operands, and that function is the rule's for every count. -/
theorem shiftAndFieldResults : Obligations.ShiftAndFieldResults := by
  intro h d a b c x n pos len
  exact ⟨Result1.of_val (fun g l => shlVal_eq (g.rd l a) _) (fun _ => rfl),
    Result1.of_val (fun g l => shrVal_eq (g.rd l a) _) (fun _ => rfl),
    Result1.of_val (fun g l => sarVal_eq (g.rd l a) _) (fun _ => rfl),
    Result2.of_val (fun g l => shlVal_eq (g.rd64 l a) _) (fun _ => rfl),
    Result2.of_val (fun g l => shrVal_eq (g.rd64 l a) _) (fun _ => rfl),
    Result2.of_val (fun g l => sarVal_eq (g.rd64 l a) _) (fun _ => rfl),
    Result1.of_val (fun _ _ => fshlVal_wrap _ _ _) (fun _ => rfl),
    Result1.of_val (fun _ _ => fshlVal_clamp _ _ _) (fun _ => rfl),
    Result1.of_val (fun _ _ => fshrVal_wrap _ _ _) (fun _ => rfl),
    Result1.of_val (fun _ _ => fshrVal_clamp _ _ _) (fun _ => rfl),
    result1_popc h d a,
    (result1_clz h d a).congr (fun _ _ => congrArg _ (clzNat_eq_findIdx 32 _)),
    (result1_ctz h d a).congr (fun _ _ => congrArg _ (ctzNat_eq_findIdx 32 _)),
    (result1_brev h d a).congr (fun _ _ => brev_eq_reverse _),
    Result1.of_val (fun _ _ => bfeVal_eq x _ _ _) (fun _ => rfl),
    Result1.of_val (fun _ _ => bfiVal_eq _ _ _ _) (fun _ => rfl),
    Result1.of_val (fun _ _ => sextVal_eq _ _) (fun _ => rfl),
    Result1.of_val (fun _ _ => zextVal_eq _ _) (fun _ => rfl)⟩
end

section
/-! PROOFS of the comparison, selection, address and immediate words (R63–R67). -/

namespace Sys2Proof.Machine

/-- A signed or unsigned index as 64 bits (R66). -/
theorem ofInt_index {w : Nat} (sx : Bool) (b : Word) (sh : Nat) :
    BitVec.ofInt w ((if sx then sval b else b.toNat) * (2 : Int) ^ sh) =
      (if sx then b.signExtend w else b.setWidth w) * BitVec.ofNat w (2 ^ sh) := by
  have power : BitVec.ofInt w ((2 : Int) ^ sh) = BitVec.ofNat w (2 ^ sh) := by rw [← BitVec.ofInt_natCast]; norm_cast
  rw [BitVec.ofInt_mul, power]
  congr 1
  cases sx
  · exact (BitVec.ofInt_natCast w b.toNat).trans (BitVec.ofNat_toNat w b)
  · rw [sval_eq]; rfl

/-- A moved pointer is its tag and the low 56 bits of the sum (R125). -/
theorem ptrOff_eq (p : DWord) (k : Int) : ptrOff p k = p.extractLsb' 56 8 ++ (p + BitVec.ofInt 64 k).extractLsb' 0 56 := by
  have low : (p + BitVec.ofInt 64 k).extractLsb' 0 56 = BitVec.ofInt 56 ((vaOf p : Int) + k) := by
    have whole : p = BitVec.ofInt 64 p.toNat := by rw [BitVec.ofInt_natCast, BitVec.ofNat_toNat, BitVec.setWidth_eq]
    have wrap : BitVec.ofInt 56 (p.toNat : Int) = BitVec.ofInt 56 (vaOf p : Int) := by
      rw [BitVec.ofInt_natCast, BitVec.ofInt_natCast]
      exact BitVec.eq_of_toNat_eq (by rw [BitVec.toNat_ofNat, BitVec.toNat_ofNat, vaOf, Nat.mod_mod])
    have low_eq : ∀ x : DWord, x.extractLsb' 0 56 = x.setWidth 56 := fun x => (BitVec.setWidth_eq_extractLsb' (by decide)).symm
    rw [low_eq]
    conv_lhs => rw [whole]
    rw [← BitVec.ofInt_add, setWidth_ofInt_of_le (by decide), BitVec.ofInt_add, wrap, ← BitVec.ofInt_add]
  rw [low, ptrOff]
  generalize BitVec.ofInt 56 ((vaOf p : Int) + k) = y
  apply BitVec.eq_of_toNat_eq
  have tag : (p.extractLsb' 56 8).toNat = tagOf p := by
    rw [BitVec.extractLsb'_toNat, Nat.shiftRight_eq_div_pow, tagOf]
    exact Nat.mod_eq_of_lt (by omega)
  have bound : tagOf p < 2 ^ 8 := by unfold tagOf; omega
  have inside : tagOf p * 2 ^ 56 + y.toNat < 2 ^ 64 := by omega
  rw [BitVec.toNat_append, tag, ← Nat.shiftLeft_add_eq_or_of_lt y.isLt, Nat.shiftLeft_eq, BitVec.toNat_ofNat, Nat.mod_eq_of_lt inside]

theorem leaVal_full (sx : Bool) (sh : Nat) (a : DWord) (b : Word) :
    leaVal true sx sh a b = a + (if sx then b.signExtend 64 else b.setWidth 64) * BitVec.ofNat 64 (2 ^ sh) := by
  rw [← ofInt_index]
  rfl

theorem leaVal_tag (sx : Bool) (sh : Nat) (a : DWord) (b : Word) :
    leaVal false sx sh a b = a.extractLsb' 56 8 ++
      (a + (if sx then b.signExtend 64 else b.setWidth 64) * BitVec.ofNat 64 (2 ^ sh)).extractLsb' 0 56 := by
  rw [← ofInt_index, ← ptrOff_eq]
  rfl

theorem lea32Val_eq (sx : Bool) (sh : Nat) (a b : Word) : lea32Val sx sh a b = a + b * BitVec.ofNat 32 (2 ^ sh) := by
  rw [lea32Val, ofInt_index, BitVec.signExtend_eq, BitVec.setWidth_eq, ite_self]

theorem plopVal_eq (lut : BitVec 4) (a b : Bool) : plopVal lut a b = lut.getLsbD (2 * a.toNat + b.toNat) := by
  cases a <;> cases b <;> rfl

/-- A predicate whose value depends on whether the word is uniform. -/
theorem resultP_of_word {i : Instr} {d : PCode} {v : Group → Nat → Bool} (v' : Info → Group → Nat → Bool)
    (he : ∀ s, exec i s = runWord i s fun w => w.putP d (v' w.f w.g)) (hv : ∀ g l, v' (info i) g l = v g l) : ResultP i d v := by
  obtain rfl : v' (info i) = v := funext fun g => funext fun l => hv g l
  exact writes_of_fix he (fun w hf => by rw [W.putP, hf])

theorem result1_of_word {i : Instr} {d : Opnd} {v : Group → Nat → Word} (v' : Info → Group → Nat → Word)
    (he : ∀ s, exec i s = runWord i s fun w => w.put1 d (v' w.f w.g)) (hv : ∀ g l, v' (info i) g l = v g l) : Result1 i d v := by
  obtain rfl : v' (info i) = v := funext fun g => funext fun l => hv g l
  exact writes_of_fix he (fun w hf => by rw [W.put1, hf])

end Sys2Proof.Machine

open Sys2Proof Sys2Proof.Machine Sys2Proof.Laws

/-- Settles O3: each word's result is computed by a function of its operands, and that function is the rule's. -/
theorem comparisonAndAddressResults : Obligations.ComparisonAndAddressResults := by
  intro h d a b p q r k cond neg sx n sh lut i24 i32 holds comb pc
  have holds_eq : ∀ x y u v, icondHolds cond x y u v = holds cond x y u v := by
    cases cond <;> exact fun _ _ _ _ => rfl
  have comb_eq : ∀ c x, combine k c x = comb c x := by
    intro c x
    have neg_eq : (if k.cn then !x else x) = (x != k.cn) := by cases k.cn <;> cases x <;> rfl
    unfold combine
    rw [neg_eq] <;> rfl
  exact ⟨resultP_of_word (fun f g l => combine k (icmpVal cond (g.rd l a) (g.rd l b)) (g.combPred (uniOf f) k l)) (fun _ => rfl)
      (fun g l => by rw [comb_eq, icmpVal, sval_eq, sval_eq, holds_eq]; rfl),
    resultP_of_word (fun f g l => combine k (icmp64Val cond (g.rd64 l a) (g.rd64 l b)) (g.combPred (uniOf f) k l)) (fun _ => rfl)
      (fun g l => by rw [comb_eq, icmp64Val, sval64_eq, sval64_eq, holds_eq]; rfl),
    result1_of_word (fun f g l => if (g.pred (clsPred (uniOf f) n) l) != neg then g.rd l a else g.rd l b) (fun _ => rfl)
      (fun g l => by simp only [bne_iff_ne]; rfl),
    ResultP.of_val (fun g l => plopVal_eq lut (g.pred q l) (g.pred r l)) (fun _ => rfl),
    Result2.of_val (fun g l => leaVal_full sx sh.val (g.rd64 l a) (g.rd l b)) (fun _ => rfl),
    Result2.of_val (fun g l => leaVal_tag sx sh.val (g.rd64 l a) (g.rd l b)) (fun _ => rfl),
    Result1.of_val (fun g l => lea32Val_eq sx sh.val (g.rd l a) (g.rd l b)) (fun _ => rfl),
    Result1.of_val (fun _ _ => rfl) (fun _ => rfl),
    Result1.of_val (fun _ _ => rfl) (fun _ => rfl),
    writes_of_fix (fun _ => rfl) (fun _ _ => rfl),
    writes_of_fix (fun _ => rfl) (fun _ _ => rfl),
    Result1.of_val (fun _ _ => rfl) (fun _ => rfl),
    Result1.of_val (fun _ _ => rfl) (fun _ => rfl)⟩
end

section
/-! PROOFS of the cross-lane words (R68–R75). -/

namespace Sys2Proof.Machine

theorem voteVal_all (l : List Nat) (f : Nat → Bool) : voteVal .all (l.map f) = l.all f := List.all_map
theorem voteVal_any (l : List Nat) (f : Nat → Bool) : voteVal .any (l.map f) = l.any f := List.any_map
theorem voteVal_uni (l : List Nat) (f : Nat → Bool) : voteVal .uni (l.map f) = (l.all f || !l.any f) := by
  simp [voteVal, List.all_map, List.not_any_eq_all_not, Function.comp_def]

/-- No result is no window. -/
@[simp] theorem W.fix_nil (w : W) : w.fix [] = w := rfl

end Sys2Proof.Machine

open Sys2Proof Sys2Proof.Machine Sys2Proof.Laws

/-- Settles O4: each word writes the cells the rule names; the modifiers' cases are those of the words' own functions. -/
theorem crossLaneResults : Obligations.CrossLaneResults := by
  intro h d a b p c m sm k un exc op part bit f src comb
  have comb_eq : ∀ l, redList op l = comb l := by
    have sval_le : ∀ x y : Word, (if sval x ≤ sval y then x else y) = if x.toInt ≤ y.toInt then x else y := fun x y => by rw [sval_eq, sval_eq]
    have sval_ge : ∀ x y : Word, (if sval x ≥ sval y then x else y) = if y.toInt ≤ x.toInt then x else y := fun x y => by rw [sval_eq, sval_eq]
    intro l
    unfold redList
    cases op with
    | min => exact congrArg (fun r => l.foldl r 0x7FFFFFFF) (funext fun x => funext fun y => sval_le x y)
    | max => exact congrArg (fun r => l.foldl r 0x80000000) (funext fun x => funext fun y => sval_ge x y)
    | _ => rfl
  refine ⟨?_, ?_, writes_of_fix (fun _ => rfl) (fun w _ => ?_), writes_of_fix (fun _ => rfl) (fun w _ => ?_),
    writes_of_fix (fun _ => rfl) (fun w _ => ?_), writes_of_fix (fun _ => rfl) (fun _ _ => rfl), writes_of_fix (fun _ => rfl) (fun _ _ => rfl),
    writes_of_fix (fun _ => rfl) (fun _ _ => rfl), writes_of_fix (fun _ => rfl) (fun _ _ => rfl), writes_of_fix (fun _ => rfl) (fun w _ => ?_),
    writes_of_fix (fun _ => rfl) (fun w _ => ?_), writes_of_fix (fun _ => rfl) (fun w _ => ?_), writes_of_fix (fun _ => rfl) (fun w hf => ?_),
    writes_of_fix (fun _ => rfl) (fun _ _ => rfl), writes_of_fix (fun _ => rfl) (fun _ _ => rfl)⟩
  case refine_1 => cases m <;> exact writes_of_fix (fun _ => rfl) (fun _ _ => rfl)
  case refine_2 => cases sm <;> exact writes_of_fix (fun _ => rfl) (fun _ _ => rfl)
  case refine_3 => rw [voteVal_all]; rfl
  case refine_4 => rw [voteVal_any]; rfl
  case refine_5 => rw [voteVal_uni]; rfl
  case refine_6 =>
    simp only [Bool.and_eq_true, decide_eq_true_eq]
    split
    · rfl
    · exact w.fix_nil.symm
  case refine_7 => rw [comb_eq]; rfl
  case refine_8 =>
    simp only [comb_eq]
    rfl
  case refine_9 =>
    rw [hf]
    simp only [bit, Bool.and_true]
    rfl
end

section
/-! PROOFS of the floating-point, conversion, variable-latency and pair words (R43, R56, R106–R123). -/

namespace Sys2Proof.Machine

theorem elem16_zero (x : Nat) : elem 16 0 x = x % 65536 := rfl
theorem elem16_one (x : Nat) : elem 16 1 x = x / 65536 % 65536 := congrArg (fun n => n % 65536) (Nat.shiftRight_eq_div_pow x 16)

/-- Two halves packed from the halves of two or three sources (R113). -/
theorem pack2_halves2 (f : Nat → Nat → Nat) (x y : Nat) : pack2 (f (elem 16 0 x) (elem 16 0 y)) (f (elem 16 1 x) (elem 16 1 y)) =
    BitVec.ofNat 32 (f (x % 65536) (y % 65536) + f (x / 65536 % 65536) (y / 65536 % 65536) * 65536) := by
  rw [elem16_zero, elem16_zero, elem16_one, elem16_one]; rfl
theorem pack2_halves3 (f : Nat → Nat → Nat → Nat) (x y z : Nat) :
    pack2 (f (elem 16 0 x) (elem 16 0 y) (elem 16 0 z)) (f (elem 16 1 x) (elem 16 1 y) (elem 16 1 z)) =
      BitVec.ofNat 32 (f (x % 65536) (y % 65536) (z % 65536) + f (x / 65536 % 65536) (y / 65536 % 65536) (z / 65536 % 65536) * 65536) := by
  rw [elem16_zero, elem16_zero, elem16_zero, elem16_one, elem16_one, elem16_one]; rfl

theorem dstCellsN_two (d : Opnd) (lanes : List Nat) (f : Nat → Nat → Word) :
    dstCellsN d 2 lanes f = dstCells d 0 lanes (f 0) ++ dstCells d 1 lanes (f 1) := by
  simp [dstCellsN, List.range_succ]

/-- CFMAH2's halves: a part of the complex product and a half of C, rounded once (R114). -/
theorem cfmah2_eq (p : FVal × FVal) (x : Nat) :
    pack2 (fp16.round .rn false (addV .rn p.1 (fp16.val (elem 16 0 x)))) (fp16.round .rn false (addV .rn p.2 (fp16.val (elem 16 1 x)))) =
      BitVec.ofNat 32 (fp16.round .rn false (addV .rn p.1 (fp16.val (x % 65536))) +
        fp16.round .rn false (addV .rn p.2 (fp16.val (x / 65536 % 65536))) * 65536) := by
  rw [elem16_zero, elem16_one]; rfl

end Sys2Proof.Machine

open Sys2Proof Sys2Proof.Machine Sys2Proof.Laws

/-- Settles O5: the model's sums and products are one rounding of the exact value, and the packed words do so in each half. -/
theorem floatResults : Obligations.FloatResults := by
  intro h d a b c p k r m na nc pr conj cond n A B V lo hi both half
  refine ⟨Result1.of_val (fun _ _ => rfl) (fun _ => rfl), Result1.of_val (fun _ _ => rfl) (fun _ => rfl),
    Result1.of_val (fun _ _ => rfl) (fun _ => rfl), Result1.of_val (fun _ _ => rfl) (fun _ => rfl),
    writes_of_fix (fun _ => rfl) (fun w _ => congrArg w.fix (dstCellsN_two _ _ _)),
    Result1.of_val (fun _ _ => rfl) (fun _ => rfl), Result1.of_val (fun _ _ => rfl) (fun _ => rfl),
    resultP_of_word (fun f g l => combine k (fcmpVal cond (g.f32 l a) (g.f32 l b)) (g.combPred (uniOf f) k l)) (fun _ => rfl) (fun _ _ => rfl),
    Result1.of_val (fun g l => pack2_halves2 (fp16.add .rn) (g.h2 fp16 l a) (g.h2 fp16 l b)) (fun _ => rfl),
    Result1.of_val (fun g l => pack2_halves2 (fp16.mul .rn) (g.h2 fp16 l a) (g.h2 fp16 l b)) (fun _ => rfl),
    Result1.of_val (fun g l => pack2_halves3 (fp16.fma .rn false false) (g.h2 fp16 l a) (g.h2 fp16 l b) (g.h2 fp16 l c)) (fun _ => rfl),
    Result1.of_val (fun g l => pack2_halves2 (bf16.add .rn) (g.h2 bf16 l a) (g.h2 bf16 l b)) (fun _ => rfl),
    Result1.of_val (fun g l => pack2_halves2 (bf16.mul .rn) (g.h2 bf16 l a) (g.h2 bf16 l b)) (fun _ => rfl),
    Result1.of_val (fun g l => pack2_halves3 (bf16.fma .rn false false) (g.h2 bf16 l a) (g.h2 bf16 l b) (g.h2 bf16 l c)) (fun _ => rfl),
    Result1.of_val (fun _ _ => rfl) (fun _ => rfl), Result1.of_val (fun _ _ => rfl) (fun _ => rfl),
    Result1.of_val (fun _ _ => rfl) (fun _ => rfl), Result1.of_val (fun _ _ => rfl) (fun _ => rfl),
    Result1.of_val (fun _ _ => rfl) (fun _ => rfl), Result1.of_val (fun _ _ => rfl) (fun _ => rfl),
    Result1.of_val (fun _ _ => rfl) (fun _ => rfl), Result1.of_val (fun _ _ => rfl) (fun _ => rfl),
    Result1.of_val (fun _ _ => rfl) (fun _ => rfl),
    Result1.of_val (fun g l => cfmah2_eq (cmulParts conj (g.rd l a).toNat (g.rd l b).toNat) (g.rd l c).toNat) (fun _ => rfl)⟩

/-- Settles O6: one conversion for each element, and one chain over the lanes for .RNEF. -/
theorem conversionResults : Obligations.ConversionResults := by
  intro h d a b dt st r sat f rn op n rm help code items
  have once : rm ≠ .rnef ∧ rndOf rm = r := by cases r <;> exact ⟨RndE.noConfusion, rfl⟩
  obtain ⟨hrm, hr⟩ := once
  refine ⟨fun h64 => writes_of_fix (fun _ => rfl) (fun w _ => ?_), fun h64 => writes_of_fix (fun _ => rfl) (fun w _ => ?_),
    fun hf => writes_of_fix (fun _ => rfl) (fun w hw => ?_), writes_of_fix (fun _ => rfl) (fun w _ => ?_),
    fun hf => writes_of_fix (fun _ => rfl) (fun w hw => ?_), writes_of_fix (fun _ => rfl) (fun w _ => ?_),
    writes_of_fix (fun _ => rfl) (fun _ _ => rfl), writes_of_fix (fun _ => rfl) (fun w _ => ?_)⟩
  case refine_1 => simp only [if_neg hrm, h64, hr, Bool.false_eq_true, if_false]; rfl
  case refine_2 => simp only [if_neg hrm, h64, hr, if_true]; rfl
  case refine_3 =>
    have helpers : w.chainHelper = help (.cvt h d a dt st .rnef sat) w.g := funext fun l => by rw [W.chainHelper, hw]
    simp only [hf, if_true, helpers]
    rfl
  case refine_4 => simp only [if_neg hrm, hr]; rfl
  case refine_5 =>
    have helpers : w.chainHelper = help (.cvtp h d a b dt .rnef sat) w.g := funext fun l => by rw [W.chainHelper, hw]
    simp only [hf, if_true, helpers]
    rfl
  case refine_6 => cases fmtOf st <;> rfl
  case refine_7 => cases op <;> rfl
end

section
/-! PROOFS of the words of variable latency that read registers only (R56, R112, R121), of pair words and NOP (R43). -/

namespace Sys2Proof.Machine

theorem extv_eq_zero (un : Bool) (x : Word) : extv un x = 0 ↔ x = 0 := by
  rw [extv_eq]
  cases un
  · simp only [Bool.false_eq_true, if_false]
    exact ⟨fun h => BitVec.eq_of_toInt_eq h, fun h => h ▸ rfl⟩
  · simp only [if_true]
    exact ⟨fun h => BitVec.eq_of_toNat_eq (by simpa using h), fun h => h ▸ rfl⟩

theorem narrow_tdiv_toNat (x y : Word) : narrow ((x.toNat : Int).tdiv y.toNat) = x / y := by
  rw [← Int.ofNat_tdiv, narrow_natCast]
  exact BitVec.eq_of_toNat_eq (by rw [BitVec.toNat_ofNat, BitVec.toNat_udiv, Nat.mod_eq_of_lt (lt_of_le_of_lt (Nat.div_le_self _ _) x.isLt)])

theorem narrow_tmod_toNat (x y : Word) : narrow ((x.toNat : Int).tmod y.toNat) = x % y := by
  rw [← Int.ofNat_tmod, narrow_natCast]
  exact BitVec.eq_of_toNat_eq (by rw [BitVec.toNat_ofNat, BitVec.toNat_umod, Nat.mod_eq_of_lt (lt_of_le_of_lt (Nat.mod_le _ _) x.isLt)])

/-- IDIV and IREM (R56): quotient and remainder of a division that truncates, of the one that overflows too. -/
theorem divVals_eq (un : Bool) (x y : Word) : divVals un x y = if y = 0 then (0xFFFFFFFF, x)
    else (narrow ((extv un x).tdiv (extv un y)), narrow ((extv un x).tmod (extv un y))) := by
  unfold divVals
  simp only [extv_eq_zero]
  split
  · rfl
  split
  · rename_i overflow
    simp only [Bool.and_eq_true, decide_eq_true_eq] at overflow
    obtain ⟨⟨-, hx⟩, hy⟩ := overflow
    rw [hx, hy]
    decide
  · rw [Int.tmod_def, Int.mul_comm]

theorem divVals_quot (un : Bool) (x y : Word) : (divVals un x y).1 =
    if y = 0 then 0xFFFFFFFF else if un then x / y else BitVec.ofInt 32 (x.toInt.tdiv y.toInt) := by
  rw [divVals_eq, extv_eq, extv_eq, ← narrow_tdiv_toNat]
  split
  · rfl
  · cases un <;> rfl

theorem divVals_rem (un : Bool) (x y : Word) : (divVals un x y).2 =
    if y = 0 then x else if un then x % y else BitVec.ofInt 32 (x.toInt.tmod y.toInt) := by
  rw [divVals_eq, extv_eq, extv_eq, ← narrow_tmod_toNat]
  split
  · rfl
  · cases un <;> rfl

/-- A FREE completion time lies within its bounds. -/
theorem freeTime_between {lo hi : Nat} (h : lo ≤ hi) (clk n : Nat) :
    clk + lo ≤ clk + lo + n % (hi - lo + 1) ∧ clk + lo + n % (hi - lo + 1) ≤ clk + hi := by
  have := Nat.mod_lt n (show 0 < hi - lo + 1 by omega)
  omega

/-- A word of variable latency whose completion time is FREE within bounds. -/
theorem Ready.awaitsFree {i : Instr} {s : State} {g : Group} {pc : Pc} {cells cells' : Group → LaneMask → List Nat → List (Nat × Word)} {lo hi : Nat}
    (h : Ready (info i) (ownKeys (info i)) s g pc) (hx : (g.entered (info i)).exLanes (info i) g.active ≠ [])
    (hb : lo ≤ hi) (hc : ∀ g act ex, cells' g act ex = cells g act ex)
    (he : ∀ s, exec i s = runWord i s fun w => (w.freeIn lo hi).2.var (cells' w.g w.act w.ex) (w.freeIn lo hi).1 false) :
    Awaits i s g pc (cells (g.entered (info i)) g.active ((g.entered (info i)).exLanes (info i) g.active))
      (fun t => s.pkg.clock + lo ≤ t ∧ t ≤ s.pkg.clock + hi) := by
  rw [← hc]
  exact h.awaits (he s) hx _ _ _ false rfl _ (freeTime_between hb s.pkg.clock _)

/-- The window of a fixed-latency result: none without cells. -/
def windowOf (lat : Nat) (cells : List (Nat × Word)) : List Window := if cells.isEmpty then [] else [⟨lat, cells⟩]

theorem W.fixL_eq (w : W) (lat : Nat) (cells : List (Nat × Word)) : w.fixL lat cells = { w with fixed := w.fixed ++ windowOf lat cells } := by
  unfold W.fixL windowOf
  split <;> simp

theorem windowOf_cells (lat : Nat) (cells : List (Nat × Word)) : (windowOf lat cells).flatMap (fun x => x.cells) = cells := by
  unfold windowOf
  split
  · exact (List.isEmpty_iff.1 ‹_›).symm
  · simp

end Sys2Proof.Machine

open Sys2Proof Sys2Proof.Machine Sys2Proof.Laws

/-- Settles O7: the quotient, the remainder and the scaled codes are the rule's, and the completion times lie in its bounds. -/
theorem variableResults : Obligations.VariableResults := by
  intro h d a b un r s g pc ext quot rem E X run between
  refine ⟨fun ⟨hr, hx⟩ => ?_, fun ⟨hr, hx⟩ => ?_, fun ⟨hr, hx⟩ => ?_, fun ⟨hr, hx⟩ => ?_⟩
  · exact hr.awaitsFree (cells := fun g _ ex => dstCells d 0 ex (fun l => quot (g.rd l a) (g.rd l b))) hx (by decide)
      (fun g _ ex => congrArg (dstCells d 0 ex) (funext fun l => divVals_quot un (g.rd l a) (g.rd l b))) (fun _ => rfl)
  · exact hr.awaitsFree (cells := fun g _ ex => dstCells d 0 ex (fun l => rem (g.rd l a) (g.rd l b))) hx (by decide)
      (fun g _ ex => congrArg (dstCells d 0 ex) (funext fun l => divVals_rem un (g.rd l a) (g.rd l b))) (fun _ => rfl)
  · exact hr.awaitsFree (cells := fun g _ ex => dstCells d 0 ex (fun l => BitVec.ofNat 32 (fp32.div r (g.f32 l a) (g.f32 l b)))) hx
      (by decide) (fun _ _ _ => rfl) (fun _ => rfl)
  · exact hr.awaits rfl hx s.free _ _ false rfl _ ⟨le_refl _, le_refl _⟩

/-- Settles O8: both halves take their values from the group as the word found it; NOP makes no window. -/
theorem pairAndNop : Obligations.PairAndNop := by
  intro e stall x y h n lo hi both value lanes
  have value_eq : ∀ q g l, halfVal g q l = value q g l := by
    rintro ⟨op, qg, qd, qa⟩ g l
    cases op with
    | shl => exact shlVal_eq (g.rd l qd) _
    | shr => exact shrVal_eq (g.rd l qd) _
    | sar => exact sarVal_eq (g.rd l qd) _
    | imin => simp only [halfVal, sval_eq]; rfl
    | imax => simp only [halfVal, sval_eq]; rfl
    | hadd2 => exact pack2_halves2 (fp16.add .rn) (g.rd l qd).toNat (g.h2 fp16 l qa)
    | hmul2 => exact pack2_halves2 (fp16.mul .rn) (g.rd l qd).toNat (g.h2 fp16 l qa)
    | badd2 => exact pack2_halves2 (bf16.add .rn) (g.rd l qd).toNat (g.h2 bf16 l qa)
    | bmul2 => exact pack2_halves2 (bf16.mul .rn) (g.rd l qd).toNat (g.h2 bf16 l qa)
    | popc => exact congrArg n (popNat_eq_countP 32 (g.rd l qa).toNat)
    | _ => rfl
  have values_eq : ∀ q g, halfVal g q = value q g := fun q g => funext (value_eq q g)
  refine ⟨fun s g pc hr => ?_, writes_of_fix (fun _ => rfl) (fun _ _ => rfl)⟩
  have done := hr.completes rfl
    (windowOf (halfLat x.op) (dstCells x.d 0 (lanes x (g.entered (info (.pairWord e stall x y))) g.active) (value x (g.entered (info (.pairWord e stall x y))))) ++
      windowOf (halfLat y.op) (dstCells y.d 0 (lanes y (g.entered (info (.pairWord e stall x y))) g.active) (value y (g.entered (info (.pairWord e stall x y))))))
    (by
      simp only [W.fixL_eq, List.append_assoc, values_eq]
      rfl)
  rwa [List.flatMap_append, windowOf_cells, windowOf_cells] at done
end

section
/-! PROOFS of the transfer words BRA, BRU, BRX and EXIT (R80, R82, R88). -/

namespace Sys2Proof.Machine

theorem pcOfAddr_eq (a : DWord) : pcOfAddr a = ((a.toNat / 8 : Nat) : Pc) := by
  apply BitVec.eq_of_toNat_eq
  rw [pcOfAddr, BitVec.toNat_setWidth, BitVec.toNat_ushiftRight, Nat.shiftRight_eq_div_pow]
  rfl

/-- A word whose only effect is on its lanes' PCs: each active lane goes where the last jump sends it. -/
theorem Ready.jumps {i : Instr} {keys : Group → List Nat → List Nat} {s : State} {g : Group} {pc : Pc} {body : W → W} {to_ : Nat → Pc}
    (h : Ready (info i) keys s g pc) (he : exec i s = runWordX i keys s body) (jump : List (Nat × Pc)) (redir : Nat) (branch : Option LaneMask)
    (hb : body (W.begin (info i) s g pc) = { W.begin (info i) s g pc with vpc := jump, redir := redir, branch := branch })
    (ht : ∀ l, g.active.getLsbD l = true → (lastAt jump l).getD (pc + 1) = to_ l)
    (hgo : ∃ l, l < 32 ∧ g.isHelper l = false ∧ (if g.active.getLsbD l then to_ l else g.vpcOf l) ≠ exitPc) :
    PerformsTo i s g (s.entered (info i) g) [] to_ := by
  obtain ⟨-, -, -, kvpc, -, klevel, khelper, -, -⟩ := Group.entered_kept g (info i)
  obtain ⟨l, hl, hh, hx⟩ := hgo
  refine (h.performsTo he _ hb ⟨rfl, rfl, rfl, rfl, h.wet, rfl⟩ ⟨rfl, rfl, rfl, klevel⟩ (State.entered_grp s _ g) ⟨kvpc, khelper⟩
    ⟨l, hl, hh, ?_⟩).congr ht
  split
  · rw [if_pos ‹_›, ← ht l ‹_›] at hx
    exact hx
  · rwa [if_neg ‹_›] at hx

/-- Where the last of a list of jumps, one a lane of execution, sends an active lane (R33). -/
theorem lastAt_exLanes {g y : Group} {f : Info} {l : Nat} (hu : uniOf f = false) (ha : g.active.getLsbD l = true) (t : Nat → Pc) (p : Pc) :
    (lastAt ((y.exLanes f g.active).map (fun j => (j, t j))) l).getD p = if y.guard false f.h l then t l else p := by
  rw [lastAt_lanes]
  simp only [Group.mem_exLanes hu (lt_of_getLsbD ha), ha, true_and]
  split <;> rfl

/-- Where a uniform transfer sends an active lane (R82). -/
theorem lastAt_uniform {g y : Group} {f : Info} {l : Nat} (hu : uniOf f = true) (ha : g.active.getLsbD l = true) (t p : Pc) :
    (lastAt (if (y.exLanes f g.active).isEmpty then [] else (lanesOf g.active).map (fun j => (j, t))) l).getD p =
      if y.guard true f.h 0 then t else p := by
  unfold Group.exLanes
  rw [if_pos hu]
  by_cases hg : y.guard true f.h 0 = true
  · have here : l ∈ lanesOf g.active := List.mem_filter.2 ⟨mem_lanes32.2 (lt_of_getLsbD ha), ha⟩
    simp [hg, lastAt_lanes, here]
  · simp [hg]

/-- BRX's jumps where every target is aligned (R80). -/
theorem W.foldJumps (x : Nat → DWord) (ex : List Nat) (hx : ∀ l ∈ ex, (x l).toNat % 8 = 0) (w : W) :
    ex.foldl (fun v l => if (x l).toNat % 8 = 0 then v.jump [(l, pcOfAddr (x l))] else v.misTarget l (x l)) w =
      w.jump (ex.map (fun l => (l, pcOfAddr (x l)))) := by
  induction ex generalizing w with
  | nil => simp [W.jump]
  | cons l t ih =>
    rw [List.foldl_cons, if_pos (hx l (by simp)), ih (fun j hj => hx j (by simp [hj]))]
    simp [W.jump]

end Sys2Proof.Machine

open Sys2Proof Sys2Proof.Machine Sys2Proof.Laws

/-- Settles O9: each transfer is a list of jumps, and an active lane goes where its own jump says, or to the next word. -/
theorem branchWords : Obligations.BranchWords := by
  intro h o24 o32 a s g pc E goes taken
  refine ⟨fun hr => hr.jumps rfl _ _ _ rfl (fun l ha => ?_), fun hr => hr.jumps rfl _ _ _ rfl (fun l ha => ?_),
    fun hr => hr.jumps rfl _ _ _ rfl (fun l ha => ?_), fun hr => hr.jumps rfl _ _ _ rfl (fun l ha => ?_),
    fun hr => hr.jumps rfl _ _ _ rfl (fun l ha => ?_), fun aligned hr => ?_⟩
  · exact lastAt_exLanes (f := info (.braFull h o24)) rfl ha _ _
  · exact lastAt_exLanes (f := info (.braWide h o32)) rfl ha _ _
  · exact lastAt_uniform (f := info (.bruFull h o24)) rfl ha _ _
  · exact lastAt_uniform (f := info (.bruWide h o32)) rfl ha _ _
  · exact lastAt_exLanes (f := info (.exit h)) rfl ha _ _
  · have guarded : ∀ l ∈ (E (.brx h a)).exLanes (info (.brx h a)) g.active, ((E (.brx h a)).rd64 l a).toNat % 8 = 0 :=
      fun l hl => aligned l ((Group.mem_exLanes rfl ((Group.exLanes_nodup _ _ _).2 l hl)).1 hl).2
    refine hr.jumps rfl (((E (.brx h a)).exLanes (info (.brx h a)) g.active).map (fun l => (l, pcOfAddr ((E (.brx h a)).rd64 l a)))) 4 _
      (congrArg (fun w => w.transferDone 4) (W.foldJumps (fun l => (E (.brx h a)).rd64 l a) _ guarded _)) (fun l ha => ?_)
    rw [← pcOfAddr_eq]
    exact lastAt_exLanes rfl ha (fun l => pcOfAddr ((E (.brx h a)).rd64 l a)) _
end

section
/-! PROOFS of the words that push on the lane stack (R84–R87). -/

namespace Sys2Proof.Machine

theorem toBytes_length (n x : Nat) : (toBytes n x).length = n := by
  induction n generalizing x with
  | zero => rfl
  | succ n ih => simp [toBytes, ih]

/-- The bytes of a number are those of its low part and then those of its high part. -/
theorem toBytes_append (m n x : Nat) : toBytes (m + n) x = toBytes m x ++ toBytes n (x / 2 ^ (8 * m)) := by
  induction m generalizing x with
  | zero => simp [toBytes]
  | succ m ih =>
    rw [Nat.succ_add_eq_add_succ, Nat.add_succ, toBytes, toBytes, ih, List.cons_append, Nat.div_div_eq_div_mul, Nat.mul_succ, Nat.pow_add, Nat.mul_comm (2 ^ (8 * m))]

/-- Only the low bits of a number are in its bytes. -/
theorem toBytes_mod (n x : Nat) : toBytes n (x % 2 ^ (8 * n)) = toBytes n x := by
  induction n generalizing x with
  | zero => rfl
  | succ n ih =>
    have split256 : 2 ^ (8 * (n + 1)) = 256 * 2 ^ (8 * n) := by rw [Nat.mul_succ, Nat.pow_add, Nat.mul_comm]
    have low : BitVec.ofNat 8 (x % (256 * 2 ^ (8 * n))) = BitVec.ofNat 8 x :=
      BitVec.eq_of_toNat_eq (by rw [BitVec.toNat_ofNat, BitVec.toNat_ofNat, Nat.mod_mul_right_mod])
    rw [split256, toBytes, toBytes, low, Nat.mod_mul_right_div_self, ih]

theorem toNat_pair64 (lo hi : Word) : (pair64 lo hi).toNat = hi.toNat * 2 ^ 32 + lo.toNat := by
  have high : (hi.toNat <<< 32) % 2 ^ 64 = hi.toNat <<< 32 := Nat.mod_eq_of_lt (by rw [Nat.shiftLeft_eq]; omega)
  have hi_fits : hi.toNat % 2 ^ 64 = hi.toNat := Nat.mod_eq_of_lt (by omega)
  have lo_fits : lo.toNat % 2 ^ 64 = lo.toNat := Nat.mod_eq_of_lt (by omega)
  rw [pair64, BitVec.toNat_or, BitVec.toNat_shiftLeft, BitVec.toNat_setWidth, BitVec.toNat_setWidth, hi_fits, lo_fits, high, ← Nat.shiftLeft_add_eq_or_of_lt lo.isLt, Nat.shiftLeft_eq]

/-- A pair's bytes are its low word's and then its high word's (R32, R87). -/
theorem toBytes_pair64 (lo hi : Word) : toBytes 8 (pair64 lo hi).toNat = toBytes 4 lo.toNat ++ toBytes 4 hi.toNat := by
  have low : (hi.toNat * 2 ^ 32 + lo.toNat) % 2 ^ (8 * 4) = lo.toNat := by omega
  have high : (hi.toNat * 2 ^ 32 + lo.toNat) / 2 ^ (8 * 4) = hi.toNat := by omega
  rw [toBytes_append 4 4, toNat_pair64, ← toBytes_mod 4 (hi.toNat * 2 ^ 32 + lo.toNat), low, high]

theorem toBytes_word (x : Word) : toBytes 8 x.toNat = toBytes 4 x.toNat ++ [0, 0, 0, 0] := by
  rw [toBytes_append 4 4, Nat.div_eq_of_lt x.isLt]
  rfl

/-- The condition under which a lane's push of `n` bytes is legal (R84). -/
def PushRoom (E : Group) (top n l : Nat) : Prop := E.stackLimit + n ≤ (E.lspOf l).toNat ∧ (E.lspOf l).toNat ≤ top + n

/-- What a word finds in its group when nothing but earlier lanes' pushes and jumps has happened. -/
structure PushView (E : Group) (pc : Pc) (top : Nat) (w : W) : Prop where
  grp : w.g = E
  at_ : w.pc = pc
  top : w.s.stackTop E = top
  wet : w.dry = false

theorem PushRoom.lspOk {E : Group} {top n l : Nat} (h : PushRoom E top n l) {w : W} (hg : w.g = E) (ht : w.s.stackTop E = top) :
    w.lspOk (((E.lspOf l).toNat : Int) - n) = true := by
  obtain ⟨low, high⟩ := h
  unfold W.lspOk
  rw [hg, ht]
  simp only [Bool.and_eq_true, decide_eq_true_eq]
  omega

/-- WORDS THAT PUSH (R86, R87): in every lane of execution LSP goes down by `n`, the bytes lie at the new LSP, and the lane may jump. -/
theorem Ready.pushes {i : Instr} {s : State} {g : Group} {pc : Pc} {body : W → W} {to_ : Nat → Pc}
    (h : Ready (info i) (ownKeys (info i)) s g pc) (he : exec i s = runWord i s body) {n : Nat} (hn : n ≤ 64) {bytes : Nat → List Byte}
    (hlen : ∀ l, (bytes l).length = n) (jump : Nat → List (Nat × Pc)) (f : W → Nat → W) (fin : W → W)
    (hfin : ∀ w, fin w = { w with redir := (fin w).redir, branch := (fin w).branch })
    (hb : body (W.begin (info i) s g pc) = fin (((g.entered (info i)).exLanes (info i) g.active).foldl f (W.begin (info i) s g pc)))
    (hf : ∀ w, ∀ l ∈ (g.entered (info i)).exLanes (info i) g.active, PushView (g.entered (info i)) pc (s.stackTop (g.entered (info i))) w →
      PushRoom (g.entered (info i)) (s.stackTop (g.entered (info i))) n l → f w l = (w.pushBytes l (bytes l)).jump (jump l))
    (sup : (g.entered (info i)).isSup = false)
    (room : ∀ l ∈ (g.entered (info i)).exLanes (info i) g.active, PushRoom (g.entered (info i)) (s.stackTop (g.entered (info i))) n l)
    (hto : ∀ l, g.active.getLsbD l = true →
      (lastAt (((g.entered (info i)).exLanes (info i) g.active).flatMap jump) l).getD (pc + 1) = to_ l)
    (hgo : ∃ l, l < 32 ∧ g.isHelper l = false ∧ (if g.active.getLsbD l then to_ l else g.vpcOf l) ≠ exitPc) :
    ChangesTo i s g [] to_ (fun y => y = { g.entered (info i) with lsp := y.lsp, fillDue := y.fillDue, stk := y.stk } ∧
      (∀ l, l < 32 → (y.lspOf l).toNat = if l ∈ (g.entered (info i)).exLanes (info i) g.active
        then ((g.entered (info i)).lspOf l).toNat - n else ((g.entered (info i)).lspOf l).toNat) ∧
      (∀ l o, l < 32 → kget y.stk (o * 32 + l) =
        if l ∈ (g.entered (info i)).exLanes (info i) g.active ∧ ((g.entered (info i)).lspOf l).toNat - n ≤ o ∧ o < ((g.entered (info i)).lspOf l).toNat
        then some ⟨(bytes l).getD (o - (((g.entered (info i)).lspOf l).toNat - n)) 0, true⟩ else kget (g.entered (info i)).stk (o * 32 + l))) := by
  obtain ⟨-, -, -, kvpc, -, klevel, khelper, -, -⟩ := Group.entered_kept g (info i)
  obtain ⟨nodup, below⟩ := (g.entered (info i)).exLanes_nodup (info i) g.active
  obtain ⟨x, done, kept, grp⟩ := W.foldUpd f (fun G l => pushed G l (bytes l)) jump
    (fun l w => PushView (g.entered (info i)) pc (s.stackTop (g.entered (info i))) w ∧ l ∈ (g.entered (info i)).exLanes (info i) g.active)
    (fun l w x v kept ⟨view, hl⟩ => ⟨⟨view.grp, view.at_, (kept.stackTop _).trans view.top, view.wet⟩, hl⟩)
    (fun w l ⟨view, hl⟩ => by
      obtain ⟨x, push, kept, grp⟩ := w.pushBytes_pushed l (bytes l) view.wet (view.grp ▸ sup) (by rw [hlen]; exact hn)
      exact ⟨x, by rw [hf w l hl view (room l hl), push]; rfl, kept, grp⟩)
    ((g.entered (info i)).exLanes (info i) g.active) (W.begin (info i) s g pc) (fun l hl => ⟨⟨rfl, rfl, rfl, h.wet⟩, hl⟩)
  have here : x.grp s.focus = some (pushedAll (g.entered (info i)) bytes ((g.entered (info i)).exLanes (info i) g.active) (g.entered (info i))) :=
    grp.trans (congrArg (Option.map _) (State.entered_grp s (info i) g))
  have whole := pushedAll_kept (g.entered (info i)) bytes ((g.entered (info i)).exLanes (info i) g.active) (g.entered (info i))
  have run : PerformsTo i s g x [] to_ := by
    obtain ⟨l, hl, hh, hx⟩ := hgo
    rw [done, hfin] at hb
    refine (h.performsTo he _ hb ⟨rfl, rfl, rfl, rfl, h.wet, rfl⟩ ⟨rfl, rfl, rfl, klevel⟩ here ?_ ⟨l, hl, hh, ?_⟩).congr hto
    · rw [whole]
      exact ⟨kvpc, khelper⟩
    · split
      · rw [if_pos ‹_›, ← hto l ‹_›] at hx
        exact hx
      · rwa [if_neg ‹_›] at hx
  refine ⟨x, _, run, kept, here, whole, fun l hl => ?_, fun l o hl => ?_⟩
  · rw [pushedAll_lsp _ _ _ _ hl, hlen]
    split
    · rw [BitVec.toNat_ofNat, Nat.mod_eq_of_lt (lt_of_le_of_lt (Nat.sub_le _ _) (BitVec.isLt _))]
    · rfl
  · have lane : (o * 32 + l) % 32 = l := by omega
    have offset : (o * 32 + l) / 32 = o := by omega
    rw [pushedAll_stk _ _ _ _ nodup below, lane, offset, hlen]
    by_cases hl : l ∈ (g.entered (info i)).exLanes (info i) g.active
    · have fits : ((g.entered (info i)).lspOf l).toNat - n + n = ((g.entered (info i)).lspOf l).toNat := Nat.sub_add_cancel (by have := (room l hl).1; omega)
      rw [fits]
    · simp only [hl, false_and, if_false]

/-- A call in a lane with room pushes the record and jumps (R86). -/
theorem W.callLane_pushed {E : Group} {pc : Pc} {top l : Nat} {w : W} (view : PushView E pc top w) (room : PushRoom E top 8 l) (t : Pc) :
    w.callLane l t = (w.pushBytes l (callRecord (pc + 1))).jump [(l, t)] := by
  have ok := room.lspOk view.grp view.top
  rw [← view.grp] at ok
  rw [← view.at_]
  exact if_pos ok

theorem lastAt_exLanes_flat {g y : Group} {f : Info} {l : Nat} (hu : uniOf f = false) (ha : g.active.getLsbD l = true) (t : Nat → Pc) (p : Pc) :
    (lastAt ((y.exLanes f g.active).flatMap (fun j => [(j, t j)])) l).getD p = if y.guard false f.h l then t l else p := by
  rw [← List.map_eq_flatMap]
  exact lastAt_exLanes hu ha t p

theorem lastAt_nowhere (X : List Nat) (l : Nat) (p : Pc) : (lastAt (X.flatMap (fun _ => [])) l).getD p = p := by
  rw [List.flatMap_eq_nil_iff.2 (fun _ _ => rfl)]
  rfl

end Sys2Proof.Machine

open Sys2Proof Sys2Proof.Machine Sys2Proof.Laws

/-- Settles O10: calls and PUSH are pushes in every lane of execution, calls with a jump. -/
theorem pushWords : Obligations.PushWords := by
  intro h o24 o32 a s g pc E X pushes record taken word reg
  have record_length : record.length = 8 := toBytes_length 8 _
  have calls : ∀ (E : Group) (top : Nat) (w : W) (l : Nat), PushView E pc top w → PushRoom E top 8 l → ∀ t, w.callLane l t = (w.pushBytes l record).jump [(l, t)] :=
    fun E top w l view room t => W.callLane_pushed view room t
  have frame : ∀ (sz : StkSize) (E : Group) (w : W) (l : Nat), PushView E pc (s.stackTop E) w → PushRoom E (s.stackTop E) (frameBytes sz) l →
      ∀ v : W, v.s.stackTop E = s.stackTop E → v.g = E → (if v.lspOk (((E.lspOf l).toNat : Int) - frameBytes sz) then w.pushBytes l (pushVal E l a sz)
        else w.stackOver l (((E.lspOf l).toNat : Int) - frameBytes sz)) = (w.pushBytes l (pushVal E l a sz)).jump [] := by
    intro sz E w l view room v top grp
    rw [if_pos (room.lspOk grp top)]
    simp [W.jump]
  refine ⟨fun hr sup room hgo => ?_, fun hr sup room hgo => ?_, fun aligned hr sup room hgo => ?_, fun hr sup room hgo => ?_,
    fun hr sup room hgo => ?_, fun hr sup room hgo => ?_⟩
  · exact hr.pushes rfl (by decide) (fun _ => record_length) (fun l => [(l, pc + o24.signExtend 53)]) (fun w l => w.callLane l (pc + o24.signExtend 53))
      (fun w => w.transferDone 2) (fun _ => rfl) rfl (fun w l _ view room => calls _ _ w l view room _) sup room
      (fun l ha => lastAt_exLanes_flat (f := info (.callFull h o24)) rfl ha _ _) hgo
  · exact hr.pushes rfl (by decide) (fun _ => record_length) (fun l => [(l, pc + o32.signExtend 53)]) (fun w l => w.callLane l (pc + o32.signExtend 53))
      (fun w => w.transferDone 2) (fun _ => rfl) rfl (fun w l _ view room => calls _ _ w l view room _) sup room
      (fun l ha => lastAt_exLanes_flat (f := info (.callWide h o32)) rfl ha _ _) hgo
  · exact hr.pushes rfl (by decide) (fun _ => record_length) (fun l => [(l, pcOfAddr ((E (.callx h a)).rd64 l a))])
      (fun w l => if ((E (.callx h a)).rd64 l a).toNat % 8 = 0 then w.callLane l (pcOfAddr ((E (.callx h a)).rd64 l a))
        else w.misTarget l ((E (.callx h a)).rd64 l a))
      (fun w => w.transferDone 4) (fun _ => rfl) rfl (fun w l hl view room => by rw [if_pos (aligned l hl)]; exact calls _ _ w l view room _) sup room
      (fun l ha => by rw [← pcOfAddr_eq]; exact lastAt_exLanes_flat (f := info (.callx h a)) rfl ha (fun l => pcOfAddr ((E (.callx h a)).rd64 l a)) _) hgo
  · exact hr.pushes rfl (by decide) (bytes := fun l => word (E (.push h a .b32)) l ++ [0, 0, 0, 0]) (fun _ => rfl) (fun _ => []) _ (fun w => w) (fun _ => rfl) rfl
      (fun w l _ view room => by rw [← toBytes_word]; exact frame .b32 _ w l view room _ rfl rfl) sup room (fun l ha => lastAt_nowhere _ _ _) hgo
  · exact hr.pushes rfl (by decide) (bytes := fun l => reg (E (.push h a .b64)) l 0 ++ reg (E (.push h a .b64)) l 1) (fun _ => rfl) (fun _ => []) _
      (fun w => w) (fun _ => rfl) rfl
      (fun w l _ view room => by rw [← toBytes_pair64]; exact frame .b64 _ w l view room _ rfl rfl) sup room (fun l ha => lastAt_nowhere _ _ _) hgo
  · exact hr.pushes rfl (by decide) (fun _ => rfl) (fun _ => []) _ (fun w => w) (fun _ => rfl) rfl
      (fun w l _ view room => frame .b128 _ w l view room _ rfl rfl) sup room (fun l ha => lastAt_nowhere _ _ _) hgo
end

section
/-! PROOFS of the words that move the lane stack's pointer up or read below it (R84, R85, R87). -/

namespace Sys2Proof.Machine

/-- Two folds agree where their steps agree in every state the second passes through. -/
theorem foldl_congr_inv {α β : Type} {f h : α → β → α} (ok : α → Prop) (X : List β) (hf : ∀ w, ∀ l ∈ X, ok w → f w l = h w l)
    (hok : ∀ w, ∀ l ∈ X, ok w → ok (h w l)) (w : α) (hw : ok w) : X.foldl f w = X.foldl h w := by
  induction X generalizing w with
  | nil => rfl
  | cons l t ih =>
    rw [List.foldl_cons, List.foldl_cons, hf w l (by simp) hw]
    exact ih (fun w j hj => hf w j (by simp [hj])) (fun w j hj => hok w j (by simp [hj])) _ (hok w l (by simp) hw)

/-- A fold that also collects values. -/
theorem foldl_collect {α β γ : Type} (h : α → β → α) (val : β → List γ) (X : List β) (w : α) (c : List γ) :
    X.foldl (fun (p : α × List γ) l => (h p.1 l, p.2 ++ val l)) (w, c) = (X.foldl h w, c ++ X.flatMap val) := by
  induction X generalizing w c with
  | nil => simp
  | cons l t ih => simp [ih]

/-- The moves of LSP of several lanes, each of which may jump. -/
theorem W.foldLsp (n : Nat → Nat) (jump : Nat → List (Nat × Pc)) (X : List Nat) (w : W) :
    ∃ x, X.foldl (fun w l => (w.setLsp l (n l)).jump (jump l)) w = { w with s := x, vpc := w.vpc ++ X.flatMap jump } ∧
      StateKept w.gid w.s x ∧ x.grp w.gid = (w.s.grp w.gid).map (lspAll n X) :=
  W.foldUpd _ (fun _ l => lspSet l (n l)) jump (fun _ _ => True) (fun _ _ _ _ _ _ => trivial)
    (fun w l _ => by
      obtain ⟨x, moved, kept, grp⟩ := w.setLsp_set l (n l)
      exact ⟨x, by rw [moved]; rfl, kept, grp⟩) X w (fun _ _ => trivial)

/-- The view of a word's group and pc outlives a move of LSP. -/
theorem PushView.setLsp {E : Group} {pc : Pc} {top : Nat} {w : W} (h : PushView E pc top w) (l n : Nat) (j : List (Nat × Pc)) :
    PushView E pc top ((w.setLsp l n).jump j) := ⟨h.grp, h.at_, h.top, h.wet⟩

/-- The moves of LSP of several lanes, each of which also gives values. -/
theorem W.foldLspCells {E : Group} {pc : Pc} {top : Nat} (n : Nat → Nat) (val : Nat → List (Nat × Word)) {X : List Nat}
    (f : W × List (Nat × Word) → Nat → W × List (Nat × Word)) {w : W} (view : PushView E pc top w)
    (hf : ∀ v c, ∀ l ∈ X, f (v, c) l = ((v.setLsp l (n l)).jump [], c ++ val l)) :
    X.foldl f (w, []) = (X.foldl (fun v l => (v.setLsp l (n l)).jump []) w, X.flatMap val) :=
  (foldl_congr_inv (h := fun p l => ((p.1.setLsp l (n l)).jump [], p.2 ++ val l)) (fun p => PushView E pc top p.1) X
    (fun p l hl _ => hf p.1 p.2 l hl) (fun _ _ _ v => v.setLsp _ _ _) _ view).trans
    (foldl_collect (fun (v : W) l => (v.setLsp l (n l)).jump []) val _ _ _)

/-- The group with the LSPs of the lanes `X` moved to `n`. -/
theorem lspAll_moved {E : Group} {X : List Nat} {n : Nat → Nat} (fits : ∀ l ∈ X, n l < 2 ^ 32) :
    lspAll n X E = { E with lsp := (lspAll n X E).lsp, fillDue := (lspAll n X E).fillDue } ∧
      ∀ l, l < 32 → ((lspAll n X E).lspOf l).toNat = if l ∈ X then n l else (E.lspOf l).toNat := by
  refine ⟨lspAll_kept n X E, fun l hl => ?_⟩
  rw [lspAll_lsp n X E hl]
  split
  · rw [BitVec.toNat_ofNat, Nat.mod_eq_of_lt (fits l ‹_›)]
  · rfl

/-- WORDS THAT MOVE LSP (R86, R87): in every lane of execution LSP becomes `n l`, and the lane may jump. -/
theorem Ready.movesLsp {i : Instr} {s : State} {g : Group} {pc : Pc} {body : W → W} {to_ : Nat → Pc}
    (h : Ready (info i) (ownKeys (info i)) s g pc) (he : exec i s = runWord i s body) (n : Nat → Nat) (jump : Nat → List (Nat × Pc))
    (ws : List Window) (fin : W → W)
    (hfin : ∀ w, w.f = info i → fin w = { w with fixed := w.fixed ++ ws, redir := (fin w).redir, branch := (fin w).branch })
    (hb : body (W.begin (info i) s g pc) =
      fin (((g.entered (info i)).exLanes (info i) g.active).foldl (fun w l => (w.setLsp l (n l)).jump (jump l)) (W.begin (info i) s g pc)))
    (fits : ∀ l ∈ (g.entered (info i)).exLanes (info i) g.active, n l < 2 ^ 32)
    (hto : ∀ l, g.active.getLsbD l = true →
      (lastAt (((g.entered (info i)).exLanes (info i) g.active).flatMap jump) l).getD (pc + 1) = to_ l)
    (hgo : ∃ l, l < 32 ∧ g.isHelper l = false ∧ (if g.active.getLsbD l then to_ l else g.vpcOf l) ≠ exitPc) :
    ChangesTo i s g (ws.flatMap (fun x => x.cells)) to_ (fun y => y = { g.entered (info i) with lsp := y.lsp, fillDue := y.fillDue } ∧
      ∀ l, l < 32 → (y.lspOf l).toNat = if l ∈ (g.entered (info i)).exLanes (info i) g.active then n l else ((g.entered (info i)).lspOf l).toNat) := by
  obtain ⟨-, -, -, kvpc, -, klevel, khelper, -, -⟩ := Group.entered_kept g (info i)
  obtain ⟨u, done, kept, grp⟩ := W.foldLsp n jump ((g.entered (info i)).exLanes (info i) g.active) (W.begin (info i) s g pc)
  have here : u.grp s.focus = some (lspAll n ((g.entered (info i)).exLanes (info i) g.active) (g.entered (info i))) :=
    grp.trans (congrArg (Option.map _) (State.entered_grp s (info i) g))
  obtain ⟨whole, lsp⟩ := lspAll_moved (E := g.entered (info i)) fits
  have run : PerformsTo i s g u (ws.flatMap (fun x => x.cells)) to_ := by
    obtain ⟨l, hl, hh, hx'⟩ := hgo
    rw [done, hfin _ rfl] at hb
    refine (h.performsTo he _ hb ⟨rfl, rfl, rfl, rfl, h.wet, rfl⟩ ⟨rfl, rfl, rfl, klevel⟩ here ?_ ⟨l, hl, hh, ?_⟩).congr hto
    · rw [whole]
      exact ⟨kvpc, khelper⟩
    · split
      · rw [if_pos ‹_›, ← hto l ‹_›] at hx'
        exact hx'
      · rwa [if_neg ‹_›] at hx'
  exact ⟨u, _, run, kept, here, whole, lsp⟩

/-- The legal range of LSP (R84), as the words test it. -/
theorem PushView.lspOk {E : Group} {pc : Pc} {top : Nat} {w : W} (h : PushView E pc top w) {n : Int} (low : (E.stackLimit : Int) ≤ n) (high : n ≤ top) :
    w.lspOk n = true := by
  unfold W.lspOk
  rw [h.grp, h.top]
  simp [low, high]

/-- The bytes a lane's return or POP takes from the stack cache. -/
def Group.stackBytes (E : Group) (l n : Nat) : List Byte := (upFrom (E.lspOf l).toNat n).map (fun o => ((kget E.stk (o * 32 + l)).getD ⟨0, false⟩).b)

/-- Whether a lane's `n` bytes at LSP are in the stack cache (R85) and LSP may pass them (R84). -/
def StackCached (E : Group) (top n l : Nat) : Prop :=
  (∀ o, (E.lspOf l).toNat ≤ o → o < (E.lspOf l).toNat + n → (kget E.stk (o * 32 + l)).isSome = true) ∧
    E.stackLimit ≤ (E.lspOf l).toNat + n ∧ (E.lspOf l).toNat + n ≤ top ∧ (E.lspOf l).toNat + n < 2 ^ 32

/-- The bits of a return record's PC are its address without the low three. -/
theorem ofNat_bitsOf_record (x : Nat) : BitVec.ofNat 53 (bitsOf x 3 53) = BitVec.ofNat 53 (x / 8) := by
  apply BitVec.eq_of_toNat_eq
  rw [BitVec.toNat_ofNat, BitVec.toNat_ofNat]
  unfold bitsOf
  rw [Nat.shiftRight_eq_div_pow, Nat.mod_mod]

/-- Where RET sends a lane of execution (R86). -/
def Group.returnPc (E : Group) (l : Nat) : Pc := BitVec.ofNat 53 (ofBytes (E.stackBytes l 8) / 8)

/-- A return in a lane whose record is cached (R86). -/
theorem W.retLane_cached {E : Group} {pc : Pc} {top l : Nat} {w : W} (view : PushView E pc top w) (sup : E.isSup = false)
    (cached : StackCached E top 8 l) : w.retLane l = (w.setLsp l ((E.lspOf l).toNat + 8)).jump
      [(l, E.returnPc l)] := by
  obtain ⟨bytes, low, high, -⟩ := cached
  obtain rfl := view.grp
  unfold W.retLane
  simp only
  rw [view.lspOk (by exact_mod_cast low) (by exact_mod_cast high), State.readL_cached sup _ _ _ _ _ bytes]
  rw [Group.returnPc, ← ofNat_bitsOf_record]
  rfl

/-- POP in a lane whose bytes are cached (R87). -/
theorem W.popLane_cached {E : Group} {pc : Pc} {top l : Nat} {v w : W} (begun : PushView E pc top v) (d : Opnd) (sz : StkSize) (c : List (Nat × Word))
    (sup : E.isSup = false) (cached : StackCached E top (frameBytes sz) l) :
    v.popLane d sz (w, c) l = ((w.setLsp l ((E.lspOf l).toNat + frameBytes sz)).jump [],
      c ++ cellsOfBytes d l (stkRegs sz) (E.stackBytes l (frameBytes sz))) := by
  obtain ⟨bytes, low, high, -⟩ := cached
  obtain rfl := begun.grp
  unfold W.popLane
  simp only
  rw [begun.lspOk (by exact_mod_cast low) (by exact_mod_cast high), State.readL_cached sup _ _ _ _ _ bytes]
  simp only [W.jump, List.append_nil]
  rfl

theorem roundUp_eight (n : Nat) : roundUp n 8 = (n + 7) / 8 * 8 := rfl

/-- What RET, POP, SALLOC and SFREE make of their group: LSP moves in the lanes of execution. -/
def LspMoved (E : Group) (X : List Nat) (n : Nat → Nat) (y : Group) : Prop :=
  y = { E with lsp := y.lsp, fillDue := y.fillDue } ∧ ∀ l, l < 32 → (y.lspOf l).toNat = if l ∈ X then n l else (E.lspOf l).toNat

theorem Ready.view {i : Instr} {s : State} {g : Group} {pc : Pc} (h : Ready (info i) (ownKeys (info i)) s g pc) :
    PushView (g.entered (info i)) pc (s.stackTop (g.entered (info i))) (W.begin (info i) s g pc) := ⟨rfl, rfl, rfl, h.wet⟩

/-- RET where the records are cached (R86). -/
theorem Ready.ret {h : Hdr} {s : State} {g : Group} {pc : Pc} (hr : Ready (info (.ret h)) (ownKeys (info (.ret h))) s g pc)
    (sup : (g.entered (info (.ret h))).isSup = false)
    (cached : ∀ l ∈ (g.entered (info (.ret h))).exLanes (info (.ret h)) g.active,
      StackCached (g.entered (info (.ret h))) (s.stackTop (g.entered (info (.ret h)))) 8 l)
    (hgo : ∃ l, l < 32 ∧ g.isHelper l = false ∧ (if g.active.getLsbD l
      then (if (g.entered (info (.ret h))).guard false h l then (g.entered (info (.ret h))).returnPc l else pc + 1) else g.vpcOf l) ≠ exitPc) :
    ChangesTo (.ret h) s g [] (fun l => if (g.entered (info (.ret h))).guard false h l then (g.entered (info (.ret h))).returnPc l else pc + 1)
      (LspMoved (g.entered (info (.ret h))) ((g.entered (info (.ret h))).exLanes (info (.ret h)) g.active)
        (fun l => ((g.entered (info (.ret h))).lspOf l).toNat + 8)) := by
  refine hr.movesLsp rfl _ (fun l => [(l, (g.entered (info (.ret h))).returnPc l)]) [] (fun w => w.transferDone 4)
    (fun w _ => by rw [List.append_nil]; rfl) (congrArg (W.transferDone · 4) ?_) (fun l hl => (cached l hl).2.2.2)
    (fun l ha => lastAt_exLanes_flat (f := info (.ret h)) rfl ha _ _) hgo
  exact foldl_congr_inv (PushView (g.entered (info (.ret h))) pc (s.stackTop (g.entered (info (.ret h))))) _
    (fun w l hl v => W.retLane_cached v sup (cached l hl)) (fun w l _ v => v.setLsp _ _ _) _ hr.view

/-- POP's end (R40, R87): the values of the lanes become pending unless the word is held or rolled back. -/
def W.popEnd (p : W × List (Nat × Word)) : W :=
  if p.1.rolled || p.1.hold.isSome then p.1 else { p.1 with s := p.1.s.freeDue.2 }.var p.2 p.1.s.freeDue.1 true

theorem State.freeDue_later (s : State) : s.pkg.clock < s.freeDue.1 := Nat.lt_of_lt_of_le (Nat.lt_succ_self _) (Nat.le_add_right _ _)

theorem StateKept.freeDue {gid : Nat} {s x : State} (h : StateKept gid s x) : StateKept gid s x.freeDue.2 :=
  ⟨h.memory, h.groups, h.teams, h.cores, h.ctxs, h.dies, h.units, h.queued, h.pkg⟩

/-- POP where the bytes are cached (R87). -/
theorem Ready.pop {h : Hdr} {d : Opnd} {sz : StkSize} {s : State} {g : Group} {pc : Pc}
    (hr : Ready (info (.pop h d sz)) (ownKeys (info (.pop h d sz))) s g pc) (sup : (g.entered (info (.pop h d sz))).isSup = false)
    (cached : ∀ l ∈ (g.entered (info (.pop h d sz))).exLanes (info (.pop h d sz)) g.active,
      StackCached (g.entered (info (.pop h d sz))) (s.stackTop (g.entered (info (.pop h d sz)))) (frameBytes sz) l)
    (some_lane : (g.entered (info (.pop h d sz))).exLanes (info (.pop h d sz)) g.active ≠ []) :
    ∃ x y, AwaitsIn (.pop h d sz) s g pc x (((g.entered (info (.pop h d sz))).exLanes (info (.pop h d sz)) g.active).flatMap (fun l =>
        cellsOfBytes d l (stkRegs sz) ((g.entered (info (.pop h d sz))).stackBytes l (frameBytes sz)))) (fun t => s.pkg.clock < t) ∧
      StateKept s.focus (s.entered (info (.pop h d sz)) g) x ∧ x.grp s.focus = some y ∧
      LspMoved (g.entered (info (.pop h d sz))) ((g.entered (info (.pop h d sz))).exLanes (info (.pop h d sz)) g.active)
        (fun l => ((g.entered (info (.pop h d sz))).lspOf l).toNat + frameBytes sz) y := by
  obtain ⟨-, -, -, kvpc, -, -, khelper, -, -⟩ := Group.entered_kept g (info (.pop h d sz))
  have lanes := W.foldLspCells (fun l => ((g.entered (info (.pop h d sz))).lspOf l).toNat + frameBytes sz)
    (fun l => cellsOfBytes d l (stkRegs sz) ((g.entered (info (.pop h d sz))).stackBytes l (frameBytes sz)))
    ((W.begin (info (.pop h d sz)) s g pc).popLane d sz) hr.view (fun v c l hl => W.popLane_cached (w := v) hr.view d sz c sup (cached l hl))
  obtain ⟨u, done, kept, grp⟩ := W.foldLsp (fun l => ((g.entered (info (.pop h d sz))).lspOf l).toNat + frameBytes sz) (fun _ => [])
    ((g.entered (info (.pop h d sz))).exLanes (info (.pop h d sz)) g.active) (W.begin (info (.pop h d sz)) s g pc)
  rw [done, List.flatMap_eq_nil_iff.2 (fun _ _ => rfl)] at lanes
  have here := grp.trans (congrArg (Option.map _) (State.entered_grp s (info (.pop h d sz)) g))
  obtain ⟨whole, lsp⟩ := lspAll_moved (E := g.entered (info (.pop h d sz))) (fun l hl => (cached l hl).2.2.2)
  have later : s.pkg.clock < u.freeDue.1 := lt_of_eq_of_lt (congrArg Pkg.clock kept.pkg).symm u.freeDue_later
  exact ⟨u.freeDue.2, _, hr.awaitsIn rfl some_lane u.freeDue.2 _ u.freeDue.1 true (congrArg W.popEnd lanes) here
    (by rw [whole]; exact ⟨kvpc, khelper⟩) _ later, kept.freeDue, here, whole, lsp⟩

/-- SALLOC in a lane with room (R87). -/
theorem W.sallocLane_room {E : Group} {pc : Pc} {top l : Nat} {v w : W} (begun : PushView E pc top v) (d a : Opnd) (c : List (Nat × Word))
    (room : PushRoom E top (((E.rd l a).toNat + 7) / 8 * 8) l) :
    v.sallocLane d a (w, c) l = ((w.setLsp l ((E.lspOf l).toNat - ((E.rd l a).toNat + 7) / 8 * 8)).jump [],
      c ++ dstCells d 0 [l] (fun _ => BitVec.ofNat 32 ((E.lspOf l).toNat - ((E.rd l a).toNat + 7) / 8 * 8))) := by
  have ok := room.lspOk begun.grp begun.top
  obtain ⟨low, -⟩ := room
  obtain rfl := begun.grp
  have down : ((v.g.lspOf l).toNat : Int) - (((v.g.rd l a).toNat + 7) / 8 * 8 : Nat) = (((v.g.lspOf l).toNat - ((v.g.rd l a).toNat + 7) / 8 * 8 : Nat) : Int) := by
    omega
  unfold W.sallocLane
  simp only [roundUp_eight]
  rw [ok, down, BitVec.ofInt_natCast]
  simp only [W.jump, List.append_nil]
  rfl

/-- SALLOC where every lane has room (R87). -/
theorem Ready.salloc {h : Hdr} {d a : Opnd} {s : State} {g : Group} {pc : Pc}
    (hr : Ready (info (.salloc h d a)) (ownKeys (info (.salloc h d a))) s g pc)
    (room : ∀ l ∈ (g.entered (info (.salloc h d a))).exLanes (info (.salloc h d a)) g.active,
      PushRoom (g.entered (info (.salloc h d a))) (s.stackTop (g.entered (info (.salloc h d a))))
        ((((g.entered (info (.salloc h d a))).rd l a).toNat + 7) / 8 * 8) l) :
    Changes (.salloc h d a) s g pc (((g.entered (info (.salloc h d a))).exLanes (info (.salloc h d a)) g.active).flatMap (fun l =>
        dstCells d 0 [l] (fun _ => BitVec.ofNat 32 (((g.entered (info (.salloc h d a))).lspOf l).toNat -
          (((g.entered (info (.salloc h d a))).rd l a).toNat + 7) / 8 * 8))))
      (LspMoved (g.entered (info (.salloc h d a))) ((g.entered (info (.salloc h d a))).exLanes (info (.salloc h d a)) g.active)
        (fun l => ((g.entered (info (.salloc h d a))).lspOf l).toNat - (((g.entered (info (.salloc h d a))).rd l a).toNat + 7) / 8 * 8)) := by
  have lanes := W.foldLspCells _ _ ((W.begin (info (.salloc h d a)) s g pc).sallocLane d a) hr.view
    (fun v c l hl => W.sallocLane_room (w := v) hr.view d a c (room l hl))
  have run := hr.movesLsp rfl _ (fun _ => []) (windowOf 4 _) (fun w => w.fix _)
    (fun w hw => by rw [W.fix, W.fixL_eq, hw]; rfl) (congrArg (fun p => p.1.fix p.2) lanes)
    (fun l _ => lt_of_le_of_lt (Nat.sub_le _ _) (BitVec.isLt _)) (fun l _ => lastAt_nowhere _ _ _) hr.goes
  rwa [windowOf_cells] at run

/-- SFREE where every lane stays below the top (R87). -/
theorem Ready.sfree {h : Hdr} {a : Opnd} {s : State} {g : Group} {pc : Pc}
    (hr : Ready (info (.sfree h a)) (ownKeys (info (.sfree h a))) s g pc)
    (room : ∀ l ∈ (g.entered (info (.sfree h a))).exLanes (info (.sfree h a)) g.active,
      (g.entered (info (.sfree h a))).stackLimit ≤ ((g.entered (info (.sfree h a))).lspOf l).toNat + (((g.entered (info (.sfree h a))).rd l a).toNat + 7) / 8 * 8 ∧
      ((g.entered (info (.sfree h a))).lspOf l).toNat + (((g.entered (info (.sfree h a))).rd l a).toNat + 7) / 8 * 8 ≤ s.stackTop (g.entered (info (.sfree h a))) ∧
      ((g.entered (info (.sfree h a))).lspOf l).toNat + (((g.entered (info (.sfree h a))).rd l a).toNat + 7) / 8 * 8 < 2 ^ 32) :
    Changes (.sfree h a) s g pc []
      (LspMoved (g.entered (info (.sfree h a))) ((g.entered (info (.sfree h a))).exLanes (info (.sfree h a)) g.active)
        (fun l => ((g.entered (info (.sfree h a))).lspOf l).toNat + (((g.entered (info (.sfree h a))).rd l a).toNat + 7) / 8 * 8)) := by
  refine hr.movesLsp rfl _ (fun _ => []) [] (fun w => w) (fun w _ => by rw [List.append_nil]) ?_ (fun l hl => (room l hl).2.2)
    (fun l _ => lastAt_nowhere _ _ _) hr.goes
  refine foldl_congr_inv (PushView (g.entered (info (.sfree h a))) pc (s.stackTop (g.entered (info (.sfree h a))))) _
    (fun w l hl _ => ?_) (fun w l _ v => v.setLsp _ _ _) _ hr.view
  obtain ⟨low, high, -⟩ := room l hl
  have ok : (W.begin (info (.sfree h a)) s g pc).lspOk
      (((g.entered (info (.sfree h a))).lspOf l).toNat + (roundUp ((g.entered (info (.sfree h a))).rd l a).toNat 8 : Nat)) = true :=
    hr.view.lspOk (by exact_mod_cast low) (by exact_mod_cast high)
  refine (if_pos ok).trans ?_
  simp only [W.jump, List.append_nil]
  rfl

end Sys2Proof.Machine

open Sys2Proof Sys2Proof.Machine Sys2Proof.Laws

/-- Settles O11: each word moves LSP in its lanes of execution; RET also jumps, POP and SALLOC also give values. -/
theorem stackReads : Obligations.StackReads := by
  intro h d a sz s g pc E X lsp bytes cached moved size back m regs
  have size_of : frameBytes sz = m := by cases sz <;> rfl
  have regs_of : stkRegs sz = regs := by cases sz <;> rfl
  refine ⟨fun hr ⟨sup, bytes_cached⟩ hgo => hr.ret sup bytes_cached hgo, fun hr ⟨sup, bytes_cached⟩ some_lane => ?_,
    fun hr room => hr.salloc room, fun hr room => hr.sfree room⟩
  rw [← size_of] at bytes_cached ⊢
  rw [← regs_of]
  exact hr.pop sup bytes_cached some_lane
end

section
/-! PROOFS of YIELD, SLEEPC, RDVPC, WRVPC and HRET (R90, R91, R100, R101, R338). -/

namespace Sys2Proof.Machine

/-- The value that an entry for each lane of a list gives a lane. -/
theorem kget_lanes {α : Type} (X : List Nat) (f : Nat → α) (k : Nat) : kget (X.map (fun l => (l, f l))) k = if k ∈ X then some (f k) else none := by
  induction X with
  | nil => rfl
  | cons a t ih =>
    by_cases h : a = k
    · simp [kget, h]
    · simp [kget, h, Ne.symm h, ih]

theorem getD_setNth {α : Type} (m : List α) (k j : Nat) (x d : α) (h : k < m.length) : (setNth m k x).getD j d = if k = j then x else m.getD j d := by
  induction m generalizing k j with
  | nil => simp at h
  | cons a t ih =>
    cases k with
    | zero => cases j <;> simp [setNth]
    | succ k =>
      cases j with
      | zero => simp [setNth]
      | succ j => simpa [setNth] using ih k j (by simpa using h)

/-- The end of a word leaves the aside counts that its lanes' new PCs call for (R90). -/
theorem W.close_aside (w : W) (g : Group) : (w.close g).aside = w.newAside (exitHelpers g.helper w.newVpc) := by
  unfold W.close
  simp only
  split <;> rfl

/-- The aside count of a lane after a word (R90). -/
def W.asideOf (w : W) (l : Nat) : Nat :=
  match kget w.asides l with
  | some n => n
  | none => w.g.aside.getD l 0 - 1

/-- Whether every live lane would stand aside (R90). -/
def W.allAside (w : W) (vpc : List Pc) : Bool := lanes32.all (fun k => decide (vpc.getD k exitPc = exitPc) || decide (0 < w.asideOf k))

theorem W.newAside_eq (w : W) (vpc : List Pc) : w.newAside vpc = if w.allAside vpc then [] else
    if (lanes32.map w.asideOf).all (fun n => decide (n = 0)) then [] else lanes32.map w.asideOf := by
  have each : (lanes32.all fun k => decide (vpc.getD k exitPc = exitPc) || decide (0 < (lanes32.map w.asideOf).getD k 0)) = w.allAside vpc := by
    rw [allAside, Bool.eq_iff_iff, List.all_eq_true, List.all_eq_true]
    exact forall₂_congr fun k hk => by rw [getD_lanes w.asideOf 0 (mem_lanes32.1 hk)]
  rw [← each]
  rfl

theorem W.newAside_getD (w : W) (vpc : List Pc) {l : Nat} (hl : l < 32) :
    (w.newAside vpc).getD l 0 = if w.allAside vpc then 0 else w.asideOf l := by
  rw [W.newAside_eq]
  cases w.allAside vpc with
  | true => rfl
  | false =>
    simp only [Bool.false_eq_true, if_false]
    split
    · have zero := List.all_eq_true.1 ‹_› (w.asideOf l) (List.mem_map_of_mem (mem_lanes32.2 hl))
      simpa using (of_decide_eq_true zero).symm
    · exact getD_lanes w.asideOf 0 hl

/-- WRVPC's write of one saved PC in one lane (R100). -/
def svpcWrite (v : List Pc) (k : Nat) (p : Pc) : List Pc := if v.getD k exitPc = exitPc then v else setNth v k p

theorem svpcWrite_getD (v : List Pc) (k j : Nat) (p : Pc) :
    (svpcWrite v k p).getD j exitPc = if k = j ∧ v.getD j exitPc ≠ exitPc then p else v.getD j exitPc := by
  unfold svpcWrite
  by_cases hv : v.getD k exitPc = exitPc
  · rw [if_pos hv, if_neg]
    rintro ⟨rfl, h⟩
    exact h hv
  · have inside : k < v.length := by
      by_contra out
      exact hv (List.getD_eq_default _ _ (by omega))
    rw [if_neg hv, getD_setNth v k j p exitPc inside]
    by_cases hk : k = j
    · subst hk
      rw [if_pos rfl, if_pos ⟨rfl, hv⟩]
    · rw [if_neg hk, if_neg (fun h => hk h.1)]

/-- The saved PCs after WRVPC's writes in several lanes (R100). -/
theorem foldl_svpcWrite_getD (X : List Nat) (at_ : Nat → Nat) (p : Nat → Pc) (v : List Pc) (j : Nat) :
    (X.foldl (fun v l => svpcWrite v (at_ l) (p l)) v).getD j exitPc = X.foldl (fun q l => if at_ l = j ∧ q ≠ exitPc then p l else q) (v.getD j exitPc) := by
  induction X generalizing v with
  | nil => rfl
  | cons l t ih => rw [List.foldl_cons, List.foldl_cons, ih, svpcWrite_getD]

/-- The stack cache of a group with no dirty byte is emptied without a write (R85). -/
theorem State.spill_clean {s : State} {gid : Nat} {g : Group} (h : s.grp gid = some g) (clean : ∀ c ∈ g.stk, c.2.dirty = false) (logAbsent : Bool) :
    s.spill gid logAbsent (fun _ _ => true) = (false, s.modGrp gid (fun y => { y with stk := [] })) := by
  have none_dirty : g.stk.filter (fun c => c.2.dirty && true) = [] := List.filter_eq_nil_iff.2 fun c hc => by simp [clean c hc]
  unfold State.spill
  rw [State.grpD_of_grp h]
  dsimp only
  rw [none_dirty]
  simp

theorem mem_lanesOf {m : LaneMask} {l : Nat} : l ∈ lanesOf m ↔ m.getLsbD l = true := by
  unfold lanesOf
  rw [List.mem_filter, mem_lanes32]
  exact ⟨fun h => h.2, fun h => ⟨lt_of_getLsbD h, h⟩⟩

/-- At HANDLER level a word finds its group as it was (R94). -/
theorem Group.entered_atHandler {g : Group} (h : g.level = .handler) (f : Info) : g.entered f = g := by
  have level : g.inRegion = false := by simp [Group.inRegion, h]
  unfold Group.entered
  simp [level]

end Sys2Proof.Machine

open Sys2Proof Sys2Proof.Machine Sys2Proof.Laws

/-- Settles O12, word by word. -/
theorem handlerAndWaitWords : Obligations.HandlerAndWaitWords := by
  intro h n d a b s g pc E X ready
  refine ⟨fun hr => ?_, fun hr some_lane nonzero => ?_, fun hr idle => ?_, ?_, fun hr => ?_, fun hr some_lane level clean hgo => ?_⟩
  · obtain ⟨-, -, -, kvpc, kaside, -, khelper, -, -⟩ := Group.entered_kept g (info (.yield h n))
    obtain ⟨run, here, vpc, helpers, -⟩ := hr.closes rfl
      { W.begin (info (.yield h n)) s g pc with asides := (X (.yield h n)).map (fun l => (l, n.toNat)) } rfl
      ⟨rfl, rfl, rfl, rfl, hr.wet, rfl⟩ ⟨rfl, rfl⟩ (State.entered_grp s _ g) (by
        obtain ⟨l, hl, hh, hx⟩ := hr.goes
        exact ⟨l, hl, khelper ▸ hh, by rw [Group.vpcOf, kvpc]; exact hx⟩)
    refine ⟨_, _, run, here, vpc.trans ?_, ?_⟩
    · unfold Group.nextPcs Group.vpcOf
      rw [kvpc]
      rfl
    · intro count l hl
      rw [W.close_aside, helpers, W.newAside_getD _ _ hl]
      have counts : W.asideOf { W.begin (info (.yield h n)) s g pc with asides := (X (.yield h n)).map (fun l => (l, n.toNat)) } = count := by
        funext k
        unfold W.asideOf
        rw [kget_lanes]
        show _ = if k ∈ X (.yield h n) then n.toNat else g.aside.getD k 0 - 1
        by_cases executes : k ∈ X (.yield h n)
        · rw [if_pos executes, if_pos executes]
        · rw [if_neg executes, if_neg executes, ← kaside]
          rfl
      rw [W.allAside, counts]
      rfl
  · have nonzero' : ¬ min ((E (.sleepc h a)).rd 0 a).toNat 1048576 = 0 := by
      have : ((E (.sleepc h a)).rd 0 a).toNat ≠ 0 := fun h0 => nonzero (BitVec.eq_of_toNat_eq h0)
      omega
    have awake : ((W.begin (info (.sleepc h a)) s g pc).ex.isEmpty || decide (min ((E (.sleepc h a)).rd 0 a).toNat 1048576 = 0)) = false := by
      simp only [nonzero', decide_false, Bool.or_false]
      exact List.isEmpty_eq_false_iff.2 some_lane
    exact hr.changes rfl (fun y => { y with
        wait := .sleep (s.pkg.clock + 1 + min ((E (.sleepc h a)).rd 0 a).toNat 1048576), waitPc := pc, waitMask := g.active, wakeAt := none, touches := [] }) []
      ((if_neg (Bool.eq_false_iff.1 awake)).trans (if_neg (Bool.eq_false_iff.1 hr.wet))) ⟨rfl, rfl⟩ rfl
  · refine hr.nothing rfl (if_pos ?_)
    rcases idle with none_ | zero
    · exact Bool.or_eq_true_iff.2 (.inl (List.isEmpty_iff.2 none_))
    · refine Bool.or_eq_true_iff.2 (.inr (decide_eq_true ?_))
      show min ((E (.sleepc h a)).rd 0 a).toNat 1048576 = 0
      rw [zero]
      rfl
  · exact Result2.of_val (fun _ _ => rfl) (fun _ => rfl)
  · refine hr.changes rfl (fun y => { y with svpc := (X (.wrvpc h a b)).foldl (fun v l => svpcWrite v (((E (.wrvpc h a b)).rd l b).toNat % 32)
      (pcOfAddr ((E (.wrvpc h a b)).rd64 l a))) y.svpc }) [] rfl ⟨rfl, rfl⟩ ⟨rfl, fun k _ => ?_⟩
    rw [foldl_svpcWrite_getD]
    simp only [pcOfAddr_eq]
    rfl
  · have same : g.entered (info (.hret h)) = g := Group.entered_atHandler level _
    have begun : (s.entered (info (.hret h)) g).grp s.focus = some g := by rw [State.entered_grp, same]
    let x : State := ((s.entered (info (.hret h)) g).modGrp s.focus (fun y => { y with stk := [] })).modGrp s.focus Group.handlerReturn
    let jumps : List (Nat × Pc) := (lanesOf g.active).map (fun l => (l, (g.entered (info (.hret h))).svpc.getD l exitPc))
    have here : x.grp s.focus = some (Group.handlerReturn { g with stk := [] }) := by
      rw [State.grp_modGrp_self, State.grp_modGrp_self, begun]
      rfl
    have jump : ∀ l, g.active.getLsbD l = true → W.toPc { W.begin (info (.hret h)) s g pc with s := x, vpc := jumps, redir := 4 } l = g.svpc.getD l exitPc := by
      intro l active
      unfold W.toPc
      rw [lastAt_lanes, if_pos (mem_lanesOf.2 active), same]
      rfl
    have busy : ¬ (W.begin (info (.hret h)) s g pc).ex.isEmpty = true := fun none_ => some_lane (List.isEmpty_iff.1 none_)
    have at_handler : (W.begin (info (.hret h)) s g pc).g.level = .handler := (congrArg Group.level same).trans level
    obtain ⟨run, after, vpc, -, kept⟩ := hr.closes rfl { W.begin (info (.hret h)) s g pc with s := x, vpc := jumps, redir := 4 }
      ((if_neg busy).trans ((if_pos at_handler).trans (congrArg (fun q : Bool × State => { (({ W.begin (info (.hret h)) s g pc with s := q.2 }).mod
        Group.handlerReturn).jump jumps with redir := 4 }) (State.spill_clean begun clean true))))
      ⟨rfl, rfl, rfl, rfl, hr.wet, rfl⟩ ⟨rfl, rfl⟩ here (by
        obtain ⟨l, hl, hh, hx⟩ := hgo
        refine ⟨l, hl, hh, ?_⟩
        split
        · rwa [jump l ‹_›]
        · exact hx)
    obtain ⟨gk, coming, -, -, retcnt⟩ := W.close_kept { W.begin (info (.hret h)) s g pc with s := x, vpc := jumps, redir := 4 }
      (Group.handlerReturn { g with stk := [] })
    refine ⟨_, _, run, after, vpc.trans ?_, gk.stack.1, gk.level, gk.stack.2.1, gk.region.1, ?_, gk.saved.1, gk.saved.2.2.1, coming, ?_⟩
    · refine List.map_congr_left fun l _ => ?_
      split
      · exact jump l ‹_›
      · rfl
    · rw [retcnt, if_neg]
      · rfl
      · have outside : Group.inRegion (W.begin (info (.hret h)) s g pc).g = false := by
          unfold Group.inRegion
          rw [at_handler]
          rfl
        exact fun both => Bool.eq_false_iff.1 outside (Bool.and_eq_true_iff.1 both).1
    · exact ((((StateKept.refl s.focus s).setGrp _).modGrp _).modGrp _).trans kept
end

section
/-! PROOFS of TRAP, BKPT and the trap entry (R99, R333, R336, R337). -/

namespace Sys2Proof.Machine

/-- The faults of the lanes of execution of a vector word: one for each that is no helper (R93). -/
theorem W.foldFaults (rec : Nat → LaneFault) (lane : ∀ l, (rec l).lane = l) (X : List Nat) (w : W) (wet : w.dry = false) (vector : uniOf w.f = false) :
    X.foldl (fun v l => v.fault (rec l)) w = { w with faults := w.faults ++ (X.filter (fun l => !w.g.isHelper l)).map rec } := by
  induction X generalizing w with
  | nil => simp
  | cons l t ih =>
    have muted : w.mute (rec l).lane = w.g.isHelper l := by simp [W.mute, wet, vector, lane]
    rw [List.foldl_cons]
    cases helper : w.g.isHelper l with
    | true =>
      have step : w.fault (rec l) = w := (if_pos (muted.trans helper)).trans (if_neg (Bool.eq_false_iff.1 wet))
      rw [step, ih w wet vector, List.filter_cons, helper]
      rfl
    | false =>
      have own : w.recLane (rec l).lane = (rec l).lane := by simp [W.recLane, vector]
      have step : w.fault (rec l) = { w with faults := w.faults ++ [rec l] } := by
        refine (if_neg (Bool.eq_false_iff.1 (muted.trans helper))).trans ?_
        rw [own]
      rw [step, ih { w with faults := w.faults ++ [rec l] } wet vector, List.filter_cons, helper, List.append_assoc]
      rfl

/-- A word whose faults come after it moves its lanes as if it had none (R99). -/
theorem W.newVpc_after (w : W) {g : Group} (after : w.afterWord = true) (no_absent : w.absents = []) (no_held : w.held = []) (free : w.stuck = false)
    (no_jump : w.vpc = []) (act : w.act = g.active) (vpc : (w.s.grpD w.gid).vpc = g.vpc) : w.newVpc = g.nextPcs w.pc := by
  unfold W.newVpc W.stays W.rolled W.nx Group.vpcOf Group.nextPcs Group.vpcOf
  simp [after, no_absent, no_held, free, no_jump, act, vpc, kget]

/-- The end of a word whose faults enter a trap with no rollback (R336, R337). -/
theorem W.finish_trap (w : W) (free : w.hold = none) (no_absent : w.absents = []) (no_held : w.held = []) (wet : w.dry = false) (faults : w.faults ≠ [])
    (no_rollback : rollsBack w.faults = false) : w.finish =
      ((((w.s.modGrp w.gid w.close).chargeIssue w.gid .issue w.pc).enterTrap w.gid ⟨false, w.pc, w.faults⟩).retireGroup w.gid) := by
  unfold W.finish W.settle W.rolled State.raiseTrap
  simp [free, no_absent, no_held, wet, faults, no_rollback]

/-- The issue of a word leaves its group. -/
theorem State.grp_chargeIssue (s : State) (gid k : Nat) (c : SlotCause) (pc : Pc) : (s.chargeIssue gid c pc).grp k = s.grp k :=
  congrArg (fun m => kget m k) (State.chargeIssue_kept s gid c pc).1

/-- The record of a lane that TRAP or BKPT names (R99). -/
def trapRec (c : Cause) (code : BitVec 8) (l : Nat) : LaneFault := ⟨l, c, 0, 0, 0, kindTrap, code.toNat, false⟩

/-- TRAP and BKPT (R99). -/
theorem Ready.trapWord {i : Instr} {c : Cause} {code : BitVec 8} {s : State} {g : Group} {pc : Pc}
    (h : Ready (info i) (ownKeys (info i)) s g pc) (he : exec i s = runWord i s fun w => w.trapWord c code) (vector : uniOf (info i) = false)
    (no_roll : c ≠ .mcheck ∧ c ≠ .page) :
    let hit := ((g.entered (info i)).exLanes (info i) g.active).filter (fun l => !(g.entered (info i)).isHelper l)
    (hit = [] → Completes i s g pc []) ∧
    (hit ≠ [] → ∃ u y, exec i s = .next ((u.enterTrap s.focus ⟨false, pc, hit.map (trapRec c code)⟩).retireGroup s.focus) ∧
      u.grp s.focus = some y ∧ y.vpc = g.nextPcs pc ∧ y.retcnt = (if g.inRegion then (g.entered (info i)).counted else (g.entered (info i)).retcnt) ∧
      (∀ k, y.coming k = (g.entered (info i)).coming k) ∧ y.pends.map Pend.plain = (g.entered (info i)).pends.map Pend.plain ∧
      GroupKept { g.entered (info i) with rsig := y.rsig } y ∧ StateKept s.focus (s.entered (info i) g) u) := by
  intro hit
  obtain ⟨-, -, -, kvpc, -, klevel, khelper, -, -⟩ := Group.entered_kept g (info i)
  have body : (W.begin (info i) s g pc).trapWord c code = { W.begin (info i) s g pc with faults := hit.map (trapRec c code), afterWord := true } := by
    unfold W.trapWord
    rw [if_neg (Bool.eq_false_iff.1 h.wet)]
    exact congrArg (fun w : W => { w with afterWord := true }) (W.foldFaults (trapRec c code) (fun _ => rfl) _ _ h.wet vector)
  refine ⟨fun none_ => ?_, fun some_ => ?_⟩
  · rw [none_] at body
    exact h.performs he _ body ⟨rfl, rfl, rfl, rfl, h.wet, rfl, rfl⟩ ⟨rfl, rfl, rfl, klevel⟩ (State.entered_grp s _ g) ⟨kvpc, khelper⟩
  · let w : W := { W.begin (info i) s g pc with faults := hit.map (trapRec c code), afterWord := true }
    have vpc : exitHelpers (g.entered (info i)).helper w.newVpc = g.nextPcs pc := by
      rw [W.newVpc_after w (g := g) rfl rfl rfl rfl rfl rfl ((congrArg Group.vpc (State.grpD_of_grp (State.entered_grp s (info i) g))).trans kvpc)]
      obtain ⟨l, hl, helper, goes⟩ := h.goes
      exact exitHelpers_id hl (khelper ▸ helper) (by rw [Group.nextPcs, getD_lanes _ _ hl]; exact goes)
    obtain ⟨kept, coming, closed_vpc, pends, retcnt⟩ := W.close_kept w (g.entered (info i))
    have no_rollback : rollsBack w.faults = false := by simp [rollsBack, w, trapRec, no_roll]
    have faults : w.faults ≠ [] := fun none_ => some_ (List.map_eq_nil_iff.1 none_)
    refine ⟨(w.s.modGrp s.focus w.close).chargeIssue s.focus .issue pc, w.close (g.entered (info i)), ?_, ?_, closed_vpc.trans vpc, ?_, coming, pends, kept, ?_⟩
    · exact (he.trans (h.run _)).trans (congrArg Host.Outcome.next ((congrArg W.finish body).trans (w.finish_trap rfl rfl rfl h.wet faults no_rollback)))
    · rw [State.grp_chargeIssue, State.grp_modGrp_self]
      exact congrArg (Option.map w.close) (State.entered_grp s (info i) g)
    · have retires : w.retires (exitHelpers (g.entered (info i)).helper w.newVpc) = true := by
        unfold W.retires
        rw [no_rollback, if_neg (fun none_ => faults (List.isEmpty_iff.1 none_))]
        rfl
      have region : w.g.inRegion = g.inRegion := by
        show (g.entered (info i)).inRegion = _
        unfold Group.inRegion
        rw [klevel]
      rw [retcnt, retires, region, Bool.and_true]
    · exact ((StateKept.refl s.focus w.s).modGrp _).issue _ _ _

/-- A context with no working fault ring gets no record (R333, R339). -/
theorem State.writeRecs_noRing (gid : Nat) (g : Group) (pc : Pc) (svpc : List Pc) (recs : List LaneFault) (s : State) (first : Bool)
    (no_ring : (s.ctxD g.ctx).ringOk = false) : s.writeRecs gid g pc svpc recs first = (none, 0, false, false, s) := by
  have unwritten : ∀ look v snap, s.ringPut g.ctx look v snap = (.none, s) := by
    intro look v snap
    unfold State.ringPut
    simp [no_ring]
  induction recs generalizing first with
  | nil => rfl
  | cons f t ih =>
    unfold State.writeRecs
    simp only [unwritten, ih]

/-- The acquire actions leave the memory and the groups. -/
theorem State.acquirePkg_kept (s : State) (core ctx : Nat) : (s.acquirePkg core ctx).mem = s.mem ∧ (s.acquirePkg core ctx).groups = s.groups := by
  unfold State.acquirePkg State.lazyTrigger
  simp only
  split <;> exact ⟨rfl, rfl⟩

/-- What TRAP_ENTRY makes of its group's stack pointers before it saves them: a rollback takes the region's (R337). -/
def Group.rolledBack (g : Group) (roll : Bool) : Group := if roll then { g with lsp := g.elsp } else g

/-- The group in its handler (R337), with `hss` handler stack pieces and no record written. -/
def Group.inHandler (g : Group) (t : TrapPend) (f : LaneFault) (tail : Word) (hss clk : Nat) : Group :=
  (Group.trapRegs t.roll f 0 false tail { g.rolledBack t.roll with stk := [] }).toHandler (if t.roll then g.evpc else g.vpc) t.pc (16 * hss) clk

/-- TRAPCAUSE of a trap with no record written (R335). -/
theorem trapcause_eq (roll : Bool) (f : LaneFault) : field 24 8 f.detail + field 18 6 0 + field 17 1 (if false then 1 else 0) +
    field 16 1 (if roll then 1 else 0) + causeCode f.cause = f.detail % 256 * 2 ^ 24 + (if roll then 2 ^ 16 else 0) + causeCode f.cause := by
  unfold field
  rw [Nat.shiftLeft_eq]
  cases roll <;> simp

/-- Steps 2 and 3 of R337 where they write nothing. -/
theorem State.enterUserTrap_handler {s : State} {gid : Nat} {g : Group} {t : TrapPend} {f : LaneFault} {recs : List LaneFault} (here : s.grp gid = some g)
    (installed : g.handlerV = true) (stack : (s.ctxD g.ctx).hss ≠ 0) (no_ring : (s.ctxD g.ctx).ringOk = false)
    (clean : ∀ c ∈ g.stk, c.2.dirty = false) : s.enterUserTrap gid g t f recs =
      ((s.modGrp gid (fun y => { y with stk := [] })).modGrp gid (Group.trapRegs t.roll f 0 false (BitVec.ofNat 32 (s.ctxD g.ctx).frtail.toNat))).enterHandler
        gid (if t.roll then g.evpc else g.vpc) t.pc := by
  unfold State.enterUserTrap
  rw [State.spill_clean here clean false]
  dsimp only
  rw [State.writeRecs_noRing gid g t.pc _ recs (s.modGrp gid (fun y => { y with stk := [] })) true no_ring]
  unfold State.deliverTrap
  rw [installed]
  exact if_neg stack

/-- The handler's entry (R337 steps 4 to 7): one group changes. -/
theorem State.enterHandler_kept {s : State} {gid : Nat} {g : Group} (here : s.grp gid = some g) (svpc : List Pc) (pc : Pc) :
    (s.enterHandler gid svpc pc).grp gid = some (g.toHandler svpc pc (16 * (s.ctxD g.ctx).hss) s.pkg.clock) ∧
    (s.enterHandler gid svpc pc).mem = s.mem ∧ ∀ k, k ≠ gid → (s.enterHandler gid svpc pc).grp k = s.grp k := by
  unfold State.enterHandler
  obtain ⟨mem, groups⟩ := State.acquirePkg_kept (s.modGrp gid (fun g => g.toHandler svpc pc (16 * (s.ctxD g.ctx).hss) s.pkg.clock))
    ((s.modGrp gid (fun g => g.toHandler svpc pc (16 * (s.ctxD g.ctx).hss) s.pkg.clock)).grpD gid).core
    ((s.modGrp gid (fun g => g.toHandler svpc pc (16 * (s.ctxD g.ctx).hss) s.pkg.clock)).grpD gid).ctx
  refine ⟨(congrArg (fun m => kget m gid) groups).trans ?_, mem, fun k other => (congrArg (fun m => kget m k) groups).trans (State.grp_modGrp_ne s _ other)⟩
  exact (State.grp_modGrp_self s gid _).trans (congrArg _ here)

/-- The stack pointers that a rollback puts back (R337), as one change of the group. -/
theorem Group.rolledBack_kept (g : Group) (roll : Bool) : (g.rolledBack roll) = { g with lsp := if roll then g.elsp else g.lsp } := by
  cases roll <;> rfl

/-- TRAP_ENTRY at USER level where nothing keeps it from the handler (R337). -/
theorem State.enterTrap_user {s : State} {gid : Nat} {g : Group} {t : TrapPend} {f : LaneFault} {rest : List LaneFault} (here : s.grp gid = some g)
    (level : g.level = .user) (installed : g.handlerV = true) (stack : (s.ctxD g.ctx).hss ≠ 0) (no_ring : (s.ctxD g.ctx).ringOk = false)
    (clean : ∀ c ∈ g.stk, c.2.dirty = false) (recs : orderRecs t.roll (sortLanes t.recs) = f :: rest) :
    (s.enterTrap gid t).grp gid =
      some (g.inHandler t f (BitVec.ofNat 32 (s.ctxD g.ctx).frtail.toNat) (s.ctxD g.ctx).hss s.pkg.clock) ∧
    (∀ a, (s.enterTrap gid t).byte a = s.byte a) ∧ ∀ k, k ≠ gid → (s.enterTrap gid t).grp k = s.grp k := by
  have user : g.level ≠ .handler ∧ g.isSup = false := by simp [Group.isSup, level]
  let s1 : State := if t.roll then s.modGrp gid (fun g => { g with lsp := g.elsp }) else s
  have same : s1.ctxs = s.ctxs ∧ s1.pkg = s.pkg ∧ s1.mem = s.mem ∧ s1.grp gid = some (g.rolledBack t.roll) ∧ ∀ k, k ≠ gid → s1.grp k = s.grp k := by
    unfold s1 Group.rolledBack
    cases t.roll with
    | false => exact ⟨rfl, rfl, rfl, here, fun _ _ => rfl⟩
    | true => exact ⟨rfl, rfl, rfl, (State.grp_modGrp_self s gid _).trans (congrArg _ here), fun k other => State.grp_modGrp_ne s _ other⟩
  obtain ⟨ctxs, pkg, mem, here1, others⟩ := same
  have ctxD : ∀ c, s1.ctxD c = s.ctxD c := fun c => congrArg (fun m => (kget m c).getD Ctx.reset) ctxs
  have enter : s.enterTrap gid t = s1.enterUserTrap gid (s1.grpD gid) t f (f :: rest) := by
    unfold State.enterTrap
    simp only [here, recs, user, List.headD_cons, if_false, Bool.false_eq_true]
    rfl
  have G : g.rolledBack t.roll = { g with lsp := if t.roll then g.elsp else g.lsp } := g.rolledBack_kept t.roll
  have handled := State.enterUserTrap_handler (t := t) (f := f) (recs := f :: rest) here1 (by rw [G]; exact installed) (by rw [ctxD, G]; exact stack)
    (by rw [ctxD, G]; exact no_ring) (by rw [G]; exact clean)
  rw [enter, State.grpD_of_grp here1, handled]
  obtain ⟨grp, mem', others'⟩ := State.enterHandler_kept (s := (s1.modGrp gid (fun y => { y with stk := [] })).modGrp gid
      (Group.trapRegs t.roll f 0 false (BitVec.ofNat 32 (s1.ctxD (g.rolledBack t.roll).ctx).frtail.toNat)))
    (((State.grp_modGrp_self _ gid _).trans (congrArg _ ((State.grp_modGrp_self s1 gid _).trans (congrArg _ here1)))))
    (if t.roll then (g.rolledBack t.roll).evpc else (g.rolledBack t.roll).vpc) t.pc
  refine ⟨grp.trans ?_, fun a => (State.byte_eq mem' a).trans (State.byte_eq mem a), fun k other => (others' k other).trans ?_⟩
  · have same : ∀ c, State.ctxD ((s1.modGrp gid (fun y => { y with stk := [] })).modGrp gid
        (Group.trapRegs t.roll f 0 false (BitVec.ofNat 32 (s1.ctxD (g.rolledBack t.roll).ctx).frtail.toNat))) c = s.ctxD c := ctxD
    rw [same, ctxD, Group.inHandler, ← pkg, G]
    rfl
  · rw [State.grp_modGrp_ne _ _ other, State.grp_modGrp_ne _ _ other, others k other]

end Sys2Proof.Machine

open Sys2Proof Sys2Proof.Machine Sys2Proof.Laws

/-- Settles O13. -/
theorem trapWords : Obligations.TrapWords := by
  intro h code s g pc E hit traps
  exact ⟨fun hr => hr.trapWord rfl rfl ⟨by decide, by decide⟩, fun hr => hr.trapWord rfl rfl ⟨by decide, by decide⟩⟩

/-- Settles O14: the entry makes the group `Group.inHandler`. -/
theorem trapEntry : Obligations.TrapEntry := by
  intro s gid g t f rest on here trap settled level installed stack no_ring clean recs
  obtain ⟨grp, bytes, others⟩ := State.enterTrap_user here level installed stack no_ring clean recs
  have due : (!t.roll || g.pends.isEmpty) = true := by
    cases roll : t.roll with
    | false => rfl
    | true => rw [settled roll]; rfl
  have run : exec (.trapEntry gid) s = .next (s.enterTrap gid t) := by
    refine (if_pos on).trans (congrArg Host.Outcome.next ?_)
    unfold State.trapEntry
    simp only [here, trap, due, if_true]
  rw [Group.inHandler, g.rolledBack_kept t.roll] at grp
  exact ⟨_, _, run, grp, rfl, rfl, rfl, rfl, rfl, congrArg (BitVec.ofNat 32) (trapcause_eq t.roll f), rfl, rfl, rfl, rfl, rfl, rfl, rfl, rfl, rfl, rfl, rfl,
    rfl, rfl, rfl, rfl, bytes, others⟩
end

section
/-! PROOFS of the loads and stores (R124–R132, R169). -/

namespace Sys2Proof.Machine

theorem bitsOf_eq (x lo n : Nat) : bitsOf x lo n = x / 2 ^ lo % 2 ^ n := by
  unfold bitsOf
  rw [Nat.shiftRight_eq_div_pow]

/-- What changes the lane paths only leaves of a group (R134). -/
theorem PathKept.group {gid : Nat} {s x : State} (h : PathKept gid s x) {g : Group} (hg : s.grp gid = some g) :
    ∃ y, x.grp gid = some y ∧ y = { g with pathUntil := y.pathUntil, pathPc := y.pathPc } := by
  obtain ⟨f, grp, same⟩ := h.grp
  exact ⟨f g, by rw [grp, hg]; rfl, same g⟩

/-- What changes the stack cache only leaves of a group (R85). -/
theorem StkKept.group {gid : Nat} {s x : State} (h : StkKept gid s x) {g : Group} (hg : s.grp gid = some g) :
    ∃ y, x.grp gid = some y ∧ y = { g with stk := y.stk } := by
  obtain ⟨f, grp, same⟩ := h.grp
  exact ⟨f g, by rw [grp, hg]; rfl, same g⟩

/-- LD and LDU where every lane reads (R130, R131). -/
theorem Ready.loads {i : Instr} {d a b : Opnd} {m : MemMod} {s : State} {g : Group} {pc : Pc} (h : Ready (info i) (ownKeys (info i)) s g pc)
    (he : exec i s = runWord i s fun w => w.load d a b m) (hx : (g.entered (info i)).exLanes (info i) g.active ≠ []) {R : List (Nat × Reach) × State}
    (hR : (s.entered (info i) g).reachAll (fun s l => s.reach (g.entered (info i)) l m.sp a b (szBytes m.sz) needR kindLoad)
      ((g.entered (info i)).exLanes (info i) g.active) = R) (no_wait : anyWait R.1 = false)
    (no_flight : R.2.overlapsFlight s.focus (szBytes m.sz) R.1 = false) {data : List (Nat × List Byte)} {u : State}
    (reads : R.2.readsOk s.focus (g.entered (info i)) (szBytes m.sz) m.pol R.1 = some (data, u)) :
    ∃ x y, AwaitsIn i s g pc x (data.flatMap (fun q => dstCellsN d (szRegs m.sz) [q.1] (fun j _ => BitVec.ofNat 32 (loadValue m q.2 / 2 ^ (32 * j) % 2 ^ 32))))
        (fun t => s.pkg.clock < t) ∧
      x.grp s.focus = some y ∧ y = { g.entered (info i) with pathUntil := y.pathUntil, pathPc := y.pathPc } ∧
      (∀ a, x.byte a = u.byte a) ∧ (∀ k, k ≠ s.focus → x.grp k = s.grp k) ∧ x.dies = u.dies ∧
      ∀ c, (x.core c).l1 = (u.core c).l1 ∧ (x.core c).sideLog = (u.core c).sideLog := by
  obtain ⟨-, -, -, kvpc, -, -, khelper, -, -⟩ := Group.entered_kept g (info i)
  obtain ⟨x, due, load, kept, later⟩ := W.load_clean (W.begin (info i) s g pc) d a b m h.wet rfl R hR no_wait no_flight data u reads
  have calm : Calm (s.entered (info i) g) u :=
    (hR ▸ State.reachAll_calm (fun s l => State.reach_calm _ _ _ _ _ _ _ _ _) _ _ : Calm (s.entered (info i) g) R.2).trans
      (State.readsOk_calm _ _ _ _ _ _ _ _ reads)
  obtain ⟨y, here, same⟩ := kept.group ((calm.grp s.focus).trans (State.entered_grp s (info i) g))
  have clk : s.pkg.clock < due := by
    have := congrArg Pkg.clock calm.pkg
    exact lt_of_eq_of_lt this.symm later
  simp only [bitsOf_eq] at load
  refine ⟨x, y, h.awaitsIn he hx x _ due true load here ?_ _ clk, here, same, State.byte_eq kept.mem, fun k other => ?_, kept.dies, kept.cores⟩
  · rw [same]
    exact ⟨kvpc, khelper⟩
  · exact (kept.others k other).trans ((calm.grp k).trans (State.grp_setGrp_ne s _ other))

/-- ST and STU where every lane stores (R130, R131, R169). -/
theorem Ready.stores {i : Instr} {d a b : Opnd} {m : MemMod} {s : State} {g : Group} {pc : Pc} (h : Ready (info i) (ownKeys (info i)) s g pc)
    (he : exec i s = runWord i s fun w => w.store d a b m) {R : List (Nat × Reach) × State}
    (hR : (s.entered (info i) g).reachAll (fun s l => s.reach (g.entered (info i)) l m.sp a b (szBytes m.sz) needW kindStore)
      ((W.begin (info i) s g pc).storeLanes m.sp) = R) (no_wait : anyWait R.1 = false) {log : LineLog}
    (hlog : { W.begin (info i) s g pc with s := R.2 }.storeLog ((g.entered (info i)).storeData m.sz d) R.1 = log)
    (room : log.length ≤ R.2.logFree (g.entered (info i)).core)
    (no_flight : R.2.overlapsFlight s.focus (szBytes m.sz) R.1 = false) {u : State}
    (stores : State.storesOk s.focus (g.entered (info i)) (szBytes m.sz) m.pol s ((g.entered (info i)).storeData m.sz d) R.2 R.1 = some u) :
    ∃ x y z, Performs i s g pc x [] ∧ (u.logLines s.focus (g.entered (info i)) log).grp s.focus = some z ∧ x.grp s.focus = some y ∧
      y = { z with pathUntil := y.pathUntil, pathPc := y.pathPc } ∧ z = { g.entered (info i) with stk := z.stk } ∧
      (∀ a, x.byte a = (u.logLines s.focus (g.entered (info i)) log).byte a) ∧ (∀ k, k ≠ s.focus → x.grp k = s.grp k) ∧
      x.dies = (u.logLines s.focus (g.entered (info i)) log).dies ∧ x.reqs = (u.logLines s.focus (g.entered (info i)) log).reqs ∧
      ∀ c, (x.core c).l1 = ((u.logLines s.focus (g.entered (info i)) log).core c).l1 ∧
        (x.core c).sideLog = ((u.logLines s.focus (g.entered (info i)) log).core c).sideLog := by
  obtain ⟨-, -, -, kvpc, -, -, khelper, -, -⟩ := Group.entered_kept g (info i)
  obtain ⟨x, store, kept, stack⟩ := W.store_clean (W.begin (info i) s g pc) d a b m h.wet R hR no_wait (by rw [← hlog] at room; exact room) no_flight u stores
  have path : PathKept s.focus (u.logLines s.focus (g.entered (info i)) log) x := by
    rw [← hlog]
    exact kept
  have calm : Calm (s.entered (info i) g) R.2 := hR ▸ State.reachAll_calm (fun s l => State.reach_calm _ _ _ _ _ _ _ _ _) _ _
  have stored : StkKept s.focus (s.entered (info i) g) (u.logLines s.focus (g.entered (info i)) log) :=
    ((StkKept.ofCalm s.focus calm).trans stack).trans (StkKept.ofCalm s.focus (State.logLines_calm u s.focus _ log))
  obtain ⟨z, hz, same_z⟩ := stored.group (State.entered_grp s (info i) g)
  obtain ⟨y, hy, same_y⟩ := path.group hz
  have steady : y.vpc = g.vpc ∧ y.helper = g.helper := by
    rw [same_y, same_z]
    exact ⟨kvpc, khelper⟩
  exact ⟨x, y, z, h.effects he x [] store hy steady, hz, hy, same_y, same_z, State.byte_eq path.mem,
    fun k other => (path.others k other).trans ((stored.others k other).trans (State.grp_setGrp_ne s _ other)), path.dies, path.reqs, path.cores⟩

end Sys2Proof.Machine

open Sys2Proof Sys2Proof.Machine Sys2Proof.Laws

/-- Settles O15. -/
theorem loadWords : Obligations.LoadWords := by
  intro h d a b m s g pc n loads
  exact ⟨fun hr hx no_wait no_flight data u reads => hr.loads rfl hx rfl no_wait no_flight reads,
    fun hr hx no_wait no_flight data u reads => hr.loads rfl hx rfl no_wait no_flight reads⟩

/-- Settles O16. -/
theorem storeWords : Obligations.StoreWords := by
  intro h d a b m s g pc n stores
  exact ⟨fun hr no_wait room no_flight u stored => hr.stores rfl rfl no_wait rfl room no_flight stored,
    fun hr no_wait room no_flight u stored => hr.stores rfl rfl no_wait rfl room no_flight stored⟩
end

section
/-! PROOFS of FENCE and FENCEX (R191, R192). -/

namespace Sys2Proof.Machine

/-- A fence begun changes its group's fences only. -/
theorem Steady.addFence (gid : Nat) (s : State) (pc : Pc) (f : FenceRec) : Steady gid s (s.addFence gid pc f) :=
  Steady.trans (t := { s with serial := s.serial + 1 }) (Steady.ofGroups _ rfl) (Steady.modGrp _ _ _ _ (fun _ => ⟨rfl, rfl⟩))

theorem State.writeBackL1_calm (s : State) (core : Nat) : Calm s (s.writeBackL1 core) :=
  Calm.fold (fun s l => State.writeBackLine_calm s core l) _ s

/-- A word whose body begins a fence in the state `x`. -/
theorem Ready.beginsFence {i : Instr} {s : State} {g : Group} {pc : Pc} {body : W → W} (h : Ready (info i) (ownKeys (info i)) s g pc)
    (he : exec i s = runWord i s body) {x : State} {f : FenceRec}
    (hb : body (W.begin (info i) s g pc) = { W.begin (info i) s g pc with s := x.addFence s.focus pc f }) (calm : Calm (s.entered (info i) g) x) :
    Performs i s g pc (x.addFence s.focus pc f) [] :=
  h.does he _ hb ((Steady.ofCalm _ calm).trans (Steady.addFence _ _ _ _))

end Sys2Proof.Machine

open Sys2Proof Sys2Proof.Machine Sys2Proof.Laws

/-- Settles O18. -/
theorem fenceWords : Obligations.FenceWords := by
  intro h ord scope mode s g pc E X ready S begins
  refine ⟨fun hr busy => ?_, fun hr idle => ?_, fun hr busy user => ?_, fun hr idle => ?_⟩
  · have begun := hr.beginsFence rfl (f := FenceRec.ofOrd ord scope) (if_neg (by rw [W.begin_ex busy, hr.wet]; decide)) (Calm.refl _)
    cases ord <;> exact begun
  · exact hr.nothing rfl (if_pos (Bool.or_eq_true_iff.2 (.inl (List.isEmpty_iff.2 idle))))
  · have go : ¬ ((W.begin (info (.fencex h mode)) s g pc).ex.isEmpty || (W.begin (info (.fencex h mode)) s g pc).dry ||
        (W.begin (info (.fencex h mode)) s g pc).g.isSup) = true := by
      rw [W.begin_ex busy, hr.wet]
      show ¬ (E (.fencex h mode)).isSup = true
      rw [user]
      decide
    cases mode with
    | out => exact hr.beginsFence rfl (if_neg go) (State.writeBackL1_calm _ _)
    | inn => exact hr.beginsFence rfl (if_neg go) (Calm.refl _)
    | io => exact hr.beginsFence rfl (if_neg go) (State.writeBackL1_calm _ _)
  · refine hr.nothing rfl (if_pos ?_)
    rcases idle with none_ | sup
    · have : (W.begin (info (.fencex h mode)) s g pc).ex.isEmpty = true := List.isEmpty_iff.2 none_
      rw [this]
      rfl
    · have : (W.begin (info (.fencex h mode)) s g pc).g.isSup = true := sup
      rw [this, Bool.or_true]
end

section
/-! PROOFS of the barrier words and of a barrier's phase (R208–R213). -/

namespace Sys2Proof.Machine

/-- The change of a group by the completion of a barrier's phase (R212). -/
def Group.barrierWoken (clk : Nat) (cluster : Bool) (n : Nat) (tids : List Nat) (g : Group) : Group :=
  match g.wait with
  | .barrier k m _ => if k = cluster && decide (m = n) && tids.contains g.tid && g.wakeAt.isNone then
      { g with wakeAt := some (clk + (if cluster then 12 else 2)) } else g
  | _ => g

theorem State.wakeBarrier_eq (s : State) (cluster : Bool) (n : Nat) (tids : List Nat) :
    s.wakeBarrier cluster n tids = { s with groups := kmap s.groups (fun _ g => g.barrierWoken s.pkg.clock cluster n tids) } := rfl

theorem State.grp_wakeBarrier (s : State) (cluster : Bool) (n : Nat) (tids : List Nat) (k : Nat) :
    (s.wakeBarrier cluster n tids).grp k = (s.grp k).map (Group.barrierWoken s.pkg.clock cluster n tids) := by
  rw [State.wakeBarrier_eq]
  exact kget_kmap s.groups (fun _ g => g.barrierWoken s.pkg.clock cluster n tids) k

theorem Group.barrierWoken_kept (clk : Nat) (cluster : Bool) (n : Nat) (tids : List Nat) (g : Group) :
    g.barrierWoken clk cluster n tids = { g with wakeAt := (g.barrierWoken clk cluster n tids).wakeAt } := by
  unfold Group.barrierWoken
  split
  · split <;> rfl
  · rfl

theorem Steady.wakeBarrier (gid : Nat) (s : State) (cluster : Bool) (n : Nat) (tids : List Nat) : Steady gid s (s.wakeBarrier cluster n tids) := by
  intro y hy
  refine ⟨y.barrierWoken s.pkg.clock cluster n tids, by rw [State.grp_wakeBarrier, hy]; rfl, ?_⟩
  rw [Group.barrierWoken_kept]
  exact ⟨rfl, rfl⟩

theorem State.putBar_groups (s : State) (g : Group) (cluster : Bool) (n : Nat) (b : Barrier) : (s.putBar g cluster n b).groups = s.groups := by
  unfold State.putBar
  split <;> rfl

theorem Steady.arriveBar (gid : Nat) (s : State) (g : Group) (cluster : Bool) (n : Nat) (b : Barrier) (p : Nat) : Steady gid s (s.arriveBar g cluster n b p) := by
  have put := Steady.ofGroups gid (s.putBar_groups g cluster n (b.arrive p).1)
  unfold State.arriveBar
  simp only
  split
  · exact put.trans (Steady.wakeBarrier _ _ _ _ _)
  · exact put

theorem Steady.arrivalDone (gid : Nat) (s : State) (k core : Nat) (pc : Pc) (cluster : Bool) : Steady gid s (s.arrivalDone k core pc cluster) := by
  unfold State.arrivalDone
  split
  · exact (Steady.ofCalm gid (State.writeBackL1_calm s core)).trans (Steady.modGrp _ _ _ _ (fun _ => ⟨rfl, rfl⟩))
  · exact Steady.refl _ _

theorem Steady.dropTeamBar (gid : Nat) (s : State) (tid index n : Nat) : Steady gid s (s.dropTeamBar tid index n) := by
  unfold State.dropTeamBar
  split
  · exact Steady.refl _ _
  · split
    · exact Steady.refl _ _
    · simp only
      split
      · exact (Steady.ofGroups gid (x := s.setBar tid n _) rfl).trans (Steady.wakeBarrier _ _ _ _ _)
      · exact Steady.ofGroups gid rfl

theorem Steady.dropClusterBar (gid : Nat) (s : State) (tid index n : Nat) : Steady gid s (s.dropClusterBar tid index n) := by
  unfold State.dropClusterBar
  split
  · exact Steady.refl _ _
  · split
    · exact Steady.refl _ _
    · split
      · exact Steady.refl _ _
      · simp only
        split
        · exact Steady.refl _ _
        · split
          · exact (Steady.ofGroups gid (x := s.modLCl _ _) rfl).trans (Steady.wakeBarrier _ _ _ _ _)
          · exact Steady.ofGroups gid rfl

/-- A word that executes somewhere and takes part in its barrier. -/
structure W.Joins (w : W) (cluster : Bool) (n : Nat) (b : Barrier) (p : Nat) : Prop where
  busy : w.ex.isEmpty = false
  wet : ¬ w.dry = true
  takes : w.s.barOf w.g cluster n = some (b, p)

theorem W.wait_wet {w : W} (wet : ¬ w.dry = true) (x : Wait) :
    w.wait x = w.mod (fun g => { g with wait := x, waitPc := w.pc, waitMask := w.act, wakeAt := none, touches := [] }) := if_neg wet

theorem W.barArrive_joins {w : W} {cluster : Bool} {n : Nat} {b : Barrier} {p : Nat} (h : w.Joins cluster n b p) (d : Opnd) (new : b.marked p = false)
    (free : w.s.arrivalFree w.gid w.g w.pc cluster = true) : w.barArrive cluster d n =
      ({ w with s := (w.s.arrivalDone w.gid w.g.core w.pc cluster).arriveBar w.g cluster n b p } : W).var (dstCells d 0 w.ex (fun _ => bword b.parity)) (w.clk + 2) false := by
  unfold W.barArrive
  simp only [h.busy, h.wet, h.takes, new, free, Bool.false_eq_true, if_false, Bool.not_true]

theorem W.barSync_joins {w : W} {cluster : Bool} {n : Nat} {b : Barrier} {p : Nat} (h : w.Joins cluster n b p) (new : b.marked p = false)
    (free : w.s.arrivalFree w.gid w.g w.pc cluster = true) : w.barSync cluster n =
      { w with s := ((w.s.arrivalDone w.gid w.g.core w.pc cluster).modGrp w.gid (fun g => { g with
          wait := .barrier cluster n b.parity, waitPc := w.pc, waitMask := w.act, wakeAt := none, touches := [] })).arriveBar w.g cluster n b p } := by
  unfold W.barSync
  simp only [h.busy, h.takes, h.wet, new, free, Bool.false_eq_true, if_false, Bool.not_true]
  rfl

theorem W.barWait_joins {w : W} {cluster : Bool} {n : Nat} {b : Barrier} {p : Nat} (h : w.Joins cluster n b p) (a : Opnd) : w.barWait cluster n a =
    if (w.g.rd 0 a).getLsbD 0 ≠ b.parity then w.barAcquire cluster else if b.marked p then w.wait (.barrier cluster n b.parity) else w.misuse := by
  unfold W.barWait
  simp only [h.busy, h.wet, h.takes, Bool.false_eq_true, if_false, Bool.or_false]

theorem W.barAcquire_wet {w : W} (wet : ¬ w.dry = true) (cluster : Bool) :
    w.barAcquire cluster = { w with s := if cluster then w.s.acquireNow w.g 3 else w.s } := by
  cases cluster with
  | true => exact if_pos (by rw [Bool.eq_false_iff.2 wet]; rfl)
  | false => exact if_neg (by simp)

theorem W.barDrop_joins {w : W} {cluster : Bool} {n : Nat} {b : Barrier} {p : Nat} (h : w.Joins cluster n b p) (new : b.dropped.contains p = false) :
    w.barDrop cluster n = { w with s := if cluster then w.s.dropClusterBar w.g.tid w.g.index n else w.s.dropTeamBar w.g.tid w.g.index n } := by
  unfold W.barDrop
  simp only [h.busy, h.takes, h.wet, new, Bool.false_eq_true, if_false]

/-- Arrive (R209). -/
theorem Barrier.arrive_eq (b : Barrier) (p : Nat) : b.arrive p = if b.c - 1 = 0 ∧ 0 < b.e then ({ b with parity := !b.parity, c := b.e, arrived := [] }, b.parity, true)
    else ({ b with arrived := b.arrived ++ [p], c := b.c - 1 }, b.parity, false) := by
  unfold Barrier.arrive Barrier.complete
  simp only [Bool.and_eq_true, decide_eq_true_eq]

/-- Drop (R209). -/
theorem Barrier.drop_eq (b : Barrier) (p : Nat) : b.drop p = if (if p ∈ b.arrived then b.c else b.c - 1) = 0 ∧ 0 < b.e - 1
    then ({ b with dropped := b.dropped ++ [p], e := b.e - 1, parity := !b.parity, c := b.e - 1, arrived := [] }, true)
    else ({ b with dropped := b.dropped ++ [p], e := b.e - 1, c := if p ∈ b.arrived then b.c else b.c - 1 }, false) := by
  unfold Barrier.drop Barrier.complete
  simp only [Bool.and_eq_true, decide_eq_true_eq, List.contains_iff_mem]

/-- What a group's barriers are does not depend on the groups (R208). -/
theorem State.barOf_congr {s t : State} (teams : t.teams = s.teams) (clusters : t.lclusters = s.lclusters) (g : Group) (cluster : Bool) (n : Nat) :
    t.barOf g cluster n = s.barOf g cluster n := by
  unfold State.barOf State.teamD
  rw [teams, clusters]

/-- A barrier changed holds its new value (R208). -/
theorem State.barOf_putBar {s : State} {g : Group} {cluster : Bool} {n : Nat} {b : Barrier} {p : Nat} (h : s.barOf g cluster n = some (b, p)) (new : Barrier) :
    (s.putBar g cluster n new).barOf g cluster n = some (new, p) := by
  cases cluster with
  | true =>
    obtain ⟨old, found, number⟩ := Option.map_eq_some_iff.1 (show Option.map _ _ = _ from h)
    obtain ⟨k, cluster, -⟩ := Option.bind_eq_some_iff.1 found
    obtain ⟨-, rfl⟩ := Prod.mk.inj number
    show Option.map (fun b => (b, clusterPart (s.teamD g.tid).rank g.index)) ((kget (kmod s.lclusters (s.teamD g.tid).cluster
      (fun k => { k with bars := kset k.bars n new })) (s.teamD g.tid).cluster).bind (fun k => kget k.bars n)) = _
    rw [kget_kmod, if_pos rfl, cluster]
    simp
  | false =>
    obtain ⟨old, found, number⟩ := Option.map_eq_some_iff.1 (show Option.map _ _ = _ from h)
    obtain ⟨-, rfl⟩ := Prod.mk.inj number
    cases team : kget s.teams g.tid with
    | none =>
      unfold State.teamD at found
      rw [team] at found
      cases found
    | some x =>
      show Option.map (fun b => (b, g.index)) (kget ((kget (kmod s.teams g.tid (fun t => { t with bars := kset t.bars n new })) g.tid).getD Team.blank).bars n) = _
      rw [kget_kmod, if_pos rfl, team]
      simp

theorem State.putBar_mem (s : State) (g : Group) (cluster : Bool) (n : Nat) (b : Barrier) : (s.putBar g cluster n b).mem = s.mem ∧ (s.putBar g cluster n b).pkg = s.pkg := by
  unfold State.putBar
  split <;> exact ⟨rfl, rfl⟩

/-- The wake of a group by the completion of a barrier's phase (R212). -/
theorem Group.barrierWoken_wakeAt (clk : Nat) (cluster : Bool) (n : Nat) (tids : List Nat) (g : Group) :
    (g.barrierWoken clk cluster n tids).wakeAt = if (∃ par, g.wait = .barrier cluster n par) ∧ g.tid ∈ tids ∧ g.wakeAt = none
      then some (clk + (if cluster then 12 else 2)) else g.wakeAt := by
  unfold Group.barrierWoken
  split
  · rename_i k m par waits
    simp only [waits, Wait.barrier.injEq, Bool.and_eq_true, decide_eq_true_eq, List.contains_iff_mem, Option.isNone_iff_eq_none, exists_and_left,
      exists_eq', and_true, and_assoc]
    split <;> rfl
  · rename_i other
    rw [if_neg]
    rintro ⟨⟨par, waits⟩, -⟩
    exact other _ _ _ waits

end Sys2Proof.Machine

open Sys2Proof Sys2Proof.Machine Sys2Proof.Laws

/-- Settles O19: each word's body, for a group that takes part, is one change of the state. -/
theorem barrierWords : Obligations.BarrierWords := by
  intro h d a n k cls s g pc b p E S X joins free done waiting arrives passes syncs idle
  have joined : ∀ i c m, joins i c m → (W.begin (info i) s g pc).Joins c m b p := fun i c m ⟨hr, busy, takes⟩ => ⟨W.begin_ex busy, Bool.eq_false_iff.1 hr.wet, takes⟩
  have arrive : ∀ i c m, exec i s = runWord i s (fun w => w.barArrive c d m) → arrives i c m := by
    intro i c m he hj ⟨new, free⟩
    exact hj.1.starts he hj.2.1 _ _ _ false (W.barArrive_joins (joined i c m hj) d new free)
      ((Steady.arrivalDone _ _ _ _ _ _).trans (Steady.arriveBar _ _ _ _ _ _ _)) _ rfl
  have pass : ∀ i c m, exec i s = runWord i s (fun w => w.barWait c m a) → passes i c m := by
    intro i c m he hj
    refine ⟨fun passed => ?_, fun current marked => ?_⟩
    · refine hj.1.does he _ ((W.barWait_joins (joined i c m hj) a).trans ((if_pos passed).trans (W.barAcquire_wet (joined i c m hj).wet c))) ?_
      cases c with
      | true => exact Steady.acquireNow _ _ _ _
      | false => exact Steady.refl _ _
    · exact hj.1.does he _ ((W.barWait_joins (joined i c m hj) a).trans ((if_neg (not_not_intro current)).trans ((if_pos marked).trans (W.wait_wet (joined i c m hj).wet _))))
        (Steady.modGrp _ _ _ _ (fun _ => ⟨rfl, rfl⟩))
  have sync : ∀ i c m, exec i s = runWord i s (fun w => w.barSync c m) → syncs i c m := by
    intro i c m he hj ⟨new, free⟩
    exact hj.1.does he _ (W.barSync_joins (joined i c m hj) new free)
      ((Steady.trans (t := done i c) (Steady.arrivalDone _ _ _ _ _ _)
        (Steady.modGrp s.focus s.focus (done i c) (fun y => { y with wait := .barrier c m b.parity, waitPc := pc, waitMask := g.active, wakeAt := none, touches := [] })
          (fun _ => ⟨rfl, rfl⟩))).trans (Steady.arriveBar _ _ _ _ _ _ _))
  have rest : ∀ i (body : W → W), exec i s = runWord i s body → (∀ w : W, w.ex.isEmpty = true → body w = w) → idle i :=
    fun i body he skip hr none_ => hr.nothing he (skip _ (List.isEmpty_iff.2 none_))
  refine ⟨arrive _ _ _ rfl, arrive _ _ _ rfl, pass _ _ _ rfl, pass _ _ _ rfl, sync _ _ _ rfl, sync _ _ _ rfl, fun hj new => ?_,
    rest _ _ rfl fun w none_ => if_pos none_, rest _ _ rfl fun w none_ => if_pos (by rw [none_]; rfl), rest _ _ rfl fun w none_ => if_pos none_,
    rest _ _ rfl fun w none_ => if_pos none_, rest _ _ rfl fun w none_ => if_pos (by rw [none_]; rfl), rest _ _ rfl fun w none_ => if_pos none_,
    rest _ _ rfl fun w none_ => if_pos none_⟩
  have body := W.barDrop_joins (joined _ _ _ hj) new
  cases cls with
  | cluster => exact hj.1.does rfl _ body (Steady.dropClusterBar _ _ _ _ _)
  | team => exact hj.1.does rfl _ body (Steady.dropTeamBar _ _ _ _ _)

/-- Settles O20. -/
theorem barrierPhases : Obligations.BarrierPhases := by
  refine ⟨Barrier.arrive_eq, fun b p => b.drop_eq p, fun s g cl n p b here => ?_, fun s gid n t cl par g on hg waits woken => ?_⟩
  · obtain ⟨mem, pkg⟩ := s.putBar_mem g cl n (b.arrive p).1
    have groups := s.putBar_groups g cl n (b.arrive p).1
    have put := State.barOf_putBar here (b.arrive p).1
    unfold State.arriveBar
    cases completes : (b.arrive p).2.2 with
    | false =>
      refine ⟨put, State.byte_eq mem, fun k y hy => ⟨y, ?_, rfl, ?_⟩⟩
      · exact (congrArg (fun m => kget m k) groups).trans hy
      · simp
    | true =>
      refine ⟨(State.barOf_congr rfl rfl g cl n).trans put, State.byte_eq mem, fun k y hy => ⟨y.barrierWoken s.pkg.clock cl n (s.barTeams g cl), ?_, ?_, ?_⟩⟩
      · rw [if_pos rfl, State.grp_wakeBarrier, pkg]
        exact congrArg (Option.map _) ((congrArg (fun m => kget m k) groups).trans hy)
      · exact Group.barrierWoken_kept _ _ _ _ _
      · rw [Group.barrierWoken_wakeAt]
        simp
  · refine (if_pos on).trans (congrArg Host.Outcome.next ?_)
    simp only [hg, waits, woken]
end

section
/-! PROOFS of the watch words and of the ends of a watch (R214–R220). -/

namespace Sys2Proof.Machine

theorem State.xlateCtx_calm (s : State) (ctx : Nat) (p : DWord) (n : Need) : Calm s (s.xlateCtx ctx p n).2 ∧ (s.xlateCtx ctx p n).2.mem = s.mem := by
  unfold State.xlateCtx
  simp only
  split
  · exact ⟨Calm.refl s, rfl⟩
  · split
    · split
      · exact ⟨State.touchDies_calm s ctx _, State.touchDies_mem s ctx _⟩
      · exact ⟨Calm.refl s, rfl⟩
    · exact ⟨Calm.refl s, rfl⟩

/-- Finding a home changes neither groups nor memory (R159). -/
theorem State.homeOf_calm (s : State) (ctx : Nat) (p : DWord) (n : Need) : Calm s (s.homeOf ctx p n).2 ∧ (s.homeOf ctx p n).2.mem = s.mem := by
  obtain ⟨calm, mem⟩ := s.xlateCtx_calm ctx p n
  unfold State.homeOf
  split
  · rename_i found
    rw [found] at calm mem
    split <;> exact ⟨calm, mem⟩
  · rename_i found
    rw [found] at calm mem
    exact ⟨calm, mem⟩

theorem State.wakeRecord_calm (s : State) (ctx : Nat) (p : DWord) (status : Nat) (x : DWord) : Calm s (s.wakeRecord ctx p status x) := by
  obtain ⟨calm, -⟩ := s.homeOf_calm ctx p needW
  unfold State.wakeRecord
  split
  · rename_i found
    rw [found] at calm
    exact calm.trans (State.homePut_calm _ _ _)
  · rename_i found
    rw [found] at calm
    exact calm

/-- What a watch word finds leaves all but the counter behind the free values. -/
theorem State.watchFind_kept (s : State) (ctx : Nat) (m : WatchMod) (e flat : Nat) (v : DWord × DWord) (zero : Bool) :
    ∃ n, (s.watchFind ctx m e flat v zero).2 = { s with free := n } := by
  unfold State.watchFind
  split
  · exact ⟨_, rfl⟩
  · simp only
    generalize BitVec.ofNat 64 (s.num flat (if m.w64 then 8 else 4)) = x
    split
    · exact ⟨_, rfl⟩
    · split
      · exact ⟨_, rfl⟩
      · split <;> exact ⟨_, rfl⟩

theorem State.die_modDie_eq (s : State) (d : Nat) (f : Die → Die) (k : Nat) : (s.modDie d f).die k = if k = d then f (s.die d) else s.die k := by
  unfold State.modDie State.die
  rw [kget_kset]
  split <;> rfl

theorem State.die_modDie (s : State) (d : Nat) (f : Die → Die) : (s.modDie d f).die d = f (s.die d) := by
  unfold State.modDie State.die
  rw [kget_kset_self]
  rfl

/-- A timeout ends within the microsecond after it (R218). -/
def WatchEnds (p : Pkg) (us til : Option Nat) : Prop :=
  match us with
  | none => til = none
  | some k => ∃ j, til = some j ∧ p.clock + k * max 1 p.freq < j ∧ j ≤ p.clock + (k + 1) * max 1 p.freq

theorem State.watchTil_ends (s : State) (us : Option Nat) : WatchEnds s.pkg us (s.watchTil us).1 := by
  cases us with
  | none => rfl
  | some k =>
    have pick : Config.freeChoice s.free % max 1 s.pkg.freq < max 1 s.pkg.freq := Nat.mod_lt _ (by omega)
    refine ⟨_, rfl, ?_, ?_⟩
    · show _ < s.pkg.clock + k * max 1 s.pkg.freq + 1 + Config.freeChoice s.free % max 1 s.pkg.freq
      omega
    · show s.pkg.clock + k * max 1 s.pkg.freq + 1 + Config.freeChoice s.free % max 1 s.pkg.freq ≤ _
      rw [Nat.succ_mul]
      omega

theorem State.watchTil_kept (s : State) (us : Option Nat) : ∃ n, (s.watchTil us).2 = { s with free := n } := by
  cases us <;> exact ⟨_, rfl⟩

/-- WATCH and WATCHT where nothing keeps the word back (R217, R218). -/
theorem W.watch_found {w : W} {d a b : Opnd} {m : WatchMod} {us : Option Nat} {u : State} {p : DWord} {e z flat : Nat} (busy : w.ex.isEmpty = false)
    (wet : ¬ w.dry = true)
    (reach : w.s.reachG w.g.who 0 (w.g.rd64 0 a) (if m.w64 then 8 else 4) true true needR kindLoad = (.glob p e z flat, u))
    (free : u.watchHeld w.gid w.g p (if m.w64 then 8 else 4) (.glob p e z flat) = none)
    (good : (u.recallLine w.g.core p flat).bad flat (if m.w64 then 8 else 4) = false) : w.watch d a b m us =
      W.watchAnswer { w with s := ((u.recallLine w.g.core p flat).watchFind w.g.ctx m e flat (w.g.watchOps m b) (decide (us = some 0))).2 } d m us p flat
        (w.g.watchOps m b) ((u.recallLine w.g.core p flat).watchFind w.g.ctx m e flat (w.g.watchOps m b) (decide (us = some 0))).1 := by
  unfold W.watch
  rw [if_neg (Bool.eq_false_iff.1 busy)]
  simp only [reach]
  rw [if_neg wet, free]
  simp only
  rw [if_neg (Bool.eq_false_iff.1 good)]

/-- WATCHH where nothing keeps the word back (R218, R220). -/
theorem W.watchRecord_found {w : W} {d a b c : Opnd} {m : WatchMod} {u u2 : State} {p p2 : DWord} {e z flat e2 z2 f2 : Nat} (busy : w.ex.isEmpty = false)
    (wet : ¬ w.dry = true)
    (reach : w.s.reachG w.g.who 0 (w.g.rd64 0 a) (if m.w64 then 8 else 4) true true needR kindLoad = (.glob p e z flat, u))
    (record : u.reachG w.g.who 0 (pair64 (w.g.rdj 0 0 c) (w.g.rdj 0 1 c)) 16 true true needW kindStore = (.glob p2 e2 z2 f2, u2))
    (free : u2.watchHeld w.gid w.g p (if m.w64 then 8 else 4) (.glob p e z flat) = none)
    (good : (u2.recallLine w.g.core p flat).bad flat (if m.w64 then 8 else 4) = false) : w.watchRecord d a b c m =
      W.watchhAnswer { w with s := ((u2.recallLine w.g.core p flat).watchFind w.g.ctx m e flat (w.g.watchOps m b) false).2 } d m
        (pair64 (w.g.rdj 0 0 c) (w.g.rdj 0 1 c)) (w.g.rdj 0 2 c).toNat p flat (w.g.watchOps m b)
        ((u2.recallLine w.g.core p flat).watchFind w.g.ctx m e flat (w.g.watchOps m b) false).1 := by
  unfold W.watchRecord
  rw [if_neg (Bool.eq_false_iff.1 busy)]
  simp only [reach, record]
  rw [if_neg wet, free]
  simp only
  rw [if_neg (Bool.eq_false_iff.1 good)]

/-- What the home's answer finds unchanged: the groups, the package and the teams. -/
theorem State.watchFind_calm (s : State) (ctx : Nat) (m : WatchMod) (e flat : Nat) (v : DWord × DWord) (zero : Bool) : Calm s (s.watchFind ctx m e flat v zero).2 := by
  obtain ⟨n, same⟩ := s.watchFind_kept ctx m e flat v zero
  rw [same]
  exact ⟨rfl, rfl, rfl, rfl, rfl, rfl⟩

/-- An entry armed changes its section only. -/
theorem State.watchArm_kept (s : State) (sect idx : Nat) (w : Watch) : Calm s (s.watchArm sect idx w) ∧ (s.watchArm sect idx w).mem = s.mem ∧
    kget ((s.watchArm sect idx w).die sect).watches idx = some { w with order := s.serial } := by
  refine ⟨⟨rfl, rfl, rfl, rfl, rfl, rfl⟩, rfl, ?_⟩
  unfold State.watchArm
  simp only [State.fresh]
  rw [State.die_modDie]
  exact kget_kset_self _ _ _

/-- A watch word's wait (R217, R218): the scoreboard entry that its end completes, and the group waiting. -/
theorem W.pendWait_kept {w : W} (busy : w.ex ≠ []) (wet : w.dry = false) {y : Group} (here : w.s.grp w.gid = some y) (x : Wait) :
    ∃ z q, (w.pend [] none true).2.wait x = { w with s := z } ∧ q.pc = w.pc ∧ q.regs = dstRegs w.f ∧ q.cells = [] ∧ q.due = none ∧
      z.grp w.gid = some { y with pends := y.pends ++ [q], wait := x, waitPc := w.pc, waitMask := w.act, wakeAt := none, touches := [] } ∧
      (∀ j, j ≠ w.gid → z.grp j = w.s.grp j) ∧ z.dies = w.s.dies ∧ z.mem = w.s.mem ∧ Steady w.gid w.s z := by
  rw [W.pend_eq w [] none true busy wet]
  refine ⟨_, Pend.mk w.s.serial w.pc w.f.op (dstRegs w.f) [] none (if true && y.inRegion then some 0 else none) ((dstRegs w.f).headD 0),
    if_neg (Bool.eq_false_iff.1 wet), rfl, rfl, rfl, rfl, ?_, fun j other => ?_, rfl, rfl, ?_⟩
  · have start : State.grp { w.s with serial := w.s.serial + 1 } w.gid = some y := here
    refine (State.grp_modGrp_self _ _ _).trans ?_
    rw [State.grp_modGrp_self, start]
    rfl
  · exact (State.grp_modGrp_ne _ _ other).trans (State.grp_modGrp_ne _ _ other)
  · refine Steady.trans (Steady.trans (t := { w.s with serial := w.s.serial + 1 }) (Steady.ofGroups _ rfl) ?_) (Steady.modGrp _ _ _ _ (fun _ => ⟨rfl, rfl⟩))
    exact Steady.modGrp _ _ _ _ (fun _ => ⟨rfl, rfl⟩)

/-- WATCH and WATCHT armed (R218). -/
theorem W.watchAnswer_arm {w : W} (busy : w.ex ≠ []) (wet : w.dry = false) {y : Group} (here : w.s.grp w.gid = some y) (d : Opnd) (m : WatchMod)
    (us : Option Nat) (p : DWord) (flat : Nat) (v : DWord × DWord) (sect k : Nat) :
    ∃ z q id til, w.watchAnswer d m us p flat v (.arm sect k) = { w with s := z } ∧ q.pc = w.pc ∧ q.regs = dstRegs w.f ∧ q.cells = [] ∧ q.due = none ∧
      z.grp w.gid = some { y with pends := y.pends ++ [q], wait := .watch sect k, waitPc := w.pc, waitMask := w.act, wakeAt := none, touches := [] } ∧
      kget (z.die sect).watches k = some ⟨w.g.ctx, p, flat, m, v.1, v.2, .group w.gid, til, id, none, w.s.originOf w.gid⟩ ∧
      WatchEnds w.s.pkg us til ∧ z.mem = w.s.mem ∧ (∀ j, j ≠ w.gid → z.grp j = w.s.grp j) ∧ Steady w.gid w.s z := by
  obtain ⟨f, til⟩ := w.s.watchTil_kept us
  let entry : Watch := ⟨w.g.ctx, p, flat, m, v.1, v.2, .group w.gid, (w.s.watchTil us).1, 0, none, w.s.originOf w.gid⟩
  have start : Calm w.s (w.s.watchTil us).2 ∧ (w.s.watchTil us).2.mem = w.s.mem := by
    rw [til]
    exact ⟨⟨rfl, rfl, rfl, rfl, rfl, rfl⟩, rfl⟩
  obtain ⟨armed, mem, held⟩ := State.watchArm_kept (w.s.watchTil us).2 sect k entry
  have calm := start.1.trans armed
  obtain ⟨z, q, body, q1, q2, q3, q4, grp, others, dies, mem', steady⟩ :=
    W.pendWait_kept (w := { w with s := (w.s.watchTil us).2.watchArm sect k entry }) busy wet ((calm.grp w.gid).trans here) (.watch sect k)
  refine ⟨z, q, (w.s.watchTil us).2.serial, (w.s.watchTil us).1, body, q1, q2, q3, q4, grp, ?_, w.s.watchTil_ends us, mem'.trans (mem.trans start.2), fun j other => (others j other).trans (calm.grp j),
    (Steady.ofCalm _ calm).trans steady⟩
  exact (congrArg (fun m => kget ((kget m sect).getD Die.reset).watches k) dies).trans held

/-- WATCH and WATCHT with their home's answer (R217, R218). -/
theorem Ready.watchAnswers {i : Instr} {s : State} {g : Group} {pc : Pc} {body : W → W} (hr : Ready (info i) (ownKeys (info i)) s g pc)
    (he : exec i s = runWord i s body) (busy : (g.entered (info i)).exLanes (info i) g.active ≠ []) {v : State} {f : Found} {us : Option Nat} {d : Opnd}
    {m : WatchMod} {p : DWord} {flat : Nat} {vm : DWord × DWord}
    (hb : body (W.begin (info i) s g pc) = W.watchAnswer { W.begin (info i) s g pc with s := v } d m us p flat vm f) (calm : Calm (s.entered (info i) g) v) :
    (∀ st x, f = .at_ st x → AwaitsIn i s g pc (v.freeDue.2.acquireNow (g.entered (info i)) 0) (watchCells (opndNum d) m.w64 x st) (fun t => s.pkg.clock < t)) ∧
    (∀ sect k, f = .arm sect k → ∃ x q id til, Performs i s g pc x [] ∧ q.pc = pc ∧ q.regs = dstRegs (info i) ∧ q.cells = [] ∧ q.due = none ∧
      x.grp s.focus = some { g.entered (info i) with
        pends := (g.entered (info i)).pends ++ [q], wait := .watch sect k, waitPc := pc, waitMask := g.active, wakeAt := none, touches := [] } ∧
      kget (x.die sect).watches k = some ⟨(g.entered (info i)).ctx, p, flat, m, vm.1, vm.2, .group s.focus, til, id, none, v.originOf s.focus⟩ ∧
      WatchEnds s.pkg us til ∧ (∀ a, x.byte a = v.byte a) ∧ ∀ j, j ≠ s.focus → x.grp j = s.grp j) := by
  have pkg : v.pkg = s.pkg := calm.pkg
  refine ⟨fun st x found => ?_, fun sect k found => ?_⟩
  · subst found
    refine hr.starts he busy _ _ v.freeDue.1 true hb ?_ _ (lt_of_eq_of_lt (congrArg Pkg.clock pkg).symm v.freeDue_later)
    exact (Steady.ofCalm _ calm).trans (Steady.trans (t := v.freeDue.2) (Steady.ofGroups _ rfl) (Steady.acquireNow _ _ _ _))
  · subst found
    obtain ⟨z, q, id, til, arm, q1, q2, q3, q4, grp, held, ends, mem, others, steady⟩ := W.watchAnswer_arm
      (w := { W.begin (info i) s g pc with s := v }) busy hr.wet ((calm.grp s.focus).trans (State.entered_grp s (info i) g)) d m us p flat vm sect k
    exact ⟨z, q, id, til, hr.does he z (hb.trans arm) ((Steady.ofCalm _ calm).trans steady), q1, q2, q3, q4, grp, held, pkg ▸ ends, State.byte_eq mem,
      fun j other => (others j other).trans ((calm.grp j).trans (State.grp_setGrp_ne s _ other))⟩

/-- WATCHH with its home's answer (R218, R220). -/
theorem Ready.watchhAnswers {i : Instr} {s : State} {g : Group} {pc : Pc} {body : W → W} (hr : Ready (info i) (ownKeys (info i)) s g pc)
    (he : exec i s = runWord i s body) (busy : (g.entered (info i)).exLanes (info i) g.active ≠ []) {v : State} {f : Found} {us : Nat} {d : Opnd}
    {m : WatchMod} {rec_ p : DWord} {flat : Nat} {vm : DWord × DWord}
    (hb : body (W.begin (info i) s g pc) = W.watchhAnswer { W.begin (info i) s g pc with s := v } d m rec_ us p flat vm f)
    (calm : Calm (s.entered (info i) g) v) :
    (∀ st x, f = .at_ st x → AwaitsIn i s g pc (if st = 0 then v.freeDue.2.wakeRecord (g.entered (info i)).ctx rec_ 0 x else v.freeDue.2)
      (dstCells d 0 ((g.entered (info i)).exLanes (info i) g.active) (fun _ => BitVec.ofNat 32 st)) (fun t => s.pkg.clock < t)) ∧
    (∀ sect k, f = .arm sect k → ∃ x id til, AwaitsIn i s g pc x (dstCells d 0 ((g.entered (info i)).exLanes (info i) g.active) (fun _ => 0))
        (fun t => s.pkg.clock < t) ∧
      x.grp s.focus = some (g.entered (info i)) ∧
      kget (x.die sect).watches k = some ⟨(g.entered (info i)).ctx, p, flat, m, vm.1, vm.2, .record rec_, til, id, none, v.originOf s.focus⟩ ∧
      WatchEnds s.pkg (if us = 0 then none else some us) til ∧ (∀ a, x.byte a = v.byte a) ∧ ∀ j, j ≠ s.focus → x.grp j = s.grp j) := by
  have pkg : v.pkg = s.pkg := calm.pkg
  have later : s.pkg.clock < v.freeDue.1 := lt_of_eq_of_lt (congrArg Pkg.clock pkg).symm v.freeDue_later
  have counted : Calm (s.entered (info i) g) v.freeDue.2 := calm.trans ⟨rfl, rfl, rfl, rfl, rfl, rfl⟩
  refine ⟨fun st x found => ?_, fun sect k found => ?_⟩
  · subst found
    refine hr.starts he busy _ _ v.freeDue.1 false hb (Steady.ofCalm _ ?_) _ later
    split
    · exact counted.trans (State.wakeRecord_calm _ _ _ _ _)
    · exact counted
  · subst found
    let til := v.freeDue.2.watchTil (if us = 0 then none else some us)
    let entry : Watch := ⟨(g.entered (info i)).ctx, p, flat, m, vm.1, vm.2, .record rec_, til.1, 0, none, v.originOf s.focus⟩
    obtain ⟨n, set⟩ := v.freeDue.2.watchTil_kept (if us = 0 then none else some us)
    have start : Calm v.freeDue.2 til.2 ∧ til.2.mem = v.mem := by
      unfold til
      rw [set]
      exact ⟨⟨rfl, rfl, rfl, rfl, rfl, rfl⟩, rfl⟩
    obtain ⟨armed, mem, held⟩ := State.watchArm_kept til.2 sect k entry
    have calm' := counted.trans (start.1.trans armed)
    refine ⟨til.2.watchArm sect k entry, til.2.serial, til.1, hr.starts he busy _ _ v.freeDue.1 false hb (Steady.ofCalm _ calm') _ later,
      (calm'.grp s.focus).trans (State.entered_grp s (info i) g), held, ?_, State.byte_eq (mem.trans start.2), fun j other =>
      (calm'.grp j).trans (State.grp_setGrp_ne s _ other)⟩
    exact pkg ▸ v.freeDue.2.watchTil_ends _

/-- What the home of a watch word in memory answers (R218). -/
theorem State.watchFind_home (s : State) (ctx : Nat) (m : WatchMod) (e flat : Nat) (v : DWord × DWord) (zero : Bool) (inside : flat < 2 ^ 52 + 2 ^ 50)
    {x : DWord} (hx : BitVec.ofNat 64 (s.num flat (if m.w64 then 8 else 4)) = x) : (s.watchFind ctx m e flat v zero).1 =
      if watchHolds m x v.1 v.2 then .at_ 0 x else if zero then .at_ 1 x else
        match s.watchSlot (watchDie e) ctx with
        | some k => .arm (watchDie e) k
        | none => .at_ 2 x := by
  unfold State.watchFind
  rw [if_neg (by omega), hx]
  dsimp only
  cases watchHolds m x v.1 v.2 with
  | true => rfl
  | false =>
    cases zero with
    | true => rfl
    | false => cases s.watchSlot (watchDie e) ctx <;> rfl

theorem State.die_then_ (s : State) (l : List Instr) (k : Nat) : (s.then_ l).die k = s.die k := rfl

/-- A change of a die that leaves its watch entries. -/
theorem State.watches_modDie (s : State) (d : Nat) (f : Die → Die) (hf : ∀ x, (f x).watches = x.watches) (k : Nat) :
    ((s.modDie d f).die k).watches = (s.die k).watches := by
  rw [State.die_modDie_eq]
  split
  · subst k
    exact hf _
  · rfl

/-- The acquire actions leave the groups, the memory and the watch entries (R193). -/
theorem State.acquireNow_kept (s : State) (g : Group) (scope : Nat) : Calm s (s.acquireNow g scope) ∧ (s.acquireNow g scope).mem = s.mem ∧
    ∀ k, ((s.acquireNow g scope).die k).watches = (s.die k).watches := by
  have clean : Calm s (s.invalCleanL1 g.core) ∧ (s.invalCleanL1 g.core).mem = s.mem ∧ ∀ k, ((s.invalCleanL1 g.core).die k).watches = (s.die k).watches :=
    ⟨⟨rfl, rfl, rfl, rfl, rfl, rfl⟩, rfl, fun _ => rfl⟩
  unfold State.acquireNow
  split
  · exact ⟨Calm.refl s, rfl, fun _ => rfl⟩
  · split
    · exact clean
    · have l2 : ∀ k, (((s.invalCleanL1 g.core).invalCleanL2 (coreDie g.core) g.ctx).die k).watches = (s.die k).watches :=
        fun k => (State.watches_modDie _ _ _ (by exact fun _ => rfl) k).trans (clean.2.2 k)
      unfold State.acquirePkg State.lazyTrigger
      simp only
      split
      · exact ⟨⟨rfl, rfl, rfl, rfl, rfl, rfl⟩, rfl, fun k => by
          rw [State.die_then_]
          exact (State.watches_modDie _ _ _ (by exact fun _ => rfl) k).trans (l2 k)⟩
      · exact ⟨⟨rfl, rfl, rfl, rfl, rfl, rfl⟩, rfl, l2⟩

/-- The wake record's 16 bytes (R220). -/
theorem wakeBytes (x : DWord) {status : Nat} (h : status ≤ 1) :
    toBytes 16 (2 ^ 127 + field 64 2 status + x.toNat) = toBytes 8 x.toNat ++ [BitVec.ofNat 8 status, 0, 0, 0, 0, 0, 0, 128] := by
  have low : (2 ^ 127 + field 64 2 status + x.toNat) % 2 ^ (8 * 8) = x.toNat := by
    unfold field
    rw [Nat.shiftLeft_eq]
    have := x.isLt
    omega
  have high : (2 ^ 127 + field 64 2 status + x.toNat) / 2 ^ (8 * 8) = 2 ^ 63 + status := by
    unfold field
    rw [Nat.shiftLeft_eq]
    have := x.isLt
    omega
  rw [toBytes_append 8 8, ← toBytes_mod 8 (2 ^ 127 + field 64 2 status + x.toNat), low, high]
  obtain rfl | rfl : status = 0 ∨ status = 1 := by omega
  · rfl
  · rfl

/-- A waiting watch word's scoreboard entry at the end of its wait (R217). -/
def Pend.watchEnd (p : Pend) (w64 : Bool) (x : DWord) (status due : Nat) : Pend :=
  if isWatchPend p then { p with cells := watchCells (if p.regs.isEmpty then none else some p.base) w64 x status, due := some due } else p

/-- The end of a group's entry (R218). -/
theorem State.watchEnd_group {s : State} {sect idx : Nat} {w : Watch} {gid : Nat} {y : Group} (hw : w.waiter = .group gid) (hy : s.grp gid = some y)
    (status : Nat) (x : DWord) : kget ((s.watchEnd sect idx w status x).die sect).watches idx = none ∧
      (∀ a, (s.watchEnd sect idx w status x).byte a = s.byte a) ∧ (∀ k, k ≠ gid → (s.watchEnd sect idx w status x).grp k = s.grp k) ∧
      (s.watchEnd sect idx w status x).grp gid = some { y with
        wait := .none, wakeAt := none, pends := y.pends.map (fun p => p.watchEnd w.m.w64 x status (s.pkg.clock + 1)) } := by
  obtain ⟨calm, mem, watches⟩ := (s.watchFree sect idx).acquireNow_kept y 0
  have free : kget ((s.watchFree sect idx).die sect).watches idx = none := by
    unfold State.watchFree
    rw [State.die_modDie]
    exact kget_kdel_self _ _
  have here : (s.watchFree sect idx).grp gid = some y := hy
  unfold State.watchEnd State.watchWake
  simp only [hw, here]
  refine ⟨?_, State.byte_eq mem, fun k other => (State.grp_modGrp_ne _ _ other).trans (calm.grp k), ?_⟩
  · exact (congrArg (fun m => kget m idx) (watches sect)).trans free
  · refine (State.grp_modGrp_self _ _ _).trans ?_
    unfold State.watchAcquire
    rw [calm.grp gid, here]
    rfl

/-- The end of a record's entry (R220). -/
theorem State.watchEnd_record {s : State} {sect idx : Nat} {w : Watch} {ptr : DWord} (hw : w.waiter = .record ptr) {status : Nat} (hs : status ≤ 1)
    (x : DWord) : s.watchEnd sect idx w status x =
      match ((s.watchFree sect idx).homeOf w.ctx ptr needW).1 with
      | some a => ((s.watchFree sect idx).homeOf w.ctx ptr needW).2.homePut a (toBytes 8 x.toNat ++ [BitVec.ofNat 8 status, 0, 0, 0, 0, 0, 0, 128])
      | none => ((s.watchFree sect idx).homeOf w.ctx ptr needW).2 := by
  unfold State.watchEnd State.wakeRecord
  simp only [hw, wakeBytes x hs]
  rcases (s.watchFree sect idx).homeOf w.ctx ptr needW with ⟨a, t⟩
  cases a <;> rfl

/-- What an evaluation of an armed entry finds (R215): a captured value, or a condition that holds now. -/
def State.watchFound (s : State) (w : Watch) : Option (Nat × DWord) :=
  match w.hit with
  | some x => some (0, x)
  | none => if watchHolds w.m (s.watchWord w) w.value w.mask then some (0, s.watchWord w) else none

theorem State.watchFound_status {s : State} {w : Watch} {st : Nat} {x : DWord} (h : s.watchFound w = some (st, x)) : st = 0 := by
  unfold State.watchFound at h
  split at h
  · cases h
    rfl
  · split at h
    · cases h
      rfl
    · cases h

theorem exec_watchEvaluate {s : State} {sect idx : Nat} {w : Watch} (on : s.pkg.on = true) (held : kget (s.die sect).watches idx = some w) :
    exec (.watchEvaluate sect idx) s = .next ((s.watchFound w).elim s (fun p => s.watchEnd sect idx w p.1 p.2)) := by
  refine (if_pos on).trans (congrArg Host.Outcome.next ?_)
  unfold State.watchFound
  simp only [held]
  cases w.hit with
  | some x => rfl
  | none => cases watchHolds w.m (s.watchWord w) w.value w.mask <;> rfl

theorem exec_watchTimeout {s : State} {sect idx : Nat} {w : Watch} (on : s.pkg.on = true) (held : kget (s.die sect).watches idx = some w) :
    exec (.watchTimeout sect idx) s =
      .next ((s.watchFound w).elim (s.watchEnd sect idx w 1 (s.watchWord w)) (fun p => s.watchEnd sect idx w p.1 p.2)) := by
  refine (if_pos on).trans (congrArg Host.Outcome.next ?_)
  unfold State.watchFound
  simp only [held]
  cases w.hit with
  | some x => rfl
  | none => cases watchHolds w.m (s.watchWord w) w.value w.mask <;> rfl

/-- The registers that the end of a wait writes (R217). -/
theorem watchCells_of_pend (p : Pend) (w64 : Bool) (x : DWord) (status : Nat) : watchCells (if p.regs.isEmpty then none else some p.base) w64 x status =
    if p.regs.isEmpty then [] else if w64 then
      [(cellKey p.base 0, lo32 x), (cellKey (p.base + 1) 0, hi32 x), (cellKey (p.base + 2) 0, BitVec.ofNat 32 status), (cellKey (p.base + 3) 0, 0)]
    else [(cellKey p.base 0, lo32 x), (cellKey (p.base + 1) 0, BitVec.ofNat 32 status)] := by
  cases p.regs.isEmpty <;> rfl

end Sys2Proof.Machine

open Sys2Proof Sys2Proof.Machine Sys2Proof.Laws

/-- Settles O21. -/
theorem watchWords : Obligations.WatchWords := by
  intro h d a b c m s g pc n E S vm ends starts clear waits i rec_ us
  have wait : ∀ i us, exec i s = runWord i s (fun w => w.watch d a b m (us w.g)) → waits i us := by
    intro i us he u p e z flat ⟨hr, busy, reach⟩ ⟨free, good⟩ r
    have body := W.watch_found (w := W.begin (info i) s g pc) (d := d) (a := a) (b := b) (m := m) (us := us (E i)) (W.begin_ex busy)
      (Bool.eq_false_iff.1 hr.wet) reach free good
    have reached := State.reachG_calm (S i) (E i).who 0 ((E i).rd64 0 a) n true true needR kindLoad
    rw [reach] at reached
    have calm : Calm (S i) r.2 := (reached.trans (State.recallLine_calm u _ _ _)).trans (State.watchFind_calm _ _ _ _ _ _ _)
    exact hr.watchAnswers he busy body calm
  refine ⟨wait (.watch h d a b m) (fun _ => none) rfl, wait (.watcht h d a b c m) (fun y => some (y.rd 0 c).toNat) rfl, ?_, ?_, ?_⟩
  · intro u p e z flat p2 e2 z2 f2 u2 ⟨hr, busy, reach⟩ record ⟨free, good⟩ r
    have body := W.watchRecord_found (w := W.begin (info i) s g pc) (d := d) (a := a) (b := b) (c := c) (m := m) (W.begin_ex busy)
      (Bool.eq_false_iff.1 hr.wet) reach record free good
    have reached := State.reachG_calm (S i) (E i).who 0 ((E i).rd64 0 a) n true true needR kindLoad
    rw [reach] at reached
    have recorded := State.reachG_calm u (E i).who 0 rec_ 16 true true needW kindStore
    rw [record] at recorded
    have calm : Calm (S i) r.2 := ((reached.trans recorded).trans (State.recallLine_calm u2 _ _ _)).trans (State.watchFind_calm _ _ _ _ _ _ _)
    exact hr.watchhAnswers rfl busy body calm
  · intro t ctx e flat v zero inside x
    exact t.watchFind_home ctx m e flat v zero inside rfl
  · intro t ctx e flat v zero outside
    unfold State.watchFind
    rw [if_pos outside]
    exact ⟨_, rfl⟩

/-- Settles O22. -/
theorem watchEvents : Obligations.WatchEvents := by
  intro s sect idx w on held word found ends
  have ended : ∀ (o : Host.Outcome State Fault Refusal) (status : Nat) (x : DWord), status ≤ 1 → o = .next (s.watchEnd sect idx w status x) → ends o status x := by
    intro o status x small ran
    refine ⟨_, ran, fun gid y hw hy => ?_, fun ptr hw => State.watchEnd_record hw small x⟩
    obtain ⟨free, bytes, others, grp⟩ := State.watchEnd_group (sect := sect) (idx := idx) hw hy status x
    simp only [Pend.watchEnd, watchCells_of_pend] at grp
    exact ⟨free, bytes, others, grp⟩
  have evaluated := exec_watchEvaluate on held
  have timed := exec_watchTimeout on held
  refine ⟨fun st x hit => ?_, fun miss => ?_⟩
  · have status : s.watchFound w = some (st, x) := hit
    rw [status] at evaluated timed
    obtain rfl := State.watchFound_status status
    exact ⟨ended _ 0 x (Nat.zero_le 1) evaluated, ended _ 0 x (Nat.zero_le 1) timed⟩
  · have status : s.watchFound w = none := miss
    rw [status] at evaluated timed
    exact ⟨evaluated, ended _ 1 word (le_refl 1) timed⟩
end

section
/-! PROOFS of the atomic operations (R182–R184, R187). -/

namespace Sys2Proof.Machine

/-- A value that fits its width as a signed integer. -/
theorem sextNat_fits {w x : Nat} (hw : 0 < w) (h : x < 2 ^ w) : sextNat x w = if x < 2 ^ (w - 1) then (x : Int) else (x : Int) - 2 ^ w := by
  unfold sextNat
  rw [Nat.mod_eq_of_lt h]
  exact if_neg (by omega)

theorem upFrom_eq_map (a n : Nat) : upFrom a n = (List.range n).map (fun k => a + k) := by
  induction n generalizing a with
  | zero => rfl
  | succ n ih =>
    rw [upFrom, ih, List.range_succ_eq_map]
    simp [Function.comp_def, Nat.add_assoc, Nat.add_comm 1]

theorem State.bytes_eq_map (s : State) (a n : Nat) : s.bytes a n = (List.range n).map (fun k => s.byte (a + k)) := by
  unfold State.bytes
  rw [upFrom_eq_map, List.map_map]
  rfl

theorem getD_toBytes (n x k : Nat) (h : k < n) : (toBytes n x).getD k 0 = BitVec.ofNat 8 (x / 2 ^ (8 * k)) := by
  induction n generalizing x k with
  | zero => omega
  | succ n ih =>
    cases k with
    | zero => simp [toBytes]
    | succ k =>
      rw [toBytes, List.getD_cons_succ, ih _ _ (by omega), Nat.div_div_eq_div_mul, Nat.mul_succ, Nat.pow_add, Nat.mul_comm (2 ^ (8 * k))]

/-- ATOM and RED (R182). -/
theorem atom_apply {w o b : Nat} (hw : 0 < w) (ho : o < 2 ^ w) (hb : b < 2 ^ w) :
    atomNew .xchg w o b = b ∧ atomNew .min w o b = (if sextNat o w ≤ sextNat b w then o else b) ∧ atomNew .max w o b = (if sextNat b w ≤ sextNat o w then o else b) ∧
    sextNat o w = (if o < 2 ^ (w - 1) then (o : Int) else (o : Int) - 2 ^ w) ∧ sextNat b w = if b < 2 ^ (w - 1) then (b : Int) else (b : Int) - 2 ^ w :=
  ⟨Nat.mod_eq_of_lt hb, rfl, rfl, sextNat_fits hw ho, sextNat_fits hw hb⟩

/-- The write of an atomic's new value at one lane's address (R187). -/
theorem State.atomWrite_kept (s : State) (home addr n v : Nat) :
    (∀ k, (if home = 16 then s.put addr (toBytes n v) else s.homePut addr (toBytes n v)).grp k = s.grp k) ∧
    ∀ a, (if home = 16 then s.put addr (toBytes n v) else s.homePut addr (toBytes n v)).byte a =
      if addr ≤ a ∧ a < addr + n then BitVec.ofNat 8 (v / 2 ^ (8 * (a - addr))) else s.byte a := by
  have bytes : ∀ a, (if addr ≤ a ∧ a < addr + (toBytes n v).length then (toBytes n v).getD (a - addr) 0 else s.byte a) =
      if addr ≤ a ∧ a < addr + n then BitVec.ofNat 8 (v / 2 ^ (8 * (a - addr))) else s.byte a := by
    intro a
    rw [toBytes_length]
    by_cases inside : addr ≤ a ∧ a < addr + n
    · rw [if_pos inside, if_pos inside, getD_toBytes n v _ (by omega)]
    · rw [if_neg inside, if_neg inside]
  split
  · exact ⟨fun _ => rfl, fun a => (State.byte_put _ _ _ _).trans (bytes a)⟩
  · exact ⟨fun k => (State.homePut_calm _ _ _).grp k, fun a => (State.byte_homePut _ _ _ _).trans (bytes a)⟩

/-- One lane at its execution point (R187). -/
theorem State.atomAt_eq (s : State) (op : AtomOp) (w64 : Bool) (x : AtomLane) {n old : Nat} (hn : n = if w64 then 8 else 4) (hold : old = s.num x.addr n)
    {r : Option Nat} (hr : r = op.apply old (x.b.toNat % 2 ^ (8 * n)) (x.c.toNat % 2 ^ (8 * n))) :
    (s.atomAt op w64 x).1 = old ∧ (s.atomAt op w64 x).2.1 = r.isSome ∧ (∀ k, (s.atomAt op w64 x).2.2.grp k = s.grp k) ∧
    ∀ a, (s.atomAt op w64 x).2.2.byte a = match (generalizing := false) r with
      | some v => if x.addr ≤ a ∧ a < x.addr + n then BitVec.ofNat 8 (v / 2 ^ (8 * (a - x.addr))) else s.byte a
      | none => s.byte a := by
  unfold State.atomAt
  simp only [← hn, ← hold, ← hr]
  cases r with
  | none => exact ⟨rfl, rfl, fun _ => rfl, fun _ => rfl⟩
  | some v =>
    obtain ⟨groups, bytes⟩ := s.atomWrite_kept x.home x.addr n v
    exact ⟨rfl, rfl, groups, bytes⟩

end Sys2Proof.Machine

open Sys2Proof Sys2Proof.Machine Sys2Proof.Laws

/-- Settles O23. -/
theorem atomicOperations : Obligations.AtomicOperations := by
  refine ⟨?_, fun o b c => ⟨rfl, rfl, rfl, rfl, rfl⟩, ?_⟩
  · intro w64 o b c w s ho hb
    obtain ⟨xchg, min, max, so, sb⟩ := atom_apply (by cases w64 <;> decide) ho hb
    refine ⟨congrArg some xchg, rfl, rfl, rfl, rfl, ?_, ?_, rfl, rfl, rfl, rfl, rfl⟩
    · exact congrArg some (min.trans (by rw [so, sb]))
    · exact congrArg some (max.trans (by rw [so, sb]))
  · intro s op w64 x n old r
    exact s.atomAt_eq op w64 x (n := n) (old := old) (r := r) rfl (congrArg ofBytes (s.bytes_eq_map x.addr n).symm) rfl
end

section
/-! PROOFS of TOUCH, PREF, FLUSH, INV and VPROBE (R97, R142–R145). -/

namespace Sys2Proof.Machine

/-- The checks of a word's lanes give one place a lane, in order (R131). -/
theorem State.reachAll_lanes (f : State → Nat → Reach × State) (ex : List Nat) (s : State) : (s.reachAll f ex).1.map (fun q => q.1) = ex := by
  induction ex generalizing s with
  | nil => rfl
  | cons l t ih => simp [State.reachAll, ih]

/-- Whether a lane's place is global memory. -/
def Reach.InMemory (r : Reach) : Prop := ∃ p e z f, r = .glob p e z f

theorem anyWait_inMemory {rs : List (Nat × Reach)} (h : ∀ q ∈ rs, q.2.InMemory) : anyWait rs = false := by
  unfold anyWait
  rw [List.any_eq_false]
  intro q hq
  obtain ⟨p, e, z, f, place⟩ := h q hq
  rw [place]
  simp

theorem W.touchFaults_inMemory {rs : List (Nat × Reach)} (h : ∀ q ∈ rs, q.2.InMemory) (w : W) : w.touchFaults rs = w := by
  unfold W.touchFaults
  induction rs generalizing w with
  | nil => rfl
  | cons q t ih =>
    obtain ⟨p, e, z, f, place⟩ := h q (by simp)
    rw [List.foldl_cons]
    simp only [place]
    exact ih (fun x hx => h x (by simp [hx])) w

/-- The blocks of the lanes in memory (R97). -/
def memoryBlocks (rs : List (Nat × Reach)) : List (Nat × Nat) :=
  rs.filterMap (fun q => match q.2 with
    | .glob p _ _ _ => some (q.1, vaOf p / 2 ^ 16)
    | _ => none)

theorem Group.touchBlocks_inMemory {rs : List (Nat × Reach)} (h : ∀ q ∈ rs, q.2.InMemory) (g : Group) (a b : Opnd) : g.touchBlocks a b rs = memoryBlocks rs := by
  unfold Group.touchBlocks memoryBlocks
  refine List.filterMap_congr fun q hq => ?_
  obtain ⟨p, e, z, f, place⟩ := h q hq
  simp only [place]

theorem memoryBlocks_ne_nil {rs : List (Nat × Reach)} (h : ∀ q ∈ rs, q.2.InMemory) (some_lane : rs ≠ []) : (memoryBlocks rs).isEmpty = false := by
  cases rs with
  | nil => exact absurd rfl some_lane
  | cons q t =>
    obtain ⟨p, e, z, f, place⟩ := h q (by simp)
    unfold memoryBlocks
    rw [List.filterMap_cons]
    simp only [place]
    rfl

/-- TOUCH where every lane passes its checks (R97, R144). -/
theorem W.touch_opens {w : W} (busy : w.ex ≠ []) (wet : w.dry = false) (whole : w.rolled = false) {a b : Opnd} {rd : Bool} {R : List (Nat × Reach) × State}
    (hR : w.s.reachPtrs w.g w.ex a b (if rd then needR else needRW) = R) (all : ∀ q ∈ R.1, q.2.InMemory) {y : Group} (here : R.2.grp w.gid = some y) :
    ∃ z p, w.touch a b rd = { w with s := z } ∧ p.pc = w.pc ∧ p.regs = dstRegs w.f ∧ p.cells = [] ∧ p.due = some R.2.freeDue.1 ∧ z.mem = R.2.mem ∧
      (∀ k, k ≠ w.gid → z.grp k = R.2.grp k) ∧ z.grp w.gid = some { y with
        pends := y.pends ++ [p], touches := y.touches.drop (y.touches.length - 3) ++ [⟨p.id, memoryBlocks R.1, 257⟩] } := by
  have lanes : R.1.map (fun q => q.1) = w.ex := by
    rw [← hR]
    exact State.reachAll_lanes _ _ _
  have some_lane : R.1 ≠ [] := fun none_ => busy (by rw [← lanes, none_]; rfl)
  let v : W := { w with s := R.2.freeDue.2 }
  let p : Pend := Pend.mk R.2.serial w.pc w.f.op (dstRegs w.f) [] (some R.2.freeDue.1) none ((dstRegs w.f).headD 0)
  have body : w.touch a b rd = ((v.pend [] (some R.2.freeDue.1) false).2.mod (fun g => g.openTouch (v.pend [] (some R.2.freeDue.1) false).1 (memoryBlocks R.1))) := by
    unfold W.touch
    simp only [hR]
    rw [if_neg (Bool.eq_false_iff.1 (anyWait_inMemory all)), W.touchFaults_inMemory all, Group.touchBlocks_inMemory all, memoryBlocks_ne_nil all some_lane]
    exact if_neg (by simp only [wet, Bool.or_false]; exact Bool.eq_false_iff.1 whole)
  rw [W.pend_eq v [] _ false busy wet] at body
  refine ⟨_, p, body, rfl, rfl, rfl, rfl, rfl, fun k other => (State.grp_modGrp_ne _ _ other).trans (State.grp_modGrp_ne _ _ other), ?_⟩
  have start : State.grp { v.s with serial := v.s.serial + 1 } w.gid = some y := here
  refine (State.grp_modGrp_self _ _ _).trans ?_
  rw [State.grp_modGrp_self, start]
  rfl

/-- VPROBE in one lane changes at most the TLB (R145). -/
theorem State.probe_calm (s : State) (w : Who) (p : DWord) : Calm s (s.probe w p).2 := by
  have calm : Calm s (if w.sup then (s.walk (s.die (coreDie w.core)).sptroot (vaOf p), s) else s.leafTlb (coreCcl w.core) w.ctx p).2 := by
    split
    · exact Calm.refl s
    · exact State.leafTlb_calm s _ _ _
  unfold State.probe
  generalize (if w.sup then (s.walk (s.die (coreDie w.core)).sptroot (vaOf p), s) else s.leafTlb (coreCcl w.core) w.ctx p) = q at calm ⊢
  obtain ⟨c, u⟩ := q
  cases c <;> exact calm

theorem State.probes_kept (g : Group) (a b : Opnd) (ex : List Nat) (s : State) :
    (s.probes g a b ex).1.map (fun q => q.1) = ex ∧ Calm s (s.probes g a b ex).2 := by
  induction ex generalizing s with
  | nil => exact ⟨rfl, Calm.refl s⟩
  | cons l t ih =>
    obtain ⟨lanes, calm⟩ := ih (s.probe g.who (g.gptr l a b)).2
    exact ⟨congrArg (l :: ·) lanes, (State.probe_calm s _ _).trans calm⟩

theorem field_eq (lo n v : Nat) : field lo n v = v % 2 ^ n * 2 ^ lo := by
  unfold field
  rw [Nat.shiftLeft_eq]

/-- What VPROBE returns for a user's address (R145). -/
theorem State.probe_user (t : State) {w : Who} (ptr : DWord) (user : w.sup = false) {q : Chk × State} (hq : t.leafTlb (coreCcl w.core) w.ctx ptr = q) :
    (t.probe w ptr).2 = q.2 ∧ (t.probe w ptr).1 = BitVec.ofNat 32 ((if t.boundsOk w.core ptr then 2 else 0) + match (generalizing := false) q.1 with
      | .ok e z => (z - 6) / 10 % 4 * 2 ^ 10 + (if leafRegion e = tagOf ptr then 1 else 0) +
          (e / 2 ^ 7 % 2 * 2 ^ 9 + e / 2 ^ 6 % 2 * 2 ^ 8 + e / 2 ^ 5 % 2 * 2 ^ 7 + e / 2 ^ 4 % 2 * 2 ^ 6 + e / 2 ^ 3 % 2 * 2 ^ 5 + e % 8 * 4)
      | _ => 0) := by
  obtain ⟨c, u⟩ := q
  unfold State.probe
  simp only [user, hq, Bool.false_or, Bool.false_eq_true, if_false]
  cases c with
  | ok e z =>
    refine ⟨rfl, congrArg (BitVec.ofNat 32) ?_⟩
    simp only [field_eq, decide_eq_true_eq]
    ring
  | absent mal lvl => exact ⟨rfl, rfl⟩
  | fail c => exact ⟨rfl, rfl⟩

/-- A word whose lanes act on their lines one after another (R142, R143). -/
theorem Ready.actsOnLines {i : Instr} {s : State} {g : Group} {pc : Pc} {body : W → W} (h : Ready (info i) (ownKeys (info i)) s g pc)
    (he : exec i s = runWord i s body) {R : List (Nat × Reach) × State} {act : State → Nat × Reach → State}
    (hb : body (W.begin (info i) s g pc) = W.eff { W.begin (info i) s g pc with s := R.2 } (fun s => R.1.foldl act s))
    (calm : Calm (s.entered (info i) g) R.2) (each : ∀ s q, Calm s (act s q)) : Performs i s g pc (R.1.foldl act R.2) [] :=
  h.does he _ (hb.trans (if_neg (Bool.eq_false_iff.1 h.wet))) (Steady.ofCalm _ (calm.trans (Calm.fold each _ _)))

end Sys2Proof.Machine

open Sys2Proof Sys2Proof.Machine Sys2Proof.Laws

/-- Settles O25. -/
theorem cacheWords : Obligations.CacheWords := by
  intro h d a b rd l2 lvl s g pc E X ready R passed core T need
  have checked : ∀ i need, Calm (s.entered (info i) g) (R i need).2 :=
    fun i need => State.reachAll_calm (fun _ _ => State.reachG_calm _ _ _ _ _ _ _ _ _) _ _
  refine ⟨fun hr busy all => ?_, fun hr => ?_, fun hr => ?_, fun hr => ?_, fun hr busy => ?_, fun t w ptr user => ?_⟩
  · obtain ⟨-, -, -, kvpc, -, -, khelper, -, -⟩ := Group.entered_kept g (info T)
    have calm := checked T need
    have pkg := congrArg Pkg.clock calm.pkg
    obtain ⟨x, p, body, pc_, regs, cells, due, mem, others, grp⟩ := W.touch_opens (w := W.begin (info T) s g pc) (a := a) (b := b) (rd := rd) busy hr.wet rfl
      (R := R T need) rfl all ((calm.grp s.focus).trans (State.entered_grp s (info T) g))
    exact ⟨x, p, _, hr.effects rfl x [] body grp ⟨kvpc, khelper⟩, pc_, regs, cells, due, lt_of_eq_of_lt pkg.symm (R T need).2.freeDue_later,
      State.byte_eq mem, fun k other => (others k other).trans ((calm.grp k).trans (State.grp_setGrp_ne s _ other)), grp⟩
  · refine hr.actsOnLines rfl (R := R (.pref h a b lvl) needR) ?_ (checked _ _) (fun t q => ?_)
    · rfl
    · split
      · dsimp only
        split
        · exact Calm.refl t
        · cases lvl with
          | l1 => exact State.fillL1_calm _ _ _ _ _ _
          | l2 => exact State.fillL2_calm _ _ _ _ _
          | llc => exact Calm.refl t
      · exact Calm.refl t
  · refine hr.actsOnLines rfl (R := R (.flush h a b l2) needR) rfl (checked _ _) (fun t q => ?_)
    split
    · dsimp only
      split
      · exact (State.writeBackLine_calm _ _ _).trans (State.flushL2Line_calm _ _ _)
      · exact State.writeBackLine_calm _ _ _
    · exact Calm.refl t
  · refine hr.actsOnLines rfl (R := R (.inv h a b l2) needR) rfl (checked _ _) (fun t q => ?_)
    split
    · dsimp only
      split
      · exact (State.dropLine_calm _ _ _).trans (State.dropL2Line_calm _ _ _)
      · exact State.dropLine_calm _ _ _
    · exact Calm.refl t
  · obtain ⟨lanes, calm⟩ := State.probes_kept (E (.vprobe h d a b)) a b (X (.vprobe h d a b)) (s.entered (info (.vprobe h d a b)) g)
    intro r
    refine ⟨lanes, hr.starts rfl busy r.2.freeDue.2 _ r.2.freeDue.1 false rfl ?_ _ ?_⟩
    · exact Steady.trans (Steady.ofCalm s.focus calm) (Steady.ofGroups _ rfl)
    · exact lt_of_eq_of_lt (congrArg Pkg.clock calm.pkg).symm r.2.freeDue_later
  · exact t.probe_user ptr user rfl
end

section
/-! PROOFS of the decoded words, the reset state and the step's order (R2, R46, R47, R76). -/

namespace Sys2Proof.Machine

open Laws

/-- A word is read from its bytes as the instruction it encodes. -/
theorem decodeBytes_of_encode {w : Nat} {i : Instr} (form : i.wf = true) (word : encode i = w) : decodeBytes (toBytes 8 w) = .ok i :=
  word ▸ (roundTrip.1 i form).2.2

theorem decodeBytes_toBytes {w : Nat} (fits : w < 2 ^ 64) : decodeBytes (toBytes 8 w) = decodeWord w := by
  rw [decodeBytes, ofBytes_toBytes, Nat.mod_eq_of_lt fits]

/-! ### The step's order -/

theorem step_on {s : State} (on : s.pkg.on = true) : step s = match s.nextAct with
    | .run t i => exec i t
    | .quiet t => .next t := if_pos on

theorem State.nextAct_agenda {s : State} {e : Instr} {t : List Instr} (idle : s.ctlq = []) (due : s.agenda = e :: t) :
    s.nextAct = .run { s with agenda := t } e := by
  simp only [State.nextAct, State.dueAct, idle, due]

theorem State.nextAct_issue {s : State} (due : s.dueAct = none) (dry : s.dry = none) :
    s.nextAct = s.wordAct.getD (.quiet s.endClk) := by
  simp only [State.nextAct, due, dry]
  cases s.wordAct <;> rfl

/-- The bytes a group fetches at an address (R401). -/
theorem State.fetched_of {s : State} {g : Group} {pc : Pc} {b : List Byte} (bytes : if g.isSup then s.bytes (flatPhys (pc.toNat * 8)) 8 = b
    else ∃ line, kget (s.core g.core).icache (pc.toNat / 16) = some line ∧ (line.drop (pc.toNat % 16 * 8)).take 8 = b) :
    s.fetched g pc = some b := by
  unfold State.fetched
  by_cases sup : g.isSup = true
  · rw [if_pos sup] at bytes ⊢
    rw [bytes]
  · rw [if_neg sup] at bytes ⊢
    obtain ⟨line, cached, cut⟩ := bytes
    rw [cached, ← cut]
    rfl

/-- The word the first picking port issues, or its kill (R47, R76). -/
theorem State.wordAct_picked {s : State} {gid : Nat} {g : Group} {pc : Pc} (picks : s.groups.findSome? (fun x => s.pick x.2.core x.2.port) = some (gid, g))
    (at_ : g.issuePc = some pc) : s.wordAct = some (match s.atPc g pc with
      | .word i => .run { s with focus := gid } i
      | _ => .run s (.illegalWordKill gid)) := by
  simp only [State.wordAct, picks, at_, Option.map_some, Option.getD_some] <;> rfl

theorem State.wordAct_none {s : State} (idle : ∀ x ∈ s.groups, s.pick x.2.core x.2.port = none) : s.wordAct = none := by
  rw [State.wordAct, List.findSome?_eq_none_iff.2 idle]
  rfl

/-! ### The control space after reset -/

/-- A row of bytes that lists none reads zero. -/
theorem regBytes_nil (j : Nat) : regBytes [] j = 0 := by
  simp [regBytes, List.range, List.range.loop, ofBytes]

/-- The registers of die 20's queue ports, management block and Ethernet ports (R420). -/
theorem State.ctlRead_io (s : State) {o : Nat} (inside : o < 0x600000) : s.ctlRead (20 * 2 ^ 24 + o) =
    if o % 8 ≠ 0 then 0 else if o < 0x400000 then (s.port (o / 4096)).regRead (o % 4096)
    else if o < 0x410000 then s.pkg.regRead (o - 0x400000)
    else if 0x500000 ≤ o ∧ o < 0x580000 then (s.ethp (o / 0x10000 % 8)).regRead (o % 0x10000) else 0 := by
  have die : (20 * 2 ^ 24 + o) % 2 ^ 50 / 2 ^ 24 = 20 := by omega
  have offset : (20 * 2 ^ 24 + o) % 2 ^ 24 = o := by omega
  have form : ((20 * 2 ^ 24 + o) % 8 ≠ 0 ∨ 20 < 20) ↔ o % 8 ≠ 0 := by omega
  have own : ¬ 0xF00000 ≤ o := by omega
  have cset : ¬ (0x600020 ≤ o ∧ o < 0x602020) := by omega
  have devq : ¬ (0x610008 ≤ o ∧ o < 0x610808 + 8) := by omega
  unfold State.ctlRead
  simp only [die, offset, form, own, cset, devq, if_false, ne_eq, not_true_eq_false]

/-- The registers of a die's own block (R421). -/
theorem State.ctlRead_die (s : State) {d o : Nat} (die : d ≤ 20) (own : 0xF00000 ≤ o) (inside : o < 2 ^ 24) : s.ctlRead (d * 2 ^ 24 + o) =
    if o % 8 ≠ 0 then 0 else if (s.die d).st = .up ∨ (s.die d).st = .drain then (s.die d).regRead d o else 0 := by
  have block : (d * 2 ^ 24 + o) % 2 ^ 50 / 2 ^ 24 = d := by omega
  have offset : (d * 2 ^ 24 + o) % 2 ^ 24 = o := by omega
  have form : ((d * 2 ^ 24 + o) % 8 ≠ 0 ∨ 20 < d) ↔ o % 8 ≠ 0 := by omega
  unfold State.ctlRead
  simp only [block, offset, form, own, if_true]
  cases (s.die d).st <;> simp

theorem State.die_reset (d : Nat) : State.reset.die d = if d = 20 then { Die.reset with st := .up } else Die.reset := by
  by_cases io : d = 20
  · rw [if_pos io, io]
    rfl
  · rw [if_neg io, State.die, State.reset, kget, if_neg (Ne.symm io)]
    rfl

theorem QPort.regRead_reset (o : Nat) : QPort.reset.regRead o = 0 := by
  unfold QPort.regRead
  split <;> rfl

theorem Die.regRead_reset (st : DieState) (d o : Nat) : ({ Die.reset with st := st } : Die).regRead d o = 0 := by
  unfold Die.regRead
  split <;> simp [Die.reset]

/-- The management block after reset, but for the core frequency, PLIM and the device's key (R417, R419, R424, R425). -/
theorem Pkg.regRead_reset {o : Nat} (inside : o < 0x3000) (freq : o ≠ 0x108) (plim : o ≠ 0x200) : Pkg.reset.regRead o = 0 := by
  have key : ¬ (0x3000 ≤ o ∧ o < 0x3060) := by omega
  simp [Pkg.regRead, Pkg.reset, freq, plim, key, regBytes_nil, kget, Pkg.power, field]

/-- An Ethernet port's registers after reset, but for MEDIA's (R423). -/
theorem EthPort.regRead_reset {o : Nat} (media : o ≠ 0) : EthPort.reset.regRead o = 0 := by
  simp [EthPort.regRead, EthPort.reset, media, kget, bitsOf]

/-! ### The choice of a port (R76) -/

theorem mem_insertBorn {x y : Nat × Group} {l : List (Nat × Group)} : y ∈ insertBorn x l ↔ y = x ∨ y ∈ l := by
  induction l with
  | nil => simp [insertBorn]
  | cons z t ih =>
    unfold insertBorn
    split
    · exact List.mem_cons
    · rw [List.mem_cons, ih, List.mem_cons]
      exact or_left_comm

/-- Groups from the oldest on. -/
def OldestFirst (l : List (Nat × Group)) : Prop := l.Pairwise (fun x y => x.2.born ≤ y.2.born)

theorem OldestFirst.insertBorn {l : List (Nat × Group)} (h : OldestFirst l) (x : Nat × Group) : OldestFirst (insertBorn x l) := by
  induction l with
  | nil => exact List.pairwise_singleton _ _
  | cons z t ih =>
    obtain ⟨first, rest⟩ := List.pairwise_cons.1 h
    unfold Machine.insertBorn
    split
    case isTrue younger =>
      refine List.pairwise_cons.2 ⟨fun y hy => ?_, h⟩
      rcases List.mem_cons.1 hy with rfl | hy
      · exact Nat.le_of_lt younger
      · exact Nat.le_trans (Nat.le_of_lt younger) (first y hy)
    case isFalse older =>
      refine List.pairwise_cons.2 ⟨fun y hy => ?_, ih rest⟩
      rcases mem_insertBorn.1 hy with rfl | hy
      · exact Nat.le_of_not_lt older
      · exact first y hy

theorem foldl_insertBorn (k l : List (Nat × Group)) (h : OldestFirst l) :
    OldestFirst (k.foldl (fun l g => insertBorn g l) l) ∧ ∀ y, y ∈ k.foldl (fun l g => insertBorn g l) l ↔ y ∈ k ∨ y ∈ l := by
  induction k generalizing l with
  | nil => exact ⟨h, fun y => by simp⟩
  | cons x k ih =>
    obtain ⟨sorted, mem⟩ := ih (insertBorn x l) (h.insertBorn x)
    refine ⟨sorted, fun y => (mem y).trans ?_⟩
    rw [mem_insertBorn, List.mem_cons]
    exact or_left_comm.trans or_assoc.symm

/-- The candidates of a port, oldest first. -/
def State.candidates (s : State) (core port : Nat) : List (Nat × Group) :=
  (s.onPort core port).filter (fun g => s.mayIssue g.1 g.2 && (s.holdOf g.2).isNone)

theorem State.candidates_sorted (s : State) (core port : Nat) : OldestFirst (s.candidates core port) :=
  (foldl_insertBorn _ [] List.Pairwise.nil).1.filter _

theorem State.mem_candidates (s : State) (core port : Nat) (x : Nat × Group) : x ∈ s.candidates core port ↔
    x ∈ s.groups ∧ x.2.core = core ∧ x.2.port = port ∧ x.2.retired = false ∧ s.mayIssue x.1 x.2 = true ∧ s.holdOf x.2 = none := by
  unfold State.candidates State.onPort
  rw [List.mem_filter, (foldl_insertBorn _ [] List.Pairwise.nil).2]
  simp [and_assoc]

/-- The largest age count, from a bound on. -/
theorem foldl_ageCount (l : List (Nat × Group)) (m : Nat) :
    let top := l.foldl (fun m g => max m g.2.ageCount) m
    (∀ x ∈ l, x.2.ageCount ≤ top) ∧ m ≤ top ∧ (top = m ∨ ∃ x ∈ l, x.2.ageCount = top) := by
  induction l generalizing m with
  | nil => exact ⟨fun x hx => absurd hx List.not_mem_nil, Nat.le_refl m, .inl rfl⟩
  | cons z t ih =>
    obtain ⟨below, from_, is⟩ := ih (max m z.2.ageCount)
    refine ⟨fun x hx => ?_, Nat.le_trans (Nat.le_max_left _ _) from_, ?_⟩
    · rcases List.mem_cons.1 hx with rfl | hx
      · exact Nat.le_trans (Nat.le_max_right _ _) from_
      · exact below x hx
    · rcases is with eq | ⟨x, hx, eq⟩
      · rcases Nat.le_total m z.2.ageCount with le | le
        · exact .inr ⟨z, List.mem_cons_self, (Nat.max_eq_right le).symm.trans eq.symm⟩
        · exact .inl (eq.trans (Nat.max_eq_left le))
      · exact .inr ⟨x, List.mem_cons_of_mem _ hx, eq⟩

/-- Of a sorted list, the first group that meets a test is the oldest that does. -/
theorem OldestFirst.find_oldest {l : List (Nat × Group)} (h : OldestFirst l) {p : Nat × Group → Bool} {a x : Nat × Group}
    (found : l.find? p = some a) (hx : x ∈ l) (px : p x = true) : a.2.born ≤ x.2.born := by
  obtain ⟨-, as, bs, rfl, before⟩ := List.find?_eq_some_iff_append.1 found
  have after := (List.pairwise_append.1 h).2.1
  rcases List.mem_append.1 hx with hx | hx
  · exact absurd px (by simpa using before x hx)
  · rcases List.mem_cons.1 hx with rfl | hx
    · exact Nat.le_refl _
    · exact (List.pairwise_cons.1 after).1 x hx

theorem OldestFirst.head_oldest {l : List (Nat × Group)} (h : OldestFirst l) {a x : Nat × Group} (head : l.head? = some a) (hx : x ∈ l) :
    a.2.born ≤ x.2.born :=
  h.find_oldest (p := fun _ => true) (by cases l <;> simp at head ⊢; exact head) hx rfl

/-- The choice of `pickOf`, when it makes one: the oldest of the aged when some group is, else the last issuer, else the oldest. -/
theorem pickOf_some {last : Option Nat} {l : List (Nat × Group)} (sorted : OldestFirst l) {a : Nat × Group} (picked : pickOf last l = some a) :
    a ∈ l ∧
    ((∃ x ∈ l, 1008 ≤ x.2.ageCount) → ∀ x ∈ l, x.2.ageCount ≤ a.2.ageCount ∧ (x.2.ageCount = a.2.ageCount → a.2.born ≤ x.2.born)) ∧
    ((∀ x ∈ l, x.2.ageCount < 1008) →
      ((∃ x ∈ l, last = some x.1) → last = some a.1) ∧ ((∀ x ∈ l, last ≠ some x.1) → ∀ x ∈ l, a.2.born ≤ x.2.born)) := by
  obtain ⟨below, -, is⟩ := foldl_ageCount l 0
  unfold pickOf at picked
  dsimp only at picked below is
  split at picked
  case isTrue aged =>
    have top := List.find?_some picked
    rw [decide_eq_true_eq] at top
    refine ⟨List.mem_of_find?_eq_some picked, fun _ x hx => ⟨top ▸ below x hx, fun eq => ?_⟩, fun young => ?_⟩
    · exact sorted.find_oldest picked hx (decide_eq_true (eq.trans top))
    · have := young a (List.mem_of_find?_eq_some picked)
      omega
  case isFalse young =>
    have noneAged : ¬ ∃ x ∈ l, 1008 ≤ x.2.ageCount := fun ⟨x, hx, age⟩ => young (Nat.le_trans age (below x hx))
    split at picked
    case h_1 b found =>
      cases picked
      have last_ := List.find?_some found
      rw [decide_eq_true_eq] at last_
      exact ⟨List.mem_of_find?_eq_some found, fun aged => absurd aged noneAged, fun _ => ⟨fun _ => last_, fun other =>
        absurd last_ (other _ (List.mem_of_find?_eq_some found))⟩⟩
    case h_2 missing =>
      refine ⟨List.mem_of_head? picked, fun aged => absurd aged noneAged, fun _ => ⟨fun ⟨x, hx, eq⟩ => ?_, fun _ x hx => sorted.head_oldest picked hx⟩⟩
      exact absurd (decide_eq_true eq) (List.find?_eq_none.1 missing x hx)

/-- `pickOf` chooses some group of a list that has one. -/
theorem pickOf_isSome {last : Option Nat} {l : List (Nat × Group)} (some_ : l ≠ []) : ∃ a, pickOf last l = some a := by
  obtain ⟨-, -, is⟩ := foldl_ageCount l 0
  unfold pickOf
  dsimp only at is ⊢
  split
  case isTrue aged =>
    rcases is with zero | ⟨x, hx, eq⟩
    · omega
    · exact Option.isSome_iff_exists.1 (List.find?_isSome.2 ⟨x, hx, decide_eq_true eq⟩)
  case isFalse =>
    split
    · exact ⟨_, rfl⟩
    · exact ⟨_, List.head?_eq_some_head some_⟩

theorem State.pick_eq (s : State) (core port : Nat) : s.pick core port =
    if !s.coreRuns core || (kget (s.core core).issued port).isSome || s.withheldSlot core port then none
    else pickOf (kget (s.core core).lastIssuer port) (s.candidates core port) := rfl

end Sys2Proof.Machine

open Sys2Proof Sys2Proof.Machine Sys2Proof.Laws

/-- Settles O50: each instruction is well-formed and encodes as its word; the two others have a reserved format and an unassigned opcode. -/
theorem decodeWords : Obligations.DecodeWords := by
  unfold Obligations.DecodeWords
  refine ⟨?_, ?_, ?_, ?_, ?_, ?_, ?_, ?_, ?_, ?_, ?_, ?_, ?_, ?_, ?_, ?_, ?_, ?_, ?_⟩
  case' refine_18 => exact (decodeBytes_toBytes (by decide)).trans (roundTrip.2.2.2.1 _ (by decide))
  case' refine_19 => exact (decodeBytes_toBytes (by decide)).trans rfl
  all_goals exact decodeBytes_of_encode (by decide) (by decide)

/-- Settles O53: `State.nextAct` by what is due, and the word at the issue address by its fetched bytes. -/
theorem stepRunsWord : Obligations.StepRunsWord := by
  intro s
  refine ⟨fun off => if_neg (by simp [off]), fun on => ⟨fun e t idle due => ?_, fun due dry => ⟨fun gid g pc b picks at_ bytes => ?_, fun idle => ?_⟩⟩⟩
  · rw [step_on on, State.nextAct_agenda idle due]
  · have act := State.wordAct_picked picks at_
    have fetched := State.fetched_of bytes
    refine ⟨fun i word legal => ?_, fun i word illegal => ?_, fun r bad => ?_⟩
    · simp only [step_on on, State.nextAct_issue due dry, act, State.atPc, fetched, word, legal, if_true, Option.getD_some]
    · simp only [step_on on, State.nextAct_issue due dry, act, State.atPc, fetched, word, illegal, Option.getD_some, Bool.false_eq_true, if_false]
    · simp only [step_on on, State.nextAct_issue due dry, act, State.atPc, fetched, bad, Option.getD_some]
  · rw [step_on on, State.nextAct_issue due dry, State.wordAct_none idle]
    rfl

/-- Settles O56: every list of the reset state is empty but for die 20, and each register reads what its record holds. -/
theorem resetState : Obligations.ResetState := by
  have die := fun d => State.die_reset d
  refine ⟨⟨rfl, rfl, fun c => ⟨rfl, rfl, fun k => rfl⟩⟩, fun d => ?_, fun gid g => ?_, fun k j => ⟨rfl, rfl⟩, rfl,
    fun p => ⟨rfl, rfl, QPort.regRead_reset⟩, fun o low => ?_, ?_, ?_, fun o lo hi freq plim => ?_, fun o lo hi media => ?_, fun d o hd lo hi => ?_, ?_⟩
  · rw [die]
    split <;> rfl
  · rfl
  · refine (State.ctlRead_io State.reset (o := o) (by omega)).trans (ite_eq_left_iff.2 (fun _ => ?_))
    rw [if_pos low]
    exact QPort.regRead_reset _
  · rfl
  · rfl
  · refine (State.ctlRead_io State.reset (o := o) (by omega)).trans (ite_eq_left_iff.2 (fun _ => ?_))
    rw [if_neg (by omega), if_pos (by omega)]
    exact Pkg.regRead_reset (by omega) (by omega) (by omega)
  · refine (State.ctlRead_io State.reset (o := o) (by omega)).trans (ite_eq_left_iff.2 (fun _ => ?_))
    rw [if_neg (by omega), if_neg (by omega), if_pos ⟨lo, hi⟩]
    exact EthPort.regRead_reset media
  · have zero : (State.reset.die d).regRead d o = 0 := by
      rw [die]
      split <;> exact Die.regRead_reset _ d o
    exact (State.ctlRead_die State.reset hd lo hi).trans (by rw [zero, ite_self, ite_self])
  · exact ⟨rfl, by decide, by decide, by decide, by decide, by decide, by decide⟩

/-- Settles O52: the candidates of a port stand oldest first, and `pickOf` takes the first that meets each of its tests. -/
theorem portChoice : Obligations.PortChoice := by
  intro s core port
  have mem := s.mem_candidates core port
  simp only [← mem]
  refine ⟨fun k g picked => ?_, fun runs free given ⟨x, hx⟩ => ?_⟩
  · rw [State.pick_eq] at picked
    split at picked
    · cases picked
    · obtain ⟨hk, aged, young⟩ := pickOf_some (s.candidates_sorted core port) picked
      exact ⟨hk, fun ⟨x, hx⟩ y hy => aged ⟨x, hx⟩ y hy, fun below => young below⟩
  · rw [State.pick_eq, runs, free, given]
    exact pickOf_isSome (List.ne_nil_of_mem hx)
end

section
/-! PROOFS of the tile words (R222, R230–R232). -/

namespace Sys2Proof.Machine

/-- A word that executes somewhere and names tile `t` of its team. -/
structure W.OnTile (w : W) (n tid : Nat) (t : Tile) : Prop where
  busy : w.ex.isEmpty = false
  wet : w.dry = false
  team : w.g.tid = tid
  tile : w.tile n = some t

theorem W.tile_some {w : W} {n : Nat} (named : n < (w.s.teamD w.g.tid).kernel.tiles) : w.tile n = kget (w.s.teamD w.g.tid).tiles n := if_pos named

theorem Ready.onTile {i : Instr} {s : State} {g : Group} {pc : Pc} {n : Nat} {t : Tile} (h : Ready (info i) (ownKeys (info i)) s g pc)
    (busy : (g.entered (info i)).exLanes (info i) g.active ≠ []) (named : n < (s.teamD g.tid).kernel.tiles) (is : kget (s.teamD g.tid).tiles n = some t) :
    (W.begin (info i) s g pc).OnTile n g.tid t := by
  have team : (W.begin (info i) s g pc).g.tid = g.tid := (Group.entered_place g (info i)).1
  refine ⟨W.begin_ex busy, h.wet, team, ?_⟩
  rw [W.tile_some (by rw [team]; exact named), team]
  exact is

/-- A word held for a tile closes its group's TOUCH windows (R97, R222). -/
theorem Ready.waitsForTile {i : Instr} {s : State} {g : Group} {pc : Pc} {body : W → W} (h : Ready (info i) (ownKeys (info i)) s g pc)
    (he : exec i s = runWord i s body) (hb : body (W.begin (info i) s g pc) = (W.begin (info i) s g pc).tileWait) :
    exec i s = .next ((s.modGrp s.focus (fun k => { k with touches := [] })).modGrp s.focus (fun k =>
      { k with retryAt := s.pkg.clock + 1, retryCause := .tile, waitPc := pc })) := h.held he .tile _ hb

theorem W.talloc_free {w : W} {n tid : Nat} {a b : Opnd} (busy : w.ex.isEmpty = false) (wet : w.dry = false) (team : w.g.tid = tid)
    (named : n < (w.s.teamD tid).kernel.tiles) (free : kget (w.s.teamD tid).tiles n = none) (start : (w.g.rd 0 a).toNat % 512 = 0)
    (whole : (w.g.rd 0 b).toNat % 512 = 0) (some_ : 0 < (w.g.rd 0 b).toNat) (most : (w.g.rd 0 b).toNat ≤ 262144)
    (fits : (w.g.rd 0 a).toNat + (w.g.rd 0 b).toNat ≤ (w.s.teamD tid).allocSize) : w.talloc n a b =
      { w with s := w.s.modTeam tid (fun t => { t with tiles := kset t.tiles n ⟨(w.g.rd 0 a).toNat, (w.g.rd 0 b).toNat, .empty, 0, 0, 0, 0, 0, false, 0⟩ }) } := by
  subst team
  unfold W.talloc
  rw [if_neg (by rw [busy, wet]; exact Bool.false_ne_true)]
  dsimp only
  rw [if_neg]
  simp only [free, start, whole, Option.isSome_none, Bool.or_false, ne_eq, not_true_eq_false, decide_false, Bool.or_eq_true, decide_eq_true_eq]
  omega

section
variable {w : W} {n tid : Nat} {t : Tile} (on : w.OnTile n tid t)
include on

theorem W.OnTile.goes : ¬ (w.ex.isEmpty || w.dry) = true := by
  rw [on.busy, on.wet]
  exact Bool.false_ne_true

theorem W.tfree_waits (busy : t.state = .filling ∨ t.state = .draining) : w.tfree n = w.tileWait := by
  unfold W.tfree
  rw [if_neg on.goes, on.tile]
  rcases busy with is | is <;> simp only [is]

theorem W.tfree_idle (idle : ¬ (t.state = .filling ∨ t.state = .draining)) :
    w.tfree n = { w with s := w.s.modTeam tid (fun t => { t with tiles := kdel t.tiles n }) } := by
  have := on.team
  subst this
  unfold W.tfree
  rw [if_neg on.goes, on.tile]
  dsimp only
  split
  · exact absurd (.inl ‹_›) idle
  · exact absurd (.inr ‹_›) idle
  · rfl

theorem W.tdrain_waits (busy : t.state = .filling ∨ t.state = .draining) : w.tdrain n = w.tileWait := by
  unfold W.tdrain
  rw [if_neg on.goes, on.tile]
  rcases busy with is | is <;> simp only [is]

theorem W.tdrain_ready (is : t.state = .ready) : w.tdrain n =
    { w with s := w.s.modTile tid n (fun t => { t with state := .empty, bits := 0, bytes := 0, err := 0, mcd := false, errVa := 0 }) } := by
  have := on.team
  subst this
  unfold W.tdrain
  rw [if_neg on.goes, on.tile]
  simp only [is]

theorem W.tdrain_empty (idle : ¬ (t.state = .filling ∨ t.state = .draining)) (other : t.state ≠ .ready) : w.tdrain n = w := by
  unfold W.tdrain
  rw [if_neg on.goes, on.tile]
  dsimp only
  split
  · exact absurd (.inl ‹_›) idle
  · exact absurd (.inr ‹_›) idle
  · exact absurd ‹_› other
  · rfl

theorem W.texpect_fits {a : Opnd} (least : 1 ≤ (w.g.rd 0 a).toNat) (most : (w.g.rd 0 a).toNat ≤ 1023) (sum : t.ec + ((w.g.rd 0 a).toNat : Int) ≤ 1023) :
    w.texpect n a = if t.state = .draining then w.tileWait
      else { w with s := w.s.modTile tid n (fun t => ({ t with state := .filling, ec := t.ec + ((w.g.rd 0 a).toNat : Int) }).settle) } := by
  have := on.team
  subst this
  have refused : ¬ (decide ((w.g.rd 0 a).toNat = 0) || decide (1023 < (w.g.rd 0 a).toNat) || decide (1023 < t.ec + ((w.g.rd 0 a).toNat : Int))) = true := by
    simp only [Bool.or_eq_true, decide_eq_true_eq]
    omega
  unfold W.texpect
  rw [if_neg on.goes, on.tile]
  dsimp only
  rw [if_neg refused]
  cases t.state <;> rfl

theorem W.ttest_good {q : Fin 8} {a b : Opnd} (good : t.err = 0) :
    w.ttest q n a b = w.var (predCells (.q q) w.ex (fun _ => t.test (w.g.rd64 0 a) ((w.g.rd 0 b).toNat % 8))) (w.clk + 8) false := by
  have wet := on.wet
  unfold W.ttest
  rw [on.busy, on.tile]
  simp only [good, ne_eq, not_true_eq_false, if_false, Bool.false_eq_true]
  rw [if_neg (Bool.eq_false_iff.1 wet)]

theorem W.twait_good {a b : Opnd} (good : t.err = 0) (empty : t.state = .empty → t.test (w.g.rd64 0 a) ((w.g.rd 0 b).toNat % 8) = true) :
    w.twait n a b = if t.test (w.g.rd64 0 a) ((w.g.rd 0 b).toNat % 8) = true then w else w.tileWait := by
  unfold W.twait
  rw [if_neg on.goes, on.tile]
  dsimp only
  rw [if_neg (not_not_intro good)]
  split
  · rfl
  · rename_i fails
    exact if_neg (fun h => fails (empty (of_decide_eq_true (Bool.and_eq_true_iff.1 h).1)))

end

/-- The mask test of TTEST and TWAIT (R232), bit by bit. -/
theorem Tile.test_iff (t : Tile) (m : DWord) (g : Nat) : t.test m g = true ↔
    ∀ k, k < 64 → m.getLsbD k = true → t.size / 512 ≤ 64 * g + k ∨ t.bits.testBit (64 * g + k) = true := by
  simp only [Tile.test, Tile.bit, List.all_eq_true, List.mem_range, Bool.or_eq_true, Bool.not_eq_true', decide_eq_true_eq]
  refine forall₂_congr fun k _ => ?_
  cases m.getLsbD k <;> simp

theorem W.tstate_named {w : W} {n tid : Nat} {d : Opnd} {by_ : Bool} (team : w.g.tid = tid) (named : n < (w.s.teamD tid).kernel.tiles) :
    w.tstate d n by_ = w.var (dstCells d 0 w.ex (fun _ => match kget (w.s.teamD tid).tiles n with
      | none => 0
      | some t => if by_ then BitVec.ofNat 32 t.bytes else BitVec.ofNat 32 (tileWord t))) (w.clk + 8) false := by
  subst team
  unfold W.tstate
  rw [if_neg (by simp [named]), W.tile_some named]
  dsimp only
  cases kget (w.s.teamD w.g.tid).tiles n with
  | none => rfl
  | some t => cases by_ <;> rfl

end Sys2Proof.Machine

open Sys2Proof Sys2Proof.Machine Sys2Proof.Laws

/-- Settles O27: a change of the team's tiles leaves the groups, and a wait closes the TOUCH windows and holds the word. -/
theorem tileWords : Obligations.TileWords := by
  intro h d a b q n by_ s g pc t E S X T ready names sets waits al fr dr ex st tt tw off size inc holds
  have onTile : ∀ i, names i → (W.begin (info i) s g pc).OnTile n.val g.tid t := fun i ⟨⟨hr, busy⟩, named, is⟩ => hr.onTile busy named is
  have team : ∀ i, (W.begin (info i) s g pc).g.tid = g.tid := fun i => (Group.entered_place g (info i)).1
  have teams : ∀ i f, Steady s.focus (s.entered (info i) g) ((S i).modTeam g.tid f) := fun i f => Steady.ofGroups _ rfl
  refine ⟨fun ⟨hr, busy⟩ named free start whole some_ most fits => ?_, fun on => ?_, fun on => ?_, fun on least most sum => ?_, fun ⟨hr, busy⟩ named => ?_,
    fun on good v hv => ?_, fun on good => ?_⟩
  · exact hr.does rfl _ (W.talloc_free (W.begin_ex busy) hr.wet (team al) named free start whole some_ most fits) (teams al _)
  · split
    case isTrue busy => exact on.1.1.waitsForTile rfl (W.tfree_waits (onTile fr on) busy)
    case isFalse idle => exact on.1.1.does rfl _ (W.tfree_idle (onTile fr on) idle) (teams fr _)
  · split
    case isTrue busy => exact on.1.1.waitsForTile rfl (W.tdrain_waits (onTile dr on) busy)
    case isFalse idle =>
      split
      case isTrue is => exact on.1.1.does rfl _ (W.tdrain_ready (onTile dr on) is) (teams dr _)
      case isFalse other => exact on.1.1.does rfl _ (W.tdrain_empty (onTile dr on) idle other) (Steady.refl _ _)
  · have body := W.texpect_fits (onTile ex on) least most sum
    split
    case isTrue is => exact on.1.1.waitsForTile rfl (body.trans (if_pos is))
    case isFalse other => exact on.1.1.does rfl _ (body.trans (if_neg other)) (teams ex _)
  · exact hr.awaits rfl busy s.free _ _ false (W.tstate_named (team st) named) _ rfl
  · have same : t.test ((E tt).rd64 0 a) (((E tt).rd 0 b).toNat % 8) = v := Bool.eq_iff_iff.2 ((Tile.test_iff _ _ _).trans hv.symm)
    refine on.1.1.awaits rfl on.1.2 s.free _ _ false ((W.ttest_good (onTile tt on) good).trans ?_) _ rfl
    exact congrArg (fun x => (W.begin (info tt) s g pc).var (predCells (.q q) (X tt) (fun _ => x)) _ false) same
  · refine ⟨fun met => ?_, fun unmet state => ?_⟩
    · have test := (Tile.test_iff t _ _).2 met
      exact on.1.1.nothing rfl ((W.twait_good (onTile tw on) good (fun _ => test)).trans (if_pos test))
    · have test : ¬ _ := fun test => unmet ((Tile.test_iff t _ _).1 test)
      exact on.1.1.waitsForTile rfl ((W.twait_good (onTile tw on) good (fun is => absurd is state)).trans (if_neg test))
end

section
/-! PROOFS of the copy words (R222, R223, R227, R233, R238–R241). -/

namespace Sys2Proof.Machine

/-! ### A team's tiles -/

theorem State.team_modTeam (s : State) (t : Nat) (f : Team → Team) (k : Nat) : (s.modTeam t f).team k = if k = t then (s.team k).map f else s.team k :=
  kget_kmod s.teams t k f

theorem State.tile_modTile (s : State) (tid n : Nat) (f : Tile → Tile) (k m : Nat) :
    (s.modTile tid n f).tile k m = if k = tid ∧ m = n then (s.tile k m).map f else s.tile k m := by
  unfold State.tile State.modTile
  rw [State.team_modTeam]
  by_cases team : k = tid
  · rw [if_pos team]
    cases s.team k with
    | none => exact (ite_self _).symm
    | some x =>
      refine (kget_kmod x.tiles n m f).trans ?_
      simp only [team, true_and]
      rfl
  · rw [if_neg team, if_neg (fun h => team h.1)]

theorem State.tile_of_teamD {s : State} {tid n : Nat} {x : Tile} (h : kget (s.teamD tid).tiles n = some x) : s.tile tid n = some x := by
  unfold State.teamD at h
  unfold State.tile State.team
  cases has : kget s.teams tid with
  | none =>
    rw [has] at h
    cases h
  | some t =>
    rw [has] at h
    exact h

theorem State.teamD_of_tile {s : State} {tid n : Nat} {x : Tile} (h : s.tile tid n = some x) : kget (s.teamD tid).tiles n = some x := by
  unfold State.tile State.team at h
  unfold State.teamD
  cases has : kget s.teams tid with
  | none =>
    rw [has] at h
    cases h
  | some t =>
    rw [has] at h
    exact h

/-! ### The records of a copy word's lanes (R233) -/

theorem State.copyRecord_kept (s : State) (g : Group) (a b : Opnd) (s24 : Bool) (l : Nat) : Calm s (s.copyRecord g a b s24 l).2.2 := by
  have calm := (s.jobRead_kept g.who (g.rd64 l a) 64 true).1
  unfold State.copyRecord
  dsimp only
  split
  · exact calm
  · exact calm
  · split <;> exact calm
  · exact calm

theorem State.copyRecords_kept (g : Group) (a b : Opnd) (s24 : Bool) (lanes : List Nat) (s : State) :
    Calm s (s.copyRecords g a b s24 lanes).2 ∧ (s.copyRecords g a b s24 lanes).1.length = lanes.length := by
  induction lanes generalizing s with
  | nil => exact ⟨Calm.refl s, rfl⟩
  | cons l t ih =>
    obtain ⟨calm, length⟩ := ih (s.copyRecord g a b s24 l).2.2
    exact ⟨(s.copyRecord_kept g a b s24 l).trans calm, congrArg Nat.succ length⟩

/-! ### The jobs of a copy word (R222, R223) -/

/-- The job one lane of a copy word makes (R227, R233). -/
def copyJob (gid : Nat) (g : Group) (pc : Pc) (n : Nat) (drain win s24 : Bool) (parts : List Nat) (s : State) (c : CopyLane) (x : Tile) : CopyJob :=
  let none_ := decide (c.err ≠ 0)
  let tr := if none_ then [] else tileRange (s.teamD g.tid) x c.lay
  let gr := if none_ then [] else c.lay.globalRange c.coords s24
  let mr := if s24 && !none_ then c.lay.metaRange c.coords c.md else []
  ⟨s.serial, g.tid, gid, g.core, pc, n, drain, win, s24, c.md, c.ptr, c.lay, c.coords, if drain then tr else gr ++ mr, if drain then gr else tr,
    c.err, .issued, if none_ then [] else c.lay.chunks, [], parts.map (fun p => (p, false)), 0, c.errVa, []⟩

/-- The change of the tile a lane's job brings (R223): its chunks' bits clear in a fill, and one more job in OC. -/
def Tile.issued (drain : Bool) (c : CopyLane) (t : Tile) : Tile :=
  { (if drain then t else t.clear (if decide (c.err ≠ 0) then [] else c.lay.chunks)) with oc := t.oc + 1 }

theorem State.copyIssue_eq (gid : Nat) (g : Group) (pc : Pc) (n : Nat) (drain win s24 : Bool) (parts : List Nat) (s : State) (c : CopyLane) :
    State.copyIssue gid g pc n drain win s24 parts s c = match kget (s.teamD g.tid).tiles n with
      | none => s
      | some x => State.modTile { s with serial := s.serial + 1, jobs := kset s.jobs s.serial (copyJob gid g pc n drain win s24 parts s c x) } g.tid n
          (Tile.issued drain c) := rfl

theorem Steady.copyIssue (focus gid : Nat) (g : Group) (pc : Pc) (n : Nat) (drain win s24 : Bool) (parts : List Nat) (s : State) (c : CopyLane) :
    Steady focus s (State.copyIssue gid g pc n drain win s24 parts s c) := by
  rw [State.copyIssue_eq]
  split
  · exact Steady.refl _ _
  · exact Steady.ofGroups _ rfl

theorem Steady.copyGo (focus : Nat) (s : State) (gid : Nat) (g : Group) (pc : Pc) (n : Nat) (drain win s24 : Bool) (mc : Option (BitVec 4)) (recs : List CopyLane) :
    Steady focus s (s.copyGo gid g pc n drain win s24 mc recs) := by
  refine Steady.trans ?_ (Steady.fold (Steady.copyIssue focus gid g pc n drain win s24 _) recs _)
  exact Steady.trans (t := s.modTile g.tid n _) (Steady.ofGroups _ rfl) (Steady.modGrp _ _ _ _ (fun _ => ⟨rfl, rfl⟩))

/-- A copy word whose lanes pass their checks on tile `t` of team `tid`. -/
structure W.Copies (w : W) (n : Nat) (a : Opnd) (t : Tile) : Prop where
  wet : w.dry = false
  some_ : w.ex.filter (fun l => !w.g.isHelper l) ≠ []
  tile : w.tile n = some t
  good : t.err = 0
  aligned : ∀ l ∈ w.ex.filter (fun l => !w.g.isHelper l), (w.g.rd64 l a).toNat % 64 = 0

/-- A copy word whose lanes pass their checks: only the tile's state and the room in the window are left to see (R222, R228, R233). -/
theorem W.Copies.eq {w : W} {n : Nat} {a : Opnd} {t : Tile} (h : w.Copies n a t) (b : Opnd) (drain win s24 : Bool) (mc : Option (BitVec 4)) :
    w.copy n a b drain win s24 mc =
      let lanes := w.ex.filter (fun l => !w.g.isHelper l)
      let r := w.s.copyRecords w.g a b s24 lanes
      let recs := r.1.filterMap (fun r => r.1)
      if drain && decide (t.state = .empty) then lanes.foldl (fun w l => w.fault ⟨l, .tileState, 0, 0, 0, kindJob, 0, false⟩) w
      else if decide (t.state = .draining) || (drain && decide (t.state = .filling)) then w.tileWait
      else if 1024 < w.s.windowUsed w.g.core + lanes.length then { w with hold := some .depEngine }
      else if recs.length < lanes.length then { w with s := r.2, hold := some .fault, holdFx := askRecords w.gid (r.1.filterMap (fun r => r.2)) }
      else { w with s := r.2.copyGo w.gid w.g w.pc n drain win s24 mc recs } := by
  have check : ∀ l ∈ w.ex.filter (fun l => !w.g.isHelper l), w.copyCheck n a l = none := by
    intro l hl
    unfold W.copyCheck
    rw [h.tile]
    simp only [h.good, h.aligned l hl, ne_eq, not_true_eq_false, if_false]
  have pass : (w.ex.filter (fun l => !w.g.isHelper l)).filter (fun l => (w.copyCheck n a l).isNone) = w.ex.filter (fun l => !w.g.isHelper l) :=
    List.filter_eq_self.2 (fun l hl => by rw [check l hl]; rfl)
  have faults : (w.ex.filter (fun l => !w.g.isHelper l)).filterMap (w.copyCheck n a) = [] := List.filterMap_eq_nil_iff.2 check
  have some_ : ¬ (w.ex.filter (fun l => !w.g.isHelper l)).isEmpty = true := fun e => h.some_ (List.isEmpty_iff.1 e)
  unfold W.copy
  rw [if_neg (Bool.eq_false_iff.1 h.wet)]
  dsimp only
  rw [pass, faults, List.foldl_nil, if_neg some_, h.tile]

/-- With room in the window and every record known, a copy word issues its jobs. -/
theorem W.Copies.go {w : W} {n : Nat} {a : Opnd} {t : Tile} (h : w.Copies n a t) (b : Opnd) (drain win s24 : Bool) (mc : Option (BitVec 4))
    (filled : ¬ (drain && decide (t.state = .empty)) = true) (free : ¬ (decide (t.state = .draining) || (drain && decide (t.state = .filling))) = true)
    (window : w.s.windowUsed w.g.core + (w.ex.filter (fun l => !w.g.isHelper l)).length ≤ 1024)
    (known : ∀ r ∈ (w.s.copyRecords w.g a b s24 (w.ex.filter (fun l => !w.g.isHelper l))).1, r.1.isSome = true) :
    let r := w.s.copyRecords w.g a b s24 (w.ex.filter (fun l => !w.g.isHelper l))
    w.copy n a b drain win s24 mc = { w with s := r.2.copyGo w.gid w.g w.pc n drain win s24 mc (r.1.filterMap (fun r => r.1)) } := by
  have length := (State.copyRecords_kept w.g a b s24 (w.ex.filter (fun l => !w.g.isHelper l)) w.s).2
  have all : ((w.s.copyRecords w.g a b s24 (w.ex.filter (fun l => !w.g.isHelper l))).1.filterMap (fun r => r.1)).length =
      (w.s.copyRecords w.g a b s24 (w.ex.filter (fun l => !w.g.isHelper l))).1.length := List.filterMap_length_eq_length.2 known
  rw [h.eq b drain win s24 mc]
  dsimp only
  rw [if_neg filled, if_neg free, if_neg (Nat.not_lt.2 window), if_neg (by rw [all, length]; exact Nat.lt_irrefl _)]

theorem Ready.copies {i : Instr} {s : State} {g : Group} {pc : Pc} {n : Nat} {a : Opnd} {t : Tile} (h : Ready (info i) (ownKeys (info i)) s g pc)
    (some_ : ((g.entered (info i)).exLanes (info i) g.active).filter (fun l => !(g.entered (info i)).isHelper l) ≠ [])
    (named : n < (s.teamD g.tid).kernel.tiles) (is : kget (s.teamD g.tid).tiles n = some t) (good : t.err = 0)
    (aligned : ∀ l ∈ ((g.entered (info i)).exLanes (info i) g.active).filter (fun l => !(g.entered (info i)).isHelper l),
      ((g.entered (info i)).rd64 l a).toNat % 64 = 0) : (W.begin (info i) s g pc).Copies n a t :=
  ⟨h.wet, some_, (h.onTile (fun e => some_ (by rw [e]; rfl)) named is).tile, good, aligned⟩

/-! ### XPREF and XSTAT -/

theorem Calm.foldMem {α : Type} {f : State → α → State} (each : ∀ s a, Calm s (f s a) ∧ (f s a).mem = s.mem) (l : List α) (s : State) :
    Calm s (l.foldl f s) ∧ (l.foldl f s).mem = s.mem := by
  induction l generalizing s with
  | nil => exact ⟨Calm.refl s, rfl⟩
  | cons a t ih => exact ⟨(each s a).1.trans (ih _).1, (ih _).2.trans (each s a).2⟩

theorem State.xprefLane_kept (g : Group) (a b : Opnd) (s : State) (l : Nat) :
    Calm s (State.xprefLane g a b s l) ∧ (State.xprefLane g a b s l).mem = s.mem := by
  obtain ⟨calm, mem⟩ := s.jobRead_kept g.who (g.rd64 l a) 64 true
  unfold State.xprefLane
  dsimp only
  split
  · exact ⟨Calm.refl s, rfl⟩
  · split
    · split
      · exact ⟨calm, mem⟩
      · refine (fun h => ⟨calm.trans h.1, h.2.trans mem⟩) (Calm.foldMem (fun s p => ?_) _ _)
        obtain ⟨calm, mem⟩ := s.jobAt_kept g.who p needR
        split
        · exact ⟨calm.trans (State.fillL2_calm _ _ _ _ _), (State.fillL2_mem _ _ _ _ _).trans mem⟩
        · exact ⟨calm, mem⟩
    · exact ⟨calm, mem⟩

/-- XSTAT's word (R241). -/
theorem State.xstatWord_eq {s : State} {g : Group} {core tid : Nat} (hc : g.core = core) (ht : g.tid = tid) : s.xstatWord g =
    (if s.windowUsed core < 1024 then 0 else 2 ^ 31) +
    2 ^ 24 * (((s.jobs.filter (fun j => decide (j.2.tid = tid))).foldl (fun n j => n + j.2.parked.length) 0) % 128) +
    ((s.jobs.filter (fun j => decide (j.2.tid = tid))).length + (s.mjobs.filter (fun j => decide (j.2.tid = tid))).length) % 2048 := by
  subst hc ht
  unfold State.xstatWord
  simp only [field_eq]
  split <;> omega

/-- A lane's job and its tile once it is issued (R223, R227). -/
theorem State.copyIssue_tile (gid : Nat) (g : Group) (pc : Pc) (n : Nat) (drain win s24 : Bool) (parts : List Nat) (s : State) (c : CopyLane) {x : Tile}
    (is : kget (s.teamD g.tid).tiles n = some x) :
    ∃ j y, (State.copyIssue gid g pc n drain win s24 parts s c).jobs = kset s.jobs s.serial j ∧
      j.phase = .issued ∧ j.tid = g.tid ∧ j.core = g.core ∧ j.gid = gid ∧ j.pc = pc ∧ j.tile = n ∧ j.drain = drain ∧ j.recErr = c.err ∧
      (c.err ≠ 0 → j.reads = [] ∧ j.writes = [] ∧ j.unsettled = []) ∧
      (c.err = 0 → j.unsettled = c.lay.chunks ∧ (if drain then j.reads else j.writes) = tileRange (s.teamD g.tid) x c.lay) ∧
      kget ((State.copyIssue gid g pc n drain win s24 parts s c).teamD g.tid).tiles n = some y ∧ y.oc = x.oc + 1 ∧ y.state = x.state ∧
      y.bits = (if drain then x.bits else (x.clear (if c.err = 0 then c.lay.chunks else [])).bits) := by
  have issued := (State.copyIssue_eq gid g pc n drain win s24 parts s c).trans (by rw [is])
  refine ⟨copyJob gid g pc n drain win s24 parts s c x, x.issued drain c, congrArg State.jobs issued, rfl, rfl, rfl, rfl, rfl, rfl, rfl, rfl,
    fun bad => ?_, fun good => ?_, ?_, rfl, ?_, ?_⟩
  · simp only [copyJob, bad, ne_eq, not_false_eq_true, decide_true, if_true, Bool.not_true, Bool.and_false, Bool.false_eq_true, if_false, List.append_nil,
      ite_self, and_self]
  · simp only [copyJob, good, ne_eq, not_true_eq_false, decide_false, Bool.false_eq_true, if_false, true_and]
    cases drain <;> rfl
  · rw [issued]
    refine State.teamD_of_tile ((State.tile_modTile _ g.tid n _ g.tid n).trans ?_)
    rw [if_pos ⟨rfl, rfl⟩]
    exact congrArg (Option.map (Tile.issued drain c)) (State.tile_of_teamD is)
  · cases drain <;> rfl
  · cases drain with
    | true => rfl
    | false => by_cases good : c.err = 0 <;> simp [Tile.issued, good]

end Sys2Proof.Machine

open Sys2Proof Sys2Proof.Machine Sys2Proof.Laws

/-- Settles O28. -/
theorem copyWords : Obligations.CopyWords := by
  intro h d a b n rm win s24 mc st s g pc t E S X T ready lanes names recs room waits xl xs xp xf xt
  have copies : ∀ i, names i → (W.begin (info i) s g pc).Copies n.val a t := fun i ⟨hr, some_, named, is, good, aligned⟩ =>
    hr.copies some_ named is good aligned
  have core : ∀ i, (E i).core = g.core := fun i => (Group.entered_place g (info i)).2.1
  have tid : ∀ i, (E i).tid = g.tid := fun i => (Group.entered_place g (info i)).1
  have steady : ∀ i z drain win s24 mc l, Steady s.focus (S i) ((recs i z).2.copyGo s.focus (E i) pc n.val drain win s24 mc l) := fun i z drain win s24 mc l =>
    (Steady.ofCalm s.focus (State.copyRecords_kept (E i) a b z (lanes i) (S i)).1).trans (Steady.copyGo _ _ _ _ _ _ _ _ _ _ _)
  refine ⟨fun on => ⟨fun draining => ?_, fun idle ⟨window, known⟩ => ?_⟩, fun on => ⟨fun busy => ?_, fun is ⟨window, known⟩ => ?_⟩, fun hr => ?_, fun hr busy => ?_, fun hr busy => ?_, ?_⟩
  · refine on.1.waitsForTile rfl (((copies xl on).eq b false win s24 _).trans ?_)
    simp only [draining]
    rfl
  · refine on.1.does rfl _ ((copies xl on).go b false win s24 _ Bool.false_ne_true ?_ (by rw [← core xl] at window; exact window) known) (steady _ _ _ _ _ _ _)
    simpa using idle
  · refine on.1.waitsForTile rfl (((copies xs on).eq b true false false none).trans ?_)
    rcases busy with is | is <;> simp only [is] <;> rfl
  · refine on.1.does rfl _ ((copies xs on).go b true false false none (by simp [is]) (by simp [is]) (by rw [← core xs] at window; exact window) known) (steady _ _ _ _ _ _ _)
  · obtain ⟨calm, mem⟩ := Calm.foldMem (State.xprefLane_kept (E xp) a b) (lanes xp) (S xp)
    exact ⟨hr.does rfl _ (if_neg (Bool.eq_false_iff.1 hr.wet)) (Steady.ofCalm _ calm), State.byte_eq mem⟩
  · refine hr.changes rfl (fun k => { k with copyWait := k.copyWait ++ s.copiesOf s.focus st }) [] ?_ ⟨rfl, rfl⟩ rfl
    exact if_neg (by rw [W.begin_ex busy, hr.wet]; exact Bool.false_ne_true)
  · refine hr.awaits rfl busy s.free _ _ false ?_ _ rfl
    exact congrArg (fun v => (W.begin (info xt) s g pc).var (dstCells d 0 (X xt) (fun _ => BitVec.ofNat 32 v)) _ false) (State.xstatWord_eq (core xt) (tid xt))
  · intro gid g pc n drain win s24 parts s c x _ is
    exact State.copyIssue_tile gid g pc n drain win s24 parts s c is
end

section
/-! PROOFS of a copy job's events (R174, R222, R223, R226, R234–R238, R242). -/

namespace Sys2Proof.Machine

theorem State.partReady_tile {s : State} {j : CopyJob} {k : Nat} {x : Tile} (is : s.tile k j.tile = some x) (idle : x.state ≠ .draining) (room : -1024 < x.ec) : s.partReady j k = true := by
  unfold State.partReady
  simp only [is, idle, room, ne_eq, not_false_eq_true, decide_true, Bool.and_self]

section
variable {s : State} {id : Nat} {j : CopyJob} (has : kget s.jobs id = some j)
include has

theorem State.jobStart_runs (err : (s.startErr j).1 = 0) :
    s.jobStart id = { s.newLines j with jobs := kset s.jobs id { j with phase := .running, reuse := s.heldLines j } } := by
  unfold State.jobStart
  rw [has]
  exact if_pos err

/-- A job that fails, with no part joined, ends with its code in its tile (R242). -/
theorem State.jobFail_alone (alone : ∀ p ∈ j.parts, p.2 = false) (code : Nat) (va : DWord) : s.jobFail id code va =
    State.modTile { s with jobs := kset s.jobs id { j with unsettled := [], parked := [], err := code, errVa := va, phase := .running } } j.tid j.tile
      (fun t => t.fail code va) := by
  have none_ : j.parts.filter (fun p => p.2) = [] := List.filter_eq_nil_iff.2 (fun p hp => Bool.eq_false_iff.1 (alone p hp))
  unfold State.jobFail State.jobErr
  rw [has]
  dsimp only
  rw [none_]
  rfl

theorem State.jobStart_fails (err : (s.startErr j).1 ≠ 0) : s.jobStart id =
    State.jobFail { s with jobs := kset s.jobs id { j with phase := .running } } id (s.startErr j).1 (s.startErr j).2 := by
  unfold State.jobStart
  rw [has]
  exact if_neg err

section
variable {part k : Nat} (at_ : j.parts.getD part (0, true) = (k, false))
include at_

/-- A part that has not joined yet is tried by its tile (R238). -/
theorem State.partStart_eq : s.partStart id part =
    if !s.partReady j k then s
    else if (match s.tile k j.tile with
        | some t => decide (128 * j.lay.toff + j.lay.rows * j.lay.p ≤ t.size)
        | none => false) then
      State.modTile { s with jobs := kset s.jobs id { j with parts := setNth j.parts part (k, true) } } k j.tile (fun t =>
        { (t.clear j.lay.chunks) with state := .filling, ec := t.ec - 1, oc := t.oc + 1 })
    else State.modTile { s with jobs := kset s.jobs id { j with parts := (j.parts.take part) ++ (j.parts.drop (part + 1)) } } j.tid j.tile (fun t => { t with mcd := true }) := by
  unfold State.partStart
  rw [has]
  dsimp only
  rw [at_] <;> rfl

theorem State.partStart_joins {x : Tile} (is : s.tile k j.tile = some x) (idle : x.state ≠ .draining) (room : -1024 < x.ec)
    (fits : 128 * j.lay.toff + j.lay.rows * j.lay.p ≤ x.size) : s.partStart id part =
    State.modTile { s with jobs := kset s.jobs id { j with parts := setNth j.parts part (k, true) } } k j.tile (fun t =>
      { (t.clear j.lay.chunks) with state := .filling, ec := t.ec - 1, oc := t.oc + 1 }) := by
  rw [State.partStart_eq has at_, State.partReady_tile is idle room, is]
  simp only [fits, Bool.not_true, Bool.false_eq_true, if_false, decide_true, if_true]

theorem State.partStart_drops (misfit : s.tile k j.tile = none ∨ ∃ x, s.tile k j.tile = some x ∧ x.state ≠ .draining ∧ -1024 < x.ec ∧
    ¬ 128 * j.lay.toff + j.lay.rows * j.lay.p ≤ x.size) : s.partStart id part =
    State.modTile { s with jobs := kset s.jobs id { j with parts := j.parts.take part ++ j.parts.drop (part + 1) } } j.tid j.tile (fun t => { t with mcd := true }) := by
  rw [State.partStart_eq has at_]
  rcases misfit with is | ⟨x, is, idle, room, fits⟩
  · have ready : s.partReady j k = true := by
      unfold State.partReady
      rw [is]
    simp only [is, ready, Bool.not_true, Bool.false_eq_true, if_false]
  · rw [State.partReady_tile is idle room, is]
    simp only [fits, Bool.not_true, Bool.false_eq_true, if_false, decide_false]

end

theorem State.chunkSettle_next {c : Nat} (next : j.unsettled.find? (fun c => (kget j.parked c).isNone) = some c) : s.chunkSettle id = s.chunkRun id c := by
  unfold State.chunkSettle
  rw [has]
  dsimp only
  rw [next]

theorem State.chunkReissue_next {p : Nat × Nat} (next : j.parked.find? (s.parkedReady j) = some p) :
    s.chunkReissue id = State.chunkRun { s with jobs := kset s.jobs id { j with parked := kdel j.parked p.1 } } id p.1 := by
  unfold State.chunkReissue
  rw [has]
  dsimp only
  rw [next]

/-- A chunk of a fill whose elements can all be read (R223, R234). -/
theorem State.chunkRun_fill {c : Nat} {l : List (Nat × List Byte)} {u : State} (fill : j.drain = false)
    (moved : s.fillChunk ⟨j.core, (s.teamD j.tid).ctx, false⟩ j (j.lay.inChunk j.coords c) = (.ok l, u)) : s.chunkRun id c =
    let v := u.countLines ⟨j.core, (s.teamD j.tid).ctx, false⟩ (j.requests (j.lay.inChunk j.coords c))
    (j.parts.filter (fun p => p.2)).foldl (fun t p => t.fillTile id p.1 j.tile c l)
      (State.fillTile { v with jobs := kset v.jobs id { j with unsettled := j.unsettled.filter (fun k => decide (k ≠ c)), parked := kdel j.parked c } }
        id j.tid j.tile c l) := by
  unfold State.chunkRun
  rw [has]
  dsimp only
  rw [if_neg (Bool.eq_false_iff.1 fill), moved]

/-- A chunk of a drain whose elements can all be written (R223, R235). -/
theorem State.chunkRun_drain {c : Nat} {l : List (Nat × Nat × Nat)} {u : State} (drain : j.drain = true)
    (moved : s.drainChunk ⟨j.core, (s.teamD j.tid).ctx, false⟩ j (j.lay.inChunk j.coords c) = (.ok l, u)) : s.chunkRun id c =
    let v := State.countLines (l.foldl (fun t p => t.writeL2 (coreDie j.core) (s.teamD j.tid).ctx p.2.1 p.2.2
        (t.bytes (flatScratch (u.teamD j.tid).core ((u.teamD j.tid).allocOff + ((u.tile j.tid j.tile).map (fun x => x.base)).getD 0 + p.1)) j.lay.e)) u)
      ⟨j.core, (s.teamD j.tid).ctx, false⟩ ((j.lay.inChunk j.coords c).map (fun x => j.lay.ga j.coords x.1 (j.lay.x j.coords x.1 x.2 0)))
    { v with jobs := kset v.jobs id { j with unsettled := j.unsettled.filter (fun k => decide (k ≠ c)), parked := kdel j.parked c } } := by
  unfold State.chunkRun
  rw [has]
  dsimp only
  rw [if_pos drain, moved]

/-- A chunk that meets an absent page is parked with a fault request (R174). -/
theorem State.chunkRun_parks {c : Nat} {ptr : DWord} {mal : Bool} {lvl : Nat} {u : State}
    (parks : if j.drain then (s.drainChunk ⟨j.core, (s.teamD j.tid).ctx, false⟩ j (j.lay.inChunk j.coords c)).1 = .error (.park ptr (some (mal, lvl))) ∧
        (s.drainChunk ⟨j.core, (s.teamD j.tid).ctx, false⟩ j (j.lay.inChunk j.coords c)).2 = u
      else (s.fillChunk ⟨j.core, (s.teamD j.tid).ctx, false⟩ j (j.lay.inChunk j.coords c)).1 = .error (.park ptr (some (mal, lvl))) ∧
        (s.fillChunk ⟨j.core, (s.teamD j.tid).ctx, false⟩ j (j.lay.inChunk j.coords c)).2 = u) :
    let q := u.request ⟨coreDie j.core, none, 1, .job id, (u.teamD j.tid).ctx, [lo32 ptr, hi32 ptr], 0, 0, 0, 0, kindJob, mal, lvl, []⟩
    s.chunkRun id c = { q.2 with jobs := kset q.2.jobs id { j with parked := kset j.parked c q.1 } } := by
  unfold State.chunkRun
  rw [has]
  dsimp only
  by_cases drain : j.drain = true
  · rw [if_pos drain] at parks ⊢
    rw [show s.drainChunk _ j _ = (_, u) from Prod.ext parks.1 parks.2]
    rfl
  · rw [if_neg drain] at parks ⊢
    rw [show s.fillChunk _ j _ = (_, u) from Prod.ext parks.1 parks.2]
    rfl

theorem State.jobComplete_done (runs : j.phase = .running) (settled : j.unsettled = []) : s.jobComplete id =
    (j.parts.filter (fun p => p.2)).foldl (fun t p => t.tileDone p.1 j.tile) (State.tileDone { s with jobs := kdel s.jobs id } j.tid j.tile) := by
  unfold State.jobComplete
  rw [has]
  exact if_pos ⟨runs, settled⟩

end

/-- One job less in a tile's OC, and a tile whose counts reach zero READY (R222, R223). -/
theorem Tile.settle_done (x : Tile) : let y := ({ x with oc := x.oc - 1 } : Tile).settle
    y.oc = x.oc - 1 ∧ y.ec = x.ec ∧ y.err = x.err ∧
    y.state = (if x.oc ≤ 1 ∧ (x.state = .draining ∨ x.state = .filling ∧ x.ec = 0) then .ready else x.state) ∧
    y.bits = (if x.oc ≤ 1 ∧ x.state = .filling ∧ x.ec = 0 ∧ x.err = 0 then allBits else x.bits) := by
  have last : x.oc - 1 = 0 ↔ x.oc ≤ 1 := by omega
  unfold Tile.settle
  cases is : x.state
  case filling =>
    by_cases over_ : x.oc - 1 = 0 ∧ x.ec = 0
    · by_cases good : x.err = 0 <;> simp [over_, good, last.1 over_.1]
    · have : ¬ (x.oc ≤ 1 ∧ x.ec = 0) := fun h => over_ ⟨last.2 h.1, h.2⟩
      dsimp only
      rw [if_neg over_]
      refine ⟨rfl, rfl, rfl, ?_, ?_⟩
      · rw [if_neg (by simpa [is] using this)]
      · rw [if_neg (fun h => this ⟨h.1, h.2.2.1⟩)]
  case draining =>
    by_cases over_ : x.oc - 1 = 0 <;> simp [over_, ← last]
  all_goals simp

theorem State.tileDone_tile {t : State} {tid k : Nat} {x : Tile} (is : t.tile tid k = some x) :
    (t.tileDone tid k).tile tid k = some ({ x with oc := x.oc - 1 } : Tile).settle := by
  unfold State.tileDone
  rw [State.tile_modTile, if_pos ⟨rfl, rfl⟩, is]
  rfl

end Sys2Proof.Machine

open Sys2Proof Sys2Proof.Machine Sys2Proof.Laws

/-- Settles O29. -/
theorem copyEvents : Obligations.CopyEvents := by
  intro s id j on has set tile size check w
  refine ⟨fun rec_ good => ?_, fun x alone is bad => ?_, fun part k inside at_ => ?_, fun c next => ?_, fun p next => ?_,
    fun c => ?_, fun runs settled => ?_, fun t tid k x is => ?_⟩
  · refine (if_pos on).trans (congrArg Host.Outcome.next (State.jobStart_runs has ?_))
    rw [State.startErr, if_neg (not_not_intro rec_)]
    exact good
  · have code : (s.startErr j).1 = if j.recErr ≠ 0 then j.recErr else check := by
      unfold State.startErr
      split <;> rfl
    have err : (s.startErr j).1 ≠ 0 := by
      rw [code]
      split
      · assumption
      · exact bad.resolve_left ‹_›
    obtain ⟨va, started⟩ : ∃ va, s.jobStart id = State.jobFail (set { j with phase := .running }) id (if j.recErr ≠ 0 then j.recErr else check) va :=
      ⟨_, (State.jobStart_fails has err).trans (by rw [code])⟩
    have failed := State.jobFail_alone (s := set { j with phase := .running }) (kget_kset_self s.jobs id _) alone (if j.recErr ≠ 0 then j.recErr else check) va
    refine ⟨_, x.fail (if j.recErr ≠ 0 then j.recErr else check) va, _, (if_pos on).trans (congrArg Host.Outcome.next (started.trans failed)), rfl,
      ⟨va, kget_kset_self _ id _⟩, ?_, ?_, ?_⟩
    · exact (State.tile_modTile _ j.tid j.tile _ j.tid j.tile).trans ((if_pos ⟨rfl, rfl⟩).trans (congrArg (Option.map _) is))
    · unfold Tile.fail
      split <;> simp_all
    · unfold Tile.fail
      split <;> exact ⟨rfl, rfl, rfl⟩
  · intro fits
    exact ⟨fun x is idle room fit => (if_pos on).trans (congrArg Host.Outcome.next (State.partStart_joins has at_ is idle room fit)),
      fun misfit => (if_pos on).trans (congrArg Host.Outcome.next (State.partStart_drops has at_ misfit))⟩
  · exact (if_pos on).trans (congrArg Host.Outcome.next (State.chunkSettle_next has next))
  · exact (if_pos on).trans (congrArg Host.Outcome.next (State.chunkReissue_next has next))
  · exact ⟨fun l u fill moved => State.chunkRun_fill has fill moved, fun l u drain moved => State.chunkRun_drain has drain moved,
      fun ptr mal lvl u parks => State.chunkRun_parks has parks⟩
  · exact (if_pos on).trans (congrArg Host.Outcome.next (State.jobComplete_done has runs settled))
  · obtain ⟨oc, ec, err, state, bits⟩ := Tile.settle_done x
    exact ⟨_, State.tileDone_tile is, oc, ec, err, state, bits⟩
end

section
/-! PROOFS of the fragment products (R244–R253). -/

namespace Sys2Proof.Machine

theorem Steady.fragTakes (focus : Nat) (s : State) (gid core units : Nat) (bits : Word) : Steady focus s (s.fragTakes gid core units bits) := by
  unfold State.fragTakes
  dsimp only
  split
  · exact Steady.ofGroups _ rfl
  · exact Steady.trans (t := s.modCore core _) (Steady.ofGroups _ rfl) (Steady.modGrp _ _ _ _ (fun _ => ⟨rfl, rfl⟩))

/-- A fragment word with room in its core's array (R246, R251, R253). -/
theorem Ready.fragments {i : Instr} {s : State} {g : Group} {pc : Pc} {body : W → W} {units : Nat} {d : Opnd} {n : Nat} (v : Nat → Nat → Nat) (bits : Nat → Nat → Word)
    (h : Ready (info i) (fragKeys (info i)) s g pc) (he : exec i s = runWordX i (fragKeys (info i)) s body)
    (busy : (g.entered (info i)).exLanes (info i) g.active ≠ []) (room : (s.core g.core).arrayUsed + units ≤ 2)
    (hb : body (W.begin (info i) s g pc) = (W.begin (info i) s g pc).fragment units d n (fun l j => (v l j, bits l j))) :
    let X := (g.entered (info i)).exLanes (info i) g.active
    Performs i s g pc ((s.entered (info i) g).fragTakes s.focus g.core units (((List.range n).flatMap (fun j => X.map (fun l => bits l j))).foldl (fun x y => x ||| y) 0))
      ((List.range n).flatMap (fun j => X.flatMap (fun l => dstCells d j [l] (fun _ => BitVec.ofNat 32 (v l j))))) := by
  intro X
  have core : (g.entered (info i)).core = g.core := (Group.entered_place g (info i)).2.1
  let r := (List.range n).flatMap (fun j => X.map (fun l => (l, j, v l j, bits l j)))
  have cells : r.flatMap (fun x => dstCells d x.2.1 [x.1] (fun _ => BitVec.ofNat 32 x.2.2.1)) =
      (List.range n).flatMap (fun j => X.flatMap (fun l => dstCells d j [l] (fun _ => BitVec.ofNat 32 (v l j)))) := by
    simp only [r, List.flatMap_assoc, List.flatMap_map]
  have ored : r.foldl (fun b x => b ||| x.2.2.2) 0 = ((List.range n).flatMap (fun j => X.map (fun l => bits l j))).foldl (fun x y => x ||| y) 0 := by
    rw [← List.foldl_map (f := fun x : Nat × Nat × Nat × Word => x.2.2.2) (g := fun x y => x ||| y)]
    congr 1
    simp only [r, List.map_flatMap, List.map_map, Function.comp_def]
  have taken : (W.begin (info i) s g pc).fragment units d n (fun l j => (v l j, bits l j)) =
      { (W.begin (info i) s g pc).fix (r.flatMap (fun x => dstCells d x.2.1 [x.1] (fun _ => BitVec.ofNat 32 x.2.2.1))) with
        s := (s.entered (info i) g).fragTakes s.focus g.core units (r.foldl (fun b x => b ||| x.2.2.2) 0) } := by
    unfold W.fragment
    rw [W.begin_ex busy, if_neg Bool.false_ne_true, if_neg (by exact core.symm ▸ Nat.not_lt.2 room)]
    exact congrArg₂ (fun c u => { (W.begin (info i) s g pc).fix (r.flatMap (fun x : Nat × Nat × Nat × Word => dstCells d x.2.1 [x.1] (fun _ => BitVec.ofNat 32 x.2.2.1))) with
      s := (s.entered (info i) g).fragTakes s.focus c u (r.foldl (fun b (x : Nat × Nat × Nat × Word) => b ||| x.2.2.2) 0) }) core (if_neg (Bool.eq_false_iff.1 h.wet))
  obtain ⟨-, -, -, kvpc, -, -, khelper, -, -⟩ := Group.entered_kept g (info i)
  obtain ⟨z, grp, vpc, helper⟩ := Steady.fragTakes s.focus (s.entered (info i) g) s.focus g.core units
    (((List.range n).flatMap (fun j => X.map (fun l => bits l j))).foldl (fun x y => x ||| y) 0) _ (State.entered_grp s (info i) g)
  rw [← cells, ← windowOf_cells (info i).lat (r.flatMap _)]
  refine h.effects he _ _ (hb.trans (taken.trans ?_)) grp ⟨vpc.trans kvpc, helper.trans khelper⟩
  rw [W.fix, W.fixL_eq, ored]
  rfl

/-! ### The elements -/

/-- MMA's and MMAS's element (R249). -/
theorem mmaElem_fst (ty : MmaTy) (sc x y z : Nat) : (mmaElem ty sc x y z).1 = mmaSum ty sc x y z := by
  cases ty <;> rfl

theorem iovfBit_eq (v : Int) : iovfBit (decide (v < -(2 ^ 31)) || decide (2 ^ 31 - 1 < v)) = if v < -(2 ^ 31) ∨ 2 ^ 31 - 1 < v then 1 else 0 := by
  unfold iovfBit
  simp only [Bool.or_eq_true, decide_eq_true_eq]

/-- The bits an element brings (R251). -/
theorem mmaBits_elem (ty : MmaTy) (sc x y z : Nat) : mmaBits ty (mmaElem ty sc x y z) = if mmaFloat ty then (if (fp32.val (mmaSum ty sc x y z)).isNan then 2 else 0)
    else if mmaExact ty x y z < -(2 ^ 31) ∨ 2 ^ 31 - 1 < mmaExact ty x y z then 1 else 0 := by
  unfold mmaBits
  rw [mmaElem_fst, ← iovfBit_eq]
  cases ty <;> rfl

/-! ### An operand's vectors (R245) -/

theorem bitsOf_within {x lo n a m : Nat} (inside : lo + n ≤ m) : bitsOf x (a + lo) n = x / 2 ^ a % 2 ^ m / 2 ^ lo % 2 ^ n := by
  rw [bitsOf_eq]
  apply Nat.eq_of_testBit_eq
  intro k
  simp only [Nat.testBit_mod_two_pow, Nat.testBit_div_two_pow]
  by_cases hk : k < n
  · have : k + lo < m := by omega
    simp only [hk, this, decide_true, Bool.true_and]
    congr 1
    omega
  · simp only [hk, decide_false, Bool.false_and]

/-- The digits of a number of `n` 32-bit digits. -/
theorem digits32 (r : Nat → Nat) (small : ∀ j, r j < 2 ^ 32) (n : Nat) : let x := (List.range n).foldl (fun x j => x + r j * 2 ^ (32 * j)) 0
    x < 2 ^ (32 * n) ∧ ∀ j, j < n → x / 2 ^ (32 * j) % 2 ^ 32 = r j := by
  induction n with
  | zero => exact ⟨Nat.one_pos, fun j hj => absurd hj (Nat.not_lt_zero j)⟩
  | succ n ih =>
    obtain ⟨below, digits⟩ := ih
    rw [List.range_succ, List.foldl_append, List.foldl_cons, List.foldl_nil]
    generalize (List.range n).foldl (fun x j => x + r j * 2 ^ (32 * j)) 0 = x at below digits
    refine ⟨?_, fun j hj => ?_⟩
    · calc x + r n * 2 ^ (32 * n) < 2 ^ (32 * n) + r n * 2 ^ (32 * n) := Nat.add_lt_add_right below _
        _ = (r n + 1) * 2 ^ (32 * n) := by ring
        _ ≤ 2 ^ 32 * 2 ^ (32 * n) := Nat.mul_le_mul_right _ (small n)
        _ = 2 ^ (32 * (n + 1)) := by ring
    · rcases Nat.lt_succ_iff_lt_or_eq.1 hj with lower | rfl
      · have high : r n * 2 ^ (32 * n) = 2 ^ (32 * j) * (2 ^ 32 * (r n * 2 ^ (32 * (n - j - 1)))) := by
          have : 32 * n = 32 * j + 32 + 32 * (n - j - 1) := by omega
          rw [this, Nat.pow_add, Nat.pow_add]
          ring
        rw [high, Nat.add_mul_div_left _ _ (Nat.two_pow_pos _), Nat.add_mul_mod_self_left]
        exact digits j lower
      · rw [Nat.add_mul_div_right _ _ (Nat.two_pow_pos _), Nat.div_eq_of_lt below, Nat.zero_add, Nat.mod_eq_of_lt (small j)]

theorem Group.fragElem_fragVec (g : Group) {o : Opnd} (v : Nat) {w k : Nat} (given : o ≠ .zero) (width : w = 4 ∨ w = 8 ∨ w = 16) (inside : w * k < 256) :
    fragElem (g.fragVec o v) w k = (g.rdj (if w * k < 128 then v else v + 16) (w * k / 32 % 4) o).toNat / 2 ^ (w * k % 32) % 2 ^ w := by
  have vec : g.fragVec o v = (List.range 8).foldl (fun x j => x + (g.rdj (if j < 4 then v else v + 16) (j % 4) o).toNat * 2 ^ (32 * j)) 0 := by
    cases o with
    | zero => exact absurd rfl given
    | _ => rfl
  have word : w * k / 32 < 4 ↔ w * k < 128 := by omega
  have offset : w * k % 32 + w ≤ 32 := by rcases width with rfl | rfl | rfl <;> omega
  have bit : w * k = 32 * (w * k / 32) + w * k % 32 := (Nat.div_add_mod _ _).symm
  unfold fragElem
  rw [vec]
  conv_lhs => rw [bit]
  rw [bitsOf_within offset, (digits32 _ (fun j => BitVec.isLt _) 8).2 _ (by omega)]
  simp only [word]

end Sys2Proof.Machine

open Sys2Proof Sys2Proof.Machine Sys2Proof.Laws

/-- Settles O30. -/
theorem fragmentProducts : Obligations.FragmentProducts := by
  intro h d a b c ty cj s g pc E X does row col sum fnv iovf mBits one cx cRes cBits scaleOf
  refine ⟨fun hr busy room => ?_, fun hr busy room => ?_, fun hr busy room => ?_, fun hr busy room => ?_, fun g o v w k given width inside =>
    g.fragElem_fragVec v given width inside⟩
  · exact hr.fragments _ _ rfl busy room (congrArg (W.fragment _ 1 d 8) (funext fun l => funext fun j => Prod.ext (mmaElem_fst _ _ _ _ _) (mmaBits_elem _ _ _ _ _)))
  · exact hr.fragments _ _ rfl busy room (congrArg (W.fragment _ 1 d 8) (funext fun l => funext fun j => Prod.ext (mmaElem_fst _ _ _ _ _) (mmaBits_elem _ _ _ _ _)))
  · exact hr.fragments _ _ rfl busy room rfl
  · exact hr.fragments _ _ rfl busy room (congrArg (W.fragment _ 2 d 16) (funext fun l => funext fun j => Prod.ext rfl (iovfBit_eq _)))
end

section
/-! PROOFS of the fragment loads and stores (R254–R257). -/

namespace Sys2Proof.Machine

/-- A piece that lies in memory or on chip. -/
def Placed (r : Reach) : Prop := (∃ p e z f, r = .glob p e z f) ∨ ∃ f c, r = .chip f c

/-- A piece that a store may write: placed, or on an absent page. -/
def Writable (r : Reach) : Prop := (∃ p e z f, r = .glob p e z f) ∨ (∃ f c, r = .chip f c) ∨ ∃ f, r = .absent f

theorem Placed.writable {r : Reach} (h : Placed r) : Writable r := h.imp_right .inl

/-- The bytes of every piece of a fragment (R255). -/
def fragSize (m : FragMod) : Nat :=
  match m.kind, m.t, m.es with
  | .fop, false, _ => 16
  | .fop, true, .e16 => 2
  | .fop, true, _ => 1
  | .facc, _, _ => 4
  | .fcpx, _, _ => 8

theorem pieces_size (m : FragMod) (p l : Nat) : ∀ x ∈ pieces m p l, x.n = fragSize m := by
  obtain ⟨sp, kind, t, es⟩ := m
  intro x hx
  unfold pieces at hx
  cases kind <;> cases t
  case fop.true =>
    cases es <;> (obtain ⟨k, -, rfl⟩ := List.mem_map.1 hx; rfl)
  case fop.false => exact (List.mem_singleton.1 hx) ▸ rfl
  all_goals (obtain ⟨k, -, rfl⟩ := List.mem_map.1 hx; rfl)

/-! ### Where the pieces land (R255, R256) -/

theorem State.pieceAt_calm (s : State) (g : Group) (m : FragMod) (a : Opnd) (need : Need) (kind l : Nat) (x : Piece) : Calm s (s.pieceAt g m a need kind l x).2 := by
  unfold State.pieceAt
  split
  · exact State.reachG_calm _ _ _ _ _ _ _ _ _
  · exact Calm.refl s

theorem State.fragReach_kept (g : Group) (m : FragMod) (a : Opnd) (need : Need) (kind : Nat) (l : List (Nat × Piece)) (s : State) :
    Calm s (s.fragReach g m a need kind l).2 ∧ (s.fragReach g m a need kind l).1.map (fun x => (x.1, x.2.1)) = l := by
  induction l generalizing s with
  | nil => exact ⟨Calm.refl s, rfl⟩
  | cons x t ih =>
    obtain ⟨calm, same⟩ := ih (s.pieceAt g m a need kind x.1 x.2).2
    exact ⟨(s.pieceAt_calm g m a need kind x.1 x.2).trans calm, congrArg (List.cons x) same⟩

theorem State.fragReach_size {s : State} {g : Group} {m : FragMod} {a : Opnd} {need : Need} {kind p : Nat} {ls : List Nat} {x : FragAt}
    (hx : x ∈ (s.fragReach g m a need kind (fragPieces m p ls)).1) : x.2.1.n = fragSize m := by
  have mem : (x.1, x.2.1) ∈ fragPieces m p ls := by
    rw [← (State.fragReach_kept g m a need kind (fragPieces m p ls) s).2]
    exact List.mem_map_of_mem hx
  obtain ⟨l, -, hl⟩ := List.mem_flatMap.1 mem
  obtain ⟨y, hy, eq⟩ := List.mem_map.1 hl
  cases eq
  exact pieces_size m p _ _ hy

theorem State.tilePort_kept (s : State) (core : Nat) (rs : List FragAt) : Calm s (s.tilePort core rs).2 ∧ s.pkg.clock < (s.tilePort core rs).1 := by
  suffices each : ∀ (l : List (Nat × List (Nat × Unit))) (acc : Nat × State), Calm s acc.2 ∧ s.pkg.clock < acc.1 →
      let r := l.foldl (fun (acc : Nat × State) c =>
        let e := max s.pkg.clock (acc.2.core c.1).portBusy + (c.2.length + 7) / 8
        (max acc.1 (if c.1 = core then e + 16 else e + 39), acc.2.modCore c.1 (fun k => { k with portBusy := e }))) acc
      Calm s r.2 ∧ s.pkg.clock < r.1 from each (chipLines rs) (s.pkg.clock + 1, s) ⟨Calm.refl s, Nat.lt_succ_self _⟩
  intro l
  induction l with
  | nil => exact fun acc h => h
  | cons c t ih => exact fun acc h => ih _ ⟨h.1.trans ⟨rfl, rfl, rfl, rfl, rfl, rfl⟩, Nat.lt_of_lt_of_le h.2 (Nat.le_max_left _ _)⟩

theorem fragTrap_none (mute : Nat → Bool) (rs : List FragAt) (ok : ∀ x ∈ rs, ∀ f, x.2.2 ≠ .fault f) : fragTrap mute rs = none := by
  suffices each : ∀ acc, rs.foldl (fun (acc : Option (Nat × LaneFault)) x => match x.2.2 with
      | .fault f => if mute x.1 then acc else (match acc with
        | none => some (x.1, f)
        | some g => if decide (g.1 = x.1) && decide (f.va.toNat < g.2.va.toNat) then some (x.1, f) else acc)
      | _ => acc) acc = acc by
    unfold fragTrap
    exact congrArg _ (each none)
  intro acc
  induction rs generalizing acc with
  | nil => rfl
  | cons x t ih =>
    rw [List.foldl_cons]
    refine (ih (fun y hy => ok y (List.mem_cons_of_mem _ hy)) _).trans ?_
    split
    · exact absurd ‹_› (ok x List.mem_cons_self _)
    · rfl

/-- A fragment word none of whose pieces waits or fails goes on (R256). -/
theorem W.fragCheck_none (w : W) (rs : List FragAt) (ok : ∀ x ∈ rs, Writable x.2.2) : w.fragCheck rs = none := by
  have no_wait : ¬ rs.any (fun x => decide (x.2.2 = .wait)) = true := by
    rw [List.any_eq_true]
    rintro ⟨x, hx, waits⟩
    rcases ok x hx with ⟨p, e, z, f, is⟩ | ⟨f, c, is⟩ | ⟨f, is⟩ <;> rw [is] at waits <;> exact absurd (of_decide_eq_true waits) (by simp)
  have no_fault : ∀ x ∈ rs, ∀ f, x.2.2 ≠ .fault f := by
    intro x hx q
    rcases ok x hx with ⟨p, e, z, f, is⟩ | ⟨f, c, is⟩ | ⟨f, is⟩ <;> rw [is] <;> simp
  unfold W.fragCheck
  rw [if_neg no_wait, fragTrap_none _ _ no_fault]

theorem fragAbsents_nil (mute : Nat → Bool) {rs : List FragAt} (ok : ∀ x ∈ rs, Placed x.2.2) : fragAbsents mute rs = [] := by
  refine List.filterMap_eq_nil_iff.2 fun x hx => ?_
  rcases ok x hx with ⟨p, e, z, f, is⟩ | ⟨f, c, is⟩ <;> simp only [is]

theorem W.ldmBad_false (w : W) {rs : List FragAt} (ok : ∀ x ∈ rs, Placed x.2.2) (l : Nat) : w.ldmBad rs l = false := by
  unfold W.ldmBad
  rw [Bool.and_eq_false_iff]
  refine .inr (List.any_eq_false.2 fun x hx => ?_)
  rcases ok x hx with ⟨p, e, z, f, is⟩ | ⟨f, c, is⟩ <;> simp [is]

/-- A base and a pitch that are multiples of 16 (R256). -/
theorem Group.fragMis_false {g : Group} {m : FragMod} {a b : Opnd} (base : (if m.sp = .g then (g.rd64 0 a).toNat else (g.rd 0 a).toNat) % 16 = 0)
    (pitch : (g.rd 0 b).toNat % 16 = 0) : g.fragMis m a b = false := by
  unfold Group.fragMis
  simp only [pitch, ne_eq, not_true_eq_false, decide_false, Bool.or_false, decide_eq_false_iff_not, Decidable.not_not]
  split at base
  · rw [if_pos ‹_›]
    exact base
  · rw [if_neg ‹_›, BitVec.toNat_setWidth_of_le (by decide)]
    exact base

/-! ### LDM -/

/-- A placed piece whose data is good is read (R130). -/
theorem State.readsOk_placed {gid : Nat} {g : Group} {n l : Nat} {pol : Pol} {s u : State} {r : Reach} {t : List (Nat × Reach)} {data : List (Nat × List Byte)}
    (placed : Placed r) (reads : s.readsOk gid g n pol ((l, r) :: t) = some (data, u)) : ∃ b v rest, data = (l, b) :: rest ∧
      v.readsOk gid g n pol t = some (rest, u) ∧ ∀ w : W, w.s = s → w.gid = gid → w.g = g → ∀ sp, w.readLane n pol sp l r = (some b, { w with s := v }) := by
  unfold State.readsOk at reads
  dsimp only at reads
  rcases placed with ⟨p, e, z, f, rfl⟩ | ⟨f, c, rfl⟩
  · cases read : s.loadG g.who p n pol e z f with
    | mk o v =>
      simp only [read] at reads
      cases o with
      | none => cases reads
      | some b =>
        obtain ⟨⟨rest, x⟩, more, eq⟩ := Option.map_eq_some_iff.1 reads
        cases eq
        refine ⟨b, v, rest, rfl, more, ?_⟩
        rintro w rfl rfl rfl sp
        unfold W.readLane
        simp only [read]
  · by_cases bad : s.bad f n = true
    · simp [bad] at reads
    · simp only [bad] at reads
      obtain ⟨⟨rest, x⟩, more, eq⟩ := Option.map_eq_some_iff.1 reads
      cases eq
      refine ⟨_, s, rest, rfl, more, ?_⟩
      rintro w rfl rfl rfl sp
      unfold W.readLane
      simp only [bad]
      rfl

/-- LDM's reads where every piece's data is good. -/
theorem W.ldmReads_ok (m : FragMod) {n : Nat} (rs : List FragAt) (w : W) {u : State} {data : List (Nat × List Byte)} (size : ∀ x ∈ rs, x.2.1.n = n)
    (placed : ∀ x ∈ rs, Placed x.2.2) (reads : w.s.readsOk w.gid w.g n .keep (flatReach rs) = some (data, u)) :
    w.ldmReads m rs = ((rs.zip data).map (fun y => (y.1.1, some (pieceVal y.1.2.1 y.2.2))), { w with s := u }) := by
  induction rs generalizing w data with
  | nil =>
    cases reads
    rfl
  | cons x t ih =>
    obtain ⟨b, v, rest, rfl, more, read⟩ := State.readsOk_placed (placed x List.mem_cons_self) reads
    have tail := ih { w with s := v } (fun y hy => size y (List.mem_cons_of_mem _ hy)) (fun y hy => placed y (List.mem_cons_of_mem _ hy)) more
    unfold W.ldmReads
    rw [size x List.mem_cons_self, read w rfl rfl rfl m.sp]
    dsimp only
    rw [tail]
    rfl

/-- A lane's registers from pieces that were all read. -/
theorem laneVal_sum {α : Type} (l : Nat) (ys : List α) (lane val : α → Nat) :
    laneVal l (ys.map (fun y => (lane y, some (val y)))) = some (ys.map (fun y => if lane y = l then val y else 0)).sum := by
  unfold laneVal
  induction ys with
  | nil => rfl
  | cons y t ih =>
    rw [List.map_cons, List.foldr_cons, ih, List.map_cons, List.sum_cons]
    dsimp only
    split
    · rfl
    · rw [Nat.zero_add]

theorem ofNat_bitsOf_32 (v j : Nat) : BitVec.ofNat 32 (bitsOf v (32 * j) 32) = BitVec.ofNat 32 (v / 2 ^ (32 * j)) := by
  rw [bitsOf_eq]
  exact BitVec.eq_of_toNat_eq (by simp)

/-- The clk from which LDM's values are read (R257). -/
theorem W.ldmDue_later {w : W} (wet : w.dry = false) (sp : Space) (hit : Bool) (lines : Nat) {port : Nat} (later : w.s.pkg.clock < port) :
    w.s.pkg.clock < (w.ldmDue sp hit lines port).1 ∧ Calm w.s (w.ldmDue sp hit lines port).2 ∧ (w.ldmDue sp hit lines port).2.mem = w.s.mem := by
  have free := w.s.freeDue_later
  unfold W.ldmDue
  rw [if_neg (Bool.eq_false_iff.1 wet)]
  split
  · split
    · refine ⟨?_, Calm.refl _, rfl⟩
      show w.s.pkg.clock < w.s.pkg.clock + _ + 29
      omega
    · exact ⟨free, ⟨rfl, rfl, rfl, rfl, rfl, rfl⟩, rfl⟩
  · exact ⟨Nat.lt_of_lt_of_le free (Nat.le_add_right _ _), ⟨rfl, rfl, rfl, rfl, rfl, rfl⟩, rfl⟩
  · exact ⟨later, Calm.refl _, rfl⟩

/-- LDM where every piece is placed and its data is good (R254–R257). -/
theorem W.ldm_placed {w : W} {d a b : Opnd} {m : FragMod} (wet : w.dry = false) (fresh : w.rolled = false)
    (base : (if m.sp = .g then (w.g.rd64 0 a).toNat else (w.g.rd 0 a).toNat) % 16 = 0) (pitch : (w.g.rd 0 b).toNat % 16 = 0)
    {R : List FragAt × State} (hR : w.s.fragReach w.g m a needR kindLoad (fragPieces m (w.g.rd 0 b).toNat w.ex) = R) (placed : ∀ x ∈ R.1, Placed x.2.2)
    (no_flight : R.2.overlapsFlight w.gid 16 (flatReach R.1) = false) {data : List (Nat × List Byte)} {u : State}
    (reads : (R.2.tilePort w.g.core R.1).2.readsOk w.gid w.g (fragSize m) .keep (flatReach R.1) = some (data, u)) :
    let part : Nat → Nat := fun l => ((R.1.zip data).map (fun y => if y.1.1 = l then pieceVal y.1.2.1 y.2.2 else 0)).sum
    ∃ x due, w.ldm d a b m = ({ w with s := x } : W).var (w.ex.flatMap (fun l => dstCellsN d (fragN m) [l]
        (fun j _ => BitVec.ofNat 32 (part l / 2 ^ (32 * j))))) due true ∧ Calm w.s x ∧ x.mem = u.mem ∧ w.s.pkg.clock < due := by
  intro part
  have size : ∀ x ∈ R.1, x.2.1.n = fragSize m := fun x hx => State.fragReach_size (hR ▸ hx)
  have reached : Calm w.s R.2 := hR ▸ (State.fragReach_kept _ _ _ _ _ _ _).1
  obtain ⟨ported, later⟩ := R.2.tilePort_kept w.g.core R.1
  have calm : Calm w.s u := reached.trans (ported.trans (State.readsOk_calm _ _ _ _ _ _ _ _ reads))
  have read := W.ldmReads_ok m R.1 { w with s := (R.2.tilePort w.g.core R.1).2 } size placed reads
  have clk : u.pkg.clock = w.s.pkg.clock := congrArg Pkg.clock calm.pkg
  obtain ⟨due_later, due_calm, due_mem⟩ := W.ldmDue_later (w := { w with s := u }) wet m.sp
    (R.2.allHit w.g 1 (flatReach R.1)) (linesOf (flatReach R.1)).length (port := (R.2.tilePort w.g.core R.1).1)
    (clk.trans_lt ((congrArg Pkg.clock reached.pkg).symm.trans_lt later))
  have cells : ∀ (bad : Nat → Bool), (∀ l, bad l = false) →
      ldmCells w.f m d bad ((R.1.zip data).map (fun y => (y.1.1, some (pieceVal y.1.2.1 y.2.2)))) w.ex =
        w.ex.flatMap (fun l => dstCellsN d (fragN m) [l] (fun j _ => BitVec.ofNat 32 (part l / 2 ^ (32 * j)))) := by
    intro bad good
    unfold ldmCells
    refine List.flatMap_congr fun l _ => ?_
    rw [if_neg (Bool.eq_false_iff.1 (good l)), laneVal_sum l (R.1.zip data) (fun y => y.1.1) (fun y => pieceVal y.1.2.1 y.2.2)]
    exact congrArg (dstCellsN d (fragN m) [l]) (funext fun j => funext fun _ => ofNat_bitsOf_32 _ j)
  refine ⟨_, _, ?_, calm.trans due_calm, due_mem, clk.symm.trans_lt due_later⟩
  have bad : ∀ v : W, ∀ l, v.ldmBad R.1 l = false := fun v => v.ldmBad_false placed
  unfold W.ldm
  simp only [hR]
  rw [if_neg (Bool.eq_false_iff.1 (Group.fragMis_false base pitch)), W.fragCheck_none _ _ (fun x hx => (placed x hx).writable)]
  dsimp only
  rw [fragAbsents_nil _ placed, List.foldl_nil, if_neg (by exact Bool.eq_false_iff.1 fresh), if_neg (by exact Bool.eq_false_iff.1 no_flight)]
  rw [if_neg (by simp only [bad, List.any_eq_true]; simp)]
  simp only [bad, Bool.not_false, List.filter_true]
  rw [read]
  dsimp only
  rw [cells _ (bad _)]

/-! ### STM -/

/-- What STM's pieces write, in order (R254, R256). -/
def State.stmStores (gid : Nat) (g : Group) (m : FragMod) (d : Opnd) (s s' : State) (rs : List FragAt) : State :=
  rs.foldl (fun t x => match x.2.2 with
    | .glob p e z f => if s.logged gid g p e then t else t.storeG g.who p .keep e z f (g.stmBytes d m x.1 x.2.1)
    | .chip f _ => t.put f (g.stmBytes d m x.1 x.2.1)
    | _ => t) s'

theorem State.stmStores_calm (gid : Nat) (g : Group) (m : FragMod) (d : Opnd) (s s' : State) (rs : List FragAt) : Calm s' (State.stmStores gid g m d s s' rs) := by
  refine Calm.fold (fun t x => ?_) _ _
  split
  · split
    · exact Calm.refl t
    · exact State.storeG_calm _ _ _ _ _ _ _ _
  · exact ⟨rfl, rfl, rfl, rfl, rfl, rfl⟩
  · exact Calm.refl t

theorem W.writePieces (m : FragMod) (d : Opnd) (rs : List FragAt) (w : W) (wet : w.dry = false) (ok : ∀ x ∈ rs, Writable x.2.2) :
    rs.foldl (fun w x => w.writeLane x.2.1.n .keep x.1 (w.g.stmBytes d m x.1 x.2.1) x.2.2) w =
      { w with s := State.stmStores w.gid w.g m d w.s0 w.s rs } := by
  induction rs generalizing w with
  | nil => rfl
  | cons x t ih =>
    have dry := Bool.eq_false_iff.1 wet
    have one : w.writeLane x.2.1.n .keep x.1 (w.g.stmBytes d m x.1 x.2.1) x.2.2 = { w with s := State.stmStores w.gid w.g m d w.s0 w.s [x] } := by
      unfold W.writeLane State.stmStores
      rw [List.foldl_cons, List.foldl_nil]
      rcases ok x List.mem_cons_self with ⟨p, e, z, f, is⟩ | ⟨f, c, is⟩ | ⟨f, is⟩ <;> simp only [is]
      · split
        · rfl
        · exact if_neg dry
      · exact if_neg dry
      · exact if_neg dry
    rw [List.foldl_cons, one]
    exact ih _ wet (fun y hy => ok y (List.mem_cons_of_mem _ hy))

/-- STM where every piece can be written or its page is absent (R254–R257). -/
theorem W.stm_writable {w : W} {d a b : Opnd} {m : FragMod} (wet : w.dry = false)
    (base : (if m.sp = .g then (w.g.rd64 0 a).toNat else (w.g.rd 0 a).toNat) % 16 = 0) (pitch : (w.g.rd 0 b).toNat % 16 = 0)
    {R : List FragAt × State} (hR : w.s.fragReach w.g m a needW kindStore (fragPieces m (w.g.rd 0 b).toNat (w.ex.filter (fun l => !w.g.isHelper l))) = R)
    (ok : ∀ x ∈ R.1, Writable x.2.2)
    (room : List.length (α := Nat × DWord × Option (Bool × Nat) × List (Nat × Byte)) (R.2.stmLog w.gid w.g m d R.1) ≤ R.2.logFree w.g.core)
    (no_flight : R.2.overlapsFlight w.gid 16 (flatReach R.1) = false) :
    w.stm d a b m = { w with s := (State.stmStores w.gid w.g m d w.s0 (R.2.tilePort w.g.core R.1).2 R.1).logLines w.gid w.g (R.2.stmLog w.gid w.g m d R.1) } := by
  unfold W.stm
  simp only [hR]
  rw [if_neg (Bool.eq_false_iff.1 (Group.fragMis_false base pitch)), W.fragCheck_none _ _ (fun x hx => ok x (List.mem_filter.1 hx).1)]
  dsimp only
  rw [if_neg (Nat.not_lt.2 room), if_neg (by exact Bool.eq_false_iff.1 no_flight), W.writePieces m d R.1 { w with s := (R.2.tilePort w.g.core R.1).2 } wet ok]
  exact if_neg (Bool.eq_false_iff.1 wet)

end Sys2Proof.Machine

open Sys2Proof Sys2Proof.Machine Sys2Proof.Laws

/-- Settles O31. -/
theorem fragmentMemory : Obligations.FragmentMemory := by
  intro h d a b m s g pc ld st E X ready aligned R n
  have size : n = fragSize m := rfl
  refine ⟨fun ⟨hr, busy⟩ ⟨base, pitch⟩ => ?_, fun ⟨hr, busy⟩ ⟨base, pitch⟩ => ?_, ?_⟩
  · intro q placed no_flight data u reads part
    rw [size] at reads
    obtain ⟨x, due, body, calm, mem, later⟩ := W.ldm_placed (w := W.begin (info ld) s g pc) (d := d) (b := b) hr.wet rfl base pitch (R := q) rfl placed no_flight reads
    refine ⟨x, hr.starts rfl busy x _ due true ?_ (Steady.ofCalm _ calm) _ later, (calm.grp _).trans (State.entered_grp s _ g), State.byte_eq mem,
      fun k other => (calm.grp k).trans (State.grp_setGrp_ne s _ other)⟩
    exact (if_neg (by rw [W.begin_ex busy]; exact Bool.false_ne_true)).trans body
  · intro q log ok room no_flight stored
    have body := W.stm_writable (w := W.begin (info st) s g pc) (d := d) (b := b) hr.wet base pitch (R := q) rfl ok room no_flight
    have calm : Calm (s.entered (info st) g) (stored.logLines s.focus (E st) log) :=
      (State.fragReach_kept _ _ _ _ _ _ _).1.trans ((q.2.tilePort_kept _ _).1.trans ((State.stmStores_calm s.focus (E st) m d s _ q.1).trans (State.logLines_calm _ _ _ _)))
    refine ⟨hr.does rfl _ ((if_neg (by rw [W.begin_ex busy]; exact Bool.false_ne_true)).trans body) (Steady.ofCalm _ calm),
      (calm.grp _).trans (State.entered_grp s _ g), fun k other => (calm.grp k).trans (State.grp_setGrp_ne s _ other)⟩
  · rintro l p r k _ rfl rfl
    exact ⟨rfl, rfl, rfl, rfl, rfl, rfl, rfl, rfl⟩
end

section
/-! PROOFS of the region entry (R45, R94, R95, R390). -/

namespace Sys2Proof.Machine

/-- What a word with E = 1 finds of its region (R45, R94): a new one, the one just restarted, or the handler's. -/
theorem Group.entered_region (g : Group) {f : Info} (e : f.h.e = true) :
    (g.inRegion = true → g.regionStart = false → (g.entered f).rgncnt = g.rgncnt + 1 ∧ (g.entered f).evpc = g.vpc ∧ (g.entered f).elsp = g.lsp ∧
      (g.entered f).retcnt = 0 ∧ (g.entered f).rsig = 0) ∧
    ((g.inRegion = true → g.regionStart = true) → (g.entered f).rgncnt = g.rgncnt ∧ (g.entered f).evpc = g.evpc ∧ (g.entered f).elsp = g.elsp ∧
      (g.entered f).retcnt = g.retcnt ∧ (g.entered f).rsig = g.rsig) := by
  unfold Group.entered
  simp only [e, Bool.true_or, Bool.true_and]
  refine ⟨fun region fresh => ?_, fun old => ?_⟩
  · simp only [region, fresh, Bool.not_false, Bool.and_true, if_true]
    exact ⟨rfl, rfl, rfl, rfl, rfl⟩
  · have stays : ¬ (g.inRegion && !g.regionStart) = true := by
      rw [Bool.and_eq_true]
      rintro ⟨region, fresh⟩
      rw [old region] at fresh
      cases fresh
    rw [if_neg stays]
    exact ⟨rfl, rfl, rfl, rfl, rfl⟩

/-- The guard is read the same before and after the region entry (R45). -/
theorem Group.exLanes_entered (g : Group) (f : Info) (act : LaneMask) : (g.entered f).exLanes f act = g.exLanes f act := by
  unfold Group.entered
  dsimp only
  split <;> rfl

/-- A word with no effect beyond its registers leaves its region as it entered it, but for the count (R94, R396). -/
theorem Ready.region {i : Instr} {keys : Group → List Nat → List Nat} {s : State} {g : Group} {pc : Pc} {body : W → W} (h : Ready (info i) keys s g pc)
    (he : exec i s = runWordX i keys s body) (ws : List Window) (hb : body (W.begin (info i) s g pc) = { W.begin (info i) s g pc with fixed := ws }) :
    ∃ t u, exec i s = .next t ∧ t.grp s.focus = some u ∧ u.rgncnt = (g.entered (info i)).rgncnt ∧ u.evpc = (g.entered (info i)).evpc ∧
      u.elsp = (g.entered (info i)).elsp ∧ u.retcnt = (if g.inRegion then (g.entered (info i)).counted else (g.entered (info i)).retcnt) ∧
      u.rsig = (g.entered (info i)).rsig := by
  obtain ⟨-, -, -, kvpc, -, -, khelper, -, -⟩ := Group.entered_kept g (info i)
  obtain ⟨t, gx, u, run, here, after, -, count, -, -, kept, -⟩ := h.completes he ws hb
  cases (State.entered_grp s (info i) g).symm.trans here
  have ends := h.closes he { W.begin (info i) s g pc with fixed := ws } hb ⟨rfl, rfl, rfl, rfl, h.wet, rfl⟩ ⟨rfl, rfl⟩ (State.entered_grp s (info i) g) (by
    obtain ⟨l, hl, helper, goes⟩ := h.goes
    refine ⟨l, hl, khelper ▸ helper, ?_⟩
    unfold Group.vpcOf at goes ⊢
    rw [kvpc]
    exact goes)
  obtain ⟨end_, closed, -, -, -⟩ := ends
  cases run.symm.trans end_
  cases after.symm.trans closed
  obtain ⟨evpc, -, elsp, -⟩ := kept.saved
  exact ⟨_, _, run, after, kept.region.1, evpc, elsp, count, W.close_rsig _ rfl _⟩

/-- The region of a word with E = 1 and no effect beyond its registers, after it. -/
theorem Ready.enters {i : Instr} {keys : Group → List Nat → List Nat} {s : State} {g : Group} {pc : Pc} {body : W → W} (h : Ready (info i) keys s g pc)
    (e : (info i).h.e = true) (he : exec i s = runWordX i keys s body) (ws : List Window)
    (hb : body (W.begin (info i) s g pc) = { W.begin (info i) s g pc with fixed := ws }) : ∃ t u, exec i s = .next t ∧ t.grp s.focus = some u ∧
      (g.inRegion = true → g.regionStart = false → u.rgncnt = g.rgncnt + 1 ∧ u.evpc = g.vpc ∧ u.elsp = g.lsp ∧ u.retcnt = 1 ∧ u.rsig = 0) ∧
      (g.inRegion = true → g.regionStart = true → u.rgncnt = g.rgncnt ∧ u.evpc = g.evpc ∧ u.elsp = g.elsp ∧ u.retcnt = g.counted ∧ u.rsig = g.rsig) ∧
      (g.inRegion = false → u.rgncnt = g.rgncnt ∧ u.evpc = g.evpc ∧ u.elsp = g.elsp ∧ u.retcnt = g.retcnt ∧ u.rsig = g.rsig) := by
  obtain ⟨t, u, run, here, rgncnt, evpc, elsp, retcnt, rsig⟩ := h.region he ws hb
  obtain ⟨new, old⟩ := g.entered_region e
  rw [Group.counted] at retcnt
  refine ⟨t, u, run, here, fun region fresh => ?_, fun region started => ?_, fun handler => ?_⟩
  · obtain ⟨a, b, c, d, f⟩ := new region fresh
    rw [rgncnt, evpc, elsp, retcnt, rsig, a, b, c, d, f, if_pos region]
    exact ⟨rfl, rfl, rfl, rfl, rfl⟩
  · obtain ⟨a, b, c, d, f⟩ := old (fun _ => started)
    rw [rgncnt, evpc, elsp, retcnt, rsig, a, b, c, d, f, if_pos region]
    exact ⟨rfl, rfl, rfl, rfl, rfl⟩
  · obtain ⟨a, b, c, d, f⟩ := old (fun region => absurd region (Bool.eq_false_iff.1 handler))
    rw [rgncnt, evpc, elsp, retcnt, rsig, a, b, c, d, f, if_neg (Bool.eq_false_iff.1 handler)]
    exact ⟨rfl, rfl, rfl, rfl, rfl⟩

end Sys2Proof.Machine

open Sys2Proof Sys2Proof.Machine Sys2Proof.Laws

/-- Settles O58. -/
theorem regionEntry : Obligations.RegionEntry := by
  intro h d a b stall x y s g pc e enters
  refine ⟨fun hr => hr.enters e rfl [] rfl, fun hr => hr.enters e rfl _ (W.fixL_eq _ _ _), fun hr => hr.enters e rfl _ (W.fixL_eq _ _ _),
    fun hr => hr.enters e rfl _ (W.fixL_eq _ _ _), fun hr => ?_, fun hr => hr.enters e rfl _ (W.fixL_eq _ _ _), fun hr region fresh => ?_⟩
  · refine hr.enters rfl rfl
      (windowOf (halfLat x.op) (dstCells x.d 0 (halfLanes (W.begin (info (.pairWord true stall x y)) s g pc) x) (halfVal (W.begin (info (.pairWord true stall x y)) s g pc).g x)) ++
        windowOf (halfLat y.op) (dstCells y.d 0 (halfLanes (W.begin (info (.pairWord true stall x y)) s g pc) y) (halfVal (W.begin (info (.pairWord true stall x y)) s g pc).g y))) ?_
    simp only [W.fixL_eq, List.append_assoc]
    rfl
  · obtain ⟨rgncnt, -, -, retcnt, -⟩ := (g.entered_region (f := info (.retcnt h d)) e).1 region fresh
    have done := hr.completes rfl _ (W.fixL_eq _ _ _)
    rw [List.flatMap_append, windowOf_cells] at done
    have cells : dstCellsN d 2 ((g.entered (info (.retcnt h d))).exLanes (info (.retcnt h d)) g.active)
        (fun j _ => if j = 0 then (g.entered (info (.retcnt h d))).retcnt else (g.entered (info (.retcnt h d))).rgncnt) =
        dstCellsN d 2 (g.exLanes (info (.retcnt h d)) g.active) (fun j _ => if j = 0 then 0 else g.rgncnt + 1) := by
      rw [retcnt, rgncnt, Group.exLanes_entered]
    exact cells ▸ done
end

section
/-! PROOFS of what a register reads at a distance (R37–R39). -/

namespace Sys2Proof.Machine

/-- What a register cell reads `n` clk on: the latest of the windows whose distance is reached, or the register itself (R38). -/
def readsAt (ws : List Window) (regs : List (Nat × Word)) (n key : Nat) : Word :=
  (lastAt ((ws.filter (fun w => decide (w.left ≤ n))).flatMap (fun w => w.cells)) key).getD (cget 0 regs key)

/-- Committing windows moves every distance on by the weight (R37, R38). -/
theorem readsAt_commit_from (weight n key : Nat) (ws done : List Window) (regs : List (Nat × Word)) :
    readsAt (commitWindows weight ws done regs).1 (commitWindows weight ws done regs).2 n key =
      (lastAt ((done.filter (fun w => decide (w.left ≤ n)) ++ ws.filter (fun w => decide (w.left ≤ n + weight))).flatMap (fun w => w.cells)) key).getD (cget 0 regs key) := by
  induction ws generalizing done regs with
  | nil => rw [commitWindows, List.filter_nil, List.append_nil]; rfl
  | cons w t ih =>
    unfold commitWindows
    split
    case isTrue ends =>
      have reached : w.left ≤ n + weight := Nat.le_trans ends (Nat.le_add_left _ _)
      rw [ih, List.filter_cons_of_pos (by simpa using reached), List.filter_map]
      simp only [List.flatMap_append, List.flatMap_cons, lastAt_append, Function.comp_def]
      rw [flatMap_filter (done.filter _) (fun j => !(w.cells.map (fun c => c.1)).contains j),
        lastAt_filter _ (fun j => !(w.cells.map (fun c => c.1)).contains j), cget_csets]
      cases lastAt ((t.filter (fun w => decide (w.left ≤ n + weight))).flatMap (fun w => w.cells)) key with
      | some v => rfl
      | none =>
        by_cases writes : key ∈ w.cells.map (fun c => c.1)
        · obtain ⟨v, last⟩ := lastAt_some writes
          simp only [List.contains_iff_mem.2 writes, last]
          rfl
        · simp only [Bool.eq_false_iff.2 (fun h => writes (List.contains_iff_mem.1 h)), lastAt_none writes]
          rfl
    case isFalse open_ =>
      have moved : decide (w.left - weight ≤ n) = decide (w.left ≤ n + weight) := decide_eq_decide.2 (by omega)
      rw [ih, List.filter_append, List.append_assoc, List.filter_cons, List.filter_cons, List.filter_nil, moved]
      cases decide (w.left ≤ n + weight) with
      | true => simp only [if_true, List.flatMap_append, List.flatMap_cons, List.cons_append, List.nil_append]
      | false => rfl

theorem readsAt_commit (weight n key : Nat) (ws : List Window) (regs : List (Nat × Word)) :
    readsAt (commitWindows weight ws [] regs).1 (commitWindows weight ws [] regs).2 n key = readsAt ws regs (n + weight) key :=
  readsAt_commit_from weight n key ws [] regs

/-- A window that stays open is not reached yet (R38). -/
theorem commitWindows_open (weight : Nat) (ws done : List Window) (regs : List (Nat × Word)) (h : ∀ w ∈ done, 0 < w.left) :
    ∀ w ∈ (commitWindows weight ws done regs).1, 0 < w.left := by
  induction ws generalizing done regs with
  | nil => exact h
  | cons x t ih =>
    unfold commitWindows
    split
    · refine ih _ _ fun w hw => ?_
      obtain ⟨v, hv, rfl⟩ := List.mem_map.1 hw
      exact h v hv
    · refine ih _ _ fun w hw => ?_
      rcases List.mem_append.1 hw with hw | hw
      · exact h w hw
      · rw [List.mem_singleton.1 hw]
        exact Nat.sub_pos_of_lt (Nat.lt_of_not_le ‹_›)

theorem readsAt_now {ws : List Window} (h : ∀ w ∈ ws, 0 < w.left) (regs : List (Nat × Word)) (key : Nat) : readsAt ws regs 0 key = cget 0 regs key := by
  have none_ : ws.filter (fun w => decide (w.left ≤ 0)) = [] := List.filter_eq_nil_iff.2 (fun w hw => by simpa using Nat.ne_of_gt (h w hw))
  rw [readsAt, none_]
  rfl

/-- A window without cells gives nothing. -/
theorem readsAt_windowOf (ws : List Window) (regs : List (Nat × Word)) (lat n key : Nat) (cells : List (Nat × Word)) :
    readsAt (ws ++ windowOf lat cells) regs n key = readsAt (ws ++ [⟨lat, cells⟩]) regs n key := by
  cases cells with
  | cons c t => rfl
  | nil =>
    unfold readsAt windowOf
    rw [List.filter_append, List.filter_append, List.flatMap_append, List.flatMap_append]
    by_cases reached : lat ≤ n <;> simp [reached]

/-- The windows and registers after a word whose whole effect is to open windows (R37, R38). -/
theorem Ready.commits {i : Instr} {keys : Group → List Nat → List Nat} {s : State} {g : Group} {pc : Pc} {body : W → W} (h : Ready (info i) keys s g pc)
    (he : exec i s = runWordX i keys s body) (ws : List Window) (hb : body (W.begin (info i) s g pc) = { W.begin (info i) s g pc with fixed := ws }) :
    ∃ t y, exec i s = .next t ∧ t.grp s.focus = some y ∧
      (y.windows, y.regs) = commitWindows (1 + (info i).h.stall.val) (g.windows ++ ws) [] g.regs := by
  obtain ⟨kregs, kwindows, -, kvpc, -, -, khelper, -, -⟩ := Group.entered_kept g (info i)
  obtain ⟨run, here, -, -, -⟩ := h.closes he { W.begin (info i) s g pc with fixed := ws } hb ⟨rfl, rfl, rfl, rfl, h.wet, rfl⟩ ⟨rfl, rfl⟩
    (State.entered_grp s (info i) g) (by
      obtain ⟨l, hl, helper, goes⟩ := h.goes
      refine ⟨l, hl, khelper ▸ helper, ?_⟩
      unfold Group.vpcOf at goes ⊢
      rw [kvpc]
      exact goes)
  refine ⟨_, _, run, here, ?_⟩
  rw [← kregs, ← kwindows]
  unfold W.close
  dsimp only
  split <;> rfl

/-- What each register reads behind a word whose whole effect is one window. -/
theorem Ready.readsBehind {i : Instr} {keys : Group → List Nat → List Nat} {s : State} {g : Group} {pc : Pc} {body : W → W} (h : Ready (info i) keys s g pc)
    (he : exec i s = runWordX i keys s body) {fixed ws : List Window} (hb : body (W.begin (info i) s g pc) = { W.begin (info i) s g pc with fixed := fixed })
    (same : ∀ n key, readsAt (g.windows ++ fixed) g.regs n key = readsAt (g.windows ++ ws) g.regs n key) :
    ∃ t y, exec i s = .next t ∧ t.grp s.focus = some y ∧
      (∀ n key, readsAt y.windows y.regs n key = readsAt (g.windows ++ ws) g.regs (n + (1 + (info i).h.stall.val)) key) ∧
      ∀ q l, y.cell q l = readsAt (g.windows ++ ws) g.regs (1 + (info i).h.stall.val) (cellKey q l) := by
  obtain ⟨t, y, run, here, commit⟩ := h.commits he fixed hb
  have windows : y.windows = _ := congrArg Prod.fst commit
  have regs : y.regs = _ := congrArg Prod.snd commit
  have reads : ∀ n key, readsAt y.windows y.regs n key = readsAt (g.windows ++ ws) g.regs (n + (1 + (info i).h.stall.val)) key := by
    intro n key
    rw [windows, regs, readsAt_commit, same]
  refine ⟨t, y, run, here, reads, fun q l => ?_⟩
  have now := readsAt_now (windows ▸ commitWindows_open _ _ _ _ (fun w hw => absurd hw List.not_mem_nil)) y.regs (cellKey q l)
  rw [reads, Nat.zero_add] at now
  exact now.symm

end Sys2Proof.Machine

open Sys2Proof Sys2Proof.Machine Sys2Proof.Laws

/-- Settles O54. -/
theorem valueByDistance : Obligations.ValueByDistance := by
  intro h d a b r s g pc reads after E X
  exact ⟨fun hr => hr.readsBehind (fixed := []) rfl rfl (fun _ _ => rfl),
    fun hr => hr.readsBehind rfl (W.fixL_eq _ _ _) (fun n key => readsAt_windowOf g.windows g.regs 4 n key _),
    fun hr => hr.readsBehind rfl (W.fixL_eq _ _ _) (fun n key => readsAt_windowOf g.windows g.regs 5 n key _),
    fun hr => hr.readsBehind rfl (W.fixL_eq _ _ _) (fun n key => readsAt_windowOf g.windows g.regs 12 n key _)⟩
end

section
/-! PROOFS of the early-read check (R41). -/

namespace Sys2Proof.Machine

/-- The early-read check: SCHK is set, and some open window holds the guard's cell or a source cell (R41). -/
theorem Group.early_iff (g : Group) (f : Info) (keys : Group → List Nat → List Nat) : g.early f keys = true ↔ g.schk = true ∧
    ∃ k, (k ∈ (guardRegs f).flatMap (regKeys (lanesOf g.active)) ∨ k ∈ keys g (g.exLanes f g.active)) ∧ ∃ w ∈ g.windows, ∃ x ∈ w.cells, x.1 = k := by
  have cell : ∀ k, g.shortCell k = true ↔ ∃ w ∈ g.windows, ∃ x ∈ w.cells, x.1 = k := by
    intro k
    simp only [Group.shortCell, List.any_eq_true, decide_eq_true_eq]
  simp only [Group.early, Group.readsEarly, Bool.and_eq_true, Bool.or_eq_true, List.any_eq_true, cell]
  refine and_congr_right fun _ => ⟨?_, ?_⟩
  · rintro (⟨k, hk, hw⟩ | ⟨k, hk, hw⟩)
    · exact ⟨k, .inl hk, hw⟩
    · exact ⟨k, .inr hk, hw⟩
  · rintro ⟨k, hk | hk, hw⟩
    · exact .inl ⟨k, hk, hw⟩
    · exact .inr ⟨k, hk, hw⟩

/-- A word that reads early does not execute: it is counted, and the group enters the trap at it (R41, R403). -/
theorem stallShort_trap {i : Instr} {s : State} {g : Group} {pc : Pc} {body : W → W} (on : s.pkg.on = true) (noStop : s.dry = none) (here : s.grp s.focus = some g)
    (at_ : g.issuePc = some pc) (he : exec i s = runWord i s body) (early : g.early (info i) (ownKeys (info i)) = true) :
    ∃ u : State, exec i s = .next (u.enterTrap s.focus ⟨false, pc, [⟨(lowestLane g.active).getD 0, .stallShort, 0, 0, 0, kindOther, 0, false⟩]⟩) ∧
      u.grp s.focus = some { g with retcnt := if g.inRegion then g.counted else g.retcnt } ∧ StateKept s.focus s u := by
  refine ⟨(s.chargeIssue s.focus .issue pc).modGrp s.focus (fun g => { g with retcnt := if g.inRegion then g.counted else g.retcnt }), ?_, ?_,
    ((StateKept.refl s.focus s).issue s.focus .issue pc).modGrp _⟩
  · rw [he]
    unfold runWord runWordX wordStep
    simp only [on, here, at_, early, noStop, Option.map_none, Bool.not_true, Bool.false_eq_true, if_false]
    exact congrArg Host.Outcome.next ((if_pos rfl).trans (if_neg Bool.false_ne_true))
  · rw [State.grp_modGrp_self, State.grp_chargeIssue, here]
    rfl

/-- The early-read check of a word that reads its own lanes only, and its exception. -/
theorem stallShort_of {i : Instr} {s : State} {g : Group} {pc : Pc} {body : W → W} (on : s.pkg.on = true) (noStop : s.dry = none) (here : s.grp s.focus = some g)
    (at_ : g.issuePc = some pc) (he : exec i s = runWord i s body) :
    (g.early (info i) (ownKeys (info i)) = true ↔ g.schk = true ∧ ∃ k, (k ∈ (guardRegs (info i)).flatMap (regKeys (lanesOf g.active)) ∨
      k ∈ (srcRegs (info i)).flatMap (regKeys (g.exLanes (info i) g.active))) ∧ ∃ w ∈ g.windows, ∃ x ∈ w.cells, x.1 = k) ∧
    (g.early (info i) (ownKeys (info i)) = true → ∃ u : State, exec i s = .next (u.enterTrap s.focus
        ⟨false, pc, [⟨(lowestLane g.active).getD 0, .stallShort, 0, 0, 0, kindOther, 0, false⟩]⟩) ∧
      u.grp s.focus = some { g with retcnt := if g.inRegion then g.counted else g.retcnt } ∧ StateKept s.focus s u) :=
  ⟨g.early_iff (info i) (ownKeys (info i)), stallShort_trap on noStop here at_ he⟩

end Sys2Proof.Machine

open Sys2Proof Sys2Proof.Machine Sys2Proof.Laws

/-- Settles O55: each word named runs through `runWord`, which makes the check before anything else. -/
theorem stallShort : Obligations.StallShort := by
  intro h d a b c mode r fm off m op am n rs w64 reg s g pc on noStop here at_ shorts
  have short : ∀ i body, exec i s = runWord i s body → shorts i := fun i body he => stallShort_of on noStop here at_ he
  exact ⟨short _ _ rfl, short _ _ rfl, short _ _ rfl, short _ _ rfl, short _ _ rfl, short _ _ rfl, short _ _ rfl, short _ _ rfl, short _ _ rfl,
    short _ _ rfl, short _ _ rfl, short _ _ rfl, short _ _ rfl, short _ _ rfl, short _ _ rfl, short _ _ rfl, short _ _ rfl, short _ _ rfl⟩
end

section
/-! PROOFS of the block matrix words (R259–R263, R272–R282). -/

namespace Sys2Proof.Machine

theorem State.teamD_modTeam {s : State} {t : Nat} {f : Team → Team} (here : (s.team t).isSome = true) : (s.modTeam t f).teamD t = f (s.teamD t) := by
  obtain ⟨x, is⟩ := Option.isSome_iff_exists.1 here
  have after := State.team_modTeam s t f t
  rw [if_pos rfl, is] at after
  unfold State.team at is after
  unfold State.teamD
  rw [is, after]
  rfl

theorem Steady.mIssue (gid : Nat) (s : State) (j : MJob) (takesId : Bool) : Steady gid s (s.mIssue j takesId) := by
  unfold State.mIssue
  dsimp only
  split <;> exact Steady.ofGroups _ rfl

/-- A job-issuing word whose checks pass and whose window has room (R273, R278). -/
theorem W.issueJobs_ok {w : W} {d : Opnd} {target : Nat} {j : MJob} {fx : State → State} (wet : w.dry = false) (busy : w.awake ≠ [])
    (room : w.s.windowUsed target + w.awake.length ≤ 1024) : w.issueJobs d .ok target j fx =
      ({ w with s := fx (w.awake.foldl (fun s _ => s.mIssue j true) w.s) } : W).var (w.jobIds d) (w.clk + 4) false := by
  have executes : ¬ w.ex.isEmpty = true := fun e => busy (by rw [W.awake, List.isEmpty_iff.1 e]; rfl)
  have some_ : ¬ w.awake.isEmpty = true := fun e => busy (List.isEmpty_iff.1 e)
  unfold W.issueJobs
  rw [if_neg executes, if_neg (Bool.eq_false_iff.1 wet), if_neg some_]
  exact if_neg (Nat.not_lt.2 room)

/-- A word of an accumulator team with no error (R259, R260). -/
theorem W.accChk_ok {w : W} {tid core : Nat} (team : w.g.tid = tid) (at_ : w.g.core = core) (good : (w.s.teamD tid).accstat.toNat / 2 ^ 28 % 16 = 0)
    (holds : (w.s.core core).accTeam = tid) : w.accChk = .ok := by
  subst team at_
  unfold W.accChk
  dsimp only
  rw [bitsOf_eq, if_neg (by exact not_not_intro good), if_neg (not_not_intro holds)]

/-- A word that issues jobs, one for each lane that is no helper, and returns their IDs (R262, R273). -/
theorem Ready.issues {i : Instr} {keys : Group → List Nat → List Nat} {s : State} {g : Group} {pc : Pc} {body : W → W} {d : Opnd} {target : Nat} {j : MJob}
    {fx : State → State} (h : Ready (info i) keys s g pc) (he : exec i s = runWordX i keys s body)
    (hb : body (W.begin (info i) s g pc) = (W.begin (info i) s g pc).issueJobs d .ok target j fx)
    (busy : ((g.entered (info i)).exLanes (info i) g.active).filter (fun l => !(g.entered (info i)).isHelper l) ≠ [])
    (room : s.windowUsed target + (((g.entered (info i)).exLanes (info i) g.active).filter (fun l => !(g.entered (info i)).isHelper l)).length ≤ 1024)
    (steady : ∀ x, Steady s.focus x (fx x)) :
    let X := (g.entered (info i)).exLanes (info i) g.active
    let awake := X.filter (fun l => !(g.entered (info i)).isHelper l)
    AwaitsIn i s g pc (fx (awake.foldl (fun t _ => t.mIssue j true) (s.entered (info i) g)))
      (dstCells d 0 (X.filter (g.entered (info i)).isHelper) (fun _ => 0) ++ awake.zipIdx.flatMap (fun q => dstCells d 0 [q.1] (fun _ => idAhead q.2 (s.teamD g.tid).nextId)))
      (fun t => t = s.pkg.clock + 4) := by
  intro X awake
  have executes : X ≠ [] := fun e => busy (by rw [show (g.entered (info i)).exLanes (info i) g.active = [] from e]; rfl)
  have team : (g.entered (info i)).tid = g.tid := (Group.entered_place g (info i)).1
  have ids : (W.begin (info i) s g pc).jobIds d = dstCells d 0 (X.filter (g.entered (info i)).isHelper) (fun _ => 0) ++
      awake.zipIdx.flatMap (fun q => dstCells d 0 [q.1] (fun _ => idAhead q.2 (s.teamD g.tid).nextId)) := by
    rw [← team]
    rfl
  rw [← ids]
  exact h.starts he executes _ _ _ false (hb.trans (W.issueJobs_ok h.wet busy room))
    ((Steady.fold (fun t _ => Steady.mIssue s.focus t j true) awake _).trans (steady _)) _ rfl

theorem W.blkTile_ok {w : W} {block at_ tid : Nat} (team : w.g.tid = tid) (ready : block.testBit (at_ + 6) = true →
    bitsOf block at_ 6 < (w.s.teamD tid).kernel.tiles ∧ ∃ t, kget (w.s.teamD tid).tiles (bitsOf block at_ 6) = some t ∧ t.err = 0 ∧ t.state = .ready) :
    w.blkTile block at_ = .ok ∧
      w.tilePlace block at_ = if block.testBit (at_ + 6) then (kget (w.s.teamD tid).tiles (bitsOf block at_ 6)).map (fun t => (t.base, t.size)) else none := by
  subst team
  unfold W.blkTile W.tilePlace
  cases named : block.testBit (at_ + 6) with
  | false => exact ⟨rfl, rfl⟩
  | true =>
    obtain ⟨inside, t, is, good, state⟩ := ready named
    simp only [W.tile_some inside, is, good, state, Bool.not_true, Bool.false_eq_true, if_false, ne_eq, not_true_eq_false, and_self]

theorem W.mxbChk_ok {w : W} {off : Nat} (acc : w.accChk = .ok) (aligned : off % 128 = 0) (inside : off + 128 ≤ (w.s.teamD w.g.tid).allocSize)
    (a : w.blkTile (w.s.blockAt w.g off) 68 = .ok) (b : w.blkTile (w.s.blockAt w.g off) 75 = .ok) : w.mxbChk off = .ok := by
  unfold W.mxbChk
  rw [acc]
  dsimp only
  rw [if_neg (not_not_intro aligned), if_neg (Nat.not_lt.2 inside), a]
  exact b

/-- A new job's STATUS and PROG are zero (R263). -/
theorem State.putStatus_new (s : State) {j : MJob} (kdone : j.kdone = 0) (saved : j.saved = false) :
    s.putStatus j false = s.put (flatScratch (s.teamD j.tid).core ((s.teamD j.tid).allocOff + j.blockOff + 56)) (toBytes 8 0) := by
  simp [State.putStatus, kdone, saved, field]

/-- The job of an MXB on block `blk` (R263, R266). -/
def mxbJobOf (gid tid core : Nat) (pc : Pc) (E : Group) (a b c : Opnd) (blk : Nat) (tileA tileB : Option (Nat × Nat)) : MJob :=
  { MJob.blank with
    tid := tid, gid := gid, core := core, pc := pc, kind := .mxb, block := blk, blockOff := (E.rd 0 a).toNat, descB := E.rd64 0 b,
    descC := E.rd64 0 c, imgA := E.vImage blk 64 96, imgB := E.vImage blk 66 160, tileA := tileA, tileB := tileB }

/-- MXB where the checks of R273 pass. -/
theorem W.mxb_ok {w : W} {d a b c : Opnd} {tid core blk : Nat} {A B : Option (Nat × Nat)} (team : w.g.tid = tid) (at_ : w.g.core = core) (acc : w.accChk = .ok)
    (aligned : (w.g.rd 0 a).toNat % 128 = 0) (inside : (w.g.rd 0 a).toNat + 128 ≤ (w.s.teamD tid).allocSize) (block : w.s.blockAt w.g (w.g.rd 0 a).toNat = blk)
    (tileA : w.blkTile blk 68 = .ok ∧ w.tilePlace blk 68 = A) (tileB : w.blkTile blk 75 = .ok ∧ w.tilePlace blk 75 = B) :
    w.mxb d a b c = w.issueJobs d .ok core (mxbJobOf w.gid tid core w.pc w.g a b c blk A B)
      (fun s => s.put (flatScratch (s.teamD tid).core ((s.teamD tid).allocOff + (w.g.rd 0 a).toNat + 56)) (toBytes 8 0)) := by
  subst team at_
  have job : w.mxbJob a b c = mxbJobOf w.gid w.g.tid w.g.core w.pc w.g a b c blk A B := by
    unfold W.mxbJob mxbJobOf
    dsimp only
    rw [block, tileA.2, tileB.2]
  unfold W.mxb
  rw [W.mxbChk_ok acc aligned inside (block ▸ tileA.1) (block ▸ tileB.1), job]
  exact congrArg (W.issueJobs w d .ok w.g.core (mxbJobOf w.gid w.g.tid w.g.core w.pc w.g a b c blk A B)) (funext fun s => State.putStatus_new s rfl rfl)

/-- ACCRD's job behind its scoreboard entry (R278, R282). -/
theorem Ready.reads {h : Hdr} {d a : Opnd} {s : State} {g : Group} {pc : Pc} (hr : Ready (info (.accrd h d a)) (ownKeys (info (.accrd h d a))) s g pc)
    (busy : (g.entered (info (.accrd h d a))).exLanes (info (.accrd h d a)) g.active ≠ []) (acc : (W.begin (info (.accrd h d a)) s g pc).accChk = .ok)
    (room : s.windowUsed (((s.entered (info (.accrd h d a)) g).accTarget (g.entered (info (.accrd h d a))).tid ((g.entered (info (.accrd h d a))).rd 0 a)).getD
      (g.entered (info (.accrd h d a))).core) + 1 ≤ 1024) :
    let E := g.entered (info (.accrd h d a))
    let job : Nat → MJob := fun n => (W.begin (info (.accrd h d a)) s g pc).accJob
      (.accrd n (vNum d) (maskOf (fun l => (E.exLanes (info (.accrd h d a)) g.active).contains l))) a .zero
    ∃ (x : State) (e : Pend), Performs (.accrd h d a) s g pc (x.mIssue (job e.id) false) [] ∧
      x.grp s.focus = some { E with pends := E.pends ++ [e] } ∧ e.pc = pc ∧ e.regs = dstRegs (info (.accrd h d a)) ∧ e.due = none ∧
      (∀ k, k ≠ s.focus → x.grp k = s.grp k) ∧ x.mjobs = s.mjobs ∧ x.teams = s.teams ∧ ∀ k, x.byte k = s.byte k := by
  intro E job
  let i := Instr.accrd h d a
  let e : Pend := ⟨s.serial, pc, (info i).op, dstRegs (info i), [], none, none, (dstRegs (info i)).headD 0⟩
  let x := State.modGrp { s.entered (info i) g with serial := s.serial + 1 } s.focus (fun y => { y with pends := y.pends ++ [e] })
  have pend := W.pend_eq (W.begin (info i) s g pc) [] none false busy hr.wet
  have body : (W.begin (info i) s g pc).accrd d a = { W.begin (info i) s g pc with s := x.mIssue (job e.id) false } := by
    unfold W.accrd
    dsimp only
    rw [W.begin_ex busy, if_neg Bool.false_ne_true, if_neg (by exact Bool.eq_false_iff.1 hr.wet), acc]
    dsimp only
    rw [if_neg (by exact Nat.not_lt.2 room), pend]
    rfl
  have grp : x.grp s.focus = some { E with pends := E.pends ++ [e] } := by
    exact (State.grp_modGrp_self _ s.focus _).trans (congrArg (Option.map _) (State.entered_grp s (info i) g))
  refine ⟨x, e, hr.does rfl _ body ?_, grp, rfl, rfl, rfl, fun k other => ?_, rfl, rfl, fun k => rfl⟩
  · refine Steady.trans (t := x) ?_ (Steady.mIssue _ _ _ _)
    exact Steady.trans (t := { s.entered (info i) g with serial := s.serial + 1 }) (Steady.ofGroups _ rfl) (Steady.modGrp _ _ _ _ (fun _ => ⟨rfl, rfl⟩))
  · exact (State.grp_modGrp_ne _ _ other).trans (State.grp_setGrp_ne s _ other)

section
variable {w : W} {tid : Nat} {d a : Opnd} (team : w.g.tid = tid)
include team

theorem W.mxbw_over (busy : w.ex.isEmpty = false) (wet : w.dry = false) (none_ : oldestJob (w.ex.filterMap (fun l => w.s.jobOfId tid (w.g.rd l a))) = none) :
    w.mxbw d a = ({ w with s := w.s.freeDue.2 } : W).var (dstCells d 0 w.ex (fun _ => w.s.accStat tid)) w.s.freeDue.1 false := by
  subst team
  unfold W.mxbw
  rw [busy, if_neg Bool.false_ne_true, if_neg (Bool.eq_false_iff.1 wet), none_]
  rfl

theorem W.mxbw_waits {j : MJob} (busy : w.ex.isEmpty = false) (wet : w.dry = false)
    (oldest : oldestJob (w.ex.filterMap (fun l => w.s.jobOfId tid (w.g.rd l a))) = some j) :
    w.mxbw d a = { w with hold := some .depEngine, holdPc := some j.pc } := by
  subst team
  unfold W.mxbw
  rw [busy, if_neg Bool.false_ne_true, if_neg (Bool.eq_false_iff.1 wet), oldest]

theorem W.mxbt_eq {p : PCode} (wet : w.dry = false) :
    w.mxbt p a = w.var (predCells p w.ex (fun l => (w.s.jobOfId tid (w.g.rd l a)).isNone)) (w.clk + 8) false := by
  subst team
  unfold W.mxbt
  rw [if_neg (Bool.eq_false_iff.1 wet)]

end

end Sys2Proof.Machine

open Sys2Proof Sys2Proof.Machine Sys2Proof.Laws

/-- Settles O32. -/
theorem blockMatrixWords : Obligations.BlockMatrixWords := by
  intro h d a b c p dt st rm mode s g pc E S X awake T own room target issues mx off blk tileReady place mj acc accs rd bw bt named
  have team : ∀ i, (E i).tid = g.tid := fun i => (Group.entered_place g (info i)).1
  have core : ∀ i, (E i).core = g.core := fun i => (Group.entered_place g (info i)).2.1
  have chk : ∀ i, own → (W.begin (info i) s g pc).accChk = .ok := fun i ⟨good, holds⟩ => W.accChk_ok (team i) (core i) good holds
  have accJob : ∀ i k b, (W.begin (info i) s g pc).accJob k a b = acc i k b := by
    intro i k b
    unfold W.accJob
    rw [show (W.begin (info i) s g pc).g.tid = g.tid from team i, show (W.begin (info i) s g pc).g.core = g.core from core i]
    rfl
  have targets : ∀ i, ((S i).accTarget (E i).tid ((E i).rd 0 a)).getD (E i).core = target i := by
    intro i
    rw [team, core]
  have accs_of : ∀ i k b, exec i s = (runWord i s fun w => w.accWord k d a b) → accs i k b := by
    intro i k b he hr busy mine space
    refine hr.issues he ?_ busy space (fun x => Steady.refl _ x)
    unfold W.accWord
    rw [chk i mine, accJob]
    exact congrArg (fun t => (W.begin (info i) s g pc).issueJobs d .ok t (acc i k b) id) (targets i)
  refine ⟨fun hr aligned inside ready68 ready75 busy mine space => ?_, accs_of _ _ _ rfl, accs_of _ _ _ rfl, accs_of _ _ _ rfl, fun hr busy mine space => ?_,
    fun hr busy => ⟨fun none_ => ?_, fun j oldest => ?_⟩, fun hr busy => ?_, fun t j => ⟨?_, fun here => ?_⟩⟩
  · obtain ⟨ok68, place68⟩ := W.blkTile_ok (w := W.begin (info mx) s g pc) (team mx) ready68
    obtain ⟨ok75, place75⟩ := W.blkTile_ok (w := W.begin (info mx) s g pc) (team mx) ready75
    have body : (W.begin (info mx) s g pc).mxb d a b c = (W.begin (info mx) s g pc).issueJobs d .ok g.core mj
        (fun t => t.put (flatScratch (t.teamD g.tid).core ((t.teamD g.tid).allocOff + off + 56)) (toBytes 8 0)) :=
      W.mxb_ok (team mx) (core mx) (chk mx mine) aligned inside rfl ⟨ok68, place68⟩ ⟨ok75, place75⟩
    have steady : ∀ x : State, Steady s.focus x (x.put (flatScratch (x.teamD g.tid).core ((x.teamD g.tid).allocOff + off + 56)) (toBytes 8 0)) :=
      fun x => Steady.ofGroups _ rfl
    have he : exec mx s = runWordX mx (mxbKeys s a (info mx)) s (fun w => w.mxb d a b c) := rfl
    exact hr.issues (j := mj) (fx := fun t => t.put (flatScratch (t.teamD g.tid).core ((t.teamD g.tid).allocOff + off + 56)) (toBytes 8 0)) he body busy space steady
  · obtain ⟨x, e, does, rest⟩ := hr.reads busy (chk rd mine) (by rw [targets]; exact space)
    dsimp only at does
    rw [accJob] at does
    exact ⟨x, e, does, rest⟩
  · exact ⟨s.free + 1, hr.starts rfl busy { S bw with free := s.free + 1 } _ _ false (W.mxbw_over (team bw) (W.begin_ex busy) hr.wet none_) (Steady.ofGroups _ rfl) _ s.freeDue_later⟩
  · exact hr.heldFor rfl .depEngine j.pc (W.mxbw_waits (team bw) (W.begin_ex busy) hr.wet oldest)
  · exact hr.awaits rfl busy s.free _ _ false (W.mxbt_eq (team bt) hr.wet) _ rfl
  · exact kget_kset_self _ _ _
  · exact congrArg Team.nextId (State.teamD_modTeam (s := { t with serial := t.serial + 1, mjobs := kset t.mjobs t.serial _ }) here)
end

section
/-! PROOFS of the block matrix jobs' events (R264, R269–R282). -/

namespace Sys2Proof.Machine

/-- An event of a package that is on. -/
theorem event_next {i : Instr} {s t : State} {f : State → State} (on : s.pkg.on = true) (he : exec i s = runEvent s f) (h : f s = t) : exec i s = .next t :=
  he.trans ((if_pos on).trans (congrArg Host.Outcome.next h))

/-! ### A rectangle of the accumulator store (R261, R279) -/

theorem flatAcc_add (core n m : Nat) : flatAcc core (n + m) = flatAcc core n + m := by
  unfold flatAcc
  omega

/-- Ranges zeroed one after another. -/
theorem State.byte_zeroRanges (start : Nat → Nat) (n : Nat) (l : List Nat) (s : State) (a : Nat) :
    (l.foldl (fun s i => s.zeroRange (start i) n) s).byte a = if ∃ i ∈ l, start i ≤ a ∧ a < start i + n then 0 else s.byte a := by
  induction l generalizing s with
  | nil => simp
  | cons i t ih =>
    rw [List.foldl_cons, ih, State.byte_zeroRange]
    simp only [List.mem_cons, exists_eq_or_imp]
    by_cases first : start i ≤ a ∧ a < start i + n
    · simp [first]
    · simp [first]

/-- The bytes of a rectangle: rows of 1,024 bytes, elements of 4 (R261). -/
def inRect (core : Nat) (q : Nat × Nat × Nat × Nat) (a : Nat) : Prop :=
  ∃ r k, 16 * q.1 ≤ r ∧ r < 16 * (q.1 + q.2.1) ∧ 64 * q.2.2.1 ≤ k ∧ k < 64 * (q.2.2.1 + q.2.2.2) ∧ a = flatAcc core (1024 * r + k)

theorem inRect_iff (core : Nat) (q : Nat × Nat × Nat × Nat) (a : Nat) : inRect core q a ↔
    ∃ i ∈ List.range (16 * q.2.1), accElem core (16 * q.1 + i) (16 * q.2.2.1) ≤ a ∧ a < accElem core (16 * q.1 + i) (16 * q.2.2.1) + 64 * q.2.2.2 := by
  unfold inRect accElem
  constructor
  · rintro ⟨r, k, r0, r1, k0, k1, rfl⟩
    refine ⟨r - 16 * q.1, List.mem_range.2 (by omega), ?_⟩
    rw [show 1024 * r + k = 1024 * (16 * q.1 + (r - 16 * q.1)) + 4 * (16 * q.2.2.1) + (k - 64 * q.2.2.1) by omega, flatAcc_add _ (_ + _)]
    omega
  · rintro ⟨i, hi, lo, hi'⟩
    have := List.mem_range.1 hi
    refine ⟨16 * q.1 + i, 64 * q.2.2.1 + (a - flatAcc core (1024 * (16 * q.1 + i) + 4 * (16 * q.2.2.1))), by omega, by omega, by omega, by omega, ?_⟩
    rw [show 1024 * (16 * q.1 + i) + (64 * q.2.2.1 + (a - flatAcc core (1024 * (16 * q.1 + i) + 4 * (16 * q.2.2.1)))) =
      1024 * (16 * q.1 + i) + 4 * (16 * q.2.2.1) + (a - flatAcc core (1024 * (16 * q.1 + i) + 4 * (16 * q.2.2.1))) by omega, flatAcc_add _ (_ + _)]
    omega

theorem State.byte_accZero (s : State) (core : Nat) (q : Nat × Nat × Nat × Nat) (a : Nat) :
    (inRect core q a → (s.accZero core q).byte a = 0) ∧ (¬ inRect core q a → (s.accZero core q).byte a = s.byte a) := by
  have zeroed := State.byte_zeroRanges (fun i => accElem core (16 * q.1 + i) (16 * q.2.2.1)) (64 * q.2.2.2) (List.range (16 * q.2.1)) s a
  rw [inRect_iff]
  exact ⟨fun h => zeroed.trans (if_pos h), fun h => zeroed.trans (if_neg h)⟩

theorem State.accZero_kept (s : State) (core : Nat) (q : Nat × Nat × Nat × Nat) :
    (s.accZero core q).mjobs = s.mjobs ∧ (s.accZero core q).groups = s.groups ∧ (s.accZero core q).teams = s.teams := by
  unfold State.accZero
  induction List.range (16 * q.2.1) generalizing s with
  | nil => exact ⟨rfl, rfl, rfl⟩
  | cons i t ih => exact ih (s.zeroRange _ _)

/-! ### A job's start -/

/-- The parts stand in the other cooperating windows, and taking them changes the serial number alone (R274). -/
theorem State.mxbParts_kept (s : State) (j : MJob) : (s.mxbParts j).2.mem = s.mem ∧
    ∀ c, (kget (s.mxbParts j).1 c).isSome = true → ∃ r, (c, r) ∈ s.mxbOthers j := by
  suffices each : ∀ (l : List (Nat × Nat)) (acc : List (Nat × Nat × Nat) × State), (∀ x ∈ l, x ∈ s.mxbOthers j) → acc.2.mem = s.mem →
      (∀ c, (kget acc.1 c).isSome = true → ∃ r, (c, r) ∈ s.mxbOthers j) →
      let q := l.foldl (fun (acc : List (Nat × Nat × Nat) × State) c =>
        (kset acc.1 c.1 (acc.2.serial, c.2), { acc.2 with serial := acc.2.serial + 1 })) acc
      q.2.mem = s.mem ∧ ∀ c, (kget q.1 c).isSome = true → ∃ r, (c, r) ∈ s.mxbOthers j from
    each (s.mxbOthers j) ([], s) (fun _ hx => hx) rfl (fun c hc => by cases hc)
  intro l
  induction l with
  | nil => exact fun acc _ mem parts => ⟨mem, parts⟩
  | cons x t ih =>
    intro acc sub mem parts
    refine ih _ (fun y hy => sub y (List.mem_cons_of_mem _ hy)) mem fun c hc => ?_
    rw [kget_kset] at hc
    split at hc
    · exact ⟨x.2, ‹c = x.1› ▸ sub x List.mem_cons_self⟩
    · exact parts c hc

section
variable {s : State} {id : Nat} {j : MJob} (has : kget s.mjobs id = some j)
include has

theorem State.mxbStart_fails (fresh : j.saved = false) (bad : s.mxbCheck j ≠ 0) :
    s.mxbStart id = { s with mjobs := kset s.mjobs id { j with phase := .running, err := s.mxbCheck j } } := by
  unfold State.mxbStart
  rw [has]
  simp only [fresh, bad, Bool.false_eq_true, if_false, ne_eq, not_false_eq_true, if_true]

theorem State.mxbStart_runs (fresh : j.saved = false) (good : s.mxbCheck j = 0) : s.mxbStart id =
    { (s.mxbParts j).2 with mjobs := kset (s.mxbParts j).2.mjobs id { j with phase := .running, parts := (s.mxbParts j).1, saved := false } } := by
  unfold State.mxbStart
  rw [has]
  simp only [fresh, good, Bool.false_eq_true, if_false, ne_eq, not_true_eq_false]

theorem State.kblock_adds {t : BlkTy} (ty : blkTy (bitsOf j.block 0 5) = some t) {a b c d : List Nat} (reads : (s.kZero j).kReads j t = some (a, b, c, d)) :
    let r := (s.kZero j).kAll j t a b c d
    s.kblock id = State.accFlags { r.2.2 with mjobs := kset r.2.2.mjobs id { j with kdone := j.kdone + 1, ovf := j.ovf || r.1, fnv := j.fnv || r.2.1 } } j.tid r.1 r.2.1 := by
  unfold State.kblock
  rw [has]
  dsimp only
  rw [ty]
  dsimp only
  rw [reads]

theorem State.kblock_bad {t : BlkTy} (ty : blkTy (bitsOf j.block 0 5) = some t) (reads : (s.kZero j).kReads j t = none) :
    s.kblock id = { s.kZero j with mjobs := kset (s.kZero j).mjobs id { j with err := 5 } } := by
  unfold State.kblock
  rw [has]
  dsimp only
  rw [ty]
  dsimp only
  rw [reads]

theorem State.mxbDone_eq : s.mxbDone id =
    let t := State.putStatus { s with mjobs := kdel s.mjobs id } j true
    if j.err = 0 then t else t.accErr j.tid j.err := by
  unfold State.mxbDone
  rw [has]

theorem State.accStart_eq : s.accStart id =
    let t : State := { s with mjobs := kdel s.mjobs id }
    let c := (s.accTarget j.tid j.rect).getD j.core
    match j.kind with
    | .mxb => s
    | .accrd pend base lanes => t.accRead j (s.accTarget j.tid j.rect) pend base lanes
    | .accz => if s.accCheck j ≠ 0 then t.accErr j.tid (s.accCheck j) else t.accZero c (rectOf j.rect)
    | .accld st => if s.accCheck j ≠ 0 then t.accErr j.tid (s.accCheck j) else (t.accLoad j c st).getD (t.accErr j.tid 5)
    | .accst dt st rm sat => if s.accCheck j ≠ 0 then t.accErr j.tid (s.accCheck j) else t.accStore j c dt st rm sat := by
  unfold State.accStart
  rw [has] <;> rfl

end

/-- STATUS and PROG of a job that is over (R263, R276). -/
theorem State.putStatus_done (s : State) (j : MJob) : s.putStatus j true = s.put (flatScratch (s.teamD j.tid).core ((s.teamD j.tid).allocOff + j.blockOff + 56))
    (toBytes 8 ((if j.saved then 2 ^ 31 else 0) + j.kdone % 2 ^ 16 + (2 ^ 31 + (if j.ovf then 32 else 0) + (if j.fnv then 16 else 0) + j.err % 16) * 2 ^ 32)) := by
  unfold State.putStatus
  simp only [field_eq, if_true]
  congr 2
  cases j.saved <;> cases j.ovf <;> cases j.fnv <;> simp

/-- ACCZ's check: its rectangle must lie in the store of an accumulator team (R261, R278). -/
theorem State.accCheck_accz {s : State} {j : MJob} {c : Nat} (kind : j.kind = .accz) (target : s.accTarget j.tid j.rect = some c) (ok : rectOk j.rect = true) :
    s.accCheck j = 0 := by
  unfold State.accCheck
  simp only [kind, target, ok, Option.isNone_some, Bool.not_true, Bool.false_and, Bool.false_eq_true, if_false]

theorem State.accCheck_none {s : State} {j : MJob} (target : s.accTarget j.tid j.rect = none) : s.accCheck j = 11 := by
  unfold State.accCheck
  simp only [target, Option.isNone_none, if_true]

end Sys2Proof.Machine

open Sys2Proof Sys2Proof.Machine Sys2Proof.Laws

/-- Settles O33. -/
theorem matrixEvents : Obligations.MatrixEvents := by
  intro s id j on has T target gone bad rect prog status
  refine ⟨fun fresh fails => event_next (f := fun s => s.mxbStart id) on rfl (State.mxbStart_fails has fresh fails), fun fresh good => ⟨event_next (f := fun s => s.mxbStart id) on rfl (State.mxbStart_runs has fresh good), s.mxbParts_kept j⟩,
    fun t ty => ⟨fun a b c d reads => event_next (f := fun s => s.kblock id) on rfl (State.kblock_adds has ty reads), fun reads => event_next (f := fun s => s.kblock id) on rfl (State.kblock_bad has ty reads)⟩, event_next (f := fun s => s.mxbDone id) on rfl ?_,
    fun c kind at_ ok => ?_, fun st c u kind at_ check load => event_next (f := fun s => s.accStart id) on rfl ?_, fun dt st rm mode c kind at_ check => event_next (f := fun s => s.accStart id) on rfl ?_, fun p base lanes kind => event_next (f := fun s => s.accStart id) on rfl ?_,
    fun kind none_ => event_next (f := fun s => s.accStart id) on rfl ?_, fun conj scl sa sb x y a im t u => ⟨rfl, rfl, rfl⟩⟩
  · refine (State.mxbDone_eq has).trans ?_
    rw [State.putStatus_done]
    rfl
  · have check := State.accCheck_accz kind at_ ok
    have start : s.accStart id = gone.accZero c (rectOf j.rect) := by
      rw [State.accStart_eq has, show s.accTarget j.tid j.rect = some c from at_]
      simp only [kind, check]
      rfl
    obtain ⟨mjobs, groups, teams⟩ := gone.accZero_kept c (rectOf j.rect)
    exact ⟨_, event_next (f := fun s => s.accStart id) on rfl start, mjobs, groups, teams, fun a => gone.byte_accZero c (rectOf j.rect) a⟩
  · refine (State.accStart_eq has).trans ?_
    rw [show s.accTarget j.tid j.rect = some c from at_]
    simp only [kind, check]
    exact congrArg (fun o => Option.getD o _) load
  · refine (State.accStart_eq has).trans ?_
    rw [show s.accTarget j.tid j.rect = some c from at_]
    simp only [kind, check]
    rfl
  · refine (State.accStart_eq has).trans ?_
    simp only [kind]
    rfl
  · refine (State.accStart_eq has).trans ?_
    rw [State.accCheck_none none_]
    rcases kind with is | ⟨st, is⟩ | ⟨dt, st, rm, mode, is⟩ <;> simp only [is] <;> rfl
end

section
/-! PROOFS of SequencerWords: the sequencer's words and the end of their operations (R287–R307). -/

namespace Sys2Proof.Machine

theorem State.ccl_seqEnter (s : State) (cl : Nat) (o : SeqOp) :
    (s.seqEnter cl o).ccl cl = { s.ccl cl with seqCtx := o.ctx, seqQ := (s.ccl cl).seqQ ++ [o] } :=
  congrArg (fun c : Option CCluster => c.getD CCluster.reset) (kget_kset_self _ _ _)

theorem State.emits_seqEnter (s : State) (cl : Nat) (o : SeqOp) (kind a : Nat) :
    ((s.seqEnter cl o).ccl cl).emits kind a = (s.ccl cl).emits kind a := by
  rw [State.ccl_seqEnter]
  rfl

/-- The operation of a sequencer word (R295). -/
def seqOpOf (gid pend : Nat) (pc : Pc) (mask : LaneMask) (kind ctx tid : Nat) (ptr : DWord) (a b due : Nat) : SeqOp :=
  { gid := gid, pend := pend, pc := pc, mask := mask, kind := kind, ctx := ctx, tid := tid, ptr := ptr, a := a, b := b, req := none, bad := false, due := due }

/-- The state in which an operation has entered, and its group waits when its table asks for records (R302). -/
def State.seqEntered (s : State) (asks : Bool) (cl : Nat) (o : SeqOp) : State :=
  if asks then
    (s.seqEnter cl o).modGrp o.gid (fun q => { q with wait := .engine, waitPc := o.pc, waitMask := o.mask, wakeAt := none, touches := [] })
  else s.seqEnter cl o

theorem Steady.seqEntered (gid : Nat) (s : State) (asks : Bool) (cl : Nat) (o : SeqOp) : Steady gid s (s.seqEntered asks cl o) := by
  cases asks
  · exact Steady.ofGroups _ rfl
  · exact Steady.trans (t := s.seqEnter cl o) (Steady.ofGroups _ rfl) (Steady.modGrp _ _ _ _ (fun _ => ⟨rfl, rfl⟩))

/-- A sequencer word with room in its queue (R295). -/
theorem W.slv_enters {w : W} {d : Opnd} {ptr : DWord} {kind a b core ctx tid : Nat} (at_ : w.g.core = core) (mine : w.g.ctx = ctx) (team : w.g.tid = tid)
    (busy : w.ex ≠ []) (wet : w.dry = false) (room : (w.s.ccl (coreCcl core)).seqQ.length < 64) :
    w.slv kind d ptr a b = { (w.pend [] none false).2 with
      s := State.seqEntered { (w.pend [] none false).2.s with free := w.s.free + 1 } ((w.s.ccl (coreCcl core)).emits kind a) (coreCcl core)
        (seqOpOf w.gid w.s.serial w.pc w.act kind ctx tid ptr a b w.s.freeDue.1) } := by
  subst at_ mine team
  unfold W.slv
  dsimp only
  rw [if_neg (by simpa [List.isEmpty_iff] using busy), if_neg (Bool.eq_false_iff.1 wet), if_neg (Nat.not_le.2 room), W.pend_eq w [] none false busy wet]
  rw [State.emits_seqEnter]
  cases asks : (w.s.ccl (coreCcl w.g.core)).emits kind a with
  | true => exact (if_pos asks).trans (if_neg (by exact Bool.eq_false_iff.1 wet))
  | false => exact if_neg (Bool.eq_false_iff.1 asks)

/-- A sequencer word where its queue has room. -/
theorem Ready.entersSeq {i : Instr} {s : State} {g : Group} {pc : Pc} {d : Opnd} {kind x y : Nat} {ptr : DWord} {body : W → W}
    (hr : Ready (info i) (ownKeys (info i)) s g pc) (he : exec i s = runWord i s body)
    (hb : body (W.begin (info i) s g pc) = (W.begin (info i) s g pc).slv kind d ptr x y) (busy : (g.entered (info i)).exLanes (info i) g.active ≠ [])
    (room : (s.ccl (coreCcl g.core)).seqQ.length < 64) :
    Leaves i s g pc [] (fun e z => State.seqEntered { z with free := s.free + 1 } ((s.ccl (coreCcl g.core)).emits kind x) (coreCcl g.core)
      (seqOpOf s.focus e.id pc g.active kind g.ctx g.tid ptr x y s.freeDue.1)) := by
  obtain ⟨team, core, ctx⟩ := Group.entered_place g (info i)
  refine hr.leaves he busy [] false _ (fun e here => ?_) (fun e z => Steady.trans (t := { z with free := s.free + 1 }) (Steady.ofGroups _ rfl) (Steady.seqEntered _ _ _ _ _))
  rw [here]
  exact hb.trans (W.slv_enters core ctx team busy hr.wet room)

/-! ### The end of an operation (R293, R302, R306) -/

theorem State.seqCommit_idle {s : State} {cl : Nat} (next : s.seqNext cl = none) : s.seqCommit cl = s := by
  unfold State.seqCommit
  rw [next]

section
variable {s t : State} {o : SeqOp} {cl : Nat} (next : s.seqNext cl = some o)
include next

theorem State.seqCommit_ends {w : Word} {emit : Option (Nat × List Byte)} {k : CCluster} (done : s.seqPerform o cl = (.ok (w, emit, k), t)) :
    s.seqCommit cl = t.seqDone cl o w emit k := by
  unfold State.seqCommit
  rw [next]
  dsimp only
  rw [done]

theorem State.seqCommit_parks {q : DWord} {x : Bool × Nat} (parked : s.seqPerform o cl = (.error (q, some x), t)) : s.seqCommit cl = t.seqPark cl o q x := by
  unfold State.seqCommit
  rw [next]
  dsimp only
  rw [parked]

end

/-! ### What an operation does (R292–R296) -/

section
variable {o : SeqOp} (s : State) (cl : Nat)

theorem State.seqSample_replay {k : CCluster} (differs : o.b % 4096 ≠ smpSeq (k.sample o.a)) (before : o.b % 4096 = (smpSeq (k.sample o.a) + 4095) % 4096)
    (last : smp (k.sample o.a) 622 2 = o.kind - 1) : s.seqSample o k = (.ok ⟨1, 0, k.sample o.a, none⟩, s) := by
  unfold State.seqSample
  dsimp only
  rw [if_pos differs]
  exact if_pos ⟨before, last⟩

theorem State.seqSample_number {k : CCluster} (differs : o.b % 4096 ≠ smpSeq (k.sample o.a))
    (other : o.b % 4096 ≠ (smpSeq (k.sample o.a) + 4095) % 4096 ∨ smp (k.sample o.a) 622 2 ≠ o.kind - 1) :
    s.seqSample o k = (.ok ⟨2, 0, k.sample o.a, none⟩, s) := by
  unfold State.seqSample
  dsimp only
  rw [if_pos differs]
  exact if_neg (fun ⟨before, last⟩ => other.elim (fun h => h before) (fun h => h last))

section
variable (on : o.kind = 2 ∨ o.kind = 3 ∨ o.kind = 4)
include on

theorem State.seqPerform_far (far : 4095 < o.a) : s.seqPerform o cl = (.ok (7, none, s.ccl cl), s) := by
  unfold State.seqPerform
  rcases on with kind | kind | kind <;> rw [kind] <;> exact if_pos far

/-- An operation on a sample that ends with nothing to emit. -/
theorem State.seqPerform_quiet (near : o.a ≤ 4095) {x : SeqOut} (sampled : s.seqSample o (s.ccl cl) = (.ok x, s)) (silent : x.emit = none) :
    s.seqPerform o cl = (.ok (if x.code = 1 then BitVec.ofNat 32 (smp ((s.ccl cl).sample o.a) 640 32 / 8 * 8 + 1) else slvStatus x.rec_ x.err x.code, none,
      (s.ccl cl).setSample o.a x.rec_), s) := by
  unfold State.seqPerform
  rcases on with kind | kind | kind <;> rw [kind] <;> refine (if_neg (Nat.not_lt.2 near)).trans ?_ <;> rw [sampled] <;> dsimp only <;>
    rw [silent]

theorem State.seqSample_phase {k : CCluster} (same : o.b % 4096 = smpSeq (k.sample o.a))
    (phase : smpPhase (k.sample o.a) ≠ if o.kind = 2 then 1 else if o.kind = 3 then 2 else 3) : s.seqSample o k = (.ok ⟨3, 0, k.sample o.a, none⟩, s) := by
  unfold State.seqSample
  dsimp only
  rw [if_neg (not_not_intro same)]
  rcases on with kind | kind | kind <;> rw [kind] at phase ⊢ <;> norm_num at phase
  all_goals
    split
    · omega
    · omega
    · omega
    · rfl

end

/-- SLVPUT's record (R297). -/
def putRecord (r : Nat) (tb : List Byte) : Nat :=
  smpSet (smpSet (smpSet r 624 16 (smp r 624 16 ||| 2 ^ smpStage r)) 584 5 (smpStage r + 1)) 581 3 (if smpStage r + 1 = tabS tb then 3 else 1)

theorem State.seqSample_put {k : CCluster} (kind : o.kind = 3) (same : o.b % 4096 = smpSeq (k.sample o.a)) (phase : smpPhase (k.sample o.a) = 2) :
    s.seqSample o k = (.ok (seqOk (putRecord (k.sample o.a) ((k.table (smpTable (k.sample o.a))).getD [])) o.a 2
      ((k.table (smpTable (k.sample o.a))).getD []) false 0 0), s) := by
  unfold State.seqSample
  dsimp only
  rw [if_neg (not_not_intro same), kind, phase]
  rfl

section
variable (table : o.kind = 0)
include table

theorem State.seqPerform_noSlot (slot : 7 < o.b) : s.seqPerform o cl = (.ok (7, none, s.ccl cl), s) := by
  unfold State.seqPerform
  rw [table]
  exact if_pos slot

theorem State.seqPerform_table {img : List Byte} {t : State} (slot : o.b ≤ 7) (aligned : o.ptr.toNat % 128 = 0) (read : s.seqImage o o.ptr 1280 = (.ok img, t)) :
    s.seqPerform o cl = (.ok (if tableOk img then 0 else 4, none,
      if tableOk img then { s.ccl cl with slots := kset (s.ccl cl).slots o.b img } else s.ccl cl), t) := by
  unfold State.seqPerform
  rw [table]
  refine (if_neg (Nat.not_lt.2 slot)).trans ((if_neg (not_not_intro aligned)).trans ?_)
  rw [read]
  cases ok : tableOk img with
  | true => exact if_pos ok
  | false => exact if_neg (Bool.eq_false_iff.1 ok)

end

theorem State.seqPerform_init {img : List Byte} {t : State} (kind : o.kind = 1) (inside : o.b ≤ 4095) (read : s.seqImage o o.ptr 128 = (.ok img, t))
    (good : initOk (s.ccl cl) (ofBytes img) = true) :
    s.seqPerform o cl = (.ok (slvStatus (initRecord (ofBytes img)) 0 0, none, (s.ccl cl).setSample o.b (initRecord (ofBytes img))), t) := by
  unfold State.seqPerform
  rw [kind]
  refine (if_neg (Nat.not_lt.2 inside)).trans ?_
  rw [read]
  exact if_pos good

theorem State.seqPerform_stat (kind : o.kind = 5) (sample : o.b.testBit 5 = false) : s.seqPerform o cl =
    (.ok (BitVec.ofNat 32 (if 4095 < o.a then 0 else smp ((s.ccl cl).sample o.a) (32 * (o.b % 32)) 32), none, s.ccl cl), s) := by
  unfold State.seqPerform
  rw [kind]
  exact if_neg (Bool.eq_false_iff.1 sample)

end

end Sys2Proof.Machine

open Sys2Proof Sys2Proof.Machine Sys2Proof.Laws

/-- Settles O34. -/
theorem sequencerWords : Obligations.SequencerWords := by
  intro h d a b s g pc word v p
  have words : ∀ i kind ptr x y (body : W → W), exec i s = runWord i s body →
      body (W.begin (info i) s g pc) = (W.begin (info i) s g pc).slv kind d ptr x y → word i kind ptr x y :=
    fun i kind ptr x y body he hb hr busy room => ⟨s.freeDue.1, s.free + 1, s.freeDue_later, hr.entersSeq he hb busy room⟩
  refine ⟨⟨words _ _ _ _ _ _ rfl rfl, words _ _ _ _ _ _ rfl rfl, words _ _ _ _ _ _ rfl rfl, words _ _ _ _ _ _ rfl rfl, words _ _ _ _ _ _ rfl rfl, words _ _ _ _ _ _ rfl rfl⟩,
    fun on cl => ⟨fun idle => event_next (f := fun s => s.seqCommit cl) on rfl (State.seqCommit_idle idle), fun o next =>
      ⟨fun w k t done => event_next (f := fun s => s.seqCommit cl) on rfl (State.seqCommit_ends next done),
        fun w n rec_ k t done => event_next (f := fun s => s.seqCommit cl) on rfl (State.seqCommit_ends next done),
        fun q x t parked => event_next (f := fun s => s.seqCommit cl) on rfl (State.seqCommit_parks next parked)⟩⟩, ?_⟩
  intro o cl k r n onSample phase same
  refine ⟨State.seqPerform_far s cl, fun on near differs before last => ?_, fun on near differs other => ?_, fun on near eq other => ?_, fun kind near eq two => ?_,
    State.seqPerform_noSlot s cl, fun kind slot aligned img t read => State.seqPerform_table s cl kind slot aligned read,
    fun kind inside img t read good => State.seqPerform_init s cl kind inside read good, State.seqPerform_stat s cl⟩
  · exact State.seqPerform_quiet s cl on near (s.seqSample_replay differs before last) rfl
  · exact State.seqPerform_quiet s cl on near (s.seqSample_number differs other) rfl
  · exact State.seqPerform_quiet s cl on near (s.seqSample_phase on eq other) rfl
  · exact State.seqPerform_quiet s cl (.inr (.inl kind)) near (s.seqSample_put kind eq two) rfl
end

section
/-! PROOFS of WorkWords: the words that enter work behind a release (R322–R327). -/

namespace Sys2Proof.Machine

/-! ### A word's own release (R193, R322–R325, R345) -/

theorem W.relWait_begins {w : W} {scope : Nat} (fresh : ∀ f ∈ w.g.fences, ¬ (f.barrier = true ∧ f.pc = w.pc)) :
    w.relWait scope = some { w with hold := some .fence, holdFx := relFence w.gid w.pc scope } := by
  have absent : w.g.fences.find? (fun f => f.barrier && decide (f.pc = w.pc)) = none := by
    simpa only [List.find?_eq_none, Bool.and_eq_true, decide_eq_true_eq] using fresh
  unfold W.relWait
  rw [absent]

theorem W.relWait_over {w : W} {scope : Nat} (done : w.g.released w.pc) : w.relWait scope = none := by
  obtain ⟨f, is, free⟩ := done
  unfold W.relWait
  rw [is]
  exact if_neg (Bool.eq_false_iff.1 free)

theorem Group.entered_released {g : Group} {pc : Pc} (done : g.released pc) (f : Info) : (g.entered f).released pc := by
  unfold Group.released
  rwa [(Group.entered_fences g f).1]

/-- A change of a group whose value is known. -/
theorem State.modGrp_const {s : State} {gid : Nat} {g : Group} (here : s.grp gid = some g) (f : Group → Group) : s.modGrp gid f = s.modGrp gid (fun _ => f g) := by
  unfold State.grp at here
  unfold State.modGrp
  rw [here]

theorem State.grp_modGrp_here {s : State} {gid : Nat} {g : Group} (here : s.grp gid = some g) (f : Group → Group) : (s.modGrp gid f).grp gid = some (f g) :=
  (State.grp_modGrp_self _ _ _).trans (congrArg (Option.map f) here)

theorem State.modGrp_modGrp {s : State} {gid : Nat} {g : Group} (here : s.grp gid = some g) (f f' : Group → Group) :
    (s.modGrp gid f).modGrp gid f' = s.modGrp gid (fun _ => f' (f g)) := by
  rw [State.modGrp_const here f, State.modGrp_const (g := f g) (State.grp_modGrp_here here (fun _ => f g)) f']
  unfold State.grp at here
  unfold State.modGrp
  dsimp only
  rw [here]
  dsimp only
  rw [kget_kset_self]
  exact congrArg (fun m => { s with groups := m }) (kset_kset _ _ _ _)

/-- The state in which a word's own release is forgotten. -/
theorem W.relDone_eq {w : W} (here : w.s.grp w.gid = some w.g) : w.relDone = { w with s := w.s.modGrp w.gid (fun _ => w.g.afterRelease w.pc) } :=
  congrArg (fun x => { w with s := x }) (State.modGrp_const here _)

/-- A word held for something, whatever its checks changed. -/
theorem Ready.heldIn {i : Instr} {keys : Group → List Nat → List Nat} {s : State} {g : Group} {pc : Pc} {body : W → W} (h : Ready (info i) keys s g pc)
    (he : exec i s = runWordX i keys s body) (c : SlotCause) (fx : State → State) (x : State)
    (hb : body (W.begin (info i) s g pc) = { W.begin (info i) s g pc with s := x, hold := some c, holdFx := fx }) (now : x.pkg = s.pkg) :
    exec i s = .next ((fx s).modGrp s.focus (fun k => { k with retryAt := s.pkg.clock + 1, retryCause := c, waitPc := pc })) := by
  refine he.trans ((h.run _).trans ?_)
  rw [hb, ← now]
  rfl

/-- A group of known value changed but for its lanes' places. -/
theorem Steady.becomes {gid : Nat} {s x : State} {g k : Group} (steady : Steady gid s x) (here : x.grp gid = some g) (vpc : k.vpc = g.vpc) (helper : k.helper = g.helper) :
    Steady gid s (x.modGrp gid (fun _ => k)) := by
  intro y is
  obtain ⟨z, at_, same⟩ := steady y is
  obtain rfl : g = z := Option.some.inj (here.symm.trans at_)
  exact ⟨k, State.grp_modGrp_here here _, vpc.trans same.1, helper.trans same.2⟩

theorem Steady.releases {gid : Nat} {s x : State} {g : Group} (steady : Steady gid s x) (here : x.grp gid = some g) (pc : Pc) :
    Steady gid s (x.modGrp gid (fun _ => g.afterRelease pc)) := steady.becomes here rfl rfl

theorem Steady.forgets {gid : Nat} {s x : State} {g : Group} (steady : Steady gid s x) (here : x.grp gid = some g) (pc : Pc) :
    Steady gid s (x.modGrp gid (fun _ => { g.afterRelease pc with recReq := [] })) := steady.becomes here rfl rfl

/-- The port that a group's team began from. -/
theorem State.originOf_of_grp {s : State} {gid : Nat} {g : Group} (here : s.grp gid = some g) : s.originOf gid = (s.teamD g.tid).origin := by
  unfold State.originOf
  rw [State.grpD_of_grp here]

/-! ### LAUNCH (R322) -/

section
variable {w : W} {d a : Opnd} {ptr p : DWord} {e z f ctx : Nat} {t : State} (busy : w.ex.isEmpty = false) (wet : w.dry = false)
  (good : w.s.reachG w.g.who 0 (w.g.rd64 0 a) 64 true true needR kindLoad = (.glob p e z f, t))
include busy wet good

theorem W.launch_begins (fresh : ∀ f ∈ w.g.fences, ¬ (f.barrier = true ∧ f.pc = w.pc)) :
    w.launch d a = { w with s := t, hold := some .fence, holdFx := relFence w.gid w.pc 0 } := by
  unfold W.launch
  rw [busy, if_neg Bool.false_ne_true, if_neg (Bool.eq_false_iff.1 wet), good]
  dsimp only
  rw [W.relWait_begins (w := { w with s := t }) fresh]

theorem W.launch_enters (mine : w.g.ctx = ctx) (here : t.grp w.gid = some w.g) (done : w.g.released w.pc) (room : (t.feCtx ctx).devq.length < 256)
    (sound : t.bad f 64 = false) :
    w.launch d a = { (W.pend { w with s := t.modGrp w.gid (fun _ => w.g.afterRelease w.pc) } [] none false).2 with
      s := (W.pend { w with s := t.modGrp w.gid (fun _ => w.g.afterRelease w.pc) } [] none false).2.s.devEnter ctx
        ⟨t.bytes f 64, t.originOf w.gid, w.gid, t.serial⟩ } := by
  subst mine
  have id : (W.pend { w with s := t.modGrp w.gid (fun _ => w.g.afterRelease w.pc) } [] none false).1 = t.serial :=
    congrArg Prod.fst (W.pend_eq { w with s := t.modGrp w.gid (fun _ => w.g.afterRelease w.pc) } [] none false (by simpa [List.isEmpty_iff] using busy) wet)
  have origin : (t.modGrp w.gid (fun _ => w.g.afterRelease w.pc)).originOf w.gid = t.originOf w.gid := by
    rw [State.originOf_of_grp here, State.originOf_of_grp (g := w.g.afterRelease w.pc) (State.grp_modGrp_here here _)]
    rfl
  unfold W.launch
  rw [busy, if_neg Bool.false_ne_true, if_neg (Bool.eq_false_iff.1 wet), good]
  dsimp only
  rw [W.relWait_over (w := { w with s := t }) done]
  dsimp only
  rw [if_neg (Nat.not_le.2 room), W.relDone_eq (w := { w with s := t }) here]
  dsimp only
  rw [if_neg (by exact Bool.eq_false_iff.1 sound), origin, id]
  rfl

end

/-! ### EMIT (R323) -/

theorem head?_of_ne_nil {α : Type} {l : List α} (some_ : l ≠ []) {d : α} : l.head? = some (l.headD d) := by
  obtain ⟨x, t, rfl⟩ := List.exists_cons_of_ne_nil some_
  rfl

section
variable {w : W} {a b : Opnd} {rs ctx n : Nat} {x : Node} {L : List Nat} (lanes : w.ex.filter (fun l => !w.g.isHelper l) = L) (some_ : L ≠ [])
  (wet : w.dry = false) (mine : w.g.ctx = ctx) (number : (w.g.rd (L.headD 0) a).toNat = n) (node : w.s.node ctx n = some x) (is_open : x.state = 1) (size : x.rs = rs)
include lanes some_ wet mine number node is_open size

theorem W.emit_begins (fresh : ∀ f ∈ w.g.fences, ¬ (f.barrier = true ∧ f.pc = w.pc)) :
    w.emit a b rs = { w with hold := some .fence, holdFx := relFence w.gid w.pc 0 } := by
  subst mine number
  unfold W.emit
  dsimp only
  rw [lanes, if_neg (Bool.eq_false_iff.1 wet), head?_of_ne_nil some_]
  dsimp only
  rw [node]
  dsimp only
  rw [if_neg (not_not_intro is_open), if_neg (not_not_intro size), W.relWait_begins fresh]

theorem W.emit_puts (here : w.s.grp w.gid = some w.g) (done : w.g.released w.pc) (room : x.times.length + L.length ≤ 2 ^ x.kernel.cap) {fs : List Nat}
    (places : (List.range L.length).map (fun k => w.s.ringAt w.g (x.entry (x.times.length + k))) = fs.map RingAt.ok) :
    w.emit a b rs = { w with s := ((w.s.modGrp w.gid (fun _ => { w.g.afterRelease w.pc with recReq := [] })).emitPut w.g b rs
      ((fs.map RingAt.ok).zip L)).nodeAppend ctx n L.length } := by
  subst mine number
  have none_fails : ∀ q : RingAt → Bool, (∀ f, q (.ok f) = false) → (fs.map RingAt.ok).find? q = none := by
    intro q sound
    simp [sound]
  have none_waits : ∀ q : RingAt → Bool, (∀ f, q (.ok f) = false) → (fs.map RingAt.ok).any q = false := by
    intro q sound
    simp [sound]
  have forgets : w.relDone.mod (fun g => { g with recReq := [] }) = { w with s := w.s.modGrp w.gid (fun _ => { w.g.afterRelease w.pc with recReq := [] }) } :=
    congrArg (fun y => { w with s := y }) (State.modGrp_modGrp here _ _)
  unfold W.emit
  dsimp only
  rw [lanes, if_neg (Bool.eq_false_iff.1 wet), head?_of_ne_nil some_]
  dsimp only
  rw [node]
  dsimp only
  rw [if_neg (not_not_intro is_open), if_neg (not_not_intro size), W.relWait_over done]
  dsimp only
  rw [if_neg (Nat.not_lt.2 room), places, none_fails]
  · dsimp only
    rw [none_waits]
    · rw [if_neg Bool.false_ne_true, forgets]
    · intro f
      rfl
  · intro f
    rfl

end

theorem State.emitPut_ok (s : State) (g : Group) (b : Opnd) (rs : Nat) (fs L : List Nat) :
    s.emitPut g b rs ((fs.map RingAt.ok).zip L) = (fs.zip L).foldl (fun t q => t.homePut q.1 (g.record q.2 b rs)) s := by
  unfold State.emitPut
  rw [List.zip_map_left, List.foldl_map]
  rfl

theorem Steady.emitPut (gid : Nat) (s : State) (g : Group) (b : Opnd) (rs : Nat) (fs L : List Nat) :
    Steady gid s ((fs.zip L).foldl (fun t q => t.homePut q.1 (g.record q.2 b rs)) s) :=
  Steady.fold (f := fun (t : State) (q : Nat × Nat) => t.homePut q.1 (g.record q.2 b rs)) (fun t _ => Steady.ofCalm _ (State.homePut_calm t _ _)) _ _

/-! ### CONT (R324) -/

section
variable {w : W} {a b : Opnd} {rs tid : Nat} (busy : w.ex.isEmpty = false) (wet : w.dry = false) (team : w.g.tid = tid)
  (good : w.s.contCheck tid (w.g.rd 0 a).toNat rs = none)
include busy wet team good

theorem W.cont_begins (fresh : ∀ f ∈ w.g.fences, ¬ (f.barrier = true ∧ f.pc = w.pc)) :
    w.cont a b rs = { w with hold := some .fence, holdFx := relFence w.gid w.pc 0 } := by
  subst team
  unfold W.cont
  rw [if_neg (by rw [busy, wet]; decide)]
  dsimp only
  rw [good, W.relWait_begins fresh]

theorem W.cont_binds (done : w.g.released w.pc) : w.cont a b rs = ({ w with s := w.s.bind tid (w.g.rd 0 a).toNat (w.g.record 0 b rs) } : W).relDone.exitAll := by
  subst team
  unfold W.cont
  rw [if_neg (by rw [busy, wet]; decide)]
  dsimp only
  rw [good, W.relWait_over done]

end

/-- A lane past the end has exited. -/
theorem exited_getD (l : Nat) : (lanes32.map (fun _ => exitPc)).getD l exitPc = exitPc := by
  rw [List.getD_eq_getElem?_getD, List.getElem?_map]
  cases lanes32[l]? <;> rfl

theorem exitHelpers_exited (helper : LaneMask) : exitHelpers helper (lanes32.map (fun _ => exitPc)) = lanes32.map (fun _ => exitPc) := by
  unfold exitHelpers
  split <;> rfl

/-- A group whose every lane has exited has retired (R78). -/
theorem Group.retired_of_exited {g : Group} (exited : g.vpc = lanes32.map (fun _ => exitPc)) : g.retired = true := by
  have gone : ∀ l, g.vpcOf l = exitPc := fun l => by
    unfold Group.vpcOf
    rw [exited]
    exact exited_getD l
  have live : g.live = maskOf (fun _ => false) := by
    unfold Group.live
    exact congrArg maskOf (funext fun l => by rw [gone]; rfl)
  unfold Group.retired
  rw [live]
  decide

/-- The lanes' PCs after every lane exits. -/
theorem W.newVpc_exitAll (w : W) {g : Group} (here : w.s.grp w.gid = some g) (faults : w.faults = []) (absents : w.absents = []) (held : w.held = [])
    (moves : w.stuck = false) : w.exitAll.newVpc = lanes32.map (fun _ => exitPc) := by
  have jumps : ∀ l ∈ lanes32, kget (w.vpc ++ lanes32.map (fun l => (l, exitPc))).reverse l = some exitPc := by
    intro l in_
    have last : lastAt (w.vpc ++ lanes32.map (fun l => (l, exitPc))) l = some exitPc := by
      rw [lastAt_append, lastAt_lanes, if_pos in_]
      rfl
    exact last
  have group : (w.exitAll.s.grpD w.gid).vpc = lanes32.map (fun _ => exitPc) := congrArg Group.vpc (State.grpD_of_grp (State.grp_modGrp_here here _))
  unfold W.newVpc W.stays W.rolled
  refine List.map_congr_left fun l in_ => ?_
  rw [show w.exitAll.faults = [] from faults, show w.exitAll.absents = [] from absents, show w.exitAll.held = [] from held, show w.exitAll.stuck = false from moves,
    show w.exitAll.vpc = w.vpc ++ lanes32.map (fun l => (l, exitPc)) from rfl, jumps l in_]
  unfold Group.vpcOf
  rw [show w.exitAll.gid = w.gid from rfl, group, exited_getD]
  simp

/-- CONT where its record may be bound and its release is over. -/
theorem Ready.binds {h : Hdr} {a b : Opnd} {rs : RecSize} {s : State} {g : Group} {pc : Pc} (hr : Ready (info (.cont h a b rs)) (ownKeys (info (.cont h a b rs))) s g pc)
    (busy : (g.entered (info (.cont h a b rs))).exLanes (info (.cont h a b rs)) g.active ≠ [])
    (good : s.contCheck g.tid ((g.entered (info (.cont h a b rs))).rd 0 a).toNat (rsBytes rs) = none) (done : g.released pc) :
    let E := g.entered (info (.cont h a b rs))
    ∃ (z : State) (k : Group), exec (.cont h a b rs) s = .next ((z.chargeIssue s.focus .issue pc).retireGroup s.focus) ∧ z.grp s.focus = some k ∧ k.retired = true ∧
      z.teams = kmod s.teams g.tid (fun t => { t with bound := t.bound ++ [⟨(E.rd 0 a).toNat, E.record 0 b (rsBytes rs)⟩] }) ∧
      (∀ j, j ≠ s.focus → z.grp j = s.grp j) ∧ ∀ c, z.byte c = s.byte c := by
  intro E
  let i := Instr.cont h a b rs
  let u : W := { W.begin (info i) s g pc with s := (s.entered (info i) g).bind g.tid (E.rd 0 a).toNat (E.record 0 b (rsBytes rs)) }
  let v : W := u.relDone
  have here : u.s.grp s.focus = some E := State.entered_grp s (info i) g
  have still : v.s.grp s.focus = some (E.afterRelease pc) := State.grp_modGrp_here here _
  have body : (W.begin (info i) s g pc).cont a b (rsBytes rs) = v.exitAll :=
    W.cont_binds (W.begin_ex busy) hr.wet (Group.entered_place g (info i)).1 good (Group.entered_released done (info i))
  have vpc : v.exitAll.newVpc = lanes32.map (fun _ => exitPc) := W.newVpc_exitAll v still rfl rfl rfl rfl
  have grp : v.exitAll.s.grp s.focus = some { E.afterRelease pc with vpc := lanes32.map (fun _ => exitPc), aside := [] } :=
    State.grp_modGrp_here still _
  refine ⟨v.exitAll.s.modGrp s.focus v.exitAll.close, _, ?_, State.grp_modGrp_here grp _, ?_, rfl, fun j other => ?_, fun c => rfl⟩
  · have run : exec i s = .next v.exitAll.finish := (hr.run _).trans (by rw [body])
    exact run.trans (congrArg Host.Outcome.next (W.finish_clean v.exitAll rfl rfl rfl rfl hr.wet))
  · refine Group.retired_of_exited ?_
    rw [(W.close_kept _ _).2.2.1, vpc, exitHelpers_exited]
  · refine (State.grp_modGrp_ne _ _ other).trans ((State.grp_modGrp_ne _ _ other).trans ((State.grp_modGrp_ne _ _ other).trans ?_))
    exact State.grp_setGrp_ne s _ other

/-! ### NOTIFY and NODEQ (R325, R326) -/

section
variable {w : W} {d a b : Opnd} (busy : w.ex.isEmpty = false) (wet : w.dry = false)
include busy wet

theorem W.notify_begins (fresh : ∀ f ∈ w.g.fences, ¬ (f.barrier = true ∧ f.pc = w.pc)) :
    w.notify d a b = { w with hold := some .fence, holdFx := relFence w.gid w.pc 5 } := by
  unfold W.notify
  rw [busy, if_neg Bool.false_ne_true, if_neg (Bool.eq_false_iff.1 wet), W.relWait_begins fresh]

/-- A lane's status of NOTIFY, 0 in a helper lane (R325). -/
def W.notifies (w : W) (a : Opnd) (l : Nat) : Nat := if !uniOf w.f && w.g.isHelper l then 0 else w.s.notifyStatus w.g.ctx (w.g.rd l a).toNat

/-- The state after NOTIFY's tail writes, its release forgotten (R325). -/
def W.tailed (w : W) (a b : Opnd) : State :=
  (w.s.modGrp w.gid (fun _ => w.g.afterRelease w.pc)).tails (w.ex.filter (fun l => decide (w.notifies a l = 0) && !(!uniOf w.f && w.g.isHelper l)))
    (fun l => (w.g.rd l a).toNat) (fun l => w.g.rd l b)

theorem W.notify_tails (here : w.s.grp w.gid = some w.g) (done : w.g.released w.pc) : w.notify d a b =
    ({ w with s := (w.tailed a b).freeDue.2 } : W).var (dstCells d 0 w.ex (fun l => BitVec.ofNat 32 (w.notifies a l))) (w.tailed a b).freeDue.1 false := by
  unfold W.notify
  rw [busy, if_neg Bool.false_ne_true, if_neg (Bool.eq_false_iff.1 wet), W.relWait_over done]
  dsimp only
  rw [W.relDone_eq here]
  rfl

end

theorem State.tails_calm (s : State) (L : List Nat) (port : Nat → Nat) (v : Nat → Word) : Calm s (s.tails L port v) := by
  unfold State.tails
  exact Calm.fold (f := fun s l => s.modPort (port l) fun p => p.tail (v l)) (fun _ _ => ⟨rfl, rfl, rfl, rfl, rfl, rfl⟩) _ _

/-- What NOTIFY's status says of a port (R325). -/
theorem State.notifyStatus_cases (s : State) (ctx p : Nat) :
    BitVec.ofNat 32 (s.notifyStatus ctx p) = (if 1023 < p then 1 else if (s.port p).ctx ≠ ctx then 2 else 0 : Word) ∧
      (s.notifyStatus ctx p = 0 ↔ (if 1023 < p then 1 else if (s.port p).ctx ≠ ctx then 2 else 0 : Word) = 0) := by
  unfold State.notifyStatus
  split
  · exact ⟨rfl, by decide⟩
  · split
    · exact ⟨rfl, by decide⟩
    · exact ⟨rfl, by decide⟩

/-- The word NODEQ reads (R326). -/
theorem State.nodeWord_eq (s : State) (ctx n : Nat) : s.nodeWord ctx n = match s.node ctx n with
    | none => 0
    | some x => BitVec.ofNat 32 (x.state % 4 * 2 ^ 30 + (if x.blocked then 2 ^ 29 else 0) + x.times.length % 2 ^ 17) := by
  unfold State.nodeWord
  cases s.node ctx n with
  | none => rfl
  | some x =>
    dsimp only
    simp only [field_eq]
    cases x.blocked <;> simp

end Sys2Proof.Machine

open Sys2Proof Sys2Proof.Machine Sys2Proof.Laws

/-- Settles O35. -/
theorem workWords : Obligations.WorkWords := by
  intro h d a b rs s g pc E S X ready free free' begins la em co no nq L n helps port status
  have fences : ∀ i, (E i).fences = g.fences := fun i => (Group.entered_fences g (info i)).1
  have ctx : ∀ i, (E i).ctx = g.ctx := fun i => (Group.entered_place g (info i)).2.2
  have here : ∀ i, (S i).grp s.focus = some (E i) := fun i => State.entered_grp s (info i) g
  have fresh_of : ∀ i, (∀ f ∈ g.fences, ¬ (f.barrier = true ∧ f.pc = pc)) → ∀ f ∈ (E i).fences, ¬ (f.barrier = true ∧ f.pc = pc) := fun i fresh => by rwa [fences]
  have over_ : ∀ i, g.released pc → (E i).released pc := fun i done => Group.entered_released done (info i)
  refine ⟨fun ⟨hr, busy⟩ p e z f t good => ?_, fun ⟨hr, busy⟩ some_ x node is_open size => ?_, fun ⟨hr, busy⟩ good => ?_, fun ⟨hr, busy⟩ => ?_, fun ⟨hr, busy⟩ => ?_⟩
  · have calm : Calm (S la) t := by
      have := State.reachG_calm (S la) (E la).who 0 ((E la).rd64 0 a) 64 true true needR kindLoad
      rwa [good] at this
    refine ⟨fun fresh => hr.heldIn rfl .fence _ t (W.launch_begins (W.begin_ex busy) hr.wet good (fresh_of la fresh)) calm.pkg, fun done room sound => ?_⟩
    have still : t.grp s.focus = some (E la) := (calm.grp _).trans (here la)
    refine hr.leavesIn rfl busy (free' la t) [] false _ (fun e eq => ?_) ((Steady.ofCalm _ calm).releases still pc) (fun _ _ => Steady.ofGroups _ rfl)
    refine (W.launch_enters (W.begin_ex busy) hr.wet good (ctx la) still (over_ la done) room sound).trans ?_
    rw [eq]
    rfl
  · refine ⟨fun fresh => hr.heldIn rfl .fence _ (S em) ?_ rfl, fun done room fs places => ?_⟩
    · exact W.emit_begins (w := W.begin (info em) s g pc) (L := L) (n := n) rfl some_ hr.wet (ctx em) rfl node is_open size (fresh_of em fresh)
    · have puts := W.emit_puts (w := W.begin (info em) s g pc) (a := a) (b := b) (L := L) (n := n) rfl some_ hr.wet (ctx em) rfl node is_open size (here em) (over_ em done) room places
      rw [State.emitPut_ok] at puts
      refine hr.does rfl _ puts ?_
      have frees : Steady s.focus (S em) ((S em).modGrp s.focus (fun _ => { (E em).afterRelease pc with recReq := [] })) :=
        (Steady.refl _ _).forgets (here em) pc
      exact (frees.trans (Steady.emitPut _ _ _ _ _ fs L)).trans (Steady.ofGroups _ rfl)
  · exact ⟨fun fresh => hr.heldIn rfl .fence _ (S co) (W.cont_begins (W.begin_ex busy) hr.wet (Group.entered_place g (info co)).1 good (fresh_of co fresh)) rfl,
      hr.binds busy good⟩
  · refine ⟨fun fresh => hr.heldIn rfl .fence _ (S no) (W.notify_begins (W.begin_ex busy) hr.wet (fresh_of no fresh)) rfl, fun done => ?_⟩
    let w := W.begin (info no) s g pc
    have calm := State.tails_calm (free' no (S no)) (w.ex.filter (fun l => decide (w.notifies a l = 0) && !(!uniOf w.f && w.g.isHelper l)))
      (fun l => (w.g.rd l a).toNat) (fun l => w.g.rd l b)
    have steady : Steady s.focus (S no) (w.tailed a b).freeDue.2 :=
      Steady.trans (Steady.trans ((Steady.refl _ _).releases (here no) pc) (Steady.ofCalm _ calm)) (Steady.ofGroups _ rfl)
    have due : s.pkg.clock < (w.tailed a b).freeDue.1 := lt_of_eq_of_lt (congrArg Pkg.clock calm.pkg).symm (w.tailed a b).freeDue_later
    have takes := hr.starts rfl busy _ _ _ false (W.notify_tails (d := d) (a := a) (b := b) (W.begin_ex busy) hr.wet (here no) (over_ no done)) steady (fun t => s.pkg.clock < t) due
    have helper : ∀ l, (!uniOf w.f && w.g.isHelper l) = true ↔ helps l := fun l => by
      rw [Bool.and_eq_true, Bool.not_eq_true']
      exact Iff.rfl
    have values : ∀ l, BitVec.ofNat 32 (w.notifies a l) = status l ∧ (w.notifies a l = 0 ↔ status l = 0) := fun l => by
      have cases_ := State.notifyStatus_cases s g.ctx (port l)
      unfold W.notifies
      rw [show w.g.ctx = g.ctx from ctx no]
      by_cases help : helps l
      · rw [if_pos ((helper l).2 help), show status l = 0 from if_pos help]
        exact ⟨rfl, by simp⟩
      · rw [if_neg (mt (helper l).1 help), show status l = _ from if_neg help]
        exact cases_
    have lanes : (fun l => decide (w.notifies a l = 0) && !(!uniOf w.f && w.g.isHelper l)) = fun l => decide (status l = 0 ∧ ¬ helps l) := funext fun l => by
      rw [Bool.eq_iff_iff, decide_eq_true_eq, Bool.and_eq_true, decide_eq_true_eq, (values l).2, Bool.not_eq_true', ← Bool.not_eq_true, helper]
    have tailed : w.tailed a b = ((X no).filter (fun l => decide (status l = 0 ∧ ¬ helps l))).foldl (fun t l => t.modPort (port l) (fun p => p.tail ((E no).rd l b))) (free' no (S no)) :=
      congrArg (fun p : Nat → Bool => State.tails (free' no (S no)) ((X no).filter p) port (fun l => (E no).rd l b)) lanes
    refine ⟨(w.tailed a b).free + 1, ?_⟩
    rw [← tailed, show status = fun l => BitVec.ofNat 32 (w.notifies a l) from funext fun l => (values l).1.symm]
    exact takes
  · have due : s.pkg.clock + 100 ≤ s.freeDue.1 + 99 := Nat.add_le_add_right s.freeDue_later 99
    refine hr.awaits rfl busy (s.free + 1) _ (s.freeDue.1 + 99) false ?_ _ due
    refine congrArg (fun v => W.var { W.begin (info nq) s g pc with s := (S nq).freeDue.2 } (dstCells d 0 (X nq) v) (s.freeDue.1 + 99) false) (funext fun l => ?_)
    exact (State.nodeWord_eq _ _ _).trans (by rw [show (W.begin (info nq) s g pc).g.ctx = g.ctx from ctx nq]; rfl)
end

section
/-! PROOFS of NodeAndParseEvents: how records are parsed, and how a node forms teams and drains (R309–R323). -/

namespace Sys2Proof.Machine

/-! ### Parsing (R311, R316) -/

/-- A ready source whose oldest record is of a kind an event parses. -/
theorem State.parse_head {s u : State} {q r : Nat} {kinds : Nat → Bool} (ready : s.queueReady q = true) (head : s.queueHead q = (some r, u))
    (kind : kinds (lrKind r) = true) : s.parse q kinds = u.parseRec q (s.queueCtx q) (s.queueOrigin q) r := by
  unfold State.parse
  rw [ready, head]
  exact if_neg (by simp [kind])

section
variable {u : State} {q ctx origin r : Nat}

theorem State.parseRec_bad (bad : (u.recKernel ctx r).2.recBad ctx r (u.recKernel ctx r).1 = true) :
    u.parseRec q ctx origin r = (u.recKernel ctx r).2.queueTake q true := by
  unfold State.parseRec
  dsimp only
  rw [bad, Bool.or_true]
  rfl

theorem State.parseRec_good (resident : (u.ctx ctx).isSome = true) (good : (u.recKernel ctx r).2.recBad ctx r (u.recKernel ctx r).1 = false) :
    u.parseRec q ctx origin r =
    ((u.recKernel ctx r).2.queueTake q false).launch q ctx origin r ((u.recKernel ctx r).1.getD Kernel.blank) := by
  unfold State.parseRec
  dsimp only
  rw [good, Bool.or_false, Option.isNone_eq_false_iff.2 resident]
  rfl

end

theorem State.queueTake_port {q : Nat} (port : q < 1024) (v : State) (b : Bool) : (v.queueTake q b).port q =
    (if b then { v.port q with qhead := (v.port q).qhead + 1, bad := satInc (v.port q).bad 0xFFFF, qerr := (v.port q).qhead }
      else { v.port q with qhead := (v.port q).qhead + 1 }) ∧ (v.queueTake q b).fe.nextParse = v.pkg.clock + 4 := by
  unfold State.queueTake
  dsimp only
  rw [if_pos port]
  exact ⟨congrArg (fun o : Option QPort => o.getD QPort.reset) (kget_kset_self _ _ _), rfl⟩

/-! ### What a good record makes (R312, R317) -/

/-- The grid of a record. -/
def gridOf (q ctx origin r id : Nat) (k : Kernel) : Grid :=
  { ctx := ctx, kernel := k, gx := bitsOf r 144 24 + 1, gy := bitsOf r 168 24 + 1, gz := bitsOf r 192 24 + 1, lanes := lrLanes r, args := lrPtr r 320,
    spool := lrPtr r 256, stksz := lrStksz r, stklo := lrStklo r, pooln := lrPooln r, prio := lrPrio r, sigptr := lrPtr r 448, sigval := lrPtr r 384,
    next := 0, source := q, origin := origin, order := id }

/-- The node of a record: open, with an empty ring. -/
def nodeOf (origin r id : Nat) (k : Kernel) : Node :=
  { state := 1, kernel := k, ring := lrPtr r 448, rs := lrRs r, high := lrHigh r, low := lrLow r, down0 := lrDown0 r, down1 := lrDown1 r, args := lrPtr r 320,
    spool := lrPtr r 256, stksz := lrStksz r, stklo := lrStklo r, pooln := lrPooln r, prio := lrPrio r, head := 0, times := [], batch := 0, blocked := false,
    sigptr := 0, sigval := 0, closer := none, closeOrigin := 0, lost := false, origin := origin, order := id }

section
variable {t : State} {q ctx origin r : Nat} {k : Kernel}

theorem State.launch_grid (kind : lrKind r = 0) : t.launch q ctx origin r k =
    (State.modFe { t with serial := t.serial + 1 } (fun e => { e with grids := kset e.grids t.serial (gridOf q ctx origin r t.serial k) })).launchOpen q t.serial := by
  unfold State.launch
  rw [kind]
  rfl

theorem State.launch_open (kind : lrKind r = 1) : t.launch q ctx origin r k =
    (State.modFe { t with serial := t.serial + 1 } (fun e => { e with nodes := kset e.nodes (nodeKey ctx (lrNode r)) (nodeOf origin r t.serial k) })).reblock ctx := by
  unfold State.launch
  rw [kind]
  rfl

theorem State.launch_close (kind : lrKind r = 2) : t.launch q ctx origin r k =
    (State.modNode { t with serial := t.serial + 1 } ctx (lrNode r) (fun n => { n with
      state := 2, sigptr := lrPtr r 448, sigval := lrPtr r 384, closer := some (q, t.serial), closeOrigin := origin })).launchOpen q t.serial := by
  unfold State.launch
  rw [kind]
  rfl

end

/-! ### Forming teams and draining (R317, R318) -/

section
variable {s : State} {ctx n : Nat} {x : Node} (node : s.node ctx n = some x)
include node

/-- A node that may form teams, whose areas, cores and records are there (R318–R321). -/
theorem State.nodeFormed_places {timer : Bool} (forms : s.nodeForms x = some timer) {areas cores : List Nat} {recs : List (List Byte)} {z : State} {take teams : Nat}
    (takes : min x.times.length x.full = take) (makes : (take + 32 * x.kernel.groups - 1) / (32 * x.kernel.groups) = teams)
    (free : s.takeAreas (nodePool ctx n) x.pooln (16 * x.stksz) (teams * x.kernel.groups) = some areas)
    (open_ : s.findCores ctx teams x.kernel.groups x.kernel x.alloc = some cores) (read : s.ringRead ctx x x.head take = (some recs, z)) :
    s.nodeFormed ctx n timer = ((z.startTeams ctx cores x.spool x.rs ((List.range teams).map (fun j =>
        (x.team ctx n (x.batch + j) ((recs.drop (32 * x.kernel.groups * j)).take (32 * x.kernel.groups)).length ((areas.drop (x.kernel.groups * j)).take x.kernel.groups),
          (recs.drop (32 * x.kernel.groups * j)).take (32 * x.kernel.groups))))).modFe (fun e =>
      { e with nodes := kset e.nodes (nodeKey ctx n) { x with head := (x.head + take) % 2 ^ x.kernel.cap, times := x.times.drop take, batch := x.batch + teams } })).reblock ctx := by
  unfold State.nodeFormed State.nodePlace
  rw [node]
  dsimp only
  rw [if_pos forms, forms, takes, makes, free, open_, read]
  rfl

end

section
variable {s : State} {x : Node} (free : x.blocked = false) (some_ : x.times ≠ [])
include free some_

theorem State.nodeForms_whole (whole : x.full ≤ x.times.length ∨ x.state = 2) : s.nodeForms x = some false := by
  unfold State.nodeForms
  dsimp only
  rw [free, if_neg (by simpa using some_), if_pos whole]

theorem State.nodeForms_timer (part : ¬ (x.full ≤ x.times.length ∨ x.state = 2)) (timer : x.kernel.timer ≠ 0) (late : x.times.headD 0 + x.kernel.timer ≤ s.pkg.clock) :
    s.nodeForms x = some true := by
  unfold State.nodeForms
  dsimp only
  rw [free, if_neg (by simpa using some_), if_neg part, if_pos ⟨timer, late⟩]

end

theorem State.nodeOver_iff {s : State} {ctx n : Nat} {x : Node} (node : s.node ctx n = some x) (closing : x.state = 2) (none_ : x.times = [])
    (idle : ∀ y ∈ s.teams, y.2.ctx = ctx → y.2.nodeid.toNat ≠ n ∧ ∀ b ∈ y.2.bound, b.node ≠ n) : s.nodeOver ctx n = true := by
  unfold State.nodeOver
  rw [node]
  simp only [closing, none_, decide_true, List.isEmpty_nil, Bool.true_and, List.all_eq_true, Bool.or_eq_true, decide_eq_true_eq, Bool.and_eq_true]
  intro y is
  by_cases mine : y.2.ctx = ctx
  · exact .inr (idle y is mine)
  · exact .inl mine

theorem State.nodeDrained_over {s : State} {ctx n : Nat} {x : Node} (node : s.node ctx n = some x) (done : s.nodeOver ctx n = true) :
    s.nodeDrained ctx n = (((s.flushContext ctx).modFe (fun e => { e with nodes := kdel e.nodes (nodeKey ctx n) })).reblock ctx).signalMake
      ⟨ctx, x.sigptr, x.sigval, none, false, x.closeOrigin, x.closer⟩ := by
  unfold State.nodeDrained
  rw [node]
  exact if_pos done

end Sys2Proof.Machine

open Sys2Proof Sys2Proof.Machine Sys2Proof.Laws

/-- Settles O36. -/
theorem nodeAndParseEvents : Obligations.NodeAndParseEvents := by
  intro s q r u on ctx k bad t id w parsed formed whole
  have event : ∀ i (kinds : Nat → Bool) kind, exec i s = runEvent s (fun s => s.parse q kinds) → kinds kind = true → parsed kind i := by
    intro i kinds kind he takes ready head resident is
    subst is
    have does : ∀ y, u.parseRec q ctx (s.queueOrigin q) r = y → exec i s = .next y := fun y eq =>
      event_next (f := fun s => s.parse q kinds) on he ((State.parse_head ready head takes).trans eq)
    have launches : ∀ z y, bad = false → k.1.getD Kernel.blank = z → t.launch q ctx (s.queueOrigin q) r z = y → exec i s = .next y := fun z y good kernel eq =>
      does y ((State.parseRec_good resident good).trans ((congrArg (fun z => t.launch q ctx (s.queueOrigin q) r z) kernel).trans eq))
    refine ⟨fun bad => does _ (State.parseRec_bad bad), fun good => ⟨fun z kind kernel => ?_, fun z kind kernel => ?_, fun kind => ?_⟩⟩
    · exact ⟨gridOf q ctx (s.queueOrigin q) r id z, launches z _ good (by rw [kernel]; rfl) (State.launch_grid kind), rfl, rfl, rfl, rfl, rfl, rfl, rfl, rfl, rfl, rfl, rfl⟩
    · exact ⟨nodeOf (s.queueOrigin q) r id z, launches z _ good (by rw [kernel]; rfl) (State.launch_open kind), rfl, rfl, rfl, rfl, rfl, rfl, rfl, rfl, rfl, rfl, rfl, rfl⟩
    · exact launches _ _ good rfl (State.launch_close kind)
  refine ⟨event _ _ _ rfl rfl, event _ _ _ rfl rfl, event _ _ _ rfl rfl, fun port v b => ?_, fun c n => ⟨?_, ?_, ?_⟩⟩
  · obtain ⟨eq, next⟩ := State.queueTake_port port v b
    dsimp only
    rw [eq]
    cases b <;> exact ⟨rfl, rfl, rfl, next⟩
  · intro x node free some_ why per take teams areas cores recs z areas_ open_ read
    exact event_next (f := fun s => s.nodeFormed c n false) on rfl (State.nodeFormed_places node (State.nodeForms_whole free some_ why) rfl rfl areas_ open_ read)
  · intro x node free some_ why per take teams areas cores recs z areas_ open_ read
    obtain ⟨part, timer, late⟩ := why
    exact event_next (f := fun s => s.nodeFormed c n true) on rfl (State.nodeFormed_places node (State.nodeForms_timer free some_ part timer late) rfl rfl areas_ open_ read)
  · intro x node closing none_ idle
    exact event_next (f := fun s => s.nodeDrained c n) on rfl (State.nodeDrained_over node (State.nodeOver_iff node closing none_ idle))
end

section
/-! PROOFS of TeamEvents and QueuePortEvents: how teams are placed, followed and retired, how a grid completes (R89, R312, R321, R324), and a queue
port's writes (R313–R315, R329). -/

namespace Sys2Proof.Machine

/-! ### Placement (R321) -/

theorem State.placeTeam_saved {s t : State} {ctx : Nat} (saved : (s.batches ctx).findSome? (fun b => s.savedPlace ctx b) = some t) : s.placeTeam ctx = t := by
  unfold State.placeTeam
  rw [saved]

theorem State.placeTeam_next {s t : State} {ctx : Nat} {c : Cand} (saved : (s.batches ctx).findSome? (fun b => s.savedPlace ctx b) = none)
    (next : s.candNext ctx = some c) (grid : c.node = false) (places : s.gridPlace c.id = some t) : s.placeTeam ctx = t := by
  unfold State.placeTeam State.candPlace
  rw [saved, next]
  dsimp only
  rw [grid, if_neg Bool.false_ne_true, if_neg Bool.false_ne_true, places]
  rfl

theorem State.gridPlace_room {s : State} {id : Nat} {g : Grid} {areas cores : List Nat} (is : kget s.fe.grids id = some g) (some_ : g.offer ≠ 0)
    (free : s.takeAreas (gridPool id) g.pooln (16 * g.stksz) (g.offer * g.kernel.groups) = some areas)
    (room : s.findCores g.ctx g.offer g.kernel.groups g.kernel g.kernel.scratch = some cores) : s.gridPlace id =
    some ((s.startTeams g.ctx cores g.spool 0 ((List.range g.offer).map (fun j =>
      (g.team id (g.next + j) ((areas.drop (g.kernel.groups * j)).take g.kernel.groups), ([] : List (List Byte)))))).modFe (fun e =>
        { e with grids := kset e.grids id { g with next := g.next + g.offer } })) := by
  unfold State.gridPlace
  rw [is]
  dsimp only
  rw [if_neg some_, free, room]

/-- The order of R321 on candidates: by key, then by number. -/
def Cand.before (c d : Cand) : Prop := c.key < d.key ∨ (c.key = d.key ∧ c.order ≤ d.order)

theorem Cand.before_trans {c d e : Cand} (h : c.before d) (k : d.before e) : c.before e := by
  unfold Cand.before at *
  omega

theorem Cand.before_of_not {c d : Cand} (h : ¬ c.before d) : d.before c := by
  unfold Cand.before at *
  omega

theorem mem_insertCand {c x : Cand} {l : List Cand} (h : x ∈ insertCand c l) : x = c ∨ x ∈ l := by
  induction l with
  | nil => exact .inl (List.mem_singleton.1 h)
  | cons y t ih =>
    unfold insertCand at h
    split at h
    · exact List.mem_cons.1 h
    · rcases List.mem_cons.1 h with rfl | h
      · exact .inr (List.mem_cons_self ..)
      · exact (ih h).imp id (List.mem_cons_of_mem _)

theorem insertCand_sorted (c : Cand) {l : List Cand} (sorted : l.Pairwise Cand.before) : (insertCand c l).Pairwise Cand.before := by
  induction l with
  | nil => exact List.pairwise_singleton _ _
  | cons y t ih =>
    obtain ⟨first, rest⟩ := List.pairwise_cons.1 sorted
    unfold insertCand
    split
    · rename_i before
      refine List.pairwise_cons.2 ⟨fun x is => ?_, sorted⟩
      rcases List.mem_cons.1 is with rfl | is
      · exact before
      · exact Cand.before_trans before (first x is)
    · rename_i not_
      refine List.pairwise_cons.2 ⟨fun x is => ?_, ih rest⟩
      rcases mem_insertCand is with rfl | is
      · exact Cand.before_of_not not_
      · exact first x is

/-- Candidates inserted one after another stand in order. -/
theorem insertCands_sorted (cs : List Cand) {l : List Cand} (sorted : l.Pairwise Cand.before) : (cs.foldl (fun l c => insertCand c l) l).Pairwise Cand.before := by
  induction cs generalizing l with
  | nil => exact sorted
  | cons c t ih => exact ih (insertCand_sorted c sorted)

/-! ### Successors (R324), retirement (R89) and a grid's completion (R312) -/

/-- A waiting team's successor, its areas and its place free. -/
theorem State.successorPlace_free {s : State} {tid : Nat} {t : Team} {b : BoundRec} {rest : List BoundRec} {x : Node} {areas : List Nat} (team : s.team tid = some t)
    (bound : t.bound = b :: rest) (node : s.node t.ctx b.node = some x) (waits : t.successor = true) (whole : t.saving = false)
    (mine : (s.core t.core).owner = t.ctx) (stays : (s.core t.core).changing = none) (slots : (s.onCore t.core).length + x.kernel.groups ≤ 64)
    (regs : (s.onCore t.core).foldl (fun a y => a + y.2.vregs) 0 + x.kernel.groups * x.kernel.vregs ≤ 8192)
    (free : s.takeAreas (nodePool t.ctx b.node) x.pooln (16 * x.stksz) x.kernel.groups = some areas) : s.successorPlace tid =
    some ((((State.newCluster { s with serial := s.serial + 1 } t.ctx (coreCcl t.core) s.serial [(0, tid)] x.kernel.groups).startTeam tid t.core
      { x.team t.ctx b.node x.batch t.bound.length areas with
        cluster := s.serial, allocOff := t.allocOff, allocSize := t.allocSize, tiles := t.tiles, accstat := t.accstat, nextId := t.nextId }
      x.spool x.rs (t.bound.map (fun b => b.bytes)) true).dropEmpty tid).modNode t.ctx b.node (fun z => { z with batch := z.batch + 1 })) := by
  have first : ((t.bound.head?).map (fun b => b.node)).getD 0 = b.node := by rw [bound]; rfl
  unfold State.successorPlace
  rw [team]
  dsimp only
  rw [first, node]
  dsimp only
  rw [if_neg (by simp [waits, whole, mine, stays, slots, regs]), free]
  rfl

theorem State.teamRetire_over {s : State} {tid : Nat} (done : s.teamOver tid = true) : s.teamRetire tid =
    if (s.teamD tid).bound.isEmpty then (s.writeBackL1 (s.teamD tid).core).freeTeam tid
    else ((s.writeBackL1 (s.teamD tid).core).leaveCluster tid).modTeam tid (fun t => { t with resident := false, successor := true, grid := 0, nodeid := 0xFFFFFFFF#32 }) :=
  if_pos done

theorem State.gridOver_iff {s : State} {id : Nat} {g : Grid} (is : kget s.fe.grids id = some g) (done : g.total ≤ g.next) (idle : ∀ t ∈ s.teams, t.2.grid ≠ id) :
    s.gridOver id = true := by
  unfold State.gridOver
  rw [is]
  simpa [done] using fun a b => idle (a, b)

theorem State.gridComplete_over {s : State} {id : Nat} {g : Grid} (is : kget s.fe.grids id = some g) (done : s.gridOver id = true) : s.gridComplete id =
    (((s.flushContext g.ctx).modFe (fun e => { e with grids := kdel e.grids id })).launchDone g.source id).signalMake ⟨g.ctx, g.sigptr, g.sigval, none, false, g.origin, none⟩ := by
  unfold State.gridComplete
  rw [is]
  exact if_pos done

/-! ### Queue ports (R313–R315, R329) -/

/-- A port that takes a value: nothing else changes. -/
theorem State.modPort_makes (s : State) (p : Nat) (f : QPort → QPort) : (s.modPort p f).port p = f (s.port p) ∧ ∀ q, q ≠ p → (s.modPort p f).port q = s.port q :=
  ⟨congrArg (fun o : Option QPort => o.getD QPort.reset) (kget_kset_self _ _ _),
    fun _ other => congrArg (fun o : Option QPort => o.getD QPort.reset) (kget_kset_ne _ _ other)⟩

/-- The check of R314. -/
theorem QPort.full_eq (p : QPort) : p.full = { p with state := if p.state = 1 ∧ 2 ^ p.sizel < (p.qtail - p.qhead).toNat then 2 else p.state } := by
  unfold QPort.full
  split <;> rfl

theorem QPort.tail_eq (p : QPort) (v : Word) :
    let tail := if 1 ≤ (v - p.qtail).toNat ∧ (v - p.qtail).toNat ≤ 2 ^ 31 - 1 then v else p.qtail
    p.tail v = if p.state = 3 then p else { p with qtail := tail, state := if p.state = 1 ∧ 2 ^ p.sizel < (tail - p.qhead).toNat then 2 else p.state } := by
  intro tail
  unfold QPort.tail
  dsimp only
  split
  · rfl
  · rw [QPort.full_eq]
    simp only [Bool.and_eq_true, decide_eq_true_eq]
    rfl

theorem QPort.enable_on (p : QPort) :
    p.enable true = if p.state = 0 then { p with en := true, state := if 2 ^ p.sizel < (p.qtail - p.qhead).toNat then 2 else 1 } else p := by
  unfold QPort.enable
  rw [if_pos rfl, QPort.full_eq]
  split
  · rename_i three
    rw [if_neg (by omega)]
  · simp only [true_and]

theorem QPort.enable_off (p : QPort) : p.enable false = if p.state = 3 then p else { p with en := false, state := 0 } := by
  unfold QPort.enable
  rw [if_neg Bool.false_ne_true]

end Sys2Proof.Machine

open Sys2Proof Sys2Proof.Machine Sys2Proof.Laws

/-- Settles O37. -/
theorem teamEvents : Obligations.TeamEvents := by
  intro s on ctx tid id
  refine ⟨fun t saved => event_next (f := fun s => s.placeTeam ctx) on rfl (State.placeTeam_saved saved), ?_, insertCands_sorted _ List.Pairwise.nil, ?_, fun done => ?_, ?_⟩
  · intro saved c g areas cores next grid is n k some_ free room ts
    exact ⟨event_next (f := fun s => s.placeTeam ctx) on rfl (State.placeTeam_next saved next grid (State.gridPlace_room is some_ free room)),
      fun i a => ⟨rfl, rfl, rfl, rfl, rfl, rfl⟩⟩
  · intro t b rest x areas team bound node waits whole mine stays g slots regs free y u
    have places := State.successorPlace_free team bound node waits whole mine stays slots regs free
    refine event_next (f := fun s => (s.successorPlace tid).getD s) on rfl ?_
    rw [places]
    exact Option.getD_some
  · intro t
    have retires := State.teamRetire_over done
    exact ⟨fun none_ => event_next (f := fun s => s.teamRetire tid) on rfl (retires.trans (if_pos (List.isEmpty_iff.2 none_))),
      fun some_ => event_next (f := fun s => s.teamRetire tid) on rfl (retires.trans (if_neg (mt List.isEmpty_iff.1 some_)))⟩
  · intro g is done idle
    exact event_next (f := fun s => s.gridComplete id) on rfl (State.gridComplete_over is (State.gridOver_iff is done idle))

/-- Settles O38. -/
theorem queuePortEvents : Obligations.QueuePortEvents := by
  intro s p v on x makes step tail
  have port : ∀ i f y, exec i s = runEvent s (fun s => s.modPort p f) → f x = y → makes i y := fun i f y he eq =>
    ⟨s.modPort p f, event_next (f := fun s => s.modPort p f) on he rfl, (s.modPort_makes p f).1.trans eq, (s.modPort_makes p f).2, rfl, rfl, fun _ => rfl⟩
  refine ⟨port _ _ _ rfl (QPort.tail_eq x v), port _ _ _ rfl (QPort.enable_on x), port _ _ _ rfl (QPort.enable_off x),
    fun resets => event_next (f := fun s => s.queueReset p) on rfl (if_pos resets), fun live => event_next (f := fun s => s.queueReset p) on rfl (if_neg live), fun resets => ?_, fun live => ?_⟩
  · exact event_next (f := fun s => if (s.port p).state = 3 then (s.flushContext (s.port p).ctx).modPort p (fun y =>
      { y with state := 0, qhead := 0, qtail := 0, en := false, bad := 0, openLaunches := [] }) else s) on rfl (if_pos resets)
  · exact event_next (f := fun s => if (s.port p).state = 3 then (s.flushContext (s.port p).ctx).modPort p (fun y =>
      { y with state := 0, qhead := 0, qtail := 0, en := false, bad := 0, openLaunches := [] }) else s) on rfl (if_neg live)
end

section
/-! PROOFS of ContextWords: CTXLOAD, CTXSAVE and PREEMPT (R328, R347–R356). -/

namespace Sys2Proof.Machine

/-! ### How a supervisor word answers (R347, R349, R352) -/

section
variable {i : Instr} {keys : Group → List Nat → List Nat} {s : State} {g : Group} {pc : Pc} {body : W → W} {x : State} (h : Ready (info i) keys s g pc)
  (he : exec i s = runWordX i keys s body) (busy : (g.entered (info i)).exLanes (info i) g.active ≠ []) (steady : Steady s.focus (s.entered (info i) g) x)
include h he busy steady

/-- A word that gives its status at a free clk. -/
theorem Ready.status {d : Opnd} {st : Nat} (hb : body (W.begin (info i) s g pc) = ({ W.begin (info i) s g pc with s := x } : W).status d st) : ∃ m,
    AwaitsIn i s g pc { x with free := m } (dstCells d 0 ((g.entered (info i)).exLanes (info i) g.active) (fun _ => BitVec.ofNat 32 st)) (fun t => x.pkg.clock < t) :=
  ⟨x.free + 1, h.starts he busy x.freeDue.2 _ _ false hb (steady.trans (Steady.ofGroups _ rfl)) _ x.freeDue_later⟩

/-- A PREEMPT that gives its result at a free clk, the value it has or a free one (log 12). -/
theorem Ready.preResult {d : Opnd} {st : Nat} {v : Option DWord}
    (hb : body (W.begin (info i) s g pc) = ({ W.begin (info i) s g pc with s := x } : W).preResult d st 0 v) : ∃ (m : Nat) (y : DWord), (∀ z, v = some z → y = z) ∧
    AwaitsIn i s g pc { x with free := m } (dstCellsN d 4 ((g.entered (info i)).exLanes (info i) g.active) (fun j _ => [BitVec.ofNat 32 st, 0, lo32 y, hi32 y].getD j 0))
      (fun t => x.pkg.clock < t) := by
  cases v with
  | some z =>
    exact ⟨x.free + 1, z, fun _ eq => Option.some.inj eq, h.starts he busy x.freeDue.2 _ _ false hb (steady.trans (Steady.ofGroups _ rfl)) _ x.freeDue_later⟩
  | none =>
    let w : W := { W.begin (info i) s g pc with s := x }
    have later : x.pkg.clock < (State.freeDue { x with free := x.free + 4 + 4 }).1 := State.freeDue_later { x with free := x.free + 4 + 4 }
    exact ⟨x.free + 4 + 4 + 1, pair64 w.freeWord.1 w.freeWord.2.freeWord.1, nofun,
      h.starts he busy { x with free := x.free + 4 + 4 + 1 } _ _ false hb (steady.trans (Steady.ofGroups _ rfl)) _ later⟩

/-- A word that goes on working. -/
theorem Ready.goesOn {kind c n : Nat} {v : DWord} {mask : List Nat} {msg : List Word}
    (hb : body (W.begin (info i) s g pc) = ({ W.begin (info i) s g pc with s := x } : W).supOp kind c n v mask msg) :
    LeavesIn i s g pc x [] (fun e z => z.supEnter ⟨s.focus, e.id, kind, c, n, v, mask, msg, 0⟩) := by
  refine h.leavesIn he busy x [] false _ (fun e id => hb.trans ?_) steady (fun _ _ => Steady.ofGroups _ rfl)
  rw [id]
  rfl

end

theorem State.resident_iff (s : State) (c : Nat) : s.resident c = true ↔ 1 ≤ c ∧ c ≤ 256 ∧ (s.ctx c).isSome = true := by
  unfold State.resident
  simp only [Bool.and_eq_true, decide_eq_true_eq, and_assoc]

/-! ### CTXLOAD (R347–R349) -/

theorem ccbOk_iff (b : Nat) : ccbOk b = true ↔ bitsOf b 763 5 ≤ 16 ∧ 6 ≤ bitsOf b 731 5 ∧ bitsOf b 731 5 ≤ 16 := by
  unfold ccbOk
  simp only [Bool.and_eq_true, decide_eq_true_eq, and_assoc]

theorem State.clearTable_calm (s : State) (ctx : Nat) : Calm s (s.clearTable ctx) := by
  have calm : Calm s (s.splitTable ctx needW).2 := by
    unfold State.splitTable
    dsimp only
    split
    · exact (s.homeOf_calm ctx _ needW).1
    · exact Calm.refl s
  unfold State.clearTable
  split <;> rename_i eq <;> rw [eq] at calm
  · exact calm.trans (State.homePut_calm _ _ _)
  · exact calm

theorem State.ctxLoad_calm (s : State) (ctx flat b : Nat) : Calm s (s.ctxLoad ctx flat b) := by
  unfold State.ctxLoad
  refine Calm.trans ?_ (State.clearTable_calm _ _)
  exact ⟨rfl, rfl, rfl, rfl, rfl, rfl⟩

section
variable {w : W} {d a b : Opnd} (busy : w.ex.isEmpty = false)
include busy

theorem W.ctxload_none (bad : (w.g.rd 0 a).toNat = 0 ∨ 256 < (w.g.rd 0 a).toNat) : w.ctxload d a b = w.status d 2 := by
  unfold W.ctxload
  rw [busy, if_neg Bool.false_ne_true]
  exact if_pos bad

theorem W.ctxload_exists (number : 1 ≤ (w.g.rd 0 a).toNat ∧ (w.g.rd 0 a).toNat ≤ 256) (is : (w.s.ctx (w.g.rd 0 a).toNat).isSome = true) :
    w.ctxload d a b = w.status d 3 := by
  unfold W.ctxload
  rw [busy, if_neg Bool.false_ne_true]
  dsimp only
  rw [if_neg (by omega), if_pos is]

/-- CTXLOAD of a block that can be read. -/
theorem W.ctxload_read {p : DWord} {e z f : Nat} {t : State} (number : 1 ≤ (w.g.rd 0 a).toNat ∧ (w.g.rd 0 a).toNat ≤ 256) (absent : w.s.ctx (w.g.rd 0 a).toNat = none)
    (reach : w.s.reachG w.g.who 0 (w.g.rd64 0 b) 128 false false needR kindLoad = (.glob p e z f, t)) (good : t.bad f 128 = false) : w.ctxload d a b =
      if ccbOk (t.num f 128) then ({ w with s := t.ctxLoad (w.g.rd 0 a).toNat f (t.num f 128) } : W).status d 0 else ({ w with s := t } : W).status d 4 := by
  unfold W.ctxload
  rw [busy, if_neg Bool.false_ne_true]
  dsimp only
  rw [if_neg (by omega), absent, if_neg (by decide), reach]
  exact if_neg (Bool.eq_false_iff.1 good)

end

theorem State.evalWatch_ctxs (s : State) (sect idx : Nat) : (s.evalWatch sect idx).ctxs = s.ctxs := by
  unfold State.evalWatch
  split
  · rfl
  · dsimp only
    split <;> rfl

theorem State.homePut_ctxs (s : State) (a : Nat) (l : List Byte) : (s.homePut a l).ctxs = s.ctxs := by
  have evals : ∀ (ws : List (Nat × Nat × Nat)) (x : State), (ws.foldl (fun s w => s.evalWatch w.2.1 w.2.2) x).ctxs = x.ctxs := by
    intro ws
    induction ws with
    | nil => exact fun _ => rfl
    | cons w t ih => exact fun x => (ih _).trans (State.evalWatch_ctxs x _ _)
  exact evals _ _

/-- A context whose touched dies only have changed. -/
def State.ctxAs (s : State) (j : Nat) (c : Ctx) : Prop := ∃ m, s.ctx j = some { c with tdmask := m }

theorem State.ctxAs.touchDies {s : State} {j : Nat} {c : Ctx} (h : s.ctxAs j c) (ctx e : Nat) : (s.touchDies ctx e).ctxAs j c := by
  obtain ⟨m, is⟩ := h
  unfold State.touchDies
  split
  · exact ⟨m, is⟩
  · unfold State.ctxAs State.ctx State.modCtx at *
    dsimp only
    rw [kget_kmod, is]
    split
    · exact ⟨_, rfl⟩
    · exact ⟨m, rfl⟩

theorem State.ctxAs.homeOf {s : State} {j : Nat} {c : Ctx} (h : s.ctxAs j c) (ctx : Nat) (p : DWord) (n : Need) : (s.homeOf ctx p n).2.ctxAs j c := by
  have walked : (s.xlateCtx ctx p n).2.ctxAs j c := by
    unfold State.xlateCtx
    dsimp only
    split
    · exact h
    · split
      · split
        · exact h.touchDies _ _
        · exact h
      · exact h
  unfold State.homeOf
  split <;> rename_i eq <;> rw [eq] at walked
  · split <;> exact walked
  · exact walked

theorem State.ctxAs.clearTable {s : State} {j : Nat} {c : Ctx} (h : s.ctxAs j c) (ctx : Nat) : (s.clearTable ctx).ctxAs j c := by
  have found : (s.splitTable ctx needW).2.ctxAs j c := by
    unfold State.splitTable
    dsimp only
    split
    · exact h.homeOf _ _ _
    · exact h
  unfold State.clearTable
  split <;> rename_i eq <;> rw [eq] at found
  · obtain ⟨m, is⟩ := found
    refine ⟨m, ?_⟩
    unfold State.ctx at *
    rw [State.homePut_ctxs]
    exact is
  · exact found

/-- CTXLOAD makes the context that the block gives (R348). -/
theorem State.ctxLoad_ctx (s : State) (j f c : Nat) : (s.ctxLoad j f c).ctxAs j (ctxOfCcb f c) := by
  unfold State.ctxLoad
  refine State.ctxAs.clearTable ?_ j
  exact ⟨(ctxOfCcb f c).tdmask, kget_kset_self s.ctxs j (ctxOfCcb f c)⟩

/-! ### CTXSAVE DESTROY (R349) -/

theorem State.orphanOps_ctxs (s : State) (ctx : Nat) : (s.orphanOps ctx).ctxs = s.ctxs := by
  have answered : ∀ (ops : List (Nat × SupOp)) (x : State), (ops.foldl (fun s o => s.answers o.2.gid o.2.pend [2, 0, 0, 0]) x).ctxs = x.ctxs := by
    intro ops
    induction ops with
    | nil => exact fun _ => rfl
    | cons o t ih => exact fun x => ih _
  unfold State.orphanOps
  dsimp only
  split
  · split <;> exact answered _ _
  · exact answered _ _

theorem State.destroy_ctx (s : State) (j : Nat) : (s.destroy j).ctx j = none := by
  unfold State.destroy State.ctx
  dsimp only
  rw [State.orphanOps_ctxs]
  exact kget_kdel_self _ _

section
variable {w : W} {d a b : Opnd} (busy : w.ex.isEmpty = false)
include busy

theorem W.ctxsave_other (other : w.g.rd 0 b ≠ 0) : w.ctxsave d a b = w.status d 4 := by
  unfold W.ctxsave
  rw [busy, if_neg Bool.false_ne_true]
  exact if_pos other

theorem W.ctxsave_gone (zero : w.g.rd 0 b = 0) (gone : ¬ w.s.resident (w.g.rd 0 a).toNat = true) : w.ctxsave d a b = w.status d 2 := by
  unfold W.ctxsave
  rw [busy, if_neg Bool.false_ne_true]
  exact (if_neg (not_not_intro zero)).trans (if_pos (by simpa using gone))

theorem W.ctxsave_evicts (zero : w.g.rd 0 b = 0) (here : w.s.resident (w.g.rd 0 a).toNat = true) : w.ctxsave d a b =
    ({ w with s := w.s.evict (w.g.rd 0 a).toNat } : W).supOp 0 (w.g.rd 0 a).toNat 0 0 (w.s.owned (w.g.rd 0 a).toNat) [] := by
  unfold W.ctxsave
  rw [busy, if_neg Bool.false_ne_true]
  exact (if_neg (not_not_intro zero)).trans (if_neg (by rw [here]; decide))

theorem W.spatial_gone (gone : ¬ w.s.resident (w.reqWord a 0).toNat = true) : w.spatial d a = w.preResult d 2 0 none := by
  unfold W.spatial
  rw [busy, if_neg Bool.false_ne_true]
  exact if_pos (by simpa using gone)

theorem W.spatial_takes (here : w.s.resident (w.reqWord a 0).toNat = true) {cs : List Nat} (takes : w.s.takenCores (w.reqWord a 0).toNat (w.reqWord a 1).toNat = cs) :
    w.spatial d a = ({ w with s := w.s.take (w.reqWord a 0).toNat cs } : W).supOp 2 (w.reqWord a 0).toNat cs.length 0 cs [] := by
  subst takes
  unfold W.spatial
  rw [busy, if_neg Bool.false_ne_true]
  exact if_neg (by rw [here]; decide)

end

/-! ### PREEMPT (R328, R352, R355, R356) -/

/-- One bit of a word tested. -/
theorem and_bit (x : Word) (i : Nat) (inside : i < 32) : decide (x &&& BitVec.twoPow 32 i ≠ 0) = x.getLsbD i := by
  rw [BitVec.and_twoPow]
  cases x.getLsbD i with
  | true =>
    have some_ : BitVec.twoPow 32 i ≠ 0 := fun zero => by
      have bit := congrArg (fun v => v.getLsbD i) zero
      simp [inside] at bit
    simpa using some_
  | false => rfl

theorem State.halted_eq (s : State) (c : Nat) : s.halted c = (s.ctxD c).ctxstat.getLsbD 5 := and_bit _ 5 (by decide)
theorem State.fatal_eq (s : State) (c : Nat) : s.fatal c = (s.ctxD c).ctxstat.getLsbD 7 := and_bit _ 7 (by decide)

/-! #### The register a selector names (R356) -/

section
variable {k : Group} {x : Nat}

/-- The fields of a selector (R356). -/
theorem sel_fields (x : Nat) : bitsOf x 14 2 = x / 16384 % 4 ∧ bitsOf x 9 5 = x / 512 % 32 ∧ bitsOf x 0 9 = x % 512 := by
  exact ⟨bitsOf_eq x 14 2, bitsOf_eq x 9 5, (bitsOf_eq x 0 9).trans (congrArg (fun y => y % 512) (Nat.div_one x))⟩

theorem Group.select_bad (outside : x / 16384 % 4 = 0 ∧ k.vregs ≤ x % 512 ∨ x / 16384 % 4 = 1 ∧ k.sregs ≤ x % 512 ∨ x / 16384 % 4 = 2 ∧ 16 ≤ x % 512) :
    k.select x = .bad := by
  obtain ⟨fkind, flane, fnum⟩ := sel_fields x
  unfold Group.select
  rw [fkind, flane, fnum]
  rcases outside with ⟨kind, out⟩ | ⟨kind, out⟩ | ⟨kind, out⟩ <;> rw [kind]
  · exact if_neg (Nat.not_lt.2 out)
  · exact if_neg (Nat.not_lt.2 out)
  · exact (if_neg (Nat.not_lt.2 (Nat.le_trans (by decide) out))).trans (if_neg (Nat.not_lt.2 out))

theorem Group.select_vpc (kind : x / 16384 % 4 = 3) : k.select x = .vpc (x / 512 % 32) := by
  obtain ⟨fkind, flane, -⟩ := sel_fields x
  unfold Group.select
  rw [fkind, flane, kind]
  rfl

theorem Group.select_cell {r l : Nat} (names : (x / 16384 % 4 = 0 ∧ x % 512 < k.vregs ∧ r = vReg (x % 512) ∧ l = x / 512 % 32) ∨
    (x / 16384 % 4 = 1 ∧ x % 512 < k.sregs ∧ r = sReg (x % 512) ∧ l = 0) ∨ (x / 16384 % 4 = 2 ∧ x % 512 < 8 ∧ r = 640 + x % 512 ∧ l = x / 512 % 32) ∨
    (x / 16384 % 4 = 2 ∧ 8 ≤ x % 512 ∧ x % 512 < 16 ∧ r = 640 + x % 512 ∧ l = 0)) : k.select x = .cell r l := by
  obtain ⟨fkind, flane, fnum⟩ := sel_fields x
  unfold Group.select
  rw [fkind, flane, fnum]
  rcases names with ⟨kind, in_, rfl, rfl⟩ | ⟨kind, in_, rfl, rfl⟩ | ⟨kind, in_, rfl, rfl⟩ | ⟨kind, above, in_, rfl, rfl⟩ <;> rw [kind]
  · exact if_pos in_
  · exact if_pos in_
  · exact if_pos in_
  · exact (if_neg (Nat.not_lt.2 above)).trans (if_pos in_)

end

/-! #### The group a request names (R347, R356) -/

section
variable {s : State} {c hd x : Nat} {v : DWord}

theorem State.regRefused {e : Nat} (refused : s.regGroup c hd = .error e) : s.regRead c hd x = (e, none) ∧ s.regWrite c hd x v = (e, s) := by
  unfold State.regRead State.regWrite
  rw [refused]
  exact ⟨rfl, rfl⟩

theorem State.regGroup_gone (gone : ¬ s.resident c = true) : s.regGroup c hd = .error 2 := if_pos (by simpa using gone)

section
variable (here : s.resident c = true)
include here

theorem State.regGroup_runs (runs : s.halted c = false) : s.regGroup c hd = .error 6 := by
  unfold State.regGroup
  rw [here, runs]
  rfl

theorem State.regGroup_noHandle (halted : s.halted c = true) (bad : gidOfHandle hd = none) : s.regGroup c hd = .error 7 := by
  unfold State.regGroup
  rw [here, halted, bad]
  rfl

theorem State.regGroup_noGroup {gid : Nat} (halted : s.halted c = true) (is : gidOfHandle hd = some gid) (none_ : s.grp gid = none) :
    s.regGroup c hd = .error 7 := by
  unfold State.regGroup
  rw [here, halted, is]
  dsimp only
  rw [none_]
  rfl

theorem State.regGroup_is {gid : Nat} {k : Group} (halted : s.halted c = true) (is : gidOfHandle hd = some gid) (group : s.grp gid = some k) (mine : k.ctx = c) :
    s.regGroup c hd = .ok (gid, k) := by
  unfold State.regGroup
  rw [here, halted, is]
  dsimp only
  rw [group]
  exact if_pos mine

end

section
variable {gid : Nat} {k : Group} (is : s.regGroup c hd = .ok (gid, k))
include is

theorem State.regBad (bad : k.select x = .bad) : s.regRead c hd x = (4, none) ∧ s.regWrite c hd x v = (4, s) := by
  unfold State.regRead State.regWrite
  rw [is]
  dsimp only
  rw [bad]
  exact ⟨rfl, rfl⟩

theorem State.regVpc {l : Nat} (lane : k.select x = .vpc l) : s.regRead c hd x = (0, some (BitVec.ofNat 64 ((k.vpcOf l).toNat * 8))) ∧
    (k.vpcOf l = exitPc → s.regWrite c hd x v = (4, s)) ∧
    (k.vpcOf l ≠ exitPc → s.regWrite c hd x v = (0, s.modGrp gid (fun k => { k with vpc := setNth k.vpc l (pcOfAddr (v &&& 0x00FFFFFFFFFFFFFF)) }))) := by
  unfold State.regRead State.regWrite
  rw [is]
  dsimp only
  rw [lane]
  exact ⟨rfl, fun exited => if_pos exited, fun lives => if_neg lives⟩

theorem State.regCell {r l : Nat} (cell : k.select x = .cell r l) :
    ((∃ p ∈ k.pends, r ∈ p.regs) → s.regRead c hd x = (1, none) ∧ s.regWrite c hd x v = (1, s)) ∧
    ((∀ p ∈ k.pends, r ∉ p.regs) → (r = 647 ∨ r = 655 → s.regRead c hd x = (0, some 1) ∧ s.regWrite c hd x v = (0, s)) ∧
      (r ≠ 647 → r ≠ 655 → s.regRead c hd x = (0, some ((k.cell r l).setWidth 64)) ∧
        s.regWrite c hd x v = (0, s.modGrp gid (fun k => k.putCells [(cellKey r l, if r < 640 then lo32 v else lo32 v &&& 1)])))) := by
  have pending : k.pends.any (fun p => p.regs.contains r) = true ↔ ∃ p ∈ k.pends, r ∈ p.regs := by
    simp only [List.any_eq_true, List.contains_iff_mem]
  have fixed : fixedPred r = true ↔ r = 647 ∨ r = 655 := by
    unfold fixedPred
    simp only [Bool.or_eq_true, decide_eq_true_eq]
  unfold State.regRead State.regWrite
  rw [is]
  dsimp only
  rw [cell]
  dsimp only
  refine ⟨fun waits => ?_, fun done => ?_⟩
  · rw [if_pos (pending.2 waits), if_pos (pending.2 waits)]
    exact ⟨rfl, rfl⟩
  · have free : ¬ k.pends.any (fun p => p.regs.contains r) = true := fun waits => by
      obtain ⟨p, in_, reads⟩ := pending.1 waits
      exact done p in_ reads
    rw [if_neg free, if_neg free]
    refine ⟨fun same => ?_, fun p7 q7 => ?_⟩
    · rw [if_pos (fixed.2 same), if_pos (fixed.2 same)]
      exact ⟨rfl, rfl⟩
    · have other : ¬ fixedPred r = true := fun same => (fixed.1 same).elim p7 q7
      rw [if_neg other, if_neg other]
      exact ⟨rfl, rfl⟩

end

end

/-- A register written in another context's group leaves a supervisor group where it is. -/
theorem Steady.regWrite {s : State} {gid : Nat} {g : Group} (here : s.grp gid = some g) (apart : g.ctx = 0) (c hd x : Nat) (v : DWord) :
    Steady gid s (s.regWrite c hd x v).2 := by
  have other : ∀ k (f : Group → Group), k ≠ gid → Steady gid s (s.modGrp k f) := fun k f ne y is =>
    ⟨y, (State.grp_modGrp_ne s f (Ne.symm ne)).trans is, rfl, rfl⟩
  unfold State.regWrite
  cases found : s.regGroup c hd with
  | error e => exact Steady.refl _ _
  | ok p =>
    obtain ⟨k, y⟩ := p
    have ne : k ≠ gid := by
      unfold State.regGroup at found
      split at found
      · cases found
      · rename_i resident
        split at found
        · cases found
        · split at found
          · cases found
          · split at found
            · rename_i z group
              split at found
              · rename_i mine
                cases found
                rintro rfl
                have same : g = y := Option.some.inj (here.symm.trans group)
                have live := (State.resident_iff s c).1 (by simpa using resident)
                rw [← same, apart] at mine
                omega
              · cases found
            · cases found
    dsimp only
    cases y.select x with
    | bad => exact Steady.refl _ _
    | vpc l =>
      dsimp only
      split
      · exact Steady.refl _ _
      · exact other _ _ ne
    | cell r l =>
      dsimp only
      split
      · exact Steady.refl _ _
      · split
        · exact Steady.refl _ _
        · exact other _ _ ne

/-! #### The cores a request takes (R328) -/

theorem State.takenCores_eq (s : State) (c m : Nat) : let mine := ((s.owned c).filter (fun k => (s.core k).changing.isNone)).reverse
    (s.wholeClusters c = false → s.takenCores c m = mine.take m) ∧
    (s.wholeClusters c = true → ∃ whole rest : List Nat, s.takenCores c m = (whole ++ rest).take (roundUp m 4) ∧ (whole ++ rest).Perm mine ∧
      ∀ k, k ∈ whole ↔ k ∈ mine ∧ ∀ j ∈ cclCores (coreCcl k), j ∈ mine) := by
  intro mine
  refine ⟨fun single => if_neg (Bool.eq_false_iff.1 single), fun clusters => ?_⟩
  let full : Nat → Bool := fun k => (cclCores (coreCcl k)).all (fun j => mine.contains j)
  have in_whole : ∀ k, k ∈ mine.filter full ↔ k ∈ mine ∧ ∀ j ∈ cclCores (coreCcl k), j ∈ mine := fun k => by
    rw [List.mem_filter]
    simp only [full, List.all_eq_true, List.contains_iff_mem]
  have rest : mine.filter (fun k => !(mine.filter full).contains k) = mine.filter (fun k => !full k) := by
    refine List.filter_congr fun k is => ?_
    rw [Bool.eq_iff_iff]
    simp only [Bool.not_eq_true', ← Bool.not_eq_true, List.contains_iff_mem, List.mem_filter, is, true_and]
  refine ⟨mine.filter full, mine.filter (fun k => !full k), ?_, List.filter_append_perm full mine, in_whole⟩
  rw [← rest]
  exact if_pos clusters

end Sys2Proof.Machine

open Sys2Proof Sys2Proof.Machine Sys2Proof.Laws

/-- Settles O40. -/
theorem contextWords : Obligations.ContextWords := by
  intro h d a b s g pc E S X ready status result goesOn ld ev de sp ha st re rr wr n q lives
  have begun : ∀ i, X i ≠ [] → (W.begin (info i) s g pc).ex.isEmpty = false := fun i busy => W.begin_ex busy
  have here : ∀ i c, lives c → (W.begin (info i) s g pc).s.resident c = true := fun i c alive => (State.resident_iff s c).2 alive
  have gone : ∀ i c, ¬ lives c → ¬ (W.begin (info i) s g pc).s.resident c = true := fun i c dead is => dead ((State.resident_iff s c).1 is)
  have refl : ∀ i, Steady s.focus (s.entered (info i) g) (S i) := fun i => Steady.refl _ _
  have idle : ∀ i, X i ≠ [] → ¬ (W.begin (info i) s g pc).ex.isEmpty = true := fun i busy => Bool.eq_false_iff.1 (begun i busy)
  have not_here : ∀ i c, lives c → ¬ (!(W.begin (info i) s g pc).s.resident c) = true := fun i c alive => by rw [here i c alive]; decide
  have not_gone : ∀ i c, ¬ lives c → (!(W.begin (info i) s g pc).s.resident c) = true := fun i c dead => by simpa using gone i c dead
  refine ⟨fun ⟨hr, busy⟩ => ⟨fun bad => hr.status rfl busy (refl ld) (W.ctxload_none (begun ld busy) bad),
      fun alive => hr.status rfl busy (refl ld) (W.ctxload_exists (begun ld busy) ⟨alive.1, alive.2.1⟩ alive.2.2), ?_⟩,
    fun ⟨hr, busy⟩ => ⟨fun other => hr.status rfl busy (refl ev) (W.ctxsave_other (begun ev busy) other),
      fun zero dead => hr.status rfl busy (refl ev) (W.ctxsave_gone (begun ev busy) zero (gone ev _ dead)),
      fun zero alive apart => hr.goesOn rfl busy (Spares.evict _ _ _ apart).2 (W.ctxsave_evicts (begun ev busy) zero (here ev _ alive))⟩,
    fun ⟨hr, busy⟩ => ⟨fun dead => hr.status rfl busy (refl de) ((if_neg (idle de busy)).trans (if_neg (gone de _ dead))),
      fun alive apart => hr.status rfl busy (Spares.destroy _ _ _ apart).2 ((if_neg (idle de busy)).trans (if_pos (here de _ alive)))⟩,
    fun ⟨hr, busy⟩ => ?_, fun ⟨hr, busy⟩ => ?_, fun ⟨hr, busy⟩ => ?_, fun ⟨hr, busy⟩ => ?_, fun ⟨hr, busy⟩ => ?_, fun ⟨hr, busy⟩ apart => ?_,
    fun c hd x v => ?_, fun c m => s.takenCores_eq c m, fun t f c j => ⟨t.ctxLoad_ctx j f c, t.destroy_ctx j, rfl, rfl, rfl, rfl, rfl, rfl, rfl, rfl, rfl, rfl, rfl, rfl, rfl, rfl⟩⟩
  · intro above below absent p e z f t reach good c
    have calm : Calm (S ld) t := by
      have := State.reachG_calm (S ld) (E ld).who 0 ((E ld).rd64 0 b) 128 false false needR kindLoad
      rwa [reach] at this
    have body := W.ctxload_read (d := d) (begun ld busy) ⟨above, below⟩ absent reach good
    refine ⟨fun ok => hr.status rfl busy (Steady.ofCalm _ (calm.trans (t.ctxLoad_calm _ _ _))) (body.trans (if_pos ((ccbOk_iff c).2 ok))),
      fun bad => hr.status rfl busy (Steady.ofCalm _ calm) (body.trans (if_neg fun ok => ?_))⟩
    obtain ⟨slots, low, high⟩ := (ccbOk_iff c).1 ok
    omega
  · intro c cs
    exact ⟨fun dead => hr.preResult rfl busy (refl sp) (W.spatial_gone (begun sp busy) (gone sp _ dead)),
      fun alive apart => hr.goesOn rfl busy (Spares.take _ _ _ _ apart).2 (W.spatial_takes (begun sp busy) (here sp _ alive) rfl)⟩
  · exact ⟨fun dead => hr.preResult rfl busy (refl ha) ((if_neg (idle ha busy)).trans (if_neg (gone ha _ dead))),
      fun alive => hr.preResult (x := (S ha).modCtx (q ha 0).toNat (fun k => { k with ctxstat := k.ctxstat ||| 0x20 })) rfl busy (Steady.ofGroups _ rfl)
        ((if_neg (idle ha busy)).trans (if_pos (here ha _ alive)))⟩
  · exact ⟨fun dead => hr.preResult rfl busy (refl st) ((if_neg (idle st busy)).trans (if_pos (not_gone st _ dead))),
      fun alive => hr.goesOn (x := (S st).modCtx (q st 0).toNat (fun k => { k with ctxstat := k.ctxstat ||| 0x20 })) rfl busy (Steady.ofGroups _ rfl)
        ((if_neg (idle st busy)).trans (if_neg (not_here st _ alive)))⟩
  · have fatal : ∀ c, (W.begin (info re) s g pc).s.fatal c = (s.ctxD c).ctxstat.getLsbD 7 := fun c => State.fatal_eq _ _
    intro c
    refine ⟨fun dead => hr.preResult rfl busy (refl re) ((if_neg (idle re busy)).trans (if_pos (not_gone re _ dead))), fun alive dies => ?_, fun alive lives => ?_⟩
    · exact hr.preResult rfl busy (refl re) ((if_neg (idle re busy)).trans ((if_neg (not_here re _ alive)).trans (if_pos ((fatal c).trans dies))))
    · exact hr.preResult (x := (S re).modCtx c (fun k => { k with ctxstat := k.ctxstat &&& 0xFFFFFFDF })) rfl busy (Steady.ofGroups _ rfl)
        ((if_neg (idle re busy)).trans ((if_neg (not_here re _ alive)).trans
        (if_neg (Bool.eq_false_iff.1 ((fatal c).trans lives)))))
  · exact hr.preResult rfl busy (refl rr) (if_neg (idle rr busy))
  · have place : (E wr).ctx = 0 := (Group.entered_place g (info wr)).2.2.trans apart
    exact hr.preResult rfl busy (Steady.regWrite (State.entered_grp s (info wr) g) place _ _ _ _) (if_neg (idle wr busy))
  · have resident : lives c → s.resident c = true := fun alive => (State.resident_iff s c).2 alive
    refine ⟨fun dead => State.regRefused (State.regGroup_gone (fun is => dead ((State.resident_iff s c).1 is))),
      fun alive runs => State.regRefused (State.regGroup_runs (resident alive) ((s.halted_eq c).trans runs)), fun alive halts => ?_⟩
    have halted : s.halted c = true := (s.halted_eq c).trans halts
    refine ⟨fun none_ => State.regRefused (State.regGroup_noHandle (resident alive) halted none_), fun gid is =>
      ⟨fun none_ => State.regRefused (State.regGroup_noGroup (resident alive) halted is none_), fun k group mine => ?_⟩⟩
    have found := State.regGroup_is (resident alive) halted is group mine
    exact ⟨fun outside => State.regBad found (Group.select_bad outside), fun kind => State.regVpc found (Group.select_vpc kind),
      fun r l names => State.regCell found (Group.select_cell names)⟩
end

section
/-! PROOFS of DieWords: messages, shoot-downs, TLB entries and frames (R360–R369). -/

namespace Sys2Proof.Machine

/-! ### An invalidation entry's steps (R366) -/

theorem State.dropTlb_calm (s : State) (d ctx lo hi : Nat) (all : Bool) : Calm s (s.dropTlb d ctx lo hi all) := by
  unfold State.dropTlb
  exact Calm.fold (f := fun s k => s.modCcl k (fun c =>
    { c with tlb := c.tlb.filter (fun t => !(decide (t.ctx = ctx) && pageMeets t.page t.size lo hi && (all || !s.pinned k t))) }))
    (fun _ _ => ⟨rfl, rfl, rfl, rfl, rfl, rfl⟩) _ _

theorem State.dropRange_calm (s : State) (d ctx lo hi : Nat) : Calm s (s.dropRange d ctx lo hi) := by
  unfold State.dropRange
  exact (Calm.fold (fun s c => Calm.fold (fun s v => State.dropLine_calm s c v) _ _) _ _).trans (Calm.fold (fun s l => State.flushL2Line_calm s d l) _ _)

theorem State.reloadBounds_calm (s : State) (d ctx : Nat) (tags : List Nat) : Calm s (s.reloadBounds d ctx tags) := by
  unfold State.reloadBounds
  refine Calm.fold (fun s c => Calm.fold (fun s t => ?_) _ _) _ _
  split <;> exact Calm.modCore _ _ _

theorem State.applyEntry_calm (s : State) (d v : Nat) (all : Bool) : Calm s (s.applyEntry d v all) := by
  have dropped : Calm s (if entryKind v = 0 ∨ entryKind v = 2 then (s.dropTlb d (entryCtx v) (entryLo v) (entryHi v) all).dropRange d (entryCtx v) (entryLo v) (entryHi v) else s) := by
    split
    · exact (State.dropTlb_calm _ _ _ _ _ _).trans (State.dropRange_calm _ _ _ _ _)
    · exact Calm.refl s
  unfold State.applyEntry
  dsimp only
  split
  · exact dropped.trans (State.reloadBounds_calm _ _ _ _)
  · split
    · exact dropped.trans (State.reloadBounds_calm _ _ _ _)
    · exact dropped

/-- Whether an entry of a cluster TLB goes with a range (R366 steps 1 and 4). -/
def State.drops (s : State) (k ctx lo hi : Nat) (all : Bool) (t : TlbEntry) : Bool :=
  decide (t.ctx = ctx) && pageMeets t.page t.size lo hi && (all || !s.pinned k t)

/-- The cluster TLBs after a range is dropped in some clusters: nothing is added, and nothing the range drops is left there. -/
theorem State.mem_dropTlb {s t : State} (same : s.groups = t.groups) (ctx lo hi : Nat) (all : Bool) (L : List Nat) (c : Nat) (e : TlbEntry)
    (is : e ∈ ((L.foldl (fun s k => s.modCcl k (fun c => { c with tlb := c.tlb.filter (fun e => !s.drops k ctx lo hi all e) })) s).ccl c).tlb) :
    e ∈ (s.ccl c).tlb ∧ (c ∈ L → t.drops c ctx lo hi all e = false) := by
  induction L generalizing s with
  | nil => exact ⟨is, nofun⟩
  | cons k L ih =>
    obtain ⟨kept, left⟩ := ih (s := s.modCcl k (fun c => { c with tlb := c.tlb.filter (fun e => !s.drops k ctx lo hi all e) })) same is
    by_cases eq : c = k
    · subst eq
      have here : e ∈ (s.ccl c).tlb.filter (fun e => !s.drops c ctx lo hi all e) := by
        have self : (s.modCcl c (fun x => { x with tlb := x.tlb.filter (fun e => !s.drops c ctx lo hi all e) })).ccl c =
            { s.ccl c with tlb := (s.ccl c).tlb.filter (fun e => !s.drops c ctx lo hi all e) } :=
          congrArg (fun o : Option CCluster => o.getD CCluster.reset) (kget_kset_self _ _ _)
        rwa [self] at kept
      obtain ⟨in_, spared⟩ := List.mem_filter.1 here
      refine ⟨in_, fun _ => ?_⟩
      have pins : t.drops c ctx lo hi all e = s.drops c ctx lo hi all e := by
        unfold State.drops State.pinned
        rw [same]
      rw [pins]
      simpa using spared
    · have other : (s.modCcl k (fun x => { x with tlb := x.tlb.filter (fun e => !s.drops k ctx lo hi all e) })).ccl c = s.ccl c :=
        congrArg (fun o : Option CCluster => o.getD CCluster.reset) (kget_kset_ne _ _ eq)
      rw [other] at kept
      exact ⟨kept, fun in_ => left ((List.mem_cons.1 in_).resolve_left eq)⟩

/-- Step 1 leaves no entry of the range but those pinned, step 4 none (R366). -/
theorem State.dropTlb_left (t : State) (k ctx lo hi : Nat) (all : Bool) {c : Nat} (in_ : c ∈ dieCcls k) {e : TlbEntry} (is : e ∈ ((t.dropTlb k ctx lo hi all).ccl c).tlb) :
    e ∈ (t.ccl c).tlb ∧ (e.ctx = ctx → e.page * 2 ^ (e.size - 16) < hi → lo < (e.page + 1) * 2 ^ (e.size - 16) → all = false ∧ t.pinned c e = true) := by
  obtain ⟨kept, left⟩ := State.mem_dropTlb (s := t) (t := t) rfl ctx lo hi all (dieCcls k) c e is
  refine ⟨kept, fun mine below above => ?_⟩
  have spared := left in_
  unfold State.drops pageMeets at spared
  simpa [mine, below, above] using spared

/-! ### Messages (R360–R363) -/

/-- A message's header word (R360, R361). -/
theorem msgHeader_eq (mc : Bool) (q die n : Nat) (queue : q < 3) (number : n < 2 ^ 32) :
    field 63 1 1 + field 62 1 (if mc then 1 else 0) + field 60 2 q + field 55 5 die + field 0 32 n =
      2 ^ 63 + (if mc then 2 ^ 62 else 0) + q * 2 ^ 60 + die % 32 * 2 ^ 55 + n := by
  simp only [field_eq]
  rw [Nat.mod_eq_of_lt (show q < 2 ^ 2 by omega), Nat.mod_eq_of_lt number]
  cases mc <;> simp

section
variable {w : W} {d a b : Opnd} {mc : Bool} {q : Nat} (busy : w.ex.isEmpty = false)
include busy

theorem W.msgsend_waits (going : ∃ o ∈ w.s.supOps, o.2.gid = w.gid ∧ o.2.kind = 4) : w.msgsend d a b mc q = { w with hold := some .depEngine } := by
  unfold W.msgsend
  rw [busy, if_neg Bool.false_ne_true]
  refine if_pos ?_
  simpa only [List.any_eq_true, Bool.and_eq_true, decide_eq_true_eq] using going

section
variable (idle : ∀ o ∈ w.s.supOps, ¬ (o.2.gid = w.gid ∧ o.2.kind = 4))
include idle

omit busy in
theorem W.msgsend_idle : ¬ w.s.supOps.any (fun o => decide (o.2.gid = w.gid) && decide (o.2.kind = 4)) = true := by
  simpa only [List.any_eq_true, Bool.and_eq_true, decide_eq_true_eq, not_exists, not_and] using idle

theorem W.msgsend_format (bad : if mc then (w.g.rd 0 a).toNat = 0 ∨ 2 ^ 21 ≤ (w.g.rd 0 a).toNat else 20 < (w.g.rd 0 a).toNat) :
    w.msgsend d a b mc q = w.status2 d 4 := by
  unfold W.msgsend
  rw [busy, if_neg Bool.false_ne_true, if_neg (W.msgsend_idle idle)]
  exact if_pos bad

theorem W.msgsend_one {to_ core : Nat} (at_ : w.g.core = core) (target : (w.g.rd 0 a).toNat = to_) (one : mc = false) (inside : to_ ≤ 20) (queue : q < 3) :
    w.msgsend d a b mc q = w.supOp 4 q 0 (BitVec.ofNat 64 (2 ^ 63 + (if mc then 2 ^ 62 else 0) + q * 2 ^ 60 + coreDie core % 32 * 2 ^ 55 + 0)) [to_]
      ((List.range 14).map (fun j => w.g.rdj 0 (j + 2) b)) := by
  subst at_ target one
  unfold W.msgsend
  rw [busy, if_neg Bool.false_ne_true, if_neg (W.msgsend_idle idle)]
  exact (if_neg (Nat.not_lt.2 inside)).trans (by rw [← msgHeader_eq false q (coreDie w.g.core) 0 queue (by decide)]; rfl)

theorem W.msgsend_many {to_ core : Nat} (at_ : w.g.core = core) (target : (w.g.rd 0 a).toNat = to_) (many : mc = true) (some_ : to_ ≠ 0) (inside : to_ < 2 ^ 21)
    (queue : q < 3) : w.msgsend d a b mc q = ({ w with s := w.s.nextSeq } : W).supOp 4 q (w.s.pkg.seqNo + 1)
      (BitVec.ofNat 64 (2 ^ 63 + (if mc then 2 ^ 62 else 0) + q * 2 ^ 60 + coreDie core % 32 * 2 ^ 55 + w.s.pkg.seqNo % 2 ^ 32)) (maskDies to_)
      ((List.range 14).map (fun j => w.g.rdj 0 (j + 2) b)) := by
  subst at_ target many
  unfold W.msgsend
  rw [busy, if_neg Bool.false_ne_true, if_neg (W.msgsend_idle idle)]
  exact (if_neg (by rw [if_pos rfl]; omega)).trans (by rw [← msgHeader_eq true q (coreDie w.g.core) (w.s.pkg.seqNo % 2 ^ 32) queue (Nat.mod_lt _ (by decide))]; rfl)

end

end

/-- One target of a MSGSEND (R362). -/
theorem State.sendTo_message (s : State) (id : Nat) {o : SupOp} (k : Nat) (kind : o.kind = 4) :
    let rest := fun x : Nat => kmod s.supOps id (fun p => { p with mask := p.mask.filter (fun y => decide (y ≠ k)), phase := p.phase + x })
    let q := (kget (s.die k).queues o.ctx).getD []
    ((s.die k).st ≠ .up → s.sendTo id o k = { s with supOps := rest (2 ^ k) }) ∧
    ((s.die k).st = .up → s.mcBlocked o k = true → s.sendTo id o k = s) ∧
    ((s.die k).st = .up → s.mcBlocked o k = false → (64 ≤ q.length → s.sendTo id o k = s) ∧
      (q.length < 64 → s.sendTo id o k = State.modDie { s with supOps := rest 0 } k (fun x => { x with queues := kset x.queues o.ctx (q ++ [⟨o.x, o.msg⟩]) }))) := by
  intro rest q
  have not_post : ¬ o.kind = 6 := by omega
  unfold State.sendTo
  dsimp only
  rw [if_neg not_post]
  refine ⟨fun dead => if_pos (by simpa [State.dieUp] using dead), fun up blocked => ?_, fun up free => ?_⟩
  · exact (if_neg (by simp [State.dieUp, up])).trans (if_pos blocked)
  · refine ⟨fun full => ?_, fun room => ?_⟩
    · exact (if_neg (by simp [State.dieUp, up])).trans ((if_neg (Bool.eq_false_iff.1 free)).trans ((if_neg not_post).trans (if_pos full)))
    · exact (if_neg (by simp [State.dieUp, up])).trans ((if_neg (Bool.eq_false_iff.1 free)).trans ((if_neg not_post).trans (if_neg (Nat.not_le.2 room))))

/-- MSGRECV's sixteen registers at a free clk. -/
def W.gives (w : W) (d : Opnd) (v : Nat → Word) : W := { w with s := w.s.freeDue.2 }.var (dstCellsN d 16 w.ex (fun j _ => v j)) w.s.freeDue.1 false

section
variable {w : W} {d a : Opnd} {nb : Bool} {q core : Nat} (busy : w.ex.isEmpty = false) (at_ : w.g.core = core) (queue : (w.g.rd 0 a).toNat % 4 = q)
include busy queue

theorem W.msgrecv_format (bad : q = 3) : w.msgrecv d a nb = ({ w with s := (w.s.freeBytes 64).2 } : W).gives d
    (fun j => if j = 0 then 4 else BitVec.ofNat 32 (ofBytes (((w.s.freeBytes 64).1.drop (4 * j)).take 4))) := by
  unfold W.msgrecv
  rw [busy, if_neg Bool.false_ne_true]
  exact if_pos (queue.trans bad)

include at_

theorem W.msgrecv_takes {m : Message} {t : List Message} (good : q < 3) (oldest : (w.s.die (coreDie core)).queue q = m :: t) :
    w.msgrecv d a nb = ({ w with s := w.s.modDie (coreDie core) (fun x => { x with queues := kset x.queues q t }) } : W).gives d
      (fun j => if j = 0 then lo32 m.hdr else if j = 1 then hi32 m.hdr else m.payload.getD (j - 2) 0) := by
  subst at_ queue
  unfold W.msgrecv
  rw [busy, if_neg Bool.false_ne_true]
  dsimp only
  rw [if_neg (by omega), oldest]
  rfl

theorem W.msgrecv_none (good : q < 3) (none_ : (w.s.die (coreDie core)).queue q = []) :
    w.msgrecv d a nb = if nb then w.gives d (fun _ => 0) else { w with hold := some .depEngine } := by
  subst at_ queue
  unfold W.msgrecv
  rw [busy, if_neg Bool.false_ne_true]
  dsimp only
  rw [if_neg (by omega), none_]
  rfl

end

/-! ### INVAPPLY, TLBINV and ZEROPG (R365, R368, R369) -/

section
variable {w : W} {d a b : Opnd} (busy : w.ex.isEmpty = false)
include busy

section
variable {m : Nat} (mask : (w.g.rdj 0 0 a).toNat = m)
include mask

theorem W.invapply_format (bad : m = 0 ∨ 2 ^ 21 ≤ m ∨ m / 2 ^ 8 % 2 ^ 12 ≠ 0) : w.invapply d a = w.status2 d 4 := by
  subst mask
  unfold W.invapply
  rw [busy, if_neg Bool.false_ne_true]
  exact if_pos (by rwa [bitsOf_eq])

section
variable (some_ : m ≠ 0) (inside : m < 2 ^ 21) (only : m / 2 ^ 8 % 2 ^ 12 = 0)
include some_ inside only

theorem W.invapply_begins (fresh : ∀ f ∈ w.g.fences, ¬ (f.barrier = true ∧ f.pc = w.pc)) :
    w.invapply d a = { w with hold := some .fence, holdFx := relFence w.gid w.pc 0 } := by
  subst mask
  unfold W.invapply
  rw [busy, if_neg Bool.false_ne_true]
  dsimp only
  rw [if_neg (by rw [bitsOf_eq]; omega), W.relWait_begins fresh]

theorem W.invapply_posts (here : w.s.grp w.gid = some w.g) (done : w.g.released w.pc) :
    w.invapply d a = { (W.pend { w with s := w.s.modGrp w.gid (fun _ => w.g.afterRelease w.pc) } [] none false).2 with
      s := (W.pend { w with s := w.s.modGrp w.gid (fun _ => w.g.afterRelease w.pc) } [] none false).2.s.shootPost w.gid w.s.serial (maskDies m)
        ((List.range 11).map (fun j => w.g.rdj 0 (j + 1) a)) } := by
  subst mask
  unfold W.invapply
  rw [busy, if_neg Bool.false_ne_true]
  dsimp only
  rw [if_neg (by rw [bitsOf_eq]; omega), W.relWait_over done]
  dsimp only
  rw [W.relDone_eq here]
  rfl

end

end

/-- The entry that TLBINV's registers hold (R368). -/
def W.entryOf (w : W) (a : Opnd) : Nat := (List.range 8).foldl (fun x j => x + (w.g.rdj 0 j a).toNat * 2 ^ (32 * j)) 0

section
variable {core : Nat} (at_ : w.g.core = core)
include at_

theorem W.tlbinv_format (bad : (8 ≤ coreDie core ∧ coreDie core < 20) ∨ entryKind (w.entryOf a) = 3) : w.tlbinv d a = w.status2 d 4 := by
  subst at_
  unfold W.tlbinv
  rw [busy, if_neg Bool.false_ne_true]
  exact if_pos bad

theorem W.tlbinv_applies (die : coreDie core < 8 ∨ 20 ≤ coreDie core) (good : entryKind (w.entryOf a) ≠ 3) : w.tlbinv d a =
    ({ w with s := w.s.applyEntry (coreDie core) (w.entryOf a) false } : W).supOp 5 (coreDie core) 0 0 [] ((List.range 8).map (fun j => w.g.rdj 0 j a)) := by
  subst at_
  unfold W.tlbinv
  rw [busy, if_neg Bool.false_ne_true]
  refine if_neg fun bad => bad.elim (fun out => ?_) good
  obtain ⟨above, below⟩ := out
  omega

end

section
variable {x pa len : Nat} (sel : (w.g.rd 0 b).toNat = x) (addr : (w.g.rd64 0 a).toNat = pa) (bytes : groomBytes (x / 16 % 4) = len)
include sel addr bytes

theorem W.zeropg_format (bad : 11 < x % 16 ∨ x / 16 % 4 = 3 ∨ pa % len ≠ 0 ∨ 2 ^ 52 ≤ pa) : w.zeropg d a b = w.status d 4 := by
  subst sel addr bytes
  unfold W.zeropg
  rw [busy, if_neg Bool.false_ne_true]
  exact if_pos bad

section
variable (die : x % 16 ≤ 11) (size : x / 16 % 4 ≠ 3) (aligned : pa % len = 0) (inside : pa < 2 ^ 52)
include die size aligned inside

theorem W.zeropg_down (down : w.s.dieUp (8 + x % 16) = false) : w.zeropg d a b = w.status d 10 := by
  subst sel addr bytes
  unfold W.zeropg
  rw [busy, if_neg Bool.false_ne_true]
  dsimp only
  rw [if_neg (by omega), down]
  rfl

theorem W.zeropg_enters (up : w.s.dieUp (8 + x % 16) = true) : w.zeropg d a b = { (w.pend [] none false).2 with
    s := (w.pend [] none false).2.s.groomEnter (8 + x % 16) pa len w.gid w.s.serial } := by
  subst sel addr bytes
  unfold W.zeropg
  rw [busy, if_neg Bool.false_ne_true]
  dsimp only
  rw [if_neg (by omega), up]
  rfl

end

end

end

theorem groomBytes_eq (c : Nat) : groomBytes c = if c = 0 then 2 ^ 16 else if c = 1 then 2 ^ 26 else 2 ^ 36 := by
  match c with
  | 0 => rfl
  | 1 => rfl
  | n + 2 =>
    rw [if_neg (by omega), if_neg (by omega)]
    rfl

/-! ### SHOOTDOWN_APPLY (R366, R367) -/

section
variable {s : State} {k : Nat} (ready : s.ilReady k = true)
include ready

theorem State.shootApply_lazy (lazy_ : (s.ilEntry k).testBit 237 = true) :
    s.shootApply k = (s.modDie k (fun x => { x with lazy := x.lazy ++ [⟨s.ilEntry k, false⟩] })).ilPass k := by
  unfold State.shootApply
  rw [ready]
  exact if_pos lazy_

section
variable (now : (s.ilEntry k).testBit 237 = false)
include now

theorem State.shootApply_begins (idle : (s.die k).applying = false) : s.shootApply k =
    State.applyEntry { s.modDie k (fun y => { y with applying := true, lazy := y.lazy.map (fun l => { l with due := true }) }) with
      agenda := s.agenda ++ (if (s.die k).lazy = [] then [] else [Instr.lazyApply k]) } k (s.ilEntry k) false := by
  have lazy_ : ((s.modDie k (fun y => { y with applying := true, lazy := y.lazy.map (fun l => { l with due := true }) })).die k).lazy.isEmpty = (s.die k).lazy.isEmpty := by
    rw [State.die_modDie]
    exact List.isEmpty_map
  unfold State.shootApply
  rw [ready]
  dsimp only
  rw [now]
  rw [idle, lazy_]
  cases (s.die k).lazy with
  | nil =>
    rw [if_pos (rfl : ([] : List LazyEntry) = []), List.append_nil]
    rfl
  | cons x t => rfl

theorem State.shootApply_ends (applying : (s.die k).applying = true) (clear : s.applyClear k (s.ilEntry k) = true) :
    s.shootApply k = (s.applyEntry k (s.ilEntry k) true).ilPass k := by
  unfold State.shootApply
  rw [ready]
  dsimp only
  rw [now]
  rw [applying, clear]
  rfl

end

end

/-! ### How these words answer -/

section
variable {i : Instr} {keys : Group → List Nat → List Nat} {s : State} {g : Group} {pc : Pc} {body : W → W} {x : State} (h : Ready (info i) keys s g pc)
  (he : exec i s = runWordX i keys s body) (busy : (g.entered (info i)).exLanes (info i) g.active ≠ []) (steady : Steady s.focus (s.entered (info i) g) x)
include h he busy steady

theorem Ready.status2 {d : Opnd} {st : Nat} (hb : body (W.begin (info i) s g pc) = ({ W.begin (info i) s g pc with s := x } : W).status2 d st) : ∃ m,
    AwaitsIn i s g pc { x with free := m } (dstCellsN d 2 ((g.entered (info i)).exLanes (info i) g.active) (fun j _ => if j = 0 then BitVec.ofNat 32 st else 0))
      (fun t => x.pkg.clock < t) :=
  ⟨x.free + 1, h.starts he busy x.freeDue.2 _ _ false hb (steady.trans (Steady.ofGroups _ rfl)) _ x.freeDue_later⟩

theorem Ready.gives {d : Opnd} {v : Nat → Word} (hb : body (W.begin (info i) s g pc) = ({ W.begin (info i) s g pc with s := x } : W).gives d v) : ∃ m,
    AwaitsIn i s g pc { x with free := m } (dstCellsN d 16 ((g.entered (info i)).exLanes (info i) g.active) (fun j _ => v j)) (fun t => x.pkg.clock < t) :=
  ⟨x.free + 1, h.starts he busy x.freeDue.2 _ _ false hb (steady.trans (Steady.ofGroups _ rfl)) _ x.freeDue_later⟩

end

end Sys2Proof.Machine

open Sys2Proof Sys2Proof.Machine Sys2Proof.Laws

/-- Settles O42. -/
theorem dieWords : Obligations.DieWords := by
  intro h d a b mc nb qn s g pc E S X ready die status status2 takes goesOn held ms mr iv ti zp n dies seq
  have core : ∀ i, (E i).core = g.core := fun i => (Group.entered_place g (info i)).2.1
  have refl : ∀ i, Steady s.focus (s.entered (info i) g) (S i) := fun i => Steady.refl _ _
  refine ⟨fun ⟨hr, busy⟩ => ⟨fun going => hr.held rfl .depEngine id (W.msgsend_waits (W.begin_ex busy) going), fun idle => ⟨fun one far => ?_, fun many bad => ?_, ?_⟩⟩,
    fun id o k is kind => s.sendTo_message id k kind, fun ⟨hr, busy⟩ => ?_, fun ⟨hr, busy⟩ => ?_, fun ⟨hr, busy⟩ => ?_, fun ⟨hr, busy⟩ => ?_, fun on k => ?_,
    fun t k ctx lo hi all c in_ e is => t.dropTlb_left k ctx lo hi all in_ is⟩
  · exact hr.status2 rfl busy (refl ms) (W.msgsend_format (W.begin_ex busy) idle (by rw [one]; exact far))
  · exact hr.status2 rfl busy (refl ms) (W.msgsend_format (W.begin_ex busy) idle (by rw [many]; exact bad))
  · intro hdr words
    refine ⟨fun one inside => hr.goesOn rfl busy (refl ms) (W.msgsend_one (W.begin_ex busy) idle (core ms) rfl one inside qn.isLt), fun many some_ inside => ?_⟩
    exact hr.goesOn (x := (S ms).modPkg (fun p => { p with seqNo := seq + 1 })) rfl busy (Steady.ofGroups _ rfl) (W.msgsend_many (W.begin_ex busy) idle (core ms) rfl many some_ inside qn.isLt)
  · intro q
    refine ⟨fun bad => ?_, fun good m t oldest => ?_, fun good none_ => ?_⟩
    · obtain ⟨m, waits⟩ := hr.gives (x := ((S mr).freeBytes 64).2) rfl busy (Steady.ofGroups _ rfl) (W.msgrecv_format (W.begin_ex busy) rfl bad)
      exact ⟨_, rfl, m, waits⟩
    · exact hr.gives (x := (S mr).modDie die (fun x => { x with queues := kset x.queues q t })) rfl busy (Steady.ofGroups _ rfl)
        (W.msgrecv_takes (W.begin_ex busy) (core mr) rfl good oldest)
    · have body := W.msgrecv_none (w := W.begin (info mr) s g pc) (d := d) (nb := nb) (W.begin_ex busy) (core mr) rfl good none_
      exact ⟨fun now => hr.gives rfl busy (refl mr) (body.trans (if_pos now)), fun waits => hr.held rfl .depEngine id (body.trans (if_neg (Bool.eq_false_iff.1 waits)))⟩
  · intro m
    refine ⟨fun bad => hr.status2 rfl busy (refl iv) (W.invapply_format (W.begin_ex busy) rfl bad), fun some_ inside only => ⟨fun fresh => ?_, fun done => ?_⟩⟩
    · exact hr.held rfl .fence (relFence s.focus pc 0)
        (W.invapply_begins (W.begin_ex busy) rfl some_ inside only (by rwa [show (W.begin (info iv) s g pc).g.fences = g.fences from (Group.entered_fences g (info iv)).1]))
    · refine hr.leavesIn rfl busy _ [] false _ (fun e id => ?_) ((refl iv).releases (State.entered_grp s (info iv) g) pc) (fun _ _ => Steady.ofGroups _ rfl)
      refine (W.invapply_posts (W.begin_ex busy) rfl some_ inside only (State.entered_grp s (info iv) g) (Group.entered_released done (info iv))).trans ?_
      rw [id]
      rfl
  · intro v
    refine ⟨fun bad => hr.status2 rfl busy (refl ti) (W.tlbinv_format (W.begin_ex busy) (core ti) (bad.imp_right fun kind => (bitsOf_eq v 238 2).trans kind)), fun at_ good => ?_⟩
    exact hr.goesOn rfl busy (Steady.ofCalm _ (State.applyEntry_calm _ _ _ _)) (W.tlbinv_applies (W.begin_ex busy) (core ti) at_ (fun kind => good ((bitsOf_eq v 238 2).symm.trans kind)))
  · intro x pa sz len
    have bytes : groomBytes sz = len := groomBytes_eq sz
    have up_iff : ∀ k, (W.begin (info zp) s g pc).s.dieUp k = true ↔ (s.die k).st = .up := fun k => decide_eq_true_iff
    refine ⟨fun bad => hr.status rfl busy (refl zp) (W.zeropg_format (W.begin_ex busy) rfl rfl bytes bad), fun at_ size aligned inside => ⟨fun down => ?_, fun up => ?_⟩⟩
    · exact hr.status rfl busy (refl zp) (W.zeropg_down (W.begin_ex busy) rfl rfl bytes at_ size aligned inside (Bool.eq_false_iff.2 (mt (up_iff _).1 down)))
    · refine hr.leavesIn rfl busy (S zp) [] false _ (fun e id => ?_) (refl zp) (fun _ _ => Steady.ofGroups _ rfl)
      refine (W.zeropg_enters (W.begin_ex busy) rfl rfl bytes at_ size aligned inside ((up_iff _).2 up)).trans ?_
      rw [id]
      rfl
  · intro v pass
    refine ⟨fun ready lazy_ => event_next (f := fun s => s.shootApply k) on rfl (State.shootApply_lazy ready lazy_),
      fun ready now idle => ⟨_, event_next (f := fun s => s.shootApply k) on rfl (State.shootApply_begins ready now idle), rfl⟩,
      fun ready now applying clear => event_next (f := fun s => s.shootApply k) on rfl (State.shootApply_ends ready now applying clear), if_pos on⟩
end

section
/-! PROOFS of MeasureWords: counts, snapshots, samples and trace records (R382–R395). -/

namespace Sys2Proof.Machine

/-! ### Counts by cause (R382, R387) -/

/-- What the counts added to an account leave of a cause. -/
theorem kget_addCounts (l : List (Nat × Nat)) (j : Nat) : ∀ m, ((kget (addCounts m l) j).getD 0) % 2 ^ 64 =
    ((kget m j).getD 0 + ((l.filter (fun c => decide (c.1 % 16 = j))).map (fun c => c.2)).sum) % 2 ^ 64 := by
  induction l with
  | nil => exact fun m => rfl
  | cons c t ih =>
    intro m
    refine (ih _).trans ?_
    rw [kget_kset, List.filter_cons]
    by_cases here : c.1 % 16 = j
    · rw [if_pos here.symm, if_pos (decide_eq_true here), List.map_cons, List.sum_cons, here, ← Nat.add_assoc]
      exact Nat.mod_add_mod _ _ _
    · rw [if_neg (Ne.symm here), if_neg (by simpa using here)]

/-- A core's counts are the sums of its counters by cause. -/
theorem Core.countAt_counts (c : Core) (p : Option Nat) {j : Nat} (cause : j < 16) (sel : Nat × Nat → Bool)
    (hsel : sel = fun x => match p with
      | some n => decide (x.1 / 16 = n)
      | none => true) :
    countAt (c.counts p) j = ((c.counters.filter (fun x => decide (x.1 % 16 = j) && sel x)).map (fun x => x.2)).sum % 2 ^ 64 := by
  have counts : c.counts p = addCounts [] ((c.counters.filter sel).map (fun x => (x.1 % 16, x.2))) := by
    subst hsel
    cases p <;> rfl
  unfold countAt
  rw [if_pos cause, counts, kget_addCounts, List.filter_map, List.map_map, List.filter_filter]
  simp [kget, Function.comp_def]

/-! ### SPLITRD (R386, R387) -/

/-- SPLITRD returns what it reads at its form's time. -/
theorem Ready.splitReads {h : Hdr} {d a : Opnd} {form : SplitForm} {s : State} {g : Group} {pc : Pc} {v : Nat}
    (hr : Ready (info (.splitrd h d a form)) (ownKeys (info (.splitrd h d a form))) s g pc)
    (busy : (g.entered (info (.splitrd h d a form))).exLanes (info (.splitrd h d a form)) g.active ≠ [])
    (hv : (s.entered (info (.splitrd h d a form)) g).splitRead s.focus (g.entered (info (.splitrd h d a form))) form ((g.entered (info (.splitrd h d a form))).rd 0 a).toNat = v)
    (runs : 0 < s.pkg.freq) :
    Awaits (.splitrd h d a form) s g pc (dstCells64 d ((g.entered (info (.splitrd h d a form))).exLanes (info (.splitrd h d a form)) g.active) (fun _ => BitVec.ofNat 64 v))
      (fun t => if form = .ctx then s.pkg.clock < t ∧ t ≤ s.pkg.clock + 4 * s.pkg.freq else t = s.pkg.clock + 6) := by
  subst hv
  have at_ : ∀ m n : Nat, (if (W.begin (info (.splitrd h d a form)) s g pc).dry then m else n) = n := fun m n => if_neg (by rw [hr.wet]; exact Bool.false_ne_true)
  cases form with
  | port => exact hr.starts rfl busy (s.entered _ g) _ (s.pkg.clock + 6) false (congrArg (fun n => W.var (W.begin (info _) s g pc) _ n false) (at_ _ _)) (Steady.refl _ _) _ rfl
  | core => exact hr.starts rfl busy (s.entered _ g) _ (s.pkg.clock + 6) false (congrArg (fun n => W.var (W.begin (info _) s g pc) _ n false) (at_ _ _)) (Steady.refl _ _) _ rfl
  | ctx =>
    have pick : Config.freeChoice s.free % (4 * s.pkg.freq) < 4 * s.pkg.freq := Nat.mod_lt _ (by omega)
    refine hr.awaits rfl busy (s.free + 1) _ (s.pkg.clock + 1 + Config.freeChoice s.free % (4 * s.pkg.freq)) false (congrArg (fun n => W.var { W.begin (info _) s g pc with s := (State.freePick _ _).2 } _ n false) (at_ _ _)) _ ?_
    rw [if_pos rfl]
    omega

/-! ### SPLITSNAP (R388) -/

theorem State.reachPieces_calm (g : Group) (p : DWord) : ∀ (l : List Nat) (s : State), Calm s (s.reachPieces g p l).2
  | [], s => Calm.refl s
  | n :: t, s => (State.reachG_calm s g.who 0 (ptrOff p ((64 * n : Nat) : Int)) 64 true false needW kindStore).trans (State.reachPieces_calm g p t _)

theorem State.putLine_calm (s : State) (g : Group) (ptr : DWord) (flat : Nat) (b : List Byte) : Calm s (s.putLine g ptr flat b) := by
  unfold State.putLine
  split
  · exact State.homePut_calm _ _ _
  · exact (State.recallLine_calm _ _ _ _).trans (State.homePut_calm _ _ _)

theorem State.putPieces_calm (s : State) (g : Group) (b : List Byte) (l : List (Nat × Reach)) : Calm s (s.putPieces g b l) := by
  unfold State.putPieces
  refine Calm.fold (fun s x => ?_) l s
  split
  · exact State.putLine_calm _ _ _ _ _
  · exact Calm.refl _

/-- No piece stops a snapshot whose pieces all have a home. -/
theorem snapStop_none {l : List (Nat × Reach)} (good : ∀ q ∈ l, ∃ p e z f, q.2 = .glob p e z f) : snapStop l = none := by
  unfold snapStop
  rw [Option.map_eq_none_iff, List.find?_eq_none]
  intro q in_
  obtain ⟨p, e, z, f, at_⟩ := good q in_
  rw [at_]
  exact Bool.false_ne_true

theorem W.splitsnap_writes {w : W} {d a : Opnd} {all : Bool} {R : List (Nat × Reach) × State} (busy : w.ex.isEmpty = false) (wet : w.dry = false)
    (pieces : w.s.reachPieces w.g (w.g.rd64 0 a) (List.range (if all then 517 else 3)) = R)
    (good : ∀ q ∈ R.1, ∃ p e z f, q.2 = .glob p e z f) (free : R.2.snapHeld w.g R.1 = false) :
    w.splitsnap d a all = ({ w with s := (R.2.putPieces w.g (R.2.snapshot w.g all) R.1).freeDue.2 } : W).var
      (dstCells64 d w.ex (fun _ => BitVec.ofNat 64 R.2.time)) (R.2.putPieces w.g (R.2.snapshot w.g all) R.1).freeDue.1 false := by
  have count : (if all then 33088 else 192) / 64 = if all then 517 else 3 := by cases all <;> rfl
  unfold W.splitsnap
  rw [busy, if_neg Bool.false_ne_true]
  dsimp only
  rw [count, pieces, snapStop_none good]
  dsimp only
  rw [free, Bool.false_and, if_neg Bool.false_ne_true]
  unfold W.eff
  rw [if_neg (by rw [wet]; exact Bool.false_ne_true)]
  rfl

theorem State.snapshot_user (s : State) (g : Group) (user : g.isSup = false) :
    s.snapshot g false = toBytes 64 (s.time % 2 ^ 64 * 2 ^ 448 + 2 ^ 432 + g.ctx % 2 ^ 9 * 2 ^ 423 + s.coresOf g.ctx % 2 ^ 8 * 2 ^ 400) ++ acctBytes (s.account g.ctx) := by
  unfold State.snapshot snapHead
  rw [if_neg Bool.false_ne_true, if_neg (by rw [user]; exact Bool.false_ne_true), field_eq, field_eq, field_eq, field_eq, Nat.mod_eq_of_lt (a := 1) (by decide), Nat.one_mul]

theorem State.snapshot_all (s : State) (g : Group) :
    s.snapshot g true = toBytes 64 (s.time % 2 ^ 64 * 2 ^ 448 + 258 * 2 ^ 432 + 224 * 2 ^ 400) ++
      (List.range 257).flatMap (fun c => acctBytes (if c = 0 ∨ (s.ctx c).isSome then s.account c else [])) ++ acctBytes s.pkg.retired := by
  unfold State.snapshot snapHead
  rw [if_pos rfl, field_eq, field_eq, field_eq, field_eq, Nat.mod_eq_of_lt (a := 258) (by decide), Nat.mod_eq_of_lt (a := 224) (by decide), Nat.zero_mod, Nat.zero_mul, Nat.add_zero]

/-! ### MARK and SAMPCFG (R391, R393) -/

theorem State.lossRecord_calm (s : State) (core : Nat) : Calm s (s.lossRecord core) := Calm.modCore _ _ _

theorem State.traceAdd_calm (s : State) (core : Nat) (r : TraceRec) : Calm s (s.traceAdd core r) := by
  unfold State.traceAdd
  dsimp only
  split
  · exact Calm.refl s
  · split
    · exact Calm.modCore _ _ _
    · exact (State.lossRecord_calm _ _).trans (Calm.modCore _ _ _)

theorem W.mark_adds {w : W} {tag : BitVec 8} {a : Opnd} (busy : w.ex.isEmpty = false) (wet : w.dry = false)
    (marks : w.g.isSup = true ∨ (w.s.ctxD w.g.ctx).smpctl.getLsbD 30 = true) :
    w.mark tag a = { w with s := w.s.traceAdd w.g.core (traceRec w.s.time w.pc.toNat (tag.toNat * 2 ^ 32 + (w.g.rd 0 a).toNat) w.g.rgncnt.toNat w.g.retcnt.toNat w.g.ctx (handleOf w.gid) 0 false 2) } := by
  have go : (w.ex.isEmpty || !(w.g.isSup || (w.s.ctxD w.g.ctx).smpctl.getLsbD 30)) = false := by
    rw [busy, show (w.g.isSup || (w.s.ctxD w.g.ctx).smpctl.getLsbD 30) = true from by simpa using marks]
    rfl
  unfold W.mark
  rw [go, if_neg Bool.false_ne_true]
  unfold W.eff
  rw [wet]
  rfl

theorem W.mark_skips {w : W} {tag : BitVec 8} {a : Opnd} (user : w.g.isSup = false) (off : (w.s.ctxD w.g.ctx).smpctl.getLsbD 30 = false) : w.mark tag a = w := by
  unfold W.mark
  rw [user, off]
  exact if_pos (Bool.or_true _)

/-- The state in which SAMPCFG has put its value in effect. -/
def State.withSampling (s : State) (g : Group) (v : Word) : State := if g.isSup then s else s.modCtx g.ctx (fun c => { c with smpctl := v })

theorem State.withSampling_calm (s : State) (g : Group) (v : Word) : Calm s (s.withSampling g v) := by
  unfold State.withSampling
  split
  · exact Calm.refl s
  · exact Calm.modCtx _ _ _

theorem W.sampcfg_sets {w : W} {d a : Opnd} {x : State} (busy : w.ex.isEmpty = false) (wet : w.dry = false)
    (hx : w.s.withSampling w.g (w.g.rd 0 a &&& 0xC000001F#32) = x) :
    w.sampcfg d a = ({ w with s := (x.freePick (2 * x.pkg.freq)).2 } : W).var
      (dstCells d 0 w.ex (fun _ => if w.g.isSup then 0 else (w.s.ctxD w.g.ctx).smpctl)) (w.clk + 1 + (x.freePick (2 * x.pkg.freq)).1) false := by
  subst hx
  unfold W.sampcfg
  rw [busy, if_neg Bool.false_ne_true]
  dsimp only
  rw [wet, if_neg Bool.false_ne_true]
  rfl

/-! ### Samples, folds and trace records (R382, R392, R394, R395) -/

/-- The clk in which a slot is sampled. -/
theorem State.sampled_iff (s : State) (core port : Nat) (c : Charge) : s.sampled core port c = true ↔
    core < 224 ∧ port < 4 ∧ c.acct ≠ 0 ∧ c.cause ≠ .switch ∧ (s.ctxD c.acct).ctxstat.getLsbD 5 = false ∧ (s.ctxD c.acct).smpctl.getLsbD 31 = true ∧
      (s.pkg.clock + 37 * (4 * core + port)) % 2 ^ (min 24 (max 10 ((s.ctxD c.acct).smpctl.toNat % 32))) = 0 := by
  unfold State.sampled isCompute samplePeriod
  rw [State.halted_eq]
  simp only [Bool.and_eq_true, decide_eq_true_eq, Bool.not_eq_true', and_assoc]

theorem State.sampleSlot_group {s : State} {core port : Nat} {c : Charge} (takes : s.sampled core port c = true) {gid : Nat} {rgn ret : Word} (cand : c.cand = some (gid, rgn, ret)) :
    s.sampleSlot core port c = s.traceAdd core (traceRec s.time c.pc.toNat c.blame.toNat rgn.toNat ret.toNat c.acct (handleOf gid) (slotCode c.cause) false 1) := by
  unfold State.sampleSlot
  rw [if_pos takes, cand]
  rfl

theorem State.sampleSlot_empty {s : State} {core port : Nat} {c : Charge} (takes : s.sampled core port c = true) (cand : c.cand = none) :
    s.sampleSlot core port c = s.traceAdd core (traceRec s.time c.pc.toNat c.blame.toNat 0 0 c.acct (handleOf (gidOf core port 0)) (slotCode c.cause) true 1) := by
  unfold State.sampleSlot
  rw [if_pos takes, cand]
  rfl

theorem Core.overflows_iff (c : Core) (port : Nat) : c.overflows port = true ↔ ∃ y ∈ c.counters, y.1 / 16 = port ∧ 2 ^ 48 - 2 ^ 32 ≤ y.2 := by
  unfold Core.overflows
  rw [List.any_eq_true]
  simp only [Bool.and_eq_true, decide_eq_true_eq]

theorem Die.traceOn_iff (y : Die) : y.traceOn = true ↔ y.trctl.getLsbD 31 = true ∧ 10 ≤ y.trctl.toNat % 32 ∧ y.trctl.toNat % 32 ≤ 24 := by
  unfold Die.traceOn
  rw [Bool.and_eq_true, Bool.and_eq_true, decide_eq_true_eq, decide_eq_true_eq, and_assoc]

theorem Die.traceFull_iff (y : Die) : y.traceFull = true ↔ 2 ^ (y.trctl.toNat % 32) ≤ (y.trtail - y.trhead).toNat := decide_eq_true_iff

theorem State.traceDue_eq (s : State) (core : Nat) : s.traceDue core =
    (!(s.core core).trace.isEmpty && (!(s.die (coreDie core)).traceOn || !(s.die (coreDie core)).traceFull)) := rfl

/-- A buffer whose die's ring is off gives its record up, to nothing. -/
theorem State.traceTake_off {s : State} {core : Nat} {r : TraceRec} {rest : List TraceRec} (oldest : (s.core core).trace = r :: rest) (off : (s.die (coreDie core)).traceOn = false) :
    s.traceTake core = (s.modCore core (fun z => { z with trace := rest })).lossRecord core := by
  have due : s.traceDue core = true := by
    rw [State.traceDue_eq, oldest, off]
    rfl
  have none_ : (!(s.die (coreDie core)).traceOn) = true := by rw [off]; rfl
  unfold State.traceTake
  rw [due, oldest]
  exact if_pos none_

theorem State.traceTake_full {s : State} {core : Nat} (on : (s.die (coreDie core)).traceOn = true) (full : (s.die (coreDie core)).traceFull = true) :
    s.traceTake core = s := by
  have due : s.traceDue core = false := by
    rw [State.traceDue_eq, on, full]
    exact Bool.and_false _
  unfold State.traceTake
  rw [due]
  rfl

theorem State.traceTake_carries {s : State} {core : Nat} {r : TraceRec} {rest : List TraceRec} {y : Die} (oldest : (s.core core).trace = r :: rest)
    (die : s.die (coreDie core) = y) (on : y.traceOn = true) (room : y.traceFull = false) :
    s.traceTake core = ((((s.modCore core (fun z => { z with trace := rest })).lossRecord core).homePut
      (flatPa 0 (y.trbase.toNat + 32 * (y.trtail.toNat % 2 ^ (y.trctl.toNat % 32)))) (toBytes 32 r.v)).modDie (coreDie core) (fun z => { z with trtail := z.trtail + 1 })) := by
  subst die
  have due : s.traceDue core = true := by
    rw [State.traceDue_eq, oldest, on, room]
    rfl
  have some_ : ¬ (!(s.die (coreDie core)).traceOn) = true := by rw [on]; exact Bool.false_ne_true
  unfold State.traceTake
  rw [due, oldest]
  exact if_neg some_

theorem State.traceAdd_off {s : State} {core : Nat} {r : TraceRec} (off : ¬ (coreDie core < 8 ∧ (s.die (coreDie core)).traceOn = true)) : s.traceAdd core r = s := by
  unfold State.traceAdd
  refine if_pos ?_
  rw [Bool.or_eq_true, decide_eq_true_eq, Bool.not_eq_true', ← Bool.not_eq_true]
  by_cases far : 8 ≤ coreDie core
  · exact Or.inl far
  · exact Or.inr (fun on => off ⟨by omega, on⟩)

/-- A record enters a core's buffer, or is counted as lost. -/
theorem State.traceAdd_on {s : State} {core : Nat} {r : TraceRec} (near : coreDie core < 8) (on : (s.die (coreDie core)).traceOn = true) :
    s.traceAdd core r = if 128 ≤ (s.core core).trace.length then s.modCore core (fun k => { k with traceLoss := satInc k.traceLoss (2 ^ 32 - 1) })
      else (s.lossRecord core).modCore core (fun k => { k with trace := k.trace ++ [r] }) := by
  unfold State.traceAdd
  refine if_neg ?_
  rw [Bool.or_eq_true, decide_eq_true_eq, Bool.not_eq_true', on]
  rintro (far | off)
  · omega
  · exact Bool.noConfusion off

/-- The core after a LOSS record, when one is due and fits. -/
theorem State.lossRecord_none {s : State} {core : Nat} (quiet : (s.core core).traceLoss = 0 ∨ 126 < (s.core core).trace.length) :
    (s.lossRecord core).core core = s.core core := by
  unfold State.lossRecord
  rw [State.core_modCore, if_pos rfl]
  refine if_neg ?_
  rw [Bool.and_eq_true, decide_eq_true_eq, decide_eq_true_eq]
  omega

theorem State.lossRecord_some {s : State} {core : Nat} (lost : (s.core core).traceLoss ≠ 0) (room : (s.core core).trace.length ≤ 126) :
    (s.lossRecord core).core core = { s.core core with
      trace := (s.core core).trace ++ [traceRec s.time 0 0 (s.core core).traceLoss 0 0 (handleOf (gidOf core 0 0)) 0 false 3], traceLoss := 0 } := by
  unfold State.lossRecord
  rw [State.core_modCore, if_pos rfl]
  refine if_pos ?_
  rw [Bool.and_eq_true, decide_eq_true_eq, decide_eq_true_eq]
  omega

end Sys2Proof.Machine

open Sys2Proof Sys2Proof.Machine Sys2Proof.Laws

/-- Settles O43. -/
theorem measureWords : Obligations.MeasureWords := by
  intro h d a tag all form s g pc E S X ready sr sn mk sc k v R mark smp
  have place : ∀ i, (E i).tid = g.tid ∧ (E i).core = g.core ∧ (E i).ctx = g.ctx := fun i => Group.entered_place g (info i)
  have isSup : ∀ i, (E i).isSup = g.isSup := fun i => by
    unfold Group.isSup
    rw [show (E i).level = g.level from (Group.entered_fences g (info i)).2.2]
  refine ⟨fun ⟨hr, busy⟩ runs => hr.splitReads busy ?_ runs, fun c p j cause => c.countAt_counts p cause _ (by cases p <;> rfl), fun ⟨hr, busy⟩ good free => ?_,
    fun user => ⟨?_, ?_⟩, fun ⟨hr, busy⟩ => ⟨fun marks => ?_, fun user off => ?_⟩, fun ⟨hr, busy⟩ runs => ?_, fun on core port => ?_, fun core r => ?_⟩
  · unfold State.splitRead
    rw [show (g.entered (info (Instr.splitrd h d a form))).isSup = g.isSup from isSup sr, show (g.entered (info (Instr.splitrd h d a form))).core = g.core from (place sr).2.1,
      show (g.entered (info (Instr.splitrd h d a form))).ctx = g.ctx from (place sr).2.2]
    cases form <;> rfl
  · have calm : Calm (S sn) R.2 := State.reachPieces_calm _ _ _ _
    have steady : Steady s.focus (S sn) (R.2.putPieces (E sn) (R.2.snapshot (E sn) all) R.1) := Steady.ofCalm _ (calm.trans (State.putPieces_calm _ _ _ _))
    have time : R.2.time = s.time := by
      unfold State.time
      rw [calm.pkg]
      rfl
    have pkg : (R.2.putPieces (E sn) (R.2.snapshot (E sn) all) R.1).pkg = s.pkg := (State.putPieces_calm _ _ _ _).pkg.trans calm.pkg
    refine ⟨(R.2.putPieces (E sn) (R.2.snapshot (E sn) all) R.1).free + 1, ?_⟩
    have later := (R.2.putPieces (E sn) (R.2.snapshot (E sn) all) R.1).freeDue_later
    rw [pkg] at later
    rw [← time]
    exact hr.starts rfl busy _ _ _ false (W.splitsnap_writes (W.begin_ex busy) hr.wet rfl good free) (steady.trans (Steady.ofGroups _ rfl)) _ later
  · exact s.snapshot_user g user
  · exact s.snapshot_all g
  · have body := W.mark_adds (w := W.begin (info mk) s g pc) (tag := tag) (a := a) (W.begin_ex busy) hr.wet
      (by rw [show (W.begin (info mk) s g pc).g.isSup = g.isSup from isSup mk, show (W.begin (info mk) s g pc).g.ctx = g.ctx from (place mk).2.2]; exact marks)
    rw [show (W.begin (info mk) s g pc).g.core = g.core from (place mk).2.1, show (W.begin (info mk) s g pc).g.ctx = g.ctx from (place mk).2.2] at body
    exact hr.does rfl _ body (Steady.ofCalm _ (State.traceAdd_calm _ _ _))
  · exact hr.nothing rfl (W.mark_skips ((isSup mk).trans user) (by rw [show (W.begin (info mk) s g pc).g.ctx = g.ctx from (place mk).2.2]; exact off))
  · have set : (S sc).withSampling (E sc) smp = if g.isSup then S sc else (S sc).modCtx g.ctx (fun c => { c with smpctl := smp }) := by
      unfold State.withSampling
      rw [isSup sc, (place sc).2.2]
    have calm := (S sc).withSampling_calm (E sc) smp
    have body := W.sampcfg_sets (w := W.begin (info sc) s g pc) (d := d) (a := a) (W.begin_ex busy) hr.wet rfl
    rw [show (W.begin (info sc) s g pc).g.isSup = g.isSup from isSup sc, show (W.begin (info sc) s g pc).g.ctx = g.ctx from (place sc).2.2] at body
    rw [← set]
    have pkg : ((S sc).withSampling (E sc) smp).pkg = s.pkg := calm.pkg
    have pick : ((S sc).withSampling (E sc) smp |>.freePick (2 * ((S sc).withSampling (E sc) smp).pkg.freq)).1 < 2 * s.pkg.freq := by
      rw [pkg]
      exact Nat.mod_lt _ (by omega)
    refine ⟨_, hr.starts rfl busy _ _ _ false body ((Steady.ofCalm _ calm).trans (Steady.ofGroups _ rfl)) _ ⟨Nat.lt_of_lt_of_le (Nat.lt_succ_self _) (Nat.le_add_right _ _), ?_⟩⟩
    have most := Nat.add_le_add_left (Nat.succ_le_of_lt pick) s.pkg.clock
    rw [Nat.succ_eq_one_add, ← Nat.add_assoc] at most
    exact most
  · intro c x period takes
    have takes_iff : s.sampled core port c = true ↔ takes := s.sampled_iff core port c
    refine ⟨fun is gid rgn ret cand => event_next (f := fun s => s.sampleSlot core port (s.slotCharge core port)) on rfl (State.sampleSlot_group (takes_iff.2 is) cand),
      fun is cand => event_next (f := fun s => s.sampleSlot core port (s.slotCharge core port)) on rfl (State.sampleSlot_empty (takes_iff.2 is) cand),
      fun not => event_next (f := fun s => s.sampleSlot core port (s.slotCharge core port)) on rfl (if_neg (mt takes_iff.1 not)),
      ⟨fun near => event_next (f := fun s => s.overflowFold core port) on rfl (if_pos ((Core.overflows_iff _ _).2 near)),
        fun far => event_next (f := fun s => s.overflowFold core port) on rfl (if_neg fun is => ?_)⟩, ?_⟩
    · obtain ⟨y, in_, at_, high⟩ := (Core.overflows_iff _ _).1 is
      exact absurd (far y in_ at_) (by omega)
    · intro r rest oldest n y on' t
      refine ⟨fun off => ?_, fun runs full => ?_, fun runs room => ?_⟩
      · exact event_next (f := fun s => s.traceTake core) on rfl (State.traceTake_off oldest (Bool.eq_false_iff.2 (mt (Die.traceOn_iff y).1 off)))
      · exact event_next (f := fun s => s.traceTake core) on rfl (State.traceTake_full ((Die.traceOn_iff y).2 runs) ((Die.traceFull_iff y).2 full))
      · exact event_next (f := fun s => s.traceTake core) on rfl
          (State.traceTake_carries oldest rfl ((Die.traceOn_iff y).2 runs) (Bool.eq_false_iff.2 fun full => absurd ((Die.traceFull_iff y).1 full) (by omega)))
  · intro y on
    have added : on → _ := fun runs => s.traceAdd_on (r := r) runs.1 ((Die.traceOn_iff y).2 runs.2)
    refine ⟨fun off => State.traceAdd_off fun ⟨near, runs⟩ => off ⟨near, (Die.traceOn_iff y).1 runs⟩, fun runs full => (added runs).trans (if_pos full), fun runs room => ?_⟩
    rw [(added runs).trans (if_neg (by omega)), State.core_modCore, if_pos rfl]
    refine ⟨fun quiet => ?_, fun lost fits => ?_⟩
    · rw [State.lossRecord_none quiet]
    · rw [State.lossRecord_some lost fits]
      exact ⟨rfl, List.append_assoc _ _ _⟩

end

section
/-! PROOFS of GroupEvents: completions, restarts, sleeps, the stack cache and the kill of an illegal word (R40, R47, R85, R91, R95, R97). -/

namespace Sys2Proof.Machine

theorem State.modGrp_sets {s : State} {gid : Nat} {g : Group} (here : s.grp gid = some g) (f : Group → Group) : s.modGrp gid f = s.setGrp gid (f g) := by
  unfold State.grp at here
  unfold State.modGrp State.setGrp
  rw [here]

/-! ### Completions, restarts and sleeps (R40, R91, R95) -/

/-- The first entry that is due is the one after those that are not. -/
theorem Group.dueP_first {g : Group} {clk : Nat} {l r : List Pend} {p : Pend} (split : g.pends = l ++ p :: r) (before : ∀ q ∈ l, ¬ ∃ t, q.due = some t ∧ t ≤ clk)
    (due : ∃ t, p.due = some t ∧ t ≤ clk) : g.dueP clk = some p := by
  unfold Group.dueP
  rw [split, List.find?_eq_some_iff_append]
  obtain ⟨t, at_, past⟩ := due
  refine ⟨by rw [at_]; exact decide_eq_true past, l, r, rfl, fun q in_ => ?_⟩
  cases is : q.due with
  | none => rfl
  | some u => exact Bool.not_eq_true' _ ▸ decide_eq_false fun past => before q in_ ⟨u, is, past⟩

theorem Group.dueP_none {g : Group} {clk : Nat} (none_ : ∀ q ∈ g.pends, ¬ ∃ t, q.due = some t ∧ t ≤ clk) : g.dueP clk = none := by
  unfold Group.dueP
  rw [List.find?_eq_none]
  intro q in_
  cases is : q.due with
  | none => exact Bool.false_ne_true
  | some u => exact fun past => none_ q in_ ⟨u, is, of_decide_eq_true past⟩

theorem registerComplete_due {s : State} {gid : Nat} {g : Group} {p : Pend} (on : s.pkg.on = true) (here : s.grp gid = some g) (due : g.dueP s.pkg.clock = some p) :
    exec (.registerComplete gid) s = .next ((s.setGrp gid
      { g.putCells p.cells with pends := g.pends.filter (fun q => decide (q.id ≠ p.id)), rsig := g.rsig ^^^ sigItems p }).reap gid) := by
  show execRegisterComplete gid s = _
  unfold execRegisterComplete runEvent
  rw [if_pos on]
  dsimp only
  rw [here]
  dsimp only
  rw [due]
  exact congrArg (fun t : State => Host.Outcome.next (t.reap gid)) (State.modGrp_sets here _)

theorem registerComplete_none {s : State} {gid : Nat} {g : Group} (on : s.pkg.on = true) (here : s.grp gid = some g) (none_ : g.dueP s.pkg.clock = none) :
    exec (.registerComplete gid) s = .next s := by
  show execRegisterComplete gid s = _
  unfold execRegisterComplete runEvent
  rw [if_pos on]
  dsimp only
  rw [here]
  dsimp only
  rw [none_]

/-! ### The stack cache (R85) -/

/-- The dirty bytes that a spill passes on, one after another. -/
theorem State.spill_state (gid : Nat) (g : Group) (far : List (Nat × StkByte)) : ∀ (bad : Bool) (s : State),
    (far.foldl (fun (acc : Bool × State) c => (acc.1 || (acc.2.spillByte gid g true (c.1 % 32) (c.1 / 32) c.2.b).1, (acc.2.spillByte gid g true (c.1 % 32) (c.1 / 32) c.2.b).2))
      (bad, s)).2 = far.foldl (fun (u : State) c => (u.spillByte gid g true (c.1 % 32) (c.1 / 32) c.2.b).2) s := by
  induction far with
  | nil => exact fun _ _ => rfl
  | cons c t ih => exact fun _ _ => ih _ _

theorem State.spillOutside_eq {s t : State} {gid : Nat} {g : Group} (here : s.grp gid = some g)
    (ht : t = (g.stk.filter (fun c => c.2.dirty && !inWindow (g.lspOf (c.1 % 32)).toNat (c.1 / 32))).foldl
      (fun (u : State) c => (u.spillByte gid g true (c.1 % 32) (c.1 / 32) c.2.b).2) s) :
    t.grp gid = some g ∧ s.spillOutside gid = t.setGrp gid { g with stk := g.stk.filter (fun c => inWindow (g.lspOf (c.1 % 32)).toNat (c.1 / 32)) } := by
  have still : t.grp gid = some g := by
    subst ht
    exact (Calm.setGrp (Calm.fold (fun u c => State.spillByte_calm u gid g true _ _ _) _ s) gid g here)
  refine ⟨still, ?_⟩
  unfold State.spillOutside State.spill
  rw [State.grpD_of_grp here]
  dsimp only
  rw [State.spill_state, ← ht, State.modGrp_sets still]
  simp only [Bool.not_not]

theorem State.spillByte_put {u t : State} {gid : Nat} {g : Group} {l o : Nat} {b : Byte} {e z f : Nat} (leaf : u.xlate g.who (u.backPtr gid g l o) needW = (.ok e z, t))
    (open_ : leafWb e = false) (place : t.place g.isSup e z (u.backPtr gid g l o) = .mem f) : (u.spillByte gid g true l o b).2 = t.homePut f [b] := by
  unfold State.spillByte
  dsimp only
  rw [leaf]
  dsimp only
  rw [open_, if_neg Bool.false_ne_true, place]

theorem State.spillByte_blocked {u t : State} {gid : Nat} {g : Group} {l o : Nat} {b : Byte} {e z : Nat} (leaf : u.xlate g.who (u.backPtr gid g l o) needW = (.ok e z, t))
    (blocked : leafWb e = true) : (u.spillByte gid g true l o b).2 = t.logStore gid g (ptrOff (u.backPtr gid g l o) (-((vaOf (u.backPtr gid g l o) % 128 : Nat) : Int)))
      (.store [(vaOf (u.backPtr gid g l o) % 128, b)]) none := by
  unfold State.spillByte
  dsimp only
  rw [leaf]
  dsimp only
  rw [blocked, if_pos rfl]

theorem State.spillByte_absent {u t : State} {gid : Nat} {g : Group} {l o : Nat} {b : Byte} {m : Bool} {v : Nat} (leaf : u.xlate g.who (u.backPtr gid g l o) needW = (.absent m v, t)) :
    (u.spillByte gid g true l o b).2 = t.logStore gid g (ptrOff (u.backPtr gid g l o) (-((vaOf (u.backPtr gid g l o) % 128 : Nat) : Int)))
      (.store [(vaOf (u.backPtr gid g l o) % 128, b)]) (some (m, v)) := by
  unfold State.spillByte
  dsimp only
  rw [leaf]
  rfl

/-- One byte of a window brought in, if it is not there yet. -/
def State.fillByte (gid : Nat) (g : Group) (s : State) (x : Nat × Nat) : State :=
  match kget (s.grpD gid).stk (x.2 * 32 + x.1) with
  | some _ => s
  | none => match s.backByte gid g x.1 x.2 with
    | (.bytes [b], s) => s.modGrp gid (fun y => { y with stk := kset y.stk (x.2 * 32 + x.1) ⟨b, false⟩ })
    | r => r.2

/-- The bytes of the lanes' windows. -/
def State.windowBytes (s : State) (g : Group) : List (Nat × Nat) :=
  (lanesOf g.live).flatMap (fun l => (upFrom (g.lspOf l).toNat (min 64 (s.stackTop g - (g.lspOf l).toNat))).map (fun o => (l, o)))

theorem State.fillStack_user {s : State} {gid : Nat} {g : Group} (here : s.grp gid = some g) (user : g.isSup = false) :
    s.fillStack gid = ((s.windowBytes g).foldl (State.fillByte gid g) s).modGrp gid (fun x => { x with fillDue := false }) := by
  unfold State.fillStack
  rw [State.grpD_of_grp here]
  exact if_neg (by rw [user]; exact Bool.false_ne_true)

theorem mem_upFrom (b n o : Nat) : o ∈ upFrom b n ↔ b ≤ o ∧ o < b + n := by
  induction n generalizing b with
  | zero => simp [upFrom]
  | succ n ih =>
    rw [upFrom, List.mem_cons, ih]
    omega

theorem State.mem_windowBytes {s : State} {g : Group} {l o : Nat} (lane : l ∈ lanesOf g.live) (low : (g.lspOf l).toNat ≤ o) (high : o < (g.lspOf l).toNat + 64)
    (inside : o < s.stackTop g) : (l, o) ∈ s.windowBytes g := by
  unfold State.windowBytes
  rw [List.mem_flatMap]
  exact ⟨l, lane, List.mem_map.2 ⟨o, (mem_upFrom _ _ _).2 ⟨low, by omega⟩, rfl⟩⟩

/-- What bringing in one byte does to the group's cache. -/
theorem State.fillByte_cases {u : State} {gid : Nat} {g y : Group} (here : u.grp gid = some y) (l o : Nat) :
    ((u.fillByte gid g (l, o)).grp gid = some y ∧ (kget y.stk (o * 32 + l) ≠ none ∨ ∀ b, (u.backByte gid g l o).1 ≠ .bytes [b])) ∨
    ∃ b, kget y.stk (o * 32 + l) = none ∧ (u.backByte gid g l o).1 = .bytes [b] ∧
      (u.fillByte gid g (l, o)).grp gid = some { y with stk := kset y.stk (o * 32 + l) ⟨b, false⟩ } := by
  have calm := State.backByte_calm u gid g l o
  unfold State.fillByte
  rw [State.grpD_of_grp here]
  dsimp only
  split
  · next c has => exact Or.inl ⟨here, Or.inl (by rw [has]; exact Option.some_ne_none _)⟩
  · next free =>
    split
    · next b t got =>
      rw [got] at calm
      exact Or.inr ⟨b, free, by rw [got], State.grp_modGrp_here (calm.setGrp gid y here) _⟩
    · next other => exact Or.inl ⟨calm.setGrp gid y here, Or.inr fun b is => other b _ (Prod.ext is rfl)⟩

/-- What holds of a group's stack cache while the bytes of its windows come in: every byte it did not have is one that a read of its
backing page gave, clean. -/
def Filled (gid : Nat) (g y : Group) : Prop :=
  { y with stk := g.stk } = g ∧ ∀ k, kget y.stk k = kget g.stk k ∨
    (kget g.stk k = none ∧ ∃ (u : State) (b : Byte), (u.backByte gid g (k % 32) (k / 32)).1 = .bytes [b] ∧ kget y.stk k = some ⟨b, false⟩)

/-- Each byte asked for has come in, or could not be read. -/
def Asked (gid : Nat) (g y : Group) (x : Nat × Nat) : Prop :=
  kget y.stk (x.2 * 32 + x.1) ≠ none ∨ ∃ u : State, ∀ b, (u.backByte gid g x.1 x.2).1 ≠ .bytes [b]

theorem State.fillByte_filled {u : State} {gid : Nat} {g y : Group} (here : u.grp gid = some y) (filled : Filled gid g y) {l o : Nat} (lane : l < 32) :
    ∃ z, (u.fillByte gid g (l, o)).grp gid = some z ∧ Filled gid g z ∧ Asked gid g z (l, o) ∧ ∀ x, Asked gid g y x → Asked gid g z x := by
  obtain ⟨same, bytes⟩ := filled
  rcases State.fillByte_cases (g := g) here l o with ⟨grp, why⟩ | ⟨b, free, got, grp⟩
  · exact ⟨y, grp, ⟨same, bytes⟩, why.imp id (fun none_ => ⟨u, none_⟩), fun _ h => h⟩
  · refine ⟨_, grp, ⟨same, fun k => ?_⟩, Or.inl ?_, fun x asked => asked.imp_left fun has => ?_⟩
    · dsimp only
      rw [kget_kset]
      by_cases eq : k = o * 32 + l
      · rw [if_pos eq]
        have lanes : k % 32 = l ∧ k / 32 = o := by omega
        rw [lanes.1, lanes.2]
        refine Or.inr ⟨?_, u, b, got, rfl⟩
        rcases bytes k with kept | ⟨none_, -⟩
        · rw [← kept, eq]
          exact free
        · exact none_
      · rw [if_neg eq]
        exact bytes k
    · rw [kget_kset_self]
      exact Option.some_ne_none _
    · dsimp only
      rw [kget_kset]
      split
      · exact Option.some_ne_none _
      · exact has

theorem State.fillBytes_filled {gid : Nat} {g : Group} : ∀ (L : List (Nat × Nat)) {u : State} {y : Group}, (∀ x ∈ L, x.1 < 32) → u.grp gid = some y → Filled gid g y →
    ∃ z, (L.foldl (State.fillByte gid g) u).grp gid = some z ∧ Filled gid g z ∧ (∀ x ∈ L, Asked gid g z x) ∧ ∀ x, Asked gid g y x → Asked gid g z x
  | [], _, y, _, here, filled => ⟨y, here, filled, nofun, fun _ h => h⟩
  | (l, o) :: t, _, _, lanes, here, filled => by
    obtain ⟨z, grp, filled, asked, kept⟩ := State.fillByte_filled here filled (lanes (l, o) List.mem_cons_self) (o := o)
    obtain ⟨z', grp', filled', askeds, kept'⟩ := State.fillBytes_filled t (fun x in_ => lanes x (List.mem_cons_of_mem _ in_)) grp filled
    refine ⟨z', grp', filled', fun x in_ => ?_, fun x h => kept' x (kept x h)⟩
    rcases List.mem_cons.1 in_ with rfl | in_
    · exact kept' _ asked
    · exact askeds x in_

theorem stackFill_fills {s : State} {gid : Nat} {g : Group} (on : s.pkg.on = true) (here : s.grp gid = some g) :
    ∃ (t : State) (y : Group), exec (.stackFill gid) s = .next t ∧ t.grp gid = some { y with fillDue := false } ∧ Filled gid g y ∧
      (g.isSup = false → ∀ x ∈ s.windowBytes g, Asked gid g y x) := by
  cases user : g.isSup with
  | true =>
    refine ⟨_, g, event_next (f := fun s => s.fillStack gid) on rfl rfl, ?_, ⟨rfl, fun _ => Or.inl rfl⟩, nofun⟩
    unfold State.fillStack
    rw [State.grpD_of_grp here]
    dsimp only
    rw [user, if_pos rfl, State.grp_modGrp_here here]
  | false =>
    have lanes : ∀ x ∈ s.windowBytes g, x.1 < 32 := fun x in_ => by
      obtain ⟨l, lane, at_⟩ := List.mem_flatMap.1 in_
      obtain ⟨o, -, rfl⟩ := List.mem_map.1 at_
      exact BitVec.lt_of_getLsbD (mem_lanesOf.1 lane)
    obtain ⟨y, grp, filled, asked, -⟩ := State.fillBytes_filled (s.windowBytes g) lanes here ⟨rfl, fun _ => Or.inl rfl⟩
    exact ⟨_, y, event_next (f := fun s => s.fillStack gid) on rfl (State.fillStack_user here user), State.grp_modGrp_here grp _, filled, fun _ => asked⟩

/-! ### The kill of an illegal word (R47) -/

theorem State.illegalKill_eq {s t : State} {gid : Nat} {g : Group} (here : s.grp gid = some g)
    (ht : t = if (s.ctxD g.ctx).ctxstat.getLsbD 3 = true then s
      else s.modCtx g.ctx (fun c => { c with illpc := BitVec.ofNat 64 (8 * (g.issuePc.getD exitPc).toNat), ctxstat := c.ctxstat ||| 8 })) :
    s.illegalKill gid = ((t.chargeIssue gid .issue (g.issuePc.getD exitPc)).setGrp gid
      { g with vpc := lanes32.map (fun _ => exitPc), aside := [], windows := [] }).retireGroup gid := by
  have bit : decide ((s.ctxD g.ctx).ctxstat &&& bitIllegal ≠ 0) = (s.ctxD g.ctx).ctxstat.getLsbD 3 := and_bit _ 3 (by decide)
  have grp : (t.chargeIssue gid .issue (g.issuePc.getD exitPc)).grp gid = some g := by
    have same : (t.chargeIssue gid .issue (g.issuePc.getD exitPc)).groups = s.groups := by
      rw [(State.chargeIssue_kept t gid .issue _).1, ht]
      split <;> rfl
    unfold State.grp
    rw [same]
    exact here
  have state : t = if (s.ctxD g.ctx).ctxstat &&& bitIllegal ≠ 0 then s
      else s.modCtx g.ctx (fun c => { c with illpc := BitVec.ofNat 64 ((g.issuePc.getD exitPc).toNat * 8), ctxstat := c.ctxstat ||| bitIllegal }) := by
    rw [ht, ← bit, Nat.mul_comm 8]
    simp only [decide_eq_true_eq]
    rfl
  unfold State.illegalKill
  rw [here]
  dsimp only
  rw [← state, State.modGrp_sets grp]

end Sys2Proof.Machine

open Sys2Proof Sys2Proof.Machine Sys2Proof.Laws

/-- Settles O44. -/
theorem groupEvents : Obligations.GroupEvents := by
  intro s gid g on here due
  refine ⟨?_,
    fun none_ => registerComplete_none on here (Group.dueP_none none_), fun restart none_ => ?_, fun not => ?_, fun t sleeps => ⟨fun past => ?_, fun before => ?_⟩, ?_,
    fun u l o b => ⟨fun e z t f leaf free place => State.spillByte_put leaf free place, fun e z t leaf blocked => State.spillByte_blocked leaf blocked,
      fun m v t leaf => State.spillByte_absent leaf⟩, ?_, ?_, ?_⟩
  · intro l p r split before is y
    refine ⟨registerComplete_due on here (Group.dueP_first split before is), fun q k => cget_csets _ _ _ _, fun none_ => ?_⟩
    unfold sigItems
    rw [none_]
  · show execRegionRestart gid s = _
    unfold execRegionRestart runEvent
    rw [if_pos on]
    dsimp only
    rw [here]
    have still : (g.restart && g.pends.isEmpty) = true := by
      rw [restart, none_]
      rfl
    exact congrArg Host.Outcome.next ((if_pos still).trans (State.modGrp_sets here _))
  · show execRegionRestart gid s = _
    unfold execRegionRestart runEvent
    rw [if_pos on]
    dsimp only
    rw [here]
    refine congrArg Host.Outcome.next (if_neg ?_)
    rw [Bool.and_eq_true, List.isEmpty_iff]
    rcases not with off | some_
    · rw [off]
      exact fun both => Bool.false_ne_true both.1
    · exact fun both => some_ both.2
  · show execSleepEnd gid s = _
    unfold execSleepEnd runEvent
    rw [if_pos on]
    dsimp only
    rw [State.modGrp_sets here, sleeps]
    exact congrArg (fun y => Host.Outcome.next (s.setGrp gid y)) (if_pos past)
  · show execSleepEnd gid s = _
    unfold execSleepEnd runEvent
    rw [if_pos on]
    dsimp only
    rw [State.modGrp_sets here, sleeps]
    exact congrArg (fun y => Host.Outcome.next (s.setGrp gid y)) (if_neg (by omega))
  · intro far
    obtain ⟨still, eq⟩ := State.spillOutside_eq here rfl
    exact ⟨_, event_next (f := fun s => s.spillOutside gid) on rfl eq, rfl, still⟩
  · obtain ⟨t, y, runs, grp, ⟨same, bytes⟩, asked⟩ := stackFill_fills on here
    refine ⟨t, _, runs, grp, rfl, fun k c has => ?_, ?_, fun user l lane o low high inside free => ?_⟩
    · rcases bytes k with kept | ⟨none_, -⟩
      · exact kept.trans has
      · rw [has] at none_
        exact absurd none_ (Option.some_ne_none c)
    · exact congrArg (fun q : Group => { q with fillDue := g.fillDue }) same
    · rcases asked user _ (State.mem_windowBytes lane low high inside) with has | none_
      · have lane32 : l < 32 := BitVec.lt_of_getLsbD (mem_lanesOf.1 lane)
        rcases bytes (o * 32 + l) with kept | ⟨-, u, b, got, at_⟩
        · exact absurd (kept.trans free) has
        · rw [show (o * 32 + l) % 32 = l by omega, show (o * 32 + l) / 32 = o by omega] at got
          exact Or.inl ⟨u, b, got, at_⟩
      · exact Or.inr none_
  · show execTouchWindowClose gid s = _
    unfold execTouchWindowClose runEvent
    rw [if_pos on]
    dsimp only
    rw [State.modGrp_sets here]
  · intro pc t
    exact event_next (f := fun s => s.illegalKill gid) on rfl (State.illegalKill_eq here rfl)

end

section
/-! PROOFS of MemoryEvents: page walks, access counts, notifications, the Groomer and memory errors (R148, R150, R151, R156, R160, R175, R176). -/

namespace Sys2Proof.Machine

/-! ### Page walks (R156, R160, R370) -/

theorem State.walkFrom_mem {s t : State} (same : t.mem = s.mem) (va : Nat) : ∀ r table, t.walkFrom va r table = s.walkFrom va r table
  | 0, _ => rfl
  | r + 1, table => by
    unfold State.walkFrom
    dsimp only
    rw [State.num_eq same, State.walkFrom_mem same va r]

theorem State.ccl_modCcl (s : State) (k j : Nat) (f : CCluster → CCluster) : (s.modCcl k f).ccl j = if j = k then f (s.ccl k) else s.ccl j := by
  unfold State.modCcl State.ccl
  rw [kget_kset]
  split <;> rfl

theorem State.tlbRoom_sub (s : State) (k z : Nat) {u : TlbEntry} (in_ : u ∈ s.tlbRoom k z) : u ∈ (s.ccl k).tlb := by
  unfold State.tlbRoom at in_
  dsimp only at in_
  generalize (if z = 16 then 4096 else 256) = most at in_
  split at in_
  · exact in_
  · split at in_
    · exact in_
    · exact List.mem_of_mem_erase in_

theorem State.touchDies_ccl (s : State) (ctx e k : Nat) : (s.touchDies ctx e).ccl k = s.ccl k := by
  unfold State.touchDies
  split <;> rfl

/-- The touched dies of a context after a leaf (R370). -/
theorem State.touchDies_mask {s : State} {ctx e : Nat} (some_ : (s.ctx ctx).isSome = true) (hbm : leafHome e ≠ 15) :
    ((s.touchDies ctx e).ctxD ctx).tdmask = (s.ctxD ctx).tdmask ||| BitVec.ofNat 32 (2 ^ (8 + leafHome e)) |||
      (if leafM e then BitVec.ofNat 32 (2 ^ (8 + leafMhome e)) else 0) := by
  obtain ⟨c, has⟩ := Option.isSome_iff_exists.1 some_
  have has' : kget s.ctxs ctx = some c := has
  unfold State.touchDies
  rw [if_neg hbm]
  unfold State.modCtx State.ctxD
  dsimp only
  rw [kget_kmod, if_pos rfl, has']
  rfl

/-- The bit of a die in the touched dies. -/
theorem dieBit_set {h : Nat} (inside : h < 16) : (BitVec.ofNat 32 (2 ^ (8 + h))).getLsbD (8 + h) = true := by
  rw [BitVec.getLsbD_ofNat, Nat.testBit_two_pow_self, decide_eq_true (show 8 + h < 32 by omega)]
  rfl

theorem leafHome_lt (e : Nat) : leafHome e < 16 := by
  unfold leafHome
  rw [bitsOf_eq]
  exact Nat.mod_lt _ (by decide)

theorem leafMhome_lt (e : Nat) : leafMhome e < 16 := by
  unfold leafMhome
  rw [bitsOf_eq]
  exact Nat.mod_lt _ (by decide)

theorem State.touchDies_bits {s : State} {ctx e : Nat} (some_ : (s.ctx ctx).isSome = true) (hbm : leafHome e ≠ 15) :
    ((s.touchDies ctx e).ctxD ctx).tdmask.getLsbD (8 + leafHome e) = true ∧
      (leafM e = true → ((s.touchDies ctx e).ctxD ctx).tdmask.getLsbD (8 + leafMhome e) = true) := by
  rw [State.touchDies_mask some_ hbm]
  refine ⟨?_, fun mirrored => ?_⟩
  · rw [BitVec.getLsbD_or, BitVec.getLsbD_or, dieBit_set (leafHome_lt e), Bool.or_true, Bool.true_or]
  · rw [if_pos mirrored, BitVec.getLsbD_or, dieBit_set (leafMhome_lt e), Bool.or_true]

/-- The state in which a walk's own leaf is to be entered: no entry of the cluster maps its address. -/
def State.unmapped (s : State) (k ctx : Nat) (ptr : DWord) : State :=
  s.modCcl k (fun c => { c with tlb := c.tlb.filter (fun t => !tlbHit ctx (vaOf ptr) t) })

theorem State.walkDone_leaf {s : State} {k ctx : Nat} {ptr : DWord} {e z : Nat} (leaf : s.walk (s.ctxD ctx).ptroot (vaOf ptr) = .ok e z) :
    (s.walkDone k ctx ptr).2 = { (s.touchDies ctx e).modCcl k (fun c =>
      { c with tlb := (s.touchDies ctx e).tlbRoom k z ++ [⟨ctx, vaOf ptr / 2 ^ z, z, BitVec.ofNat 64 e, 0, (s.touchDies ctx e).serial⟩] }) with
      serial := (s.touchDies ctx e).serial + 1 } := by
  unfold State.walkDone
  dsimp only
  rw [leaf]

theorem pageWalkComplete_runs {s : State} {k ctx : Nat} {ptr : DWord} (on : s.pkg.on = true) (real : k < 56) (some_ : (s.ctx ctx).isSome = true) :
    exec (.pageWalkComplete k ctx ptr) s = .next ((s.unmapped k ctx ptr).walkDone k ctx ptr).2 := by
  show execPageWalkComplete k ctx ptr s = _
  unfold execPageWalkComplete runEvent
  rw [if_pos on]
  exact congrArg Host.Outcome.next (if_pos ⟨real, some_⟩)

/-- The walk from a state without the address's entries finds what it finds before. -/
theorem State.walk_unmapped (s : State) (k ctx : Nat) (ptr : DWord) :
    (s.unmapped k ctx ptr).walk ((s.unmapped k ctx ptr).ctxD ctx).ptroot (vaOf ptr) = s.walk (s.ctxD ctx).ptroot (vaOf ptr) :=
  State.walkFrom_mem rfl _ _ _

theorem State.unmapped_tlb (s : State) (k ctx : Nat) (ptr : DWord) : ((s.unmapped k ctx ptr).ccl k).tlb = (s.ccl k).tlb.filter (fun t => !tlbHit ctx (vaOf ptr) t) := by
  unfold State.unmapped
  rw [State.ccl_modCcl, if_pos rfl]

/-- What the cluster and the context hold after a leaf has entered. -/
theorem State.walkDone_unmapped {s t : State} {k ctx : Nat} {ptr : DWord} {e z : Nat} {new : TlbEntry} (some_ : (s.ctx ctx).isSome = true)
    (leaf : s.walk (s.ctxD ctx).ptroot (vaOf ptr) = .ok e z) (ht : t = ((s.unmapped k ctx ptr).walkDone k ctx ptr).2)
    (hnew : new = ⟨ctx, vaOf ptr / 2 ^ z, z, BitVec.ofNat 64 e, 0, s.serial⟩) :
    (t.ccl k).tlb.find? (tlbHit ctx (vaOf ptr)) = some new ∧ (∀ u ∈ (t.ccl k).tlb, u = new ∨ u ∈ (s.ccl k).tlb) ∧ (∀ j, j ≠ k → t.ccl j = s.ccl j) ∧
      t.mem = s.mem ∧ t.groups = s.groups ∧ (leafHome e ≠ 15 → (t.ctxD ctx).tdmask.getLsbD (8 + leafHome e) = true ∧
        (leafM e = true → (t.ctxD ctx).tdmask.getLsbD (8 + leafMhome e) = true)) := by
  have serial : ((s.unmapped k ctx ptr).touchDies ctx e).serial = s.serial := by
    unfold State.touchDies
    split <;> rfl
  rw [State.walkDone_leaf ((s.walk_unmapped k ctx ptr).trans leaf), serial, ← hnew] at ht
  have ccl : ∀ j, t.ccl j = (((s.unmapped k ctx ptr).touchDies ctx e).modCcl k (fun c => { c with tlb := ((s.unmapped k ctx ptr).touchDies ctx e).tlbRoom k z ++ [new] })).ccl j :=
    fun j => by rw [ht]; rfl
  have tlb : (t.ccl k).tlb = ((s.unmapped k ctx ptr).touchDies ctx e).tlbRoom k z ++ [new] := by
    rw [ccl, State.ccl_modCcl, if_pos rfl]
  have stays : ∀ u ∈ ((s.unmapped k ctx ptr).touchDies ctx e).tlbRoom k z, u ∈ (s.ccl k).tlb ∧ tlbHit ctx (vaOf ptr) u = false := fun u in_ => by
    have left := State.tlbRoom_sub _ _ _ in_
    rw [State.touchDies_ccl, State.unmapped_tlb, List.mem_filter, Bool.not_eq_true'] at left
    exact left
  have hit : tlbHit ctx (vaOf ptr) new = true := by
    rw [hnew]
    unfold tlbHit
    rw [decide_eq_true rfl, decide_eq_true rfl]
    rfl
  refine ⟨?_, fun u in_ => ?_, fun j other => ?_, ?_, ?_, fun hbm => ?_⟩
  · rw [tlb, List.find?_append, List.find?_eq_none.2 (fun u in_ => by rw [(stays u in_).2]; exact Bool.false_ne_true), List.find?_cons_of_pos hit]
    rfl
  · rw [tlb, List.mem_append, List.mem_singleton] at in_
    exact in_.symm.imp_right fun left => (stays u left).1
  · rw [ccl, State.ccl_modCcl, if_neg other, State.touchDies_ccl]
    exact (State.ccl_modCcl s k j _).trans (if_neg other)
  · rw [ht]
    exact State.touchDies_mem _ _ _
  · rw [ht]
    exact (State.touchDies_calm (s.unmapped k ctx ptr) ctx e).groups
  · rw [ht]
    exact State.touchDies_bits (s := s.unmapped k ctx ptr) some_ hbm

theorem State.walkDone_absent {s : State} {k ctx : Nat} {ptr : DWord} {m : Bool} {l : Nat} (none_ : s.walk (s.ctxD ctx).ptroot (vaOf ptr) = .absent m l) :
    ((s.unmapped k ctx ptr).walkDone k ctx ptr).2 = s.unmapped k ctx ptr := by
  unfold State.walkDone
  dsimp only
  rw [(s.walk_unmapped k ctx ptr).trans none_]

/-! ### Access counts and notifications (R175, R176) -/

theorem State.countHit_eq (s : State) (t : TlbEntry) :
    s.countHit t = (decide (0 < (s.ctxD t.ctx).tcfg.toNat % 65536) && decide ((s.ctxD t.ctx).tcfg.toNat % 65536 ≤ t.count)) := by
  unfold State.countHit Ctx.cntthr
  rw [bitsOf_eq, Nat.pow_zero, Nat.div_one]
  rfl

/-- The record of an access count. -/
theorem notifyRec_count (time ptr n k ctx : Nat) :
    notifyRec time ptr (n % 65536) k ctx 1 = time % 2 ^ 64 * 2 ^ 192 + ptr % 2 ^ 64 * 2 ^ 128 + n % 65536 * 2 ^ 112 + k % 64 * 2 ^ 106 + ctx % 512 * 2 ^ 80 + 1 := by
  unfold notifyRec
  rw [field_eq, field_eq, field_eq, field_eq, field_eq, field_eq, show (2 : Nat) ^ 16 = 65536 from rfl, Nat.mod_mod, show (2 : Nat) ^ 6 = 64 from rfl, show (2 : Nat) ^ 9 = 512 from rfl]
  rfl

/-- The record of a die's corrected errors. -/
theorem notifyRec_errors (time n : Nat) {d : Nat} (real : d ≤ 20) : notifyRec time 0 n d 0 2 = time % 2 ^ 64 * 2 ^ 192 + n % 65536 * 2 ^ 112 + d * 2 ^ 106 + 2 := by
  unfold notifyRec
  rw [field_eq, field_eq, field_eq, field_eq, field_eq, field_eq, Nat.mod_eq_of_lt (show d < 2 ^ 6 by omega), show (2 : Nat) ^ 16 = 65536 from rfl, Nat.zero_mod, Nat.zero_mul,
    Nat.zero_mod, Nat.zero_mul, Nat.add_zero, Nat.add_zero]
  rfl

theorem State.countSend_some {s t : State} {k : Nat} {hit : TlbEntry → Bool} (same : s.countHit = hit) (some_ : ∃ t ∈ (s.ccl k).tlb, hit t = true)
    (ht : t = s.modCcl k (fun c => { c with tlb := c.tlb.map (fun t => if hit t then { t with count := 0 } else t) })) :
    s.countSend k = ((s.ccl k).tlb.filter hit).foldl (fun (u : State) x => u.notify (k / 7) (u.time % 2 ^ 64 * 2 ^ 192 + (leafRegion x.leaf.toNat * 2 ^ 56 + x.page * 2 ^ 16) % 2 ^ 64 * 2 ^ 128 +
      (u.ctxD x.ctx).tcfg.toNat % 65536 * 2 ^ 112 + k % 64 * 2 ^ 106 + x.ctx % 512 * 2 ^ 80 + 1)) t := by
  subst ht same
  have going : ¬ ((s.ccl k).tlb.filter s.countHit).isEmpty = true := by
    obtain ⟨t, in_, is⟩ := some_
    rw [List.isEmpty_iff]
    exact List.ne_nil_of_mem (List.mem_filter.2 ⟨in_, is⟩)
  have step : ∀ (u : State) (x : TlbEntry), notifyRec u.time (leafRegion x.leaf.toNat * 2 ^ 56 + x.page * 2 ^ 16) (u.ctxD x.ctx).cntthr k x.ctx 1 =
      u.time % 2 ^ 64 * 2 ^ 192 + (leafRegion x.leaf.toNat * 2 ^ 56 + x.page * 2 ^ 16) % 2 ^ 64 * 2 ^ 128 + (u.ctxD x.ctx).tcfg.toNat % 65536 * 2 ^ 112 + k % 64 * 2 ^ 106 + x.ctx % 512 * 2 ^ 80 + 1 :=
    fun u x => by
      unfold Ctx.cntthr
      rw [bitsOf_eq, Nat.pow_zero, Nat.div_one]
      exact notifyRec_count _ _ _ _ _
  unfold State.countSend
  dsimp only
  rw [if_neg going]
  simp only [step]

theorem State.countSend_none {s : State} {k : Nat} (none_ : ∀ t ∈ (s.ccl k).tlb, s.countHit t = false) : s.countSend k = s := by
  unfold State.countSend
  refine if_pos ?_
  rw [List.isEmpty_iff, List.filter_eq_nil_iff]
  exact fun t in_ => Bool.eq_false_iff.1 (none_ t in_)

/-! ### The Groomer's report (R148) -/

/-- The state in which a frame has been zeroed. -/
def State.groomed (s : State) (d : Nat) (r : GroomReq) : State :=
  { (s.modDie d (fun x => { x with groom := x.groom.erase r })).zeroRange (flatPa 0 r.pa) r.len with
    badWords := s.badWords.filter (fun w => !(decide (flatPa 0 r.pa < w + 8) && decide (w < flatPa 0 r.pa + r.len))) }

theorem groomerReport_due {s : State} {d : Nat} {r : GroomReq} (on : s.pkg.on = true) (due : s.groomDue d = some r) :
    exec (.groomerReport d) s = .next (((s.groomed d r).evalWatches (flatPa 0 r.pa) r.len).answer r.gid r.pend 0) := by
  show execGroomerReport d s = _
  unfold execGroomerReport runEvent
  rw [if_pos on]
  dsimp only
  rw [due]
  rfl

theorem groomerReport_none {s : State} {d : Nat} (on : s.pkg.on = true) (none_ : s.groomDue d = none) : exec (.groomerReport d) s = .next s := by
  show execGroomerReport d s = _
  unfold execGroomerReport runEvent
  rw [if_pos on]
  dsimp only
  rw [none_]

/-! ### Memory errors (R150, R151) -/

theorem State.corrected_full {s : State} {d : Nat} (full : (s.die d).cecnt = 2 ^ 32 - 1) : s.corrected d = s := if_pos full

theorem State.corrected_quiet {s : State} {d : Nat} (room : (s.die d).cecnt ≠ 2 ^ 32 - 1) (quiet : (s.die d).cethr = 0 ∨ ((s.die d).cecnt + 1) % (s.die d).cethr ≠ 0) :
    s.corrected d = s.modDie d (fun y => { y with cecnt := (s.die d).cecnt + 1 }) := by
  unfold State.corrected
  dsimp only
  rw [if_neg room]
  exact if_neg fun both => quiet.elim both.1 (fun h => h both.2)

theorem State.corrected_sends {s : State} {d q : Nat} (room : (s.die d).cecnt ≠ 2 ^ 32 - 1) (set : (s.die d).cethr ≠ 0) (hit : ((s.die d).cecnt + 1) % (s.die d).cethr = 0)
    (queue : (s.modDie d (fun y => { y with cecnt := (s.die d).cecnt + 1 })).notifyDie d = some q) :
    s.corrected d = (s.modDie d (fun y => { y with cecnt := (s.die d).cecnt + 1 })).notify q (notifyRec s.time 0 ((s.die d).cecnt + 1) d 0 2) := by
  unfold State.corrected
  dsimp only
  rw [if_neg room, if_pos ⟨set, hit⟩, queue]
  rfl

theorem State.notifyDie_eq {s : State} {d q : Nat} (is : if d < 8 then q = d else q < 8 ∧ s.dieUp q = true ∧ ∀ j < q, s.dieUp j = false) : s.notifyDie d = some q := by
  unfold State.notifyDie
  by_cases near : d < 8
  · rw [if_pos near] at is ⊢
    rw [is]
  · rw [if_neg near] at is ⊢
    obtain ⟨inside, up, first⟩ := is
    rw [List.find?_range_eq_some]
    exact ⟨up, List.mem_range.2 inside, fun j below => by rw [first j below]; rfl⟩

theorem State.dieUp_modDie {s : State} {d : Nat} {f : Die → Die} (same : (f (s.die d)).st = (s.die d).st) (k : Nat) : (s.modDie d f).dieUp k = s.dieUp k := by
  unfold State.dieUp
  rw [State.die_modDie_eq]
  split
  · next eq => rw [same, eq]
  · rfl

theorem State.mapsIn_mem {s t : State} (same : t.mem = s.mem) (pa : Nat) (hbm : Bool) : ∀ r table va, t.mapsIn pa hbm r table va = s.mapsIn pa hbm r table va
  | 0, _, _ => rfl
  | r + 1, table, va => by
    unfold State.mapsIn
    dsimp only
    simp only [State.num_eq same, State.mapsIn_mem same pa hbm r]

/-- One context's part of a report. -/
def State.reportTo (pa : Nat) (hbm : Bool) (s : State) (c : Nat × Ctx) : State :=
  match s.mapsIn pa hbm 4 (bitsOf c.2.ptroot.toNat 13 39 * 2 ^ 13) 0 with
  | some (va, tag) => s.mchkRecord c.1 (BitVec.ofNat 64 (tag * 2 ^ 56 + va)) pa
  | none => s

theorem State.reportBad_eq (s : State) (flat : Nat) : s.reportBad flat = s.ctxs.foldl (State.reportTo (flat % 2 ^ 52) (decide (flat < 2 ^ 52))) s := by
  refine congrArg (fun f : State → Nat × Ctx → State => s.ctxs.foldl f s) (funext fun u => funext fun c => ?_)
  unfold State.reportTo
  generalize u.mapsIn _ _ _ _ _ = found
  cases found <;> rfl

theorem State.reportTo_none {s : State} {pa : Nat} {hbm : Bool} {c : Nat × Ctx} (none_ : s.mapsIn pa hbm 4 (c.2.ptroot.toNat / 2 ^ 13 % 2 ^ 39 * 2 ^ 13) 0 = none) :
    s.reportTo pa hbm c = s := by
  unfold State.reportTo
  rw [bitsOf_eq, none_]

theorem State.reportTo_some {s : State} {pa : Nat} {hbm : Bool} {c : Nat × Ctx} {va tag : Nat}
    (some_ : s.mapsIn pa hbm 4 (c.2.ptroot.toNat / 2 ^ 13 % 2 ^ 39 * 2 ^ 13) 0 = some (va, tag)) :
    s.reportTo pa hbm c = s.mchkRecord c.1 (BitVec.ofNat 64 (tag * 2 ^ 56 + va)) pa := by
  unfold State.reportTo
  rw [bitsOf_eq, some_]

theorem State.reports_none {pa : Nat} {hbm : Bool} {s : State} (l : List (Nat × Ctx)) (none_ : ∀ c ∈ l, s.mapsIn pa hbm 4 (c.2.ptroot.toNat / 2 ^ 13 % 2 ^ 39 * 2 ^ 13) 0 = none) :
    l.foldl (State.reportTo pa hbm) s = s := by
  induction l with
  | nil => rfl
  | cons c t ih =>
    rw [List.foldl_cons, State.reportTo_none (none_ c List.mem_cons_self)]
    exact ih fun x in_ => none_ x (List.mem_cons_of_mem _ in_)

/-- The state in which a word keeps bad check bits. -/
def State.withBad (s : State) (w : Nat) : State := { s with badWords := if s.badWords.contains w then s.badWords else s.badWords ++ [w] }

theorem State.withBad_bad (s : State) (w : Nat) : (s.withBad w).bad w 8 = true := by
  have in_ : w ∈ (s.withBad w).badWords := by
    show w ∈ (if s.badWords.contains w then s.badWords else s.badWords ++ [w])
    split
    · next has => exact List.contains_iff_mem.1 has
    · exact List.mem_append_right _ (List.mem_singleton.2 rfl)
  unfold State.bad
  rw [List.any_eq_true]
  exact ⟨w, in_, by simp⟩

end Sys2Proof.Machine

open Sys2Proof Sys2Proof.Machine Sys2Proof.Laws

/-- Settles O45. -/
theorem memoryEvents : Obligations.MemoryEvents := by
  intro s on
  refine ⟨fun k ctx ptr real some_ => ⟨fun e z leaf => ⟨_, pageWalkComplete_runs on real some_, State.walkDone_unmapped some_ leaf rfl rfl⟩, fun m l none_ => ?_⟩, ?_, ?_,
    fun d r due => ⟨List.mem_of_find?_eq_some due, of_decide_eq_true (List.find?_some (p := fun g : GroomReq => decide (g.due ≤ s.pkg.clock)) due), s.groomed d r, groomerReport_due on due, ?_, rfl, fun a => State.byte_zeroRange _ _ _ a⟩,
    fun d before => groomerReport_none on (List.find?_eq_none.2 fun r in_ => by rw [decide_eq_true_eq]; exact Nat.not_le.2 (before r in_)), ?_, ?_⟩
  · rw [pageWalkComplete_runs on real some_, State.walkDone_absent none_]
    rfl
  · intro k hit rec_
    have same : s.countHit = hit := funext s.countHit_eq
    exact ⟨fun none_ => event_next (f := fun s => s.countSend k) on rfl (State.countSend_none (same ▸ none_)),
      fun some_ => ⟨_, event_next (f := fun s => s.countSend k) on rfl (State.countSend_some same some_ rfl), rfl⟩⟩
  · intro d v x
    exact ⟨fun off => if_pos off, fun on full => (if_neg on).trans (if_pos full), fun on room => (if_neg on).trans (if_neg room)⟩
  · exact congrArg Die.groom (State.die_modDie s d (fun x => { x with groom := x.groom.erase r }))
  · intro d real x
    have run : ∀ t, s.corrected d = t → exec (.correctedError d) s = .next t := fun t is =>
      event_next (f := fun s => if d ≤ 20 then s.corrected d else s) on rfl ((if_pos real).trans is)
    refine ⟨event_next (f := fun s => if d ≤ 20 then s.ceClear d else s) on rfl (if_pos real), fun full => run _ (State.corrected_full full), ?_⟩
    intro t room
    refine ⟨fun quiet => run _ (State.corrected_quiet room quiet), fun set hit q is => ?_⟩
    have up : ∀ j, t.dieUp j = s.dieUp j := State.dieUp_modDie (f := fun y => { y with cecnt := x.cecnt + 1 }) rfl
    have queue : t.notifyDie d = some q := State.notifyDie_eq (by simpa only [up] using is)
    rw [run _ (State.corrected_sends room set hit queue), notifyRec_errors _ _ real]
  · intro pa w t maps
    have runs : exec (.uncorrectableWriteback pa) s = .next (t.reportBad w) := event_next (f := fun s => (s.withBad (pa / 8 * 8)).reportBad (pa / 8 * 8)) on rfl rfl
    have still : ∀ c : Nat × Ctx, t.mapsIn (w % 2 ^ 52) (decide (w < 2 ^ 52)) 4 (c.2.ptroot.toNat / 2 ^ 13 % 2 ^ 39 * 2 ^ 13) 0 = maps c := fun c => State.mapsIn_mem rfl _ _ _ _ _
    refine ⟨State.withBad_bad s w, fun none_ => ⟨?_, ?_⟩, fun c only va tag some_ => ?_, fun d low high => event_next
      (f := fun s => (s.badWords.filter (fun a => decide (a / 2 ^ 46 = d) && decide (8 ≤ d) && decide (d < 20))).foldl (fun s a => s.reportBad a) s) on rfl ?_⟩
    · rw [runs, State.reportBad_eq, State.reports_none t.ctxs fun c in_ => (still c).trans (none_ c in_)]
    · rw [State.reportBad_eq, State.reports_none s.ctxs none_]
    · rw [runs, State.reportBad_eq, show t.ctxs = [c] from only, List.foldl_cons, List.foldl_nil, State.reportTo_some ((still c).trans some_)]
    · rw [decide_eq_true low, decide_eq_true high]
      simp only [Bool.and_true]

end

section
/-! PROOFS of DieEvents: the loss, drain and reset of a die, links and other packages (R371, R375–R377, R408, R409). -/

namespace Sys2Proof.Machine

/-! ### The loss of a die (R371, R375) -/

theorem State.dieFalls_die (s : State) (d : Nat) (st : DieState) (c : Cause) : ∃ n, (s.dieFalls d st c).die d = { Die.reset with st := st, nextTicket := n } :=
  ⟨_, State.die_modDie _ d (fun x => { Die.reset with st := st, nextTicket := x.nextTicket })⟩

theorem State.dieFalls_st (s : State) (d : Nat) (st : DieState) (c : Cause) : ((s.dieFalls d st c).die d).st = st := by
  obtain ⟨n, is⟩ := s.dieFalls_die d st c
  rw [is]

/-- Every group of every context that depends on a lost die is told (R371). -/
theorem State.tellLoss_grp (s : State) (d : Nat) (c : Cause) (k : Nat) :
    (s.tellLoss d c).grp k = (s.grp k).map (fun g => if ((s.ctxD g.ctx).tdmask).getLsbD d = true ∧ (s.ctx g.ctx).isSome = true ∧ g.isSup = false
      then { g with asyncs := g.asyncs ++ [⟨0, c, 0, 0, 0, 7, d, false⟩] } else g) := by
  unfold State.tellLoss State.grp
  dsimp only
  rw [kget_kmap]
  refine congrArg (fun f => Option.map f (kget s.groups k)) (funext fun g => ?_)
  simp only [Bool.and_eq_true, Bool.not_eq_true', and_assoc]
  rfl

/-- The package record after a die under reset is lost: the reset is over. -/
def Pkg.resetLost (d : Nat) (p : Pkg) : Pkg := if p.fmdie = some d then { p with fmdie := none, fmres := 0 } else p

theorem Pkg.resetLost_fmdie (d : Nat) (p : Pkg) : (p.resetLost d).fmdie ≠ some d := by
  unfold Pkg.resetLost
  split
  · exact nofun
  · assumption

theorem State.dieLoss_up {s : State} {d : Nat} (other : d ≠ 20) (up : (s.die d).st = .up) : s.dieLoss d = (s.dieFalls d .lost .dieLost).cutOff := by
  unfold State.dieLoss
  rw [if_neg other, up]

theorem State.dieLoss_drain {s : State} {d : Nat} (other : d ≠ 20) (drains : (s.die d).st = .drain) :
    s.dieLoss d = ((s.dieFalls d .lost .dieLost).modPkg (Pkg.resetLost d)).cutOff := by
  unfold State.dieLoss
  rw [if_neg other, drains]
  rfl

theorem State.dieLoss_none {s : State} {d : Nat} (other : d ≠ 20) (gone : (s.die d).st = .down ∨ (s.die d).st = .lost) : s.dieLoss d = s := by
  unfold State.dieLoss
  rw [if_neg other]
  rcases gone with gone | gone <;> rw [gone]

/-! ### The drain of a die (R376) -/

/-- The package record after a die's drain: a reset of the die is over, and the die has not started again. -/
def Pkg.drained (d : Nat) (p : Pkg) : Pkg :=
  { p with fmres := if p.fmdie = some d then 0 else p.fmres, fmdie := if p.fmdie = some d then none else p.fmdie, booted := p.booted.filter (fun x => decide (x ≠ d)) }

theorem Pkg.drained_fmdie (d : Nat) (p : Pkg) : (p.drained d).fmdie ≠ some d := by
  unfold Pkg.drained
  dsimp only
  split
  · exact nofun
  · assumption

theorem not_mem_filter_ne (l : List Nat) (d : Nat) : d ∉ l.filter (fun x => decide (x ≠ d)) := by simp

theorem State.drainOver_iff (s : State) (d : Nat) : s.drainOver d = true ↔ (s.die d).st = .drain ∧ (s.die d).drainUntil ≤ s.pkg.clock := by
  unfold State.drainOver
  rw [Bool.and_eq_true, decide_eq_true_eq, decide_eq_true_eq]

theorem drainDone_runs {s : State} {d : Nat} (on : s.pkg.on = true) (drained : s.drainOver d = true) :
    exec (.drainDone d) s = .next (((s.dieFalls d .down .dieLost).cutOff).modPkg (Pkg.drained d)) := by
  show execDrainDone d s = _
  unfold execDrainDone runEvent
  rw [if_pos on]
  exact congrArg Host.Outcome.next (if_pos drained)

theorem drainDone_early {s : State} {d : Nat} (on : s.pkg.on = true) (early : s.drainOver d = false) : exec (.drainDone d) s = .next s := by
  show execDrainDone d s = _
  unfold execDrainDone runEvent
  rw [if_pos on]
  exact congrArg Host.Outcome.next (if_neg (Bool.eq_false_iff.1 early))

/-! ### Reset requests (R376) -/

/-- What a die's leaving UP keeps: the package and the dies. -/
theorem State.shootTake_dies (s : State) (id d : Nat) (dead : Bool) : (s.shootTake id d dead).dies = s.dies ∧ (s.shootTake id d dead).pkg = s.pkg := by
  unfold State.shootTake State.shootDone
  dsimp only
  split
  · exact ⟨rfl, rfl⟩
  · split <;> exact ⟨rfl, rfl⟩

theorem State.shootTakes_dies (d : Nat) (l : List (Nat × Shoot)) : ∀ s : State, (l.foldl (fun s h => s.shootTake h.1 d true) s).dies = s.dies ∧
    (l.foldl (fun s h => s.shootTake h.1 d true) s).pkg = s.pkg := by
  induction l with
  | nil => exact fun _ => ⟨rfl, rfl⟩
  | cons h t ih =>
    intro s
    have one := s.shootTake_dies h.1 d true
    exact ⟨(ih _).1.trans one.1, (ih _).2.trans one.2⟩

theorem State.leaveUp_dies (s : State) (d : Nat) : (s.leaveUp d).dies = (s.modDie d (fun x => { x with posts := [], applying := false })).dies ∧ (s.leaveUp d).pkg = s.pkg :=
  State.shootTakes_dies d _ _

theorem State.leaveUp_posts (s : State) (d : Nat) : ((s.leaveUp d).die d).posts = [] := by
  have die : (s.leaveUp d).die d = (s.modDie d (fun x => { x with posts := [], applying := false })).die d := by
    unfold State.die
    rw [(s.leaveUp_dies d).1]
  rw [die, State.die_modDie]

theorem State.fmRequest_refused {s : State} {v : Word} (bad : s.pkg.fmdie.isSome = true ∨ 20 ≤ v.toNat % 32) : s.fmRequest v = s.modPkg (fun p => { p with fmres := 3 }) :=
  if_pos bad

section
variable {s : State} {v : Word} {d m : Nat} (hd : v.toNat % 32 = d) (idle : s.pkg.fmdie = none) (inside : d < 20)
include hd idle inside

theorem State.fmRequest_cuts (hm : (s.cutBy d).foldl (fun m x => m + 2 ^ x) 0 = m) (up : (s.die d).st = .up) (cuts : s.cutBy d ≠ []) (asks : v.getLsbD 31 = false) :
    s.fmRequest v = s.modPkg (fun p => { p with fmres := 2, fmcut := m }) := by
  subst hd hm
  have go : (!(s.cutBy (v.toNat % 32)).isEmpty && !v.getLsbD 31) = true := by
    rw [asks, Bool.and_eq_true, Bool.not_eq_true', List.isEmpty_eq_false_iff]
    exact ⟨cuts, rfl⟩
  unfold State.fmRequest
  dsimp only
  rw [if_neg (by rw [idle]; simp; omega), up]
  exact if_pos go

theorem State.fmRequest_drains (hm : (s.cutBy d).foldl (fun m x => m + 2 ^ x) 0 = m) (up : (s.die d).st = .up) (goes : s.cutBy d = [] ∨ v.getLsbD 31 = true) :
    s.fmRequest v = ((({ s with free := s.free + 1 } : State).leaveUp d).modDie d (fun x => { x with
      st := .drain, drainUntil := (({ s with free := s.free + 1 } : State).leaveUp d).pkg.clock + 1 + Config.freeTime s.free % (100 * s.pkg.freq) })).modPkg (fun p =>
        { p with fmres := 1, fmcut := m, fmdie := some d }) := by
  subst hd hm
  have go : ¬ (!(s.cutBy (v.toNat % 32)).isEmpty && !v.getLsbD 31) = true := by
    rw [Bool.and_eq_true, Bool.not_eq_true', Bool.not_eq_true', List.isEmpty_eq_false_iff]
    rintro ⟨cuts, asks⟩
    rcases goes with none_ | force
    · exact cuts none_
    · rw [asks] at force
      exact Bool.false_ne_true force
  unfold State.fmRequest
  dsimp only
  rw [if_neg (by rw [idle]; simp; omega), up]
  exact if_neg go

theorem State.fmRequest_lost (lost : (s.die d).st = .lost) : s.fmRequest v =
    (s.modDie d (fun x => { x with st := .down })).modPkg (fun p => { p with fmres := 0, fmcut := 0, booted := p.booted.filter (fun x => decide (x ≠ d)) }) := by
  subst hd
  unfold State.fmRequest
  dsimp only
  rw [if_neg (by rw [idle]; simp; omega), lost]

theorem State.fmRequest_down (down : (s.die d).st = .down) : s.fmRequest v = s.modPkg (fun p => { p with fmres := 0, fmcut := 0 }) := by
  subst hd
  unfold State.fmRequest
  dsimp only
  rw [if_neg (by rw [idle]; simp; omega), down]

end

end Sys2Proof.Machine

open Sys2Proof Sys2Proof.Machine Sys2Proof.Laws

/-- Settles O46. -/
theorem dieEvents : Obligations.DieEvents := by
  intro s on
  refine ⟨?_, fun d other => ⟨fun up => ?_, fun drains => ?_, fun gone => ?_⟩, fun d st c => s.dieFalls_die d st c, fun d c k => s.tellLoss_grp d c k,
    fun d drains => ⟨fun past => ?_, fun early => ?_⟩, ?_, fun a b n => ⟨if_pos on, if_pos on⟩, fun pa port => ⟨if_pos on, fun pkg => ?_, fun other => ?_⟩⟩
  · intro off
    exact ⟨rfl, event_next (f := fun s => s.packageOff) on rfl rfl, event_next (f := fun s => s.packageOff) on rfl rfl, event_next (f := fun s => s.dieLoss 20) on rfl (if_pos rfl)⟩
  · exact event_next (f := fun s => s.dieLoss d) on rfl (State.dieLoss_up other up)
  · exact ⟨_, event_next (f := fun s => s.dieLoss d) on rfl (State.dieLoss_drain other drains), Pkg.resetLost_fmdie d _, s.dieFalls_st d .lost .dieLost⟩
  · exact event_next (f := fun s => s.dieLoss d) on rfl (State.dieLoss_none other gone)
  · exact ⟨_, drainDone_runs on ((s.drainOver_iff d).2 ⟨drains, past⟩), not_mem_filter_ne _ d, Pkg.drained_fmdie d _, Pkg.drained d, rfl⟩
  · exact drainDone_early on (Bool.eq_false_iff.2 fun is => Nat.not_le.2 early ((s.drainOver_iff d).1 is).2)
  · intro v d cut m
    have run : ∀ {t}, s.fmRequest v = t → exec (.fmResetRequest v) s = .next t := fun is => event_next (f := fun s => s.fmRequest v) on rfl is
    refine ⟨fun bad => run (State.fmRequest_refused bad), fun idle inside => ⟨fun up cuts asks => run (State.fmRequest_cuts rfl idle inside rfl up cuts asks),
      fun up goes runs => ⟨_, run (State.fmRequest_drains rfl idle inside rfl up goes), rfl, rfl, rfl, ?_⟩, fun lost => ⟨_, run (State.fmRequest_lost rfl idle inside lost), ?_, rfl, not_mem_filter_ne _ d⟩,
      fun down => run (State.fmRequest_down rfl idle inside down)⟩⟩
    · have left := ({ s with free := s.free + 1 } : State).leaveUp_dies d
      have pick : Config.freeTime s.free % (100 * s.pkg.freq) < 100 * s.pkg.freq := Nat.mod_lt _ (by omega)
      have clock : (({ s with free := s.free + 1 } : State).leaveUp d).pkg.clock = s.pkg.clock := congrArg Pkg.clock left.2
      have die := State.die_modDie (({ s with free := s.free + 1 } : State).leaveUp d) d (fun x => { x with
        st := .drain, drainUntil := (({ s with free := s.free + 1 } : State).leaveUp d).pkg.clock + 1 + Config.freeTime s.free % (100 * s.pkg.freq) })
      refine ⟨(congrArg Die.st die).trans rfl, ?_, ?_, (congrArg Die.posts die).trans (State.leaveUp_posts _ d)⟩
      · refine Nat.lt_of_lt_of_eq ?_ (congrArg Die.drainUntil die).symm
        dsimp only
        omega
      · refine Nat.le_trans (Nat.le_of_eq (congrArg Die.drainUntil die)) ?_
        dsimp only
        omega
    · exact congrArg Die.st (State.die_modDie s d (fun x => { x with st := .down }))
  · have target : bitsOf pa 42 8 = pa / 2 ^ 42 % 256 := bitsOf_eq pa 42 8
    by_cases deaf : s.pkg.deaf.contains (pa / 2 ^ 42 % 256) = true
    · refine ⟨s, ?_, List.contains_iff_mem.1 deaf, s.pkg.deaf, rfl⟩
      show execYosonTimeout pa s = _
      unfold execYosonTimeout runEvent
      rw [if_pos on]
      dsimp only
      rw [target]
      exact congrArg Host.Outcome.next (if_neg fun both => by rw [deaf] at both; exact Bool.false_ne_true both.2)
    · refine ⟨s.modPkg (fun p => { p with deaf := p.deaf ++ [pa / 2 ^ 42 % 256] }), ?_, List.mem_append_right _ (List.mem_singleton.2 rfl), _, rfl⟩
      show execYosonTimeout pa s = _
      unfold execYosonTimeout runEvent
      rw [if_pos on]
      dsimp only
      rw [target]
      exact congrArg Host.Outcome.next (if_pos ⟨pkg, by rw [Bool.not_eq_true']; exact Bool.eq_false_iff.2 deaf⟩)
  · show execYosonTimeout pa s = _
    unfold execYosonTimeout runEvent
    rw [if_pos on]
    exact congrArg Host.Outcome.next (if_neg fun both => other both.1)

end

section
/-! PROOFS of EthernetEvents: frames, rules, rings, headroom and ports (R410–R413, R423). -/

namespace Sys2Proof.Machine

/-! ### A rule's fields (R423) -/

theorem ruleW_zero (r : Nat) : ruleW r 0 = r % 2 ^ 64 := by
  unfold ruleW
  rw [bitsOf_eq, Nat.mul_zero, Nat.pow_zero, Nat.div_one]

theorem ruleRing (r : Nat) : bitsOf (ruleW r 0) 56 6 = r / 2 ^ 56 % 64 := by
  rw [ruleW_zero, bitsOf_eq]
  omega

theorem ruleStrip (r : Nat) : bitsOf (ruleW r 0) 42 14 = r / 2 ^ 42 % 2 ^ 14 := by
  rw [ruleW_zero, bitsOf_eq]
  omega

/-! ### Frames received (R410–R413) -/

section
variable {s : State} {port : Nat} {f : List Byte}

theorem State.frameIn_off {ok : Bool} (off : 8 ≤ port ∨ (s.ethp port).en = false) : s.frameIn port f ok = s :=
  if_pos (off.imp_right fun h => by rw [h]; rfl)

variable (real : port < 8) (runs : (s.ethp port).en = true)
include real runs

/-- An enabled port takes a frame in. -/
theorem State.frameIn_on : ¬ (8 ≤ port ∨ (!(s.ethp port).en) = true) := by
  rw [runs]
  rintro (far | off)
  · omega
  · exact Bool.false_ne_true off

theorem State.frameIn_badfcs : s.frameIn port f false = s.modEth port (fun x => { x with badfcs := satInc64 x.badfcs }) := by
  unfold State.frameIn
  dsimp only
  rw [if_neg (State.frameIn_on real runs)]
  rfl

theorem State.frameIn_long (long : 9216 < f.length) :
    s.frameIn port f true = ({ s with free := s.free + 1 } : State).modEth port (fun x => { x with unmatched := satInc64 x.unmatched }) ∨
    s.frameIn port f true = ({ s with free := s.free + 1 } : State).modEth port (fun x => { x with badfcs := satInc64 x.badfcs }) := by
  unfold State.frameIn
  dsimp only
  rw [if_neg (State.frameIn_on real runs), if_neg (by decide), if_pos long]
  exact ite_eq_or_eq _ _ _

theorem State.frameIn_noRule (short : f.length ≤ 9216) (none_ : (s.ethp port).ruleFor f = none) :
    s.frameIn port f true = s.modEth port (fun x => { x with unmatched := satInc64 x.unmatched }) := by
  unfold State.frameIn
  dsimp only
  rw [if_neg (State.frameIn_on real runs), if_neg (by decide), if_neg (Nat.not_lt.2 short), none_]

theorem State.frameIn_noRing {n r k : Nat} (short : f.length ≤ 9216) (rule : (s.ethp port).ruleFor f = some (n, r)) (hk : bitsOf (ruleW r 0) 56 6 = k)
    (none_ : ∀ y, kget (s.ethp port).rings k = some y → y.en = false) :
    s.frameIn port f true = s.modEth port (fun x => { x with unmatched := satInc64 x.unmatched }) := by
  subst hk
  unfold State.frameIn
  dsimp only
  rw [if_neg (State.frameIn_on real runs), if_neg (by decide), if_neg (Nat.not_lt.2 short), rule]
  dsimp only
  cases ring : kget (s.ethp port).rings (bitsOf (ruleW r 0) 56 6) with
  | none => rfl
  | some y => exact if_pos (by rw [none_ y ring]; rfl)

theorem State.frameIn_ring {n r k strip : Nat} {y : EthRing} (short : f.length ≤ 9216) (rule : (s.ethp port).ruleFor f = some (n, r)) (hk : bitsOf (ruleW r 0) 56 6 = k)
    (hs : bitsOf (ruleW r 0) 42 14 = strip) (ring : kget (s.ethp port).rings k = some y) (on : y.en = true) :
    s.frameIn port f true = s.ringTake port (s.ethp port) y ⟨k, n, f, s.time⟩ strip := by
  subst hk hs
  unfold State.frameIn
  dsimp only
  rw [if_neg (State.frameIn_on real runs), if_neg (by decide), if_neg (Nat.not_lt.2 short), rule]
  dsimp only
  rw [ring]
  exact if_neg (by rw [on]; exact Bool.false_ne_true)

end

/-! ### A frame for an enabled ring (R413) -/

section
variable {s : State} {port strip m : Nat} {e : EthPort} {y : EthRing} {h : HeldFrame} {queued : Bool}
  (occ : s.ringOcc y = some m) (hq : e.headroom.any (fun x => decide (x.ring = h.ring)) = queued)
include occ hq

theorem State.ringTake_eq : s.ringTake port e y h strip = if m < y.slots ∧ (!(y.pauses && queued)) = true then s.ringDeliver port y h strip
    else if y.pauses = true ∧ e.held + h.bytes.length ≤ 2 ^ 21 then s.modEth port (fun e => { e with headroom := e.headroom ++ [h] }) else s.ringDrops y 1 := by
  unfold State.ringTake
  rw [occ]
  dsimp only
  rw [hq]

theorem State.ringTake_delivers (room : m < y.slots) (first : y.pauses = false ∨ queued = false) : s.ringTake port e y h strip = s.ringDeliver port y h strip := by
  refine (State.ringTake_eq occ hq).trans (if_pos ⟨room, ?_⟩)
  rcases first with h | h <;> rw [h]
  · rfl
  · rw [Bool.and_false]
    rfl

theorem State.ringTake_holds (full : y.slots ≤ m ∨ queued = true) (pauses : y.pauses = true) (fits : e.held + h.bytes.length ≤ 2 ^ 21) :
    s.ringTake port e y h strip = s.modEth port (fun e => { e with headroom := e.headroom ++ [h] }) := by
  refine (State.ringTake_eq occ hq).trans ((if_neg ?_).trans (if_pos ⟨pauses, fits⟩))
  rintro ⟨room, first⟩
  rcases full with full | is
  · omega
  · rw [pauses, is] at first
    exact Bool.false_ne_true first

theorem State.ringTake_drops (full : y.slots ≤ m) (lost : y.pauses = false ∨ 2 ^ 21 < e.held + h.bytes.length) : s.ringTake port e y h strip = s.ringDrops y 1 := by
  refine (State.ringTake_eq occ hq).trans ((if_neg fun both => absurd both.1 (Nat.not_lt.2 full)).trans (if_neg ?_))
  rintro ⟨pauses, fits⟩
  rcases lost with off | long
  · rw [pauses] at off
    exact Bool.false_ne_true off.symm
  · omega

end

/-! ### Delivery to a ring (R411, R412) -/

/-- A descriptor's bits. -/
theorem descriptor_eq (len rule port time : Nat) (cut : Prop) [Decidable cut] :
    field 0 32 len + field 32 16 rule + field 48 8 port + field 56 8 (if cut then 1 else 0) + field 64 64 time =
      len % 2 ^ 32 + rule % 2 ^ 16 * 2 ^ 32 + port % 2 ^ 8 * 2 ^ 48 + (if cut then 2 ^ 56 else 0) + time % 2 ^ 64 * 2 ^ 64 := by
  rw [field_eq, field_eq, field_eq, field_eq, field_eq, Nat.pow_zero, Nat.mul_one]
  split <;> rfl

theorem State.ringDeliver_puts {s t u : State} {port strip i c base pay : Nat} {y : EthRing} {h : HeldFrame} (idx : s.ringIdx y = some (i, c))
    (head : s.ethHome y.ctx y.rbase = (.ok base, t)) (slot : t.ethHome y.ctx (ptrOff y.rbase ((65536 + y.slotBytes * (i % y.slots) : Nat) : Int)) = (.ok pay, u)) :
    s.ringDeliver port y h strip = (((u.homePut pay ((h.bytes.drop strip).take y.slotBytes)).homePut (base + 4096 + 16 * (i % y.slots))
      (toBytes 16 (min y.slotBytes (h.bytes.drop strip).length % 2 ^ 32 + h.rule % 2 ^ 16 * 2 ^ 32 + port % 2 ^ 8 * 2 ^ 48 +
        (if y.slotBytes < (h.bytes.drop strip).length then 2 ^ 56 else 0) + h.time % 2 ^ 64 * 2 ^ 64))).homePut base (toBytes 4 ((i + 1) % 2 ^ 32))).ringPause port h.ring y := by
  unfold State.ringDeliver
  dsimp only
  rw [idx, head]
  dsimp only [Option.map_some, Option.getD_some]
  rw [slot]
  dsimp only
  rw [List.length_take, descriptor_eq]

/-! ### Held frames (R413) -/

/-- Whether a held frame's ring has no slot free. -/
def State.ringFull (s : State) (e : EthPort) (x : HeldFrame) : Prop := ∃ z n, kget e.rings x.ring = some z ∧ s.ringOcc z = some n ∧ z.slots ≤ n

/-- The ring of a held frame that can be delivered. -/
def State.freeRing (s : State) (e : EthPort) (h : HeldFrame) : Option (HeldFrame × EthRing) :=
  (kget e.rings h.ring).bind (fun r => match s.ringOcc r with
    | some n => if n < r.slots then some (h, r) else none
    | none => some (h, r))

theorem State.headroomNext_eq (s : State) (port : Nat) : s.headroomNext port = (s.ethp port).headroom.findSome? (s.freeRing (s.ethp port)) := by
  unfold State.headroomNext
  refine congrArg (fun p => (s.ethp port).headroom.findSome? p) (funext fun h => ?_)
  unfold State.freeRing
  refine congrArg (fun p => (kget (s.ethp port).rings h.ring).bind p) (funext fun r => ?_)
  cases s.ringOcc r <;> rfl

theorem State.freeRing_full {s : State} {e : EthPort} {x : HeldFrame} (full : s.ringFull e x) : s.freeRing e x = none := by
  obtain ⟨z, n, ring, occ, full⟩ := full
  unfold State.freeRing
  rw [ring, Option.bind_some, occ]
  exact if_neg (Nat.not_lt.2 full)

theorem State.freeRing_free {s : State} {e : EthPort} {h : HeldFrame} {y : EthRing} {m : Nat} (ring : kget e.rings h.ring = some y) (occ : s.ringOcc y = some m) (room : m < y.slots) :
    s.freeRing e h = some (h, y) := by
  unfold State.freeRing
  rw [ring, Option.bind_some, occ]
  exact if_pos room

theorem headroomDeliver_first {s : State} {port : Nat} {h : HeldFrame} {y : EthRing} (on : s.pkg.on = true) (next : s.headroomNext port = some (h, y)) :
    exec (.headroomDeliver port) s = .next ((s.modEth port (fun x => { x with headroom := x.headroom.erase h })).ringDeliver port y h
      ((kget (s.ethp port).rules h.rule).getD 0 / 2 ^ 42 % 2 ^ 14)) := by
  show execHeadroomDeliver port s = _
  unfold execHeadroomDeliver runEvent
  rw [if_pos on]
  dsimp only
  rw [next]
  dsimp only
  rw [ruleStrip]

theorem headroomDeliver_none {s : State} {port : Nat} (on : s.pkg.on = true) (none_ : s.headroomNext port = none) : exec (.headroomDeliver port) s = .next s := by
  show execHeadroomDeliver port s = _
  unfold execHeadroomDeliver runEvent
  rw [if_pos on]
  dsimp only
  rw [none_]

/-! ### A ring's EN (R423) -/

theorem State.ringSwitch_refused {s : State} {port k : Nat} {y : EthRing} (ring : (kget (s.ethp port).rings k).getD EthRing.blank = y) (bad : y.en = true ∨ s.ringOk y = false) :
    s.ringSwitch port k true = s := by
  subst ring
  have stays : ((kget (s.ethp port).rings k).getD EthRing.blank).en = true ∨ (!s.ringOk ((kget (s.ethp port).rings k).getD EthRing.blank)) = true :=
    bad.imp_right fun h => by rw [h]; rfl
  unfold State.ringSwitch
  dsimp only
  rw [if_pos rfl]
  exact if_pos stays

theorem State.ringSwitch_on {s : State} {port k : Nat} {y : EthRing} (ring : (kget (s.ethp port).rings k).getD EthRing.blank = y) (off : y.en = false) (good : s.ringOk y = true) :
    s.ringSwitch port k true = s.modEth port (fun x => { x with rings := kset x.rings k { y with rcfg := y.rcfg ||| 0x8000000000000000 } }) := by
  subst ring
  have goes : ¬ (((kget (s.ethp port).rings k).getD EthRing.blank).en = true ∨ (!s.ringOk ((kget (s.ethp port).rings k).getD EthRing.blank)) = true) := by
    rw [off, good]
    exact fun either => either.elim Bool.false_ne_true Bool.false_ne_true
  unfold State.ringSwitch
  dsimp only
  rw [if_pos rfl]
  exact if_neg goes

theorem State.ringSwitch_off {s : State} {port k : Nat} {y : EthRing} (ring : (kget (s.ethp port).rings k).getD EthRing.blank = y) :
    s.ringSwitch port k false = (if ((s.ethp port).headroom.filter (fun h => decide (h.ring = k))).length = 0 then s
      else s.ringDrops y ((s.ethp port).headroom.filter (fun h => decide (h.ring = k))).length).modEth port (fun x =>
        { x with headroom := x.headroom.filter (fun h => decide (h.ring ≠ k)), rings := kset x.rings k { y with rcfg := y.rcfg &&& 0x7FFFFFFFFFFFFFFF, xoff := false } }) := by
  subst ring
  unfold State.ringSwitch
  dsimp only
  rw [if_neg Bool.false_ne_true]
  rfl

end Sys2Proof.Machine

open Sys2Proof Sys2Proof.Machine Sys2Proof.Laws

/-- Settles O47. -/
theorem ethernetEvents : Obligations.EthernetEvents := by
  intro s port on e unmatched badfcs
  refine ⟨?_, ?_, ?_, fun full => ?_, fun real => ⟨fun up => ?_, ?_, ?_, ?_⟩⟩
  · intro f ok run
    have runs : ∀ {t}, s.frameIn port f ok = t → run = .next t := fun is => event_next (f := fun s => s.frameIn port f ok) on rfl is
    refine ⟨fun off => runs (State.frameIn_off off), fun real enabled => ⟨fun bad => ?_, fun good long => ?_, fun good short => ⟨fun none_ => ?_, fun n r rule => ?_⟩⟩⟩
    · subst bad
      exact runs (State.frameIn_badfcs real enabled)
    · subst good
      rcases State.frameIn_long real enabled long with is | is
      · exact ⟨_, runs is, Or.inl rfl⟩
      · exact ⟨_, runs is, Or.inr rfl⟩
    · subst good
      exact runs (State.frameIn_noRule real enabled short none_)
    · subst good
      intro k
      refine ⟨fun none_ => runs (State.frameIn_noRing real enabled short rule (ruleRing r) none_), fun y m ring active occ => ?_⟩
      intro queued
      have taken := runs (State.frameIn_ring real enabled short rule (ruleRing r) (ruleStrip r) ring active)
      exact ⟨fun room first => taken.trans (congrArg Host.Outcome.next (State.ringTake_delivers occ rfl room first)),
        fun full pauses fits => taken.trans (congrArg Host.Outcome.next (State.ringTake_holds occ rfl full pauses fits)),
        fun full lost => taken.trans (congrArg Host.Outcome.next (State.ringTake_drops (queued := queued) occ rfl full lost))⟩
  · intro y h strip i c base pay t u body slot idx head place
    exact State.ringDeliver_puts idx head place
  · intro l h r y m full split before ring occ room
    refine headroomDeliver_first on ?_
    rw [State.headroomNext_eq, show (s.ethp port).headroom = l ++ h :: r from split, List.findSome?_append,
      List.findSome?_eq_none_iff.2 fun x in_ => State.freeRing_full (before x in_), List.findSome?_cons, State.freeRing_free ring occ room]
    rfl
  · refine headroomDeliver_none on ?_
    rw [State.headroomNext_eq, List.findSome?_eq_none_iff]
    exact fun x in_ => State.freeRing_full (full x in_)
  · exact event_next (f := fun s => if port < 8 then s.modEth port (fun e => { e with link := up }) else s) on rfl (if_pos real)
  · exact event_next (f := fun s => s.clearUnmatched port) on rfl (if_pos real)
  · exact event_next (f := fun s => s.clearBadfcs port) on rfl (if_pos real)
  · intro k inside y held
    have runs : ∀ {en t}, s.ringSwitch port k en = t → exec (.ringEnable port k en) s = .next t := fun {en} _ is =>
      event_next (f := fun s => if port < 8 ∧ k < 64 then s.ringSwitch port k en else s) on rfl ((if_pos ⟨real, inside⟩).trans is)
    exact ⟨fun bad => runs (State.ringSwitch_refused rfl bad), fun off good => runs (State.ringSwitch_on rfl off good), runs (State.ringSwitch_off rfl)⟩

end

section
/-! PROOFS of OutsideEvents: the host, other packages, drives and writes of the control space (R406, R407, R409, R414, R420). -/

namespace Sys2Proof.Machine

/-! ### Accesses from outside (R406, R409, R414) -/

theorem hostMemAccess_runs {s : State} (on : s.pkg.on = true) (write : Bool) (pa : Nat) (b : List Byte) :
    exec (.hostMemAccess write pa b) s = .next (if write = true ∧ pa < 2 ^ 52 ∧ s.dieServes (pa / 2 ^ 46) = true then s.homePut (flatPa 0 pa) b else s) := if_pos on

theorem hostSnoop_runs {s : State} (on : s.pkg.on = true) (pa : Nat) (b : List Byte) :
    exec (.hostSnoop pa b) s = .next (if pa < 2 ^ 50 then s.homePut (flatPa 15 pa) b else s) := if_pos on

/-- Whether a physical address is homed on a die that serves. -/
def State.homedHere (s : State) (pa : Nat) : Bool := decide (pa < 2 ^ 52) && s.dieServes (pa / 2 ^ 46)

theorem State.homedHere_iff (s : State) (pa : Nat) : s.homedHere pa = true ↔ pa < 2 ^ 52 ∧ s.dieServes (pa / 2 ^ 46) = true := by
  unfold State.homedHere
  rw [Bool.and_eq_true, decide_eq_true_eq]

section
variable {s : State} (on : s.pkg.on = true) (pa : Nat)
include on

theorem yosonStore_runs (l : List Byte) : exec (.yosonlinkRequest (.store pa l)) s = .next (if s.homedHere pa = true then s.homePut (flatPa 0 pa) l else s) := if_pos on
theorem yosonAtom_runs (op : AOp) (w : Bool) (b : DWord) : exec (.yosonlinkRequest (.atom pa op w b)) s =
    .next (if s.homedHere pa = true then s.remoteAtom pa (.atom op w) (if w then 8 else 4) b.toNat 0 else s) := if_pos on
theorem yosonFatom_runs (op : FAOp) (b : Word) : exec (.yosonlinkRequest (.fatom pa op b)) s =
    .next (if s.homedHere pa = true then s.remoteAtom pa (.fatom op) 4 b.toNat 0 else s) := if_pos on
theorem yosonCas_runs (w : Bool) (b c : DWord) : exec (.yosonlinkRequest (.cas pa w b c)) s =
    .next (if s.homedHere pa = true then s.remoteAtom pa (.cas w) (if w then 8 else 4) b.toNat c.toNat else s) := if_pos on

end

theorem State.remoteAtom_cas (s : State) (pa : Nat) (w : Bool) (n b c : Nat) :
    s.remoteAtom pa (.cas w) n b c = if s.num (flatPa 0 pa) n = b then s.homePut (flatPa 0 pa) (toBytes n c) else s := by
  unfold State.remoteAtom AtomOp.apply
  dsimp only
  by_cases hit : s.num (flatPa 0 pa) n = b
  · rw [if_pos hit, if_pos hit]
  · rw [if_neg hit, if_neg hit]

theorem nvmeCompletion_runs {s : State} (on : s.pkg.on = true) (ctx : Nat) (p : DWord) (b : List Byte) (toDevice : Bool) :
    exec (.nvmeCompletion ctx p b toDevice) s = .next (if toDevice = true ∧ (s.ctx ctx).isSome = true then s.nvmeWrite ctx (b.length / 65536 + 2) p b else s) := if_pos on

theorem State.nvmeWrite_block {s t : State} {ctx n f : Nat} {p : DWord} {b : List Byte} (some_ : b ≠ []) (home : s.homeOf ctx p needW = (some f, t)) :
    s.nvmeWrite ctx (n + 1) p b = (t.homePut f (b.take (65536 - vaOf p % 65536))).nvmeWrite ctx n (ptrOff p (65536 - vaOf p % 65536 : Nat)) (b.drop (65536 - vaOf p % 65536)) := by
  show (if b.isEmpty then s else _) = _
  rw [if_neg (mt List.isEmpty_iff.1 some_)]
  dsimp only
  rw [home]

theorem State.nvmeWrite_lost {s t : State} {ctx n : Nat} {p : DWord} {b : List Byte} (some_ : b ≠ []) (home : s.homeOf ctx p needW = (none, t)) :
    s.nvmeWrite ctx (n + 1) p b = t.nvmeWrite ctx n (ptrOff p (65536 - vaOf p % 65536 : Nat)) (b.drop (65536 - vaOf p % 65536)) := by
  show (if b.isEmpty then s else _) = _
  rw [if_neg (mt List.isEmpty_iff.1 some_)]
  dsimp only
  rw [home]

/-! ### Writes of the control space (R407, R420) -/

section
variable {s : State} {pa d o : Nat} {v : DWord} {bar : Bool}

theorem State.ctlPerform_misses (hd : pa % 2 ^ 50 / 2 ^ 24 = d) (ho : pa % 2 ^ 24 = o)
    (bad : pa % 8 ≠ 0 ∨ 20 < d ∨ s.dieServes d = false ∨ (bar = true ∧ (d ≠ 20 ∨ 0x410000 ≤ o))) : s.ctlPerform pa v bar = s := by
  subst hd ho
  exact if_pos (bad.imp_right fun h => h.imp_right fun h => h.imp_left fun h => by rw [h]; rfl)

variable (aligned : pa % 8 = 0) (serves : s.dieServes d = true) (hd : pa % 2 ^ 50 / 2 ^ 24 = d) (ho : pa % 2 ^ 24 = o) (real : d ≤ 20) (direct : bar = true → d = 20 ∧ o < 0x410000)
include aligned serves hd ho real direct

/-- A write that reaches its die. -/
theorem State.ctlPerform_reaches : ¬ (pa % 8 ≠ 0 ∨ 20 < pa % 2 ^ 50 / 2 ^ 24 ∨ (!s.dieServes (pa % 2 ^ 50 / 2 ^ 24)) = true ∨
    (bar = true ∧ (pa % 2 ^ 50 / 2 ^ 24 ≠ 20 ∨ 0x410000 ≤ pa % 2 ^ 24))) := by
  rw [hd, ho, serves]
  rintro (h | h | h | ⟨h, far⟩)
  · exact h aligned
  · omega
  · exact Bool.false_ne_true h
  · have near := direct h
    omega

theorem State.ctlPerform_die (high : 0xF00000 ≤ o) : s.ctlPerform pa v bar = s.dieWrite d o v := by
  have reaches := State.ctlPerform_reaches aligned serves hd ho real direct
  subst hd ho
  exact (if_neg reaches).trans (if_pos high)

theorem State.ctlPerform_port (is : d = 20) (low : o < 0x400000) : s.ctlPerform pa v bar = s.portWrite (o / 4096) (o % 4096) v bar := by
  have reaches := State.ctlPerform_reaches aligned serves hd ho real direct
  subst hd ho
  unfold State.ctlPerform
  dsimp only
  rw [if_neg reaches, if_neg (by omega), if_neg (by omega), if_pos low]

theorem State.ctlPerform_mgmt (is : d = 20) (low : 0x400000 ≤ o) (high : o < 0x410000) : s.ctlPerform pa v bar = s.mgmtWrite (o - 0x400000) v := by
  have reaches := State.ctlPerform_reaches aligned serves hd ho real direct
  subst hd ho
  unfold State.ctlPerform
  dsimp only
  rw [if_neg reaches, if_neg (by omega), if_neg (by omega), if_neg (by omega), if_pos high]

theorem State.ctlPerform_cset (is : d = 20) (low : 0x600020 ≤ o) (high : o < 0x602020) : s.ctlPerform pa v bar = s.csetWrite ((o - 0x600000) / 32) (o / 8 % 4) v := by
  have reaches := State.ctlPerform_reaches aligned serves hd ho real direct
  subst hd ho
  unfold State.ctlPerform
  dsimp only
  rw [if_neg reaches, if_neg (by omega), if_neg (by omega), if_neg (by omega), if_neg (by omega), if_neg (by omega), if_pos ⟨low, high⟩]

end

theorem State.mgmtWrite_band (s : State) {n : Nat} (inside : n < 32) (v : DWord) : s.mgmtWrite (8 * n) v = s.modPkg (fun p => { p with bands := kset p.bands n v.toNat }) := by
  unfold State.mgmtWrite
  rw [if_pos (by omega), Nat.mul_div_cancel_left n (by decide)]

end Sys2Proof.Machine

open Sys2Proof Sys2Proof.Machine Sys2Proof.Laws

/-- Settles O48. -/
theorem outsideEvents : Obligations.OutsideEvents := by
  intro s on here
  have homed : ∀ pa, s.homedHere pa = true ↔ here pa := s.homedHere_iff
  refine ⟨fun pa b => ?_, fun pa => ⟨fun n => if_pos on, fun away w b c v l op fop => ?_, fun at_ => ?_⟩, fun ctx p b => ?_, ?_⟩
  · have host := fun w => hostMemAccess_runs on w pa b
    have snoop := hostSnoop_runs on pa b
    exact ⟨(host false).trans (congrArg Host.Outcome.next (if_neg fun h => Bool.false_ne_true h.1)), fun at_ => (host true).trans (congrArg Host.Outcome.next (if_pos ⟨rfl, at_⟩)),
      fun away => (host true).trans (congrArg Host.Outcome.next (if_neg fun h => away h.2)), fun inside => snoop.trans (congrArg Host.Outcome.next (if_pos inside)),
      fun outside => snoop.trans (congrArg Host.Outcome.next (if_neg (Nat.not_lt.2 outside)))⟩
  · have off : ¬ s.homedHere pa = true := mt (homed pa).1 away
    exact ⟨(yosonStore_runs on pa l).trans (congrArg Host.Outcome.next (if_neg off)), (yosonAtom_runs on pa op w b).trans (congrArg Host.Outcome.next (if_neg off)),
      (yosonFatom_runs on pa fop v).trans (congrArg Host.Outcome.next (if_neg off)), (yosonCas_runs on pa w b c).trans (congrArg Host.Outcome.next (if_neg off))⟩
  · have at_ := (homed pa).2 at_
    intro a
    exact ⟨fun l => (yosonStore_runs on pa l).trans (congrArg Host.Outcome.next (if_pos at_)),
      fun op b => ⟨(yosonAtom_runs on pa op true b).trans (congrArg Host.Outcome.next (if_pos at_)), (yosonAtom_runs on pa op false b).trans (congrArg Host.Outcome.next (if_pos at_))⟩,
      fun op b => (yosonFatom_runs on pa op b).trans (congrArg Host.Outcome.next (if_pos at_)),
      fun w b c => (yosonCas_runs on pa w b c).trans (congrArg Host.Outcome.next ((if_pos at_).trans (State.remoteAtom_cas _ _ _ _ _ _)))⟩
  · have run := nvmeCompletion_runs on ctx p b
    exact ⟨(run false).trans (congrArg Host.Outcome.next (if_neg fun h => Bool.false_ne_true h.1)),
      fun none_ => (run true).trans (congrArg Host.Outcome.next (if_neg fun h => by rw [none_] at h; exact Bool.false_ne_true h.2)),
      fun some_ => (run true).trans (congrArg Host.Outcome.next (if_pos ⟨rfl, some_⟩)),
      fun n f t some_ => ⟨fun home => State.nvmeWrite_block some_ home, fun home => State.nvmeWrite_lost some_ home⟩, rfl, rfl⟩
  · intro pa v bar d o run
    have runs : ∀ {t}, s.ctlPerform pa v bar = t → run = .next t := fun is => event_next (f := fun s => s.ctlPerform pa v bar) on rfl is
    refine ⟨fun bad => runs (State.ctlPerform_misses rfl rfl bad), fun aligned serves direct real => ?_, fun aligned serves is => ?_⟩
    · have off : bar = true → d = 20 ∧ o < 0x410000 := fun h => by rw [direct] at h; exact absurd h Bool.false_ne_true
      have die : ∀ k, o = k → 0xF00000 ≤ k → run = .next (s.dieWrite d k v) := fun k at_ high =>
        runs ((State.ctlPerform_die aligned serves rfl rfl real off (show 0xF00000 ≤ o by omega)).trans (congrArg (fun k => s.dieWrite d k v) at_))
      refine ⟨fun at_ => die _ at_ (by decide), fun at_ => (die _ at_ (by decide)).trans ?_, fun at_ c => (die _ at_ (by decide)).trans (congrArg Host.Outcome.next (if_pos (decide_eq_true c))),
        fun at_ c => (die _ at_ (by decide)).trans (congrArg Host.Outcome.next (if_pos (decide_eq_true c))), fun at_ low high => (die _ at_ (by decide)).trans (congrArg Host.Outcome.next (if_pos ?_)),
        fun c w is at_ low high word => runs ?_⟩
      · exact congrArg (fun n => Host.Outcome.next (s.modDie d (fun x => { x with cethr := n }))) (BitVec.toNat_setWidth 32 v)
      · rw [decide_eq_true low, decide_eq_true high]
        rfl
      · have reg := State.ctlPerform_cset (v := v) aligned serves rfl rfl real off is (show 0x600020 ≤ o by omega) (show o < 0x602020 by omega)
        rw [reg, show (pa % 2 ^ 24 - 0x600000) / 32 = c from (show (o - 0x600000) / 32 = c by omega), show pa % 2 ^ 24 / 8 % 4 = w from (show o / 8 % 4 = w by omega)]
    · have serves' : s.dieServes d = true := by rw [is]; exact serves
      have real : d ≤ 20 := by omega
      have port : o < 0x400000 → ∀ p r, o / 4096 = p → o % 4096 = r → run = .next (s.portWrite p r v bar) := fun low p r hp hr => by
        subst hp hr
        exact runs (State.ctlPerform_port aligned serves' rfl rfl real (fun _ => ⟨is, show o < 0x410000 by omega⟩) is low)
      have mgmt : ∀ r, o = 0x400000 + r → r < 0x10000 → run = .next (s.mgmtWrite r v) := fun r at_ inside => by
        have low : 0x400000 ≤ o := by omega
        have high : o < 0x410000 := by omega
        have reg : o - 0x400000 = r := by omega
        exact runs ((State.ctlPerform_mgmt aligned serves' rfl rfl real (fun _ => ⟨is, high⟩) is low high).trans (congrArg (fun r => s.mgmtWrite r v) reg))
      refine ⟨fun p inside => ⟨fun at_ idle => ?_, fun at_ => ?_, fun at_ set => ?_⟩, fun n inside at_ => ?_, fun at_ => ?_, fun at_ => ?_, fun at_ => ?_, fun at_ => ?_⟩
      · exact (port (by omega) p 0 (by omega) (by omega)).trans (congrArg Host.Outcome.next (if_pos idle))
      · exact (port (by omega) p 16 (by omega) (by omega)).trans (if_pos on).symm
      · exact (port (by omega) p 40 (by omega) (by omega)).trans ((congrArg Host.Outcome.next (if_pos set)).trans (if_pos on).symm)
      · exact (mgmt _ at_ (by omega)).trans (congrArg Host.Outcome.next (s.mgmtWrite_band inside v))
      · exact (mgmt 0x100 at_ (by decide)).trans (if_pos on).symm
      · exact mgmt 0x200 at_ (by decide)
      · exact mgmt 0x1000 at_ (by decide)
      · exact mgmt 0x1008 at_ (by decide)

end

section
/-! PROOFS of BootEvents: power-up, images, quotes, the start of a die, clock plans and power (R415, R417–R419, R424, R425). -/

namespace Sys2Proof.Machine

/-! ### Power-up (R375, R415) -/

theorem powerUp_runs (s : State) : exec .powerUp s = .next ((if s.pkg.on then s else s.powerCycle).modPkg (fun p => { p with mbOpen := true })) := rfl

/-- What lies outside the package stays over a power cycle, and nothing else does. -/
theorem State.powerCycle_byte (s : State) (a : Nat) : s.powerCycle.byte a = if 2 ^ 52 ≤ a ∧ a < 2 ^ 53 then s.byte a else 0 := by
  have kept := kget_filter s.mem (fun a => decide (2 ^ 52 ≤ a) && decide (a < 2 ^ 53)) a
  unfold State.byte cget
  refine (congrArg (fun o : Option Byte => o.getD memDefault) kept).trans ?_
  simp only [Bool.and_eq_true, decide_eq_true_eq]
  split <;> rfl

theorem State.powerCycle_die (s : State) (d : Nat) : (s.powerCycle.die d).st = if d = 20 then .up else .down := by
  have dies : s.powerCycle.dies = [(20, { Die.reset with st := .up })] := rfl
  unfold State.die
  rw [dies]
  by_cases at_ : d = 20
  · rw [if_pos at_, at_]
    rfl
  · rw [if_neg at_]
    have none_ : kget [((20 : Nat), { Die.reset with st := .up })] d = none := by
      rw [kget, if_neg (Ne.symm at_)]
      rfl
    rw [none_]
    rfl

/-! ### The mailbox (R424) -/

theorem State.mbServe_closed {s : State} (closed : s.pkg.mbOpen = false) (cmd die : Nat) : s.mbServe cmd die = s := if_pos (by rw [closed]; rfl)

theorem State.mbServe_runs {s : State} {cmd die : Nat} (open_ : s.pkg.mbOpen = true) (free : s.pkg.mbPend = none ∨ s.pkg.mbPend = some (cmd, die)) :
    s.mbServe cmd die = s.mbRun cmd die := by
  unfold State.mbServe
  rw [open_, if_neg (by decide)]
  rcases free with free | free <;> rw [free]
  exact if_pos rfl

theorem State.mbServe_other {s : State} {cmd die : Nat} {x : Nat × Nat} (busy : s.pkg.mbPend = some x) (other : x ≠ (cmd, die)) : s.mbServe cmd die = s := by
  unfold State.mbServe
  cases s.pkg.mbOpen with
  | false => exact if_pos rfl
  | true =>
    rw [if_neg (by decide), busy]
    exact if_neg other

section
variable {s : State} (on : s.pkg.on = true)
include on

theorem loadfe_runs {x : Nat} (of_ : (s.pkg.mbPend.map (fun x => x.2)).getD 0 = x) : exec .loadfe s = .next (s.mbServe 1 x) := by
  subst of_
  exact if_pos on
theorem loaddie_runs (d : Nat) : exec (.loaddie d) s = .next (s.mbServe 2 d) := if_pos on
theorem quote_runs {x : Nat} (of_ : (s.pkg.mbPend.map (fun x => x.2)).getD 0 = x) : exec .quote s = .next (s.mbServe 3 x) := by
  subst of_
  exact if_pos on

end

/-! ### Images (R424) -/

/-- An image is accepted when no check fails. -/
theorem State.imgReason_none (s : State) (cmd d : Nat) (img : List Byte) : s.imgReason cmd d img = none ↔
    s.pkg.mbaddr.toNat + s.pkg.mblen.toNat ≤ 2 ^ 50 ∧ s.bad (flatPa 15 s.pkg.mbaddr.toNat) s.pkg.mblen.toNat = false ∧
      s.pkg.mbaddr.toNat % 4096 = 0 ∧ 4096 ≤ s.pkg.mblen.toNat ∧ s.pkg.mblen.toNat ≤ 2 ^ 28 ∧ imgFormatOk cmd d img = true ∧ imgSignatureOk img = true ∧
      Config.minSecurityVersion cmd ≤ ofBytes ((img.drop 8).take 8) ∧ s.bootOrder cmd d img = true := by
  unfold State.imgReason flatHost imgNum
  dsimp only
  constructor
  · intro accepted
    split at accepted
    · exact nomatch accepted
    · split at accepted
      · exact nomatch accepted
      · split at accepted
        · exact nomatch accepted
        · split at accepted
          · exact nomatch accepted
          · split at accepted
            · exact nomatch accepted
            · next sound form signed recent order =>
              simp only [not_or, Bool.not_eq_true', Bool.not_eq_false, Bool.not_eq_true] at sound form signed order
              exact ⟨by omega, sound.2, by omega, by omega, by omega, form.2.2.2, signed, by omega, order⟩
  · rintro ⟨inside, sound, aligned, low, high, form, signed, recent, order⟩
    rw [if_neg (by rw [sound]; simp; omega), if_neg (by rw [form]; simp; omega), if_neg (by rw [signed]; decide), if_neg (by omega), if_neg (by rw [order]; decide)]

/-- The checks do not depend on the command being served. -/
theorem State.imgReason_pend (s : State) (x : Option (Nat × Nat)) (cmd d : Nat) (img : List Byte) :
    (s.modPkg (fun p => { p with mbPend := x })).imgReason cmd d img = s.imgReason cmd d img := by
  unfold State.imgReason
  rfl

theorem State.mbRun_load {s : State} {cmd d : Nat} (load : cmd ≠ 3) : s.mbRun cmd d = (s.modPkg (fun p => { p with mbPend := none })).loadImage cmd d := if_neg load

section
variable {s : State} {cmd d : Nat} {img : List Byte} (hi : s.bytes (flatPa 15 s.pkg.mbaddr.toNat) s.pkg.mblen.toNat = img) (load : cmd ≠ 3)
include hi load

theorem State.mbRun_rejected {r : Nat} (why : s.imgReason cmd d img = some r) :
    s.mbRun cmd d = s.modPkg (fun p => { p with mbPend := none, mbstat := BitVec.ofNat 32 (768 + r) }) := by
  have why' := (s.imgReason_pend none cmd d img).trans why
  rw [State.mbRun_load load]
  unfold State.loadImage
  dsimp only
  rw [show (s.modPkg (fun p => { p with mbPend := none })).bytes (flatHost (s.modPkg (fun p => { p with mbPend := none })).pkg.mbaddr.toNat)
    (s.modPkg (fun p => { p with mbPend := none })).pkg.mblen.toNat = img from hi, why']
  rfl

theorem State.mbRun_accepted (good : s.imgReason cmd d img = none) : s.mbRun cmd d =
    if cmd = 1 then (((s.modPkg (fun p => { p with mbPend := none, mbstat := 512 })).measure 0 img).modFe (fun e => { e with loaded := true }))
    else ((((s.modPkg (fun p => { p with mbPend := none, mbstat := 512 })).measure (1 + d) img).homePut (flatPhys (imgNum img 24 8)) (img.drop 4096)).modPkg
      (fun p => { p with booted := p.booted ++ [d] })).startDie d (pcOfAddr (BitVec.ofNat 64 (imgNum img 32 8))) (BitVec.ofNat 64 (imgNum img 40 8)) := by
  have good' := (s.imgReason_pend none cmd d img).trans good
  rw [State.mbRun_load load]
  unfold State.loadImage
  dsimp only
  rw [show (s.modPkg (fun p => { p with mbPend := none })).bytes (flatHost (s.modPkg (fun p => { p with mbPend := none })).pkg.mbaddr.toNat)
    (s.modPkg (fun p => { p with mbPend := none })).pkg.mblen.toNat = img from hi, good']
  rfl

end

/-! ### Quotes (R425) -/

theorem padded_length (n : Nat) (l : List Byte) : ((List.range n).map (fun i => l.getD i 0)).length = n := by rw [List.length_map, List.length_range]

theorem State.quoteBody_length (s : State) : s.quoteBody.length = 2888 := by
  unfold State.quoteBody
  dsimp only
  rw [List.length_append, List.length_append, toBytes_length, padded_length, List.length_flatMap]
  simp only [padded_length]
  rfl

theorem State.mbRun_quoteBad {s : State} {x : Nat} (odd : s.pkg.mbaddr.toNat % 64 ≠ 0) : s.mbRun 3 x = s.modPkg (fun p => { p with mbPend := none, mbstat := 772 }) := by
  unfold State.mbRun
  rw [if_pos rfl]
  exact if_pos odd

theorem State.mbRun_quote {s : State} {x : Nat} (aligned : s.pkg.mbaddr.toNat % 64 = 0) :
    s.mbRun 3 x = ((s.modPkg (fun p => { p with mbPend := none })).homePut (flatPa 15 (s.pkg.mbaddr.toNat % 2 ^ 50))
      (s.quoteBody ++ (List.range 96).map (Config.deviceSignature (sha384 s.quoteBody)))).modPkg (fun p => { p with mbstat := 512 }) := by
  unfold State.mbRun
  rw [if_pos rfl]
  exact if_neg (not_not.2 aligned)

/-! ### The start of a die (R357, R375, R424) -/

/-- One supervisor or service core's group is made. -/
def State.startCore (entry : Pc) (s : State) (c : Nat) : State :=
  State.setGrp { s.zeroRange (flatStack c 0 0) 4096 with serial := s.serial + 1 } (gidOf c 0 0) { supGroup entry with core := c, born := s.serial }

theorem State.startCore_grp (entry : Pc) (s : State) (c : Nat) (k : Nat) :
    (s.startCore entry c).grp k = if k = gidOf c 0 0 then some { supGroup entry with core := c, born := s.serial } else s.grp k := kget_kset _ _ _ _

/-- The groups of the cores started. -/
theorem State.startCores_grp (entry : Pc) {c : Nat} : ∀ (L : List Nat) (s : State),
    (c ∈ L ∨ ∃ id, s.grp (gidOf c 0 0) = some { supGroup entry with core := c, born := id }) →
    ∃ id, (L.foldl (State.startCore entry) s).grp (gidOf c 0 0) = some { supGroup entry with core := c, born := id }
  | [], _, has => has.resolve_left nofun
  | k :: t, s, has => by
    refine State.startCores_grp entry t _ ?_
    rw [State.startCore_grp]
    by_cases eq : c = k
    · subst eq
      exact Or.inr ⟨s.serial, if_pos rfl⟩
    · have far : gidOf c 0 0 ≠ gidOf k 0 0 := fun h => eq (by unfold gidOf at h; omega)
      rw [if_neg far]
      exact has.imp_left fun in_ => (List.mem_cons.1 in_).resolve_left eq

theorem State.startCores_dies (entry : Pc) (L : List Nat) : ∀ s : State, (L.foldl (State.startCore entry) s).dies = s.dies := by
  induction L with
  | nil => exact fun _ => rfl
  | cons c t ih => exact fun s => ih _

theorem State.startDie_eq (s : State) (d : Nat) (entry : Pc) (sptr : DWord) :
    s.startDie d entry sptr = (supCores d).foldl (State.startCore entry) (s.modDie d (fun x => { x with st := .up, sptroot := sptr &&& 0x000FFFFFFFFFE000#64 })) := rfl

theorem State.startDie_die (s : State) (d : Nat) (entry : Pc) (sptr : DWord) :
    (s.startDie d entry sptr).die d = { s.die d with st := .up, sptroot := sptr &&& 0x000FFFFFFFFFE000#64 } := by
  rw [State.startDie_eq]
  unfold State.die
  rw [State.startCores_dies]
  exact State.die_modDie s d (fun x => { x with st := .up, sptroot := sptr &&& 0x000FFFFFFFFFE000#64 })

/-! ### Clock plans (R417) -/

/-- The highest candidate that passes a test. -/
theorem find?_candidates {q : Nat → Bool} {k : Nat} (is : q (1700 + 5 * k) = true) : ∀ n, k < n → (∀ j, k < j → j < n → q (1700 + 5 * j) = false) →
    ((List.range n).map (fun k => 1700 + 5 * k)).reverse.find? q = some (1700 + 5 * k)
  | n + 1, inside, above => by
    rw [List.range_succ, List.map_append, List.reverse_append, List.map_singleton, List.reverse_singleton, List.singleton_append]
    by_cases last : k = n
    · rw [← last, List.find?_cons_of_pos is]
    · rw [List.find?_cons_of_neg (Bool.eq_false_iff.1 (above n (by omega) (by omega)))]
      exact find?_candidates is n (by omega) fun j over_ under => above j over_ (by omega)

theorem Pkg.admitted_find (p : Pkg) (target : Nat) :
    p.admitted.find? (fun f => decide (f ≤ target)) = clockCandidates.find? (fun f => !p.meets (20 * f) && decide (f ≤ target)) := by
  unfold Pkg.admitted
  rw [List.find?_filter]
  simp only [Bool.decide_and, Bool.decide_eq_true]

theorem Pkg.admitted_highest {p : Pkg} {target k : Nat} (inside : k ≤ 30) (below : 1700 + 5 * k ≤ target) (clear : p.meets (20 * (1700 + 5 * k)) = false)
    (above : ∀ j, k < j → j ≤ 30 → 1700 + 5 * j ≤ target → p.meets (20 * (1700 + 5 * j)) = true) :
    p.admitted.find? (fun f => decide (f ≤ target)) = some (1700 + 5 * k) := by
  rw [Pkg.admitted_find]
  refine find?_candidates ?_ 31 (by omega) fun j over_ under => ?_
  · rw [clear, decide_eq_true below]
    rfl
  · by_cases under' : 1700 + 5 * j ≤ target
    · rw [above j over_ (by omega) under']
      rfl
    · rw [decide_eq_false under', Bool.and_false]

theorem Pkg.admitted_none {p : Pkg} {target : Nat} (all : ∀ j, j ≤ 30 → 1700 + 5 * j ≤ target → p.meets (20 * (1700 + 5 * j)) = true) :
    p.admitted.find? (fun f => decide (f ≤ target)) = none := by
  rw [Pkg.admitted_find, List.find?_eq_none]
  intro f in_
  unfold clockCandidates at in_
  rw [List.mem_reverse, List.mem_map] at in_
  obtain ⟨j, inside, rfl⟩ := in_
  have inside := List.mem_range.1 inside
  rw [Bool.and_eq_true, decide_eq_true_eq, Bool.not_eq_true']
  rintro ⟨clear, below⟩
  rw [all j (by omega) below] at clear
  exact Bool.noConfusion clear

theorem State.planClock_conflict {s : State} {target : Nat} (meets : [2000, 3125, 25000].any s.pkg.meets = true) : s.planClock target = s.modPkg (fun p => { p with cpst := 2 }) :=
  congrArg (fun p => { s with pkg := p }) (if_pos meets)

theorem State.planClock_some {s : State} {target f : Nat} (clear : [2000, 3125, 25000].any s.pkg.meets = false) (best : s.pkg.admitted.find? (fun f => decide (f ≤ target)) = some f) :
    s.planClock target = s.modPkg (fun p => { p with freq := f, plan := f, cpst := 0 }) := by
  unfold State.planClock State.modPkg
  dsimp only
  rw [if_neg (Bool.eq_false_iff.1 clear), best]

theorem State.planClock_none {s : State} {target : Nat} (clear : [2000, 3125, 25000].any s.pkg.meets = false) (none_ : s.pkg.admitted.find? (fun f => decide (f ≤ target)) = none) :
    s.planClock target = s.modPkg (fun p => { p with cpst := 3 }) := by
  unfold State.planClock State.modPkg
  dsimp only
  rw [if_neg (Bool.eq_false_iff.1 clear), none_]

/-! ### Power measurements (R418, R419) -/

/-- What a step of the clock may do: nothing, or go to an admitted candidate, upward only to the plan. -/
def Stepped (p q : Pkg) : Prop := ∃ f, q = { p with freq := f } ∧ (f = p.freq ∨ p.meets (20 * f) = false) ∧ (p.freq < f → f ≤ p.plan)

theorem Stepped.same (p : Pkg) : Stepped p p := ⟨p.freq, rfl, Or.inl rfl, fun h => absurd h (Nat.lt_irrefl _)⟩

theorem Pkg.admitted_clear {p : Pkg} {f : Nat} (in_ : f ∈ p.admitted) : p.meets (20 * f) = false := by
  have clear := (List.mem_filter.1 in_).2
  rwa [Bool.not_eq_true'] at clear

theorem Pkg.stepDown_stepped (p : Pkg) : Stepped p p.stepDown := by
  unfold Pkg.stepDown
  split
  · next f best =>
    have lower : f < p.freq := of_decide_eq_true (List.find?_some (p := fun f => decide (f < p.freq)) best)
    exact ⟨f, rfl, Or.inr (Pkg.admitted_clear (List.mem_of_find?_eq_some best)), fun h => by omega⟩
  · exact Stepped.same p

theorem Pkg.stepUp_stepped (p : Pkg) : Stepped p p.stepUp := by
  unfold Pkg.stepUp
  split
  · next f best =>
    have bounds := List.find?_some (p := fun f => decide (p.freq < f) && decide (f ≤ p.plan)) best
    rw [Bool.and_eq_true, decide_eq_true_eq, decide_eq_true_eq] at bounds
    exact ⟨f, rfl, Or.inr (Pkg.admitted_clear (List.mem_reverse.1 (List.mem_of_find?_eq_some best))), fun _ => bounds.2⟩
  · exact Stepped.same p

/-- The package record with a measurement taken in, before the clock steps. -/
def Pkg.measured (p : Pkg) (watts : Nat) (temps : List Nat) : Pkg :=
  { p with hot := temps.any (fun t => decide (105 ≤ t)), thr := temps.any (fun t => decide (105 ≤ t)) || decide (p.plim < watts), pHist := (watts :: p.pHist).take 10,
           pLow := if 100 ≤ (if watts * 100 < p.plim * 95 then p.pLow + 1 else 0) then 0 else (if watts * 100 < p.plim * 95 then p.pLow + 1 else 0) }

theorem State.measurePower_cool {s : State} {watts : Nat} {temps : List Nat} (cool : temps.any (fun t => decide (115 ≤ t)) = false) :
    ∃ q, Stepped (s.pkg.measured watts temps) q ∧ s.measurePower watts temps = { s with pkg := q } := by
  have shape : ∃ (a b : Prop) (_ : Decidable a) (_ : Decidable b), s.measurePower watts temps =
      { s with pkg := if a then (s.pkg.measured watts temps).stepDown else if b then (s.pkg.measured watts temps).stepUp else s.pkg.measured watts temps } := by
    unfold State.measurePower
    rw [if_neg (Bool.eq_false_iff.1 cool)]
    exact ⟨_, _, _, _, rfl⟩
  obtain ⟨a, b, _, _, is⟩ := shape
  refine ⟨_, ?_, is⟩
  split
  · exact Pkg.stepDown_stepped _
  · split
    · exact Pkg.stepUp_stepped _
    · exact Stepped.same _

end Sys2Proof.Machine

open Sys2Proof Sys2Proof.Machine Sys2Proof.Laws

/-- Settles O49. -/
theorem bootEvents : Obligations.BootEvents := by
  intro s
  refine ⟨fun on => ?_, fun off => ?_, fun on closed d => ⟨?_, ?_, ?_⟩, fun on open_ => ?_, fun d entry sptr real => ?_, fun on target => ?_, fun on watts temps => ⟨fun hot => ?_, fun cool => ?_⟩⟩
  · rw [powerUp_runs, if_pos on]
  · refine ⟨_, (powerUp_runs s).trans (congrArg (fun x : State => Host.Outcome.next (x.modPkg (fun p => { p with mbOpen := true }))) (if_neg (by rw [off]; exact Bool.false_ne_true))),
      rfl, rfl, s.powerCycle_die, s.powerCycle_byte⟩
  · exact (loadfe_runs on rfl).trans (congrArg Host.Outcome.next (State.mbServe_closed closed _ _))
  · exact (loaddie_runs on d).trans (congrArg Host.Outcome.next (State.mbServe_closed closed _ _))
  · exact (quote_runs on rfl).trans (congrArg Host.Outcome.next (State.mbServe_closed closed _ _))
  · intro img entry done logged
    refine ⟨fun cmd d => s.imgReason_none cmd d img, fun x turn => ?_, fun d turn => ?_, fun x turn => ?_, fun c x d busy => ⟨fun other => ?_, fun other => ?_, fun other => ?_⟩⟩
    · have arg : (s.pkg.mbPend.map (fun x => x.2)).getD 0 = x := by
        rcases turn with ⟨none_, rfl⟩ | some_
        · rw [none_]
          rfl
        · rw [some_]
          rfl
      have runs := (loadfe_runs on arg).trans (congrArg Host.Outcome.next (State.mbServe_runs open_ (turn.imp_left And.left)))
      exact ⟨fun r why => runs.trans (congrArg Host.Outcome.next (State.mbRun_rejected rfl (by decide) why)),
        fun good => runs.trans (congrArg Host.Outcome.next ((State.mbRun_accepted rfl (by decide) good).trans (if_pos rfl)))⟩
    · have runs := (loaddie_runs on d).trans (congrArg Host.Outcome.next (State.mbServe_runs open_ turn))
      exact ⟨fun r why => runs.trans (congrArg Host.Outcome.next (State.mbRun_rejected rfl (by decide) why)),
        fun good => runs.trans (congrArg Host.Outcome.next ((State.mbRun_accepted rfl (by decide) good).trans (if_neg (by decide))))⟩
    · intro a
      have runs : ∃ y, exec .quote s = .next (s.mbRun 3 y) := by
        rcases turn with none_ | some_
        · exact ⟨_, (quote_runs on rfl).trans (congrArg Host.Outcome.next (State.mbServe_runs open_ (Or.inl none_)))⟩
        · exact ⟨x, (quote_runs on (by rw [some_]; rfl)).trans (congrArg Host.Outcome.next (State.mbServe_runs open_ (Or.inr some_)))⟩
      obtain ⟨y, runs⟩ := runs
      exact ⟨fun odd => runs.trans (congrArg Host.Outcome.next (State.mbRun_quoteBad odd)),
        fun aligned => ⟨runs.trans (congrArg Host.Outcome.next (State.mbRun_quote aligned)), s.quoteBody_length⟩⟩
    · exact (loadfe_runs on rfl).trans (congrArg Host.Outcome.next (State.mbServe_other busy fun is => other (congrArg Prod.fst is)))
    · exact (loaddie_runs on d).trans (congrArg Host.Outcome.next (State.mbServe_other busy other))
    · exact (quote_runs on rfl).trans (congrArg Host.Outcome.next (State.mbServe_other busy fun is => other (congrArg Prod.fst is)))
  · intro t
    have die := s.startDie_die d entry sptr
    refine ⟨congrArg Die.st die, congrArg Die.sptroot die, fun j inside => ?_⟩
    exact State.startCores_grp entry (supCores d) _ (Or.inl ((mem_upFrom _ _ _).2 ⟨by omega, by omega⟩))
  · intro p
    have runs : ∀ {t}, s.planClock target = t → exec (.clockPlan target) s = .next t := fun is => event_next (f := fun s => s.planClock target) on rfl is
    exact ⟨fun meets => runs (State.planClock_conflict meets),
      fun clear => ⟨fun k inside below free above => runs (State.planClock_some clear (Pkg.admitted_highest inside below free above)),
        fun all => runs (State.planClock_none clear (Pkg.admitted_none all))⟩⟩
  · refine event_next (f := fun s => s.measurePower watts temps) on rfl (if_pos ?_)
    obtain ⟨t, in_, high⟩ := hot
    exact List.any_eq_true.2 ⟨t, in_, decide_eq_true high⟩
  · have none_ : temps.any (fun t => decide (115 ≤ t)) = false := by
      rw [List.any_eq_false]
      intro t in_
      rw [decide_eq_true_eq]
      exact Nat.not_le.2 (cool t in_)
    obtain ⟨q, ⟨f, rfl, clear, up⟩, is⟩ := State.measurePower_cool (s := s) (watts := watts) none_
    exact ⟨_, event_next (f := fun s => s.measurePower watts temps) on rfl is, on, rfl, rfl, rfl, rfl, clear, up, rfl, rfl⟩

end
